-- ==== Sys2Proof/Word.lean ====
section
/-! DEFINITION. The words of the CY-256: bytes, and the 32- and 64-bit values of registers and addresses (R2, R19). -/

namespace Sys2Proof

/-- One byte. -/
abbrev Byte := BitVec 8

/-- A 32-bit register value. -/
abbrev W32 := BitVec 32

/-- A 64-bit value. -/
abbrev W64 := BitVec 64

end Sys2Proof
end

