-- ==== Sys2Proof/Syntax.lean ====
section
/-! DEFINITION. The abstract syntax of the CY-256: one constructor of Instr for each row of the opcode table. The first
ninety are steps that the device takes on its own (no encoding; what the outside chooses stands in their arguments); the
others are the instruction words of the twelve clause classes, each holding the fields of its format (R262-R266). -/

namespace Sys2Proof

/-- The TYPE codes of R261, in code order; code 31 names no type. -/
inductive Ty where
  | s8
  | s16
  | s32
  | s64
  | n8
  | n16
  | n32
  | n64
  | f16
  | bf16
  | f32
  | f64
  | f16x2
  | bf16x2
  | e4m3
  | e5m2
  | e3m2
  | e2m3
  | e2m1
  | mxi8
  | ply9
  | ply6
  | ply4
  | b32
  | b64
  | s8x4
  | n8x4
  | s16x2
  | n16x2
  | pred
  | xa
  | illegal
  deriving DecidableEq, Repr

/-- The code of a type (R261). -/
def Ty.code : Ty → BitVec 5
  | .s8 => 0
  | .s16 => 1
  | .s32 => 2
  | .s64 => 3
  | .n8 => 4
  | .n16 => 5
  | .n32 => 6
  | .n64 => 7
  | .f16 => 8
  | .bf16 => 9
  | .f32 => 10
  | .f64 => 11
  | .f16x2 => 12
  | .bf16x2 => 13
  | .e4m3 => 14
  | .e5m2 => 15
  | .e3m2 => 16
  | .e2m3 => 17
  | .e2m1 => 18
  | .mxi8 => 19
  | .ply9 => 20
  | .ply6 => 21
  | .ply4 => 22
  | .b32 => 23
  | .b64 => 24
  | .s8x4 => 25
  | .n8x4 => 26
  | .s16x2 => 27
  | .n16x2 => 28
  | .pred => 29
  | .xa => 30
  | .illegal => 31

/-- The type of a code (R261). -/
def Ty.ofCode (c : BitVec 5) : Ty :=
  match c.toNat with
  | 0 => .s8
  | 1 => .s16
  | 2 => .s32
  | 3 => .s64
  | 4 => .n8
  | 5 => .n16
  | 6 => .n32
  | 7 => .n64
  | 8 => .f16
  | 9 => .bf16
  | 10 => .f32
  | 11 => .f64
  | 12 => .f16x2
  | 13 => .bf16x2
  | 14 => .e4m3
  | 15 => .e5m2
  | 16 => .e3m2
  | 17 => .e2m3
  | 18 => .e2m1
  | 19 => .mxi8
  | 20 => .ply9
  | 21 => .ply6
  | 22 => .ply4
  | 23 => .b32
  | 24 => .b64
  | 25 => .s8x4
  | 26 => .n8x4
  | 27 => .s16x2
  | 28 => .n16x2
  | 29 => .pred
  | 30 => .xa
  | _ => .illegal

/-- Types held in 64 bits (R19). -/
def Ty.wide : Ty → Bool
  | .s64 | .n64 | .f64 | .b64 => true
  | _ => false

/-- The twelve classes of R253, in code order. -/
inductive Cls where
  | ctl
  | int
  | flt
  | sfu
  | cvt
  | lane
  | mem
  | asy
  | syn
  | mma
  | hnk
  | bem
  deriving DecidableEq, Repr

/-- The CLASS code of R253. -/
def Cls.code : Cls → BitVec 4
  | .ctl => 0
  | .int => 1
  | .flt => 2
  | .sfu => 3
  | .cvt => 4
  | .lane => 5
  | .mem => 6
  | .asy => 7
  | .syn => 8
  | .mma => 9
  | .hnk => 10
  | .bem => 11

/-- The class of a CLASS code; 0xC to 0xF name none (R254). -/
def Cls.ofCode (c : BitVec 4) : Option Cls :=
  match c.toNat with
  | 0 => some .ctl
  | 1 => some .int
  | 2 => some .flt
  | 3 => some .sfu
  | 4 => some .cvt
  | 5 => some .lane
  | 6 => some .mem
  | 7 => some .asy
  | 8 => some .syn
  | 9 => some .mma
  | 10 => some .hnk
  | 11 => some .bem
  | _ => none

/-- The fields of format V (R262). -/
structure FmtV where
  d : BitVec 7
  a : BitVec 7
  b : BitVec 7
  c : BitVec 7
  pred : BitVec 3
  pneg : Bool
  ty : Ty
  mode : BitVec 3
  lsel : BitVec 3
  nega : Bool
  negb : Bool
  sat : Bool
  aux : BitVec 10
  deriving DecidableEq, Repr

/-- The fields of format I (R263). -/
structure FmtI where
  d : BitVec 7
  a : BitVec 7
  pred : BitVec 3
  pneg : Bool
  ty : Ty
  imm : BitVec 32
  deriving DecidableEq, Repr

/-- The fields of format M (R264). -/
structure FmtM where
  d : BitVec 7
  base : BitVec 7
  index : BitVec 7
  scale : BitVec 3
  pred : BitVec 3
  pneg : Bool
  ty : Ty
  scope : BitVec 3
  order : BitVec 2
  cache : BitVec 2
  offset : BitVec 16
  deriving DecidableEq, Repr

/-- The fields of format B (R266). -/
structure FmtB where
  aux7 : BitVec 7
  a : BitVec 7
  pred : BitVec 3
  pneg : Bool
  sub : BitVec 6
  target : BitVec 32
  deriving DecidableEq, Repr

/-- The fields of format X (R266). -/
structure FmtX where
  d : BitVec 7
  a : BitVec 7
  b : BitVec 7
  c : BitVec 7
  pred : BitVec 3
  pneg : Bool
  imm8 : BitVec 8
  ctrl : BitVec 16
  deriving DecidableEq, Repr

/-- The fields of format S (R266). -/
structure FmtS where
  d : BitVec 7
  a : BitVec 7
  pred : BitVec 3
  pneg : Bool
  sreg : BitVec 16
  imm : BitVec 16
  deriving DecidableEq, Repr

/-- What a die's self-test shows in the mailbox (R247), the spares it put into use, as failed unit and spare (R245, R249), and the usable register
rows it found (R214). -/
structure SelfTest where
  pass : Bool
  test : BitVec 8
  unit : BitVec 16
  repairs : List (Nat × Nat)
  rows : List Nat
  deriving DecidableEq, Repr

/-- What an uncorrectable error marks poisoned (R137): a 128-byte line, a pad word of a core, a register row of a core. -/
inductive PoisonUnit where
  | line (pa : Nat)
  | padWord (core off : Nat)
  | row (core r : Nat)
  deriving DecidableEq, Repr

/-- One constructor for each row of the opcode table: the device steps that have operands, the instruction words, then the
device steps without operands. -/
inductive Instr where
  | selftestDone (die : Nat) (r : SelfTest)
  | mgmtqWrite (value : BitVec 64)
  | thermalEvent (die celsius : Nat)
  | creelHotModeChange (die celsius : Nat)
  | creelRefreshWindowEnd (die : Nat)
  | lockstepMismatch (die : Nat)
  | hostLinkUp (l gen width cxl : Nat)
  | hostLinkDown (l : Nat)
  | hostReadCompletion (op : Nat) (data : List Byte) (ok : Bool)
  | hostCompletionTimeout (op : Nat)
  | bar2Read (off n : Nat)
  | bar2Write (off : Nat) (bytes : List Byte)
  | registerWrite (off size : Nat) (value : BitVec 64)
  | tailWrite (ctx q : Nat) (value : BitVec 32)
  | resolveWrite (ctx : Nat)
  | consumedWrite (ctx : Nat) (value : BitVec 64)
  | portEnable (p : Nat) (on : Bool)
  | portIsolate (p : Nat) (on : Bool)
  | retrain (p : Nat)
  | portTrainDone (p lanes : Nat) (peerId : BitVec 56) (peerPort : BitVec 4)
  | portTrainTimeout (p : Nat)
  | flitReceive (p : Nat) (flit : List Byte)
  | nakReceive (p : Nat) (ack : BitVec 12)
  | pauseReceive (p : Nat) (vc : Nat)
  | resumeReceive (p : Nat) (vc : Nat)
  | spdmChallenge (carrier : Nat) (nonce : List Byte)
  | spdmGetMeasurements (carrier index : Nat)
  | packetFetch (ctx q : Nat)
  | slotRereadTimer (ctx q : Nat) (long : Bool)
  | boardScan (ctx q : Nat)
  | signalWatchNotify (ctx q pos : Nat)
  | signalWatchReread (ctx q pos : Nat)
  | packetComplete (ctx q pos : Nat)
  | rootSpanPlace (launch : Nat)
  | groupPlace (launch : Nat)
  | deviceQueuePop (ctx q : Nat)
  | devqSlotReread (ctx q : Nat)
  | clauseFetch (unit : Nat)
  | longLatencyResult (op : Nat)
  | groupRetire (launch gid : Nat)
  | yieldExpire (unit : Nat)
  | watchdog (unit : Nat)
  | migRewalkTimer (ctx : Nat)
  | l1Eviction (core line : Nat)
  | uncorrectableError (unit : PoisonUnit)
  | atomicEngineServe (cluster : Nat)
  | copyPerform (cluster engine : Nat)
  | copyEnd (id : Nat)
  | hankOperationPerform (entry : Nat)
  | beamQueryStart (cluster : Nat)
  | beamQueryDone (cluster slot : Nat)
  | mmaSequencerPerform (core : Nat)
  | mmaAssistComplete (core : Nat)
  | nop (f : FmtS)
  | bra (f : FmtB)
  | brp (f : FmtB)
  | join (f : FmtB)
  | call (f : FmtB)
  | calli (f : FmtB)
  | ret (f : FmtB)
  | jmpi (f : FmtB)
  | exit (f : FmtB)
  | region (f : FmtB)
  | yield (f : FmtS)
  | trap (f : FmtS)
  | brk (f : FmtS)
  | spawn (f : FmtB)
  | deal (f : FmtB)
  | rdsr (f : FmtS)
  | wrsr (f : FmtS)
  | fmode (f : FmtS)
  | iadd (f : FmtV)
  | iaddImm (f : FmtI)
  | isub (f : FmtV)
  | isubImm (f : FmtI)
  | imul (f : FmtV)
  | imulImm (f : FmtI)
  | imulh (f : FmtV)
  | imad (f : FmtV)
  | imin (f : FmtV)
  | iminImm (f : FmtI)
  | imax (f : FmtV)
  | imaxImm (f : FmtI)
  | iabs (f : FmtV)
  | ineg (f : FmtV)
  | land (f : FmtV)
  | landImm (f : FmtI)
  | lor (f : FmtV)
  | lorImm (f : FmtI)
  | lxor (f : FmtV)
  | lxorImm (f : FmtI)
  | lnot (f : FmtV)
  | landn (f : FmtV)
  | landnImm (f : FmtI)
  | shl (f : FmtV)
  | shlImm (f : FmtI)
  | shr (f : FmtV)
  | shrImm (f : FmtI)
  | sar (f : FmtV)
  | sarImm (f : FmtI)
  | rol (f : FmtV)
  | rolImm (f : FmtI)
  | ror (f : FmtV)
  | rorImm (f : FmtI)
  | popc (f : FmtV)
  | clz (f : FmtV)
  | ctz (f : FmtV)
  | brev (f : FmtV)
  | bfx (f : FmtV)
  | bfi (f : FmtV)
  | icmp (f : FmtV)
  | icmpImm (f : FmtI)
  | sel (f : FmtV)
  | mov (f : FmtV)
  | movi (f : FmtI)
  | lea (f : FmtV)
  | leaImm (f : FmtI)
  | iaddw (f : FmtV)
  | iaddwImm (f : FmtI)
  | isubw (f : FmtV)
  | icmpw (f : FmtV)
  | mort (f : FmtV)
  | unmort (f : FmtV)
  | prmt (f : FmtV)
  | fadd (f : FmtV)
  | faddImm (f : FmtI)
  | fsub (f : FmtV)
  | fmul (f : FmtV)
  | fmulImm (f : FmtI)
  | ffma (f : FmtV)
  | ffmaImm (f : FmtI)
  | fmin (f : FmtV)
  | fmax (f : FmtV)
  | fcmp (f : FmtV)
  | fcmpImm (f : FmtI)
  | fclass (f : FmtV)
  | frnd (f : FmtV)
  | fdot2 (f : FmtV)
  | fscale (f : FmtV)
  | rcp (f : FmtV)
  | rsq (f : FmtV)
  | sqrt (f : FmtV)
  | exp2 (f : FmtV)
  | log2 (f : FmtV)
  | sin (f : FmtV)
  | cos (f : FmtV)
  | tanh (f : FmtV)
  | fdiv (f : FmtV)
  | idiv (f : FmtV)
  | irem (f : FmtV)
  | cvt (f : FmtV)
  | pack (f : FmtV)
  | unpk (f : FmtV)
  | qmx (f : FmtV)
  | dqmx (f : FmtV)
  | qply (f : FmtV)
  | dqply (f : FmtV)
  | kmov (f : FmtV)
  | perm (f : FmtV)
  | shfl (f : FmtV)
  | bcast (f : FmtV)
  | votea (f : FmtV)
  | votey (f : FmtV)
  | ballot (f : FmtV)
  | scan (f : FmtV)
  | redi (f : FmtV)
  | xadd (f : FmtV)
  | xrnd (f : FmtV)
  | xclr (f : FmtV)
  | xld (f : FmtV)
  | xst (f : FmtV)
  | shape (f : FmtV)
  | ld (f : FmtM)
  | st (f : FmtM)
  | lds (f : FmtM)
  | sts (f : FmtM)
  | phase (f : FmtM)
  | xfence (f : FmtM)
  | pref (f : FmtM)
  | atomAdd (f : FmtM)
  | atomSub (f : FmtM)
  | atomMin (f : FmtM)
  | atomMax (f : FmtM)
  | atomAnd (f : FmtM)
  | atomOr (f : FmtM)
  | atomXor (f : FmtM)
  | atomXchg (f : FmtM)
  | atomCas (f : FmtM)
  | atomInc (f : FmtM)
  | atomFadd (f : FmtM)
  | atomFadd2 (f : FmtM)
  | atomXam (f : FmtM)
  | atomLd (f : FmtM)
  | atomsAdd (f : FmtM)
  | atomsSub (f : FmtM)
  | atomsMin (f : FmtM)
  | atomsMax (f : FmtM)
  | atomsAnd (f : FmtM)
  | atomsOr (f : FmtM)
  | atomsXor (f : FmtM)
  | atomsXchg (f : FmtM)
  | atomsCas (f : FmtM)
  | atomsInc (f : FmtM)
  | atomsFadd (f : FmtM)
  | atomsFadd2 (f : FmtM)
  | atomsXam (f : FmtM)
  | atomsLd (f : FmtM)
  | acp (f : FmtX)
  | aseal (f : FmtX)
  | await (f : FmtX)
  | bcp (f : FmtX)
  | bxf (f : FmtX)
  | qfen (f : FmtX)
  | coll (f : FmtX)
  | astat (f : FmtX)
  | bari (f : FmtX)
  | bara (f : FmtX)
  | barw (f : FmtX)
  | barx (f : FmtX)
  | barc (f : FmtX)
  | waita (f : FmtX)
  | pipw (f : FmtX)
  | barq (f : FmtX)
  | mma (f : FmtX)
  | mzero (f : FmtX)
  | mdrain (f : FmtX)
  | mload (f : FmtX)
  | hkins (f : FmtX)
  | hkdel (f : FmtX)
  | hkmove (f : FmtX)
  | hkupd (f : FmtX)
  | hkopen (f : FmtX)
  | hknext (f : FmtX)
  | hkclose (f : FmtX)
  | hkcount (f : FmtX)
  | hkfind (f : FmtX)
  | hknbr (f : FmtX)
  | hkrank (f : FmtX)
  | hkrankThaw (f : FmtX)
  | hkstat (f : FmtX)
  | bqry (f : FmtX)
  | bpop (f : FmtX)
  | bstat (f : FmtX)
  | bstatRelease (f : FmtX)
  | powerOnReset
  | loadFw
  | verifyDone
  | powerInputFault
  | spdmGetVersion (carrier : Nat)
  | spdmGetCapabilities (carrier : Nat)
  | spdmNegotiate (carrier : Nat)
  | spdmGetDigests (carrier : Nat)
  | spdmGetCertificate (carrier : Nat)
  | mctpStageQuery
  | nopPacket
  | launchPacket
  | copyPacket
  | barrierPacket
  | signalPacket
  | creelBegin
  | creelSeal
  | markerPacket
  | contextCreate
  | contextPaging
  | contextQueue
  | contextUnqueue
  | contextInval
  | contextSuspend
  | contextResume
  | contextTerminate
  | contextResize
  | resizeMapChange
  | launchAbortDone
  | barcContinuationStart
  | contextSaveComplete
  | contextRestore
  | invalidationComplete
  | hankMoveInsert
  | hankRankComplete
  | hankThawComplete
  | collJobEnd
  deriving DecidableEq, Repr

end Sys2Proof
end

