-- ==== Sys2Proof/Config.lean ====
section
/-! DEFINITION. The free values: what the spec leaves open and the machine goes on with. Each is an opaque constant applied
to the state's counter (or to the operands it depends on), so no proof knows its value (assumption log 8 to 11). -/

namespace Sys2Proof.Config

/-- Cycles that pass on a die's counter in one step (assumption log 4). -/
opaque freeCycles : Nat → BitVec 64

/-- A bit that the spec leaves open. -/
opaque freeBit : Nat → Bool

/-- A number that the spec leaves open, used modulo the number of allowed choices. -/
opaque freePick : Nat → Nat

/-- A byte that the spec leaves open. -/
opaque freeByte : Nat → BitVec 8

/-- Whether the host turns an access of its memory away: the counter and the 128-byte line give an answer of the host system's own, which
R11 leaves to it (assumption log 8). -/
opaque hostRefuses : Nat → Nat → Bool

/-- The STATUS of an engine access that a weave page refuses as misaligned, for which the spec lists no code (R169, R367, assumption log 25). -/
opaque misalignStatus : BitVec 32

/-- The value a special-function unit gives for an operation on operand bits; the machine uses it only inside the bound the
spec states (R315, assumption log 9). -/
opaque sfuValue : Nat → BitVec 64 → BitVec 64

/-- The 57 bytes of the Ed448 public key whose digest is fused into every die (R248, assumption log 11). -/
opaque verifyingKey : Nat → BitVec 8

/-- The boot ROM (R249, assumption log 11). -/
opaque bootRom : List (BitVec 8)

/-- How the repair map of self-test is laid out in bytes: of the spares that each die has in use and of the usable rows of the cores (R249, assumption
log 11). -/
opaque repairMap : List (List (Nat × Nat)) → List Nat → List (BitVec 8)

/-- The certificate chain of the device's identity key (R249, assumption log 11). -/
opaque certificate : List (BitVec 8)

/-- The 57 secret bytes of the device's Ed448 identity key (R249, assumption log 11). -/
opaque identityKey : Nat → BitVec 8

end Sys2Proof.Config
end

