-- ==== Sys2Proof/Machine/Num.lean ====
section
/-! DEFINITION. Number formats and their arithmetic (R22-R31, R308-R317): a floating-point value as a sign, a magnitude and a
power of two, exact sums and products, one rounding to a format, and the special functions. -/

namespace Sys2Proof.Machine

/-- How a format uses its largest exponent (R23). -/
inductive TopKind where
  | ieee | e4m3 | finite
  deriving DecidableEq, Repr

/-- A floating-point format (R23): widths of exponent and fraction, and the bias. -/
structure Ffmt where
  ew : Nat
  fw : Nat
  bias : Nat
  top : TopKind
  deriving DecidableEq, Repr

def fmtF64 : Ffmt := { ew := 11, fw := 52, bias := 1023, top := .ieee }
def fmtF32 : Ffmt := { ew := 8, fw := 23, bias := 127, top := .ieee }
def fmtF16 : Ffmt := { ew := 5, fw := 10, bias := 15, top := .ieee }
def fmtBf16 : Ffmt := { ew := 8, fw := 7, bias := 127, top := .ieee }
def fmtE5m2 : Ffmt := { ew := 5, fw := 2, bias := 15, top := .ieee }
def fmtE4m3 : Ffmt := { ew := 4, fw := 3, bias := 7, top := .e4m3 }
def fmtE3m2 : Ffmt := { ew := 3, fw := 2, bias := 3, top := .finite }
def fmtE2m3 : Ffmt := { ew := 2, fw := 3, bias := 1, top := .finite }
def fmtE2m1 : Ffmt := { ew := 2, fw := 1, bias := 1, top := .finite }

/-- The format of a scalar or packed floating-point type. -/
def tyFfmt : Ty → Ffmt
  | .f64 => fmtF64
  | .f16 | .f16x2 => fmtF16
  | .bf16 | .bf16x2 => fmtBf16
  | .e4m3 => fmtE4m3
  | .e5m2 => fmtE5m2
  | .e3m2 => fmtE3m2
  | .e2m3 => fmtE2m3
  | .e2m1 => fmtE2m1
  | _ => fmtF32

/-- The four rounding modes (R26), coded as %fmode bits 1:0 code them. -/
inductive Rm where
  | rne | rtz | rup | rdn
  deriving DecidableEq, Repr

/-- The mode of %fmode bits 1:0 (R270). -/
def Rm.ofFmode (f : BitVec 4) : Rm :=
  match (f.extractLsb' 0 2).toNat with
  | 0 => .rne
  | 1 => .rtz
  | 2 => .rup
  | _ => .rdn

/-- The mode of a MODE field: 0 is %fmode's (R26). -/
def Rm.ofMode (mode : BitVec 3) (fmode : BitVec 4) : Rm :=
  match mode.toNat with
  | 1 => .rne
  | 2 => .rtz
  | 3 => .rup
  | 4 => .rdn
  | _ => Rm.ofFmode fmode

/-- A floating-point value: fin neg mag exp is (-1)^neg * mag * 2^exp. -/
inductive Fv where
  | nan
  | inf (neg : Bool)
  | fin (neg : Bool) (mag : Nat) (exp : Int)
  deriving DecidableEq, Repr

/-- Bits of a format: sign, exponent, fraction. -/
def Ffmt.width (f : Ffmt) : Nat := 1 + f.ew + f.fw

/-- The value of a bit pattern (R23). -/
def Ffmt.decode (f : Ffmt) (bits : Nat) : Fv :=
  let neg := bits.testBit (f.ew + f.fw)
  let ex := (bits >>> f.fw) % 2 ^ f.ew
  let fr := bits % 2 ^ f.fw
  let topEx := 2 ^ f.ew - 1
  if f.top = .ieee ∧ ex = topEx then (if fr = 0 then .inf neg else .nan)
  else if f.top = .e4m3 ∧ ex = topEx ∧ fr = 2 ^ f.fw - 1 then .nan
  else if ex = 0 then .fin neg fr (1 - (f.bias : Int) - f.fw)
  else .fin neg (fr + 2 ^ f.fw) ((ex : Int) - f.bias - f.fw)

/-- The sign bit at its place. -/
def Ffmt.signBit (f : Ffmt) (neg : Bool) : Nat := if neg then 2 ^ (f.ew + f.fw) else 0

/-- The largest exponent field of a finite value. -/
def Ffmt.topExp (f : Ffmt) : Nat := if f.top = .ieee then 2 ^ f.ew - 2 else 2 ^ f.ew - 1

/-- The bits of the largest finite magnitude. -/
def Ffmt.maxBits (f : Ffmt) : Nat :=
  match f.top with
  | .ieee => (2 ^ f.ew - 2) * 2 ^ f.fw + (2 ^ f.fw - 1)
  | .e4m3 => 2 ^ (f.ew + f.fw) - 2
  | .finite => 2 ^ (f.ew + f.fw) - 1

/-- The canonical NaN (R24). -/
def Ffmt.nanBits (f : Ffmt) : Nat :=
  match f.top with
  | .ieee => (2 ^ f.ew - 1) * 2 ^ f.fw + 2 ^ (f.fw - 1)
  | .e4m3 => 2 ^ (f.ew + f.fw) - 1
  | .finite => 0

/-- An infinite result: R28's second row; into e4m3 a NaN with the sign; a finite format clamps. -/
def Ffmt.infBits (f : Ffmt) (neg sat : Bool) : Nat :=
  if sat then f.signBit neg + f.maxBits
  else match f.top with
    | .ieee => f.signBit neg + (2 ^ f.ew - 1) * 2 ^ f.fw
    | .e4m3 => f.signBit neg + (2 ^ (f.ew + f.fw) - 1)
    | .finite => f.signBit neg + f.maxBits

/-- Whether the mode takes an overflowing magnitude to infinity (R28). -/
def Rm.overflowsToInf (rm : Rm) (neg : Bool) : Bool :=
  match rm with
  | .rne => true
  | .rtz => false
  | .rup => !neg
  | .rdn => neg

/-- Round the magnitude mag * 2^e (plus a positive amount below one unit of mag when sticky) to a multiple of 2^q: the count
of units. -/
def roundUnits (rm : Rm) (neg : Bool) (mag : Nat) (e : Int) (sticky : Bool) (q : Int) : Nat :=
  if q ≤ e then mag <<< (e - q).toNat
  else
    let s := (q - e).toNat
    let n := mag >>> s
    let rem := mag - (n <<< s)
    let half := 1 <<< (s - 1)
    let exact := rem == 0 && !sticky
    let up := match rm with
      | .rne => decide (half < rem) || (rem == half && (sticky || n % 2 == 1))
      | .rtz => false
      | .rup => !exact && !neg
      | .rdn => !exact && neg
    if up then n + 1 else n

/-- floor(log2) of a positive magnitude. -/
def ilog2 (mag : Nat) (e : Int) : Int := (Nat.log2 mag : Int) + e

/-- Whether mag * 2^e is at least n. -/
def atLeast (mag : Nat) (e : Int) (n : Nat) : Bool :=
  if 0 ≤ e then decide (n ≤ mag <<< e.toNat) else decide (n <<< (-e).toNat ≤ mag)

/-- Round a finite value to a format, once, with R28's overflow rows. Into e4m3 under RNE a magnitude of 464 or more rounds
beyond the largest value (R28). -/
def Ffmt.roundFin (f : Ffmt) (rm : Rm) (sat neg : Bool) (mag : Nat) (e : Int) (sticky : Bool) : Nat :=
  if mag = 0 then
    (if sticky && ((rm == .rup && !neg) || (rm == .rdn && neg)) then f.signBit neg + 1 else f.signBit neg)
  else
    let l := max (ilog2 mag e) (1 - (f.bias : Int))
    let q := l - f.fw
    let n := roundUnits rm neg mag e sticky q
    let carry := n == 2 ^ (f.fw + 1)
    let n' := if carry then 2 ^ f.fw else n
    let ex : Int := (if carry then q + 1 else q) + f.fw + f.bias
    let bits := if n' < 2 ^ f.fw then n' else ex.toNat * 2 ^ f.fw + (n' - 2 ^ f.fw)
    let tooBig := decide (f.maxBits < bits) || (f.top == .e4m3 && rm == .rne && atLeast mag e 464)
    if tooBig then (if sat || !rm.overflowsToInf neg then f.signBit neg + f.maxBits else f.infBits neg false)
    else f.signBit neg + bits

/-- The bits of a result (R28, R30). -/
def Ffmt.encode (f : Ffmt) (rm : Rm) (sat : Bool) : Fv → Nat
  | .nan => f.nanBits
  | .inf neg => f.infBits neg sat
  | .fin neg mag e => f.roundFin rm sat neg mag e false

/-- The integer that a finite value is in units of 2^e. -/
def scaledInt (neg : Bool) (mag : Nat) (e e0 : Int) : Int :=
  let m : Int := ((mag <<< (e - e0).toNat : Nat) : Int)
  if neg then -m else m

/-- The exact sum; an exact zero takes the sign that IEEE 754 gives it (R25, R28). -/
def Fv.add (rm : Rm) : Fv → Fv → Fv
  | .nan, _ => .nan
  | _, .nan => .nan
  | .inf a, .inf b => if a == b then .inf a else .nan
  | .inf a, .fin .. => .inf a
  | .fin .., .inf b => .inf b
  | .fin na ma ea, .fin nb mb eb =>
    if ma = 0 ∧ mb = 0 then .fin (if na == nb then na else rm == .rdn) 0 ea
    else if ma = 0 then .fin nb mb eb
    else if mb = 0 then .fin na ma ea
    else
      let e0 := min ea eb
      let t := scaledInt na ma ea e0 + scaledInt nb mb eb e0
      if t = 0 then .fin (rm == .rdn) 0 e0 else .fin (decide (t < 0)) t.natAbs e0

/-- Change the sign. -/
def Fv.neg : Fv → Fv
  | .nan => .nan
  | .inf n => .inf (!n)
  | .fin n m e => .fin (!n) m e

/-- The exact product (R28). -/
def Fv.mul : Fv → Fv → Fv
  | .nan, _ => .nan
  | _, .nan => .nan
  | .inf a, .inf b => .inf (a != b)
  | .inf a, .fin b mb _ => if mb = 0 then .nan else .inf (a != b)
  | .fin a ma _, .inf b => if ma = 0 then .nan else .inf (a != b)
  | .fin a ma ea, .fin b mb eb => .fin (a != b) (ma * mb) (ea + eb)

/-- The exact difference a - b as a comparison: less, equal or greater; none where unordered. -/
def Fv.cmp : Fv → Fv → Option Ordering
  | .nan, _ => none
  | _, .nan => none
  | .inf a, .inf b => some (if a == b then .eq else if a then .lt else .gt)
  | .inf a, .fin .. => some (if a then .lt else .gt)
  | .fin .., .inf b => some (if b then .gt else .lt)
  | .fin na ma ea, .fin nb mb eb =>
    let e0 := min ea eb
    some (compare (scaledInt na ma ea e0) (scaledInt nb mb eb e0))

/-- Whether a value is zero. -/
def Fv.isZero : Fv → Bool
  | .fin _ m _ => m == 0
  | _ => false

/-- The sign of a value. -/
def Fv.sign : Fv → Bool
  | .nan => false
  | .inf n => n
  | .fin n _ _ => n

/-- The integer square root, one bit at a time from bit k downward: the largest r with r * r ≤ n. -/
def isqrtFrom (n : Nat) : Nat → Nat → Nat
  | 0, r => r
  | k + 1, r =>
    let r' := r + 1 <<< k
    if r' * r' ≤ n then isqrtFrom n k r' else isqrtFrom n k r

/-- The integer square root. -/
def isqrt (n : Nat) : Nat := isqrtFrom n (Nat.log2 n / 2 + 1) 0

/-- Binary places of the fixed-point special functions. -/
def fixBits : Nat := 320

/-- pi in units of 2^-640. -/
def piFix : Nat := 0x3243f6a8885a308d313198a2e03707344a4093822299f31d0082efa98ec4e6c89452821e638d01377be5466cf34e90c6cc0ac29b7c97c50dd3f84d5b5b54709179216d5d98979fb1bd1310ba698dfb5ac

/-- The natural logarithm of 2 in units of 2^-640. -/
def ln2Fix : Nat := 0xb17217f7d1cf79abc9e3b39803f2f6af40f343267298b62d8a0d175b8baafa2be7b876206debac98559552fb4afa1b10ed2eae35c138214427573b291169b8253e96ca16224ae8c51acbda11317c387e

/-- A non-negative dyadic in units of 2^-p, rounded down. -/
def toFix (p : Nat) (mag : Nat) (e : Int) : Nat :=
  if 0 ≤ e + p then mag <<< (e + p).toNat else mag >>> (-(e + p)).toNat

/-- Sum of x^k / k!-like series: each term is the term before times x / (step k), until fuel ends. -/
def expSeries (p x : Nat) : Nat → Nat → Nat → Nat → Nat
  | 0, _, _, acc => acc
  | fuel + 1, k, term, acc =>
    let term' := ((term * x) >>> p) / (k + 1)
    if term' = 0 then acc else expSeries p x fuel (k + 1) term' (acc + term')

/-- e^x for x of units 2^-p below 1. -/
def expFix (p x : Nat) : Nat := expSeries p x 200 0 (1 <<< p) (1 <<< p)

/-- The alternating series x - x^3/3! + ... from term k. -/
def sinSeries (p x2 : Nat) : Nat → Nat → Nat → Int → Int → Int
  | 0, _, _, _, acc => acc
  | fuel + 1, k, term, sgn, acc =>
    let term' := ((term * x2) >>> p) / ((k + 1) * (k + 2))
    if term' = 0 then acc else sinSeries p x2 fuel (k + 2) term' (-sgn) (acc - sgn * (term' : Int))

/-- sin x for x of units 2^-p in [0, 2). -/
def sinFix (p x : Nat) : Int := sinSeries p ((x * x) >>> p) 200 1 x 1 (x : Int)

/-- cos x for x of units 2^-p in [0, 2). -/
def cosFix (p x : Nat) : Int := sinSeries p ((x * x) >>> p) 200 0 (1 <<< p) 1 ((1 <<< p : Nat) : Int)

/-- The series z + z^3/3 + z^5/5 + ... for atanh. -/
def atanhSeries (p z2 : Nat) : Nat → Nat → Nat → Nat → Nat
  | 0, _, _, acc => acc
  | fuel + 1, k, term, acc =>
    let term' := (term * z2) >>> p
    if term' = 0 then acc else atanhSeries p z2 fuel (k + 2) term' (acc + term' / (k + 2))

/-- ln m for m of units 2^-p in [1, 2). -/
def lnFix (p m : Nat) : Nat :=
  let one := 1 <<< p
  let z := ((m - one) <<< p) / (m + one)
  2 * atanhSeries p ((z * z) >>> p) 400 1 z z

/-- A real number to high accuracy: exact, or with a positive rest below one unit of mag. -/
structure Approx where
  neg : Bool
  mag : Nat
  exp : Int
  sticky : Bool
  deriving DecidableEq, Repr

/-- The quotient of two positive dyadics, with 200 more bits than the operands differ by. -/
def divReal (neg : Bool) (ma : Nat) (ea : Int) (mb : Nat) (eb : Int) : Approx :=
  let k := Nat.log2 mb + 200
  let n := ma <<< k
  { neg := neg, mag := n / mb, exp := ea - eb - k, sticky := n % mb != 0 }

/-- The square root of a positive dyadic. -/
def sqrtReal (m : Nat) (e : Int) : Approx :=
  let m' := if e % 2 = 0 then m else 2 * m
  let e' := if e % 2 = 0 then e else e - 1
  let n := m' <<< 400
  let r := isqrt n
  { neg := false, mag := r, exp := e' / 2 - 200, sticky := r * r != n }

/-- 2^x for a finite x. -/
def exp2Real (neg : Bool) (mag : Nat) (e : Int) : Approx :=
  if mag = 0 then { neg := false, mag := 1, exp := 0, sticky := false }
  else if 12 < ilog2 mag e then { neg := false, mag := 1, exp := if neg then -8192 else 8192, sticky := true }
  else
    let p := fixBits
    let x := toFix p mag e
    let exact := decide (0 ≤ e) || mag % 2 ^ (-e).toNat == 0
    let n := x >>> p
    let f := x - (n <<< p)
    if exact then { neg := false, mag := 1, exp := if neg then -(n : Int) else n, sticky := false }
    else
      let up := !neg
      let f' := if up then f else (1 <<< p) - f
      let n' : Int := if up then n else -(n : Int) - 1
      { neg := false, mag := expFix p ((f' * (ln2Fix >>> (640 - p))) >>> p), exp := n' - p, sticky := true }

/-- log2 of a positive dyadic. -/
def log2Real (mag : Nat) (e : Int) : Approx :=
  let p := fixBits
  let l := ilog2 mag e
  let m := toFix p mag (e - l)
  if m = 1 <<< p then { neg := decide (l < 0), mag := l.natAbs, exp := 0, sticky := false }
  else
    let frac : Int := (((lnFix p m) <<< p) / (ln2Fix >>> (640 - p)) : Nat)
    let t : Int := l * ((1 <<< p : Nat) : Int) + frac
    { neg := decide (t < 0), mag := t.natAbs, exp := -(p : Int), sticky := true }

/-- sin (or cos) of a finite value, by exact argument reduction (R315). -/
def sinCosReal (cosine neg : Bool) (mag : Nat) (e : Int) : Approx :=
  let p := fixBits
  let big := 640
  let x := toFix big mag e
  let halfPi := piFix >>> 1
  let q := x / halfPi
  let r := (x - q * halfPi) >>> (big - p)
  let k := (q + (if cosine then 1 else 0)) % 4
  let s := if k % 2 = 0 then sinFix p r else cosFix p r
  let s' := if k < 2 then s else -s
  let s'' := if neg && !cosine then -s' else s'
  { neg := decide (s'' < 0), mag := s''.natAbs, exp := -(p : Int), sticky := true }

/-- tanh of a finite value. -/
def tanhReal (neg : Bool) (mag : Nat) (e : Int) : Approx :=
  let p := fixBits
  if 7 < ilog2 mag e then { neg := neg, mag := (1 <<< p) - 1, exp := -(p : Int), sticky := true }
  else
    let x2 := toFix (2 * p) mag (e + 1)
    let y := x2 / (ln2Fix >>> (640 - p))
    let n := y >>> p
    let f := y - (n <<< p)
    let ex := (expFix p ((f * (ln2Fix >>> (640 - p))) >>> p)) <<< n
    let one := 1 <<< p
    { neg := neg, mag := ((ex - one) <<< p) / (ex + one), exp := -(p : Int), sticky := true }

/-- Round a high-accuracy value to a format. -/
def Ffmt.roundReal (f : Ffmt) (rm : Rm) (sat : Bool) (r : Approx) : Nat :=
  f.roundFin rm sat r.neg r.mag r.exp r.sticky

/-- Whether a finite candidate lies within n ulp of a value, the ulp taken of the value (R315). -/
def Ffmt.within (f : Ffmt) (n : Nat) (absExp : Option Int) (cand : Fv) (y : Approx) : Bool :=
  match cand with
  | .fin cn cm ce =>
    let e0 := min ce y.exp
    let d := (scaledInt cn cm ce e0 - scaledInt y.neg y.mag y.exp e0).natAbs
    let l := max (if y.mag = 0 then 1 - (f.bias : Int) else ilog2 y.mag y.exp) (1 - (f.bias : Int))
    let u : Int := match absExp with
      | some a => a
      | none => l - f.fw
    if u < e0 then d == 0 else decide (d ≤ n * 2 ^ (u - e0).toNat)
  | _ => false

/-- The special functions of R286 by opcode. -/
inductive SfuOp where
  | rcp | rsq | exp2 | log2 | sin | cos | tanh
  deriving DecidableEq, Repr

def SfuOp.code : SfuOp → Nat
  | .rcp => 0
  | .rsq => 1
  | .exp2 => 3
  | .log2 => 4
  | .sin => 5
  | .cos => 6
  | .tanh => 7

/-- The exact value at a finite, ordinary argument. -/
def SfuOp.value (op : SfuOp) (neg : Bool) (mag : Nat) (e : Int) : Approx :=
  match op with
  | .rcp => divReal neg 1 0 mag e
  | .rsq =>
    let s := sqrtReal mag e
    let r := divReal false 1 0 mag e
    if s.sticky then sqrtReal r.mag r.exp else divReal false 1 0 s.mag s.exp
  | .exp2 => exp2Real neg mag e
  | .log2 => log2Real mag e
  | .sin => sinCosReal false neg mag e
  | .cos => sinCosReal true neg mag e
  | .tanh => tanhReal neg mag e

/-- The inputs of R316's table; none for an ordinary finite argument. -/
def SfuOp.special (op : SfuOp) (x : Fv) : Option Fv :=
  let one : Fv := .fin false 1 0
  let zero (n : Bool) : Fv := .fin n 0 0
  match x with
  | .nan => some .nan
  | .inf n =>
    match op with
    | .rcp => some (zero n)
    | .rsq => some (if n then .nan else zero false)
    | .exp2 => some (if n then zero false else .inf false)
    | .log2 => some (if n then .nan else .inf false)
    | .sin | .cos => some .nan
    | .tanh => some (.fin n 1 0)
  | .fin n m _ =>
    if m = 0 then
      match op with
      | .rcp | .rsq => some (.inf n)
      | .exp2 | .cos => some one
      | .log2 => some (.inf true)
      | .sin | .tanh => some (zero n)
    else
      match op with
      | .rsq | .log2 => if n then some .nan else none
      | _ => none

/-- The bound of R315 on a 32- or 64-bit result, in ulp. -/
def SfuOp.ulps : SfuOp → Nat
  | .rcp => 1
  | _ => 2

/-- Arguments at which R315 fixes the result: 2^a for an integer a, log2 of a power of two, sin of a small argument (itself). -/
def SfuOp.exact (op : SfuOp) (x : Fv) (y : Approx) : Option Fv :=
  match op, x with
  | .exp2, _ => if y.sticky then none else some (.fin y.neg y.mag y.exp)
  | .log2, _ => if y.sticky then none else some (.fin y.neg y.mag y.exp)
  | .sin, .fin n m e => if ilog2 m e < -12 then some (.fin n m e) else none
  | _, _ => none

/-- LOG2's absolute bound 2^-22 for an argument in [0.5, 2) (R315). -/
def SfuOp.absBound (op : SfuOp) (x : Fv) : Option Int :=
  match op, x with
  | .log2, .fin _ m e => if ilog2 m e = -1 ∨ ilog2 m e = 0 then some (-22) else none
  | _, _ => none

/-- A special function (R314-R316). A 16-bit result is rounded correctly; a wider one is any value inside the bound: the free
value Config.sfuValue where it lies inside, else the correctly rounded value. -/
def SfuOp.eval (op : SfuOp) (f : Ffmt) (sat : Bool) (bits : Nat) : Nat :=
  let x := f.decode bits
  match op.special x, x with
  | some r, _ => f.encode .rne sat r
  | none, .fin n m e =>
    let y := op.value n m e
    let right := f.roundReal .rne sat y
    if f.width ≤ 16 then right
    else match op.exact x y with
      | some r => f.encode .rne sat r
      | none =>
        let cand := (Config.sfuValue (op.code * 4 + (if f.width = 64 then 1 else 0)) (BitVec.ofNat 64 bits)).toNat % 2 ^ f.width
        let n := match op.absBound x with
          | some _ => 1
          | none => op.ulps
        let unit : Fv := .fin false 1 0
        let tooBig := right % 2 ^ (f.ew + f.fw) == f.maxBits || right % 2 ^ (f.ew + f.fw) == f.infBits false false
        let bounded := match op with
          | .sin | .cos | .tanh =>
            (match Fv.cmp (match f.decode cand with | .fin _ cm ce => .fin false cm ce | v => v) unit with
              | some .gt => false
              | none => false
              | _ => true)
          | _ => true
        if !tooBig && bounded && f.within n (op.absBound x) (f.decode cand) y then cand else right
  | none, _ => f.nanBits

/-- The quotient rounded once (R317). -/
def Ffmt.div (f : Ffmt) (rm : Rm) (sat : Bool) (a b : Nat) : Nat :=
  match f.decode a, f.decode b with
  | .nan, _ => f.nanBits
  | _, .nan => f.nanBits
  | .inf _, .inf _ => f.nanBits
  | .inf n, .fin n' _ _ => f.infBits (n != n') sat
  | .fin n _ _, .inf n' => f.signBit (n != n')
  | .fin n m e, .fin n' m' e' =>
    if m' = 0 then (if m = 0 then f.nanBits else f.infBits (n != n') sat)
    else if m = 0 then f.signBit (n != n')
    else f.roundReal rm sat (divReal (n != n') m e m' e')

/-- The square root rounded once (R316, R317). -/
def Ffmt.sqrt (f : Ffmt) (rm : Rm) (sat : Bool) (a : Nat) : Nat :=
  match f.decode a with
  | .nan => f.nanBits
  | .inf n => if n then f.nanBits else f.infBits false sat
  | .fin n m e =>
    if m = 0 then f.signBit n else if n then f.nanBits else f.roundReal rm sat (sqrtReal m e)

/-- a + b, rounded once (R308). -/
def Ffmt.add (f : Ffmt) (rm : Rm) (sat : Bool) (a b : Nat) : Nat :=
  f.encode rm sat (Fv.add rm (f.decode a) (f.decode b))

/-- a - b, rounded once (R308). -/
def Ffmt.sub (f : Ffmt) (rm : Rm) (sat : Bool) (a b : Nat) : Nat :=
  f.encode rm sat (Fv.add rm (f.decode a) (f.decode b).neg)

/-- a * b, rounded once (R308). -/
def Ffmt.mul (f : Ffmt) (rm : Rm) (sat : Bool) (a b : Nat) : Nat :=
  f.encode rm sat (Fv.mul (f.decode a) (f.decode b))

/-- a * b + c, rounded once (R308). -/
def Ffmt.fma (f : Ffmt) (rm : Rm) (sat : Bool) (a b c : Nat) : Nat :=
  f.encode rm sat (Fv.add rm (Fv.mul (f.decode a) (f.decode b)) (f.decode c))

/-- Whether the first of two bit patterns is the lesser, with -0 below +0. -/
def Ffmt.less (f : Ffmt) (a b : Nat) : Bool :=
  match Fv.cmp (f.decode a) (f.decode b) with
  | some .lt => true
  | some .eq => (f.decode a).sign && !(f.decode b).sign
  | _ => false

/-- The lesser or greater operand unchanged (R309). -/
def Ffmt.minMax (f : Ffmt) (greater sat : Bool) (a b : Nat) : Nat :=
  match f.decode a, f.decode b with
  | .nan, _ => f.nanBits
  | _, .nan => f.nanBits
  | _, _ =>
    let r := if f.less a b != greater then a else b
    match f.decode r with
    | .inf n => f.infBits n sat
    | _ => r

/-- Round to an integral value in the format (R311). -/
def Ffmt.integral (f : Ffmt) (rm : Rm) (sat : Bool) (a : Nat) : Nat :=
  match f.decode a with
  | .nan => f.nanBits
  | .inf n => f.infBits n sat
  | .fin n m e => if m = 0 then f.signBit n else f.roundFin rm sat n (roundUnits rm n m e false 0) 0 false

/-- a * 2^k rounded once (R313). -/
def Ffmt.scale (f : Ffmt) (rm : Rm) (sat : Bool) (a : Nat) (k : Int) : Nat :=
  match f.decode a with
  | .nan => f.nanBits
  | .inf n => f.infBits n sat
  | .fin n m e => f.roundFin rm sat n m (e + k) false

/-- FCLASS (R310). -/
def Ffmt.classMask (f : Ffmt) (a : Nat) : Nat :=
  let neg := a.testBit (f.ew + f.fw)
  let ex := (a >>> f.fw) % 2 ^ f.ew
  let fr := a % 2 ^ f.fw
  if ex = 2 ^ f.ew - 1 then
    (if fr = 0 then (if neg then 1 else 2 ^ 7) else if fr.testBit (f.fw - 1) then 2 ^ 9 else 2 ^ 8)
  else if ex = 0 then
    (if fr = 0 then (if neg then 2 ^ 3 else 2 ^ 4) else if neg then 2 ^ 2 else 2 ^ 5)
  else if neg then 2 else 2 ^ 6

/-- a0 * b0 + a1 * b1 + c rounded once to f32 (R312). -/
def dot2 (f : Ffmt) (rm : Rm) (sat : Bool) (a0 b0 a1 b1 c : Nat) : Nat :=
  let p0 := Fv.mul (f.decode a0) (f.decode b0)
  let p1 := Fv.mul (f.decode a1) (f.decode b1)
  fmtF32.encode rm sat (Fv.add rm (Fv.add rm p0 p1) (fmtF32.decode c))

/-- A value rounded to an integer (R31). -/
def Fv.toInt (rm : Rm) (lo hi : Int) : Fv → Int
  | .nan => 0
  | .inf n => if n then lo else hi
  | .fin n m e =>
    let u : Int := roundUnits rm n m e false 0
    max lo (min hi (if n then -u else u))

/-- An integer as a value. -/
def Fv.ofInt (i : Int) : Fv := .fin (decide (i < 0)) i.natAbs 0

/-- Width in bits of a scalar type. -/
def tyBits : Ty → Nat
  | .s8 | .n8 | .e4m3 | .e5m2 | .mxi8 => 8
  | .s16 | .n16 | .f16 | .bf16 => 16
  | .s64 | .n64 | .f64 | .b64 => 64
  | .e3m2 | .e2m3 => 6
  | .e2m1 => 4
  | _ => 32

/-- Signed integer types (R22). -/
def tySigned : Ty → Bool
  | .s8 | .s16 | .s32 | .s64 | .s8x4 | .s16x2 => true
  | _ => false

/-- Integer scalar types (R22). -/
def tyIsInt : Ty → Bool
  | .s8 | .s16 | .s32 | .s64 | .n8 | .n16 | .n32 | .n64 => true
  | _ => false

/-- The least value of an integer type of w bits. -/
def intMin (sgn : Bool) (w : Nat) : Int := if sgn then -(2 ^ (w - 1) : Int) else 0

/-- The greatest value of an integer type of w bits. -/
def intMax (sgn : Bool) (w : Nat) : Int := if sgn then 2 ^ (w - 1) - 1 else 2 ^ w - 1

/-- Read w bits as an integer (R22). -/
def intOf (sgn : Bool) (w x : Nat) : Int :=
  let y := x % 2 ^ w
  if sgn && decide (2 ^ (w - 1) ≤ y) then (y : Int) - 2 ^ w else y

/-- Settle an exact integer to w bits: wrap, or clamp under saturation (R22, R297). -/
def settleInt (sat sgn : Bool) (w : Nat) (x : Int) : Nat :=
  let y := if sat then max (intMin sgn w) (min (intMax sgn w) x) else x
  (y % (2 ^ w : Int)).toNat

/-- Extend a value of a CVT type to its register (R293): signed narrow types copy the sign bit, others are zero-extended. -/
def extendNarrow (t : Ty) (x : Nat) : Nat :=
  match t with
  | .s8 | .s16 => settleInt false false 32 (intOf true (tyBits t) x)
  | _ => x

/-- CVT (R319, R30, R31). -/
def convert (rm : Rm) (sat : Bool) (src dst : Ty) (x : Nat) : Nat :=
  let r :=
    if tyIsInt src then
      let v := intOf (tySigned src) (tyBits src) x
      if tyIsInt dst then settleInt sat (tySigned dst) (tyBits dst) v else (tyFfmt dst).encode rm sat (Fv.ofInt v)
    else
      let v := (tyFfmt src).decode (x % 2 ^ (tyBits src))
      if tyIsInt dst then settleInt false false (tyBits dst) (Fv.toInt rm (intMin (tySigned dst) (tyBits dst)) (intMax (tySigned dst) (tyBits dst)) v)
      else (tyFfmt dst).encode rm sat v
  extendNarrow dst r

end Sys2Proof.Machine
end

