-- ==== Sys2Proof/WellFormed.lean ====
section
/-! DEFINITION. Which instruction words are legal: the checks of R267, opcode by opcode from the tables R283-R290 and the
entries of the instruction chapters. The decoder accepts a word exactly when these checks pass. -/

namespace Sys2Proof

/-- The sets of TYPE codes that R282 names, and the block formats of R287. -/
def tyI32 : List Ty := [.s32, .n32]
def tyI64 : List Ty := [.s64, .n64]
def tyIP : List Ty := [.s8x4, .n8x4, .s16x2, .n16x2]
def tyB : List Ty := [.b32, .b64]
def tyFS : List Ty := [.f32, .f64]
def tyFH : List Ty := [.f16, .bf16]
def tyFP : List Ty := [.f16x2, .bf16x2]
def tyMT : List Ty := [.s8, .s16, .s32, .s64, .n8, .n16, .n32, .n64, .f16, .bf16, .f32, .f64, .b32, .b64]
def tyCV : List Ty := [.s8, .s16, .s32, .s64, .n8, .n16, .n32, .n64, .f16, .bf16, .f32, .f64, .e4m3, .e5m2]
def tyMX : List Ty := [.e4m3, .e5m2, .e3m2, .e2m3, .e2m1, .mxi8]
def tyPLY : List Ty := [.ply9, .ply6, .ply4]

/-- The kinds of operand field (R259). any: checked elsewhere; v: a 32-bit register; w: a wide register; t: v or w by the
instruction's type; p, k, x: predicate, tile and exact registers; z: unused; condI, condF: a predicate register p0-p7 in the
low bits with an ICMP or FCMP condition above it (R303, R313). -/
inductive Kind where
  | any | v | w | t | p | k | x | z | condI | condF
  deriving DecidableEq, Repr

/-- Whether a field value is legal for a kind (R259). -/
def Kind.ok (kd : Kind) (ty : Ty) (r : BitVec 7) : Bool :=
  match kd with
  | .any => true
  | .v => true
  | .w => !r.getLsbD 0
  | .t => if ty.wide then !r.getLsbD 0 else true
  | .p => decide (r.toNat < 8)
  | .k => decide (r.toNat < 16)
  | .x => decide (r.toNat < 4)
  | .z => r == 0
  | .condI => decide ((r.extractLsb' 3 4).toNat ≤ 5)
  | .condF => decide ((r.extractLsb' 3 4).toNat ≤ 8)

/-- PRED 7 with PNEG 1 is illegal (R260). -/
def legalPred (pred : BitVec 3) (pneg : Bool) : Bool := !(pred == 7 && pneg)

/-- The checks that every format V word shares (R261, R262): rounds: the opcode rounds; l, n, s: it allows LSEL, NEGA and
NEGB, SAT. -/
def legalV (types : List Ty) (rounds l n s : Bool) (kd ka kb kc : Kind) (f : FmtV) : Bool :=
  legalPred f.pred f.pneg && types.contains f.ty && (if rounds then decide (f.mode.toNat ≤ 4) else f.mode == 0)
    && (if l then f.lsel != 7 else f.lsel == 0) && (n || (!f.nega && !f.negb)) && (s || !f.sat)
    && kd.ok f.ty f.d && ka.ok f.ty f.a && kb.ok f.ty f.b && kc.ok f.ty f.c

/-- AUX is zero where the entry gives it no meaning (R262). -/
def auxZero (f : FmtV) : Bool := f.aux == 0

/-- The checks of a format I word (R263). -/
def legalI (types : List Ty) (kd ka : Kind) (f : FmtI) : Bool :=
  legalPred f.pred f.pneg && types.contains f.ty && kd.ok f.ty f.d && ka.ok f.ty f.a

/-- The checks that every format M word shares (R126, R264). -/
def legalM (types : List Ty) (f : FmtM) : Bool :=
  legalPred f.pred f.pneg && types.contains f.ty && decide (f.scope.toNat ≤ 4)

/-- BASE is a wide register in memory instructions; any register, or 127 for none, in pad instructions (R264). -/
def memBase (pad : Bool) (f : FmtM) : Bool := pad || !f.base.getLsbD 0

/-- INDEX with a shift of at most 4, or no index: SCALE 7 and INDEX 127 (R264). -/
def memIndex (f : FmtM) : Bool := decide (f.scale.toNat ≤ 4) || (f.scale == 7 && f.index == 127)

/-- An instruction without an address carries SCALE 7 and INDEX 127 (R264). -/
def memNoIndex (f : FmtM) : Bool := f.scale == 7 && f.index == 127

/-- The checks of every ATOM and ATOMS word: bits 41:35 hold the data register, so SCALE is 7; CACHE is 0 (R264, R127). -/
def legalAtom (pad : Bool) (types : List Ty) (f : FmtM) : Bool :=
  legalM types f && memBase pad f && f.scale == 7 && f.cache == 0

/-- The checks of a format B word (R260). -/
def legalB (f : FmtB) : Bool := legalPred f.pred f.pneg

/-- A format B word that must be unconditional. -/
def alwaysB (f : FmtB) : Bool := f.pred == 7 && !f.pneg

/-- The checks of a format S word (R260). -/
def legalS (f : FmtS) : Bool := legalPred f.pred f.pneg

/-- The checks of a format X word (R260). -/
def legalX (f : FmtX) : Bool := legalPred f.pred f.pneg

/-- IMM8 names a barrier when the word's flag says so, and is zero otherwise. -/
def barField (flag : Bool) (f : FmtX) : Bool := if flag then decide (f.imm8.toNat ≤ 127) else f.imm8 == 0

/-- Types that PACK and UNPK hold as four 8-bit elements (R287). -/
def packsFour : Ty → Bool
  | .s8x4 | .n8x4 | .e4m3 | .e5m2 => true
  | _ => false

/-- The special registers of R269: numbers 0x00 to 0x17. -/
def sregReadable (n : BitVec 16) : Bool := decide (n.toNat ≤ 0x17)

/-- The 64-bit special registers of R269: %tpc, %tval, %cycle, %args. -/
def sregWide (n : BitVec 16) : Bool := n == 0x11 || n == 0x12 || n == 0x13 || n == 0x15

/-- The special registers of R269 that WRSR may write: %fmode, %nestmax, %tcause. -/
def sregWritable (n : BitVec 16) : Bool := n == 0x0C || n == 0x0F || n == 0x10

/-- An instruction is well formed when its fields pass the checks of R267 for its opcode. A device step has no encoding and
nothing to check. -/
def Instr.wf : Instr → Bool
  | .powerOnReset => true
  | .selftestDone _ _ => true
  | .loadFw => true
  | .verifyDone => true
  | .mgmtqWrite _ => true
  | .powerInputFault => true
  | .thermalEvent _ _ => true
  | .creelHotModeChange _ _ => true
  | .creelRefreshWindowEnd _ => true
  | .lockstepMismatch _ => true
  | .hostLinkUp _ _ _ _ => true
  | .hostLinkDown _ => true
  | .hostReadCompletion _ _ _ => true
  | .hostCompletionTimeout _ => true
  | .bar2Read _ _ => true
  | .bar2Write _ _ => true
  | .registerWrite _ _ _ => true
  | .tailWrite _ _ _ => true
  | .resolveWrite _ => true
  | .consumedWrite _ _ => true
  | .portEnable _ _ => true
  | .portIsolate _ _ => true
  | .retrain _ => true
  | .portTrainDone _ _ _ _ => true
  | .portTrainTimeout _ => true
  | .flitReceive _ _ => true
  | .nakReceive _ _ => true
  | .pauseReceive _ _ => true
  | .resumeReceive _ _ => true
  | .spdmGetVersion carrier => decide (carrier < 3)
  | .spdmGetCapabilities carrier => decide (carrier < 3)
  | .spdmNegotiate carrier => decide (carrier < 3)
  | .spdmGetDigests carrier => decide (carrier < 3)
  | .spdmGetCertificate carrier => decide (carrier < 3)
  | .spdmChallenge carrier _ => decide (carrier < 3)
  | .spdmGetMeasurements carrier _ => decide (carrier < 3)
  | .mctpStageQuery => true
  | .packetFetch _ _ => true
  | .slotRereadTimer _ _ _ => true
  | .boardScan _ _ => true
  | .nopPacket => true
  | .launchPacket => true
  | .copyPacket => true
  | .barrierPacket => true
  | .signalPacket => true
  | .creelBegin => true
  | .creelSeal => true
  | .markerPacket => true
  | .contextCreate => true
  | .contextPaging => true
  | .contextQueue => true
  | .contextUnqueue => true
  | .contextInval => true
  | .contextSuspend => true
  | .contextResume => true
  | .contextTerminate => true
  | .contextResize => true
  | .resizeMapChange => true
  | .signalWatchNotify _ _ _ => true
  | .signalWatchReread _ _ _ => true
  | .packetComplete _ _ _ => true
  | .rootSpanPlace _ => true
  | .groupPlace _ => true
  | .deviceQueuePop _ _ => true
  | .devqSlotReread _ _ => true
  | .clauseFetch _ => true
  | .longLatencyResult _ => true
  | .groupRetire _ _ => true
  | .launchAbortDone => true
  | .barcContinuationStart => true
  | .yieldExpire _ => true
  | .watchdog _ => true
  | .contextSaveComplete => true
  | .contextRestore => true
  | .migRewalkTimer _ => true
  | .invalidationComplete => true
  | .l1Eviction _ _ => true
  | .uncorrectableError _ => true
  | .atomicEngineServe _ => true
  | .copyPerform _ _ => true
  | .copyEnd _ => true
  | .hankOperationPerform _ => true
  | .hankMoveInsert => true
  | .hankRankComplete => true
  | .hankThawComplete => true
  | .beamQueryStart _ => true
  | .beamQueryDone _ _ => true
  | .collJobEnd => true
  | .mmaSequencerPerform _ => true
  | .mmaAssistComplete _ => true
  | .nop f => legalS f && f.d == 0 && f.a == 0 && f.sreg == 0 && f.imm == 0
  | .bra f => legalB f && f.aux7 == 0 && f.a == 0 && f.sub == 0
  | .brp f => legalB f && f.aux7 == 0 && Kind.ok .p .s32 f.a && decide (f.sub.toNat ≤ 3)
  | .join f => alwaysB f && f.a == 0 && f.sub == 0 && f.target == 0
  | .call f => legalB f && f.aux7 == 0 && f.a == 0 && f.sub == 0
  | .calli f => legalB f && f.aux7 == 0 && Kind.ok .w .s32 f.a && f.sub == 0 && f.target == 0
  | .ret f => alwaysB f && f.aux7 == 0 && f.a == 0 && f.sub == 0 && f.target == 0
  | .jmpi f => legalB f && f.aux7 == 0 && Kind.ok .w .s32 f.a && f.sub == 0 && f.target == 0
  | .exit f => legalB f && f.aux7 == 0 && f.a == 0 && f.sub == 0 && f.target == 0
  | .region f => alwaysB f && f.a == 0 && f.sub == 0 && f.target == 0
  | .yield f => legalS f && f.pred == 7 && f.d == 0 && f.a == 0 && f.sreg == 0
  | .trap f => legalS f && f.d == 0 && f.a == 0
  | .brk f => legalS f && f.d == 0 && f.a == 0 && f.imm == 0
  | .spawn f => legalB f && Kind.ok .w .s32 f.a && (decide (f.sub.toNat ≤ 31) || f.sub == 63) && f.target == 0
  | .deal f => alwaysB f && f.aux7 == 0 && f.a == 0 && f.sub == 0 && f.target == 0
  | .rdsr f => legalS f && sregReadable f.sreg && (!sregWide f.sreg || Kind.ok .w .s32 f.d) && f.a == 0 && f.imm == 0
  | .wrsr f => legalS f && f.d == 0 && sregWritable f.sreg && f.imm == 0
  | .fmode f => legalS f && f.d == 0 && f.a == 0 && f.sreg == 0 && f.imm.extractLsb' 8 8 == 0
  | .iadd f => legalV (tyI32 ++ tyI64 ++ tyIP) false true true true .t .t .t .z f && auxZero f
  | .iaddImm f => legalI (tyI32 ++ tyI64 ++ tyIP) .t .t f
  | .isub f => legalV (tyI32 ++ tyI64 ++ tyIP) false true true true .t .t .t .z f && auxZero f
  | .isubImm f => legalI (tyI32 ++ tyI64 ++ tyIP) .t .t f
  | .imul f => legalV (tyI32 ++ tyI64 ++ tyIP) false true true true .t .t .t .z f && auxZero f
  | .imulImm f => legalI (tyI32 ++ tyI64 ++ tyIP) .t .t f
  | .imulh f => legalV (tyI32 ++ tyI64) false true true false .t .t .t .z f && auxZero f
  | .imad f => legalV (tyI32 ++ tyI64) false true true true .t .t .t .t f && auxZero f
  | .imin f => legalV (tyI32 ++ tyI64 ++ tyIP) false true true false .t .t .t .z f && auxZero f
  | .iminImm f => legalI (tyI32 ++ tyI64 ++ tyIP) .t .t f
  | .imax f => legalV (tyI32 ++ tyI64 ++ tyIP) false true true false .t .t .t .z f && auxZero f
  | .imaxImm f => legalI (tyI32 ++ tyI64 ++ tyIP) .t .t f
  | .iabs f => legalV [.s32, .s64, .s8x4, .s16x2] false false false true .t .t .z .z f && auxZero f
  | .ineg f => legalV [.s32, .s64, .s8x4, .s16x2] false false false true .t .t .z .z f && auxZero f
  | .land f => legalV tyB false true false false .t .t .t .z f && auxZero f
  | .landImm f => legalI tyB .t .t f
  | .lor f => legalV tyB false true false false .t .t .t .z f && auxZero f
  | .lorImm f => legalI tyB .t .t f
  | .lxor f => legalV tyB false true false false .t .t .t .z f && auxZero f
  | .lxorImm f => legalI tyB .t .t f
  | .lnot f => legalV tyB false false false false .t .t .z .z f && auxZero f
  | .landn f => legalV tyB false true false false .t .t .t .z f && auxZero f
  | .landnImm f => legalI tyB .t .t f
  | .shl f => legalV (tyI32 ++ tyI64) false true false false .t .t .v .z f && auxZero f
  | .shlImm f => legalI (tyI32 ++ tyI64) .t .t f
  | .shr f => legalV [.n32, .n64] false true false false .t .t .v .z f && auxZero f
  | .shrImm f => legalI [.n32, .n64] .t .t f
  | .sar f => legalV [.s32, .s64] false true false false .t .t .v .z f && auxZero f
  | .sarImm f => legalI [.s32, .s64] .t .t f
  | .rol f => legalV tyB false true false false .t .t .v .z f && auxZero f
  | .rolImm f => legalI tyB .t .t f
  | .ror f => legalV tyB false true false false .t .t .v .z f && auxZero f
  | .rorImm f => legalI tyB .t .t f
  | .popc f => legalV tyB false false false false .v .t .z .z f && auxZero f
  | .clz f => legalV tyB false false false false .v .t .z .z f && auxZero f
  | .ctz f => legalV tyB false false false false .v .t .z .z f && auxZero f
  | .brev f => legalV tyB false false false false .t .t .z .z f && auxZero f
  | .bfx f => legalV (tyI32 ++ tyI64) false false false false .t .t .v .z f && auxZero f
  | .bfi f => legalV tyB false false false false .t .t .t .v f && auxZero f
  | .icmp f => legalV tyI32 false true true false .condI .t .t .z f && auxZero f
  | .icmpImm f => legalI tyI32 .condI .t f
  | .sel f => legalV tyB false true false false .t .t .t .p f && auxZero f
  | .mov f => legalV tyB false true false false .t .z .t .z f && auxZero f
  | .movi f => legalI tyB .t .z f
  | .lea f => legalV [.n32, .n64] false true false false .t .t .v .z f && decide ((f.aux.extractLsb' 0 3).toNat ≤ 4) && f.aux.extractLsb' 3 7 == 0
  | .leaImm f => legalI [.n32, .n64] .t .t f
  | .iaddw f => legalV tyI32 false true false false .w .w .v .z f && auxZero f
  | .iaddwImm f => legalI tyI32 .w .w f
  | .isubw f => legalV tyI32 false true false false .w .w .v .z f && auxZero f
  | .icmpw f => legalV [.s64, .n64] false true false false .condI .w .w .z f && auxZero f
  | .mort f => legalV [.n64] false false false false .w .v .v .v f && decide ((f.aux.extractLsb' 0 5).toNat ≤ 21) && f.aux.extractLsb' 5 5 == 0
  | .unmort f => legalV [.n64] false false false false .v .w .z .z f && f.aux.extractLsb' 0 2 != 3 && f.aux.extractLsb' 2 8 == 0
  | .prmt f => legalV [.b32] false false false false .v .v .v .v f && auxZero f
  | .fadd f => legalV (tyFS ++ tyFH ++ tyFP) true true true true .t .t .t .z f && auxZero f
  | .faddImm f => legalI tyFS .t .t f
  | .fsub f => legalV (tyFS ++ tyFH ++ tyFP) true true true true .t .t .t .z f && auxZero f
  | .fmul f => legalV (tyFS ++ tyFH ++ tyFP) true true true true .t .t .t .z f && auxZero f
  | .fmulImm f => legalI tyFS .t .t f
  | .ffma f => legalV (tyFS ++ tyFH ++ tyFP) true true true true .t .t .t .t f && auxZero f
  | .ffmaImm f => legalI tyFS .t .t f
  | .fmin f => legalV (tyFS ++ tyFH ++ tyFP) false true true false .t .t .t .z f && auxZero f
  | .fmax f => legalV (tyFS ++ tyFH ++ tyFP) false true true false .t .t .t .z f && auxZero f
  | .fcmp f => legalV (tyFS ++ tyFH) false true true false .condF .t .t .z f && auxZero f
  | .fcmpImm f => legalI tyFS .condF .t f
  | .fclass f => legalV (tyFS ++ tyFH) false false false false .v .t .z .z f && auxZero f
  | .frnd f => legalV (tyFS ++ tyFH ++ tyFP) true false false false .t .t .z .z f && auxZero f
  | .fdot2 f => legalV tyFP true true true true .v .t .t .v f && auxZero f
  | .fscale f => legalV (tyFS ++ tyFH) true false false true .t .t .v .z f && auxZero f
  | .rcp f => legalV (tyFS ++ tyFH) false false false true .t .t .z .z f && auxZero f
  | .rsq f => legalV (tyFS ++ tyFH) false false false true .t .t .z .z f && auxZero f
  | .sqrt f => legalV (tyFS ++ tyFH) true false false true .t .t .z .z f && auxZero f
  | .exp2 f => legalV [.f32, .f16, .bf16] false false false true .t .t .z .z f && auxZero f
  | .log2 f => legalV [.f32, .f16, .bf16] false false false true .t .t .z .z f && auxZero f
  | .sin f => legalV [.f32, .f16, .bf16] false false false true .t .t .z .z f && auxZero f
  | .cos f => legalV [.f32, .f16, .bf16] false false false true .t .t .z .z f && auxZero f
  | .tanh f => legalV [.f32, .f16, .bf16] false false false true .t .t .z .z f && auxZero f
  | .fdiv f => legalV (tyFS ++ tyFH) true true true true .t .t .t .z f && auxZero f
  | .idiv f => legalV (tyI32 ++ tyI64) false true false false .t .t .t .z f && auxZero f
  | .irem f => legalV (tyI32 ++ tyI64) false true false false .t .t .t .z f && auxZero f
  | .cvt f => legalV tyCV true false false true .t .any .z .z f && tyCV.contains (Ty.ofCode (f.aux.extractLsb' 0 5)) && Ty.ofCode (f.aux.extractLsb' 0 5) != f.ty && f.aux.extractLsb' 5 5 == 0 && Kind.ok .t (Ty.ofCode (f.aux.extractLsb' 0 5)) f.a
  | .pack f => legalV (tyIP ++ tyFP ++ [.e4m3, .e5m2]) true false false true .v .v .any .z f && auxZero f && (!packsFour f.ty || (f.b == 0 && decide (f.a.toNat ≤ 124)))
  | .unpk f => legalV (tyIP ++ tyFP ++ [.e4m3, .e5m2]) false false false false .v .v .z .z f && (packsFour f.ty || decide ((f.aux.extractLsb' 0 2).toNat ≤ 1)) && f.aux.extractLsb' 2 8 == 0
  | .qmx f => legalV tyMX false false false true .v .v .k .z f && f.aux.extractLsb' 0 2 != 3 && f.aux.extractLsb' 2 8 == 0
  | .dqmx f => legalV tyMX false false false false .v .v .k .z f && auxZero f
  | .qply f => legalV tyPLY false false false true .v .v .k .z f && f.aux.extractLsb' 0 2 != 3 && f.aux.extractLsb' 2 8 == 0
  | .dqply f => legalV tyPLY false false false false .v .v .k .z f && auxZero f
  | .kmov f => legalV [.b64] false false false false .any .any .z .z f && f.aux.extractLsb' 1 9 == 0 && (if f.aux.getLsbD 0 then Kind.ok .w .b64 f.d && Kind.ok .k .b64 f.a else Kind.ok .k .b64 f.d && Kind.ok .w .b64 f.a)
  | .perm f => legalV tyB false false false false .t .t .v .any f && (if f.aux.getLsbD 9 then Kind.ok .p .b32 f.c else f.c == 0) && f.aux.extractLsb' 0 9 == 0
  | .shfl f => legalV tyB false false false false .t .t .v .any f && (if f.aux.getLsbD 9 then Kind.ok .p .b32 f.c else f.c == 0) && f.aux.extractLsb' 2 7 == 0 && f.aux.extractLsb' 0 2 != 3
  | .bcast f => legalV tyB false false false false .t .t .z .z f && decide ((f.aux.extractLsb' 0 7).toNat ≤ 64) && f.aux.extractLsb' 7 3 == 0
  | .votea f => legalV [.pred] false false false false .p .p .z .z f && auxZero f
  | .votey f => legalV [.pred] false false false false .p .p .z .z f && auxZero f
  | .ballot f => legalV [.pred] false false false false .w .p .z .z f && auxZero f
  | .scan f => legalV [.s32, .n32, .f32] (f.ty == .f32) false false true .v .v .z .z f && f.aux.extractLsb' 0 2 != 3 && f.aux.extractLsb' 3 7 == 0 && (!f.sat || f.ty == .f32)
  | .redi f => legalV tyI32 false false false false .v .v .z .z f && decide ((f.aux.extractLsb' 0 3).toNat ≤ 5) && f.aux.extractLsb' 3 7 == 0
  | .xadd f => legalV [.f32, .f16, .bf16] false false false false .x .v .z .z f && auxZero f
  | .xrnd f => legalV tyFS true false false true .t .x .z .z f && auxZero f
  | .xclr f => legalV [.xa] false false false false .x .z .z .z f && auxZero f
  | .xld f => legalV [.xa] false false false false .x .v .z .z f
  | .xst f => legalV [.xa] false false false false .z .v .x .z f
  | .shape f => legalV [.b32] false false false false .v .v .z .z f && auxZero f
  | .ld f => legalM tyMT f && memBase false f && memIndex f && Kind.ok .t f.ty f.d && decide (f.order.toNat ≤ 1)
  | .st f => legalM tyMT f && memBase false f && memIndex f && Kind.ok .t f.ty f.d && (f.order == 0 || f.order == 2)
  | .lds f => legalM tyMT f && memBase true f && memIndex f && Kind.ok .t f.ty f.d && decide (f.order.toNat ≤ 1)
  | .sts f => legalM tyMT f && memBase true f && memIndex f && Kind.ok .t f.ty f.d && (f.order == 0 || f.order == 2)
  | .phase f => legalM [.s8] f && f.d == 0 && f.base == 0 && memNoIndex f && f.order != 0 && f.cache == 0 && f.offset == 0
  | .xfence f => legalM [.s8] f && f.d == 0 && f.base == 0 && memNoIndex f && f.scope == 0 && f.order == 0 && f.cache == 0 && f.offset.extractLsb' 6 10 == 0
  | .pref f => legalM [.s8] f && f.d == 0 && memBase false f && memIndex f && f.scope == 0 && f.order == 0
  | .atomAdd f => legalAtom false (tyI32 ++ tyI64) f && Kind.ok .t f.ty f.d && Kind.ok .t f.ty f.index
  | .atomSub f => legalAtom false (tyI32 ++ tyI64) f && Kind.ok .t f.ty f.d && Kind.ok .t f.ty f.index
  | .atomMin f => legalAtom false (tyI32 ++ tyI64) f && Kind.ok .t f.ty f.d && Kind.ok .t f.ty f.index
  | .atomMax f => legalAtom false (tyI32 ++ tyI64) f && Kind.ok .t f.ty f.d && Kind.ok .t f.ty f.index
  | .atomAnd f => legalAtom false tyB f && Kind.ok .t f.ty f.d && Kind.ok .t f.ty f.index
  | .atomOr f => legalAtom false tyB f && Kind.ok .t f.ty f.d && Kind.ok .t f.ty f.index
  | .atomXor f => legalAtom false tyB f && Kind.ok .t f.ty f.d && Kind.ok .t f.ty f.index
  | .atomXchg f => legalAtom false tyB f && Kind.ok .t f.ty f.d && Kind.ok .t f.ty f.index
  | .atomCas f => legalAtom false tyB f && Kind.ok .t f.ty f.d && (if f.ty == .b64 then f.index.extractLsb' 0 2 == 0 else f.index.getLsbD 0 == false)
  | .atomInc f => legalAtom false [.n32, .n64] f && Kind.ok .t f.ty f.d && Kind.ok .t f.ty f.index
  | .atomFadd f => legalAtom false tyFS f && Kind.ok .t f.ty f.d && Kind.ok .t f.ty f.index
  | .atomFadd2 f => legalAtom false [.bf16x2] f && Kind.ok .t f.ty f.d && Kind.ok .t f.ty f.index
  | .atomXam f => legalAtom false [.xa] f && f.d == 0 && Kind.ok .x f.ty f.index
  | .atomLd f => legalAtom false tyB f && Kind.ok .t f.ty f.d && f.index == 0
  | .atomsAdd f => legalAtom true (tyI32 ++ tyI64) f && Kind.ok .t f.ty f.d && Kind.ok .t f.ty f.index
  | .atomsSub f => legalAtom true (tyI32 ++ tyI64) f && Kind.ok .t f.ty f.d && Kind.ok .t f.ty f.index
  | .atomsMin f => legalAtom true (tyI32 ++ tyI64) f && Kind.ok .t f.ty f.d && Kind.ok .t f.ty f.index
  | .atomsMax f => legalAtom true (tyI32 ++ tyI64) f && Kind.ok .t f.ty f.d && Kind.ok .t f.ty f.index
  | .atomsAnd f => legalAtom true tyB f && Kind.ok .t f.ty f.d && Kind.ok .t f.ty f.index
  | .atomsOr f => legalAtom true tyB f && Kind.ok .t f.ty f.d && Kind.ok .t f.ty f.index
  | .atomsXor f => legalAtom true tyB f && Kind.ok .t f.ty f.d && Kind.ok .t f.ty f.index
  | .atomsXchg f => legalAtom true tyB f && Kind.ok .t f.ty f.d && Kind.ok .t f.ty f.index
  | .atomsCas f => legalAtom true tyB f && Kind.ok .t f.ty f.d && (if f.ty == .b64 then f.index.extractLsb' 0 2 == 0 else f.index.getLsbD 0 == false)
  | .atomsInc f => legalAtom true [.n32, .n64] f && Kind.ok .t f.ty f.d && Kind.ok .t f.ty f.index
  | .atomsFadd f => legalAtom true tyFS f && Kind.ok .t f.ty f.d && Kind.ok .t f.ty f.index
  | .atomsFadd2 f => legalAtom true [.bf16x2] f && Kind.ok .t f.ty f.d && Kind.ok .t f.ty f.index
  | .atomsXam f => legalAtom true [.xa] f && f.d == 0 && Kind.ok .x f.ty f.index
  | .atomsLd f => legalAtom true tyB f && Kind.ok .t f.ty f.d && f.index == 0
  | .acp f => legalX f && Kind.ok .w .b64 f.a && (f.ctrl.getLsbD 3 || f.b == 0) && (f.ctrl.getLsbD 5 || (f.c == 0 && f.ctrl.extractLsb' 8 8 == 0)) && barField (f.ctrl.getLsbD 4) f && f.ctrl.extractLsb' 6 2 == 0
  | .aseal f => legalX f && f.d == 0 && f.a == 0 && f.b == 0 && f.c == 0 && f.imm8 == 0 && f.ctrl == 0
  | .await f => legalX f && f.d == 0 && f.a == 0 && f.b == 0 && f.c == 0 && f.ctrl == 0 && decide (f.imm8.toNat ≤ 7)
  | .bcp f => legalX f && Kind.ok .w .b64 f.a && f.d == 0 && f.b == 0 && f.c == 0 && barField (f.ctrl.getLsbD 1) f && f.ctrl.extractLsb' 2 14 == 0
  | .bxf f => legalX f && Kind.ok .w .b64 f.a && f.d == 0 && f.b == 0 && f.c == 0 && barField (f.ctrl.getLsbD 1) f && f.ctrl.extractLsb' 2 14 == 0
  | .qfen f => legalX f && f.d == 0 && f.a == 0 && f.b == 0 && f.c == 0 && f.imm8 == 0 && f.ctrl.extractLsb' 6 10 == 0
  | .coll f => legalX f && Kind.ok .w .b64 f.a && f.d == 0 && f.b == 0 && f.c == 0 && f.imm8 == 0 && f.ctrl == 0
  | .astat f => legalX f && f.a == 0 && f.b == 0 && f.c == 0 && f.imm8 == 0 && f.ctrl == 0
  | .bari f => legalX f && f.d == 0 && f.b == 0 && f.c == 0 && f.ctrl == 0 && decide (f.imm8.toNat ≤ 127)
  | .bara f => legalX f && f.a == 0 && f.b == 0 && f.c == 0 && decide (f.imm8.toNat ≤ 127)
  | .barw f => legalX f && f.b == 0 && f.c == 0 && f.ctrl == 0 && decide (f.imm8.toNat ≤ 127)
  | .barx f => legalX f && f.d == 0 && f.b == 0 && f.c == 0 && f.ctrl == 0 && decide (f.imm8.toNat ≤ 127)
  | .barc f => legalX f && Kind.ok .w .b64 f.a && f.b == 0 && f.c == 0 && decide (f.imm8.toNat ≤ 127)
  | .waita f => legalX f && Kind.ok .w .b64 f.d && Kind.ok .w .b64 f.b && f.c == 0 && f.imm8 == 0
  | .pipw f => legalX f && f.d == 0 && f.a == 0 && f.b == 0 && f.c == 0 && f.imm8 == 0 && f.ctrl.extractLsb' 12 4 == 0
  | .barq f => legalX f && Kind.ok .w .b64 f.d && f.a == 0 && f.b == 0 && f.c == 0 && decide (f.ctrl.toNat ≤ 2) && decide (f.imm8.toNat ≤ 127)
  | .mma f => legalX f && f.d == 0 && f.c == 0 && f.imm8 != 0 && f.ctrl.extractLsb' 4 3 != 7 && f.ctrl.getLsbD 7 == false && f.ctrl.extractLsb' 9 7 == 0
  | .mzero f => legalX f && f.d == 0 && f.a == 0 && f.b == 0 && f.c == 0 && f.imm8 == 0 && f.ctrl.extractLsb' 0 8 == 0 && f.ctrl.extractLsb' 9 7 == 0
  | .mdrain f => legalX f && f.d == 0 && f.c == 0 && f.imm8 == 0 && decide ((f.ctrl.extractLsb' 0 4).toNat ≤ 10) && decide ((f.ctrl.extractLsb' 4 3).toNat ≤ 4) && (f.ctrl.extractLsb' 0 4 == 1 || f.ctrl.extractLsb' 4 3 == 0) && (f.ctrl.extractLsb' 0 4 != 0 || f.ctrl.getLsbD 7 == false) && (decide (2 ≤ (f.ctrl.extractLsb' 0 4).toNat) || f.b == 0) && f.ctrl.extractLsb' 10 6 == 0
  | .mload f => legalX f && f.d == 0 && f.b == 0 && f.c == 0 && f.imm8 == 0 && f.ctrl.extractLsb' 0 8 == 0 && f.ctrl.extractLsb' 9 7 == 0
  | .hkins f => legalX f && Kind.ok .w .b64 f.d && f.imm8 == 0 && Kind.ok .w .b64 f.a && f.c == 0 && f.ctrl == 0
  | .hkdel f => legalX f && Kind.ok .w .b64 f.d && f.imm8 == 0 && Kind.ok .w .b64 f.a && f.c == 0 && f.ctrl == 0
  | .hkmove f => legalX f && Kind.ok .w .b64 f.d && f.imm8 == 0 && Kind.ok .w .b64 f.a && f.c == 0 && f.ctrl == 0
  | .hkupd f => legalX f && Kind.ok .w .b64 f.d && f.imm8 == 0 && Kind.ok .w .b64 f.a && f.c == 0 && f.ctrl == 0
  | .hkopen f => legalX f && Kind.ok .w .b64 f.d && f.imm8 == 0 && Kind.ok .w .b64 f.a && Kind.ok .w .b64 f.b && Kind.ok .w .b64 f.c && f.ctrl == 0
  | .hknext f => legalX f && Kind.ok .w .b64 f.d && f.imm8 == 0 && f.c == 0 && f.ctrl.extractLsb' 1 15 == 0
  | .hkclose f => legalX f && Kind.ok .w .b64 f.d && f.imm8 == 0 && f.b == 0 && f.c == 0 && f.ctrl == 0
  | .hkcount f => legalX f && Kind.ok .w .b64 f.d && f.imm8 == 0 && Kind.ok .w .b64 f.a && Kind.ok .w .b64 f.b && Kind.ok .w .b64 f.c && f.ctrl == 0
  | .hkfind f => legalX f && Kind.ok .w .b64 f.d && f.imm8 == 0 && Kind.ok .w .b64 f.a && Kind.ok .w .b64 f.b && f.c == 0 && f.ctrl == 0
  | .hknbr f => legalX f && Kind.ok .w .b64 f.d && f.imm8 == 0 && Kind.ok .w .b64 f.a && Kind.ok .w .b64 f.b && f.ctrl == 0
  | .hkrank f => legalX f && Kind.ok .w .b64 f.d && f.imm8 == 0 && Kind.ok .w .b64 f.a && f.b == 0 && f.c == 0 && f.ctrl == 0
  | .hkrankThaw f => legalX f && Kind.ok .w .b64 f.d && f.imm8 == 0 && Kind.ok .w .b64 f.a && f.b == 0 && f.c == 0 && f.ctrl == 1
  | .hkstat f => legalX f && Kind.ok .w .b64 f.d && f.imm8 == 0 && Kind.ok .w .b64 f.a && f.ctrl == 0
  | .bqry f => legalX f && Kind.ok .w .b64 f.d && Kind.ok .w .b64 f.a && f.b == 0 && f.c == 0 && f.imm8 == 0 && f.ctrl == 0
  | .bpop f => legalX f && Kind.ok .w .b64 f.d && f.c == 0 && f.imm8 == 0 && f.ctrl == 0
  | .bstat f => legalX f && Kind.ok .w .b64 f.d && f.b == 0 && f.c == 0 && f.imm8 == 0 && f.ctrl == 0
  | .bstatRelease f => legalX f && Kind.ok .w .b64 f.d && f.b == 0 && f.c == 0 && f.imm8 == 0 && f.ctrl == 1

end Sys2Proof
end

