-- ==== Sys2Proof/Decode.lean ====
section
/-! DEFINITION. Decoding (R253-R267, R281-R291): the clause header and its checks, a word read in the map of its class, the
rule on positions, and the encoder beside them. Every function is total; a word that is no legal instruction decodes to
none, which the machine turns into ILLINS. -/

namespace Sys2Proof

/-- The opcode byte (R259). -/
def opByte (w : BitVec 64) : BitVec 8 := w.extractLsb' 56 8

/-- The fields of a format V word (R262). -/
def FmtV.ofWord (w : BitVec 64) : FmtV :=
  { d := w.extractLsb' 49 7, a := w.extractLsb' 42 7, b := w.extractLsb' 35 7, c := w.extractLsb' 28 7
    pred := w.extractLsb' 25 3, pneg := w.getLsbD 24, ty := Ty.ofCode (w.extractLsb' 19 5), mode := w.extractLsb' 16 3
    lsel := w.extractLsb' 13 3, nega := w.getLsbD 12, negb := w.getLsbD 11, sat := w.getLsbD 10, aux := w.extractLsb' 0 10 }

/-- The word of format V fields (R262). -/
def FmtV.toWord (f : FmtV) (op : BitVec 8) : BitVec 64 :=
  op ++ f.d ++ f.a ++ f.b ++ f.c ++ f.pred ++ BitVec.ofBool f.pneg ++ f.ty.code ++ f.mode ++ f.lsel
    ++ BitVec.ofBool f.nega ++ BitVec.ofBool f.negb ++ BitVec.ofBool f.sat ++ f.aux

/-- The fields of a format I word (R263). -/
def FmtI.ofWord (w : BitVec 64) : FmtI :=
  { d := w.extractLsb' 49 7, a := w.extractLsb' 42 7, pred := w.extractLsb' 39 3, pneg := w.getLsbD 38
    ty := Ty.ofCode (w.extractLsb' 33 5), imm := w.extractLsb' 0 32 }

/-- The word of format I fields; bit 32 is zero (R263). -/
def FmtI.toWord (f : FmtI) (op : BitVec 8) : BitVec 64 :=
  op ++ f.d ++ f.a ++ f.pred ++ BitVec.ofBool f.pneg ++ f.ty.code ++ (0 : BitVec 1) ++ f.imm

/-- The fields of a format M word (R264). -/
def FmtM.ofWord (w : BitVec 64) : FmtM :=
  { d := w.extractLsb' 49 7, base := w.extractLsb' 42 7, index := w.extractLsb' 35 7, scale := w.extractLsb' 32 3
    pred := w.extractLsb' 29 3, pneg := w.getLsbD 28, ty := Ty.ofCode (w.extractLsb' 23 5), scope := w.extractLsb' 20 3
    order := w.extractLsb' 18 2, cache := w.extractLsb' 16 2, offset := w.extractLsb' 0 16 }

/-- The word of format M fields (R264). -/
def FmtM.toWord (f : FmtM) (op : BitVec 8) : BitVec 64 :=
  op ++ f.d ++ f.base ++ f.index ++ f.scale ++ f.pred ++ BitVec.ofBool f.pneg ++ f.ty.code ++ f.scope ++ f.order
    ++ f.cache ++ f.offset

/-- The fields of a format B word (R266). -/
def FmtB.ofWord (w : BitVec 64) : FmtB :=
  { aux7 := w.extractLsb' 49 7, a := w.extractLsb' 42 7, pred := w.extractLsb' 39 3, pneg := w.getLsbD 38
    sub := w.extractLsb' 32 6, target := w.extractLsb' 0 32 }

/-- The word of format B fields (R266). -/
def FmtB.toWord (f : FmtB) (op : BitVec 8) : BitVec 64 :=
  op ++ f.aux7 ++ f.a ++ f.pred ++ BitVec.ofBool f.pneg ++ f.sub ++ f.target

/-- The fields of a format X word (R266). -/
def FmtX.ofWord (w : BitVec 64) : FmtX :=
  { d := w.extractLsb' 49 7, a := w.extractLsb' 42 7, b := w.extractLsb' 35 7, c := w.extractLsb' 28 7
    pred := w.extractLsb' 25 3, pneg := w.getLsbD 24, imm8 := w.extractLsb' 16 8, ctrl := w.extractLsb' 0 16 }

/-- The word of format X fields (R266). -/
def FmtX.toWord (f : FmtX) (op : BitVec 8) : BitVec 64 :=
  op ++ f.d ++ f.a ++ f.b ++ f.c ++ f.pred ++ BitVec.ofBool f.pneg ++ f.imm8 ++ f.ctrl

/-- The fields of a format S word (R266). -/
def FmtS.ofWord (w : BitVec 64) : FmtS :=
  { d := w.extractLsb' 49 7, a := w.extractLsb' 42 7, pred := w.extractLsb' 39 3, pneg := w.getLsbD 38
    sreg := w.extractLsb' 16 16, imm := w.extractLsb' 0 16 }

/-- The word of format S fields; bits 37:32 are zero (R266). -/
def FmtS.toWord (f : FmtS) (op : BitVec 8) : BitVec 64 :=
  op ++ f.d ++ f.a ++ f.pred ++ BitVec.ofBool f.pneg ++ (0 : BitVec 6) ++ f.sreg ++ f.imm

/-- A word is accepted when its fields are legal for its opcode (R267). -/
def checkWord (i : Instr) : Option Instr := if i.wf then some i else none

/-- In format I bit 32 must be zero (R267). -/
def checkI (w : BitVec 64) (i : Instr) : Option Instr := if w.getLsbD 32 then none else checkWord i

/-- In format S bits 37:32 must be zero (R267). -/
def checkS (w : BitVec 64) (i : Instr) : Option Instr := if w.extractLsb' 32 6 == 0 then checkWord i else none

/-- The CTL map (R283). -/
def decodeCtl (w : BitVec 64) : Option Instr :=
  match (opByte w).toNat with
  | 0x00 => checkS w (.nop (FmtS.ofWord w))
  | 0x01 => checkWord (.bra (FmtB.ofWord w))
  | 0x02 => checkWord (.brp (FmtB.ofWord w))
  | 0x03 => checkWord (.join (FmtB.ofWord w))
  | 0x04 => checkWord (.call (FmtB.ofWord w))
  | 0x05 => checkWord (.calli (FmtB.ofWord w))
  | 0x06 => checkWord (.ret (FmtB.ofWord w))
  | 0x07 => checkWord (.jmpi (FmtB.ofWord w))
  | 0x08 => checkWord (.exit (FmtB.ofWord w))
  | 0x09 => checkWord (.region (FmtB.ofWord w))
  | 0x0a => checkS w (.yield (FmtS.ofWord w))
  | 0x0b => checkS w (.trap (FmtS.ofWord w))
  | 0x0c => checkS w (.brk (FmtS.ofWord w))
  | 0x0d => checkWord (.spawn (FmtB.ofWord w))
  | 0x0e => checkWord (.deal (FmtB.ofWord w))
  | 0x0f => checkS w (.rdsr (FmtS.ofWord w))
  | 0x10 => checkS w (.wrsr (FmtS.ofWord w))
  | 0x11 => checkS w (.fmode (FmtS.ofWord w))
  | _ => none

/-- The INT map (R284). -/
def decodeInt (w : BitVec 64) : Option Instr :=
  match (opByte w).toNat with
  | 0x00 => checkWord (.iadd (FmtV.ofWord w))
  | 0x01 => checkWord (.isub (FmtV.ofWord w))
  | 0x02 => checkWord (.imul (FmtV.ofWord w))
  | 0x03 => checkWord (.imulh (FmtV.ofWord w))
  | 0x04 => checkWord (.imad (FmtV.ofWord w))
  | 0x05 => checkWord (.imin (FmtV.ofWord w))
  | 0x06 => checkWord (.imax (FmtV.ofWord w))
  | 0x07 => checkWord (.iabs (FmtV.ofWord w))
  | 0x08 => checkWord (.ineg (FmtV.ofWord w))
  | 0x09 => checkWord (.land (FmtV.ofWord w))
  | 0x0a => checkWord (.lor (FmtV.ofWord w))
  | 0x0b => checkWord (.lxor (FmtV.ofWord w))
  | 0x0c => checkWord (.lnot (FmtV.ofWord w))
  | 0x0d => checkWord (.landn (FmtV.ofWord w))
  | 0x0e => checkWord (.shl (FmtV.ofWord w))
  | 0x0f => checkWord (.shr (FmtV.ofWord w))
  | 0x10 => checkWord (.sar (FmtV.ofWord w))
  | 0x11 => checkWord (.rol (FmtV.ofWord w))
  | 0x12 => checkWord (.ror (FmtV.ofWord w))
  | 0x13 => checkWord (.popc (FmtV.ofWord w))
  | 0x14 => checkWord (.clz (FmtV.ofWord w))
  | 0x15 => checkWord (.ctz (FmtV.ofWord w))
  | 0x16 => checkWord (.brev (FmtV.ofWord w))
  | 0x17 => checkWord (.bfx (FmtV.ofWord w))
  | 0x18 => checkWord (.bfi (FmtV.ofWord w))
  | 0x19 => checkWord (.icmp (FmtV.ofWord w))
  | 0x1a => checkWord (.sel (FmtV.ofWord w))
  | 0x1b => checkWord (.mov (FmtV.ofWord w))
  | 0x1c => checkWord (.lea (FmtV.ofWord w))
  | 0x1d => checkWord (.iaddw (FmtV.ofWord w))
  | 0x1e => checkWord (.isubw (FmtV.ofWord w))
  | 0x1f => checkWord (.icmpw (FmtV.ofWord w))
  | 0x20 => checkWord (.mort (FmtV.ofWord w))
  | 0x21 => checkWord (.unmort (FmtV.ofWord w))
  | 0x22 => checkWord (.prmt (FmtV.ofWord w))
  | 0x80 => checkI w (.iaddImm (FmtI.ofWord w))
  | 0x81 => checkI w (.isubImm (FmtI.ofWord w))
  | 0x82 => checkI w (.imulImm (FmtI.ofWord w))
  | 0x85 => checkI w (.iminImm (FmtI.ofWord w))
  | 0x86 => checkI w (.imaxImm (FmtI.ofWord w))
  | 0x89 => checkI w (.landImm (FmtI.ofWord w))
  | 0x8a => checkI w (.lorImm (FmtI.ofWord w))
  | 0x8b => checkI w (.lxorImm (FmtI.ofWord w))
  | 0x8d => checkI w (.landnImm (FmtI.ofWord w))
  | 0x8e => checkI w (.shlImm (FmtI.ofWord w))
  | 0x8f => checkI w (.shrImm (FmtI.ofWord w))
  | 0x90 => checkI w (.sarImm (FmtI.ofWord w))
  | 0x91 => checkI w (.rolImm (FmtI.ofWord w))
  | 0x92 => checkI w (.rorImm (FmtI.ofWord w))
  | 0x99 => checkI w (.icmpImm (FmtI.ofWord w))
  | 0x9b => checkI w (.movi (FmtI.ofWord w))
  | 0x9c => checkI w (.leaImm (FmtI.ofWord w))
  | 0x9d => checkI w (.iaddwImm (FmtI.ofWord w))
  | _ => none

/-- The FLT map (R285). -/
def decodeFlt (w : BitVec 64) : Option Instr :=
  match (opByte w).toNat with
  | 0x00 => checkWord (.fadd (FmtV.ofWord w))
  | 0x01 => checkWord (.fsub (FmtV.ofWord w))
  | 0x02 => checkWord (.fmul (FmtV.ofWord w))
  | 0x03 => checkWord (.ffma (FmtV.ofWord w))
  | 0x04 => checkWord (.fmin (FmtV.ofWord w))
  | 0x05 => checkWord (.fmax (FmtV.ofWord w))
  | 0x06 => checkWord (.fcmp (FmtV.ofWord w))
  | 0x07 => checkWord (.fclass (FmtV.ofWord w))
  | 0x08 => checkWord (.frnd (FmtV.ofWord w))
  | 0x09 => checkWord (.fdot2 (FmtV.ofWord w))
  | 0x0a => checkWord (.fscale (FmtV.ofWord w))
  | 0x80 => checkI w (.faddImm (FmtI.ofWord w))
  | 0x82 => checkI w (.fmulImm (FmtI.ofWord w))
  | 0x83 => checkI w (.ffmaImm (FmtI.ofWord w))
  | 0x86 => checkI w (.fcmpImm (FmtI.ofWord w))
  | _ => none

/-- The SFU map (R286). -/
def decodeSfu (w : BitVec 64) : Option Instr :=
  match (opByte w).toNat with
  | 0x00 => checkWord (.rcp (FmtV.ofWord w))
  | 0x01 => checkWord (.rsq (FmtV.ofWord w))
  | 0x02 => checkWord (.sqrt (FmtV.ofWord w))
  | 0x03 => checkWord (.exp2 (FmtV.ofWord w))
  | 0x04 => checkWord (.log2 (FmtV.ofWord w))
  | 0x05 => checkWord (.sin (FmtV.ofWord w))
  | 0x06 => checkWord (.cos (FmtV.ofWord w))
  | 0x07 => checkWord (.tanh (FmtV.ofWord w))
  | 0x08 => checkWord (.fdiv (FmtV.ofWord w))
  | 0x09 => checkWord (.idiv (FmtV.ofWord w))
  | 0x0a => checkWord (.irem (FmtV.ofWord w))
  | _ => none

/-- The CVT map (R287). -/
def decodeCvt (w : BitVec 64) : Option Instr :=
  match (opByte w).toNat with
  | 0x00 => checkWord (.cvt (FmtV.ofWord w))
  | 0x01 => checkWord (.pack (FmtV.ofWord w))
  | 0x02 => checkWord (.unpk (FmtV.ofWord w))
  | 0x03 => checkWord (.qmx (FmtV.ofWord w))
  | 0x04 => checkWord (.dqmx (FmtV.ofWord w))
  | 0x05 => checkWord (.qply (FmtV.ofWord w))
  | 0x06 => checkWord (.dqply (FmtV.ofWord w))
  | 0x07 => checkWord (.kmov (FmtV.ofWord w))
  | _ => none

/-- The LANE map (R288). -/
def decodeLane (w : BitVec 64) : Option Instr :=
  match (opByte w).toNat with
  | 0x00 => checkWord (.perm (FmtV.ofWord w))
  | 0x01 => checkWord (.shfl (FmtV.ofWord w))
  | 0x02 => checkWord (.bcast (FmtV.ofWord w))
  | 0x03 => checkWord (.votea (FmtV.ofWord w))
  | 0x04 => checkWord (.votey (FmtV.ofWord w))
  | 0x05 => checkWord (.ballot (FmtV.ofWord w))
  | 0x06 => checkWord (.scan (FmtV.ofWord w))
  | 0x07 => checkWord (.redi (FmtV.ofWord w))
  | 0x08 => checkWord (.xadd (FmtV.ofWord w))
  | 0x09 => checkWord (.xrnd (FmtV.ofWord w))
  | 0x0a => checkWord (.xclr (FmtV.ofWord w))
  | 0x0b => checkWord (.xld (FmtV.ofWord w))
  | 0x0c => checkWord (.xst (FmtV.ofWord w))
  | 0x0d => checkWord (.shape (FmtV.ofWord w))
  | _ => none

/-- The MEM map (R289). -/
def decodeMem (w : BitVec 64) : Option Instr :=
  match (opByte w).toNat with
  | 0x00 => checkWord (.ld (FmtM.ofWord w))
  | 0x01 => checkWord (.st (FmtM.ofWord w))
  | 0x02 => checkWord (.lds (FmtM.ofWord w))
  | 0x03 => checkWord (.sts (FmtM.ofWord w))
  | 0x04 => checkWord (.phase (FmtM.ofWord w))
  | 0x05 => checkWord (.xfence (FmtM.ofWord w))
  | 0x06 => checkWord (.pref (FmtM.ofWord w))
  | 0x20 => checkWord (.atomAdd (FmtM.ofWord w))
  | 0x21 => checkWord (.atomSub (FmtM.ofWord w))
  | 0x22 => checkWord (.atomMin (FmtM.ofWord w))
  | 0x23 => checkWord (.atomMax (FmtM.ofWord w))
  | 0x24 => checkWord (.atomAnd (FmtM.ofWord w))
  | 0x25 => checkWord (.atomOr (FmtM.ofWord w))
  | 0x26 => checkWord (.atomXor (FmtM.ofWord w))
  | 0x27 => checkWord (.atomXchg (FmtM.ofWord w))
  | 0x28 => checkWord (.atomCas (FmtM.ofWord w))
  | 0x29 => checkWord (.atomInc (FmtM.ofWord w))
  | 0x2a => checkWord (.atomFadd (FmtM.ofWord w))
  | 0x2b => checkWord (.atomFadd2 (FmtM.ofWord w))
  | 0x2c => checkWord (.atomXam (FmtM.ofWord w))
  | 0x2d => checkWord (.atomLd (FmtM.ofWord w))
  | 0x30 => checkWord (.atomsAdd (FmtM.ofWord w))
  | 0x31 => checkWord (.atomsSub (FmtM.ofWord w))
  | 0x32 => checkWord (.atomsMin (FmtM.ofWord w))
  | 0x33 => checkWord (.atomsMax (FmtM.ofWord w))
  | 0x34 => checkWord (.atomsAnd (FmtM.ofWord w))
  | 0x35 => checkWord (.atomsOr (FmtM.ofWord w))
  | 0x36 => checkWord (.atomsXor (FmtM.ofWord w))
  | 0x37 => checkWord (.atomsXchg (FmtM.ofWord w))
  | 0x38 => checkWord (.atomsCas (FmtM.ofWord w))
  | 0x39 => checkWord (.atomsInc (FmtM.ofWord w))
  | 0x3a => checkWord (.atomsFadd (FmtM.ofWord w))
  | 0x3b => checkWord (.atomsFadd2 (FmtM.ofWord w))
  | 0x3c => checkWord (.atomsXam (FmtM.ofWord w))
  | 0x3d => checkWord (.atomsLd (FmtM.ofWord w))
  | _ => none

/-- The ASY map (R290). -/
def decodeAsy (w : BitVec 64) : Option Instr :=
  match (opByte w).toNat with
  | 0x00 => checkWord (.acp (FmtX.ofWord w))
  | 0x01 => checkWord (.aseal (FmtX.ofWord w))
  | 0x02 => checkWord (.await (FmtX.ofWord w))
  | 0x03 => checkWord (.bcp (FmtX.ofWord w))
  | 0x04 => checkWord (.bxf (FmtX.ofWord w))
  | 0x05 => checkWord (.qfen (FmtX.ofWord w))
  | 0x06 => checkWord (.coll (FmtX.ofWord w))
  | 0x07 => checkWord (.astat (FmtX.ofWord w))
  | _ => none

/-- The SYN map (R290). -/
def decodeSyn (w : BitVec 64) : Option Instr :=
  match (opByte w).toNat with
  | 0x00 => checkWord (.bari (FmtX.ofWord w))
  | 0x01 => checkWord (.bara (FmtX.ofWord w))
  | 0x02 => checkWord (.barw (FmtX.ofWord w))
  | 0x03 => checkWord (.barx (FmtX.ofWord w))
  | 0x04 => checkWord (.barc (FmtX.ofWord w))
  | 0x05 => checkWord (.waita (FmtX.ofWord w))
  | 0x06 => checkWord (.pipw (FmtX.ofWord w))
  | 0x07 => checkWord (.barq (FmtX.ofWord w))
  | _ => none

/-- The MMA map (R290). -/
def decodeMma (w : BitVec 64) : Option Instr :=
  match (opByte w).toNat with
  | 0x00 => checkWord (.mma (FmtX.ofWord w))
  | 0x01 => checkWord (.mzero (FmtX.ofWord w))
  | 0x02 => checkWord (.mdrain (FmtX.ofWord w))
  | 0x03 => checkWord (.mload (FmtX.ofWord w))
  | _ => none

/-- The HNK map (R290). -/
def decodeHnk (w : BitVec 64) : Option Instr :=
  match (opByte w).toNat with
  | 0x00 => checkWord (.hkins (FmtX.ofWord w))
  | 0x01 => checkWord (.hkdel (FmtX.ofWord w))
  | 0x02 => checkWord (.hkmove (FmtX.ofWord w))
  | 0x03 => checkWord (.hkupd (FmtX.ofWord w))
  | 0x04 => checkWord (.hkopen (FmtX.ofWord w))
  | 0x05 => checkWord (.hknext (FmtX.ofWord w))
  | 0x06 => checkWord (.hkclose (FmtX.ofWord w))
  | 0x07 => checkWord (.hkcount (FmtX.ofWord w))
  | 0x08 => checkWord (.hkfind (FmtX.ofWord w))
  | 0x09 => checkWord (.hknbr (FmtX.ofWord w))
  | 0x0a => if w.getLsbD 0 then checkWord (.hkrankThaw (FmtX.ofWord w)) else checkWord (.hkrank (FmtX.ofWord w))
  | 0x0b => checkWord (.hkstat (FmtX.ofWord w))
  | _ => none

/-- The BEM map (R290). -/
def decodeBem (w : BitVec 64) : Option Instr :=
  match (opByte w).toNat with
  | 0x00 => checkWord (.bqry (FmtX.ofWord w))
  | 0x01 => checkWord (.bpop (FmtX.ofWord w))
  | 0x02 => if w.getLsbD 0 then checkWord (.bstatRelease (FmtX.ofWord w)) else checkWord (.bstat (FmtX.ofWord w))
  | _ => none

/-- A word is read in the map of the class it stands in (R255). -/
def decodeWord (c : Cls) (w : BitVec 64) : Option Instr :=
  match c with
  | .ctl => decodeCtl w
  | .int => decodeInt w
  | .flt => decodeFlt w
  | .sfu => decodeSfu w
  | .cvt => decodeCvt w
  | .lane => decodeLane w
  | .mem => decodeMem w
  | .asy => decodeAsy w
  | .syn => decodeSyn w
  | .mma => decodeMma w
  | .hnk => decodeHnk w
  | .bem => decodeBem w

/-- The class whose map holds an instruction; none for a device step. -/
def Instr.cls : Instr → Option Cls
  | .powerOnReset => none
  | .selftestDone _ _ => none
  | .loadFw => none
  | .verifyDone => none
  | .mgmtqWrite _ => none
  | .powerInputFault => none
  | .thermalEvent _ _ => none
  | .creelHotModeChange _ _ => none
  | .creelRefreshWindowEnd _ => none
  | .lockstepMismatch _ => none
  | .hostLinkUp _ _ _ _ => none
  | .hostLinkDown _ => none
  | .hostReadCompletion _ _ _ => none
  | .hostCompletionTimeout _ => none
  | .bar2Read _ _ => none
  | .bar2Write _ _ => none
  | .registerWrite _ _ _ => none
  | .tailWrite _ _ _ => none
  | .resolveWrite _ => none
  | .consumedWrite _ _ => none
  | .portEnable _ _ => none
  | .portIsolate _ _ => none
  | .retrain _ => none
  | .portTrainDone _ _ _ _ => none
  | .portTrainTimeout _ => none
  | .flitReceive _ _ => none
  | .nakReceive _ _ => none
  | .pauseReceive _ _ => none
  | .resumeReceive _ _ => none
  | .spdmGetVersion _ => none
  | .spdmGetCapabilities _ => none
  | .spdmNegotiate _ => none
  | .spdmGetDigests _ => none
  | .spdmGetCertificate _ => none
  | .spdmChallenge _ _ => none
  | .spdmGetMeasurements _ _ => none
  | .mctpStageQuery => none
  | .packetFetch _ _ => none
  | .slotRereadTimer _ _ _ => none
  | .boardScan _ _ => none
  | .nopPacket => none
  | .launchPacket => none
  | .copyPacket => none
  | .barrierPacket => none
  | .signalPacket => none
  | .creelBegin => none
  | .creelSeal => none
  | .markerPacket => none
  | .contextCreate => none
  | .contextPaging => none
  | .contextQueue => none
  | .contextUnqueue => none
  | .contextInval => none
  | .contextSuspend => none
  | .contextResume => none
  | .contextTerminate => none
  | .contextResize => none
  | .resizeMapChange => none
  | .signalWatchNotify _ _ _ => none
  | .signalWatchReread _ _ _ => none
  | .packetComplete _ _ _ => none
  | .rootSpanPlace _ => none
  | .groupPlace _ => none
  | .deviceQueuePop _ _ => none
  | .devqSlotReread _ _ => none
  | .clauseFetch _ => none
  | .longLatencyResult _ => none
  | .groupRetire _ _ => none
  | .launchAbortDone => none
  | .barcContinuationStart => none
  | .yieldExpire _ => none
  | .watchdog _ => none
  | .contextSaveComplete => none
  | .contextRestore => none
  | .migRewalkTimer _ => none
  | .invalidationComplete => none
  | .l1Eviction _ _ => none
  | .uncorrectableError _ => none
  | .atomicEngineServe _ => none
  | .copyPerform _ _ => none
  | .copyEnd _ => none
  | .hankOperationPerform _ => none
  | .hankMoveInsert => none
  | .hankRankComplete => none
  | .hankThawComplete => none
  | .beamQueryStart _ => none
  | .beamQueryDone _ _ => none
  | .collJobEnd => none
  | .mmaSequencerPerform _ => none
  | .mmaAssistComplete _ => none
  | .nop _ => some .ctl
  | .bra _ => some .ctl
  | .brp _ => some .ctl
  | .join _ => some .ctl
  | .call _ => some .ctl
  | .calli _ => some .ctl
  | .ret _ => some .ctl
  | .jmpi _ => some .ctl
  | .exit _ => some .ctl
  | .region _ => some .ctl
  | .yield _ => some .ctl
  | .trap _ => some .ctl
  | .brk _ => some .ctl
  | .spawn _ => some .ctl
  | .deal _ => some .ctl
  | .rdsr _ => some .ctl
  | .wrsr _ => some .ctl
  | .fmode _ => some .ctl
  | .iadd _ => some .int
  | .iaddImm _ => some .int
  | .isub _ => some .int
  | .isubImm _ => some .int
  | .imul _ => some .int
  | .imulImm _ => some .int
  | .imulh _ => some .int
  | .imad _ => some .int
  | .imin _ => some .int
  | .iminImm _ => some .int
  | .imax _ => some .int
  | .imaxImm _ => some .int
  | .iabs _ => some .int
  | .ineg _ => some .int
  | .land _ => some .int
  | .landImm _ => some .int
  | .lor _ => some .int
  | .lorImm _ => some .int
  | .lxor _ => some .int
  | .lxorImm _ => some .int
  | .lnot _ => some .int
  | .landn _ => some .int
  | .landnImm _ => some .int
  | .shl _ => some .int
  | .shlImm _ => some .int
  | .shr _ => some .int
  | .shrImm _ => some .int
  | .sar _ => some .int
  | .sarImm _ => some .int
  | .rol _ => some .int
  | .rolImm _ => some .int
  | .ror _ => some .int
  | .rorImm _ => some .int
  | .popc _ => some .int
  | .clz _ => some .int
  | .ctz _ => some .int
  | .brev _ => some .int
  | .bfx _ => some .int
  | .bfi _ => some .int
  | .icmp _ => some .int
  | .icmpImm _ => some .int
  | .sel _ => some .int
  | .mov _ => some .int
  | .movi _ => some .int
  | .lea _ => some .int
  | .leaImm _ => some .int
  | .iaddw _ => some .int
  | .iaddwImm _ => some .int
  | .isubw _ => some .int
  | .icmpw _ => some .int
  | .mort _ => some .int
  | .unmort _ => some .int
  | .prmt _ => some .int
  | .fadd _ => some .flt
  | .faddImm _ => some .flt
  | .fsub _ => some .flt
  | .fmul _ => some .flt
  | .fmulImm _ => some .flt
  | .ffma _ => some .flt
  | .ffmaImm _ => some .flt
  | .fmin _ => some .flt
  | .fmax _ => some .flt
  | .fcmp _ => some .flt
  | .fcmpImm _ => some .flt
  | .fclass _ => some .flt
  | .frnd _ => some .flt
  | .fdot2 _ => some .flt
  | .fscale _ => some .flt
  | .rcp _ => some .sfu
  | .rsq _ => some .sfu
  | .sqrt _ => some .sfu
  | .exp2 _ => some .sfu
  | .log2 _ => some .sfu
  | .sin _ => some .sfu
  | .cos _ => some .sfu
  | .tanh _ => some .sfu
  | .fdiv _ => some .sfu
  | .idiv _ => some .sfu
  | .irem _ => some .sfu
  | .cvt _ => some .cvt
  | .pack _ => some .cvt
  | .unpk _ => some .cvt
  | .qmx _ => some .cvt
  | .dqmx _ => some .cvt
  | .qply _ => some .cvt
  | .dqply _ => some .cvt
  | .kmov _ => some .cvt
  | .perm _ => some .lane
  | .shfl _ => some .lane
  | .bcast _ => some .lane
  | .votea _ => some .lane
  | .votey _ => some .lane
  | .ballot _ => some .lane
  | .scan _ => some .lane
  | .redi _ => some .lane
  | .xadd _ => some .lane
  | .xrnd _ => some .lane
  | .xclr _ => some .lane
  | .xld _ => some .lane
  | .xst _ => some .lane
  | .shape _ => some .lane
  | .ld _ => some .mem
  | .st _ => some .mem
  | .lds _ => some .mem
  | .sts _ => some .mem
  | .phase _ => some .mem
  | .xfence _ => some .mem
  | .pref _ => some .mem
  | .atomAdd _ => some .mem
  | .atomSub _ => some .mem
  | .atomMin _ => some .mem
  | .atomMax _ => some .mem
  | .atomAnd _ => some .mem
  | .atomOr _ => some .mem
  | .atomXor _ => some .mem
  | .atomXchg _ => some .mem
  | .atomCas _ => some .mem
  | .atomInc _ => some .mem
  | .atomFadd _ => some .mem
  | .atomFadd2 _ => some .mem
  | .atomXam _ => some .mem
  | .atomLd _ => some .mem
  | .atomsAdd _ => some .mem
  | .atomsSub _ => some .mem
  | .atomsMin _ => some .mem
  | .atomsMax _ => some .mem
  | .atomsAnd _ => some .mem
  | .atomsOr _ => some .mem
  | .atomsXor _ => some .mem
  | .atomsXchg _ => some .mem
  | .atomsCas _ => some .mem
  | .atomsInc _ => some .mem
  | .atomsFadd _ => some .mem
  | .atomsFadd2 _ => some .mem
  | .atomsXam _ => some .mem
  | .atomsLd _ => some .mem
  | .acp _ => some .asy
  | .aseal _ => some .asy
  | .await _ => some .asy
  | .bcp _ => some .asy
  | .bxf _ => some .asy
  | .qfen _ => some .asy
  | .coll _ => some .asy
  | .astat _ => some .asy
  | .bari _ => some .syn
  | .bara _ => some .syn
  | .barw _ => some .syn
  | .barx _ => some .syn
  | .barc _ => some .syn
  | .waita _ => some .syn
  | .pipw _ => some .syn
  | .barq _ => some .syn
  | .mma _ => some .mma
  | .mzero _ => some .mma
  | .mdrain _ => some .mma
  | .mload _ => some .mma
  | .hkins _ => some .hnk
  | .hkdel _ => some .hnk
  | .hkmove _ => some .hnk
  | .hkupd _ => some .hnk
  | .hkopen _ => some .hnk
  | .hknext _ => some .hnk
  | .hkclose _ => some .hnk
  | .hkcount _ => some .hnk
  | .hkfind _ => some .hnk
  | .hknbr _ => some .hnk
  | .hkrank _ => some .hnk
  | .hkrankThaw _ => some .hnk
  | .hkstat _ => some .hnk
  | .bqry _ => some .bem
  | .bpop _ => some .bem
  | .bstat _ => some .bem
  | .bstatRelease _ => some .bem

/-- The word of an instruction: its opcode byte in its class's map (R283-R290) and its fields. A device step has no word. -/
def encode : Instr → BitVec 64
  | .powerOnReset => 0
  | .selftestDone _ _ => 0
  | .loadFw => 0
  | .verifyDone => 0
  | .mgmtqWrite _ => 0
  | .powerInputFault => 0
  | .thermalEvent _ _ => 0
  | .creelHotModeChange _ _ => 0
  | .creelRefreshWindowEnd _ => 0
  | .lockstepMismatch _ => 0
  | .hostLinkUp _ _ _ _ => 0
  | .hostLinkDown _ => 0
  | .hostReadCompletion _ _ _ => 0
  | .hostCompletionTimeout _ => 0
  | .bar2Read _ _ => 0
  | .bar2Write _ _ => 0
  | .registerWrite _ _ _ => 0
  | .tailWrite _ _ _ => 0
  | .resolveWrite _ => 0
  | .consumedWrite _ _ => 0
  | .portEnable _ _ => 0
  | .portIsolate _ _ => 0
  | .retrain _ => 0
  | .portTrainDone _ _ _ _ => 0
  | .portTrainTimeout _ => 0
  | .flitReceive _ _ => 0
  | .nakReceive _ _ => 0
  | .pauseReceive _ _ => 0
  | .resumeReceive _ _ => 0
  | .spdmGetVersion _ => 0
  | .spdmGetCapabilities _ => 0
  | .spdmNegotiate _ => 0
  | .spdmGetDigests _ => 0
  | .spdmGetCertificate _ => 0
  | .spdmChallenge _ _ => 0
  | .spdmGetMeasurements _ _ => 0
  | .mctpStageQuery => 0
  | .packetFetch _ _ => 0
  | .slotRereadTimer _ _ _ => 0
  | .boardScan _ _ => 0
  | .nopPacket => 0
  | .launchPacket => 0
  | .copyPacket => 0
  | .barrierPacket => 0
  | .signalPacket => 0
  | .creelBegin => 0
  | .creelSeal => 0
  | .markerPacket => 0
  | .contextCreate => 0
  | .contextPaging => 0
  | .contextQueue => 0
  | .contextUnqueue => 0
  | .contextInval => 0
  | .contextSuspend => 0
  | .contextResume => 0
  | .contextTerminate => 0
  | .contextResize => 0
  | .resizeMapChange => 0
  | .signalWatchNotify _ _ _ => 0
  | .signalWatchReread _ _ _ => 0
  | .packetComplete _ _ _ => 0
  | .rootSpanPlace _ => 0
  | .groupPlace _ => 0
  | .deviceQueuePop _ _ => 0
  | .devqSlotReread _ _ => 0
  | .clauseFetch _ => 0
  | .longLatencyResult _ => 0
  | .groupRetire _ _ => 0
  | .launchAbortDone => 0
  | .barcContinuationStart => 0
  | .yieldExpire _ => 0
  | .watchdog _ => 0
  | .contextSaveComplete => 0
  | .contextRestore => 0
  | .migRewalkTimer _ => 0
  | .invalidationComplete => 0
  | .l1Eviction _ _ => 0
  | .uncorrectableError _ => 0
  | .atomicEngineServe _ => 0
  | .copyPerform _ _ => 0
  | .copyEnd _ => 0
  | .hankOperationPerform _ => 0
  | .hankMoveInsert => 0
  | .hankRankComplete => 0
  | .hankThawComplete => 0
  | .beamQueryStart _ => 0
  | .beamQueryDone _ _ => 0
  | .collJobEnd => 0
  | .mmaSequencerPerform _ => 0
  | .mmaAssistComplete _ => 0
  | .nop f => f.toWord 0x00
  | .bra f => f.toWord 0x01
  | .brp f => f.toWord 0x02
  | .join f => f.toWord 0x03
  | .call f => f.toWord 0x04
  | .calli f => f.toWord 0x05
  | .ret f => f.toWord 0x06
  | .jmpi f => f.toWord 0x07
  | .exit f => f.toWord 0x08
  | .region f => f.toWord 0x09
  | .yield f => f.toWord 0x0a
  | .trap f => f.toWord 0x0b
  | .brk f => f.toWord 0x0c
  | .spawn f => f.toWord 0x0d
  | .deal f => f.toWord 0x0e
  | .rdsr f => f.toWord 0x0f
  | .wrsr f => f.toWord 0x10
  | .fmode f => f.toWord 0x11
  | .iadd f => f.toWord 0x00
  | .iaddImm f => f.toWord 0x80
  | .isub f => f.toWord 0x01
  | .isubImm f => f.toWord 0x81
  | .imul f => f.toWord 0x02
  | .imulImm f => f.toWord 0x82
  | .imulh f => f.toWord 0x03
  | .imad f => f.toWord 0x04
  | .imin f => f.toWord 0x05
  | .iminImm f => f.toWord 0x85
  | .imax f => f.toWord 0x06
  | .imaxImm f => f.toWord 0x86
  | .iabs f => f.toWord 0x07
  | .ineg f => f.toWord 0x08
  | .land f => f.toWord 0x09
  | .landImm f => f.toWord 0x89
  | .lor f => f.toWord 0x0a
  | .lorImm f => f.toWord 0x8a
  | .lxor f => f.toWord 0x0b
  | .lxorImm f => f.toWord 0x8b
  | .lnot f => f.toWord 0x0c
  | .landn f => f.toWord 0x0d
  | .landnImm f => f.toWord 0x8d
  | .shl f => f.toWord 0x0e
  | .shlImm f => f.toWord 0x8e
  | .shr f => f.toWord 0x0f
  | .shrImm f => f.toWord 0x8f
  | .sar f => f.toWord 0x10
  | .sarImm f => f.toWord 0x90
  | .rol f => f.toWord 0x11
  | .rolImm f => f.toWord 0x91
  | .ror f => f.toWord 0x12
  | .rorImm f => f.toWord 0x92
  | .popc f => f.toWord 0x13
  | .clz f => f.toWord 0x14
  | .ctz f => f.toWord 0x15
  | .brev f => f.toWord 0x16
  | .bfx f => f.toWord 0x17
  | .bfi f => f.toWord 0x18
  | .icmp f => f.toWord 0x19
  | .icmpImm f => f.toWord 0x99
  | .sel f => f.toWord 0x1a
  | .mov f => f.toWord 0x1b
  | .movi f => f.toWord 0x9b
  | .lea f => f.toWord 0x1c
  | .leaImm f => f.toWord 0x9c
  | .iaddw f => f.toWord 0x1d
  | .iaddwImm f => f.toWord 0x9d
  | .isubw f => f.toWord 0x1e
  | .icmpw f => f.toWord 0x1f
  | .mort f => f.toWord 0x20
  | .unmort f => f.toWord 0x21
  | .prmt f => f.toWord 0x22
  | .fadd f => f.toWord 0x00
  | .faddImm f => f.toWord 0x80
  | .fsub f => f.toWord 0x01
  | .fmul f => f.toWord 0x02
  | .fmulImm f => f.toWord 0x82
  | .ffma f => f.toWord 0x03
  | .ffmaImm f => f.toWord 0x83
  | .fmin f => f.toWord 0x04
  | .fmax f => f.toWord 0x05
  | .fcmp f => f.toWord 0x06
  | .fcmpImm f => f.toWord 0x86
  | .fclass f => f.toWord 0x07
  | .frnd f => f.toWord 0x08
  | .fdot2 f => f.toWord 0x09
  | .fscale f => f.toWord 0x0a
  | .rcp f => f.toWord 0x00
  | .rsq f => f.toWord 0x01
  | .sqrt f => f.toWord 0x02
  | .exp2 f => f.toWord 0x03
  | .log2 f => f.toWord 0x04
  | .sin f => f.toWord 0x05
  | .cos f => f.toWord 0x06
  | .tanh f => f.toWord 0x07
  | .fdiv f => f.toWord 0x08
  | .idiv f => f.toWord 0x09
  | .irem f => f.toWord 0x0a
  | .cvt f => f.toWord 0x00
  | .pack f => f.toWord 0x01
  | .unpk f => f.toWord 0x02
  | .qmx f => f.toWord 0x03
  | .dqmx f => f.toWord 0x04
  | .qply f => f.toWord 0x05
  | .dqply f => f.toWord 0x06
  | .kmov f => f.toWord 0x07
  | .perm f => f.toWord 0x00
  | .shfl f => f.toWord 0x01
  | .bcast f => f.toWord 0x02
  | .votea f => f.toWord 0x03
  | .votey f => f.toWord 0x04
  | .ballot f => f.toWord 0x05
  | .scan f => f.toWord 0x06
  | .redi f => f.toWord 0x07
  | .xadd f => f.toWord 0x08
  | .xrnd f => f.toWord 0x09
  | .xclr f => f.toWord 0x0a
  | .xld f => f.toWord 0x0b
  | .xst f => f.toWord 0x0c
  | .shape f => f.toWord 0x0d
  | .ld f => f.toWord 0x00
  | .st f => f.toWord 0x01
  | .lds f => f.toWord 0x02
  | .sts f => f.toWord 0x03
  | .phase f => f.toWord 0x04
  | .xfence f => f.toWord 0x05
  | .pref f => f.toWord 0x06
  | .atomAdd f => f.toWord 0x20
  | .atomSub f => f.toWord 0x21
  | .atomMin f => f.toWord 0x22
  | .atomMax f => f.toWord 0x23
  | .atomAnd f => f.toWord 0x24
  | .atomOr f => f.toWord 0x25
  | .atomXor f => f.toWord 0x26
  | .atomXchg f => f.toWord 0x27
  | .atomCas f => f.toWord 0x28
  | .atomInc f => f.toWord 0x29
  | .atomFadd f => f.toWord 0x2a
  | .atomFadd2 f => f.toWord 0x2b
  | .atomXam f => f.toWord 0x2c
  | .atomLd f => f.toWord 0x2d
  | .atomsAdd f => f.toWord 0x30
  | .atomsSub f => f.toWord 0x31
  | .atomsMin f => f.toWord 0x32
  | .atomsMax f => f.toWord 0x33
  | .atomsAnd f => f.toWord 0x34
  | .atomsOr f => f.toWord 0x35
  | .atomsXor f => f.toWord 0x36
  | .atomsXchg f => f.toWord 0x37
  | .atomsCas f => f.toWord 0x38
  | .atomsInc f => f.toWord 0x39
  | .atomsFadd f => f.toWord 0x3a
  | .atomsFadd2 f => f.toWord 0x3b
  | .atomsXam f => f.toWord 0x3c
  | .atomsLd f => f.toWord 0x3d
  | .acp f => f.toWord 0x00
  | .aseal f => f.toWord 0x01
  | .await f => f.toWord 0x02
  | .bcp f => f.toWord 0x03
  | .bxf f => f.toWord 0x04
  | .qfen f => f.toWord 0x05
  | .coll f => f.toWord 0x06
  | .astat f => f.toWord 0x07
  | .bari f => f.toWord 0x00
  | .bara f => f.toWord 0x01
  | .barw f => f.toWord 0x02
  | .barx f => f.toWord 0x03
  | .barc f => f.toWord 0x04
  | .waita f => f.toWord 0x05
  | .pipw f => f.toWord 0x06
  | .barq f => f.toWord 0x07
  | .mma f => f.toWord 0x00
  | .mzero f => f.toWord 0x01
  | .mdrain f => f.toWord 0x02
  | .mload f => f.toWord 0x03
  | .hkins f => f.toWord 0x00
  | .hkdel f => f.toWord 0x01
  | .hkmove f => f.toWord 0x02
  | .hkupd f => f.toWord 0x03
  | .hkopen f => f.toWord 0x04
  | .hknext f => f.toWord 0x05
  | .hkclose f => f.toWord 0x06
  | .hkcount f => f.toWord 0x07
  | .hkfind f => f.toWord 0x08
  | .hknbr f => f.toWord 0x09
  | .hkrank f => f.toWord 0x0a
  | .hkrankThaw f => f.toWord 0x0a
  | .hkstat f => f.toWord 0x0b
  | .bqry f => f.toWord 0x00
  | .bpop f => f.toWord 0x01
  | .bstat f => f.toWord 0x02
  | .bstatRelease f => f.toWord 0x02

/-- The instructions that must be the last word of their clause (R257). -/
def Instr.endsClause : Instr → Bool
  | .bra _ | .brp _ | .join _ | .call _ | .calli _ | .ret _ | .jmpi _ | .exit _ | .region _ | .yield _ | .trap _ | .brk _
  | .barw _ | .barc _ | .waita _ | .pipw _ => true
  | _ => false

/-- The fields of a clause header (R253). -/
structure Header where
  cls : Cls
  count : Nat
  wait : BitVec 12
  seta : Nat
  setb : Nat
  tail : Bool
  deriving DecidableEq, Repr

/-- A header and the checks of R254: none is ILLCLAUSE or BADTARGET. -/
def decodeHeader (h : BitVec 64) : Option Header :=
  match Cls.ofCode (h.extractLsb' 60 4) with
  | none => none
  | some c =>
    if h.extractLsb' 32 3 == 5 && h.extractLsb' 0 32 == 0 && !(h.getLsbD 35 && c == .ctl) then
      some { cls := c, count := (h.extractLsb' 56 4).toNat + 1, wait := h.extractLsb' 44 12
             seta := (h.extractLsb' 40 4).toNat, setb := (h.extractLsb' 36 4).toNat, tail := h.getLsbD 35 }
    else none

/-- The class in which the word of a slot is decoded: CTL for the TAIL slot, else the clause's class (R255). -/
def Header.slotCls (h : Header) (slot : Nat) : Cls := if h.tail && slot + 1 == h.count then .ctl else h.cls

/-- The instruction of a slot: decoded in the slot's class and placed as R257 allows. -/
def Header.decodeSlot (h : Header) (slot : Nat) (w : BitVec 64) : Option Instr :=
  match decodeWord (h.slotCls slot) w with
  | none => none
  | some i => if i.endsClause && slot + 1 != h.count then none else some i

/-- The header word of a clause of one instruction in class c that waits on no pip and sets none. -/
def soloHeader (c : Cls) : BitVec 64 :=
  c.code ++ (0 : BitVec 4) ++ (0 : BitVec 12) ++ (0xF : BitVec 4) ++ (0xF : BitVec 4) ++ (0 : BitVec 1) ++ (5 : BitVec 3)
    ++ (0 : BitVec 32)

/-- The instruction that a clause header and its first word stand for: the low 64 bits of w are the header, the next 64 the
word, as the two stand in memory. -/
def decodeClauseWord (w : BitVec 128) : Option Instr :=
  match decodeHeader (w.extractLsb' 0 64) with
  | none => none
  | some h => h.decodeSlot 0 (w.extractLsb' 64 64)

/-- The host's question about one row of the opcode table: the bits above nbits are zero. -/
def decodeTableWord (nbits w : Nat) : Option Instr := decodeClauseWord (BitVec.ofNat 128 (w % 2 ^ nbits))

end Sys2Proof
end

