-- ==== Sys2Proof/Machine/Kv.lean ====
section
/-! DEFINITION. Sparse storage in one canonical form: a list of keys and values with strictly rising keys, no entry equal to
the value that an unlisted key reads as. Memory, pads, register rows and register tables are kept so; equal contents are then
equal lists. -/

namespace Sys2Proof.Machine

/-- A sparse table. -/
abbrev Kv (α : Type) := List (Nat × α)

/-- The value at a key; dflt where none is listed. -/
def Kv.get {α : Type} (dflt : α) : Kv α → Nat → α
  | [], _ => dflt
  | (k, v) :: rest, i => if i = k then v else if i < k then dflt else Kv.get dflt rest i

/-- Put a value at a key, whatever it is. -/
def Kv.insert {α : Type} (i : Nat) (x : α) : Kv α → Kv α
  | [] => [(i, x)]
  | (k, v) :: rest => if i < k then (i, x) :: (k, v) :: rest else if i = k then (i, x) :: rest else (k, v) :: Kv.insert i x rest

/-- Remove a key. -/
def Kv.erase {α : Type} (i : Nat) : Kv α → Kv α
  | [] => []
  | (k, v) :: rest => if i < k then (k, v) :: rest else if i = k then rest else (k, v) :: Kv.erase i rest

/-- Write a value: the value that unlisted keys read as removes the entry. -/
def Kv.set {α : Type} [DecidableEq α] (dflt : α) (m : Kv α) (i : Nat) (x : α) : Kv α :=
  if x = dflt then Kv.erase i m else Kv.insert i x m

/-- Strictly rising keys, each at least lo, and no listed default. -/
def Kv.wfFrom {α : Type} [DecidableEq α] (dflt : α) : Nat → Kv α → Bool
  | _, [] => true
  | lo, (k, v) :: rest => decide (lo ≤ k) && decide (v ≠ dflt) && Kv.wfFrom dflt (k + 1) rest

/-- The canonical form. -/
def Kv.wf {α : Type} [DecidableEq α] (dflt : α) (m : Kv α) : Bool := Kv.wfFrom dflt 0 m

/-- Write a run of values at consecutive keys. -/
def Kv.setRun {α : Type} [DecidableEq α] (dflt : α) (m : Kv α) (i : Nat) : List α → Kv α
  | [] => m
  | x :: xs => Kv.setRun dflt (Kv.set dflt m i x) (i + 1) xs

/-- Read a run of n values at consecutive keys. -/
def Kv.getRun {α : Type} (dflt : α) (m : Kv α) (i : Nat) : Nat → List α
  | 0 => []
  | n + 1 => Kv.get dflt m i :: Kv.getRun dflt m (i + 1) n

/-- Keep the entries whose key satisfies p. -/
def Kv.keep {α : Type} (p : Nat → Bool) (m : Kv α) : Kv α := List.filter (fun e => p e.1) m

end Sys2Proof.Machine
end

