-- ==== Sys2Proof/Machine/State.lean ====
section
/-! DEFINITION. The state of the module: everything the spec gives it (INVENTORY.md lists each piece with its rule), as
plain data, the machine after power-on reset, and the reasons a step can stop. -/

namespace Sys2Proof.Machine

/-- Byte-addressed storage. -/
abbrev Memory := List Host.Cell

/-- The value of a v register with its shape (R97, R268): u, one value for all items; a, base + stride * item modulo 2^32;
g, one value for each item, held in the window's row. -/
inductive VReg where
  | u (x : W32)
  | a (base stride : W32)
  | g
  deriving DecidableEq, Repr

/-- A predicate register with its shape (R97): lt t is true on the items below t, ge t on the items from t; g is a mask over
the window. -/
inductive PReg where
  | u (b : Bool)
  | lt (t : Nat)
  | ge (t : Nat)
  | g (mask : BitVec 64)
  deriving DecidableEq, Repr

/-- An exact accumulator (R38): the two's-complement value V and the flags. -/
structure XAcc where
  v : BitVec 320
  flags : BitVec 4
  deriving DecidableEq, Repr

/-- The zero accumulator. -/
def XAcc.zero : XAcc := { v := 0, flags := 0 }

/-- The stages of a die (R245, R246). -/
inductive Stage where
  | reset | selftest | hold | waitfw | verify | running
  deriving DecidableEq, Repr

/-- What one die holds beside its cores (R18, R135, R247, R250, R251). -/
structure Die where
  stage : Stage
  cycle : W64
  celsius : Nat
  creelCelsius : Nat
  hot : Bool
  hotNext : Option Bool
  onePort : Bool
  faulted : Bool
  mismatches : List Nat
  repairs : List (Nat × Nat)
  deriving DecidableEq, Repr

/-- The mailbox registers (R247). -/
structure Mailbox where
  test : BitVec 8
  die : BitVec 2
  unit : BitVec 16
  repairs : W32
  fwaddr : W64
  fwlen : W32
  fwstatus : BitVec 3
  mgmtq : W64
  linkdrop : W32
  deriving DecidableEq, Repr

/-- A host link (R233). -/
structure HostLink where
  lstate : Nat
  gen : Nat
  width : Nat
  cxl : Nat
  deriving DecidableEq, Repr

/-- A third-tier range (R233, R235). -/
structure Range3 where
  hbase : W64
  enable : Bool
  len : Nat
  deriving DecidableEq, Repr

/-- The host-side registers and the MSI-X table (R231-R235); the pending bits show the messages held (R231). -/
structure HostSide where
  links : List HostLink
  wbase : W64
  ranges : List Range3
  msixTable : Kv Byte
  deriving DecidableEq, Repr

/-- The states of a Plait port (R239). -/
inductive PortState where
  | down | training | up | degraded | isolated
  deriving DecidableEq, Repr

/-- A flit sent and not yet acknowledged, with its sequence number (R237). -/
structure SentFlit where
  seq : BitVec 12
  bytes : List Byte
  deriving DecidableEq, Repr

/-- A Plait port (R237-R240). lastOut and lastIn are the last sequences sent and received in order; rx holds the payloads received in
order and not yet taken, with their VCs and tags; pausedTx the VCs that the peer has paused, pausedRx those paused here. -/
structure Port where
  enable : Bool
  isolate : Bool
  vec : BitVec 8
  lanes : Nat
  state : PortState
  peerId : BitVec 56
  peerPort : BitVec 4
  replays : W32
  attempts : Nat
  replayCycles : List Nat
  lastOut : BitVec 12
  lastIn : BitVec 12
  unacked : List SentFlit
  resend : List SentFlit
  rx : List (Nat × BitVec 26 × List Byte)
  pausedTx : List Nat
  pausedRx : List Nat
  deriving DecidableEq, Repr

/-- An SPDM connection over one transport (R249). -/
structure Spdm where
  versionAsked : Bool
  capsAsked : Bool
  negotiated : Bool
  deriving DecidableEq, Repr

/-- A partition (R208) with its dispatcher's pointer (R92) and a RESIZE in progress (R223). -/
structure Part where
  num : Nat
  pairs : BitVec 16
  pointer : Nat
  resize : Option (BitVec 16)
  deriving DecidableEq, Repr

/-- The states of a context (R212). -/
inductive CtxState where
  | allocated | runnable | running | suspending | suspended | faulted | terminated
  deriving DecidableEq, Repr

/-- What PAGING sets (R210). -/
structure Paging where
  root : Nat
  ring : Nat
  logSlots : Nat
  reqVec : Nat
  evVec : Nat
  deriving DecidableEq, Repr

/-- A context (R209-R214) with its page requests (R164); broke tells that a BRK has been committed since it last began to run (R346). -/
structure Ctx where
  num : Nat
  state : CtxState
  part : Option Nat
  priority : Nat
  saveBase : Nat
  saveBytes : Nat
  trap : W64
  watchLimit : Nat
  paging : Option Paging
  requests : List Nat
  seq : W64
  consumed : W64
  launchCtr : W32
  cause : W32
  tpc : W64
  tval : W64
  need : W64
  returning : Bool
  broke : Bool
  deriving DecidableEq, Repr

/-- Where a translation is held (R163). -/
inductive TlbPlace where
  | core (n : Nat)
  | cluster (n : Nat)
  | die (n : Nat)
  deriving DecidableEq, Repr

/-- A cached translation (R162, R163): of a leaf, or of a level-2 table for a die. Tagged by context, or by partition when
GLOBAL. -/
structure TlbEntry where
  place : TlbPlace
  tagCtx : Option Nat
  tagPart : Option Nat
  va : Nat
  bytes : Nat
  leaf : Bool
  entry : W64
  deriving DecidableEq, Repr

/-- The states of a host queue (R52). -/
inductive HqState where
  | empty | fetching | stalled | full | halted | dead
  deriving DecidableEq, Repr

/-- A token (R57). -/
inductive Tok where
  | clear | set | poisoned
  deriving DecidableEq, Repr

/-- A completion on its way to the record (R65). -/
structure Report where
  status : Nat
  detail : W32
  progress : W64
  fault : W64
  extra : W64
  deriving DecidableEq, Repr

/-- How far a board entry has come (R57): waiting; chosen to start by a scan, its next action due; held until a re-walk;
started and waiting for its work; completed and waiting for its record; done. -/
inductive EntryPhase where
  | waiting | chosen | held | started | reporting | done
  deriving DecidableEq, Repr

/-- An entry of a host queue's board (R57). watches holds the signal addresses of a started BARRIER (R62), the engine work a CREEL seal
waits for (R134), the turn in which a CONTEXT packet started (R211); step counts what has been done of it. -/
structure Entry where
  pos : Nat
  bytes : List Byte
  phase : EntryPhase
  poisonedWait : Bool
  consumed : Bool
  watches : List Nat
  step : Nat
  report : Report
  deriving DecidableEq, Repr

/-- A host queue (R49-R52). -/
structure HostQueue where
  ctx : Nat
  idx : Nat
  desc : W64
  ring : W64
  cbase : W64
  logn : Nat
  home : Nat
  tail : W32
  fetch : W32
  retire : W32
  state : HqState
  longstall : Bool
  badtail : Bool
  back : HqState
  tokens : List Tok
  board : List Entry
  deriving DecidableEq, Repr

/-- A device queue (R49, R68): its counters stand in memory at its descriptor. -/
structure DevQueue where
  ctx : Nat
  idx : Nat
  desc : W64
  ring : W64
  logn : Nat
  home : Nat
  deriving DecidableEq, Repr

/-- Where a launch comes from (R70). -/
inductive LaunchSrc where
  | packet (q pos : Nat)
  | record (dq : Nat) (kind : Nat) (beam : W64)
  deriving DecidableEq, Repr

/-- The states of a launch (R81). -/
inductive LaunchState where
  | checking | running | draining | aborting | complete
  deriving DecidableEq, Repr

/-- A launch (R70-R82). exited holds the item ranges that exited in spans not dealt; retired the groups that retired;
evHeld the groups whose event write is held; age its age as head (R93). -/
structure Launch where
  id : Nat
  ctx : Nat
  num : W32
  tree : W32
  src : LaunchSrc
  code : W64
  count : Nat
  size : Nat
  pad : Nat
  gregs : Nat
  bars : Nat
  flags : BitVec 8
  args : W64
  events : W64
  state : LaunchState
  rootCore : Option Nat
  rootPlaced : Bool
  dealtAll : Bool
  exited : List (Nat × Nat)
  retired : List Nat
  retiredItems : Nat
  evHeld : List Nat
  age : Nat
  fault : Option (W32 × W64)
  evFault : Option (W32 × W64)
  deriving DecidableEq, Repr

/-- A spawn tree (R83, R84). closing: its context has faulted or been terminated, so that it completes with its last launch, whose queries
still run (R206). -/
structure Tree where
  ctx : Nat
  id : W32
  q : Nat
  pos : Nat
  founder : Nat
  counter : Nat
  status : Nat
  detail : W32
  fault : W64
  progress : Nat
  extra : Nat
  closing : Bool
  deriving DecidableEq, Repr

/-- The states of a group (R95). -/
inductive GroupState where
  | dealt | resident | saved
  deriving DecidableEq, Repr

/-- The states of a barrier (R107). -/
inductive BarState where
  | uninit | idle | opened | broken
  deriving DecidableEq, Repr

/-- A barrier (R107). -/
structure Barrier where
  state : BarState
  expect : Nat
  arrived : Nat
  bytes : Int
  phase : W32
  mask : Option (BitVec 16)
  cont : Option W64
  brk : BitVec 2
  deriving DecidableEq, Repr

/-- A continuation waiting for a slot (R114). -/
structure Cont where
  code : W64
  lo : Nat
  cnt : Nat
  phase : W32
  bar : Nat
  deriving DecidableEq, Repr

/-- An accepted MMA-class instruction (R376-R384): its operands as issued; keep is %fmode bit 3; next is the next k-block; assist
tells that the array waits for the assist routine (R47); after is the clause that follows its clause. -/
structure MmaOp where
  id : Nat
  op : Nat
  core : Nat
  unit : Nat
  group : Nat
  word : W64
  kind : Nat
  pair : Bool
  a : Nat
  b : Nat
  kb : Nat
  planes : Nat
  bfmt : Nat
  dfmt : Nat
  round : Nat
  sat : Bool
  clear : Bool
  keep : Bool
  next : Nat
  assist : Bool
  after : W64
  deriving DecidableEq, Repr

/-- A group (R89-R95). pieces counts the dealt pieces; rowMap is keyed by window * 128 + register; rows and slots hold what
the placement reserved, as core * 2048 + row and core * 64 + slot; exited is a mask over the group's items. The images hold what a saved
group had, with the 8-byte words of its pad image and the keys of its row image that are poisoned (R137, R221). -/
structure Group where
  id : Nat
  launch : Nat
  gid : Nat
  state : GroupState
  core : Nat
  pair : Bool
  size : Nat
  gregs : Nat
  padBase : Nat
  padBase2 : Nat
  padBytes : Nat
  pieces : Nat
  rows : List Nat
  rowMap : Kv (Option Nat)
  slots : List Nat
  exited : Nat
  bars : List Barrier
  conts : List Cont
  padImage : List Byte
  rowImage : Kv (List W32)
  padPoison : List Nat
  rowPoison : List Nat
  tileImage : List (Nat × Bool × Kv W32)
  mmaSaved : List MmaOp
  deriving DecidableEq, Repr

/-- What a span or strand is (R73, R96, R98, R100). -/
inductive UnitKind where
  | undealt | span | strand | deferred
  deriving DecidableEq, Repr

/-- What makes a span or strand not ready (R104, R220); need is in the bits of R164; lines are those whose atomics of host memory must be
performed first (R356). -/
inductive Wait where
  | none
  | barw (bar : Nat) (phases : List W32)
  | waita (checks : List (Nat × W64))
  | pipw (mask : BitVec 12)
  | await (n : Nat)
  | join (addr : W64) (n : Nat)
  | page (va need : Nat) (tpc next : W64)
  | held (va need : Nat)
  | host (lines : List Nat)
  | tile
  | room (queue atMost : Nat)
  | yield
  | slots
  deriving DecidableEq, Repr

/-- An open region (R215); the clauses issued inside it have numbers from since on. -/
structure Region where
  n : Nat
  entry : W64
  since : Nat
  deriving DecidableEq, Repr

/-- A duty of a pip (R256): the clause that owes it, the pip, whether it is the register duty, whether the clause has
issued its last word. -/
structure Duty where
  clause : Nat
  pip : Nat
  isA : Bool
  issued : Bool
  deriving DecidableEq, Repr

/-- Where an inline SPAWN resumes (R344): the clause and slot after SPAWN, its result register, its clause's duties, the depth
of the return stack with its frame, %nest before it. -/
structure InlineRet where
  hdr : W64
  slot : Nat
  reg : Nat
  clause : Nat
  depth : Nat
  nest : Nat
  deriving DecidableEq, Repr

/-- A transfer that has not yet reached its target's header (R258): the transferring word, the clause after it, the return
stack, %nest, the inline calls and the clause before it. -/
structure Origin where
  word : W64
  next : W64
  rstack : List W64
  nest : Nat
  inl : List InlineRet
  clause : Nat
  deriving DecidableEq, Repr

/-- A trap to be taken at its unit's next clause boundary (R165, R356, R385), or once its span has materialised (R225): cause, %tpc, %tval,
the clause where a routine's return goes on, whether the access was of global memory. -/
structure LateTrap where
  cause : W32
  tpc : W64
  tval : W64
  next : W64
  global : Bool
  deriving DecidableEq, Repr

/-- A span, strand or deferred side (R73, R96-R102, R268, R269). lo and cnt give a span's items; a strand's items are mask
over the 64 items from lo. -/
structure SUnit where
  id : Nat
  kind : UnitKind
  launch : Nat
  group : Option Nat
  core : Nat
  slot : Option Nat
  lo : Nat
  cnt : Nat
  mask : BitVec 64
  pc : W64
  origin : Option Origin
  pcSlot : Option Nat
  clause : Nat
  v : Kv VReg
  p : Kv PReg
  k : Kv W64
  x : Kv XAcc
  rstack : List W64
  inl : List InlineRet
  sstack : List Nat
  nest : Nat
  nestmax : Nat
  fmode : BitVec 4
  fmodeNext : BitVec 4
  tcause : W32
  tpc : W64
  tval : W64
  region : Option Region
  wait : Wait
  closed : List (Nat × List Nat)
  openB : List Nat
  qfens : List (BitVec 6 × List Nat)
  duties : List Duty
  trapFrames : List (Nat × Bool)
  asyncTrap : Option LateTrap
  turn : Nat
  deriving DecidableEq, Repr

/-- A clause in issue on a port of a core (R104, R253); entered tells that the word of the slot has handed its work to an engine queue that
still holds more than its 64 entries (R131). -/
structure Issue where
  unit : Nat
  hdrAddr : W64
  hdr : Header
  words : List W64
  slot : Nat
  entered : Bool
  deriving DecidableEq, Repr

/-- A register write that a long-latency operation still owes. -/
inductive RegWrite where
  | vu (r : Nat) (x : VReg)
  | vg (r : Nat) (lo : Nat) (mask : BitVec 64) (vals : List W32)
  | pu (r : Nat) (x : PReg)
  | xacc (r : Nat) (x : XAcc)
  deriving DecidableEq, Repr

/-- What an outstanding long-latency operation still waits for: nothing, that many entries at engines, or the entries of a
QFEN (R370). -/
inductive PendWait where
  | ready
  | entries (left : Nat)
  | fence (ids : List Nat)
  deriving DecidableEq, Repr

/-- An outstanding long-latency result or access (R256): the spans and strands it belongs to, its clause, the writes it owes,
the duties it holds back. -/
structure PendOp where
  id : Nat
  targets : List Nat
  clause : Nat
  wait : PendWait
  writes : List RegWrite
  setA : Bool
  setB : Bool
  batch : Bool
  deriving DecidableEq, Repr

/-- A request of an ATOM at its home engine (R129, R130), with its word and the clause that follows (R137); ask names its read of host memory
(R356). -/
structure AtomReq where
  op : Nat
  ask : Option Nat
  word : W64
  after : W64
  va : W64
  source : Nat
  slot : Nat
  item : Nat
  lane : Nat
  cluster : Nat
  pa : Nat
  ctx : Nat
  sub : Nat
  ty : Ty
  data : W64
  data2 : W64
  acc : XAcc
  reg : Option Nat
  lo : Nat
  deriving DecidableEq, Repr

/-- A hank request or operation as issued (R386, R387). -/
structure HankReq where
  code : Nat
  hank : W64
  key : W64
  stamp : W32
  newkey : W64
  recOk : Bool
  payload : List Byte
  lo : W64
  hi : W64
  cursor : Nat
  pos : Bool
  offsets : List (Nat × Nat)
  maskArg : W32
  offset : Nat
  deriving DecidableEq, Repr

/-- The work of an engine-queue entry (R131). -/
inductive EngJob where
  | acp (size : Nat) (items : List (Nat × W64 × Nat)) (word : Option (Nat × Nat)) (bar : Option Nat)
  | card (bxf : Bool) (addr : W64) (bar : Option Nat)
  | coll (addr : W64)
  | query (addr : W64) (tree : W32)
  | pop (handle : W32) (offsets : List (Nat × Nat))
  | stat (handle : W32) (release : Bool)
  | spawn (dq : Nat) (pa : Nat) (pos : Nat) (bytes : List Byte)
  | hank (r : HankReq)
  deriving DecidableEq, Repr

/-- An entry of an engine queue (R131). after lists the entries that must be performed first (R370). -/
structure EngEntry where
  id : Nat
  core : Nat
  queue : Nat
  engine : Nat
  op : Nat
  unit : Nat
  item : Nat
  lane : Nat
  lo : Nat
  ctx : Nat
  launch : Nat
  group : Option Nat
  reg : Nat
  fmode : BitVec 4
  job : EngJob
  after : List Nat
  deriving DecidableEq, Repr

/-- The card of a copy (R361). -/
structure CopyCard where
  src : W64
  dst : W64
  rows : Nat
  rbytes : Nat
  spitch : Nat
  dpitch : Nat
  vrows : Nat
  vbytes : Nat
  load : Nat
  store : Nat
  planes : Nat
  efmt : Nat
  space : Nat
  cword : Nat
  cvalue : Nat
  status : W64
  deriving DecidableEq, Repr

/-- Whom a copy reports to. -/
inductive CopyOwner where
  | entry (e : EngEntry)
  | packet (ctx q pos : Nat)
  deriving DecidableEq, Repr

/-- How a copy stopped (R367). -/
structure CopyEnd where
  status : Nat
  detail : Nat
  fault : W64
  deriving DecidableEq, Repr

/-- A copy taken by a copy engine (R166, R360-R369): destination bytes performed, source bytes read,
where the command of an EXPAND in progress begins, the header of an EXPAND or COMPRESS and the bytes it has produced, whether it is parked,
held, has been parked, or is saved with its context, what it needs of the page it waits for (R164), how it stopped. history tells of each byte
that an EXPAND has produced whether it is poisoned; covered lists the bytes of poisoned lines, and of poisoned pad words, that it has written
(R137). -/
structure Copy where
  id : Nat
  cluster : Nat
  engine : Nat
  owner : CopyOwner
  ctx : Nat
  bxf : Bool
  card : CopyCard
  started : Bool
  done : Nat
  read : Nat
  cmd : Nat
  header : Option (Nat × Nat)
  history : List (Byte × Bool)
  covered : List Nat × List Nat
  parked : Option Nat
  held : Option Nat
  need : Nat
  wasParked : Bool
  saved : Bool
  ended : Option CopyEnd
  deriving DecidableEq, Repr

/-- An element of a hank (R173). -/
structure Elem where
  key : Nat
  stamp : W32
  payload : List Byte
  deriving DecidableEq, Repr

/-- A pinned lea of a cursor (R183): the addresses of the blocks kept, in the chain's order, and the elements that came back into them after
the pin (R180). -/
structure Pin where
  lea : Nat
  blocks : List Nat
  later : List Elem
  deriving DecidableEq, Repr

/-- A cursor (R182-R184): the lea it reads, the next of that lea's pinned elements. closed: its group has gone, and pins still wait to be
released (R177). -/
structure Cursor where
  core : Nat
  num : Nat
  group : Nat
  ctx : Nat
  hank : W64
  lo : W64
  hi : W64
  lea : Nat
  next : Nat
  pins : List Pin
  last : Option (Nat × W32)
  closed : Bool
  deriving DecidableEq, Repr

/-- How far a move between two leas has come (R180): its insertion is to be made; it has been made, and the bytes reserved at the old lea are
still to be given up, which waits for a page (R177); its insertion has failed, and the restore of its element waits: owed is the status that its
item has still to receive. -/
inductive MovePhase where
  | insert
  | spare
  | restore (owed : Option Nat)
  deriving DecidableEq, Repr

/-- Whether a move's item still waits for its status. -/
def MovePhase.inFlight : MovePhase → Bool
  | .insert => true
  | .spare => false
  | .restore owed => owed.isSome

/-- A move between two leas in flight (R180): the element, its old lea, the block that keeps its record bytes reserved. -/
structure Move where
  phase : MovePhase
  entry : EngEntry
  elem : Elem
  newkey : Nat
  lea : Nat
  block : Nat
  deriving DecidableEq, Repr

/-- A HKRANK in progress or held (R187): begun are the leas whose freeze or thaw has been performed; frozen tells that they all have. -/
structure RankJob where
  entry : EngEntry
  thaw : Bool
  begun : List Nat
  frozen : Bool
  deriving DecidableEq, Repr

/-- The states of a query slot (R206). -/
inductive BeamState where
  | free | running | done
  deriving DecidableEq, Repr

/-- A query slot of a beam unit (R202, R206): card and record as read; ended tells that the traversal is over and the status record
still to be written. -/
structure BeamSlot where
  cluster : Nat
  slot : Nat
  gen : BitVec 8
  state : BeamState
  group : Nat
  ctx : Nat
  hank : W64
  entry : Option EngEntry
  result : W64
  status : Nat
  hits : Nat
  spawned : Nat
  collected : Nat
  leaves : Nat
  fault : W64
  popped : Nat
  card : List Byte
  record : List Byte
  ended : Bool
  deriving DecidableEq, Repr

/-- The accumulator tile of a core (R375): its holder, whether a pair operation claimed it (R384), and its elements, row * 128 + column. -/
structure Tile where
  core : Nat
  group : Option Nat
  paired : Bool
  elems : Kv W32
  deriving DecidableEq, Repr

/-- A collective job (R241-R244): its card; the phase (0 reduce-scatter, 1 all-gather) and the step within it; the wire bytes to be
sent in this step with how many are sent, those received; steps completed, bytes of DST written; how it stopped. -/
structure CollJob where
  id : Nat
  entry : EngEntry
  card : List Byte
  seq : Nat
  phase : Nat
  step : Nat
  hello : Bool
  heard : Bool
  carry : List Byte
  sent : Nat
  got : List Byte
  steps : Nat
  bytes : Nat
  ended : Option (Nat × W64)
  deriving DecidableEq, Repr

/-- What a byte that a core's L1 holds dirty was before its last store, and the item that stored it: another item of the core need not see
the store yet (R145, R146). old is what the L1 itself held; none: the byte was not dirty, and lies beneath the L1 still. -/
structure OldByte where
  old : Option Byte
  launch : Nat
  item : Nat
  deriving DecidableEq, Repr

/-- A read of host memory by an item, or, with unit 0, by an atomic at its home engine (R11, R356): answer is the host's, whether it completed
and the data. -/
structure HostRead where
  op : Nat
  unit : Nat
  pa : Nat
  bytes : Nat
  answer : Option (Bool × List Byte)
  deriving DecidableEq, Repr

/-- Bytes of an aligned 8-byte pad unit, by their keys, that an item's STS wrote, and that a copy may still be unordered with (R373): one that
its group enters later into a queue of the mask, or one of the entries listed. -/
structure PadNote where
  group : Nat
  keys : List Nat
  queues : BitVec 2
  entries : List Nat
  deriving DecidableEq, Repr

/-- Poisoned units (R137): 128-byte lines, 8-byte pad words, register rows. -/
structure Poison where
  lines : List Nat
  padWords : List Nat
  rows : List Nat
  deriving DecidableEq, Repr

/-- What the module sends to the outside; a message, and a completion record in host memory, over the link that R231 names. -/
inductive Out where
  | msix (vec link : Nat)
  | record (pa link : Nat)
  | bar2 (bytes : List Byte) (poisoned : Bool)
  | unsupported
  | flit (port : Nat) (bytes : List Byte)
  | answer (code : Nat) (bytes : List Byte)
  | refusedRequest (code : Nat)
  | stage (code : Nat) (unit : Nat)
  | errorReport (pa : Nat)
  deriving DecidableEq, Repr

/-- The whole module. -/
structure State where
  mem : Memory
  l1 : Kv (Option Byte)
  l2 : Kv (Option Byte)
  unseen : Kv (Option OldByte)
  pad : Memory
  padNotes : List PadNote
  rows : Kv (List W32)
  poison : Poison
  dies : List Die
  mailbox : Mailbox
  fwImage : List Byte
  coreRows : List Nat
  hostSide : HostSide
  msixHeld : List Nat
  hostReads : List HostRead
  ports : List Port
  spdm : List Spdm
  parts : List Part
  ctxs : List Ctx
  tlb : List TlbEntry
  hqs : List HostQueue
  dqs : List DevQueue
  launches : List Launch
  trees : List Tree
  groups : List Group
  units : List SUnit
  issue : List Issue
  pend : List PendOp
  engq : List EngEntry
  copies : List Copy
  atomq : List AtomReq
  hot : List (Nat × Nat)
  creel : Kv (Nat × Option Nat)
  cursors : List Cursor
  moves : List Move
  ranks : List RankJob
  beams : List BeamSlot
  tiles : List Tile
  mmaq : List MmaOp
  jobs : List CollJob
  ringSeq : Kv Nat
  agenda : List Instr
  outs : List Out
  nextId : Nat
  freeCtr : Nat
  deriving DecidableEq, Repr

/-- Why a step stops for good. noIssue: an instruction word was executed while no port has a clause in issue, which no step
of this model does (assumption log 7); safe. -/
inductive Fault where
  | noIssue
  deriving DecidableEq, Repr

/-- Why the model gives no meaning. notModelled: an instruction without a meaning yet; safe. -/
inductive Refusal where
  | notModelled (mnemonic : String)
  deriving DecidableEq, Repr

/-- A die at reset (R18, R245, R247). -/
def Die.reset : Die :=
  { stage := .reset, cycle := 0, celsius := 0, creelCelsius := 0, hot := false, hotNext := none, onePort := false
    faulted := false, mismatches := [], repairs := [] }

/-- A port at reset (R239). -/
def Port.reset : Port :=
  { enable := false, isolate := false, vec := 0, lanes := 0, state := .down, peerId := 0, peerPort := 0, replays := 0
    attempts := 0, replayCycles := [], lastOut := 0, lastIn := 0, unacked := [], resend := [], rx := [], pausedTx := [], pausedRx := [] }

/-- The module right after power-on reset. -/
def State.reset : State :=
  { mem := [], l1 := [], l2 := [], unseen := [], pad := [], padNotes := [], rows := [], poison := { lines := [], padWords := [], rows := [] }
    dies := List.replicate 4 Die.reset
    mailbox := { test := 0, die := 0, unit := 0, repairs := 0, fwaddr := 0, fwlen := 0, fwstatus := 0, mgmtq := 0
                 linkdrop := 0 }
    fwImage := []
    coreRows := List.replicate 256 2048
    hostSide := { links := List.replicate 2 { lstate := 0, gen := 0, width := 0, cxl := 0 }, wbase := 0
                  ranges := List.replicate 8 { hbase := 0, enable := false, len := 0 }, msixTable := [] }
    msixHeld := [], hostReads := [], ports := List.replicate 16 Port.reset
    spdm := List.replicate 3 { versionAsked := false, capsAsked := false, negotiated := false }
    parts := [], ctxs := [], tlb := [], hqs := [], dqs := [], launches := [], trees := [], groups := [], units := []
    issue := [], pend := [], engq := [], copies := [], atomq := [], hot := [], creel := [], cursors := [], moves := []
    ranks := [], beams := [], tiles := [], mmaq := [], jobs := [], ringSeq := [], agenda := [], outs := [], nextId := 1
    freeCtr := 0 }

end Sys2Proof.Machine
end

