-- ==== Sys2Proof/Machine/Blocks.lean ====
section
/-! DEFINITION. Block formats (R32-R37), exact accumulators (R38-R42), the planes of the matrix arrays (R43-R46, R364, R378)
and the two checksums (R51, R237). -/

namespace Sys2Proof.Machine

/-- The little-endian bytes of a number. -/
def bytesOf : Nat → Nat → List Byte
  | 0, _ => []
  | n + 1, x => BitVec.ofNat 8 x :: bytesOf n (x / 256)

/-- The number that little-endian bytes hold. -/
def natOf : List Byte → Nat
  | [] => 0
  | b :: bs => b.toNat + 256 * natOf bs

/-- The number held by n bytes from offset o of a record. -/
def fieldOf (bs : List Byte) (o n : Nat) : Nat := natOf ((bs.drop o).take n)

/-- Replace the bytes of a record from offset o. -/
def putField (bs : List Byte) (o n x : Nat) : List Byte := bs.take o ++ bytesOf n x ++ bs.drop (o + n)

/-- Whether the n bytes from offset o are all zero. -/
def zeroField (bs : List Byte) (o n : Nat) : Bool := ((bs.drop o).take n).all (· == 0)

/-- Cut a list into blocks. -/
def chunksOf {α : Type} (n : Nat) : Nat → List α → List (List α)
  | 0, _ => []
  | fuel + 1, l => if l.isEmpty then [] else l.take n :: chunksOf n fuel (l.drop n)

/-- One byte of a reflected CRC. -/
def crcByte (poly : Nat) : Nat → Nat → Nat
  | 0, c => c
  | k + 1, c => crcByte poly k (if c % 2 = 1 then (c / 2) ^^^ poly else c / 2)

/-- CRC-32C: reflected, initial value and final exclusive or all ones (R51). -/
def crc32c (bs : List Byte) : Nat :=
  (bs.foldl (fun c b => crcByte 0x82F63B78 8 (c ^^^ b.toNat)) 0xFFFFFFFF) ^^^ 0xFFFFFFFF

/-- One byte of an unreflected 64-bit CRC. -/
def crc64Step : Nat → Nat → Nat
  | 0, c => c
  | k + 1, c => crc64Step k (if c.testBit 63 then (c * 2 % 2 ^ 64) ^^^ 0x42F0E1EBA9EA3693 else c * 2)

/-- CRC-64/ECMA-182: initial value and final exclusive or zero (R237). -/
def crc64 (bs : List Byte) : Nat := bs.foldl (fun c b => crc64Step 8 (c ^^^ (b.toNat * 2 ^ 56))) 0

/-- The magnitude of a value as a comparison with 2^e: whether it is below. -/
def Fv.below (x : Fv) (e : Int) : Bool :=
  match x with
  | .fin _ m ex => m == 0 || decide (ilog2 m ex < e)
  | _ => false

/-- floor(log2) of the largest magnitude; none when every value is zero. -/
def maxLog : List Fv → Option Int
  | [] => none
  | .fin _ m e :: xs =>
    if m = 0 then maxLog xs
    else match maxLog xs with
      | none => some (ilog2 m e)
      | some l => some (max l (ilog2 m e))
  | _ :: xs => maxLog xs

/-- Whether a list of values holds a NaN. -/
def anyNan (xs : List Fv) : Bool := xs.any (fun x => match x with | .nan => true | _ => false)

/-- Whether a list of values holds an infinity. -/
def anyInf (xs : List Fv) : Bool := xs.any (fun x => match x with | .inf _ => true | _ => false)

/-- Replace infinities by the largest finite f32 (R33, R37). -/
def clampInf (x : Fv) : Fv :=
  match x with
  | .inf n => .fin n (2 ^ 24 - 1) 104
  | y => y

/-- The largest exponent of an element format (R33). -/
def mxEmax : Ty → Int
  | .e4m3 => 8
  | .e5m2 => 15
  | .e3m2 => 4
  | .e2m3 => 2
  | .e2m1 => 2
  | _ => 0

/-- One element of an MX block: source / 2^k, rounded RNE and clamped (R33). -/
def mxElem (t : Ty) (k : Int) (x : Fv) : Nat :=
  match x with
  | .fin n m e =>
    if t = .mxi8 then
      let u : Int := roundUnits .rne n m (e - k + 6) false 0
      settleInt true true 8 (if n then -u else u)
    else (tyFfmt t).roundFin .rne true n m (e - k) false
  | .inf n => if t = .mxi8 then settleInt true true 8 (if n then -128 else 127) else (tyFfmt t).infBits n true
  | .nan => 0

/-- The MX quantiser (R33): the scale byte and the elements. -/
def quantiseMx (t : Ty) (sat : Bool) (xs : List Fv) : Nat × List Nat :=
  if anyNan xs || (anyInf xs && !sat) then (255, xs.map (fun _ => 0))
  else
    let ys := xs.map clampInf
    match maxLog ys with
    | none => (0, ys.map (fun y => mxElem t 0 y))
    | some l =>
      let s := (max 0 (min 254 (l - mxEmax t + 127))).toNat
      (s, ys.map (mxElem t ((s : Int) - 127)))

/-- The value of an element of an MX block (R34). -/
def mxValue (t : Ty) (scale el : Nat) : Fv :=
  if scale = 255 then .nan
  else if t = .mxi8 then
    let q := intOf true 8 el
    .fin (decide (q < 0)) q.natAbs ((scale : Int) - 127 - 6)
  else match (tyFfmt t).decode (el % 2 ^ tyBits t) with
    | .fin n m e => .fin n m (e + scale - 127)
    | y => y

/-- Magnitude bits of a PLY format (R35). -/
def plyM : Ty → Nat
  | .ply9 => 7
  | .ply6 => 4
  | _ => 2

/-- The micro-exponent bits of a PLY block with exponent e (R37). -/
def plyMu (e : Int) : List Fv → List Nat
  | x :: y :: rest => (if x.below e && y.below e then 1 else 0) :: plyMu e rest
  | _ => []

/-- One element of a PLY block (R37). -/
def plyElem (m : Nat) (e : Int) (mu : Nat) (x : Fv) : Nat :=
  match x with
  | .fin n mag ex => min (roundUnits .rne false mag ex false (e - mu - (m - 1 : Nat))) (2 ^ m - 1) + (if n then 2 ^ m else 0)
  | _ => 0

/-- The PLY quantiser (R37): E, the micro-exponent bits, the elements. -/
def quantisePly (t : Ty) (sat : Bool) (xs : List Fv) : Nat × List Nat × List Nat :=
  if anyNan xs || (anyInf xs && !sat) then (255, List.replicate 8 0, xs.map (fun _ => 0))
  else
    let ys := xs.map clampInf
    let e := match maxLog ys with
      | none => -127
      | some l => max l (-127)
    let mu := plyMu e ys
    ((e + 127).toNat, mu, ys.zipIdx.map (fun p => plyElem (plyM t) e (mu.getD (p.2 / 2) 0) p.1))

/-- The value of an element of a PLY block (R36). -/
def plyValue (t : Ty) (e mu el : Nat) : Fv :=
  if e = 255 then .nan
  else .fin (el.testBit (plyM t)) (el % 2 ^ plyM t) ((e : Int) - 127 - mu - (plyM t - 1 : Nat))

/-- Pack w-bit elements into a little-endian bit stream (R32). -/
def packBits (w : Nat) : List Nat → Nat
  | [] => 0
  | x :: xs => x % 2 ^ w + 2 ^ w * packBits w xs

/-- Element i of a w-bit stream. -/
def streamElem (w x i : Nat) : Nat := (x >>> (w * i)) % 2 ^ w

/-- Add a float to an exact accumulator (R40). -/
def XAcc.addFloat (x : XAcc) (a : Fv) : XAcc :=
  match a with
  | .nan => { x with flags := x.flags ||| 1 }
  | .inf n => { x with flags := x.flags ||| (if n then 4 else 2) }
  | .fin n m e =>
    let t := x.v.toInt + scaledInt n m e (-149)
    { v := BitVec.ofInt 320 t, flags := if t < -(2 ^ 319) ∨ 2 ^ 319 ≤ t then x.flags ||| 8 else x.flags }

/-- Merge an image into an exact accumulator (R40). -/
def XAcc.merge (x a : XAcc) : XAcc :=
  let t := x.v.toInt + a.v.toInt
  let fl := x.flags ||| a.flags
  { v := BitVec.ofInt 320 t, flags := if t < -(2 ^ 319) ∨ 2 ^ 319 ≤ t then fl ||| 8 else fl }

/-- The value that rounding an exact accumulator starts from (R41). -/
def XAcc.value (x : XAcc) : Fv :=
  if x.flags.getLsbD 0 || x.flags.getLsbD 3 || (x.flags.getLsbD 1 && x.flags.getLsbD 2) then .nan
  else if x.flags.getLsbD 1 then .inf false
  else if x.flags.getLsbD 2 then .inf true
  else
    let i := x.v.toInt
    .fin (decide (i < 0)) i.natAbs (-149)

/-- The memory image of an exact accumulator (R39). -/
def XAcc.image (x : XAcc) : List Byte := bytesOf 40 x.v.toNat ++ bytesOf 4 x.flags.toNat ++ bytesOf 4 0

/-- An exact accumulator read from its image (R39). -/
def XAcc.ofImage (bs : List Byte) : XAcc :=
  { v := BitVec.ofNat 320 (fieldOf bs 0 40), flags := BitVec.ofNat 4 (fieldOf bs 40 4) }

/-- Bytes of a packed k-block (R364). -/
def kblockBytes (planes : Nat) : Nat := 4 + 4 * ((planes + 1) / 2)

/-- One plane: bit j of each magnitude. -/
def planeOf (j : Nat) (mags : List Nat) : Nat := packBits 1 (mags.map (fun m => (m >>> j) % 2))

/-- A packed k-block of 16 values (R43, R364). -/
def packKblock (planes : Nat) (xs : List Fv) : List Byte :=
  let l := kblockBytes planes
  if anyNan xs || anyInf xs then bytesOf 2 0 ++ bytesOf 2 0x8000 ++ bytesOf (l - 4) 0
  else
    let sign := packBits 1 (xs.map (fun x => if x.sign then 1 else 0))
    match maxLog xs with
    | none => bytesOf 2 sign ++ bytesOf 2 0x4000 ++ bytesOf (l - 4) 0
    | some emax =>
      let unit := emax - (planes - 1 : Nat)
      let mags := xs.map (fun x => match x with
        | .fin _ m e => min (roundUnits .rne false m e false unit) (2 ^ planes - 1)
        | _ => 0)
      let ps := (List.range planes).flatMap (fun j => bytesOf 2 (planeOf j mags))
      bytesOf 2 sign ++ bytesOf 2 (settleInt false false 10 emax) ++ ps ++ bytesOf (l - 4 - 2 * planes) 0

/-- The 16 values of a packed k-block; none for a non-finite block (R378). -/
def unpackKblock (planes : Nat) (bs : List Byte) : Option (List Fv) :=
  let sign := fieldOf bs 0 2
  let head := fieldOf bs 2 2
  let kind := head >>> 14
  if 2 ≤ kind ∨ (head >>> 10) % 16 ≠ 0 then none
  else
    let emax := intOf true 10 head
    let plane (j : Nat) : Nat := fieldOf bs (4 + 2 * j) 2
    let mag (i : Nat) : Nat := packBits 1 ((List.range planes).map (fun j => if (plane j).testBit i then 1 else 0))
    some ((List.range 16).map (fun i =>
      if kind = 1 then .fin (sign.testBit i) 0 0 else .fin (sign.testBit i) (mag i) (emax - (planes - 1 : Nat))))

/-- b truncated toward zero to 12 significant bits (R45). -/
def highPart (x : Fv) : Fv :=
  match x with
  | .fin n m e => if m = 0 then x else
    let l := Nat.log2 m
    if l < 12 then x else .fin n ((m >>> (l - 11)) <<< (l - 11)) e
  | y => y

/-- The passes of a B element (R45): bh then bl for f32, one pass otherwise. -/
def bPasses (f32 : Bool) (x : Fv) : List Fv :=
  if f32 then
    match x, highPart x with
    | .fin n m e, .fin n' m' e' => [.fin n' m' e', .fin n (m - m') e]
    | _, _ => [x, x]
  else [x]

/-- The exact sum of products of a k-block and one pass of B; NaN where a B element is NaN or infinite (R46). The spec gives a sum of zeros no
sign: this sum starts from +0, so that it is +0 (DESIGN CHOICE, assumption log 26). -/
def dotExact : List Fv → List Fv → Fv
  | a :: as, b :: bs =>
    match b with
    | .fin .. => Fv.add .rne (Fv.mul a b) (dotExact as bs)
    | _ => .nan
  | _, _ => .fin false 0 0

/-- Whether an f32 is subnormal. -/
def subnormal32 (x : W32) : Bool := x.extractLsb' 23 8 == 0 && x.extractLsb' 0 23 != 0

/-- R47 on a result: a subnormal stays, or becomes a zero with the sign of the unrounded result. -/
def flush32 (keepSubnormals sign : Bool) (x : W32) : W32 :=
  if subnormal32 x && !keepSubnormals then BitVec.ofNat 32 (fmtF32.signBit sign) else x

/-- One k-block's update of an accumulator element: the contributions of its passes in order (R46), then R47 on the result (R380). -/
def tileUpdate (keepSubnormals : Bool) (c : W32) (ds : List Fv) : W32 :=
  let r := ds.foldl (fun (acc : W32 × Bool) d =>
    let exact := Fv.add .rne (fmtF32.decode acc.1.toNat) d
    (BitVec.ofNat 32 (fmtF32.encode .rne false exact), exact.sign)) (c, false)
  flush32 keepSubnormals r.2 r.1

end Sys2Proof.Machine
end

