-- ==== Sys2Proof/Machine/Keccak.lean ====
section
/-! DEFINITION. SHAKE256 and SHA3-512 (named by R248 and R249; FIPS 202, taken from outside the spec, assumption log 11). -/

namespace Sys2Proof.Machine

/-- Lane x, y of a Keccak state of 25 lanes. -/
def kLane (a : List W64) (x y : Nat) : W64 := a.getD (x % 5 + 5 * (y % 5)) 0

/-- Rotation offset of each lane, by the walk (x, y) to (y, 2x + 3y). -/
def kOffsets : Nat → Nat → Nat → Nat → List (Nat × Nat)
  | 0, _, _, _ => []
  | n + 1, t, x, y => (x + 5 * y, ((t + 1) * (t + 2) / 2) % 64) :: kOffsets n (t + 1) y ((2 * x + 3 * y) % 5)

/-- Rotation offsets by lane. -/
def kRot (i : Nat) : Nat := (((kOffsets 24 0 1 0).find? (fun e => e.1 == i)).map (·.2)).getD 0

/-- The bits of the round-constant register: x^8 + x^6 + x^5 + x^4 + 1. -/
def kLfsr : Nat → Nat → List Bool
  | 0, _ => []
  | n + 1, r => r.testBit 0 :: kLfsr n (if 128 ≤ r then (r * 2) ^^^ 0x171 else r * 2)

/-- The round constant of a round. -/
def kConst (round : Nat) : W64 :=
  let bits := (kLfsr (7 * 24) 1).drop (7 * round)
  (List.range 7).foldl (fun c j => if bits.getD j false then c ^^^ ((1 : W64) <<< (2 ^ j - 1)) else c) 0

/-- One round. -/
def kRound (a : List W64) (round : Nat) : List W64 :=
  let c := (List.range 5).map (fun x => (List.range 5).foldl (fun t y => t ^^^ kLane a x y) 0)
  let d (x : Nat) : W64 := c.getD ((x + 4) % 5) 0 ^^^ (c.getD ((x + 1) % 5) 0).rotateLeft 1
  let th := (List.range 25).map (fun i => a.getD i 0 ^^^ d (i % 5))
  let src (x y : Nat) : Nat := (x + 3 * y) % 5 + 5 * x
  let pi := (List.range 25).map (fun i => let k := src (i % 5) (i / 5); (th.getD k 0).rotateLeft (kRot k))
  let chi := (List.range 25).map (fun i =>
    let x := i % 5
    let y := i / 5
    kLane pi x y ^^^ (~~~(kLane pi (x + 1) y) &&& kLane pi (x + 2) y))
  match chi with
  | [] => []
  | l :: ls => (l ^^^ kConst round) :: ls

/-- Keccak-f[1600]. -/
def keccakF (a : List W64) : List W64 := (List.range 24).foldl kRound a

/-- Add a block of bytes into the first lanes. -/
def kAbsorb (a : List W64) (block : List Byte) : List W64 :=
  (List.range 25).map (fun i => a.getD i 0 ^^^ BitVec.ofNat 64 (natOf ((block.drop (8 * i)).take 8)))

/-- Pad a message to blocks of rate bytes, behind the domain's bits. -/
def kPad (rate dom : Nat) (m : List Byte) : List Byte :=
  let k := rate - m.length % rate
  let first := BitVec.ofNat 8 dom
  if k = 1 then m ++ [first ||| 0x80] else m ++ [first] ++ List.replicate (k - 2) 0 ++ [0x80]

/-- The bytes a sponge of the given rate gives after a message: the first block of its output. -/
def sponge (rate dom : Nat) (m : List Byte) : List Byte :=
  let p := kPad rate dom m
  let a := (chunksOf rate p.length p).foldl (fun a b => keccakF (kAbsorb a b)) (List.replicate 25 0)
  (a.flatMap (fun l => bytesOf 8 l.toNat)).take rate

/-- The first n bytes of SHAKE256, n at most 136. -/
def shake256 (m : List Byte) (n : Nat) : List Byte := (sponge 136 0x1F m).take n

/-- SHA3-512. -/
def sha3_512 (m : List Byte) : List Byte := (sponge 72 0x06 m).take 64

end Sys2Proof.Machine
end

