-- ==== Sys2Proof/Machine/Ed448.lean ====
section
/-! DEFINITION. The signature schemes R248 and R249 name, Ed448ph and Ed448 of RFC 8032 (taken from outside the spec, assumption log 11): the field,
the curve, encoding and decoding of a point, the check of a signature, and the making of one. -/

namespace Sys2Proof.Machine

/-- The prime of the field: 2^448 - 2^224 - 1. -/
def edP : Nat := 2 ^ 224 * 2 ^ 224 - 2 ^ 224 - 1

/-- The order of the base point. -/
def edL : Nat := 2 ^ 223 * 2 ^ 223 - 13818066809895115352007386748515426880336692474882178609894547503885

/-- The curve's constant, -39081: x^2 + y^2 = 1 + d x^2 y^2. -/
def edD : Nat := edP - 39081

/-- Difference in the field. -/
def edSub (a b : Nat) : Nat := (a + (edP - b % edP)) % edP

/-- A point in projective coordinates: x = X / Z and y = Y / Z. -/
structure EdPoint where
  x : Nat
  y : Nat
  z : Nat
  deriving DecidableEq, Repr

/-- The neutral point. -/
def EdPoint.zero : EdPoint := { x := 0, y := 1, z := 1 }

/-- The base point. -/
def EdPoint.base : EdPoint :=
  { x := 224580040295924300187604334099896036246789641632564134246125461686950415467406032909029192869357953282578032075146446173674602635247710
    y := 298819210078481492676017930443930673437544040154080242095928241372331506189835876003536878655418784733982303233503462500531545062832660
    z := 1 }

/-- The sum of two points; it serves for doubling too. -/
def EdPoint.add (p q : EdPoint) : EdPoint :=
  let a := p.z * q.z % edP
  let b := a * a % edP
  let c := p.x * q.x % edP
  let d := p.y * q.y % edP
  let e := edD * c % edP * d % edP
  let f := edSub b e
  let g := (b + e) % edP
  let h := (p.x + p.y) * (q.x + q.y) % edP
  { x := a * f % edP * edSub (edSub h c) d % edP, y := a * g % edP * edSub d c % edP, z := f * g % edP }

/-- The multiple of a point by the number whose bits are given, highest first. -/
def EdPoint.times (p : EdPoint) (bits : List Bool) : EdPoint :=
  bits.foldl (fun r b => let t := r.add r; if b then t.add p else t) EdPoint.zero

/-- The bits of a number below 2^n, highest first. -/
def bitsDown (n k : Nat) : List Bool := ((List.range n).map (fun i => k.testBit i)).reverse

/-- A power in the field, of an exponent below 2^448. -/
def edPow (a e : Nat) : Nat := (bitsDown 448 e).foldl (fun r b => let t := r * r % edP; if b then t * a % edP else t) 1

/-- Whether two points are equal. -/
def EdPoint.same (p q : EdPoint) : Bool := p.x * q.z % edP == q.x * p.z % edP && p.y * q.z % edP == q.y * p.z % edP

/-- The point that 57 bytes encode: y, and the sign of x in the highest bit. -/
def EdPoint.decode (bs : List Byte) : Option EdPoint :=
  let n := natOf bs
  let y := n % (2 ^ 228 * 2 ^ 227)
  let odd := n.testBit 455
  let u := edSub (y * y % edP) 1
  let v := edSub (edD * (y * y % edP) % edP) 1
  let u3v := u * u % edP * u % edP * v % edP
  let u5v3 := u3v * u % edP * u % edP * v % edP * v % edP
  let x := u3v * edPow u5v3 ((edP - 3) / 4) % edP
  if bs.length ≠ 57 ∨ edP ≤ y ∨ v * (x * x % edP) % edP ≠ u then none
  else if x = 0 then (if odd then none else some { x := 0, y := y, z := 1 })
  else some { x := if x.testBit 0 = odd then x else edP - x, y := y, z := 1 }

/-- The prefix of Ed448ph (1) or Ed448 (0) with the empty context, R248 and R249 giving none. -/
def edDomain (ph : Byte) : List Byte := [0x53, 0x69, 0x67, 0x45, 0x64, 0x34, 0x34, 0x38, ph, 0]

/-- The 57 bytes that encode a point. -/
def EdPoint.encode (p : EdPoint) : List Byte :=
  let w := edPow p.z (edP - 2)
  let x := p.x * w % edP
  bytesOf 57 (p.y * w % edP + (if x.testBit 0 then 2 ^ 228 * 2 ^ 227 else 0))

/-- The Ed448 signature of a message under the key whose secret bytes are given. -/
def ed448Sign (secret message : List Byte) : List Byte :=
  let h := shake256 secret 114
  let n := natOf (h.take 56)
  let a := n - n % 4 - (if n.testBit 447 then 2 ^ 224 * 2 ^ 223 else 0) + 2 ^ 224 * 2 ^ 223
  let times (k : Nat) : List Byte := (EdPoint.base.times (bitsDown 448 k)).encode
  let key := times a
  let r := natOf (shake256 (edDomain 0 ++ h.drop 57 ++ message) 114) % edL
  let rp := times r
  let k := natOf (shake256 (edDomain 0 ++ rp ++ key ++ message) 114) % edL
  rp ++ bytesOf 57 ((r + k * a) % edL)

/-- Whether 114 bytes are the Ed448ph signature of a message under a key of 57 bytes (R248). -/
def ed448phOk (key message sig : List Byte) : Bool :=
  let r := sig.take 57
  let n := natOf (sig.drop 57)
  match EdPoint.decode key, EdPoint.decode r with
  | some a, some rp =>
    let k := natOf (shake256 (edDomain 1 ++ r ++ key ++ shake256 message 64) 114) % edL
    let four (p : EdPoint) : EdPoint := (p.add p).add (p.add p)
    sig.length == 114 && decide (n < edL)
      && (four (EdPoint.base.times (bitsDown 446 n))).same ((four rp).add (four (a.times (bitsDown 446 k))))
  | _, _ => false

end Sys2Proof.Machine
end

