-- ==== Sys2Proof/Machine/Lookup.lean ====
section
/-! DEFINITION. The module's topology (R7-R14, R128, R208), the lookups in the state's tables and their updates, and the causes
of traps (R226). -/

namespace Sys2Proof.Machine

/-- Apply f to the entries of a table that satisfy p. -/
def updWhere {α : Type} (p : α → Bool) (f : α → α) (l : List α) : List α := l.map (fun x => if p x then f x else x)

/-- Replace element i of a list; nothing where it has none. -/
def setAt {α : Type} (l : List α) (i : Nat) (x : α) : List α := l.set i x

/-- The last element that the fuel of a list allows: structural minimum of a list of numbers. -/
def minOf : List Nat → Option Nat
  | [] => none
  | x :: xs => match minOf xs with
    | none => some x
    | some y => some (min x y)

/-- The least number of 0 .. n-1 that satisfies p. -/
def firstFree (n : Nat) (p : Nat → Bool) : Option Nat := (List.range n).find? p

/-- Insert into a list sorted by a key, after equal keys. -/
def insertBy {α : Type} (key : α → Nat) (x : α) : List α → List α
  | [] => [x]
  | y :: ys => if key x < key y then x :: y :: ys else y :: insertBy key x ys

/-- Sort by a key, keeping the order of equal keys. -/
def sortBy {α : Type} (key : α → Nat) (l : List α) : List α := l.foldl (fun acc x => insertBy key x acc) []

/-- The causes of R226. -/
def causeIllclause : W32 := 0x01
def causeIllins : W32 := 0x02
def causeBadtarget : W32 := 0x03
def causeStackover : W32 := 0x04
def causeRegionwrite : W32 := 0x05
def causeMembermismatch : W32 := 0x06
def causeBarstate : W32 := 0x07
def causeGregs : W32 := 0x08
def causeDiverge : W32 := 0x09
def causeBadspawn : W32 := 0x0A
def causePadrange : W32 := 0x0B
def causeMisalign : W32 := 0x0C
def causePagefault : W32 := 0x0D
def causeProtfault : W32 := 0x0E
def causePoison : W32 := 0x0F
def causeCreelro : W32 := 0x10
def causeTrap : W32 := 0x11
def causeBrk : W32 := 0x12
def causeWatchdog : W32 := 0x20
def causeRestorecap : W32 := 0x21
def causeSavecap : W32 := 0x22

/-- Whether a cause's value is a virtual address (R84): MISALIGN and POISON only of global accesses, which the caller says. -/
def causeHasAddress (c : W32) : Bool :=
  c == causeIllclause || c == causeIllins || c == causeBadtarget || c == causePagefault || c == causeProtfault || c == causeCreelro

/-- The cluster, pair and die of a core, and a cluster's die (R9). -/
def clusterOf (core : Nat) : Nat := core / 8
def pairOf (core : Nat) : Nat := core / 2
def dieOfCore (core : Nat) : Nat := core / 64
def dieOfCluster (c : Nat) : Nat := c / 8

/-- The cores of a partition, ascending (R208). -/
def Part.cores (p : Part) : List Nat := (List.range 256).filter (fun c => p.pairs.getLsbD (c / 16))

/-- The clusters of a partition, ascending: logical cluster i is the i-th (R208). -/
def Part.clusters (p : Part) : List Nat := (List.range 32).filter (fun c => p.pairs.getLsbD (c / 2))

/-- Whether a partition holds a pair of a die. -/
def Part.onDie (p : Part) (d : Nat) : Bool := p.clusters.any (fun c => dieOfCluster c == d)

/-- The home cluster of a physical address (R128). -/
def homeCluster (pa : Nat) : Nat :=
  let b (lo n : Nat) : Nat := (pa >>> lo) % 2 ^ n
  if pa < 0x200_0000_0000 then
    let die := if pa < 0x100_0000_0000 then pa / 0x40_0000_0000 else (pa - 0x100_0000_0000) / 0x10_0000_0000
    (die % 4) * 8 + (b 7 3 ^^^ b 10 3 ^^^ b 13 3 ^^^ b 16 3 ^^^ b 19 3)
  else b 7 5 ^^^ b 12 5 ^^^ b 17 5 ^^^ b 22 5

namespace State

/-- A die of the module. -/
def die (s : State) (d : Nat) : Die := s.dies.getD d Die.reset

/-- Whether the engines of a cluster have stopped with their die (R250). -/
def halted (s : State) (cluster : Nat) : Bool := (s.die (dieOfCluster cluster)).faulted

/-- Change a die. -/
def updDie (s : State) (d : Nat) (f : Die → Die) : State := { s with dies := setAt s.dies d (f (s.die d)) }

/-- A fresh identifier. -/
def fresh (s : State) : Nat × State := (s.nextId, { s with nextId := s.nextId + 1 })

/-- Draw from the free values. -/
def draw (s : State) : Nat × State := (s.freeCtr, { s with freeCtr := s.freeCtr + 1 })

/-- Send to the outside. -/
def out (s : State) (o : Out) : State := { s with outs := s.outs ++ [o] }

/-- Whether a host link is UP (R231). -/
def linkUp (s : State) : Bool := s.hostSide.links.any (fun l => l.lstate == 2)

/-- The link that carries messages and completion records: link 0 when it is UP, else link 1 (R231). -/
def linkInUse (s : State) : Nat := (s.hostSide.links.findIdx? (fun l => l.lstate == 2)).getD 0

/-- Raise an MSI-X vector: sent when a link is UP, held otherwise (R231). -/
def raise (s : State) (vec : Nat) : State :=
  if s.linkUp then s.out (.msix vec s.linkInUse) else { s with msixHeld := s.msixHeld ++ [vec] }

def unit? (s : State) (id : Nat) : Option SUnit := s.units.find? (·.id == id)
def launch? (s : State) (id : Nat) : Option Launch := s.launches.find? (·.id == id)
def group? (s : State) (id : Nat) : Option Group := s.groups.find? (·.id == id)
def ctx? (s : State) (n : Nat) : Option Ctx := s.ctxs.find? (·.num == n)
def part? (s : State) (n : Nat) : Option Part := s.parts.find? (·.num == n)
def hq? (s : State) (c q : Nat) : Option HostQueue := s.hqs.find? (fun x => x.ctx == c && x.idx == q)
def dq? (s : State) (c q : Nat) : Option DevQueue := s.dqs.find? (fun x => x.ctx == c && x.idx == q)
def tree? (s : State) (c : Nat) (t : W32) : Option Tree := s.trees.find? (fun x => x.ctx == c && x.id == t)

def updUnit (s : State) (id : Nat) (f : SUnit → SUnit) : State := { s with units := updWhere (·.id == id) f s.units }
def updLaunch (s : State) (id : Nat) (f : Launch → Launch) : State := { s with launches := updWhere (·.id == id) f s.launches }
def updGroup (s : State) (id : Nat) (f : Group → Group) : State := { s with groups := updWhere (·.id == id) f s.groups }
def updCtx (s : State) (n : Nat) (f : Ctx → Ctx) : State := { s with ctxs := updWhere (·.num == n) f s.ctxs }
def updPart (s : State) (n : Nat) (f : Part → Part) : State := { s with parts := updWhere (·.num == n) f s.parts }
def updHq (s : State) (c q : Nat) (f : HostQueue → HostQueue) : State :=
  { s with hqs := updWhere (fun x => x.ctx == c && x.idx == q) f s.hqs }
def updTree (s : State) (c : Nat) (t : W32) (f : Tree → Tree) : State :=
  { s with trees := updWhere (fun x => x.ctx == c && x.id == t) f s.trees }
def updPend (s : State) (id : Nat) (f : PendOp → PendOp) : State := { s with pend := updWhere (·.id == id) f s.pend }

/-- Store a unit's new contents. -/
def putUnit (s : State) (u : SUnit) : State := s.updUnit u.id (fun _ => u)

/-- The launch of a unit. -/
def launchOf (s : State) (u : SUnit) : Option Launch := s.launch? u.launch

/-- The group of a unit. -/
def groupOf (s : State) (u : SUnit) : Option Group := u.group.bind s.group?

/-- The context of a unit. -/
def ctxOf (s : State) (u : SUnit) : Nat := match s.launchOf u with
  | some l => l.ctx
  | none => 0

/-- The partition of a context. -/
def partOf (s : State) (c : Nat) : Option Part := (s.ctx? c).bind (fun x => x.part.bind s.part?)

/-- The slots of a core in use: a slot is core * 64 + slot (R90). -/
def usedSlots (s : State) : List Nat :=
  s.units.filterMap (·.slot) ++ s.groups.flatMap (fun g => if g.state == .resident then g.slots else [])

/-- A free strand slot of a core. -/
def freeSlot (s : State) (core : Nat) : Option Nat :=
  let used := s.usedSlots
  (firstFree 64 (fun k => !used.contains (core * 64 + k))).map (fun k => core * 64 + k)

/-- The number of free strand slots of a core. -/
def freeSlots (s : State) (core : Nat) : Nat :=
  let used := s.usedSlots
  ((List.range 64).filter (fun k => !used.contains (core * 64 + k))).length

end State

/-- The core of a group on which a window lies: the second half of a pair group's windows is the follower's (R92). -/
def Group.coreOf (g : Group) (w : Nat) : Nat :=
  let n := g.size / 64
  if g.pair && decide ((n + 1) / 2 ≤ w) then g.core + 1 else g.core

/-- The pad bytes a group reserves (R90). -/
def roundPad (n : Nat) : Nat := (n + 255) / 256 * 256

/-- The first item of a group. -/
def Group.base (g : Group) : Nat := g.gid * g.size

/-- The window of a strand within its group. -/
def SUnit.window (u : SUnit) (g : Group) : Nat := (u.lo - g.base) / 64

end Sys2Proof.Machine
end

