-- ==== Sys2Proof/Machine/Mem.lean ====
section
/-! DEFINITION. Physical memory (R10, R11, R125-R133, R137, R141): the windows and their populated parts, what a core, an
engine or the firmware reads and writes, publication, poison, the pad and the register rows. -/

namespace Sys2Proof.Machine

/-- Where a physical address lies (R10). -/
inductive PaKind where
  | first (die : Nat)
  | creel (die : Nat)
  | second
  | third (range : Nat)
  | host
  | hole
  deriving DecidableEq, Repr

/-- Bytes of the populated parts (R10): 144 GB, 48 GB, 2048 GB. -/
def firstBytes : Nat := 144_000_000_000
def creelBytes : Nat := 48_000_000_000
def secondBytes : Nat := 2_048_000_000_000

/-- The window of a physical address, or a hole (R10, R11, R235). -/
def paKind (ranges : List Range3) (pa : Nat) : PaKind :=
  if pa < 0x100_0000_0000 then
    (if pa % 0x40_0000_0000 < firstBytes then .first (pa / 0x40_0000_0000) else .hole)
  else if pa < 0x140_0000_0000 then
    (if (pa - 0x100_0000_0000) % 0x10_0000_0000 < creelBytes then .creel ((pa - 0x100_0000_0000) / 0x10_0000_0000) else .hole)
  else if pa < 0x200_0000_0000 then .hole
  else if pa < 0x400_0000_0000 then (if pa - 0x200_0000_0000 < secondBytes then .second else .hole)
  else if pa < 0x1_0000_0000_0000 then .hole
  else if pa < 0x8_0000_0000_0000 then
    let i := (pa - 0x1_0000_0000_0000) / 0x1000_0000_0000
    match ranges[i]? with
    | some r => if r.enable && decide ((pa - 0x1_0000_0000_0000) % 0x1000_0000_0000 < r.len * 2 ^ 30) then .third i else .hole
    | none => .hole
  else if pa < 0x10_0000_0000_0000 then .host
  else .hole

/-- Whether the n bytes from pa lie in one populated window. -/
def populated (ranges : List Range3) (pa n : Nat) : Bool :=
  let k := paKind ranges pa
  k != .hole && paKind ranges (pa + n - 1) == k

/-- Whether the n bytes from pa lie in the populated first or second tier. -/
def inTiers12 (ranges : List Range3) (pa n : Nat) : Bool :=
  match paKind ranges pa with
  | .first d => paKind ranges (pa + n - 1) == .first d
  | .second => paKind ranges (pa + n - 1) == .second
  | _ => false

/-- Who makes an access (R126, R130, R164): the items of a core, an engine of a cluster, the lock-step pair of a die. -/
inductive Who where
  | core (n : Nat)
  | copy (cluster engine : Nat)
  | hank (cluster : Nat)
  | beam (cluster : Nat)
  | coll (die : Nat)
  | pair (die : Nat)
  deriving DecidableEq, Repr

/-- The cluster of an agent that stands in one. -/
def Who.cluster? : Who → Option Nat
  | .core n => some (clusterOf n)
  | .copy c _ => some c
  | .hank c => some c
  | .beam c => some c
  | _ => none

/-- The SOURCE field of a page request (R164). -/
def Who.source : Who → Nat
  | .core _ => 0
  | .copy .. => 1
  | .hank _ => 2
  | .beam _ => 3
  | .coll _ => 4
  | .pair _ => 5

/-- The REQUESTER field of a page request, and the source index of an atomic (R130, R164). -/
def Who.index : Who → Nat
  | .core n => n
  | .copy c e => 256 + 2 * c + e
  | .hank c => 324 + c
  | .beam c => 356 + c
  | .coll d => 388 + d
  | .pair d => 320 + d

/-- Size of the physical address space (R10). -/
def paSpace : Nat := 2 ^ 52

/-- What a byte of memory that nothing has written reads as (assumption log 1). -/
def memDefault : Byte := 0

/-- The canonical form of memory: strictly rising addresses, no listed byte that an unlisted address would read as too. -/
def Memory.wf (m : Memory) : Bool := Kv.wf memDefault m

/-- The Creel chunk of a physical address: die * 1431 + chunk (R132). -/
def creelChunk (pa : Nat) : Nat :=
  ((pa - 0x100_0000_0000) / 0x10_0000_0000) * 1431 + ((pa - 0x100_0000_0000) % 0x10_0000_0000) / 0x200_0000

/-- Creel chunk states (R132). -/
def creelFree : Nat := 0
def creelLoading : Nat := 1
def creelSealed : Nat := 2

namespace State

/-- The window of a physical address. -/
def kind (s : State) (pa : Nat) : PaKind := paKind s.hostSide.ranges pa

/-- State and owner of a Creel chunk (R132). -/
def chunk (s : State) (c : Nat) : Nat × Option Nat := Kv.get (creelFree, none) s.creel c

/-- The place of a physical address in the home image: an address of third-tier range i names the host physical address that HBASE
maps it onto, kept above the physical space (R235); any other address is its own place. -/
def place (s : State) (pa : Nat) : Nat :=
  match s.kind pa with
  | .third i => paSpace + ((s.hostSide.ranges[i]?).map (fun r => r.hbase.toNat)).getD 0 + (pa - 0x1_0000_0000_0000) % 0x1000_0000_0000
  | _ => pa

/-- One byte of the home image. -/
def homeByte (s : State) (pa : Nat) : Byte := Kv.get memDefault s.mem (s.place pa)

/-- A byte of the home image as a core sees it: under its own dirty bytes and those its cluster has published (R125). -/
def overHome (s : State) (core pa : Nat) (b : Byte) : Byte :=
  (Kv.get none s.l1 (core * paSpace + pa)).getD ((Kv.get none s.l2 (clusterOf core * paSpace + pa)).getD b)

/-- One byte as an agent sees it: a core reads its own dirty bytes, then its cluster's published bytes, then the home image; an engine
reads the home image (R125, R146, R152, assumption log 5). A FREE Creel chunk reads zero (R133). -/
def byteAt (s : State) (w : Who) (pa : Nat) : Byte :=
  if (match s.kind pa with | .creel _ => (s.chunk (creelChunk pa)).1 == creelFree | _ => false) then 0
  else match w with
    | .core n => s.overHome n pa (s.homeByte pa)
    | _ => s.homeByte pa

/-- Whether an address lies beyond the host links: host memory and third-tier memory (R11, R235). -/
def overLink (s : State) (pa : Nat) : Bool := match s.kind pa with | .host => true | .third _ => true | _ => false

/-- Whether an address lies beyond the host links, and no link is UP (R236). -/
def linkLost (s : State) (pa : Nat) : Bool :=
  !s.linkUp && s.overLink pa

/-- Whether the host turns an access of its memory away (R11). -/
def hostRefuses (s : State) (pa : Nat) : Bool := s.kind pa == .host && Config.hostRefuses s.freeCtr (pa / 128)

/-- Whether a write at an address reaches its memory (R11, R236). -/
def lands (s : State) (pa : Nat) : Bool := !s.linkLost pa && !s.hostRefuses pa

/-- n bytes as an agent sees them. -/
def bytesAt (s : State) (w : Who) (pa n : Nat) : List Byte := (List.range n).map (fun i => s.byteAt w (pa + i))

/-- Whether n bytes touch a poisoned line (R137). -/
def linePoisoned (s : State) (pa n : Nat) : Bool :=
  !s.poison.lines.isEmpty && (List.range n).any (fun i => s.poison.lines.contains ((pa + i) / 128))

/-- Whether a read of n bytes meets poison: a poisoned line, or memory beyond links that are down (R137, R236). -/
def poisonedAt (s : State) (pa n : Nat) : Bool := s.linkLost pa || s.linePoisoned pa n

/-- Whether a read that does not wait for the host's own answer returns poisoned data without its line being poisoned: from beyond links
that are down, or from host memory where the host refuses it (R11, R236). -/
def refusedAt (s : State) (pa : Nat) : Bool := s.linkLost pa || s.hostRefuses pa

/-- Whether a read that does not wait for the host's own answer returns poisoned data: so do reads of host memory that the host
refuses (R11, R137, R236). -/
def unreadable (s : State) (pa n : Nat) : Bool := s.hostRefuses pa || s.poisonedAt pa n

/-- Write a byte of the home image. -/
def setHome (s : State) (pa : Nat) (b : Byte) : State := { s with mem := Kv.set memDefault s.mem (s.place pa) b }

/-- Write a run of bytes at their places in the home image: one run of places, except across two third-tier ranges. -/
def storeRun (s : State) (pa : Nat) (bs : List Byte) : Memory :=
  if s.place (pa + (bs.length - 1)) = s.place pa + (bs.length - 1) then Kv.setRun memDefault s.mem (s.place pa) bs
  else bs.zipIdx.foldl (fun m e => Kv.set memDefault m (s.place (pa + e.2)) e.1) s.mem

/-- Write a run of bytes of the home image. -/
def storeHome (s : State) (pa : Nat) (bs : List Byte) : State := { s with mem := s.storeRun pa bs }

/-- Count n events of R236. -/
def countDrops (s : State) (n : Nat) : State :=
  { s with mailbox := { s.mailbox with linkdrop := s.mailbox.linkdrop + BitVec.ofNat 32 n } }

/-- Count an event of R236. -/
def countDrop (s : State) : State := s.countDrops 1

/-- An access beyond links that are down is counted (R236). -/
def countLost (s : State) (pa : Nat) : State := if s.linkLost pa then s.countDrop else s

/-- Lines wholly covered by the bytes written lose their poison (R137). -/
def clearLines (s : State) (written : List Nat) : State :=
  if s.poison.lines.isEmpty then s
  else { s with poison := { s.poison with lines := s.poison.lines.filter (fun l =>
    !(List.range 128).all (fun i => written.contains (l * 128 + i))) } }

/-- Write bytes at the home slice, removing what the writer's own cluster had published there and not yet sent home (R125,
R141). Beyond a link that is down the write is dropped and counted (R236); one that the host rejects is dropped (R11). -/
def writeHome (s : State) (w : Who) (pa : Nat) (bs : List Byte) : State :=
  if s.linkLost pa then s.countDrop
  else if s.hostRefuses pa then s
  else
    let s1 := s.storeHome pa bs
    let s2 := match w.cluster? with
      | some c => { s1 with l2 := Kv.keep (fun k => !(decide (c * paSpace + pa ≤ k) && decide (k < c * paSpace + pa + bs.length))) s1.l2 }
      | none => s1
    s2.clearLines ((List.range bs.length).map (pa + ·))

/-- A plain store: dirty bytes in the core's L1 (R125), whatever lies beyond. -/
def writeL1 (s : State) (core pa : Nat) (bs : List Byte) : State :=
  { s with l1 := Kv.setRun none s.l1 (core * paSpace + pa) (bs.map some) }

/-- Put dirty bytes into the home image at their places; those that do not reach it are dropped (R11, R236). -/
def pushHome (s : State) (mem : Memory) (es : List (Nat × Option Byte)) : Memory :=
  es.foldl (fun m e => match e.2 with
    | some b => if s.lands (e.1 % paSpace) then Kv.set memDefault m (s.place (e.1 % paSpace)) b else m
    | none => m) mem

/-- Lines of dirty bytes that are dropped for want of a link (R236). -/
def dropped (s : State) (es : List (Nat × Option Byte)) : Nat :=
  if s.linkUp then 0 else (((es.map (fun e => e.1 % paSpace)).filter s.linkLost).map (· / 128)).eraseDups.length

/-- Take the dirty bytes that a test names out of the L1s and L2s and send them home, the L2's first (R125, R141). -/
def sendHome (s : State) (inL1 inL2 : Nat → Bool) : State :=
  let mine := s.l1.filter (fun e => inL1 e.1)
  let shared := s.l2.filter (fun e => inL2 e.1)
  { s.countDrops (s.dropped (shared ++ mine)) with
    l1 := Kv.keep (fun k => !inL1 k) s.l1, l2 := Kv.keep (fun k => !inL2 k) s.l2, mem := s.pushHome (s.pushHome s.mem shared) mine }

/-- Whether a key of a table of dirty bytes is of owner n. -/
def ofOwner (n k : Nat) : Bool := decide (n * paSpace ≤ k) && decide (k < (n + 1) * paSpace)

/-- From here on every item of a core sees every store that its L1 holds. -/
def seeStores (s : State) (core : Nat) : State := { s with unseen := Kv.keep (fun k => !ofOwner core k) s.unseen }

/-- Publish a core's stores (R141): at core scope its own items see them, at cluster scope they reach the cluster's slice, at a
wider scope the home slices together with what the cluster held. -/
def publish (s : State) (core scope : Nat) : State :=
  if scope = 0 then s.seeStores core
  else
    let c := clusterOf core
    if scope = 1 then
      { s with l1 := Kv.keep (fun k => !ofOwner core k) s.l1
               l2 := (s.l1.filter (fun e => ofOwner core e.1)).foldl (fun m e => Kv.set none m (c * paSpace + e.1 % paSpace) e.2) s.l2 }
    else s.sendHome (ofOwner core) (ofOwner c)

/-- Send a line's dirty bytes of a core, and what its cluster holds of it, to the home slice (R125, R129). -/
def evictLine (s : State) (core line : Nat) : State :=
  let inLine (n k : Nat) : Bool := decide (n * paSpace + line * 128 ≤ k) && decide (k < n * paSpace + line * 128 + 128)
  s.sendHome (inLine core) (inLine (clusterOf core))

/-- Whether a key of a table of dirty bytes lies in a range of physical addresses. -/
def ofRange (pa n k : Nat) : Bool := decide (pa ≤ k % paSpace) && decide (k % paSpace < pa + n)

/-- Drop every cached byte of a range of physical addresses after writing it home (R134). -/
def flushRange (s : State) (pa n : Nat) : State :=
  { s.sendHome (ofRange pa n) (ofRange pa n) with
    hot := s.hot.filter (fun h => !(decide (pa ≤ h.2 * 128) && decide (h.2 * 128 < pa + n))) }

/-- Lose every byte of a range of physical addresses, cached or at home: they read as bytes that nothing has written do (R132,
assumption log 1). -/
def loseRange (s : State) (pa n : Nat) : State :=
  { s with l1 := Kv.keep (fun k => !ofRange pa n k) s.l1, l2 := Kv.keep (fun k => !ofRange pa n k) s.l2
           mem := Kv.keep (fun k => !(decide (pa ≤ k) && decide (k < pa + n))) s.mem
           hot := s.hot.filter (fun h => !(decide (pa ≤ h.2 * 128) && decide (h.2 * 128 < pa + n))) }

/-- n bytes of the home image as a number. -/
def homeNat (s : State) (pa n : Nat) : Nat := natOf (Kv.getRun memDefault s.mem (s.place pa) n)

/-- The pad of a core: byte off is at core * 2^21 + off. -/
def padKey (core off : Nat) : Nat := core * 0x20_0000 + off

def padBytes (s : State) (core off n : Nat) : List Byte := Kv.getRun (0 : Byte) s.pad (padKey core off) n

/-- Write pad bytes; a covered poisoned word is clean again (R137). -/
def writePad (s : State) (core off : Nat) (bs : List Byte) : State :=
  let k := padKey core off
  let s1 := { s with pad := Kv.setRun (0 : Byte) s.pad k bs }
  if s1.poison.padWords.isEmpty then s1
  else { s1 with poison := { s1.poison with padWords := s1.poison.padWords.filter (fun w =>
    !(decide (k ≤ w * 8) && decide (w * 8 + 8 ≤ k + bs.length))) } }

/-- Whether pad bytes touch a poisoned word (R137). -/
def padPoisoned (s : State) (core off n : Nat) : Bool :=
  !s.poison.padWords.isEmpty && (List.range n).any (fun i => s.poison.padWords.contains ((padKey core off + i) / 8))

/-- A register row, key core * 2048 + row: 64 words (R13). -/
def row (s : State) (k : Nat) : List W32 := Kv.get (List.replicate 64 0) s.rows k

/-- Write a register row. -/
def setRow (s : State) (k : Nat) (ws : List W32) : State := { s with rows := Kv.set (List.replicate 64 0) s.rows k ws }

/-- A row written whole is clean again (R137). -/
def clearRow (s : State) (k : Nat) : State := { s with poison := { s.poison with rows := s.poison.rows.filter (· != k) } }

end State

/-- Where a pad offset of a group reaches (R123): the core and the offset within its pad; none is PADRANGE. self is the core
the access is made from. -/
def Group.padPlace (g : Group) (self off n : Nat) : Option (Nat × Nat) :=
  let rp := roundPad g.padBytes
  let baseOn (c : Nat) : Nat := if c = g.core then g.padBase else g.padBase2
  if off + n ≤ rp ∧ 0 < rp then some (self, baseOn self + off)
  else if g.pair ∧ 0x20_0000 ≤ off ∧ off + n ≤ 0x20_0000 + rp then
    let other := if self = g.core then g.core + 1 else g.core
    some (other, baseOn other + (off - 0x20_0000))
  else none

end Sys2Proof.Machine
end

