-- ==== Sys2Proof/Machine/Page.lean ====
section
/-! DEFINITION. Translation (R156-R166): the walk, the page states an access meets, the TLBs, page requests and the accesses of
the firmware (R64). -/

namespace Sys2Proof.Machine

/-- What an access needs (R158). -/
inductive Need where
  | read | write | exec | both
  deriving DecidableEq, Repr

/-- A leaf found for an address: the page's base, its size, its entry. -/
structure Leaf where
  va : Nat
  bytes : Nat
  pte : W64
  deriving DecidableEq, Repr

/-- What an access meets (R160). -/
inductive Tr where
  | ok (pa : Nat) (leaf : Leaf)
  | fault (cause : W32)
  | absent
  | mig
  deriving DecidableEq, Repr

def pteBit (p : W64) (i : Nat) : Bool := p.getLsbD i
def pteFrame (p : W64) : Nat := ((p.extractLsb' 12 40).toNat) * 4096
def pteWeave (p : W64) : Nat := (p.extractLsb' 52 6).toNat

/-- Elements of a block of a weave format, 0 for a reserved format (R167). -/
def weaveBs (w : Nat) : Nat :=
  let f := w % 16
  if f = 0 then 0 else if f ≤ 4 then 1 else if f ≤ 10 then 32 else if f ≤ 13 then 16 else 0

/-- Whether a WEAVE value is plain or legal (R167). -/
def weaveLegal (w : Nat) : Bool :=
  let f := w % 16
  let g := w / 16
  if f = 0 then g == 0 else weaveBs w != 0 && g != 3 && !(g != 0 && weaveBs w == 1)

/-- Bytes of a weave frame (R168). -/
def weaveFrame (w : Nat) : Nat :=
  match w % 16 with
  | 1 | 2 => 0x8000
  | 3 | 4 => 0x4000
  | 5 | 6 | 10 => 0x5000
  | 7 | 8 => 0x4000
  | 9 => 0x3000
  | 11 => 0x5000
  | 12 => 0x3000
  | 13 => 0x2000
  | _ => 0x10000

/-- Whether the window that TIER and CREEL name holds the frame (R159). -/
def tierHolds (ranges : List Range3) (pte : W64) (pa n : Nat) : Bool :=
  let last := paKind ranges (pa + n - 1)
  match paKind ranges pa, (pte.extractLsb' 7 2).toNat, pteBit pte 6 with
  | .first d, 0, false => last == .first d
  | .creel d, 0, true => last == .creel d
  | .second, 1, false => last == .second
  | .third _, 2, false => (match last with | .third _ => true | _ => false)
  | .host, 3, false => last == .host
  | _, _, _ => false

/-- A leaf entry that R159 accepts. -/
def leafLegal (ranges : List Range3) (level bytes : Nat) (p : W64) : Bool :=
  let w := pteWeave p
  (p.extractLsb' 58 6) == 0 && weaveLegal w && (w == 0 || (level == 3 && !pteBit p 4))
    && (w != 0 || pteFrame p % bytes == 0) && tierHolds ranges p (pteFrame p) (if w = 0 then bytes else weaveFrame w)

/-- A table entry that R157 and R159 accept: the next table's address. -/
def tableLegal (ranges : List Range3) (level : Nat) (p : W64) : Bool :=
  let pa := pteFrame p
  (p.extractLsb' 52 12) == 0 && (p.extractLsb' 1 10) == 0
    && (if level = 0 then pa % 0x10000 == 0 && inTiers12 ranges pa 0x10000 else if level = 1 then inTiers12 ranges pa 256
        else inTiers12 ranges pa 4096)

/-- One level of the walk (R156): read the entry, then a leaf or the next level. fuel counts the levels left. -/
def walkFrom (s : State) (va : Nat) : Nat → Nat → Nat → Option Leaf
  | 0, _, _ => none
  | fuel + 1, level, table =>
    let ix := if level = 0 then (va / 2 ^ 43) % 8192 else if level = 1 then (va / 2 ^ 30) % 8192
      else if level = 2 then (va / 2 ^ 25) % 32 else (va / 2 ^ 16) % 512
    let bytes := if level = 1 then 2 ^ 30 else if level = 2 then 2 ^ 25 else 2 ^ 16
    let e : W64 := BitVec.ofNat 64 (s.homeNat (table + 8 * ix) 8)
    if !pteBit e 0 then none
    else if pteBit e 11 then
      (if level != 0 && leafLegal s.hostSide.ranges level bytes e then some { va := va / bytes * bytes, bytes := bytes, pte := e } else none)
    else if level = 3 then none
    else if tableLegal s.hostSide.ranges level e then walkFrom s va fuel (level + 1) (pteFrame e) else none

/-- The walk from a context's root; addresses above 2^56 have no entry (R156). -/
def walk (s : State) (c : Ctx) (va : Nat) : Option Leaf :=
  if 2 ^ 56 ≤ va then none
  else match c.paging with
    | none => none
    | some p => walkFrom s va 4 0 p.root

/-- Whether an entry may be cached (R162). -/
def cacheable (p : W64) : Bool := pteBit p 0 && pteBit p 1 && !pteBit p 9 && !pteBit p 10

/-- Whether a cached translation serves an address of a context. -/
def TlbEntry.serves (t : TlbEntry) (ctx : Nat) (part : Option Nat) (va : Nat) : Bool :=
  t.leaf && decide (t.va ≤ va) && decide (va < t.va + t.bytes)
    && (match t.tagCtx with | some c => c == ctx | none => t.tagPart == part)

/-- The places that hold an agent's translations, nearest first (R163). -/
def Who.places (w : Who) : List TlbPlace :=
  match w with
  | .core n => [.core n, .cluster (clusterOf n), .die (dieOfCore n)]
  | .copy c _ | .hank c | .beam c => [.cluster c, .die (dieOfCluster c)]
  | .coll d | .pair d => [.die d]

/-- Entries a place holds (R163). -/
def TlbPlace.capacity : TlbPlace → Nat
  | .core _ => 64
  | .cluster _ => 2048
  | .die _ => 8192

/-- Add a translation to a place, dropping the oldest beyond its capacity. -/
def tlbAdd (t : List TlbEntry) (e : TlbEntry) : List TlbEntry :=
  let others := t.filter (fun x => !(x.place == e.place && x.va == e.va && x.tagCtx == e.tagCtx && x.tagPart == e.tagPart))
  let mine := others.filter (fun x => x.place == e.place)
  let kept := if mine.length < e.place.capacity then others
    else match mine.head? with
      | some old => others.erase old
      | none => others
  kept ++ [e]

/-- Whether a leaf grants what an access needs (R158). -/
def grants (need : Need) (p : W64) : Bool := match need with
  | .read => pteBit p 2
  | .write => pteBit p 3
  | .exec => pteBit p 4
  | .both => pteBit p 2 && pteBit p 3

/-- The physical address of a virtual one on a leaf; of a weave page, its frame. -/
def Leaf.pa (l : Leaf) (va : Nat) : Nat := pteFrame l.pte + (if pteWeave l.pte = 0 then va - l.va else 0)

/-- Settle an access on a leaf (R160). A weave page refuses atomics (R170). -/
def settleLeaf (need : Need) (va : Nat) (l : Leaf) : Tr :=
  let p := l.pte
  if !grants need p then .fault causeProtfault
  else if pteBit p 10 then .fault causePoison
  else if !pteBit p 1 then .absent
  else if pteBit p 9 then .mig
  else .ok (l.pa va) l

namespace State

/-- Record a leaf in an agent's TLBs (R163); a die holds 1 GiB leaves. -/
def cacheLeaf (s : State) (w : Who) (c : Ctx) (l : Leaf) : State :=
  if !cacheable l.pte then s
  else
    let shared := pteBit l.pte 5
    let mk (pl : TlbPlace) : TlbEntry :=
      { place := pl, tagCtx := if shared then none else some c.num, tagPart := if shared then c.part else none, va := l.va
        bytes := l.bytes, leaf := true, entry := l.pte }
    let places := w.places.filter (fun pl => match pl with | .die _ => l.bytes == 2 ^ 30 | _ => true)
    { s with tlb := places.foldl (fun t pl => tlbAdd t (mk pl)) s.tlb }

/-- Record in a die's TLB the level-2 table of a region (R163): the level-1 entry that names it, when the walk accepts it (R159). -/
def cacheTable (s : State) (w : Who) (c : Ctx) (va : Nat) : State :=
  match w.places.find? (fun pl => match pl with | .die _ => true | _ => false), c.paging with
  | some pl, some p =>
    let e0 : W64 := BitVec.ofNat 64 (s.homeNat (p.root + 8 * ((va / 2 ^ 43) % 8192)) 8)
    let e1 : W64 := BitVec.ofNat 64 (s.homeNat (pteFrame e0 + 8 * ((va / 2 ^ 30) % 8192)) 8)
    let next (level : Nat) (e : W64) : Bool := pteBit e 0 && !pteBit e 11 && tableLegal s.hostSide.ranges level e
    if next 0 e0 && next 1 e1 then
      { s with tlb := tlbAdd s.tlb { place := pl, tagCtx := some c.num, tagPart := none, va := va / 2 ^ 30 * 2 ^ 30
                                     bytes := 2 ^ 30, leaf := false, entry := e1 } }
    else s
  | _, _ => s

/-- The walk of an agent: from the level-2 table its die holds for the region, else from the root (R163). -/
def walkFor (s : State) (w : Who) (c : Ctx) (va : Nat) : Option Leaf :=
  match s.tlb.find? (fun t => w.places.contains t.place && !t.leaf && t.tagCtx == some c.num && decide (t.va ≤ va)
      && decide (va < t.va + t.bytes)) with
  | some t => if 2 ^ 56 ≤ va then none else walkFrom s va 2 2 (pteFrame t.entry)
  | none => walk s c va

/-- The leaf that covers an address for an agent, before its permissions are settled (R156-R163): a cached translation serves, else the
table is walked and what it gives is cached. -/
def leafOf (s : State) (w : Who) (ctx va : Nat) : Option Leaf × State :=
  match s.ctx? ctx with
  | none => (none, s)
  | some c =>
    match s.tlb.find? (fun t => w.places.contains t.place && t.serves ctx c.part va) with
    | some t => (some { va := t.va, bytes := t.bytes, pte := t.entry }, s)
    | none =>
      match s.walkFor w c va with
      | none => (none, s)
      | some l => (some l, if l.bytes < 2 ^ 30 then (s.cacheLeaf w c l).cacheTable w c va else s.cacheLeaf w c l)

/-- The leaf that covers an address for an agent. -/
def leafFor (s : State) (w : Who) (ctx va : Nat) : Option Leaf := (s.leafOf w ctx va).1

/-- Whether an address lies on a page that is ABSENT (R160). -/
def isAbsent (s : State) (w : Who) (ctx va : Nat) : Bool :=
  match s.leafFor w ctx va with
  | none => false
  | some l => !pteBit l.pte 10 && !pteBit l.pte 1

/-- Translate one address for an agent (R160). -/
def translate (s : State) (w : Who) (ctx : Nat) (need : Need) (va : Nat) : Tr × State :=
  match s.leafOf w ctx va with
  | (none, s1) => (.fault causePagefault, s1)
  | (some l, s1) => (settleLeaf need va l, s1)

/-- The KIND bits of a page request (R164). -/
def needBits : Need → Nat
  | .read => 1
  | .write => 2
  | .exec => 4
  | .both => 3

/-- Write a page request (R164): none while the ring is full and no request for the page is outstanding (R210). A record for a ring in
host memory is dropped where the host or the links do not take it (R11, R236). -/
def pageRequest (s : State) (w : Who) (ctx : Nat) (need : Need) (va : Nat) : Option State :=
  match s.ctx? ctx with
  | none => some s
  | some c =>
    let page := va / 65536
    if c.requests.contains page then some s
    else match c.paging with
      | none => some s
      | some p =>
        let seq := c.seq + 1
        if 2 ^ p.logSlots < (seq - c.consumed).toNat then none
        else
          let rec_ := bytesOf 8 (page * 65536) ++ bytesOf 1 (needBits need) ++ bytesOf 1 w.source ++ bytesOf 2 w.index
            ++ bytesOf 4 ctx ++ bytesOf 8 seq.toNat ++ bytesOf 8 0
          let at_ := p.ring + 32 * ((seq.toNat - 1) % 2 ^ p.logSlots)
          let s1 := s.writeHome (.pair 0) at_ rec_
          some ((s1.updCtx ctx (fun c => { c with requests := c.requests ++ [page], seq := seq })).raise p.reqVec)

/-- The outcome of an access of the lock-step pair (R64): performed at a physical address, refused with a cause, or held. -/
inductive FwTr where
  | ok (pa : Nat)
  | fail (cause : W32)
  | hold
  deriving DecidableEq, Repr

/-- Whether the Creel refuses an access of the lock-step pair (R64): a signal decrement, or a write to a chunk that the context does not
load. -/
def fwCreelro (s : State) (ctx : Nat) (need : Need) (dec : Bool) (pa : Nat) : Bool :=
  match s.kind pa with
  | .creel _ => dec || (need == .write && s.chunk (creelChunk pa) != (creelLoading, some ctx))
  | _ => false

/-- Whether the page of an access of the lock-step pair, or a line of it, is poisoned (R64): a frame holds its page's data only while the
page is PRESENT (R158). -/
def fwPoison (s : State) (p : W64) (pa n : Nat) : Bool := pteBit p 10 || (pteBit p 1 && s.linePoisoned pa n)

/-- Translate an access of the lock-step pair of a die (R64, R66, R79): n bytes that lie in one page, settled by the first row of R64
that matches; dec tells that a signal is to be decremented. A read that is performed and comes back poisoned from the host, or from beyond
links that are down, meets POISON (R11, R236). Context 0 has no table: its addresses are physical, and one outside the populated first and
second tiers is taken as one in a hole (R209, assumption log 39). -/
def fwTranslate (s : State) (die ctx : Nat) (need : Need) (dec : Bool) (va n : Nat) : FwTr × State :=
  if ctx = 0 then
    (if !inTiers12 s.hostSide.ranges va n then .fail causePagefault else if s.linePoisoned va n then .fail causePoison else .ok va, s)
  else
    match s.leafOf (.pair die) ctx va with
    | (none, s1) => (.fail causePagefault, s1)
    | (some l, s1) =>
      let p := l.pte
      let pa := l.pa va
      if !grants need p || pteWeave p != 0 then (.fail causeProtfault, s1)
      else if s1.fwPoison p pa n then (.fail causePoison, s1)
      else if s1.fwCreelro ctx need dec pa then (.fail causeCreelro, s1)
      else if !pteBit p 1 then (.hold, (s1.pageRequest (.pair die) ctx need va).getD s1)
      else if pteBit p 9 then (.hold, s1)
      else if need != .write && s1.refusedAt pa then (.fail causePoison, s1.countLost pa)
      else (.ok pa, s1)

/-- Forget cached translations that satisfy p (R163). -/
def dropTlb (s : State) (p : TlbEntry → Bool) : State := { s with tlb := s.tlb.filter (fun t => !p t) }

end State

end Sys2Proof.Machine
end

