-- ==== Sys2Proof/Machine/Units.lean ====
section
/-! DEFINITION. Spans and strands: their items and predicates (R260, R97), their registers and shapes (R268, R97, R91), the
reads of other items (R328), pips and duties (R122, R256), dealing (R77), materialisation (R96), splits (R98-R100). -/

namespace Sys2Proof.Machine

/-- The register of a span or strand. -/
def SUnit.vreg (u : SUnit) (r : Nat) : VReg := Kv.get (.u 0) u.v r
def SUnit.setV (u : SUnit) (r : Nat) (x : VReg) : SUnit := { u with v := Kv.set (.u 0) u.v r x }
def SUnit.kreg (u : SUnit) (r : Nat) : W64 := Kv.get 0 u.k r
def SUnit.setK (u : SUnit) (r : Nat) (x : W64) : SUnit := { u with k := Kv.set 0 u.k r x }
def SUnit.xreg (u : SUnit) (r : Nat) : XAcc := Kv.get XAcc.zero u.x r
def SUnit.setX (u : SUnit) (r : Nat) (x : XAcc) : SUnit := { u with x := Kv.set XAcc.zero u.x r x }

/-- A predicate; p7 reads true (R259). -/
def SUnit.preg (u : SUnit) (r : Nat) : PReg := if r = 7 then .u true else Kv.get (.u false) u.p r

/-- A write to p7 is discarded (R259). -/
def SUnit.setP (u : SUnit) (r : Nat) (x : PReg) : SUnit := if r = 7 then u else { u with p := Kv.set (.u false) u.p r x }

/-- An A value of stride 0 is tagged U (R97). -/
def VReg.affine (base stride : W32) : VReg := if stride = 0 then .u base else .a base stride

/-- Whether a predicate holds for an item, lane being its place in the window. -/
def PReg.holds (p : PReg) (item lane : Nat) : Bool :=
  match p with
  | .u b => b
  | .lt t => decide (item < t)
  | .ge t => decide (t ≤ item)
  | .g m => m.getLsbD lane

/-- The mask over a window from lo of the lanes that satisfy f. -/
def laneMask (f : Nat → Bool) : BitVec 64 :=
  BitVec.ofNat 64 ((List.range 64).foldl (fun acc j => if f j then acc + 2 ^ j else acc) 0)

/-- The lanes of a mask, ascending. -/
def lanesOf (m : BitVec 64) : List Nat := (List.range 64).filter (fun j => m.getLsbD j)

/-- The lowest lane of a mask. -/
def lowLane (m : BitVec 64) : Option Nat := (List.range 64).find? (fun j => m.getLsbD j)

/-- Whether the unit is a strand. -/
def SUnit.isStrand (u : SUnit) : Bool := u.kind == .strand || u.kind == .deferred

/-- The items of a span or strand, ascending. -/
def SUnit.items (u : SUnit) : List Nat :=
  if u.isStrand then (lanesOf u.mask).map (u.lo + ·) else (List.range u.cnt).map (u.lo + ·)

/-- Whether a span or strand holds an item. -/
def SUnit.holdsItem (u : SUnit) (i : Nat) : Bool :=
  decide (u.lo ≤ i) && (if u.isStrand then decide (i < u.lo + 64) && u.mask.getLsbD (i - u.lo) else decide (i < u.lo + u.cnt))

/-- The items on which an instruction acts (R260): whether its predicate is U true, the lanes of a strand, the range of a span. -/
structure Guard where
  isTrue : Bool
  mask : BitVec 64
  lo : Nat
  hi : Nat
  deriving DecidableEq, Repr

/-- A predicate inverted. -/
def PReg.flip : PReg → PReg
  | .u b => .u (!b)
  | .lt t => .ge t
  | .ge t => .lt t
  | .g m => .g (~~~m)

/-- The predicate of PRED and PNEG (R260). -/
def SUnit.predOf (u : SUnit) (pred : BitVec 3) (pneg : Bool) : PReg :=
  if pneg then (u.preg pred.toNat).flip else u.preg pred.toNat

/-- The guard of a predicate over a span or strand. -/
def SUnit.guardOf (u : SUnit) (p : PReg) : Guard :=
  let hi := u.lo + u.cnt
  let range : Nat × Nat := match p with
    | .u true => (u.lo, hi)
    | .u false => (u.lo, u.lo)
    | .lt t => (u.lo, max u.lo (min t hi))
    | .ge t => (max u.lo (min t hi), hi)
    | .g _ => (u.lo, u.lo)
  { isTrue := p == .u true
    mask := if u.isStrand then u.mask &&& laneMask (fun j => p.holds (u.lo + j) j) else 0
    lo := range.1, hi := range.2 }

/-- The guard of a result written for every item of the unit. -/
def SUnit.whole (u : SUnit) : Guard := u.guardOf (.u true)

/-- The guard of an instruction's PRED and PNEG. -/
def SUnit.guard (u : SUnit) (pred : BitVec 3) (pneg : Bool) : Guard := u.guardOf (u.predOf pred pneg)

/-- The active items of an instruction, ascending. -/
def SUnit.active (u : SUnit) (g : Guard) : List Nat :=
  if u.isStrand then (lanesOf g.mask).map (u.lo + ·) else (List.range (g.hi - g.lo)).map (g.lo + ·)

/-- The number of active items. -/
def SUnit.activeCount (u : SUnit) (g : Guard) : Nat := if u.isStrand then (lanesOf g.mask).length else g.hi - g.lo

/-- Whether some item is active. -/
def SUnit.anyActive (u : SUnit) (g : Guard) : Bool := if u.isStrand then g.mask != 0 else decide (g.lo < g.hi)

/-- Whether an item is active. -/
def SUnit.acts (u : SUnit) (g : Guard) (item : Nat) : Bool :=
  decide (u.lo ≤ item) && (if u.isStrand then g.mask.getLsbD (item - u.lo) else decide (g.lo ≤ item) && decide (item < g.hi))

/-- The lowest active item. -/
def SUnit.lowest (u : SUnit) (g : Guard) : Nat :=
  if u.isStrand then u.lo + (lowLane g.mask).getD 0 else g.lo

/-- The row of a register in a strand's window. -/
def Group.rowOf (g : Group) (w r : Nat) : Option Nat := Kv.get none g.rowMap (w * 128 + r)

/-- The value of a v register for an item (R97). -/
def State.vAt (s : State) (u : SUnit) (r item : Nat) : W32 :=
  match u.vreg r with
  | .u x => x
  | .a b st => b + st * BitVec.ofNat 32 item
  | .g =>
    match s.groupOf u with
    | none => 0
    | some g => match g.rowOf (u.window g) r with
      | some k => (s.row k).getD (item - u.lo) 0
      | none => 0

/-- The value of a wide register, named by its field 2k, for an item (R268). -/
def State.wAt (s : State) (u : SUnit) (r item : Nat) : W64 := s.vAt u (r + 1) item ++ s.vAt u r item

/-- The shape of a wide register: U when both halves are (R268). -/
def SUnit.wIsU (u : SUnit) (r : Nat) : Bool :=
  match u.vreg r, u.vreg (r + 1) with
  | .u _, .u _ => true
  | _, _ => false

def SUnit.vIsU (u : SUnit) (r : Nat) : Bool := match u.vreg r with | .u _ => true | _ => false
def SUnit.vIsG (u : SUnit) (r : Nat) : Bool := u.vreg r == .g

/-- A read of an item's register by another item of its window (R328): the value and the validity bit; reader is the reading
strand, whose own active items are read as they stand. -/
def State.crossRead (s : State) (reader : SUnit) (read : SUnit → Nat → W64) (lane : Int) : W64 × Bool :=
  if lane < 0 ∨ 64 ≤ lane then (0, false)
  else
    let item := reader.lo + lane.toNat
    if reader.holdsItem item then (read reader item, true)
    else
      match s.units.find? (fun x => x.group == reader.group && x.group.isSome && x.holdsItem item) with
      | some x => (read x item, true)
      | none => (0, false)

/-- The lane that LSEL selects for a lane (R262). -/
def lselLane (lsel lane : Nat) : Nat :=
  let b := lane / 4 * 4
  let i := lane % 4
  match lsel with
  | 1 => b + (i ^^^ 1)
  | 2 => b + (i ^^^ 2)
  | 3 => b
  | 4 => b + (i + 1) % 4
  | 5 => b + (i + 3) % 4
  | 6 => b + 3
  | _ => lane

/-- Source B of an item after LSEL (R262, R328): a register that is U in the reading strand is read as it stands. -/
def State.lselRead (s : State) (u : SUnit) (isU : Bool) (read : SUnit → Nat → W64) (lsel item : Nat) : W64 :=
  if lsel = 0 || isU then read u item
  else (s.crossRead u read (lselLane lsel (item - u.lo))).1

/-- Rows of a window that are mapped. -/
def Group.mapped (g : Group) (w : Nat) : List Nat :=
  g.rowMap.filterMap (fun e => if e.1 / 128 = w then e.2 else none)

/-- Map rows for registers of a strand that turn G (R91): none names the lowest register without a row. Each row takes the
strand's old values at its own items. -/
def State.ensureRows (s : State) (u : SUnit) : List Nat → Except W32 (State × SUnit)
  | [] => .ok (s, u)
  | r :: rs =>
    match s.groupOf u with
    | none => .error (BitVec.ofNat 32 r)
    | some g =>
      if u.vreg r = .g then s.ensureRows u rs
      else
        let w := u.window g
        let step (s : State) (k : Nat) : State × SUnit :=
          let old := s.row k
          let ws := (List.range 64).map (fun j => if u.mask.getLsbD j then s.vAt u r (u.lo + j) else old.getD j 0)
          (s.setRow k ws, u.setV r .g)
        match g.rowOf w r with
        | some k =>
          let (s1, u1) := step s k
          (s1.putUnit u1).ensureRows u1 rs
        | none =>
          let used := g.rowMap.filterMap (·.2)
          if g.gregs ≤ (g.mapped w).length then .error (BitVec.ofNat 32 r)
          else match g.rows.find? (fun k => k / 2048 == u.core && !used.contains k) with
            | none => .error (BitVec.ofNat 32 r)
            | some k =>
              let s0 := s.updGroup g.id (fun g => { g with rowMap := Kv.set none g.rowMap (w * 128 + r) (some k) })
              let (s1, u1) := step s0 k
              (s1.putUnit u1).ensureRows u1 rs

/-- Write lanes of a mapped row. -/
def State.writeLanes (s : State) (u : SUnit) (r : Nat) (mask : BitVec 64) (vals : List W32) : State :=
  match s.groupOf u with
  | none => s
  | some g => match g.rowOf (u.window g) r with
    | none => s
    | some k =>
      let old := s.row k
      let s1 := s.setRow k ((List.range 64).map (fun j => if mask.getLsbD j then vals.getD j 0 else old.getD j 0))
      if mask = BitVec.allOnes 64 then s1.clearRow k else s1

/-- The pips pending in a unit (R122). -/
def SUnit.pipCount (u : SUnit) (k : Nat) : Nat := (u.duties.filter (·.pip == k)).length
def SUnit.pips (u : SUnit) : BitVec 12 :=
  BitVec.ofNat 12 ((List.range 12).foldl (fun acc k => if u.pipCount k = 0 then acc else acc + 2 ^ k) 0)

/-- Whether an outstanding operation holds a duty back (R256). -/
def PendOp.holds (o : PendOp) (uid : Nat) (d : Duty) : Bool :=
  o.targets.contains uid && o.clause == d.clause && (if d.isA then o.setA else o.setB)

/-- Remove the duties that are met (R256). -/
def State.settleDuties (s : State) : State :=
  { s with units := s.units.map (fun u =>
      if u.duties.isEmpty then u
      else { u with duties := u.duties.filter (fun d => !(d.issued && !s.pend.any (fun o => o.holds u.id d))) }) }

/-- The batches of a unit without the operations that have completed; leading empty batches retire (R119). -/
def SUnit.trimBatches (u : SUnit) (live : Nat → Bool) : SUnit :=
  { u with closed := (u.closed.map (fun b => (b.1, b.2.filter live))).dropWhile (·.2.isEmpty), openB := u.openB.filter live }

/-- Remove an outstanding operation that is complete, and what waited for it. -/
def State.dropPend (s : State) (id : Nat) : State :=
  let s1 := { s with pend := s.pend.filter (·.id != id) }
  State.settleDuties { s1 with units := s1.units.map (fun u : SUnit => u.trimBatches (fun x => x != id)) }

/-- In every outstanding operation, a unit's place is taken by others. -/
def State.retarget (s : State) (old : Nat) (new : List Nat) : State :=
  { s with pend := s.pend.map (fun o =>
      if o.targets.contains old then { o with targets := (o.targets.filter (· != old)) ++ new } else o) }

/-- Remove a unit from the machine and from the port that issues it. -/
def State.removeUnit (s : State) (id : Nat) : State :=
  { s with units := s.units.filter (·.id != id), issue := s.issue.filter (·.unit != id)
           pend := s.pend.map (fun o => { o with targets := o.targets.filter (· != id) }) }

/-- The slot of its clause at which a unit stands: the next slot of a clause in issue, else where it resumes. -/
def State.standsAt (s : State) (u : SUnit) : Option Nat :=
  match s.issue.find? (·.unit == u.id) with
  | some i => some i.slot
  | none => u.pcSlot

/-- A piece of a span with a fresh identifier. -/
def State.addPiece (s : State) (u : SUnit) (f : SUnit → SUnit) : State :=
  let (id, s1) := s.fresh
  let p := f { u with id := id, pcSlot := s.standsAt u, slot := none }
  let s2 := { s1 with units := s1.units ++ [p] }
  { s2 with pend := s2.pend.map (fun o => if o.targets.contains u.id then { o with targets := o.targets ++ [id] } else o) }

/-- The undealt spans of a launch. -/
def State.undealt (s : State) (l : Nat) : List SUnit := s.units.filter (fun u => u.launch == l && u.kind == .undealt)

/-- Whether an item of a launch exited before dealing. -/
def Launch.hasExited (l : Launch) (i : Nat) : Bool := l.exited.any (fun r => decide (r.1 ≤ i) && decide (i < r.2))

/-- A group as dealing creates it (R77, R95). -/
def newGroup (l : Launch) (id gid : Nat) : Group :=
  { id := id, launch := l.id, gid := gid, state := .dealt, core := 0, pair := l.flags.getLsbD 1, size := l.size
    gregs := l.gregs, padBase := 0, padBase2 := 0, padBytes := l.pad, pieces := 0, rows := [], rowMap := [], slots := []
    exited := (List.range l.size).foldl (fun acc k => if l.hasExited (gid * l.size + k) then acc + 2 ^ k else acc) 0
    bars := List.replicate l.bars { state := .uninit, expect := 0, arrived := 0, bytes := 0, phase := 0, mask := none
                                    cont := none, brk := 0 }
    conts := [], padImage := [], rowImage := [], padPoison := [], rowPoison := [], tileImage := [], mmaSaved := [] }

/-- Cut the part of an undealt span that lies in [a, b) off as a piece of a group; what lies outside stays undealt (R77). -/
def State.cutInto (s : State) (g : Group) (a b : Nat) (u : SUnit) : State :=
  let lo := max u.lo a
  let hi := min (u.lo + u.cnt) b
  if hi ≤ lo then s
  else
    let s1 := s.addPiece u (fun p => { p with kind := .span, group := some g.id, lo := lo, cnt := hi - lo })
    let s2 := s1.updGroup g.id (fun g => { g with pieces := g.pieces + 1 })
    if lo = u.lo ∧ hi = u.lo + u.cnt then s2.removeUnit u.id
    else if lo = u.lo then s2.updUnit u.id (fun u => { u with lo := hi, cnt := u.lo + u.cnt - hi })
    else s2.updUnit u.id (fun u => { u with cnt := lo - u.lo })

/-- Deal one group of a launch: every undealt span that overlaps it is cut (R77). -/
def State.dealGroup (s : State) (l : Launch) (gid : Nat) : State :=
  let (id, s1) := s.fresh
  let g := newGroup l id gid
  let s2 := { s1 with groups := s1.groups ++ [g] }
  (sortBy (·.lo) (s2.undealt l.id)).foldl (fun s u => s.cutInto g (gid * l.size) ((gid + 1) * l.size) u) s2

/-- After the last undealt span is dealt or has exited, the launch drains (R81). -/
def State.checkDrained (s : State) (lid : Nat) : State :=
  if (s.undealt lid).isEmpty then
    s.updLaunch lid (fun l => if l.state == .running && l.rootPlaced then { l with state := .draining, dealtAll := true } else l)
  else s

/-- Deal a span: each group it overlaps, in ascending index (R77). The pieces may stand on other cores and an item's program
order runs on through dealing (R139), so the span's stores are published first, which R141 allows at any time. -/
def State.deal (s0 : State) (u : SUnit) : State :=
  let s := s0.publish u.core 3
  match s.launchOf u with
  | none => s
  | some l =>
    let size := max l.size 1
    let g0 := u.lo / size
    let g1 := (u.lo + u.cnt + size - 1) / size
    ((List.range (g1 - g0)).foldl (fun s k => s.dealGroup l (g0 + k)) s).checkDrained l.id

/-- The strand of one window of a span (R96). -/
def strandOf (u : SUnit) (g : Group) (id w : Nat) (slot : Option Nat) (at_ : Option Nat) : SUnit :=
  let base := g.base + 64 * w
  { u with id := id, kind := .strand, core := g.coreOf w, slot := slot, lo := base, cnt := 64
           mask := laneMask (fun j => decide (u.lo ≤ base + j) && decide (base + j < u.lo + u.cnt))
           k := [], x := [], rstack := [], inl := [], wait := .none, pcSlot := at_ }

/-- The windows a span overlaps. -/
def SUnit.windows (u : SUnit) (g : Group) : List Nat :=
  (List.range (g.size / 64)).filter (fun w => decide (g.base + 64 * w < u.lo + u.cnt) && decide (u.lo < g.base + 64 * w + 64))

/-- The strands of a span on a core for which its own slot does not serve (R90, R96). -/
def SUnit.slotsBeyond (u : SUnit) (g : Group) (core : Nat) : Nat :=
  ((u.windows g).filter (fun w => g.coreOf w == core)).length - (if u.slot.map (· / 64) = some core then 1 else 0)

/-- A slot for a piece of a group, or for a strand into which the span uid materialises (R90): one of those the group reserved that no unit uses,
beyond what its other spans on reserved slots need to materialise, else a free slot of the core. -/
def State.slotFor (s : State) (g : Group) (core uid : Nat) : Option Nat :=
  let busy := s.units.filterMap (·.slot)
  let idle := g.slots.filter (fun k => k / 64 == core && !busy.contains k)
  let spans := s.units.filter (fun x => x.group == some g.id && x.kind == .span && x.id != uid
    && (match x.slot with | some k => g.slots.contains k | none => false))
  if ((spans.map (fun x => x.slotsBeyond g core)).foldl (· + ·) 0) < idle.length then idle.head? else s.freeSlot core

/-- Give each window of a span its strand, the first on its core the span's own slot; none when a slot is lacking (R90, R96). -/
def State.strandsFor (s : State) (u : SUnit) (g : Group) (at_ own : Option Nat) : List Nat → Option (State × List Nat)
  | [] => some (s, [])
  | w :: ws =>
    let mine := own.filter (fun k => k / 64 == g.coreOf w)
    match mine <|> s.slotFor g (g.coreOf w) u.id with
    | none => none
    | some k =>
      let (id, s1) := s.fresh
      let s2 := { s1 with units := s1.units ++ [strandOf u g id w (some k) at_] }
      match s2.strandsFor u g at_ (if mine.isSome then none else own) ws with
      | none => none
      | some (s3, ids) => some (s3, id :: ids)

/-- Materialise a span of a group (R96); none while slots are lacking. An item that moves to the other core of a pair finds its own stores
there (R139): they are published first, which R141 allows at any time. -/
def State.materialise (s : State) (u : SUnit) : Option State :=
  match s.groupOf u with
  | none => none
  | some g =>
    let at_ := s.standsAt u
    let away := (u.windows g).any (fun w => g.coreOf w != u.core)
    let s0 := if away then s.publish u.core 1 else s
    match s0.strandsFor u g at_ u.slot (u.windows g) with
    | none => none
    | some (s1, ids) => some ((s1.retarget u.id ids).removeUnit u.id)

/-- Where the first result with one value for each item, or a pad or barrier, leads a span (R77, R96): dealt when undealt,
materialised when in a group. The word is executed again by the pieces or strands. -/
def State.needG (s : State) (u : SUnit) : State :=
  if u.kind == .undealt then s.deal u
  else match s.materialise u with
    | some s1 => s1
    | none =>
      let at_ := s.standsAt u
      { s.updUnit u.id (fun u => { u with wait := .slots, pcSlot := at_ }) with issue := s.issue.filter (·.unit != u.id) }

/-- The siblings of a split: the units whose split stack has the entry on top (R101). -/
def State.siblings (s : State) (split : Nat) : List SUnit :=
  s.units.filter (fun u => u.sstack.head? == some split)

/-- Place the new sides of a split: each takes a free slot of the core, or is deferred (R98, R100). -/
def State.addSides (s : State) : List SUnit → State
  | [] => s
  | v :: vs =>
    let (id, s1) := s.fresh
    let slot := s1.freeSlot v.core
    let v' := { v with id := id, slot := slot, kind := if slot.isSome then .strand else .deferred, wait := .none }
    let s2 := { s1 with units := s1.units ++ [v'] }
    s2.addSides vs

/-- Split a strand (R98, R340): keep stays in the original slot, the sides are new strands; every one of them gets the split's
entry. The new strands start with zero accumulators. DESIGN CHOICE (assumption log 20): so does a deferred side, for which R100 makes no split and
names no x registers. -/
def State.split (s : State) (u keep : SUnit) (sides : List SUnit) : State :=
  let (sp, s1) := s.fresh
  let push (x : SUnit) : SUnit := { x with sstack := sp :: x.sstack }
  let before := s1.units.map (·.id)
  let s2 := (s1.putUnit (push keep)).addSides (sides.map (fun x => { push x with x := [] }))
  let new := (s2.units.map (·.id)).filter (fun i => !before.contains i)
  s2.retarget u.id (u.id :: new)

end Sys2Proof.Machine
end

