-- ==== Sys2Proof/Machine/Ops.lean ====
section
/-! DEFINITION. What is common to every instruction word: the end of a word and of a clause (R104, R255, R256), taking a trap
and returning from one (R224-R226), a span's fault (R81), the close of a region and its check (R215, R216), the write of a
result with its shape (R97), long-latency operations (R105, R256). -/

namespace Sys2Proof.Machine

/-- How the word of a clause ended. done: its effect is made and the next slot follows; jump: the clause ends and the unit
stands where the effect put it; trap: nothing was done, the word traps; needG: the span is dealt or materialised and the word
is executed again; again: the unit leaves its port for a wait that R104 makes a matter of readiness, and executes the word again after it;
stay: the unit waits on its port, which it holds until its whole clause has issued (R104), and executes the word again. -/
inductive Res where
  | done (s : State)
  | jump (s : State)
  | trap (s : State) (cause : W32) (tval : W64) (global : Bool := false)
  | needG (s : State)
  | again (s : State)
  | stay (s : State)
  deriving Repr

/-- The address of the word in a slot (R253). -/
def Issue.wordAddr (i : Issue) : W64 := i.hdrAddr + 8 * BitVec.ofNat 64 (i.slot + 1)

/-- The header that follows the clause (R255). -/
def Issue.nextClause (i : Issue) : W64 := i.hdrAddr + 8 * BitVec.ofNat 64 (i.hdr.count + 1)

/-- The end of its clause in a unit that leaves it: its duties are owed only by what is outstanding; %fmode takes the value
written (R256, R347). -/
def SUnit.closeClause (u : SUnit) : SUnit :=
  { u with duties := u.duties.map (fun d => if d.clause = u.clause then { d with issued := true } else d)
           fmode := u.fmodeNext, pcSlot := none }

/-- Whether a launch aborts (R81). -/
def State.aborting (s : State) (lid : Nat) : Bool := match s.launch? lid with
  | some l => l.state == .aborting || l.state == .complete
  | none => false

/-- Whether a unit stands where an aborting launch stops it (R81): outside a clause, at a wait, or not placed. -/
def State.stopped (s : State) (u : SUnit) : Bool :=
  !s.issue.any (fun i => i.unit == u.id)
    && (u.pcSlot.isNone || u.wait != .none || (match s.groupOf u with | some g => g.state != .resident | none => false))

/-- The units of an aborting launch that stand at a clause boundary go (R81). -/
def State.stopUnits (s : State) (lid : Nat) : State :=
  if s.aborting lid then (s.units.filter (fun x => x.launch == lid && s.stopped x)).foldl (fun s x => s.removeUnit x.id) s else s

/-- The same of every launch. -/
def State.stopAborting (s : State) : State := s.launches.foldl (fun s l => s.stopUnits l.id) s

/-- The launch of a unit begins to abort (R81): the faulting unit goes, the launch's other units at their next clause boundary. The first fault of
the launch is reported, also one of an event write before (R79, R84). -/
def State.faultUnit (s : State) (u : SUnit) (cause : W32) (addr : W64) : State :=
  let s1 := s.updLaunch u.launch (fun l =>
    if l.state == .aborting || l.state == .complete then l
    else { l with state := .aborting, fault := l.evFault <|> some (cause, addr) })
  (s1.removeUnit u.id).stopUnits u.launch

/-- The virtual address a cause reports in a completion record, or 0 (R84). global tells an access of global memory. -/
def faultAddress (cause : W32) (global : Bool) (tval : W64) : W64 :=
  let c := cause &&& 0xFF
  if causeHasAddress c || ((c == causeMisalign || c == causePoison) && global) then tval else 0

/-- The trap routine of a unit's context; 0 is none (R210). -/
def State.trapRoutine (s : State) (u : SUnit) : W64 := match s.ctx? (s.ctxOf u) with
  | some c => c.trap
  | none => 0

/-- Taking a trap (R224, R225): %tcause, %tpc and %tval are set; with a trap routine, room on the stack and %tcause zero before,
the strand calls the routine at %nest + 1 and its return goes to the clause after the trapping one; otherwise the span faults.
A span calls only after it materialises, so a span with a routine keeps the trap, is dealt or materialised at the boundary, and each strand
takes it there. -/
def State.takeTrap (s : State) (u : SUnit) (cause : W32) (tpc tval : W64) (next : W64) (global : Bool) : State :=
  let routine := s.trapRoutine u
  let u1 := { u with tcause := cause, tpc := tpc, tval := tval }
  if routine != 0 && u.tcause == 0 && decide (u.nest < u.nestmax) && decide (u.rstack.length < 32) && !s.aborting u.launch then
    if !u.isStrand then
      let u2 := { u.closeClause with asyncTrap := some { cause := cause, tpc := tpc, tval := tval, next := next, global := global }
                                     region := none, origin := none, wait := .none }
      ({ s with issue := s.issue.filter (·.unit != u.id) }.putUnit u2).needG u2
    else
      s.putUnit { u1 with rstack := next :: u.rstack, nest := u.nest + 1, pc := routine
                          origin := some { word := tpc, next := next, rstack := u.rstack, nest := u.nest, inl := u.inl, clause := u.clause }
                          pcSlot := none, region := none, trapFrames := (u.rstack.length + 1, global) :: u.trapFrames, wait := .none }
  else (s.putUnit u1).faultUnit u1 cause (faultAddress cause global tval)

/-- The end of a clause for its unit (R256, R347): its duties are owed only by what is still outstanding, %fmode takes the
value written, the port is free. A unit that stands in the middle of another clause owes that clause's duties still (R344). The units of an
aborting launch stop here (R81). -/
def State.endClause (s : State) (uid : Nat) : State :=
  let s1 := { s with issue := s.issue.filter (·.unit != uid) }
  let s2 := s1.updUnit uid (fun u =>
    if u.pcSlot.isSome then u
    else { u with duties := u.duties.map (fun d => if d.clause = u.clause then { d with issued := true } else d)
                  fmode := u.fmodeNext })
  s2.settleDuties.stopAborting

/-- The next slot of a clause, or the clause after it (R255). -/
def State.advance (s : State) (i : Issue) : State :=
  if i.slot + 1 < i.hdr.count then
    { s with issue := updWhere (·.unit == i.unit) (fun j => { j with slot := i.slot + 1, entered := false }) s.issue }
  else
    (s.updUnit i.unit (fun u => { u with pc := i.nextClause, pcSlot := none, origin := none })).endClause i.unit

/-- What an ended word leaves (R224, R255). A launch that aborts deals nothing more: a span that would be dealt goes (R81). -/
def State.finish (i : Issue) (u : SUnit) : Res → State
  | .done s => s.advance i
  | .jump s => s.endClause i.unit
  | .trap s cause tval global =>
    (s.takeTrap ((s.unit? u.id).getD u) cause i.wordAddr tval i.nextClause global).endClause i.unit
  | .needG s => if s.aborting u.launch && u.kind == .undealt then s.removeUnit u.id else s.needG ((s.unit? u.id).getD u)
  | .again s =>
    { s.updUnit i.unit (fun u => { u with pcSlot := some i.slot }) with issue := s.issue.filter (·.unit != i.unit) }.stopAborting
  | .stay s => s

/-- Execute the word of the clause at the head of the ports (R104). -/
def State.runWord (s : State) (body : State → Issue → SUnit → Res) : Host.Outcome State Fault Refusal :=
  match s.issue with
  | [] => .fault .noIssue
  | i :: rest =>
    match s.unit? i.unit with
    | none => .next { s with issue := rest }
    | some u => .next (State.finish i u (body s i u))

/-- Close an open region (R216). -/
def State.closeRegion (s : State) (u : SUnit) : State :=
  if u.region.isSome then s.updUnit u.id (fun u => { u with region := none }) else s

/-- A word that closes an open region before it executes (R216). -/
def State.runClosing (s : State) (body : State → Issue → SUnit → Res) : Host.Outcome State Fault Refusal :=
  s.runWord (fun s i u => body (s.closeRegion u) i { u with region := none })

/-- The first input of an open region among the registers an instruction would write (R215): a v number, or 128 + p. -/
def SUnit.regionHit (u : SUnit) (vs ps : List Nat) : Option W64 :=
  match u.region with
  | none => none
  | some r =>
    match vs.find? (fun v => decide (v < r.n)) with
    | some v => some (BitVec.ofNat 64 v)
    | none => (ps.find? (fun p => decide (p < 7))).map (fun p => BitVec.ofNat 64 (128 + p))

/-- The value an instruction gives to a v register: one value, an affine value, or one value for each lane. -/
inductive Rv where
  | u (x : W32)
  | a (base stride : W32)
  | g (vals : List W32)
  deriving DecidableEq, Repr

/-- Write v registers with their shapes (R97, R91, R215, R260): no active item, nothing written; under a predicate that is neither U true
nor U false, and for a value for each lane, the result is G, which only a strand holds. -/
def State.writeV (s : State) (u : SUnit) (g : Guard) (ws : List (Nat × Rv)) (k : State → Res) : Res :=
  if !u.anyActive g then k s
  else match u.regionHit (ws.map (·.1)) [] with
    | some t => .trap s causeRegionwrite t
    | none =>
      let plain := g.isTrue && ws.all (fun w => match w.2 with | .g _ => false | _ => true)
      if plain then
        k (s.putUnit (ws.foldl (fun u w => match w.2 with
          | .u x => u.setV w.1 (.u x)
          | .a b st => u.setV w.1 (VReg.affine b st)
          | .g _ => u) u))
      else if !u.isStrand then .needG s
      else match s.ensureRows u (ws.map (·.1)) with
        | .error r => .trap s causeGregs (BitVec.ofNat 64 r.toNat)
        | .ok (s1, u1) =>
          k (ws.foldl (fun s w =>
            let vals := match w.2 with
              | .u x => List.replicate 64 x
              | .a b st => (List.range 64).map (fun j => b + st * BitVec.ofNat 32 (u.lo + j))
              | .g xs => xs
            s.writeLanes u1 w.1 g.mask vals) s1)

/-- Write a predicate with its shape (R97, R259). -/
def State.writeP (s : State) (u : SUnit) (g : Guard) (r : Nat) (x : PReg) (k : State → Res) : Res :=
  if !u.anyActive g then k s
  else match u.regionHit [] [r] with
    | some t => .trap s causeRegionwrite t
    | none =>
      if r = 7 then k s
      else if g.isTrue && (match x with | .g _ => u.isStrand | _ => true) then k (s.putUnit (u.setP r x))
      else if !u.isStrand then .needG s
      else
        let old := laneMask (fun j => (u.preg r).holds (u.lo + j) j)
        let new := laneMask (fun j => x.holds (u.lo + j) j)
        k (s.putUnit (u.setP r (.g ((old &&& ~~~g.mask) ||| (new &&& g.mask)))))

/-- Enter an outstanding long-latency operation of the clause (R256). -/
def State.addPend (s : State) (u : SUnit) (wait : PendWait) (writes : List RegWrite) (setA setB batch : Bool) : Nat × State :=
  let (id, s1) := s.fresh
  (id, { s1 with pend := s1.pend ++ [{ id := id, targets := [u.id], clause := u.clause, wait := wait, writes := writes
                                       setA := setA, setB := setB, batch := batch }] })

/-- Map rows for registers without giving them G shape yet. -/
def State.reserveRows (s : State) (u : SUnit) : List Nat → Except W32 State
  | [] => .ok s
  | r :: rs =>
    match s.groupOf u with
    | none => .error (BitVec.ofNat 32 r)
    | some g =>
        let w := u.window g
        if (g.rowOf w r).isSome then State.reserveRows s u rs
        else if g.gregs ≤ (g.mapped w).length then .error (BitVec.ofNat 32 r)
        else match g.rows.find? (fun k => k / 2048 == u.core && !(g.rowMap.filterMap (·.2)).contains k) with
          | none => .error (BitVec.ofNat 32 r)
          | some k => State.reserveRows (s.updGroup g.id (fun g => { g with rowMap := Kv.set none g.rowMap (w * 128 + r) (some k) })) u rs

/-- A long-latency result of a word (R105, R256): the rows that a value for each lane needs are mapped now, so GREGS is precise;
the value is written by a later step. -/
def State.deferV (s : State) (u : SUnit) (g : Guard) (setB : Bool) (wait : PendWait) (ws : List (Nat × Rv))
    (k : Nat → State → Res) : Res :=
  match u.regionHit (ws.map (·.1)) [] with
  | some t => .trap s causeRegionwrite t
  | none =>
    let plain := g.isTrue && ws.all (fun w => match w.2 with | .g _ => false | _ => true)
    if plain then
      let wr := ws.map (fun w => match w.2 with
        | .u x => RegWrite.vu w.1 (.u x)
        | .a b st => RegWrite.vu w.1 (VReg.affine b st)
        | .g _ => RegWrite.vu w.1 (.u 0))
      let (id, s1) := s.addPend u wait wr true setB false
      k id s1
    else if !u.isStrand then .needG s
    else
      match s.reserveRows u (ws.map (·.1)) with
      | .error r => .trap s causeGregs (BitVec.ofNat 64 r.toNat)
      | .ok s1 =>
        let wr := ws.map (fun w =>
          let vals := match w.2 with
            | .u x => List.replicate 64 x
            | .a b st => (List.range 64).map (fun j => b + st * BitVec.ofNat 32 (u.lo + j))
            | .g xs => xs
          RegWrite.vg w.1 u.lo g.mask vals)
        let (id, s2) := s1.addPend u wait wr true setB false
        k id s2
/-- One register write of an outstanding operation lands in a unit (R98: in every strand it still belongs to, on the strand's
own items). -/
def State.landWrite (s : State) (uid : Nat) (w : RegWrite) : State :=
  match s.unit? uid with
  | none => s
  | some u =>
    match w with
    | .vu r x => s.putUnit (u.setV r x)
    | .pu r x => s.putUnit (u.setP r x)
    | .xacc r x => s.putUnit (u.setX r x)
    | .vg r lo mask vals =>
      if !u.isStrand || u.lo != lo || (u.mask &&& mask) == 0 then s
      else match s.ensureRows u [r] with
        | .error _ => s
        | .ok (s1, u1) => s1.writeLanes u1 r (u1.mask &&& mask) vals

/-- Where the writes of an operation land in one of its units: in the unit; or, when its strand has demoted since (R102) and a result for each item
is the span's first G result, in the strands into which it materialises (R96), none while slots are lacking. -/
def State.landing (s : State) (o : PendOp) (t : Nat) : Option (List Nat × State) :=
  let lanes := o.writes.any (fun w => match w with | .vg _ _ _ _ => true | _ => false)
  match s.unit? t with
  | none => some ([], s)
  | some u =>
    if u.isStrand || !lanes then some ([t], s)
    else (s.materialise u).map (fun s1 => ((s1.units.filter (fun x => !s.units.any (·.id == x.id))).map (·.id), s1))

/-- All writes of an operation land in one of its units. -/
def State.landAll (s : State) (o : PendOp) (t : Nat) : State :=
  match s.landing o t with
  | none => s
  | some (ids, s1) => ids.foldl (fun s i => o.writes.foldl (fun s w => s.landWrite i w) s) s1

/-- The lanes of an outstanding operation's pending value replaced by one item's result. -/
def setLane (w : RegWrite) (r lane : Nat) (x : W32) : RegWrite :=
  match w with
  | .vg r' lo m vals => if r' = r then .vg r' lo m (setAt vals lane x) else w
  | w => w

/-- An engine gives one item's result of an outstanding operation: the values of a wide destination, or of none, and one entry
fewer to wait for. -/
def State.entryDone (s : State) (op : Nat) (reg : Option Nat) (lane : Nat) (val : W64) : State :=
  s.updPend op (fun o =>
    let writes := match reg with
      | some r => o.writes.map (fun w => setLane (setLane w r lane (val.extractLsb' 0 32)) (r + 1) lane (val.extractLsb' 32 32))
      | none => o.writes
    let left := match o.wait with | .entries n => n - 1 | _ => 0
    { o with writes := writes, wait := if left = 0 then .ready else .entries left })

end Sys2Proof.Machine
end

