-- ==== Sys2Proof/Machine/Flags.lean ====
section
/-! DEFINITION. Conditions (R303, R304, R310): what a compare yields for one item and the shape its predicate takes over the
items of a span or strand (R97), and the votes over a predicate (R332, R339). The machine keeps no arithmetic flags (R296). -/

namespace Sys2Proof.Machine

/-- COND of R303 on an ordering; none is unordered. -/
def condHolds (cond : Nat) (o : Option Ordering) : Bool :=
  match cond, o with
  | 0, some .eq => true
  | 1, some .eq => false
  | 1, _ => true
  | 2, some .lt => true
  | 3, some .lt => true
  | 3, some .eq => true
  | 4, some .gt => true
  | 5, some .gt => true
  | 5, some .eq => true
  | 6, some _ => true
  | 7, none => true
  | 8, some .lt => true
  | 8, some .gt => true
  | _, _ => false

/-- The order of two integers of w bits. -/
def intOrder (sgn : Bool) (w a b : Nat) : Option Ordering := some (compare (intOf sgn w a) (intOf sgn w b))

/-- The order of two floating-point values (R303). -/
def floatOrder (f : Ffmt) (a b : Nat) : Option Ordering := Fv.cmp (f.decode a) (f.decode b)

/-- The predicate that holds exactly where f does on ascending items (R97): U when all agree, A-form on a prefix or a suffix,
otherwise a mask over the window from lo. -/
def predShape (lo : Nat) (items : List Nat) (f : Nat → Bool) : PReg :=
  if items.all f then .u true
  else if items.all (fun i => !f i) then .u false
  else match items.find? (fun i => !f i), items.find? f with
    | some a, some b =>
      if items.all (fun i => f i == decide (i < a)) then .lt a
      else if items.all (fun i => f i == decide (b ≤ i)) then .ge b
      else .g (laneMask (fun j => items.contains (lo + j) && f (lo + j)))
    | _, _ => .g (laneMask (fun j => items.contains (lo + j) && f (lo + j)))

/-- The predicate of a mask over a strand's items as its shape (R102). -/
def PReg.recover (p : PReg) (u : SUnit) : PReg :=
  match p with
  | .g m => predShape u.lo u.items (fun i => m.getLsbD (i - u.lo))
  | q => q

/-- BRP's decision (R339) over the values of the voters. -/
def brpTaken (sub : Nat) (votes : List Bool) : Bool :=
  match sub with
  | 0 => votes.any id
  | 1 => votes.all id
  | 2 => !votes.any id
  | _ => !votes.all id

end Sys2Proof.Machine
end

