-- ==== Sys2Proof/Machine/Operands.lean ====
section
/-! DEFINITION. Operand forms of formats V and I (R259-R263, R293, R294) and the run of a register instruction over a span or
strand with the result shapes of R97. -/

namespace Sys2Proof.Machine

/-- How an operand is held: a v register, a wide register, or by the instruction's type (R293); none where unused. -/
inductive Opd where
  | none | v | w | t
  deriving DecidableEq, Repr

/-- Whether an operand is wide. -/
def Opd.wide (o : Opd) (ty : Ty) : Bool :=
  match o with
  | .w => true
  | .t => ty.wide
  | _ => false

/-- When a result of A and U sources is A (R97): never; a linear operation, which saturation may forbid; a product; a product
and a sum; a shift by a U amount. -/
inductive Aff where
  | never | lin (satForbids : Bool) | mul | mad | shl
  deriving DecidableEq, Repr

/-- What an operation reads beside its operands: the type, saturation in effect (R27), the rounding mode (R26), AUX. -/
structure OpEnv where
  ty : Ty
  sat : Bool
  rm : Rm
  aux : Nat
  deriving DecidableEq, Repr

/-- Elements of a packed type: width and count; a scalar is one element (R22, R23). -/
def elemsOf (t : Ty) : Nat × Nat :=
  match t with
  | .s8x4 | .n8x4 => (8, 4)
  | .s16x2 | .n16x2 | .f16x2 | .bf16x2 => (16, 2)
  | .s64 | .n64 | .f64 | .b64 => (64, 1)
  | .f16 | .bf16 => (16, 1)
  | _ => (32, 1)

/-- Apply an operation element by element; no carry passes between elements (R22). -/
def mapElems (t : Ty) (op : Nat → Nat → Nat → Nat) (a b c : Nat) : Nat :=
  let (w, n) := elemsOf t
  packBits w ((List.range n).map (fun i => op (streamElem w a i) (streamElem w b i) (streamElem w c i)))

/-- Whether a type is floating point. -/
def isFloat : Ty → Bool
  | .f16 | .bf16 | .f32 | .f64 | .f16x2 | .bf16x2 => true
  | _ => false

/-- NEGA and NEGB (R262): a sign bit inverted, or a two's-complement negation, element by element. -/
def negate (t : Ty) (x : Nat) : Nat :=
  mapElems t (fun e _ _ =>
    let w := (elemsOf t).1
    if isFloat t then e ^^^ 2 ^ (w - 1) else (2 ^ w - e % 2 ^ w) % 2 ^ w) x 0 0

/-- Types whose registers can be A (R97). -/
def affineTy (t : Ty) : Bool := t == .s32 || t == .n32 || t == .b32

/-- An operand register of an item. -/
def State.opdAt (s : State) (u : SUnit) (wide : Bool) (r item : Nat) : W64 :=
  if wide then s.wAt u r item else (s.vAt u r item).setWidth 64

/-- Whether an operand register is U. -/
def SUnit.opdIsU (u : SUnit) (wide : Bool) (r : Nat) : Bool := if wide then u.wIsU r else u.vIsU r

/-- Saturation in effect (R27). -/
def SUnit.satOn (u : SUnit) (sat : Bool) : Bool := sat || u.fmode.getLsbD 2

/-- A source of a register instruction: its value for an item, whether it counts as U, and its shape where it can be A. -/
structure Source where
  at_ : Nat → W64
  isU : Bool
  shape : VReg

/-- A register source. -/
def State.regSource (s : State) (u : SUnit) (o : Opd) (ty : Ty) (r : Nat) : Source :=
  let wide := o.wide ty
  { at_ := fun i => s.opdAt u wide r i, isU := u.opdIsU wide r, shape := if wide then .g else u.vreg r }

/-- Source B of format V, after LSEL (R262, R329). -/
def State.lselSource (s : State) (u : SUnit) (o : Opd) (ty : Ty) (r lsel : Nat) : Source :=
  let wide := o.wide ty
  let isU := u.opdIsU wide r
  { at_ := fun i => s.lselRead u isU (fun x j => s.opdAt x wide r j) lsel i
    isU := isU, shape := if wide || (lsel != 0 && !isU) then .g else u.vreg r }

/-- A value that is the same for all items. -/
def constSource (x : W64) : Source := { at_ := fun _ => x, isU := true, shape := .u (x.setWidth 32) }

/-- A source negated (R262). -/
def Source.negated (x : Source) (on : Bool) (ty : Ty) : Source :=
  if on then { x with at_ := fun i => BitVec.ofNat 64 (negate ty (x.at_ i).toNat) } else x

def VReg.isA : VReg → Bool
  | .a _ _ => true
  | _ => false

def VReg.isG : VReg → Bool
  | .g => true
  | _ => false

/-- Whether a result of the sources is A (R97). -/
def Aff.allows (aff : Aff) (ty : Ty) (sat : Bool) (a b c : Source) : Bool :=
  affineTy ty && !a.shape.isG && !b.shape.isG && !c.shape.isG
    && (match aff with
        | .never => false
        | .lin f => !(f && sat)
        | .mul => !sat && !(a.shape.isA && b.shape.isA)
        | .mad => !sat && !(a.shape.isA && b.shape.isA)
        | .shl => !b.shape.isA)

/-- The registers and values a result is written to: a v register, or the two halves of a wide one. -/
def resultParts (wide : Bool) (d : Nat) (x : Nat → W64) (mk : (Nat → W32) → Rv) : List (Nat × Rv) :=
  if wide then [(d, mk (fun i => (x i).extractLsb' 0 32)), (d + 1, mk (fun i => (x i).extractLsb' 32 32))]
  else [(d, mk (fun i => (x i).extractLsb' 0 32))]

/-- Write a result with its shape (R97): allU, one value; affine, base and stride from the values at items 0 and 1; otherwise
one value for each active item of a strand. -/
def State.result (s : State) (u : SUnit) (g : Guard) (wide : Bool) (d : Nat) (allU affine : Bool) (x : Nat → W64)
    (k : State → Res) : Res :=
  if !u.anyActive g then k s
  else if allU then s.writeV u g (resultParts wide d x (fun f => .u (f u.lo))) k
  else if affine && g.isTrue && !wide then
    let b := (x 0).extractLsb' 0 32
    s.writeV u g [(d, .a b ((x 1).extractLsb' 0 32 - b))] k
  else if !u.isStrand then .needG s
  else s.writeV u g (resultParts wide d x (fun f => .g ((List.range 64).map (fun j => if g.mask.getLsbD j then f (u.lo + j) else 0)))) k

/-- The same for a long-latency result, written by a later step (R105). -/
def State.lateResult (s : State) (u : SUnit) (g : Guard) (wide : Bool) (d : Nat) (allU : Bool) (x : Nat → W64) : Res :=
  if !u.anyActive g then .done s
  else if allU then s.deferV u g false .ready (resultParts wide d x (fun f => .u (f u.lo))) (fun _ s => .done s)
  else if !u.isStrand then .needG s
  else s.deferV u g false .ready (resultParts wide d x (fun f => .g ((List.range 64).map (fun j => if g.mask.getLsbD j then f (u.lo + j) else 0))))
    (fun _ s => .done s)

/-- A V-format register instruction (R294): D, A, B, C by kind, its rule for A results, its operation on the bits. -/
def State.runV (s : State) (f : FmtV) (od oa ob oc : Opd) (aff : Aff) (late : Bool) (op : OpEnv → Nat → Nat → Nat → Nat) :
    Host.Outcome State Fault Refusal :=
  s.runWord (fun s _ u =>
    let g := u.guard f.pred f.pneg
    let sat := u.satOn f.sat
    let e : OpEnv := { ty := f.ty, sat := sat, rm := Rm.ofMode f.mode u.fmode, aux := f.aux.toNat }
    let none := constSource 0
    let a := if oa = .none then none else (s.regSource u oa f.ty f.a.toNat).negated f.nega f.ty
    let b := if ob = .none then none else (s.lselSource u ob f.ty f.b.toNat f.lsel.toNat).negated f.negb f.ty
    let c := if oc = .none then none else s.regSource u oc f.ty f.c.toNat
    let x (i : Nat) : W64 := BitVec.ofNat 64 (op e (a.at_ i).toNat (b.at_ i).toNat (c.at_ i).toNat)
    let allU := a.isU && b.isU && c.isU
    if late then s.lateResult u g (od.wide f.ty) f.d.toNat allU x
    else s.result u g (od.wide f.ty) f.d.toNat allU (aff.allows f.ty sat a b c) x .done)

/-- IMM32 by type (R263): sign-extended for s64, an f32 pattern converted exactly for f64, zero-extended otherwise. -/
def immValue (ty : Ty) (imm : W32) : W64 :=
  match ty with
  | .s64 => imm.signExtend 64
  | .f64 => BitVec.ofNat 64 (fmtF64.encode .rne false (fmtF32.decode imm.toNat))
  | _ => imm.setWidth 64

/-- An I-form register instruction (R263): no LSEL, no negation, no SAT of its own, rounding by %fmode. useD: D is also the
third source (FFMA). -/
def State.runI (s : State) (f : FmtI) (od oa : Opd) (aff : Aff) (useD : Bool) (imm : W64)
    (op : OpEnv → Nat → Nat → Nat → Nat) : Host.Outcome State Fault Refusal :=
  s.runWord (fun s _ u =>
    let g := u.guard f.pred f.pneg
    let sat := u.satOn false
    let e : OpEnv := { ty := f.ty, sat := sat, rm := Rm.ofFmode u.fmode, aux := 0 }
    let a := if oa = .none then constSource 0 else s.regSource u oa f.ty f.a.toNat
    let b := constSource imm
    let c := if useD then s.regSource u od f.ty f.d.toNat else constSource 0
    let x (i : Nat) : W64 := BitVec.ofNat 64 (op e (a.at_ i).toNat (b.at_ i).toNat (c.at_ i).toNat)
    s.result u g (od.wide f.ty) f.d.toNat (a.isU && c.isU) (aff.allows f.ty sat a b c) x .done)

/-- Write the predicate of a compare (R97): D bits 2:0 name it. -/
def State.cmpResult (s : State) (u : SUnit) (g : Guard) (d : BitVec 7) (a b : Source) (ordered : W64 → W64 → Option Ordering) : Res :=
  let p := (d.extractLsb' 0 3).toNat
  let cond := (d.extractLsb' 3 4).toNat
  let holds (i : Nat) : Bool := condHolds cond (ordered (a.at_ i) (b.at_ i))
  if !u.anyActive g then .done s
  else if a.isU && b.isU then s.writeP u g p (.u (holds u.lo)) .done
  else if a.shape.isG || b.shape.isG || !g.isTrue then
    (if !u.isStrand then .needG s
     else s.writeP u g p (.g (laneMask (fun j => g.mask.getLsbD j && holds (u.lo + j)))) .done)
  else
    let sh := predShape u.lo u.items holds
    match sh with
    | .g _ => if !u.isStrand then .needG s else s.writeP u g p sh .done
    | _ => s.writeP u g p sh .done

end Sys2Proof.Machine
end

