-- ==== Sys2Proof/Machine/Weave.lean ====
section
/-! DEFINITION. Weave pages (R167-R170): the place of an element in its frame, the decode of a read and the requantising
write of a block; and the bytes of a page, plain or weave, as an agent reads and writes them (R169). -/

namespace Sys2Proof.Machine

/-- The element type of a weave format (R167). -/
def weaveTy (w : Nat) : Ty :=
  match w % 16 with
  | 1 => .f16
  | 2 => .bf16
  | 3 | 5 => .e4m3
  | 4 | 6 => .e5m2
  | 7 => .e3m2
  | 8 => .e2m3
  | 9 => .e2m1
  | 10 => .mxi8
  | 11 => .ply9
  | 12 => .ply6
  | _ => .ply4

/-- Bytes of a block's elements (R168). -/
def weaveEb (w : Nat) : Nat :=
  match w % 16 with
  | 1 | 2 => 2
  | 3 | 4 => 1
  | 5 | 6 | 10 => 32
  | 7 | 8 => 24
  | 9 => 16
  | 11 => 16
  | 12 => 10
  | _ => 6

/-- Offset of the scales in a frame (R168). -/
def weaveScaleAt (w : Nat) : Nat :=
  match w % 16 with
  | 5 | 6 | 10 => 0x4000
  | 7 | 8 => 0x3000
  | 9 => 0x2000
  | 11 => 0x4000
  | 12 => 0x2800
  | 13 => 0x1800
  | _ => 0

/-- Bytes of a block's scale (R168). -/
def weaveSb (w : Nat) : Nat :=
  let f := w % 16
  if f ≤ 4 then 0 else if f ≤ 10 then 1 else 2

/-- Bits of an element in its block's stream. -/
def weaveBits (w : Nat) : Nat :=
  let t := weaveTy w
  if 11 ≤ w % 16 then plyM t + 1 else tyBits t

/-- Block and position of logical element i (R167). -/
def weavePlace (w i : Nat) : Nat × Nat :=
  let bs := weaveBs w
  match w / 16 with
  | 0 => (i / bs, i % bs)
  | g =>
    let c := if g = 1 then 128 else 256
    (i / c / bs * c + i % c, i / c % bs)

/-- One decoded element of a block as f32 bits (R169): a scale-free format saturates as %fmode bit 2 says (R30), MX and PLY do not. -/
def weaveDecode (w : Nat) (sat : Bool) (elems scale pos : Nat) : W32 :=
  let t := weaveTy w
  let el := streamElem (weaveBits w) elems pos
  let v := if weaveBs w = 1 then (tyFfmt t).decode el
    else if 11 ≤ w % 16 then plyValue t (scale % 256) (if scale.testBit (8 + pos / 2) then 1 else 0) el
    else mxValue t scale el
  BitVec.ofNat 32 (fmtF32.encode .rne (sat && weaveBs w == 1) v)

/-- A block after the writes of one instruction or beat: its elements and scale; none leaves it as it is (R170). rm and sat
are those of %fmode. -/
def weaveBlock (w : Nat) (rm : Rm) (sat : Bool) (elems scale : Nat) (ws : List (Nat × W32)) : Option (Nat × Nat) :=
  let t := weaveTy w
  let bs := weaveBs w
  let ply := decide (11 ≤ w % 16)
  let val (j : Nat) : Option Fv := (ws.reverse.find? (fun e => e.1 == j)).map (fun e => fmtF32.decode e.2.toNat)
  let vals := (List.range bs).map val
  if bs = 1 then (val 0).map (fun v => ((tyFfmt t).encode rm sat v, 0))
  else if vals.all (·.isSome) then
    let xs := vals.map (fun v => v.getD .nan)
    if ply then
      let q := quantisePly t sat xs
      some (packBits (weaveBits w) q.2.2, q.1 + 256 * packBits 1 q.2.1)
    else
      let q := quantiseMx t sat xs
      some (packBits (weaveBits w) q.2, q.1)
  else if scale % 256 = 255 then none
  else if anyNan (vals.filterMap id) then some (0, 255)
  else
    let one (j : Nat) : Nat := match val j with
      | none => streamElem (weaveBits w) elems j
      | some v =>
        if ply then
          let mu := if scale.testBit (8 + j / 2) then 1 else 0
          plyElem (plyM t) ((scale % 256 : Nat) - 127) mu (clampInf v)
        else mxElem t ((scale : Int) - 127) v
    some (packBits (weaveBits w) ((List.range bs).map one), scale)

/-- The physical bytes that an access of n bytes at a virtual address touches, as runs: of a weave page, the elements and the scale of each
block (R168). -/
def Leaf.runs (l : Leaf) (va n : Nat) : List (Nat × Nat) :=
  let w := pteWeave l.pte
  let frame := pteFrame l.pte
  if w = 0 then [(l.pa va, n)]
  else
    let blocks := ((List.range ((va + n + 3) / 4 - va / 4)).map (fun k => (weavePlace w ((4 * (va / 4 + k) - l.va) / 4)).1)).eraseDups
    blocks.flatMap (fun b => (frame + b * weaveEb w, weaveEb w) :: (if weaveSb w = 0 then [] else [(frame + weaveScaleAt w + b * weaveSb w, weaveSb w)]))

namespace State

/-- The elements and scale of a block of a weave frame, as an agent sees them. -/
def weaveRaw (s : State) (who : Who) (frame w b : Nat) : Nat × Nat :=
  (natOf (s.bytesAt who (frame + b * weaveEb w) (weaveEb w)), natOf (s.bytesAt who (frame + weaveScaleAt w + b * weaveSb w) (weaveSb w)))

/-- The 4-byte unit at a virtual address of a weave page (R169). -/
def weaveUnit (s : State) (who : Who) (sat : Bool) (l : Leaf) (va : Nat) : W32 :=
  let w := pteWeave l.pte
  let (b, j) := weavePlace w ((va - l.va) / 4)
  let (elems, scale) := s.weaveRaw who (pteFrame l.pte) w b
  weaveDecode w sat elems scale j

/-- Write 4-byte units of one weave page, block by block in ascending order, at the home slices (R170): cached bytes of the frame go home
first. Lines that the blocks cover between them are clean again (R137). -/
def weaveWrite (s : State) (who : Who) (rm : Rm) (sat : Bool) (l : Leaf) (ws : List (Nat × W32)) : State :=
  let w := pteWeave l.pte
  let frame := pteFrame l.pte
  let s0 := if s.l1.isEmpty && s.l2.isEmpty then s else s.flushRange frame (weaveFrame w)
  let placed := ws.map (fun e => (weavePlace w ((e.1 - l.va) / 4), e.2))
  let blocks := (sortBy id (placed.map (·.1.1))).eraseDups
  let s1 := blocks.foldl (fun s b =>
    let (elems, scale) := s.weaveRaw who frame w b
    match weaveBlock w rm sat elems scale (placed.filterMap (fun p => if p.1.1 = b then some (p.1.2, p.2) else none)) with
    | none => s
    | some (e, sc) =>
      let s1 := s.writeHome who (frame + b * weaveEb w) (bytesOf (weaveEb w) e)
      if weaveSb w = 0 then s1 else s1.writeHome who (frame + weaveScaleAt w + b * weaveSb w) (bytesOf (weaveSb w) sc)) s0
  if s1.poison.lines.isEmpty then s1
  else
    let whole := blocks.filter (fun b => ((placed.filter (fun p => p.1.1 == b)).map (·.1.2)).eraseDups.length == weaveBs w)
    s1.clearLines (whole.flatMap (fun b => (List.range (weaveEb w)).map (frame + b * weaveEb w + ·)
      ++ (List.range (weaveSb w)).map (frame + weaveScaleAt w + b * weaveSb w + ·)))

/-- n bytes at a virtual address whose page is known: the frame's bytes, or the logical view of a weave page, read in whole
units (R169); sat is %fmode bit 2 of the reader (R30). -/
def readVa (s : State) (who : Who) (sat : Bool) (l : Leaf) (va n : Nat) : List Byte :=
  if pteWeave l.pte = 0 then s.bytesAt who (l.pa va) n
  else
    let u0 := va / 4
    let units := (List.range ((va + n + 3) / 4 - u0)).flatMap (fun k => bytesOf 4 (s.weaveUnit who sat l (4 * (u0 + k))).toNat)
    (units.drop (va % 4)).take n

/-- Whether a read of n bytes at a virtual address meets poison (R137). -/
def poisonedVa (s : State) (l : Leaf) (va n : Nat) : Bool :=
  s.linkLost (l.pa va) || (!s.poison.lines.isEmpty && (l.runs va n).any (fun r => s.linePoisoned r.1 r.2))

end State

end Sys2Proof.Machine
end

