-- ==== Sys2Proof/Machine/Access.lean ====
section
/-! DEFINITION. The accesses of items (R265, R350, R160, R165, R133, R11): addresses, the checks of a whole instruction, what a
failed check leads to, the discard of a region (R217), reads of host memory. -/

namespace Sys2Proof.Machine

/-- Bytes of a memory type (R349). -/
def memBytes (t : Ty) : Nat :=
  match t with
  | .s8 | .n8 => 1
  | .s16 | .n16 | .f16 | .bf16 => 2
  | .s64 | .n64 | .f64 | .b64 => 8
  | _ => 4

/-- The register value of loaded bytes (R349). -/
def loadValue (t : Ty) (x : Nat) : W64 :=
  match t with
  | .s8 => ((BitVec.ofNat 8 x).signExtend 32).setWidth 64
  | .s16 => ((BitVec.ofNat 16 x).signExtend 32).setWidth 64
  | _ => BitVec.ofNat 64 x

/-- The index part of an address for an item (R265). -/
def State.idxAt (s : State) (u : SUnit) (f : FmtM) (item : Nat) : W64 :=
  if f.scale = 7 then 0 else (s.vAt u f.index.toNat item).signExtend 64 <<< f.scale.toNat

/-- The global address of an item (R265). -/
def State.gaddr (s : State) (u : SUnit) (f : FmtM) (idx : Bool) (item : Nat) : Nat :=
  (s.wAt u f.base.toNat item + (if idx then s.idxAt u f item else 0) + f.offset.signExtend 64).toNat

/-- The pad offset of an item (R265). -/
def State.poff (s : State) (u : SUnit) (f : FmtM) (idx : Bool) (item : Nat) : Nat :=
  ((if f.base = 127 then 0 else s.vAt u f.base.toNat item) + (if idx then (s.idxAt u f item).setWidth 32 else 0)
    + f.offset.signExtend 32).toNat

/-- Whether an address is U (R97). -/
def SUnit.addrIsU (u : SUnit) (f : FmtM) (pad idx : Bool) : Bool :=
  (if pad then f.base == 127 || u.vIsU f.base.toNat else u.wIsU f.base.toNat) && (!idx || f.scale == 7 || u.vIsU f.index.toNat)

/-- What the check of one item's access gives (R350). -/
inductive Chk where
  | ok (va : Nat) (pa : Nat) (leaf : Leaf)
  | trap (cause : W32) (tval : Nat)
  | absent (va : Nat)
  | hold (va : Nat)
  deriving DecidableEq, Repr

/-- The Creel's answer to an access after the page checks (R133). -/
def State.creelCheck (s : State) (ctx pa va : Nat) (need : Need) : Option Chk :=
  match s.kind pa with
  | .creel _ =>
    let (st, owner) := s.chunk (creelChunk pa)
    match need with
    | .read | .exec => if st = creelLoading && owner != some ctx then some (.hold va) else none
    | .write => if st = creelLoading && owner == some ctx then none else some (.trap causeCreelro va)
    | .both => some (.trap causeCreelro va)
  | _ => none

/-- The Creel's answer to an access of n bytes of a page: of a weave page, for every block that it touches (R133, R168). -/
def State.creelVa (s : State) (ctx : Nat) (l : Leaf) (va n : Nat) (need : Need) : Option Chk :=
  (l.runs va n).findSome? (fun r => match s.creelCheck ctx r.1 va need with
    | some c => some c
    | none => s.creelCheck ctx (r.1 + r.2 - 1) va need)

/-- Whether an access of n bytes is one that a weave page refuses (R169). -/
def weaveMisaligned (l : Leaf) (va n : Nat) : Bool := pteWeave l.pte != 0 && (va % 4 != 0 || n % 4 != 0)

/-- Check one global access of n bytes (R350): alignment (R349, R169, R355), translation (R160), Creel (R133). line: an image
that must lie in one line (R355). -/
def State.checkGlobal (s : State) (w : Who) (ctx : Nat) (need : Need) (n align : Nat) (line : Bool) (va : Nat) : Chk × State :=
  let leaf := s.leafFor w ctx va
  let weave := match leaf with
    | some l => pteWeave l.pte != 0
    | none => false
  if va % align ≠ 0 || (line && decide (80 < va % 128))
      || (need != .both && (match leaf with | some l => weaveMisaligned l va n | none => false)) then (.trap causeMisalign va, s)
  else if weave && need == .both then (.trap causeProtfault va, s)
  else match s.translate w ctx need va with
    | (.ok pa l, s1) =>
      match s1.creelVa ctx l va n need with
      | some c => (c, s1)
      | none => (.ok va pa l, s1)
    | (.fault c, s1) => (.trap c va, s1)
    | (.absent, s1) => (.absent va, s1)
    | (.mig, s1) => (.hold va, s1)

/-- Check the accesses of several items, lowest item first (R350): all places, or the first failure. -/
def State.checkItems (s : State) (w : Who) (ctx : Nat) (need : Need) (n align : Nat) (line : Bool) :
    List (Nat × Nat) → (Chk ⊕ List (Nat × Nat × Nat × Leaf)) × State
  | [] => (.inr [], s)
  | (item, va) :: rest =>
    match s.checkGlobal w ctx need n align line va with
    | (.ok va pa l, s1) =>
      match s1.checkItems w ctx need n align line rest with
      | (.inr xs, s2) => (.inr ((item, va, pa, l) :: xs), s2)
      | (.inl c, s2) => (.inl c, s2)
    | (c, s1) => (.inl c, s1)

/-- Check pad accesses, lowest item first (R350, R123): places as (item, offset, core, offset in its pad). -/
def padItems (g : Group) (self n align : Nat) : List (Nat × Nat) → Except (W32 × Nat) (List (Nat × Nat × Nat × Nat))
  | [] => .ok []
  | (item, off) :: rest =>
    if off % align ≠ 0 then .error (causeMisalign, off)
    else match g.padPlace self off n with
      | none => .error (causePadrange, off)
      | some (c, o) => match padItems g self n align rest with
        | .ok xs => .ok ((item, off, c, o) :: xs)
        | .error e => .error e

/-- Discard an open region (R217, R165): registers beside the inputs become U 0, every pip of it clears, the unit stands at the region's
entry, which waits for what was issued before (R215). -/
def SUnit.discard (u : SUnit) (r : Region) : SUnit :=
  { u with v := Kv.keep (fun k => decide (k < r.n)) u.v, duties := u.duties.filter (fun d => decide (d.clause < r.since))
           pc := r.entry, pcSlot := none, origin := none }

/-- Discard a unit's open region in the machine: the register results of the work issued inside it are dropped (R217). -/
def State.discardRegion (s : State) (u : SUnit) (r : Region) : State :=
  let s1 := s.updUnit u.id (fun u => u.discard r)
  { s1 with pend := s1.pend.map (fun o => if r.since ≤ o.clause then { o with targets := o.targets.filter (· != u.id) } else o) }

/-- An item's access to an ABSENT page (R165, R210): the request is written, or the access is held while the ring is full; an
open region is discarded and waits for the page; outside one the access faults. -/
def State.absentRes (s : State) (i : Issue) (u : SUnit) (need : Need) (va : Nat) : Res :=
  match s.pageRequest (.core u.core) (s.ctxOf u) need va with
  | none => .stay (s.updUnit u.id (fun u => { u with wait := .held va (needBits need) }))
  | some s1 =>
    match u.region with
    | some r => .jump ((s1.discardRegion u r).updUnit u.id (fun u =>
        { u with wait := .page va (needBits need) i.wordAddr i.nextClause, tval := BitVec.ofNat 64 va }))
    | none => .trap s1 causePagefault (BitVec.ofNat 64 va) true

/-- What a failed check of a global access leads to. -/
def State.chkRes (s : State) (i : Issue) (u : SUnit) (need : Need) : Chk → Res
  | .trap c tval => .trap s c (BitVec.ofNat 64 tval) true
  | .absent va => s.absentRes i u need va
  | .hold va => .stay (s.updUnit u.id (fun u => { u with wait := .held va (needBits need) }))
  | .ok _ _ _ => .done s

/-- Whether a place is one of a plain page beyond the host links, which an item's load asks for over a link (R10, R11, R235). -/
def State.inHost (s : State) (p : Nat × Nat × Nat × Leaf) : Bool := s.overLink p.2.2.1 && pteWeave p.2.2.2.pte == 0

/-- The first place whose data is poisoned (R137, R11). -/
def State.poisonPlace (s : State) (n : Nat) (ps : List (Nat × Nat × Nat × Leaf)) : Option (Nat × Nat × Nat × Leaf) :=
  ps.find? (fun p => s.poisonedVa p.2.2.2 p.2.1 n || (!s.inHost p && s.hostRefuses p.2.2.1))

/-- Ask the host for the places in host memory that a unit has not asked for (R11): none when every answer is there. -/
def State.askHost (s : State) (u : SUnit) (n : Nat) (ps : List (Nat × Nat × Nat × Leaf)) : Option State :=
  let want := ((ps.filter s.inHost).map (fun p => p.2.2.1)).eraseDups
  let known := want.filter (fun pa => s.hostReads.any (fun h => h.unit == u.id && h.pa == pa && h.bytes == n))
  let open_ := s.hostReads.any (fun h => h.unit == u.id && h.answer.isNone)
  if want.length = known.length && !open_ then none
  else
    let asked := (want.filter (fun pa => !known.contains pa)).foldl (fun (s : State) pa =>
      let (id, s1) := s.fresh
      { s1 with hostReads := s1.hostReads ++ [{ op := id, unit := u.id, pa := pa, bytes := n, answer := none }] }) s
    some (asked.updUnit u.id (fun u => { u with wait := .host [] }))

/-- The host's answer to a read of a unit. -/
def State.hostAnswer (s : State) (u : SUnit) (pa n : Nat) : Option (Bool × List Byte) :=
  (s.hostReads.find? (fun h => h.unit == u.id && h.pa == pa && h.bytes == n)).bind (·.answer)

/-- Whether the host has turned a unit's read of a place away (R11). -/
def State.hostTurnsAway (s : State) (u : SUnit) (n : Nat) (p : Nat × Nat × Nat × Leaf) : Bool :=
  s.inHost p && (match s.hostAnswer u p.2.2.1 n with | some (false, _) => true | _ => false)

/-- Forget the answers of a unit. -/
def State.forgetHost (s : State) (u : SUnit) : State := { s with hostReads := s.hostReads.filter (fun h => h.unit != u.id) }

end Sys2Proof.Machine
end

