-- ==== Sys2Proof/Machine/Join.lean ====
section
/-! DEFINITION. JOIN and what brings siblings together (R100-R103, R120): deferred sides taking a slot, the fusion of parked
siblings, shape recovery, demotion, the re-join of spans. -/

namespace Sys2Proof.Machine

/-- Inverse of an odd number modulo 2^32. -/
def oddInverse (x : W32) : W32 := (List.range 6).foldl (fun y _ => y * (2 - x * y)) x

/-- Base and stride of values that are affine in the items; none where they are not (R102). -/
def affineFit : List (Nat × W32) → Option VReg
  | [] => none
  | [(_, x)] => some (.u x)
  | (i, x) :: (j, y) :: rest =>
    let all := (i, x) :: (j, y) :: rest
    if all.all (fun e => e.2 == x) then some (.u x)
    else
      let gap := j - i
      let a := (List.range 6).foldl (fun a k => if gap % 2 ^ (k + 1) = 0 then k + 1 else a) 0
      let d := y - x
      if d.toNat % 2 ^ a ≠ 0 then none
      else
        let st0 : W32 := BitVec.ofNat 32 (d.toNat / 2 ^ a) * oddInverse (BitVec.ofNat 32 (gap / 2 ^ a))
        let cands := (List.range (2 ^ a)).map (fun k => (st0 &&& BitVec.ofNat 32 (2 ^ (32 - a) - 1)) + BitVec.ofNat 32 (k * 2 ^ (32 - a)))
        (cands.find? (fun st => all.all (fun e => e.2 == x + st * BitVec.ofNat 32 (e.1 - i)))).map
          (fun st => VReg.affine (x - st * BitVec.ofNat 32 i) st)

/-- Shape recovery of registers v0 .. v(n-1) and the predicates of a strand (R102). -/
def State.recover (s : State) (u : SUnit) (n : Nat) : SUnit :=
  let u1 := (List.range n).foldl (fun (w : SUnit) r =>
    if u.vIsG r then
      match affineFit (u.items.map (fun i => (i, s.vAt u r i))) with
      | some x => w.setV r x
      | none => w
    else w) u
  (List.range 7).foldl (fun (w : SUnit) r => w.setP r ((u.preg r).recover u)) u1

/-- Whether every register and predicate of a strand is U or affine. -/
def SUnit.uniform (u : SUnit) : Bool :=
  u.v.all (fun e => match e.2 with | .g => false | _ => true) && u.p.all (fun e => match e.2 with | .g _ => false | _ => true)

/-- Whether a strand's items form one contiguous range. -/
def SUnit.contiguous (u : SUnit) : Bool :=
  match u.items, u.items.getLast? with
  | i :: _, some j => decide (j - i + 1 = u.items.length)
  | _, _ => false

/-- Whether a strand demotes to a span (R102). -/
def SUnit.demotes (u : SUnit) : Bool :=
  u.uniform && u.contiguous && u.x.isEmpty && u.k.isEmpty && u.rstack.isEmpty

/-- The registers for whose results a window's rows are mapped while they are still to land in one of its units (R105). -/
def State.owedRows (s : State) (g : Group) (w : Nat) : List Nat :=
  (s.pend.filter (fun o => o.targets.any (fun t => match s.unit? t with
    | some x => x.group == some g.id && x.window g == w
    | none => false))).flatMap (fun o => o.writes.filterMap (fun x => match x with | .vg r _ _ _ => some r | _ => none))

/-- The window's rows return to the reservation once no strand remains in it (R102), but for those that a result still to land has mapped. -/
def State.releaseWindow (s : State) (gid : Option Nat) (w : Nat) : State :=
  match gid.bind s.group? with
  | none => s
  | some g =>
    if s.units.any (fun x => x.group == gid && x.isStrand && x.window g == w) then s
    else
      let owed := s.owedRows g w
      s.updGroup g.id (fun g => { g with rowMap := Kv.keep (fun k => k / 128 != w || owed.contains (k % 128)) g.rowMap })

/-- Recovery, and demotion where it applies (R102). -/
def State.recoverUnit (s : State) (uid n : Nat) : State :=
  match s.unit? uid with
  | none => s
  | some u =>
    let u1 := s.recover u n
    if u1.demotes then
      let w := match s.groupOf u with | some g => u.window g | none => 0
      (s.putUnit { u1 with kind := .span, lo := u1.items.headD u1.lo, cnt := u1.items.length, mask := 0, sstack := [] }).releaseWindow u.group w
    else s.putUnit u1

/-- The unit whose lowest item is lowest. -/
def lowestUnit : List SUnit → Option SUnit
  | [] => none
  | u :: us => match lowestUnit us with
    | none => some u
    | some v => if u.items.headD 0 < v.items.headD 0 then some u else some v

/-- The unit with the lowest slot; units without one come last. -/
def lowestSlot : List SUnit → Option SUnit
  | [] => none
  | u :: us => match lowestSlot us with
    | none => some u
    | some v => if u.slot.getD 0x10000 < v.slot.getD 0x10000 then some u else some v

/-- Merge the sealed batches of siblings in order of sealing; the oldest are merged until 8 remain (R120). -/
def mergeBatches (bs : List (Nat × List Nat)) : List (Nat × List Nat) :=
  let sorted := sortBy (·.1) bs.eraseDups
  let extra := sorted.length - 8
  if extra = 0 then sorted
  else
    let old := sorted.take (extra + 1)
    ((old.map (·.1)).headD 0, (old.flatMap (·.2)).eraseDups) :: sorted.drop (extra + 1)

/-- The fused strand of parked siblings (R101), its rows already written. mixed lists the registers that become G. -/
def fuseUnits (base keep : SUnit) (sibs : List SUnit) (n : Nat) (mixed : List Nat) : SUnit :=
  let holds (r i : Nat) : Bool := sibs.any (fun x => x.holdsItem i && (x.preg r).holds i (i - x.lo))
  let v1 := Kv.keep (fun k => decide (k < n)) keep.v
  { keep with
    mask := sibs.foldl (fun m x => m ||| x.mask) 0
    v := mixed.foldl (fun v r => Kv.set (.u 0) v r .g) v1
    p := (List.range 7).foldl (fun p r => Kv.set (.u false) p r (.g (laneMask (fun j => holds r (keep.lo + j))))) []
    k := base.k, rstack := base.rstack, inl := base.inl, nest := base.nest, trapFrames := base.trapFrames
    x := (List.range 4).foldl (fun xs r =>
      Kv.set XAcc.zero xs r (sibs.foldl (fun a y => a.merge (y.xreg r)) XAcc.zero)) []
    duties := (sibs.flatMap (·.duties)).eraseDups
    closed := mergeBatches (sibs.flatMap (·.closed))
    openB := (sibs.flatMap (·.openB)).eraseDups
    qfens := (sibs.flatMap (·.qfens)).eraseDups
    sstack := keep.sstack.drop 1, wait := .none, slot := keep.slot }

/-- Control values of a fused strand that the spec does not name: those of one of the siblings (assumption log 10). -/
def SUnit.controls (u v : SUnit) : SUnit :=
  { u with fmode := v.fmode, fmodeNext := v.fmodeNext, nestmax := v.nestmax, tcause := v.tcause, tpc := v.tpc, tval := v.tval
           asyncTrap := v.asyncTrap }

/-- Whether two units agree in those values. -/
def SUnit.sameControls (u v : SUnit) : Bool :=
  u.fmode == v.fmode && u.nestmax == v.nestmax && u.tcause == v.tcause && u.tpc == v.tpc && u.tval == v.tval
    && u.asyncTrap == v.asyncTrap

/-- Write the U and A values of the siblings into the rows of the registers that become G (R101). -/
def State.writeMixed (s : State) (g : Group) (w core : Nat) (sibs : List SUnit) : List Nat → State
  | [] => s
  | r :: rs =>
    let used : List Nat := g.rowMap.filterMap (fun e => e.2)
    let place : Option Nat := match g.rowOf w r with
      | some k => some k
      | none => g.rows.find? (fun k => k / 2048 == core && !used.contains k)
    match place with
    | none => s.writeMixed g w core sibs rs
    | some k =>
      let old := s.row k
      let ws := (List.range 64).map (fun j =>
        match sibs.find? (fun x => x.mask.getLsbD j) with
        | some x => s.vAt x r (x.lo + j)
        | none => old.getD j 0)
      let g1 := { g with rowMap := Kv.set none g.rowMap (w * 128 + r) (some k) }
      ((s.setRow k ws).updGroup g.id (fun g => { g with rowMap := g1.rowMap })).writeMixed g1 w core sibs rs

/-- Fuse siblings that have all parked at one JOIN (R101, R102): GREGS in the sibling of the lowest slot where rows lack. -/
def State.fuse (s : State) (sibs : List SUnit) (at_ : W64) (n : Nat) : State :=
  match lowestSlot sibs, lowestUnit sibs with
  | some keep, some base =>
    match s.groupOf keep with
    | none => s
    | some g =>
      let w := keep.window g
      let mixed := (List.range n).filter (fun r => sibs.any (fun x => x.vreg r != keep.vreg r) || keep.vIsG r)
      let outside := s.units.filter (fun x => x.group == keep.group && x.isStrand && x.lo == keep.lo && !(sibs.any (·.id == x.id)))
      let leave (r : Nat) : Bool := decide (n ≤ r) && !(outside.any (fun x => x.vIsG r))
      let mappedRegs := g.rowMap.filterMap (fun e => if e.1 / 128 = w then some (e.1 % 128) else none)
      let stay := mappedRegs.filter (fun r => !leave r)
      let need := mixed.filter (fun r => !stay.contains r)
      if g.gregs < stay.length + need.length then
        s.takeTrap { keep with wait := .none } causeGregs at_ (BitVec.ofNat 64 (need.headD 0)) keep.pc false
      else
        let g1 := { g with rowMap := Kv.keep (fun k => !(k / 128 == w && leave (k % 128))) g.rowMap }
        let s1 := (s.updGroup g.id (fun g => { g with rowMap := g1.rowMap })).writeMixed g1 w keep.core sibs mixed
        let fused := fuseUnits base keep sibs n mixed
        let (pick, s2) := if sibs.all (fun x => x.sameControls keep) then (0, s1) else s1.draw
        let chosen := if sibs.all (fun x => x.sameControls keep) then keep else sibs.getD (Config.freePick pick % sibs.length) keep
        let others := (sibs.map (·.id)).filter (· != keep.id)
        let s3 : State := others.foldl (fun (s : State) i => (s.retarget i [keep.id]).removeUnit i) s2
        let s4 : State := { s3 with pend := s3.pend.map (fun (o : PendOp) => { o with targets := o.targets.eraseDups }) }
        ((s4.putUnit (fused.controls chosen)).recoverUnit keep.id n).settleDuties
  | _, _ => s

/-- The JOIN a unit is parked at. -/
def SUnit.parkedAt (u : SUnit) : Option (W64 × Nat) := match u.wait with
  | .join a n => some (a, n)
  | _ => none

/-- Whether a result that would change every item of a unit is still to land in it: of an instruction of its own items alone (R99). -/
def State.owesWhole (s : State) (u : SUnit) : Bool :=
  s.pend.any (fun o => o.targets.contains u.id && o.writes.any (fun w => match w with | .vg _ _ _ _ => false | _ => true))

/-- Fuse the siblings of a split when every one of them has parked at one address (R101), once the results that their instructions gave to
whole registers have landed, so that they change no other sibling's items (R99, assumption log 20). -/
def State.settleSplit (s : State) (split : Nat) : State :=
  match s.siblings split with
  | [] => s
  | x :: xs =>
    match x.parkedAt with
    | none => s
    | some (a, n) =>
      if (x :: xs).all (fun y => y.kind == .strand && y.parkedAt == some (a, n) && (xs.isEmpty || !s.owesWhole y)) then s.fuse (x :: xs) a n else s

/-- Whether a deferred side may run (R100, R340): every other unit of its split is parked at a JOIN of that split, or is a deferred side of it
too. -/
def State.sideReady (s : State) (d : SUnit) : Bool :=
  d.kind == .deferred && (match d.sstack.head? with
    | none => false
    | some sp => s.units.all (fun y => y.id == d.id || !y.sstack.contains sp
        || (y.sstack.head? == some sp && (y.kind == .deferred || y.parkedAt.isSome))))

/-- The slot that a strand gives up: it has parked, or it has gone and its slot was not taken over. -/
def State.slotLeft (s : State) (x : SUnit) : Option Nat := match s.unit? x.id with
  | some y => if y.parkedAt.isSome then y.slot else none
  | none => x.slot.bind (fun k => if s.units.any (fun y => y.slot == some k) then none else some k)

/-- The slot of a strand that has parked or exited goes to a strand of its group that runs without one, or to a deferred side (R100). -/
def State.lendSlot (s : State) (x : SUnit) : State :=
  match s.slotLeft x with
  | none => s
  | some k =>
    let mine := s.units.filter (fun y => y.group == x.group && y.core == x.core)
    let bare (y : SUnit) : Bool := y.kind != .deferred && y.slot.isNone && y.parkedAt.isNone
    match lowestUnit (mine.filter bare) <|> lowestUnit (mine.filter s.sideReady) with
    | none => s
    | some d =>
      (s.updUnit x.id (fun x => { x with slot := none })).updUnit d.id (fun d =>
        { d with kind := if d.kind = .deferred then .strand else d.kind, slot := some k })

/-- After a strand has parked, exited or become a span: each split it stood in may be ready to fuse, and its slot may be free for another
side. -/
def State.afterSide (s : State) (x : SUnit) : State := (x.sstack.foldl (fun s sp => s.settleSplit sp) s).lendSlot x

/-- Whether a span has a neighbour's image (R103). -/
def SUnit.joins (a b : SUnit) : Bool :=
  { b with id := a.id, slot := a.slot, lo := a.lo, cnt := a.cnt, turn := a.turn, clause := a.clause } == a

/-- Whether a register result is still to land in a unit. -/
def State.owesResult (s : State) (u : SUnit) : Bool := s.pend.any (fun o => o.targets.contains u.id && !o.writes.isEmpty)

/-- Re-join a span after a JOIN with a neighbour that stands before the next clause (R103): none while a result is still to land in one of them,
which is of its items alone. -/
def State.rejoin (s : State) (u : SUnit) : State :=
  match s.unit? u.id with
  | none => s
  | some a =>
    let busy := s.issue.map (·.unit)
    match s.units.find? (fun b => b.id != a.id && !b.isStrand && !busy.contains b.id && a.duties.isEmpty && a.joins b && !s.owesResult a && !s.owesResult b
        && (a.lo + a.cnt == b.lo || b.lo + b.cnt == a.lo) && (a.group.isSome || a.kind == .undealt)) with
    | none => s
    | some b =>
      let (l, h) := if a.lo < b.lo then (a, b) else (b, a)
      ((s.retarget h.id [l.id]).removeUnit h.id).updUnit l.id (fun l => { l with cnt := l.cnt + h.cnt })

/-- JOIN (R101-R103, R343). A strand whose siblings have all gone fuses as one of R101 (assumption log 20). -/
def execJoin (f : FmtB) (s : State) : Host.Outcome State Fault Refusal :=
  s.runClosing (fun s i u =>
    let n := f.aux7.toNat
    let next (x : SUnit) : SUnit := { x.closeClause with pc := i.nextClause, origin := none }
    if !u.isStrand then .jump ((s.updUnit u.id next).rejoin u)
    else if u.sstack.isEmpty then .jump ((s.updUnit u.id next).recoverUnit u.id n)
    else .jump ((s.updUnit u.id (fun x => { next x with wait := .join i.wordAddr n })).afterSide u))

end Sys2Proof.Machine
end

