-- ==== Sys2Proof/Machine/Ctl.lean ====
section
/-! DEFINITION. The CTL class but for JOIN and SPAWN (R337-R347): conditional transfers and the splits they make (R75, R98-R100,
R338, R340), calls and returns (R341), EXIT (R76, R79, R342), regions, traps, BRK, the special registers (R269). -/

namespace Sys2Proof.Machine

/-- What a condition does to a span (R75). -/
inductive SpanCond where
  | all | nothing | below (t : Nat) | above (t : Nat) | general
  deriving DecidableEq, Repr

/-- The condition of a span over its items (R75). -/
def SUnit.spanCond (u : SUnit) (p : PReg) : SpanCond :=
  let hi := u.lo + u.cnt
  match p with
  | .u true => .all
  | .u false => .nothing
  | .lt t => if t ≤ u.lo then .nothing else if hi ≤ t then .all else .below t
  | .ge t => if t ≤ u.lo then .all else if hi ≤ t then .nothing else .above t
  | .g _ => .general

/-- A unit that falls through to the clause after this one (R255). -/
def SUnit.fallTo (u : SUnit) (next : W64) : SUnit := { u.closeClause with pc := next, origin := none }

/-- A unit that transfers (R258). -/
def SUnit.goTo (u : SUnit) (i : Issue) (target : W64) : SUnit :=
  { u.closeClause with pc := target, origin := some { word := i.wordAddr, next := i.nextClause, rstack := u.rstack, nest := u.nest, inl := u.inl, clause := u.clause } }

/-- A unit that calls (R341). -/
def SUnit.callTo (u : SUnit) (i : Issue) (target : W64) : SUnit :=
  { u.goTo i target with rstack := i.nextClause :: u.rstack, nest := u.nest + 1 }

/-- Cut a span at item t (R75): the lower piece keeps the slot, the upper takes slot k. -/
def State.cutSpan (s : State) (u : SUnit) (t k : Nat) : State × Nat :=
  let id := s.nextId
  let s1 := s.addPiece u (fun p => { p with lo := t, cnt := u.lo + u.cnt - t, slot := some k, pcSlot := none })
  (s1.updUnit u.id (fun x => { x with cnt := t - u.lo }), id)

/-- Split a strand into a side that stays and sides that leave (R98, R340): the identifiers of the sides that leave. With no
side that stays, the first keeps the slot. -/
def State.strandSplit (s : State) (u : SUnit) (stay : BitVec 64) (sides : List (BitVec 64)) : State × List Nat :=
  let side (m : BitVec 64) : SUnit := { u.closeClause with mask := m }
  let before := s.units.map (·.id)
  let mk (keep : BitVec 64) (rest : List (BitVec 64)) : State × List Nat :=
    let s1 := s.split u (side keep) (rest.map side)
    (s1, (s1.units.map (·.id)).filter (fun i => !before.contains i))
  if stay ≠ 0 then mk stay sides
  else match sides with
    | [] => (s, [])
    | m :: ms =>
      let r := mk m ms
      (r.1, u.id :: r.2)

/-- Whether a split of a strand finds its split stack full (R100). -/
def SUnit.splitFull (u : SUnit) : Bool := decide (32 ≤ u.sstack.length)

/-- A conditional transfer (R338, R75): the items for which the condition holds take it, the others fall through. -/
def State.condTransfer (s : State) (i : Issue) (u : SUnit) (cond : PReg) (take : State → Nat → State) : Res :=
  let fall (s : State) (id : Nat) : State := s.updUnit id (fun x => x.fallTo i.nextClause)
  if u.isStrand then
    let t := (u.guardOf cond).mask
    if t = 0 then .done s
    else if t = u.mask then .jump (take s u.id)
    else if u.splitFull then .trap s causeDiverge 0
    else
      let (s1, ids) := s.strandSplit u (u.mask &&& ~~~t) [t]
      .jump (fall (ids.foldl take s1) u.id)
  else match u.spanCond cond with
    | .all => .jump (take s u.id)
    | .nothing => .done s
    | .general => .needG s
    | .below t =>
      let room := u.kind != .undealt || decide ((s.undealt u.launch).length < 64)
      match (if room then s.freeSlot u.core else none) with
      | none => .needG s
      | some k =>
        let (s1, id) := s.cutSpan u t k
        .jump (fall (take s1 u.id) id)
    | .above t =>
      let room := u.kind != .undealt || decide ((s.undealt u.launch).length < 64)
      match (if room then s.freeSlot u.core else none) with
      | none => .needG s
      | some k =>
        let (s1, id) := s.cutSpan u t k
        .jump (fall (take s1 id) u.id)

/-- The target of a B-format word (R258). -/
def Issue.target (i : Issue) (f : FmtB) : W64 := i.hdrAddr + 8 * f.target.signExtend 64

/-- BRA (R338). -/
def execBra (f : FmtB) (s : State) : Host.Outcome State Fault Refusal :=
  s.runWord (fun s i u =>
    s.condTransfer i u (u.predOf f.pred f.pneg) (fun s id => s.updUnit id (fun x => x.goTo i (i.target f))))

/-- BRP (R339). -/
def execBrp (f : FmtB) (s : State) : Host.Outcome State Fault Refusal :=
  s.runWord (fun s i u =>
    let g := u.guard f.pred f.pneg
    let p := u.preg f.a.toNat
    let votes := (u.active g).map (fun k => p.holds k (k - u.lo))
    if brpTaken f.sub.toNat votes then .jump (s.updUnit u.id (fun x => x.goTo i (i.target f))) else .done s)

/-- Whether a call finds no room (R341). -/
def SUnit.callOver (u : SUnit) (entries : Nat) : Bool := decide (u.nestmax ≤ u.nest) || decide (32 < u.rstack.length + entries)

/-- CALL (R341): a span is dealt and materialised first. -/
def execCall (f : FmtB) (s : State) : Host.Outcome State Fault Refusal :=
  s.runClosing (fun s i u =>
    let cond := u.predOf f.pred f.pneg
    if !u.anyActive (u.guardOf cond) then .done s
    else if !u.isStrand then .needG s
    else if u.callOver 1 then .trap s causeStackover (BitVec.ofNat 64 u.nest)
    else s.condTransfer i u cond (fun s id => s.updUnit id (fun x => x.callTo i (i.target f))))

/-- The distinct targets of a strand's taken items, each with its items, by ascending lowest item (R340). -/
def State.targetsOf (s : State) (u : SUnit) (r : Nat) (lanes : List Nat) : List (W64 × BitVec 64) :=
  let ts := (lanes.map (fun j => s.wAt u r (u.lo + j))).eraseDups
  ts.map (fun t => (t, laneMask (fun j => lanes.contains j && s.wAt u r (u.lo + j) == t)))

/-- CALLI and JMPI in a strand (R340). -/
def State.indirect (s : State) (i : Issue) (u : SUnit) (cond : PReg) (r : Nat) (go : SUnit → W64 → SUnit) : Res :=
  let t := (u.guardOf cond).mask
  let sides := s.targetsOf u r (lanesOf t)
  let stay := u.mask &&& ~~~t
  match sides with
  | [] => .done s
  | [(a, m)] =>
    if m = u.mask then .jump (s.updUnit u.id (fun x => go x a))
    else if u.splitFull then .trap s causeDiverge 0
    else
      let (s1, ids) := s.strandSplit u stay [m]
      .jump (((ids.foldl (fun s id => s.updUnit id (fun x => go x a)) s1)).updUnit u.id (fun x => x.fallTo i.nextClause))
  | _ =>
    if u.splitFull then .trap s causeDiverge 0
    else
      let (s1, ids) := s.strandSplit u stay (sides.map (·.2))
      let s2 := (ids.zip sides).foldl (fun s p => s.updUnit p.1 (fun x => go x p.2.1)) s1
      .jump (if stay = 0 then s2 else s2.updUnit u.id (fun x => x.fallTo i.nextClause))

/-- CALLI (R340, R341). -/
def execCalli (f : FmtB) (s : State) : Host.Outcome State Fault Refusal :=
  s.runClosing (fun s i u =>
    let cond := u.predOf f.pred f.pneg
    if !u.anyActive (u.guardOf cond) then .done s
    else if !u.isStrand then .needG s
    else if u.callOver 1 then .trap s causeStackover (BitVec.ofNat 64 u.nest)
    else s.indirect i u cond f.a.toNat (fun x a => x.callTo i a))

/-- JMPI (R340): a span transfers on a U target. -/
def execJmpi (f : FmtB) (s : State) : Host.Outcome State Fault Refusal :=
  s.runWord (fun s i u =>
    let cond := u.predOf f.pred f.pneg
    if u.isStrand then s.indirect i u cond f.a.toNat (fun x a => x.goTo i a)
    else if u.spanCond cond = .nothing then .done s
    else if !u.wIsU f.a.toNat then .needG s
    else
      let a := s.wAt u f.a.toNat u.lo
      s.condTransfer i u cond (fun s id => s.updUnit id (fun x => x.goTo i a)))

/-- Items of a unit leave its group, or its launch before dealing (R79); their stores are published (R141). -/
def State.retireItems (s : State) (u : SUnit) (items : List Nat) : State :=
  let s1 := s.publish u.core 3
  match s1.groupOf u with
  | some g => s1.updGroup g.id (fun g => { g with exited := items.foldl (fun m k => m ||| 2 ^ (k - g.base)) g.exited })
  | none => s1.updLaunch u.launch (fun l => { l with exited := l.exited ++ [(u.lo, u.lo + u.cnt)] })

/-- Every item of a unit exits (R76, R79, R342). -/
def State.exitUnit (s : State) (id : Nat) : State :=
  match s.unit? id with
  | none => s
  | some u =>
    let s1 := (s.retireItems u (if u.kind = .undealt then [] else u.items)).removeUnit id
    if u.kind = .undealt then s1.checkDrained u.launch
    else
      let w := match s.groupOf u with | some g => u.window g | none => 0
      let s2 := if u.isStrand then s1.releaseWindow u.group w else s1
      s2.afterSide u

/-- An inline call ends (R88, R342, R344): 2 goes to the items, and the unit resumes SPAWN's clause at the slot after it. -/
def State.inlineReturn (s : State) (id : Nat) : State :=
  match s.unit? id with
  | none => s
  | some u =>
    match u.inl with
    | [] => s
    | r :: rest =>
      let depth := r.depth - 2
      let u1 := { u with rstack := u.rstack.drop (u.rstack.length - depth), nest := r.nest, inl := rest, pc := r.hdr
                         origin := none, pcSlot := if r.slot = 0 then none else some r.slot, clause := r.clause
                         trapFrames := u.trapFrames.filter (fun t => decide (t.1 ≤ depth)) }
      let u1 := if r.slot = 0 then u1.closeClause else u1
      match (s.putUnit u1).ensureRows u1 [r.reg] with
      | .ok (s1, u2) => s1.writeLanes u2 r.reg u2.mask (List.replicate 64 2)
      | .error _ => s.putUnit { u1 with asyncTrap := some { cause := causeGregs, tpc := r.hdr, tval := BitVec.ofNat 64 r.reg, next := r.hdr, global := false } }

/-- EXIT (R338, R342, R76, R79): a transfer whose items, once split off, retire. -/
def execExit (f : FmtB) (s : State) : Host.Outcome State Fault Refusal :=
  s.runClosing (fun s i u =>
    let cond := u.predOf f.pred f.pneg
    if u.inl.isEmpty then s.condTransfer i u cond (fun s id => s.exitUnit id)
    else s.condTransfer i u cond (fun s id => (s.updUnit id SUnit.closeClause).inlineReturn id))

/-- RET (R341, R225). -/
def execRet (_f : FmtB) (s : State) : Host.Outcome State Fault Refusal :=
  s.runClosing (fun s i u =>
    match u.rstack with
    | [] => .jump (s.exitUnit u.id)
    | top :: rest =>
      let depth := u.rstack.length
      if u.inl.head?.map (·.depth) = some depth then .jump ((s.updUnit u.id SUnit.closeClause).inlineReturn u.id)
      else match u.trapFrames with
        | (d, global) :: frames =>
          if d = depth then
            (if u.tcause = 0 then
              .jump (s.updUnit u.id (fun x => { x.fallTo top with rstack := rest, nest := x.nest - 1, trapFrames := frames }))
            else .jump (s.faultUnit u u.tcause (faultAddress u.tcause global u.tval)))
          else .jump (s.updUnit u.id (fun x => { x.goTo i top with rstack := rest, nest := x.nest - 1 }))
        | [] => .jump (s.updUnit u.id (fun x => { x.goTo i top with rstack := rest, nest := x.nest - 1 })))

/-- REGION (R215): the next clause, once every pip is clear, is the entry. -/
def execRegion (f : FmtB) (s : State) : Host.Outcome State Fault Refusal :=
  s.runClosing (fun s i u =>
    .jump (s.updUnit u.id (fun x => { x.fallTo i.nextClause with region := some { n := f.aux7.toNat, entry := i.nextClause, since := s.nextId }
                                                                 wait := .pipw 0xFFF })))

/-- NOP (R346). -/
def execNop (_f : FmtS) (s : State) : Host.Outcome State Fault Refusal := s.runWord (fun s _ _ => .done s)

/-- YIELD (R346): 0 goes to the back of the round robin, another count waits for YIELD_EXPIRE. -/
def execYield (f : FmtS) (s : State) : Host.Outcome State Fault Refusal :=
  s.runWord (fun s i u =>
    .jump (s.updUnit u.id (fun x => { x.fallTo i.nextClause with wait := if f.imm = 0 then .none else .yield })))

/-- TRAP (R346). -/
def execTrap (f : FmtS) (s : State) : Host.Outcome State Fault Refusal :=
  s.runClosing (fun s _ u =>
    if u.anyActive (u.guard f.pred f.pneg) then .trap s (causeTrap ||| f.sreg.setWidth 32 <<< 16) (f.imm.setWidth 64) else .done s)

/-- The queues of a context that leaves RUNNING are HALTED (R52, R212). -/
def State.haltQueues (s : State) (c : Nat) : State :=
  let live (q : HostQueue) : Bool := q.ctx == c && q.state != .halted && q.state != .dead
  { s with hqs := updWhere live (fun q => { q with back := q.state, state := .halted }) s.hqs }

/-- A RUNNING context begins to suspend (R212). -/
def State.suspendCtx (s : State) (c : Nat) : State :=
  match s.ctx? c with
  | some x => if x.state = CtxState.running then (s.updCtx c (fun x => { x with state := .suspending })).haltQueues c else s
  | none => s

/-- The context-event vector of a context (R210, R214). -/
def State.raiseEvent (s : State) (c : Nat) : State :=
  match (s.ctx? c).bind (·.paging) with
  | some p => s.raise p.evVec
  | none => s

/-- BRK (R346, R214): the first one committed sets CAUSE, also in a context that a SUSPEND or a RESIZE is suspending. -/
def execBrk (f : FmtS) (s : State) : Host.Outcome State Fault Refusal :=
  s.runClosing (fun s i u =>
    if !u.anyActive (u.guard f.pred f.pneg) then .done s
    else
      let c := s.ctxOf u
      let s1 := match s.ctx? c with
        | some x =>
          if x.broke || !(x.state == CtxState.running || x.state == CtxState.suspending) then s
          else
            let s1 := s.updCtx c (fun x => { x with cause := causeBrk ||| f.sreg.setWidth 32 <<< 16, tpc := i.wordAddr, tval := 0, broke := true })
            (if x.state = CtxState.running then s1.suspendCtx c else s1).raiseEvent c
        | none => s
      .jump (s1.updUnit u.id (fun x => x.fallTo i.nextClause)))

/-- DEAL (R77, R345). -/
def execDeal (_f : FmtB) (s : State) : Host.Outcome State Fault Refusal :=
  s.runWord (fun s _ u => if u.kind = .undealt then .needG s else .done s)

/-- %cref of a die (R135, R136). -/
def Die.cref (d : Die) : W32 :=
  let len := if d.hot then 2048 else 4096
  let pos := d.cycle.toNat % len
  BitVec.ofNat 32 ((len - pos) * 0x10000 + (if d.hot then 0x80 else 0) + (if pos < 256 then 0x40 else 0) + (d.cycle.toNat / len) % 64)

/-- The special registers that name a group, a core or a place (R74). -/
def sregPlaced (n : Nat) : Bool := n == 2 || n == 3 || n == 4 || n == 6 || n == 7 || n == 8 || n == 9 || n == 0x14

/-- The value of a special register, U in every case but %item (R269, R341). -/
def State.sregValue (s : State) (u : SUnit) (l : Launch) (n : Nat) : W64 :=
  let g := s.groupOf u
  let inline := !u.inl.isEmpty
  match n with
  | 0x01 => BitVec.ofNat 64 (if inline then 1 else l.count)
  | 0x02 => BitVec.ofNat 64 (match g with | some g => g.gid | none => 0)
  | 0x03 => BitVec.ofNat 64 (match g with | some g => g.base | none => 0)
  | 0x04 => BitVec.ofNat 64 l.size
  | 0x05 => l.num.setWidth 64
  | 0x06 => BitVec.ofNat 64 u.core
  | 0x07 => BitVec.ofNat 64 (pairOf u.core)
  | 0x08 => BitVec.ofNat 64 (clusterOf u.core)
  | 0x09 => BitVec.ofNat 64 (dieOfCore u.core)
  | 0x0A => BitVec.ofNat 64 (match (s.ctx? l.ctx).bind (·.part) with | some p => p | none => 0)
  | 0x0B => BitVec.ofNat 64 l.ctx
  | 0x0C => u.fmode.setWidth 64
  | 0x0D => u.pips.setWidth 64
  | 0x0E => BitVec.ofNat 64 u.nest
  | 0x0F => BitVec.ofNat 64 u.nestmax
  | 0x10 => u.tcause.setWidth 64
  | 0x11 => u.tpc
  | 0x12 => u.tval
  | 0x13 => (s.die (dieOfCore u.core)).cycle
  | 0x14 => (s.die (dieOfCore u.core)).cref.setWidth 64
  | 0x15 => match u.inl with
    | r :: _ => u.rstack.getD (u.rstack.length - r.depth) 0
    | [] => l.args
  | 0x16 => match l.src with
    | .record q _ _ => BitVec.ofNat 64 q
    | .packet _ _ => 0xFFFFFFFF
  | 0x17 => l.tree.setWidth 64
  | _ => 0

/-- RDSR (R347, R74, R97). -/
def execRdsr (f : FmtS) (s : State) : Host.Outcome State Fault Refusal :=
  s.runWord (fun s _ u =>
    let g := u.guard f.pred f.pneg
    let n := f.sreg.toNat
    if !u.anyActive g then .done s
    else if u.kind == .undealt && sregPlaced n then .needG s
    else match s.launchOf u with
      | none => .done s
      | some l =>
        let x := s.sregValue u l n
        if n = 0 then s.writeV u g [(f.d.toNat, if u.inl.isEmpty then .a 0 1 else .u 0)] .done
        else if sregWide f.sreg then s.writeV u g [(f.d.toNat, .u (x.extractLsb' 0 32)), (f.d.toNat + 1, .u (x.extractLsb' 32 32))] .done
        else s.writeV u g [(f.d.toNat, .u (x.extractLsb' 0 32))] .done)

/-- WRSR (R347). -/
def execWrsr (f : FmtS) (s : State) : Host.Outcome State Fault Refusal :=
  s.runClosing (fun s i u =>
    let g := u.guard f.pred f.pneg
    if !u.anyActive g then .done s
    else
      let x := s.vAt u f.a.toNat (u.lowest g)
      match f.sreg.toNat with
      | 0x0C => .done (s.updUnit u.id (fun u => { u with fmodeNext := x.extractLsb' 0 4 }))
      | 0x0F => if 32 < x.toNat then .trap s causeIllins i.wordAddr else .done (s.updUnit u.id (fun u => { u with nestmax := x.toNat }))
      | _ => .done (s.updUnit u.id (fun u => { u with tcause := x })))

/-- FMODE (R347). -/
def execFmode (f : FmtS) (s : State) : Host.Outcome State Fault Refusal :=
  s.runClosing (fun s _ u =>
    if !u.anyActive (u.guard f.pred f.pneg) then .done s
    else
      let m := f.imm.extractLsb' 4 4
      .done (s.updUnit u.id (fun u => { u with fmodeNext := (u.fmodeNext &&& ~~~m) ||| (f.imm.extractLsb' 0 4 &&& m) })))

end Sys2Proof.Machine
end

