-- ==== Sys2Proof/Machine/MemOps.lean ====
section
/-! DEFINITION. The MEM class (R348-R357): loads, stores, atomics, fences and prefetch; and the atomic engines (R129, R130). -/

namespace Sys2Proof.Machine

/-- The sub-operations of ATOM and ATOMS in the order of R289. -/
inductive AtomOp where
  | add | sub | min | max | and | or | xor | xchg | cas | inc | fadd | fadd2 | xam | ld
  deriving DecidableEq, Repr

def AtomOp.code : AtomOp → Nat
  | .add => 0
  | .sub => 1
  | .min => 2
  | .max => 3
  | .and => 4
  | .or => 5
  | .xor => 6
  | .xchg => 7
  | .cas => 8
  | .inc => 9
  | .fadd => 10
  | .fadd2 => 11
  | .xam => 12
  | .ld => 13

/-- The new value of a sub-operation, on values of w bits; none writes nothing (R354). -/
def atomNew (sub : Nat) (t : Ty) (old b c : Nat) : Option Nat :=
  let w := tyBits t
  match sub with
  | 0 => some ((old + b) % 2 ^ w)
  | 1 => some ((old + 2 ^ w - b % 2 ^ w) % 2 ^ w)
  | 2 => some (if intOf (tySigned t) w b < intOf (tySigned t) w old then b else old)
  | 3 => some (if intOf (tySigned t) w old < intOf (tySigned t) w b then b else old)
  | 4 => some (old &&& b)
  | 5 => some (old ||| b)
  | 6 => some (old ^^^ b)
  | 7 => some b
  | 8 => if old = b then some c else none
  | 9 => some (if b ≤ old then 0 else old + 1)
  | 10 => some ((tyFfmt t).add .rne false old b)
  | 11 => some (mapElems t (fun x y _ => (tyFfmt t).add .rne false x y) old b 0)
  | _ => none

/-- Bytes an atomic touches (R354, R355). -/
def atomBytes (sub : Nat) (t : Ty) : Nat := if sub = 12 then 48 else memBytes t

/-- The image after a merge, or the bytes after another sub-operation (R354, R355). -/
def atomBytesAfter (sub : Nat) (t : Ty) (old : List Byte) (b c : W64) (acc : XAcc) : List Byte :=
  if sub = 12 then ((XAcc.ofImage old).merge acc).image
  else match atomNew sub t (natOf old) (b.toNat % 2 ^ tyBits t) (c.toNat % 2 ^ tyBits t) with
    | some x => bytesOf (memBytes t) x
    | none => old

namespace State

/-- A line becomes the most recent of its engine's 64 (R129). -/
def touchHot (s : State) (cluster line : Nat) : State :=
  let mine := (s.hot.filter (fun h => h.1 == cluster && h.2 != line)).take 63
  { s with hot := (cluster, line) :: mine ++ s.hot.filter (fun h => h.1 != cluster) }

/-- The unit of an atomic request's item. -/
def reqUnit (s : State) (r : AtomReq) : Option SUnit :=
  let who := ((s.pend.find? (fun o => o.id == r.op)).map (·.targets)).getD []
  s.units.find? (fun u => who.contains u.id && u.holdsItem r.item)

/-- A request that leaves its engine, with its read of host memory. -/
def dropReq (s : State) (r : AtomReq) : State :=
  { s with atomq := s.atomq.erase r, hostReads := s.hostReads.filter (fun h => some h.op != r.ask) }

/-- A request that meets poisoned data, or whose read of host memory comes back poisoned (R11, R137, R236, R356): nothing is written, its
item keeps its register, and the item's strand traps POISON at its next clause boundary. -/
def poisonReq (s : State) (r : AtomReq) : State :=
  let t : LateTrap := { cause := causePoison, tpc := r.word, tval := r.va, next := r.after, global := true }
  let s1 := match s.reqUnit r with
    | some u => s.updUnit u.id (fun u => { u with asyncTrap := some t })
    | none => s
  let s2 := s1.updPend r.op (fun o => { o with writes := o.writes.map (fun w => match w with
    | .vg d lo m vals => .vg d lo (m &&& ~~~((1 : BitVec 64) <<< r.lane)) vals
    | w => w) })
  (s2.entryDone r.op none r.lane 0).dropReq r

/-- Perform one atomic request on the old bytes of its place, and give its item the old value (R129, R354). -/
def performReq (s : State) (r : AtomReq) (old : List Byte) : State :=
  let s1 := s.touchHot r.cluster (r.pa / 128)
  let new := atomBytesAfter r.sub r.ty old r.data r.data2 r.acc
  let s2 := if new = old then s1 else s1.writeHome (.pair 0) r.pa new
  (s2.entryDone r.op r.reg r.lane (if r.sub = 12 then 0 else BitVec.ofNat 64 (natOf old))).dropReq r

/-- The answer to a request's read of memory beyond the host links (R356). -/
def reqAnswer (s : State) (r : AtomReq) : Option (Bool × List Byte) :=
  r.ask.bind (fun op => (s.hostReads.find? (fun h => h.op == op)).bind (·.answer))

/-- A request reads its place over a host link (R356). -/
def askReq (s : State) (r : AtomReq) (n : Nat) : State :=
  if r.ask.isSome then s
  else
    let (id, s1) := s.fresh
    { s1 with atomq := updWhere (· == r) (fun r => { r with ask := some id }) s1.atomq
              hostReads := s1.hostReads ++ [{ op := id, unit := 0, pa := r.pa, bytes := n, answer := none }] }

/-- A home engine takes up a request (R129, R250): in host and third-tier memory it reads the old value over a link first (R356). -/
def serveReq (s : State) (r : AtomReq) : State :=
  let n := atomBytes r.sub r.ty
  if s.halted r.cluster then s
  else match s.reqAnswer r with
    | some (true, data) => s.performReq r data
    | some (false, _) => s.poisonReq r
    | none =>
      if s.poisonedAt r.pa n then (s.poisonReq r).countLost r.pa
      else if s.overLink r.pa then s.askReq r n
      else s.performReq r (Kv.getRun memDefault s.mem (s.place r.pa) n)

/-- Serve requests in their order, up to one whose answer has not come. -/
def serveReqs (s : State) : List AtomReq → State
  | [] => s
  | r :: rs =>
    let t := s.serveReq r
    if t.atomq.length < s.atomq.length then t.serveReqs rs else t

/-- Serve the requests that wait for a line, oldest first (R130). -/
def serveLine (s : State) (line : Nat) : State := s.serveReqs (s.atomq.filter (fun r => r.pa / 128 == line))

/-- The request that an engine takes up next: the oldest that is the first of its line and waits for no answer (R130, R356). -/
def nextReq (s : State) (cluster : Nat) : Option AtomReq :=
  s.atomq.find? (fun r => r.cluster == cluster && s.atomq.find? (fun x => x.pa / 128 == r.pa / 128) == some r
    && (r.ask.isNone || (s.reqAnswer r).isSome))

/-- Serve the lines of several places. -/
def serveLines (s : State) (pas : List Nat) : State :=
  if s.atomq.isEmpty then s else ((pas.map (· / 128)).eraseDups).foldl (fun s l => s.serveLine l) s

/-- The lines of several places at which an atomic still waits for the host's answer (R356). -/
def hostLines (s : State) (pas : List Nat) : List Nat :=
  if s.atomq.isEmpty then []
  else ((pas.map (· / 128)).eraseDups).filter (fun l => s.atomq.any (fun r => s.overLink r.pa && r.pa / 128 == l))

/-- A unit waits for the atomics of lines (R356). -/
def waitLines (s : State) (u : SUnit) (lines : List Nat) : State := s.updUnit u.id (fun u => { u with wait := .host lines })

/-- The places of the atomics of a core that still wait. -/
def coreAtoms (s : State) (core : Nat) : List Nat := (s.atomq.filter (fun r => r.source == core)).map (·.pa)

/-- Send a core's dirty bytes of several lines home. -/
def evictLines (s : State) (core : Nat) (pas : List Nat) : State :=
  ((pas.map (· / 128)).eraseDups).foldl (fun s l => s.evictLine core l) s

end State

/-- The register values of a load's items. -/
def laneValues (u : SUnit) (vals : List (Nat × W64)) (high : Bool) : List W32 :=
  (List.range 64).map (fun j => match vals.find? (fun v => v.1 == u.lo + j) with
    | some v => if high then v.2.extractLsb' 32 32 else v.2.extractLsb' 0 32
    | none => 0)

/-- The writes of a load or atomic result: U with a U address, otherwise a value for each item (R351, R354). -/
def loadParts (u : SUnit) (wide isU : Bool) (d : Nat) (vals : List (Nat × W64)) : List (Nat × Rv) :=
  let x : W64 := (vals.head?.map (·.2)).getD 0
  let mk (high : Bool) : Rv :=
    if isU then .u (if high then x.extractLsb' 32 32 else x.extractLsb' 0 32) else .g (laneValues u vals high)
  if wide then [(d, mk false), (d + 1, mk true)] else [(d, mk false)]

/-- The registers a load of a type writes. -/
def loadRegs (t : Ty) (d : BitVec 7) : List Nat := if t.wide then [d.toNat, d.toNat + 1] else [d.toNat]

/-- What a byte was before a store that some item of the core need not see yet (R145, R146), while the L1 holds the store. -/
def State.unseenByte (s : State) (core pa : Nat) : Option OldByte :=
  if (Kv.get none s.l1 (core * paSpace + pa)).isSome then Kv.get none s.unseen (core * paSpace + pa) else none

/-- Whether a load of a unit sees a store that another item need not: mine tells its own items. -/
def SUnit.sees (u : SUnit) (mine : Nat → Bool) (x : OldByte) : Bool := x.launch == u.launch && mine x.item

/-- For each byte that a load reads and some item need not see yet, whether this load sees it: its items made the store (R139), or the bytes
come from the host's answer or a weave page. mine tells the items of a place's read. -/
def State.sights (s : State) (u : SUnit) (mine : Nat → Nat → Bool) (n : Nat) (ps : List (Nat × Nat × Nat × Leaf)) : List Bool :=
  ps.flatMap (fun p => (List.range n).filterMap (fun b => (s.unseenByte u.core (p.2.2.1 + b)).map (fun x =>
    s.inHost p || pteWeave p.2.2.2.pte != 0 || u.sees (mine p.1) x)))

/-- Whether a load reads the old bytes where it need not see a store, a free choice for the whole load, and the machine after it. Once a store
is seen, no later load of the core goes back (R147): then all its stores are seen. -/
def State.lookBack (s : State) (u : SUnit) (mine : Nat → Nat → Bool) (n : Nat) (ps : List (Nat × Nat × Nat × Leaf)) : Bool × State :=
  match s.sights u mine n ps with
  | [] => (false, s)
  | sights =>
    if sights.all id then (false, s.seeStores u.core)
    else
      let (k, s1) := s.draw
      if !Config.freeBit k then (false, s1.seeStores u.core)
      else (true, if sights.any id then s1.seeStores u.core else s1)

/-- A byte as it lies beneath a core's L1 (R125). -/
def State.beneath (s : State) (core pa : Nat) : Byte := (Kv.get none s.l2 (clusterOf core * paSpace + pa)).getD (s.homeByte pa)

/-- The bytes that a load of a page reads: back tells that it reads the old ones where it need not see a store. -/
def State.loadBytes (s : State) (u : SUnit) (back : Bool) (mine : Nat → Bool) (l : Leaf) (va n : Nat) : List Byte :=
  let new := s.readVa (.core u.core) (u.fmode.getLsbD 2) l va n
  if !back || pteWeave l.pte != 0 then new
  else new.zipIdx.map (fun b => match s.unseenByte u.core (l.pa va + b.2) with
    | some x => if u.sees mine x then b.1 else x.old.getD (s.beneath u.core (l.pa va + b.2))
    | none => b.1)

/-- The bytes that a load reads at a place: those of its page, or the answer of the host with what the core and its cluster hold of it over it (R11,
R125). -/
def State.placeBytes (s : State) (u : SUnit) (back : Bool) (mine : Nat → Bool) (n : Nat) (p : Nat × Nat × Nat × Leaf) : List Byte :=
  match (if s.inHost p then s.hostAnswer u p.2.2.1 n else none) with
  | some (_, data) => data.zipIdx.map (fun b => s.overHome u.core (p.2.2.1 + b.2) b.1)
  | none => s.loadBytes u back mine p.2.2.2 p.2.1 n

/-- The items for which a load reads a place: all its active items at once, or one. -/
def SUnit.readers (u : SUnit) (g : Guard) (one : Bool) (k item : Nat) : Bool := if one then u.acts g item else item == k

/-- LD (R349-R351). -/
def execLd (f : FmtM) (s : State) : Host.Outcome State Fault Refusal :=
  s.runWord (fun s i u =>
    let g := u.guard f.pred f.pneg
    let isU := u.addrIsU f false true
    let n := memBytes f.ty
    if !u.anyActive g then .done s
    else if !isU && !u.isStrand then .needG s
    else match u.regionHit (loadRegs f.ty f.d) [] with
      | some t => .trap s causeRegionwrite t
      | none =>
        let items := if isU then [u.lowest g] else u.active g
        match s.checkItems (.core u.core) (s.ctxOf u) .read n n false (items.map (fun k => (k, s.gaddr u f true k))) with
        | (.inl c, s1) => s1.chkRes i u .read c
        | (.inr ps, s1) =>
          match s1.poisonPlace n ps with
          | some p => .trap (s1.countLost p.2.2.1) causePoison (BitVec.ofNat 64 p.2.1) true
          | none =>
            let pas := ps.map (·.2.2.1)
            let s2 := s1.serveLines pas
            let lines := s2.hostLines pas
            if !lines.isEmpty then .stay (s2.waitLines u lines)
            else
              let s3 := if 2 ≤ f.scope.toNat then s2.evictLines u.core pas else s2
              match s3.askHost u n ps with
              | some s4 => .stay s4
              | none =>
                match ps.find? (fun p => s3.hostTurnsAway u n p) with
                | some p => .trap (s3.forgetHost u) causePoison (BitVec.ofNat 64 p.2.1) true
                | none =>
                  let (back, s4) := s3.lookBack u (u.readers g isU) n ps
                  let vals := ps.map (fun p => (p.1, loadValue f.ty (natOf (s3.placeBytes u back (u.readers g isU p.1) n p))))
                  s4.deferV u g true .ready (loadParts u f.ty.wide isU f.d.toNat vals) (fun _ s => .done (s.forgetHost u)))

/-- The data of a store for an item (R349). -/
def State.storeBytes (s : State) (u : SUnit) (t : Ty) (d item : Nat) : List Byte :=
  bytesOf (memBytes t) (if t.wide then (s.wAt u d item).toNat else (s.vAt u d item).toNat)

/-- Whether the data register of a store is U. -/
def SUnit.dataIsU (u : SUnit) (t : Ty) (d : Nat) : Bool := if t.wide then u.wIsU d else u.vIsU d

/-- Write the checked places of a store: plain pages into the L1, weave pages at home (R125, R170). -/
def State.storePlaces (s : State) (u : SUnit) (t : Ty) (d : Nat) (ps : List (Nat × Nat × Nat × Leaf)) : State :=
  let plain := ps.filter (fun p => pteWeave p.2.2.2.pte == 0)
  let weave := ps.filter (fun p => pteWeave p.2.2.2.pte != 0)
  let s1 := plain.foldl (fun s p => s.writeL1 u.core p.2.2.1 (s.storeBytes u t d p.1)) s
  let s2 := s1.clearLines (plain.flatMap (fun p => (List.range (memBytes t)).map (p.2.2.1 + ·)))
  let leaves := (weave.map (·.2.2.2)).eraseDups
  leaves.foldl (fun s l =>
    let ws := (weave.filter (fun p => p.2.2.2 == l)).flatMap (fun p =>
      let bs := s.storeBytes u t d p.1
      (List.range (memBytes t / 4)).map (fun k => (p.2.1 + 4 * k, BitVec.ofNat 32 (fieldOf bs (4 * k) 4))))
    s.weaveWrite (.core u.core) (Rm.ofFmode u.fmode) (u.fmode.getLsbD 2) l ws) s2

/-- Note, byte by byte, what the L1 held before a store to plain pages (R145, R146): until the store is published or seen, other items of the core may still
read that. Bytes that several items store, and those of a store over one that is not yet seen, make the core's stores seen. -/
def State.noteStores (s : State) (u : SUnit) (sole : Bool) (n : Nat) (ps : List (Nat × Nat × Nat × Leaf)) : State :=
  let bytes := (ps.filter (fun p => pteWeave p.2.2.2.pte == 0)).flatMap (fun p => (List.range n).map (fun b => (p.2.2.1 + b, p.1)))
  let key (b : Nat × Nat) : Nat := u.core * paSpace + b.1
  let s1 := if bytes.any (fun b => (Kv.get none s.unseen (key b)).isSome) then s.seeStores u.core else s
  if !sole || (bytes.map (·.1)).eraseDups.length ≠ bytes.length then s1
  else { s1 with unseen := bytes.foldl (fun m b => Kv.set none m (key b)
    (some { old := Kv.get none s.l1 (key b), launch := u.launch, item := b.2 })) s1.unseen }

/-- ST (R349, R350, R352). -/
def execSt (f : FmtM) (s : State) : Host.Outcome State Fault Refusal :=
  s.runWord (fun s i u =>
    let g := u.guard f.pred f.pneg
    let n := memBytes f.ty
    if !u.anyActive g then .done s
    else
      let one := u.addrIsU f false true && u.dataIsU f.ty f.d.toNat
      let items := if one then [u.lowest g] else u.active g
      match s.checkItems (.core u.core) (s.ctxOf u) .write n n false (items.map (fun k => (k, s.gaddr u f true k))) with
      | (.inl c, s1) => s1.chkRes i u .write c
      | (.inr ps, s1) =>
        let pas := ps.map (·.2.2.1)
        let s2 := s1.serveLines pas
        let lines := s2.hostLines pas
        if !lines.isEmpty then .stay (s2.waitLines u lines)
        else
          let s3 := (s2.noteStores u (!one || u.activeCount g == 1) n ps).storePlaces u f.ty f.d.toNat ps
          .done (if f.order = 2 then s3.publish u.core f.scope.toNat else s3))

/-- The first poisoned pad place. -/
def State.padPoisonPlace (s : State) (n : Nat) (ps : List (Nat × Nat × Nat × Nat)) : Option Nat :=
  (ps.find? (fun p => s.padPoisoned p.2.2.1 p.2.2.2 n)).map (·.2.1)

/-- LDS (R349-R351). -/
def execLds (f : FmtM) (s : State) : Host.Outcome State Fault Refusal :=
  s.runWord (fun s _ u =>
    let g := u.guard f.pred f.pneg
    let isU := u.addrIsU f true true
    let n := memBytes f.ty
    if !u.anyActive g then .done s
    else match s.groupOf u with
      | none => .needG s
      | some gr =>
        if !isU && !u.isStrand then .needG s
        else match u.regionHit (loadRegs f.ty f.d) [] with
          | some t => .trap s causeRegionwrite t
          | none =>
            let items := if isU then [u.lowest g] else u.active g
            match padItems gr u.core n n (items.map (fun k => (k, s.poff u f true k))) with
            | .error e => .trap s e.1 (BitVec.ofNat 64 e.2)
            | .ok ps =>
              match s.padPoisonPlace n ps with
              | some off => .trap s causePoison (BitVec.ofNat 64 off)
              | none =>
                let vals := ps.map (fun p => (p.1, loadValue f.ty (natOf (s.padBytes p.2.2.1 p.2.2.2 n))))
                s.deferV u g true .ready (loadParts u f.ty.wide isU f.d.toNat vals) (fun _ s => .done s))

/-- Pad words wholly covered by the bytes written lose their poison (R137). -/
def State.clearPadWords (s : State) (written : List Nat) : State :=
  if s.poison.padWords.isEmpty then s
  else { s with poison := { s.poison with padWords := s.poison.padWords.filter (fun w =>
    !(List.range 8).all (fun i => written.contains (w * 8 + i))) } }

/-- Bytes that no note of an STS tells of any more. -/
def State.dropNotes (s : State) (keys : List Nat) : State :=
  { s with padNotes := (s.padNotes.map (fun p => { p with keys := p.keys.filter (fun k => !keys.contains k) })).filter (fun p => !p.keys.isEmpty) }

/-- Note the n bytes of each place that an STS of a group has written, of which copies of queues 0 and 1 are unordered (R373). -/
def State.notePads (s : State) (g : Group) (n : Nat) (ps : List (Nat × Nat × Nat × Nat)) : State :=
  ps.foldl (fun s p =>
    let keys := (List.range n).map (State.padKey p.2.2.1 p.2.2.2 + ·)
    { s.dropNotes keys with padNotes := (s.dropNotes keys).padNotes ++ [{ group := g.id, keys := keys, queues := 3, entries := [] }] }) s

/-- The scope of a pad access: in a pair group, core scope covers both cores of the pair (R142), which share a cluster. -/
def Group.padScope (g : Group) (scope : Nat) : Nat := if g.pair then max 1 scope else scope

/-- STS (R349, R350, R352). -/
def execSts (f : FmtM) (s : State) : Host.Outcome State Fault Refusal :=
  s.runWord (fun s _ u =>
    let g := u.guard f.pred f.pneg
    let n := memBytes f.ty
    if !u.anyActive g then .done s
    else match s.groupOf u with
      | none => .needG s
      | some gr =>
        let items := if u.addrIsU f true true && u.dataIsU f.ty f.d.toNat then [u.lowest g] else u.active g
        match padItems gr u.core n n (items.map (fun k => (k, s.poff u f true k))) with
        | .error e => .trap s e.1 (BitVec.ofNat 64 e.2)
        | .ok ps =>
          let s1 := ps.foldl (fun s p => s.writePad p.2.2.1 p.2.2.2 (s.storeBytes u f.ty f.d.toNat p.1)) s
          let s2 := s1.clearPadWords (ps.flatMap (fun p => (List.range n).map (State.padKey p.2.2.1 p.2.2.2 + ·)))
          let s3 := s2.notePads gr n ps
          .done (if f.order = 2 then s3.publish u.core (gr.padScope f.scope.toNat) else s3))

/-- The core's atomics on their way are performed, then the word goes on; where the host has still to answer, the unit waits (R356,
assumption log 5). -/
def State.afterAtoms (s : State) (u : SUnit) (k : State → Res) : Res :=
  let s1 := s.serveLines (s.coreAtoms u.core)
  let lines := s1.hostLines (s1.coreAtoms u.core)
  if lines.isEmpty then k s1 else .stay (s1.waitLines u lines)

/-- PHASE (R357, R141): rel and ar publish the core's stores at the scope; acq and ar come after the core's atomics (assumption log 5). -/
def execPhase (f : FmtM) (s : State) : Host.Outcome State Fault Refusal :=
  s.runWord (fun s _ u =>
    if !u.anyActive (u.guard f.pred f.pneg) then .done s
    else if f.order = 2 then .done (s.publish u.core f.scope.toNat)
    else s.afterAtoms u (fun s => .done (if f.order = 1 then s else s.publish u.core f.scope.toNat)))

/-- The entries of copies in queues 0 and 1 of a group that are not performed (R131). -/
def State.groupCopies (s : State) (g : Nat) : List EngEntry :=
  (s.engq ++ s.copies.filterMap (fun c => match c.owner with | .entry e => some e | .packet .. => none)).filter
    (fun e => e.group == some g && decide (e.queue < 2))

/-- XFENCE puts the pad stores of a group before the copies that it enters later into the queues of a mask (R143, R357, R373); those entered
before stay unordered with them. -/
def State.orderPads (s : State) (g : Option Nat) (m : BitVec 2) : State :=
  let live := match g with | some g => s.groupCopies g | none => []
  let order (p : PadNote) : PadNote :=
    if some p.group != g then p
    else { p with queues := p.queues &&& ~~~m
                  entries := (p.entries.filter (fun x => live.any (fun e => e.id == x)))
                    ++ (live.filter (fun e => (p.queues &&& m).getLsbD e.queue)).map (·.id) }
  { s with padNotes := (s.padNotes.map order).filter (fun p => p.queues != 0 || !p.entries.isEmpty) }

/-- XFENCE (R357, R143): the core's atomics on the way are performed, and its stores published at device scope, at once, so that no later
entry has to wait for it; the pad stores of the unit's group come before later copies of the named queues. -/
def execXfence (f : FmtM) (s : State) : Host.Outcome State Fault Refusal :=
  s.runWord (fun s _ u =>
    if !u.anyActive (u.guard f.pred f.pneg) then .done s
    else s.afterAtoms u (fun s => .done ((s.orderPads u.group (f.offset.extractLsb' 0 2)).publish u.core 3)))

/-- PREF (R357, R97): no effect on values; an address that is not U counts as a G result. -/
def execPref (f : FmtM) (s : State) : Host.Outcome State Fault Refusal :=
  s.runWord (fun s _ u =>
    if !u.anyActive (u.guard f.pred f.pneg) || u.isStrand || u.addrIsU f false true then .done s else .needG s)

/-- The data operands of an atomic for an item (R353). -/
def State.atomData (s : State) (u : SUnit) (op : AtomOp) (t : Ty) (r item : Nat) : W64 × W64 :=
  let one (r : Nat) : W64 := if t.wide then s.wAt u r item else (s.vAt u r item).setWidth 64
  match op with
  | .cas => (one r, one (r + (if t.wide then 2 else 1)))
  | .ld | .xam => (0, 0)
  | _ => (one r, 0)

/-- An acquire is performed at once, so that what follows it comes after what it reads (R143, assumption log 5); the unit waits where the host
has still to answer. -/
def State.acquireNow (s : State) (u : SUnit) (pas : List Nat) : State :=
  let s1 := s.serveLines pas
  let lines := s1.hostLines pas
  if lines.isEmpty then s1 else s1.waitLines u lines

/-- An ATOM (R353-R356): its requests go to the home engines, in ascending item index. -/
def State.runAtom (s : State) (op : AtomOp) (f : FmtM) : Host.Outcome State Fault Refusal :=
  s.runClosing (fun s i u =>
    let g := u.guard f.pred f.pneg
    let xam := op == .xam
    let n := atomBytes op.code f.ty
    if !u.anyActive g then .done s
    else if !u.isStrand then .needG s
    else
      let items := if xam then [u.lowest g] else u.active g
      match s.checkItems (.core u.core) (s.ctxOf u) .both n (if xam then 16 else n) xam (items.map (fun k => (k, s.gaddr u f false k))) with
      | (.inl c, s1) => s1.chkRes i u .both c
      | (.inr ps, s1) =>
        match s1.poisonPlace n ps with
        | some p => .trap (s1.countLost p.2.2.1) causePoison (BitVec.ofNat 64 p.2.1) true
        | none =>
          let s2 := if f.order.getLsbD 1 then s1.publish u.core f.scope.toNat else s1
          let s3 := s2.evictLines u.core (ps.map (·.2.2.1))
          let queue (id : Nat) (s : State) : Res :=
            let s' := { s with atomq := s.atomq ++ ps.map (fun p =>
              let d := s.atomData u op f.ty f.index.toNat p.1
              { op := id, ask := none, word := i.wordAddr, after := i.nextClause, va := BitVec.ofNat 64 p.2.1, source := u.core, slot := u.slot.getD 0, item := p.1, lane := p.1 - u.lo
                cluster := homeCluster p.2.2.1, pa := p.2.2.1, ctx := s.ctxOf u, sub := op.code, ty := f.ty
                data := d.1, data2 := d.2, acc := if xam then u.xreg f.index.toNat else XAcc.zero
                reg := if xam then none else some f.d.toNat, lo := u.lo : AtomReq }) }
            .done (if f.order.getLsbD 0 then s'.acquireNow u (ps.map (·.2.2.1)) else s')
          if xam then
            let r := s3.addPend u (.entries 1) [] false true false
            queue r.1 r.2
          else s3.deferV u g true (.entries ps.length) (loadParts u f.ty.wide false f.d.toNat []) queue)

/-- The items of an ATOMS performed in order: the machine after them and the old values (R356). -/
def State.padAtoms (s : State) (u : SUnit) (op : AtomOp) (f : FmtM) (n : Nat) :
    List (Nat × Nat × Nat × Nat) → State × List (Nat × W64)
  | [] => (s, [])
  | p :: rest =>
    let old := s.padBytes p.2.2.1 p.2.2.2 n
    let d := s.atomData u op f.ty f.index.toNat p.1
    let new := atomBytesAfter op.code f.ty old d.1 d.2 (u.xreg f.index.toNat)
    let s0 := s.dropNotes ((List.range n).map (State.padKey p.2.2.1 p.2.2.2 + ·))
    let s1 := if new = old then s0 else s0.writePad p.2.2.1 p.2.2.2 new
    let (s2, vals) := s1.padAtoms u op f n rest
    (s2, (p.1, BitVec.ofNat 64 (natOf old)) :: vals)

/-- An ATOMS (R353-R356): performed at the core that holds the pad range, in ascending item index. -/
def State.runAtoms (s : State) (op : AtomOp) (f : FmtM) : Host.Outcome State Fault Refusal :=
  s.runClosing (fun s _ u =>
    let g := u.guard f.pred f.pneg
    let xam := op == .xam
    let n := atomBytes op.code f.ty
    if !u.anyActive g then .done s
    else if !u.isStrand then .needG s
    else match s.groupOf u with
      | none => .needG s
      | some gr =>
        let items := if xam then [u.lowest g] else u.active g
        match padItems gr u.core n (if xam then 16 else n) (items.map (fun k => (k, s.poff u f false k))) with
        | .error e => .trap s e.1 (BitVec.ofNat 64 e.2)
        | .ok ps =>
          match s.padPoisonPlace n ps with
          | some off => .trap s causePoison (BitVec.ofNat 64 off)
          | none =>
            let s1 := if f.order.getLsbD 1 then s.publish u.core (gr.padScope f.scope.toNat) else s
            if xam then
              let r := (s1.padAtoms u op f n ps).1.addPend u .ready [] false true false
              .done r.2
            else
              let vals := (s1.padAtoms u op f n ps).2
              s1.deferV u g true .ready (loadParts u f.ty.wide false f.d.toNat vals)
                (fun _ s => .done (s.padAtoms u op f n ps).1))

def execAtomAdd (f : FmtM) (s : State) : Host.Outcome State Fault Refusal := s.runAtom .add f
def execAtomSub (f : FmtM) (s : State) : Host.Outcome State Fault Refusal := s.runAtom .sub f
def execAtomMin (f : FmtM) (s : State) : Host.Outcome State Fault Refusal := s.runAtom .min f
def execAtomMax (f : FmtM) (s : State) : Host.Outcome State Fault Refusal := s.runAtom .max f
def execAtomAnd (f : FmtM) (s : State) : Host.Outcome State Fault Refusal := s.runAtom .and f
def execAtomOr (f : FmtM) (s : State) : Host.Outcome State Fault Refusal := s.runAtom .or f
def execAtomXor (f : FmtM) (s : State) : Host.Outcome State Fault Refusal := s.runAtom .xor f
def execAtomXchg (f : FmtM) (s : State) : Host.Outcome State Fault Refusal := s.runAtom .xchg f
def execAtomCas (f : FmtM) (s : State) : Host.Outcome State Fault Refusal := s.runAtom .cas f
def execAtomInc (f : FmtM) (s : State) : Host.Outcome State Fault Refusal := s.runAtom .inc f
def execAtomFadd (f : FmtM) (s : State) : Host.Outcome State Fault Refusal := s.runAtom .fadd f
def execAtomFadd2 (f : FmtM) (s : State) : Host.Outcome State Fault Refusal := s.runAtom .fadd2 f
def execAtomXam (f : FmtM) (s : State) : Host.Outcome State Fault Refusal := s.runAtom .xam f
def execAtomLd (f : FmtM) (s : State) : Host.Outcome State Fault Refusal := s.runAtom .ld f
def execAtomsAdd (f : FmtM) (s : State) : Host.Outcome State Fault Refusal := s.runAtoms .add f
def execAtomsSub (f : FmtM) (s : State) : Host.Outcome State Fault Refusal := s.runAtoms .sub f
def execAtomsMin (f : FmtM) (s : State) : Host.Outcome State Fault Refusal := s.runAtoms .min f
def execAtomsMax (f : FmtM) (s : State) : Host.Outcome State Fault Refusal := s.runAtoms .max f
def execAtomsAnd (f : FmtM) (s : State) : Host.Outcome State Fault Refusal := s.runAtoms .and f
def execAtomsOr (f : FmtM) (s : State) : Host.Outcome State Fault Refusal := s.runAtoms .or f
def execAtomsXor (f : FmtM) (s : State) : Host.Outcome State Fault Refusal := s.runAtoms .xor f
def execAtomsXchg (f : FmtM) (s : State) : Host.Outcome State Fault Refusal := s.runAtoms .xchg f
def execAtomsCas (f : FmtM) (s : State) : Host.Outcome State Fault Refusal := s.runAtoms .cas f
def execAtomsInc (f : FmtM) (s : State) : Host.Outcome State Fault Refusal := s.runAtoms .inc f
def execAtomsFadd (f : FmtM) (s : State) : Host.Outcome State Fault Refusal := s.runAtoms .fadd f
def execAtomsFadd2 (f : FmtM) (s : State) : Host.Outcome State Fault Refusal := s.runAtoms .fadd2 f
def execAtomsXam (f : FmtM) (s : State) : Host.Outcome State Fault Refusal := s.runAtoms .xam f
def execAtomsLd (f : FmtM) (s : State) : Host.Outcome State Fault Refusal := s.runAtoms .ld f

end Sys2Proof.Machine
end

