-- ==== Sys2Proof/Machine/Sync.lean ====
section
/-! DEFINITION. Barriers (R107-R118), completion words (R121), pips (R122): the SYN class (R374). A barrier's state stands in its
group, also for a pair group (R108). -/

namespace Sys2Proof.Machine

/-- Break a barrier (R113). A count that ARRIVED cannot hold wraps in its 11 bits (R107, assumption log 22). -/
def Barrier.break_ (b : Barrier) (code : BitVec 2) : Barrier := { b with state := .broken, brk := code, arrived := b.arrived % 2048 }

/-- A phase that is complete (R110). -/
def Barrier.completes (b : Barrier) : Bool := b.state == .opened && b.arrived == b.expect && b.bytes == 0

/-- A count that is too large (R110). -/
def Barrier.overflows (b : Barrier) : Bool := b.state == .opened && (decide (b.expect < b.arrived) || decide (2 ^ 47 ≤ b.bytes.natAbs))

/-- The barrier once its phase is complete (R110). -/
def Barrier.nextPhase (b : Barrier) : Barrier :=
  { b with phase := b.phase + 1, arrived := 0, mask := none, cont := none, state := .idle }

/-- The windows of a membership mask. -/
def maskWindows (m : BitVec 16) : List Nat := (List.range 16).filter (fun j => m.getLsbD j)

/-- The continuation that a completed phase starts (R114): the launched items of the member windows. -/
def Barrier.continuation (b : Barrier) (g : Group) (n count : Nat) : List Cont :=
  match b.cont, b.mask with
  | some code, some m =>
    match maskWindows m with
    | [] => []
    | j :: js =>
      let lo := g.base + 64 * j
      let hi := min (g.base + 64 * ((j :: js).getLast?.getD j + 1)) count
      [{ code := code, lo := lo, cnt := hi - lo, phase := b.phase + 1, bar := n }]
  | _, _ => []

namespace State

/-- Store a barrier and complete or break it where its counts say so (R110). -/
def putBar (s : State) (g : Group) (n : Nat) (b : Barrier) : State :=
  let count := match s.launch? g.launch with | some l => l.count | none => 0
  if b.overflows then s.updGroup g.id (fun g => { g with bars := setAt g.bars n (b.break_ 3) })
  else if b.completes then
    s.updGroup g.id (fun g' => { g' with bars := setAt g'.bars n b.nextPhase, conts := g'.conts ++ b.continuation g n count })
  else s.updGroup g.id (fun g => { g with bars := setAt g.bars n b })

/-- Add to a barrier's BYTES (R112, R115); a broken barrier only counts (R113). -/
def countBytes (s : State) (gid n : Nat) (d : Int) : State :=
  match s.group? gid with
  | none => s
  | some g => match g.bars[n]? with
    | none => s
    | some b =>
      let b1 := { b with bytes := b.bytes + d }
      s.putBar g n (if b1.state = .idle && b1.bytes != 0 then { b1 with state := .opened } else b1)

/-- Count k bytes that a copy has performed (R112), one after the other: those past the one that completes the phase count on the next. -/
def countPerformed (s : State) (gid n k : Nat) : State :=
  match (s.group? gid).bind (fun g => g.bars[n]?) with
  | none => s
  | some b =>
    let m := b.bytes.toNat
    if b.state = .opened && b.arrived == b.expect && decide (0 < m) && decide (m < k) then
      (s.countBytes gid n (-(m : Int))).countBytes gid n (-((k - m : Nat) : Int))
    else s.countBytes gid n (-(k : Int))

/-- Break a barrier of a group (R113): from IDLE or OPEN (R115). -/
def breakBar (s : State) (gid n : Nat) (code : BitVec 2) : State :=
  s.updGroup gid (fun g => match g.bars[n]? with
    | some b => if b.state = .idle || b.state = .opened then { g with bars := setAt g.bars n (b.break_ code) } else g
    | none => g)

end State

/-- How an arrival is settled (R109). -/
inductive Arrival where
  | uninit | broken (code : BitVec 2) | counted (b : Barrier) | mismatch
  deriving DecidableEq, Repr

/-- Settle an arrival of items with a membership mask (R109). -/
def Barrier.arrive (b : Barrier) (g : Group) (m : BitVec 16) (items : List Nat) : Arrival :=
  let inside := items.all (fun i => m.getLsbD ((i - g.base) / 64))
  let below := (maskWindows m).all (fun j => decide (j < g.size / 64))
  match b.state with
  | .uninit => .uninit
  | .broken => .broken b.brk
  | _ =>
    match b.mask with
    | none => if below && inside then .counted { b with mask := some m, arrived := b.arrived + items.length, state := .opened } else .mismatch
    | some m0 => if m0 = m && inside then .counted { b with arrived := b.arrived + items.length } else .mismatch

/-- Run a SYN instruction that closes an open region, and with no active item does nothing (R117, R216). -/
def State.runSyn (s : State) (f : FmtX) (body : State → Issue → SUnit → Res) : Host.Outcome State Fault Refusal :=
  s.runWord (fun s i u =>
    if u.anyActive (u.guard f.pred f.pneg) then body (s.closeRegion u) i { u with region := none } else .done s)

/-- Run a SYN instruction on a barrier of the unit's group (R108, R117, R374). needU: it writes a register, so that a span with
a predicate that is not U materialises first. -/
def State.onBarrier (s : State) (u : SUnit) (f : FmtX) (needU : Bool) (body : Group → Guard → Nat → Barrier → Res) : Res :=
  let g := u.guard f.pred f.pneg
  let n := f.imm8.toNat
  if !u.anyActive g then .done s
  else match s.groupOf u with
    | none => .needG s
    | some gr =>
      if needU && !g.isTrue && !u.isStrand then .needG s
      else match gr.bars[n]? with
        | none => .trap s causeBarstate (BitVec.ofNat 64 n)
        | some b => body gr g n b

/-- BARI (R115, R116). -/
def execBari (f : FmtX) (s : State) : Host.Outcome State Fault Refusal :=
  s.runSyn f (fun s _ u =>
    s.onBarrier u f false (fun gr g n b =>
      let e := (s.vAt u f.a.toNat (u.lowest g)).toNat
      if !u.vIsU f.a.toNat || e < 1 || 1024 < e || b.state = .opened then .trap s causeBarstate (BitVec.ofNat 64 n)
      else .done (s.putBar gr n { b with state := .idle, expect := e, arrived := 0, bytes := 0, mask := none, cont := none, brk := 0 })))

/-- BARA (R109, R110, R113). -/
def execBara (f : FmtX) (s : State) : Host.Outcome State Fault Refusal :=
  s.runSyn f (fun s _ u =>
    s.onBarrier u f true (fun gr g n b =>
      match b.arrive gr f.ctrl (u.active g) with
      | .uninit => .trap s causeBarstate (BitVec.ofNat 64 n)
      | .mismatch => .trap (s.breakBar gr.id n 1) causeMembermismatch (BitVec.ofNat 64 n)
      | .broken code => s.writeV u g [(f.d.toNat, .u (code.setWidth 32))] .done
      | .counted b1 =>
        s.writeV u g [(f.d.toNat, .u b.phase)] (fun s =>
          .done ((s.publish u.core 1).putBar ((s.group? gr.id).getD gr) n b1))))

/-- BARW (R110, R113, R117): D is U in every case, so it is no G result, and a span does not materialise for it. -/
def execBarw (f : FmtX) (s : State) : Host.Outcome State Fault Refusal :=
  s.runWord (fun s _ u =>
    s.onBarrier u f false (fun _ g n b =>
      let items := if u.vIsU f.a.toNat then [u.lowest g] else u.active g
      let phases := (items.map (fun i => s.vAt u f.a.toNat i)).eraseDups
      if b.state = .uninit then .trap s causeBarstate (BitVec.ofNat 64 n)
      else if phases.all (fun p => p != b.phase) then s.writeV u u.whole [(f.d.toNat, .u 0)] .done
      else if b.state = .broken then s.writeV u u.whole [(f.d.toNat, .u (b.brk.setWidth 32))] .done
      else match u.regionHit [f.d.toNat] [] with
        | some t => .trap s causeRegionwrite t
        | none => .again (s.updUnit u.id (fun u => { u with wait := .barw n phases }))))

/-- BARX (R112, R115): a U source counts once, another once for each active item. -/
def execBarx (f : FmtX) (s : State) : Host.Outcome State Fault Refusal :=
  s.runSyn f (fun s _ u =>
    s.onBarrier u f false (fun gr g n b =>
      if b.state = .uninit then .trap s causeBarstate (BitVec.ofNat 64 n)
      else
        let sum : Nat := if u.vIsU f.a.toNat then (s.vAt u f.a.toNat (u.lowest g)).toNat
          else (u.active g).foldl (fun t i => t + (s.vAt u f.a.toNat i).toNat) 0
        .done (s.countBytes gr.id n sum)))

/-- Whether a mask names a contiguous run of windows (R114). -/
def contiguousMask (m : BitVec 16) : Bool :=
  match maskWindows m with
  | [] => false
  | j :: js => decide ((j :: js).getLast?.getD j - j + 1 = (j :: js).length)

/-- A unit without its active items, which are those of one end of a span. -/
def SUnit.without (u : SUnit) (g : Guard) : SUnit :=
  if u.isStrand then { u with mask := u.mask &&& ~~~g.mask }
  else if g.lo = u.lo then { u with lo := g.hi, cnt := u.lo + u.cnt - g.hi }
  else { u with cnt := g.lo - u.lo }

/-- The active items of a unit exit after a BARC that was counted (R114): also where its count broke the barrier, and out of an inline call,
for good (assumption log 22). -/
def State.leave (s : State) (i : Issue) (u : SUnit) (g : Guard) : Res :=
  if u.activeCount g = u.items.length then .jump (s.exitUnit u.id)
  else .jump ((s.retireItems u (u.active g)).updUnit u.id (fun x => (x.fallTo i.nextClause).without g))

/-- BARC (R114): its items arrive all at once (R109), and D is written only where they do not exit. DESIGN CHOICE (assumption log 22): one whose
address differs from CONT breaks the barrier with code 1 also where its count takes ARRIVED above EXPECT, for which R110 has code 3. -/
def execBarc (f : FmtX) (s : State) : Host.Outcome State Fault Refusal :=
  s.runSyn f (fun s i u =>
    s.onBarrier u f false (fun gr g n b =>
      let code := s.wAt u f.a.toNat (u.lowest g)
      if !u.wIsU f.a.toNat || !contiguousMask f.ctrl then .trap s causeBarstate (BitVec.ofNat 64 n)
      else match b.arrive gr f.ctrl (u.active g) with
        | .uninit => .trap s causeBarstate (BitVec.ofNat 64 n)
        | .mismatch => .trap (s.breakBar gr.id n 1) causeMembermismatch (BitVec.ofNat 64 n)
        | .broken c => s.writeV u g [(f.d.toNat, .u (c.setWidth 32))] .done
        | .counted b1 =>
          match b1.cont with
          | none => ((s.publish u.core 1).putBar gr n { b1 with cont := some code }).leave i u g
          | some c0 =>
            if c0 = code then ((s.publish u.core 1).putBar gr n b1).leave i u g
            else
              let count (s : State) : State := (s.publish u.core 1).updGroup gr.id (fun g => { g with bars := setAt g.bars n (b1.break_ 1) })
              if !g.isTrue && !u.isStrand then .needG (count s) else s.writeV u g [(f.d.toNat, .u 1)] (fun s => .done (count s))))

/-- Whether a completion word ends a WAITA (R121). -/
def wordReady (x expect : W64) : Bool := x == expect || x.getLsbD 63

/-- The 64-bit word at a place in a pad. -/
def State.padWord (s : State) (core off : Nat) : W64 := BitVec.ofNat 64 (natOf (s.padBytes core off 8))

/-- WAITA (R121). -/
def execWaita (f : FmtX) (s : State) : Host.Outcome State Fault Refusal :=
  s.runWord (fun s _ u =>
    let g := u.guard f.pred f.pneg
    let isU := u.vIsU f.a.toNat
    if !u.anyActive g then .done s
    else match s.groupOf u with
      | none => .needG s
      | some gr =>
        if (!isU || !g.isTrue) && !u.isStrand then .needG s
        else match u.regionHit [f.d.toNat, f.d.toNat + 1] [] with
          | some t => .trap s causeRegionwrite t
          | none =>
            let off (i : Nat) : Nat := (s.vAt u f.a.toNat i + f.ctrl.setWidth 32).toNat
            match padItems gr u.core 8 8 ((u.active g).map (fun i => (i, off i))) with
            | .error e => .trap s e.1 (BitVec.ofNat 64 e.2)
            | .ok ps =>
              match s.padPoisonPlace 8 ps with
              | some o => .trap s causePoison (BitVec.ofNat 64 o)
              | none =>
                if ps.all (fun p => wordReady (s.padWord p.2.2.1 p.2.2.2) (s.wAt u f.b.toNat p.1)) then
                  s.writeV u g (loadParts u true isU f.d.toNat (ps.map (fun p => (p.1, s.padWord p.2.2.1 p.2.2.2)))) .done
                else
                  let checks := (ps.map (fun p => (State.padKey p.2.2.1 p.2.2.2, s.wAt u f.b.toNat p.1))).eraseDups
                  .again (s.updUnit u.id (fun u => { u with wait := .waita checks })))

/-- PIPW (R122). -/
def execPipw (f : FmtX) (s : State) : Host.Outcome State Fault Refusal :=
  s.runWord (fun s _ u =>
    let m := f.ctrl.extractLsb' 0 12
    if !u.anyActive (u.guard f.pred f.pneg) then .done s
    else if s.groupOf u = none then .needG s
    else if u.pips &&& m = 0 then .done s
    else .again (s.updUnit u.id (fun u => { u with wait := .pipw m })))

/-- The value of BARQ (R118). DESIGN CHOICE (assumption log 22): while MASK is invalid, CTRL 2 gives 0 in bits 15:0. -/
def Barrier.query (b : Barrier) (sel : Nat) : W64 :=
  match sel with
  | 1 => BitVec.ofInt 64 b.bytes
  | 2 => match b.mask with
    | some m => (1 : W64) <<< 16 ||| m.setWidth 64
    | none => 0
  | _ =>
    let st : Nat := match b.state with | .uninit => 0 | .idle => 1 | .opened => 2 | .broken => 3
    BitVec.ofNat 64 (st * 2 ^ 62 + b.brk.toNat * 2 ^ 60 + b.expect * 2 ^ 49 + b.arrived * 2 ^ 38 + b.phase.toNat)

/-- BARQ (R118): long-latency. -/
def execBarq (f : FmtX) (s : State) : Host.Outcome State Fault Refusal :=
  s.runWord (fun s _ u =>
    s.onBarrier u f true (fun _ g _ b =>
      let x := b.query f.ctrl.toNat
      s.deferV u g false .ready [(f.d.toNat, .u (x.extractLsb' 0 32)), (f.d.toNat + 1, .u (x.extractLsb' 32 32))] (fun _ s => .done s)))

end Sys2Proof.Machine
end

