-- ==== Sys2Proof/Machine/Async.lean ====
section
/-! DEFINITION. The ASY class (R358-R360, R370-R372, R411, R119): what a copy or job instruction enters into the engine queues
(R131), batches, QFEN. -/

namespace Sys2Proof.Machine

/-- Entries that are not yet performed, wherever they stand (R131). -/
def State.entries (s : State) : List EngEntry :=
  s.engq ++ s.copies.filterMap (fun c => match c.owner with | .entry e => some e | .packet .. => none)
    ++ (s.moves.filter (fun m => m.phase.inFlight)).map (·.entry) ++ s.ranks.map (·.entry) ++ s.beams.filterMap (·.entry) ++ s.jobs.map (·.entry)

/-- Their identifiers. -/
def State.liveEntries (s : State) : List Nat := s.entries.map (·.id)

/-- The entries that a new entry of a unit into a queue must follow (R370). -/
def SUnit.mustFollow (u : SUnit) (queue : Nat) : List Nat :=
  u.qfens.flatMap (fun q => if q.1.getLsbD queue then q.2 else [])

/-- An entry of a unit's item (R131). -/
def State.mkEntry (s : State) (u : SUnit) (op queue engine item reg : Nat) (job : EngJob) : EngEntry × State :=
  let (id, s1) := s.fresh
  ({ id := id, core := u.core, queue := queue, engine := engine, op := op, unit := u.id, item := item, lane := item - u.lo, lo := u.lo
     ctx := s.ctxOf u, launch := u.launch, group := u.group, reg := reg, fmode := u.fmode, job := job
     after := (u.mustFollow queue).filter (fun x => s.liveEntries.contains x) }, s1)

/-- Put an entry into its queue. -/
def State.enqueue (s : State) (e : EngEntry) : State := { s with engq := s.engq ++ [e] }

/-- Entries of a queue that a list of work takes; an ACP has one for each item (R131). -/
def placesTaken (es : List EngEntry) : Nat :=
  (es.map (fun e => match e.job with
    | .acp _ items _ _ => items.length
    | _ => 1)).foldl (· + ·) 0

/-- Entries that a queue of a core holds, with those of its last word that are still to enter (R131). -/
def State.queueLen (s : State) (core queue : Nat) : Nat := placesTaken (s.engq.filter (fun e => e.core == core && e.queue == queue))

/-- Whether an entry has entered its queue: those beyond the first 64 enter as entries free, in their order (R131). -/
def State.inQueue (s : State) (e : EngEntry) : Bool :=
  decide (placesTaken ((s.engq.takeWhile (fun f => f.id != e.id)).filter (fun f => f.core == e.core && f.queue == e.queue)) < 64)

/-- A word has handed its work to a queue: it holds its port until the queue has taken the last of it (R131). -/
def State.holdPort (s : State) (i : Issue) (u : SUnit) (queue : Nat) : Res :=
  if s.queueLen u.core queue ≤ 64 then .done s
  else .stay { s.updUnit u.id (fun u => { u with wait := .room queue 64 }) with
    issue := updWhere (fun j => j.unit == i.unit) (fun j => { j with entered := true }) s.issue }

/-- The check of the barrier that a copy names (R411): none lets it count. -/
def copyBarrier (g : Option Group) (bar : Option Nat) : Option Nat :=
  match bar with
  | none => none
  | some n => match g with
    | none => some n
    | some g => match g.bars[n]? with
      | none => some n
      | some b => if b.state = .uninit then some n else none

/-- Enter one copy of a unit as an operation of its open batch (R119, R360). -/
def State.enterCopy (s : State) (u : SUnit) (engine item : Nat) (job : EngJob) : State :=
  let (op, s1) := s.addPend u (.entries 1) [] false true true
  let (e, s2) := s1.mkEntry u op engine engine item 0 job
  (s2.enqueue e).updUnit u.id (fun u => { u with openB := u.openB ++ [op] })

/-- The first misaligned operand of an ACP: its value and whether it is a global address (R360). -/
def acpMisaligned (size : Nat) (lowest : Nat) (word : Option Nat) : List (Nat × Nat × Nat) → Option (Nat × Bool)
  | [] => none
  | (item, dst, src) :: rest =>
    if dst % size ≠ 0 then some (dst, false)
    else if src % 4 ≠ 0 then some (src, true)
    else match (if item = lowest then word else none) with
      | some w => if w % 8 ≠ 0 then some (w, false) else acpMisaligned size lowest word rest
      | none => acpMisaligned size lowest word rest

/-- ACP (R360). -/
def execAcp (f : FmtX) (s : State) : Host.Outcome State Fault Refusal :=
  s.runClosing (fun s i u =>
    let g := u.guard f.pred f.pneg
    let size := 4 * 2 ^ (f.ctrl.extractLsb' 0 2).toNat
    let engine := if f.ctrl.getLsbD 2 then 1 else 0
    let bar := if f.ctrl.getLsbD 4 then some f.imm8.toNat else none
    if !u.anyActive g || i.entered then .done s
    else if u.kind = .undealt then .needG s
    else match copyBarrier (s.groupOf u) bar with
      | some n => .trap s causeBarstate (BitVec.ofNat 64 n)
      | none =>
        let items := u.active g
        let low := u.lowest g
        let dst (i : Nat) : Nat := (s.vAt u f.d.toNat i).toNat
        let src (i : Nat) : W64 := s.wAt u f.a.toNat i
        let word := if f.ctrl.getLsbD 5 then some (s.vAt u f.c.toNat low).toNat else none
        match acpMisaligned size low word (items.map (fun i => (i, dst i, (src i).toNat))) with
        | some (x, global) => .trap s causeMisalign (BitVec.ofNat 64 x) global
        | none =>
          let valid (i : Nat) : Nat := if f.ctrl.getLsbD 3 then min (s.vAt u f.b.toNat i).toNat size else size
          let job := EngJob.acp size (items.map (fun i => (dst i, src i, valid i)))
            (word.map (fun w => (w, (f.ctrl.extractLsb' 8 8).toNat))) bar
          (s.enterCopy u engine low job).holdPort i u engine)

/-- ASEAL (R119): seals the open batch. -/
def execAseal (f : FmtX) (s : State) : Host.Outcome State Fault Refusal :=
  s.runClosing (fun s _ u =>
    if !u.anyActive (u.guard f.pred f.pneg) then .done s
    else
      let (id, s1) := s.fresh
      .done (s1.updUnit u.id (fun u => { u with closed := u.closed ++ [(id, u.openB)], openB := [] }.trimBatches (fun _ => true))))

/-- AWAIT (R119, R359). -/
def execAwait (f : FmtX) (s : State) : Host.Outcome State Fault Refusal :=
  s.runWord (fun s _ u =>
    let n := f.imm8.toNat
    if !u.anyActive (u.guard f.pred f.pneg) || decide (u.closed.length ≤ n) then .done s
    else .again (s.updUnit u.id (fun u => { u with wait := .await n })))

/-- BCP and BXF (R361): one copy for each active item. -/
def State.runCards (s : State) (f : FmtX) (bxf : Bool) : Host.Outcome State Fault Refusal :=
  s.runClosing (fun s i u =>
    let g := u.guard f.pred f.pneg
    let engine := if f.ctrl.getLsbD 0 then 1 else 0
    let bar := if f.ctrl.getLsbD 1 then some f.imm8.toNat else none
    if !u.anyActive g || i.entered then .done s
    else if u.kind = .undealt && !bxf then .needG s
    else match copyBarrier (s.groupOf u) bar with
      | some n => .trap s causeBarstate (BitVec.ofNat 64 n)
      | none =>
        ((u.active g).foldl (fun s' k => s'.enterCopy u engine k (.card bxf (s.wAt u f.a.toNat k) bar)) s).holdPort i u engine)

def execBcp (f : FmtX) (s : State) : Host.Outcome State Fault Refusal := s.runCards f false
def execBxf (f : FmtX) (s : State) : Host.Outcome State Fault Refusal := s.runCards f true

/-- Whether a QFEN of a unit orders an entry (R370): all that its items may have entered, on whatever core they then were (R139), and others of its
core and group, for which R370 allows the later ones to wait (assumption log 23). -/
def SUnit.fences (u : SUnit) (e : EngEntry) : Bool :=
  e.launch == u.launch && (e.core == u.core || (e.group.isSome && e.group == u.group) || u.holdsItem e.item)

/-- QFEN (R370): later entries of the unit into the named queues follow the entries that it orders. -/
def execQfen (f : FmtX) (s : State) : Host.Outcome State Fault Refusal :=
  s.runWord (fun s _ u =>
    let m := f.ctrl.extractLsb' 0 6
    if !u.anyActive (u.guard f.pred f.pneg) || m = 0 then .done s
    else
      let ids := (s.entries.filter (fun e => u.fences e && m.getLsbD e.queue)).map (·.id)
      let (_, s1) := s.addPend u (.fence ids) [] false true false
      .done (s1.updUnit u.id (fun u => { u with qfens := u.qfens ++ [(m, ids)] })))

/-- COLL (R371). -/
def execColl (f : FmtX) (s : State) : Host.Outcome State Fault Refusal :=
  s.runClosing (fun s i u =>
    let g := u.guard f.pred f.pneg
    if !u.anyActive g || i.entered then .done s
    else
      let items := u.active g
      let (op, s1) := s.addPend u (.entries items.length) [] false true false
      (items.foldl (fun s' k =>
        let (e, s2) := s'.mkEntry u op 4 0 k 0 (.coll (s.wAt u f.a.toNat k))
        s2.enqueue e) s1).holdPort i u 4)

/-- ASTAT (R372). -/
def execAstat (f : FmtX) (s : State) : Host.Outcome State Fault Refusal :=
  s.runWord (fun s _ u =>
    let g := u.guard f.pred f.pneg
    let sealed := (u.closed.map (fun b => b.2.length)).foldl (· + ·) 0
    let x := BitVec.ofNat 32 ((sealed + u.openB.length) * 0x10000 + (u.openB.length % 256) * 0x100 + u.closed.length)
    if !u.anyActive g then .done s
    else s.deferV u g false .ready [(f.d.toNat, .u x)] (fun _ s => .done s))

end Sys2Proof.Machine
end

