-- ==== Sys2Proof/Machine/Engine.lean ====
section
/-! DEFINITION. What engines read and write through translation (R152, R166): runs of bytes cut at pages, with poison carried
along (R137), engine writes at the home slices. -/

namespace Sys2Proof.Machine

/-- How an engine's access stops (R166): the page is ABSENT; the access is held; a fault, by its cause. need is what it needs of the page. -/
inductive Stop where
  | park (va : Nat) (need : Need)
  | hold (va : Nat) (need : Need)
  | fail (cause : W32) (va : Nat)
  deriving DecidableEq, Repr

/-- The address at which an access stopped. -/
def Stop.va : Stop → Nat
  | .park va _ | .hold va _ | .fail _ va => va

/-- A byte and whether it is poisoned. -/
abbrev PByte := Byte × Bool

namespace State

/-- Mark lines poisoned, and report the new ones to the driver (R137, R161). -/
def poisonLines (s : State) (ls : List Nat) : State :=
  let new := (ls.filter (fun l => !s.poison.lines.contains l)).eraseDups
  if new.isEmpty then s
  else { s with poison := { s.poison with lines := s.poison.lines ++ new }, outs := s.outs ++ new.map (fun l => Out.errorReport (128 * l)) }

/-- Mark pad words poisoned (R137). -/
def poisonPad (s : State) (ws : List Nat) : State :=
  if ws.isEmpty then s else { s with poison := { s.poison with padWords := (s.poison.padWords ++ ws).eraseDups } }

/-- An ABSENT page met by an engine: the request is written, or held while the ring is full (R164, R210). -/
def engineAbsent (s : State) (who : Who) (ctx : Nat) (need : Need) (va : Nat) : Stop × State :=
  match s.pageRequest who ctx need va with
  | some s1 => (.park va need, s1)
  | none => (.hold va need, s)

/-- The lines of n bytes from a physical address, by their first bytes. -/
def linesOf (pa n : Nat) : List Nat := (List.range ((pa + n + 127) / 128 - pa / 128)).map (fun k => (pa / 128 + k) * 128)

/-- Translate an engine's access of n bytes of one page (R160, R133, R169, R166): the leaf, or how the access stops. -/
def enginePage (s : State) (who : Who) (ctx : Nat) (need : Need) (va n : Nat) : (Stop ⊕ Leaf) × State :=
  match s.leafOf who ctx va with
  | (none, s1) => (.inl (.fail causePagefault va), s1)
  | (some l, s1) =>
    if weaveMisaligned l va n then (.inl (.fail causeMisalign va), s1)
    else match settleLeaf need va l with
      | .fault c => (.inl (.fail c va), s1)
      | .absent => let r := s1.engineAbsent who ctx need va; (.inl r.1, r.2)
      | .mig => (.inl (.hold va need), s1)
      | .ok _ _ => match s1.creelVa ctx l va n need with
        | some (.hold _) => (.inl (.hold va need), s1)
        | some _ => (.inl (.fail causeCreelro va), s1)
        | none => (.inr l, s1)

/-- Read n bytes of one page (R166, R137): poisoned data is read as such. Atomics that wait for its lines are served first (R129); fm is the
%fmode of the unit that the engine works for (R30). -/
def readPage (s : State) (who : Who) (ctx : Nat) (fm : BitVec 4) (va n : Nat) : (Stop ⊕ List PByte) × State :=
  match s.enginePage who ctx .read va n with
  | (.inl (.fail c va), s1) => if c = causePoison then (.inr (List.replicate n (0, true)), s1) else (.inl (.fail c va), s1)
  | (.inl st, s1) => (.inl st, s1)
  | (.inr l, s1) =>
    let pa := l.pa va
    let s2 := if s1.atomq.isEmpty then s1 else s1.serveLines ((l.runs va n).flatMap (fun r => linesOf r.1 r.2))
    let bs := s2.readVa who (fm.getLsbD 2) l va n
    if s2.refusedAt pa then (.inr (bs.map (fun b => (b, true))), s2.countLost pa)
    else if s2.poison.lines.isEmpty then (.inr (bs.map (fun b => (b, false))), s2)
    else (.inr (bs.zipIdx.map (fun e => (e.1, s2.poisonedVa l (va + e.2) 1))), s2)

/-- Read n bytes at a virtual address, page by page (R160). fuel bounds the pages. -/
def readRun (s : State) (who : Who) (ctx : Nat) (fm : BitVec 4) : Nat → Nat → Nat → (Stop ⊕ List PByte) × State
  | 0, _, _ => (.inr [], s)
  | fuel + 1, va, n =>
    if n = 0 then (.inr [], s)
    else
      let k := min n (65536 - va % 65536)
      match s.readPage who ctx fm va k with
      | (.inr bs, s1) =>
        match s1.readRun who ctx fm fuel (va + k) (n - k) with
        | (.inr rest, s2) => (.inr (bs ++ rest), s2)
        | (.inl st, s2) => (.inl st, s2)
      | (.inl st, s1) => (.inl st, s1)

/-- Read n bytes of virtual memory. -/
def readEngine (s : State) (who : Who) (ctx : Nat) (fm : BitVec 4) (va n : Nat) : (Stop ⊕ List PByte) × State :=
  s.readRun who ctx fm (n / 65536 + 2) va n

/-- An engine write of plain memory (R152): performed at the home slice once every L1 copy of its lines is gone, after the atomics that wait
for those lines (R129). -/
def writeEngineAt (s : State) (who : Who) (pa : Nat) (bs : List PByte) : State :=
  let l0 := pa / 128 * 128
  let n := (pa + bs.length + 127) / 128 * 128 - l0
  let s0 := if s.atomq.isEmpty then s else s.serveLines (linesOf pa bs.length)
  let s1 := if s0.l1.isEmpty && s0.l2.isEmpty then s0 else s0.flushRange l0 n
  let s2 := s1.writeHome who pa (bs.map (·.1))
  s2.poisonLines ((bs.zipIdx.filter (·.1.2)).map (fun e => (pa + e.2) / 128)).eraseDups

/-- The 4-byte units of aligned bytes (R169). -/
def unitsFrom (va : Nat) (bs : List Byte) : List (Nat × W32) :=
  (List.range (bs.length / 4)).map (fun k => (va + 4 * k, BitVec.ofNat 32 (fieldOf bs (4 * k) 4)))

/-- Write bytes of one page (R166, R133, R170); fm is the %fmode of a weave write. What one call writes is one beat of R170, which leaves open
what a beat holds (assumption log 25). A block that takes a poisoned unit is poisoned (R137). -/
def writePage (s : State) (who : Who) (ctx : Nat) (fm : BitVec 4) (va : Nat) (bs : List PByte) : Option Stop × State :=
  match s.enginePage who ctx .write va bs.length with
  | (.inl st, s1) => (some st, s1)
  | (.inr l, s1) =>
    if pteWeave l.pte = 0 then (none, s1.writeEngineAt who (l.pa va) bs)
    else
      let runs := l.runs va bs.length
      let s2 := if s1.atomq.isEmpty then s1 else s1.serveLines (runs.flatMap (fun r => linesOf r.1 r.2))
      let s3 := s2.weaveWrite who (Rm.ofFmode fm) (fm.getLsbD 2) l (unitsFrom va (bs.map (·.1)))
      let bad := (bs.zipIdx.filter (·.1.2)).map (fun e => (va + e.2) / 4 * 4)
      (none, s3.poisonLines ((bad.eraseDups.flatMap (fun a => (l.runs a 4).flatMap (fun r => linesOf r.1 r.2))).map (· / 128)).eraseDups)

/-- Write a run of bytes page by page: how many were written before a stop. -/
def writeRun (s : State) (who : Who) (ctx : Nat) (fm : BitVec 4) : Nat → Nat → List PByte → Nat × Option Stop × State
  | 0, _, _ => (0, none, s)
  | fuel + 1, va, bs =>
    if bs.isEmpty then (0, none, s)
    else
      let k := min bs.length (65536 - va % 65536)
      match s.writePage who ctx fm va (bs.take k) with
      | (none, s1) =>
        let (n, st, s2) := s1.writeRun who ctx fm fuel (va + k) (bs.drop k)
        (k + n, st, s2)
      | (some st, s1) => (0, some st, s1)

/-- Write bytes to virtual memory: how many were written before a stop. -/
def writeEngine (s : State) (who : Who) (ctx : Nat) (fm : BitVec 4) (va : Nat) (bs : List PByte) : Nat × Option Stop × State :=
  s.writeRun who ctx fm (bs.length / 65536 + 2) va bs

/-- Write pad bytes from an engine, with their poison (R137). -/
def writePadP (s : State) (core off : Nat) (bs : List PByte) : State :=
  let s1 := s.writePad core off (bs.map (·.1))
  s1.poisonPad ((bs.zipIdx.filter (·.1.2)).map (fun e => (padKey core off + e.2) / 8)).eraseDups

/-- Read pad bytes with their poison. -/
def readPadP (s : State) (core off n : Nat) : List PByte :=
  (s.padBytes core off n).zipIdx.map (fun e => (e.1, s.padPoisoned core (off + e.2) 1))

end State

end Sys2Proof.Machine
end

