-- ==== Sys2Proof/Machine/CopyEngine.lean ====
section
/-! DEFINITION. The copy engines (R360-R369): what a copy performs, byte by byte in its order, until it ends, parks or is held.
COPY_PERFORM carries a copy on as far as it goes; COPY_END (in Queue) reports it. -/

namespace Sys2Proof.Machine

/-- STATUS of a copy (R367). -/
def stOk : Nat := 0
def stPagefault : Nat := 11
def stProtfault : Nat := 12
def stPoison : Nat := 13
def stPadrange : Nat := 20
def stBroken : Nat := 21
def stCancelled : Nat := 22
def stCreelro : Nat := 23
def stBadcopy : Nat := 24
def stBadstream : Nat := 25
def stDstcap : Nat := 26

/-- An engine access that a weave page refuses as misaligned: the spec gives it no code (R169, assumption log 25). -/
def stMisalign : Nat := 256

/-- A status as it stands in a record or word. -/
def statusWord (st : Nat) : Nat := if st = stMisalign then Config.misalignStatus.toNat else st

/-- The STATUS of a cause that stops an engine (R166, R367). -/
def statusOfCause (c : W32) : Nat :=
  if c = causePagefault then stPagefault else if c = causeProtfault then stProtfault else if c = causePoison then stPoison
  else if c = causeMisalign then stMisalign else stCreelro

/-- The engine of a copy. -/
def Copy.who (c : Copy) : Who := .copy c.cluster c.engine

/-- The entry of a copy that an instruction entered. -/
def Copy.entry (c : Copy) : Option EngEntry := match c.owner with
  | .entry e => some e
  | .packet _ _ _ => none

/-- The job of a copy that an instruction entered. -/
def Copy.job (c : Copy) : Option EngJob := c.entry.map (·.job)

/-- The barrier a copy counts on. -/
def Copy.bar (c : Copy) : Option (Nat × Nat) :=
  match c.entry with
  | none => none
  | some e => match e.group, e.job with
    | some g, .acp _ _ _ (some b) => some (g, b)
    | some g, .card _ _ (some b) => some (g, b)
    | _, _ => none

/-- The pad place of a copy's access (R123): while its group stands on a core. -/
def State.copyPad (s : State) (c : Copy) (off n : Nat) : Option (Nat × Nat) :=
  match c.entry with
  | none => none
  | some e => (e.group.bind s.group?).bind (fun g => if g.state = .resident then g.padPlace e.core off n else none)

/-- The %fmode of a copy's weave writes: that of the issuing unit; 0 for a packet. -/
def Copy.fmode (c : Copy) : BitVec 4 := match c.entry with
  | some e => e.fmode
  | none => 0

/-- Element bytes of a PLANE source (R361). -/
def efmtBytes (e : Nat) : Nat := if e = 0 then 4 else if e ≤ 2 then 2 else 1

/-- Format of a PLANE source element (R361). -/
def efmtFmt (e : Nat) : Ffmt := if e = 0 then fmtF32 else if e = 1 then fmtF16 else if e = 2 then fmtBf16 else if e = 3 then fmtE4m3 else fmtE5m2

/-- A copy card from its 64 bytes (R361). -/
def CopyCard.ofBytes (bs : List Byte) : CopyCard :=
  let f := fieldOf bs
  { src := BitVec.ofNat 64 (f 0 8), dst := BitVec.ofNat 64 (f 8 8), rows := f 16 4, rbytes := f 20 4, spitch := f 24 4, dpitch := f 28 4
    vrows := f 32 4, vbytes := f 36 4, load := f 40 1, store := f 41 1, planes := f 42 1, efmt := f 43 1, space := f 44 1
    cword := f 48 4, cvalue := f 52 4, status := BitVec.ofNat 64 (f 56 8) }

/-- The first of several checks that fails: its offset. -/
def firstBad (checks : List (Bool × Nat)) : Option Nat := (checks.find? (fun c => !c.1)).map (·.2)

/-- The checks of a card (R361, R362): the offset of the first bad field. -/
def CopyCard.bad (k : CopyCard) (bxf : Bool) (zeros : Bool) : Option Nat :=
  let padSrc := k.space.testBit 0
  let padDst := k.space.testBit 1
  let plane := k.store == 1
  let eb := efmtBytes k.efmt
  firstBad (
    [ (!padSrc || decide (k.src.toNat < 2 ^ 32), 0), (!padDst || decide (k.dst.toNat < 2 ^ 32), 8),
      (decide (1 ≤ k.rows) && decide (k.rows ≤ 65535), 16), (decide (1 ≤ k.rbytes), 20), (decide (k.load ≤ 1), 40),
      (decide (k.store ≤ 2), 41), (!plane || (decide (1 ≤ k.planes) && decide (k.planes ≤ 16)), 42),
      (!plane || decide (k.efmt ≤ 4), 43), (decide (k.space < 4), 44), (zeros, 45),
      (k.cword == 0xFFFFFFFF || k.cword % 8 == 0, 48), (k.status.toNat % 32 == 0, 56),
      (bxf || k.space == 1 || k.space == 2, 44) ]
    ++ (if bxf then
          [ ((k.load == 0 && k.store == 0) || (k.load == 1 && k.store == 0) || (k.load == 0 && k.store == 2), 41),
            (k.rows == 1, 16), (k.spitch == 0, 24), (k.vrows == 0, 32), (k.vbytes == 0, 36) ]
        else
          [ (k.load == 0, 40), (k.store == 0 || (plane && k.space == 2), 41),
            (!plane || k.rbytes % (16 * eb) == 0, 20), (!plane || k.vbytes % eb == 0, 36) ])
    ++ [ (plane || k.planes == 0, 42), (plane || k.efmt == 0, 43) ])

/-- A piece of a copy: its first byte in the destination's order and in the source's, source address, source bytes, destination address,
destination bytes. But for PLANE, bytes of the destination beyond the source's are zeros. -/
structure Piece where
  at_ : Nat
  from_ : Nat
  src : Nat
  srcLen : Nat
  dst : Nat
  len : Nat
  deriving DecidableEq, Repr

/-- Pieces laid one after the other, from k destination bytes and n source bytes on. -/
def layPieces (k n : Nat) : List (Nat × Nat × Nat × Nat) → List Piece
  | [] => []
  | (src, sl, dst, len) :: rest =>
    { at_ := k, from_ := n, src := src, srcLen := sl, dst := dst, len := len } :: layPieces (k + len) (n + sl) rest

/-- The pieces of a copy in its order (R360, R363, R364). -/
def Copy.pieces (c : Copy) : List Piece :=
  let k := c.card
  match c.job with
  | some (.acp size items _ _) =>
    layPieces 0 0 (items.map (fun e => (e.2.1.toNat, e.2.2, e.1, size)))
  | _ =>
    if c.bxf then [{ at_ := 0, from_ := 0, src := k.src.toNat, srcLen := k.rbytes, dst := k.dst.toNat, len := k.rbytes }]
    else if k.store = 1 then
      let eb := efmtBytes k.efmt
      let l := kblockBytes k.planes
      layPieces 0 0 ((List.range k.rows).flatMap (fun r => (List.range (k.rbytes / eb / 16)).map (fun b =>
        let valid := if r < k.vrows then min (16 * eb) (min k.vbytes k.rbytes - 16 * eb * b) else 0
        (k.src.toNat + r * k.spitch + 16 * eb * b, valid, k.dst.toNat + r * k.dpitch + b * l, l))))
    else
      layPieces 0 0 ((List.range k.rows).map (fun r =>
        (k.src.toNat + r * k.spitch, if r < k.vrows then min k.vbytes k.rbytes else 0, k.dst.toNat + r * k.dpitch, k.rbytes)))

/-- Whether a copy's source, or destination, lies in the pad (R360, R361). -/
def Copy.padSrc (c : Copy) : Bool := match c.job with
  | some (.acp _ _ _ _) => false
  | _ => c.card.space.testBit 0
def Copy.padDst (c : Copy) : Bool := match c.job with
  | some (.acp _ _ _ _) => true
  | _ => c.card.space.testBit 1

/-- The completion word of a copy: its pad offset and the value for OK (R360, R361); none where it names none or the card's
word is misaligned. -/
def Copy.word (c : Copy) : Option (Nat × Nat) := match c.job with
  | some (.acp _ _ w _) => w
  | some (.card _ _ _) => if c.card.cword = 0xFFFFFFFF || c.card.cword % 8 != 0 then none else some (c.card.cword, c.card.cvalue)
  | _ => none

/-- Whether a copy's write of bytes that an item's STS wrote is unordered with that store (R373). -/
def PadNote.unordered (p : PadNote) (e : EngEntry) : Bool :=
  e.group == some p.group && (p.queues.getLsbD e.queue || p.entries.contains e.id)

namespace State

/-- Store a copy's progress. -/
def putCopy (s : State) (c : Copy) : State := { s with copies := updWhere (fun (x : Copy) => x.id == c.id) (fun _ => c) s.copies }

/-- Read source bytes of a copy. -/
def copyRead (s : State) (c : Copy) (a n : Nat) : (Stop ⊕ List PByte) × State :=
  if n = 0 then (.inr [], s)
  else if c.padSrc then
    match s.copyPad c a n with
    | some (core, off) => (.inr (s.readPadP core off n), s)
    | none => (.inl (.fail causePadrange a), s)
  else s.readEngine c.who c.ctx c.fmode a n

/-- A copy's bytes as they come to stand in the pad (R373): of an STS that they share an aligned 8-byte unit with and that is unordered with
the copy, the shared bytes stay, or are overwritten, all of them; a free choice. -/
def settlePad (s : State) (e : EngEntry) (k : Nat) (bs : List PByte) : List PByte × State :=
  let mine (x : Nat) : Bool := decide (k ≤ x) && decide (x < k + bs.length)
  s.padNotes.foldl (fun (acc : List PByte × State) p =>
    if !p.unordered e || !p.keys.any mine then acc
    else
      let (f, s1) := acc.2.draw
      if Config.freeBit f then
        (acc.1.zipIdx.map (fun b => if p.keys.contains (k + b.2) then (Kv.get (0 : Byte) s1.pad (k + b.2), s1.poison.padWords.contains ((k + b.2) / 8)) else b.1), s1)
      else
        (acc.1, { s1 with padNotes := (updWhere (· == p) (fun p => { p with keys := p.keys.filter (fun x => !mine x) }) s1.padNotes).filter (fun p => !p.keys.isEmpty) }))
    (bs, s)

/-- Write pad bytes of a copy. -/
def copyPadWrite (s : State) (c : Copy) (core off : Nat) (bs : List PByte) : State :=
  match c.entry with
  | some e =>
    let r := s.settlePad e (padKey core off) bs
    r.2.writePadP core off r.1
  | none => s.writePadP core off bs

/-- A copy's write of n bytes covers, with what it has written before, poisoned lines of plain pages and poisoned pad words: those are clean
again (R137). -/
def coverUnits (s : State) (c : Copy) (a : Nat) (bs : List PByte) : Copy × State :=
  if s.poison.lines.isEmpty && s.poison.padWords.isEmpty then (c, s)
  else
    let clean := (bs.zipIdx.filter (fun b => !b.1.2)).map (fun b => a + b.2)
    if c.padDst then
      let keys := clean.filterMap (fun x => (s.copyPad c x 1).map (fun p => padKey p.1 p.2))
      let all := (c.covered.2 ++ keys).filter (fun k => s.poison.padWords.contains (k / 8))
      ({ c with covered := (c.covered.1, all) }, s.clearPadWords all)
    else
      let pas := clean.filterMap (fun x => (s.leafFor c.who c.ctx x).bind (fun l => if pteWeave l.pte = 0 then some (l.pa x) else none))
      let all := (c.covered.1 ++ pas).filter (fun pa => s.poison.lines.contains (pa / 128))
      ({ c with covered := (all, c.covered.2) }, s.clearLines all)

/-- Write destination bytes of a copy: progress and barrier counts follow the bytes written (R112). -/
def copyWrite (s : State) (c : Copy) (a : Nat) (bs : List PByte) : Option Stop × Copy × State :=
  let (n, st, s1) : Nat × Option Stop × State :=
    if c.padDst then
      match s.copyPad c a bs.length with
      | some (core, off) => (bs.length, none, s.copyPadWrite c core off bs)
      | none => (0, some (.fail causePadrange a), s)
    else s.writeEngine c.who c.ctx c.fmode a bs
  let (c1, s2) := s1.coverUnits { c with done := c.done + n } a (bs.take n)
  let s3 := match c.bar with
    | some (g, b) => if n = 0 then s2 else s2.countPerformed g b n
    | none => s2
  (st, c1, s3)

/-- The bytes of a piece from byte k on, n of them (R363): those of the source, read in the whole 4-byte units of the run in which they lie (R169),
then zeros. -/
def pieceBytes (s : State) (c : Copy) (p : Piece) (k n : Nat) : (Stop ⊕ List PByte) × State :=
  let from_ := k / 4 * 4
  match s.copyRead c (p.src + from_) (min ((k + n + 3) / 4 * 4) p.srcLen - from_) with
  | (.inl st, s1) => (.inl st, s1)
  | (.inr bs, s1) => (.inr ((bs.drop (k - from_) ++ List.replicate n (0, false)).take n), s1)

/-- The bytes up to n from va on that a copy performs before a stop: it parks and holds at a whole aligned 8-byte unit of its destination (R138),
and a fault leaves every byte before it performed (R363, R367), of a weave page every whole element (R169). -/
def cutAt (s : State) (c : Copy) (st : Stop) (va n : Nat) : Nat :=
  let unit := match st with
    | .fail _ _ => if !c.padDst && (match s.leafFor c.who c.ctx va with | some l => pteWeave l.pte != 0 | none => false) then 4 else 1
    | _ => 8
  (va + n) / unit * unit - va

/-- Perform one piece from where the copy stands, in runs that end with the destination's pages, so that no aligned 8-byte unit of it is cut (R138,
R169); where a read stops, what lies before it is still performed (cutAt). fuel bounds the pages. -/
def doPiece (s : State) (c : Copy) (p : Piece) : Nat → Option Stop × Copy × State
  | 0 => (none, c, s)
  | fuel + 1 =>
    let k := c.done - p.at_
    if p.len ≤ k then (none, c, s)
    else if c.card.store = 1 then
      let eb := efmtBytes c.card.efmt
      match s.copyRead c p.src p.srcLen with
      | (.inl st, s1) => (some st, c, s1)
      | (.inr bs, s1) =>
        let raw := bs.map (·.1) ++ List.replicate (16 * eb - bs.length) 0
        let xs := (List.range 16).map (fun j => (efmtFmt c.card.efmt).decode (fieldOf raw (eb * j) eb))
        let bad := bs.any (·.2)
        let out := (packKblock c.card.planes xs).map (fun b => (b, bad))
        let c1 := { c with read := max c.read (p.from_ + p.srcLen) }
        s1.copyWrite c1 (p.dst + k) (out.drop k)
    else
      let n := min (p.len - k) (65536 - (p.dst + k) % 65536)
      let put (s : State) (n : Nat) (bs : List PByte) : Option Stop × Copy × State :=
        s.copyWrite { c with read := max c.read (p.from_ + min (k + n) p.srcLen) } (p.dst + k) bs
      match s.pieceBytes c p k n with
      | (.inr bs, s1) =>
        (match put s1 n bs with
         | (none, c1, s2) => s2.doPiece c1 p fuel
         | r => r)
      | (.inl st, s1) =>
        let read := st.va - p.src
        let m := s1.cutAt c st (p.dst + k) (read - k)
        if m = 0 then (some st, c, s1)
        else match s1.pieceBytes c { p with srcLen := min p.srcLen read } k m with
          | (.inl st1, s2) => (some st1, c, s2)
          | (.inr bs, s2) => match put s2 m bs with
            | (none, c1, s3) => (some st, c1, s3)
            | r => r

/-- Perform pieces in order. -/
def doPieces (s : State) (c : Copy) : List Piece → Option Stop × Copy × State
  | [] => (none, c, s)
  | p :: ps =>
    match s.doPiece c p (2 * (p.len / 65536 + 2)) with
    | (none, c1, s1) => s1.doPieces c1 ps
    | r => r

/-- How an EXPAND goes on after a command (R365). -/
inductive Expand where
  | stop (st : Stop)
  | finish (status : Nat)
  deriving DecidableEq, Repr

/-- Write what an EXPAND has produced, up to n bytes in all. -/
def expandWrite (s : State) (c : Copy) (n : Nat) : Option Stop × Copy × State :=
  if n ≤ c.done then (none, c, s) else s.copyWrite c (c.card.dst.toNat + c.done) ((c.history.take n).drop c.done)

/-- Write the rest of what an EXPAND has produced before it stops (R365, cutAt). -/
def expandRest (s : State) (c : Copy) (st : Stop) : Option Stop × Copy × State :=
  let va := c.card.dst.toNat + c.done
  s.expandWrite c (c.done + s.cutAt c st va (c.history.length - c.done))

/-- The EXPAND half-chain, command by command (R365): its bytes are written in aligned 8-byte units (R138), the rest at its end. fuel bounds the
commands. -/
def expandLoop (s : State) (len crc : Nat) : Nat → Copy → Expand × Copy × State
  | 0, c => (.finish stBadstream, c, s)
  | fuel + 1, c =>
    let k := c.card
    let o := c.history.length
    let p := c.cmd
    if len ≤ o then (.finish (if crc32c (c.history.map (·.1)) = crc then stOk else stBroken), c, s)
    else if k.rbytes ≤ p then (.finish stBadstream, { c with read := p }, s)
    else match s.copyRead c (k.src.toNat + p) 1 with
      | (.inl st, s1) => (.stop st, { c with read := p }, s1)
      | (.inr cb, s1) =>
        let cmd := (cb.headD (0, false)).1.toNat
        let emit (s : State) (out : List PByte) (at_ p' : Nat) : Expand × Copy × State :=
          let n := o + out.length
          match s.expandWrite { c with history := c.history ++ out, read := at_ }
              (if len ≤ n then n else (k.dst.toNat + n) / 8 * 8 - k.dst.toNat) with
          | (some st, c1, s2) => (.stop st, { c1 with history := c.history }, s2)
          | (none, c1, s2) => s2.expandLoop len crc fuel { c1 with read := p', cmd := p' }
        if cmd < 0x80 then
          let n := cmd + 1
          if k.rbytes < p + 1 + n ∨ len < o + n then (.finish stBadstream, { c with read := p + 1 }, s1)
          else match s1.copyRead c (k.src.toNat + p + 1) n with
            | (.inl st, s2) => (.stop st, { c with read := p + 1 }, s2)
            | (.inr bs, s2) => emit s2 bs (p + 1) (p + 1 + n)
        else
          let n := cmd % 0x80 + 3
          if k.rbytes < p + 3 then (.finish stBadstream, { c with read := p + 1 }, s1)
          else match s1.copyRead c (k.src.toNat + p + 1) 2 with
            | (.inl st, s2) => (.stop st, { c with read := p + 1 }, s2)
            | (.inr ds, s2) =>
              let d := natOf (ds.map (·.1))
              if d = 0 ∨ o < d ∨ len < o + n then (.finish stBadstream, { c with read := p + 3 }, s2)
              else
                let bad := (cb ++ ds).any (·.2)
                let win := c.history.drop (o - d)
                emit s2 ((List.range n).map (fun j => let w := win.getD (j % d) (0, false); (w.1, w.2 || bad))) (p + 3) (p + 3)

/-- The length of the match at distance d (R366). -/
def matchLen (src : Array Byte) (o d : Nat) : Nat → Nat → Nat
  | 0, n => n
  | fuel + 1, n => if src.getD (o + n) 0 = src.getD (o + n - d) 0 then matchLen src o d fuel (n + 1) else n

/-- The longest match at o; among equal lengths the least distance (R366): length and distance. -/
def bestMatch (src : Array Byte) (o : Nat) : Nat × Nat :=
  (List.range (min o 65535)).foldl (fun best i =>
    let n := matchLen src o (i + 1) (min 130 (src.size - o)) 0
    if 3 ≤ n ∧ best.1 < n then (n, i + 1) else best) (0, 0)

/-- Literal runs of at most 128 bytes (R366). -/
def emitLits : Nat → List Byte → List Byte
  | 0, _ => []
  | fuel + 1, lit =>
    if lit.isEmpty then []
    else
      let run := lit.take 128
      BitVec.ofNat 8 (run.length - 1) :: run ++ emitLits fuel (lit.drop 128)

/-- The commands of COMPRESS from o on, lit holding the pending literals (R366). -/
def compressFrom (src : Array Byte) : Nat → Nat → List Byte → List Byte
  | 0, _, lit => emitLits (lit.length + 1) lit
  | fuel + 1, o, lit =>
    if src.size ≤ o then emitLits (lit.length + 1) lit
    else
      let (n, d) := bestMatch src o
      if 3 ≤ n then emitLits (lit.length + 1) lit ++ BitVec.ofNat 8 (n - 3 + 0x80) :: bytesOf 2 d ++ compressFrom src fuel (o + n) []
      else compressFrom src fuel (o + 1) (lit ++ [src.getD o 0])

/-- The stream of COMPRESS: header and commands (R365, R366). -/
def compressStream (src : List Byte) : List Byte :=
  bytesOf 4 src.length ++ bytesOf 4 (crc32c src) ++ compressFrom src.toArray (src.length + 1) 0 []

/-- End a copy. -/
def endCopy (s : State) (c : Copy) (status detail : Nat) (fault : Nat) : State :=
  s.putCopy { c with ended := some { status := status, detail := detail, fault := BitVec.ofNat 64 fault } }

/-- What a stop leads to: parked, held, or ended (R166, R367). A copy held on a MIGRATING page is not parked (assumption log 25). -/
def stopCopy (s : State) (c : Copy) : Stop → State
  | .park va need => s.putCopy { c with parked := some va, need := needBits need, wasParked := true }
  | .hold va need => s.putCopy { c with held := some va, need := needBits need }
  | .fail cause va => if cause = causePadrange then s.endCopy c stPadrange 0 0 else s.endCopy c (statusOfCause cause) 0 va

/-- Carry a started copy on (R363-R366). -/
def runCopy (s : State) (c : Copy) : State :=
  let k := c.card
  if c.bxf && k.load == 1 then
    let (h, c1, s1) : Option Stop × Copy × State :=
      if c.header.isSome || k.rbytes < 8 then (none, c, s)
      else match s.copyRead c k.src.toNat 8 with
        | (.inl st, s1) => (some st, c, s1)
        | (.inr bs, s1) => (none, { c with header := some (fieldOf (bs.map (·.1)) 0 4, fieldOf (bs.map (·.1)) 4 4), read := 8, cmd := 8 }, s1)
    match h, c1.header with
    | some st, _ => s1.stopCopy c1 st
    | none, none => s1.endCopy c1 stBadstream 0 0
    | none, some (len, crc) =>
      if k.dpitch < len then s1.endCopy c1 stDstcap 0 0
      else match s1.expandLoop len crc (k.rbytes + 1) c1 with
        | (.stop st, c2, s2) => match s2.expandRest c2 st with
          | (some st1, c3, s3) => s3.stopCopy c3 st1
          | (none, c3, s3) => s3.stopCopy c3 st
        | (.finish status, c2, s2) =>
          match (if status = stBadstream then s2.expandRest c2 (.fail 0 0) else s2.expandWrite c2 c2.history.length) with
          | (some st, c3, s3) => s3.stopCopy c3 st
          | (none, c3, s3) => s3.endCopy c3 status 0 0
  else if c.bxf && k.store == 2 then
    let (h, c1, s1) : Option Stop × Copy × State :=
      if c.header.isSome then (none, c, s)
      else match s.copyRead c k.src.toNat k.rbytes with
        | (.inl st, s1) => (some st, { c with read := st.va - k.src.toNat }, s1)
        | (.inr bs, s1) => (none, { c with header := some (0, 0), read := k.rbytes
                                           history := (compressStream (bs.map (·.1))).map (fun b => (b, bs.any (·.2))) }, s1)
    match h with
    | some st => s1.stopCopy c1 st
    | none =>
      let out := c1.history.take k.dpitch
      match s1.copyWrite c1 (k.dst.toNat + c1.done) (out.drop c1.done) with
      | (some st, c2, s2) => s2.stopCopy c2 st
      | (none, c2, s2) => s2.endCopy c2 (if k.dpitch < c1.history.length then stDstcap else stOk) 0 0
  else if c.bxf && decide (k.dpitch < k.rbytes) then s.endCopy c stDstcap 0 0
  else match s.doPieces c c.pieces with
    | (some st, c1, s1) => s1.stopCopy c1 st
    | (none, c1, s1) => s1.endCopy c1 stOk 0 0

/-- Whether every pad range of a copy lies in its group's ranges (R123, R360, R362). -/
def footprintOk (s : State) (c : Copy) : Bool :=
  let k := c.card
  let inPad (off n : Nat) : Bool := n == 0 || (s.copyPad c off n).isSome
  let whole := c.bxf && (k.load == 1 || k.store == 2)
  (!c.padDst || (if whole then (s.copyPad c k.dst.toNat k.dpitch).isSome else c.pieces.all (fun p => inPad p.dst p.len)))
    && (!c.padSrc || c.pieces.all (fun p => inPad p.src p.srcLen))
    && (match c.word with | some (w, _) => inPad w 8 | none => true)

/-- Start a copy (R362, R360): its card is read and checked, its footprints are checked, then it runs. -/
def startCopy (s : State) (c : Copy) : State :=
  let go (s : State) (c : Copy) : State :=
    let c1 := { c with started := true }
    if s.footprintOk c1 then s.runCopy c1 else s.endCopy c1 stPadrange 0 0
  match c.job with
  | some (.card bxf addr _) =>
    match s.readEngine c.who c.ctx c.fmode addr.toNat 64 with
    | (.inl st, s1) => s1.stopCopy { c with card := { c.card with cword := 0xFFFFFFFF } } st
    | (.inr bs, s1) =>
      let raw := bs.map (·.1)
      let c1 := { c with card := CopyCard.ofBytes raw, bxf := bxf }
      if bs.any (·.2) then s1.endCopy { c with started := true, card := { c.card with cword := 0xFFFFFFFF } } stPoison 0 addr.toNat
      else if addr.toNat % 64 ≠ 0 then s1.endCopy { c1 with started := true } stBadcopy 0 0
      else match c1.card.bad bxf (zeroField raw 45 3) with
        | some off => s1.endCopy { c1 with started := true } stBadcopy off 0
        | none => go s1 c1
  | _ => go s c

/-- A card that names nothing. -/
def emptyCard : CopyCard :=
  { src := 0, dst := 0, rows := 1, rbytes := 0, spitch := 0, dpitch := 0, vrows := 0, vbytes := 0, load := 0, store := 0, planes := 0
    efmt := 0, space := 0, cword := 0xFFFFFFFF, cvalue := 0, status := 0 }

/-- A copy as an engine takes it up. -/
def newCopy (id cluster engine ctx : Nat) (owner : CopyOwner) (card : CopyCard) (bxf : Bool) : Copy :=
  { id := id, cluster := cluster, engine := engine, owner := owner, ctx := ctx, bxf := bxf, card := card, started := false, done := 0
    read := 0, cmd := 0, header := none, history := [], covered := ([], []), parked := none, held := none, need := 0, wasParked := false, saved := false, ended := none }

/-- The entry an engine takes next from the queues of its cluster's cores: the first of a queue, in the order they entered,
that has nothing to follow (R131, R370). -/
def nextEntry (s : State) (ok : EngEntry → Bool) : Option EngEntry :=
  let live := s.liveEntries
  s.engq.find? (fun e => ok e && !e.after.any (fun x => live.contains x)
    && (s.engq.find? (fun f => f.core == e.core && f.queue == e.queue) == some e))

/-- Whether a copy stands in its engine: it has been taken from its queue, or, of a packet, has started. -/
def Copy.inEngine (c : Copy) : Bool := !c.saved && (c.started || c.entry.isSome || c.parked.isSome || c.held.isSome)

/-- Whether a copy engine may take up another copy: none stands in it but parked streams, which its 16 slots hold (R12, R166). -/
def engineFree (s : State) (cluster engine : Nat) : Bool :=
  let mine := s.copies.filter (fun (c : Copy) => c.cluster == cluster && c.engine == engine && Copy.inEngine c)
  mine.all (fun c => c.parked.isSome) && decide (mine.length ≤ 16)

/-- Whether a copy engine keeps a parked stream in place beside its 16 full slots: no COPY packet starts on it (R166). -/
def engineStuck (s : State) (cluster engine : Nat) : Bool :=
  decide (16 < (s.copies.filter (fun (c : Copy) => c.cluster == cluster && c.engine == engine && Copy.inEngine c && c.parked.isSome)).length)

/-- The copy that an engine carries on: the first that is neither parked nor held nor ended; a packet's copy starts when the engine is
free. -/
def activeCopy (s : State) (cluster engine : Nat) : Option Copy :=
  let free := s.engineFree cluster engine
  s.copies.find? (fun c => c.cluster == cluster && c.engine == engine && !c.saved && c.parked.isNone && c.held.isNone && c.ended.isNone
    && (Copy.inEngine c || free))

/-- The entry that a copy engine would take. -/
def copyEntry (s : State) (cluster engine : Nat) : Option EngEntry :=
  s.nextEntry (fun e => e.queue == engine && clusterOf e.core == cluster)

end State

/-- COPY_PERFORM: an engine carries its copy on, or takes the next one. -/
def execCopyPerform (cluster engine : Nat) (s : State) : Host.Outcome State Fault Refusal :=
  if s.halted cluster then .next s else match s.activeCopy cluster engine with
  | some c => .next (if c.started then s.runCopy c else s.startCopy c)
  | none =>
    if !s.engineFree cluster engine then .next s
    else match s.copyEntry cluster engine with
      | none => .next s
      | some e =>
        let (id, s1) := s.fresh
        let c := State.newCopy id cluster engine e.ctx (.entry e) State.emptyCard false
        .next (State.startCopy { s1 with engq := s1.engq.filter (fun x => x.id != e.id), copies := s1.copies ++ [c] } c)

end Sys2Proof.Machine
end

