-- ==== Sys2Proof/Machine/Queue.lean ====
section
/-! DEFINITION. Host queues (R49-R66): fetch, the board and its scan, completion records, the packets that act at once, the
Creel packets (R132, R134), the COPY packet and the end of a copy (R61, R367-R369). -/

namespace Sys2Proof.Machine

/-- STATUS of a completion record (R65). -/
def pkDone : Nat := 1
def pkPoisoned : Nat := 2
def pkFault : Nat := 3
def pkSigneg : Nat := 4
def pkCoreside : Nat := 5
def pkBadpacket : Nat := 6
def pkDenied : Nat := 7
def pkBroken : Nat := 8
def pkCancelled : Nat := 9

/-- Fields of a packet (R54). -/
def Entry.field (e : Entry) (o n : Nat) : Nat := fieldOf e.bytes o n
def Entry.header (e : Entry) : W64 := BitVec.ofNat 64 (e.field 0 8)
def Entry.type (e : Entry) : Nat := e.field 0 1
def Entry.version (e : Entry) : Nat := (e.header.extractLsb' 8 4).toNat
def Entry.barrier (e : Entry) : Bool := e.header.getLsbD 16
def Entry.tolerates (e : Entry) : Bool := e.header.getLsbD 17 && e.version == 3
def Entry.consumes (e : Entry) : Bool := e.header.getLsbD 18
def Entry.irq (e : Entry) : Bool := e.header.getLsbD 19
def Entry.fwait (e : Entry) : Bool := e.header.getLsbD 20
def Entry.fqueue (e : Entry) : Nat := (e.header.extractLsb' 21 5).toNat
def Entry.ftoken (e : Entry) : Nat := (e.header.extractLsb' 26 6).toNat
def Entry.vec (e : Entry) : Nat := (e.header.extractLsb' 32 8).toNat
def Entry.waits (e : Entry) : W64 := BitVec.ofNat 64 (e.field 8 8)
def Entry.sets (e : Entry) : W64 := BitVec.ofNat 64 (e.field 16 8)

/-- The body bytes that a type lists (R56); those of a CONTEXT packet are fields of its operation (R210). -/
def bodyListed (type b : Nat) : Bool :=
  match type with
  | 0 => false
  | 1 => true
  | 2 => decide (b < 56)
  | 3 => decide (b < 57)
  | 4 => decide (b < 40)
  | 5 => decide (b < 28) || (decide (32 ≤ b) && decide (b < 48))
  | 6 => decide (b < 48)
  | _ => true

/-- Whether a body byte breaks the rule of its type (R55, R56): a byte that is zero in every packet of the type, or the zero bits of LAUNCH's
flags. -/
def Entry.badByte (e : Entry) (b : Nat) : Bool :=
  let x := e.field b 1
  let zero := !bodyListed e.type b || (e.version == 2 && e.type == 1 && decide (52 ≤ b))
  (zero && x != 0) || (e.type == 1 && b == 43 && decide (8 ≤ x))

/-- The zero fields of a CONTEXT packet's operation (R210, R55), each by its offset: those of IDX, PART and CTX where the operation does not use
them, bytes 27 and 30-31, and the zero bits of PAGING's VAL. -/
def Entry.contextZeros (e : Entry) : List (Bool × Nat) :=
  let op := e.field 24 1
  let unused (ops : List Nat) : Bool := decide (op ≤ 8) && !ops.contains op
  [ (!unused [0, 2, 3] || e.field 25 1 == 0, 25), (!unused [0, 8] || e.field 26 1 == 0, 26), (e.field 27 1 == 0, 27),
    (op != 8 || e.field 28 2 == 0, 28), (e.field 30 2 == 0, 30), (op != 1 || decide (e.field 56 1 < 32), 56), (op != 1 || e.field 59 1 == 0, 59) ]

/-- The offset of the first reserved, zero or illegal field of an accepted packet (R55). A header field is named by the byte that holds its
lowest bit; a body byte that no field lists is a field of its own (assumption log 39). -/
def Entry.bad (e : Entry) : Option Nat :=
  let h := e.header
  let v2 := e.version == 2
  let body := ((List.range 36).map (24 + ·)).find? e.badByte
  let at_ := body.getD 0
  firstBad (
    [ (decide (e.type ≤ 7), 0), (e.version == 2 || e.version == 3, 1),
      (!v2 || (!h.getLsbD 17 && h.extractLsb' 20 12 == 0), 2), (h.extractLsb' 40 24 == 0, 5),
      (body.isNone, if v2 && e.type == 1 && decide (52 ≤ at_) then 52 else at_) ]
    ++ (if e.type = 7 then e.contextZeros else []))

/-- Tokens named by a mask. -/
def maskTokens (m : W64) : List Nat := (List.range 64).filter (fun t => m.getLsbD t)

/-- Positions of a queue's slot, and its expected generation (R51). -/
def HostQueue.slots (q : HostQueue) : Nat := 2 ^ q.logn
def HostQueue.slotOf (q : HostQueue) (pos : W32) : Nat := pos.toNat % q.slots
def HostQueue.genOf (q : HostQueue) (pos : W32) : Nat := (pos.toNat / q.slots) % 16

/-- Entries that take a place on the board. -/
def HostQueue.busy (q : HostQueue) : Nat := (q.board.filter (fun e => e.phase != .done)).length

/-- Whether the board is full, or the ring holds no further position (R52). -/
def HostQueue.isFull (q : HostQueue) : Bool := decide (32 ≤ q.busy) || (q.fetch - q.retire).toNat == q.slots

/-- The state a fetching queue settles in (R52). -/
def HostQueue.settle (q : HostQueue) : HostQueue :=
  if q.state = .fetching then
    (if q.fetch = q.tail then { q with state := .empty } else if q.isFull then { q with state := .full } else q)
  else if q.state = .empty && q.fetch != q.tail then { q with state := if q.isFull then .full else .fetching }
  else q

namespace State

def entry? (s : State) (c q pos : Nat) : Option Entry := (s.hq? c q).bind (fun x => x.board.find? (·.pos == pos))

def updEntry (s : State) (c q pos : Nat) (f : Entry → Entry) : State :=
  s.updHq c q (fun x => { x with board := updWhere (fun (e : Entry) => e.pos == pos) f x.board })

/-- The queue and entry that act next: the first entry chosen to start (R57). -/
def chosen? (s : State) : Option (HostQueue × Entry) :=
  s.hqs.findSome? (fun q => (q.board.find? (fun e => e.phase == .chosen)).map (fun e => (q, e)))

/-- An entry has completed and waits for its record (R66); a poisoned wait shows in DETAIL of DONE (R57). -/
def reportEntry (s : State) (c q pos : Nat) (status : Nat) (detail : W32) (progress fault extra : W64) : State :=
  s.updEntry c q pos (fun e =>
    if e.phase == .reporting || e.phase == .done then e
    else { e with phase := .reporting, watches := []
                  report := { status := status, detail := if status = pkDone && e.poisonedWait then detail ||| 1 else detail
                              progress := progress, fault := fault, extra := extra } })

/-- An entry waits for a re-walk (R64). -/
def holdEntry (s : State) (c q pos : Nat) : State := s.updEntry c q pos (fun e => { e with phase := .held })

/-- The word of a signal that is to be decremented, or watched (R61, R62, R64). -/
def signalAt (s : State) (die ctx : Nat) (dec : Bool) (va : Nat) : FwTr × State := s.fwTranslate die ctx .both dec va 8

/-- Decrement a signal at its home atomic engine (R61). -/
def decrement (s : State) (pa : Nat) (dec : W64) : State :=
  let s1 := s.serveLine (pa / 128)
  let new : W64 := BitVec.ofNat 64 (s1.homeNat pa 8) - dec
  (s1.writeHome (.pair 0) pa (bytesOf 8 new.toNat)).touchHot (homeCluster pa) (pa / 128)

/-- Write bytes of the lock-step pair at a virtual address (R64), which may cross a page. -/
def fwWrite (s : State) (die ctx va : Nat) (bs : List Byte) : FwTr × State :=
  let k := min bs.length (65536 - va % 65536)
  match s.fwTranslate die ctx .write false va k with
  | (.ok pa, s1) =>
    if k = bs.length then (.ok pa, s1.writeHome (.pair die) pa bs)
    else match s1.fwTranslate die ctx .write false (va + k) (bs.length - k) with
      | (.ok pa2, s2) => (.ok pa, (s2.writeHome (.pair die) pa (bs.take k)).writeHome (.pair die) pa2 (bs.drop k))
      | r => r
  | r => r

/-- A fetched slot that passes its checks (R51): the bytes; or none, with a page request where the page is ABSENT. DESIGN CHOICE (assumption log
39): a slot on a weave page fails its check, as any access of the lock-step pair to such a page does (R64). -/
def readSlot (s : State) (q : HostQueue) : Option (List Byte) × State :=
  match s.fwTranslate q.home q.ctx .read false (q.ring.toNat + 64 * q.slotOf q.fetch) 64 with
  | (.ok pa, s1) =>
    let bs := s1.bytesAt (.pair q.home) pa 64
    if (fieldOf bs 1 1) / 16 = q.genOf q.fetch && fieldOf bs 60 4 == crc32c (bs.take 60) then (some bs, s1) else (none, s1)
  | (_, s1) => (none, s1)

/-- A new entry of the board (R57). -/
def newEntry (pos : Nat) (bs : List Byte) : Entry :=
  { pos := pos, bytes := bs, phase := .waiting, poisonedWait := false, consumed := false, watches := [], step := 0
    report := { status := 0, detail := 0, progress := 0, fault := 0, extra := 0 } }

/-- The signal addresses of a BARRIER packet (R56): those beyond its count are not looked at (assumption log 39). -/
def signalsOf (e : Entry) : List Nat := (List.range (min 4 (e.field 56 1))).map (fun i => e.field (24 + 8 * i) 8)

/-- How many of a BARRIER's listed signals stand at zero (R65); one that cannot be read does not. -/
def zeroSignals (s : State) (die ctx : Nat) (e : Entry) : Nat :=
  ((signalsOf e).filter (fun va => va % 8 == 0 && (match (s.signalAt die ctx false va).1 with
    | .ok pa => natOf (s.bytesAt (.pair die) pa 8) == 0
    | _ => false))).length

/-- PROGRESS of an entry that completes without the work of its packet (R65). -/
def progressOf (s : State) (q : HostQueue) (e : Entry) : W64 := if e.type = 3 then BitVec.ofNat 64 (s.zeroSignals q.home q.ctx e) else 0

/-- Fetch one position, or stall (R51, R52). LONGSTALL stays until a slot is accepted, also in a queue that leaves STALLED another way
(assumption log 39). -/
def fetchSlot (s : State) (q : HostQueue) : State :=
  match s.readSlot q with
  | (some bs, s1) =>
    s1.updHq q.ctx q.idx (fun x =>
      HostQueue.settle { x with board := x.board ++ [newEntry x.fetch.toNat bs], fetch := x.fetch + 1, state := .fetching, longstall := false })
  | (none, s1) => s1.updHq q.ctx q.idx (fun x => { x with state := .stalled })

end State

/-- PACKET_FETCH (R51, R52). -/
def execPacketFetch (ctx q : Nat) (s : State) : Host.Outcome State Fault Refusal :=
  match s.hq? ctx q with
  | none => .next s
  | some x =>
    if x.state != .fetching then .next s
    else if x.fetch = x.tail || x.isFull then .next (s.updHq ctx q HostQueue.settle)
    else .next (s.fetchSlot x)

/-- SLOT_REREAD_TIMER (R51, R50): a stalled queue reads its slot again, also where TAIL has been moved back to it (assumption log 39); long
tells that it has been stalled for 2^20 cycles. -/
def execSlotRereadTimer (ctx q : Nat) (long : Bool) (s : State) : Host.Outcome State Fault Refusal :=
  match s.hq? ctx q with
  | none => .next s
  | some x =>
    if x.state != .stalled then .next s
    else .next ((s.updHq ctx q (fun x => { x with longstall := x.longstall || long })).fetchSlot x)

/-- TAIL_WRITE (R50, R52). -/
def execTailWrite (ctx q : Nat) (value : BitVec 32) (s : State) : Host.Outcome State Fault Refusal :=
  match s.hq? ctx q with
  | none => .next s
  | some x =>
    if (value - x.retire).toNat ≤ x.slots ∧ (value - x.fetch).toNat < 2 ^ 31 then
      .next (s.updHq ctx q (fun x =>
        let y := { x with tail := value, badtail := false }
        if value = x.tail then y else y.settle))
    else .next (s.updHq ctx q (fun x => { x with badtail := true }))

/-- The tokens an entry waits on (R57): its own and the foreign one, CLEAR where no such queue exists. -/
def State.waitTokens (s : State) (q : HostQueue) (e : Entry) : List Tok :=
  (maskTokens e.waits).map (fun t => q.tokens.getD t .clear)
    ++ (if e.fwait then [match s.hq? q.ctx e.fqueue with | some f => f.tokens.getD e.ftoken .clear | none => .clear] else [])

/-- An entry that leaves the unstarted ones clears the tokens it waited on when CONSUME is 1, run or not (R57). -/
def State.consume (s : State) (c q : Nat) (e : Entry) : State :=
  if e.consumes then s.updHq c q (fun y => { y with tokens := (maskTokens e.waits).foldl (fun ts t => setAt ts t .clear) y.tokens }) else s

/-- The engine of a COPY packet (R369): copy engine 0 of logical cluster f mod n. -/
def State.copyCluster (s : State) (ctx pos : Nat) : Nat :=
  match s.partOf ctx with
  | some p => p.clusters.getD (pos % max 1 p.clusters.length) 0
  | none => 0

/-- Give one unstarted entry its row of R57 (R55 for an entry that is no legal packet). A CONTEXT packet takes its turn (R211); a COPY packet waits
unstarted while its engine keeps a stream in place (R166). -/
def State.scanEntry (s : State) (c q pos : Nat) : State :=
  match s.hq? c q with
  | none => s
  | some x => match x.board.find? (fun e => e.pos == pos) with
    | none => s
    | some e =>
      let heldBack := x.board.any (fun b => (b.pos : Int) != e.pos && b.barrier && b.bad.isNone && b.phase != .done
        && decide ((BitVec.ofNat 32 b.pos - x.retire).toNat < (BitVec.ofNat 32 e.pos - x.retire).toNat))
      if e.phase != .waiting || heldBack then s
      else match e.bad with
        | some off => s.reportEntry c q pos pkBadpacket (BitVec.ofNat 32 off) (s.progressOf x e) 0 0
        | none =>
          let toks := s.waitTokens x e
          if toks.contains .clear || (e.type == 2 && s.engineStuck (s.copyCluster c pos) 0) then s
          else
            let poisoned := toks.contains .poisoned
            let s1 := s.consume c q e
            if poisoned && !e.tolerates then s1.reportEntry c q pos pkPoisoned 0 (s.progressOf x e) 0 0
            else if e.type = 7 then
              let (turn, s2) := s1.fresh
              s2.updEntry c q pos (fun e => { e with phase := .started, watches := [turn], poisonedWait := poisoned, consumed := e.consumes })
            else s1.updEntry c q pos (fun e => { e with phase := .chosen, poisonedWait := poisoned, consumed := e.consumes })

/-- BOARD_SCAN (R57): unstarted entries in ascending position; a halted or dead queue starts nothing. -/
def execBoardScan (ctx q : Nat) (s : State) : Host.Outcome State Fault Refusal :=
  match s.hq? ctx q with
  | none => .next s
  | some x =>
    if x.state = .halted || x.state == .dead then .next s
    else .next (((x.board.filter (fun e => e.phase == .waiting)).map (·.pos)).foldl (fun s p => s.scanEntry ctx q p) s)

/-- The tokens of a queue after a completion (R58). -/
def HostQueue.complete (x : HostQueue) (e : Entry) (done : Bool) : HostQueue :=
  { x with tokens := (maskTokens e.sets).foldl (fun ts t =>
      match ts.getD t .clear, done with
      | .clear, true => setAt ts t .set
      | .set, true => ts
      | .poisoned, _ => ts
      | _, false => setAt ts t .poisoned) x.tokens }

/-- Positions that have completed leave, and RETIRE advances past the leading ones (R66). -/
def HostQueue.advance (x : HostQueue) : Nat → HostQueue
  | 0 => x
  | fuel + 1 =>
    match x.board.find? (fun e => e.pos == x.retire.toNat) with
    | some e => if e.phase = .done then HostQueue.advance { x with board := x.board.filter (·.pos != e.pos), retire := x.retire + 1 } fuel else x
    | none => x

/-- A dead queue poisons its tokens once nothing of it is started (R52). -/
def HostQueue.bury (x : HostQueue) : HostQueue :=
  if x.state = .dead && x.board.all (fun e => e.phase == .done) then { x with tokens := List.replicate 64 .poisoned } else x

/-- PACKET_COMPLETE (R66, R58): the record, the tokens, the vector, RETIRE. A record that leaves the module goes over the link of the
messages (R231). -/
def execPacketComplete (ctx q pos : Nat) (s : State) : Host.Outcome State Fault Refusal :=
  match s.hq? ctx q with
  | none => .next s
  | some x => match x.board.find? (fun e => e.pos == pos) with
    | none => .next s
    | some e =>
      if e.phase != .reporting then .next s
      else
        let r := e.report
        let bs := bytesOf 4 r.status ++ bytesOf 4 r.detail.toNat ++ bytesOf 8 r.progress.toNat ++ bytesOf 8 r.fault.toNat
          ++ bytesOf 8 r.extra.toNat
        let finish (s : State) (written : Bool) : State :=
          let s1 := s.updHq ctx q (fun x =>
            let y := x.complete e (written && r.status == pkDone)
            let z := { y with board := updWhere (fun (b : Entry) => b.pos == pos) (fun b => { b with phase := .done }) y.board }
            let w := (z.advance 40).bury
            if w.state = .full && !w.isFull then HostQueue.settle { w with state := .fetching } else w)
          if e.irq then s1.raise e.vec else s1
        match s.fwWrite x.home ctx (x.cbase.toNat + 32 * (pos % x.slots)) bs with
        | (.ok pa, s1) =>
          let s2 := if s1.linkUp && s1.overLink pa then s1.out (.record pa s1.linkInUse) else s1
          .next (finish s2 true)
        | (.fail _, s1) => .next (finish s1 false)
        | (.hold, s1) => .next s1

/-- Run the start action of the first chosen entry when it is of a type (R57). -/
def State.startPacket (s : State) (type : Nat) (act : State → HostQueue → Entry → State) : Host.Outcome State Fault Refusal :=
  match s.chosen? with
  | none => .next s
  | some (q, e) => if e.type = type then .next (act s q e) else .next s

/-- NOP_PACKET (R63). -/
def execNopPacket (s : State) : Host.Outcome State Fault Refusal :=
  s.startPacket 0 (fun s q e => s.reportEntry q.ctx q.idx e.pos pkDone 0 0 0 0)

/-- A packet's access that failed (R64). -/
def State.failEntry (s : State) (q : HostQueue) (e : Entry) (cause : W32) (va progress : Nat) : State :=
  s.reportEntry q.ctx q.idx e.pos pkFault cause (BitVec.ofNat 64 progress) (BitVec.ofNat 64 va) 0

/-- SIGNAL_PACKET (R61, R64). -/
def execSignalPacket (s : State) : Host.Outcome State Fault Refusal :=
  s.startPacket 4 (fun s q e =>
    let va := e.field 24 8
    if va % 8 ≠ 0 then s.reportEntry q.ctx q.idx e.pos pkBadpacket 24 0 0 0
    else match s.signalAt q.home q.ctx true va with
      | (.ok pa, s1) => (s1.decrement pa (BitVec.ofNat 64 (e.field 32 8))).reportEntry q.ctx q.idx e.pos pkDone 0 0 0 0
      | (.fail c, s1) => s1.failEntry q e c va 0
      | (.hold, s1) => s1.holdEntry q.ctx q.idx e.pos)

/-- MARKER_PACKET (R63, R64). DESIGN CHOICE (assumption log 39): FAULT of one whose unaligned write crosses a page is the packet's address, whichever
page faults. -/
def execMarkerPacket (s : State) : Host.Outcome State Fault Refusal :=
  s.startPacket 6 (fun s q e =>
    let s0 := if e.step = 0 then
        (s.updHq q.ctx q.idx (fun y => { y with tokens := (maskTokens (BitVec.ofNat 64 (e.field 40 8))).foldl (fun ts t => setAt ts t .clear) y.tokens })).updEntry
          q.ctx q.idx e.pos (fun e => { e with step := 1 })
      else s
    match s0.fwWrite q.home q.ctx (e.field 24 8) ((e.bytes.drop 32).take 8) with
    | (.ok _, s1) => s1.reportEntry q.ctx q.idx e.pos pkDone 0 0 0 0
    | (.fail c, s1) => s1.failEntry q e c (e.field 24 8) 0
    | (.hold, s1) => s1.holdEntry q.ctx q.idx e.pos)

/-- What reading a BARRIER's signals gives (R62): their values, a fault, or a hold. -/
inductive SigRead where
  | vals (xs : List W64)
  | fail (cause : W32) (va : Nat)
  | hold
  deriving DecidableEq, Repr

/-- Read the signals of a BARRIER, lowest first (R62, R64). -/
def State.readSignals (s : State) (die ctx : Nat) : List Nat → SigRead × State
  | [] => (.vals [], s)
  | va :: rest =>
    match s.signalAt die ctx false va with
    | (.ok pa, s1) =>
      let s2 := s1.serveLine (pa / 128)
      match s2.readSignals die ctx rest with
      | (.vals xs, s3) => (.vals (BitVec.ofNat 64 (natOf (s2.bytesAt (.pair die) pa 8)) :: xs), s3)
      | r => r
    | (.fail c, s1) => (.fail c va, s1)
    | (.hold, s1) => (.hold, s1)

/-- Evaluate a BARRIER (R62). -/
def State.evalBarrier (s : State) (q : HostQueue) (e : Entry) : State :=
  match s.readSignals q.home q.ctx (State.signalsOf e) with
  | (.vals xs, s1) =>
    let zeros := (xs.filter (· == 0)).length
    match xs.zipIdx.find? (fun p => p.1.msb) with
    | some (v, i) => s1.reportEntry q.ctx q.idx e.pos pkSigneg (BitVec.ofNat 32 i) (BitVec.ofNat 64 zeros) 0 v
    | none =>
      if zeros = xs.length then s1.reportEntry q.ctx q.idx e.pos pkDone 0 (BitVec.ofNat 64 zeros) 0 0
      else s1.updEntry q.ctx q.idx e.pos (fun e => { e with phase := .started, watches := (State.signalsOf e) })
  | (.fail c va, s1) => s1.failEntry q e c va (s1.zeroSignals q.home q.ctx e)
  | (.hold, s1) => s1.holdEntry q.ctx q.idx e.pos

/-- BARRIER_PACKET (R56, R62). DESIGN CHOICE (assumption log 39): a bad count is found before a misaligned address, and named by DETAIL. -/
def execBarrierPacket (s : State) : Host.Outcome State Fault Refusal :=
  s.startPacket 3 (fun s q e =>
    let n := e.field 56 1
    let bad := firstBad (((State.signalsOf e).zipIdx.map (fun p => (p.1 % 8 == 0, 24 + 8 * p.2))))
    if n = 0 ∨ 4 < n then s.reportEntry q.ctx q.idx e.pos pkBadpacket 56 (s.progressOf q e) 0 0
    else match bad with
      | some off => s.reportEntry q.ctx q.idx e.pos pkBadpacket (BitVec.ofNat 32 off) (s.progressOf q e) 0 0
      | none => s.evalBarrier q e)

/-- An evaluation of a started BARRIER. -/
def State.watchEval (s : State) (ctx q pos : Nat) : State :=
  match s.hq? ctx q, s.entry? ctx q pos with
  | some x, some e => if e.phase = .started && e.type == 3 then s.evalBarrier x e else s
  | _, _ => s

/-- SIGNAL_WATCH_NOTIFY and SIGNAL_WATCH_REREAD (R62). -/
def execSignalWatchNotify (ctx q pos : Nat) (s : State) : Host.Outcome State Fault Refusal := .next (s.watchEval ctx q pos)
def execSignalWatchReread (ctx q pos : Nat) (s : State) : Host.Outcome State Fault Refusal := .next (s.watchEval ctx q pos)

/-- The chunks of a CREEL packet's range, or the offset of its first bad field (R132). -/
def creelRange (base len : Nat) : Except Nat (List Nat) :=
  let off := base - 0x100_0000_0000
  let die := off / 0x10_0000_0000
  let lo := off % 0x10_0000_0000
  let inWindow := decide (0x100_0000_0000 ≤ base) && decide (base < 0x140_0000_0000) && decide (lo < creelBytes)
  if base % 0x200_0000 ≠ 0 ∨ !inWindow then .error 32
  else if len = 0 ∨ creelBytes < lo + len ∨ (len % 0x200_0000 ≠ 0 ∧ lo + len ≠ creelBytes) then .error 40
  else .ok ((List.range ((len + 0x1FF_FFFF) / 0x200_0000)).map (fun i => die * 1431 + lo / 0x200_0000 + i))

/-- CREEL packets (R132, R209): op 0 begins loading, op 1 seals. -/
def State.creelPacket (s : State) (q : HostQueue) (e : Entry) (sealing : Bool) (go : State → List Nat → State) : State :=
  if q.ctx = 0 then s.reportEntry q.ctx q.idx e.pos pkDenied 0 0 0 0
  else match creelRange (e.field 32 8) (e.field 40 8) with
    | .error off => s.reportEntry q.ctx q.idx e.pos pkBadpacket (BitVec.ofNat 32 off) 0 0 0
    | .ok cs =>
      let fits (c : Nat) : Bool :=
        let (st, owner) := s.chunk c
        if sealing then st == creelLoading && owner == some q.ctx
        else st == creelFree || (st == creelSealed && (owner.isNone || owner == some q.ctx))
      if !cs.all fits then s.reportEntry q.ctx q.idx e.pos pkDenied 0 0 0 0 else go s cs

/-- CREEL_BEGIN (R132); it settles a CREEL packet of any operation but a seal. -/
def execCreelBegin (s : State) : Host.Outcome State Fault Refusal :=
  s.startPacket 5 (fun s q e =>
    let op := e.field 24 4
    if op = 1 then s
    else if q.ctx != 0 && decide (1 < op) then s.reportEntry q.ctx q.idx e.pos pkBadpacket 24 0 0 0
    else s.creelPacket q e false (fun s cs =>
      { s with creel := cs.foldl (fun m c => Kv.set (creelFree, none) m c (creelLoading, some q.ctx)) s.creel }.reportEntry q.ctx q.idx e.pos pkDone 0 0 0 0))

/-- Whether the pages that n bytes at a virtual address may touch reach into m bytes at a physical one. -/
def State.reaches (s : State) (w : Who) (ctx va n pa m : Nat) : Bool :=
  (List.range (n / 65536 + 2)).any (fun i =>
    match s.leafFor w ctx (va + 65536 * i) with
    | some l =>
      let a := pteFrame l.pte + (va + 65536 * i - l.va) / 65536 * 65536
      decide (a < pa + m) && decide (pa < a + 65536)
    | none => false)

/-- Whether a copy may still write into a physical range: its payload, or its status record (R368). -/
def State.copyInto (s : State) (c : Copy) (pa n : Nat) : Bool :=
  let k := c.card
  let bytes := if c.bxf then (if k.load = 1 ∨ k.store = 2 then k.dpitch else k.rbytes) else k.dpitch * k.rows + k.rbytes
  !c.started || (!c.padDst && s.reaches c.who c.ctx k.dst.toNat bytes pa n) || (k.status != 0 && s.reaches c.who c.ctx k.status.toNat 32 pa n)

/-- The engine work on the way when a seal starts (R134), and whether some of it that may write into the range is still to be performed. -/
def State.onTheWay (s : State) : List Nat := s.liveEntries ++ s.copies.map (·.id)
def State.sealWaits (s : State) (e : Entry) : Bool :=
  let mine (c : Copy) : Bool := e.watches.contains c.id || (match c.entry with | some x => e.watches.contains x.id | none => false)
  let copying := s.copies.filterMap (fun c => c.entry.map (·.id))
  s.entries.any (fun x => e.watches.contains x.id && !copying.contains x.id)
    || s.copies.any (fun c => mine c && s.copyInto c (e.field 32 8) (e.field 40 8))

/-- A seal whose wait is over: the range is written back, and its chunks are SEALED (R132, R134). -/
def State.sealNow (s : State) (q : HostQueue) (e : Entry) : State :=
  s.creelPacket q e true (fun s cs =>
    let s1 := s.flushRange (e.field 32 8) (e.field 40 8)
    { s1 with creel := cs.foldl (fun m c => Kv.set (creelFree, none) m c (creelSealed, some q.ctx)) s1.creel }.reportEntry q.ctx q.idx e.pos pkDone 0 0 0 0)

/-- A seal that has started, and whose wait is over. -/
def State.sealDue (s : State) : Option (HostQueue × Entry) :=
  s.hqs.findSome? (fun q => (q.board.find? (fun e => e.type == 5 && e.phase == .started && !s.sealWaits e)).map (fun e => (q, e)))

/-- CREEL_SEAL (R132, R134): a seal starts, and waits for the engine writes that are on their way; or one whose wait is over seals. -/
def execCreelSeal (s : State) : Host.Outcome State Fault Refusal :=
  match s.sealDue with
  | some (q, e) => .next (s.sealNow q e)
  | none => s.startPacket 5 (fun s q e =>
    if e.field 24 4 ≠ 1 then s
    else s.creelPacket q e true (fun s _ => s.updEntry q.ctx q.idx e.pos (fun e => { e with phase := .started, watches := s.onTheWay })))

/-- COPY_PACKET (R369): one row of the byte count, performed as one stream. -/
def execCopyPacket (s : State) : Host.Outcome State Fault Refusal :=
  s.startPacket 2 (fun s q e =>
    if q.ctx = 0 then s.reportEntry q.ctx q.idx e.pos pkDenied 0 0 0 0
    else if e.field 48 8 % 8 ≠ 0 then s.reportEntry q.ctx q.idx e.pos pkBadpacket 48 0 0 0
    else
      let n := e.field 40 8
      let card := { State.emptyCard with src := BitVec.ofNat 64 (e.field 24 8), dst := BitVec.ofNat 64 (e.field 32 8), rbytes := n, dpitch := n }
      let (id, s1) := s.fresh
      let c := State.newCopy id (s.copyCluster q.ctx e.pos) 0 q.ctx (.packet q.ctx q.idx e.pos) card true
      { s1 with copies := s1.copies ++ [c] }.updEntry q.ctx q.idx e.pos (fun e => { e with phase := .started }))

/-- The record status of a COPY packet's copy (R369): DONE, or its cause. -/
def copyCause (status : Nat) : W32 :=
  if status = stPagefault then causePagefault else if status = stProtfault then causeProtfault
  else if status = stPoison then causePoison else if status = stMisalign then causeMisalign else causeCreelro

/-- Remove a copy. -/
def State.dropCopy (s : State) (id : Nat) : State := { s with copies := s.copies.filter (fun (c : Copy) => c.id != id) }

/-- The end of a COPY packet's copy (R61, R64, R369). -/
def State.endPacketCopy (s : State) (c : Copy) (en : CopyEnd) (ctx q pos : Nat) : State :=
  match s.hq? ctx q, s.entry? ctx q pos with
  | some x, some e =>
    let done := BitVec.ofNat 64 c.done
    if en.status = stCancelled then (s.dropCopy c.id).reportEntry ctx q pos pkCancelled 0 done 0 0
    else if en.status ≠ stOk then (s.dropCopy c.id).reportEntry ctx q pos pkFault (copyCause en.status) done en.fault 0
    else if e.field 48 8 = 0 then (s.dropCopy c.id).reportEntry ctx q pos pkDone 0 done 0 0
    else match s.signalAt x.home ctx true (e.field 48 8) with
      | (.ok pa, s1) => ((s1.decrement pa 1).dropCopy c.id).reportEntry ctx q pos pkDone 0 done 0 0
      | (.fail k, s1) => (s1.dropCopy c.id).failEntry x e k (e.field 48 8) c.done
      | (.hold, s1) => s1.putCopy { c with held := some (e.field 48 8), need := needBits .both }
  | _, _ => s.dropCopy c.id

/-- The completion word of an end (R121, R367). -/
def copyWordValue (c : Copy) (en : CopyEnd) (ok : Nat) : Nat :=
  if en.status = stOk then ok
  else if en.status = stBadstream ∨ en.status = stBroken then 0x8000_0000_0000_0001
  else if en.status = stCancelled then (if c.parked.isSome then 0x8000_0000_0000_0002 else 0x8000_0000_0000_0003)
  else if en.status = stPagefault ∨ en.status = stProtfault ∨ en.status = stPoison ∨ en.status = stCreelro then
    (if c.wasParked then 0x8000_0000_0000_0002 else 0x8000_0000_0000_0003)
  else 0x8000_0000_0000_0003

/-- Write a copy's completion word where its offset lies in the pad range (R367). -/
def State.writeCopyWord (s : State) (c : Copy) (value : Nat → Nat) : State :=
  match c.word with
  | none => s
  | some (off, ok) => match s.copyPad c off 8 with
    | some (core, o) => s.copyPadWrite c core o ((bytesOf 8 (value ok)).map (fun b => (b, false)))
    | none => s

/-- The end of an instruction's copy (R367, R368): status record, completion word, barrier, operation. An ABSENT or MIGRATING page under the record
parks the copy, and a full page-request ring holds it (R210); a cancelled one goes on without the record. -/
def State.endEntryCopy (s : State) (c : Copy) (en : CopyEnd) (e : EngEntry) : State :=
  let status := c.card.status.toNat
  let record := bytesOf 4 (statusWord en.status) ++ bytesOf 4 en.detail ++ bytesOf 8 c.done ++ bytesOf 8 en.fault.toNat ++ bytesOf 8 c.read
  let last (s : State) (value : Nat → Nat) : State :=
    let s1 := s.writeCopyWord c value
    let s2 := match c.bar with
      | some (g, b) => if en.status = stBadstream ∨ en.status = stBroken then s1.breakBar g b 2 else s1
      | none => s1
    (s2.dropCopy c.id).entryDone e.op none 0 0
  let isCard := match e.job with | .card _ _ _ => true | _ => false
  let cancelled := en.status == stCancelled
  if isCard && status != 0 && status % 32 == 0 && (!cancelled || c.parked.isSome) then
    match s.writeEngine c.who c.ctx c.fmode status (record.map (fun b => (b, false))) with
    | (_, none, s1) => last s1 (copyWordValue c en)
    | (_, some (.park va need), s1) =>
      if cancelled then last s1 (copyWordValue c en) else s1.putCopy { c with parked := some va, held := none, need := needBits need }
    | (_, some (.hold va need), s1) =>
      if cancelled then last s1 (copyWordValue c en)
      else if s1.isAbsent c.who c.ctx va then s1.putCopy { c with held := some va, need := needBits need }
      else s1.putCopy { c with parked := some va, held := none, need := needBits need }
    | (_, some (.fail _ _), s1) => last s1 (fun ok => if en.status = stOk then 0x8000_0000_0000_0003 else copyWordValue c en ok)
  else last s (copyWordValue c en)

/-- COPY_END: what a copy that has stopped reports (R367-R369). -/
def execCopyEnd (id : Nat) (s : State) : Host.Outcome State Fault Refusal :=
  match s.copies.find? (fun (c : Copy) => c.id == id) with
  | none => .next s
  | some c => match c.ended with
    | none => .next s
    | some en =>
      if (c.parked.isSome || c.held.isSome || c.saved) && en.status != stCancelled then .next s
      else match c.owner with
        | .packet ctx q pos => .next (s.endPacketCopy c en ctx q pos)
        | .entry e => .next (s.endEntryCopy c en e)

end Sys2Proof.Machine
end

