-- ==== Sys2Proof/Machine/Link.lean ====
section
/-! DEFINITION. Plait ports (R237-R240) and collective jobs (R241-R244). -/

namespace Sys2Proof.Machine

namespace State

def port (s : State) (p : Nat) : Port := s.ports.getD p Port.reset
def updPort (s : State) (p : Nat) (f : Port → Port) : State := { s with ports := s.ports.modify p f }

end State

/-- Whether a port carries traffic (R240). -/
def Port.isUp (p : Port) : Bool := p.state == .up || p.state == .degraded

/-- The STATE field of a port window (R239). -/
def PortState.code : PortState → Nat
  | .down => 0
  | .training => 1
  | .up => 2
  | .degraded => 3
  | .isolated => 4

/-- The die of a port, whose faults stop it (R250). -/
def dieOfPort (p : Nat) : Nat := p / 4

/-- Whether a port runs at all: no die is in HOLD, its own die has not faulted (R246, R250). -/
def State.portRuns (s : State) (p : Nat) : Bool :=
  decide (p < 16) && !s.dies.any (fun d => d.stage == .hold) && !(s.die (dieOfPort p)).faulted

/-- Enter a state, raising the port's vector at a change (R239). -/
def State.portTo (s : State) (p : Nat) (st : PortState) (f : Port → Port) : State :=
  let changed := (s.port p).state != st
  let s1 := s.updPort p (fun x => { f x with state := st })
  if changed then s1.raise (s.port p).vec.toNat else s1

/-- A flit (R237). -/
def flitBytes (type vc : Nat) (seq ack : BitVec 12) (tag : BitVec 26) (payload : List Byte) : List Byte :=
  let header := type * 2 ^ 60 + vc * 2 ^ 58 + seq.toNat * 2 ^ 46 + ack.toNat * 2 ^ 34 + payload.length * 2 ^ 26 + tag.toNat
  let b := bytesOf 8 header ++ payload ++ List.replicate (240 - payload.length) 0
  b ++ bytesOf 8 (crc64 b)

def flitData : Nat := 1
def flitPause : Nat := 2
def flitResume : Nat := 3
def flitNak : Nat := 4

namespace State

/-- Send a flit that is not sequenced. -/
def sendControl (s : State) (p type vc : Nat) : State :=
  let x := s.port p
  s.out (.flit p (flitBytes type vc x.lastOut x.lastIn 0 []))

/-- Send a DATA flit; it is kept until it is acknowledged (R237), and goes behind what is still to be sent again. -/
def sendData (s : State) (p vc : Nat) (tag : BitVec 26) (payload : List Byte) : State :=
  let x := s.port p
  let seq := x.lastOut + 1
  let f : SentFlit := { seq := seq, bytes := flitBytes flitData vc seq x.lastIn tag payload }
  if x.resend.isEmpty then
    (s.updPort p (fun x => { x with lastOut := seq, unacked := x.unacked ++ [f] })).out (.flit p f.bytes)
  else s.updPort p (fun x => { x with lastOut := seq, unacked := x.unacked ++ [f], resend := x.resend ++ [f] })

/-- Flits up to an acknowledged sequence are forgotten (R237). -/
def ackFlits (s : State) (p : Nat) (ack : BitVec 12) : State :=
  s.updPort p (fun x => match x.unacked.findIdx? (fun f => f.seq == ack) with
    | some i => { x with unacked := x.unacked.drop (i + 1), resend := x.resend.filter (fun f => (x.unacked.drop (i + 1)).contains f) }
    | none => x)

/-- The flits that are to be sent again go out in their order, up to the first whose VC is paused (R237, R238). -/
def resendFlits (s : State) (p : Nat) : State :=
  let x := s.port p
  let paused (f : SentFlit) : Bool := x.pausedTx.contains (fieldOf f.bytes 0 8 / 2 ^ 58 % 4)
  (x.resend.takeWhile (fun f => !paused f)).foldl (fun s f => s.out (.flit p f.bytes))
    (s.updPort p (fun x => { x with resend := x.resend.dropWhile (fun f => !paused f) }))

/-- Send again every flit not acknowledged, in the original order (R237). -/
def replayFlits (s : State) (p : Nat) : State :=
  (s.updPort p (fun x => { x with resend := x.unacked })).resendFlits p

/-- Jobs that use a port end LINK (R240, R244). -/
def linkJobs (s : State) (p : Nat) : State :=
  { s with jobs := s.jobs.map (fun (j : CollJob) =>
      if (fieldOf j.card 24 1 == p || fieldOf j.card 25 1 == p) && j.ended.isNone then { j with ended := some (17, 0) } else j) }

/-- Begin training (R240). -/
def beginTraining (s : State) (p : Nat) : State := s.portTo p .training (fun x => { x with lanes := 0, attempts := 1, replayCycles := [] })

/-- Take a port out of service (R240). -/
def stopPort (s : State) (p : Nat) (st : PortState) : State :=
  (s.portTo p st (fun x => { x with lanes := 0, unacked := [], resend := [], rx := [], pausedTx := [], pausedRx := [], lastOut := 0, lastIn := 0 })).linkJobs p

end State

/-- PORT_ENABLE (R240). -/
def execPortEnable (p : Nat) (on : Bool) (s : State) : Host.Outcome State Fault Refusal :=
  if !s.portRuns p then .next s
  else
    let x := s.port p
    if !on then .next (if x.state == .down then s.updPort p (fun x => { x with enable := false }) else (s.stopPort p .down).updPort p (fun x => { x with enable := false }))
    else
      let s1 := s.updPort p (fun x => { x with enable := true })
      if x.state != .down || x.enable then .next s1
      else
        let s2 := (s1.updPort p (fun x => { x with replays := 0 })).beginTraining p
        .next (if x.isolate then s2.stopPort p .isolated else s2)

/-- PORT_ISOLATE (R240). -/
def execPortIsolate (p : Nat) (on : Bool) (s : State) : Host.Outcome State Fault Refusal :=
  if !s.portRuns p then .next s
  else
    let x := s.port p
    let s1 := s.updPort p (fun x => { x with isolate := on })
    if on then .next (if x.isUp || x.state == .training then s1.stopPort p .isolated else s1)
    else .next (if x.state == .isolated && x.enable then s1.beginTraining p else s1)

/-- RETRAIN (R240). -/
def execRetrain (p : Nat) (s : State) : Host.Outcome State Fault Refusal :=
  .next (if s.portRuns p && (s.port p).isUp then (s.beginTraining p).linkJobs p else s)

/-- A training attempt that fails (R240): the third one isolates the port. -/
def State.failTraining (s : State) (p : Nat) : State :=
  if 3 ≤ (s.port p).attempts then s.stopPort p .isolated else s.updPort p (fun x => { x with attempts := x.attempts + 1 })

/-- PORT_TRAIN_DONE (R240): held flits are sent again. -/
def execPortTrainDone (p lanes : Nat) (peerId : BitVec 56) (peerPort : BitVec 4) (s : State) : Host.Outcome State Fault Refusal :=
  if !s.portRuns p || (s.port p).state != .training then .next s
  else if lanes < 4 then .next (s.failTraining p)
  else
    let full := decide (8 ≤ lanes)
    .next ((s.portTo p (if full then .up else .degraded) (fun x =>
      { x with lanes := if full then 8 else 4, peerId := peerId, peerPort := peerPort })).replayFlits p)

/-- PORT_TRAIN_TIMEOUT (R240). -/
def execPortTrainTimeout (p : Nat) (s : State) : Host.Outcome State Fault Refusal :=
  .next (if s.portRuns p && (s.port p).state == .training then s.failTraining p else s)

/-- A NAK received (R237, R240): every flit after ACK is sent again; 16 replays within 2^20 cycles start training. -/
def State.nak (s : State) (p : Nat) (ack : BitVec 12) : State :=
  if !s.portRuns p || !(s.port p).isUp then s
  else
    let now := (s.die (dieOfPort p)).cycle.toNat
    let times := ((s.port p).replayCycles ++ [now]).filter (fun t => decide (now ≤ t + 2 ^ 20))
    let s1 := (s.ackFlits p ack).updPort p (fun x => { x with replays := x.replays + 1, replayCycles := times })
    if 16 ≤ times.length then (s1.beginTraining p).linkJobs p else s1.replayFlits p

/-- NAK_RECEIVE (R237). -/
def execNakReceive (p : Nat) (ack : BitVec 12) (s : State) : Host.Outcome State Fault Refusal := .next (s.nak p ack)

/-- PAUSE and RESUME received (R238). -/
def State.pauseTx (s : State) (p vc : Nat) (on : Bool) : State :=
  if !s.portRuns p || !(s.port p).isUp then s
  else if on then s.updPort p (fun x => { x with pausedTx := if x.pausedTx.contains vc then x.pausedTx else x.pausedTx ++ [vc] })
  else (s.updPort p (fun x => { x with pausedTx := x.pausedTx.filter (· != vc) })).resendFlits p

def execPauseReceive (p vc : Nat) (s : State) : Host.Outcome State Fault Refusal := .next (s.pauseTx p vc true)
def execResumeReceive (p vc : Nat) (s : State) : Host.Outcome State Fault Refusal := .next (s.pauseTx p vc false)

/-- Flits of a VC that wait to be taken. -/
def Port.held (x : Port) (vc : Nat) : Nat := (x.rx.filter (fun r => r.1 == vc)).length

/-- A flit received (R237, R238): one that is damaged or out of sequence is answered by NAK; one received before is passed over. -/
def State.flitIn (s : State) (p : Nat) (b : List Byte) : State :=
  let header : W64 := BitVec.ofNat 64 (fieldOf b 0 8)
  let type := (header.extractLsb' 60 4).toNat
  let vc := (header.extractLsb' 58 2).toNat
  let seq := header.extractLsb' 46 12
  let ack := header.extractLsb' 34 12
  let len := (header.extractLsb' 26 8).toNat
  if !s.portRuns p || !(s.port p).isUp then s
  else if b.length ≠ 256 || fieldOf b 248 8 ≠ crc64 (b.take 248) || 5 < type || vc = 3 || 240 < len then s.sendControl p flitNak 0
  else if type = flitPause then s.pauseTx p vc true
  else if type = flitResume then s.pauseTx p vc false
  else if type = flitNak then s.nak p ack
  else
    let s1 := s.ackFlits p ack
    let last := (s1.port p).lastIn
    if type ≠ flitData then s1
    else if seq = last + 1 then
      let s2 := s1.updPort p (fun x => { x with lastIn := seq, rx := x.rx ++ [(vc, header.extractLsb' 0 26, (b.drop 8).take len)] })
      let x := s2.port p
      if 192 ≤ x.held vc && !x.pausedRx.contains vc then (s2.updPort p (fun x => { x with pausedRx := x.pausedRx ++ [vc] })).sendControl p flitPause vc
      else s2
    else if (last - seq).toNat < 2048 then s1
    else s1.sendControl p flitNak 0

/-- FLIT_RECEIVE (R237). -/
def execFlitReceive (p : Nat) (flit : List Byte) (s : State) : Host.Outcome State Fault Refusal := .next (s.flitIn p flit)

/-- Take the first waiting payload of a VC (R238). -/
def State.takeFlit (s : State) (p vc : Nat) : Option ((BitVec 26 × List Byte) × State) :=
  let x := s.port p
  match x.rx.findIdx? (fun r => r.1 == vc) with
  | none => none
  | some i => match x.rx[i]? with
    | none => none
    | some r =>
      let s1 := s.updPort p (fun x => { x with rx := x.rx.eraseIdx i })
      let s2 := if (s1.port p).held vc ≤ 64 && (s1.port p).pausedRx.contains vc then
        (s1.updPort p (fun x => { x with pausedRx := x.pausedRx.filter (· != vc) })).sendControl p flitResume vc else s1
      some (r.2, s2)

/-! Collective jobs. -/

def CollJob.num (j : CollJob) (o n : Nat) : Nat := fieldOf j.card o n
def CollJob.op (j : CollJob) : Nat := j.num 20 1
def CollJob.wire (j : CollJob) : Nat := j.num 21 1
def CollJob.rank (j : CollJob) : Nat := j.num 22 1
def CollJob.size (j : CollJob) : Nat := j.num 23 1
def CollJob.chunk (j : CollJob) : Nat := j.num 16 4 / max j.size 1
def CollJob.who (j : CollJob) : Who := .coll (dieOfCore j.entry.core)
def CollJob.tag (j : CollJob) : BitVec 26 := BitVec.ofNat 26 (j.num 28 2 * 1024 + j.seq)

/-- Whether every field of a card is in range (R241). -/
def collOk (addr : Nat) (c : List Byte) : Bool :=
  let n := fieldOf c 23 1
  addr % 64 == 0 && fieldOf c 0 8 % 128 == 0 && fieldOf c 8 8 % 128 == 0 && decide (2 ≤ n) && decide (n ≤ 16)
    && fieldOf c 16 4 != 0 && fieldOf c 16 4 % (32 * n) == 0 && decide (fieldOf c 20 1 ≤ 2) && decide (fieldOf c 21 1 ≤ 4)
    && decide (fieldOf c 22 1 < n) && decide (fieldOf c 24 1 < 16) && decide (fieldOf c 25 1 < 16) && decide (fieldOf c 26 1 ≤ 1)
    && zeroField c 27 1 && zeroField c 30 2 && fieldOf c 32 8 % 8 == 0 && decide (fieldOf c 40 8 < 2 ^ 63) && fieldOf c 48 8 % 32 == 0
    && zeroField c 56 8

/-- q of R242: the wire bytes of f32 values. -/
def collQuantise (wire : Nat) (sat : Bool) (xs : List Nat) : List Byte :=
  let vals := xs.map fmtF32.decode
  match wire with
  | 0 => xs.flatMap (bytesOf 4)
  | 1 => vals.flatMap (fun v => bytesOf 2 (fmtBf16.encode .rne sat v))
  | 2 => (chunksOf 32 xs.length vals).flatMap (fun b => let q := quantiseMx .e4m3 sat b; bytesOf 1 q.1 ++ q.2.flatMap (bytesOf 1))
  | w =>
    let t : Ty := if w = 3 then .ply9 else .ply6
    (chunksOf 16 xs.length vals).flatMap (fun b =>
      let q := quantisePly t sat b
      bytesOf 1 q.1 ++ bytesOf 1 (packBits 1 q.2.1) ++ bytesOf (2 * (plyM t + 1)) (packBits (plyM t + 1) q.2.2))

/-- Wire bytes of n elements. -/
def collBytes (wire n : Nat) : Nat :=
  match wire with
  | 0 => 4 * n
  | 1 => 2 * n
  | 2 => 33 * (n / 32)
  | w => (2 + 2 * (plyM (if w = 3 then .ply9 else .ply6) + 1)) * (n / 16)

/-- e of R242: the values of wire bytes. -/
def collExpand (wire : Nat) (bs : List Byte) : List Fv :=
  match wire with
  | 0 => (chunksOf 4 bs.length bs).map (fun b => fmtF32.decode (natOf b))
  | 1 => (chunksOf 2 bs.length bs).map (fun b => fmtBf16.decode (natOf b))
  | 2 => (chunksOf 33 bs.length bs).flatMap (fun b => (b.drop 1).map (fun x => mxValue .e4m3 (fieldOf b 0 1) x.toNat))
  | w =>
    let t : Ty := if w = 3 then .ply9 else .ply6
    let m := plyM t + 1
    (chunksOf (2 + 2 * m) bs.length bs).flatMap (fun b =>
      let field := natOf (b.drop 2)
      (List.range 16).map (fun i => plyValue t (fieldOf b 0 1) ((fieldOf b 1 1 >>> (i / 2)) % 2) ((field >>> (m * i)) % 2 ^ m)))

/-- An f32 result of R242. -/
def f32Of (v : Fv) : Nat := fmtF32.encode .rne false v

/-- The control payload that opens a job (R243), or tells the sender of a mismatch. -/
def CollJob.hello' (j : CollJob) (mismatch : Bool) : List Byte :=
  bytesOf 2 (j.num 28 2) ++ bytesOf 2 j.seq ++ bytesOf 1 j.size ++ bytesOf 1 j.rank ++ bytesOf 1 j.op ++ bytesOf 1 j.wire ++ bytesOf 4 (j.num 16 4)
    ++ bytesOf 1 (if mismatch then 1 else 0)

/-- Whether a sender's opening fits this card (R243). -/
def CollJob.fits (j : CollJob) (b : List Byte) : Bool :=
  fieldOf b 0 2 == j.num 28 2 && fieldOf b 2 2 == j.seq && fieldOf b 4 1 == j.size
    && fieldOf b 5 1 == (j.rank + j.size - 1) % j.size && fieldOf b 6 1 == j.op && fieldOf b 7 1 == j.wire && fieldOf b 8 4 == j.num 16 4

namespace State

def putJob (s : State) (j : CollJob) : State := { s with jobs := updWhere (fun (x : CollJob) => x.id == j.id) (fun _ => j) s.jobs }

/-- End a job with a status and a faulting address. -/
def stopJob (s : State) (j : CollJob) (status va : Nat) : State := s.putJob { j with ended := some (status, BitVec.ofNat 64 va) }

/-- The STATUS of a job that an access stops (R166, R244): R244 gives a weave page's refusal no code (assumption log 25). -/
def jobStatus (c : W32) : Nat :=
  if c = causePagefault then 11 else if c = causePoison then 13 else if c = causeMisalign then Config.misalignStatus.toNat else 12

/-- What a stopped access of a job leads to (R166, R244). -/
def jobStop (s : State) (j : CollJob) : Stop → State
  | .park va _ => s.stopJob j 11 va
  | .hold _ _ => s
  | .fail c va => s.stopJob j (jobStatus c) va

/-- The f32 bits of SRC from an element on (R241): none when the access stops. -/
def collSource (s : State) (j : CollJob) (first n : Nat) : Option (List Nat) × State :=
  let a := j.num 0 8 + 4 * first
  match s.readEngine j.who j.entry.ctx j.entry.fmode a (4 * n) with
  | (.inl st, s1) => (none, s1.jobStop j st)
  | (.inr bs, s1) => match bs.findIdx? (·.2) with
    | some i => (none, s1.stopJob j 13 (a + i))
    | none => (some ((chunksOf 4 (n + 1) (bs.map (·.1))).map natOf), s1)

/-- Write f32 values to DST from an element on: the job with its count, or none when the access stopped. -/
def collDest (s : State) (j : CollJob) (first : Nat) (xs : List Nat) : Option CollJob × State :=
  let bs := xs.flatMap (bytesOf 4)
  match s.writeEngine j.who j.entry.ctx j.entry.fmode (j.num 8 8 + 4 * first) (bs.map (fun b => (b, false))) with
  | (n, none, s1) => (some { j with bytes := j.bytes + n }, s1)
  | (_, some (.hold _ _), _) => (none, s)
  | (n, some st, s1) => (none, s1.jobStop { j with bytes := j.bytes + n } st)

/-- Start the all-gather phase with the member's own chunk (R242). -/
def beginGather (s : State) (j : CollJob) (own : List Nat) : State :=
  let g := collQuantise j.wire ((j.num 26 1).testBit 0) own
  match s.collDest j (j.rank * j.chunk) ((collExpand j.wire g).map f32Of) with
  | (none, s1) => s1
  | (some j1, s1) => s1.putJob { j1 with phase := 1, step := 0, carry := g, sent := 0, got := [] }

/-- A step whose chunk has been received whole (R242). -/
def endCollStep (s : State) (j : CollJob) : State :=
  let n := j.size
  let c := j.chunk
  if j.phase = 0 then
    let k := (j.rank + 2 * n - j.step - 2) % n
    match s.collSource j (k * c) c with
    | (none, s1) => s1
    | (some src, s1) =>
      let acc := ((collExpand j.wire j.got).zip src).map (fun x => f32Of (Fv.add .rne x.1 (fmtF32.decode x.2)))
      let j1 := { j with steps := j.steps + 1, step := j.step + 1, sent := 0, got := [] }
      if j.step + 2 < n then s1.putJob { j1 with carry := collQuantise j.wire ((j.num 26 1).testBit 0) acc }
      else if j.op = 1 then
        match s1.collDest j1 0 acc with
        | (none, s2) => s2
        | (some j2, s2) => s2.stopJob j2 0 0
      else s1.beginGather j1 acc
  else
    match s.collDest j (((j.rank + 2 * n - j.step - 1) % n) * c) ((collExpand j.wire j.got).map f32Of) with
    | (none, s1) => s1
    | (some j1, s1) =>
      let j2 := { j1 with steps := j.steps + 1, step := j.step + 1, sent := 0, carry := j.got, got := [] }
      if j.step + 2 < n then s1.putJob j2 else s1.stopJob j2 0 0

/-- The first chunk of a job (R242). -/
def beginJob (s : State) (j : CollJob) : State :=
  if j.op = 2 then
    match s.collSource j 0 j.chunk with
    | (none, s1) => s1
    | (some own, s1) => s1.beginGather j own
  else
    match s.collSource j (((j.rank + j.size - 1) % j.size) * j.chunk) j.chunk with
    | (none, s1) => s1
    | (some xs, s1) => s1.putJob { j with carry := collQuantise j.wire ((j.num 26 1).testBit 0) xs }

/-- Whether a job may use a port (R244): it is UP or DEGRADED, and its die has not faulted (R250). -/
def jobPort (s : State) (p : Nat) : Bool := (s.port p).isUp && !(s.die (dieOfPort p)).faulted

/-- Carry a job on by one action (R242-R244): its ports are checked, it opens, sends a flit, hears the sender's opening, takes a flit
or ends a step. What tells of a mismatch carries the tag of the opening it answers. -/
def runJob (s : State) (j : CollJob) : State :=
  let send := j.num 24 1
  let recv := j.num 25 1
  let refused (r : Nat × BitVec 26 × List Byte) : Bool := r.1 == 1 && r.2.1 == j.tag && fieldOf r.2.2 12 1 == 1
  if !s.jobPort send || !s.jobPort recv then s.stopJob j 17 0
  else if !j.hello then
    if (s.port send).pausedTx.contains 1 then s
    else (s.sendData send 1 j.tag (j.hello' false)).putJob { j with hello := true }
  else if j.carry.isEmpty then s.beginJob j
  else if j.sent < j.carry.length && !(s.port send).pausedTx.contains 0 then
    let part := (j.carry.drop j.sent).take 240
    (s.sendData send 0 j.tag part).putJob { j with sent := j.sent + part.length }
  else if (s.port send).rx.any refused then
    (s.updPort send (fun x => { x with rx := x.rx.filter (fun r => !refused r) })).stopJob j 18 0
  else if !j.heard then
    match s.takeFlit recv 1 with
    | none => s
    | some ((tag, b), s1) =>
      if fieldOf b 12 1 = 1 then (if tag = j.tag then s1.stopJob j 18 0 else s1)
      else if j.fits b then s1.putJob { j with heard := true }
      else if (s.port recv).pausedTx.contains 1 then s
      else (s1.sendData recv 1 tag (j.hello' true)).stopJob j 18 0
  else if j.got.length < collBytes j.wire j.chunk then
    match s.takeFlit recv 0 with
    | none => s
    | some ((tag, b), s1) => if tag = j.tag then s1.putJob { j with got := j.got ++ b } else s1
  else if j.sent < j.carry.length then s
  else s.endCollStep j

/-- Write a job's status record and completion word (R244): false while a write is held. -/
def reportJob (s : State) (j : CollJob) (status : Nat) (va : W64) : Bool × State :=
  let rec_ := bytesOf 4 status ++ bytesOf 4 j.steps ++ bytesOf 8 j.bytes ++ bytesOf 8 va.toNat ++ bytesOf 8 0
  let put (s : State) (a : Nat) (bs : List Byte) : Option Stop × State :=
    let (_, st, s1) := s.writeEngine j.who j.entry.ctx j.entry.fmode a (bs.map (fun b => (b, false)))
    (st, s1)
  if j.card.isEmpty then (true, s)
  else
    let (st1, s1) := if j.num 48 8 % 32 = 0 then put s (j.num 48 8) rec_ else (none, s)
    match st1 with
    | some (.hold _ _) => (false, s)
    | _ =>
      let word := if status = 0 && st1.isNone then j.num 40 8 else 0x8000000000000003
      let (st2, s2) := if j.num 32 8 % 8 = 0 then put s1 (j.num 32 8) (bytesOf 8 word) else (none, s1)
      match st2 with
      | some (.hold _ _) => (false, s)
      | _ => (true, s2)

/-- End a job whose work is over. -/
def finishJob (s : State) (j : CollJob) (status : Nat) (va : W64) : State :=
  match s.reportJob j status va with
  | (false, s1) => s1
  | (true, s1) => { s1 with jobs := s1.jobs.filter (fun x => x.id != j.id) }.entryDone j.entry.op none 0 0

/-- The ports of an entry's card: none while its read is held; no port where it cannot be read. -/
def collPorts (s : State) (e : EngEntry) : Option (List Nat) :=
  match e.job with
  | .coll a => match s.readEngine (.coll (dieOfCore e.core)) e.ctx e.fmode a.toNat 64 with
    | (.inr bs, _) => some [fieldOf (bs.map (·.1)) 24 1, fieldOf (bs.map (·.1)) 25 1]
    | (.inl (.hold _ _), _) => none
    | _ => some []
  | _ => some []

/-- The entry that starts a job next (R243): no job runs on its ports, and no earlier entry of its queue shares one of them, or may. Jobs on
disjoint ports run concurrently. -/
def collEntry (s : State) : Option EngEntry :=
  let busy := s.jobs.flatMap (fun j => [j.num 24 1, j.num 25 1])
  let live := s.liveEntries
  let mine := s.engq.filter (fun e => e.queue == 4)
  let free (e : EngEntry) (ps : List Nat) : Bool :=
    !ps.any busy.contains && ((mine.takeWhile (fun f => f.id != e.id)).filter (fun f => f.core == e.core)).all (fun f =>
      match s.collPorts f with | some qs => !ps.any qs.contains | none => false)
  mine.find? (fun e => s.inQueue e && !(s.die (dieOfCore e.core)).faulted && !e.after.any (fun x => live.contains x)
    && (match s.collPorts e with | some ps => free e ps | none => false))

/-- Take up an entry (R241, R243): the job sequence counts this module's jobs on the ring. -/
def startJob (s : State) (e : EngEntry) (addr : Nat) : State :=
  let (id, s0) := s.fresh
  let s1 := { s0 with engq := s0.engq.filter (fun x => x.id != e.id) }
  let j : CollJob := { id := id, entry := e, card := [], seq := 0, phase := 0, step := 0, hello := false, heard := false, carry := [], sent := 0
                       got := [], steps := 0, bytes := 0, ended := none }
  let add (s : State) (j : CollJob) : State := { s with jobs := s.jobs ++ [j] }
  match s1.readEngine j.who e.ctx e.fmode addr 64 with
  | (.inl (.hold _ _), _) => s
  | (.inl (.park va _), s2) => add s2 { j with ended := some (11, BitVec.ofNat 64 va) }
  | (.inl (.fail c va), s2) => add s2 { j with ended := some (jobStatus c, BitVec.ofNat 64 va) }
  | (.inr bs, s2) =>
    let c := bs.map (·.1)
    if bs.any (·.2) then add s2 { j with ended := some (13, BitVec.ofNat 64 addr) }
    else if !collOk addr c then add s2 { j with card := c, ended := some (19, 0) }
    else
      let key := fieldOf c 28 2
      let seq := Kv.get 0 s2.ringSeq key
      add { s2 with ringSeq := Kv.set 0 s2.ringSeq key ((seq + 1) % 1024) } { j with card := c, seq := seq }

/-- The first job that can be carried on, carried on by one action. -/
def anyJob (s : State) : List CollJob → Option State
  | [] => none
  | j :: rest =>
    let s1 := if (s.die (dieOfCore j.entry.core)).faulted then s
      else match j.ended with
        | some (status, va) => s.finishJob j status va
        | none => s.runJob j
    if s1.jobs = s.jobs ∧ s1.outs = s.outs ∧ s1.ports = s.ports then s.anyJob rest else some s1

end State

/-- COLL_JOB_END (R241-R244): the collective engines carry a job on, up to its end, or take the next card. -/
def execCollJobEnd (s : State) : Host.Outcome State Fault Refusal :=
  match s.anyJob s.jobs with
  | some s1 => .next s1
  | none => match s.collEntry with
    | none => .next s
    | some e => match e.job with
      | .coll a => .next (s.startJob e a.toNat)
      | _ => .next s

end Sys2Proof.Machine
end

