-- ==== Sys2Proof/Machine/Hank.lean ====
section
/-! DEFINITION. Hanks in memory (R171-R180, R183): the header, leas, blocks and records, what a hank engine reads and writes,
pins and their release. -/

namespace Sys2Proof.Machine

/-- Why a hank operation or beam query does not go on: a status of R181 with the faulting address; an ABSENT page; an access that is held
(R160, R210). -/
inductive HStop where
  | status (n va : Nat)
  | absent (va : Nat)
  | hold
  deriving DecidableEq, Repr

/-- Steps of a hank engine or beam unit: state changes made before a stop stay. -/
abbrev HM := ExceptT HStop (StateM State)

def hkOk : Nat := 0
def hkEnd : Nat := 1
def hkNotfound : Nat := 2
def hkFrozen : Nat := 3
def hkNotfrozen : Nat := 4
def hkHankfull : Nat := 5
def hkNospace : Nat := 6
def hkBadkey : Nat := 7
def hkBadhank : Nat := 8
def hkNocursor : Nat := 9
def hkBadcursor : Nat := 10

/-- The status of a fault (R166, R181). DESIGN CHOICE (assumption log 27): a write or header atomic that the Creel refuses (R133) gives PROTFAULT;
a weave page's refusal has no code of its own (R169, assumption log 25). -/
def hankStatus (c : W32) : Nat :=
  if c = causePagefault then 11 else if c = causePoison then 13 else if c = causeMisalign then stMisalign else 12

/-- A status as an item receives it: the engine never writes a value above 13 (R181). -/
def hankWord (st : Nat) : Nat := if st = stMisalign then Config.misalignStatus.toNat % 14 else st

/-- The stop of an engine access. -/
def HStop.of : Stop → HStop
  | .park va _ => .absent va
  | .hold _ _ => .hold
  | .fail c va => .status (hankStatus c) va

/-- The status a stop gives (R166); none while the access is held. -/
def HStop.status? : HStop → Option Nat
  | .status n _ => some n
  | .absent _ => some 11
  | .hold => none

/-- The faulting address of a stop, or 0 (R202). -/
def HStop.va : HStop → Nat
  | .status _ va => va
  | .absent va => va
  | .hold => 0

/-- Read virtual memory; poison stops. fm is the %fmode of the issuing unit (R30). -/
def hRead (who : Who) (ctx : Nat) (fm : BitVec 4) (va n : Nat) : HM (List Byte) := ExceptT.mk (fun s =>
  match s.readEngine who ctx fm va n with
  | (.inl st, s1) => (.error (.of st), s1)
  | (.inr bs, s1) => match bs.findIdx? (·.2) with
    | some i => (.error (.status 13 (va + i)), s1)
    | none => (.ok (bs.map (·.1)), s1))

/-- Read a number. -/
def hNat (who : Who) (ctx : Nat) (fm : BitVec 4) (va n : Nat) : HM Nat := do return natOf (← hRead who ctx fm va n)

/-- An update of a header's field at the atomic engine of its line (R171, R129): it needs READ and WRITE, and no weave page (R169). -/
def State.engineAtom (s : State) (who : Who) (ctx va : Nat) (bs : List Byte) : Option Stop × State :=
  match s.enginePage who ctx .both va bs.length with
  | (.inl st, s1) => (some st, s1)
  | (.inr l, s1) =>
    if pteWeave l.pte ≠ 0 then (some (.fail causeProtfault va), s1)
    else (none, (s1.writeEngineAt who (l.pa va) (bs.map (fun b => (b, false)))).touchHot (homeCluster (l.pa va)) (l.pa va / 128))

/-- What a hank operation writes: plain bytes, or a field of the header by an atomic (R171). -/
inductive HWrite where
  | plain (va : Nat) (bs : List Byte)
  | atom (va : Nat) (bs : List Byte)
  deriving DecidableEq, Repr

/-- Make one write; a weave page takes it under the %fmode of the issuing unit (R170). -/
def State.hankWrite (s : State) (who : Who) (ctx : Nat) (fm : BitVec 4) : HWrite → Option Stop × State
  | .plain va bs => (s.writeEngine who ctx fm va (bs.map (fun b => (b, false)))).2
  | .atom va bs => s.engineAtom who ctx va bs

/-- Make writes in order, all or none; the request of an ABSENT page stays. -/
def hCommit (who : Who) (ctx : Nat) (fm : BitVec 4) (ws : List HWrite) : HM Unit := ExceptT.mk (fun s =>
  let r := ws.foldl (fun (acc : Option Stop × State) w =>
    if acc.1.isSome then acc else acc.2.hankWrite who ctx fm w) (none, s)
  match r.1 with
  | none => (.ok (), r.2)
  | some (.park va need) => let (st, s1) := s.engineAbsent who ctx need va; (.error (.of st), s1)
  | some st => (.error (.of st), s))

/-- Run steps on a state. -/
def HM.on {α : Type} (m : HM α) (s : State) : Except HStop α × State := m.run.run s

/-- The header of a hank (R171), as an engine reads it for a unit with a %fmode. -/
structure Hank where
  ctx : Nat
  fm : BitVec 4
  at_ : Nat
  flags : Nat
  kbits : Nat
  level : Nat
  payload : Nat
  loglea : Nat
  origin : List Nat
  cell : Nat
  radoff : Nat
  stampctr : Nat
  leadir : Nat
  ranks : Nat
  rankcap : Nat
  summary : Nat
  sumcap : Nat
  pool : Nat
  pooln : Nat
  pooltop : Nat
  nvox : Nat
  deriving DecidableEq, Repr

def Hank.ofBytes (ctx : Nat) (fm : BitVec 4) (at_ : Nat) (b : List Byte) : Hank :=
  { ctx := ctx, fm := fm, at_ := at_, flags := fieldOf b 0 4, kbits := fieldOf b 4 1, level := fieldOf b 5 1, payload := fieldOf b 6 1
    loglea := fieldOf b 7 1, origin := [fieldOf b 8 8, fieldOf b 16 8, fieldOf b 24 8], cell := fieldOf b 32 8, radoff := fieldOf b 40 1
    stampctr := fieldOf b 44 4, leadir := fieldOf b 48 8, ranks := fieldOf b 56 8, rankcap := fieldOf b 64 8, summary := fieldOf b 72 8
    sumcap := fieldOf b 80 8, pool := fieldOf b 88 8, pooln := fieldOf b 96 4, pooltop := fieldOf b 100 4, nvox := fieldOf b 104 4 }

/-- Whether the header keeps every limit (R171). -/
def Hank.ok (h : Hank) (b : List Byte) : Bool :=
  let finite (x : Nat) : Bool := match fmtF64.decode x with | .fin .. => true | _ => false
  let positive : Bool := match fmtF64.decode h.cell with | .fin false m _ => m != 0 | _ => false
  decide (h.flags < 16) && decide (1 ≤ h.kbits ∧ h.kbits ≤ 21) && decide (h.level ≤ min 10 h.kbits)
    && decide (h.payload ≤ 64) && h.payload % 4 == 0 && decide (h.loglea ≤ min 12 (3 * h.kbits))
    && h.origin.all finite && positive && (h.radoff == 0xFF || (h.radoff % 4 == 0 && decide (h.radoff < h.payload)))
    && zeroField b 41 3 && h.leadir % 64 == 0 && h.ranks % 16 == 0 && h.summary % 16 == 0 && h.pool % 4096 == 0 && zeroField b 112 144

def Hank.frozen (h : Hank) : Bool := h.flags.testBit 0
def Hank.hwstamp (h : Hank) : Bool := h.flags.testBit 1
def Hank.ranked (h : Hank) : Bool := h.flags.testBit 3

/-- Read and check a header (R171, R181). DESIGN CHOICE (assumption log 27): an address that is no multiple of 256 is BADHANK before anything is
read. -/
def readHank (who : Who) (ctx : Nat) (fm : BitVec 4) (at_ : Nat) : HM Hank := do
  if at_ % 256 ≠ 0 then throw (.status hkBadhank 0)
  let b ← hRead who ctx fm at_ 256
  let h := Hank.ofBytes ctx fm at_ b
  if h.ok b then return h else throw (.status hkBadhank 0)

/-- Whether a key keeps R173. -/
def Hank.keyOk (h : Hank) (k : Nat) : Bool := decide (k < 2 ^ (3 * h.kbits))

/-- The lea of a key (R174). -/
def Hank.leaOf (h : Hank) (k : Nat) : Nat := k >>> (3 * h.kbits - h.loglea)

/-- The position of a key on each axis, as f64 (R173). -/
def Hank.position (h : Hank) (k : Nat) : List Nat :=
  h.origin.zipIdx.map (fun o =>
    let axis := packBits 1 ((List.range 21).map (fun i => if k.testBit (3 * i + o.2) then 1 else 0))
    let t := fmtF64.encode .rne false (Fv.mul (.fin false (2 * axis + 1) (-1)) (fmtF64.decode h.cell))
    fmtF64.encode .rne false (Fv.add .rne (fmtF64.decode o.1) (fmtF64.decode t)))

/-- An entry of the lea directory with its home engine (R175). -/
structure Lea where
  home : Who
  n : Nat
  at_ : Nat
  first : Nat
  free : Nat
  seq : Nat
  count : Nat
  firstRank : Nat
  nvox : Nat
  deriving DecidableEq, Repr

/-- The hank engine of a logical cluster of a context's partition (R175). -/
def State.hankHome (s : State) (ctx home : Nat) : Who :=
  match s.partOf ctx with
  | some p => .hank (p.clusters.getD (home % max p.clusters.length 1) 0)
  | none => .hank 0

/-- Read a directory entry (R175). -/
def readLea (who : Who) (h : Hank) (n : Nat) : HM Lea := do
  let at_ := h.leadir + 64 * n
  let b ← hRead who h.ctx h.fm at_ 64
  let s ← get
  let l : Lea := { home := s.hankHome h.ctx (fieldOf b 28 2), n := n, at_ := at_, first := fieldOf b 0 8, free := fieldOf b 8 8
                   seq := fieldOf b 16 8, count := fieldOf b 24 4, firstRank := fieldOf b 32 4, nvox := fieldOf b 36 4 }
  if zeroField b 30 2 && zeroField b 40 24 then return l else throw (.status hkBadhank 0)

/-- A gap varint at the front of bytes, and what follows (R176). -/
def varint : List Byte → Option (Nat × List Byte)
  | [] => none
  | b :: rest =>
    let n := ((List.range 8).takeWhile (fun i => b.getLsbD (7 - i))).length
    if rest.length < n then none
    else some ((if n = 8 then 0 else b.toNat % 2 ^ (7 - n)) * 256 ^ n + natOf (rest.take n), rest.drop n)

/-- The shortest gap varint (R176). -/
def varintOf (x : Nat) : List Byte :=
  let n := ((List.range 7).find? (fun n => decide (x < 2 ^ (7 + 7 * n)))).getD (if x < 2 ^ 56 then 7 else 8)
  bytesOf 1 ((0xFF00 >>> n) % 256 + (if n = 8 then 0 else x >>> (8 * n))) ++ bytesOf n x

/-- The records of a block (R175): each key is the one before plus its gap. fuel bounds the records. -/
def parseRecords (payload : Nat) : Nat → Nat → List Byte → Option (List Elem)
  | 0, _, bs => if bs.isEmpty then some [] else none
  | fuel + 1, key, bs =>
    if bs.isEmpty then some []
    else match varint bs with
      | none => none
      | some (gap, rest) =>
        if rest.length < 4 + payload then none
        else
          let e : Elem := { key := key + gap, stamp := BitVec.ofNat 32 (fieldOf rest 0 4), payload := (rest.drop 4).take payload }
          match parseRecords payload fuel e.key (rest.drop (4 + payload)) with
          | some es => some (e :: es)
          | none => none

/-- (key, stamp) order (R175). -/
def Elem.le (a b : Elem) : Bool := decide (a.key < b.key) || (a.key == b.key && decide (a.stamp.toNat ≤ b.stamp.toNat))

/-- The elements of a block, when it passes its own checks (R175). -/
def Hank.parseBlock (h : Hank) (b : List Byte) : Option (List Elem) :=
  let used := fieldOf b 18 2
  if 4072 < used then none
  else match parseRecords h.payload used (fieldOf b 8 8) ((b.drop 24).take used) with
    | none => none
    | some es =>
      if es.length != fieldOf b 16 2 || !es.all (fun e => h.keyOk e.key)
          || es.head?.any (fun e => e.key != fieldOf b 8 8) then none
      else some es

/-- Whether elements stand in order. -/
def inOrder : List Elem → Bool
  | a :: b :: rest => a.le b && inOrder (b :: rest)
  | _ => true

/-- Read a lea's chain from a block on (R175). DESIGN CHOICE (assumption log 27): a block address that is no multiple of 4096 is BADHANK. fuel bounds the blocks; seen holds those visited. -/
def readChainFrom (who : Who) (h : Hank) : Nat → List Nat → Nat → HM (List (Nat × List Elem))
  | 0, _, _ => throw (.status hkBadhank 0)
  | fuel + 1, seen, a => do
    if a = 0 then return []
    if a % 4096 ≠ 0 || seen.contains a then throw (.status hkBadhank 0)
    let b ← hRead who h.ctx h.fm a 4096
    match h.parseBlock b with
    | none => throw (.status hkBadhank 0)
    | some es => return (a, es) :: (← readChainFrom who h fuel (a :: seen) (fieldOf b 0 8))

/-- Read and check a lea's chain (R175). -/
def readChain (l : Lea) (h : Hank) : HM (List (Nat × List Elem)) := do
  let c ← readChainFrom l.home h (2 ^ 52) [] l.first
  if inOrder (c.flatMap (·.2)) then return c else throw (.status hkBadhank 0)

/-- Read and check the blocks that a pin keeps, as their bytes have landed (R172, R183). -/
def readPinned (who : Who) (h : Hank) : List Nat → HM (List Elem)
  | [] => return []
  | a :: rest => do
    match h.parseBlock (← hRead who h.ctx h.fm a 4096) with
    | none => throw (.status hkBadhank 0)
    | some es => return es ++ (← readPinned who h rest)

/-- The bytes of records (R175). -/
def recordsFrom : Option Nat → List Elem → List Byte
  | _, [] => []
  | prev, e :: es => varintOf (e.key - prev.getD e.key) ++ bytesOf 4 e.stamp.toNat ++ e.payload ++ recordsFrom (some e.key) es

/-- The bytes of a block (R175). -/
def blockBytes (next : Nat) (es : List Elem) : List Byte :=
  let r := recordsFrom none es
  bytesOf 8 next ++ bytesOf 8 (es.head?.map (·.key) |>.getD 0) ++ bytesOf 2 es.length ++ bytesOf 2 r.length ++ bytesOf 4 0 ++ r

/-- An element in a block as the engine plans it: with the entry of the move in flight that keeps its bytes reserved (R180). -/
abbrev PElem := Elem × Option Nat

/-- A block as planned: its address, none for a block still to be taken, and what its bytes hold. -/
abbrev PBlock := Option Nat × List PElem

/-- The live elements. -/
def live (es : List PElem) : List Elem := es.filterMap (fun e => if e.2.isNone then some e.1 else none)

/-- Put an element behind those that are not above it. -/
def insertElem (e : PElem) (es : List PElem) : List PElem :=
  let (a, b) := es.span (fun x => x.1.le e.1)
  a ++ e :: b

/-- Cut a block that has grown beyond 4072 bytes in two (R175). -/
def splitBlock (b : PBlock) : List PBlock :=
  if (recordsFrom none (b.2.map (·.1))).length ≤ 4072 then [b]
  else [(b.1, b.2.take (b.2.length / 2)), (none, b.2.drop (b.2.length / 2))]

/-- Insert into the last of several blocks, none empty, whose first element is not above the new one. -/
def insertInto (e : PElem) : List PBlock → List PBlock
  | [] => [(none, [e])]
  | [b] => splitBlock (b.1, insertElem e b.2)
  | b :: c :: rest =>
    if (c.2.head?.map (fun x => x.1.le e.1)).getD false then b :: insertInto e (c :: rest)
    else splitBlock (b.1, insertElem e b.2) ++ c :: rest

/-- Insert an element (R179): blocks that the operation has emptied count for nothing, but the first of them serves when no other
block is left. -/
def insertBlock (e : PElem) (blocks : List PBlock) : List PBlock :=
  match blocks.filter (fun b => !b.2.isEmpty) with
  | [] => [(blocks.head?.bind (·.1), [e])]
  | bs => insertInto e bs

/-- The bytes reserved by a move stand in their block, or keep an unlinked block of their own (R180). -/
def addGhost (blocks : List PBlock) (m : Move) : List PBlock :=
  let g : PElem := (m.elem, some m.entry.id)
  if blocks.any (fun b => b.1 == some m.block) then
    blocks.map (fun b => if b.1 == some m.block then (b.1, insertElem g b.2) else b)
  else
    let (a, c) := blocks.span (fun b => (b.2.head?.map (fun x => x.1.le g.1)).getD true)
    a ++ (some m.block, [g]) :: c

/-- The moves whose bytes a lea keeps reserved. -/
def State.ghosts (s : State) (h : Hank) (n : Nat) : List Move :=
  s.moves.filter (fun m => m.lea == n && m.entry.ctx == h.ctx && (match m.entry.job with | .hank r => r.hank.toNat == h.at_ | _ => false))

/-- The blocks that pins on a lea keep (R183), without those of one cursor. DESIGN CHOICE (assumption log 27): pins, moves and HKRANKs of a
hank are those of one context, also where another context names it by GLOBAL pages. -/
def State.pinned (s : State) (h : Hank) (n : Nat) (but : Option (Nat × Nat × Nat)) : List Nat :=
  (s.cursors.filter (fun c => c.ctx == h.ctx && c.hank.toNat == h.at_ && some (c.core, c.num, c.group) != but)).flatMap (fun c =>
    (c.pins.filter (fun p => p.lea == n)).flatMap (·.blocks))

/-- A lea as the engine plans it. -/
def planOf (chain : List (Nat × List Elem)) (ghosts : List Move) : List PBlock :=
  ghosts.foldl addGhost (chain.map (fun b => (some b.1, b.2.map (fun e => (e, none)))))

/-- For each planned block, from the last on, whether it keeps its address: a pinned block whose bytes would change does not
(R183). The second part is the link that the block before it holds: 0 at the end, none to a block still to be taken. -/
def keepAddrs (pinned : List Nat) (chain : List (Nat × List Elem)) : List PBlock → List (Option Nat) × Option Nat
  | [] => ([], some 0)
  | b :: bs =>
    let (rest, next) := keepAddrs pinned chain bs
    if (live b.2).isEmpty then (b.1 :: rest, next)
    else
      let old := b.1.bind (fun a => chain.find? (fun c => c.1 == a))
      let oldNext := b.1.bind (fun a => some (((chain.dropWhile (fun c => c.1 != a)).drop 1).head?.map (·.1) |>.getD 0))
      let same := old.map (·.2) == some (live b.2) && oldNext == next && next.isSome
      let a := if !same && b.1.any (fun a => pinned.contains a) then none else b.1
      (a :: rest, a)

/-- Give addresses to the blocks that need one. -/
def fillAddrs : List (Option Nat) → List Nat → List Nat
  | [], _ => []
  | some a :: rest, supply => a :: fillAddrs rest supply
  | none :: rest, supply => supply.headD 0 :: fillAddrs rest (supply.drop 1)

/-- The FREE list of a lea (R175). -/
def readFree (l : Lea) (h : Hank) (chain : List Nat) : Nat → List Nat → Nat → HM (List Nat)
  | 0, _, _ => throw (.status hkBadhank 0)
  | fuel + 1, seen, a => do
    if a = 0 then return []
    if a % 4096 ≠ 0 || seen.contains a || chain.contains a then throw (.status hkBadhank 0)
    return a :: (← readFree l h chain fuel (a :: seen) (← hNat l.home h.ctx h.fm a 8))

/-- Take n blocks (R177): from the FREE list, then from the pool. The blocks, the list's new head, the new POOLTOP. -/
def takeBlocks (l : Lea) (h : Hank) (chain : List Nat) (n : Nat) : HM (List Nat × Nat × Nat) := do
  if n = 0 then return ([], l.free, h.pooltop)
  let free ← readFree l h chain (2 ^ 52) [] l.free
  let k := n - free.length
  if k ≠ 0 && h.pooln < h.pooltop + k then throw (.status hkNospace 0)
  return (free.take n ++ (List.range k).map (fun i => h.pool + 4096 * (h.pooltop + i)), (free.drop n).headD 0, h.pooltop + k)

/-- Write blocks as links of a chain: address, the address after it, elements. -/
def linkWrites (chain : List (Nat × List Elem)) : List (Nat × List Elem) → List HWrite
  | [] => []
  | b :: bs =>
    let next := bs.head?.map (·.1) |>.getD 0
    let oldNext := ((chain.dropWhile (fun c => c.1 != b.1)).drop 1).head?.map (·.1) |>.getD 0
    if chain.contains b && oldNext == next then linkWrites chain bs else .plain b.1 (blockBytes next b.2) :: linkWrites chain bs

/-- Put blocks onto a free list, each through its NEXT (R177): the writes, and the list's new head. -/
def freeBlocks (head : Nat) (gone : List Nat) : List HWrite × Nat :=
  gone.foldl (fun acc a => (acc.1 ++ [.plain a (bytesOf 8 acc.2)], a)) ([], head)

/-- Perform an operation of a lea's home sequence that leaves the lea as planned (R175, R177, R179, R183). -/
def commitLea (h : Hank) (l : Lea) (chain : List (Nat × List Elem)) (plan : List PBlock) (pinned : List Nat) : HM Unit := do
  let plan := plan.filter (fun b => !b.2.isEmpty)
  let old := chain.map (·.1)
  let (keep, _) := keepAddrs pinned chain plan
  let (supply, head, top) ← takeBlocks l h old (keep.filter (·.isNone)).length
  let addrs := fillAddrs keep supply
  let placed := addrs.zip (plan.map (·.2))
  let links := (placed.filter (fun b => !(live b.2).isEmpty)).map (fun b => (b.1, live b.2))
  let gone := old.filter (fun a => !addrs.contains a && !pinned.contains a)
  let (frees, head1) := freeBlocks head gone
  let count := (links.map (fun b => b.2.length)).foldl (· + ·) 0
  let dir := bytesOf 8 (links.head?.map (·.1) |>.getD 0) ++ bytesOf 8 head1 ++ bytesOf 8 (l.seq + 1) ++ bytesOf 4 count
  hCommit l.home h.ctx h.fm (linkWrites chain links ++ frees ++ [.plain l.at_ dir]
    ++ (if top = h.pooltop then [] else [.atom (h.at_ + 100) (bytesOf 4 top)]))
  modify (fun s => { s with moves := s.moves.map (fun m =>
    match placed.find? (fun b => b.2.any (fun e => e.2 == some m.entry.id)) with
    | some b => { m with block := b.1 }
    | none => m) })

/-- An operation of a lea that changes nothing but SEQ (R179). -/
def bumpSeq (h : Hank) (l : Lea) : HM Unit := hCommit l.home h.ctx h.fm [.plain (l.at_ + 16) (bytesOf 8 (l.seq + 1))]

/-- Steps at a lea: a status they end with counts as an operation of the lea (R179); a held access is made again later. -/
def atLea {α : Type} (h : Hank) (l : Lea) (m : HM α) : HM α := ExceptT.mk (fun s =>
  match m.on s with
  | (.error .hold, s1) => (.error .hold, s1)
  | (.error st, s1) => match (bumpSeq h l).on s1 with
    | (.ok _, s2) => (.error st, s2)
    | (.error .hold, _) => (.error .hold, s1)
    | (.error _, s2) => (.error st, s2)
  | r => r)

/-- Release one pin (R177): block copies that nothing holds any longer go onto the lea's FREE list; SEQ does not change. -/
def releasePin (h : Hank) (c : Cursor) (p : Pin) : HM Unit := do
  let l ← readLea (.hank (clusterOf c.core)) h p.lea
  let chain ← readChain l h
  let s ← get
  let keep := chain.map (·.1) ++ s.pinned h p.lea (some (c.core, c.num, c.group)) ++ (s.ghosts h p.lea).map (·.block)
  let gone := p.blocks.filter (fun a => !keep.contains a)
  if gone.isEmpty then return ()
  let (frees, head) := freeBlocks l.free gone
  hCommit l.home h.ctx h.fm (frees ++ [.plain (l.at_ + 8) (bytesOf 8 head)])

/-- A query slot is freed: the generation of its handle no longer matches (R206). -/
def BeamSlot.release (b : BeamSlot) : BeamSlot := { b with state := .free, gen := b.gen + 1, entry := none }

namespace State

def updCursor (s : State) (c : Cursor) (f : Cursor → Cursor) : State :=
  { s with cursors := updWhere (fun (x : Cursor) => x.core == c.core && x.num == c.num && x.group == c.group) f s.cursors }

def dropCursor (s : State) (c : Cursor) : State :=
  { s with cursors := s.cursors.filter (fun (x : Cursor) => !(x.core == c.core && x.num == c.num && x.group == c.group)) }

/-- Release a cursor's pins in order (R177): none while one waits for a re-walk, else the first status that is not OK. -/
def releasePins (s : State) (h : Hank) (c : Cursor) : Nat → List Pin → Option Nat × State
  | st, [] => (some st, s)
  | st, p :: ps =>
    match (releasePin h { c with pins := p :: ps } p).on s with
    | (.ok _, s1) => (s1.updCursor c (fun c => { c with pins := ps })).releasePins h c st ps
    | (.error (.status n _), s1) => (s1.updCursor c (fun c => { c with pins := ps })).releasePins h c (if st = 0 then n else st) ps
    | (.error _, s1) => (none, s1)

/-- Close a cursor (R182, R177): none while a release waits, the cursor kept; else its status. malformed tells that the header
breaks R171 and nothing is done. -/
def closeCursor (s : State) (c : Cursor) (fm : BitVec 4) : Option Nat × State :=
  match (readHank (.hank (clusterOf c.core)) c.ctx fm c.hank.toNat).on s with
  | (.ok h, s1) =>
    match s1.releasePins h c 0 c.pins with
    | (some st, s2) => (some st, s2.dropCursor c)
    | (none, s2) => (none, s2)
  | (.error (.status n _), s1) =>
    if n = hkBadhank then (some n, s1) else (some n, s1.dropCursor c)
  | (.error _, s1) => (none, s1)

/-- Close the cursors of a group that goes (R182): pins that must wait are released after a re-walk (R177). -/
def closeGroupCursors (s : State) (gid : Nat) : State :=
  (s.cursors.filter (fun (c : Cursor) => c.group == gid)).foldl (fun s c =>
    match s.closeCursor c 0 with
    | (some _, s1) => s1.dropCursor c
    | (none, s1) => s1.updCursor c (fun c => { c with closed := true })) s

end State

end Sys2Proof.Machine
end

