-- ==== Sys2Proof/Machine/Kernel.lean ====
section
/-! DEFINITION. Launches and their trees (R70-R73, R79-R85), the dispatcher (R90-R94), retirement (R95), BARC continuations
(R114), device queues (R67-R69, R410) and SPAWN (R86-R88, R344). -/

namespace Sys2Proof.Machine

/-- What a LAUNCH packet or a span record asks for (R56, R67). -/
structure LaunchArgs where
  code : W64
  base : Nat
  count : Nat
  size : Nat
  pad : Nat
  gregs : Nat
  bars : Nat
  flags : BitVec 8
  args : W64
  events : W64
  deriving DecidableEq, Repr

/-- The fields of a LAUNCH packet (R56). -/
def LaunchArgs.ofPacket (bs : List Byte) : LaunchArgs :=
  { code := BitVec.ofNat 64 (fieldOf bs 24 8), base := 0, count := fieldOf bs 32 4, size := fieldOf bs 36 2, pad := fieldOf bs 38 3
    gregs := fieldOf bs 41 1, bars := fieldOf bs 42 1, flags := BitVec.ofNat 8 (fieldOf bs 43 1)
    args := BitVec.ofNat 64 (fieldOf bs 44 8), events := BitVec.ofNat 64 (fieldOf bs 52 8) }

/-- The fields of a span record (R67). -/
def LaunchArgs.ofRecord (bs : List Byte) : LaunchArgs :=
  { code := BitVec.ofNat 64 (fieldOf bs 0 8), base := fieldOf bs 8 4, count := fieldOf bs 12 4, size := fieldOf bs 24 2
    pad := fieldOf bs 26 3, gregs := fieldOf bs 29 1, bars := fieldOf bs 30 1, flags := BitVec.ofNat 8 (fieldOf bs 31 1)
    args := BitVec.ofNat 64 (fieldOf bs 16 8), events := BitVec.ofNat 64 (fieldOf bs 32 8) }

/-- Windows of a group, and of them those on the leader and on the follower of a pair (R89, R92). -/
def LaunchArgs.windows (a : LaunchArgs) : Nat := a.size / 64

/-- The pad bytes of a core (R13). -/
def corePad : Nat := 0x18_0000

/-- The first failing check of a launch, as the offset of R70. -/
def State.badLaunch (s : State) (p : Option Part) (a : LaunchArgs) : Option Nat :=
  let cores := match p with | some p => p.cores | none => []
  firstBad
    [ (a.code != 0 && a.code.toNat % 8 == 0, 24), (decide (64 ≤ a.size) && decide (a.size ≤ 1024) && a.size % 64 == 0, 36),
      (decide (a.pad ≤ corePad), 38), (decide (a.gregs ≤ 128), 41), (decide (a.bars ≤ 128), 42),
      (a.flags.extractLsb' 3 5 == 0 && !(a.flags.getLsbD 2 && (a.flags.getLsbD 0 || a.flags.getLsbD 1)), 43),
      (a.events.toNat % 8 == 0, 52), (cores.any (fun c => decide (a.windows * a.gregs ≤ s.coreRows.getD c 2048)), 41) ]

/-- The quotients of R94 for one core with w windows. -/
def coreHolds (rows w gregs pad bars : Nat) : Nat :=
  let qs := (if w * gregs = 0 then [] else [rows / (w * gregs)]) ++ (if pad = 0 then [] else [corePad / roundPad pad])
    ++ (if bars = 0 then [] else [128 / bars]) ++ (if w = 0 then [] else [64 / w])
  (minOf qs).getD 0

/-- Groups of a launch that an empty core, or pair, holds at once (R94). -/
def State.holds (s : State) (size gregs pad bars : Nat) (pair : Bool) (c : Nat) : Nat :=
  let w := size / 64
  let rows (c : Nat) : Nat := s.coreRows.getD c 2048
  if !pair then coreHolds (rows c) w gregs pad bars
  else
    let lead := (w + 1) / 2
    min (coreHolds (rows c) lead gregs pad bars)
      (if w = lead && pad = 0 && bars = 0 then coreHolds (rows c) lead gregs pad bars else coreHolds (rows (c + 1)) (w - lead) gregs pad bars)

/-- The places the dispatcher tries for a group: cores, or leaders of pairs (R92). -/
def placesOf (cores : List Nat) (pair : Bool) : List Nat := if pair then cores.filter (· % 2 == 0) else cores

/-- The sum of R94 against a launch's groups. -/
def State.coresideFits (s : State) (cores : List Nat) (count size gregs pad bars : Nat) (pair : Bool) : Bool :=
  decide ((count + size - 1) / max size 1
    ≤ ((placesOf cores pair).map (s.holds size gregs pad bars pair)).foldl (· + ·) 0)

/-- Whether the groups of a launch, flagged pair or not, are coreside. -/
def Launch.coreside (l : Launch) : Bool := l.flags.getLsbD 0
def Launch.isPair (l : Launch) : Bool := l.flags.getLsbD 1

/-- The groups of a launch. -/
def Launch.groups (l : Launch) : Nat := (l.count + l.size - 1) / max l.size 1

/-- The launched items of a group. -/
def Launch.itemsOf (l : Launch) (gid : Nat) : Nat := min l.size (l.count - gid * l.size)

namespace State

/-- The first failing status of a tree becomes its status (R83). -/
def treeFail (s : State) (ctx : Nat) (t : W32) (status : Nat) (detail : W32) (fault : W64) : State :=
  s.updTree ctx t (fun x => if x.status = pkDone then { x with status := status, detail := detail, fault := fault } else x)

/-- One launch less in a tree; at zero the founding packet completes (R84). A tree whose context has gone completes with its last launch (R206). -/
def treeDec (s : State) (ctx : Nat) (t : W32) : State :=
  match s.tree? ctx t with
  | none => s
  | some x =>
    if (if x.closing then !s.launches.any (fun l => l.ctx == ctx && l.tree == t) else decide (x.counter ≤ 1)) then
      { s with trees := s.trees.filter (fun (y : Tree) => !(y.ctx == ctx && y.id == t)) }.reportEntry ctx x.q x.pos x.status x.detail
        (BitVec.ofNat 64 x.progress) x.fault (BitVec.ofNat 64 x.extra)
    else s.updTree ctx t (fun x => { x with counter := x.counter - 1 })

/-- A launch completes (R80, R83): its tree takes a failing status and one launch less. -/
def finishLaunch (s : State) (l : Launch) (status : Nat) (detail : W32) (fault : W64) : State :=
  let s1 := if status = pkDone then s else s.treeFail l.ctx l.tree status detail fault
  { s1 with launches := s1.launches.filter (fun (x : Launch) => x.id != l.id) }.treeDec l.ctx l.tree

/-- The root span of a launch on a core (R73, R203). -/
def rootUnit (l : Launch) (id core : Nat) (slot : Option Nat) : SUnit :=
  let beam := match l.src with | .record _ 1 b => b | _ => 0
  { id := id, kind := .undealt, launch := l.id, group := none, core := core, slot := slot, lo := 0, cnt := l.count, mask := 0
    pc := l.code, origin := some { word := 0, next := 0, rstack := [], nest := 0, inl := [], clause := 0 }, pcSlot := none, clause := 0
    v := Kv.set (.u 0) (Kv.set (.u 0) [] 0 (.u (beam.extractLsb' 0 32))) 1 (.u (beam.extractLsb' 32 32))
    p := [], k := [], x := [], rstack := [], inl := [], sstack := [], nest := 0, nestmax := 16, fmode := 0, fmodeNext := 0
    tcause := 0, tpc := 0, tval := 0, region := none, wait := .none, closed := [], openB := [], qfens := [], duties := []
    trapFrames := [], asyncTrap := none, turn := 0 }

/-- Put a launch's root span on a core; a coreside launch is dealt completely before it issues (R73, R94). -/
def placeRoot (s : State) (lid core : Nat) (slot : Nat) : State :=
  match s.launch? lid with
  | none => s
  | some l =>
    let (id, s1) := s.fresh
    let s2 := { s1 with units := s1.units ++ [rootUnit l id core (some slot)] }.updLaunch lid
      (fun l => { l with rootCore := some core, rootPlaced := true })
    if l.coreside then (match s2.unit? id with | some u => s2.deal u | none => s2) else s2

/-- Start a launch that passed its checks (R72): it takes its number. -/
def addLaunch (s : State) (ctx : Nat) (a : LaunchArgs) (tree : W32) (src : LaunchSrc) : Nat × State :=
  let num := match s.ctx? ctx with | some c => c.launchCtr | none => 0
  let (id, s1) := s.fresh
  let l : Launch :=
    { id := id, ctx := ctx, num := num, tree := tree, src := src, code := a.code, count := a.count, size := a.size, pad := a.pad
      gregs := a.gregs, bars := a.bars, flags := a.flags, args := a.args, events := a.events, state := .running, rootCore := none
      rootPlaced := false, dealtAll := false, exited := [], retired := [], retiredItems := 0, evHeld := [], age := 0, fault := none
      evFault := none }
  (id, { s1 with launches := s1.launches ++ [l] }.updCtx ctx (fun c => { c with launchCtr := c.launchCtr + 1 }))

/-- What the checks of R70 and R71 give: passed, or the status and DETAIL with which the launch completes. -/
def checkLaunch (s : State) (ctx : Nat) (a : LaunchArgs) : Option (Nat × W32) :=
  let p := s.partOf ctx
  match s.badLaunch p a with
  | some off => some (pkBadpacket, BitVec.ofNat 32 off)
  | none =>
    if a.count = 0 then some (pkDone, 0)
    else
      let cores := match p with | some p => p.cores | none => []
      if a.flags.getLsbD 0 && !s.coresideFits cores a.count a.size a.gregs a.pad a.bars (a.flags.getLsbD 1) then some (pkCoreside, 0)
      else none

end State

/-- The tree that a packet founds (R72). -/
def treeId (ctx q pos : Nat) : W32 := BitVec.ofNat 32 (ctx * 2 ^ 24 + q * 2 ^ 19 + pos % 2 ^ 19)

/-- LAUNCH_PACKET (R70-R73, R209). -/
def execLaunchPacket (s : State) : Host.Outcome State Fault Refusal :=
  s.startPacket 1 (fun s q e =>
    if q.ctx = 0 then s.reportEntry q.ctx q.idx e.pos pkDenied 0 0 0 0
    else
      let a := LaunchArgs.ofPacket e.bytes
      match s.checkLaunch q.ctx a with
      | some (status, detail) => s.reportEntry q.ctx q.idx e.pos status detail 0 0 0
      | none =>
        let t := treeId q.ctx q.idx e.pos
        let (id, s1) := s.addLaunch q.ctx a t (.packet q.idx e.pos)
        let tree : Tree := { ctx := q.ctx, id := t, q := q.idx, pos := e.pos, founder := id, counter := 1, status := pkDone, detail := 0
                             fault := 0, progress := 0, extra := 0, closing := false }
        { s1 with trees := s1.trees ++ [tree] }.updEntry q.ctx q.idx e.pos (fun e => { e with phase := .started }))

namespace State

/-- The cores of a list after the pointer's, then those up to it (R92). -/
def fromPointer (cores : List Nat) (pointer : Nat) : List Nat :=
  cores.filter (fun c => decide (pointer < c)) ++ cores.filter (fun c => decide (c ≤ pointer))

/-- The resident groups that hold resources on a core. -/
def groupsOn (s : State) (c : Nat) : List Group :=
  s.groups.filter (fun g => g.state == .resident && (g.core == c || (g.pair && g.core + 1 == c)))

/-- The lowest free pad range of n bytes among ranges sorted by base (R90). -/
def padFit (n : Nat) : Nat → List (Nat × Nat) → Option Nat
  | base, [] => if base + n ≤ corePad then some base else none
  | base, (b, len) :: rest => if base + n ≤ b then some base else padFit n (max base (b + len)) rest

/-- Rows, pad range and slots for one core of a group: w windows, gregs rows each, k slots (R90). -/
def reserveOn (s : State) (c w gregs pad bars k : Nat) : Option (List Nat × Nat × List Nat) :=
  let here := s.groupsOn c
  let used := here.flatMap (·.rows)
  let rows := if w * gregs = 0 then []
    else (((List.range (s.coreRows.getD c 2048)).map (c * 2048 + ·)).filter (fun r => !used.contains r)).take (w * gregs)
  let ranges := sortBy (·.1) ((here.map (fun g => (if g.core = c then g.padBase else g.padBase2, roundPad g.padBytes))).filter (fun r => r.2 != 0))
  let barsUsed := (here.map (·.bars.length)).foldl (· + ·) 0
  let busy := s.usedSlots
  let slots := (((List.range 64).map (c * 64 + ·)).filter (fun x => !busy.contains x)).take k
  match padFit (roundPad pad) 0 ranges with
  | some base =>
    if rows.length = w * gregs ∧ barsUsed + bars ≤ 128 ∧ slots.length = k then some (rows, if roundPad pad = 0 then 0 else base, slots) else none
  | none => none

/-- Slots that a group of w windows reserves, on its core, or on the two of a pair, by the pieces that reach the follower's share of the
windows (R90): W + pieces - 1 in all (assumption log 23). -/
def slotNeed (w share pieces high : Nat) : Nat × Nat :=
  let follower := if share = 0 then 0 else share + (high - 1)
  (w + pieces - 1 - follower, follower)

/-- The group placed on a core, or on a pair by its leader, where it fits (R90, R92). pieces are the ranges it holds; extra
slots beyond R90's count are asked for at restore (R222). -/
def placeOn (s : State) (g : Group) (pieces : List SUnit) (c : Nat) : Option Group :=
  let w := g.size / 64
  if !g.pair then
    (s.reserveOn c w g.gregs g.padBytes g.bars.length (slotNeed w 0 pieces.length 0).1).map (fun r =>
      { g with state := .resident, core := c, rows := r.1, padBase := r.2.1, slots := r.2.2 })
  else
    let lead := (w + 1) / 2
    let cut := g.base + 64 * lead
    let need := slotNeed w (w - lead) pieces.length (pieces.filter (fun u => decide (cut < u.lo + u.cnt))).length
    match s.reserveOn c lead g.gregs g.padBytes g.bars.length need.1,
      s.reserveOn (c + 1) (w - lead) g.gregs g.padBytes g.bars.length need.2 with
    | some r, some t =>
      some { g with state := .resident, core := c, rows := r.1 ++ t.1, padBase := r.2.1, padBase2 := t.2.1, slots := r.2.2 ++ t.2.2 }
    | _, _ => none

/-- The pad range of a new group reads zero, and so do its rows (R90). -/
def clearPlaced (s : State) (g : Group) : State :=
  let n := roundPad g.padBytes
  let inPad (c base k : Nat) : Bool := decide (padKey c base ≤ k) && decide (k < padKey c base + n)
  let mine (k : Nat) : Bool := inPad g.core g.padBase k || (g.pair && inPad (g.core + 1) g.padBase2 k)
  { s with pad := Kv.keep (fun k => !mine k) s.pad
           rows := Kv.keep (fun k => !g.rows.contains k) s.rows
           poison := { s.poison with padWords := s.poison.padWords.filter (fun w => !mine (8 * w))
                                     rows := s.poison.rows.filter (fun r => !g.rows.contains r) } }

/-- The pieces of a group. -/
def piecesOf (s : State) (gid : Nat) : List SUnit := sortBy (·.lo) (s.units.filter (fun u => u.group == some gid))

/-- Each piece of a placed group takes a slot on the core of its first window (R95). -/
def seatPieces (s : State) (g : Group) : List SUnit → State
  | [] => s
  | u :: us =>
    let core := g.coreOf (u.window g)
    let slot := s.slotFor g core u.id
    (s.updUnit u.id (fun u => { u with core := core, slot := slot })).seatPieces g us

/-- Place one group on the first core, in the round-robin order, that is not barred and on which it fits (R92). DESIGN CHOICE (assumption log 23):
two cores receive a pair group, and the pointer stands at the leader after it. -/
def placeGroup (s : State) (p : Nat) (barred : List Nat) (g : Group) : Option State :=
  match s.part? p with
  | none => none
  | some x =>
    let pieces := s.piecesOf g.id
    match (fromPointer (placesOf x.cores g.pair) x.pointer).findSome? (fun c =>
        if barred.contains c then none else (s.placeOn g pieces c).map (fun g => (c, g))) with
    | none => none
    | some (c, g1) =>
      let s1 := (s.updGroup g.id (fun _ => g1)).updPart p (fun x => { x with pointer := c })
      some ((s1.clearPlaced g1).seatPieces g1 pieces)

/-- Place groups one after the other, all or none (R94). -/
def placeGroups (s : State) (p : Nat) (barred : List Nat) : List Group → Option State
  | [] => some s
  | g :: gs => match s.placeGroup p barred g with
    | none => none
    | some s1 => s1.placeGroups p barred gs

/-- Whether a launch may place work: its context is RUNNING and it does not abort (R81). -/
def placing (s : State) (l : Launch) : Bool :=
  (l.state == .running || l.state == .draining) && (match s.ctx? l.ctx with | some c => c.state == .running | none => false)

/-- The groups of a launch that are ready for placement (R92): the next one, or every group of a coreside launch (R94). -/
def readyGroups (s : State) (l : Launch) : List Group :=
  let mine := s.groups.filter (fun g => g.launch == l.id)
  let dealt := sortBy (·.gid) (mine.filter (fun g => g.state == .dealt))
  if l.coreside then dealt
  else match dealt with
    | [] => []
    | g :: _ =>
      if (List.range g.gid).all (fun j => l.retired.contains j || mine.any (fun x => x.gid == j && x.state != .dealt)) then [g] else []

/-- The head of a partition: the earliest launch with a ready group that is not placed (R93). -/
def headOf (s : State) (p : Nat) : Option Launch :=
  (sortBy (·.id) s.launches).find? (fun l =>
    (match s.ctx? l.ctx with | some c => c.part == some p | none => false) && s.placing l && !(s.readyGroups l).isEmpty)

/-- The cores on which the head's next group would fit when empty (R93), its slots by its pieces among them (R90). -/
def candidates (s : State) (x : Part) (l : Launch) : List Nat :=
  let bare : State := { s with groups := [], units := [] }
  let places := match s.readyGroups l with
    | [] => []
    | g :: _ => (placesOf x.cores l.isPair).filter (fun c => (bare.placeOn g (s.piecesOf g.id) c).isSome)
  if l.isPair then places.flatMap (fun c => [c, c + 1]) else places

/-- The cores barred to a placement of a launch, or of a root span or record (none); none at all while the head's own group
fits, which is placed first (R92, R93). -/
def barred (s : State) (x : Part) (launch : Option Nat) : Option (List Nat) :=
  match s.headOf x.num with
  | none => some []
  | some l =>
    if launch = some l.id then some []
    else if (s.placeGroups x.num [] (s.readyGroups l)).isSome then none
    else if 16 ≤ l.age then some (s.candidates x l) else some []

/-- n placements past the head were made: they add to its age (R93). head is the head before the placements; a launch keeps its age while another
is head. -/
def ageHead (s : State) (head : Option Launch) (n : Nat) : State :=
  match head with
  | none => s
  | some h => s.updLaunch h.id (fun l => { l with age := l.age + n })

/-- The first core in the round-robin order with a free slot that is not barred (R73). -/
def rootCore (s : State) (x : Part) (barred : List Nat) : Option (Nat × Nat) :=
  (fromPointer x.cores x.pointer).findSome? (fun c => if barred.contains c then none else (s.freeSlot c).map (fun k => (c, k)))

/-- The first core in the round-robin order that has a slot for each of n spans (R76, R222). -/
def spanCore (s : State) (x : Part) (n : Nat) : Option Nat :=
  (fromPointer x.cores x.pointer).find? (fun c => decide (n ≤ s.freeSlots c))

/-- Whether a BARC continuation waits for a slot in a partition; it is served ahead of root spans and records (R114). -/
def contWaits (s : State) (p : Nat) : Bool :=
  s.groups.any (fun g => g.state == .resident && !g.conts.isEmpty && (match s.launch? g.launch with
    | some l => s.placing l && (match s.ctx? l.ctx with | some c => c.part == some p | none => false) && (s.freeSlot g.core).isSome
    | none => false))

end State

/-- ROOT_SPAN_PLACE (R73, R92, R93). -/
def execRootSpanPlace (launch : Nat) (s : State) : Host.Outcome State Fault Refusal :=
  match s.launch? launch with
  | none => .next s
  | some l => match s.partOf l.ctx with
    | none => .next s
    | some x =>
      if l.rootPlaced || !s.placing l || s.contWaits x.num then .next s
      else match s.barred x none with
        | none => .next s
        | some bad => match s.rootCore x bad with
          | none => .next s
          | some (c, k) =>
            let head := s.headOf x.num
            .next (((s.updPart x.num (fun x => { x with pointer := c })).placeRoot launch c k).ageHead head 1)

/-- GROUP_PLACE (R90, R92-R94): the placed launch's age is 0 again, and past the head the head's goes up. -/
def execGroupPlace (launch : Nat) (s : State) : Host.Outcome State Fault Refusal :=
  match s.launch? launch with
  | none => .next s
  | some l => match s.partOf l.ctx with
    | none => .next s
    | some x =>
      let gs := s.readyGroups l
      if gs.isEmpty || !s.placing l then .next s
      else match s.barred x (some launch) with
        | none => .next s
        | some bad => match s.placeGroups x.num bad gs with
          | none => .next s
          | some s1 =>
            let head := (s.headOf x.num).filter (fun h => h.id != launch)
            .next ((s1.updLaunch launch (fun l => { l with age := 0 })).ageHead head gs.length)

namespace State

/-- Whether every item of a group has exited. -/
def groupEmpty (l : Launch) (g : Group) : Bool :=
  (List.range (l.itemsOf g.gid)).all (fun k => g.exited.testBit k)

/-- Whether work of a group is still with an engine (R79, R385): copies, beam queries, tile instructions. -/
def groupBusy (s : State) (g : Group) : Bool :=
  s.engq.any (fun e => e.group == some g.id && (decide (e.queue < 2) || e.queue == 3))
    || s.copies.any (fun c => match c.entry with | some e => e.group == some g.id | none => false)
    || s.beams.any (fun b => b.group == g.id && b.state == .running)
    || s.mmaq.any (fun m => m.group == g.id)

/-- Whether a beam query of a group still runs, on a die that runs (R206, R250). -/
def querying (s : State) (g : Group) : Bool := s.beams.any (fun (b : BeamSlot) => b.group == g.id && b.state == .running && !s.halted b.cluster)

/-- Entries leave their queues without being performed. -/
def dropEntries (s : State) (p : EngEntry → Bool) : State :=
  (s.engq.filter p).foldl (fun s e => s.entryDone e.op none e.lane 0) { s with engq := s.engq.filter (fun e => !p e) }

/-- The QUEUED queries of an aborting launch leave queue 3 without running (R81, R206). -/
def dropQueries (s : State) (l : Launch) : State := s.dropEntries (fun e => e.queue == 3 && e.launch == l.id)

/-- A group gives up everything it holds (R95): rows, pad, barriers, slots, cursors (R182), query slots with what waits for them (R206), its tile
(R375). -/
def releaseGroup (s : State) (g : Group) : State :=
  let s := (s.closeGroupCursors g.id).dropEntries (fun e => e.queue == 8 && e.group == some g.id)
  { s with padNotes := s.padNotes.filter (fun p => p.group != g.id)
           groups := s.groups.filter (fun (x : Group) => x.id != g.id)
           beams := updWhere (fun (b : BeamSlot) => b.group == g.id && b.state == .done) BeamSlot.release s.beams
           tiles := updWhere (fun (t : Tile) => t.group == some g.id) (fun t => { t with group := none }) s.tiles }

/-- The die whose pair acts for a launch's tree (R79). -/
def treeHome (s : State) (l : Launch) : Nat :=
  match s.tree? l.ctx l.tree with
  | some t => (match s.hq? l.ctx t.q with | some q => q.home | none => 0)
  | none => 0

/-- Write a group's event word, or hold the write (R79). -/
def writeEvent (s : State) (l : Launch) (gid : Nat) : State :=
  if l.events = 0 then s
  else
    let va := (l.events + 8 * BitVec.ofNat 64 gid).toNat
    match s.fwTranslate (s.treeHome l) l.ctx .write false va 8 with
    | (.ok pa, s1) => (s1.writeHome (.pair (s.treeHome l)) pa (bytesOf 8 1)).updLaunch l.id (fun l => { l with evHeld := l.evHeld.filter (· != gid) })
    | (.fail c, s1) => s1.updLaunch l.id (fun l =>
        { l with evHeld := l.evHeld.filter (· != gid), evFault := if l.evFault.isNone then some (c, BitVec.ofNat 64 va) else l.evFault })
    | (.hold, s1) => s1.updLaunch l.id (fun l => { l with evHeld := if l.evHeld.contains gid then l.evHeld else l.evHeld ++ [gid] })

/-- A launch whose last group has retired completes once its events are written (R80). -/
def checkComplete (s : State) (lid : Nat) : State :=
  match s.launch? lid with
  | none => s
  | some l =>
    if l.state == .draining && l.retired.length == l.groups && l.evHeld.isEmpty then
      match l.evFault with
      | some (c, a) => s.finishLaunch l pkFault c a
      | none => s.finishLaunch l pkDone 0 0
    else s

/-- Count a group as retired, in the launch and, for a founding launch, in its tree (R84). -/
def countRetired (s : State) (l : Launch) (gid : Nat) : State :=
  let s1 := s.updLaunch l.id (fun l => { l with retired := l.retired ++ [gid], retiredItems := l.retiredItems + l.itemsOf gid })
  s1.updTree l.ctx l.tree (fun t =>
    if t.founder = l.id then { t with progress := t.progress + l.itemsOf gid, extra := t.extra + 1 } else t)

/-- Whether a group that was never dealt has lost all its items (R79). -/
def neverDealt (s : State) (l : Launch) (gid : Nat) : Bool :=
  decide (gid < l.groups) && !l.retired.contains gid && !s.groups.any (fun g => g.launch == l.id && g.gid == gid)
    && (List.range (l.itemsOf gid)).all (fun k => l.hasExited (gid * l.size + k))

end State

/-- GROUP_RETIRE (R79, R80, R95): not while a continuation is recorded or running (R114). Of an aborting launch only the held event of a
group that has retired is still written (R82). -/
def execGroupRetire (launch gid : Nat) (s : State) : Host.Outcome State Fault Refusal :=
  match s.launch? launch with
  | none => .next s
  | some l =>
    let running := match s.ctx? l.ctx with | some c => c.state == .running || c.state == .suspending | none => false
    if !running then .next s
    else if l.evHeld.contains gid then .next ((s.writeEvent l gid).checkComplete launch)
    else if l.state == .aborting then .next s
    else if s.neverDealt l gid then
      -- in ascending group index (R79)
      if (List.range gid).any (s.neverDealt l) then .next s
      else .next (((s.countRetired l gid).writeEvent l gid).checkComplete launch)
    else match s.groups.find? (fun g => g.launch == launch && g.gid == gid) with
      | none => .next s
      | some g =>
        if g.state == .resident && State.groupEmpty l g && g.conts.isEmpty && g.bars.all (·.cont.isNone) && !s.groupBusy g && (s.piecesOf g.id).isEmpty then
          .next ((((s.releaseGroup g).countRetired l gid).writeEvent l gid).checkComplete launch)
        else .next s

/-- The end of an aborting launch of which no span is left (R81, R82, R95, R206): once no copy, running query or held event is left it completes
FAULT; one of a context that has gone waits for its running queries alone. -/
def State.abortDone (s : State) (l : Launch) : State :=
  let gs := s.groups.filter (fun g => g.launch == l.id)
  let gone := match s.tree? l.ctx l.tree with | some t => t.closing | none => false
  if gs.any (fun g => if gone then s.querying g else s.groupBusy g) || !l.evHeld.isEmpty then s
  else
    let s1 := gs.foldl (fun s g => s.releaseGroup g) s
    let (c, a) := l.fault.getD (0, 0)
    s1.finishLaunch l pkFault c a

/-- LAUNCH_ABORT_DONE (R81): the queued queries of every aborting launch go unrun, and each of which no span is left comes to its end. -/
def execLaunchAbortDone (s : State) : Host.Outcome State Fault Refusal :=
  let gone := s.launches.filter (fun l => l.state == .aborting)
  let s1 := gone.foldl (fun s l => s.dropQueries l) s
  .next ((gone.filter (fun l => !s1.units.any (·.launch == l.id))).foldl (fun s l => s.abortDone l) s1)

/-- The span of a continuation (R114). -/
def contUnit (l : Launch) (g : Group) (c : Cont) (id slot : Nat) : SUnit :=
  { State.rootUnit l id g.core (some slot) with
    kind := .span, group := some g.id, lo := c.lo, cnt := c.cnt, pc := c.code
    v := Kv.set (.u 0) (Kv.set (.u 0) [] 0 (.u c.phase)) 1 (.u (BitVec.ofNat 32 c.bar)) }

/-- BARC_CONTINUATION_START (R114): of the first group with a continuation that finds a free slot. -/
def execBarcContinuationStart (s : State) : Host.Outcome State Fault Refusal :=
  let ready (g : Group) : Option (Launch × Nat) := match s.launch? g.launch with
    | some l => if s.placing l then (s.freeSlot g.core).map (fun k => (l, k)) else none
    | none => none
  match s.groups.find? (fun g => g.state == .resident && !g.conts.isEmpty && (ready g).isSome) with
  | none => .next s
  | some g => match ready g, g.conts with
    | some (l, k), c :: rest =>
      let (id, s1) := s.fresh
      let clear := (List.range c.cnt).foldl (fun m j => if m.testBit (c.lo + j - g.base) then m - 2 ^ (c.lo + j - g.base) else m) g.exited
      .next ({ s1 with units := s1.units ++ [contUnit l g c id k] }.updGroup g.id (fun g => { g with conts := rest, exited := clear }))
    | _, _ => .next s

/-- What an access to a device queue meets (R410). -/
inductive DqTr where
  | ok (pa : Nat)
  | absent (need : Need) (va : Nat)
  | mig (va : Nat)
  | bad (cause : W32) (va : Nat)
  deriving DecidableEq, Repr

namespace State

/-- An access to n bytes of one page of a device queue's descriptor or ring, which needs READ and WRITE, settled by the first row of R410
that matches. -/
def dqAccess (s : State) (who : Who) (ctx va n : Nat) : DqTr × State :=
  match s.leafOf who ctx va with
  | (none, s1) => (.bad causePagefault va, s1)
  | (some l, s1) =>
    let p := l.pte
    let pa := l.pa va
    if !pteBit p 1 then (.absent .both va, s1)
    else if pteBit p 9 then (.mig va, s1)
    else if !grants .both p || pteWeave p != 0 then (.bad causeProtfault va, s1)
    else if (match s1.kind pa with | .creel _ => true | _ => false) then (.bad causeCreelro va, s1)
    else if pteBit p 10 || s1.unreadable pa n then (.bad causePoison va, s1.countLost pa)
    else (.ok pa, s1)

/-- The accesses to every page of a ring; the first that fails, else the place of the first byte. -/
def dqRing (s : State) (who : Who) (ctx : Nat) : List (Nat × Nat) → Option DqTr × State
  | [] => (none, s)
  | (va, n) :: rest => match s.dqAccess who ctx va n with
    | (.ok _, s1) => s1.dqRing who ctx rest
    | (r, s1) => (some r, s1)

/-- The pages of a ring, as address and bytes. -/
def ringPages (ring n : Nat) : List (Nat × Nat) :=
  let k := (ring + 64 * n - 1) / 65536 - ring / 65536 + 1
  (List.range k).map (fun i =>
    let a := if i = 0 then ring else (ring / 65536 + i) * 65536
    (a, min (65536 - a % 65536) (ring + 64 * n - a)))

/-- A producer's access to the descriptor and all of the ring (R410): the descriptor's place, or what stops it. -/
def dqProducer (s : State) (who : Who) (d : DevQueue) : DqTr × State :=
  match s.dqAccess who d.ctx d.desc.toNat 64 with
  | (.ok pa, s1) => match s1.dqRing who d.ctx (ringPages d.ring.toNat (2 ^ d.logn)) with
    | (none, s2) => (.ok pa, s2)
    | (some r, s2) => (r, s2)
  | r => r

/-- A counter of a descriptor, by its offset, after the atomics that wait for its line (R49, R68). -/
def dqCounter (s : State) (pa off : Nat) : Nat := s.homeNat (pa + off) 8

/-- Bring a descriptor's line home before its counters are read (R152). -/
def dqSettle (s : State) (pa : Nat) : State := (s.serveLine (pa / 128)).flushRange (pa / 128 * 128) 128

/-- Set a counter of a descriptor at its home engine (R68). -/
def dqSet (s : State) (who : Who) (pa off x : Nat) : State :=
  (s.writeEngineAt who (pa + off) ((bytesOf 8 x).map (fun b => (b, false)))).touchHot (homeCluster pa) (pa / 128)

/-- A record completed by its tree, position and CRC (R67, R68). -/
def sealRecord (bs : List Byte) (tree : W32) (kind : Nat) (beam : W64) (pos : Nat) : List Byte :=
  let b := bs.take 40 ++ bytesOf 4 tree.toNat ++ bytesOf 1 kind ++ bytesOf 3 0 ++ bytesOf 8 beam.toNat ++ bytesOf 4 (pos % 2 ^ 32)
  b ++ bytesOf 4 (crc32c b)

/-- Slots of a device queue that are free for producers (R68), by the 64-bit difference of RESERVE and DONE. -/
def dqRoom (s : State) (d : DevQueue) (pa : Nat) : Nat := 2 ^ d.logn - (s.dqCounter pa 32 + 2 ^ 64 - s.dqCounter pa 48) % 2 ^ 64

/-- Reserve a slot of a queue that has room, and count the child in its tree (R68, R85): the position. -/
def reserveRecord (s : State) (who : Who) (d : DevQueue) (pa : Nat) (tree : W32) : Nat × State :=
  let r := s.dqCounter pa 32
  (r, (s.dqSet who pa 32 (r + 1)).updTree d.ctx tree (fun t => { t with counter := t.counter + 1 }))

/-- Write a record into its slot (R68): nothing while the slot's page refuses it. -/
def writeRecord (s : State) (who : Who) (d : DevQueue) (r : Nat) (bs : List Byte) : Bool × State :=
  match s.dqAccess who d.ctx (d.ring.toNat + 64 * (r % 2 ^ d.logn)) 64 with
  | (.ok spa, s1) => (true, s1.writeEngineAt who spa (bs.map (fun b => (b, false))))
  | (_, s1) => (false, s1)

/-- Reserve a slot, count the child in its tree and publish the record (R68, R85). The queue has room and its pages are
mapped. -/
def pushRecord (s : State) (who : Who) (d : DevQueue) (pa : Nat) (tree : W32) (kind : Nat) (beam : W64) (bs : List Byte) : State :=
  let (r, s1) := s.reserveRecord who d pa tree
  (s1.writeRecord who d r (sealRecord bs tree kind beam r)).2

/-- SPAWN reserves a slot, counts the child and enters the record's write in queue 5 (R68, R85, R131). -/
def spawnRecord (s : State) (u : SUnit) (op item : Nat) (d : DevQueue) (pa : Nat) (tree : W32) (bs : List Byte) : State :=
  let (r, s1) := s.reserveRecord (.core u.core) d pa tree
  let (e, s2) := s1.mkEntry u op 5 0 item 0 (.spawn d.idx pa r (sealRecord bs tree 0 0 r))
  s2.enqueue e

/-- The home cluster that serves an entry of queue 5 (R131). -/
def spawnHome (e : EngEntry) : Option Nat := match e.job with
  | .spawn _ pa _ _ => some (homeCluster pa)
  | _ => none

/-- The record of an entry of queue 5 is written; a queue that is gone takes none. -/
def serveSpawn (s : State) (e : EngEntry) : State :=
  let drop (s : State) : State := { s with engq := s.engq.filter (fun x => x.id != e.id) }.entryDone e.op none 0 0
  match e.job with
  | .spawn q _ r bs => match s.dq? e.ctx q with
    | none => drop s
    | some d => match s.writeRecord (.core e.core) d r bs with
      | (true, s1) => drop s1
      | (false, s1) => s1
  | _ => s

/-- Whether a core holds the resources that a record declares (R69). -/
def recordFits (s : State) (a : LaunchArgs) (c : Nat) : Bool :=
  (s.reserveOn c a.windows a.gregs a.pad a.bars 1).isSome

/-- A consumer takes the record at POP (R69, R85, R410): SEQ and the CRC tell that it is there, whoever wrote it. -/
def popRecord (s : State) (d : DevQueue) : State :=
  match s.ctx? d.ctx, s.partOf d.ctx with
  | some c, some x =>
    if c.state != .running || s.contWaits x.num then s
    else match s.barred x none with
      | none => s
      | some bad =>
        let cores := (fromPointer x.cores x.pointer).filter (fun c => !bad.contains c)
        match cores.find? (fun c => (s.freeSlot c).isSome) with
        | none => s
        | some reader =>
          let who := Who.core reader
          let ask (s : State) (need : Need) (va : Nat) : State := (s.pageRequest who d.ctx need va).getD s
          match s.dqAccess who d.ctx d.desc.toNat 64 with
          | (.absent need va, s1) => ask s1 need va
          | (.ok pa, s1) =>
            let s2 := s1.dqSettle pa
            let pop := s2.dqCounter pa 40
            match s2.dqAccess who d.ctx (d.ring.toNat + 64 * (pop % 2 ^ d.logn)) 64 with
              | (.absent need va, s3) => ask s3 need va
              | (.ok spa, s3) =>
                let bs := (s3.dqSettle spa).bytesAt (.pair d.home) spa 64
                if fieldOf bs 56 4 != pop % 2 ^ 32 || fieldOf bs 60 4 != crc32c (bs.take 60) then s3
                else
                  let a := LaunchArgs.ofRecord bs
                  match cores.find? (fun c => s3.recordFits a c) with
                  | none => s3
                  | some core =>
                    let s4 := ((s3.dqSet who pa 40 (pop + 1)).dqSet who pa 48 (s3.dqCounter pa 48 + 1))
                    let tree : W32 := BitVec.ofNat 32 (fieldOf bs 40 4)
                    match s4.tree? d.ctx tree with
                    | none => s4
                    | some t =>
                      if t.status ≠ pkDone then s4.treeDec d.ctx tree
                      else match s4.checkLaunch d.ctx a with
                        | some (status, detail) =>
                          (if status = pkDone then s4 else s4.treeFail d.ctx tree status detail 0).treeDec d.ctx tree
                        | none =>
                          let head := s4.headOf x.num
                          let (id, s5) := s4.addLaunch d.ctx a tree (.record d.idx (fieldOf bs 44 1) (BitVec.ofNat 64 (fieldOf bs 48 8)))
                          match s5.freeSlot core with
                          | none => s5
                          | some k =>
                            ((s5.updPart x.num (fun x => { x with pointer := core })).placeRoot id core k).ageHead head 1
              | (_, s3) => s3
          | (_, s1) => s1
  | _, _ => s

end State

/-- The atomic engine of a cluster performs the request that arrived first (R129, R130); with none, the first record write of queue 5 that it
serves (R131). -/
def execAtomicEngineServe (cluster : Nat) (s : State) : Host.Outcome State Fault Refusal :=
  if s.halted cluster then .next s
  else match s.nextReq cluster with
  | some r => .next (s.serveReq r)
  | none => match s.nextEntry (fun e => e.queue == 5 && State.spawnHome e == some cluster) with
    | some e => .next (s.serveSpawn e)
    | none => .next s

/-- DEVICE_QUEUE_POP (R69). -/
def execDeviceQueuePop (ctx q : Nat) (s : State) : Host.Outcome State Fault Refusal :=
  match s.dq? ctx q with
  | some d => .next (s.popRecord d)
  | none => .next s

/-- DEVQ_SLOT_REREAD (R69, R410): the consumer reads again. -/
def execDevqSlotReread (ctx q : Nat) (s : State) : Host.Outcome State Fault Refusal :=
  match s.dq? ctx q with
  | some d => .next (s.popRecord d)
  | none => .next s

/-- Whether SPAWN accepts a template (R86). -/
def State.templateOk (s : State) (l : Launch) (a : LaunchArgs) : Bool :=
  a.base == 0 && decide (1 ≤ a.count) && (s.badLaunch (s.partOf l.ctx) a).isNone
    && (!a.flags.getLsbD 2 || (a.count == 1 && a.pad == 0 && a.bars == 0 && decide (a.gregs ≤ l.gregs)))

/-- Read the templates of SPAWN (R86), lowest item first: a template may cross a page. DESIGN CHOICE (assumption log 23): it stands at any byte
address, since R86 names no alignment; of a weave page its bytes are read in whole 4-byte units (R169). -/
def State.readTemplates (s : State) (u : SUnit) : List (Nat × Nat) → (Chk ⊕ List (Nat × List Byte)) × State
  | [] => (.inr [], s)
  | (item, va) :: rest =>
    let k := min 40 (65536 - va % 65536)
    let who := Who.core u.core
    let part (s : State) (va n : Nat) : (Chk ⊕ List Byte) × State :=
      if n = 0 then (.inr [], s)
      else match s.checkGlobal who (s.ctxOf u) .read n 1 false va with
        | (.ok va pa l, s1) =>
          if s1.poisonedVa l va n || s1.hostRefuses pa then (.inl (.trap causePoison va), s1.countLost pa)
          else
            let s2 := s1.serveLines [pa, pa + n - 1]
            (.inr (s2.readVa who (u.fmode.getLsbD 2) l va n), s2)
        | (c, s1) => (.inl c, s1)
    match part s va k with
    | (.inl c, s1) => (.inl c, s1)
    | (.inr b1, s1) => match part s1 (va + k) (40 - k) with
      | (.inl c, s2) => (.inl c, s2)
      | (.inr b2, s2) => match s2.readTemplates u rest with
        | (.inl c, s3) => (.inl c, s3)
        | (.inr ts, s3) => (.inr ((item, b1 ++ b2) :: ts), s3)

/-- A unit that makes an inline call from SPAWN (R88, R341, R344). -/
def SUnit.inlineCall (u : SUnit) (i : Issue) (reg : Nat) (a : LaunchArgs) : SUnit :=
  let last := decide (i.hdr.count ≤ i.slot + 1)
  let back : InlineRet := { hdr := if last then i.nextClause else i.hdrAddr, slot := if last then 0 else i.slot + 1, reg := reg
                            clause := u.clause, depth := u.rstack.length + 2, nest := u.nest }
  { u with pc := a.code, pcSlot := none, rstack := a.args :: (i.wordAddr ||| 1) :: u.rstack, nest := u.nest + 1, inl := back :: u.inl
           fmode := u.fmodeNext, clause := 0
           origin := some { word := i.wordAddr, next := i.nextClause, rstack := u.rstack, nest := u.nest, inl := u.inl, clause := u.clause } }

/-- How SPAWN settles its items (R87): those whose record is entered, those that call inline with their code and arguments,
those that receive 0. -/
structure SpawnPlan where
  enter : List (Nat × List Byte)
  inlined : List (Nat × LaunchArgs)
  full : List Nat
  deriving DecidableEq, Repr

/-- The plan for a queue with room for n records. -/
def spawnPlan (inlineOk : Bool) : Nat → List (Nat × List Byte) → SpawnPlan
  | _, [] => { enter := [], inlined := [], full := [] }
  | n, (item, bs) :: rest =>
    let a := LaunchArgs.ofRecord bs
    if 0 < n then
      let p := spawnPlan inlineOk (n - 1) rest
      { p with enter := (item, bs) :: p.enter }
    else
      let p := spawnPlan inlineOk 0 rest
      if inlineOk && a.flags.getLsbD 2 then { p with inlined := (item, a) :: p.inlined } else { p with full := item :: p.full }

/-- The sides of an inline call: one for each code and arguments, by ascending lowest item (R88, R340). -/
def inlineSides (u : SUnit) (xs : List (Nat × LaunchArgs)) : List (LaunchArgs × BitVec 64) :=
  let keys := (xs.map (fun x => (x.2.code, x.2.args))).eraseDups
  keys.filterMap (fun k => (xs.find? (fun x => x.2.code == k.1 && x.2.args == k.2)).map (fun x =>
    (x.2, laneMask (fun j => xs.any (fun y => y.1 == u.lo + j && y.2.code == k.1 && y.2.args == k.2)))))

/-- SPAWN (R77, R85-R88, R344, R410). -/
def execSpawn (f : FmtB) (s : State) : Host.Outcome State Fault Refusal :=
  s.runClosing (fun s i u =>
    let g := u.guard f.pred f.pneg
    let low := u.lowest g
    let reg := f.aux7.toNat
    let queued := s.queueLen u.core 5
    if !u.anyActive g then .done s
    else if !u.isStrand then .needG s
    else if queued ≠ 0 && 64 < queued + (u.active g).length then
      .stay (s.updUnit u.id (fun u => { u with wait := .room 5 (64 - (u.active g).length) }))
    else match s.launchOf u with
      | none => .done s
      | some l =>
        let queue : Option Nat := if f.sub = 63 then (match l.src with | .record q _ _ => some q | _ => none) else some f.sub.toNat
        match queue.bind (s.dq? l.ctx) with
        | none => .trap s causeBadspawn (BitVec.ofNat 64 low)
        | some d =>
          let s0 := s.publish u.core 3
          match s0.readTemplates u ((u.active g).map (fun k => (k, (s.wAt u f.a.toNat k).toNat))) with
          | (.inl c, s1) => s1.chkRes i u .read c
          | (.inr ts, s1) =>
            match ts.find? (fun t => !s1.templateOk l (LaunchArgs.ofRecord t.2)) with
            | some t => .trap s1 causeBadspawn (BitVec.ofNat 64 t.1)
            | none =>
              match s1.dqProducer (.core u.core) d with
              | (.bad c va, s2) => .trap s2 c (BitVec.ofNat 64 va) true
              | (.absent need va, s2) => s2.chkRes i u need (.absent va)
              | (.mig va, s2) => s2.chkRes i u .both (.hold va)
              | (.ok pa, s2) =>
                match s2.reserveRows u [reg] with
                | .error r => .trap s2 causeGregs (BitVec.ofNat 64 r.toNat)
                | .ok s3 =>
                  let s4 := s3.dqSettle pa
                  let plan := spawnPlan (decide (u.nest < u.nestmax)) (s4.dqRoom d pa) ts
                  let sides := inlineSides u plan.inlined
                  let away := sides.foldl (fun m x => m ||| x.2) 0
                  let stay := u.mask &&& ~~~away
                  if !sides.isEmpty && decide (32 < u.rstack.length + 2) then .trap s2 causeStackover (BitVec.ofNat 64 u.nest)
                  else if !sides.isEmpty && (stay != 0 || decide (1 < sides.length)) && u.splitFull then .trap s2 causeDiverge 0
                  else
                    let s5 := if plan.enter.isEmpty then s4
                      else
                        let (op, s') := s4.addPend u (.entries plan.enter.length) [] false true false
                        plan.enter.foldl (fun s x => s.spawnRecord u op x.1 d pa l.tree x.2) s'
                    let lanes (xs : List Nat) : BitVec 64 := laneMask (fun j => xs.contains (u.lo + j))
                    let ones := lanes (plan.enter.map (·.1))
                    match s5.ensureRows u [reg] with
                    | .error r => .trap s2 causeGregs (BitVec.ofNat 64 r.toNat)
                    | .ok (s6, u1) =>
                      let vals := (List.range 64).map (fun j => if ones.getLsbD j then 1 else 0)
                      let s7 := s6.writeLanes u1 reg (ones ||| lanes plan.full) vals
                      match sides with
                      | [] => .done s7
                      | (a, m) :: more =>
                        let strand (m : BitVec 64) : SUnit := { u1 with mask := m }
                        if stay != 0 then
                          .done (s7.split u1 (strand stay) (sides.map (fun x => (strand x.2).inlineCall i reg x.1)))
                        else if more.isEmpty then .jump (s7.putUnit (u1.inlineCall i reg a))
                        else
                          .jump (s7.split u1 ((strand m).inlineCall i reg a) (more.map (fun x => (strand x.2).inlineCall i reg x.1))))

end Sys2Proof.Machine
end

