-- ==== Sys2Proof/Machine/HankOps.lean ====
section
/-! DEFINITION. The HNK class (R386-R392) and the hank engines (R179-R190). -/

namespace Sys2Proof.Machine

/-- What an HNK instruction takes at issue beside its header or cursor (R386). -/
structure HankIssue where
  code : Nat
  perItem : Bool
  closes : Bool
  deriving DecidableEq, Repr

/-- A request with nothing but its instruction. -/
def emptyReq (code : Nat) : HankReq :=
  { code := code, hank := 0, key := 0, stamp := 0, newkey := 0, recOk := true, payload := [], lo := 0, hi := 0, cursor := 0, pos := false
    offsets := [], maskArg := 0, offset := 0 }

/-- A mutation request from its pad record (R387). -/
def HankReq.ofRecord (r : HankReq) (b : List Byte) : HankReq :=
  { r with key := BitVec.ofNat 64 (fieldOf b 0 8), stamp := BitVec.ofNat 32 (fieldOf b 8 4), newkey := BitVec.ofNat 64 (fieldOf b 16 8)
           recOk := zeroField b 12 4 && zeroField b 24 8 && (r.code == 2 || zeroField b 16 8), payload := (b.drop 32).take 64 }

/-- Enter the requests of an HNK instruction (R386-R388, R392): fps gives an item's pad operand, if the instruction has one, with its
bytes and alignment; mk the request of an item. -/
def State.runHank (s : State) (f : FmtX) (k : HankIssue) (fps : Option (Nat × Nat × (State → SUnit → Nat → Nat)))
    (mk : State → SUnit → Guard → Nat → HankReq) : Host.Outcome State Fault Refusal :=
  let body (s : State) (i : Issue) (u : SUnit) : Res :=
    let g := u.guard f.pred f.pneg
    if !u.anyActive g then .done s
    else if i.entered then .done s
    else match s.groupOf u with
      | none => .needG s
      | some gr =>
        if !u.isStrand then .needG s
        else
          let items := u.active g
          let places : Except (W32 × Nat) (List (Nat × Nat × Nat × Nat)) := match fps with
            | none => .ok []
            | some (n, align, off) => padItems gr u.core n align (items.map (fun i => (i, off s u i)))
          match places with
          | .error e => .trap s e.1 (BitVec.ofNat 64 e.2)
          | .ok ps =>
            match (if k.code ≤ 3 then ps.find? (fun p => s.padPoisoned p.2.2.1 p.2.2.2 96) else none) with
            | some p => .trap s causePoison (BitVec.ofNat 64 p.2.1)
            | none =>
              let zeros := List.replicate 64 (0 : W32)
              let reqs : List (Nat × HankReq) :=
                if k.perItem then items.map (fun i =>
                  let r := mk s u g i
                  (i, match (if k.code ≤ 3 then ps.find? (fun p => p.1 == i) else none) with
                    | some p => r.ofRecord (s.padBytes p.2.2.1 p.2.2.2 96)
                    | none => r))
                else
                  let low := u.lowest g
                  [(low, { mk s u g low with offsets := items.map (fun i => (i - u.lo, match ps.find? (fun p => p.1 == i) with
                    | some p => p.2.1
                    | none => 0)) })]
              s.deferV u g true (.entries reqs.length) [(f.d.toNat, .g zeros), (f.d.toNat + 1, .g zeros)] (fun op s1 =>
                (reqs.foldl (fun s2 r =>
                  let (e, s3) := s2.mkEntry u op 2 0 r.1 f.d.toNat (.hank r.2)
                  s3.enqueue e) s1).holdPort i u 2)
  if k.closes then s.runClosing body else s.runWord body

/-- The request of a word whose A is a header taken at the lowest active item. -/
def State.headerReq (s : State) (u : SUnit) (g : Guard) (f : FmtX) (code : Nat) : HankReq :=
  { emptyReq code with hank := s.wAt u f.a.toNat (u.lowest g) }

/-- The four mutations (R386, R387). -/
def State.runMutation (s : State) (f : FmtX) (code : Nat) : Host.Outcome State Fault Refusal :=
  s.runHank f { code := code, perItem := true, closes := true } (some (96, 16, fun s u i => (s.vAt u f.b.toNat i).toNat))
    (fun s u g _ => s.headerReq u g f code)

def execHkins (f : FmtX) (s : State) : Host.Outcome State Fault Refusal := s.runMutation f 0
def execHkdel (f : FmtX) (s : State) : Host.Outcome State Fault Refusal := s.runMutation f 1
def execHkmove (f : FmtX) (s : State) : Host.Outcome State Fault Refusal := s.runMutation f 2
def execHkupd (f : FmtX) (s : State) : Host.Outcome State Fault Refusal := s.runMutation f 3

/-- HKOPEN (R386). -/
def execHkopen (f : FmtX) (s : State) : Host.Outcome State Fault Refusal :=
  s.runHank f { code := 4, perItem := false, closes := true } none (fun s u g i =>
    { s.headerReq u g f 4 with lo := s.wAt u f.b.toNat i, hi := s.wAt u f.c.toNat i })

/-- HKNEXT (R386, R390). -/
def execHknext (f : FmtX) (s : State) : Host.Outcome State Fault Refusal :=
  s.runHank f { code := 5, perItem := false, closes := true } (some (96, 16, fun s u i => (s.vAt u f.b.toNat i).toNat))
    (fun s u _ i => { emptyReq 5 with cursor := (s.vAt u f.a.toNat i).toNat, pos := f.ctrl.getLsbD 0 })

/-- HKCLOSE (R386). -/
def execHkclose (f : FmtX) (s : State) : Host.Outcome State Fault Refusal :=
  s.runHank f { code := 6, perItem := false, closes := true } none
    (fun s u _ i => { emptyReq 6 with cursor := (s.vAt u f.a.toNat i).toNat })

/-- HKCOUNT (R386). -/
def execHkcount (f : FmtX) (s : State) : Host.Outcome State Fault Refusal :=
  s.runHank f { code := 7, perItem := true, closes := false } none (fun s u g i =>
    { s.headerReq u g f 7 with lo := s.wAt u f.b.toNat i, hi := s.wAt u f.c.toNat i })

/-- HKFIND (R386). -/
def execHkfind (f : FmtX) (s : State) : Host.Outcome State Fault Refusal :=
  s.runHank f { code := 8, perItem := true, closes := false } none (fun s u g i => { s.headerReq u g f 8 with key := s.wAt u f.b.toNat i })

/-- HKNBR (R386, R391). -/
def execHknbr (f : FmtX) (s : State) : Host.Outcome State Fault Refusal :=
  s.runHank f { code := 9, perItem := true, closes := false } (some (108, 4, fun s u i => ((s.wAt u f.b.toNat i).extractLsb' 32 32).toNat))
    (fun s u g i =>
      let w := s.wAt u f.b.toNat i
      { s.headerReq u g f 9 with key := (w.extractLsb' 0 32).setWidth 64, offset := (w.extractLsb' 32 32).toNat, maskArg := s.vAt u f.c.toNat i })

/-- HKRANK (R386, R388). -/
def execHkrank (f : FmtX) (s : State) : Host.Outcome State Fault Refusal :=
  s.runHank f { code := 10, perItem := false, closes := true } none (fun s u g _ => s.headerReq u g f 10)

/-- HKRANK.thaw (R386, R388). -/
def execHkrankThaw (f : FmtX) (s : State) : Host.Outcome State Fault Refusal :=
  s.runHank f { code := 10, perItem := false, closes := true } none (fun s u g _ => { s.headerReq u g f 10 with pos := true })

/-- HKSTAT (R386, R391). -/
def execHkstat (f : FmtX) (s : State) : Host.Outcome State Fault Refusal :=
  s.runHank f { code := 11, perItem := true, closes := false } (some (32, 16, fun s u i => (s.vAt u f.c.toNat i).toNat))
    (fun s u g i => { s.headerReq u g f 11 with key := (s.vAt u f.b.toNat i).setWidth 64, offset := (s.vAt u f.c.toNat i).toNat })

/-- The request of a queue-2 entry. -/
def EngEntry.hank (e : EngEntry) : HankReq := match e.job with
  | .hank r => r
  | _ => emptyReq 0

/-- Whether an entry acts on a cursor (R182, R184). -/
def EngEntry.onCursor (e : EngEntry) : Bool := e.hank.code == 4 || e.hank.code == 5 || e.hank.code == 6

/-- The hank engine that takes up an entry. -/
def EngEntry.hankWho (e : EngEntry) : Who := .hank (clusterOf e.core)

/-- Status and value of an entry, written to an item's D (R386, R389). -/
def hankD (status value : Nat) : W64 := BitVec.ofNat 64 (hankWord status + value * 2 ^ 32)

namespace State

/-- An entry of one item is complete. -/
def hankDone (s : State) (e : EngEntry) (status value : Nat) : State := s.entryDone e.op (some e.reg) e.lane (hankD status value)

/-- An entry of one operation is complete: every active item receives its status and value. -/
def hankDoneAll (s : State) (e : EngEntry) (vals : List (Nat × Nat × Nat)) : State :=
  let s1 := s.updPend e.op (fun o => { o with writes := vals.foldl (fun ws v =>
    let x := hankD v.2.1 v.2.2
    ws.map (fun w => setLane (setLane w e.reg v.1 (x.extractLsb' 0 32)) (e.reg + 1) v.1 (x.extractLsb' 32 32))) o.writes })
  s1.entryDone e.op none 0 0

/-- The same status and value for every active item. -/
def hankSame (s : State) (e : EngEntry) (status value : Nat) : State :=
  s.hankDoneAll e (e.hank.offsets.map (fun o => (o.1, status, value)))

/-- An engine writes a record into the pad of the issuing group (R388); nothing once the group has gone. -/
def hankPad (s : State) (e : EngEntry) (off : Nat) (bs : List Byte) : State :=
  match e.group.bind s.group? with
  | none => s
  | some g => match g.padPlace e.core off bs.length with
    | some (c, o) => s.writePad c o bs
    | none => s

/-- Leave the queue. -/
def takeEntry (s : State) (e : EngEntry) : State := { s with engq := s.engq.filter (fun x => x.id != e.id) }

/-- Another HKRANK of the same hank stands before this one, or a freeze has not ended (R187). -/
def rankHead (s : State) (j : RankJob) : Bool :=
  (s.ranks.find? (fun x => x.entry.ctx == j.entry.ctx && x.entry.hank.hank == j.entry.hank.hank)).map (·.entry.id) == some j.entry.id

end State

/-- The stamp of an insertion (R178): STAMPCTR moves on whatever becomes of the insertion. -/
def takeStamp (who : Who) (h : Hank) (r : HankReq) : HM Nat := do
  if !h.hwstamp then return r.stamp.toNat
  if h.stampctr = 0xFFFFFFFF then
    hCommit who h.ctx h.fm [.atom h.at_ (bytesOf 4 (h.flags ||| 4))]
    throw (.status hkHankfull 0)
  let last := h.stampctr = 0xFFFFFFFE
  hCommit who h.ctx h.fm (.atom (h.at_ + 44) (bytesOf 4 (h.stampctr + 1)) :: (if last then [.atom h.at_ (bytesOf 4 (h.flags ||| 4))] else []))
  return h.stampctr

/-- Replace the first live element with a key and stamp (R178); none when there is none. -/
def replaceElem (key : Nat) (stamp : W32) (f : Elem → List PElem) : List PBlock → Option (List PBlock × Elem)
  | [] => none
  | b :: bs =>
    match b.2.findIdx? (fun e => e.2.isNone && e.1.key == key && e.1.stamp == stamp) with
    | some i => match b.2[i]? with
      | some e => some ((b.1, b.2.take i ++ f e.1 ++ b.2.drop (i + 1)) :: bs, e.1)
      | none => none
    | none => match replaceElem key stamp f bs with
      | some (rest, e) => some (b :: rest, e)
      | none => none

/-- Turn the reserved bytes of a move into its element again, or drop them. -/
def settleGhost (id : Nat) (restore : Bool) (plan : List PBlock) : List PBlock :=
  plan.map (fun b => (b.1, b.2.filterMap (fun e => if e.2 == some id then (if restore then some (e.1, none) else none) else some e)))

/-- A mutation at its lea (R179-R181): the value of D, or none when a move across leas has begun. -/
def mutate (e : EngEntry) : HM (Option Nat) := do
  let r := e.hank
  let h ← readHank e.hankWho e.ctx e.fmode r.hank.toNat
  let key := r.key.toNat
  let move := r.code == 2
  if !r.recOk || !h.keyOk key || (move && !h.keyOk r.newkey.toNat) then throw (.status hkBadkey 0)
  let n := h.leaOf key
  let l ← readLea e.hankWho h n
  atLea h l (do
    let chain ← readChain l h
    let n2 := if move then h.leaOf r.newkey.toNat else n
    if n2 ≠ n then
      let l2 ← readLea e.hankWho h n2
      let _ ← readChain l2 h
    if h.frozen then throw (.status hkFrozen 0)
    let s ← get
    let plan := planOf chain (s.ghosts h n)
    let pinned := s.pinned h n none
    let payload := r.payload.take h.payload
    if r.code = 0 then
      let stamp ← takeStamp l.home h r
      commitLea h l chain (insertBlock ({ key := key, stamp := BitVec.ofNat 32 stamp, payload := payload }, none) plan) pinned
      return some stamp
    else
      let change (x : Elem) : List PElem :=
        match r.code with
        | 1 => []
        | 3 => [({ x with payload := payload }, none)]
        | _ => if n2 ≠ n then [(x, some e.id)] else []
      match replaceElem key r.stamp change plan with
      | none => throw (.status hkNotfound 0)
      | some (plan1, x) =>
        if move && r.newkey.toNat == key then
          bumpSeq h l
          return some 0
        else if move && n2 == n then
          commitLea h l chain (insertBlock ({ x with key := r.newkey.toNat }, none) plan1) pinned
          return some 0
        else if move then
          modify (fun s => { s with moves := s.moves ++ [{ phase := .insert, entry := e, elem := x, newkey := r.newkey.toNat, lea := n, block := 0 }] })
          commitLea h l chain plan1 pinned
          return none
        else
          commitLea h l chain plan1 pinned
          return some 0)

/-- A move's entry, when its removal does not come about, is no move. -/
def State.dropMove (s : State) (id : Nat) : State := { s with moves := s.moves.filter (fun m => m.entry.id != id) }

/-- The elements that a pin gives its cursor (R183), from the blocks it keeps. -/
def pinElems (who : Who) (h : Hank) (c : Cursor) (p : Pin) : HM (List Elem) := do
  let es ← readPinned who h p.blocks
  if !inOrder es then throw (.status hkBadhank 0)
  return (p.later.foldl List.erase es).filter (fun e => decide (c.lo.toNat ≤ e.key) && decide (e.key < c.hi.toNat))

/-- One element of a cursor's hank (R183, R184): the leas in turn, each pinned when an element of it is first needed; none at the
end. fuel bounds the leas. -/
def nextElem (h : Hank) (core num gid : Nat) : Nat → HM (Option Elem)
  | 0 => return none
  | fuel + 1 => do
    let s ← get
    match s.cursors.find? (fun c => c.core == core && c.num == num && c.group == gid) with
    | none => throw (.status hkBadcursor 0)
    | some c =>
      let hi := min c.hi.toNat (2 ^ (3 * h.kbits))
      if hi ≤ c.lo.toNat || h.leaOf (hi - 1) < c.lea then return none
      match c.pins.find? (fun p => p.lea == c.lea) with
      | none =>
        let l ← readLea (.hank (clusterOf core)) h c.lea
        atLea h l (do
          let chain ← readChain l h
          bumpSeq h l
          modify (fun s => s.updCursor c (fun c => { c with next := 0, pins := c.pins ++ [{ lea := c.lea, blocks := chain.map (·.1), later := [] }] })))
        nextElem h core num gid fuel
      | some p => match (← pinElems (.hank (clusterOf core)) h c p)[c.next]? with
        | some x =>
          modify (fun s => s.updCursor c (fun c => { c with next := c.next + 1, last := some (x.key, x.stamp) }))
          return some x
        | none =>
          modify (fun s => s.updCursor c (fun c => { c with lea := c.lea + 1, next := 0 }))
          nextElem h core num gid fuel

/-- The pad record of an element (R390). -/
def Hank.record (h : Hank) (pos : Bool) (e : Elem) : List Byte :=
  let place := if pos then
    (h.position e.key).flatMap (fun x => bytesOf 4 (fmtF32.encode .rne false (fmtF64.decode x))) ++ bytesOf 4 0 else []
  bytesOf 8 e.key ++ bytesOf 4 e.stamp.toNat ++ bytesOf 4 0 ++ place ++ e.payload

namespace State

/-- The cursor that a number names for an entry's group (R182): its core's own before the other core's of a pair. -/
def cursorOf (s : State) (e : EngEntry) (num : Nat) : Option Cursor :=
  let mine := s.cursors.filter (fun (c : Cursor) => !c.closed && some c.group == e.group && c.num == num)
  match mine.find? (fun c => c.core == e.core) with
  | some c => some c
  | none => mine.head?

/-- Whether a number among a core's 16 cursors is held: by a group that stands on the core (R182, R212). -/
def cursorHeld (s : State) (core n : Nat) : Bool :=
  s.cursors.any (fun c => !c.closed && c.core == core && c.num == n && ((s.group? c.group).map (·.state)) == some .resident)

/-- HKOPEN at the engine (R182, R388). -/
def hankOpen (s : State) (e : EngEntry) : Option State :=
  let r := e.hank
  match (readHank e.hankWho e.ctx e.fmode r.hank.toNat).on s with
  | (.error st, s1) => st.status?.map (fun n => (s1.takeEntry e).hankSame e n 0)
  | (.ok h, s1) =>
    let s2 := s1.takeEntry e
    if 2 ^ 63 < r.hi.toNat || !(h.keyOk r.lo.toNat || r.lo.toNat == 2 ^ 63) then some (s2.hankSame e hkBadkey 0)
    else match e.group.bind s.group?, firstFree 16 (fun n => !s.cursorHeld e.core n) with
      | some g, some n =>
        let c : Cursor := { core := e.core, num := n, group := g.id, ctx := e.ctx, hank := r.hank, lo := r.lo, hi := r.hi
                            lea := if r.lo.toNat < r.hi.toNat then h.leaOf r.lo.toNat else 0, next := 0, pins := [], last := none, closed := false }
        some ({ s2 with cursors := s2.cursors ++ [c] }.hankSame e hkOk n)
      | _, _ => some (s2.hankSame e hkNocursor 0)

/-- Elements for the items of a HKNEXT in ascending order (R184, R390); none when an access is held. -/
def nextItems (s : State) (e : EngEntry) (h : Hank) (c : Cursor) : List (Nat × Nat) → Option (List (Nat × Nat × Nat) × State)
  | [] => some ([], s)
  | (lane, off) :: rest =>
    let one : Option ((Nat × Nat) × State) := match (nextElem h c.core c.num c.group (2 ^ (h.loglea + 2) + 2)).on s with
      | (.ok (some x), s1) => some ((hkOk, x.stamp.toNat), s1.hankPad e off (h.record e.hank.pos x))
      | (.ok none, s1) => some ((hkEnd, 0), s1)
      | (.error st, s1) => st.status?.map (fun n => ((n, 0), s1))
    match one with
    | none => none
    | some (v, s1) => match s1.nextItems e h c rest with
      | none => none
      | some (vs, s2) => some ((lane, v.1, v.2) :: vs, s2)

/-- HKNEXT at the engine (R184, R390, R392). -/
def hankNext (s : State) (e : EngEntry) : Option State :=
  match s.cursorOf e e.hank.cursor with
  | none => some ((s.takeEntry e).hankSame e hkBadcursor 0)
  | some c => match (readHank e.hankWho e.ctx e.fmode c.hank.toNat).on s with
    | (.error st, s1) => st.status?.map (fun n => (s1.takeEntry e).hankSame e n 0)
    | (.ok h, s1) => (s1.nextItems e h c e.hank.offsets).map (fun r => (r.2.takeEntry e).hankDoneAll e r.1)

/-- HKCLOSE at the engine (R182, R177). -/
def hankClose (s : State) (e : EngEntry) : Option State :=
  match s.cursorOf e e.hank.cursor with
  | none => some ((s.takeEntry e).hankSame e hkBadcursor 0)
  | some c => match s.closeCursor c e.fmode with
    | (some n, s1) => some ((s1.takeEntry e).hankSame e n 0)
    | (none, s1) => some s1

end State

/-- The elements of [lo, hi) in the leas from n on (R190). fuel bounds the leas. -/
def countLeas (e : EngEntry) (h : Hank) (lo hi : Nat) : Nat → Nat → HM Nat
  | 0, _ => return 0
  | fuel + 1, n => do
    if hi ≤ lo || h.leaOf (min hi (2 ^ (3 * h.kbits)) - 1) < n || 2 ^ h.loglea ≤ n then return 0
    let l ← readLea e.hankWho h n
    let chain ← readChain l h
    let k := ((chain.flatMap (·.2)).filter (fun x => decide (lo ≤ x.key) && decide (x.key < hi))).length
    return k + (← countLeas e h lo hi fuel (n + 1))

/-- The rank of a voxel by halving the rank table (R188, R190): the first entry that is not below it. fuel bounds the halvings. -/
def searchRank (who : Who) (h : Hank) (v : Nat) : Nat → Nat → Nat → HM Nat
  | 0, lo, _ => return lo
  | fuel + 1, lo, hi => do
    if hi ≤ lo then return lo
    let mid := (lo + hi) / 2
    let x ← hNat who h.ctx h.fm (h.ranks + 16 * mid) 8
    if x < v then searchRank who h v fuel (mid + 1) hi else searchRank who h v fuel lo mid

/-- The rank of a voxel; none when it is not occupied. -/
def findRank (who : Who) (h : Hank) (v : Nat) : HM (Option Nat) := do
  let j ← searchRank who h v 33 0 h.nvox
  if h.nvox ≤ j then return none
  return if (← hNat who h.ctx h.fm (h.ranks + 16 * j) 8) = v then some j else none

/-- The voxel coordinates of one axis. -/
def voxelAxis (axis v : Nat) : Nat := packBits 1 ((List.range 21).map (fun i => if v.testBit (3 * i + axis) then 1 else 0))

/-- The voxel at a rank's voxel plus the offset of a mask bit; none outside the grid (R190). -/
def neighbour (h : Hank) (v b : Nat) : Option Nat :=
  let n := 2 ^ (h.kbits - h.level)
  let move (axis d : Nat) : Option Nat :=
    let x := voxelAxis axis v + d
    if x = 0 ∨ n < x then none else some (x - 1)
  match move 0 (b % 3), move 1 (b / 3 % 3), move 2 (b / 9) with
  | some x, some y, some z => some (packBits 3 ((List.range 21).map (fun i =>
      (if x.testBit i then 1 else 0) + (if y.testBit i then 2 else 0) + (if z.testBit i then 4 else 0))))
  | _, _, _ => none

/-- The 27 entries of HKNBR (R391). -/
def neighbours (who : Who) (h : Hank) (v : Nat) (mask : W32) : List Nat → HM (List (Option Nat))
  | [] => return []
  | b :: bs => do
    let r ← match (if mask.getLsbD b then neighbour h v b else none) with
      | none => pure none
      | some w => findRank who h w
    return r :: (← neighbours who h v mask bs)

/-- The lookups (R190, R391): value, and the pad record to write. -/
def lookup (e : EngEntry) : HM (Nat × Option (List Byte)) := do
  let r := e.hank
  let who := e.hankWho
  let h ← readHank who e.ctx e.fmode r.hank.toNat
  match r.code with
  | 7 =>
    let first := if h.keyOk r.lo.toNat then h.leaOf r.lo.toNat else 2 ^ h.loglea
    let n ← countLeas e h r.lo.toNat r.hi.toNat (2 ^ h.loglea) first
    return (min n 0xFFFFFFFF, none)
  | 8 =>
    if !h.keyOk r.key.toNat then throw (.status hkBadkey 0)
    if !h.ranked then throw (.status hkNotfrozen 0)
    match ← findRank who h (r.key.toNat >>> (3 * h.level)) with
    | some j => return (j, none)
    | none => throw (.status hkNotfound 0)
  | 9 =>
    if r.maskArg.extractLsb' 27 5 ≠ 0 then throw (.status hkBadkey 0)
    if !h.ranked then throw (.status hkNotfrozen 0)
    if h.nvox ≤ r.key.toNat then throw (.status hkNotfound 0)
    let v ← hNat who h.ctx h.fm (h.ranks + 16 * r.key.toNat) 8
    let ns ← neighbours who h v r.maskArg (List.range 27)
    return ((ns.filter (·.isSome)).length, some (ns.flatMap (fun x => bytesOf 4 (x.getD 0xFFFFFFFF))))
  | _ =>
    if 2 ^ h.loglea ≤ r.key.toNat then throw (.status hkNotfound 0)
    let l ← readLea who h r.key.toNat
    return (l.count, some (bytesOf 4 l.count ++ bytesOf 4 0 ++ bytesOf 8 l.seq ++ bytesOf 4 h.stampctr ++ bytesOf 4 h.pooltop ++ bytesOf 8 0))

/-- Change an HKRANK in flight. -/
def State.updRank (s : State) (j : RankJob) (f : RankJob → RankJob) : State :=
  { s with ranks := updWhere (fun (x : RankJob) => x.entry.id == j.entry.id) f s.ranks }

/-- The freeze operation of each of some leas (R187), noted in the HKRANK so that an access that is held repeats none. -/
def freezeLeas (who : Who) (h : Hank) (j : RankJob) : List Nat → HM Unit
  | [] => return ()
  | n :: ns => do
    let l ← readLea who h n
    bumpSeq h l
    modify (fun s => s.updRank j (fun x => { x with begun := x.begun ++ [n] }))
    freezeLeas who h j ns

/-- An HKRANK whose turn it is (R187): it ends at once with NVOX, freezes, or waits to thaw. -/
def beginRank (who : Who) (h : Hank) (j : RankJob) : HM (Option Nat) := do
  if j.thaw then return (if h.frozen then none else some h.nvox)
  if h.ranked then return some h.nvox
  hCommit who h.ctx h.fm [.atom h.at_ (bytesOf 4 (h.flags ||| 1))]
  freezeLeas who h j ((List.range (2 ^ h.loglea)).filter (fun n => !j.begun.contains n))
  return none

/-- The rank table's entries (R188): voxel, first ordinal, count. -/
def rankTable (level : Nat) : Nat → List Elem → List (Nat × Nat × Nat)
  | _, [] => []
  | ordinal, e :: es =>
    let v := e.key >>> (3 * level)
    match rankTable level (ordinal + 1) es with
    | (w, o, n) :: rest => if w = v then (v, ordinal, n + 1) :: rest else (v, ordinal, 1) :: (w, o, n) :: rest
    | [] => [(v, ordinal, 1)]

/-- The radius bits of an element (R189): a negative radius is +0, a NaN is infinity. -/
def Hank.radius (h : Hank) (e : Elem) : Nat :=
  if h.radoff = 0xFF then 0
  else
    let x := fieldOf e.payload h.radoff 4
    match fmtF32.decode x with
    | .nan => 0x7F800000
    | v => if v.sign then 0 else x

/-- The records of one level of the summary (R189): node, elements, largest radius. -/
def summaryLevel (h : Hank) (l : Nat) : List Elem → List (Nat × Nat × Nat)
  | [] => []
  | e :: es =>
    let v := e.key >>> (3 * l)
    match summaryLevel h l es with
    | (w, n, r) :: rest => if w = v then (v, n + 1, max r (h.radius e)) :: rest else (v, 1, h.radius e) :: (w, n, r) :: rest
    | [] => [(v, 1, h.radius e)]

/-- The level table from the counts of the levels (R189). -/
def levelTable : Nat → List Nat → List Byte
  | _, [] => []
  | at_, n :: ns => bytesOf 8 at_ ++ bytesOf 4 n ++ bytesOf 4 0 ++ levelTable (at_ + 16 * n) ns

/-- Every lea with its elements. -/
def readLeas (who : Who) (h : Hank) : List Nat → HM (List (Lea × List Elem))
  | [] => return []
  | n :: ns => do
    let l ← readLea who h n
    let c ← readChain l h
    return (l, c.flatMap (·.2)) :: (← readLeas who h ns)

/-- FIRSTRANK and NVOXLEA of the leas (R175): the rank of the lea's first voxel, or the number of voxels in all lower leas. -/
def leaRanks (level : Nat) : Nat → Option Nat → List (Lea × List Elem) → List HWrite
  | _, _, [] => []
  | voxels, last, (l, es) :: rest =>
    let own := rankTable level 0 es
    let first := match own.head? with
      | some v => if last = some v.1 then voxels - 1 else voxels
      | none => voxels
    let voxels1 := first + own.length
    .plain (l.at_ + 32) (bytesOf 4 first ++ bytesOf 4 own.length)
      :: leaRanks level (if own.isEmpty then voxels else voxels1) (match own.getLast? with | some v => some v.1 | none => last) rest

/-- Ranks and summary (R187-R189): NVOX, or NOSPACE. -/
def finishRank (who : Who) (ctx : Nat) (fm : BitVec 4) (at_ : Nat) : HM Nat := do
  let h ← readHank who ctx fm at_
  let leas ← readLeas who h (List.range (2 ^ h.loglea))
  let es := leas.flatMap (·.2)
  let ranks := rankTable h.level 0 es
  let levels := (List.range (h.kbits + 1)).map (fun l => summaryLevel h l es)
  let records := (levels.map (·.length)).foldl (· + ·) 0
  if h.rankcap < 16 * ranks.length || h.sumcap < 352 + 16 * records then throw (.status hkNospace 0)
  let entry (x : Nat × Nat × Nat) : List Byte := bytesOf 8 x.1 ++ bytesOf 4 x.2.1 ++ bytesOf 4 x.2.2
  let table := levelTable 352 (levels.map (·.length))
  hCommit who ctx fm ([.plain h.ranks (ranks.flatMap entry),
    .plain h.summary (table ++ List.replicate (352 - table.length) 0 ++ (levels.flatMap id).flatMap entry)]
    ++ leaRanks h.level 0 none leas ++ [.plain (at_ + 104) (bytesOf 4 ranks.length ++ bytesOf 4 es.length), .atom at_ (bytesOf 4 (h.flags ||| 9))])
  return ranks.length

namespace State

/-- The engine that coordinates HKRANK: the home of lea 0 (R187). -/
def rankWho (s : State) (h : Hank) : Who :=
  match (readLea (.hank 0) h 0).on s with
  | (.ok l, _) => l.home
  | _ => s.hankHome h.ctx 0

/-- End an HKRANK. -/
def endRank (s : State) (j : RankJob) (status value : Nat) : State :=
  { s with ranks := s.ranks.filter (fun x => x.entry.id != j.entry.id) }.hankSame j.entry status value

/-- Start the HKRANK whose turn it is; the next one follows when it ends at once. fuel bounds the jobs. -/
def startRanks (s : State) (ctx : Nat) (hank : W64) : Nat → State
  | 0 => s
  | fuel + 1 =>
    match s.ranks.find? (fun x => x.entry.ctx == ctx && x.entry.hank.hank == hank) with
    | none => s
    | some j =>
      if j.frozen then s
      else match (do let h ← readHank j.entry.hankWho ctx j.entry.fmode hank.toNat; beginRank (s.rankWho h) h j : HM (Option Nat)).on s with
        | (.ok none, s1) => s1.updRank j (fun x => { x with frozen := true })
        | (.ok (some n), s1) => (s1.endRank j hkOk n).startRanks ctx hank fuel
        | (.error st, s1) => match st.status? with
          | some n => (s1.endRank j n 0).startRanks ctx hank fuel
          | none => s1

/-- The leas that an entry addresses, first and last (R131, R179); every lea of the hank where it names none, or its header cannot be
read. -/
def hankLeas (s : State) (e : EngEntry) : Nat × Nat :=
  let r := e.hank
  match (readHank e.hankWho e.ctx e.fmode r.hank.toNat).on s with
  | (.ok h, _) =>
    let last := 2 ^ h.loglea - 1
    match r.code with
    | 0 | 1 | 3 => (h.leaOf r.key.toNat, h.leaOf r.key.toNat)
    | 2 => (min (h.leaOf r.key.toNat) (h.leaOf r.newkey.toNat), max (h.leaOf r.key.toNat) (h.leaOf r.newkey.toNat))
    | 7 => (h.leaOf r.lo.toNat, h.leaOf (r.hi.toNat - 1))
    | 11 => (r.key.toNat, r.key.toNat)
    | _ => (0, last)
  | _ => (0, 2 ^ 64)

/-- Whether an entry of queue 2 keeps its issue order behind an earlier one of its core (R131): both act on cursors, or both address a lea. -/
def hankOrdered (s : State) (a b : EngEntry) : Bool :=
  if a.onCursor || b.onCursor then a.onCursor && b.onCursor
  else a.ctx == b.ctx && a.hank.hank == b.hank.hank
    && (decide ((s.hankLeas a).1 ≤ (s.hankLeas b).2) && decide ((s.hankLeas b).1 ≤ (s.hankLeas a).2))

/-- Whether a hank engine can take an entry up (R131): it has entered its queue, and there is nothing to follow, and no earlier entry, move or HKRANK of its core that it keeps
its order behind. -/
def hankReady (s : State) (e : EngEntry) : Bool :=
  let all := s.liveEntries
  let mine (f : EngEntry) : Bool := f.core == e.core && f.queue == 2
  s.inQueue e && !e.after.any (fun x => all.contains x)
    && !((s.engq.takeWhile (fun f => f.id != e.id)).filter mine ++ ((s.moves.filter (fun m => m.phase.inFlight)).map (·.entry)).filter mine ++ (s.ranks.map (·.entry)).filter mine).any
      (fun f => s.hankOrdered f e)

/-- Perform an entry; none when an access is held. -/
def performHank (s : State) (e : EngEntry) : Option State :=
  let code := e.hank.code
  if code ≤ 3 then
    match (mutate e).on s with
    | (.ok (some v), s1) => some ((s1.takeEntry e).hankDone e hkOk (if code = 0 then v else 0))
    | (.ok none, s1) => some (s1.takeEntry e)
    | (.error st, s1) => st.status?.map (fun n => ((s1.dropMove e.id).takeEntry e).hankDone e n 0)
  else if code = 4 then s.hankOpen e
  else if code = 5 then s.hankNext e
  else if code = 6 then s.hankClose e
  else if code = 10 then
    let s1 := s.takeEntry e
    let j : RankJob := { entry := e, thaw := e.hank.pos, begun := [], frozen := false }
    let s2 : State := { s1 with ranks := s1.ranks ++ [j] }
    some (s2.startRanks e.ctx e.hank.hank (s1.ranks.length + 2))
  else match (lookup e).on s with
    | (.ok (v, pad), s1) =>
      let s2 := match pad with
        | some bs => s1.hankPad e e.hank.offset bs
        | none => s1
      some ((s2.takeEntry e).hankDone e hkOk v)
    | (.error st, s1) => st.status?.map (fun n => (s1.takeEntry e).hankDone e n 0)

end State

/-- HANK_OPERATION_PERFORM (R153, R179). -/
def execHankOperationPerform (entry : Nat) (s : State) : Host.Outcome State Fault Refusal :=
  match s.engq.find? (fun e => e.id == entry && e.queue == 2) with
  | none => .next s
  | some e => if s.hankReady e && !s.halted (clusterOf e.core) then .next ((s.performHank e).getD s) else .next s

/-- The insertion of a move at its new lea (R180). -/
def moveIn (m : Move) : HM Unit := do
  let who := m.entry.hankWho
  let h ← readHank who m.entry.ctx m.entry.fmode m.entry.hank.hank.toNat
  let n := h.leaOf m.newkey
  let l ← readLea who h n
  atLea h l (do
    let chain ← readChain l h
    if h.frozen then throw (.status hkFrozen 0)
    let s ← get
    commitLea h l chain (insertBlock ({ m.elem with key := m.newkey }, none) (planOf chain (s.ghosts h n))) (s.pinned h n none))

/-- The bytes reserved at the old lea are given up: a block that held nothing else goes onto the FREE list (R177, R180). -/
def releaseSpare (m : Move) : HM Unit := do
  let who := m.entry.hankWho
  let h ← readHank who m.entry.ctx m.entry.fmode m.entry.hank.hank.toNat
  let l ← readLea who h m.lea
  let chain ← readChain l h
  let s ← get
  let keep := chain.map (·.1) ++ s.pinned h m.lea none ++ ((s.ghosts h m.lea).filter (fun x => x.entry.id != m.entry.id)).map (·.block)
  if keep.contains m.block then return ()
  hCommit l.home h.ctx h.fm [.plain m.block (bytesOf 8 l.free), .plain (l.at_ + 8) (bytesOf 8 m.block)]

/-- An element that returns into a block that pins keep is none of theirs (R183). -/
def State.pinsLater (s : State) (h : Hank) (lea block : Nat) (e : Elem) : State :=
  { s with cursors := updWhere (fun (c : Cursor) => c.ctx == h.ctx && c.hank.toNat == h.at_) (fun c =>
      { c with pins := updWhere (fun (p : Pin) => p.lea == lea && p.blocks.contains block) (fun p => { p with later := p.later ++ [e] }) c.pins }) s.cursors }

/-- The element of a failed move back at its old lea (R180): where no block is left for a fresh copy, its own bytes take it. A block that has
left the chain is kept only by pins from before the removal, which hold the element (R183). -/
def moveBack (m : Move) : HM Unit := do
  let who := m.entry.hankWho
  let h ← readHank who m.entry.ctx m.entry.fmode m.entry.hank.hank.toNat
  let l ← readLea who h m.lea
  let chain ← readChain l h
  let s ← get
  let plan := settleGhost m.entry.id true (planOf chain (s.ghosts h m.lea))
  match (commitLea h l chain plan (s.pinned h m.lea none)).on s with
  | (.ok _, s1) => set s1
  | (.error (.status n _), _) =>
    if n = hkNospace then
      commitLea h l chain plan []
      if chain.any (fun b => b.1 == m.block) then modify (fun s => s.pinsLater h m.lea m.block m.elem)
    else throw (.status n 0)
  | (.error st, s1) =>
    set s1
    throw st

namespace State

/-- A move comes to another phase. -/
def movePhase (s : State) (id : Nat) (p : MovePhase) : State :=
  { s with moves := updWhere (fun (m : Move) => m.entry.id == id) (fun m => { m with phase := p }) s.moves }

/-- The bytes that an inserted move reserved are given up, or wait for a re-walk; a fault leaves their block off the FREE list (R177). -/
def spareMove (s : State) (m : Move) : State :=
  match (releaseSpare m).on s with
  | (.ok _, s1) => s1.dropMove m.entry.id
  | (.error st, s1) => match st with
    | .status _ _ => s.dropMove m.entry.id
    | _ => s1.movePhase m.entry.id .spare

/-- The element of a move whose insertion has failed goes back (R180), and the item receives the status that it is owed; a restore that waits for
a page is made again after a re-walk. One that meets a fault leaves the element out until then, with the status given (assumption log 28). -/
def restoreMove (s : State) (m : Move) (owed : Option Nat) : State :=
  let report (s : State) : State := match owed with
    | some n => s.hankDone m.entry n 0
    | none => s
  match (moveBack m).on s with
  | (.ok _, s1) => report (s1.dropMove m.entry.id)
  | (.error (.status _ _), _) => report (s.movePhase m.entry.id (.restore none))
  | (.error _, s1) => s1.movePhase m.entry.id (.restore owed)

/-- Carry a move on (R180): its insertion, or the restore of its element; none while its insertion is held. -/
def tryMove (s : State) (m : Move) : Option State :=
  if m.phase ≠ .insert || s.halted (clusterOf m.entry.core) then none
  else match (moveIn m).on s with
    | (.ok _, s1) => some ((s1.spareMove m).hankDone m.entry hkOk 0)
    | (.error st, s1) => st.status?.map (fun n => s1.restoreMove m (some n))

/-- What an ended move still owes its old lea, after a re-walk (R177, R180). -/
def retryMove (s : State) (m : Move) : State :=
  match m.phase with
  | .insert => s
  | .spare => s.spareMove m
  | .restore owed => s.restoreMove m owed

/-- Releases and restores that wait are made after a re-walk (R177, R180). -/
def retryReleases (s : State) (ctx : Nat) : State :=
  let s1 := (s.cursors.filter (fun (c : Cursor) => c.closed && c.ctx == ctx)).foldl (fun s c =>
    match s.closeCursor c 0 with
    | (some _, s1) => s1.dropCursor c
    | (none, s1) => s1) s
  (s1.moves.filter (fun m => m.entry.ctx == ctx)).foldl retryMove s1

end State

/-- HANK_MOVE_INSERT (R180): the first move in flight that can be carried on. -/
def execHankMoveInsert (s : State) : Host.Outcome State Fault Refusal := .next ((s.moves.findSome? s.tryMove).getD s)

/-- A move of a hank is in flight. -/
def State.movesOn (s : State) (ctx : Nat) (hank : W64) : Bool :=
  s.moves.any (fun m => m.phase.inFlight && m.entry.ctx == ctx && m.entry.hank.hank == hank)

/-- HANK_RANK_COMPLETE (R187): the first freeze whose hank has no move in flight; else a held HKRANK is tried again. -/
def execHankRankComplete (s : State) : Host.Outcome State Fault Refusal :=
  match s.ranks.find? (fun j => j.frozen && !j.thaw && s.rankHead j && !s.halted (clusterOf j.entry.core)
      && !s.movesOn j.entry.ctx j.entry.hank.hank) with
  | none => match s.ranks.find? (fun j => !j.frozen && s.rankHead j && !s.halted (clusterOf j.entry.core)) with
    | some j => .next (s.startRanks j.entry.ctx j.entry.hank.hank (s.ranks.length + 1))
    | none => .next s
  | some j =>
    let hank := j.entry.hank.hank
    match (do let h ← readHank j.entry.hankWho j.entry.ctx j.entry.fmode hank.toNat; finishRank (s.rankWho h) j.entry.ctx j.entry.fmode hank.toNat : HM Nat).on s with
    | (.ok n, s1) => .next ((s1.endRank j hkOk n).startRanks j.entry.ctx hank s1.ranks.length)
    | (.error st, s1) => match st.status? with
      | some n => .next ((s1.endRank j n 0).startRanks j.entry.ctx hank s1.ranks.length)
      | none => .next s

/-- HANK_THAW_COMPLETE (R187): the first thaw whose earlier beam queries have completed. -/
def execHankThawComplete (s : State) : Host.Outcome State Fault Refusal :=
  match s.ranks.find? (fun j => j.frozen && j.thaw && s.rankHead j && !s.halted (clusterOf j.entry.core)
      && !s.beams.any (fun b => b.state == .running && b.ctx == j.entry.ctx && b.hank == j.entry.hank.hank)) with
  | none => .next s
  | some j =>
    let hank := j.entry.hank.hank
    let who := j.entry.hankWho
    match (do
        let h ← readHank who j.entry.ctx j.entry.fmode hank.toNat
        hCommit (s.rankWho h) h.ctx h.fm [.atom h.at_ (bytesOf 4 (h.flags &&& 6))]
        return h.nvox : HM Nat).on s with
    | (.ok n, s1) => .next ((s1.endRank j hkOk n).startRanks j.entry.ctx hank s1.ranks.length)
    | (.error st, s1) => match st.status? with
      | some n => .next ((s1.endRank j n 0).startRanks j.entry.ctx hank s1.ranks.length)
      | none => .next s

end Sys2Proof.Machine
end

