-- ==== Sys2Proof/Machine/Regs.lean ====
section
/-! DEFINITION. The registers an instruction names (R259): those it writes and the v registers it reads; the long-latency
instructions (R256). A v register is its number, p is 128 + p, k is 136 + k, x is 152 + x. -/

namespace Sys2Proof.Machine

/-- The registers of a field, by kind. -/
def vOf (r : BitVec 7) : List Nat := [r.toNat]
def wOf (r : BitVec 7) : List Nat := [r.toNat, r.toNat + 1]
def tOf (t : Ty) (r : BitVec 7) : List Nat := if t.wide then wOf r else vOf r
def pOf (r : BitVec 7) : List Nat := [128 + r.toNat]
def kOf (r : BitVec 7) : List Nat := [136 + r.toNat]
def xOf (r : BitVec 7) : List Nat := [152 + r.toNat]

/-- The registers of an M-format address (R264, R265). -/
def addrOf (pad : Bool) (f : FmtM) : List Nat :=
  (if pad then (if f.base = 127 then [] else vOf f.base) else wOf f.base) ++ (if f.scale = 7 then [] else vOf f.index)

/-- The comparand and the new value of a compare-and-swap (R354). -/
def casOf (f : FmtM) : List Nat := tOf f.ty f.index ++ tOf f.ty (f.index + if f.ty.wide then 2 else 1)

/-- The registers an instruction writes. -/
def destsOf : Instr → List Nat
  | .powerOnReset => []
  | .selftestDone _ _ => []
  | .loadFw => []
  | .verifyDone => []
  | .mgmtqWrite _ => []
  | .powerInputFault => []
  | .thermalEvent _ _ => []
  | .creelHotModeChange _ _ => []
  | .creelRefreshWindowEnd _ => []
  | .lockstepMismatch _ => []
  | .hostLinkUp _ _ _ _ => []
  | .hostLinkDown _ => []
  | .hostReadCompletion _ _ _ => []
  | .hostCompletionTimeout _ => []
  | .bar2Read _ _ => []
  | .bar2Write _ _ => []
  | .registerWrite _ _ _ => []
  | .tailWrite _ _ _ => []
  | .resolveWrite _ => []
  | .consumedWrite _ _ => []
  | .portEnable _ _ => []
  | .portIsolate _ _ => []
  | .retrain _ => []
  | .portTrainDone _ _ _ _ => []
  | .portTrainTimeout _ => []
  | .flitReceive _ _ => []
  | .nakReceive _ _ => []
  | .pauseReceive _ _ => []
  | .resumeReceive _ _ => []
  | .spdmGetVersion _ => []
  | .spdmGetCapabilities _ => []
  | .spdmNegotiate _ => []
  | .spdmGetDigests _ => []
  | .spdmGetCertificate _ => []
  | .spdmChallenge _ _ => []
  | .spdmGetMeasurements _ _ => []
  | .mctpStageQuery => []
  | .packetFetch _ _ => []
  | .slotRereadTimer _ _ _ => []
  | .boardScan _ _ => []
  | .nopPacket => []
  | .launchPacket => []
  | .copyPacket => []
  | .barrierPacket => []
  | .signalPacket => []
  | .creelBegin => []
  | .creelSeal => []
  | .markerPacket => []
  | .contextCreate => []
  | .contextPaging => []
  | .contextQueue => []
  | .contextUnqueue => []
  | .contextInval => []
  | .contextSuspend => []
  | .contextResume => []
  | .contextTerminate => []
  | .contextResize => []
  | .resizeMapChange => []
  | .signalWatchNotify _ _ _ => []
  | .signalWatchReread _ _ _ => []
  | .packetComplete _ _ _ => []
  | .rootSpanPlace _ => []
  | .groupPlace _ => []
  | .deviceQueuePop _ _ => []
  | .devqSlotReread _ _ => []
  | .clauseFetch _ => []
  | .longLatencyResult _ => []
  | .groupRetire _ _ => []
  | .launchAbortDone => []
  | .barcContinuationStart => []
  | .yieldExpire _ => []
  | .watchdog _ => []
  | .contextSaveComplete => []
  | .contextRestore => []
  | .migRewalkTimer _ => []
  | .invalidationComplete => []
  | .l1Eviction _ _ => []
  | .uncorrectableError _ => []
  | .atomicEngineServe _ => []
  | .copyPerform _ _ => []
  | .copyEnd _ => []
  | .hankOperationPerform _ => []
  | .hankMoveInsert => []
  | .hankRankComplete => []
  | .hankThawComplete => []
  | .beamQueryStart _ => []
  | .beamQueryDone _ _ => []
  | .collJobEnd => []
  | .mmaSequencerPerform _ => []
  | .mmaAssistComplete _ => []
  | .nop _ => []
  | .bra _ => []
  | .brp _ => []
  | .join _ => []
  | .call _ => []
  | .calli _ => []
  | .ret _ => []
  | .jmpi _ => []
  | .exit _ => []
  | .region _ => []
  | .yield _ => []
  | .trap _ => []
  | .brk _ => []
  | .spawn f => vOf f.aux7
  | .deal _ => []
  | .rdsr f => if sregWide f.sreg then wOf f.d else vOf f.d
  | .wrsr _ => []
  | .fmode _ => []
  | .iadd f => tOf f.ty f.d
  | .iaddImm f => tOf f.ty f.d
  | .isub f => tOf f.ty f.d
  | .isubImm f => tOf f.ty f.d
  | .imul f => tOf f.ty f.d
  | .imulImm f => tOf f.ty f.d
  | .imulh f => tOf f.ty f.d
  | .imad f => tOf f.ty f.d
  | .imin f => tOf f.ty f.d
  | .iminImm f => tOf f.ty f.d
  | .imax f => tOf f.ty f.d
  | .imaxImm f => tOf f.ty f.d
  | .iabs f => tOf f.ty f.d
  | .ineg f => tOf f.ty f.d
  | .land f => tOf f.ty f.d
  | .landImm f => tOf f.ty f.d
  | .lor f => tOf f.ty f.d
  | .lorImm f => tOf f.ty f.d
  | .lxor f => tOf f.ty f.d
  | .lxorImm f => tOf f.ty f.d
  | .lnot f => tOf f.ty f.d
  | .landn f => tOf f.ty f.d
  | .landnImm f => tOf f.ty f.d
  | .shl f => tOf f.ty f.d
  | .shlImm f => tOf f.ty f.d
  | .shr f => tOf f.ty f.d
  | .shrImm f => tOf f.ty f.d
  | .sar f => tOf f.ty f.d
  | .sarImm f => tOf f.ty f.d
  | .rol f => tOf f.ty f.d
  | .rolImm f => tOf f.ty f.d
  | .ror f => tOf f.ty f.d
  | .rorImm f => tOf f.ty f.d
  | .popc f => vOf f.d
  | .clz f => vOf f.d
  | .ctz f => vOf f.d
  | .brev f => tOf f.ty f.d
  | .bfx f => tOf f.ty f.d
  | .bfi f => tOf f.ty f.d
  | .icmp f => pOf (f.d &&& 7)
  | .icmpImm f => pOf (f.d &&& 7)
  | .sel f => tOf f.ty f.d
  | .mov f => tOf f.ty f.d
  | .movi f => tOf f.ty f.d
  | .lea f => tOf f.ty f.d
  | .leaImm f => tOf f.ty f.d
  | .iaddw f => wOf f.d
  | .iaddwImm f => wOf f.d
  | .isubw f => wOf f.d
  | .icmpw f => pOf (f.d &&& 7)
  | .mort f => wOf f.d
  | .unmort f => vOf f.d
  | .prmt f => vOf f.d
  | .fadd f => tOf f.ty f.d
  | .faddImm f => tOf f.ty f.d
  | .fsub f => tOf f.ty f.d
  | .fmul f => tOf f.ty f.d
  | .fmulImm f => tOf f.ty f.d
  | .ffma f => tOf f.ty f.d
  | .ffmaImm f => tOf f.ty f.d
  | .fmin f => tOf f.ty f.d
  | .fmax f => tOf f.ty f.d
  | .fcmp f => pOf (f.d &&& 7)
  | .fcmpImm f => pOf (f.d &&& 7)
  | .fclass f => vOf f.d
  | .frnd f => tOf f.ty f.d
  | .fdot2 f => vOf f.d
  | .fscale f => tOf f.ty f.d
  | .rcp f => tOf f.ty f.d
  | .rsq f => tOf f.ty f.d
  | .sqrt f => tOf f.ty f.d
  | .exp2 f => tOf f.ty f.d
  | .log2 f => tOf f.ty f.d
  | .sin f => tOf f.ty f.d
  | .cos f => tOf f.ty f.d
  | .tanh f => tOf f.ty f.d
  | .fdiv f => tOf f.ty f.d
  | .idiv f => tOf f.ty f.d
  | .irem f => tOf f.ty f.d
  | .cvt f => tOf f.ty f.d
  | .pack f => vOf f.d
  | .unpk f => vOf f.d
  | .qmx f => vOf f.d ++ kOf f.b
  | .dqmx f => vOf f.d
  | .qply f => vOf f.d ++ kOf f.b
  | .dqply f => vOf f.d
  | .kmov f => if f.aux.getLsbD 0 then wOf f.d else kOf f.d
  | .perm f => tOf f.ty f.d
  | .shfl f => tOf f.ty f.d
  | .bcast f => tOf f.ty f.d
  | .votea f => pOf f.d
  | .votey f => pOf f.d
  | .ballot f => wOf f.d
  | .scan f => vOf f.d
  | .redi f => vOf f.d
  | .xadd f => xOf f.d
  | .xrnd f => tOf f.ty f.d
  | .xclr f => xOf f.d
  | .xld f => xOf f.d
  | .xst _ => []
  | .shape f => vOf f.d
  | .ld f => tOf f.ty f.d
  | .st _ => []
  | .lds f => tOf f.ty f.d
  | .sts _ => []
  | .phase _ => []
  | .xfence _ => []
  | .pref _ => []
  | .atomAdd f => tOf f.ty f.d
  | .atomSub f => tOf f.ty f.d
  | .atomMin f => tOf f.ty f.d
  | .atomMax f => tOf f.ty f.d
  | .atomAnd f => tOf f.ty f.d
  | .atomOr f => tOf f.ty f.d
  | .atomXor f => tOf f.ty f.d
  | .atomXchg f => tOf f.ty f.d
  | .atomCas f => tOf f.ty f.d
  | .atomInc f => tOf f.ty f.d
  | .atomFadd f => tOf f.ty f.d
  | .atomFadd2 f => tOf f.ty f.d
  | .atomXam _ => []
  | .atomLd f => tOf f.ty f.d
  | .atomsAdd f => tOf f.ty f.d
  | .atomsSub f => tOf f.ty f.d
  | .atomsMin f => tOf f.ty f.d
  | .atomsMax f => tOf f.ty f.d
  | .atomsAnd f => tOf f.ty f.d
  | .atomsOr f => tOf f.ty f.d
  | .atomsXor f => tOf f.ty f.d
  | .atomsXchg f => tOf f.ty f.d
  | .atomsCas f => tOf f.ty f.d
  | .atomsInc f => tOf f.ty f.d
  | .atomsFadd f => tOf f.ty f.d
  | .atomsFadd2 f => tOf f.ty f.d
  | .atomsXam _ => []
  | .atomsLd f => tOf f.ty f.d
  | .acp _ => []
  | .aseal _ => []
  | .await _ => []
  | .bcp _ => []
  | .bxf _ => []
  | .qfen _ => []
  | .coll _ => []
  | .astat f => vOf f.d
  | .bari _ => []
  | .bara f => vOf f.d
  | .barw f => vOf f.d
  | .barx _ => []
  | .barc f => vOf f.d
  | .waita f => wOf f.d
  | .pipw _ => []
  | .barq f => wOf f.d
  | .mma _ => []
  | .mzero _ => []
  | .mdrain _ => []
  | .mload _ => []
  | .hkins f => wOf f.d
  | .hkdel f => wOf f.d
  | .hkmove f => wOf f.d
  | .hkupd f => wOf f.d
  | .hkopen f => wOf f.d
  | .hknext f => wOf f.d
  | .hkclose f => wOf f.d
  | .hkcount f => wOf f.d
  | .hkfind f => wOf f.d
  | .hknbr f => wOf f.d
  | .hkrank f => wOf f.d
  | .hkrankThaw f => wOf f.d
  | .hkstat f => wOf f.d
  | .bqry f => wOf f.d
  | .bpop f => wOf f.d
  | .bstat f => wOf f.d
  | .bstatRelease f => wOf f.d

/-- The v registers an instruction reads. -/
def srcsOf : Instr → List Nat
  | .powerOnReset => []
  | .selftestDone _ _ => []
  | .loadFw => []
  | .verifyDone => []
  | .mgmtqWrite _ => []
  | .powerInputFault => []
  | .thermalEvent _ _ => []
  | .creelHotModeChange _ _ => []
  | .creelRefreshWindowEnd _ => []
  | .lockstepMismatch _ => []
  | .hostLinkUp _ _ _ _ => []
  | .hostLinkDown _ => []
  | .hostReadCompletion _ _ _ => []
  | .hostCompletionTimeout _ => []
  | .bar2Read _ _ => []
  | .bar2Write _ _ => []
  | .registerWrite _ _ _ => []
  | .tailWrite _ _ _ => []
  | .resolveWrite _ => []
  | .consumedWrite _ _ => []
  | .portEnable _ _ => []
  | .portIsolate _ _ => []
  | .retrain _ => []
  | .portTrainDone _ _ _ _ => []
  | .portTrainTimeout _ => []
  | .flitReceive _ _ => []
  | .nakReceive _ _ => []
  | .pauseReceive _ _ => []
  | .resumeReceive _ _ => []
  | .spdmGetVersion _ => []
  | .spdmGetCapabilities _ => []
  | .spdmNegotiate _ => []
  | .spdmGetDigests _ => []
  | .spdmGetCertificate _ => []
  | .spdmChallenge _ _ => []
  | .spdmGetMeasurements _ _ => []
  | .mctpStageQuery => []
  | .packetFetch _ _ => []
  | .slotRereadTimer _ _ _ => []
  | .boardScan _ _ => []
  | .nopPacket => []
  | .launchPacket => []
  | .copyPacket => []
  | .barrierPacket => []
  | .signalPacket => []
  | .creelBegin => []
  | .creelSeal => []
  | .markerPacket => []
  | .contextCreate => []
  | .contextPaging => []
  | .contextQueue => []
  | .contextUnqueue => []
  | .contextInval => []
  | .contextSuspend => []
  | .contextResume => []
  | .contextTerminate => []
  | .contextResize => []
  | .resizeMapChange => []
  | .signalWatchNotify _ _ _ => []
  | .signalWatchReread _ _ _ => []
  | .packetComplete _ _ _ => []
  | .rootSpanPlace _ => []
  | .groupPlace _ => []
  | .deviceQueuePop _ _ => []
  | .devqSlotReread _ _ => []
  | .clauseFetch _ => []
  | .longLatencyResult _ => []
  | .groupRetire _ _ => []
  | .launchAbortDone => []
  | .barcContinuationStart => []
  | .yieldExpire _ => []
  | .watchdog _ => []
  | .contextSaveComplete => []
  | .contextRestore => []
  | .migRewalkTimer _ => []
  | .invalidationComplete => []
  | .l1Eviction _ _ => []
  | .uncorrectableError _ => []
  | .atomicEngineServe _ => []
  | .copyPerform _ _ => []
  | .copyEnd _ => []
  | .hankOperationPerform _ => []
  | .hankMoveInsert => []
  | .hankRankComplete => []
  | .hankThawComplete => []
  | .beamQueryStart _ => []
  | .beamQueryDone _ _ => []
  | .collJobEnd => []
  | .mmaSequencerPerform _ => []
  | .mmaAssistComplete _ => []
  | .nop _ => []
  | .bra _ => []
  | .brp _ => []
  | .join _ => []
  | .call _ => []
  | .calli f => wOf f.a
  | .ret _ => []
  | .jmpi f => wOf f.a
  | .exit _ => []
  | .region _ => []
  | .yield _ => []
  | .trap _ => []
  | .brk _ => []
  | .spawn f => wOf f.a
  | .deal _ => []
  | .rdsr _ => []
  | .wrsr f => vOf f.a
  | .fmode _ => []
  | .iadd f => tOf f.ty f.a ++ tOf f.ty f.b
  | .iaddImm f => tOf f.ty f.a
  | .isub f => tOf f.ty f.a ++ tOf f.ty f.b
  | .isubImm f => tOf f.ty f.a
  | .imul f => tOf f.ty f.a ++ tOf f.ty f.b
  | .imulImm f => tOf f.ty f.a
  | .imulh f => tOf f.ty f.a ++ tOf f.ty f.b
  | .imad f => tOf f.ty f.a ++ tOf f.ty f.b ++ tOf f.ty f.c
  | .imin f => tOf f.ty f.a ++ tOf f.ty f.b
  | .iminImm f => tOf f.ty f.a
  | .imax f => tOf f.ty f.a ++ tOf f.ty f.b
  | .imaxImm f => tOf f.ty f.a
  | .iabs f => tOf f.ty f.a
  | .ineg f => tOf f.ty f.a
  | .land f => tOf f.ty f.a ++ tOf f.ty f.b
  | .landImm f => tOf f.ty f.a
  | .lor f => tOf f.ty f.a ++ tOf f.ty f.b
  | .lorImm f => tOf f.ty f.a
  | .lxor f => tOf f.ty f.a ++ tOf f.ty f.b
  | .lxorImm f => tOf f.ty f.a
  | .lnot f => tOf f.ty f.a
  | .landn f => tOf f.ty f.a ++ tOf f.ty f.b
  | .landnImm f => tOf f.ty f.a
  | .shl f => tOf f.ty f.a ++ vOf f.b
  | .shlImm f => tOf f.ty f.a
  | .shr f => tOf f.ty f.a ++ vOf f.b
  | .shrImm f => tOf f.ty f.a
  | .sar f => tOf f.ty f.a ++ vOf f.b
  | .sarImm f => tOf f.ty f.a
  | .rol f => tOf f.ty f.a ++ vOf f.b
  | .rolImm f => tOf f.ty f.a
  | .ror f => tOf f.ty f.a ++ vOf f.b
  | .rorImm f => tOf f.ty f.a
  | .popc f => tOf f.ty f.a
  | .clz f => tOf f.ty f.a
  | .ctz f => tOf f.ty f.a
  | .brev f => tOf f.ty f.a
  | .bfx f => tOf f.ty f.a ++ vOf f.b
  | .bfi f => tOf f.ty f.a ++ tOf f.ty f.b ++ vOf f.c
  | .icmp f => tOf f.ty f.a ++ tOf f.ty f.b
  | .icmpImm f => tOf f.ty f.a
  | .sel f => tOf f.ty f.a ++ tOf f.ty f.b
  | .mov f => tOf f.ty f.b
  | .movi _ => []
  | .lea f => tOf f.ty f.a ++ vOf f.b
  | .leaImm f => tOf f.ty f.a
  | .iaddw f => wOf f.a ++ vOf f.b
  | .iaddwImm f => wOf f.a
  | .isubw f => wOf f.a ++ vOf f.b
  | .icmpw f => wOf f.a ++ wOf f.b
  | .mort f => vOf f.a ++ vOf f.b ++ vOf f.c
  | .unmort f => wOf f.a
  | .prmt f => vOf f.a ++ vOf f.b ++ vOf f.c
  | .fadd f => tOf f.ty f.a ++ tOf f.ty f.b
  | .faddImm f => tOf f.ty f.a
  | .fsub f => tOf f.ty f.a ++ tOf f.ty f.b
  | .fmul f => tOf f.ty f.a ++ tOf f.ty f.b
  | .fmulImm f => tOf f.ty f.a
  | .ffma f => tOf f.ty f.a ++ tOf f.ty f.b ++ tOf f.ty f.c
  | .ffmaImm f => tOf f.ty f.a ++ tOf f.ty f.d
  | .fmin f => tOf f.ty f.a ++ tOf f.ty f.b
  | .fmax f => tOf f.ty f.a ++ tOf f.ty f.b
  | .fcmp f => tOf f.ty f.a ++ tOf f.ty f.b
  | .fcmpImm f => tOf f.ty f.a
  | .fclass f => tOf f.ty f.a
  | .frnd f => tOf f.ty f.a
  | .fdot2 f => tOf f.ty f.a ++ tOf f.ty f.b ++ vOf f.c
  | .fscale f => tOf f.ty f.a ++ vOf f.b
  | .rcp f => tOf f.ty f.a
  | .rsq f => tOf f.ty f.a
  | .sqrt f => tOf f.ty f.a
  | .exp2 f => tOf f.ty f.a
  | .log2 f => tOf f.ty f.a
  | .sin f => tOf f.ty f.a
  | .cos f => tOf f.ty f.a
  | .tanh f => tOf f.ty f.a
  | .fdiv f => tOf f.ty f.a ++ tOf f.ty f.b
  | .idiv f => tOf f.ty f.a ++ tOf f.ty f.b
  | .irem f => tOf f.ty f.a ++ tOf f.ty f.b
  | .cvt f => tOf (Ty.ofCode (f.aux.extractLsb' 0 5)) f.a
  | .pack f => if packsFour f.ty then vOf f.a ++ vOf (f.a + 1) ++ vOf (f.a + 2) ++ vOf (f.a + 3) else vOf f.a ++ vOf f.b
  | .unpk f => vOf f.a
  | .qmx f => vOf f.a
  | .dqmx f => vOf f.a
  | .qply f => vOf f.a
  | .dqply f => vOf f.a
  | .kmov f => if f.aux.getLsbD 0 then [] else wOf f.a
  | .perm f => tOf f.ty f.a ++ vOf f.b
  | .shfl f => tOf f.ty f.a ++ vOf f.b
  | .bcast f => tOf f.ty f.a
  | .votea _ => []
  | .votey _ => []
  | .ballot _ => []
  | .scan f => vOf f.a
  | .redi f => vOf f.a
  | .xadd f => vOf f.a
  | .xrnd _ => []
  | .xclr _ => []
  | .xld f => vOf f.a
  | .xst f => vOf f.a
  | .shape f => vOf f.a
  | .ld f => addrOf false f
  | .st f => addrOf false f ++ tOf f.ty f.d
  | .lds f => addrOf true f
  | .sts f => addrOf true f ++ tOf f.ty f.d
  | .phase _ => []
  | .xfence _ => []
  | .pref f => addrOf false f
  | .atomAdd f => addrOf false f ++ tOf f.ty f.index
  | .atomSub f => addrOf false f ++ tOf f.ty f.index
  | .atomMin f => addrOf false f ++ tOf f.ty f.index
  | .atomMax f => addrOf false f ++ tOf f.ty f.index
  | .atomAnd f => addrOf false f ++ tOf f.ty f.index
  | .atomOr f => addrOf false f ++ tOf f.ty f.index
  | .atomXor f => addrOf false f ++ tOf f.ty f.index
  | .atomXchg f => addrOf false f ++ tOf f.ty f.index
  | .atomCas f => addrOf false f ++ casOf f
  | .atomInc f => addrOf false f ++ tOf f.ty f.index
  | .atomFadd f => addrOf false f ++ tOf f.ty f.index
  | .atomFadd2 f => addrOf false f ++ tOf f.ty f.index
  | .atomXam f => addrOf false f
  | .atomLd f => addrOf false f
  | .atomsAdd f => addrOf true f ++ tOf f.ty f.index
  | .atomsSub f => addrOf true f ++ tOf f.ty f.index
  | .atomsMin f => addrOf true f ++ tOf f.ty f.index
  | .atomsMax f => addrOf true f ++ tOf f.ty f.index
  | .atomsAnd f => addrOf true f ++ tOf f.ty f.index
  | .atomsOr f => addrOf true f ++ tOf f.ty f.index
  | .atomsXor f => addrOf true f ++ tOf f.ty f.index
  | .atomsXchg f => addrOf true f ++ tOf f.ty f.index
  | .atomsCas f => addrOf true f ++ casOf f
  | .atomsInc f => addrOf true f ++ tOf f.ty f.index
  | .atomsFadd f => addrOf true f ++ tOf f.ty f.index
  | .atomsFadd2 f => addrOf true f ++ tOf f.ty f.index
  | .atomsXam f => addrOf true f
  | .atomsLd f => addrOf true f
  | .acp f => vOf f.d ++ wOf f.a ++ (if f.ctrl.getLsbD 3 then vOf f.b else []) ++ (if f.ctrl.getLsbD 5 then vOf f.c else [])
  | .aseal _ => []
  | .await _ => []
  | .bcp f => wOf f.a
  | .bxf f => wOf f.a
  | .qfen _ => []
  | .coll f => wOf f.a
  | .astat _ => []
  | .bari f => vOf f.a
  | .bara _ => []
  | .barw f => vOf f.a
  | .barx f => vOf f.a
  | .barc f => wOf f.a
  | .waita f => vOf f.a ++ wOf f.b
  | .pipw _ => []
  | .barq _ => []
  | .mma f => vOf f.a ++ vOf f.b
  | .mzero _ => []
  | .mdrain f => vOf f.a ++ (if decide (2 ≤ (f.ctrl.extractLsb' 0 4).toNat) then vOf f.b else [])
  | .mload f => vOf f.a
  | .hkins f => wOf f.a ++ vOf f.b
  | .hkdel f => wOf f.a ++ vOf f.b
  | .hkmove f => wOf f.a ++ vOf f.b
  | .hkupd f => wOf f.a ++ vOf f.b
  | .hkopen f => wOf f.a ++ wOf f.b ++ wOf f.c
  | .hknext f => vOf f.a ++ vOf f.b
  | .hkclose f => vOf f.a
  | .hkcount f => wOf f.a ++ wOf f.b ++ wOf f.c
  | .hkfind f => wOf f.a ++ wOf f.b
  | .hknbr f => wOf f.a ++ wOf f.b ++ vOf f.c
  | .hkrank f => wOf f.a
  | .hkrankThaw f => wOf f.a
  | .hkstat f => wOf f.a ++ vOf f.b ++ vOf f.c
  | .bqry f => wOf f.a
  | .bpop f => vOf f.a ++ vOf f.b
  | .bstat f => vOf f.a
  | .bstatRelease f => vOf f.a

/-- The predicate of a word, as PRED and PNEG (R260); none for a device step. -/
def predOfInstr : Instr → Option (BitVec 3 × Bool)
  | .powerOnReset => none
  | .selftestDone _ _ => none
  | .loadFw => none
  | .verifyDone => none
  | .mgmtqWrite _ => none
  | .powerInputFault => none
  | .thermalEvent _ _ => none
  | .creelHotModeChange _ _ => none
  | .creelRefreshWindowEnd _ => none
  | .lockstepMismatch _ => none
  | .hostLinkUp _ _ _ _ => none
  | .hostLinkDown _ => none
  | .hostReadCompletion _ _ _ => none
  | .hostCompletionTimeout _ => none
  | .bar2Read _ _ => none
  | .bar2Write _ _ => none
  | .registerWrite _ _ _ => none
  | .tailWrite _ _ _ => none
  | .resolveWrite _ => none
  | .consumedWrite _ _ => none
  | .portEnable _ _ => none
  | .portIsolate _ _ => none
  | .retrain _ => none
  | .portTrainDone _ _ _ _ => none
  | .portTrainTimeout _ => none
  | .flitReceive _ _ => none
  | .nakReceive _ _ => none
  | .pauseReceive _ _ => none
  | .resumeReceive _ _ => none
  | .spdmGetVersion _ => none
  | .spdmGetCapabilities _ => none
  | .spdmNegotiate _ => none
  | .spdmGetDigests _ => none
  | .spdmGetCertificate _ => none
  | .spdmChallenge _ _ => none
  | .spdmGetMeasurements _ _ => none
  | .mctpStageQuery => none
  | .packetFetch _ _ => none
  | .slotRereadTimer _ _ _ => none
  | .boardScan _ _ => none
  | .nopPacket => none
  | .launchPacket => none
  | .copyPacket => none
  | .barrierPacket => none
  | .signalPacket => none
  | .creelBegin => none
  | .creelSeal => none
  | .markerPacket => none
  | .contextCreate => none
  | .contextPaging => none
  | .contextQueue => none
  | .contextUnqueue => none
  | .contextInval => none
  | .contextSuspend => none
  | .contextResume => none
  | .contextTerminate => none
  | .contextResize => none
  | .resizeMapChange => none
  | .signalWatchNotify _ _ _ => none
  | .signalWatchReread _ _ _ => none
  | .packetComplete _ _ _ => none
  | .rootSpanPlace _ => none
  | .groupPlace _ => none
  | .deviceQueuePop _ _ => none
  | .devqSlotReread _ _ => none
  | .clauseFetch _ => none
  | .longLatencyResult _ => none
  | .groupRetire _ _ => none
  | .launchAbortDone => none
  | .barcContinuationStart => none
  | .yieldExpire _ => none
  | .watchdog _ => none
  | .contextSaveComplete => none
  | .contextRestore => none
  | .migRewalkTimer _ => none
  | .invalidationComplete => none
  | .l1Eviction _ _ => none
  | .uncorrectableError _ => none
  | .atomicEngineServe _ => none
  | .copyPerform _ _ => none
  | .copyEnd _ => none
  | .hankOperationPerform _ => none
  | .hankMoveInsert => none
  | .hankRankComplete => none
  | .hankThawComplete => none
  | .beamQueryStart _ => none
  | .beamQueryDone _ _ => none
  | .collJobEnd => none
  | .mmaSequencerPerform _ => none
  | .mmaAssistComplete _ => none
  | .nop f => some (f.pred, f.pneg)
  | .bra f => some (f.pred, f.pneg)
  | .brp f => some (f.pred, f.pneg)
  | .join f => some (f.pred, f.pneg)
  | .call f => some (f.pred, f.pneg)
  | .calli f => some (f.pred, f.pneg)
  | .ret f => some (f.pred, f.pneg)
  | .jmpi f => some (f.pred, f.pneg)
  | .exit f => some (f.pred, f.pneg)
  | .region f => some (f.pred, f.pneg)
  | .yield f => some (f.pred, f.pneg)
  | .trap f => some (f.pred, f.pneg)
  | .brk f => some (f.pred, f.pneg)
  | .spawn f => some (f.pred, f.pneg)
  | .deal f => some (f.pred, f.pneg)
  | .rdsr f => some (f.pred, f.pneg)
  | .wrsr f => some (f.pred, f.pneg)
  | .fmode f => some (f.pred, f.pneg)
  | .iadd f => some (f.pred, f.pneg)
  | .iaddImm f => some (f.pred, f.pneg)
  | .isub f => some (f.pred, f.pneg)
  | .isubImm f => some (f.pred, f.pneg)
  | .imul f => some (f.pred, f.pneg)
  | .imulImm f => some (f.pred, f.pneg)
  | .imulh f => some (f.pred, f.pneg)
  | .imad f => some (f.pred, f.pneg)
  | .imin f => some (f.pred, f.pneg)
  | .iminImm f => some (f.pred, f.pneg)
  | .imax f => some (f.pred, f.pneg)
  | .imaxImm f => some (f.pred, f.pneg)
  | .iabs f => some (f.pred, f.pneg)
  | .ineg f => some (f.pred, f.pneg)
  | .land f => some (f.pred, f.pneg)
  | .landImm f => some (f.pred, f.pneg)
  | .lor f => some (f.pred, f.pneg)
  | .lorImm f => some (f.pred, f.pneg)
  | .lxor f => some (f.pred, f.pneg)
  | .lxorImm f => some (f.pred, f.pneg)
  | .lnot f => some (f.pred, f.pneg)
  | .landn f => some (f.pred, f.pneg)
  | .landnImm f => some (f.pred, f.pneg)
  | .shl f => some (f.pred, f.pneg)
  | .shlImm f => some (f.pred, f.pneg)
  | .shr f => some (f.pred, f.pneg)
  | .shrImm f => some (f.pred, f.pneg)
  | .sar f => some (f.pred, f.pneg)
  | .sarImm f => some (f.pred, f.pneg)
  | .rol f => some (f.pred, f.pneg)
  | .rolImm f => some (f.pred, f.pneg)
  | .ror f => some (f.pred, f.pneg)
  | .rorImm f => some (f.pred, f.pneg)
  | .popc f => some (f.pred, f.pneg)
  | .clz f => some (f.pred, f.pneg)
  | .ctz f => some (f.pred, f.pneg)
  | .brev f => some (f.pred, f.pneg)
  | .bfx f => some (f.pred, f.pneg)
  | .bfi f => some (f.pred, f.pneg)
  | .icmp f => some (f.pred, f.pneg)
  | .icmpImm f => some (f.pred, f.pneg)
  | .sel f => some (f.pred, f.pneg)
  | .mov f => some (f.pred, f.pneg)
  | .movi f => some (f.pred, f.pneg)
  | .lea f => some (f.pred, f.pneg)
  | .leaImm f => some (f.pred, f.pneg)
  | .iaddw f => some (f.pred, f.pneg)
  | .iaddwImm f => some (f.pred, f.pneg)
  | .isubw f => some (f.pred, f.pneg)
  | .icmpw f => some (f.pred, f.pneg)
  | .mort f => some (f.pred, f.pneg)
  | .unmort f => some (f.pred, f.pneg)
  | .prmt f => some (f.pred, f.pneg)
  | .fadd f => some (f.pred, f.pneg)
  | .faddImm f => some (f.pred, f.pneg)
  | .fsub f => some (f.pred, f.pneg)
  | .fmul f => some (f.pred, f.pneg)
  | .fmulImm f => some (f.pred, f.pneg)
  | .ffma f => some (f.pred, f.pneg)
  | .ffmaImm f => some (f.pred, f.pneg)
  | .fmin f => some (f.pred, f.pneg)
  | .fmax f => some (f.pred, f.pneg)
  | .fcmp f => some (f.pred, f.pneg)
  | .fcmpImm f => some (f.pred, f.pneg)
  | .fclass f => some (f.pred, f.pneg)
  | .frnd f => some (f.pred, f.pneg)
  | .fdot2 f => some (f.pred, f.pneg)
  | .fscale f => some (f.pred, f.pneg)
  | .rcp f => some (f.pred, f.pneg)
  | .rsq f => some (f.pred, f.pneg)
  | .sqrt f => some (f.pred, f.pneg)
  | .exp2 f => some (f.pred, f.pneg)
  | .log2 f => some (f.pred, f.pneg)
  | .sin f => some (f.pred, f.pneg)
  | .cos f => some (f.pred, f.pneg)
  | .tanh f => some (f.pred, f.pneg)
  | .fdiv f => some (f.pred, f.pneg)
  | .idiv f => some (f.pred, f.pneg)
  | .irem f => some (f.pred, f.pneg)
  | .cvt f => some (f.pred, f.pneg)
  | .pack f => some (f.pred, f.pneg)
  | .unpk f => some (f.pred, f.pneg)
  | .qmx f => some (f.pred, f.pneg)
  | .dqmx f => some (f.pred, f.pneg)
  | .qply f => some (f.pred, f.pneg)
  | .dqply f => some (f.pred, f.pneg)
  | .kmov f => some (f.pred, f.pneg)
  | .perm f => some (f.pred, f.pneg)
  | .shfl f => some (f.pred, f.pneg)
  | .bcast f => some (f.pred, f.pneg)
  | .votea f => some (f.pred, f.pneg)
  | .votey f => some (f.pred, f.pneg)
  | .ballot f => some (f.pred, f.pneg)
  | .scan f => some (f.pred, f.pneg)
  | .redi f => some (f.pred, f.pneg)
  | .xadd f => some (f.pred, f.pneg)
  | .xrnd f => some (f.pred, f.pneg)
  | .xclr f => some (f.pred, f.pneg)
  | .xld f => some (f.pred, f.pneg)
  | .xst f => some (f.pred, f.pneg)
  | .shape f => some (f.pred, f.pneg)
  | .ld f => some (f.pred, f.pneg)
  | .st f => some (f.pred, f.pneg)
  | .lds f => some (f.pred, f.pneg)
  | .sts f => some (f.pred, f.pneg)
  | .phase f => some (f.pred, f.pneg)
  | .xfence f => some (f.pred, f.pneg)
  | .pref f => some (f.pred, f.pneg)
  | .atomAdd f => some (f.pred, f.pneg)
  | .atomSub f => some (f.pred, f.pneg)
  | .atomMin f => some (f.pred, f.pneg)
  | .atomMax f => some (f.pred, f.pneg)
  | .atomAnd f => some (f.pred, f.pneg)
  | .atomOr f => some (f.pred, f.pneg)
  | .atomXor f => some (f.pred, f.pneg)
  | .atomXchg f => some (f.pred, f.pneg)
  | .atomCas f => some (f.pred, f.pneg)
  | .atomInc f => some (f.pred, f.pneg)
  | .atomFadd f => some (f.pred, f.pneg)
  | .atomFadd2 f => some (f.pred, f.pneg)
  | .atomXam f => some (f.pred, f.pneg)
  | .atomLd f => some (f.pred, f.pneg)
  | .atomsAdd f => some (f.pred, f.pneg)
  | .atomsSub f => some (f.pred, f.pneg)
  | .atomsMin f => some (f.pred, f.pneg)
  | .atomsMax f => some (f.pred, f.pneg)
  | .atomsAnd f => some (f.pred, f.pneg)
  | .atomsOr f => some (f.pred, f.pneg)
  | .atomsXor f => some (f.pred, f.pneg)
  | .atomsXchg f => some (f.pred, f.pneg)
  | .atomsCas f => some (f.pred, f.pneg)
  | .atomsInc f => some (f.pred, f.pneg)
  | .atomsFadd f => some (f.pred, f.pneg)
  | .atomsFadd2 f => some (f.pred, f.pneg)
  | .atomsXam f => some (f.pred, f.pneg)
  | .atomsLd f => some (f.pred, f.pneg)
  | .acp f => some (f.pred, f.pneg)
  | .aseal f => some (f.pred, f.pneg)
  | .await f => some (f.pred, f.pneg)
  | .bcp f => some (f.pred, f.pneg)
  | .bxf f => some (f.pred, f.pneg)
  | .qfen f => some (f.pred, f.pneg)
  | .coll f => some (f.pred, f.pneg)
  | .astat f => some (f.pred, f.pneg)
  | .bari f => some (f.pred, f.pneg)
  | .bara f => some (f.pred, f.pneg)
  | .barw f => some (f.pred, f.pneg)
  | .barx f => some (f.pred, f.pneg)
  | .barc f => some (f.pred, f.pneg)
  | .waita f => some (f.pred, f.pneg)
  | .pipw f => some (f.pred, f.pneg)
  | .barq f => some (f.pred, f.pneg)
  | .mma f => some (f.pred, f.pneg)
  | .mzero f => some (f.pred, f.pneg)
  | .mdrain f => some (f.pred, f.pneg)
  | .mload f => some (f.pred, f.pneg)
  | .hkins f => some (f.pred, f.pneg)
  | .hkdel f => some (f.pred, f.pneg)
  | .hkmove f => some (f.pred, f.pneg)
  | .hkupd f => some (f.pred, f.pneg)
  | .hkopen f => some (f.pred, f.pneg)
  | .hknext f => some (f.pred, f.pneg)
  | .hkclose f => some (f.pred, f.pneg)
  | .hkcount f => some (f.pred, f.pneg)
  | .hkfind f => some (f.pred, f.pneg)
  | .hknbr f => some (f.pred, f.pneg)
  | .hkrank f => some (f.pred, f.pneg)
  | .hkrankThaw f => some (f.pred, f.pneg)
  | .hkstat f => some (f.pred, f.pneg)
  | .bqry f => some (f.pred, f.pneg)
  | .bpop f => some (f.pred, f.pneg)
  | .bstat f => some (f.pred, f.pneg)
  | .bstatRelease f => some (f.pred, f.pneg)

/-- The long-latency instructions (R256). -/
def isLong (i : Instr) : Bool :=
  match i.cls with
  | some .sfu | some .mem | some .asy | some .mma | some .hnk | some .bem => true
  | some .lane => (match i with | .xld _ => true | _ => false)
  | some .syn => (match i with | .barq _ => true | _ => false)
  | _ => false

end Sys2Proof.Machine
end

