-- ==== Sys2Proof/Machine/Fetch.lean ====
section
/-! DEFINITION. The start of a clause (R104, R105, R131, R160, R165, R253-R258): when a unit is ready, the fetch and check of its
clause, the duties it adds; the results of long-latency operations (R256); the word that a port executes next. -/

namespace Sys2Proof.Machine

/-- The accumulator tile of a core. -/
def State.tile (s : State) (core : Nat) : Tile :=
  (s.tiles.find? (fun t => t.core == core)).getD { core := core, group := none, paired := false, elems := [] }

/-- The fields of an MMA-class word (R377). -/
def mmaForm : Instr → Option FmtX
  | .mma f | .mzero f | .mdrain f | .mload f => some f
  | _ => none

/-- The cores whose arrays an MMA-class word of a unit uses: both of a pair for a pair operation (R375). -/
def mmaCores (g : Group) (u : SUnit) (pair : Bool) : List Nat :=
  if pair && g.pair && u.core == g.core then [g.core, g.core + 1] else [u.core]

/-- The arrays that words of a unit would give an operation each (R375): a word with no active item gives none (R385), unless all are asked for. -/
def State.mmaUses (s : State) (u : SUnit) (is : List Instr) (all : Bool := false) : List Nat :=
  match s.groupOf u with
  | none => []
  | some g => ((is.filterMap mmaForm).filter (fun f => all || u.anyActive (u.guard f.pred f.pneg))).flatMap (fun f => mmaCores g u (f.ctrl.getLsbD 8))

/-- The word in the slot of a clause in issue. -/
def Issue.word (i : Issue) : Instr :=
  (i.hdr.decodeSlot i.slot (i.words.getD i.slot 0)).getD (.nop { d := 0, a := 0, pred := 7, pneg := false, sreg := 0, imm := 0 })

/-- The words of a clause in issue from its slot on. -/
def Issue.rest (i : Issue) : List Instr :=
  (List.range (i.hdr.count - i.slot)).map (fun k => { i with slot := i.slot + k }.word)

/-- Whether the tiles and sequencers let words of a unit in (R375, R376): no other group holds a tile of any of them; beside what they have accepted, they keep room for the words of
the clauses of other units in issue. -/
def State.mmaReady (s : State) (u : SUnit) (is : List Instr) : Bool :=
  match s.groupOf u with
  | none => true
  | some g =>
    let free (c : Nat) : Bool := (s.tile c).group.isNone || (s.tile c).group == some g.id
    let mine := s.mmaUses u is
    (s.mmaUses u is true).all free && (mine.isEmpty ||
      let others := s.issue.flatMap (fun i => if i.unit = u.id then [] else match s.unit? i.unit with
        | some x => s.mmaUses x i.rest
        | none => [])
      mine.eraseDups.all (fun c =>
        let accepted := (s.mmaq.filter (fun m => m.core == c || (m.pair && m.core + 1 == c))).length
        decide (accepted + (others ++ mine).count c ≤ 4)))

/-- Whether what a unit waits for has come about (R104). -/
def State.waitOver (s : State) (u : SUnit) : Bool :=
  match u.wait with
  | .none => true
  | .tile => match s.issue.find? (fun i => i.unit == u.id) with
    | some i => s.mmaReady u [i.word]
    | none => true
  | .room q n => decide (s.queueLen u.core q ≤ n)
  | .barw n phases => match (s.groupOf u).bind (fun g => g.bars[n]?) with
    | some b => b.state == .broken || phases.all (fun p => p != b.phase)
    | none => false
  | .waita checks => checks.all (fun c => wordReady (BitVec.ofNat 64 (natOf (Kv.getRun (0 : Byte) s.pad c.1 8))) c.2)
  | .pipw m => u.pips &&& m == 0
  | .await n => decide (u.closed.length ≤ n)
  | .slots => match s.groupOf u with
    | some _ => (s.materialise u).isSome
    | none => true
  | .host lines => !s.hostReads.any (fun h => h.unit == u.id && h.answer.isNone)
    && !s.atomq.any (fun r => s.overLink r.pa && lines.contains (r.pa / 128))
  | .join _ _ | .page _ _ _ _ | .held _ _ | .yield => false

/-- What a word hands to an engine (R131): the queue, whether it enters one entry rather than one for each active item, its predicate. -/
def feedsOf : Instr → Option (Nat × Bool × BitVec 3 × Bool)
  | .acp f => some (if f.ctrl.getLsbD 2 then 1 else 0, false, f.pred, f.pneg)
  | .bcp f | .bxf f => some (if f.ctrl.getLsbD 0 then 1 else 0, false, f.pred, f.pneg)
  | .coll f => some (4, false, f.pred, f.pneg)
  | .bqry f => some (3, false, f.pred, f.pneg)
  | .hkins f | .hkdel f | .hkmove f | .hkupd f | .hkcount f | .hkfind f | .hknbr f | .hkstat f => some (2, false, f.pred, f.pneg)
  | .hkopen f | .hknext f | .hkclose f | .hkrank f | .hkrankThaw f => some (2, true, f.pred, f.pneg)
  | .spawn f => some (5, false, f.pred, f.pneg)
  | _ => none

/-- The entries that a word of a unit hands to a queue, at most (R131). -/
def entriesFor (u : SUnit) (q : Nat) (i : Instr) : Nat :=
  match feedsOf i with
  | some (q', one, pred, pneg) =>
    let n := u.activeCount (u.guard pred pneg)
    if q' ≠ q then 0 else if one then min n 1 else n
  | none => 0

/-- Whether every queue that a clause feeds has room for it, or is empty (R131). -/
def State.queuesReady (s : State) (u : SUnit) (is : List Instr) : Bool :=
  (List.range 6).all (fun q =>
    let n := (is.map (entriesFor u q)).foldl (· + ·) 0
    let have_ := s.queueLen u.core q
    n == 0 || have_ == 0 || decide (have_ + n ≤ 64))

/-- Whether the sealed batches of a clause's ASEALs fit (R119): one with no active item seals none. -/
def batchesReady (u : SUnit) (is : List Instr) : Bool :=
  let n := (is.filter (fun i => match i with | .aseal f => u.anyActive (u.guard f.pred f.pneg) | _ => false)).length
  n == 0 || decide (u.closed.length + n ≤ 8)

/-- Whether the pips of a clause let it in: WAIT is clear and no count passes 15 (R104, R122). -/
def pipsReady (u : SUnit) (h : Header) : Bool :=
  u.pips &&& h.wait == 0
    && (List.range 12).all (fun k =>
      decide (u.pipCount k + (if h.seta = k then 1 else 0) + (if h.setb = k then 1 else 0) ≤ 15) || (h.seta != k && h.setb != k))

/-- Issue ports of a core (R104, R251). -/
def State.portsOf (s : State) (core : Nat) : Nat := if (s.die (dieOfCore core)).onePort then 1 else 2

/-- Whether a unit may take a port, its clause aside (R104, R95, R212); in a SUSPENDING context, and in an aborting launch,
a unit within a clause goes on to its boundary (R218, R81). -/
def State.mayIssue (s : State) (u : SUnit) : Bool :=
  let busy := (s.issue.filterMap (fun i => s.unit? i.unit)).filter (fun x => x.core == u.core)
  let placed := match s.groupOf u with
    | some g => g.state == .resident
    | none => u.kind == .undealt
  let running := match s.ctx? (s.ctxOf u) with
    | some c => c.state == .running || (c.state == .suspending && u.pcSlot.isSome && (u.wait == .none || u.wait == .slots))
    | none => false
  let live := match s.launchOf u with
    | some l => l.state == .running || l.state == .draining || (l.state == .aborting && u.pcSlot.isSome)
    | none => false
  u.kind != .deferred && placed && running && live && !busy.any (·.id == u.id) && decide (busy.length < s.portsOf u.core)
    && (s.die (dieOfCore u.core)).stage == .running && !(s.die (dieOfCore u.core)).faulted

/-- What the fetch of a clause gives. header tells that the header itself was not reached, so that a transfer to it does not take effect
(R258). -/
inductive Fetched where
  | ok (h : Header) (words : List W64)
  | trap (t : LateTrap) (header : Bool)
  | absent (va : Nat)
  | hold (va : Nat)
  deriving Repr

/-- Read one word of a clause (R160, R137, R11, R236). -/
def State.fetchWord (s : State) (u : SUnit) (tpc next : W64) (header : Bool) (va : Nat) : (Fetched ⊕ W64) × State :=
  let trap (c : W32) : Fetched := .trap { cause := c, tpc := tpc, tval := BitVec.ofNat 64 va, next := next, global := true } header
  match s.translate (.core u.core) (s.ctxOf u) .exec va with
  | (.ok pa l, s1) =>
    match s1.creelCheck (s1.ctxOf u) pa va .exec with
    | some (.hold a) => (.inl (.hold a), s1)
    | some _ => (.inl (trap causeCreelro), s1)
    | none =>
      if s1.poisonedVa l va 8 || s1.hostRefuses (l.pa va) then
        (.inl (trap causePoison), s1.countLost (l.pa va))
      else (.inr (BitVec.ofNat 64 (natOf (s1.readVa (.core u.core) false l va 8))), s1)
  | (.fault c, s1) => (.inl (trap c), s1)
  | (.absent, s1) => (.inl (.absent va), s1)
  | (.mig, s1) => (.inl (.hold va), s1)

/-- Read the words of a clause that follow its header, in ascending address. -/
def State.fetchWords (s : State) (u : SUnit) (tpc next : W64) (h : Header) : Nat → Nat → List W64 → Fetched × State
  | 0, _, acc => (.ok h acc, s)
  | n + 1, va, acc => match s.fetchWord u tpc next false va with
    | (.inr w, s1) => s1.fetchWords u tpc next h n (va + 8) (acc ++ [w])
    | (.inl r, s1) => (r, s1)

/-- Whether a later word of a clause writes a register that a long-latency word before it writes (R105): its slot. -/
def lateWriter (h : Header) (ws : List W64) : Option Nat :=
  let is := ws.zipIdx.map (fun w => h.decodeSlot w.2 w.1)
  let long (k : Nat) : List Nat := (is.take k).flatMap (fun i => match i with
    | some i => if isLong i then destsOf i else []
    | none => [])
  (List.range is.length).find? (fun k => match is.getD k none with
    | some i => (destsOf i).any (fun r => (long k).contains r)
    | none => false)

/-- The length of the clause at an address whose header does not pass the checks, by the formula of R255. -/
def skipClause (addr word : W64) : W64 := addr + 8 * ((word >>> 56 &&& 0xF) + 2)

/-- Fetch and check the clause at a unit's address (R160, R165, R254, R258). -/
def State.readClause (s : State) (u : SUnit) : Fetched × State :=
  let tpc := match u.origin with | some o => o.word | none => u.pc
  let next := match u.origin with | some o => o.next | none => u.pc
  let badTarget : Fetched := .trap { cause := causeBadtarget, tpc := tpc, tval := u.pc, next := next, global := true } true
  if u.pc.toNat % 8 ≠ 0 then (badTarget, s)
  else match s.fetchWord u tpc next true u.pc.toNat with
    | (.inl r, s1) => (r, s1)
    | (.inr w, s1) =>
      match decodeHeader w with
      | none =>
        (if u.origin.isSome then badTarget
         else .trap { cause := causeIllclause, tpc := u.pc, tval := u.pc, next := skipClause u.pc w, global := true } false, s1)
      | some h =>
        match s1.fetchWords u u.pc (skipClause u.pc w) h h.count (u.pc.toNat + 8) [] with
        | (.ok h ws, s2) =>
          (match (if u.pcSlot.isSome then none else lateWriter h ws) with
           | some k => .trap { cause := causeIllins, tpc := u.pc, tval := u.pc + 8 * BitVec.ofNat 64 (k + 1)
                               next := skipClause u.pc w, global := true } false
           | none => .ok h ws, s2)
        | r => r

/-- A transfer that did not take effect (R258): the return stack, %nest and the inline calls are those of before it; so is the clause, whose
transferring word was its last (R256, R344). -/
def SUnit.undoTransfer (u : SUnit) : SUnit :=
  match u.origin with
  | some o => { u with rstack := o.rstack, nest := o.nest, inl := o.inl, clause := o.clause
                       duties := u.duties.map (fun d => if d.clause = o.clause then { d with issued := true } else d) }
  | none => u

/-- A trap at a clause boundary; header tells that the unit's transfer did not take effect. -/
def State.boundaryTrap (s : State) (u : SUnit) (header : Bool) (t : LateTrap) : State :=
  let u1 := if header then u.undoTransfer else u
  (s.takeTrap { u1 with origin := none, asyncTrap := none, wait := .none } t.cause t.tpc t.tval t.next t.global).settleDuties

/-- Put a unit's clause into issue (R104, R256): its duties are counted, unless it resumes in the middle of the clause. -/
def State.startClause (s : State) (u : SUnit) (h : Header) (ws : List W64) : State :=
  let (id, s1) := s.fresh
  let duty (k : Nat) (isA : Bool) : List Duty := if k < 12 then [{ clause := id, pip := k, isA := isA, issued := false }] else []
  let u1 := match u.pcSlot with
    | some _ => u
    | none => { u with clause := id, duties := u.duties ++ duty h.seta true ++ duty h.setb false }
  let i : Issue := { unit := u.id, hdrAddr := u.pc, hdr := h, words := ws, slot := u.pcSlot.getD 0, entered := false }
  let s2 := s1.putUnit { u1 with wait := .none, pcSlot := none, origin := none, turn := id }
  { s2 with issue := s2.issue ++ [i] }

/-- Fetch a clause for a unit that is ready (R104, R254, R165). -/
def State.fetchClause (s : State) (u : SUnit) : State :=
  match (if u.pcSlot.isSome then none else u.asyncTrap) with
  | some t => s.boundaryTrap u false t
  | none =>
    match s.readClause u with
    | (.trap t header, s1) => s1.boundaryTrap u header t
    | (.hold va, s1) => s1.updUnit u.id (fun u => { u with wait := .held va (needBits .exec) })
    | (.absent va, s1) =>
      match s1.pageRequest (.core u.core) (s1.ctxOf u) .exec va with
      | none => s1.updUnit u.id (fun u => { u with wait := .held va (needBits .exec) })
      | some s2 =>
        let tpc := match u.origin with | some o => o.word | none => u.pc
        let next := match u.origin with | some o => o.next | none => u.pc
        s2.updUnit u.id (fun u => { u with wait := .page va (needBits .exec) tpc next, tval := BitVec.ofNat 64 va })
    | (.ok h ws, s1) =>
      let is := (ws.zipIdx.map (fun w => (h.decodeSlot w.2 w.1).getD (.nop { d := 0, a := 0, pred := 7, pneg := false, sreg := 0, imm := 0 })))
      if s1.mmaReady u (is.drop (u.pcSlot.getD 0)) && (u.pcSlot.isSome || (pipsReady u h && batchesReady u is && s1.queuesReady u is)) then
        s1.startClause u h ws
      else s1

/-- CLAUSE_FETCH (R104, R254): nothing while the unit is not ready. -/
def execClauseFetch (unit : Nat) (s : State) : Host.Outcome State Fault Refusal :=
  match s.unit? unit with
  | none => .next s
  | some u => if s.mayIssue u && s.waitOver u then .next (s.fetchClause u) else .next s

/-- Whether an outstanding operation has nothing left to wait for (R256, R370). -/
def State.pendDone (s : State) (o : PendOp) : Bool :=
  match o.wait with
  | .ready => true
  | .entries _ => false
  | .fence ids => let live := s.liveEntries; !ids.any (fun x => live.contains x)

/-- Whether a unit stands within the clause of an operation: it reads the registers without the operation's writes until it leaves it
(R105). -/
def State.within (s : State) (o : PendOp) (t : Nat) : Bool :=
  !o.writes.isEmpty && (match s.unit? t with
    | some u => u.clause == o.clause && (s.standsAt u).isSome
    | none => false)

/-- Whether a result that is there cannot land in a unit yet (R105, R102, R222): the unit stands within the clause, is a span whose strands find
no slots, or is saved. -/
def State.withheld (s : State) (o : PendOp) (t : Nat) : Bool :=
  s.within o t || (s.landing o t).isNone || (match (s.unit? t).bind s.groupOf with | some g => g.state == .saved | none => false)

/-- Land an operation in its units, one after the other; beside the state, the units in which it could not land yet. -/
def State.landTargets (s : State) (o : PendOp) : State × List Nat :=
  o.targets.foldl (fun (acc : State × List Nat) t =>
    if acc.1.withheld o t then (acc.1, acc.2 ++ [t]) else (acc.1.landAll o t, acc.2)) (s, [])

/-- LONG_LATENCY_RESULT (R256): the register results land in every unit that has left the clause (R105), and the duties that waited for
the operation may be met; siblings that only waited for results to land fuse (R101). -/
def execLongLatencyResult (op : Nat) (s : State) : Host.Outcome State Fault Refusal :=
  match s.pend.find? (fun o => o.id == op) with
  | none => .next s
  | some o =>
    let (s1, later) := s.landTargets o
    let now := o.targets.filter (fun t => !later.contains t)
    if !s.pendDone o || (now.isEmpty && !later.isEmpty) then .next s
    else
      let live := s1.liveEntries
      let s2 := match o.wait with
        | .fence _ => { s1 with units := s1.units.map (fun (u : SUnit) => { u with qfens := u.qfens.filter (fun q => q.2.any (fun x => live.contains x)) }) }
        | _ => s1
      let s3 := if later.isEmpty then s2.dropPend op else (s2.updPend op (fun o => { o with targets := later })).settleDuties
      .next (now.foldl (fun s t => match s.unit? t with
        | some u => if u.parkedAt.isSome then s.afterSide u else s
        | none => s) s3)

/-- YIELD_EXPIRE (R346). -/
def execYieldExpire (unit : Nat) (s : State) : Host.Outcome State Fault Refusal :=
  .next (s.updUnit unit (fun u => if u.wait = .yield then { u with wait := .none } else u))

/-- What a port does next with the clause at the head of the ports: execute the word of its slot; or the word traps, being no
legal word (R267) or reading a poisoned register row (R137). -/
inductive HeadWord where
  | none
  | word (i : Instr)
  | trap (cause : W32) (tval : W64)
  deriving Repr

/-- A v register of a unit whose row is poisoned (R137). -/
def State.poisonedReg (s : State) (u : SUnit) (rs : List Nat) : Option Nat :=
  if s.poison.rows.isEmpty then none
  else match s.groupOf u with
    | none => none
    | some g => rs.find? (fun r => u.vIsG r && (match g.rowOf (u.window g) r with
        | some k => s.poison.rows.contains k
        | none => false))

/-- Whether a unit in issue waits within its clause. -/
def State.blocked (s : State) (i : Issue) : Bool := match s.unit? i.unit with
  | some u => u.wait != .none
  | none => false

/-- The word that the machine executes next. -/
def State.headWord (s : State) : HeadWord :=
  match s.issue with
  | [] => .none
  | i :: _ =>
    if s.blocked i then .none else
    match i.hdr.decodeSlot i.slot (i.words.getD i.slot 0) with
    | none => .trap causeIllins i.wordAddr
    | some x => match s.unit? i.unit with
      | none => .word x
      | some u =>
        let acts := match predOfInstr x with
          | some p => u.anyActive (u.guard p.1 p.2)
          | none => false
        match (if acts then s.poisonedReg u (srcsOf x) else none) with
        | some r => .trap causePoison (BitVec.ofNat 64 r)
        | none => .word x

/-- The word at the head of the ports traps. -/
def State.trapHead (s : State) (cause : W32) (tval : W64) : Host.Outcome State Fault Refusal :=
  s.runWord (fun s _ _ => .trap s cause tval (cause == causeIllins))

end Sys2Proof.Machine
end

