-- ==== Sys2Proof/Machine/Mma.lean ====
section
/-! DEFINITION. The matrix array (R375-R385, R45-R48): the MMA class, and what the sequencer performs on the tile, one k-block of
an MMA at a time. -/

namespace Sys2Proof.Machine

/-- Elements of a tile in order, row * 128 + column (R375). -/
def Tile.array (t : Tile) : Array W32 := t.elems.foldl (fun a e => a.setIfInBounds e.1 e.2) (Array.replicate 16384 0)

/-- A tile's table from its elements in order. -/
def tileElems (xs : List W32) : Kv W32 := (xs.zipIdx.filter (fun e => e.1 != 0)).map (fun e => (e.2, e.1))

/-- Change a core's tile. -/
def State.setTile (s : State) (t : Tile) : State :=
  if s.tiles.any (fun x => x.core == t.core) then { s with tiles := updWhere (fun x => x.core == t.core) (fun _ => t) s.tiles }
  else { s with tiles := s.tiles ++ [t] }

/-- A group claims a core's tile: every element is +0 (R375). A pair operation makes it one of a pair (R384). -/
def State.claimTile (s : State) (gid : Nat) (paired : Bool) (core : Nat) : State :=
  let t := s.tile core
  if t.group = some gid then (if paired && !t.paired then s.setTile { t with paired := true } else s)
  else s.setTile { core := core, group := some gid, paired := paired, elems := [] }

/-- The element format of BFMT (R377). -/
def bfmtBytes (b : Nat) : Nat := match b with | 2 => 4 | 0 | 1 => 2 | _ => 1

/-- The value of an element of the B matrix (R379). -/
def bfmtValue (b x : Nat) : Fv :=
  match b with
  | 0 => fmtF16.decode x
  | 1 => fmtBf16.decode x
  | 2 => fmtF32.decode x
  | 3 => fmtE4m3.decode x
  | 4 => fmtE5m2.decode x
  | 5 => Fv.ofInt (intOf true 8 x)
  | _ => Fv.ofInt (intOf false 8 x)

/-- The type of a block DFMT (R383). -/
def dfmtTy (d : Nat) : Ty :=
  match d with
  | 2 => .e4m3
  | 3 => .e5m2
  | 4 => .e3m2
  | 5 => .e2m3
  | 6 => .e2m1
  | 7 => .mxi8
  | 8 => .ply9
  | 9 => .ply6
  | _ => .ply4

/-- Bytes of a row's elements and of its scales for n columns (R383). -/
def drainBytes (d n : Nat) : Nat × Nat :=
  match d with
  | 0 => (4 * n, 0)
  | 1 => (2 * n, 0)
  | 2 | 3 | 4 | 5 | 6 | 7 => (n / 8 * tyBits (dfmtTy d), n / 32)
  | _ => (n / 8 * (plyM (dfmtTy d) + 1), n / 8)

/-- Columns of an operation (R375). -/
def MmaOp.cols (m : MmaOp) (g : Group) : Nat := if m.pair && g.pair && m.core == g.core then 256 else 128

/-- The cores whose tiles an operation uses. -/
def MmaOp.cores (m : MmaOp) (g : Group) : List Nat := if m.cols g = 256 then [m.core, m.core + 1] else [m.core]

/-- The pad footprints of an operation: offset and bytes (R385). -/
def MmaOp.footprints (m : MmaOp) (g : Group) : List (Nat × Nat) :=
  let n := m.cols g
  match m.kind with
  | 0 => [(m.a, 128 * m.kb * kblockBytes m.planes), (m.b, 16 * m.kb * n * bfmtBytes m.bfmt)]
  | 1 => []
  | 2 =>
    let (eb, sb) := drainBytes m.dfmt n
    (m.a, 128 * eb) :: (if sb = 0 then [] else [(m.b, 128 * sb)])
  | _ => [(m.a, 512 * n)]

/-- The sequencer accepts an instruction (R376, R377, R385). kind: 0 MMA, 1 MZERO, 2 MDRAIN, 3 MLOAD; offs are the registers of
its offsets. -/
def State.acceptMma (s : State) (f : FmtX) (kind : Nat) (offs : List (BitVec 7)) : Host.Outcome State Fault Refusal :=
  s.runClosing (fun s i u =>
    let gd := u.guard f.pred f.pneg
    if !u.anyActive gd then .done s
    else match s.groupOf u with
      | none => .needG s
      | some g =>
        let at_ (k : Nat) : Nat := match offs[k]? with
          | some r => (s.vAt u r.toNat (u.lowest gd)).toNat
          | none => 0
        let c := f.ctrl
        let op : MmaOp :=
          { id := 0, op := 0, core := u.core, unit := u.id, group := g.id, word := i.wordAddr, kind := kind, pair := c.getLsbD 8
            a := at_ 0, b := at_ 1, kb := f.imm8.toNat, planes := (c.extractLsb' 0 4).toNat + 1, bfmt := (c.extractLsb' 4 3).toNat
            dfmt := (c.extractLsb' 0 4).toNat
            round := (if c.extractLsb' 4 3 = 0 then (u.fmode.extractLsb' 0 2).toNat else (c.extractLsb' 4 3).toNat - 1)
            sat := c.getLsbD 7 || u.fmode.getLsbD 2, clear := c.getLsbD 9, keep := u.fmode.getLsbD 3, next := 0, assist := false
            after := i.nextClause }
        let cores := op.cores g
        if !s.mmaReady u [i.word] then .stay (s.updUnit u.id (fun u => { u with wait := .tile }))
        else match (List.range offs.length).find? (fun k => at_ k % 16 ≠ 0) with
          | some k => .trap s causeMisalign (BitVec.ofNat 64 (at_ k))
          | none => match (op.footprints g).find? (fun x => (g.padPlace u.core x.1 x.2).isNone) with
            | some x => .trap s causePadrange (BitVec.ofNat 64 x.1)
            | none =>
              let s1 := cores.foldl (fun s c => s.claimTile g.id (cores.length == 2) c) s
              let (pid, s2) := s1.addPend u (.entries 1) [] false true false
              let (id, s3) := s2.fresh
              .done { s3 with mmaq := s3.mmaq ++ [{ op with id := id, op := pid, pair := cores.length == 2 }] })

def execMma (f : FmtX) (s : State) : Host.Outcome State Fault Refusal := s.acceptMma f 0 [f.a, f.b]
def execMzero (f : FmtX) (s : State) : Host.Outcome State Fault Refusal := s.acceptMma f 1 []
def execMload (f : FmtX) (s : State) : Host.Outcome State Fault Refusal := s.acceptMma f 3 [f.a]

/-- MDRAIN; the scales' register counts only for a destination with scales (R377, R383). -/
def execMdrain (f : FmtX) (s : State) : Host.Outcome State Fault Refusal :=
  s.acceptMma f 2 (if 2 ≤ (f.ctrl.extractLsb' 0 4).toNat then [f.a, f.b] else [f.a])

/-- An operation has been performed: its duty is met (R256). -/
def State.mmaDone (s : State) (m : MmaOp) : State :=
  { s with mmaq := s.mmaq.filter (fun x => x.id != m.id) }.entryDone m.op none 0 0

/-- A poisoned word read by the array: POISON in the issuing strand at its next clause boundary (R385). -/
def State.mmaPoison (s : State) (m : MmaOp) (off : Nat) : State :=
  let t : LateTrap := { cause := causePoison, tpc := m.word, tval := BitVec.ofNat 64 off, next := m.after, global := false }
  let who := match s.pend.find? (fun o => o.id == m.op) with | some o => o.targets | none => []
  { s with units := s.units.map (fun (u : SUnit) => if who.contains u.id then { u with asyncTrap := some t } else u) }.mmaDone m

/-- The first poisoned 8-byte word of a footprint, as an offset (R137). -/
def State.mmaPoisonAt (s : State) (g : Group) (self : Nat) (fps : List (Nat × Nat)) : Option Nat :=
  if s.poison.padWords.isEmpty then none
  else fps.findSome? (fun x => match g.padPlace self x.1 x.2 with
    | some (c, o) => ((List.range x.2).find? (fun i => s.padPoisoned c (o + i) 1)).map (fun i => x.1 + i / 8 * 8)
    | none => none)

/-- Bytes of the pad an operation reads. -/
def State.mmaRead (s : State) (g : Group) (self off n : Nat) : List Byte :=
  match g.padPlace self off n with
  | some (c, o) => s.padBytes c o n
  | none => List.replicate n 0

/-- Write pad bytes for an operation. -/
def State.mmaWrite (s : State) (g : Group) (self off : Nat) (bs : List Byte) : State :=
  match g.padPlace self off bs.length with
  | some (c, o) => s.writePad c o bs
  | none => s

/-- Columns first .. first + 127 of a tile after one k-block (R380, R46, R47): rows of A values, none for a non-finite block; passes
of B by column. The second part tells that a result was subnormal. -/
def kblockUpdate (keep : Bool) (t : Tile) (rows : List (Option (List Fv))) (cols : Array (List (List Fv))) (first : Nat) : Tile × Bool :=
  let old := t.array
  let new := rows.zipIdx.flatMap (fun r => (List.range 128).map (fun n =>
    tileUpdate keep (old.getD (r.2 * 128 + n) 0)
      ((cols.getD (first + n) []).map (fun b => match r.1 with | some a => dotExact a b | none => .nan))))
  ({ t with elems := tileElems new }, new.any subnormal32)

/-- One k-block of an MMA (R378-R380). -/
def State.performKblock (s : State) (m : MmaOp) (g : Group) : State :=
  let n := m.cols g
  let l := kblockBytes m.planes
  let e := bfmtBytes m.bfmt
  let kb := m.next
  let aAt (r : Nat) : Nat := m.a + (r * m.kb + kb) * l
  let bAt : Nat := m.b + 16 * kb * n * e
  match s.mmaPoisonAt g m.core ((bAt, 16 * n * e) :: (List.range 128).map (fun r => (aAt r, l))) with
  | some off => s.mmaPoison m off
  | none =>
    let rows := (List.range 128).map (fun r => unpackKblock m.planes (s.mmaRead g m.core (aAt r) l))
    let bs := (s.mmaRead g m.core bAt (16 * n * e)).toArray
    let elem (i c : Nat) : Fv := bfmtValue m.bfmt (natOf ((List.range e).map (fun j => bs.getD ((i * n + c) * e + j) 0)))
    let cols := ((List.range n).map (fun c =>
      let ps := (List.range 16).map (fun i => bPasses (m.bfmt == 2) (elem i c))
      (List.range (if m.bfmt = 2 then 2 else 1)).map (fun k => ps.map (fun p => p.getD k .nan)))).toArray
    let (s1, sub) := (m.cores g).zipIdx.foldl (fun (acc : State × Bool) c =>
      let (t, sub) := kblockUpdate m.keep (acc.1.tile c.1) rows cols (128 * c.2)
      (acc.1.setTile t, acc.2 || sub)) (s, false)
    let m1 := { m with next := kb + 1, assist := m.keep && sub }
    let s2 := { s1 with mmaq := updWhere (fun (x : MmaOp) => x.id == m.id) (fun _ => m1) s1.mmaq }
    if m.kb ≤ kb + 1 && !m1.assist then s2.mmaDone m1 else s2

/-- A row of both tiles of an operation. -/
def tileRow (m : MmaOp) (g : Group) (arrays : List (Array W32)) (r : Nat) : List W32 :=
  (arrays.take (m.cores g).length).flatMap (fun a => (List.range 128).map (fun c => a.getD (r * 128 + c) 0))

/-- The elements and scales of a drained row (R48, R383). -/
def drainRow (m : MmaOp) (row : List W32) : List Byte × List Byte :=
  let rm : Rm := match m.round with | 0 => .rne | 1 => .rtz | 2 => .rup | _ => .rdn
  let flushed := row.map (fun x => flush32 m.keep x.msb x)
  match m.dfmt with
  | 0 => (flushed.flatMap (fun x => bytesOf 4 x.toNat), [])
  | 1 => (flushed.flatMap (fun x => bytesOf 2 (fmtBf16.encode rm m.sat (fmtF32.decode x.toNat))), [])
  | d =>
    let t := dfmtTy d
    let vals := row.map (fun x => fmtF32.decode x.toNat)
    if d ≤ 7 then
      let q := (chunksOf 32 row.length vals).map (quantiseMx t m.sat)
      (q.flatMap (fun b => bytesOf (4 * tyBits t) (packBits (tyBits t) b.2)), q.flatMap (fun b => bytesOf 1 b.1))
    else
      let q := (chunksOf 16 row.length vals).map (quantisePly t m.sat)
      (q.flatMap (fun b => bytesOf (2 * (plyM t + 1)) (packBits (plyM t + 1) b.2.2)),
       q.flatMap (fun b => bytesOf 1 b.1 ++ bytesOf 1 (packBits 1 b.2.1)))

/-- MDRAIN on the tile (R382, R383). -/
def State.performDrain (s : State) (m : MmaOp) (g : Group) : State :=
  let arrays := (m.cores g).map (fun c => (s.tile c).array)
  let (eb, sb) := drainBytes m.dfmt (m.cols g)
  let s1 := (List.range 128).foldl (fun s r =>
    let (es, ss) := drainRow m (tileRow m g arrays r)
    let s2 := s.mmaWrite g m.core (m.a + r * eb) es
    if sb = 0 then s2 else s2.mmaWrite g m.core (m.b + r * sb) ss) s
  (if m.clear then (m.cores g).foldl (fun s c => s.setTile { s.tile c with elems := [] }) s1 else s1).mmaDone m

/-- MLOAD into the tile (R382). -/
def State.performLoad (s : State) (m : MmaOp) (g : Group) : State :=
  let n := m.cols g
  match s.mmaPoisonAt g m.core [(m.a, 512 * n)] with
  | some off => s.mmaPoison m off
  | none =>
    let bs := (s.mmaRead g m.core m.a (512 * n)).toArray
    let elem (r c : Nat) : W32 := BitVec.ofNat 32 (natOf ((List.range 4).map (fun j => bs.getD (4 * (r * n + c) + j) 0)))
    ((m.cores g).zipIdx.foldl (fun s k =>
      s.setTile { s.tile k.1 with elems := tileElems ((List.range 128).flatMap (fun r => (List.range 128).map (fun c => elem r (128 * k.2 + c)))) }) s).mmaDone m

/-- The instruction at the head of a core's sequencer (R376). -/
def State.mmaHead (s : State) (core : Nat) : Option MmaOp := s.mmaq.find? (fun m => m.core == core || (m.pair && m.core + 1 == core))

/-- The instruction that a core's sequencer performs next: a pair operation by the leader, once it stands first in both
sequencers. -/
def State.mmaTurn (s : State) (core : Nat) : Option MmaOp :=
  match s.mmaHead core with
  | none => none
  | some m =>
    if m.core != core then none
    else if m.pair && (s.mmaHead (core + 1)).map (·.id) != some m.id then none
    else some m

/-- MMA_SEQUENCER_PERFORM (R376, R380-R384). -/
def execMmaSequencerPerform (core : Nat) (s : State) : Host.Outcome State Fault Refusal :=
  match s.mmaTurn core with
  | none => .next s
  | some m =>
    if m.assist then .next s
    else match s.group? m.group with
      | none => .next (s.mmaDone m)
      | some g => match m.kind with
        | 0 => .next (s.performKblock m g)
        | 1 => .next (((m.cores g).foldl (fun s c => s.setTile { s.tile c with elems := [] }) s).mmaDone m)
        | 2 => .next (s.performDrain m g)
        | _ => .next (s.performLoad m g)

/-- MMA_ASSIST_COMPLETE (R47): the tile holds the subnormals in full, and the array resumes. -/
def execMmaAssistComplete (core : Nat) (s : State) : Host.Outcome State Fault Refusal :=
  match s.mmaTurn core with
  | none => .next s
  | some m =>
    if !m.assist then .next s
    else
      let m1 := { m with assist := false }
      let s1 := { s with mmaq := updWhere (fun (x : MmaOp) => x.id == m.id) (fun _ => m1) s.mmaq }
      .next (if m.kb ≤ m.next then s1.mmaDone m1 else s1)

end Sys2Proof.Machine
end

