-- ==== Sys2Proof/Machine/Beam.lean ====
section
/-! DEFINITION. Beam queries (R192-R207) and the BEM class (R393-R397). -/

namespace Sys2Proof.Machine

def beBadbeam : Nat := 14
def beHitcap : Nat := 15
def beBadquery : Nat := 16

/-- Bounds of a value (R194-R196). -/
abbrev Iv := Fv × Fv

/-- f64 rounding down and up (R194). -/
def dn (x : Fv) : Fv := fmtF64.decode (fmtF64.encode .rdn false x)
def up (x : Fv) : Fv := fmtF64.decode (fmtF64.encode .rup false x)
def exactSub (a b : Fv) : Fv := Fv.add .rne a b.neg
def addDn (a b : Fv) : Fv := dn (Fv.add .rdn a b)
def addUp (a b : Fv) : Fv := up (Fv.add .rup a b)
def ltF (a b : Fv) : Bool := Fv.cmp a b == some .lt

/-- a >= b, which no NaN is. -/
def geF (a b : Fv) : Bool := Fv.cmp a b == some .gt || Fv.cmp a b == some .eq
def zeroF : Fv := .fin false 0 0

/-- The product of bounds: a zero factor gives zero, whatever the other bound. -/
def mulF (a b : Fv) : Fv := if a.isZero || b.isZero then zeroF else Fv.mul a b

/-- The bounds of an interval product (R196). -/
def ivMul (a b : Iv) : Iv :=
  let ps := [mulF a.1 b.2, mulF a.2 b.1, mulF a.2 b.2]
  let p := mulF a.1 b.1
  (dn (ps.foldl (fun m x => if ltF x m then x else m) p), up (ps.foldl (fun m x => if ltF m x then x else m) p))

/-- lower and upper of n . q (R196). -/
def ivDot : List (Iv × Iv) → Iv
  | [] => (zeroF, zeroF)
  | (n, q) :: rest => rest.foldl (fun acc x => let p := ivMul x.1 x.2; (addDn acc.1 p.1, addUp acc.2 p.2)) (ivMul n q)

/-- A beam record (R192). -/
structure Beam where
  apex : List Fv
  d : List Fv
  u : List Fv
  tanx : Fv
  tany : Fv
  tmin : Fv
  tmax : Fv
  kind : Nat
  limit : Nat
  depth : Nat
  path : Nat
  raw : List Byte
  deriving DecidableEq, Repr

def f32At (b : List Byte) (o : Nat) : Fv := fmtF32.decode (fieldOf b o 4)

def Beam.ofBytes (b : List Byte) : Beam :=
  let fl := fieldOf b 52 4
  { apex := [f32At b 0, f32At b 4, f32At b 8], d := [f32At b 12, f32At b 16, f32At b 20], u := [f32At b 24, f32At b 28, f32At b 32]
    tanx := f32At b 36, tany := f32At b 40, tmin := f32At b 44, tmax := f32At b 48, kind := fl % 4, limit := fl / 4 % 8
    depth := fl / 256 % 8, path := fl / 65536 % 256, raw := b }

/-- Component a of D × U, exactly. -/
def Beam.crossAt (b : Beam) (a : Nat) : Fv :=
  let d (i : Nat) : Fv := b.d.getD (i % 3) zeroF
  let u (i : Nat) : Fv := b.u.getD (i % 3) zeroF
  exactSub (Fv.mul (d (a + 1)) (u (a + 2))) (Fv.mul (d (a + 2)) (u (a + 1)))

/-- Whether a record keeps R193. -/
def Beam.ok (b : Beam) : Bool :=
  let finite (x : Fv) : Bool := match x with | .fin .. => true | _ => false
  let fl := fieldOf b.raw 52 4
  (b.apex ++ b.d ++ b.u ++ [b.tanx, b.tany, b.tmin, b.tmax, f32At b.raw 56]).all finite
    && !ltF b.tanx zeroF && !ltF b.tany zeroF && !ltF b.tmin zeroF && ltF b.tmin b.tmax
    && !b.d.all (·.isZero) && !b.u.all (·.isZero) && !(List.range 3).all (fun a => (b.crossAt a).isZero)
    && b.kind != 3 && (b.kind != 1 || b.tany.isZero) && (b.kind != 2 || (b.tanx.isZero && b.tany.isZero))
    && decide (b.depth ≤ b.limit) && decide (b.limit ≤ 4) && b.path % 2 ^ (8 - 2 * b.depth) == 0
    && fl / 2 ^ 24 == 0 && fl / 2 ^ 11 % 32 == 0 && fl / 2 ^ 5 % 8 == 0 && zeroField b.raw 60 4

/-- The half of digit k (from 0) on an axis, and the window index built from the halves (R194). -/
def Beam.index (b : Beam) (axis : Nat) : Nat :=
  (List.range b.depth).foldl (fun acc k => 2 * acc + (b.path / 2 ^ (6 - 2 * k)) / 2 ^ axis % 2) 0

/-- A window edge, exactly (R194). -/
def Beam.edge (b : Beam) (tan : Fv) (i : Nat) : Fv :=
  let k : Int := 2 * (i : Int) - 2 ^ b.depth
  Fv.mul tan (.fin (decide (k < 0)) k.natAbs (-(b.depth : Int)))

/-- The four side normals (R194). -/
def Beam.normals (b : Beam) : List (List Iv) :=
  let xl := b.edge b.tanx (b.index 0)
  let xh := b.edge b.tanx (b.index 0 + 1)
  let yl := b.edge b.tany (b.index 1)
  let yh := b.edge b.tany (b.index 1 + 1)
  let d (a : Nat) : Fv := b.d.getD a zeroF
  let u (a : Nat) : Fv := b.u.getD a zeroF
  let v (a : Nat) : Iv := (dn (b.crossAt a), up (b.crossAt a))
  let comps (f : Nat → Iv) : List Iv := (List.range 3).map f
  [ comps (fun a => let x := exactSub (u a) (Fv.mul xl (d a)); (dn x, up x)),
    comps (fun a => let x := exactSub (Fv.mul xh (d a)) (u a); (dn x, up x)),
    comps (fun a => (dn (exactSub (v a).1 (Fv.mul yl (d a))), up (exactSub (v a).2 (Fv.mul yl (d a))))),
    comps (fun a => (dn (exactSub (Fv.mul yh (d a)) (v a).2), up (exactSub (Fv.mul yh (d a)) (v a).1))) ]

/-- The record of a child beam (R197). -/
def Beam.child (b : Beam) (q : Nat) : List Byte :=
  let fl := fieldOf b.raw 52 4
  putField b.raw 52 4 (fl - b.depth * 256 + (b.depth + 1) * 256 + q * 2 ^ (22 - 2 * b.depth))

/-- The box of a node, inflated by a radius (R195). -/
def Hank.box (h : Hank) (l node : Nat) (r : Fv) : List Iv :=
  h.origin.zipIdx.map (fun o =>
    let c := voxelAxis o.2 node
    let org := fmtF64.decode o.1
    let cell := fmtF64.decode h.cell
    let lo := addDn org (dn (Fv.mul (.fin false (c * 2 ^ l) 0) cell))
    let hi := addUp org (up (Fv.mul (.fin false ((c + 1) * 2 ^ l) 0) cell))
    (dn (exactSub lo r), addUp hi r))

inductive BoxClass where
  | out | within | straddle
  deriving DecidableEq, Repr

/-- t's bounds on a box. -/
def Beam.tBounds (b : Beam) (q : List Iv) : Iv := ivDot ((b.d.map (fun x => ((x, x) : Iv))).zip q)

/-- A box relative to the apex. -/
def Beam.toApex (b : Beam) (box : List Iv) : List Iv :=
  (box.zip b.apex).map (fun x => (dn (exactSub x.1.1 x.2), up (exactSub x.1.2 x.2)))

/-- classify (R196), with the bounds of t. -/
def Beam.classify (b : Beam) (box : List Iv) : BoxClass × Iv :=
  let q := b.toApex box
  let t := b.tBounds q
  let sides := b.normals.map (fun n => ivDot (n.zip q))
  if sides.any (fun x => ltF x.2 zeroF) || ltF t.2 b.tmin || geF t.1 b.tmax then (.out, t)
  else if b.kind == 0 && sides.all (fun x => geF x.1 zeroF) && geF t.1 b.tmin && ltF t.2 b.tmax then (.within, t)
  else (.straddle, t)

/-- A hit before its record is written (R199). -/
structure BeamHit where
  stamp : W32
  key : Nat
  tenter : Nat
  texit : Nat
  inNode : Bool
  deriving DecidableEq, Repr

/-- A radius under R189. -/
def radiusOf (bits : Nat) : Fv :=
  match fmtF32.decode bits with
  | .nan => .inf false
  | x => if x.sign then zeroF else x

/-- The hit of an element (R199). -/
def Beam.hit (b : Beam) (h : Hank) (e : Elem) (inNode : Bool) : BeamHit :=
  let t := b.tBounds (b.toApex (h.box 0 e.key (radiusOf (h.radius e))))
  let te := if ltF b.tmin t.1 then t.1 else b.tmin
  let tx := if ltF t.2 b.tmax then t.2 else b.tmax
  { stamp := e.stamp, key := e.key, tenter := fmtF32.encode .rdn false te, texit := fmtF32.encode .rup false tx, inNode := inNode }

def sqrtDn (x : Fv) : Fv := fmtF64.decode (fmtF64.sqrt .rdn false (fmtF64.encode .rdn false x))
def sqrtUp (x : Fv) : Fv := fmtF64.decode (fmtF64.sqrt .rup false (fmtF64.encode .rup false x))

/-- Whether a cone drops an element (R198). -/
def Beam.coneDrops (b : Beam) (h : Hank) (e : Elem) : Bool :=
  let q := ((h.position e.key).zip b.apex).map (fun x =>
    let y := exactSub (fmtF64.decode x.1) x.2
    ((dn y, up y) : Iv))
  let at_ (i : Nat) : Iv := q.getD (i % 3) (zeroF, zeroF)
  let d (i : Nat) : Iv := let x := b.d.getD (i % 3) zeroF; (x, x)
  let low (a : Nat) : Fv :=
    let x := ivMul (at_ (a + 1)) (d (a + 2))
    let y := ivMul (at_ (a + 2)) (d (a + 1))
    let lo := dn (exactSub x.1 y.2)
    let hi := up (exactSub x.2 y.1)
    if ltF zeroF lo then lo else if ltF hi zeroF then hi.neg else zeroF
  let left := sqrtDn ((List.range 3).foldl (fun acc a => addDn acc (dn (mulF (low a) (low a)))) zeroF)
  let dd := b.d.foldl (fun acc x => addUp acc (up (mulF x x))) zeroF
  let k := sqrtUp (addUp (.fin false 1 0) (up (mulF b.tanx b.tanx)))
  let r := radiusOf (h.radius e)
  let right := addUp (ivMul (b.tanx, b.tanx) (b.tBounds q)).2 (up (mulF (up (mulF r (sqrtUp dd))) k))
  ltF right left

/-- A level of the summary as written: node key and radius bits (R189). -/
def readLevel (who : Who) (h : Hank) (table : List Byte) (l : Nat) : HM (List (Nat × Nat)) := do
  let n := fieldOf table (16 * l + 8) 4
  if n = 0 then return []
  let b ← hRead who h.ctx h.fm (h.summary + fieldOf table (16 * l) 8) (16 * n)
  let recs := chunksOf 16 (n + 1) b
  return recs.map (fun r => (fieldOf r 0 8, fieldOf r 12 4))

/-- The elements of the leas from n on whose keys lie in [lo, hi). fuel bounds the leas. -/
def elemsIn (who : Who) (h : Hank) (lo hi : Nat) : Nat → Nat → HM (List Elem)
  | 0, _ => return []
  | fuel + 1, n => do
    if hi ≤ lo || 2 ^ h.loglea ≤ n || h.leaOf (hi - 1) < n then return []
    let l ← readLea who h n
    let chain ← readChain { l with home := who } h
    let es := (chain.flatMap (·.2)).filter (fun x => decide (lo ≤ x.key) && decide (x.key < hi))
    return es ++ (← elemsIn who h lo hi fuel (n + 1))

/-- The elements under a node. -/
def underNode (who : Who) (h : Hank) (l node : Nat) : HM (List Elem) :=
  elemsIn who h (node * 2 ^ (3 * l)) ((node + 1) * 2 ^ (3 * l)) (2 ^ h.loglea + 1) (h.leaOf (node * 2 ^ (3 * l)))

/-- Settle a node (R197), its radius as the summary has it (R189): its hits; none when the beam splits. -/
def settleNode (who : Who) (h : Hank) (table : List Byte) (b : Beam) : Nat → Nat → Nat → HM (Option (List BeamHit))
  | l, node, radius => do
    match (b.classify (h.box l node (fmtF32.decode radius))).1 with
    | .out => return some []
    | .within => return some ((← underNode who h l node).map (fun e => b.hit h e true))
    | .straddle =>
      if b.kind != 2 && b.depth < b.limit then return none
      match l with
      | 0 =>
        let es ← underNode who h 0 node
        return some ((es.filter (fun e => (b.classify (h.box 0 e.key (radiusOf (h.radius e)))).1 != .out
          && !(b.kind == 1 && b.coneDrops h e))).map (fun e => b.hit h e false))
      | k + 1 =>
        let kids := (← readLevel who h table k).filter (fun r => r.1 / 8 == node)
        kids.foldlM (fun (acc : Option (List BeamHit)) r => match acc with
          | none => return none
          | some hs => do
            match ← settleNode who h table b k r.1 r.2 with
            | none => return none
            | some more => return some (hs ++ more)) (some [])

namespace State

def updBeam (s : State) (cluster slot : Nat) (f : BeamSlot → BeamSlot) : State :=
  { s with beams := updWhere (fun (b : BeamSlot) => b.cluster == cluster && b.slot == slot) f s.beams }

def beam? (s : State) (cluster slot : Nat) : Option BeamSlot := s.beams.find? (fun b => b.cluster == cluster && b.slot == slot)

end State

/-- A query in its slot (R201, R206). -/
structure Query where
  cluster : Nat
  slot : Nat
  hank : Hank
  table : List Byte
  result : Nat
  cap : Nat
  queue : Nat
  template : List Byte
  split : Nat
  splitcap : Nat
  tree : W32
  deriving DecidableEq, Repr

def Query.who (q : Query) : Who := .beam q.cluster

/-- The slot of a query. -/
def Query.state (q : Query) : HM (Option BeamSlot) := do return (← get).beam? q.cluster q.slot

/-- The bytes of a hit record (R199). -/
def BeamHit.bytes (x : BeamHit) (b : Beam) : List Byte :=
  bytesOf 4 x.stamp.toNat ++ bytesOf 4 x.tenter ++ bytesOf 4 x.texit ++ bytesOf 2 (b.depth * 256 + b.path)
    ++ bytesOf 1 (if x.inNode then 1 else 0) ++ bytesOf 1 0

/-- The order of hits within a leaf as one number: TENTER, key, stamp (R200). -/
def BeamHit.order (x : BeamHit) : Nat := ((if x.tenter = 0x80000000 then 0 else x.tenter) * 2 ^ 64 + x.key) * 2 ^ 32 + x.stamp.toNat

/-- Write a leaf's hits (R200, R202). -/
def writeHits (q : Query) (b : Beam) : List BeamHit → HM Unit
  | [] => return ()
  | x :: xs => do
    let n := match ← q.state with | some s => s.hits | none => 0
    if q.cap ≤ n then throw (.status beHitcap 0)
    hCommit q.who q.hank.ctx q.hank.fm [.plain (q.result + 16 * n) (x.bytes b)]
    modify (fun s => s.updBeam q.cluster q.slot (fun s => { s with hits := n + 1 }))
    writeHits q b xs

/-- Hand a split to a continuation (R203, R410): whether its record was published. -/
def spawnSplit (q : Query) (b : Beam) (k : Nat) : HM Bool := do
  let area := q.split + 256 * k
  hCommit q.who q.hank.ctx q.hank.fm [.plain area ((List.range 4).flatMap b.child)]
  let s ← get
  match s.dq? q.hank.ctx q.queue with
  | none => return false
  | some d => match s.dqProducer q.who d with
    | (.absent need va, s1) =>
      match s1.pageRequest q.who q.hank.ctx need va with
      | some s2 =>
        set s2
        return false
      | none => throw .hold
    | (.mig _, _) => throw .hold
    | (.bad _ _, s1) =>
      set s1
      return false
    | (.ok pa, s1) =>
      let s2 := s1.dqSettle pa
      if s2.dqRoom d pa = 0 then
        set s2
        return false
      else
        set ((s2.pushRecord q.who d pa q.tree 1 (BitVec.ofNat 64 area) (putField (putField (q.template.take 40) 8 4 0) 12 4 4)).updBeam
          q.cluster q.slot (fun s => { s with spawned := s.spawned + 1 }))
        return true

/-- Run a beam and the beams it splits into (R197, R200, R203, R204). fuel bounds the depth. -/
def runBeam (q : Query) : Nat → Bool → Beam → HM Unit
  | fuel, spawn, b => do
    let root := (← readLevel q.who q.hank q.table q.hank.kbits).find? (fun r => r.1 == 0)
    let r ← match root with
      | none => pure (some [])
      | some r => settleNode q.who q.hank q.table b q.hank.kbits 0 r.2
    match r with
    | some hits =>
      writeHits q b (sortBy BeamHit.order hits)
      modify (fun s => s.updBeam q.cluster q.slot (fun s => { s with leaves := s.leaves + 1 }))
    | none =>
      let k := match ← q.state with | some s => s.spawned | none => 0
      let done ← if spawn && k < q.splitcap then spawnSplit q b k else pure false
      if done then return ()
      modify (fun s => s.updBeam q.cluster q.slot (fun s => { s with collected := s.collected + 1 }))
      match fuel with
      | 0 => return ()
      | n + 1 => (List.range 4).foldlM (fun (_ : Unit) i => runBeam q n false (Beam.ofBytes (b.child i))) ()

/-- Whether a card keeps R201, its template apart. -/
def cardOk (c : List Byte) : Bool :=
  let mode := fieldOf c 28 1
  fieldOf c 16 8 % 16 == 0 && decide (fieldOf c 24 4 ≤ 4096) && decide (mode ≤ 1) && zeroField c 30 2 && zeroField c 52 4
    && fieldOf c 56 8 % 32 == 0 && fieldOf c 8 8 % 16 == 0
    && (mode == 0 || (decide (fieldOf c 29 1 ≤ 31) && fieldOf c 32 8 % 64 == 0 && fieldOf c 40 8 % 256 == 0))

/-- Read and check the hank of a query (R189, R190, R202). -/
def queryHank (who : Who) (ctx : Nat) (fm : BitVec 4) (c : List Byte) : HM (Hank × List Byte) := do
  let h ← readHank who ctx fm (fieldOf c 0 8)
  if !h.ranked then throw (.status hkNotfrozen 0)
  let t ← hRead who ctx fm h.summary 352
  let ok := (List.range 22).all (fun l => zeroField t (16 * l + 12) 4 && (decide (l ≤ h.kbits) || zeroField t (16 * l) 12)
    && (fieldOf t (16 * l + 8) 4 == 0 || decide (fieldOf t (16 * l) 8 + 16 * fieldOf t (16 * l + 8) 4 ≤ h.sumcap)))
  if ok then return (h, t) else throw (.status hkBadhank 0)

/-- The template of a spawn card, checked (R201). -/
def queryTemplate (who : Who) (ctx : Nat) (fm : BitVec 4) (c : List Byte) : HM (List Byte) := do
  if fieldOf c 28 1 = 0 then return []
  let t ← hRead who ctx fm (fieldOf c 32 8) 40
  let s ← get
  if (s.badLaunch (s.partOf ctx) { LaunchArgs.ofRecord t with base := 0, count := 4 }).isSome then throw (.status beBadbeam 0)
  return t

/-- Take a query up (R206): card and record are read and checked, and the hank must be RANKED. fm is the %fmode of the issuing unit. -/
def beginQuery (cluster slot ctx : Nat) (fm : BitVec 4) (addr : Nat) : HM Unit := do
  let who := Who.beam cluster
  let c ← hRead who ctx fm addr 64
  modify (fun s => s.updBeam cluster slot (fun b => { b with card := c, hank := BitVec.ofNat 64 (fieldOf c 0 8), result := BitVec.ofNat 64 (fieldOf c 16 8) }))
  if !cardOk c then throw (.status beBadbeam 0)
  let r ← hRead who ctx fm (fieldOf c 8 8) 64
  if !(Beam.ofBytes r).ok then throw (.status beBadbeam 0)
  modify (fun s => s.updBeam cluster slot (fun b => { b with record := r }))
  let _ ← queryTemplate who ctx fm c
  let _ ← queryHank who ctx fm c

/-- The %fmode of the unit that issued a running query. -/
def BeamSlot.fmode (b : BeamSlot) : BitVec 4 := (b.entry.map (·.fmode)).getD 0

/-- Perform a query (R197-R204). -/
def performQuery (b : BeamSlot) (tree : W32) : HM Unit := do
  let who := Who.beam b.cluster
  let (h, t) ← queryHank who b.ctx b.fmode b.card
  let tpl ← queryTemplate who b.ctx b.fmode b.card
  let c := b.card
  let q : Query := { cluster := b.cluster, slot := b.slot, hank := h, table := t, result := fieldOf c 16 8, cap := fieldOf c 24 4
                     queue := fieldOf c 29 1, template := tpl, split := fieldOf c 40 8, splitcap := fieldOf c 48 4, tree := tree }
  runBeam q 4 (fieldOf c 28 1 == 1) (Beam.ofBytes b.record)

/-- The handle of a query (R206). -/
def BeamSlot.handle (b : BeamSlot) : Nat := b.gen.toNat * 65536 + b.cluster * 256 + b.slot

/-- The status record (R202). -/
def BeamSlot.statusRecord (b : BeamSlot) : List Byte :=
  bytesOf 4 b.status ++ bytesOf 4 b.hits ++ bytesOf 4 b.spawned ++ bytesOf 4 b.collected ++ bytesOf 4 b.leaves ++ bytesOf 4 0
    ++ bytesOf 8 b.fault.toNat

/-- An empty query slot. -/
def emptyBeam (cluster slot : Nat) : BeamSlot :=
  { cluster := cluster, slot := slot, gen := 0, state := .free, group := 0, ctx := 0, hank := 0, entry := none, result := 0, status := 0
    hits := 0, spawned := 0, collected := 0, leaves := 0, fault := 0, popped := 0, card := [], record := [], ended := false }

namespace State

/-- The query of a group that a handle names (R206). -/
def queryOf (s : State) (group : Option Nat) (handle : W32) : Option BeamSlot :=
  s.beams.find? (fun b => b.state != .free && some b.group == group && b.handle == handle.toNat)

/-- Copy the next hit to an item (R395): none while a read is held. -/
def popItems (s : State) (e : EngEntry) (b : BeamSlot) : Nat → List (Nat × Nat) → Option (List (Nat × Nat × Nat) × Nat × State)
  | popped, [] => some ([], popped, s)
  | popped, (lane, off) :: rest =>
    let next (s : State) (popped : Nat) (v : Nat × Nat) : Option (List (Nat × Nat × Nat) × Nat × State) :=
      match s.popItems e b popped rest with
      | some (vs, n, s1) => some ((lane, v) :: vs, n, s1)
      | none => none
    if b.hits ≤ popped then next s popped (hkEnd, 0)
    else match (hRead (.beam b.cluster) b.ctx e.fmode (b.result.toNat + 16 * popped) 16).on s with
      | (.ok bs, s1) => next (s1.hankPad e off bs) (popped + 1) (hkOk, fieldOf bs 0 4)
      | (.error st, s1) => match st.status? with
        | some n => next s1 popped (n, 0)
        | none => none

/-- What touches a query at its unit (R397): the entries that wait there for a handle of a group. -/
def touching (s : State) (group : Option Nat) (handle : Nat) : List EngEntry :=
  s.engq.filter (fun e => e.group == group && (match e.job with
    | .pop h _ | .stat h _ => h.toNat == handle
    | _ => false))

/-- The value of BSTAT, and the state after it (R396): the release form frees a DONE query. -/
def beamStat (s : State) (group : Option Nat) (handle : W32) (release : Bool) : Nat × State :=
  match s.queryOf group handle with
  | none => (beBadquery, s)
  | some b =>
    if release then
      if b.state == .done then (0, s.updBeam b.cluster b.slot BeamSlot.release) else (beBadquery, s)
    else if b.state == .done then (b.status + 3 * 256 + (b.hits - b.popped) * 2 ^ 32, s)
    else (0xFF + 2 * 256, s)

/-- Perform a BPOP, or a BSTAT behind it, that has reached its unit (R395, R206): none while it waits, for the query or for what reached the
unit before it (R397). -/
def popQuery (s : State) (e : EngEntry) : Option State :=
  match e.job with
  | .stat handle release =>
    if ((s.touching e.group handle.toNat).head?.map (·.id)) != some e.id then none
    else
      let r := s.beamStat e.group handle release
      some ((r.2.takeEntry e).entryDone e.op (some e.reg) e.lane (BitVec.ofNat 64 r.1))
  | .pop handle offsets =>
    if ((s.touching e.group handle.toNat).head?.map (·.id)) != some e.id then none
    else match s.queryOf e.group handle with
    | none => some ((s.takeEntry e).hankDoneAll e (offsets.map (fun o => (o.1, beBadquery, 0))))
    | some b =>
      if b.state == .running then none
      else match s.popItems e b b.popped offsets with
        | none => none
        | some (vs, popped, s1) =>
          let ended := vs.any (fun v => v.2.1 == hkEnd)
          let s2 := s1.updBeam b.cluster b.slot (fun b => if ended then b.release else { b with popped := popped })
          some ((s2.takeEntry e).hankDoneAll e vs)
  | _ => none

/-- What waits for a query is served, in the order it reached the unit (R397). -/
def popWaiting (s : State) (group handle : Nat) : State :=
  (s.touching (some group) handle).foldl (fun s e => (s.popQuery e).getD s) s

end State

/-- BEAM_QUERY_START (R206): a free slot takes the first QUEUED query of the cluster's cores; those of an aborting launch never run (R81). -/
def execBeamQueryStart (cluster : Nat) (s : State) : Host.Outcome State Fault Refusal :=
  match s.nextEntry (fun e => e.queue == 3 && clusterOf e.core == cluster && !s.halted cluster && !s.aborting e.launch),
        firstFree 64 (fun k => !s.beams.any (fun b => b.cluster == cluster && b.slot == k && b.state != .free)) with
  | some e, some k =>
    let addr := match e.job with | .query a _ => a.toNat | _ => 0
    let old := (s.beam? cluster k).getD (emptyBeam cluster k)
    let b := { emptyBeam cluster k with gen := old.gen, state := .running, group := e.group.getD 0, ctx := e.ctx, entry := some e }
    let rest := s.beams.filter (fun b => !(b.cluster == cluster && b.slot == k))
    let s0 : State := { s.takeEntry e with beams := rest ++ [b] }
    match (beginQuery cluster k e.ctx e.fmode addr).on s0 with
    | (.ok _, s1) => .next s1
    | (.error st, s1) => match st.status? with
      | some n => .next (s1.updBeam cluster k (fun b => { b with status := hankWord n, fault := BitVec.ofNat 64 st.va, ended := true }))
      | none => .next s
  | _, _ => .next s

/-- The traversal of a running query, unless it is over. -/
def State.runQuery (s : State) (b : BeamSlot) : Option State :=
  if b.ended then some s
  else
    let tree := match b.entry.map (·.job) with | some (.query _ t) => t | _ => 0
    match (performQuery b tree).on s with
    | (.ok _, s1) => some (s1.updBeam b.cluster b.slot (fun b => { b with ended := true }))
    | (.error st, s1) => st.status?.map (fun n =>
        s1.updBeam b.cluster b.slot (fun b => { b with status := hankWord n, fault := BitVec.ofNat 64 st.va, ended := true }))

/-- The status record of an ended query: what D carries in place of STATUS, none while the write is held (R202). -/
def State.putStatus (s : State) (b : BeamSlot) : Option Nat × State :=
  let at_ := fieldOf b.card 56 8
  if b.card.isEmpty || at_ % 32 ≠ 0 then (some b.status, s)
  else match (hCommit (.beam b.cluster) b.ctx b.fmode [.plain at_ b.statusRecord]).on s with
    | (.ok _, s1) => (some b.status, s1)
    | (.error (.status n _), s1) => (some n, s1)
    | (.error _, s1) => (none, s1)

/-- BEAM_QUERY_DONE (R202, R206): a running query ends; BPOPs that waited for it are served. -/
def execBeamQueryDone (cluster slot : Nat) (s : State) : Host.Outcome State Fault Refusal :=
  match s.beam? cluster slot with
  | none => .next s
  | some b =>
    if s.halted cluster then .next s
    else match b.state with
    | .free => .next s
    | .done => .next (s.popWaiting b.group b.handle)
    | .running => match s.runQuery b with
      | none => .next s
      | some s1 => match s1.beam? cluster slot with
        | none => .next s
        | some b1 => match s1.putStatus b1 with
          | (none, s2) => .next s2
          | (some n, s2) =>
            let s3 := s2.updBeam cluster slot (fun b =>
              if (s2.group? b.group).isNone then b.release else { b with state := .done, entry := none })
            let s4 := match b1.entry with
              | some e => s3.entryDone e.op (some e.reg) e.lane (hankD n b1.handle)
              | none => s3
            .next (s4.popWaiting b1.group b1.handle)

/-- BQRY (R394): a misaligned card is settled at once. -/
def execBqry (f : FmtX) (s : State) : Host.Outcome State Fault Refusal :=
  s.runClosing (fun s i u =>
    let g := u.guard f.pred f.pneg
    if !u.anyActive g then .done s
    else if !u.isStrand then .needG s
    else if i.entered then .done s
    else match s.launchOf u with
      | none => .done s
      | some l =>
        let addr (i : Nat) : W64 := s.wAt u f.a.toNat i
        let good := (u.active g).filter (fun i => (addr i).toNat % 64 == 0)
        let first := (List.range 64).map (fun j => if good.contains (u.lo + j) then (0 : W32) else BitVec.ofNat 32 beBadbeam)
        let wait := if good.isEmpty then PendWait.ready else .entries good.length
        s.deferV u g true wait [(f.d.toNat, .g first), (f.d.toNat + 1, .g (List.replicate 64 0))] (fun op s1 =>
          (good.foldl (fun s2 k =>
            let (e, s3) := s2.mkEntry u op 3 0 k f.d.toNat (.query (addr k) l.tree)
            s3.enqueue e) s1).holdPort i u 3))

/-- BPOP (R395). -/
def execBpop (f : FmtX) (s : State) : Host.Outcome State Fault Refusal :=
  s.runClosing (fun s _ u =>
    let g := u.guard f.pred f.pneg
    if !u.anyActive g then .done s
    else match s.groupOf u with
      | none => .needG s
      | some gr =>
        if !u.isStrand then .needG s
        else match padItems gr u.core 16 16 ((u.active g).map (fun i => (i, (s.vAt u f.b.toNat i).toNat))) with
          | .error e => .trap s e.1 (BitVec.ofNat 64 e.2)
          | .ok ps =>
            let zeros := List.replicate 64 (0 : W32)
            s.deferV u g true (.entries 1) [(f.d.toNat, .g zeros), (f.d.toNat + 1, .g zeros)] (fun op s1 =>
              let low := u.lowest g
              let (e, s2) := s1.mkEntry u op 8 0 low f.d.toNat (.pop (s.vAt u f.a.toNat low) (ps.map (fun p => (p.1 - u.lo, p.2.1))))
              let s3 := s2.enqueue e
              .done ((s3.popQuery e).getD s3)))

/-- BSTAT, both forms (R396, R397): an item whose handle names a DONE query with a BPOP still to be served takes its place behind it; the
others have their values at once. -/
def State.runBstat (s : State) (f : FmtX) (release : Bool) : Host.Outcome State Fault Refusal :=
  s.runClosing (fun s _ u =>
    let g := u.guard f.pred f.pneg
    if !u.anyActive g then .done s
    else if !u.isStrand then .needG s
    else
      let handle (i : Nat) : W32 := s.vAt u f.a.toNat i
      let waits (i : Nat) : Bool := !(s.touching u.group (handle i).toNat).isEmpty
        && (match s.queryOf u.group (handle i) with | some b => b.state == .done | none => false)
      let later := (u.active g).filter waits
      let r := ((u.active g).filter (fun i => !waits i)).foldl (fun (acc : List (Nat × W64) × State) i =>
        let (x, s1) := acc.2.beamStat u.group (handle i) release
        (acc.1 ++ [(i, BitVec.ofNat 64 x)], s1)) ([], s)
      let part (lo : Nat) : List W32 := (List.range 64).map (fun j => match r.1.find? (fun x => x.1 == u.lo + j) with
        | some x => x.2.extractLsb' lo 32
        | none => 0)
      match s.reserveRows u [f.d.toNat, f.d.toNat + 1] with
      | .error x => .trap s causeGregs (BitVec.ofNat 64 x.toNat)
      | .ok _ =>
        r.2.deferV u g true (if later.isEmpty then .ready else .entries later.length) [(f.d.toNat, .g (part 0)), (f.d.toNat + 1, .g (part 32))]
          (fun op s => .done (later.foldl (fun s i =>
            let (e, s1) := s.mkEntry u op 8 0 i f.d.toNat (.stat (handle i) release)
            s1.enqueue e) s)))

def execBstat (f : FmtX) (s : State) : Host.Outcome State Fault Refusal := s.runBstat f false

/-- BSTAT.rel (R396). -/
def execBstatRelease (f : FmtX) (s : State) : Host.Outcome State Fault Refusal := s.runBstat f true

end Sys2Proof.Machine
end

