-- ==== Sys2Proof/Machine/Context.lean ====
section
/-! DEFINITION. Contexts and partitions (R208-R214, R223, R227, R228): the CONTEXT packets, context faults, TERMINATE, the re-walks of
RESOLVE and CONSUMED (R164-R166, R210), invalidation (R161, R162). Save and restore stand in Save.lean. -/

namespace Sys2Proof.Machine

namespace State

/-- The launches, units and groups of a context. -/
def launchesOf (s : State) (c : Nat) : List Launch := s.launches.filter (fun (l : Launch) => l.ctx == c)
def unitsOf (s : State) (c : Nat) : List SUnit :=
  let ls := (s.launchesOf c).map (·.id)
  s.units.filter (fun (u : SUnit) => ls.contains u.launch)
def groupsOfCtx (s : State) (c : Nat) : List Group :=
  let ls := (s.launchesOf c).map (·.id)
  s.groups.filter (fun (g : Group) => ls.contains g.launch)

/-- Outstanding operations that belong to no unit any longer are forgotten. -/
def prunePend (s : State) : State := { s with pend := s.pend.filter (fun (o : PendOp) => !o.targets.isEmpty) }

/-- Every group and span of a context is discarded, with its work that waits in engine queues and its tile operations (R212, R228);
work in progress at an engine runs out, and a launch stays, aborting, while a group of it has a running query (R206). -/
def discardCtx (s : State) (c : Nat) : State :=
  let us := (s.unitsOf c).map (·.id)
  let gs := s.groupsOfCtx c
  let kept := (gs.filter s.querying).map (·.launch)
  let s1 := us.foldl (fun s i => s.removeUnit i) s
  let s2 : State := { s1 with engq := s1.engq.filter (fun (e : EngEntry) => e.ctx != c)
                              mmaq := s1.mmaq.filter (fun (m : MmaOp) => !gs.any (fun g => g.id == m.group))
                              hostReads := s1.hostReads.filter (fun (h : HostRead) => !us.contains h.unit) }
  let s3 := (gs.filter (fun g => !s.querying g)).foldl (fun s g => s.releaseGroup g) s2
  let s4 : State := { s3 with
    launches := updWhere (fun (l : Launch) => l.ctx == c) (fun l => { l with state := .aborting, evHeld := [] })
      (s3.launches.filter (fun (l : Launch) => l.ctx != c || kept.contains l.id)) }
  s4.prunePend

/-- Copies of a context that satisfy p end cancelled, and report it while their groups still stand (R121, R367, R368): so does one that
waits for the page of its status record. -/
def cancelCopies (s : State) (c : Nat) (p : Copy → Bool) : State :=
  let en : CopyEnd := { status := stCancelled, detail := 0, fault := 0 }
  let hit (k : Copy) : Bool := k.ctx == c && (k.ended.isNone || k.parked.isSome || k.held.isSome) && p k
  (s.copies.filter hit).foldl (fun s k => match k.owner with
    | .entry e => s.endEntryCopy k en e
    | .packet .. => s.putCopy { k with saved := false, ended := some en }) s

/-- Every tree of a context completes (R81, R228), those that still have a launch with a running query once it has ended (R206). -/
def endTrees (s : State) (c : Nat) (end_ : Tree → Nat × W32 × W64) : State :=
  let open_ (t : Tree) : Bool := s.launches.any (fun (l : Launch) => l.ctx == c && l.tree == t.id)
  let close (t : Tree) : Tree :=
    let e := end_ t
    { t with status := e.1, detail := e.2.1, fault := e.2.2, closing := true }
  let ts := (s.trees.filter (fun (t : Tree) => t.ctx == c && !open_ t)).map close
  ts.foldl (fun s t => s.reportEntry c t.q t.pos t.status t.detail (BitVec.ofNat 64 t.progress) t.fault (BitVec.ofNat 64 t.extra))
    { s with trees := updWhere (fun (t : Tree) => t.ctx == c) close (s.trees.filter (fun (t : Tree) => t.ctx != c || open_ t)) }

/-- A context fault (R228, R214): a LAUNCH packet that has started without its tree completes with the trees. -/
def contextFault (s : State) (c : Nat) (cause : W32) (tval need : W64) : State :=
  match s.ctx? c with
  | none => s
  | some x =>
    if !(x.state == .runnable || x.state == .running || x.state == .suspending) then s
    else
      let s1 := (s.cancelCopies c (fun k => k.parked.isSome)).discardCtx c
      let s2 := s1.endTrees c (fun _ => (pkFault, cause, 0))
      let launches : List (Nat × Nat) := (s2.hqs.filter (fun (q : HostQueue) => q.ctx == c)).flatMap (fun q =>
        (q.board.filter (fun (e : Entry) => e.type == 1 && e.phase == .chosen)).map (fun e => (q.idx, e.pos)))
      let s3 := launches.foldl (fun s e => s.reportEntry c e.1 e.2 pkFault cause 0 0 0) s2
      ((s3.haltQueues c).updCtx c (fun x =>
        { x with state := .faulted, cause := cause, tpc := 0, tval := tval, need := need, returning := false })).raiseEvent c

/-- Entries of a queue are CANCELLED (R52); those that have not started consume their tokens (R57). -/
def cancelWaiting (s : State) (c q : Nat) (p : Entry → Bool) : State :=
  match s.hq? c q with
  | none => s
  | some x => (x.board.filter p).foldl (fun s e =>
      let s1 := if e.phase = .waiting && e.bad.isNone then s.consume c q e else s
      s1.reportEntry c q e.pos pkCancelled 0 (s1.progressOf x e) 0 0) s

/-- The physical bytes of a Creel chunk (R132): its base and length. -/
def chunkRange (k : Nat) : Nat × Nat :=
  (0x100_0000_0000 + k / 1431 * 0x10_0000_0000 + k % 1431 * 0x200_0000, min 0x200_0000 (creelBytes - k % 1431 * 0x200_0000))

/-- The Creel chunks of a terminated context (R132): what it was loading is FREE, its contents lost; what it sealed stays. -/
def leaveChunks (s : State) (c : Nat) : State :=
  let mine := s.creel.filter (fun e => e.2.2 == some c)
  let s1 := (mine.filter (fun e => e.2.1 == creelLoading)).foldl (fun s e => s.loseRange (chunkRange e.1).1 (chunkRange e.1).2) s
  { s1 with creel := mine.foldl (fun m e =>
      Kv.set (creelFree, none) m e.1 (if e.2.1 = creelLoading then (creelFree, none) else (e.2.1, none))) s1.creel }

/-- TERMINATE (R212, R52, R81, R132). -/
def terminateCtx (s : State) (c : Nat) : State :=
  let s1 := (s.cancelCopies c (fun _ => true)).discardCtx c
  let s2 := s1.endTrees c (fun t => if t.status = pkDone then (pkCancelled, 0, 0) else (t.status, t.detail, t.fault))
  let stays (q : Nat) (e : Entry) : Bool := e.phase == .started
    && (e.type == 2 || (e.type == 1 && s2.trees.any (fun (t : Tree) => t.ctx == c && t.q == q && t.pos == e.pos)))
  let s3 := ((s2.hqs.filter (fun (q : HostQueue) => q.ctx == c)).map (·.idx)).foldl
    (fun s q => s.cancelWaiting c q (fun e => e.phase != .reporting && e.phase != .done && !stays q e)) s2
  let s4 : State := { s3 with
    hqs := updWhere (fun (q : HostQueue) => q.ctx == c) (fun q => HostQueue.bury { q with state := .dead }) s3.hqs
    dqs := s3.dqs.filter (fun (d : DevQueue) => d.ctx != c)
    cursors := s3.cursors.filter (fun (k : Cursor) => k.ctx != c) }
  ((s4.leaveChunks c).dropTlb (fun t => t.tagCtx == some c)).updCtx c (fun x => { x with state := .terminated, requests := [], returning := false })

/-- What an access needs of a page, from the bits of R164. -/
def needOf (bits : Nat) : Need := if bits = 1 then .read else if bits = 2 then .write else if bits = 4 then .exec else .both

/-- Whether an access of a context to an address would have to wait (R160, R133): its page grants it and is ABSENT or MIGRATING, or lies in
a Creel chunk that another context loads. -/
def vaWaits (s : State) (w : Who) (c va need : Nat) : Bool :=
  match s.leafFor w c va with
  | none => false
  | some l => match settleLeaf (needOf need) va l with
    | .fault _ => false
    | .absent | .mig => true
    | .ok _ _ => match s.creelVa c l va 1 (needOf need) with
      | some (.hold _) => true
      | _ => false

/-- Whether a page of a context is ABSENT. -/
def vaAbsent (s : State) (c va : Nat) : Bool := s.isAbsent (.pair 0) c va

/-- Whether a new page request of a context finds room in its ring, or joins one (R164, R210). -/
def canRequest (s : State) (c va : Nat) : Bool :=
  match s.ctx? c with
  | none => true
  | some x => x.requests.contains (va / 65536) || (match x.paging with
    | some p => decide ((x.seq + 1 - x.consumed).toNat ≤ 2 ^ p.logSlots)
    | none => true)

/-- Whether a context has a request outstanding for a page. -/
def requested (s : State) (c page : Nat) : Bool := match s.ctx? c with
  | some x => x.requests.contains page
  | none => false

/-- Whether what held an access is over (R160, R210). What stands for an ABSENT page waits for the re-walk once the page has been
requested; a unit is let go, to wait for the page itself (R165). -/
def holdOver (s : State) (w : Who) (c va need : Nat) : Bool :=
  !s.vaWaits w c va need || (s.vaAbsent c va && s.canRequest c va
    && (match w with
        | .core _ => true
        | _ => !s.requested c (va / 65536)))

/-- The addresses that a held packet waits for, with what it needs of their pages. -/
def entryVas (e : Entry) : List (Nat × Nat) := match e.type with
  | 3 => (signalsOf e).map (fun va => (va, needBits .both))
  | 4 => [(e.field 24 8, needBits .both)]
  | 6 => [(e.field 24 8, needBits .write)]
  | 7 => [(e.field 32 8, needBits .read)]
  | _ => [(e.field 24 8, needBits .read)]

/-- The context in which a packet's accesses are made: a CONTEXT packet reads a descriptor in its target's (R210). -/
def entryCtx (q : HostQueue) (e : Entry) : Nat := if e.type = 7 then e.field 28 2 else q.ctx

/-- The held work of a context for which p holds is made again: accesses of items, copies, packets; p is given what each needs. -/
def wakeHolds (s : State) (c : Nat) (p : Who → Nat → Nat → Bool) : State :=
  let ids := (s.unitsOf c).map (·.id)
  let wake (u : SUnit) : SUnit := match u.wait with
    | .held va need => if p (.core u.core) va need then { u with wait := .none } else u
    | _ => u
  let entry (q : HostQueue) (e : Entry) : Entry :=
    if e.phase = .held && entryCtx q e == c && (entryVas e).all (fun x => p (.pair q.home) x.1 x.2) then
      { e with phase := if e.type = 7 then .started else .chosen }
    else e
  { s with units := updWhere (fun (u : SUnit) => ids.contains u.id) wake s.units
           copies := updWhere (fun (k : Copy) => k.ctx == c) (fun k => match k.held with
             | some va => if p k.who va k.need then { k with held := none } else k
             | none => k) s.copies
           hqs := s.hqs.map (fun q => { q with board := q.board.map (entry q) }) }

/-- A re-walk for one unit that waits for a page (R165): it goes on where the page is RESIDENT, and takes the fault that the walk finds;
a fetch is made again. -/
def rewalkUnit (s : State) (c : Nat) (u : SUnit) : SUnit :=
  match u.wait with
  | .page va need tpc next =>
    if s.vaWaits (.core u.core) c va need then u
    else if need = needBits .exec then { u with wait := .none }
    else
      let fault : Option W32 := match s.leafFor (.core u.core) c va with
        | none => some causePagefault
        | some l => match settleLeaf (needOf need) va l with
          | .fault k => some k
          | _ => none
      { u with wait := .none
               asyncTrap := match fault with
                 | some k => some { cause := k, tpc := tpc, tval := BitVec.ofNat 64 va, next := next, global := true }
                 | none => u.asyncTrap }
  | _ => u

/-- The pages for which units wait, and for which copies that are not saved are parked, as who asks, address and need. -/
def pageWaits (s : State) (c : Nat) : List (Who × Nat × Nat) :=
  (s.unitsOf c).filterMap (fun u => match u.wait with | .page va need _ _ => some (.core u.core, va, need) | _ => none)
    ++ s.copies.filterMap (fun (k : Copy) => if k.ctx = c ∧ !k.saved then k.parked.map (fun va => (k.who, va, k.need)) else none)

/-- What waits for a page walks again, where p holds of the page (R160, R165, R166): a unit and a copy go on where it no longer makes them
wait; a page that is ABSENT, and for which no request is outstanding, is requested. A saved copy walks again when it is restored (R222). -/
def rewalkWhere (s : State) (c : Nat) (p : Nat → Bool) : State :=
  let ids := (s.unitsOf c).map (·.id)
  let unit (u : SUnit) : SUnit := match u.wait with
    | .page va _ _ _ => if p (va / 65536) then s.rewalkUnit c u else u
    | _ => u
  let copy (k : Copy) : Copy := match k.parked with
    | some va => if k.saved || !p (va / 65536) || s.vaWaits k.who c va k.need then k else { k with parked := none }
    | none => k
  let s1 : State := { s with units := updWhere (fun (u : SUnit) => ids.contains u.id) unit s.units
                             copies := updWhere (fun (k : Copy) => k.ctx == c) copy s.copies }
  (s1.pageWaits c).foldl (fun s x =>
    if p (x.2.1 / 65536) && s.vaAbsent c x.2.1 then (s.pageRequest x.1 c (needOf x.2.2) x.2.1).getD s else s) s1

/-- Every outstanding request and held access of a context is walked again (R164-R166). -/
def rewalk (s : State) (c : Nat) : State :=
  let s1 := s.updCtx c (fun x => { x with requests := x.requests.filter (fun p => s.vaAbsent c (p * 65536)) })
  ((s1.rewalkWhere c (fun _ => true)).wakeHolds c (fun _ _ _ => true)).retryReleases c

/-- What waits without an outstanding request walks again (R160, R210): for a MIGRATING page, or for want of a record. -/
def rewalkUnasked (s : State) (c : Nat) : State :=
  let s1 := s.wakeHolds c (fun w va need => s.holdOver w c va need)
  (s1.rewalkWhere c (fun page => !s1.requested c page)).retryReleases c

end State

/-- RESOLVE_WRITE (R164). -/
def execResolveWrite (ctx : Nat) (s : State) : Host.Outcome State Fault Refusal := .next (s.rewalk ctx)

/-- CONSUMED_WRITE (R164, R210): a write that moves CONSUMED back, or past the last SEQ written, is ignored; accesses held for want of a
record go on. -/
def execConsumedWrite (ctx : Nat) (value : BitVec 64) (s : State) : Host.Outcome State Fault Refusal :=
  match s.ctx? ctx with
  | none => .next s
  | some x =>
    if value < x.consumed || x.seq < value then .next s
    else
      .next ((s.updCtx ctx (fun x => { x with consumed := value })).rewalkUnasked ctx)

/-- MIG_REWALK_TIMER (R160): holds that are over end without a doorbell. -/
def execMigRewalkTimer (ctx : Nat) (s : State) : Host.Outcome State Fault Refusal := .next (s.rewalkUnasked ctx)

/-- Whether a unit is ready to issue (R104). -/
def State.unitReady (s : State) (u : SUnit) : Bool :=
  s.issue.any (fun (i : Issue) => i.unit == u.id)
    || (s.mayIssue u && s.waitOver u && (let t := s.fetchClause u; t.issue != s.issue || t.units != s.units))

/-- WATCHDOG (R227): a unit's count reached the limit. -/
def execWatchdog (unit : Nat) (s : State) : Host.Outcome State Fault Refusal :=
  match s.unit? unit with
  | none => .next s
  | some u =>
    let c := s.ctxOf u
    let counting := match s.ctx? c with
      | some x => (x.state == .running || x.state == .suspending) && x.requests.isEmpty
      | none => false
    if counting && !s.unitReady u then .next (s.contextFault c causeWatchdog 0 0) else .next s

/-! The CONTEXT packets (R210, R211). -/

/-- The fields of a CONTEXT packet (R210). -/
def Entry.op (e : Entry) : Nat := e.field 24 1
def Entry.cidx (e : Entry) : Nat := e.field 25 1
def Entry.cpart (e : Entry) : Nat := e.field 26 1
def Entry.target (e : Entry) : Nat := e.field 28 2
def Entry.addr0 (e : Entry) : Nat := e.field 32 8
def Entry.addr1 (e : Entry) : Nat := e.field 40 8
def Entry.addr2 (e : Entry) : Nat := e.field 48 8
def Entry.val (e : Entry) : Nat := e.field 56 4

/-- The offset of the first bad field of a CONTEXT packet (R211): fields that the operation does not list are zero. -/
def State.badContext (s : State) (e : Entry) : Option Nat :=
  let op := e.op
  let rs := s.hostSide.ranges
  let uses (ops : List Nat) : Bool := ops.contains op
  firstBad
    [ (decide (op ≤ 8), 24),
      (if op = 0 then decide (e.cidx ≤ 7) else if uses [2, 3] then decide (e.cidx ≤ 31) else e.cidx == 0, 25),
      (if uses [0, 8] then decide (e.cpart ≤ 15) else e.cpart == 0, 26), (e.field 27 1 == 0, 27),
      (if op = 8 then e.target == 0 else decide (e.target ≤ 255), 28), (e.field 30 2 == 0, 30),
      (match op with
        | 0 => e.addr0 % 4096 == 0 && inTiers12 rs e.addr0 (max 1 e.addr1)
        | 1 => e.addr0 % 65536 == 0 && inTiers12 rs e.addr0 65536
        | 2 => e.addr0 % 64 == 0
        | 4 => true
        | _ => e.addr0 == 0, 32),
      (match op with
        | 0 => e.addr1 % 4096 == 0
        | 1 => e.addr1 % 4096 == 0 && populated rs e.addr1 (32 * 2 ^ (e.val % 32))
        | 4 => true
        | _ => e.addr1 == 0, 40),
      (if op = 0 then e.addr2 % 8 == 0 else e.addr2 == 0, 48),
      (match op with
        | 0 => true
        | 1 => decide (4 ≤ e.val % 256) && decide (e.val % 256 ≤ 16)
        | 3 => decide (e.val % 256 ≤ 1)
        | 8 => true
        | _ => e.val % 256 == 0, 56),
      (uses [0, 1, 8] || e.field 57 1 == 0, 57), (uses [0, 1] || e.field 58 1 == 0, 58), (op == 0 || e.field 59 1 == 0, 59) ]

/-- Whether the context of a CONTEXT packet, or its partition, makes it wait (R211). -/
def State.contextWaits (s : State) (e : Entry) : Bool :=
  let moving (x : Ctx) : Bool := x.state == .suspending || x.state == .runnable
  if e.op = 8 then
    s.ctxs.any (fun (x : Ctx) => x.part == some e.cpart && moving x)
      || s.parts.any (fun (p : Part) => p.num == e.cpart && p.resize.isSome)
  else if e.op = 0 then s.parts.any (fun (p : Part) => p.num == e.cpart && p.resize.isSome)
  else match s.ctx? e.target with
    | none => false
    | some x => moving x || (match x.part.bind s.part? with | some p => p.resize.isSome | none => false)

/-- Whether a RESIZE is refused (R223). -/
def State.resizeRefused (s : State) (part : Nat) (mask : BitVec 16) : Bool :=
  let cs := s.ctxs.filter (fun (x : Ctx) => x.part == some part)
  let live := cs.filter (fun x => x.state != .terminated)
  let new : Part := { num := part, pairs := mask, pointer := 0, resize := none }
  let ofPart (c : Nat) : Bool := live.any (fun x => x.num == c)
  let fits (size gregs pad bars : Nat) (pair : Bool) : Bool :=
    (placesOf new.cores pair).any (fun c => decide (0 < s.holds size gregs pad bars pair c))
  s.parts.any (fun (p : Part) => p.num != part && (p.pairs ||| p.resize.getD 0) &&& mask != 0)
    || (mask == 0 && !live.isEmpty)
    || s.hqs.any (fun (q : HostQueue) => ofPart q.ctx && q.state != .dead && !new.onDie q.home)
    || s.dqs.any (fun (d : DevQueue) => ofPart d.ctx && !new.onDie d.home)
    || s.launches.any (fun (l : Launch) => ofPart l.ctx && l.coreside && (l.state == .running || l.state == .draining)
        && !s.coresideFits new.cores l.count l.size l.gregs l.pad l.bars l.isPair)
    || s.groups.any (fun (g : Group) => g.state != .dealt
        && (match s.launch? g.launch with | some l => ofPart l.ctx | none => false)
        && !fits g.size g.gregs g.padBytes g.bars.length g.pair)

/-- Whether a CONTEXT packet is DENIED (R211), the index of a QUEUE aside. -/
def State.contextDenied (s : State) (e : Entry) : Bool :=
  if e.op = 8 then s.resizeRefused e.cpart (BitVec.ofNat 16 e.val)
  else if e.target = 0 then true
  else match s.ctx? e.target with
    | none => e.op != 0
    | some x =>
      if e.op = 0 then x.state != .terminated
      else x.state == .terminated || (x.state == .faulted && e.op != 7) || (e.op == 6 && x.paging.isNone)

/-- The management queue's CONTEXT packets that wait for their turn, in start order; on any other queue they are DENIED (R55, R211). -/
def State.contextEntries (s : State) : List (HostQueue × Entry) :=
  let all : List (HostQueue × Entry) := s.hqs.flatMap (fun q =>
    (q.board.filter (fun (e : Entry) => e.type == 7 && e.phase == .started && e.step == 0)).map (fun e => (q, e)))
  sortBy (fun x => x.2.watches.headD 0) all

/-- The checks of a descriptor (R49); p is the partition whose dies HOME must name, none for context 0. -/
def descriptorOk (p : Option Part) (bs : List Byte) : Bool :=
  let f := fieldOf bs
  let host := f 18 1 == 0
  f 0 8 % 64 == 0 && f 8 8 % 32 == 0 && decide (4 ≤ f 16 1) && decide (f 16 1 ≤ 16)
    && (match p with | some p => p.onDie (f 17 1) | none => decide (f 17 1 ≤ 3))
    && decide (f 18 1 ≤ 1) && zeroField bs 19 13 && zeroField bs 56 8
    && (if host then zeroField bs 32 24 else f 8 8 == 0)

/-- What a QUEUE packet's descriptor leads to (R49, R64, R211): its read is held, or faults; the packet completes with a status; or the
queue of the descriptor's bytes can be made. -/
inductive QueueCheck where
  | held
  | fault (c : W32)
  | status (st : Nat) (detail : W32)
  | ok (bs : List Byte)
  deriving DecidableEq, Repr

/-- Read and check the descriptor of a QUEUE packet (R49, R211): an index is in use while its queue is not DEAD with an empty board. -/
def State.checkQueue (s : State) (q : HostQueue) (e : Entry) : QueueCheck × State :=
  match s.fwTranslate q.home e.target .read false e.addr0 64 with
  | (.hold, s1) => (.held, s1)
  | (.fail c, s1) => (.fault c, s1)
  | (.ok pa, s1) =>
    let bs := s1.bytesAt (.pair q.home) pa 64
    let part := s1.partOf e.target
    let inUse := if fieldOf bs 18 1 = 0 then
        s1.hqs.any (fun (x : HostQueue) => x.ctx == e.target && x.idx == e.cidx && !(x.state == .dead && x.board.isEmpty))
      else s1.dqs.any (fun (d : DevQueue) => d.ctx == e.target && d.idx == e.cidx)
    (if part.isNone || !descriptorOk part bs then .status pkBadpacket 32 else if inUse then .status pkDenied 0 else .ok bs, s1)

/-- Whether a CONTEXT packet stays started (R211): what makes it wait comes after the rows that refuse it, a QUEUE's descriptor and index among
them. -/
def State.contextStays (s : State) (q : HostQueue) (e : Entry) : Bool :=
  s.contextWaits e && (e.op != 2 || (match (s.checkQueue q e).1 with | .ok _ => true | _ => false))

/-- The CONTEXT packet that is settled next: the first that nothing makes wait. -/
def State.nextContext (s : State) : Option (HostQueue × Entry) :=
  s.contextEntries.find? (fun x =>
    !(x.1.ctx == 0 && x.1.idx == 0) || (s.badContext x.2).isSome || s.contextDenied x.2 || !s.contextStays x.1 x.2)

/-- Settle the next CONTEXT packet when its operation is op, or above 8 with the first operation (R211). -/
def State.settleContext (s : State) (op : Nat) (act : State → HostQueue → Entry → State) : Host.Outcome State Fault Refusal :=
  match s.nextContext with
  | none => .next s
  | some (q, e) =>
    if e.op ≠ op && !(op == 0 && decide (8 < e.op)) then .next s
    else if !(q.ctx == 0 && q.idx == 0) then .next (s.reportEntry q.ctx q.idx e.pos pkDenied 0 0 0 0)
    else match s.badContext e with
      | some off => .next (s.reportEntry q.ctx q.idx e.pos pkBadpacket (BitVec.ofNat 32 off) 0 0 0)
      | none =>
        if s.contextDenied e then .next (s.reportEntry q.ctx q.idx e.pos pkDenied 0 0 0 0)
        else .next (act s q e)

/-- The packet completes DONE. -/
def State.contextDone (s : State) (q : HostQueue) (e : Entry) : State := s.reportEntry q.ctx q.idx e.pos pkDone 0 0 0 0

/-- The packet has been performed and waits for its completion. -/
def State.contextStep (s : State) (q : HostQueue) (e : Entry) (n : Nat) : State :=
  s.updEntry q.ctx q.idx e.pos (fun e => { e with step := n })

/-- Operations of the management queue that were performed and wait for their completion. -/
def State.performed (s : State) (op : Nat) : List Entry :=
  match s.hq? 0 0 with
  | some q => q.board.filter (fun e => e.type == 7 && e.phase == .started && e.step != 0 && e.op == op)
  | none => []

/-- Complete the first performed operation of a kind that is over: DONE, or DENIED when it can no longer come about. -/
def State.completePerformed (s : State) (op : Nat) (settled : Entry → Option Nat) : Option State :=
  (s.performed op).findSome? (fun e => (settled e).map (fun st => s.reportEntry 0 0 e.pos st 0 0 0 0))

/-- A context as CREATE makes it (R210, R212). -/
def newCtx (num part priority base bytes : Nat) (trap : W64) (limit : Nat) : Ctx :=
  { num := num, state := .allocated, part := some part, priority := priority, saveBase := base, saveBytes := bytes, trap := trap
    watchLimit := if limit = 0 then 2048 else limit, paging := none, requests := [], seq := 0, consumed := 0, launchCtr := 0
    cause := 0, tpc := 0, tval := 0, need := 0, returning := false, broke := false }

/-- CONTEXT_CREATE (R210, R212): hank work that a terminated context of the number has left behind goes with it (assumption log 28). -/
def execContextCreate (s : State) : Host.Outcome State Fault Refusal :=
  s.settleContext 0 (fun s q e =>
    let x := newCtx e.target e.cpart e.cidx e.addr0 e.addr1 (BitVec.ofNat 64 e.addr2) e.val
    let s1 : State := { s with ctxs := s.ctxs.filter (fun (y : Ctx) => y.num != x.num) ++ [x]
                               moves := s.moves.filter (fun (m : Move) => m.entry.ctx != x.num)
                               ranks := s.ranks.filter (fun (r : RankJob) => r.entry.ctx != x.num) }
    s1.contextDone q e)

/-- CONTEXT_PAGING (R210, R164). -/
def execContextPaging (s : State) : Host.Outcome State Fault Refusal :=
  s.settleContext 1 (fun s q e =>
    let p : Paging := { root := e.addr0, ring := e.addr1, logSlots := e.val % 32, reqVec := (e.val / 256) % 256, evVec := (e.val / 65536) % 256 }
    let s1 := s.updCtx e.target (fun x => { x with paging := some p, seq := 0, consumed := 0 })
    (s1.dropTlb (fun t => t.tagCtx == some e.target)).contextDone q e)

/-- A host queue as created (R50, R52). -/
def newHostQueue (ctx idx : Nat) (desc : W64) (bs : List Byte) (running : Bool) : HostQueue :=
  { ctx := ctx, idx := idx, desc := desc, ring := BitVec.ofNat 64 (fieldOf bs 0 8), cbase := BitVec.ofNat 64 (fieldOf bs 8 8)
    logn := fieldOf bs 16 1, home := fieldOf bs 17 1, tail := 0, fetch := 0, retire := 0, state := if running then .empty else .halted
    longstall := false, badtail := false, back := .empty, tokens := List.replicate 64 .clear, board := [] }

/-- CONTEXT_QUEUE (R49, R52, R210). -/
def execContextQueue (s : State) : Host.Outcome State Fault Refusal :=
  s.settleContext 2 (fun s q e => match s.checkQueue q e with
    | (.held, s1) => s1.holdEntry q.ctx q.idx e.pos
    | (.fault c, s1) => s1.failEntry q e c e.addr0 0
    | (.status st detail, s1) => s1.reportEntry q.ctx q.idx e.pos st detail 0 0 0
    | (.ok bs, s1) =>
      if fieldOf bs 18 1 = 0 then
        let running := match s1.ctx? e.target with | some x => x.state == .running | none => false
        let hq := newHostQueue e.target e.cidx (BitVec.ofNat 64 e.addr0) bs running
        { s1 with hqs := s1.hqs.filter (fun (x : HostQueue) => !(x.ctx == e.target && x.idx == e.cidx)) ++ [hq] }.contextDone q e
      else
        let d : DevQueue := { ctx := e.target, idx := e.cidx, desc := BitVec.ofNat 64 e.addr0, ring := BitVec.ofNat 64 (fieldOf bs 0 8)
                              logn := fieldOf bs 16 1, home := fieldOf bs 17 1 }
        { s1 with dqs := s1.dqs ++ [d] }.contextDone q e)

/-- A record that is not popped counts as CANCELLED in its tree (R210). -/
def State.cancelRecord (s : State) (d : DevQueue) (bs : List Byte) : State :=
  let t : W32 := BitVec.ofNat 32 (fieldOf bs 40 4)
  (s.treeFail d.ctx t pkCancelled 0 0).treeDec d.ctx t

/-- The records that stand in a device queue's slots from a position on, whoever wrote them (R85), are cancelled. -/
def State.cancelRecords (s : State) (d : DevQueue) (pop : Nat) : Nat → State
  | 0 => s
  | n + 1 =>
    let s1 := match s.dqAccess (.pair d.home) d.ctx (d.ring.toNat + 64 * (pop % 2 ^ d.logn)) 64 with
      | (.ok spa, s1) =>
        let bs := (s1.dqSettle spa).bytesAt (.pair d.home) spa 64
        if fieldOf bs 56 4 = pop % 2 ^ 32 && fieldOf bs 60 4 == crc32c (bs.take 60) then (s1.dqSettle spa).cancelRecord d bs else s1
      | (_, s1) => s1
    s1.cancelRecords d (pop + 1) n

/-- The records of a device queue whose writes still wait in queue 5 are cancelled, and never written. -/
def State.cancelSpawns (s : State) (d : DevQueue) : State :=
  let mine (e : EngEntry) : Bool := match e.job with
    | .spawn q _ _ _ => e.ctx == d.ctx && q == d.idx
    | _ => false
  (s.engq.filter mine).foldl (fun s e => match e.job with
    | .spawn _ _ _ bs => s.cancelRecord d bs
    | _ => s) (s.dropEntries mine)

/-- Destroy a device queue (R210): every record not yet popped is cancelled, those that wait to be written among them. -/
def State.destroyDevq (s : State) (q : HostQueue) (e : Entry) (d : DevQueue) : State :=
  match s.dqProducer (.pair d.home) d with
  | (.ok pa, s1) =>
    let s2 := s1.dqSettle pa
    let s3 := (s2.cancelSpawns d).cancelRecords d (s2.dqCounter pa 40) (2 ^ d.logn)
    let s4 : State := { s3 with dqs := s3.dqs.filter (fun (x : DevQueue) => !(x.ctx == d.ctx && x.idx == d.idx)) }
    s4.contextDone q e
  | (.absent need va, s1) => ((s1.pageRequest (.pair d.home) d.ctx need va).getD s1).holdEntry q.ctx q.idx e.pos
  | (.mig _, s1) => s1.holdEntry q.ctx q.idx e.pos
  | (.bad c va, s1) => s1.failEntry q e c va 0

/-- CONTEXT_UNQUEUE (R210, R52): a host queue's packet completes once no started entry of it remains. -/
def execContextUnqueue (s : State) : Host.Outcome State Fault Refusal :=
  match s.completePerformed 3 (fun e => match s.hq? e.target e.cidx with
      | some x => if x.board.all (fun b => b.phase == .done) then some pkDone else none
      | none => some pkDone) with
  | some s1 => .next s1
  | none =>
    s.settleContext 3 (fun s q e =>
      if e.val % 2 = 1 then
        match s.dq? e.target e.cidx with
        | none => s.contextDone q e
        | some d => s.destroyDevq q e d
      else match s.hq? e.target e.cidx with
        | none => s.contextDone q e
        | some _ =>
          let s1 := s.cancelWaiting e.target e.cidx (fun b => b.phase == .waiting)
          (s1.updHq e.target e.cidx (fun x => HostQueue.bury { x with state := .dead })).contextStep q e 1)

/-- CONTEXT_INVAL (R161-R163): translations of the context, and GLOBAL ones of its partition, that the range covers are removed; the
packet completes at INVALIDATION_COMPLETE. -/
def execContextInval (s : State) : Host.Outcome State Fault Refusal :=
  s.settleContext 4 (fun s q e =>
    let part := (s.ctx? e.target).bind (·.part)
    let covered (t : TlbEntry) : Bool :=
      e.addr1 == 0 || (decide (e.addr0 < t.va + t.bytes) && decide (t.va < e.addr0 + e.addr1))
    let mine (t : TlbEntry) : Bool := t.tagCtx == some e.target || (t.tagCtx.isNone && t.tagPart == part && part.isSome)
    (s.dropTlb (fun t => mine t && covered t)).contextStep q e 1)

/-- The contexts whose accesses an invalidation covers: its target, and those that share its partition's GLOBAL pages (R161, R163). -/
def State.sharers (s : State) (c : Nat) : List Nat :=
  let part := (s.ctx? c).bind (·.part)
  (s.ctxs.filter (fun (x : Ctx) => x.num == c || (part.isSome && x.part == part))).map (·.num)

/-- INVALIDATION_COMPLETE (R161): every access made through the old entries has been performed; waiting work walks again. -/
def execInvalidationComplete (s : State) : Host.Outcome State Fault Refusal :=
  match (s.performed 4).find? (fun e => !s.atomq.any (fun (r : AtomReq) => (s.sharers e.target).contains r.ctx)) with
  | none => .next s
  | some e => .next ((s.sharers e.target).foldl (fun s c => s.rewalk c) (s.reportEntry 0 0 e.pos pkDone 0 0 0 0))

/-- Whether a suspension that was asked for is over (R211): DONE at SUSPENDED. -/
def State.suspendOver (s : State) (e : Entry) : Option Nat :=
  match s.ctx? e.target with
  | some x => if x.state = .suspended then some pkDone else if x.state = .suspending then none else some pkDenied
  | none => some pkDenied

/-- CONTEXT_SUSPEND (R212). -/
def execContextSuspend (s : State) : Host.Outcome State Fault Refusal :=
  match s.completePerformed 5 s.suspendOver with
  | some s1 => .next s1
  | none =>
    s.settleContext 5 (fun s q e =>
      match s.ctx? e.target with
      | some x => if x.state = .running then (s.suspendCtx e.target).contextStep q e 1 else s.contextDone q e
      | none => s)

/-- Whether a resumption that was asked for is over (R211): DONE at RUNNING. -/
def State.resumeOver (s : State) (e : Entry) : Option Nat :=
  match s.ctx? e.target with
  | some x => if x.state = .runnable then none else if x.state = .faulted || x.state == .terminated then some pkDenied else some pkDone
  | none => some pkDenied

/-- CONTEXT_RESUME (R212, R222). -/
def execContextResume (s : State) : Host.Outcome State Fault Refusal :=
  match s.completePerformed 6 s.resumeOver with
  | some s1 => .next s1
  | none =>
    s.settleContext 6 (fun s q e =>
      match s.ctx? e.target with
      | some x =>
        if x.state = .allocated || x.state == .suspended then
          (s.updCtx e.target (fun x => { x with state := .runnable })).contextStep q e 1
        else s.contextDone q e
      | none => s)

/-- CONTEXT_TERMINATE (R212). -/
def execContextTerminate (s : State) : Host.Outcome State Fault Refusal :=
  s.settleContext 7 (fun s q e => (s.terminateCtx e.target).contextDone q e)

/-- Whether a RESIZE is over (R211): its map has changed and the contexts it suspended are RUNNING again. -/
def State.resizeOver (s : State) (e : Entry) : Option Nat :=
  if s.parts.any (fun (p : Part) => p.num == e.cpart && p.resize.isSome) then none
  else if s.ctxs.any (fun (x : Ctx) => x.part == some e.cpart && x.returning) then none
  else some pkDone

/-- The cluster map of a partition changes to the one asked for (R223, R92); its marked contexts become RUNNABLE. -/
def State.changeMap (s : State) (p : Part) : State :=
  let mask := p.resize.getD 0
  let p1 : Part := { p with pairs := mask, resize := none }
  let top := p1.cores.foldl max 0
  { s with
    parts := if mask = 0 then s.parts.filter (fun (x : Part) => x.num != p.num)
      else updWhere (fun (x : Part) => x.num == p.num) (fun _ => { p1 with pointer := top }) s.parts
    ctxs := updWhere (fun (x : Ctx) => x.part == some p.num && x.returning) (fun x =>
      if x.state = .suspended then { x with state := .runnable } else { x with returning := false }) s.ctxs }

/-- CONTEXT_RESIZE (R223, R211): the RUNNING contexts of the partition are suspended and marked for return; with none, the map changes at
once. -/
def execContextResize (s : State) : Host.Outcome State Fault Refusal :=
  match s.completePerformed 8 s.resizeOver with
  | some s1 => .next s1
  | none =>
    s.settleContext 8 (fun s q e =>
      let p : Part := { (s.part? e.cpart).getD { num := e.cpart, pairs := 0, pointer := 0, resize := none } with
        resize := some (BitVec.ofNat 16 e.val) }
      let s1 : State := if (s.part? e.cpart).isSome then s.updPart e.cpart (fun _ => p) else { s with parts := s.parts ++ [p] }
      let run := (s1.ctxs.filter (fun (x : Ctx) => x.part == some e.cpart && x.state == .running)).map (·.num)
      if run.isEmpty then (s1.changeMap p).contextDone q e
      else (run.foldl (fun s c => (s.suspendCtx c).updCtx c (fun x => { x with returning := true })) s1).contextStep q e 1)

/-- RESIZE_MAP_CHANGE (R223): of the first partition whose marked contexts are all SUSPENDED. -/
def execResizeMapChange (s : State) : Host.Outcome State Fault Refusal :=
  let ready (p : Part) : Bool := p.resize.isSome
    && s.ctxs.all (fun (x : Ctx) => !(x.part == some p.num && x.returning) || x.state != .suspending)
  match s.parts.find? ready with
  | none => .next s
  | some p => .next (s.changeMap p)

end Sys2Proof.Machine
end

