-- ==== Sys2Proof/Machine/Save.lean ====
section
/-! DEFINITION. Pre-emption and the save area (R217-R221), restore (R222). What is saved is written to the save area as R219-R221
lay it out; the machine restores from what it keeps of the saved work (assumption log 16). -/

namespace Sys2Proof.Machine

/-- Two bits for each value of a list, the first lowest. -/
def pack2 : List Nat → Nat
  | [] => 0
  | x :: xs => x % 4 + 4 * pack2 xs

/-- The shape code and the value of a predicate in a record (R220). -/
def PReg.image (p : PReg) : Nat × Nat := match p with
  | .u b => (0, if b then 1 else 0)
  | .lt t => (1, t)
  | .ge t => (2, t)
  | .g m => (3, m.toNat)

/-- The shape code and the value of a v register in a record (R220). -/
def VReg.image (x : VReg) : Nat × Nat := match x with
  | .u y => (0, y.toNat)
  | .a base stride => (1, base.toNat + 2 ^ 32 * stride.toNat)
  | .g => (2, 0)

/-- The WAIT code of a unit (R220). -/
def State.waitCode (s : State) (u : SUnit) : Nat := match u.wait with
  | .barw _ _ => 1
  | .waita _ => 2
  | .pipw m => if u.pcSlot.isSome then 3 else if u.pips &&& m == 0 then 0 else 7
  | .await _ => 4
  | .join _ _ => 5
  | .page _ _ _ _ => 6
  | .held _ _ => 6
  | _ =>
    if u.duties.isEmpty || u.pcSlot.isSome then 0
    else match (s.readClause u).1 with
      | .ok h _ => if u.pips &&& h.wait == 0 then 0 else 7
      | _ => 0

/-- A list of 8-byte values filled up to n of them. -/
def words8 (n : Nat) (xs : List Nat) : List Byte := ((xs ++ List.replicate (n - xs.length) 0).take n).flatMap (bytesOf 8)

/-- A span or strand record (R220). -/
def State.unitRecord (s : State) (u : SUnit) : List Byte :=
  let vs := (List.range 128).map (fun r => (u.vreg r).image)
  let ps := (List.range 7).map (fun r => (u.preg r).image)
  let kind : Nat := match u.kind with | .undealt => 0 | .span => 1 | .strand => 2 | .deferred => 3
  let counts := (List.range 12).foldl (fun n k => n + u.pipCount k * 16 ^ k) 0
  let batches := (u.closed.map (fun b => b.2.length)) ++ [u.openB.length]
  bytesOf 8 u.pc.toNat ++ bytesOf 8 (if u.isStrand then u.mask.toNat else 0) ++ bytesOf 4 u.lo ++ bytesOf 4 (if u.isStrand then 64 else u.cnt)
    ++ bytesOf 1 kind ++ bytesOf 1 (s.waitCode u) ++ bytesOf 1 (match u.region with | some r => r.n + 1 | none => 0)
    ++ bytesOf 1 u.nest ++ bytesOf 1 u.nestmax ++ bytesOf 1 u.fmode.toNat ++ bytesOf 1 u.sstack.length ++ bytesOf 1 u.rstack.length
    ++ bytesOf 8 counts ++ bytesOf 8 (pack2 (ps.map (·.1))) ++ bytesOf 16 0
    ++ bytesOf 32 (pack2 (vs.map (·.1))) ++ vs.flatMap (fun x => bytesOf 8 x.2) ++ ps.flatMap (fun x => bytesOf 8 x.2) ++ bytesOf 8 0
    ++ (List.range 16).flatMap (fun r => bytesOf 8 (u.kreg r).toNat) ++ (List.range 4).flatMap (fun r => (u.xreg r).image)
    ++ words8 32 (u.rstack.reverse.map (·.toNat)) ++ words8 32 u.sstack.reverse
    ++ ((batches ++ List.replicate 9 0).take 9).flatMap (bytesOf 2) ++ bytesOf 14 0

/-- A barrier in a group section (R221). -/
def Barrier.image (b : Barrier) : List Byte :=
  bytesOf 8 (b.query 0).toNat ++ bytesOf 8 (b.query 1).toNat ++ bytesOf 8 (b.query 2).toNat
    ++ bytesOf 8 (match b.cont with | some a => (a ||| 1).toNat | none => 0)

/-- A cursor in a group section (R221). -/
def Cursor.image (c : Cursor) : List Byte :=
  words8 8 [c.num, c.hank.toNat, c.lo.toNat, c.hi.toNat, c.lea, (c.last.map (·.1)).getD 0, (c.last.map (fun x => x.2.toNat)).getD 0, 0]

/-- A query slot in a group section (R221). -/
def BeamSlot.image (b : BeamSlot) : List Byte := bytesOf 8 b.handle ++ b.statusRecord ++ bytesOf 8 b.popped ++ bytesOf 16 0

/-- The cores of a placed group. -/
def Group.placeCores (g : Group) : List Nat := if g.pair then [g.core, g.core + 1] else [g.core]

/-- The pad range of a group on one of its cores. -/
def Group.padOn (g : Group) (core : Nat) : Nat := if core = g.core then g.padBase else g.padBase2

namespace State

/-- The units of a group, as the save area and the restore list them: by first item. -/
def unitsOfGroup (s : State) (gid : Nat) : List SUnit := sortBy (·.lo) (s.units.filter (fun (u : SUnit) => u.group == some gid))

/-- Pad bytes and rows of a group, by window and register (R221). -/
def padOf (s : State) (g : Group) : List Byte := g.placeCores.flatMap (fun c => s.padBytes c (g.padOn c) (roundPad g.padBytes))
def rowsOf (s : State) (g : Group) : Kv (List W32) := g.rowMap.filterMap (fun e => e.2.map (fun k => (e.1, s.row k)))

/-- A group section (R221). -/
def groupSection (s : State) (l : Launch) (g : Group) : List Byte :=
  let rows := s.rowsOf g
  let us := s.unitsOfGroup g.id
  let cs := s.cursors.filter (fun (c : Cursor) => c.group == g.id)
  let bs := s.beams.filter (fun (b : BeamSlot) => b.group == g.id && b.state == .done)
  let index (k : Nat) : Nat := ((rows.zipIdx.find? (fun e => e.1.1 == k)).map (·.2)).getD 0xFFFF
  bytesOf 4 l.num.toNat ++ bytesOf 4 g.gid ++ bytesOf 4 g.base ++ bytesOf 2 g.size ++ bytesOf 1 g.gregs ++ bytesOf 1 g.bars.length
    ++ bytesOf 3 g.padBytes ++ bytesOf 1 l.flags.toNat ++ bytesOf 2 us.length ++ bytesOf 1 cs.length ++ bytesOf 1 bs.length
    ++ bytesOf 2 rows.length ++ bytesOf 38 0
    ++ g.bars.flatMap (·.image) ++ cs.flatMap (·.image) ++ bs.flatMap (·.image) ++ s.padOf g
    ++ (List.range (g.size / 64)).flatMap (fun w => (List.range 128).flatMap (fun r => bytesOf 2 (index (w * 128 + r))))
    ++ rows.flatMap (fun e => e.2.flatMap (fun x => bytesOf 4 x.toNat)) ++ us.flatMap s.unitRecord

/-- An MMA record of a tile that a group holds (R219, R384). -/
def mmaRecord (s : State) (g : Group) (core : Nat) : List Byte :=
  let op := s.mmaq.find? (fun (m : MmaOp) => m.group == g.id && (m.core == core || (m.pair && m.core + 1 == core)))
  let role : Nat := if (s.tile core).paired then (if core = g.core then 1 else 2) else 0
  let operands := match op with
    | some m => words8 30 [m.a, m.b, m.kb, m.planes, m.bfmt]
    | none => words8 30 []
  bytesOf 8 (match op with | some m => m.word.toNat | none => 0) ++ bytesOf 4 (match op with | some m => m.next | none => 0) ++ bytesOf 4 role
    ++ operands ++ (s.tile core).array.toList.flatMap (fun x => bytesOf 4 x.toNat)

/-- The tiles that a group holds. -/
def tilesOf (s : State) (g : Group) : List Nat := g.placeCores.filter (fun c => (s.tile c).group == some g.id)

/-- A stream record (R219): the job as issued in 64 bytes, of an ACP its first item and its sizes. -/
def streamRecord (c : Copy) : List Byte :=
  let job := match c.job with
    | some (.acp size items w bar) =>
      words8 8 ([size, items.length] ++ (match items with | [] => [0, 0, 0] | i :: _ => [i.1, i.2.1.toNat, i.2.2])
        ++ [match w with | some x => x.1 | none => 0xFFFFFFFF, match w with | some x => x.2 | none => 0, (bar.map (· + 1)).getD 0])
    | some (.card _ a bar) => words8 8 [a.toNat, (bar.map (· + 1)).getD 0]
    | _ => words8 8 [c.card.src.toNat, c.card.dst.toNat, c.card.rbytes]
  job ++ bytesOf 8 c.done ++ bytesOf 8 (c.parked.getD 0) ++ bytesOf 4 (c.cluster * 256 + c.engine) ++ bytesOf 44 0

/-- The saved groups of a context in the order of R219: those that stand on cores. -/
def savedGroups (s : State) (c : Nat) : List (Launch × Group) :=
  (sortBy (fun (l : Launch) => l.num.toNat) (s.launchesOf c)).flatMap (fun l =>
    (sortBy (fun (g : Group) => g.gid) (s.groups.filter (fun g => g.launch == l.id && g.state != .dealt))).map (fun g => (l, g)))

/-- Spans of a context that have not been dealt. -/
def savedSpans (s : State) (c : Nat) : List SUnit := (s.unitsOf c).filter (fun u => u.kind == .undealt)

/-- The save area of a context (R219). -/
def saveImage (s : State) (c : Nat) : List Byte :=
  let spans := s.savedSpans c
  let gs := s.savedGroups c
  let copies := s.copies.filter (fun (k : Copy) => k.ctx == c)
  let mmas := gs.flatMap (fun g => (s.tilesOf g.2).map (s.mmaRecord g.2))
  let body := spans.flatMap s.unitRecord ++ gs.flatMap (fun g => s.groupSection g.1 g.2) ++ mmas.flatten ++ copies.flatMap streamRecord
  bytesOf 8 (256 + body.length) ++ bytesOf 4 spans.length ++ bytesOf 4 gs.length ++ bytesOf 4 mmas.length ++ bytesOf 4 copies.length
    ++ bytesOf 232 0 ++ body

/-- Whether a unit belongs to a group in DEALT, which stays with the home pair (R218). -/
def inDealt (s : State) (u : SUnit) : Bool := match s.groupOf u with
  | some g => g.state == .dealt
  | none => false

/-- Open regions of units that stand at a clause boundary or a wait are discarded (R217, R218): the unit stands at the entry, the region open. -/
def discardRegions (s : State) (c : Nat) : State :=
  (s.unitsOf c).foldl (fun s u =>
    match u.region with
    | some r =>
      if s.issue.any (fun (i : Issue) => i.unit == u.id) || s.inDealt u || (u.pcSlot.isNone && u.pc == r.entry) then s
      else (s.discardRegion u r).updUnit u.id (fun u =>
        { u with wait := match u.wait with | .page va n t x => .page va n t x | _ => .pipw 0xFFF })
    | none => s) s

/-- Whether a unit can be saved where it stands (R218, R104): at a clause boundary, or parked at a wait of its clause. -/
def unitSavable (s : State) (u : SUnit) : Bool :=
  !s.issue.any (fun (i : Issue) => i.unit == u.id)
    && (u.pcSlot.isNone || (match u.wait with | .barw _ _ | .waita _ | .pipw _ | .await _ => true | _ => false))

/-- Whether an outstanding operation is one that is saved pending (R218): of an interrupted MMA, or of parked copies; or one whose result is there
and cannot land while its units stand where they are saved. -/
def pendSavable (s : State) (o : PendOp) : Bool :=
  let parked := s.copies.filter (fun (k : Copy) => k.parked.isSome)
  match o.wait with
  | .ready => o.targets.all (s.withheld o)
  | .entries _ => parked.any (fun k => (k.entry.map (·.op)) == some o.id)
      || s.mmaq.any (fun (m : MmaOp) => m.op == o.id && m.kind == 0 && !m.assist)
  | .fence ids =>
    let live := s.liveEntries
    let left := ids.filter (fun i => live.contains i)
    !left.isEmpty && left.all (fun i => parked.any (fun k => (k.entry.map (·.id)) == some i))

/-- Whether nothing of a context remains on cores and engines but what is saved (R212, R218). -/
def canSave (s : State) (c : Nat) : Bool :=
  let us := s.unitsOf c
  let ids := us.map (·.id)
  let gs := (s.groupsOfCtx c).map (·.id)
  us.all (fun u => s.inDealt u || s.unitSavable u)
    && s.pend.all (fun (o : PendOp) => !o.targets.any (fun t => ids.contains t) || s.pendSavable o)
    && !s.engq.any (fun (e : EngEntry) => e.ctx == c)
    && s.copies.all (fun (k : Copy) => k.ctx != c || k.parked.isSome)
    && !s.moves.any (fun (m : Move) => m.phase.inFlight && m.entry.ctx == c) && !s.ranks.any (fun (r : RankJob) => r.entry.ctx == c)
    && !s.beams.any (fun (b : BeamSlot) => b.ctx == c && b.state == .running)
    && !s.jobs.any (fun (j : CollJob) => j.entry.ctx == c) && !s.atomq.any (fun (r : AtomReq) => r.ctx == c)
    && !s.trees.any (fun (t : Tree) => t.ctx == c && t.closing)
    && gs.all (fun g => (s.mmaq.filter (fun (m : MmaOp) => m.group == g)).all (fun m =>
        m.kind == 0 && !m.assist && (s.mmaq.find? (fun x => x.group == g && x.core == m.core)).map (·.id) == some m.id))

/-- The words of a group's pad image that are poisoned (R137). -/
def padPoisonOf (s : State) (g : Group) : List Nat :=
  let n := roundPad g.padBytes / 8
  g.placeCores.zipIdx.flatMap (fun c =>
    let base := padKey c.1 (g.padOn c.1) / 8
    (s.poison.padWords.filter (fun w => decide (base ≤ w) && decide (w < base + n))).map (fun w => w - base + c.2 * n))

/-- The rows of a group's row image that are poisoned (R137). -/
def rowPoisonOf (s : State) (g : Group) : List Nat :=
  g.rowMap.filterMap (fun e => e.2.bind (fun k => if s.poison.rows.contains k then some e.1 else none))

/-- A group taken off its core, with the contents of its pad, rows and tiles, poison among them (R218, R221). -/
def takeOff (s : State) (g : Group) : State :=
  let tiles := (s.tilesOf g).map (fun c => (c - g.core, (s.tile c).paired, (s.tile c).elems))
  let saved : Group := { g with
    state := .saved, padImage := s.padOf g, rowImage := s.rowsOf g, padPoison := s.padPoisonOf g, rowPoison := s.rowPoisonOf g
    tileImage := tiles, mmaSaved := s.mmaq.filter (fun (m : MmaOp) => m.group == g.id) }
  let s1 := s.updGroup g.id (fun _ => saved)
  { s1 with mmaq := s1.mmaq.filter (fun (m : MmaOp) => m.group != g.id)
            padNotes := s1.padNotes.filter (fun (p : PadNote) => p.group != g.id)
            tiles := updWhere (fun (t : Tile) => t.group == some g.id) (fun t => { t with group := none, paired := false }) s1.tiles }

/-- The context's work is off the cores (R212, R218). A saved unit stands at a clause header, however it came there (R220, R254). -/
def takeOffAll (s : State) (c : Nat) : State :=
  let ids := ((s.unitsOf c).filter (fun u => !s.inDealt u)).map (·.id)
  let cores := ((s.unitsOf c).map (·.core)).eraseDups
  let s1 := cores.foldl (fun s k => s.publish k 3) s
  let s2 := ((s1.groupsOfCtx c).filter (fun g => g.state == .resident)).foldl (fun s g => s.takeOff g) s1
  let s3 : State := { s2 with
    units := updWhere (fun (u : SUnit) => ids.contains u.id) (fun u =>
      { u with slot := none, origin := none, wait := if u.wait = .yield then .none else u.wait }) s2.units
    copies := updWhere (fun (k : Copy) => k.ctx == c) (fun k => { k with saved := true }) s2.copies }
  s3.updCtx c (fun x => { x with state := .suspended })

/-- The SUSPENDING context that can be saved now, its open regions discarded. -/
def saveTurn (s : State) : Option (Ctx × State) :=
  (s.ctxs.filter (fun (x : Ctx) => x.state == .suspending)).findSome? (fun x =>
    let s1 := s.discardRegions x.num
    if s1.canSave x.num then some (x, s1) else none)

end State

/-- CONTEXT_SAVE_COMPLETE (R212, R218, R219): the save area is written, or the context faults SAVECAP. -/
def execContextSaveComplete (s : State) : Host.Outcome State Fault Refusal :=
  match s.saveTurn with
  | none => .next s
  | some (x, s1) =>
    let s2 := (s1.unitsOf x.num).foldl (fun (s : State) u => s.publish u.core 3) s1
    let image := s2.saveImage x.num
    if x.saveBytes < image.length then .next (s2.contextFault x.num causeSavecap 0 (BitVec.ofNat 64 image.length))
    else
      let die := match s2.hq? 0 0 with | some q => q.home | none => 0
      .next ((s2.writeHome (.pair die) x.saveBase image).takeOffAll x.num)

namespace State

/-- The RUNNABLE context whose work is restored next in its partition (R213, R222). -/
def restoreTurn (s : State) (part : Option Nat) : Option Ctx :=
  let cs := s.ctxs.filter (fun (x : Ctx) => x.state == .runnable && x.part == part)
  (sortBy (fun (x : Ctx) => (7 - x.priority) * 256 + x.num) cs).head?

/-- Rows of a placed group given to its saved rows, window by window: the row map, and the contents as (row, words). -/
def placeRows (g : Group) (saved : Kv (List W32)) : Kv (Option Nat) × List (Nat × List W32) :=
  let step (acc : Kv (Option Nat) × List (Nat × List W32) × List Nat) (e : Nat × List W32) : Kv (Option Nat) × List (Nat × List W32) × List Nat :=
    match acc.2.2.find? (fun r => r / 2048 == g.coreOf (e.1 / 128)) with
    | some r => (Kv.set none acc.1 e.1 (some r), acc.2.1 ++ [(r, e.2)], acc.2.2.erase r)
    | none => acc
  let out := saved.foldl step ([], [], g.rows)
  (out.1, out.2.1)

/-- A place in the pad of a group's old core, on its new core. -/
def movePad (old new : Group) (key : Nat) : Nat :=
  let core := key / 0x20_0000
  new.core + (core - old.core) |> fun c => padKey c (key % 0x20_0000 - old.padOn core + new.padOn c)

/-- A saved unit on the new core of its group (R222). -/
def moveUnit (old new : Group) (u : SUnit) : SUnit :=
  { u with core := new.core + (u.core - old.core)
           wait := match u.wait with
             | .waita cs => .waita (cs.map (fun c => (movePad old new c.1, c.2)))
             | w => w }

/-- Each saved unit of a restored group takes one of its slots; a deferred side runs in the slot of its strand (R100). -/
def seatUnits (s : State) (g : Group) : List SUnit → State
  | [] => s
  | u :: us =>
    if u.kind = .deferred then s.seatUnits g us
    else
      let slot := s.slotFor g u.core u.id
      (s.updUnit u.id (fun u => { u with slot := slot })).seatUnits g us

/-- A saved group placed on a core, or on a pair by its leader (R222): its R90 reservation, and one slot for each saved record; none
where it does not fit, or a tile that it holds is taken. -/
def fitSaved (s : State) (g : Group) (us : List SUnit) (c : Nat) : Option Group :=
  let w := g.size / 64
  let need (core : Nat) : Nat := max (g.slots.filter (fun k => k / 64 == core)).length (us.filter (fun u => u.core == core)).length
  let tilesFree := g.tileImage.all (fun t => (s.tile (c + t.1)).group.isNone)
  if !tilesFree then none
  else if !g.pair then
    (s.reserveOn c w g.gregs g.padBytes g.bars.length (need g.core)).map (fun r =>
      { g with state := .resident, core := c, rows := r.1, padBase := r.2.1, slots := r.2.2 })
  else
    let lead := (w + 1) / 2
    match s.reserveOn c lead g.gregs g.padBytes g.bars.length (need g.core),
      s.reserveOn (c + 1) (w - lead) g.gregs g.padBytes g.bars.length (need (g.core + 1)) with
    | some r, some t =>
      some { g with state := .resident, core := c, rows := r.1 ++ t.1, padBase := r.2.1, padBase2 := t.2.1, slots := r.2.2 ++ t.2.2 }
    | _, _ => none

/-- A saved group put back on a core with all that it held (R222). -/
def putBack (s : State) (g new : Group) : State :=
  let us := s.unitsOfGroup g.id
  let (map, contents) := placeRows new g.rowImage
  let g1 : Group := { new with rowMap := map, padImage := [], rowImage := [], padPoison := [], rowPoison := [], tileImage := [], mmaSaved := [] }
  let core (c : Nat) : Nat := new.core + (c - g.core)
  let n := roundPad g.padBytes
  let s1 := (s.updGroup g.id (fun _ => g1)).clearPlaced g1
  let s2 := contents.foldl (fun s e => s.setRow e.1 e.2) s1
  let s3 := (g1.placeCores.zipIdx).foldl (fun s c => s.writePad c.1 (g1.padOn c.1) ((g.padImage.drop (c.2 * n)).take n)) s2
  let badWords := g.padPoison.map (fun i => let c := new.core + i / (n / 8); padKey c (g1.padOn c) / 8 + i % (n / 8))
  let badRows := g.rowPoison.filterMap (fun k => Kv.get none map k)
  let s4 := g.tileImage.foldl (fun s t => s.setTile { core := new.core + t.1, group := some g.id, paired := t.2.1, elems := t.2.2 })
    { s3 with poison := { s3.poison with padWords := s3.poison.padWords ++ badWords, rows := s3.poison.rows ++ badRows } }
  let ofGroup (e : EngEntry) : Bool := e.group == some g.id
  let moveCopy (k : Copy) : Copy := match k.owner with
    | .entry e => if ofGroup e then { k with owner := .entry { e with core := core e.core }, cluster := clusterOf (core e.core), saved := false } else k
    | _ => k
  let s5 : State := { s4 with
    units := updWhere (fun (u : SUnit) => u.group == some g.id) (moveUnit g g1) s4.units
    mmaq := s4.mmaq ++ g.mmaSaved.map (fun m => { m with core := core m.core })
    copies := s4.copies.map moveCopy
    cursors := updWhere (fun (k : Cursor) => k.group == g.id) (fun k => { k with core := core k.core }) s4.cursors }
  s5.seatUnits g1 (us.map (moveUnit g g1))

/-- Restore saved groups one after the other, all or none, on the first cores in the round-robin order on which they fit (R92, R222). -/
def restoreGroups (s : State) (p : Nat) : List Group → Option State
  | [] => some s
  | g :: gs =>
    match s.part? p with
    | none => none
    | some x =>
      let us := s.unitsOfGroup g.id
      match (fromPointer (placesOf x.cores g.pair) x.pointer).findSome? (fun c => (s.fitSaved g us c).map (fun n => (c, n))) with
      | none => none
      | some (c, new) => ((s.putBack g new).updPart p (fun x => { x with pointer := c })).restoreGroups p gs

/-- Whether a saved group would fit some core, or pair, of its partition were that core empty (R222). -/
def fitsEmpty (s : State) (x : Part) (g : Group) : Bool :=
  let bare : State := { s with groups := [], units := [], tiles := [] }
  let us := s.unitsOfGroup g.id
  (placesOf x.cores g.pair).any (fun c => (bare.fitSaved g us c).isSome)

/-- A context whose last record is restored is RUNNING again (R212, R52): its queues leave HALTED, and what waits for pages walks again (R218). Streams that no saved group entered go to a
cluster of the partition, that of their launch's spans where some are left (R222). -/
def restored (s : State) (x : Ctx) : State :=
  let wake (q : HostQueue) : HostQueue :=
    let r := { q with state := q.back }
    if r.state = .full && !r.isFull then HostQueue.settle { r with state := .fetching } else r.settle
  let s1 : State := { s with
    hqs := updWhere (fun (q : HostQueue) => q.ctx == x.num && q.state == .halted) wake s.hqs
    copies := updWhere (fun (k : Copy) => k.ctx == x.num && k.saved) (fun k => match k.owner with
      | .packet c _ pos => { k with saved := false, cluster := s.copyCluster c pos }
      | .entry e =>
        let core := match s.units.find? (fun (u : SUnit) => u.launch == e.launch && u.kind == .undealt) with
          | some u => u.core
          | none => ((s.partOf x.num).bind (fun p => p.cores.head?)).getD e.core
        { k with saved := false, owner := .entry { e with core := core }, cluster := clusterOf core }) s.copies }
  (s1.updCtx x.num (fun x => { x with state := .running, returning := false, broke := false })).rewalkWhere x.num (fun _ => true)

/-- Each of several spans takes a free slot of a core. -/
def seatSpans (s : State) (core : Nat) : List SUnit → State
  | [] => s
  | u :: us =>
    let slot := s.freeSlot core
    (s.updUnit u.id (fun u => { u with core := core, slot := slot })).seatSpans core us

/-- The next step of a restore (R222): the undealt spans of a launch take slots of one core, as a root span does (R76); a group, or all of a
coreside launch, is placed; with nothing left the context runs. -/
def restoreStep (s : State) (x : Ctx) : State :=
  match (s.savedSpans x.num).find? (fun u => u.slot.isNone), x.part.bind s.part? with
  | some u, some p =>
    let mine := (s.savedSpans x.num).filter (fun v => v.slot.isNone && v.launch == u.launch)
    match s.spanCore p mine.length with
    | some c => ((s.seatSpans c mine).updLaunch u.launch (fun l => { l with rootCore := some c })).updPart p.num (fun p => { p with pointer := c })
    | none => s
  | some _, none => s
  | none, p =>
    match (s.savedGroups x.num).find? (fun g => g.2.state == .saved), p with
    | none, _ => s.restored x
    | some _, none => s
    | some (l, g), some p =>
      let gs := if l.coreside then ((s.savedGroups x.num).filter (fun y => y.1.id == l.id && y.2.state == .saved)).map (·.2) else [g]
      if gs.any (fun g => !s.fitsEmpty p g) then s.contextFault x.num causeRestorecap (l.num.setWidth 64) 0
      else (s.restoreGroups p.num gs).getD s

end State

/-- CONTEXT_RESTORE (R222): one step of the first partition whose turn changes something. -/
def execContextRestore (s : State) : Host.Outcome State Fault Refusal :=
  let turns := ((s.ctxs.filter (fun (x : Ctx) => x.state == .runnable)).map (·.part)).eraseDups
  .next ((turns.findSome? (fun part => match s.restoreTurn part with
    | some x => let t := s.restoreStep x; if t = s then none else some t
    | none => none)).getD s)

end Sys2Proof.Machine
end

