-- ==== Sys2Proof/Machine/Bringup.lean ====
section
/-! DEFINITION. Power-on, self-test, firmware and the mailbox (R245-R252, R209), the host side (R230-R236): links, BAR0 writes, BAR2;
lock-step and thermal events; errors and evictions (R125, R137). -/

namespace Sys2Proof.Machine

/-- Stage codes (R245, R246). -/
def Stage.code : Stage → Nat
  | .reset => 0
  | .selftest => 1
  | .hold => 2
  | .waitfw => 3
  | .verify => 4
  | .running => 5

namespace State

/-- STAGE of the mailbox (R247). -/
def stageCode (s : State) : Nat :=
  if s.dies.any (fun (d : Die) => d.stage == .hold) then 2 else (minOf (s.dies.map (fun d => d.stage.code))).getD 0

/-- Every die enters a stage. -/
def allStages (s : State) (st : Stage) : State := { s with dies := s.dies.map (fun d => { d with stage := st }) }

/-- Host memory and third-tier memory, which lie outside the module (R10). -/
def outsideMem (s : State) : Memory := Kv.keep (fun k => decide (0x1_0000_0000_0000 ≤ k)) s.mem

/-- Compute is stopped (R246, R252): nothing of contexts, queues, kernels and engines is left; only the mailbox answers. -/
def stopCompute (s : State) : State :=
  { State.reset with mem := s.mem, pad := s.pad, rows := s.rows, poison := s.poison, dies := s.dies, mailbox := s.mailbox
                     fwImage := s.fwImage, coreRows := s.coreRows, hostSide := s.hostSide, msixHeld := s.msixHeld, spdm := s.spdm
                     agenda := s.agenda, outs := s.outs, nextId := s.nextId, freeCtr := s.freeCtr }

/-- HOLD (R246). -/
def enterHold (s : State) : State := s.stopCompute.allStages .hold

end State

/-- POWER_ON_RESET (R18, R245): the module as after power-on; what lies outside it stays. -/
def execPowerOnReset (s : State) : Host.Outcome State Fault Refusal :=
  .next { State.reset with mem := s.outsideMem, agenda := s.agenda, outs := s.outs, nextId := s.nextId, freeCtr := s.freeCtr }

/-- The boot ROM of a die in RESET starts (R245): the counter starts at zero (R18), and the host links train (R230). -/
def State.boot (s : State) : State :=
  let train (l : HostLink) : HostLink := if l.lstate = 0 then { l with lstate := 1 } else l
  if s.dies.any (fun (d : Die) => d.stage == .reset) then
    { s with dies := s.dies.map (fun d => if d.stage = .reset then { d with stage := .selftest, cycle := 0 } else d)
             hostSide := { s.hostSide with links := s.hostSide.links.map train } }
  else s

/-- The first core of a die with fewer usable rows than R245 asks for. -/
def shortRows (rows : List Nat) : Option Nat := (List.range 64).find? (fun i => decide (rows.getD i 2048 < 1792))

/-- SELFTEST_DONE (R245-R247, R214): usable rows, repairs; WAITFW, or HOLD for every die. -/
def execSelftestDone (die : Nat) (r : SelfTest) (s : State) : Host.Outcome State Fault Refusal :=
  if (s.die die).stage ≠ .selftest then .next s
  else
    let rows := (List.range 256).map (fun c => if c / 64 = die then min 2048 (r.rows.getD (c % 64) 2048) else s.coreRows.getD c 2048)
    let s1 := { s with coreRows := rows, mailbox := { s.mailbox with repairs := s.mailbox.repairs + BitVec.ofNat 32 r.repairs.length } }.updDie die (fun d => { d with repairs := r.repairs })
    let fail (test : BitVec 8) (unit : BitVec 16) : State :=
      { s1 with mailbox := { s1.mailbox with test := test, die := BitVec.ofNat 2 die, unit := unit } }.enterHold
    if !r.pass then .next (fail r.test r.unit)
    else match shortRows r.rows with
      | some i => .next (fail 4 (BitVec.ofNat 16 i))
      | none => .next (s1.updDie die (fun d => { d with stage := .waitfw }))

/-- Firmware makes the management queue from MGMTQ (R209): FWSTATUS tells whether it could. -/
def State.makeMgmt (s : State) : State :=
  let at_ := s.mailbox.mgmtq.toNat
  let rs := s.hostSide.ranges
  let bs := s.bytesAt (.pair 0) at_ 64
  let n := 2 ^ (fieldOf bs 16 1)
  let good := at_ != 0 && inTiers12 rs at_ 64 && descriptorOk none bs && fieldOf bs 18 1 == 0
    && inTiers12 rs (fieldOf bs 0 8) (64 * n) && inTiers12 rs (fieldOf bs 8 8) (32 * n) && !s.poisonedAt at_ 64
  if good then
    { s with hqs := s.hqs ++ [newHostQueue 0 0 (BitVec.ofNat 64 at_) bs true], mailbox := { s.mailbox with fwstatus := 1 } }
  else { s with mailbox := { s.mailbox with fwstatus := 4 } }

/-- Context 0 as firmware creates it (R209). -/
def ctxZero : Ctx :=
  { num := 0, state := .running, part := none, priority := 0, saveBase := 0, saveBytes := 0, trap := 0, watchLimit := 2048, paging := none
    requests := [], seq := 0, consumed := 0, launchCtr := 0, cause := 0, tpc := 0, tval := 0, need := 0, returning := false
    broke := false }

/-- LOAD (R247, R248): VERIFY starts over a copy of the image; ignored outside WAITFW. -/
def State.load (s : State) : State :=
  if s.stageCode ≠ 3 then s
  else
    let n := s.mailbox.fwlen.toNat
    let image := if 115 ≤ n ∧ n ≤ 0x0400_0000 then s.bytesAt (.pair 0) s.mailbox.fwaddr.toNat n else []
    { s with fwImage := image }.allStages .verify

def execLoadFw (s : State) : Host.Outcome State Fault Refusal := .next s.load

/-- The key that an image's signature is checked with: the one whose digest is fused into the dies (R248). -/
def fusedKey : List Byte := (List.range 57).map Config.verifyingKey

/-- Whether the last 114 bytes of an image are the signature of the bytes before them (R248). -/
def imageSigned (image : List Byte) : Bool :=
  ed448phOk fusedKey (image.take (image.length - 114)) (image.drop (image.length - 114))

/-- VERIFY_DONE (R248, R209): BADLEN or BADSIG leads back to WAITFW; success runs the image on every die. -/
def execVerifyDone (s : State) : Host.Outcome State Fault Refusal :=
  if s.stageCode ≠ 4 then .next s
  else
    let n := s.mailbox.fwlen.toNat
    let back (st : BitVec 3) : State := { s with mailbox := { s.mailbox with fwstatus := st } }.allStages .waitfw
    if n < 115 ∨ 0x0400_0000 < n then .next (back 3)
    else if !imageSigned s.fwImage then .next (back 2)
    else
      let s1 : State := { s with ctxs := [ctxZero], mailbox := { s.mailbox with fwstatus := 1 } }
      .next (s1.allStages .running).makeMgmt

/-- MGMTQ written (R209, R247): ignored once the management queue exists. -/
def State.writeMgmtq (s : State) (value : W64) : State :=
  if (s.hq? 0 0).isSome then s
  else
    let s1 := { s with mailbox := { s.mailbox with mgmtq := value &&& 0x000F_FFFF_FFFF_FFC0 } }
    if s1.stageCode = 5 then s1.makeMgmt else s1

def execMgmtqWrite (value : BitVec 64) (s : State) : Host.Outcome State Fault Refusal := .next (s.writeMgmtq value)

/-- POWER_INPUT_FAULT (R252): compute stops in HOLD, TEST 0. -/
def execPowerInputFault (s : State) : Host.Outcome State Fault Refusal :=
  .next { s with mailbox := { s.mailbox with test := 0, die := 0, unit := 0 } }.enterHold

/-- A die faults (R250): DIEFAULT, vector 0, the contexts that use it are handled as TERMINATE; its ports stop. -/
def State.dieFault (s : State) (d : Nat) : State :=
  if (s.die d).faulted then s
  else
    let s1 := (s.updDie d (fun x => { x with faulted := true })).raise 0
    let uses (x : Ctx) : Bool :=
      (match x.part.bind s1.part? with | some p => p.onDie d | none => false)
        || s1.hqs.any (fun (q : HostQueue) => q.ctx == x.num && q.home == d) || s1.dqs.any (fun (q : DevQueue) => q.ctx == x.num && q.home == d)
    let gone := (s1.ctxs.filter (fun x => x.state != .terminated && uses x)).map (·.num)
    gone.foldl (fun s c => s.terminateCtx c) s1

/-- LOCKSTEP_MISMATCH (R250): the third mismatch within 2 * 10^9 cycles faults the die. -/
def execLockstepMismatch (die : Nat) (s : State) : Host.Outcome State Fault Refusal :=
  let d := s.die die
  if d.stage = .reset || d.faulted then .next s
  else
    let t := d.cycle.toNat
    let recent := d.mismatches.filter (fun m => decide (m ≤ t) && decide (t ≤ m + 2_000_000_000))
    let s1 := s.updDie die (fun d => { d with mismatches := d.mismatches ++ [t] })
    .next (if 2 ≤ recent.length then s1.dieFault die else s1)

/-- THERMAL_EVENT (R251): the die's hottest sensor reads celsius. -/
def execThermalEvent (die celsius : Nat) (s : State) : Host.Outcome State Fault Refusal :=
  let s1 := s.updDie die (fun d =>
    { d with celsius := celsius, onePort := if 95 < celsius then true else if celsius < 90 then false else d.onePort })
  .next (if 105 < celsius then s1.dieFault die else s1)

/-- CREEL_HOT_MODE_CHANGE (R135, R251): the mode changes at the next slot boundary. -/
def execCreelHotModeChange (die celsius : Nat) (s : State) : Host.Outcome State Fault Refusal :=
  .next (s.updDie die (fun d =>
    { d with creelCelsius := celsius
             hotNext := if 85 < celsius then some true else if celsius < 80 then some false else d.hotNext }))

/-- CREEL_REFRESH_WINDOW_END (R135): the accesses that waited for the window go on; refresh changes nothing else. -/
def execCreelRefreshWindowEnd (_die : Nat) (s : State) : Host.Outcome State Fault Refusal := .next s

/-- HOST_LINK_UP (R230, R231, R233): a legal generation, width and CXL level; held messages are sent in order. -/
def execHostLinkUp (l gen width cxl : Nat) (s : State) : Host.Outcome State Fault Refusal :=
  let legal := decide (l < 2) && [5, 6, 7].contains gen && [4, 8, 16].contains width && [0, 2, 3].contains cxl
  if !legal || s.dies.any (fun (d : Die) => d.stage == .reset) then .next s
  else
    let up : HostLink := { lstate := 2, gen := gen, width := width, cxl := cxl }
    let s1 : State := { s with hostSide := { s.hostSide with links := setAt s.hostSide.links l up }, msixHeld := [] }
    .next (s.msixHeld.foldl State.raise s1)

/-- HOST_LINK_DOWN (R231, R236): with no link UP, outstanding reads of host memory return poisoned data, each counted. -/
def execHostLinkDown (l : Nat) (s : State) : Host.Outcome State Fault Refusal :=
  let down : HostLink := { lstate := 0, gen := 0, width := 0, cxl := 0 }
  let s1 : State := { s with hostSide := { s.hostSide with links := setAt s.hostSide.links l down } }
  if s1.linkUp then .next s1
  else
    let open_ := s1.hostReads.filter (fun (h : HostRead) => h.answer.isNone)
    let s2 : State := { s1 with hostReads := updWhere (fun (h : HostRead) => h.answer.isNone) (fun h => { h with answer := some (false, []) }) s1.hostReads }
    .next (open_.foldl (fun s _ => s.countDrop) s2)

/-- A read of host memory is answered (R11); an atomic that waited for it is performed at once (R356). -/
def State.answerHost (s : State) (op : Nat) (ok : Bool) (data : List Byte) : State :=
  let s1 := { s with hostReads := updWhere (fun (h : HostRead) => h.op == op && h.answer.isNone)
                                    (fun h => { h with answer := some (ok && decide (data.length = h.bytes), data) }) s.hostReads }
  match s1.atomq.find? (fun r => r.ask == some op) with
  | some r => s1.serveReq r
  | none => s1

/-- HOST_READ_COMPLETION (R11): data, or Unsupported Request or Completer Abort. -/
def execHostReadCompletion (op : Nat) (data : List Byte) (ok : Bool) (s : State) : Host.Outcome State Fault Refusal :=
  .next (s.answerHost op ok data)

/-- HOST_COMPLETION_TIMEOUT (R11). -/
def execHostCompletionTimeout (op : Nat) (s : State) : Host.Outcome State Fault Refusal := .next (s.answerHost op false [])

/-- Whether the BAR2 window serves an access (R234, R245, R246). -/
def State.bar2Open (s : State) (off n : Nat) : Bool := decide (3 ≤ s.stageCode) && decide (off + n ≤ 2 ^ 36) && decide (0 < n)

/-- BAR2_READ (R234, R137, R11, R246). -/
def execBar2Read (off n : Nat) (s : State) : Host.Outcome State Fault Refusal :=
  let pa := s.hostSide.wbase.toNat + off
  if !s.bar2Open off n || (List.range n).any (fun i => s.kind (pa + i) == .hole) then .next (s.out .unsupported)
  else
    let s1 := s.serveLines ((List.range n).map (pa + ·))
    if s1.unreadable pa n then
      .next ((if s1.linkLost pa then s1.countDrop else s1).out (.bar2 (List.replicate n 0xFF) true))
    else .next (s1.out (.bar2 (s1.bytesAt (.pair 0) pa n) false))

/-- BAR2_WRITE (R234): dropped in a hole, and on a Creel chunk that is not LOADING. -/
def execBar2Write (off : Nat) (bytes : List Byte) (s : State) : Host.Outcome State Fault Refusal :=
  let pa := s.hostSide.wbase.toNat + off
  let dropped (a : Nat) : Bool := match s.kind a with
    | .hole => true
    | .creel _ => (s.chunk (creelChunk a)).1 != creelLoading
    | _ => false
  if !s.bar2Open off bytes.length || (List.range bytes.length).any (fun i => dropped (pa + i)) then .next s
  else .next ((s.serveLines ((List.range bytes.length).map (pa + ·))).writeEngineAt (.pair 0) pa (bytes.map (fun b => (b, false))))

/-- A register with the written part of a 64-bit word replaced. -/
def mergeReg (old value mask : W64) : W64 := (old &&& ~~~mask) ||| (value &&& mask)

/-- A write to a port window (R239): VEC, then ISOLATE, ENABLE and RETRAIN. -/
def State.writePort (s : State) (p : Nat) (v : W64) : State :=
  let then_ (o : Host.Outcome State Fault Refusal) (s : State) : State := match o with | .next t => t | _ => s
  let s1 := s.updPort p (fun x => { x with vec := v.extractLsb' 8 8 })
  let s2 := then_ (execPortIsolate p (v.getLsbD 2) s1) s1
  let s3 := if v.getLsbD 0 != (s2.port p).enable then then_ (execPortEnable p (v.getLsbD 0) s2) s2 else s2
  if v.getLsbD 1 then then_ (execRetrain p s3) s3 else s3

/-- The control register of a port window (R239). -/
def Port.control (x : Port) : W64 :=
  (x.vec.setWidth 64 <<< 8) ||| (if x.isolate then 4 else 0) ||| (if x.enable then 1 else 0)

/-- A third-tier range's ENABLE and LEN (R233). -/
def Range3.lenReg (r : Range3) : W64 := (if r.enable then (1 : W64) <<< 63 else 0) ||| BitVec.ofNat 64 r.len

/-- A write to a register of a third-tier range (R233, R235). -/
def State.writeRange (s : State) (i : Nat) (second : Bool) (v mask : W64) : State :=
  match s.hostSide.ranges[i]? with
  | none => s
  | some r =>
    let r1 : Range3 :=
      if second then
        let x := mergeReg r.lenReg v mask
        { r with enable := x.getLsbD 63, len := min 16384 (x.extractLsb' 0 18).toNat }
      else { r with hbase := mergeReg r.hbase v mask &&& ~~~0x3FFF_FFFF }
    { s with hostSide := { s.hostSide with ranges := setAt s.hostSide.ranges i r1 } }

/-- A write to the mailbox (R247). -/
def State.writeMailbox (s : State) (a : Nat) (v mask : W64) : State :=
  let waiting := s.stageCode == 3
  match a with
  | 0x18 => if waiting then
      { s with mailbox := { s.mailbox with fwaddr := mergeReg s.mailbox.fwaddr v mask &&& 0x000F_FFFF_FFFF_F000 } } else s
  | 0x20 => if waiting && mask.getLsbD 0 then { s with mailbox := { s.mailbox with fwlen := v.extractLsb' 0 32 } } else s
  | 0x28 => if (v &&& mask).getLsbD 0 then s.load else s
  | 0x38 => s.writeMgmtq (mergeReg s.mailbox.mgmtq v mask)
  | _ => s

/-- Bytes written to the MSI-X table (R232). -/
def State.writeMsix (s : State) (off size : Nat) (v : W64) : State :=
  { s with hostSide := { s.hostSide with msixTable := Kv.setRun (0 : Byte) s.hostSide.msixTable off (bytesOf size v.toNat) } }

/-- A host write to BAR0 (R232): v holds the written bytes in its lowest size bytes. -/
def State.hostWrite (s : State) (off size : Nat) (v : W64) : State :=
  if (size != 4 && size != 8) || off % size != 0 || decide (2 ^ 24 ≤ off) then s
  else
    let a := off / 8 * 8
    let shift := 8 * (off % 8)
    let mask : W64 := (if size = 8 then BitVec.allOnes 64 else 0xFFFF_FFFF) <<< shift
    let v := (v <<< shift) &&& mask
    let low := mask.getLsbD 0
    let c := (a / 4096) % 256
    let w := a % 4096
    let then_ (o : Host.Outcome State Fault Refusal) : State := match o with | .next t => t | _ => s
    if a < 0x1000 then s.writeMailbox a v mask
    else if s.stageCode = 2 then s
    else if 0x10_0000 ≤ a ∧ a < 0x20_0000 then
      (if w % 0x80 = 0 && low then then_ (execTailWrite c (w / 0x80) (v.extractLsb' 0 32) s) else s)
    else if 0x20_0000 ≤ a ∧ a < 0x30_0000 then
      (match w with
        | 0 => then_ (execResolveWrite c s)
        | 0x10 => (match s.ctx? c with | some x => then_ (execConsumedWrite c (mergeReg x.consumed v mask) s) | none => s)
        | _ => s)
    else if 0x40_0000 ≤ a ∧ a < 0x40_1000 then s.writeMsix (off - 0x40_0000) size (v >>> shift)
    else if 0x50_0000 ≤ a ∧ a < 0x50_0400 then
      (if a % 0x40 = 0 && low then s.writePort ((a - 0x50_0000) / 0x40) v else s)
    else if a = 0x60_0000 then
      { s with hostSide := { s.hostSide with wbase := mergeReg s.hostSide.wbase v mask &&& 0x000F_FFF0_0000_0000 } }
    else if 0x60_0100 ≤ a ∧ a < 0x60_0180 then s.writeRange ((a - 0x60_0100) / 16) (a % 16 == 8) v mask
    else s

/-- REGISTER_WRITE (R232). -/
def execRegisterWrite (off size : Nat) (value : BitVec 64) (s : State) : Host.Outcome State Fault Refusal := .next (s.hostWrite off size value)

/-! Attestation (R249), over MCTP (transport 0) and over the DOE of host link 0 or 1 (transports 1 and 2), each with its own session. A
request out of the order of the protocol, or outside the stages in which the device answers, is refused. What an answer carries beyond
what R249 gives is the protocol's (assumption log 11). -/

/-- The session on a transport. -/
def State.spdmOn (s : State) (carrier : Nat) : Spdm :=
  s.spdm.getD carrier { versionAsked := false, capsAsked := false, negotiated := false }

/-- Whether a request can reach the device: over MCTP always, over a host link while it is UP. -/
def State.spdmReaches (s : State) (carrier : Nat) : Bool :=
  carrier == 0 || (match s.hostSide.links[carrier - 1]? with | some l => l.lstate == 2 | none => false)

/-- Whether the device answers a request: from WAITFW onward; in HOLD only the first two. -/
def State.spdmOpen (s : State) (inHold : Bool) : Bool := decide (3 ≤ s.stageCode) || (inHold && s.stageCode == 2)

/-- Answer request code, where it is legal, with the session it leaves; else refuse it. Codes count R249's list from 1. -/
def State.spdmAnswer (s : State) (carrier code : Nat) (legal : Bool) (session : Spdm) (bytes : List Byte) : Host.Outcome State Fault Refusal :=
  if !s.spdmReaches carrier then .next s
  else if legal then .next { s with spdm := setAt s.spdm carrier session, outs := s.outs ++ [.answer code bytes] }
  else .next (s.out (.refusedRequest code))

/-- GET_VERSION: a new session; version 1.3, as a byte of two digits. -/
def execSpdmGetVersion (carrier : Nat) (s : State) : Host.Outcome State Fault Refusal :=
  s.spdmAnswer carrier 1 (s.spdmOpen true) { versionAsked := true, capsAsked := false, negotiated := false } [0x13]

/-- GET_CAPABILITIES: the requests the device supports, by their codes. -/
def execSpdmGetCapabilities (carrier : Nat) (s : State) : Host.Outcome State Fault Refusal :=
  s.spdmAnswer carrier 2 (s.spdmOpen true && (s.spdmOn carrier).versionAsked) { s.spdmOn carrier with capsAsked := true } ((List.range 7).map (fun i => BitVec.ofNat 8 (i + 1)))

/-- The algorithms the device selects, in the protocol's own bit numbers: signatures by Ed448 (bit 10), hashes by TPM_ALG_SHA3_512 (bit 5). -/
def spdmAlgorithms : List Byte := bytesOf 4 (2 ^ 10) ++ bytesOf 4 (2 ^ 5)

/-- NEGOTIATE_ALGORITHMS. -/
def execSpdmNegotiate (carrier : Nat) (s : State) : Host.Outcome State Fault Refusal :=
  s.spdmAnswer carrier 3 (s.spdmOpen false && (s.spdmOn carrier).capsAsked) { s.spdmOn carrier with negotiated := true } spdmAlgorithms

/-- Whether a session has come far enough for the other requests. -/
def State.spdmReady (s : State) (carrier : Nat) : Bool := s.spdmOpen false && (s.spdmOn carrier).negotiated

/-- GET_DIGESTS: the hash of the certificate chain. -/
def execSpdmGetDigests (carrier : Nat) (s : State) : Host.Outcome State Fault Refusal :=
  s.spdmAnswer carrier 4 (s.spdmReady carrier) (s.spdmOn carrier) (sha3_512 Config.certificate)

/-- GET_CERTIFICATE: the chain. -/
def execSpdmGetCertificate (carrier : Nat) (s : State) : Host.Outcome State Fault Refusal :=
  s.spdmAnswer carrier 5 (s.spdmReady carrier) (s.spdmOn carrier) Config.certificate

/-- The secret bytes of the identity key (R249). -/
def identitySecret : List Byte := (List.range 57).map Config.identityKey

/-- An answer that the identity key signs (R249): what it says, then the Ed448 signature over it. -/
def State.spdmSigned (s : State) (carrier code : Nat) (legal : Bool) (bytes : List Byte) : Host.Outcome State Fault Refusal :=
  s.spdmAnswer carrier code legal (s.spdmOn carrier) (bytes ++ ed448Sign identitySecret bytes)

/-- CHALLENGE. -/
def execSpdmChallenge (carrier : Nat) (nonce : List Byte) (s : State) : Host.Outcome State Fault Refusal :=
  s.spdmSigned carrier 6 (s.spdmReady carrier) nonce

/-- A measurement (R249): the boot ROM's hash, the digest of the verified image, the repair map's hash. -/
def State.measurement (s : State) (index : Nat) : List Byte :=
  match index with
  | 1 => sha3_512 Config.bootRom
  | 2 => if s.stageCode = 5 then shake256 s.fwImage 64 else []
  | _ => sha3_512 (Config.repairMap (s.dies.map (·.repairs)) s.coreRows)

/-- GET_MEASUREMENTS: indexes 1 to 3. -/
def execSpdmGetMeasurements (carrier index : Nat) (s : State) : Host.Outcome State Fault Refusal :=
  s.spdmSigned carrier 7 (s.spdmReady carrier && decide (1 ≤ index) && decide (index ≤ 3)) (bytesOf 1 index ++ s.measurement index)

/-- MCTP_STAGE_QUERY (R246): the stage and the failing unit. -/
def execMctpStageQuery (s : State) : Host.Outcome State Fault Refusal :=
  .next (s.out (.stage s.stageCode (s.mailbox.test.toNat * 2 ^ 24 + s.mailbox.die.toNat * 2 ^ 16 + s.mailbox.unit.toNat)))

/-- L1_EVICTION (R125). -/
def execL1Eviction (core line : Nat) (s : State) : Host.Outcome State Fault Refusal := .next (s.evictLine core line)

/-- UNCORRECTABLE_ERROR (R137, R161): the unit is poisoned; a line is reported to the driver. -/
def execUncorrectableError (unit : PoisonUnit) (s : State) : Host.Outcome State Fault Refusal :=
  match unit with
  | .line pa => .next (s.poisonLines [pa / 128])
  | .padWord core off => .next (s.poisonPad [State.padKey core off / 8])
  | .row core r => .next { s with poison := { s.poison with rows := (s.poison.rows ++ [core * 2048 + r]).eraseDups } }

end Sys2Proof.Machine
end

