-- ==== Sys2Proof/Machine/Bar0.lean ====
section
/-! DEFINITION. What the host reads through BAR0 (R232): the mailbox (R247), the capacity table and context status windows (R214), the
queue windows (R50), the resolve windows (R164), the MSI-X table, the Plait port windows (R239), the host-side registers (R233).
No step of the machine reads BAR0: these reads change nothing. -/

namespace Sys2Proof.Machine

/-- STATE of a context's status window (R214). -/
def CtxState.code : CtxState → Nat
  | .allocated => 1
  | .runnable => 2
  | .running => 3
  | .suspending => 4
  | .suspended => 5
  | .faulted => 6
  | .terminated => 7

/-- STATE of a queue window (R52). -/
def HqState.code : HqState → Nat
  | .empty => 0
  | .fetching => 1
  | .stalled => 2
  | .full => 3
  | .halted => 4
  | .dead => 5

namespace State

/-- A mailbox register (R247). -/
def mailboxReg (s : State) (a : Nat) : W64 :=
  let m := s.mailbox
  match a with
  | 0x00 => BitVec.ofNat 64 s.stageCode
  | 0x08 => (m.test.setWidth 64 <<< 24) ||| (m.die.setWidth 64 <<< 16) ||| m.unit.setWidth 64
  | 0x10 => m.repairs.setWidth 64
  | 0x18 => m.fwaddr
  | 0x20 => m.fwlen.setWidth 64
  | 0x30 => m.fwstatus.setWidth 64
  | 0x38 => m.mgmtq
  | 0x40 => BitVec.ofNat 64 (natOf (s.dies.map (fun d => BitVec.ofNat 8 d.celsius)))
  | 0x48 => m.linkdrop.setWidth 64 ||| BitVec.ofNat 64 ((s.dies.zipIdx.map (fun d => if d.1.faulted then 2 ^ (32 + d.2) else 0)).foldl (· + ·) 0)
  | _ => 0

/-- A register of a queue window (R50). -/
def queueReg (q : HostQueue) (o : Nat) : W64 :=
  match o with
  | 0x00 => q.tail.setWidth 64
  | 0x08 => q.fetch.setWidth 64
  | 0x10 => q.retire.setWidth 64
  | 0x18 => BitVec.ofNat 64 (q.state.code + (if q.longstall then 8 else 0) + (if q.badtail then 16 else 0))
  | _ => 0

/-- A register of a context's status window (R214). -/
def ctxReg (x : Ctx) (o : Nat) : W64 :=
  match o with
  | 0x00 => BitVec.ofNat 64 x.state.code
  | 0x08 => x.cause.setWidth 64
  | 0x10 => x.tpc
  | 0x18 => x.tval
  | 0x20 => x.need
  | _ => 0

/-- A register of a resolve window (R164); RESOLVE reads 0. -/
def resolveReg (x : Ctx) (o : Nat) : W64 :=
  match o with
  | 0x08 => BitVec.ofNat 64 x.requests.length
  | 0x10 => x.consumed
  | _ => 0

/-- A register of a port window (R239); RETRAIN reads 0. -/
def portReg (x : Port) (o : Nat) : W64 :=
  match o with
  | 0x00 => x.control
  | 0x08 => BitVec.ofNat 64 (x.lanes * 16 + x.state.code)
  | 0x10 => (x.peerId.setWidth 64 <<< 8) ||| x.peerPort.setWidth 64
  | 0x18 => x.replays.setWidth 64
  | _ => 0

/-- LSTATE, GEN, WIDTH and CXL of a host link (R233). -/
def linkReg (l : HostLink) : W64 := BitVec.ofNat 64 (l.lstate + l.gen * 16 + l.width * 256 + l.cxl * 2 ^ 17)

/-- The 64-bit register at an 8-byte offset of BAR0 (R232); an offset that is not listed reads 0, and in HOLD only the mailbox answers. -/
def bar0Reg (s : State) (a : Nat) : W64 :=
  let c := (a / 4096) % 256
  let w := a % 4096
  if a < 0x1000 then s.mailboxReg a
  else if s.stageCode = 2 then 0
  else if 0x8000 ≤ a ∧ a < 0x8800 then BitVec.ofNat 64 (s.coreRows.getD ((a - 0x8000) / 8) 0)
  else if 0x10_0000 ≤ a ∧ a < 0x20_0000 then (match s.hq? c (w / 0x80) with | some q => queueReg q (w % 0x80) | none => 0)
  else if 0x20_0000 ≤ a ∧ a < 0x30_0000 then (match s.ctx? c with | some x => resolveReg x w | none => 0)
  else if 0x30_0000 ≤ a ∧ a < 0x40_0000 then (match s.ctx? c with | some x => ctxReg x w | none => 0)
  else if 0x40_0000 ≤ a ∧ a < 0x40_1000 then BitVec.ofNat 64 (natOf (Kv.getRun (0 : Byte) s.hostSide.msixTable (a - 0x40_0000) 8))
  else if 0x40_1000 ≤ a ∧ a < 0x40_1020 then
    BitVec.ofNat 64 (((List.range 64).map (fun b => if s.msixHeld.contains (8 * (a - 0x40_1000) + b) then 2 ^ b else 0)).foldl (· + ·) 0)
  else if 0x50_0000 ≤ a ∧ a < 0x50_0400 then portReg (s.port ((a - 0x50_0000) / 0x40)) (a % 0x40)
  else if a = 0x60_0000 then s.hostSide.wbase
  else if a = 0x60_0010 ∨ a = 0x60_0018 then (match s.hostSide.links[(a - 0x60_0010) / 8]? with | some l => linkReg l | none => 0)
  else if 0x60_0100 ≤ a ∧ a < 0x60_0180 then
    (match s.hostSide.ranges[(a - 0x60_0100) / 16]? with | some r => if a % 16 = 8 then r.lenReg else r.hbase | none => 0)
  else 0

/-- What a host read of BAR0 returns (R232): only 4- and 8-byte aligned accesses are accepted. -/
def bar0Read (s : State) (off size : Nat) : W64 :=
  if (size != 4 && size != 8) || off % size != 0 || decide (2 ^ 24 ≤ off) then 0
  else
    let v := s.bar0Reg (off / 8 * 8)
    if size = 8 then v else ((v >>> (8 * (off % 8))).extractLsb' 0 32).setWidth 64

end State

end Sys2Proof.Machine
end

