-- ==== Sys2Proof/Machine/IntOps.lean ====
section
/-! DEFINITION. The INT class (R297-R307): one meaning for each opcode over the shared run of a register instruction. -/

namespace Sys2Proof.Machine

/-- An exact integer operation settled element by element (R297, R298). -/
def intElems (e : OpEnv) (op : Int → Int → Int → Int) (a b c : Nat) : Nat :=
  let w := (elemsOf e.ty).1
  let sg := tySigned e.ty
  mapElems e.ty (fun x y z => settleInt e.sat sg w (op (intOf sg w x) (intOf sg w y) (intOf sg w z))) a b c

def opAdd (e : OpEnv) (a b _ : Nat) : Nat := intElems e (fun x y _ => x + y) a b 0
def opSub (e : OpEnv) (a b _ : Nat) : Nat := intElems e (fun x y _ => x - y) a b 0
def opMul (e : OpEnv) (a b _ : Nat) : Nat := intElems e (fun x y _ => x * y) a b 0
def opMad (e : OpEnv) (a b c : Nat) : Nat := intElems e (fun x y z => x * y + z) a b c
def opAbs (e : OpEnv) (a _ _ : Nat) : Nat := intElems e (fun x _ _ => (x.natAbs : Int)) a 0 0
def opNeg (e : OpEnv) (a _ _ : Nat) : Nat := intElems e (fun x _ _ => -x) a 0 0

/-- Bits 2w-1:w of the exact product (R297). -/
def opMulh (e : OpEnv) (a b _ : Nat) : Nat :=
  let w := (elemsOf e.ty).1
  let sg := tySigned e.ty
  settleInt false sg w ((intOf sg w a * intOf sg w b) / (2 ^ w : Int))

def opMin (e : OpEnv) (a b _ : Nat) : Nat := intElems { e with sat := false } (fun x y _ => min x y) a b 0
def opMax (e : OpEnv) (a b _ : Nat) : Nat := intElems { e with sat := false } (fun x y _ => max x y) a b 0

/-- The width of a scalar type. -/
def OpEnv.w (e : OpEnv) : Nat := (elemsOf e.ty).1

/-- The value that keeps the low bits of the type's width. -/
def OpEnv.low (e : OpEnv) (x : Nat) : Nat := x % 2 ^ e.w

def opAnd (e : OpEnv) (a b _ : Nat) : Nat := e.low (a &&& b)
def opOr (e : OpEnv) (a b _ : Nat) : Nat := e.low (a ||| b)
def opXor (e : OpEnv) (a b _ : Nat) : Nat := e.low (a ^^^ b)
def opNot (e : OpEnv) (a _ _ : Nat) : Nat := 2 ^ e.w - 1 - e.low a
def opAndn (e : OpEnv) (a b _ : Nat) : Nat := e.low (a &&& (2 ^ e.w - 1 - e.low b))

/-- A shift amount is read as n32 (R299). -/
def shiftAmount (b : Nat) : Nat := b % 2 ^ 32

def opShl (e : OpEnv) (a b _ : Nat) : Nat := if e.w ≤ shiftAmount b then 0 else e.low (e.low a <<< shiftAmount b)
def opShr (e : OpEnv) (a b _ : Nat) : Nat := if e.w ≤ shiftAmount b then 0 else e.low a >>> shiftAmount b
def opSar (e : OpEnv) (a b _ : Nat) : Nat :=
  settleInt false false e.w (intOf true e.w a / (2 ^ min (shiftAmount b) (e.w - 1) : Int))

/-- Rotate left by r of a w-bit value. -/
def rotl (w x r : Nat) : Nat := ((x <<< r) % 2 ^ w) ||| (x >>> (w - r))

def opRol (e : OpEnv) (a b _ : Nat) : Nat := rotl e.w (e.low a) (shiftAmount b % e.w)
def opRor (e : OpEnv) (a b _ : Nat) : Nat := rotl e.w (e.low a) ((e.w - shiftAmount b % e.w) % e.w)

def opPopc (e : OpEnv) (a _ _ : Nat) : Nat := ((List.range e.w).filter (fun i => a.testBit i)).length
def opClz (e : OpEnv) (a _ _ : Nat) : Nat := if e.low a = 0 then e.w else e.w - 1 - Nat.log2 (e.low a)
def opCtz (e : OpEnv) (a _ _ : Nat) : Nat := ((List.range e.w).find? (fun i => a.testBit i)).getD e.w
def opBrev (e : OpEnv) (a _ _ : Nat) : Nat :=
  packBits 1 ((List.range e.w).map (fun i => if a.testBit (e.w - 1 - i) then 1 else 0))

/-- pos and n of a bit-field control (R301). -/
def fieldControl (w c : Nat) : Nat × Nat :=
  let pos := c % 256
  let len := (c / 256) % 256
  (pos, if w ≤ pos then 0 else min len (w - pos))

def opBfx (e : OpEnv) (a b _ : Nat) : Nat :=
  let (pos, n) := fieldControl e.w b
  let f := (e.low a >>> pos) % 2 ^ n
  if n = 0 then 0 else if tySigned e.ty then settleInt false false e.w (intOf true n f) else f

def opBfi (e : OpEnv) (a b c : Nat) : Nat :=
  let (pos, n) := fieldControl e.w c
  let mask := if n = 0 then 0 else (2 ^ n - 1) <<< pos
  (e.low a &&& (2 ^ e.w - 1 - mask)) ||| ((e.low b <<< pos) &&& mask)

def opMov (e : OpEnv) (_ b _ : Nat) : Nat := e.low b

/-- a + (zero_extend(b) << AUX 2:0) (R306). -/
def opLea (e : OpEnv) (a b _ : Nat) : Nat := e.low (a + ((b % 2 ^ 32) <<< (e.aux % 8)))

/-- a + IMM32, extended by type (R306). -/
def opLeaImm (e : OpEnv) (a b _ : Nat) : Nat := e.low (a + b)

/-- The 32-bit source of IADDW and ISUBW, extended by TYPE (R306). -/
def wideSource (e : OpEnv) (b : Nat) : Int := intOf (tySigned e.ty) 32 b
def opAddw (e : OpEnv) (a b _ : Nat) : Nat := settleInt false false 64 ((a : Int) + wideSource e b)
def opSubw (e : OpEnv) (a b _ : Nat) : Nat := settleInt false false 64 ((a : Int) - wideSource e b)

/-- The Morton interleaving of R307 with k bits on each axis. -/
def mortonKey (k a b c : Nat) : Nat :=
  packBits 3 ((List.range k).map (fun i =>
    (if a.testBit i then 1 else 0) + (if b.testBit i then 2 else 0) + (if c.testBit i then 4 else 0)))

/-- One axis of a Morton key (R307). -/
def mortonAxis (axis key : Nat) : Nat := packBits 1 ((List.range 21).map (fun i => if key.testBit (3 * i + axis) then 1 else 0))

def opMort (e : OpEnv) (a b c : Nat) : Nat := mortonKey (if e.aux % 32 = 0 then 21 else e.aux % 32) a b c
def opUnmort (e : OpEnv) (a _ _ : Nat) : Nat := mortonAxis (e.aux % 4) a

/-- PRMT (R302). -/
def opPrmt (_ : OpEnv) (a b c : Nat) : Nat :=
  let pool := (a % 2 ^ 32) + (b % 2 ^ 32) * 2 ^ 32
  packBits 8 ((List.range 4).map (fun j =>
    let sel := streamElem 4 c j
    let x := streamElem 8 pool (sel % 8)
    if sel < 8 then x else if x.testBit 7 then 0xFF else 0))

def execIadd (f : FmtV) (s : State) : Host.Outcome State Fault Refusal := s.runV f .t .t .t .none (.lin true) false opAdd
def execIaddImm (f : FmtI) (s : State) : Host.Outcome State Fault Refusal :=
  s.runI f .t .t (.lin true) false (immValue f.ty f.imm) opAdd
def execIsub (f : FmtV) (s : State) : Host.Outcome State Fault Refusal := s.runV f .t .t .t .none (.lin true) false opSub
def execIsubImm (f : FmtI) (s : State) : Host.Outcome State Fault Refusal :=
  s.runI f .t .t (.lin true) false (immValue f.ty f.imm) opSub
def execImul (f : FmtV) (s : State) : Host.Outcome State Fault Refusal := s.runV f .t .t .t .none .mul false opMul
def execImulImm (f : FmtI) (s : State) : Host.Outcome State Fault Refusal :=
  s.runI f .t .t .mul false (immValue f.ty f.imm) opMul
def execImulh (f : FmtV) (s : State) : Host.Outcome State Fault Refusal := s.runV f .t .t .t .none .never false opMulh
def execImad (f : FmtV) (s : State) : Host.Outcome State Fault Refusal := s.runV f .t .t .t .t .mad false opMad
def execImin (f : FmtV) (s : State) : Host.Outcome State Fault Refusal := s.runV f .t .t .t .none .never false opMin
def execIminImm (f : FmtI) (s : State) : Host.Outcome State Fault Refusal :=
  s.runI f .t .t .never false (immValue f.ty f.imm) opMin
def execImax (f : FmtV) (s : State) : Host.Outcome State Fault Refusal := s.runV f .t .t .t .none .never false opMax
def execImaxImm (f : FmtI) (s : State) : Host.Outcome State Fault Refusal :=
  s.runI f .t .t .never false (immValue f.ty f.imm) opMax
def execIabs (f : FmtV) (s : State) : Host.Outcome State Fault Refusal := s.runV f .t .t .none .none .never false opAbs
def execIneg (f : FmtV) (s : State) : Host.Outcome State Fault Refusal := s.runV f .t .t .none .none (.lin true) false opNeg
def execLand (f : FmtV) (s : State) : Host.Outcome State Fault Refusal := s.runV f .t .t .t .none .never false opAnd
def execLandImm (f : FmtI) (s : State) : Host.Outcome State Fault Refusal :=
  s.runI f .t .t .never false (immValue f.ty f.imm) opAnd
def execLor (f : FmtV) (s : State) : Host.Outcome State Fault Refusal := s.runV f .t .t .t .none .never false opOr
def execLorImm (f : FmtI) (s : State) : Host.Outcome State Fault Refusal :=
  s.runI f .t .t .never false (immValue f.ty f.imm) opOr
def execLxor (f : FmtV) (s : State) : Host.Outcome State Fault Refusal := s.runV f .t .t .t .none .never false opXor
def execLxorImm (f : FmtI) (s : State) : Host.Outcome State Fault Refusal :=
  s.runI f .t .t .never false (immValue f.ty f.imm) opXor
def execLandn (f : FmtV) (s : State) : Host.Outcome State Fault Refusal := s.runV f .t .t .t .none .never false opAndn
def execLandnImm (f : FmtI) (s : State) : Host.Outcome State Fault Refusal :=
  s.runI f .t .t .never false (immValue f.ty f.imm) opAndn
def execLnot (f : FmtV) (s : State) : Host.Outcome State Fault Refusal := s.runV f .t .t .none .none (.lin false) false opNot
def execShl (f : FmtV) (s : State) : Host.Outcome State Fault Refusal := s.runV f .t .t .v .none .shl false opShl
def execShlImm (f : FmtI) (s : State) : Host.Outcome State Fault Refusal :=
  s.runI f .t .t .shl false (f.imm.setWidth 64) opShl
def execShr (f : FmtV) (s : State) : Host.Outcome State Fault Refusal := s.runV f .t .t .v .none .never false opShr
def execShrImm (f : FmtI) (s : State) : Host.Outcome State Fault Refusal :=
  s.runI f .t .t .never false (f.imm.setWidth 64) opShr
def execSar (f : FmtV) (s : State) : Host.Outcome State Fault Refusal := s.runV f .t .t .v .none .never false opSar
def execSarImm (f : FmtI) (s : State) : Host.Outcome State Fault Refusal :=
  s.runI f .t .t .never false (f.imm.setWidth 64) opSar
def execRol (f : FmtV) (s : State) : Host.Outcome State Fault Refusal := s.runV f .t .t .v .none .never false opRol
def execRolImm (f : FmtI) (s : State) : Host.Outcome State Fault Refusal :=
  s.runI f .t .t .never false (f.imm.setWidth 64) opRol
def execRor (f : FmtV) (s : State) : Host.Outcome State Fault Refusal := s.runV f .t .t .v .none .never false opRor
def execRorImm (f : FmtI) (s : State) : Host.Outcome State Fault Refusal :=
  s.runI f .t .t .never false (f.imm.setWidth 64) opRor
def execPopc (f : FmtV) (s : State) : Host.Outcome State Fault Refusal := s.runV f .v .t .none .none .never false opPopc
def execClz (f : FmtV) (s : State) : Host.Outcome State Fault Refusal := s.runV f .v .t .none .none .never false opClz
def execCtz (f : FmtV) (s : State) : Host.Outcome State Fault Refusal := s.runV f .v .t .none .none .never false opCtz
def execBrev (f : FmtV) (s : State) : Host.Outcome State Fault Refusal := s.runV f .t .t .none .none .never false opBrev
def execBfx (f : FmtV) (s : State) : Host.Outcome State Fault Refusal := s.runV f .t .t .v .none .never false opBfx
def execBfi (f : FmtV) (s : State) : Host.Outcome State Fault Refusal := s.runV f .t .t .t .v .never false opBfi
def execMov (f : FmtV) (s : State) : Host.Outcome State Fault Refusal := s.runV f .t .none .t .none (.lin false) false opMov
def execMovi (f : FmtI) (s : State) : Host.Outcome State Fault Refusal :=
  s.runI f .t .none (.lin false) false (immValue f.ty f.imm) opMov
def execLea (f : FmtV) (s : State) : Host.Outcome State Fault Refusal := s.runV f .t .t .v .none (.lin false) false opLea
def execLeaImm (f : FmtI) (s : State) : Host.Outcome State Fault Refusal :=
  s.runI f .t .t (.lin false) false (immValue f.ty f.imm) opLeaImm
def execIaddw (f : FmtV) (s : State) : Host.Outcome State Fault Refusal := s.runV f .w .w .v .none .never false opAddw
def execIaddwImm (f : FmtI) (s : State) : Host.Outcome State Fault Refusal :=
  s.runI f .w .w .never false (f.imm.setWidth 64) opAddw
def execIsubw (f : FmtV) (s : State) : Host.Outcome State Fault Refusal := s.runV f .w .w .v .none .never false opSubw
def execMort (f : FmtV) (s : State) : Host.Outcome State Fault Refusal := s.runV f .w .v .v .v .never false opMort
def execUnmort (f : FmtV) (s : State) : Host.Outcome State Fault Refusal := s.runV f .v .w .none .none .never false opUnmort
def execPrmt (f : FmtV) (s : State) : Host.Outcome State Fault Refusal := s.runV f .v .v .v .v .never false opPrmt

/-- A V-form compare (R303, R304, R310). -/
def State.runCmp (s : State) (f : FmtV) (o : Opd) (ordered : W64 → W64 → Option Ordering) : Host.Outcome State Fault Refusal :=
  s.runWord (fun s _ u =>
    let a := (s.regSource u o f.ty f.a.toNat).negated f.nega f.ty
    let b := (s.lselSource u o f.ty f.b.toNat f.lsel.toNat).negated f.negb f.ty
    s.cmpResult u (u.guard f.pred f.pneg) f.d a b ordered)

def execIcmp (f : FmtV) (s : State) : Host.Outcome State Fault Refusal :=
  s.runCmp f .t (fun a b => intOrder (tySigned f.ty) 32 a.toNat b.toNat)
def execIcmpImm (f : FmtI) (s : State) : Host.Outcome State Fault Refusal :=
  s.runWord (fun s _ u =>
    s.cmpResult u (u.guard f.pred f.pneg) f.d (s.regSource u .t f.ty f.a.toNat) (constSource (f.imm.setWidth 64))
      (fun a b => intOrder (tySigned f.ty) 32 a.toNat b.toNat))
def execIcmpw (f : FmtV) (s : State) : Host.Outcome State Fault Refusal :=
  s.runCmp f .w (fun a b => intOrder (tySigned f.ty) 64 a.toNat b.toNat)

/-- SEL (R305): any source G gives G; otherwise the shape is the chosen source's when the predicate of C is U (R97). -/
def execSel (f : FmtV) (s : State) : Host.Outcome State Fault Refusal :=
  s.runWord (fun s _ u =>
    let g := u.guard f.pred f.pneg
    let wide := f.ty.wide
    let a := s.regSource u .t f.ty f.a.toNat
    let b := s.lselSource u .t f.ty f.b.toNat f.lsel.toNat
    let p := u.preg f.c.toNat
    let x (i : Nat) : W64 := if p.holds i (i - u.lo) then a.at_ i else b.at_ i
    match p with
    | .u c =>
      let src := if c then a else b
      let anyG := (!a.isU && a.shape.isG) || (!b.isU && b.shape.isG)
      s.result u g wide f.d.toNat (src.isU && !anyG) (affineTy f.ty && !anyG) src.at_ .done
    | _ => s.result u g wide f.d.toNat false false x .done)

end Sys2Proof.Machine
end

