-- ==== Sys2Proof/Machine/FloatOps.lean ====
section
/-! DEFINITION. The FLT and SFU classes (R308-R318). -/

namespace Sys2Proof.Machine

/-- A floating-point operation element by element. -/
def floatElems (e : OpEnv) (op : Ffmt → Nat → Nat → Nat → Nat) (a b c : Nat) : Nat := mapElems e.ty (op (tyFfmt e.ty)) a b c

def opFadd (e : OpEnv) : Nat → Nat → Nat → Nat := floatElems e (fun f a b _ => f.add e.rm e.sat a b)
def opFsub (e : OpEnv) : Nat → Nat → Nat → Nat := floatElems e (fun f a b _ => f.sub e.rm e.sat a b)
def opFmul (e : OpEnv) : Nat → Nat → Nat → Nat := floatElems e (fun f a b _ => f.mul e.rm e.sat a b)
def opFfma (e : OpEnv) : Nat → Nat → Nat → Nat := floatElems e (fun f a b c => f.fma e.rm e.sat a b c)
def opFmin (e : OpEnv) : Nat → Nat → Nat → Nat := floatElems e (fun f a b _ => f.minMax false e.sat a b)
def opFmax (e : OpEnv) : Nat → Nat → Nat → Nat := floatElems e (fun f a b _ => f.minMax true e.sat a b)
def opFrnd (e : OpEnv) : Nat → Nat → Nat → Nat := floatElems e (fun f a _ _ => f.integral e.rm e.sat a)
def opFclass (e : OpEnv) (a _ _ : Nat) : Nat := (tyFfmt e.ty).classMask (a % 2 ^ (elemsOf e.ty).1)
def opFscale (e : OpEnv) (a b _ : Nat) : Nat := (tyFfmt e.ty).scale e.rm e.sat (a % 2 ^ (elemsOf e.ty).1) (intOf true 32 b)
def opFdot2 (e : OpEnv) (a b c : Nat) : Nat :=
  dot2 (tyFfmt e.ty) e.rm e.sat (streamElem 16 a 0) (streamElem 16 b 0) (streamElem 16 a 1) (streamElem 16 b 1) (c % 2 ^ 32)

def execFadd (f : FmtV) (s : State) : Host.Outcome State Fault Refusal := s.runV f .t .t .t .none .never false opFadd
def execFaddImm (f : FmtI) (s : State) : Host.Outcome State Fault Refusal :=
  s.runI f .t .t .never false (immValue f.ty f.imm) opFadd
def execFsub (f : FmtV) (s : State) : Host.Outcome State Fault Refusal := s.runV f .t .t .t .none .never false opFsub
def execFmul (f : FmtV) (s : State) : Host.Outcome State Fault Refusal := s.runV f .t .t .t .none .never false opFmul
def execFmulImm (f : FmtI) (s : State) : Host.Outcome State Fault Refusal :=
  s.runI f .t .t .never false (immValue f.ty f.imm) opFmul
def execFfma (f : FmtV) (s : State) : Host.Outcome State Fault Refusal := s.runV f .t .t .t .t .never false opFfma
def execFfmaImm (f : FmtI) (s : State) : Host.Outcome State Fault Refusal :=
  s.runI f .t .t .never true (immValue f.ty f.imm) opFfma
def execFmin (f : FmtV) (s : State) : Host.Outcome State Fault Refusal := s.runV f .t .t .t .none .never false opFmin
def execFmax (f : FmtV) (s : State) : Host.Outcome State Fault Refusal := s.runV f .t .t .t .none .never false opFmax
def execFcmp (f : FmtV) (s : State) : Host.Outcome State Fault Refusal :=
  s.runCmp f .t (fun a b => floatOrder (tyFfmt f.ty) (a.toNat % 2 ^ (tyFfmt f.ty).width) (b.toNat % 2 ^ (tyFfmt f.ty).width))
def execFcmpImm (f : FmtI) (s : State) : Host.Outcome State Fault Refusal :=
  s.runWord (fun s _ u =>
    s.cmpResult u (u.guard f.pred f.pneg) f.d (s.regSource u .t f.ty f.a.toNat) (constSource (immValue f.ty f.imm))
      (fun a b => floatOrder (tyFfmt f.ty) a.toNat b.toNat))
def execFclass (f : FmtV) (s : State) : Host.Outcome State Fault Refusal := s.runV f .v .t .none .none .never false opFclass
def execFrnd (f : FmtV) (s : State) : Host.Outcome State Fault Refusal := s.runV f .t .t .none .none .never false opFrnd
def execFdot2 (f : FmtV) (s : State) : Host.Outcome State Fault Refusal := s.runV f .v .v .v .v .never false opFdot2
def execFscale (f : FmtV) (s : State) : Host.Outcome State Fault Refusal := s.runV f .t .t .v .none .never false opFscale

/-- A special function of A (R314-R316). -/
def opSfu (op : SfuOp) (e : OpEnv) (a _ _ : Nat) : Nat := op.eval (tyFfmt e.ty) e.sat (a % 2 ^ (elemsOf e.ty).1)
def opSqrt (e : OpEnv) (a _ _ : Nat) : Nat := (tyFfmt e.ty).sqrt e.rm e.sat (a % 2 ^ (elemsOf e.ty).1)
def opFdiv (e : OpEnv) (a b _ : Nat) : Nat :=
  (tyFfmt e.ty).div e.rm e.sat (a % 2 ^ (elemsOf e.ty).1) (b % 2 ^ (elemsOf e.ty).1)

/-- IDIV (R318). -/
def opIdiv (e : OpEnv) (a b _ : Nat) : Nat :=
  let sg := tySigned e.ty
  let x := intOf sg e.w a
  let y := intOf sg e.w b
  if y = 0 then 2 ^ e.w - 1 else settleInt false sg e.w (Int.tdiv x y)

/-- IREM (R318). -/
def opIrem (e : OpEnv) (a b _ : Nat) : Nat :=
  let sg := tySigned e.ty
  let x := intOf sg e.w a
  let y := intOf sg e.w b
  if y = 0 then 0 else settleInt false sg e.w (Int.tmod x y)

def execRcp (f : FmtV) (s : State) : Host.Outcome State Fault Refusal := s.runV f .t .t .none .none .never true (opSfu .rcp)
def execRsq (f : FmtV) (s : State) : Host.Outcome State Fault Refusal := s.runV f .t .t .none .none .never true (opSfu .rsq)
def execSqrt (f : FmtV) (s : State) : Host.Outcome State Fault Refusal := s.runV f .t .t .none .none .never true opSqrt
def execExp2 (f : FmtV) (s : State) : Host.Outcome State Fault Refusal := s.runV f .t .t .none .none .never true (opSfu .exp2)
def execLog2 (f : FmtV) (s : State) : Host.Outcome State Fault Refusal := s.runV f .t .t .none .none .never true (opSfu .log2)
def execSin (f : FmtV) (s : State) : Host.Outcome State Fault Refusal := s.runV f .t .t .none .none .never true (opSfu .sin)
def execCos (f : FmtV) (s : State) : Host.Outcome State Fault Refusal := s.runV f .t .t .none .none .never true (opSfu .cos)
def execTanh (f : FmtV) (s : State) : Host.Outcome State Fault Refusal := s.runV f .t .t .none .none .never true (opSfu .tanh)
def execFdiv (f : FmtV) (s : State) : Host.Outcome State Fault Refusal := s.runV f .t .t .t .none .never true opFdiv
def execIdiv (f : FmtV) (s : State) : Host.Outcome State Fault Refusal := s.runV f .t .t .t .none .never true opIdiv
def execIrem (f : FmtV) (s : State) : Host.Outcome State Fault Refusal := s.runV f .t .t .t .none .never true opIrem

end Sys2Proof.Machine
end

