-- ==== Sys2Proof/Machine/CvtOps.lean ====
section
/-! DEFINITION. The CVT class (R319-R327): conversions, packing, the block quantisers and the scale registers. -/

namespace Sys2Proof.Machine

/-- CVT (R319): the source type stands in AUX 4:0. -/
def execCvt (f : FmtV) (s : State) : Host.Outcome State Fault Refusal :=
  s.runWord (fun s _ u =>
    let src := Ty.ofCode (f.aux.extractLsb' 0 5)
    let a := s.regSource u .t src f.a.toNat
    let sat := u.satOn f.sat
    let x (i : Nat) : W64 := BitVec.ofNat 64 (convert (Rm.ofMode f.mode u.fmode) sat src f.ty (a.at_ i).toNat)
    s.result u (u.guard f.pred f.pneg) f.ty.wide f.d.toNat a.isU false x .done)

/-- One element of PACK (R320): the scalar type it is narrowed to, and the type its source is read as. -/
def packElem (t : Ty) : Ty × Ty :=
  match t with
  | .s16x2 => (.s16, .s32)
  | .n16x2 => (.n16, .n32)
  | .f16x2 => (.f16, .f32)
  | .bf16x2 => (.bf16, .f32)
  | .s8x4 => (.s8, .s32)
  | .n8x4 => (.n8, .n32)
  | t => (t, .f32)

/-- PACK (R320). -/
def execPack (f : FmtV) (s : State) : Host.Outcome State Fault Refusal :=
  s.runWord (fun s _ u =>
    let (el, src) := packElem f.ty
    let a := f.a.toNat
    let regs := if packsFour f.ty then [a, a + 1, a + 2, a + 3] else [a, f.b.toNat]
    let rm := Rm.ofMode f.mode u.fmode
    let sat := u.satOn f.sat
    let x (i : Nat) : W64 :=
      BitVec.ofNat 64 (packBits (tyBits el) (regs.map (fun r => convert rm sat src el (s.vAt u r i).toNat)))
    s.result u (u.guard f.pred f.pneg) false f.d.toNat (regs.all (fun r => u.vIsU r)) false x .done)

/-- UNPK (R321): exact, with no saturation. -/
def execUnpk (f : FmtV) (s : State) : Host.Outcome State Fault Refusal :=
  s.runWord (fun s _ u =>
    let (el, dst) := packElem f.ty
    let a := s.regSource u .v f.ty f.a.toNat
    let x (i : Nat) : W64 :=
      BitVec.ofNat 64 (convert .rne false el dst (streamElem (tyBits el) (a.at_ i).toNat (f.aux.toNat % 4)))
    s.result u (u.guard f.pred f.pneg) false f.d.toNat a.isU false x .done)

/-- The source format of QMX and QPLY: AUX 1:0 (R323). -/
def blockSource (aux : BitVec 10) : Ffmt :=
  match aux.toNat % 4 with
  | 0 => fmtF32
  | 1 => fmtF16
  | _ => fmtBf16

/-- The values of one block of a window: inactive items contribute +0 (R323, R325). -/
def State.blockValues (s : State) (u : SUnit) (g : Guard) (fm : Ffmt) (a lo n : Nat) : List Fv :=
  (List.range n).map (fun j =>
    if g.mask.getLsbD (lo + j) then fm.decode ((s.vAt u a (u.lo + lo + j)).toNat % 2 ^ fm.width) else .fin false 0 0)

/-- Whether a block of a window has an active item. -/
def Guard.blockActive (g : Guard) (lo n : Nat) : Bool := (List.range n).any (fun j => g.mask.getLsbD (lo + j))

/-- A result of a block instruction in a strand: one value where every active item has the same, else one for each (R322). -/
def State.blockResult (s : State) (u : SUnit) (g : Guard) (d : Nat) (isU : Bool) (x : Nat → W32) (k : State → Res) : Res :=
  let vals := (lanesOf g.mask).map x
  let same := match vals with
    | [] => true
    | v :: vs => vs.all (· == v)
  if g.mask = 0 then k s
  else if isU && same then s.writeV u g [(d, .u (vals.headD 0))] k
  else s.writeV u g [(d, .g ((List.range 64).map (fun j => if g.mask.getLsbD j then x j else 0)))] k

/-- Replace n bits of a scale register from bit lo. -/
def putBits (x : W64) (lo n v : Nat) : W64 :=
  BitVec.ofNat 64 (x.toNat - ((x.toNat >>> lo) % 2 ^ n) * 2 ^ lo + (v % 2 ^ n) * 2 ^ lo)

/-- QMX (R323). -/
def execQmx (f : FmtV) (s : State) : Host.Outcome State Fault Refusal :=
  s.runClosing (fun s _ u =>
    if !u.isStrand then .needG s
    else
      let g := u.guard f.pred f.pneg
      let fm := blockSource f.aux
      let sat := u.satOn f.sat
      let q (blk : Nat) : Nat × List Nat := quantiseMx f.ty sat (s.blockValues u g fm f.a.toNat (32 * blk) 32)
      let x (j : Nat) : W32 := BitVec.ofNat 32 ((q (j / 32)).2.getD (j % 32) 0)
      if g.mask = 0 then .done s
      else
        let kr := u.kreg f.b.toNat
        let k1 := (List.range 2).foldl (fun k blk =>
          if g.blockActive (32 * blk) 32 then putBits (putBits k (8 * blk) 8 (q blk).1) 16 48 0 else k) kr
        s.blockResult u g f.d.toNat (u.vIsU f.a.toNat) x (fun s => .done (s.updUnit u.id (fun u => u.setK f.b.toNat k1))))

/-- DQMX (R324). -/
def execDqmx (f : FmtV) (s : State) : Host.Outcome State Fault Refusal :=
  s.runWord (fun s _ u =>
    if !u.isStrand then .needG s
    else
      let g := u.guard f.pred f.pneg
      let sat := u.satOn false
      let kr := (u.kreg f.b.toNat).toNat
      let x (j : Nat) : W32 :=
        let el := (s.vAt u f.a.toNat (u.lo + j)).toNat % 2 ^ tyBits f.ty
        BitVec.ofNat 32 (fmtF32.encode .rne sat (mxValue f.ty (streamElem 8 kr (j / 32)) el))
      s.blockResult u g f.d.toNat (u.vIsU f.a.toNat) x .done)

/-- QPLY (R325). -/
def execQply (f : FmtV) (s : State) : Host.Outcome State Fault Refusal :=
  s.runClosing (fun s _ u =>
    if !u.isStrand then .needG s
    else
      let g := u.guard f.pred f.pneg
      let fm := blockSource f.aux
      let sat := u.satOn f.sat
      let q (blk : Nat) : Nat × List Nat × List Nat :=
        quantisePly f.ty sat (s.blockValues u g fm f.a.toNat (16 * blk) 16)
      let x (j : Nat) : W32 := BitVec.ofNat 32 ((q (j / 16)).2.2.getD (j % 16) 0)
      if g.mask = 0 then .done s
      else
        let k1 := (List.range 4).foldl (fun k blk =>
          if g.blockActive (16 * blk) 16 then
            putBits (putBits k (8 * blk) 8 (q blk).1) (32 + 8 * blk) 8 (packBits 1 (q blk).2.1)
          else k) (u.kreg f.b.toNat)
        s.blockResult u g f.d.toNat (u.vIsU f.a.toNat) x (fun s => .done (s.updUnit u.id (fun u => u.setK f.b.toNat k1))))

/-- DQPLY (R326). -/
def execDqply (f : FmtV) (s : State) : Host.Outcome State Fault Refusal :=
  s.runWord (fun s _ u =>
    if !u.isStrand then .needG s
    else
      let g := u.guard f.pred f.pneg
      let kr := (u.kreg f.b.toNat).toNat
      let x (j : Nat) : W32 :=
        let el := (s.vAt u f.a.toNat (u.lo + j)).toNat % 2 ^ (plyM f.ty + 1)
        let mu := if kr.testBit (32 + 8 * (j / 16) + (j % 16) / 2) then 1 else 0
        BitVec.ofNat 32 (fmtF32.encode .rne false (plyValue f.ty (streamElem 8 kr (j / 16)) mu el))
      s.blockResult u g f.d.toNat (u.vIsU f.a.toNat) x .done)

/-- KMOV (R327): into a k register from the lowest active item, which closes a region; or out of one. -/
def execKmov (f : FmtV) (s : State) : Host.Outcome State Fault Refusal :=
  let body (s : State) (_ : Issue) (u : SUnit) : Res :=
    if !u.isStrand then .needG s
    else
      let g := u.guard f.pred f.pneg
      if g.mask = 0 then .done s
      else if f.aux.getLsbD 0 then
        let x := u.kreg f.a.toNat
        s.writeV u g [(f.d.toNat, .u (x.extractLsb' 0 32)), (f.d.toNat + 1, .u (x.extractLsb' 32 32))] .done
      else .done (s.updUnit u.id (fun v => v.setK f.d.toNat (s.wAt u f.a.toNat (u.lowest g))))
  if f.aux.getLsbD 0 then s.runWord body else s.runClosing body

end Sys2Proof.Machine
end

