-- ==== Sys2Proof/Machine/LaneOps.lean ====
section
/-! DEFINITION. The LANE class (R328-R336): permutes, votes, scans and exact accumulators of a strand. -/

namespace Sys2Proof.Machine

/-- A LANE instruction acts in a strand: a span is dealt or materialised first (R329). -/
def State.runLane (s : State) (f : FmtV) (closes : Bool) (body : State → SUnit → Guard → Res) : Host.Outcome State Fault Refusal :=
  let b (s : State) (_ : Issue) (u : SUnit) : Res :=
    if !u.isStrand then .needG s else body s u (u.guard f.pred f.pneg)
  if closes then s.runClosing b else s.runWord b

/-- Values for each lane as a register result. -/
def laneVals (f : Nat → W64) (hi : Bool) : Rv :=
  .g ((List.range 64).map (fun j => if hi then (f j).extractLsb' 32 32 else (f j).extractLsb' 0 32))

/-- A permute (R331): every active item reads source A at lane j, and its validity goes to the predicate named by C when AUX
bit 9 is set. -/
def State.permute (s : State) (f : FmtV) (u : SUnit) (g : Guard) (j : Nat → Int) (valid : Bool) : Res :=
  let wide := f.ty.wide
  let rd (l : Nat) : W64 × Bool :=
    if g.mask.getLsbD l then s.crossRead u (fun x i => s.opdAt x wide f.a.toNat i) (j l) else (0, false)
  let ws := if wide then [(f.d.toNat, laneVals (fun l => (rd l).1) false), (f.d.toNat + 1, laneVals (fun l => (rd l).1) true)]
    else [(f.d.toNat, laneVals (fun l => (rd l).1) false)]
  let bits := laneMask (fun l => (rd l).2)
  if g.mask = 0 then .done s
  else match u.regionHit (ws.map (·.1)) (if valid then [f.c.toNat] else []) with
    | some t => .trap s causeRegionwrite t
    | none =>
      s.writeV u g ws (fun s =>
        if valid then s.writeP ((s.unit? u.id).getD u) g f.c.toNat (.g bits) .done else .done s)

def execPerm (f : FmtV) (s : State) : Host.Outcome State Fault Refusal :=
  s.runLane f false (fun s u g =>
    s.permute f u g (fun l => ((s.vAt u f.b.toNat (u.lo + l)).toNat : Int)) (f.aux.getLsbD 9))

def execShfl (f : FmtV) (s : State) : Host.Outcome State Fault Refusal :=
  s.runLane f false (fun s u g =>
    let b (l : Nat) : Nat := (s.vAt u f.b.toNat (u.lo + l)).toNat
    let j (l : Nat) : Int :=
      match f.aux.toNat % 4 with
      | 0 => (l : Int) - b l
      | 1 => (l : Int) + b l
      | _ => ((l ^^^ b l : Nat) : Int)
    s.permute f u g j (f.aux.getLsbD 9))

def execBcast (f : FmtV) (s : State) : Host.Outcome State Fault Refusal :=
  s.runLane f false (fun s u g =>
    let ix := f.aux.toNat % 128
    let j : Int := if ix = 64 then ((lowLane g.mask).getD 0 : Nat) else ix
    s.permute f u g (fun _ => j) false)

/-- The values of the voted predicate at the active items (R332). -/
def SUnit.votes (u : SUnit) (g : Guard) (a : Nat) : List Bool := (lanesOf g.mask).map (fun j => (u.preg a).holds (u.lo + j) j)

def execVotea (f : FmtV) (s : State) : Host.Outcome State Fault Refusal :=
  s.runLane f false (fun s u g => s.writeP u u.whole f.d.toNat (.u ((u.votes g f.a.toNat).all id)) .done)

def execVotey (f : FmtV) (s : State) : Host.Outcome State Fault Refusal :=
  s.runLane f false (fun s u g => s.writeP u u.whole f.d.toNat (.u ((u.votes g f.a.toNat).any id)) .done)

def execBallot (f : FmtV) (s : State) : Host.Outcome State Fault Refusal :=
  s.runLane f false (fun s u g =>
    let m := g.mask &&& laneMask (fun j => (u.preg f.a.toNat).holds (u.lo + j) j)
    s.writeV u u.whole [(f.d.toNat, .u (m.extractLsb' 0 32)), (f.d.toNat + 1, .u (m.extractLsb' 32 32))] .done)

/-- The identities of R333. -/
def scanIdentity (ty : Ty) (op : Nat) : Nat :=
  match op, ty with
  | 1, .s32 => 0x7FFFFFFF
  | 1, .f32 => 0x7F800000
  | 1, _ => 0xFFFFFFFF
  | 2, .s32 => 0x80000000
  | 2, .f32 => 0xFF800000
  | 3, _ => 0xFFFFFFFF
  | _, _ => 0

/-- One step of SCAN and REDI (R333). -/
def scanCombine (e : OpEnv) (op acc a : Nat) : Nat :=
  match op, e.ty with
  | 0, .f32 => fmtF32.add e.rm e.sat acc a
  | 1, .f32 => fmtF32.minMax false e.sat acc a
  | 2, .f32 => fmtF32.minMax true e.sat acc a
  | 0, _ => (acc + a) % 2 ^ 32
  | 1, t => if intOf (tySigned t) 32 a < intOf (tySigned t) 32 acc then a else acc
  | 2, t => if intOf (tySigned t) 32 acc < intOf (tySigned t) 32 a then a else acc
  | 3, _ => acc &&& a
  | 4, _ => acc ||| a
  | _, _ => acc ^^^ a

/-- The prefixes over the active lanes: each lane with the value before it and the value after it. -/
def scanLanes (e : OpEnv) (op : Nat) (val : Nat → Nat) : List Nat → Nat → List (Nat × Nat × Nat)
  | [], _ => []
  | j :: js, acc => (j, acc, scanCombine e op acc (val j)) :: scanLanes e op val js (scanCombine e op acc (val j))

def execScan (f : FmtV) (s : State) : Host.Outcome State Fault Refusal :=
  s.runLane f false (fun s u g =>
    let op := f.aux.toNat % 4
    let e : OpEnv := { ty := f.ty, sat := u.satOn f.sat, rm := Rm.ofMode f.mode u.fmode, aux := 0 }
    let steps := scanLanes e op (fun j => (s.vAt u f.a.toNat (u.lo + j)).toNat) (lanesOf g.mask) (scanIdentity f.ty op)
    let x (j : Nat) : W64 := match steps.find? (fun t => t.1 == j) with
      | some t => BitVec.ofNat 64 (if f.aux.getLsbD 2 then t.2.1 else t.2.2)
      | none => 0
    if g.mask = 0 then .done s else s.writeV u g [(f.d.toNat, laneVals x false)] .done)

def execRedi (f : FmtV) (s : State) : Host.Outcome State Fault Refusal :=
  s.runLane f false (fun s u g =>
    let op := f.aux.toNat % 8
    let e : OpEnv := { ty := f.ty, sat := false, rm := .rne, aux := 0 }
    let acc := (lanesOf g.mask).foldl (fun acc j => scanCombine e op acc (s.vAt u f.a.toNat (u.lo + j)).toNat) (scanIdentity f.ty op)
    if g.mask = 0 then .done s else s.writeV u g [(f.d.toNat, laneVals (fun _ => BitVec.ofNat 64 acc) false)] .done)

/-- XADD (R334, R40). -/
def execXadd (f : FmtV) (s : State) : Host.Outcome State Fault Refusal :=
  s.runLane f true (fun s u g =>
    let fm := tyFfmt f.ty
    let x := (lanesOf g.mask).foldl (fun (x : XAcc) j => x.addFloat (fm.decode ((s.vAt u f.a.toNat (u.lo + j)).toNat % 2 ^ fm.width)))
      (u.xreg f.d.toNat)
    .done (s.updUnit u.id (fun u => u.setX f.d.toNat x)))

/-- XRND (R334, R41). -/
def execXrnd (f : FmtV) (s : State) : Host.Outcome State Fault Refusal :=
  s.runLane f false (fun s u g =>
    let r := BitVec.ofNat 64 ((tyFfmt f.ty).encode (Rm.ofMode f.mode u.fmode) (u.satOn f.sat) (u.xreg f.a.toNat).value)
    let ws := if f.ty.wide then [(f.d.toNat, laneVals (fun _ => r) false), (f.d.toNat + 1, laneVals (fun _ => r) true)]
      else [(f.d.toNat, laneVals (fun _ => r) false)]
    if g.mask = 0 then .done s else s.writeV u g ws .done)

/-- XCLR (R334). -/
def execXclr (f : FmtV) (s : State) : Host.Outcome State Fault Refusal :=
  s.runLane f true (fun s u g =>
    if g.mask = 0 then .done s else .done (s.updUnit u.id (fun u => u.setX f.d.toNat XAcc.zero)))

/-- The pad place of an accumulator image (R335): v[A] at the lowest active item plus 16 * AUX. -/
def State.imagePlace (s : State) (f : FmtV) (u : SUnit) (g : Guard) (k : Nat → Nat → Res) : Res :=
  let off := ((s.vAt u f.a.toNat (u.lowest g)).toNat + 16 * f.aux.toNat) % 2 ^ 32
  if off % 16 ≠ 0 then .trap s causeMisalign (BitVec.ofNat 64 off)
  else match (s.groupOf u).bind (fun gr => gr.padPlace u.core off 48) with
    | none => .trap s causePadrange (BitVec.ofNat 64 off)
    | some (core, o) => if s.padPoisoned core o 48 then .trap s causePoison (BitVec.ofNat 64 off) else k core o

/-- XLD (R335): long-latency. -/
def execXld (f : FmtV) (s : State) : Host.Outcome State Fault Refusal :=
  s.runLane f true (fun s u g =>
    if g.mask = 0 then .done s
    else s.imagePlace f u g (fun core o =>
      .done (s.addPend u .ready [.xacc f.d.toNat (XAcc.ofImage (s.padBytes core o 48))] true true false).2))

/-- XST (R335). -/
def execXst (f : FmtV) (s : State) : Host.Outcome State Fault Refusal :=
  s.runLane f false (fun s u g =>
    if g.mask = 0 then .done s
    else
      let off := ((s.vAt u f.a.toNat (u.lowest g)).toNat + 16 * f.aux.toNat) % 2 ^ 32
      if off % 16 ≠ 0 then .trap s causeMisalign (BitVec.ofNat 64 off)
      else match (s.groupOf u).bind (fun gr => gr.padPlace u.core off 48) with
        | none => .trap s causePadrange (BitVec.ofNat 64 off)
        | some (core, o) => .done (s.writePad core o (u.xreg f.b.toNat).image))

/-- SHAPE (R336). -/
def execShape (f : FmtV) (s : State) : Host.Outcome State Fault Refusal :=
  s.runLane f false (fun s u g =>
    let sh := match u.vreg f.a.toNat with
      | .u _ => 0
      | .a _ _ => 1
      | .g => 2
    let rows := match s.groupOf u with
      | some gr => (gr.mapped (u.window gr)).length
      | none => 0
    if g.mask = 0 then .done s
    else s.writeV u g [(f.d.toNat, laneVals (fun _ => BitVec.ofNat 64 (sh + 256 * rows)) false)] .done)

end Sys2Proof.Machine
end

