-- ==== Sys2Proof/Machine/Dispatch.lean ====
section
/-! DEFINITION. One arm for each instruction: the meaning it calls. -/

namespace Sys2Proof.Machine
open Sys2Proof

def exec (i : Instr) (s : State) : Host.Outcome State Fault Refusal :=
  match i with
  | .powerOnReset => Sys2Proof.Machine.execPowerOnReset s
  | .selftestDone a0 a1 => Sys2Proof.Machine.execSelftestDone a0 a1 s
  | .loadFw => Sys2Proof.Machine.execLoadFw s
  | .verifyDone => Sys2Proof.Machine.execVerifyDone s
  | .mgmtqWrite a0 => Sys2Proof.Machine.execMgmtqWrite a0 s
  | .powerInputFault => Sys2Proof.Machine.execPowerInputFault s
  | .thermalEvent a0 a1 => Sys2Proof.Machine.execThermalEvent a0 a1 s
  | .creelHotModeChange a0 a1 => Sys2Proof.Machine.execCreelHotModeChange a0 a1 s
  | .creelRefreshWindowEnd a0 => Sys2Proof.Machine.execCreelRefreshWindowEnd a0 s
  | .lockstepMismatch a0 => Sys2Proof.Machine.execLockstepMismatch a0 s
  | .hostLinkUp a0 a1 a2 a3 => Sys2Proof.Machine.execHostLinkUp a0 a1 a2 a3 s
  | .hostLinkDown a0 => Sys2Proof.Machine.execHostLinkDown a0 s
  | .hostReadCompletion a0 a1 a2 => Sys2Proof.Machine.execHostReadCompletion a0 a1 a2 s
  | .hostCompletionTimeout a0 => Sys2Proof.Machine.execHostCompletionTimeout a0 s
  | .bar2Read a0 a1 => Sys2Proof.Machine.execBar2Read a0 a1 s
  | .bar2Write a0 a1 => Sys2Proof.Machine.execBar2Write a0 a1 s
  | .registerWrite a0 a1 a2 => Sys2Proof.Machine.execRegisterWrite a0 a1 a2 s
  | .tailWrite a0 a1 a2 => Sys2Proof.Machine.execTailWrite a0 a1 a2 s
  | .resolveWrite a0 => Sys2Proof.Machine.execResolveWrite a0 s
  | .consumedWrite a0 a1 => Sys2Proof.Machine.execConsumedWrite a0 a1 s
  | .portEnable a0 a1 => Sys2Proof.Machine.execPortEnable a0 a1 s
  | .portIsolate a0 a1 => Sys2Proof.Machine.execPortIsolate a0 a1 s
  | .retrain a0 => Sys2Proof.Machine.execRetrain a0 s
  | .portTrainDone a0 a1 a2 a3 => Sys2Proof.Machine.execPortTrainDone a0 a1 a2 a3 s
  | .portTrainTimeout a0 => Sys2Proof.Machine.execPortTrainTimeout a0 s
  | .flitReceive a0 a1 => Sys2Proof.Machine.execFlitReceive a0 a1 s
  | .nakReceive a0 a1 => Sys2Proof.Machine.execNakReceive a0 a1 s
  | .pauseReceive a0 a1 => Sys2Proof.Machine.execPauseReceive a0 a1 s
  | .resumeReceive a0 a1 => Sys2Proof.Machine.execResumeReceive a0 a1 s
  | .spdmGetVersion a0 => Sys2Proof.Machine.execSpdmGetVersion a0 s
  | .spdmGetCapabilities a0 => Sys2Proof.Machine.execSpdmGetCapabilities a0 s
  | .spdmNegotiate a0 => Sys2Proof.Machine.execSpdmNegotiate a0 s
  | .spdmGetDigests a0 => Sys2Proof.Machine.execSpdmGetDigests a0 s
  | .spdmGetCertificate a0 => Sys2Proof.Machine.execSpdmGetCertificate a0 s
  | .spdmChallenge a0 a1 => Sys2Proof.Machine.execSpdmChallenge a0 a1 s
  | .spdmGetMeasurements a0 a1 => Sys2Proof.Machine.execSpdmGetMeasurements a0 a1 s
  | .mctpStageQuery => Sys2Proof.Machine.execMctpStageQuery s
  | .packetFetch a0 a1 => Sys2Proof.Machine.execPacketFetch a0 a1 s
  | .slotRereadTimer a0 a1 a2 => Sys2Proof.Machine.execSlotRereadTimer a0 a1 a2 s
  | .boardScan a0 a1 => Sys2Proof.Machine.execBoardScan a0 a1 s
  | .nopPacket => Sys2Proof.Machine.execNopPacket s
  | .launchPacket => Sys2Proof.Machine.execLaunchPacket s
  | .copyPacket => Sys2Proof.Machine.execCopyPacket s
  | .barrierPacket => Sys2Proof.Machine.execBarrierPacket s
  | .signalPacket => Sys2Proof.Machine.execSignalPacket s
  | .creelBegin => Sys2Proof.Machine.execCreelBegin s
  | .creelSeal => Sys2Proof.Machine.execCreelSeal s
  | .markerPacket => Sys2Proof.Machine.execMarkerPacket s
  | .contextCreate => Sys2Proof.Machine.execContextCreate s
  | .contextPaging => Sys2Proof.Machine.execContextPaging s
  | .contextQueue => Sys2Proof.Machine.execContextQueue s
  | .contextUnqueue => Sys2Proof.Machine.execContextUnqueue s
  | .contextInval => Sys2Proof.Machine.execContextInval s
  | .contextSuspend => Sys2Proof.Machine.execContextSuspend s
  | .contextResume => Sys2Proof.Machine.execContextResume s
  | .contextTerminate => Sys2Proof.Machine.execContextTerminate s
  | .contextResize => Sys2Proof.Machine.execContextResize s
  | .resizeMapChange => Sys2Proof.Machine.execResizeMapChange s
  | .signalWatchNotify a0 a1 a2 => Sys2Proof.Machine.execSignalWatchNotify a0 a1 a2 s
  | .signalWatchReread a0 a1 a2 => Sys2Proof.Machine.execSignalWatchReread a0 a1 a2 s
  | .packetComplete a0 a1 a2 => Sys2Proof.Machine.execPacketComplete a0 a1 a2 s
  | .rootSpanPlace a0 => Sys2Proof.Machine.execRootSpanPlace a0 s
  | .groupPlace a0 => Sys2Proof.Machine.execGroupPlace a0 s
  | .deviceQueuePop a0 a1 => Sys2Proof.Machine.execDeviceQueuePop a0 a1 s
  | .devqSlotReread a0 a1 => Sys2Proof.Machine.execDevqSlotReread a0 a1 s
  | .clauseFetch a0 => Sys2Proof.Machine.execClauseFetch a0 s
  | .longLatencyResult a0 => Sys2Proof.Machine.execLongLatencyResult a0 s
  | .groupRetire a0 a1 => Sys2Proof.Machine.execGroupRetire a0 a1 s
  | .launchAbortDone => Sys2Proof.Machine.execLaunchAbortDone s
  | .barcContinuationStart => Sys2Proof.Machine.execBarcContinuationStart s
  | .yieldExpire a0 => Sys2Proof.Machine.execYieldExpire a0 s
  | .watchdog a0 => Sys2Proof.Machine.execWatchdog a0 s
  | .contextSaveComplete => Sys2Proof.Machine.execContextSaveComplete s
  | .contextRestore => Sys2Proof.Machine.execContextRestore s
  | .migRewalkTimer a0 => Sys2Proof.Machine.execMigRewalkTimer a0 s
  | .invalidationComplete => Sys2Proof.Machine.execInvalidationComplete s
  | .l1Eviction a0 a1 => Sys2Proof.Machine.execL1Eviction a0 a1 s
  | .uncorrectableError a0 => Sys2Proof.Machine.execUncorrectableError a0 s
  | .atomicEngineServe a0 => Sys2Proof.Machine.execAtomicEngineServe a0 s
  | .copyPerform a0 a1 => Sys2Proof.Machine.execCopyPerform a0 a1 s
  | .copyEnd a0 => Sys2Proof.Machine.execCopyEnd a0 s
  | .hankOperationPerform a0 => Sys2Proof.Machine.execHankOperationPerform a0 s
  | .hankMoveInsert => Sys2Proof.Machine.execHankMoveInsert s
  | .hankRankComplete => Sys2Proof.Machine.execHankRankComplete s
  | .hankThawComplete => Sys2Proof.Machine.execHankThawComplete s
  | .beamQueryStart a0 => Sys2Proof.Machine.execBeamQueryStart a0 s
  | .beamQueryDone a0 a1 => Sys2Proof.Machine.execBeamQueryDone a0 a1 s
  | .collJobEnd => Sys2Proof.Machine.execCollJobEnd s
  | .mmaSequencerPerform a0 => Sys2Proof.Machine.execMmaSequencerPerform a0 s
  | .mmaAssistComplete a0 => Sys2Proof.Machine.execMmaAssistComplete a0 s
  | .nop f => Sys2Proof.Machine.execNop f s
  | .bra f => Sys2Proof.Machine.execBra f s
  | .brp f => Sys2Proof.Machine.execBrp f s
  | .join f => Sys2Proof.Machine.execJoin f s
  | .call f => Sys2Proof.Machine.execCall f s
  | .calli f => Sys2Proof.Machine.execCalli f s
  | .ret f => Sys2Proof.Machine.execRet f s
  | .jmpi f => Sys2Proof.Machine.execJmpi f s
  | .exit f => Sys2Proof.Machine.execExit f s
  | .region f => Sys2Proof.Machine.execRegion f s
  | .yield f => Sys2Proof.Machine.execYield f s
  | .trap f => Sys2Proof.Machine.execTrap f s
  | .brk f => Sys2Proof.Machine.execBrk f s
  | .spawn f => Sys2Proof.Machine.execSpawn f s
  | .deal f => Sys2Proof.Machine.execDeal f s
  | .rdsr f => Sys2Proof.Machine.execRdsr f s
  | .wrsr f => Sys2Proof.Machine.execWrsr f s
  | .fmode f => Sys2Proof.Machine.execFmode f s
  | .iadd f => Sys2Proof.Machine.execIadd f s
  | .iaddImm f => Sys2Proof.Machine.execIaddImm f s
  | .isub f => Sys2Proof.Machine.execIsub f s
  | .isubImm f => Sys2Proof.Machine.execIsubImm f s
  | .imul f => Sys2Proof.Machine.execImul f s
  | .imulImm f => Sys2Proof.Machine.execImulImm f s
  | .imulh f => Sys2Proof.Machine.execImulh f s
  | .imad f => Sys2Proof.Machine.execImad f s
  | .imin f => Sys2Proof.Machine.execImin f s
  | .iminImm f => Sys2Proof.Machine.execIminImm f s
  | .imax f => Sys2Proof.Machine.execImax f s
  | .imaxImm f => Sys2Proof.Machine.execImaxImm f s
  | .iabs f => Sys2Proof.Machine.execIabs f s
  | .ineg f => Sys2Proof.Machine.execIneg f s
  | .land f => Sys2Proof.Machine.execLand f s
  | .landImm f => Sys2Proof.Machine.execLandImm f s
  | .lor f => Sys2Proof.Machine.execLor f s
  | .lorImm f => Sys2Proof.Machine.execLorImm f s
  | .lxor f => Sys2Proof.Machine.execLxor f s
  | .lxorImm f => Sys2Proof.Machine.execLxorImm f s
  | .lnot f => Sys2Proof.Machine.execLnot f s
  | .landn f => Sys2Proof.Machine.execLandn f s
  | .landnImm f => Sys2Proof.Machine.execLandnImm f s
  | .shl f => Sys2Proof.Machine.execShl f s
  | .shlImm f => Sys2Proof.Machine.execShlImm f s
  | .shr f => Sys2Proof.Machine.execShr f s
  | .shrImm f => Sys2Proof.Machine.execShrImm f s
  | .sar f => Sys2Proof.Machine.execSar f s
  | .sarImm f => Sys2Proof.Machine.execSarImm f s
  | .rol f => Sys2Proof.Machine.execRol f s
  | .rolImm f => Sys2Proof.Machine.execRolImm f s
  | .ror f => Sys2Proof.Machine.execRor f s
  | .rorImm f => Sys2Proof.Machine.execRorImm f s
  | .popc f => Sys2Proof.Machine.execPopc f s
  | .clz f => Sys2Proof.Machine.execClz f s
  | .ctz f => Sys2Proof.Machine.execCtz f s
  | .brev f => Sys2Proof.Machine.execBrev f s
  | .bfx f => Sys2Proof.Machine.execBfx f s
  | .bfi f => Sys2Proof.Machine.execBfi f s
  | .icmp f => Sys2Proof.Machine.execIcmp f s
  | .icmpImm f => Sys2Proof.Machine.execIcmpImm f s
  | .sel f => Sys2Proof.Machine.execSel f s
  | .mov f => Sys2Proof.Machine.execMov f s
  | .movi f => Sys2Proof.Machine.execMovi f s
  | .lea f => Sys2Proof.Machine.execLea f s
  | .leaImm f => Sys2Proof.Machine.execLeaImm f s
  | .iaddw f => Sys2Proof.Machine.execIaddw f s
  | .iaddwImm f => Sys2Proof.Machine.execIaddwImm f s
  | .isubw f => Sys2Proof.Machine.execIsubw f s
  | .icmpw f => Sys2Proof.Machine.execIcmpw f s
  | .mort f => Sys2Proof.Machine.execMort f s
  | .unmort f => Sys2Proof.Machine.execUnmort f s
  | .prmt f => Sys2Proof.Machine.execPrmt f s
  | .fadd f => Sys2Proof.Machine.execFadd f s
  | .faddImm f => Sys2Proof.Machine.execFaddImm f s
  | .fsub f => Sys2Proof.Machine.execFsub f s
  | .fmul f => Sys2Proof.Machine.execFmul f s
  | .fmulImm f => Sys2Proof.Machine.execFmulImm f s
  | .ffma f => Sys2Proof.Machine.execFfma f s
  | .ffmaImm f => Sys2Proof.Machine.execFfmaImm f s
  | .fmin f => Sys2Proof.Machine.execFmin f s
  | .fmax f => Sys2Proof.Machine.execFmax f s
  | .fcmp f => Sys2Proof.Machine.execFcmp f s
  | .fcmpImm f => Sys2Proof.Machine.execFcmpImm f s
  | .fclass f => Sys2Proof.Machine.execFclass f s
  | .frnd f => Sys2Proof.Machine.execFrnd f s
  | .fdot2 f => Sys2Proof.Machine.execFdot2 f s
  | .fscale f => Sys2Proof.Machine.execFscale f s
  | .rcp f => Sys2Proof.Machine.execRcp f s
  | .rsq f => Sys2Proof.Machine.execRsq f s
  | .sqrt f => Sys2Proof.Machine.execSqrt f s
  | .exp2 f => Sys2Proof.Machine.execExp2 f s
  | .log2 f => Sys2Proof.Machine.execLog2 f s
  | .sin f => Sys2Proof.Machine.execSin f s
  | .cos f => Sys2Proof.Machine.execCos f s
  | .tanh f => Sys2Proof.Machine.execTanh f s
  | .fdiv f => Sys2Proof.Machine.execFdiv f s
  | .idiv f => Sys2Proof.Machine.execIdiv f s
  | .irem f => Sys2Proof.Machine.execIrem f s
  | .cvt f => Sys2Proof.Machine.execCvt f s
  | .pack f => Sys2Proof.Machine.execPack f s
  | .unpk f => Sys2Proof.Machine.execUnpk f s
  | .qmx f => Sys2Proof.Machine.execQmx f s
  | .dqmx f => Sys2Proof.Machine.execDqmx f s
  | .qply f => Sys2Proof.Machine.execQply f s
  | .dqply f => Sys2Proof.Machine.execDqply f s
  | .kmov f => Sys2Proof.Machine.execKmov f s
  | .perm f => Sys2Proof.Machine.execPerm f s
  | .shfl f => Sys2Proof.Machine.execShfl f s
  | .bcast f => Sys2Proof.Machine.execBcast f s
  | .votea f => Sys2Proof.Machine.execVotea f s
  | .votey f => Sys2Proof.Machine.execVotey f s
  | .ballot f => Sys2Proof.Machine.execBallot f s
  | .scan f => Sys2Proof.Machine.execScan f s
  | .redi f => Sys2Proof.Machine.execRedi f s
  | .xadd f => Sys2Proof.Machine.execXadd f s
  | .xrnd f => Sys2Proof.Machine.execXrnd f s
  | .xclr f => Sys2Proof.Machine.execXclr f s
  | .xld f => Sys2Proof.Machine.execXld f s
  | .xst f => Sys2Proof.Machine.execXst f s
  | .shape f => Sys2Proof.Machine.execShape f s
  | .ld f => Sys2Proof.Machine.execLd f s
  | .st f => Sys2Proof.Machine.execSt f s
  | .lds f => Sys2Proof.Machine.execLds f s
  | .sts f => Sys2Proof.Machine.execSts f s
  | .phase f => Sys2Proof.Machine.execPhase f s
  | .xfence f => Sys2Proof.Machine.execXfence f s
  | .pref f => Sys2Proof.Machine.execPref f s
  | .atomAdd f => Sys2Proof.Machine.execAtomAdd f s
  | .atomSub f => Sys2Proof.Machine.execAtomSub f s
  | .atomMin f => Sys2Proof.Machine.execAtomMin f s
  | .atomMax f => Sys2Proof.Machine.execAtomMax f s
  | .atomAnd f => Sys2Proof.Machine.execAtomAnd f s
  | .atomOr f => Sys2Proof.Machine.execAtomOr f s
  | .atomXor f => Sys2Proof.Machine.execAtomXor f s
  | .atomXchg f => Sys2Proof.Machine.execAtomXchg f s
  | .atomCas f => Sys2Proof.Machine.execAtomCas f s
  | .atomInc f => Sys2Proof.Machine.execAtomInc f s
  | .atomFadd f => Sys2Proof.Machine.execAtomFadd f s
  | .atomFadd2 f => Sys2Proof.Machine.execAtomFadd2 f s
  | .atomXam f => Sys2Proof.Machine.execAtomXam f s
  | .atomLd f => Sys2Proof.Machine.execAtomLd f s
  | .atomsAdd f => Sys2Proof.Machine.execAtomsAdd f s
  | .atomsSub f => Sys2Proof.Machine.execAtomsSub f s
  | .atomsMin f => Sys2Proof.Machine.execAtomsMin f s
  | .atomsMax f => Sys2Proof.Machine.execAtomsMax f s
  | .atomsAnd f => Sys2Proof.Machine.execAtomsAnd f s
  | .atomsOr f => Sys2Proof.Machine.execAtomsOr f s
  | .atomsXor f => Sys2Proof.Machine.execAtomsXor f s
  | .atomsXchg f => Sys2Proof.Machine.execAtomsXchg f s
  | .atomsCas f => Sys2Proof.Machine.execAtomsCas f s
  | .atomsInc f => Sys2Proof.Machine.execAtomsInc f s
  | .atomsFadd f => Sys2Proof.Machine.execAtomsFadd f s
  | .atomsFadd2 f => Sys2Proof.Machine.execAtomsFadd2 f s
  | .atomsXam f => Sys2Proof.Machine.execAtomsXam f s
  | .atomsLd f => Sys2Proof.Machine.execAtomsLd f s
  | .acp f => Sys2Proof.Machine.execAcp f s
  | .aseal f => Sys2Proof.Machine.execAseal f s
  | .await f => Sys2Proof.Machine.execAwait f s
  | .bcp f => Sys2Proof.Machine.execBcp f s
  | .bxf f => Sys2Proof.Machine.execBxf f s
  | .qfen f => Sys2Proof.Machine.execQfen f s
  | .coll f => Sys2Proof.Machine.execColl f s
  | .astat f => Sys2Proof.Machine.execAstat f s
  | .bari f => Sys2Proof.Machine.execBari f s
  | .bara f => Sys2Proof.Machine.execBara f s
  | .barw f => Sys2Proof.Machine.execBarw f s
  | .barx f => Sys2Proof.Machine.execBarx f s
  | .barc f => Sys2Proof.Machine.execBarc f s
  | .waita f => Sys2Proof.Machine.execWaita f s
  | .pipw f => Sys2Proof.Machine.execPipw f s
  | .barq f => Sys2Proof.Machine.execBarq f s
  | .mma f => Sys2Proof.Machine.execMma f s
  | .mzero f => Sys2Proof.Machine.execMzero f s
  | .mdrain f => Sys2Proof.Machine.execMdrain f s
  | .mload f => Sys2Proof.Machine.execMload f s
  | .hkins f => Sys2Proof.Machine.execHkins f s
  | .hkdel f => Sys2Proof.Machine.execHkdel f s
  | .hkmove f => Sys2Proof.Machine.execHkmove f s
  | .hkupd f => Sys2Proof.Machine.execHkupd f s
  | .hkopen f => Sys2Proof.Machine.execHkopen f s
  | .hknext f => Sys2Proof.Machine.execHknext f s
  | .hkclose f => Sys2Proof.Machine.execHkclose f s
  | .hkcount f => Sys2Proof.Machine.execHkcount f s
  | .hkfind f => Sys2Proof.Machine.execHkfind f s
  | .hknbr f => Sys2Proof.Machine.execHknbr f s
  | .hkrank f => Sys2Proof.Machine.execHkrank f s
  | .hkrankThaw f => Sys2Proof.Machine.execHkrankThaw f s
  | .hkstat f => Sys2Proof.Machine.execHkstat f s
  | .bqry f => Sys2Proof.Machine.execBqry f s
  | .bpop f => Sys2Proof.Machine.execBpop f s
  | .bstat f => Sys2Proof.Machine.execBstat f s
  | .bstatRelease f => Sys2Proof.Machine.execBstatRelease f s

end Sys2Proof.Machine
end

