-- ==== Sys2Proof/Machine/Sched.lean ====
section
/-! DEFINITION. What the module does next of itself (assumption log 3): the order in which this model looks for an event that can act,
and the counters of the dies (R18, R135). -/

namespace Sys2Proof.Machine
open Sys2Proof

namespace State

/-- A die's counter advances; a change of the Creel's mode takes effect at a slot boundary (R18, R135). -/
def tickDie (d : Die) (n : W64) : Die :=
  if d.stage = .reset then d
  else
    let c := d.cycle + n
    let len := if d.hot then 2048 else 4096
    if d.hotNext.isSome && c.toNat / len != d.cycle.toNat / len then
      { d with cycle := c, hot := d.hotNext.getD d.hot, hotNext := none }
    else { d with cycle := c }

/-- The counters of the dies advance (R18): by how much, the spec leaves open. -/
def tick (s : State) : State :=
  { s with dies := s.dies.zipIdx.map (fun d => tickDie d.1 (Config.freeCycles (4 * s.freeCtr + d.2))), freeCtr := s.freeCtr + 1 }

/-- The packet event of a chosen entry (R57). -/
def packetEvent (type : Nat) (sealing : Bool) : List Instr :=
  match type with
  | 0 => [.nopPacket]
  | 1 => [.launchPacket]
  | 2 => [.copyPacket]
  | 3 => [.barrierPacket]
  | 4 => [.signalPacket]
  | 5 => if sealing then [.creelSeal] else [.creelBegin]
  | 6 => [.markerPacket]
  | _ => []

/-- Events of host queues (R51, R57, R62, R66). -/
def queueEvents (s : State) : List Instr :=
  let entries (p : Entry → Bool) (f : Nat → Nat → Nat → Instr) : List Instr :=
    s.hqs.flatMap (fun q => (q.board.filter p).map (fun e => f q.ctx q.idx e.pos))
  entries (fun e => e.phase == .reporting) .packetComplete
    ++ (if s.sealDue.isSome then [.creelSeal] else [])
    ++ (match s.chosen? with | some (_, e) => packetEvent e.type (e.field 24 4 == 1) | none => [])
    ++ (s.hqs.filter (fun q => q.board.any (fun e => e.phase == .waiting))).map (fun q => .boardScan q.ctx q.idx)
    ++ (s.hqs.filter (fun q => q.state == .fetching)).map (fun q => .packetFetch q.ctx q.idx)
    ++ (s.hqs.filter (fun q => q.state == .stalled)).map (fun q => .slotRereadTimer q.ctx q.idx false)
    ++ entries (fun e => e.type == 3 && e.phase == .started) .signalWatchNotify

/-- Events of contexts and partitions (R211, R212, R222, R223). -/
def contextEvents (s : State) : List Instr :=
  let ops := s.hqs.any (fun q => q.board.any (fun e => e.type == 7 && e.phase == .started))
  (if ops then [.contextCreate, .contextPaging, .contextQueue, .contextUnqueue, .contextInval, .contextSuspend, .contextResume, .contextTerminate,
      .contextResize, .invalidationComplete] else [])
    ++ (if s.parts.any (fun (p : Part) => p.resize.isSome) then [.resizeMapChange] else [])
    ++ (if s.ctxs.any (fun (x : Ctx) => x.state == .suspending) then [.contextSaveComplete] else [])
    ++ (if s.ctxs.any (fun (x : Ctx) => x.state == .runnable) then [.contextRestore] else [])

/-- Events of launches, groups and device queues (R69, R73, R79-R81, R92, R114). -/
def launchEvents (s : State) : List Instr :=
  (if s.launches.any (fun (l : Launch) => l.state == .aborting) then [.launchAbortDone] else [])
    ++ s.launches.flatMap (fun l =>
        (l.evHeld ++ (s.groups.filter (fun (g : Group) => g.launch == l.id && g.state == .resident)).map (·.gid)
          ++ (if l.exited.isEmpty then [] else (List.range l.groups).filter (fun g => s.neverDealt l g))).map (fun g => .groupRetire l.id g))
    ++ (if s.groups.any (fun (g : Group) => !g.conts.isEmpty) then [.barcContinuationStart] else [])
    ++ (s.launches.filter (fun (l : Launch) => s.groups.any (fun g => g.launch == l.id && g.state == .dealt))).map (fun l => .groupPlace l.id)
    ++ (s.launches.filter (fun (l : Launch) => !l.rootPlaced)).map (fun l => .rootSpanPlace l.id)
    ++ s.dqs.map (fun d => .deviceQueuePop d.ctx d.idx)

/-- The copy engines that have work. -/
def copyEngines (s : State) : List (Nat × Nat) :=
  (s.copies.map (fun (c : Copy) => (c.cluster, c.engine))
    ++ (s.engq.filter (fun (e : EngEntry) => decide (e.queue < 2))).map (fun e => (clusterOf e.core, e.queue))).eraseDups

/-- Events of the engines (R129, R166, R180, R187, R206, R376). -/
def engineEvents (s : State) : List Instr :=
  let cores := (s.mmaq.map (fun (m : MmaOp) => m.core)).eraseDups
  (s.atomq.map (fun (r : AtomReq) => r.cluster) ++ s.engq.filterMap spawnHome).eraseDups.map .atomicEngineServe
    ++ (s.copies.filter (fun (c : Copy) => c.ended.isSome)).map (fun c => .copyEnd c.id)
    ++ s.copyEngines.map (fun x => .copyPerform x.1 x.2)
    ++ (s.engq.filter (fun (e : EngEntry) => e.queue == 2)).map (fun e => .hankOperationPerform e.id)
    ++ (if s.moves.all (fun m => m.phase != .insert) then [] else [.hankMoveInsert])
    ++ (if s.ranks.isEmpty then [] else [.hankRankComplete, .hankThawComplete])
    ++ ((s.engq.filter (fun (e : EngEntry) => e.queue == 3)).map (fun e => clusterOf e.core)).eraseDups.map .beamQueryStart
    ++ (s.beams.filter (fun (b : BeamSlot) => b.state == .running || (b.state == .done && s.engq.any (fun e => match e.job with | .pop _ _ | .stat _ _ => true | _ => false)))).map
        (fun b => .beamQueryDone b.cluster b.slot)
    ++ (if s.jobs.isEmpty && !s.engq.any (fun (e : EngEntry) => e.queue == 4) then [] else [.collJobEnd])
    ++ cores.map .mmaAssistComplete ++ cores.map .mmaSequencerPerform

/-- Events of units: results that land, waits that end, clauses that start, the unit that issued longest ago first (R104, R256). -/
def unitEvents (s : State) : List Instr :=
  (s.hostReads.filter (fun (h : HostRead) => h.answer.isNone)).map (fun h => .hostReadCompletion h.op (Kv.getRun memDefault s.mem (s.place h.pa) h.bytes) true)
    ++ (s.units.filter (fun (u : SUnit) => u.wait == .yield)).map (fun u => .yieldExpire u.id)
    ++ (sortBy (fun (u : SUnit) => u.turn) s.units).map (fun u => .clauseFetch u.id)

/-- Everything that might happen next, in the order in which it is looked for. -/
def nextEvents (s : State) : List Instr :=
  (if s.stageCode = 4 then [.verifyDone] else [])
    ++ (s.pend.filter s.pendDone).map (fun o => .longLatencyResult o.id)
    ++ s.queueEvents ++ s.contextEvents ++ s.launchEvents ++ s.engineEvents
    ++ s.ctxs.map (fun x => .migRewalkTimer x.num) ++ s.unitEvents

/-- The first candidate that changes the state: what it leads to. -/
def firstChange (s : State) : List Instr → Option State
  | [] => none
  | i :: is => match exec i s with
    | .next t => if t = s then s.firstChange is else some t
    | _ => s.firstChange is

/-- The module left to itself: a die in RESET boots; else the first event that changes something; else nothing. -/
def idle (s : State) : State :=
  if s.dies.any (fun (d : Die) => d.stage == .reset) then s.boot else (s.firstChange s.nextEvents).getD s

/-- Whose turn it is on the ports (R104): the clause at their head, unless its unit waits within it; then the first clause that can go on
comes to the head, and its wait is over. -/
def turn (s : State) : State :=
  let goes (i : Issue) : Bool := match s.unit? i.unit with | some u => s.waitOver u | none => true
  match s.issue with
  | [] => s
  | i :: _ =>
    if !s.blocked i then s
    else match s.issue.find? goes with
      | none => s
      | some j => { s with issue := j :: s.issue.filter (·.unit != j.unit) }.updUnit j.unit (fun u => { u with wait := .none })

/-- The word at the head of the ports, or its trap; else what the module does of itself. -/
def runHead (s : State) : Host.Outcome State Fault Refusal :=
  match s.headWord with
  | .word i => exec i s
  | .trap cause tval => s.trapHead cause tval
  | .none => .next s.idle

/-- One step after the counters have advanced: the event at the head of the agenda; else the word whose turn it is on the
ports; else what the module does of itself (assumption log 3). -/
def runNext (s : State) : Host.Outcome State Fault Refusal :=
  match s.agenda with
  | i :: rest => exec i { s with agenda := rest }
  | [] => s.turn.runHead

/-- A launch of one group of 64 items on core 0, its strand issuing a clause of one word (assumption log 17). -/
def placeWord (s : State) (w : BitVec 128) : State :=
  match decodeHeader (w.extractLsb' 0 64) with
  | none => s
  | some h =>
    let l : Launch :=
      { id := 1, ctx := 1, num := 0, tree := 0, src := .packet 0 0, code := 0x1000, count := 64, size := 64, pad := 4096, gregs := 32, bars := 4
        flags := 0, args := 0, events := 0, state := .draining, rootCore := some 0, rootPlaced := true, dealtAll := true, exited := []
        retired := [], retiredItems := 0, evHeld := [], fault := none, evFault := none, age := 0 }
    let g : Group := { newGroup l 2 0 with state := .resident, pieces := 1, rows := List.range 32, slots := [0] }
    let u : SUnit := { rootUnit l 3 0 (some 0) with kind := .strand, group := some 2, cnt := 64, mask := BitVec.allOnes 64, pc := 0x1000, origin := none }
    let p : Part := { num := 0, pairs := 1, pointer := 0, resize := none }
    { s with dies := s.dies.map (fun d => { d with stage := .running }), parts := [p]
             ctxs := [{ ctxZero with num := 1, part := some 0 }], launches := [l], groups := [g], units := [u]
             issue := [{ unit := 3, hdrAddr := 0x1000, hdr := h, words := [w.extractLsb' 64 64], slot := 0, entered := false }], agenda := [], nextId := 4 }

end State

end Sys2Proof.Machine
end

