-- ==== Sys2Proof/Machine/Step.lean ====
section
/-! DEFINITION. One step of the module, and the state in which the very next step runs a given instruction. -/

namespace Sys2Proof.Machine

/-- One step: the counters advance, then the next thing happens. -/
def step (s : State) : Host.Outcome State Fault Refusal := s.tick.runNext

/-- s with the clause of one word whose bits are w issuing (assumption log 17). -/
def State.withFetchWord (s : State) (nbits w : Nat) : State := s.placeWord (BitVec.ofNat 128 (w % 2 ^ nbits))

end Sys2Proof.Machine
end

