-- ==== Sys2Proof/Safety.lean ====
section
/-! DEFINITION. The terms in which claims about the machine are stated: a unit whose word executes next, how a word ends, what a
step leaves alone, the register instructions by their operands, and the invariant that every step keeps. -/

namespace Sys2Proof.Machine

/-- The unit u stands at the head of the ports with the clause i: its word executes next. -/
structure State.AtHead (s : State) (i : Issue) (u : SUnit) : Prop where
  head : ∃ rest, s.issue = i :: rest
  unit : s.unit? i.unit = some u

/-- The unit after the words of its open region have closed it (R216). -/
def SUnit.noRegion (u : SUnit) : SUnit := { u with region := none }

/-- What a step answers when a word of the clause i traps in state s (R224). -/
def State.trapped (s : State) (i : Issue) (u : SUnit) (cause : W32) (tval : W64) (global : Bool) :
    Host.Outcome State Fault Refusal :=
  .next ((s.takeTrap u cause i.wordAddr tval i.nextClause global).endClause i.unit)

/-- What becomes of a span that a word finds in need of its items (R77, R96): it is dealt or materialised, and the word is executed again; in a
launch that aborts, a span not yet dealt goes (R81). -/
def State.dealOn (s : State) (u : SUnit) : State := if s.aborting u.launch && u.kind == .undealt then s.removeUnit u.id else s.needG u

/-- The launch of a unit goes on (R81). -/
def State.Live (s : State) (u : SUnit) : Prop := ∀ l, s.launchOf u = some l → l.state ≠ .aborting ∧ l.state ≠ .complete

/-- No other unit bears a unit's identifier: the model's own bookkeeping. -/
def State.Sole (s : State) (u : SUnit) : Prop := ∀ x ∈ s.units, x.id = u.id → x = u

/-- Whether a condition holds for every item of a unit, for none of them, or divides them (R75, R338). -/
def SUnit.takes (u : SUnit) (p : PReg) : Option Bool :=
  if u.isStrand then
    (if (u.guardOf p).mask = 0 then some false else if (u.guardOf p).mask = u.mask then some true else none)
  else match u.spanCond p with
    | .all => some true
    | .nothing => some false
    | _ => none

/-- Every byte of memory reads the same for every agent. -/
def State.SameBytes (s t : State) : Prop := ∀ w a, t.byteAt w a = s.byteAt w a

/-- An address of the module's own memory or of host memory whose bytes reach the place they name, which no other address names (R11, R235,
R236). -/
def State.Plain (s : State) (a : Nat) : Prop := s.lands a = true ∧ ∀ i, s.kind a ≠ .third i

/-- Every byte of every pad is the same. -/
def State.SamePads (s t : State) : Prop := ∀ core off, t.padBytes core off 1 = s.padBytes core off 1

/-- The registers of two records of a unit agree (R96, R259, R347). -/
structure SUnit.SameRegs (a b : SUnit) : Prop where
  v : a.v = b.v
  p : a.p = b.p
  k : a.k = b.k
  x : a.x = b.x
  rstack : a.rstack = b.rstack
  sstack : a.sstack = b.sstack
  nest : a.nest = b.nest
  fmode : a.fmode = b.fmode
  tcause : a.tcause = b.tcause
  tpc : a.tpc = b.tpc
  tval : a.tval = b.tval

/-- Storage in its canonical form: memory, pads, the caches' dirty bytes, the register rows. -/
structure State.Inv (s : State) : Prop where
  mem : s.mem.wf = true
  pad : Memory.wf s.pad = true
  l1 : Kv.wf none s.l1 = true
  l2 : Kv.wf none s.l2 = true
  rows : Kv.wf (List.replicate 64 0) s.rows = true

/-- The register tables of a unit in their canonical form. -/
structure SUnit.Inv (u : SUnit) : Prop where
  v : Kv.wf (.u 0) u.v = true
  p : Kv.wf (.u false) u.p = true
  k : Kv.wf 0 u.k = true
  x : Kv.wf XAcc.zero u.x = true

/-- The register tables of every unit in their canonical form. -/
def State.RegsInv (s : State) : Prop := ∀ u ∈ s.units, u.Inv

/-- A register instruction as R294 lays it out: predicate, destination, whether its result comes late (R105), whether its sources
make the result U or affine (R97), and its value for an item. -/
structure RegOp where
  pred : BitVec 3
  pneg : Bool
  d : Nat
  wide : Bool
  late : Bool
  uniform : State → SUnit → Bool
  affine : State → SUnit → Bool
  value : State → SUnit → Nat → W64

/-- The destination registers. -/
def RegOp.dests (o : RegOp) : List Nat := if o.wide then [o.d, o.d + 1] else [o.d]

/-- The items on which it acts. -/
def RegOp.guard (o : RegOp) (u : SUnit) : Guard := u.guard o.pred o.pneg

/-- Put one value for all items into a destination. -/
def RegOp.putUniform (o : RegOp) (u : SUnit) (x : W64) : SUnit :=
  if o.wide then (u.setV o.d (.u (x.extractLsb' 0 32))).setV (o.d + 1) (.u (x.extractLsb' 32 32))
  else u.setV o.d (.u (x.extractLsb' 0 32))

/-- Sources A, B and C of format V: kinds from R294, negation and LSEL from R262. -/
def vSource (o : Opd) (x : Source) : Source := if o = .none then constSource 0 else x

/-- The row of R294 for a format-V instruction. -/
def vOp (f : FmtV) (od oa ob oc : Opd) (aff : Aff) (late : Bool) (op : OpEnv → Nat → Nat → Nat → Nat) : RegOp :=
  let a (s : State) (u : SUnit) : Source := vSource oa ((s.regSource u oa f.ty f.a.toNat).negated f.nega f.ty)
  let b (s : State) (u : SUnit) : Source := vSource ob ((s.lselSource u ob f.ty f.b.toNat f.lsel.toNat).negated f.negb f.ty)
  let c (s : State) (u : SUnit) : Source := vSource oc (s.regSource u oc f.ty f.c.toNat)
  let env (u : SUnit) : OpEnv := { ty := f.ty, sat := u.satOn f.sat, rm := Rm.ofMode f.mode u.fmode, aux := f.aux.toNat }
  { pred := f.pred, pneg := f.pneg, d := f.d.toNat, wide := od.wide f.ty, late := late
    uniform := fun s u => (a s u).isU && (b s u).isU && (c s u).isU
    affine := fun s u => aff.allows f.ty (u.satOn f.sat) (a s u) (b s u) (c s u)
    value := fun s u k => BitVec.ofNat 64 (op (env u) ((a s u).at_ k).toNat ((b s u).at_ k).toNat ((c s u).at_ k).toNat) }

/-- The row of R294 for a format-I instruction: IMM32 is source B (R263); useD makes D the third source. -/
def iOp (f : FmtI) (od oa : Opd) (aff : Aff) (useD : Bool) (imm : W64) (op : OpEnv → Nat → Nat → Nat → Nat) : RegOp :=
  let a (s : State) (u : SUnit) : Source := vSource oa (s.regSource u oa f.ty f.a.toNat)
  let c (s : State) (u : SUnit) : Source := if useD then s.regSource u od f.ty f.d.toNat else constSource 0
  let env (u : SUnit) : OpEnv := { ty := f.ty, sat := u.satOn false, rm := Rm.ofFmode u.fmode, aux := 0 }
  { pred := f.pred, pneg := f.pneg, d := f.d.toNat, wide := od.wide f.ty, late := false
    uniform := fun s u => (a s u).isU && (c s u).isU
    affine := fun s u => aff.allows f.ty (u.satOn false) (a s u) (constSource imm) (c s u)
    value := fun s u k => BitVec.ofNat 64 (op (env u) ((a s u).at_ k).toNat imm.toNat ((c s u).at_ k).toNat) }

/-- Whether a value is the same at every active lane. -/
def sameOn (g : Guard) (x : Nat → W32) : Bool :=
  match (lanesOf g.mask).map x with
  | [] => true
  | v :: vs => vs.all (· == v)

/-- Lanes of a result put into the rows of a strand's registers (R97, R91). -/
def State.putLanes (s : State) (u : SUnit) (mask : BitVec 64) (d : Nat) (wide : Bool) (x : Nat → W64) : State :=
  let low := s.writeLanes u d mask ((List.range 64).map (fun j => (x (u.lo + j)).extractLsb' 0 32))
  if wide then low.writeLanes u (d + 1) mask ((List.range 64).map (fun j => (x (u.lo + j)).extractLsb' 32 32)) else low

/-- The result of a selection SEL (R305) with its shape: U or affine as the chosen source is, where the predicate is U and no source is G. -/
def selOp (f : FmtV) : RegOp :=
  let a (s : State) (u : SUnit) : Source := s.regSource u .t f.ty f.a.toNat
  let b (s : State) (u : SUnit) : Source := s.lselSource u .t f.ty f.b.toNat f.lsel.toNat
  { pred := f.pred, pneg := f.pneg, d := f.d.toNat, wide := f.ty.wide, late := false
    uniform := fun s u => match u.preg f.c.toNat with
      | .u c => if c then (a s u).isU && ((b s u).isU || !(b s u).shape.isG) else (b s u).isU && ((a s u).isU || !(a s u).shape.isG)
      | _ => false
    affine := fun s u => match u.preg f.c.toNat with
      | .u _ => affineTy f.ty && !(!(a s u).isU && (a s u).shape.isG) && !(!(b s u).isU && (b s u).shape.isG)
      | _ => false
    value := fun s u k => if (u.preg f.c.toNat).holds k (k - u.lo) then (a s u).at_ k else (b s u).at_ k }

/-- t is s after one value is written for all active items of a unit (R97, R91): kept once under a predicate that is U true, else in the active lanes
of rows mapped for a strand. -/
def State.Writes (s : State) (u : SUnit) (g : Guard) (d : Nat) (wide : Bool) (x : W64) (t : State) : Prop :=
  (g.isTrue = true ∧ t = s.putUnit (if wide then (u.setV d (.u (x.extractLsb' 0 32))).setV (d + 1) (.u (x.extractLsb' 32 32))
      else u.setV d (.u (x.extractLsb' 0 32))))
  ∨ (g.isTrue = false ∧ u.isStrand = true ∧ g.mask ≠ 0 ∧ ∃ s1 u1, s.ensureRows u (if wide then [d, d + 1] else [d]) = .ok (s1, u1)
      ∧ t = s1.putLanes u1 g.mask d wide (fun _ => x))

/-- t is s with a pending operation that owes one value to all active items of a unit (R105, R256). -/
def State.Owes (s : State) (u : SUnit) (g : Guard) (setB : Bool) (wait : PendWait) (d : Nat) (wide : Bool) (x : W64) (t : State) : Prop :=
  let dests := if wide then [d, d + 1] else [d]
  (g.isTrue = true ∧ t = (s.addPend u wait (dests.zipIdx.map (fun r => .vu r.1 (.u (x.extractLsb' (32 * r.2) 32)))) true setB false).2)
  ∨ (g.isTrue = false ∧ u.isStrand = true ∧ ∃ s1, s.reserveRows u dests = .ok s1
      ∧ t = (s1.addPend u wait (dests.zipIdx.map (fun r => .vg r.1 u.lo g.mask (List.replicate 64 (x.extractLsb' (32 * r.2) 32)))) true setB false).2)

/-- The register instructions of the INT, FLT, SFU and CVT classes with one result register (R294-R321). -/
def regOp : Instr → Option RegOp
  | .iadd f => some (vOp f .t .t .t .none (.lin true) false opAdd)
  | .iaddImm f => some (iOp f .t .t (.lin true) false (immValue f.ty f.imm) opAdd)
  | .isub f => some (vOp f .t .t .t .none (.lin true) false opSub)
  | .isubImm f => some (iOp f .t .t (.lin true) false (immValue f.ty f.imm) opSub)
  | .imul f => some (vOp f .t .t .t .none .mul false opMul)
  | .imulImm f => some (iOp f .t .t .mul false (immValue f.ty f.imm) opMul)
  | .imulh f => some (vOp f .t .t .t .none .never false opMulh)
  | .imad f => some (vOp f .t .t .t .t .mad false opMad)
  | .imin f => some (vOp f .t .t .t .none .never false opMin)
  | .iminImm f => some (iOp f .t .t .never false (immValue f.ty f.imm) opMin)
  | .imax f => some (vOp f .t .t .t .none .never false opMax)
  | .imaxImm f => some (iOp f .t .t .never false (immValue f.ty f.imm) opMax)
  | .iabs f => some (vOp f .t .t .none .none .never false opAbs)
  | .ineg f => some (vOp f .t .t .none .none (.lin true) false opNeg)
  | .land f => some (vOp f .t .t .t .none .never false opAnd)
  | .landImm f => some (iOp f .t .t .never false (immValue f.ty f.imm) opAnd)
  | .lor f => some (vOp f .t .t .t .none .never false opOr)
  | .lorImm f => some (iOp f .t .t .never false (immValue f.ty f.imm) opOr)
  | .lxor f => some (vOp f .t .t .t .none .never false opXor)
  | .lxorImm f => some (iOp f .t .t .never false (immValue f.ty f.imm) opXor)
  | .landn f => some (vOp f .t .t .t .none .never false opAndn)
  | .landnImm f => some (iOp f .t .t .never false (immValue f.ty f.imm) opAndn)
  | .lnot f => some (vOp f .t .t .none .none (.lin false) false opNot)
  | .shl f => some (vOp f .t .t .v .none .shl false opShl)
  | .shlImm f => some (iOp f .t .t .shl false (f.imm.setWidth 64) opShl)
  | .shr f => some (vOp f .t .t .v .none .never false opShr)
  | .shrImm f => some (iOp f .t .t .never false (f.imm.setWidth 64) opShr)
  | .sar f => some (vOp f .t .t .v .none .never false opSar)
  | .sarImm f => some (iOp f .t .t .never false (f.imm.setWidth 64) opSar)
  | .rol f => some (vOp f .t .t .v .none .never false opRol)
  | .rolImm f => some (iOp f .t .t .never false (f.imm.setWidth 64) opRol)
  | .ror f => some (vOp f .t .t .v .none .never false opRor)
  | .rorImm f => some (iOp f .t .t .never false (f.imm.setWidth 64) opRor)
  | .popc f => some (vOp f .v .t .none .none .never false opPopc)
  | .clz f => some (vOp f .v .t .none .none .never false opClz)
  | .ctz f => some (vOp f .v .t .none .none .never false opCtz)
  | .brev f => some (vOp f .t .t .none .none .never false opBrev)
  | .bfx f => some (vOp f .t .t .v .none .never false opBfx)
  | .bfi f => some (vOp f .t .t .t .v .never false opBfi)
  | .sel f => some (selOp f)
  | .mov f => some (vOp f .t .none .t .none (.lin false) false opMov)
  | .movi f => some (iOp f .t .none (.lin false) false (immValue f.ty f.imm) opMov)
  | .lea f => some (vOp f .t .t .v .none (.lin false) false opLea)
  | .leaImm f => some (iOp f .t .t (.lin false) false (immValue f.ty f.imm) opLeaImm)
  | .iaddw f => some (vOp f .w .w .v .none .never false opAddw)
  | .iaddwImm f => some (iOp f .w .w .never false (f.imm.setWidth 64) opAddw)
  | .isubw f => some (vOp f .w .w .v .none .never false opSubw)
  | .mort f => some (vOp f .w .v .v .v .never false opMort)
  | .unmort f => some (vOp f .v .w .none .none .never false opUnmort)
  | .prmt f => some (vOp f .v .v .v .v .never false opPrmt)
  | .fadd f => some (vOp f .t .t .t .none .never false opFadd)
  | .faddImm f => some (iOp f .t .t .never false (immValue f.ty f.imm) opFadd)
  | .fsub f => some (vOp f .t .t .t .none .never false opFsub)
  | .fmul f => some (vOp f .t .t .t .none .never false opFmul)
  | .fmulImm f => some (iOp f .t .t .never false (immValue f.ty f.imm) opFmul)
  | .ffma f => some (vOp f .t .t .t .t .never false opFfma)
  | .ffmaImm f => some (iOp f .t .t .never true (immValue f.ty f.imm) opFfma)
  | .fmin f => some (vOp f .t .t .t .none .never false opFmin)
  | .fmax f => some (vOp f .t .t .t .none .never false opFmax)
  | .fclass f => some (vOp f .v .t .none .none .never false opFclass)
  | .frnd f => some (vOp f .t .t .none .none .never false opFrnd)
  | .fdot2 f => some (vOp f .v .v .v .v .never false opFdot2)
  | .fscale f => some (vOp f .t .t .v .none .never false opFscale)
  | .rcp f => some (vOp f .t .t .none .none .never true (opSfu .rcp))
  | .rsq f => some (vOp f .t .t .none .none .never true (opSfu .rsq))
  | .sqrt f => some (vOp f .t .t .none .none .never true opSqrt)
  | .exp2 f => some (vOp f .t .t .none .none .never true (opSfu .exp2))
  | .log2 f => some (vOp f .t .t .none .none .never true (opSfu .log2))
  | .sin f => some (vOp f .t .t .none .none .never true (opSfu .sin))
  | .cos f => some (vOp f .t .t .none .none .never true (opSfu .cos))
  | .tanh f => some (vOp f .t .t .none .none .never true (opSfu .tanh))
  | .fdiv f => some (vOp f .t .t .t .none .never true opFdiv)
  | .idiv f => some (vOp f .t .t .t .none .never true opIdiv)
  | .irem f => some (vOp f .t .t .t .none .never true opIrem)
  | .cvt f =>
    let src := Ty.ofCode (f.aux.extractLsb' 0 5)
    let a (s : State) (u : SUnit) : Source := s.regSource u .t src f.a.toNat
    some { pred := f.pred, pneg := f.pneg, d := f.d.toNat, wide := f.ty.wide, late := false
           uniform := fun s u => (a s u).isU, affine := fun _ _ => false
           value := fun s u k => BitVec.ofNat 64 (convert (Rm.ofMode f.mode u.fmode) (u.satOn f.sat) src f.ty ((a s u).at_ k).toNat) }
  | .pack f =>
    let regs := if packsFour f.ty then [f.a.toNat, f.a.toNat + 1, f.a.toNat + 2, f.a.toNat + 3] else [f.a.toNat, f.b.toNat]
    let el := packElem f.ty
    some { pred := f.pred, pneg := f.pneg, d := f.d.toNat, wide := false, late := false
           uniform := fun _ u => regs.all (fun r => u.vIsU r), affine := fun _ _ => false
           value := fun s u k => BitVec.ofNat 64 (packBits (tyBits el.1) (regs.map (fun r =>
             convert (Rm.ofMode f.mode u.fmode) (u.satOn f.sat) el.2 el.1 (s.vAt u r k).toNat))) }
  | .unpk f =>
    let el := packElem f.ty
    some { pred := f.pred, pneg := f.pneg, d := f.d.toNat, wide := false, late := false
           uniform := fun _ u => u.vIsU f.a.toNat, affine := fun _ _ => false
           value := fun s u k => BitVec.ofNat 64 (convert .rne false el.1 el.2
             (streamElem (tyBits el.1) (s.vAt u f.a.toNat k).toNat (f.aux.toNat % 4))) }
  | _ => none

/-- The instructions of the LANE class with one value for each active lane (R329-R336), and the block dequantisers (R324, R326). A permute
that also writes a predicate is not among them. -/
def laneOp : Instr → Option RegOp
  | .perm f => if f.aux.getLsbD 9 then none else some
      { pred := f.pred, pneg := f.pneg, d := f.d.toNat, wide := f.ty.wide, late := false, uniform := fun _ _ => false, affine := fun _ _ => false
        value := fun s u k => (s.crossRead u (fun x i => s.opdAt x f.ty.wide f.a.toNat i) (s.vAt u f.b.toNat k).toNat).1 }
  | .shfl f => if f.aux.getLsbD 9 then none else some
      { pred := f.pred, pneg := f.pneg, d := f.d.toNat, wide := f.ty.wide, late := false, uniform := fun _ _ => false, affine := fun _ _ => false
        value := fun s u k =>
          let b := (s.vAt u f.b.toNat k).toNat
          let l := k - u.lo
          let j : Int := match f.aux.toNat % 4 with
            | 0 => (l : Int) - b
            | 1 => (l : Int) + b
            | _ => ((l ^^^ b : Nat) : Int)
          (s.crossRead u (fun x i => s.opdAt x f.ty.wide f.a.toNat i) j).1 }
  | .bcast f => some
      { pred := f.pred, pneg := f.pneg, d := f.d.toNat, wide := f.ty.wide, late := false, uniform := fun _ _ => false, affine := fun _ _ => false
        value := fun s u _ =>
          let ix := f.aux.toNat % 128
          let j : Nat := if ix = 64 then (lowLane (u.guard f.pred f.pneg).mask).getD 0 else ix
          (s.crossRead u (fun x i => s.opdAt x f.ty.wide f.a.toNat i) j).1 }
  | .scan f => some
      { pred := f.pred, pneg := f.pneg, d := f.d.toNat, wide := false, late := false, uniform := fun _ _ => false, affine := fun _ _ => false
        value := fun s u k =>
          let e : OpEnv := { ty := f.ty, sat := u.satOn f.sat, rm := Rm.ofMode f.mode u.fmode, aux := 0 }
          let op := f.aux.toNat % 4
          let before := (lanesOf (u.guard f.pred f.pneg).mask).filter (fun j => decide (u.lo + j < k))
          let acc := before.foldl (fun acc j => scanCombine e op acc (s.vAt u f.a.toNat (u.lo + j)).toNat) (scanIdentity f.ty op)
          BitVec.ofNat 64 (if f.aux.getLsbD 2 then acc else scanCombine e op acc (s.vAt u f.a.toNat k).toNat) }
  | .redi f => some
      { pred := f.pred, pneg := f.pneg, d := f.d.toNat, wide := false, late := false, uniform := fun _ _ => false, affine := fun _ _ => false
        value := fun s u _ => BitVec.ofNat 64 ((lanesOf (u.guard f.pred f.pneg).mask).foldl
          (fun acc j => scanCombine { ty := f.ty, sat := false, rm := .rne, aux := 0 } (f.aux.toNat % 8) acc (s.vAt u f.a.toNat (u.lo + j)).toNat)
          (scanIdentity f.ty (f.aux.toNat % 8))) }
  | .xrnd f => some
      { pred := f.pred, pneg := f.pneg, d := f.d.toNat, wide := f.ty.wide, late := false, uniform := fun _ _ => false, affine := fun _ _ => false
        value := fun _ u _ =>
          BitVec.ofNat 64 ((tyFfmt f.ty).encode (Rm.ofMode f.mode u.fmode) (u.satOn f.sat) (u.xreg f.a.toNat).value) }
  | .shape f => some
      { pred := f.pred, pneg := f.pneg, d := f.d.toNat, wide := false, late := false, uniform := fun _ _ => false, affine := fun _ _ => false
        value := fun s u _ => BitVec.ofNat 64 ((match u.vreg f.a.toNat with | .u _ => 0 | .a _ _ => 1 | .g => 2)
          + 256 * (match s.groupOf u with | some gr => (gr.mapped (u.window gr)).length | none => 0)) }
  | .dqmx f =>
    let x (s : State) (u : SUnit) (k : Nat) : W64 := BitVec.ofNat 64 (fmtF32.encode .rne (u.satOn false)
      (mxValue f.ty (streamElem 8 (u.kreg f.b.toNat).toNat ((k - u.lo) / 32)) ((s.vAt u f.a.toNat k).toNat % 2 ^ tyBits f.ty)))
    some { pred := f.pred, pneg := f.pneg, d := f.d.toNat, wide := false, late := false, affine := fun _ _ => false
           uniform := fun s u => u.vIsU f.a.toNat && sameOn (u.guard f.pred f.pneg) (fun j => (x s u (u.lo + j)).setWidth 32), value := x }
  | .dqply f =>
    let x (s : State) (u : SUnit) (k : Nat) : W64 :=
      let kr := (u.kreg f.b.toNat).toNat
      let j := k - u.lo
      let mu := if kr.testBit (32 + 8 * (j / 16) + (j % 16) / 2) then 1 else 0
      BitVec.ofNat 64 (fmtF32.encode .rne false
        (plyValue f.ty (streamElem 8 kr (j / 16)) mu ((s.vAt u f.a.toNat k).toNat % 2 ^ (plyM f.ty + 1))))
    some { pred := f.pred, pneg := f.pneg, d := f.d.toNat, wide := false, late := false, affine := fun _ _ => false
           uniform := fun s u => u.vIsU f.a.toNat && sameOn (u.guard f.pred f.pneg) (fun j => (x s u (u.lo + j)).setWidth 32), value := x }
  | _ => none

/-- A compare (R303, R304, R310): the predicate it writes, whether its sources are U, whether one is G, its outcome for an item. -/
structure CmpOp where
  pred : BitVec 3
  pneg : Bool
  p : Nat
  uniform : State → SUnit → Bool
  general : State → SUnit → Bool
  holds : State → SUnit → Nat → Bool

/-- A compare of two sources. -/
def CmpOp.ofSources (pred : BitVec 3) (pneg : Bool) (d : BitVec 7) (a b : State → SUnit → Source) (order : W64 → W64 → Option Ordering) : CmpOp :=
  { pred := pred, pneg := pneg, p := d.toNat % 8, uniform := fun s u => (a s u).isU && (b s u).isU
    general := fun s u => (a s u).shape.isG || (b s u).shape.isG
    holds := fun s u k => condHolds (d.toNat / 8) (order ((a s u).at_ k) ((b s u).at_ k)) }

/-- The compares. -/
def cmpOp : Instr → Option CmpOp
  | .icmp f => some (.ofSources f.pred f.pneg f.d (fun s u => (s.regSource u .t f.ty f.a.toNat).negated f.nega f.ty)
      (fun s u => (s.lselSource u .t f.ty f.b.toNat f.lsel.toNat).negated f.negb f.ty) (fun a b => intOrder (tySigned f.ty) 32 a.toNat b.toNat))
  | .icmpImm f => some (.ofSources f.pred f.pneg f.d (fun s u => s.regSource u .t f.ty f.a.toNat) (fun _ _ => constSource (f.imm.setWidth 64))
      (fun a b => intOrder (tySigned f.ty) 32 a.toNat b.toNat))
  | .icmpw f => some (.ofSources f.pred f.pneg f.d (fun s u => (s.regSource u .w f.ty f.a.toNat).negated f.nega f.ty)
      (fun s u => (s.lselSource u .w f.ty f.b.toNat f.lsel.toNat).negated f.negb f.ty) (fun a b => intOrder (tySigned f.ty) 64 a.toNat b.toNat))
  | .fcmp f => some (.ofSources f.pred f.pneg f.d (fun s u => (s.regSource u .t f.ty f.a.toNat).negated f.nega f.ty)
      (fun s u => (s.lselSource u .t f.ty f.b.toNat f.lsel.toNat).negated f.negb f.ty)
      (fun a b => floatOrder (tyFfmt f.ty) (a.toNat % 2 ^ (tyFfmt f.ty).width) (b.toNat % 2 ^ (tyFfmt f.ty).width)))
  | .fcmpImm f => some (.ofSources f.pred f.pneg f.d (fun s u => s.regSource u .t f.ty f.a.toNat) (fun _ _ => constSource (immValue f.ty f.imm))
      (fun a b => floatOrder (tyFfmt f.ty) a.toNat b.toNat))
  | _ => none

/-- The items of an access of memory: the lowest active one where the address, and a store's data, are U; else every active one (R350-R352). -/
def SUnit.accessItems (u : SUnit) (g : Guard) (one : Bool) : List Nat := if one then [u.lowest g] else u.active g

/-- Whether an access of memory has one place for all its items: a U address, and U data for a store (R351, R352). -/
def SUnit.accessOne (u : SUnit) (f : FmtM) (pad store : Bool) : Bool := u.addrIsU f pad true && (!store || u.dataIsU f.ty f.d.toNat)

/-- The check of a global access of an instruction's items (R350): the places, or the first failure. -/
def State.globalPlaces (s : State) (u : SUnit) (f : FmtM) (need : Need) (idx : Bool) (n align : Nat) (line : Bool) (items : List Nat) :
    (Chk ⊕ List (Nat × Nat × Nat × Leaf)) × State :=
  s.checkItems (.core u.core) (s.ctxOf u) need n align line (items.map (fun k => (k, s.gaddr u f idx k)))

/-- The pad places of an instruction's items (R350, R123). -/
def State.padPlaces (s : State) (u : SUnit) (g : Group) (f : FmtM) (idx : Bool) (n align : Nat) (items : List Nat) :
    Except (W32 × Nat) (List (Nat × Nat × Nat × Nat)) :=
  padItems g u.core n align (items.map (fun k => (k, s.poff u f idx k)))

/-- The writes that a load owes to its destination (R351): one value, or a value for each item found. -/
def loadWrites (u : SUnit) (mask : BitVec 64) (one whole : Bool) (f : FmtM) (vals : List (Nat × W64)) : List RegWrite :=
  let x : W64 := (vals.head?.map (·.2)).getD 0
  (loadRegs f.ty f.d).zipIdx.map (fun d =>
    if one && whole then .vu d.1 (.u (x.extractLsb' (32 * d.2) 32))
    else .vg d.1 u.lo mask (if one then List.replicate 64 (x.extractLsb' (32 * d.2) 32) else laneValues u vals (d.2 == 1)))

/-- The ATOM instructions and their sub-operations (R289). -/
def atomOp : Instr → Option (AtomOp × FmtM)
  | .atomAdd f => some (.add, f) | .atomSub f => some (.sub, f) | .atomMin f => some (.min, f) | .atomMax f => some (.max, f)
  | .atomAnd f => some (.and, f) | .atomOr f => some (.or, f) | .atomXor f => some (.xor, f) | .atomXchg f => some (.xchg, f)
  | .atomCas f => some (.cas, f) | .atomInc f => some (.inc, f) | .atomFadd f => some (.fadd, f) | .atomFadd2 f => some (.fadd2, f)
  | .atomXam f => some (.xam, f) | .atomLd f => some (.ld, f)
  | _ => none

/-- The ATOMS instructions and their sub-operations (R289). -/
def atomsOp : Instr → Option (AtomOp × FmtM)
  | .atomsAdd f => some (.add, f) | .atomsSub f => some (.sub, f) | .atomsMin f => some (.min, f) | .atomsMax f => some (.max, f)
  | .atomsAnd f => some (.and, f) | .atomsOr f => some (.or, f) | .atomsXor f => some (.xor, f) | .atomsXchg f => some (.xchg, f)
  | .atomsCas f => some (.cas, f) | .atomsInc f => some (.inc, f) | .atomsFadd f => some (.fadd, f) | .atomsFadd2 f => some (.fadd2, f)
  | .atomsXam f => some (.xam, f) | .atomsLd f => some (.ld, f)
  | _ => none

/-- The request of an item of an ATOM (R129, R130). -/
def State.atomRequest (s : State) (u : SUnit) (i : Issue) (op : AtomOp) (f : FmtM) (id : Nat) (p : Nat × Nat × Nat × Leaf) : AtomReq :=
  let d := s.atomData u op f.ty f.index.toNat p.1
  { op := id, ask := none, word := i.wordAddr, after := i.nextClause, va := BitVec.ofNat 64 p.2.1, source := u.core, slot := u.slot.getD 0, item := p.1, lane := p.1 - u.lo, cluster := homeCluster p.2.2.1, pa := p.2.2.1
    ctx := s.ctxOf u, sub := op.code, ty := f.ty, data := d.1, data2 := d.2
    acc := if op = .xam then u.xreg f.index.toNat else XAcc.zero, reg := if op = .xam then none else some f.d.toNat, lo := u.lo }

/-- The items of an ATOM or ATOMS: the lowest active one for a merge of an accumulator (R355). -/
def SUnit.atomItems (u : SUnit) (g : Guard) (op : AtomOp) : List Nat := if op = .xam then [u.lowest g] else u.active g

/-- The alignment of an ATOM or ATOMS (R354, R355). -/
def atomAlign (op : AtomOp) (t : Ty) : Nat := if op = .xam then 16 else atomBytes op.code t

/-- The MMA-class instructions: the kind of operation and the registers of the offsets that count (R376, R377, R383). -/
def mmaKind : Instr → Option (FmtX × Nat × List (BitVec 7))
  | .mma f => some (f, 0, [f.a, f.b])
  | .mzero f => some (f, 1, [])
  | .mdrain f => some (f, 2, if 2 ≤ (f.ctrl.extractLsb' 0 4).toNat then [f.a, f.b] else [f.a])
  | .mload f => some (f, 3, [f.a])
  | _ => none

/-- The operation that an MMA-class word hands to the sequencer (R376-R384), its identifiers still to be given. -/
def State.mmaOperation (s : State) (u : SUnit) (i : Issue) (g : Group) (f : FmtX) (kind : Nat) (offs : List (BitVec 7)) : MmaOp :=
  let at_ (k : Nat) : Nat := match offs[k]? with
    | some r => (s.vAt u r.toNat (u.lowest (u.guard f.pred f.pneg))).toNat
    | none => 0
  { id := 0, op := 0, core := u.core, unit := u.id, group := g.id, word := i.wordAddr, kind := kind, pair := f.ctrl.getLsbD 8, a := at_ 0, b := at_ 1
    kb := f.imm8.toNat, planes := (f.ctrl.extractLsb' 0 4).toNat + 1, bfmt := (f.ctrl.extractLsb' 4 3).toNat, dfmt := (f.ctrl.extractLsb' 0 4).toNat
    round := if f.ctrl.extractLsb' 4 3 = 0 then (u.fmode.extractLsb' 0 2).toNat else (f.ctrl.extractLsb' 4 3).toNat - 1
    sat := f.ctrl.getLsbD 7 || u.fmode.getLsbD 2, clear := f.ctrl.getLsbD 9, keep := u.fmode.getLsbD 3, next := 0, assist := false
    after := i.nextClause }

/-- An element of an accumulator tile (R375). -/
def Tile.elem (t : Tile) (row col : Nat) : W32 := Kv.get 0 t.elems (row * 128 + col)

/-- A word has handed its entries to a queue of its core: its clause goes on once the queue holds no more than 64; until then it keeps its port
(R131). -/
def State.handed (s : State) (i : Issue) (u : SUnit) (queue : Nat) : State :=
  if s.queueLen u.core queue ≤ 64 then s.advance i
  else { s.updUnit u.id (fun u => { u with wait := .room queue 64 }) with
    issue := updWhere (fun j => j.unit == i.unit) (fun j => { j with entered := true }) s.issue }

/-- Entries of a unit put into a queue one after the other, as parts of one pending operation (R131). -/
def State.enterAll (s : State) (u : SUnit) (op queue reg : Nat) (jobs : List (Nat × EngJob)) : State :=
  jobs.foldl (fun s j => let e := s.mkEntry u op queue 0 j.1 reg j.2; e.2.enqueue e.1) s

/-- An HNK instruction (R386-R392): one entry for each item or one in all, whether it closes a region, its pad operand if it has one (bytes, alignment, offset of an
item), the request of an item without its record. -/
structure HankForm where
  f : FmtX
  code : Nat
  perItem : Bool
  closes : Bool
  place : Option (Nat × Nat × (State → SUnit → Nat → Nat))
  req : State → SUnit → Nat → HankReq

/-- The HNK instructions. -/
def hankForm : Instr → Option HankForm
  | .hkins f => some (mutation f 0)
  | .hkdel f => some (mutation f 1)
  | .hkmove f => some (mutation f 2)
  | .hkupd f => some (mutation f 3)
  | .hkopen f => some { f := f, code := 4, perItem := false, closes := true, place := none
                        req := fun s u k => { header f 4 s u with lo := s.wAt u f.b.toNat k, hi := s.wAt u f.c.toNat k } }
  | .hknext f => some { f := f, code := 5, perItem := false, closes := true, place := some (96, 16, fun s u k => (s.vAt u f.b.toNat k).toNat)
                        req := fun s u k => { emptyReq 5 with cursor := (s.vAt u f.a.toNat k).toNat, pos := f.ctrl.getLsbD 0 } }
  | .hkclose f => some { f := f, code := 6, perItem := false, closes := true, place := none
                         req := fun s u k => { emptyReq 6 with cursor := (s.vAt u f.a.toNat k).toNat } }
  | .hkcount f => some { f := f, code := 7, perItem := true, closes := false, place := none
                         req := fun s u k => { header f 7 s u with lo := s.wAt u f.b.toNat k, hi := s.wAt u f.c.toNat k } }
  | .hkfind f => some { f := f, code := 8, perItem := true, closes := false, place := none
                        req := fun s u k => { header f 8 s u with key := s.wAt u f.b.toNat k } }
  | .hknbr f => some { f := f, code := 9, perItem := true, closes := false
                       place := some (108, 4, fun s u k => (s.vAt u (f.b.toNat + 1) k).toNat)
                       req := fun s u k =>
                         { header f 9 s u with key := (s.vAt u f.b.toNat k).setWidth 64, offset := (s.vAt u (f.b.toNat + 1) k).toNat, maskArg := s.vAt u f.c.toNat k } }
  | .hkrank f => some { f := f, code := 10, perItem := false, closes := true, place := none, req := fun s u _ => header f 10 s u }
  | .hkrankThaw f => some { f := f, code := 10, perItem := false, closes := true, place := none
                            req := fun s u _ => { header f 10 s u with pos := true } }
  | .hkstat f => some { f := f, code := 11, perItem := true, closes := false, place := some (32, 16, fun s u k => (s.vAt u f.c.toNat k).toNat)
                        req := fun s u k => { header f 11 s u with key := (s.vAt u f.b.toNat k).setWidth 64, offset := (s.vAt u f.c.toNat k).toNat } }
  | _ => none
where
  header (f : FmtX) (code : Nat) (s : State) (u : SUnit) : HankReq :=
    { emptyReq code with hank := s.wAt u f.a.toNat (u.lowest (u.guard f.pred f.pneg)) }
  mutation (f : FmtX) (code : Nat) : HankForm :=
    { f := f, code := code, perItem := true, closes := true, place := some (96, 16, fun s u k => (s.vAt u f.b.toNat k).toNat)
      req := fun s u _ => header f code s u }

/-- The pad places of an HNK instruction's items; none where it has no pad operand. -/
def HankForm.places (h : HankForm) (s : State) (u : SUnit) (g : Group) : Except (W32 × Nat) (List (Nat × Nat × Nat × Nat)) :=
  match h.place with
  | none => .ok []
  | some (n, align, off) => padItems g u.core n align ((u.active (u.guard h.f.pred h.f.pneg)).map (fun k => (k, off s u k)))

/-- The requests of an HNK instruction whose items' pad places are ps: a mutation's with its record, one for all items with their places. -/
def HankForm.requests (h : HankForm) (s : State) (u : SUnit) (ps : List (Nat × Nat × Nat × Nat)) : List (Nat × EngJob) :=
  let g := u.guard h.f.pred h.f.pneg
  let place (k : Nat) := ps.find? (fun p => p.1 == k)
  if h.perItem then (u.active g).map (fun k => (k, .hank (match (if h.code ≤ 3 then place k else none) with
    | some p => (h.req s u k).ofRecord (s.padBytes p.2.2.1 p.2.2.2 96)
    | none => h.req s u k)))
  else [(u.lowest g, .hank { h.req s u (u.lowest g) with offsets := (u.active g).map (fun k => (k - u.lo, match place k with | some p => p.2.1 | none => 0)) })]

/-- Both halves of a wide destination owed as zeros until an engine gives each item its value (R386). -/
def wideZeros (u : SUnit) (mask : BitVec 64) (d : Nat) : List RegWrite :=
  [.vg d u.lo mask (List.replicate 64 0), .vg (d + 1) u.lo mask (List.replicate 64 0)]

/-- Whether a floating-point value is finite. -/
def Fv.isFin : Fv → Bool
  | .fin .. => true
  | _ => false

/-- The number that a finite floating-point value is. -/
def Fv.val : Fv → Rat
  | .fin neg mag e => mkRat ((if neg then -1 else 1) * (mag * 2 ^ e.toNat : Nat)) (2 ^ (-e).toNat)
  | _ => 0

/-- The magnitude of a number. -/
def magnitude (x : Rat) : Rat := if x < 0 then -x else x

/-- A number that a format represents. -/
def Ffmt.Represents (f : Ffmt) (y : Rat) : Prop := ∃ b < 2 ^ f.width, (f.decode b).isFin = true ∧ (f.decode b).val = y

/-- The largest finite value of a format. -/
def Ffmt.largest (f : Ffmt) : Rat := (f.decode f.maxBits).val

/-- l is floor(log2 x). -/
def Log2Of (x : Rat) (l : Int) : Prop := 2 ^ l ≤ x ∧ x < 2 ^ (l + 1)

/-- z is the integer of a range nearest to x; between two that are equally near, the even one. -/
def NearestEven (lo hi : Int) (x : Rat) (z : Int) : Prop :=
  lo ≤ z ∧ z ≤ hi ∧ ∀ k : Int, lo ≤ k → k ≤ hi → magnitude (x - z) ≤ magnitude (x - k) ∧ (magnitude (x - z) = magnitude (x - k) → k ≠ z → z % 2 = 0)

/-- The largest magnitude of some values. -/
def LargestOf (ys : List Fv) (a : Rat) : Prop := (∃ y ∈ ys, magnitude y.val = a) ∧ ∀ y ∈ ys, magnitude y.val ≤ a

/-- When a finite result rounds beyond the largest value to an infinity (R28): to nearest, from the midpoint between the largest value and the next
power of two; toward an infinity, beyond the largest value on its side; toward zero, never. -/
def Ffmt.Overflows (f : Ffmt) (rm : Rm) (x : Rat) : Prop :=
  match rm with
  | .rne => f.largest + f.largest / ((2 ^ (f.fw + 2) - 2 : Nat) : Rat) ≤ magnitude x
  | .rtz => False
  | .rup => f.largest < x
  | .rdn => x < -f.largest

/-- The bits r are the number x, of sign neg, rounded once into a format with infinities (R26, R28): to the nearest value, ties to even bits; or to
the nearest one in the mode's direction; beyond the largest value an infinity, or under saturation, and where the mode leads back, the
largest value. -/
structure Ffmt.Rounds (f : Ffmt) (rm : Rm) (sat : Bool) (x : Rat) (neg : Bool) (r : Nat) : Prop where
  bits : r < 2 ^ f.width
  sign : r.testBit (f.ew + f.fw) = neg
  infinite : f.decode r = .inf neg ↔ sat = false ∧ f.Overflows rm x
  finite : f.decode r = .inf neg ∨ (f.decode r).isFin = true
  nearest : rm = .rne → (f.decode r).isFin = true → ∀ y, f.Represents y →
    magnitude (x - (f.decode r).val) ≤ magnitude (x - y)
    ∧ (magnitude (x - (f.decode r).val) = magnitude (x - y) → y ≠ (f.decode r).val → r % 2 = 0)
  toZero : rm = .rtz → magnitude (f.decode r).val ≤ magnitude x
    ∧ ∀ y, f.Represents y → magnitude y ≤ magnitude x → magnitude y ≤ magnitude (f.decode r).val
  up : rm = .rup → (f.decode r).isFin = true → (x ≤ (f.decode r).val ∨ (f.decode r).val = f.largest)
    ∧ ∀ y, f.Represents y → x ≤ y → (f.decode r).val ≤ y
  down : rm = .rdn → (f.decode r).isFin = true → ((f.decode r).val ≤ x ∨ (f.decode r).val = -f.largest)
    ∧ ∀ y, f.Represents y → y ≤ x → y ≤ (f.decode r).val

end Sys2Proof.Machine
end

