-- ==== Sys2Proof/Certificates/Slice0/Obligations.lean ====
section
/-! DEFINITION. The obligations: what the numbered rules of the spec, and the model's own invariants, say about this machine. -/

section
open Sys2Proof Sys2Proof.Machine
/-- Encoding and decoding agree: a well-formed instruction word comes back out of the word its class gives it, with every field (R259-R267). -/
def Obligations.DecodeInvertsEncode : Prop :=
  ∀ (i : Instr) (c : Cls), i.wf = true → i.cls = some c → decodeWord c (encode i) = some i

/-- What decoding accepts is well formed, of its class, and the only word of its instruction: no bit of the word is ignored (R259-R267). -/
def Obligations.DecodedWordsAreExact : Prop :=
  ∀ (c : Cls) (w : BitVec 64) (i : Instr), decodeWord c w = some i → i.wf = true ∧ i.cls = some c ∧ encode i = w

/-- Words written out from the encoding tables of the spec decode to the instructions they stand for (R253-R267, R281-R291). -/
def Obligations.SpecWordsDecode : Prop :=
  decodeWord .int 0x0004_0848_0E10_0000 = some (.iadd { d := 2, a := 2, b := 9, c := 0, pred := 7, pneg := false, ty := .s32, mode := 0, lsel := 0, nega := false, negb := false, sat := false, aux := 0 })
  ∧ decodeWord .flt 0x030A_0410_3552_2800 = some (.ffma { d := 5, a := 1, b := 2, c := 3, pred := 2, pneg := true, ty := .f32, mode := 2, lsel := 1, nega := false, negb := true, sat := false, aux := 0 })
  ∧ decodeWord .flt 0x800C_1794_3FC0_0000 = some (.faddImm { d := 6, a := 5, pred := 7, pneg := false, ty := .f32, imm := 0x3FC0_0000 })
  ∧ decodeWord .mem 0x0012_203A_E334_0010 = some (.ld { d := 9, base := 8, index := 7, scale := 2, pred := 7, pneg := false, ty := .n32, scope := 3, order := 1, cache := 0, offset := 16 })
  ∧ decodeWord .ctl 0x0100_0080_FFFF_FFFE = some (.bra { aux7 := 0, a := 0, pred := 1, pneg := false, sub := 0, target := 0xFFFF_FFFE })
  ∧ decodeWord .ctl 0x0F18_0380_0013_0000 = some (.rdsr { d := 12, a := 0, pred := 7, pneg := false, sreg := 0x13, imm := 0 })
  ∧ decodeWord .mma 0x0000_1838_0E04_0012 = some (.mma { d := 0, a := 6, b := 7, c := 0, pred := 7, pneg := false, imm8 := 4, ctrl := 0x12 })
  ∧ decodeWord .bem 0x0074_C000_0E00_0000 = some (.bqry { d := 58, a := 48, b := 0, c := 0, pred := 7, pneg := false, imm8 := 0, ctrl := 0 })

/-- A step advances the counters and runs the event at the head of the agenda; with none, the word that the head of the ports decodes to; with
no clause in issue, or none that decodes, what the module does of itself or the word's trap. The word of a slot is read in the class of its
slot (R255). A unit that waits within its clause gives way to the first clause in issue that can go on, and with none to what the module does
of itself. The agenda and the order in which the module acts of itself are this model's choice (assumption log 3). -/
def Obligations.StepRunsTheHead : Prop :=
  (∀ (s : State) (i : Instr) (rest : List Instr), s.agenda = i :: rest → step s = exec i { s.tick with agenda := rest })
  ∧ (∀ (s : State) (c : Issue) (rest : List Issue) (i : Instr), s.agenda = [] → s.issue = c :: rest → s.poison.rows = [] →
      (∀ u, s.unit? c.unit = some u → u.wait = .none) → c.hdr.decodeSlot c.slot (c.words.getD c.slot 0) = some i → step s = exec i s.tick)
  ∧ (∀ (s : State) (c : Issue) (u : SUnit), s.agenda = [] → s.AtHead c u → u.wait = .none →
      c.hdr.decodeSlot c.slot (c.words.getD c.slot 0) = none → step s = s.tick.trapped c u causeIllins c.wordAddr true)
  ∧ (∀ s : State, s.agenda = [] → s.issue = [] → step s = .next s.tick.idle)
  ∧ (∀ (s : State) (c d : Issue) (u x : SUnit) (before after : List Issue) (i : Instr), s.agenda = [] → s.AtHead c u → u.wait ≠ .none →
      s.issue = before ++ d :: after → (∀ j ∈ before, ∃ y, s.unit? j.unit = some y ∧ s.waitOver y = false ∧ j.unit ≠ d.unit) →
      s.unit? d.unit = some x → s.waitOver x = true → s.poison.rows = [] → d.hdr.decodeSlot d.slot (d.words.getD d.slot 0) = some i →
      step s = exec i ({ s.tick with issue := d :: s.issue.filter (·.unit != d.unit) }.updUnit d.unit (fun v => { v with wait := .none })))
  ∧ (∀ (s : State) (c : Issue) (u : SUnit), s.agenda = [] → s.AtHead c u → u.wait ≠ .none →
      (∀ j ∈ s.issue, ∃ y, s.unit? j.unit = some y ∧ s.waitOver y = false) → step s = .next s.tick.idle)

/-- What power-on reset leaves. The spec gives (R18, R239, R245, R247): every die in RESET with its counter zero, the mailbox and firmware status
zero, every port DOWN and not enabled. The model's choice (assumption log 1): no memory listed, its bytes reading zero. The model's choice
(assumption log 2): no host link up, no work, context, queue or partition, no accumulator tile held. Storage and register tables are in
canonical form at reset, which is the model's own invariant. -/
def Obligations.ResetState : Prop :=
  (State.reset.dies.length = 4 ∧ (∀ d, d < 4 → (State.reset.die d).stage = .reset ∧ (State.reset.die d).cycle = 0)
  ∧ State.reset.mailbox.fwstatus = 0 ∧ State.reset.mailbox.mgmtq = 0 ∧ State.reset.mailbox.linkdrop = 0
  ∧ State.reset.ports.length = 16 ∧ (∀ p ∈ State.reset.ports, p.state = .down ∧ p.enable = false)
  ∧ State.reset.linkUp = false ∧ State.reset.ctxs = [] ∧ State.reset.parts = [] ∧ State.reset.hqs = [] ∧ State.reset.launches = []
  ∧ State.reset.units = [] ∧ State.reset.mem = [] ∧ State.reset.tiles = [])
  ∧ (State.reset.Inv ∧ State.reset.RegsInv)

/-- Every step keeps memory, pads, caches and register rows in canonical form, whatever it executes: a word, an event of the host, an engine's
work, an exception. -/
def Obligations.StepKeepsStorageForm : Prop :=
 ∀ s t : State, s.Inv → step s = .next t → t.Inv

/-- Every step keeps the register tables of every span and strand in canonical form: dealing, materialisation, splits, fusion and restore too. -/
def Obligations.StepKeepsRegisterForm : Prop :=
 ∀ s t : State, s.RegsInv → step s = .next t → t.RegsInv

/-- R97: a register instruction whose predicate is U true and whose sources are U gives one value, kept once, to its destination, and the clause
goes on; over a span, a dealt piece or a strand alike.
R97: where the sources are U or affine and the operation keeps affine values affine, the result is a base and a stride, and gives every item
the value that the operation gives it. -/
def Obligations.UniformAndAffineResult : Prop :=
  (∀ (ins : Instr) (o : RegOp) (s : State) (i : Issue) (u : SUnit), regOp ins = some o → s.AtHead i u → u.predOf o.pred o.pneg = .u true →
    u.anyActive (o.guard u) = true → o.late = false → o.uniform s u = true → u.regionHit o.dests [] = none →
    exec ins s = .next ((s.putUnit (o.putUniform u (o.value s u u.lo))).advance i))
  ∧ (∀ (ins : Instr) (o : RegOp) (s : State) (i : Issue) (u : SUnit), regOp ins = some o → s.AtHead i u → u.predOf o.pred o.pneg = .u true →
    u.anyActive (o.guard u) = true → o.late = false → o.uniform s u = false → o.affine s u = true → o.wide = false → u.regionHit o.dests [] = none →
    ∃ base stride : W32, exec ins s = .next ((s.putUnit (u.setV o.d (VReg.affine base stride))).advance i)
      ∧ ∀ k : Nat, base + stride * BitVec.ofNat 32 k = (o.value s u k).extractLsb' 0 32)

/-- R97, R91: in a strand, a result that is neither U nor affine, or a predicate that is not U, gives one value for each active lane, in rows
mapped for the destination; the other lanes keep theirs.
R91, R97: writing lanes of a mapped row gives exactly those lanes their values: another lane, and a row not mapped to the register, read as
before. Mapping a row for a register keeps what every item of the strand reads from it. -/
def Obligations.LaneResult : Prop :=
  (∀ (ins : Instr) (o : RegOp) (s s1 : State) (i : Issue) (u u1 : SUnit), regOp ins = some o ∨ laneOp ins = some o → s.AtHead i u →
    u.isStrand = true → o.late = false → (o.guard u).mask ≠ 0 → u.regionHit o.dests [] = none →
    ¬(u.predOf o.pred o.pneg = .u true ∧ (o.uniform s u = true ∨ o.affine s u = true ∧ o.wide = false)) →
    s.ensureRows u o.dests = .ok (s1, u1) →
    exec ins s = .next ((s1.putLanes u1 (o.guard u).mask o.d o.wide (o.value s u)).advance i))
  ∧ ((∀ (s : State) (u : SUnit) (g : Group) (r k : Nat) (mask : BitVec 64) (vals : List W32), s.Inv → s.groupOf u = some g → g.rowOf (u.window g) r = some k →
    (∀ j, j < 64 → ((s.writeLanes u r mask vals).row k).getD j 0 = if mask.getLsbD j then vals.getD j 0 else (s.row k).getD j 0)
    ∧ (∀ k', k' ≠ k → (s.writeLanes u r mask vals).row k' = s.row k'))
  ∧ (∀ (s s1 : State) (u u1 : SUnit) (r : Nat), s.Inv → s.RegsInv → s.unit? u.id = some u → s.ensureRows u [r] = .ok (s1, u1) →
    u1.vreg r = .g ∧ (∀ r', r' ≠ r → u1.vreg r' = u.vreg r') ∧ s1.unit? u.id = some u1
    ∧ (∀ j, j < 64 → u.mask.getLsbD j = true → s1.vAt u1 r (u.lo + j) = s.vAt u r (u.lo + j))))

/-- R105, R256: a special function or division gives its value as a long-latency result: a pending operation of the clause owes the writes, with
the values of the operands at issue; the register rows it needs are mapped at once.
R105, R256: a long-latency result that waits for nothing lands in the units it belongs to, in the order of its writes, once they have left its clause, and then the
duties that waited for it may be met. A unit of a saved group takes it after its restore (R222), which is the model's reading (assumption log 16).
R314 to R316: the values of the special functions: at infinities, zeros, NaN and the negative arguments of RSQ, LOG2 and SQRT as the table says; EXP2 of an integer, LOG2 of a power of two and SIN of a small argument exact; elsewhere a 16-bit result is the value of the
function rounded once, and a wider one is that too, or lies within the bound of its function. The bound is measured from the number that the model computes for the function, of 199 significant bits at least for RCP. -/
def Obligations.LateResult : Prop :=
  (∀ (ins : Instr) (o : RegOp) (s : State) (i : Issue) (u : SUnit), regOp ins = some o → s.AtHead i u → o.late = true →
    u.anyActive (o.guard u) = true → u.regionHit o.dests [] = none →
    (u.predOf o.pred o.pneg = .u true → o.uniform s u = true →
      exec ins s = .next ((s.addPend u .ready (o.dests.zipIdx.map (fun d => .vu d.1 (.u ((o.value s u u.lo).extractLsb' (32 * d.2) 32)))) true false false).2.advance i))
    ∧ (∀ s1 : State, u.isStrand = true → o.uniform s u = false → s.reserveRows u o.dests = .ok s1 →
      exec ins s = .next ((s1.addPend u .ready (o.dests.zipIdx.map (fun d => .vg d.1 u.lo (o.guard u).mask ((List.range 64).map (fun j =>
        if (o.guard u).mask.getLsbD j then (o.value s u (u.lo + j)).extractLsb' (32 * d.2) 32 else 0)))) true false false).2.advance i)))
  ∧ (∀ (s : State) (o : PendOp), s.pend.find? (fun x => x.id == o.id) = some o → o.wait = .ready → (∀ t ∈ o.targets, ∀ u, s.unit? t = some u → u.parkedAt = none) →
    let r := s.landTargets o
    (r.2 = [] → exec (.longLatencyResult o.id) s = .next (r.1.dropPend o.id)) ∧ (r.2 = o.targets → o.targets ≠ [] → exec (.longLatencyResult o.id) s = .next s))
  ∧ (∀ (s : State) (o : PendOp) (t : Nat) (u : SUnit), s.unit? t = some u → u.isStrand = true → (∀ g, s.groupOf u = some g → g.state ≠ .saved) →
    s.landAll o t = o.writes.foldl (fun s w => s.landWrite t w) s ∧ (s.within o t = false → o.targets = [t] → s.landTargets o = (s.landAll o t, [])) ∧ (s.within o t = true → o.targets = [t] → s.landTargets o = (s, [t])))
  ∧ (∀ f ∈ [fmtF16, fmtBf16, fmtF32, fmtF64], ∀ (sat : Bool) (rm : Rm) (bits : Nat), bits < 2 ^ f.width →
    let one : Fv := .fin false 1 0
    let zero : Fv := .fin false 0 0
    (∀ row ∈ ([(.rcp, zero, zero.neg, .inf false, .inf true), (.rsq, zero, .nan, .inf false, .inf true), (.exp2, .inf false, zero, one, one), (.log2, .inf false, .nan, .inf true, .inf true),
        (.sin, .nan, .nan, zero, zero.neg), (.cos, .nan, .nan, one, one), (.tanh, one, one.neg, zero, zero.neg)] : List (SfuOp × Fv × Fv × Fv × Fv)),
      let r := row.1.eval f sat bits
      (f.decode bits = .nan → r = f.nanBits) ∧ (f.decode bits = .inf false → r = f.encode .rne sat row.2.1) ∧ (f.decode bits = .inf true → r = f.encode .rne sat row.2.2.1)
      ∧ (bits = 0 → r = f.encode .rne sat row.2.2.2.1) ∧ (bits = f.signBit true → r = f.encode .rne sat row.2.2.2.2))
    ∧ (f.decode bits = .nan → f.sqrt rm sat bits = f.nanBits) ∧ (f.decode bits = .inf false → f.sqrt rm sat bits = f.encode rm sat (.inf false)) ∧ (f.decode bits = .inf true → f.sqrt rm sat bits = f.nanBits)
    ∧ (bits = 0 ∨ bits = f.signBit true → f.sqrt rm sat bits = bits)
    ∧ ((f.decode bits).isFin = true → (f.decode bits).val < 0 → SfuOp.rsq.eval f sat bits = f.nanBits ∧ SfuOp.log2.eval f sat bits = f.nanBits ∧ f.sqrt rm sat bits = f.nanBits)
    ∧ (∀ k : Int, (f.decode bits).isFin = true → k.natAbs < 4096 → (f.decode bits).val = k → SfuOp.exp2.eval f sat bits = f.encode .rne sat (.fin false 1 k))
    ∧ (∀ k : Int, (f.decode bits).isFin = true → (f.decode bits).val = 2 ^ k → SfuOp.log2.eval f sat bits = f.encode .rne sat (.ofInt k))
    ∧ (f = fmtF32 ∨ f = fmtF64 → (f.decode bits).isFin = true → magnitude (f.decode bits).val < 2 ^ (-12 : Int) → SfuOp.sin.eval f sat bits = bits)
    ∧ (∀ (op : SfuOp) (n : Bool) (m : Nat) (e : Int), f.decode bits = .fin n m e → op.special (f.decode bits) = none →
        let y := op.value n m e
        let r := op.eval f sat bits
        let exact := (Fv.fin y.neg y.mag y.exp).val
        (f = fmtF16 ∨ f = fmtBf16 → r = f.roundReal .rne sat y)
        ∧ (f = fmtF32 ∨ f = fmtF64 → op.exact (f.decode bits) y = none → r = f.roundReal .rne sat y
            ∨ ((f.decode r).isFin = true ∧ match op.absBound (f.decode bits) with
                | some k => magnitude ((f.decode r).val - exact) ≤ 2 ^ k
                | none => ∀ l, Log2Of (magnitude exact) l → magnitude ((f.decode r).val - exact) ≤ op.ulps * 2 ^ (max l (1 - (f.bias : Int)) - f.fw)))
        ∧ (op = .rcp → y.neg = n ∧ 2 ^ 199 ≤ y.mag ∧ (Fv.fin false y.mag y.exp).val * (Fv.fin false m e).val ≤ 1 ∧ 1 < (Fv.fin false (y.mag + 1) y.exp).val * (Fv.fin false m e).val)))

/-- R260: with no active item a register instruction or a compare does nothing, and does not trap. R77, R96: a result with one value for each item is
not given to a span; the span is dealt or materialised and its pieces or strands execute the word. R81: a span of an aborting launch that would
be dealt goes instead. -/
def Obligations.SkippedOrDealt : Prop :=
  ∀ (ins : Instr) (s : State) (i : Issue) (u : SUnit), s.AtHead i u →
    (∀ o : RegOp, regOp ins = some o →
      (u.anyActive (o.guard u) = false → exec ins s = .next (s.advance i))
      ∧ (u.isStrand = false → u.anyActive (o.guard u) = true → u.regionHit o.dests [] = none →
          ¬(u.predOf o.pred o.pneg = .u true ∧ o.uniform s u = true) →
          ¬(u.predOf o.pred o.pneg = .u true ∧ o.affine s u = true ∧ o.wide = false ∧ o.late = false) →
          exec ins s = .next (s.dealOn u)))
    ∧ (∀ o : RegOp, laneOp ins = some o → u.isStrand = false → exec ins s = .next (s.dealOn u))
    ∧ (∀ o : CmpOp, cmpOp ins = some o → u.anyActive (u.guard o.pred o.pneg) = false → exec ins s = .next (s.advance i))

/-- R215, R91: a register instruction that would write an input of an open region traps REGIONWRITE with the register's number; one whose result
needs a row that its window has not, traps GREGS with the register's number. The trap leaves the registers as they were. -/
def Obligations.RegisterTraps : Prop :=
  ∀ (ins : Instr) (o : RegOp) (s : State) (i : Issue) (u : SUnit), regOp ins = some o ∨ laneOp ins = some o → s.AtHead i u →
    u.isStrand = true → (o.guard u).mask ≠ 0 →
    (∀ x : W64, u.regionHit o.dests [] = some x → exec ins s = s.trapped i u causeRegionwrite x false)
    ∧ (∀ r : W32, u.regionHit o.dests [] = none → o.late = false →
        ¬(u.predOf o.pred o.pneg = .u true ∧ (o.uniform s u = true ∨ o.affine s u = true ∧ o.wide = false)) →
        s.ensureRows u o.dests = .error r → exec ins s = s.trapped i u causeGregs (r.setWidth 64) false)

/-- The frame of the register instructions and of the lane instructions in a strand, or with U sources: memory and pads as before, no row but those mapped to the
destinations changed, the other units' registers as before, and of the unit itself every register but the destinations, its predicates,
scale registers and accumulators. -/
def Obligations.RegisterFrame : Prop :=
  ∀ (ins : Instr) (o : RegOp) (s t : State) (i : Issue) (u : SUnit), regOp ins = some o ∨ laneOp ins = some o → s.AtHead i u →
    s.Inv → s.RegsInv →
    u.isStrand = true ∨ (regOp ins = some o ∧ u.predOf o.pred o.pneg = .u true ∧ o.uniform s u = true ∧ s.trapRoutine u = 0) →
    exec ins s = .next t →
    s.SameBytes t ∧ s.SamePads t
    ∧ (∀ x', x' ∈ t.units → ∃ x ∈ s.units, x.id = x'.id ∧ (x'.id ≠ i.unit → x'.SameRegs x))
    ∧ (∀ u', t.unit? i.unit = some u' → (∀ r, r ∉ o.dests → u'.vreg r = u.vreg r) ∧ u'.p = u.p ∧ u'.k = u.k ∧ u'.x = u.x)
    ∧ (∀ k, (∀ g, t.groupOf u = some g → ∀ r ∈ o.dests, g.rowOf (u.window g) r ≠ some k) → t.row k = s.row k)

/-- R297, R298, R306, R318: the integer operations on a 32- or 64-bit value, without saturation: sums, products and negations modulo 2^w, minimum
and maximum under the signedness of the type, the upper half of a product, division truncating toward zero with its two corners, the
sum with a 32-bit source extended by the type; saturated sums clamp. R299, R301, R307: the logic, shift, rotate and bit-field operations; a shift
amount is read as n32 and one of w or more shifts everything out; the Morton key interleaves bits and UNMORT takes an axis back. -/
def Obligations.IntegerOperations : Prop :=
  (∀ (t : Ty) (w : Nat), (w = 32 ∧ t ∈ [.s32, .n32]) ∨ (w = 64 ∧ t ∈ [.s64, .n64]) → ∀ (e : OpEnv) (a b c : BitVec w), e.ty = t → e.sat = false →
    opAdd e a.toNat b.toNat c.toNat = (a + b).toNat ∧ opSub e a.toNat b.toNat c.toNat = (a - b).toNat
    ∧ opMul e a.toNat b.toNat c.toNat = (a * b).toNat ∧ opMad e a.toNat b.toNat c.toNat = (a * b + c).toNat
    ∧ opNeg e a.toNat b.toNat c.toNat = (-a).toNat
    ∧ opMin e a.toNat b.toNat c.toNat = (if (if tySigned t then b.slt a else b.ult a) then b else a).toNat
    ∧ opMax e a.toNat b.toNat c.toNat = (if (if tySigned t then a.slt b else a.ult b) then b else a).toNat
    ∧ opMulh e a.toNat b.toNat c.toNat = (if tySigned t then (a.signExtend (2 * w) * b.signExtend (2 * w)).extractLsb' w w
        else (a.setWidth (2 * w) * b.setWidth (2 * w)).extractLsb' w w).toNat
    ∧ opIdiv e a.toNat b.toNat c.toNat = (if b = 0 then BitVec.allOnes w else if tySigned t then a.sdiv b else a / b).toNat
    ∧ opIrem e a.toNat b.toNat c.toNat = (if b = 0 then 0 else if tySigned t then a.srem b else a % b).toNat)
  ∧ (∀ (w : Nat) (e : OpEnv) (a b c : BitVec w), (w = 32 ∧ e.ty = .s32) ∨ (w = 64 ∧ e.ty = .s64) →
    (e.sat = false → opAbs e a.toNat b.toNat c.toNat = (if a.msb then -a else a).toNat)
    ∧ (e.sat = true → opAdd e a.toNat b.toNat c.toNat = (BitVec.ofInt w (max (-(2 ^ (w - 1))) (min (2 ^ (w - 1) - 1) (a.toInt + b.toInt)))).toNat
        ∧ opSub e a.toNat b.toNat c.toNat = (BitVec.ofInt w (max (-(2 ^ (w - 1))) (min (2 ^ (w - 1) - 1) (a.toInt - b.toInt)))).toNat
        ∧ opAbs e a.toNat b.toNat c.toNat = min a.toInt.natAbs (2 ^ (w - 1) - 1)))
  ∧ (∀ (e : OpEnv) (a b c : BitVec 32), e.ty = .n32 → e.sat = true →
    opAdd e a.toNat b.toNat c.toNat = min (a.toNat + b.toNat) (2 ^ 32 - 1) ∧ opSub e a.toNat b.toNat c.toNat = a.toNat - b.toNat
    ∧ opMul e a.toNat b.toNat c.toNat = min (a.toNat * b.toNat) (2 ^ 32 - 1))
  ∧ (∀ (e : OpEnv) (a : BitVec 64) (b : BitVec 32) (c : Nat), e.ty = .s32 ∨ e.ty = .n32 →
    opAddw e a.toNat b.toNat c = (a + (if e.ty = .s32 then b.signExtend 64 else b.setWidth 64)).toNat
    ∧ opSubw e a.toNat b.toNat c = (a - (if e.ty = .s32 then b.signExtend 64 else b.setWidth 64)).toNat)
  ∧ (∀ (e : OpEnv) (a b i : Nat), e.sat = false → (e.ty = .s8x4 ∨ e.ty = .n8x4) → i < 4 →
    streamElem 8 (opAdd e a b 0) i = (streamElem 8 a i + streamElem 8 b i) % 2 ^ 8
    ∧ streamElem 8 (opSub e a b 0) i = (streamElem 8 a i + 2 ^ 8 - streamElem 8 b i) % 2 ^ 8)
  ∧ (∀ (w : Nat), w = 32 ∨ w = 64 → ∀ (e : OpEnv) (a b : BitVec w) (n : W32) (c : Nat), (if w = 64 then e.ty ∈ [.b64, .s64, .n64] else e.ty ∈ [.b32, .s32, .n32]) →
    opAnd e a.toNat b.toNat c = (a &&& b).toNat ∧ opOr e a.toNat b.toNat c = (a ||| b).toNat ∧ opXor e a.toNat b.toNat c = (a ^^^ b).toNat
    ∧ opNot e a.toNat b.toNat c = (~~~a).toNat ∧ opAndn e a.toNat b.toNat c = (a &&& ~~~b).toNat
    ∧ opShl e a.toNat n.toNat c = (a <<< n.toNat).toNat ∧ opShr e a.toNat n.toNat c = (a >>> n.toNat).toNat
    ∧ opSar e a.toNat n.toNat c = (a.sshiftRight n.toNat).toNat
    ∧ opRol e a.toNat n.toNat c = (a.rotateLeft n.toNat).toNat ∧ opRor e a.toNat n.toNat c = (a.rotateRight n.toNat).toNat
    ∧ opMov e c b.toNat c = b.toNat ∧ opLea e a.toNat n.toNat c = (a + (n.setWidth w <<< (e.aux % 8))).toNat
    ∧ (∀ j : Nat, j < w →
        let pos := n.toNat % 256
        let len := if w ≤ pos then 0 else min (n.toNat / 256 % 256) (w - pos)
        (opBfi e a.toNat b.toNat n.toNat).testBit j = (if pos ≤ j ∧ j < pos + len then b.getLsbD (j - pos) else a.getLsbD j)
        ∧ (opBfx e a.toNat n.toNat c).testBit j = (if j < len then a.getLsbD (pos + j) else decide (0 < len) && tySigned e.ty && a.getLsbD (pos + len - 1))))
  ∧ (∀ (e : OpEnv) (a b c : W32) (j : Nat), e.aux % 32 = 0 → j < 63 →
      (opMort e a.toNat b.toNat c.toNat).testBit j = (if j % 3 = 0 then a else if j % 3 = 1 then b else c).getLsbD (j / 3))
  ∧ (∀ (e e' : OpEnv) (a b c : W32), e.aux % 32 = 0 → e'.aux % 4 < 3 →
      opUnmort e' (opMort e a.toNat b.toNat c.toNat) 0 0 = (if e'.aux % 4 = 0 then a else if e'.aux % 4 = 1 then b else c).toNat % 2 ^ 21)
  ∧ (∀ (e : OpEnv) (a b c : W32) (j : Nat), j < 4 →
      streamElem 8 (opPrmt e a.toNat b.toNat c.toNat) j =
        (let sel := c.extractLsb' (4 * j) 4
         let byte := (b ++ a).extractLsb' (8 * (sel.toNat % 8)) 8
         if sel.getLsbD 3 then (if byte.msb then 255 else 0) else byte.toNat))

/-- R24 to R28, R30, R308, R317, R319: floating-point results. A finite value is rounded once into f64, f32, f16, bf16 or e5m2 as the mode says; sums and products are
exact before that, an exact zero sum of values of unlike signs is -0 under RDN and +0 else. FADD, FSUB, FMUL and FFMA round the exact result,
element by element; FDIV rounds the quotient; CVT between these formats rounds the value; NaN and the invalid cases give the canonical NaN; a
finite value over zero is infinite. -/
def Obligations.FloatArithmetic : Prop :=
  (∀ f ∈ [fmtF64, fmtF32, fmtF16, fmtBf16, fmtE5m2], ∀ (rm : Rm) (sat neg : Bool) (mag : Nat) (e : Int),
    f.Rounds rm sat (Fv.fin neg mag e).val neg (f.encode rm sat (.fin neg mag e)))
  ∧ (∀ (rm : Rm) (a b : Fv), a.isFin = true → b.isFin = true →
      (Fv.add rm a b).isFin = true ∧ (Fv.add rm a b).val = a.val + b.val
      ∧ (Fv.mul a b).isFin = true ∧ (Fv.mul a b).val = a.val * b.val ∧ (Fv.mul a b).sign = (a.sign != b.sign)
      ∧ (a.val + b.val = 0 → (Fv.add rm a b).sign = if a.sign = b.sign then a.sign else decide (rm = .rdn)))
  ∧ (∀ (rm : Rm) (x : Fv) (n m : Bool),
      Fv.add rm .nan x = .nan ∧ Fv.add rm x .nan = .nan ∧ Fv.mul .nan x = .nan ∧ Fv.mul x .nan = .nan
      ∧ Fv.add rm (.inf n) (.inf m) = (if n = m then .inf n else .nan) ∧ Fv.mul (.inf n) (.inf m) = .inf (n != m)
      ∧ (x.isFin = true → Fv.add rm (.inf n) x = .inf n ∧ Fv.add rm x (.inf n) = .inf n
          ∧ Fv.mul (.inf n) x = (if x.val = 0 then .nan else .inf (n != x.sign)) ∧ Fv.mul x (.inf n) = Fv.mul (.inf n) x))
  ∧ (∀ (t : Ty) (f : Ffmt) (nan inf : Nat), (t, f, nan, inf) ∈ [(.f64, fmtF64, 0x7FF8_0000_0000_0000, 0x7FF0_0000_0000_0000),
        (.f32, fmtF32, 0x7FC0_0000, 0x7F80_0000), (.f16, fmtF16, 0x7E00, 0x7C00), (.bf16, fmtBf16, 0x7FC0, 0x7F80)] →
      ∀ (e : OpEnv) (a b c : Nat), e.ty = t → a < 2 ^ f.width → b < 2 ^ f.width → c < 2 ^ f.width →
        let x := f.decode a
        let y := f.decode b
        let z := f.decode c
        opFadd e a b c = f.encode e.rm e.sat (Fv.add e.rm x y)
        ∧ opFsub e a b c = f.encode e.rm e.sat (Fv.add e.rm x y.neg)
        ∧ opFmul e a b c = f.encode e.rm e.sat (Fv.mul x y)
        ∧ opFfma e a b c = f.encode e.rm e.sat (Fv.add e.rm (Fv.mul x y) z)
        ∧ f.encode e.rm e.sat .nan = nan
        ∧ (∀ n : Bool, f.encode e.rm false (.inf n) = (if n then 2 ^ (f.width - 1) else 0) + inf
            ∧ f.decode (f.encode e.rm true (.inf n)) = (if n then (f.decode f.maxBits).neg else f.decode f.maxBits))
        ∧ (x = .nan ∨ y = .nan → opFdiv e a b c = nan)
        ∧ (x.isFin = true → y.isFin = true →
            (y.val ≠ 0 → f.Rounds e.rm e.sat (x.val / y.val) (x.sign != y.sign) (opFdiv e a b c))
            ∧ (y.val = 0 → opFdiv e a b c = if x.val = 0 then nan else f.encode e.rm e.sat (.inf (x.sign != y.sign)))))
  ∧ (∀ (t : Ty) (f : Ffmt), (t, f) ∈ [(.f16x2, fmtF16), (.bf16x2, fmtBf16)] → ∀ (e : OpEnv) (a b c j : Nat), e.ty = t → j < 2 →
        let x := f.decode (streamElem 16 a j)
        let y := f.decode (streamElem 16 b j)
        streamElem 16 (opFadd e a b c) j = f.encode e.rm e.sat (Fv.add e.rm x y)
        ∧ streamElem 16 (opFmul e a b c) j = f.encode e.rm e.sat (Fv.mul x y)
        ∧ streamElem 16 (opFfma e a b c) j = f.encode e.rm e.sat (Fv.add e.rm (Fv.mul x y) (f.decode (streamElem 16 c j))))
  ∧ (∀ src dst : Ty, src ∈ [.f64, .f32, .f16, .bf16, .e5m2, .e4m3] → dst ∈ [.f64, .f32, .f16, .bf16, .e5m2] → ∀ (rm : Rm) (sat : Bool) (x : Nat),
        ((tyFfmt src).decode (x % 2 ^ (tyFfmt src).width)).isFin = true →
        (tyFfmt dst).Rounds rm sat ((tyFfmt src).decode (x % 2 ^ (tyFfmt src).width)).val (x.testBit ((tyFfmt src).width - 1)) (convert rm sat src dst x))

/-- R300: POPC, CLZ and CTZ count the 1 bits, the leading and the trailing zero bits of a b32 or b64 value, and give w for 0; their count goes to a v
register even for b64; BREV moves bit i to bit w - 1 - i, into the register kind of its type. -/
def Obligations.BitCounts : Prop :=
  (∀ (w : Nat), w = 32 ∨ w = 64 → ∀ (e : OpEnv) (a : BitVec w) (b c : Nat), e.ty = (if w = 64 then .b64 else .b32) →
    opPopc e a.toNat b c = ((List.range w).filter (fun i => a.getLsbD i)).length
    ∧ opClz e a.toNat b c = ((List.range w).takeWhile (fun i => !a.getLsbD (w - 1 - i))).length
    ∧ opCtz e a.toNat b c = ((List.range w).takeWhile (fun i => !a.getLsbD i)).length
    ∧ (a = 0 → opClz e a.toNat b c = w ∧ opCtz e a.toNat b c = w)
    ∧ (∀ i, i < w → (opBrev e a.toNat b c).testBit (w - 1 - i) = a.getLsbD i))
  ∧ (∀ (f : FmtV) (o : RegOp), (regOp (.popc f) = some o ∨ regOp (.clz f) = some o ∨ regOp (.ctz f) = some o → o.wide = false)
    ∧ (regOp (.brev f) = some o → o.wide = f.ty.wide))

/-- R303, R304, R310, R97: a compare writes, for each active item, whether its condition holds on the item's values, and leaves the predicate of the
others; U sources give U, affine ones give a form with a threshold where there is one; a write to p7 is discarded.
R303: the condition of each COND code: eq, ne, lt, le, gt, ge, ordered, unordered, and less or greater. -/
def Obligations.Comparisons : Prop :=
  (∀ (ins : Instr) (o : CmpOp) (s : State) (i : Issue) (u : SUnit), cmpOp ins = some o → s.AtHead i u → u.anyActive (u.guard o.pred o.pneg) = true →
    u.regionHit [] [o.p] = none →
    (u.isStrand = true ∨ (u.predOf o.pred o.pneg = .u true ∧ (o.uniform s u = true ∨
      (o.general s u = false ∧ ∃ q : PReg, (∀ m, q ≠ .g m) ∧ ∀ k ∈ u.items, q.holds k (k - u.lo) = o.holds s u k)))) →
    (o.p = 7 → exec ins s = .next (s.advance i))
    ∧ (o.p ≠ 7 → ∃ q : PReg, exec ins s = .next ((s.putUnit (u.setP o.p q)).advance i)
        ∧ ∀ k ∈ u.items, q.holds k (k - u.lo)
            = if (u.predOf o.pred o.pneg).holds k (k - u.lo) then o.holds s u k else (u.preg o.p).holds k (k - u.lo)))
  ∧ ((∀ o : Option Ordering,
    condHolds 0 o = (o == some .eq) ∧ condHolds 1 o = (o != some .eq) ∧ condHolds 2 o = (o == some .lt)
    ∧ condHolds 3 o = (o == some .lt || o == some .eq) ∧ condHolds 4 o = (o == some .gt) ∧ condHolds 5 o = (o == some .gt || o == some .eq)
    ∧ condHolds 6 o = o.isSome ∧ condHolds 7 o = o.isNone ∧ condHolds 8 o = (o == some .lt || o == some .gt))
  ∧ (∀ a b : W32, intOrder true 32 a.toNat b.toNat = some (compare a.toInt b.toInt) ∧ intOrder false 32 a.toNat b.toNat = some (compare a.toNat b.toNat))
  ∧ (∀ a b : W64, intOrder true 64 a.toNat b.toNat = some (compare a.toInt b.toInt) ∧ intOrder false 64 a.toNat b.toNat = some (compare a.toNat b.toNat))
  ∧ (∀ (a b : W32), floatOrder fmtF32 a.toNat b.toNat = none ↔ (a.toNat % 2 ^ 31 > 0x7F80_0000 ∨ b.toNat % 2 ^ 31 > 0x7F80_0000)))

/-- R332: VOTEA and VOTEY give a strand one truth value over its active items, and true and false where none is active; BALLOT gives the
mask of the active lanes whose predicate holds, in two registers. -/
def Obligations.Votes : Prop :=
  ∀ (f : FmtV) (s : State) (i : Issue) (u : SUnit), s.AtHead i u → u.isStrand = true → u.mask ≠ 0 →
    (f.d.toNat < 7 → u.regionHit [] [f.d.toNat] = none →
      exec (.votea f) s = .next ((s.putUnit (u.setP f.d.toNat (.u ((lanesOf (u.guard f.pred f.pneg).mask).all (fun j => (u.preg f.a.toNat).holds (u.lo + j) j))))).advance i)
      ∧ exec (.votey f) s = .next ((s.putUnit (u.setP f.d.toNat (.u ((lanesOf (u.guard f.pred f.pneg).mask).any (fun j => (u.preg f.a.toNat).holds (u.lo + j) j))))).advance i))
    ∧ (f.d.toNat = 7 → exec (.votea f) s = .next (s.advance i) ∧ exec (.votey f) s = .next (s.advance i))
    ∧ (u.regionHit [f.d.toNat, f.d.toNat + 1] [] = none →
        ∃ m : BitVec 64, (∀ j, j < 64 → m.getLsbD j = ((u.guard f.pred f.pneg).mask.getLsbD j && (u.preg f.a.toNat).holds (u.lo + j) j))
          ∧ exec (.ballot f) s = .next ((s.putUnit ((u.setV f.d.toNat (.u (m.extractLsb' 0 32))).setV (f.d.toNat + 1) (.u (m.extractLsb' 32 32)))).advance i))

/-- R328: a read of another lane gives the value and validity of the item that a unit of the group holds there: its own strand's items first; a lane
outside 0 to 63, or an item that no unit of the group holds, reads 0 and is not valid. R331: a permute with AUX bit 9 also writes that
validity to predicate C at the active lanes. -/
def Obligations.CrossLaneReads : Prop :=
  (∀ (s : State) (u : SUnit) (read : SUnit → Nat → W64) (lane : Int), lane < 0 ∨ 64 ≤ lane → s.crossRead u read lane = (0, false))
  ∧ (∀ (s : State) (u : SUnit) (read : SUnit → Nat → W64) (j : Nat), j < 64 →
      (u.holdsItem (u.lo + j) = true → s.crossRead u read j = (read u (u.lo + j), true))
      ∧ (u.holdsItem (u.lo + j) = false → (∀ x ∈ s.units, x.group = u.group → x.group.isSome = true → x.holdsItem (u.lo + j) = false) →
          s.crossRead u read j = (0, false))
      ∧ (∀ x : SUnit, u.holdsItem (u.lo + j) = false → x ∈ s.units → x.group = u.group → u.group.isSome = true → x.holdsItem (u.lo + j) = true →
          (∀ y ∈ s.units, y.group = u.group → y.holdsItem (u.lo + j) = true → y = x) → s.crossRead u read j = (read x (u.lo + j), true)))
  ∧ (∀ (f : FmtV) (s s1 : State) (i : Issue) (u u1 u2 : SUnit), s.AtHead i u → u.isStrand = true → f.aux.getLsbD 9 = true → f.c.toNat < 7 →
      (u.guard f.pred f.pneg).mask ≠ 0 → u.regionHit (if f.ty.wide then [f.d.toNat, f.d.toNat + 1] else [f.d.toNat]) [f.c.toNat] = none → u.region = none →
      s.ensureRows u (if f.ty.wide then [f.d.toNat, f.d.toNat + 1] else [f.d.toNat]) = .ok (s1, u1) → s1.unit? u.id = some u2 →
      let read := fun k => s.crossRead u (fun x i => s.opdAt x f.ty.wide f.a.toNat i) (s.vAt u f.b.toNat k).toNat
      ∃ q : PReg, exec (.perm f) s = .next (((s1.putLanes u1 (u.guard f.pred f.pneg).mask f.d.toNat f.ty.wide (fun k => (read k).1)).putUnit (u2.setP f.c.toNat q)).advance i)
        ∧ ∀ j, j < 64 → (u.guard f.pred f.pneg).mask.getLsbD j = true → q.holds (u.lo + j) j = (read (u.lo + j)).2)

/-- R334, R335, R215: XADD adds the active items' values exactly, in ascending lane order, to an accumulator; XCLR clears one; XST writes an
accumulator's image of 48 bytes to the pad at the place that the lowest active item's register names; XLD brings one back as a long-latency
result. XADD, XCLR and XLD close an open region. With no active item they change nothing else.
R38 to R40, R335: an accumulator's image of 48 bytes reads back as the accumulator; a finite value is added exactly in units of 2^-149, modulo 2^320,
OVF set when the sum leaves the range of V; NaN and infinities set only their flags; the order of two additions does not matter to V. -/
def Obligations.Accumulators : Prop :=
  (∀ (f : FmtV) (s : State) (i : Issue) (u : SUnit), s.AtHead i u → u.isStrand = true →
    let g := u.guard f.pred f.pneg
    let c := s.closeRegion u
    exec (.xadd f) s = .next ((c.updUnit u.id (fun v => v.setX f.d.toNat ((lanesOf g.mask).foldl (fun x j =>
        x.addFloat ((tyFfmt f.ty).decode ((s.vAt u f.a.toNat (u.lo + j)).toNat % 2 ^ (tyFfmt f.ty).width))) (u.xreg f.d.toNat)))).advance i)
    ∧ (g.mask = 0 → exec (.xclr f) s = .next (c.advance i) ∧ exec (.xld f) s = .next (c.advance i) ∧ exec (.xst f) s = .next (s.advance i))
    ∧ (g.mask ≠ 0 →
        let off := ((s.vAt u f.a.toNat (u.lowest g)).toNat + 16 * f.aux.toNat) % 2 ^ 32
        exec (.xclr f) s = .next ((c.updUnit u.id (fun v => v.setX f.d.toNat XAcc.zero)).advance i)
        ∧ (∀ (gr : Group) (core o : Nat), s.groupOf u = some gr → off % 16 = 0 → gr.padPlace u.core off 48 = some (core, o) →
            exec (.xst f) s = .next ((s.writePad core o (u.xreg f.b.toNat).image).advance i)
            ∧ (s.padPoisoned core o 48 = false →
                exec (.xld f) s = .next ((c.addPend u.noRegion .ready [.xacc f.d.toNat (XAcc.ofImage (s.padBytes core o 48))] true true false).2.advance i)))
        ∧ (off % 16 ≠ 0 → exec (.xst f) s = s.trapped i u causeMisalign (BitVec.ofNat 64 off) false)))
  ∧ ((∀ x : XAcc, x.image.length = 48 ∧ XAcc.ofImage x.image = x)
  ∧ (∀ x : XAcc, x.addFloat .nan = { x with flags := x.flags ||| 1 } ∧ x.addFloat (.inf false) = { x with flags := x.flags ||| 2 }
      ∧ x.addFloat (.inf true) = { x with flags := x.flags ||| 4 })
  ∧ (∀ (x : XAcc) (neg : Bool) (m k : Nat),
      let a : Int := (if neg then -1 else 1) * (m * 2 ^ k : Nat)
      (x.addFloat (.fin neg m ((k : Int) - 149))).v = x.v + BitVec.ofInt 320 a
      ∧ (x.addFloat (.fin neg m ((k : Int) - 149))).flags = x.flags ||| (if x.v.toInt + a < -2 ^ 319 ∨ 2 ^ 319 ≤ x.v.toInt + a then 8 else 0))
  ∧ (∀ (x : XAcc) (a b : Fv), ((x.addFloat a).addFloat b).v = ((x.addFloat b).addFloat a).v)
  ∧ (∀ x y : XAcc, (x.merge y).v = x.v + y.v))

/-- R323, R325, R327, R215: QMX and QPLY quantise each block of a strand's window that has an active item, and put its scale bits into scale register B;
KMOV moves two v registers of the lowest active item into a scale register, or a scale register out to two v registers. What writes a scale
register closes an open region; with no active item nothing else happens.
R33: the MX quantiser. A NaN, or an infinity without saturation, makes a NaN block; under saturation an infinity counts as the largest f32. The scale is that of the largest magnitude, clamped; each element is its source over the scale, rounded to nearest even into the element format and clamped to
its largest value. R37: the PLY quantiser likewise: a shared exponent, a micro-exponent bit for each pair that lies below it, magnitudes rounded to nearest even in the pair's unit and clamped. -/
def Obligations.BlockQuantise : Prop :=
  (∀ (f : FmtV) (s : State) (i : Issue) (u : SUnit), s.AtHead i u → u.isStrand = true →
    let g := u.guard f.pred f.pneg
    let c := s.closeRegion u
    let mx := fun blk => quantiseMx f.ty (u.satOn f.sat) (s.blockValues u g (blockSource f.aux) f.a.toNat (32 * blk) 32)
    let ply := fun blk => quantisePly f.ty (u.satOn f.sat) (s.blockValues u g (blockSource f.aux) f.a.toNat (16 * blk) 16)
    let kmx := (List.range 2).foldl (fun k blk =>
      if g.blockActive (32 * blk) 32 then putBits (putBits k (8 * blk) 8 (mx blk).1) 16 48 0 else k) (u.kreg f.b.toNat)
    let kply := (List.range 4).foldl (fun k blk => if g.blockActive (16 * blk) 16 then
      putBits (putBits k (8 * blk) 8 (ply blk).1) (32 + 8 * blk) 8 (packBits 1 (ply blk).2.1) else k) (u.kreg f.b.toNat)
    let xmx := fun k => BitVec.ofNat 64 ((mx ((k - u.lo) / 32)).2.getD ((k - u.lo) % 32) 0)
    let xply := fun k => BitVec.ofNat 64 ((ply ((k - u.lo) / 16)).2.2.getD ((k - u.lo) % 16) 0)
    (g.mask = 0 → exec (.qmx f) s = .next (c.advance i) ∧ exec (.qply f) s = .next (c.advance i))
    ∧ (g.mask ≠ 0 →
        (∀ (s1 : State) (u1 : SUnit), c.ensureRows u.noRegion [f.d.toNat] = .ok (s1, u1) →
          (¬(u.predOf f.pred f.pneg = .u true ∧ u.vIsU f.a.toNat = true ∧ sameOn g (fun j => (xmx (u.lo + j)).setWidth 32) = true) →
            exec (.qmx f) s = .next (((s1.putLanes u1 g.mask f.d.toNat false xmx).updUnit u.id (fun v => v.setK f.b.toNat kmx)).advance i))
          ∧ (¬(u.predOf f.pred f.pneg = .u true ∧ u.vIsU f.a.toNat = true ∧ sameOn g (fun j => (xply (u.lo + j)).setWidth 32) = true) →
            exec (.qply f) s = .next (((s1.putLanes u1 g.mask f.d.toNat false xply).updUnit u.id (fun v => v.setK f.b.toNat kply)).advance i)))
        ∧ (u.predOf f.pred f.pneg = .u true → u.vIsU f.a.toNat = true →
            (sameOn g (fun j => (xmx (u.lo + j)).setWidth 32) = true →
              exec (.qmx f) s = .next (((c.putUnit (u.noRegion.setV f.d.toNat (.u ((xmx (u.lowest g)).setWidth 32)))).updUnit u.id (fun v => v.setK f.b.toNat kmx)).advance i))
            ∧ (sameOn g (fun j => (xply (u.lo + j)).setWidth 32) = true →
              exec (.qply f) s = .next (((c.putUnit (u.noRegion.setV f.d.toNat (.u ((xply (u.lowest g)).setWidth 32)))).updUnit u.id (fun v => v.setK f.b.toNat kply)).advance i))))
    ∧ (g.mask ≠ 0 → f.aux.getLsbD 0 = false →
        exec (.kmov f) s = .next ((c.updUnit u.id (fun v => v.setK f.d.toNat (s.wAt u f.a.toNat (u.lowest g)))).advance i))
    ∧ (f.aux.getLsbD 0 = true → g.mask ≠ 0 → u.predOf f.pred f.pneg = .u true → u.regionHit [f.d.toNat, f.d.toNat + 1] [] = none →
        exec (.kmov f) s = .next ((s.putUnit ((u.setV f.d.toNat (.u ((u.kreg f.a.toNat).extractLsb' 0 32))).setV (f.d.toNat + 1) (.u ((u.kreg f.a.toNat).extractLsb' 32 32)))).advance i)))
  ∧ (∀ (t : Ty) (emax : Int) (sat : Bool) (xs : List Fv), (t, emax) ∈ ([(.e4m3, 8), (.e5m2, 15), (.e3m2, 4), (.e2m3, 2), (.e2m1, 2), (.mxi8, 0)] : List (Ty × Int)) →
      let q := quantiseMx t sat xs
      let ys := xs.map (fun x => match x with | .inf n => Fv.fin n (2 ^ 24 - 1) 104 | y => y)
      (Fv.nan ∈ xs ∨ (sat = false ∧ ∃ n, Fv.inf n ∈ xs) → q = (255, List.replicate xs.length 0))
      ∧ (Fv.nan ∉ xs → sat = true ∨ (∀ n, Fv.inf n ∉ xs) →
          ((∀ y ∈ ys, y.val = 0) → q.1 = 0)
          ∧ (∀ (a : Rat) (l : Int), LargestOf ys a → Log2Of a l → (q.1 : Int) = max 0 (min 254 (l - emax + 127)))
          ∧ q.2.length = xs.length
          ∧ (∀ (i : Nat) (y : Fv) (z : Nat), ys[i]? = some y → q.2[i]? = some z →
              let x : Rat := y.val / 2 ^ ((q.1 : Int) - 127)
              (t ≠ .mxi8 → (tyFfmt t).Rounds .rne true x y.sign z) ∧ (t = .mxi8 → NearestEven (-128) 127 (64 * x) (intOf true 8 z)))))
  ∧ (∀ (t : Ty) (m : Nat) (sat : Bool) (xs : List Fv), (t, m) ∈ [(Ty.ply9, 7), (Ty.ply6, 4), (Ty.ply4, 2)] → xs.length = 16 →
      let q := quantisePly t sat xs
      let ys := xs.map (fun x => match x with | .inf n => Fv.fin n (2 ^ 24 - 1) 104 | y => y)
      (Fv.nan ∈ xs ∨ (sat = false ∧ ∃ n, Fv.inf n ∈ xs) → q = (255, List.replicate 8 0, List.replicate 16 0))
      ∧ (Fv.nan ∉ xs → sat = true ∨ (∀ n, Fv.inf n ∉ xs) →
          ((∀ y ∈ ys, y.val = 0) → q.1 = 0)
          ∧ (∀ (a : Rat) (l : Int), LargestOf ys a → Log2Of a l → (q.1 : Int) = max l (-127) + 127)
          ∧ q.2.1.length = 8 ∧ q.2.2.length = 16
          ∧ (∀ (j : Nat) (y z : Fv), ys[2 * j]? = some y → ys[2 * j + 1]? = some z →
              q.2.1[j]? = some (if magnitude y.val < 2 ^ ((q.1 : Int) - 127) ∧ magnitude z.val < 2 ^ ((q.1 : Int) - 127) then 1 else 0))
          ∧ (∀ (i mu z : Nat) (y : Fv), ys[i]? = some y → q.2.1[i / 2]? = some mu → q.2.2[i]? = some z →
              z.testBit m = y.sign ∧ z < 2 ^ (m + 1) ∧ NearestEven 0 (2 ^ m - 1) (magnitude y.val / 2 ^ ((q.1 : Int) - 127 - mu - (m - 1))) (z % 2 ^ m : Nat))))
/-- R255, R256, R347: a word that does not end its clause leaves the clause in issue at the next slot and nothing else changed; after the last word the unit
stands at the header that follows the clause, %fmode takes the value written in the clause, and the port is free. The premise on identifiers
is the model's own bookkeeping. -/
def Obligations.ClauseAdvance : Prop :=
  ∀ (s : State) (i : Issue) (u : SUnit), s.AtHead i u →
    (i.slot + 1 < i.hdr.count → s.advance i = { s with issue := updWhere (fun j => j.unit == i.unit) (fun j => { j with slot := i.slot + 1, entered := false }) s.issue })
    ∧ (i.hdr.count ≤ i.slot + 1 →
        (∀ j ∈ (s.advance i).issue, j.unit ≠ i.unit)
        ∧ (s.Live u → s.Sole u → ∃ x, (s.advance i).unit? i.unit = some x ∧ x.pc = i.hdrAddr + 8 * BitVec.ofNat 64 (i.hdr.count + 1) ∧ x.fmode = u.fmodeNext ∧ x.pcSlot = none
            ∧ x.v = u.v ∧ x.p = u.p ∧ x.k = u.k ∧ x.x = u.x ∧ x.rstack = u.rstack ∧ x.nest = u.nest))

/-- R258, R338 to R342, R215, R225: the transfers when every item of the unit takes them. BRA, BRP and JMPI go to their target; CALL and CALLI push the clause after
them; RET pops one, or exits on an empty stack, or returns from the trap routine to the clause after the trapping one; REGION opens a region
at the next clause, which waits for every pip; EXIT ends the items. The target of BRA, BRP and CALL is the header plus 8 times TARGET. -/
def Obligations.Transfers : Prop :=
  ∀ (f : FmtB) (s : State) (i : Issue) (u : SUnit), s.AtHead i u →
    let target := i.hdrAddr + 8 * f.target.signExtend 64
    let cond := u.predOf f.pred f.pneg
    let c := s.closeRegion u
    (u.takes cond = some true → exec (.bra f) s = .next ((s.updUnit u.id (fun x => x.goTo i target)).endClause i.unit))
    ∧ (u.takes cond = some false → exec (.bra f) s = .next (s.advance i))
    ∧ (let votes := (u.active (u.guard f.pred f.pneg)).map (fun k => (u.preg f.a.toNat).holds k (k - u.lo))
       exec (.brp f) s = .next (if (match f.sub.toNat with | 0 => votes.any id | 1 => votes.all id | 2 => !votes.any id | _ => !votes.all id)
          then (s.updUnit u.id (fun x => x.goTo i target)).endClause i.unit else s.advance i))
    ∧ (∀ a : W64, u.takes cond = some true → u.isStrand = true ∨ u.wIsU f.a.toNat = true → (∀ k ∈ u.items, s.wAt u f.a.toNat k = a) → u.items ≠ [] →
        (u.isStrand = false → s.wAt u f.a.toNat u.lo = a) →
        exec (.jmpi f) s = .next ((s.updUnit u.id (fun x => x.goTo i a)).endClause i.unit)
        ∧ (u.isStrand = true → u.nest < u.nestmax → u.rstack.length < 32 →
            exec (.calli f) s = .next ((c.updUnit u.id (fun x => x.callTo i a)).endClause i.unit)))
    ∧ (u.takes cond = some true → u.isStrand = true → u.nest < u.nestmax → u.rstack.length < 32 →
        exec (.call f) s = .next ((c.updUnit u.id (fun x => x.callTo i target)).endClause i.unit))
    ∧ (∀ (top : W64) (rest : List W64), u.rstack = top :: rest → (∀ r ∈ u.inl.head?, r.depth ≠ u.rstack.length) →
        ((∀ d ∈ u.trapFrames.head?, d.1 ≠ u.rstack.length) →
          exec (.ret f) s = .next ((c.updUnit u.id (fun x => { x.goTo i top with rstack := rest, nest := x.nest - 1 })).endClause i.unit))
        ∧ (∀ (d : Nat × Bool) (ds : List (Nat × Bool)), u.trapFrames = d :: ds → d.1 = u.rstack.length →
            (u.tcause = 0 → exec (.ret f) s = .next ((c.updUnit u.id (fun x =>
              { x.fallTo top with rstack := rest, nest := x.nest - 1, trapFrames := ds })).endClause i.unit))
            ∧ (u.tcause ≠ 0 → exec (.ret f) s = .next ((c.faultUnit u.noRegion u.tcause (faultAddress u.tcause d.2 u.tval)).endClause i.unit))))
    ∧ (u.rstack = [] → exec (.ret f) s = .next ((c.exitUnit u.id).endClause i.unit))
    ∧ (u.takes cond = some true → u.inl = [] → exec (.exit f) s = .next ((c.exitUnit u.id).endClause i.unit))
    ∧ (u.takes cond = some false → u.inl = [] → exec (.exit f) s = .next (c.advance i))
    ∧ (exec (.region f) s = .next ((c.updUnit u.id (fun x =>
        { x.fallTo i.nextClause with region := some { n := f.aux7.toNat, entry := i.nextClause, since := s.nextId }, wait := .pipw 0xFFF })).endClause i.unit))

/-- R98, R100, R340: a conditional branch that divides a strand splits it: the items that fall through keep the slot, those that take the branch leave as a new strand,
or a deferred side while no slot is free, with the same registers and zero accumulators; both carry the split on top of their split stacks.
A full split stack traps DIVERGE. The premise on identifiers is the model's own bookkeeping.
R75: a conditional branch under an affine predicate cuts a span at the predicate's threshold, when a slot is free: the items below it and those from it on
go on as two spans, one at the target, the other at the next clause, with the same registers; a span that has not been dealt only while its
launch has fewer than 64 of them. Where the cut cannot be made, the span is dealt (R75) or materialises (R338), and executes the branch
again. -/
def Obligations.StrandSplit : Prop :=
  (∀ (f : FmtB) (s : State) (i : Issue) (u : SUnit) (g : Group), s.AtHead i u → u.isStrand = true → s.groupOf u = some g → s.Live u → s.Sole u →
    u.takes (u.predOf f.pred f.pneg) = none →
    (u.sstack.length < 32 → (∀ x ∈ s.units, x.id < s.nextId) →
      ∃ (t : State) (stay leave : SUnit), exec (.bra f) s = .next t ∧ t.unit? u.id = some stay ∧ leave ∈ t.units ∧ s.unit? leave.id = none
        ∧ leave.mask = (u.guardOf (u.predOf f.pred f.pneg)).mask ∧ stay.mask = u.mask &&& ~~~leave.mask
        ∧ stay.pc = i.nextClause ∧ leave.pc = i.hdrAddr + 8 * f.target.signExtend 64 ∧ stay.slot = u.slot
        ∧ (leave.kind = .strand ∧ leave.slot.isSome = true ∨ leave.kind = .deferred ∧ leave.slot = none)
        ∧ stay.v = u.v ∧ leave.v = u.v ∧ stay.p = u.p ∧ leave.p = u.p ∧ stay.x = u.x ∧ leave.x = []
        ∧ (∃ sp, stay.sstack = sp :: u.sstack ∧ leave.sstack = sp :: u.sstack))
    ∧ (32 ≤ u.sstack.length → exec (.bra f) s = s.trapped i u causeDiverge 0 false))
  ∧ (∀ (f : FmtB) (s : State) (i : Issue) (u : SUnit) (t k : Nat), s.AtHead i u → u.kind = .span ∨ u.kind = .undealt → s.Live u → s.Sole u →
    u.lo < t → t < u.lo + u.cnt → (∀ x ∈ s.units, x.id < s.nextId) →
    ∀ below : Bool, u.predOf f.pred f.pneg = (if below then .lt t else .ge t) →
    (s.freeSlot u.core = none ∨ (u.kind = .undealt ∧ 64 ≤ (s.undealt u.launch).length) → exec (.bra f) s = .next (s.dealOn u))
    ∧ (s.freeSlot u.core = some k → (u.kind = .undealt → (s.undealt u.launch).length < 64) →
      ∃ (r : State) (low high : SUnit), exec (.bra f) s = .next r ∧ r.unit? u.id = some low ∧ high ∈ r.units ∧ s.unit? high.id = none
        ∧ low.kind = u.kind ∧ high.kind = u.kind ∧ low.slot = u.slot ∧ low.lo = u.lo ∧ low.lo + low.cnt = t ∧ high.lo = t ∧ high.lo + high.cnt = u.lo + u.cnt ∧ high.slot = some k
        ∧ low.pc = (if below then i.hdrAddr + 8 * f.target.signExtend 64 else i.nextClause)
        ∧ high.pc = (if below then i.nextClause else i.hdrAddr + 8 * f.target.signExtend 64)
        ∧ low.v = u.v ∧ high.v = u.v ∧ low.p = u.p ∧ high.p = u.p))

/-- R341, R340: a call with no room on the return stack, or at the nesting limit, traps STACKOVER with %nest; a span calls only once it is dealt and
materialised. R76, R338, R342: an EXIT of some of a strand's items splits it; the others go on at the next clause, with the split on top of their
split stack, and the items that left are counted in their group. With a full split stack it traps DIVERGE. -/
def Obligations.CallsAndExits : Prop :=
  ∀ (f : FmtB) (s : State) (i : Issue) (u : SUnit), s.AtHead i u →
    let cond := u.predOf f.pred f.pneg
    let c := s.closeRegion u
    (u.anyActive (u.guardOf cond) = true → u.isStrand = true → u.nestmax ≤ u.nest ∨ 32 ≤ u.rstack.length → u.region = none →
      exec (.call f) s = s.trapped i u causeStackover (BitVec.ofNat 64 u.nest) false
      ∧ exec (.calli f) s = s.trapped i u causeStackover (BitVec.ofNat 64 u.nest) false)
    ∧ (u.anyActive (u.guardOf cond) = true → u.isStrand = false → u.region = none →
        exec (.call f) s = .next (s.dealOn u) ∧ exec (.calli f) s = .next (s.dealOn u))
    ∧ (u.anyActive (u.guardOf cond) = false → exec (.call f) s = .next (c.advance i) ∧ exec (.calli f) s = .next (c.advance i))
    ∧ (u.isStrand = true → u.inl = [] → u.takes cond = none → 32 ≤ u.sstack.length → u.region = none →
        exec (.exit f) s = s.trapped i u causeDiverge 0 false)
    ∧ (∀ g : Group, u.isStrand = true → u.wait = .none → u.inl = [] → u.takes cond = none → u.sstack.length < 32 → s.groupOf u = some g → s.Live u →
        s.Sole u → (∀ x ∈ s.units, x.id < s.nextId) →
        ∃ (t : State) (x : SUnit), exec (.exit f) s = .next t ∧ t.unit? u.id = some x ∧ x.mask = u.mask &&& ~~~(u.guardOf cond).mask ∧ x.pc = i.nextClause
          ∧ x.v = u.v ∧ x.p = u.p ∧ x.x = u.x ∧ (∃ sp, x.sstack = sp :: u.sstack)
          ∧ ∃ g', t.groupOf u = some g' ∧ g'.exited = (lanesOf (u.guardOf cond).mask).foldl (fun m j => m ||| 2 ^ (u.lo + j - g.base)) g.exited)

/-- R101 to R103, R343: at a JOIN a strand with no split on its stack recovers its shapes and goes on; a span goes on and may re-join its neighbour; a
strand with a split parks, and the splits it stands in are settled: the siblings of a split fuse when every one of them has parked at one
JOIN, and wait else. That several siblings wait, too, for the results that their own instructions still owe to whole registers is the model's choice (assumption log
20): R99 has no instruction of one side change another side's items.
R101: what fusion leaves: the union of the items; the registers below n that all siblings hold with one shape and value as they are, the others G, with
every sibling's values in the row; zero from n on; every item's predicates; the lowest sibling's scale registers, return stack and %nest; the
accumulators merged; a pip pending that is pending in any of them. Where rows lack, no fusion, and GREGS in the sibling of the lowest slot.
R102: the shapes that recovery gives read as the values they replace: a register found U or affine has every item's value, and a predicate of a mask has the same truth value
at every item. -/
def Obligations.JoinAndFusion : Prop :=
  (∀ (f : FmtB) (s : State) (i : Issue) (u : SUnit), s.AtHead i u →
    let c := s.closeRegion u
    (u.isStrand = false → exec (.join f) s = .next (((c.updUnit u.id (fun x => x.fallTo i.nextClause)).rejoin u.noRegion).endClause i.unit))
    ∧ (u.isStrand = true → u.sstack = [] →
        exec (.join f) s = .next (((c.updUnit u.id (fun x => x.fallTo i.nextClause)).recoverUnit u.id f.aux7.toNat).endClause i.unit))
    ∧ (u.isStrand = true → u.sstack ≠ [] →
        exec (.join f) s = .next (((c.updUnit u.id (fun x => { x.fallTo i.nextClause with wait := .join i.wordAddr f.aux7.toNat })).afterSide u.noRegion).endClause i.unit)))
  ∧ (∀ (s : State) (sp n : Nat) (a : W64),
      ((∃ x ∈ s.siblings sp, x.parkedAt = none) ∨ (∃ x ∈ s.siblings sp, ∃ y ∈ s.siblings sp, x.parkedAt ≠ y.parkedAt)
        ∨ (1 < (s.siblings sp).length ∧ ∃ x ∈ s.siblings sp, s.owesWhole x = true) → s.settleSplit sp = s)
      ∧ (s.siblings sp ≠ [] → (∀ x ∈ s.siblings sp, x.kind = .strand ∧ x.parkedAt = some (a, n) ∧ ((s.siblings sp).length = 1 ∨ s.owesWhole x = false)) →
          s.settleSplit sp = s.fuse (s.siblings sp) a n))
  ∧ (∀ (base keep : SUnit) (sibs : List SUnit) (n : Nat) (mixed : List Nat), keep ∈ sibs → keep.Inv → (∀ x ∈ sibs, x.isStrand = true ∧ x.lo = keep.lo) →
      sibs.Pairwise (fun x y => x.mask &&& y.mask = 0) → (∀ r ∈ mixed, r < n) →
      let f := fuseUnits base keep sibs n mixed
      (∀ j, j < 64 → (f.mask.getLsbD j = true ↔ ∃ x ∈ sibs, x.mask.getLsbD j = true))
      ∧ (∀ r, f.vreg r = if r ∈ mixed then .g else if r < n then keep.vreg r else .u 0)
      ∧ (∀ x ∈ sibs, ∀ k ∈ x.items, ∀ r, r < 7 → (f.preg r).holds k (k - f.lo) = (x.preg r).holds k (k - x.lo))
      ∧ f.k = base.k ∧ f.rstack = base.rstack ∧ f.nest = base.nest ∧ f.slot = keep.slot ∧ f.sstack = keep.sstack.drop 1
      ∧ (∀ r, r < 4 → f.xreg r = sibs.foldl (fun a y => a.merge (y.xreg r)) XAcc.zero)
      ∧ (∀ k, 0 < f.pipCount k ↔ ∃ x ∈ sibs, 0 < x.pipCount k))
  ∧ (∀ (s : State) (g : Group) (w core r k : Nat) (sibs : List SUnit), s.Inv → g.rowOf w r = some k →
      ∀ j, j < 64 → ((s.writeMixed g w core sibs [r]).row k).getD j 0 = match sibs.find? (fun x => x.mask.getLsbD j) with
        | some x => s.vAt x r (x.lo + j)
        | none => (s.row k).getD j 0)
  ∧ (∀ (s : State) (sibs : List SUnit) (keep base : SUnit) (g : Group) (a : W64) (n r : Nat) (rs : List Nat), lowestSlot sibs = some keep →
      lowestUnit sibs = some base → s.groupOf keep = some g → g.rowMap = [] → g.gregs ≤ rs.length →
      (List.range n).filter (fun r => sibs.any (fun x => x.vreg r != keep.vreg r) || keep.vIsG r) = r :: rs →
      s.fuse sibs a n = s.takeTrap { keep with wait := .none } causeGregs a (BitVec.ofNat 64 r) keep.pc false)
  ∧ ((∀ (xs : List (Nat × W32)) (x : VReg), (xs.map (·.1)).Pairwise (· < ·) → affineFit xs = some x →
      (match x with
        | .u v => ∀ e ∈ xs, e.2 = v
        | .a b st => st ≠ 0 ∧ ∀ e ∈ xs, e.2 = b + st * BitVec.ofNat 32 e.1
        | .g => False))
  ∧ (∀ (xs : List (Nat × W32)) (b st : W32), xs ≠ [] → (xs.map (·.1)).Pairwise (· < ·) → (∀ e ∈ xs, ∀ e' ∈ xs, e'.1 < e.1 + 64) → (∀ e ∈ xs, e.2 = b + st * BitVec.ofNat 32 e.1) →
      (affineFit xs).isSome = true)
  ∧ (∀ (lo : Nat) (items : List Nat) (f : Nat → Bool) (k : Nat), items.Pairwise (· < ·) → k ∈ items → lo ≤ k → k < lo + 64 →
      (predShape lo items f).holds k (k - lo) = f k))

/-- R346, R347, R77, R345, R269: the system words. NOP only goes on; YIELD 0 goes to the back of the round robin, another count waits; TRAP traps with its code and
value when an item is active; the first BRK of a context that runs or is being suspended sets its cause and raises its event, and makes one that runs suspend, and a later one changes nothing (that
the event is raised while suspending too, and that the first is the first since the context last began to run, is assumption log 24); DEAL deals an undealt span; RDSR gives a special register's
value; WRSR and FMODE write %fmode for the clauses that follow, %nestmax and %tcause. -/
def Obligations.SystemWords : Prop :=
  ∀ (f : FmtS) (fb : FmtB) (s : State) (i : Issue) (u : SUnit), s.AtHead i u →
    let g := u.guard f.pred f.pneg
    let c := s.closeRegion u
    exec (.nop f) s = .next (s.advance i)
    ∧ exec (.yield f) s = .next ((s.updUnit u.id (fun x => { x.fallTo i.nextClause with wait := if f.imm = 0 then .none else .yield })).endClause i.unit)
    ∧ (u.anyActive g = false → exec (.trap f) s = .next (c.advance i) ∧ exec (.brk f) s = .next (c.advance i) ∧ exec (.rdsr f) s = .next (s.advance i)
        ∧ exec (.wrsr f) s = .next (c.advance i) ∧ exec (.fmode f) s = .next (c.advance i))
    ∧ (u.anyActive g = true → u.region = none → exec (.trap f) s = s.trapped i u (0x11 ||| f.sreg.setWidth 32 <<< 16) (f.imm.setWidth 64) false)
    ∧ (∀ x : Ctx, u.anyActive g = true → s.ctx? (s.ctxOf u) = some x →
        let c1 := c.updCtx (s.ctxOf u) (fun x => { x with cause := 0x12 ||| f.sreg.setWidth 32 <<< 16, tpc := i.wordAddr, tval := 0, broke := true })
        let on (t : State) : State := (t.updUnit u.id (fun x => x.fallTo i.nextClause)).endClause i.unit
        (x.broke = false → x.state = .running → exec (.brk f) s = .next (on ((c1.suspendCtx (s.ctxOf u)).raiseEvent (s.ctxOf u))))
        ∧ (x.broke = false → x.state = .suspending → exec (.brk f) s = .next (on (c1.raiseEvent (s.ctxOf u))))
        ∧ (x.broke = true ∨ x.state ≠ .running ∧ x.state ≠ .suspending → exec (.brk f) s = .next (on c)))
    ∧ exec (.deal fb) s = .next (if u.kind = .undealt then s.dealOn u else s.advance i)
    ∧ (∀ l : Launch, s.launchOf u = some l → u.anyActive g = true → u.predOf f.pred f.pneg = .u true → u.kind ≠ .undealt ∨ sregPlaced f.sreg.toNat = false →
        u.regionHit (if sregWide f.sreg then [f.d.toNat, f.d.toNat + 1] else [f.d.toNat]) [] = none →
        (f.sreg = 0 → u.inl = [] → exec (.rdsr f) s = .next ((s.putUnit (u.setV f.d.toNat (.a 0 1))).advance i))
        ∧ (f.sreg = 0 → u.inl ≠ [] → exec (.rdsr f) s = .next ((s.putUnit (u.setV f.d.toNat (.u 0))).advance i))
        ∧ (f.sreg ≠ 0 → sregWide f.sreg = false →
            exec (.rdsr f) s = .next ((s.putUnit (u.setV f.d.toNat (.u ((s.sregValue u l f.sreg.toNat).setWidth 32)))).advance i))
        ∧ (sregWide f.sreg = true →
            exec (.rdsr f) s = .next ((s.putUnit ((u.setV f.d.toNat (.u ((s.sregValue u l f.sreg.toNat).setWidth 32))).setV (f.d.toNat + 1)
              (.u ((s.sregValue u l f.sreg.toNat).extractLsb' 32 32)))).advance i)))
    ∧ (∀ (l : Launch) (s1 : State) (u1 : SUnit), s.launchOf u = some l → u.isStrand = true → g.mask ≠ 0 → u.predOf f.pred f.pneg ≠ .u true →
        u.regionHit (if sregWide f.sreg then [f.d.toNat, f.d.toNat + 1] else [f.d.toNat]) [] = none →
        s.ensureRows u (if sregWide f.sreg then [f.d.toNat, f.d.toNat + 1] else [f.d.toNat]) = .ok (s1, u1) →
        exec (.rdsr f) s = .next ((s1.putLanes u1 g.mask f.d.toNat (sregWide f.sreg)
          (fun k => if f.sreg = 0 then (if u.inl = [] then BitVec.ofNat 64 k else 0) else s.sregValue u l f.sreg.toNat)).advance i))
    ∧ (u.anyActive g = true →
        let x := s.vAt u f.a.toNat (u.lowest g)
        (f.sreg = 0x0C → exec (.wrsr f) s = .next ((c.updUnit u.id (fun v => { v with fmodeNext := x.extractLsb' 0 4 })).advance i))
        ∧ (f.sreg = 0x0F → x.toNat ≤ 32 → exec (.wrsr f) s = .next ((c.updUnit u.id (fun v => { v with nestmax := x.toNat })).advance i))
        ∧ (f.sreg = 0x0F → 32 < x.toNat → u.region = none → exec (.wrsr f) s = s.trapped i u causeIllins i.wordAddr false)
        ∧ (f.sreg = 0x10 → exec (.wrsr f) s = .next ((c.updUnit u.id (fun v => { v with tcause := x })).advance i))
        ∧ exec (.fmode f) s = .next ((c.updUnit u.id (fun v =>
            { v with fmodeNext := (v.fmodeNext &&& ~~~(f.imm.extractLsb' 4 4)) ||| (f.imm.extractLsb' 0 4 &&& f.imm.extractLsb' 4 4) })).advance i))

/-- R224, R225: taking a trap. With a trap routine, no trap in progress and room for a call, a strand stands at the routine's first clause with %tcause, %tpc and
%tval set, one level deeper, its return going to the clause after the trapping one and its region closed; memory, pads and every register keep
their values. Otherwise the launch aborts with the cause, or with that of a group's event write that faulted before (R79, R84). -/
def Obligations.TrapTaken : Prop :=
  ∀ (s : State) (i : Issue) (u : SUnit) (cause : W32) (tval : W64) (global : Bool), s.AtHead i u → s.Live u → s.Sole u →
    (u.isStrand = true → s.trapRoutine u ≠ 0 → u.tcause = 0 → u.nest < u.nestmax → u.rstack.length < 32 →
      ∃ (t : State) (x : SUnit), s.trapped i u cause tval global = .next t ∧ t.unit? u.id = some x ∧ x.pc = s.trapRoutine u ∧ x.tcause = cause
        ∧ x.tpc = i.hdrAddr + 8 * BitVec.ofNat 64 (i.slot + 1) ∧ x.tval = tval ∧ x.nest = u.nest + 1 ∧ x.rstack = i.nextClause :: u.rstack ∧ x.region = none
        ∧ x.v = u.v ∧ x.p = u.p ∧ x.k = u.k ∧ x.x = u.x ∧ s.SameBytes t ∧ s.SamePads t ∧ t.rows = s.rows)
    ∧ (∀ l : Launch, s.trapRoutine u = 0 ∨ u.tcause ≠ 0 ∨ u.nestmax ≤ u.nest ∨ 32 ≤ u.rstack.length → s.launchOf u = some l →
        ∃ (t : State) (l' : Launch), s.trapped i u cause tval global = .next t ∧ t.launch? u.launch = some l' ∧ l'.state = .aborting
          ∧ l'.fault = (l.evFault <|> some (cause, faultAddress cause global tval)) ∧ t.unit? u.id = none ∧ s.SameBytes t ∧ s.SamePads t)

/-- R349 to R351, R105: a global load. When every item's place passes its checks, LD reads each place as its core sees it and owes the extended value to its destination as a
long-latency result: one value with a U address, else a value for each active item.
R11, R137, R356: a load of memory beyond the host links asks the host and waits; it reads the answer, with what its core and cluster hold of it over it, and traps POISON at the first place that
the host turned away. It waits first for the atomics of host memory on its lines.
R139, R145 to R147: a byte that another item of the core has stored and nothing has published may be read as it was before that store. An item sees its own stores; a load that meets no such byte reads what its core sees; where a load has not looked back, no later load of the
core does at those bytes. That one load looks back for all its items or for none is the model's choice (assumption log 5).
R349 to R351, R123, R105: a pad load, LDS, reads each place of the pads of its group, the sibling's pad of a pair group included, and owes the values likewise. -/
def Obligations.Loads : Prop :=
  (∀ (f : FmtM) (s s1 : State) (i : Issue) (u : SUnit) (ps : List (Nat × Nat × Nat × Leaf)), s.AtHead i u →
    let g := u.guard f.pred f.pneg
    let one := u.accessOne f false false
    let n := memBytes f.ty
    u.anyActive g = true → u.regionHit (loadRegs f.ty f.d) [] = none →
    s.globalPlaces u f .read true n n false (u.accessItems g one) = (.inr ps, s1) →
    s1.poisonPlace n ps = none →
    let pas := ps.map (·.2.2.1)
    let s2 := s1.serveLines pas
    let s3 := if 2 ≤ f.scope.toNat then s2.evictLines u.core pas else s2
    let mine := u.readers g one
    let r := s3.lookBack u mine n ps
    let vals := ps.map (fun p => (p.1, loadValue f.ty (natOf (s3.placeBytes u r.1 (mine p.1) n p))))
    (s2.hostLines pas ≠ [] → exec (.ld f) s = .next (s2.waitLines u (s2.hostLines pas)))
    ∧ (s2.hostLines pas = [] →
      (∀ s4 : State, s3.askHost u n ps = some s4 → exec (.ld f) s = .next s4)
      ∧ (s3.askHost u n ps = none →
        (∀ p, ps.find? (s3.hostTurnsAway u n) = some p → exec (.ld f) s = (s3.forgetHost u).trapped i ((s3.unit? u.id).getD u) causePoison (BitVec.ofNat 64 p.2.1) true)
        ∧ (ps.find? (s3.hostTurnsAway u n) = none →
          (one = true → u.predOf f.pred f.pneg = .u true →
            exec (.ld f) s = .next (((r.2.addPend u .ready (loadWrites u g.mask true true f vals) true true false).2.forgetHost u).advance i))
          ∧ (∀ s4 : State, u.isStrand = true → ¬(one = true ∧ u.predOf f.pred f.pneg = .u true) → r.2.reserveRows u (loadRegs f.ty f.d) = .ok s4 →
            exec (.ld f) s = .next (((s4.addPend u .ready (loadWrites u g.mask one false f vals) true true false).2.forgetHost u).advance i))))))
  ∧ (∀ (f : FmtM) (s : State) (i : Issue) (u : SUnit) (gr : Group) (ps : List (Nat × Nat × Nat × Nat)), s.AtHead i u → s.groupOf u = some gr →
    let g := u.guard f.pred f.pneg
    let one := u.accessOne f true false
    let n := memBytes f.ty
    u.anyActive g = true → u.regionHit (loadRegs f.ty f.d) [] = none →
    s.padPlaces u gr f true n n (u.accessItems g one) = .ok ps → s.padPoisonPlace n ps = none →
    let vals := ps.map (fun p => (p.1, loadValue f.ty (natOf (s.padBytes p.2.2.1 p.2.2.2 n))))
    (one = true → u.predOf f.pred f.pneg = .u true →
      exec (.lds f) s = .next ((s.addPend u .ready (loadWrites u g.mask true true f vals) true true false).2.advance i))
    ∧ (∀ s4 : State, u.isStrand = true → ¬(one = true ∧ u.predOf f.pred f.pneg = .u true) → s.reserveRows u (loadRegs f.ty f.d) = .ok s4 →
      exec (.lds f) s = .next ((s4.addPend u .ready (loadWrites u g.mask one false f vals) true true false).2.advance i)))
  ∧ (∀ (s : State) (u : SUnit) (mine : Nat → Nat → Bool) (n : Nat) (ps : List (Nat × Nat × Nat × Leaf)),
    let r := s.lookBack u mine n ps
    ((∀ p ∈ ps, ∀ b, b < n → s.unseenByte u.core (p.2.2.1 + b) = none) → r = (false, s))
    ∧ (r.1 = false → ∀ p ∈ ps, p.2.2.1 + n ≤ 2 ^ 52 → ∀ b, b < n → r.2.unseenByte u.core (p.2.2.1 + b) = none))
  ∧ (∀ (s : State) (u : SUnit) (back : Bool) (mine : Nat → Bool) (l : Leaf) (va n : Nat),
    (back = false → s.loadBytes u back mine l va n = s.readVa (.core u.core) (u.fmode.getLsbD 2) l va n)
    ∧ (pteWeave l.pte = 0 → ∀ b, b < n → (s.loadBytes u back mine l va n)[b]? = some (match s.unseenByte u.core (l.pa va + b) with
        | some x => if back = true ∧ (x.launch ≠ u.launch ∨ mine x.item = false) then x.old.getD (s.beneath u.core (l.pa va + b)) else s.byteAt (.core u.core) (l.pa va + b)
        | none => s.byteAt (.core u.core) (l.pa va + b))))

/-- R349, R350, R352, R125, R170: a global store whose places pass their checks. ST puts each item's bytes, in ascending item order, into its core's L1 at the address that the checks gave, or through
the weave into home memory; with release order it publishes after. It waits first for the atomics of host memory on its lines (R356). The frame of a store to plain pages: every other byte reads as before on that core, pads, rows and registers
of every unit are as before. What release sends beyond the module keeps its bytes where it lands (R11, R236).
R349, R350, R352, R123: a pad store. STS writes each item's bytes, in ascending item order, at the place of its group's pads that the checks gave, and its frame: every other pad
byte as before, memory as its core sees it as before, the registers of every unit as before. R373: the bytes are noted, since copies of its group that no XFENCE orders are unordered with the
store (assumption log 5). -/
def Obligations.Stores : Prop :=
  (∀ (f : FmtM) (s s1 : State) (i : Issue) (u : SUnit) (ps : List (Nat × Nat × Nat × Leaf)), s.AtHead i u →
    let g := u.guard f.pred f.pneg
    let n := memBytes f.ty
    let sole := !u.accessOne f false true || u.activeCount g == 1
    u.anyActive g = true → s.globalPlaces u f .write true n n false (u.accessItems g (u.accessOne f false true)) = (.inr ps, s1) →
    ∃ t : State, exec (.st f) s = .next t
      ∧ (let s2 := s1.serveLines (ps.map (·.2.2.1))
         let lines := s2.hostLines (ps.map (·.2.2.1))
         let s3 := (s2.noteStores u sole n ps).storePlaces u f.ty f.d.toNat ps
         t = if lines = [] then (if f.order = 2 then s3.publish u.core f.scope.toNat else s3).advance i else s2.waitLines u lines)
      ∧ ((∀ p ∈ ps, pteWeave p.2.2.2.pte = 0) → s.atomq = [] → s.Inv →
          (f.order ≠ 2 → t = ((ps.foldl (fun s p => s.writeL1 u.core p.2.2.1 (s.storeBytes u f.ty f.d.toNat p.1)) (s1.noteStores u sole n ps)).clearLines
            (ps.flatMap (fun p => (List.range n).map (p.2.2.1 + ·)))).advance i)
          ∧ (∀ a, a < 2 ^ 52 → f.order ≠ 2 ∨ s.Plain a → (∀ p ∈ ps, ¬(p.2.2.1 ≤ a ∧ a < p.2.2.1 + n)) → t.byteAt (.core u.core) a = s.byteAt (.core u.core) a)
          ∧ (∀ p k, ps = [p] → k < n → f.order ≠ 2 ∨ s.Plain (p.2.2.1 + k) → (∀ d, s.kind (p.2.2.1 + k) ≠ .creel d) → p.2.2.1 + n ≤ 2 ^ 52 →
              t.byteAt (.core u.core) (p.2.2.1 + k) = (s.storeBytes u f.ty f.d.toNat p.1).getD k 0)
          ∧ s.SamePads t ∧ t.rows = s.rows
          ∧ (∀ x' ∈ t.units, ∃ x ∈ s.units, x.id = x'.id ∧ x'.v = x.v ∧ x'.p = x.p ∧ x'.k = x.k ∧ x'.x = x.x)))
  ∧ (∀ (f : FmtM) (s : State) (i : Issue) (u : SUnit) (gr : Group) (ps : List (Nat × Nat × Nat × Nat)), s.AtHead i u → s.Inv → s.groupOf u = some gr →
    let g := u.guard f.pred f.pneg
    let n := memBytes f.ty
    u.anyActive g = true → s.padPlaces u gr f true n n (u.accessItems g (u.accessOne f true true)) = .ok ps →
    ∃ t : State, exec (.sts f) s = .next t
      ∧ (f.order ≠ 2 → t = (((ps.foldl (fun s p => s.writePad p.2.2.1 p.2.2.2 (s.storeBytes u f.ty f.d.toNat p.1)) s).clearPadWords
            (ps.flatMap (fun p => (List.range n).map (State.padKey p.2.2.1 p.2.2.2 + ·)))).notePads gr n ps).advance i)
      ∧ (∀ c o, (∀ p ∈ ps, ¬(State.padKey p.2.2.1 p.2.2.2 ≤ State.padKey c o ∧ State.padKey c o < State.padKey p.2.2.1 p.2.2.2 + n)) → t.padBytes c o 1 = s.padBytes c o 1)
      ∧ (∀ p, ps = [p] → t.padBytes p.2.2.1 p.2.2.2 n = s.storeBytes u f.ty f.d.toNat p.1)
      ∧ (∀ a, a < 2 ^ 52 → f.order ≠ 2 ∨ s.Plain a → t.byteAt (.core u.core) a = s.byteAt (.core u.core) a) ∧ t.rows = s.rows
      ∧ (∀ x' ∈ t.units, ∃ x ∈ s.units, x.id = x'.id ∧ x'.v = x.v ∧ x'.p = x.p ∧ x'.k = x.k ∧ x'.x = x.x))

/-- R349, R350, R354: an access whose lowest active item is misaligned traps MISALIGN with the address or pad offset, and no item's access is performed.
R160, R165, R123: an access whose first item lies at an address that the page table does not map traps PAGEFAULT with the address, outside the pad of its group PADRANGE with the offset. -/
def Obligations.AccessFaults : Prop :=
  (∀ (f : FmtM) (s : State) (i : Issue) (u : SUnit) (gr : Group), s.AtHead i u → u.isStrand = true → u.anyActive (u.guard f.pred f.pneg) = true → u.region = none →
    let g := u.guard f.pred f.pneg
    let n := memBytes f.ty
    (s.gaddr u f true (u.lowest g) % n ≠ 0 →
      exec (.ld f) s = s.trapped i u causeMisalign (BitVec.ofNat 64 (s.gaddr u f true (u.lowest g))) true
      ∧ exec (.st f) s = s.trapped i u causeMisalign (BitVec.ofNat 64 (s.gaddr u f true (u.lowest g))) true)
    ∧ (s.groupOf u = some gr → s.poff u f true (u.lowest g) % n ≠ 0 →
      exec (.lds f) s = s.trapped i u causeMisalign (BitVec.ofNat 64 (s.poff u f true (u.lowest g))) false
      ∧ exec (.sts f) s = s.trapped i u causeMisalign (BitVec.ofNat 64 (s.poff u f true (u.lowest g))) false)
    ∧ (∀ (ins : Instr) (op : AtomOp), atomOp ins = some (op, f) → s.gaddr u f false (u.lowest g) % atomAlign op f.ty ≠ 0 →
        exec ins s = s.trapped i u causeMisalign (BitVec.ofNat 64 (s.gaddr u f false (u.lowest g))) true)
    ∧ (∀ (ins : Instr) (op : AtomOp), atomsOp ins = some (op, f) → s.groupOf u = some gr → s.poff u f false (u.lowest g) % atomAlign op f.ty ≠ 0 →
        exec ins s = s.trapped i u causeMisalign (BitVec.ofNat 64 (s.poff u f false (u.lowest g))) false))
  ∧ (∀ (f : FmtM) (s : State) (i : Issue) (u : SUnit) (c : Ctx) (gr : Group), s.AtHead i u → u.isStrand = true → u.anyActive (u.guard f.pred f.pneg) = true → u.region = none →
    let g := u.guard f.pred f.pneg
    let n := memBytes f.ty
    (let va := s.gaddr u f true (u.lowest g)
     va % n = 0 → s.ctx? (s.ctxOf u) = some c → (∀ t ∈ s.tlb, t.serves (s.ctxOf u) c.part va = false) → s.walkFor (.core u.core) c va = none →
      exec (.ld f) s = s.trapped i u causePagefault (BitVec.ofNat 64 va) true ∧ exec (.st f) s = s.trapped i u causePagefault (BitVec.ofNat 64 va) true)
    ∧ (let off := s.poff u f true (u.lowest g)
       s.groupOf u = some gr → off % n = 0 → gr.padPlace u.core off n = none →
        exec (.lds f) s = s.trapped i u causePadrange (BitVec.ofNat 64 off) false ∧ exec (.sts f) s = s.trapped i u causePadrange (BitVec.ofNat 64 off) false))

/-- R357, R141, R143, R125: PHASE with release or both, and XFENCE, publish the stores of the unit's core; PHASE with acquire or both, and XFENCE, come after the atomics of the core that
are on their way, and wait where one of host memory has still to be answered (R356); XFENCE puts the pad stores of its group before later copies of the queues it names (R373); PREF
changes nothing; with no active item all four only go on. Publication changes no byte that the core itself reads, and at device scope every byte that the core wrote is in the home image, where it
lands there (R11, R236). That an acquire changes nothing else, and that these words perform the core's atomics at once, so that no later access has to wait, is the model's choice (assumption log 5). -/
def Obligations.Fences : Prop :=
  (∀ (f : FmtM) (s : State) (i : Issue) (u : SUnit), s.AtHead i u →
    let s1 := s.serveLines (s.coreAtoms u.core)
    let lines := s1.hostLines (s1.coreAtoms u.core)
    (u.anyActive (u.guard f.pred f.pneg) = false →
      exec (.phase f) s = .next (s.advance i) ∧ exec (.xfence f) s = .next (s.advance i) ∧ exec (.pref f) s = .next (s.advance i)
      ∧ exec (.ld f) s = .next (s.advance i) ∧ exec (.st f) s = .next (s.advance i) ∧ exec (.lds f) s = .next (s.advance i) ∧ exec (.sts f) s = .next (s.advance i))
    ∧ (u.anyActive (u.guard f.pred f.pneg) = true →
      (f.order = 2 → exec (.phase f) s = .next ((s.publish u.core f.scope.toNat).advance i))
      ∧ (lines = [] →
        (f.order ≠ 2 → exec (.phase f) s = .next ((if f.order = 1 then s1 else s1.publish u.core f.scope.toNat).advance i))
        ∧ exec (.xfence f) s = .next (((s1.orderPads u.group (f.offset.extractLsb' 0 2)).publish u.core 3).advance i))
      ∧ (lines ≠ [] → exec (.xfence f) s = .next (s1.waitLines u lines) ∧ (f.order ≠ 2 → exec (.phase f) s = .next (s1.waitLines u lines)))
      ∧ (u.isStrand = true ∨ u.addrIsU f false true = true → exec (.pref f) s = .next (s.advance i))))
  ∧ (∀ (s : State) (core scope a : Nat), s.Inv → a < 2 ^ 52 → scope < 2 ∨ s.Plain a →
      (s.publish core scope).byteAt (.core core) a = s.byteAt (.core core) a
      ∧ (2 ≤ scope → (∀ d, s.kind a ≠ .creel d) → (s.publish core scope).homeByte a = s.byteAt (.core core) a)
      ∧ (1 ≤ scope → ∀ c, clusterOf c = clusterOf core → Kv.get none s.l1 (c * paSpace + a) = none →
          (s.publish core scope).byteAt (.core c) a = s.byteAt (.core core) a))

/-- R353 to R356, R129, R130, R215: an ATOM of a strand. Its items' requests, in ascending item order, stand at the home engines with their operands after those already there; the core's copies of their lines
are home; with release order its stores are published first. The old values are owed as a long-latency result; a merge of an accumulator owes none. With acquire order the requests are
served at once, so that what follows comes after what they read: the model's choice (assumption log 5). -/
def Obligations.AtomIssued : Prop :=
  ∀ (ins : Instr) (op : AtomOp) (f : FmtM) (s s1 : State) (i : Issue) (u : SUnit) (ps : List (Nat × Nat × Nat × Leaf)), atomOp ins = some (op, f) → s.AtHead i u →
    u.isStrand = true → u.region = none →
    let g := u.guard f.pred f.pneg
    let n := atomBytes op.code f.ty
    (u.anyActive g = false → exec ins s = .next (s.advance i))
    ∧ (u.anyActive g = true → s.globalPlaces u f .both false n (atomAlign op f.ty) (op == .xam) (u.atomItems g op) = (.inr ps, s1) →
        s1.poisonPlace n ps = none →
        let s3 := (if f.order.getLsbD 1 then s1.publish u.core f.scope.toNat else s1).evictLines u.core (ps.map (·.2.2.1))
        let sent (r : Nat × State) : State :=
          let t : State := { r.2 with atomq := r.2.atomq ++ ps.map (r.2.atomRequest u i op f r.1) }
          if f.order.getLsbD 0 then t.acquireNow u (ps.map (·.2.2.1)) else t
        (op = .xam →
          exec ins s = .next ((sent (s3.addPend u (.entries 1) [] false true false)).advance i))
        ∧ (∀ s4 : State, op ≠ .xam → s3.reserveRows u (loadRegs f.ty f.d) = .ok s4 →
          exec ins s = .next ((sent (s4.addPend u (.entries ps.length) (loadWrites u g.mask false false f []) true true false)).advance i)))

/-- R129, R130, R354: the home engine takes up the oldest request that is the first of its line and performs it whole: the new value is in the home image, every other byte of it as before, the
request is gone, and its item has the old value. R356, R11: of memory beyond the host links the engine asks the host for the old value first, and takes the request up again once the answer has come. Where
the data is poisoned, or the host turned the read away, nothing is written and the item's strand is to trap POISON (R137).
R353 to R356, R215: an ATOMS of a strand is performed on the pad in ascending item order, each item on what the items before it left; the old values are owed as a long-latency result.
R354: the new value of each sub-operation on 32-bit and 64-bit values, from the old value and the operands: sums modulo 2^w, minimum and maximum under the signedness, logic, exchange, compare
and swap, wrapping increment; a failed comparison and a load write nothing. -/
def Obligations.AtomicEngine : Prop :=
  (∀ (s : State) (cluster : Nat) (r : AtomReq) (old : List Byte), s.Inv → s.halted cluster = false → s.nextReq cluster = some r → s.lands r.pa = true →
    let n := atomBytes r.sub r.ty
    (∀ k, k < n → s.place (r.pa + k) = s.place r.pa + k) →
    (s.reqAnswer r = none ∧ s.poisonedAt r.pa n = false ∧ s.overLink r.pa = false ∧ old = Kv.getRun memDefault s.mem (s.place r.pa) n) ∨ s.reqAnswer r = some (true, old) →
    let new := atomBytesAfter r.sub r.ty old r.data r.data2 r.acc
    ∃ t : State, exec (.atomicEngineServe cluster) s = .next t
      ∧ (new ≠ old ∨ s.reqAnswer r = none → ∀ k, k < new.length → t.homeByte (r.pa + k) = new.getD k 0)
      ∧ (∀ a, (∀ k, k < new.length → s.place a ≠ s.place (r.pa + k)) → t.homeByte a = s.homeByte a)
      ∧ t.atomq = s.atomq.erase r ∧ t.l1 = s.l1 ∧ s.SamePads t ∧ t.units = s.units
      ∧ (∀ o ∈ s.pend, o.id = r.op → ∃ o' ∈ t.pend, o'.id = r.op ∧ ∀ n, o.wait = .entries (n + 2) → o'.wait = .entries (n + 1)))
  ∧ (∀ (s : State) (cluster : Nat) (r : AtomReq), s.halted cluster = false → s.nextReq cluster = some r → r.ask = none → s.poisonedAt r.pa (atomBytes r.sub r.ty) = false →
    s.overLink r.pa = true →
    ∃ t : State, exec (.atomicEngineServe cluster) s = .next t ∧ t.mem = s.mem ∧ t.units = s.units
      ∧ t.hostReads = s.hostReads ++ [{ op := s.nextId, unit := 0, pa := r.pa, bytes := atomBytes r.sub r.ty, answer := none }]
      ∧ { r with ask := some s.nextId } ∈ t.atomq)
  ∧ (∀ (s : State) (cluster : Nat) (r : AtomReq) (u : SUnit), s.halted cluster = false → s.nextReq cluster = some r →
    (s.reqAnswer r = none ∧ s.poisonedAt r.pa (atomBytes r.sub r.ty) = true) ∨ (∃ data, s.reqAnswer r = some (false, data)) → s.reqUnit r = some u → s.unit? u.id = some u →
    ∃ (t : State) (x : SUnit), exec (.atomicEngineServe cluster) s = .next t ∧ t.mem = s.mem ∧ t.atomq = s.atomq.erase r ∧ t.unit? u.id = some x
      ∧ x.asyncTrap = some { cause := causePoison, tpc := r.word, tval := r.va, next := r.after, global := true })
  ∧ (∀ (ins : Instr) (op : AtomOp) (f : FmtM) (s : State) (i : Issue) (u : SUnit) (gr : Group) (ps : List (Nat × Nat × Nat × Nat)), atomsOp ins = some (op, f) → s.AtHead i u →
    u.isStrand = true → u.region = none → s.groupOf u = some gr →
    let g := u.guard f.pred f.pneg
    let n := atomBytes op.code f.ty
    let s1 := if f.order.getLsbD 1 then s.publish u.core (gr.padScope f.scope.toNat) else s
    (u.anyActive g = false → exec ins s = .next (s.advance i))
    ∧ (u.anyActive g = true → s.padPlaces u gr f false n (atomAlign op f.ty) (u.atomItems g op) = .ok ps → s.padPoisonPlace n ps = none →
        (op = .xam → exec ins s = .next (((s1.padAtoms u op f n ps).1.addPend u .ready [] false true false).2.advance i))
        ∧ (∀ s4 : State, op ≠ .xam → s1.reserveRows u (loadRegs f.ty f.d) = .ok s4 →
            exec ins s = .next ((((s4.addPend u .ready (loadWrites u g.mask false false f (s1.padAtoms u op f n ps).2) true true false).2.padAtoms u op f n ps).1).advance i)))
    ∧ (∀ (s : State) (p : Nat × Nat × Nat × Nat) (rest : List (Nat × Nat × Nat × Nat)),
        let old := s.padBytes p.2.2.1 p.2.2.2 n
        let d := s.atomData u op f.ty f.index.toNat p.1
        let new := atomBytesAfter op.code f.ty old d.1 d.2 (u.xreg f.index.toNat)
        s.Inv → (s.padAtoms u op f n (p :: rest)).2 = (p.1, BitVec.ofNat 64 (natOf old)) :: (((s.dropNotes ((List.range n).map (State.padKey p.2.2.1 p.2.2.2 + ·))).writePad p.2.2.1 p.2.2.2 new).padAtoms u op f n rest).2))
  ∧ (∀ (w : Nat) (t : Ty), (w = 32 ∧ t ∈ [.s32, .n32, .b32]) ∨ (w = 64 ∧ t ∈ [.s64, .n64, .b64]) → ∀ old b c : BitVec w,
    atomNew 0 t old.toNat b.toNat c.toNat = some (old + b).toNat ∧ atomNew 1 t old.toNat b.toNat c.toNat = some (old - b).toNat
    ∧ atomNew 2 t old.toNat b.toNat c.toNat = some (if (if tySigned t then b.slt old else b.ult old) then b else old).toNat
    ∧ atomNew 3 t old.toNat b.toNat c.toNat = some (if (if tySigned t then old.slt b else old.ult b) then b else old).toNat
    ∧ atomNew 4 t old.toNat b.toNat c.toNat = some (old &&& b).toNat ∧ atomNew 5 t old.toNat b.toNat c.toNat = some (old ||| b).toNat
    ∧ atomNew 6 t old.toNat b.toNat c.toNat = some (old ^^^ b).toNat ∧ atomNew 7 t old.toNat b.toNat c.toNat = some b.toNat
    ∧ atomNew 8 t old.toNat b.toNat c.toNat = (if old = b then some c.toNat else none)
    ∧ atomNew 9 t old.toNat b.toNat c.toNat = some (if b.ule old then 0 else old + 1).toNat
    ∧ atomNew 13 t old.toNat b.toNat c.toNat = none
    ∧ (∀ acc : XAcc, ∀ bs : List Byte, XAcc.ofImage (atomBytesAfter 12 .xa bs 0 0 acc) = (XAcc.ofImage bs).merge acc))

/-- R119, R131, R359 to R361, R370 to R372, R411, R215: the words of the ASY class with an active item, when their checks pass. ACP enters one copy of all its items, BCP and BXF one for each active item, as operations of
the open batch; COLL one job for each; while the queue holds more than its 64 entries the word keeps its port; ASEAL seals the open batch; AWAIT goes on when few enough batches are sealed and waits otherwise; QFEN fences in the named queues every entry of the launch that the unit's items
may have entered, and with them those of its core and of its group; ASTAT owes the counts. R370 orders the item's own entries: that QFEN takes the others too is the model's choice (assumption log 23).
That a word enters all its entries at once and then keeps its port until the queue has taken the last is the model's choice too (assumption log 18): R131 has them enter as entries free, and the
engines here take up a queue's first 64 only.
R119, R131, R360: a copy entered by a unit stands at the end of its engine's queue with its core, item and place in the launch, as a new pending operation of the unit that its open batch holds. -/
def Obligations.AsyncWords : Prop :=
  (∀ (f : FmtX) (s : State) (i : Issue) (u : SUnit), s.AtHead i u → u.anyActive (u.guard f.pred f.pneg) = true →
    let g := u.guard f.pred f.pneg
    let c := s.closeRegion u
    let v := u.noRegion
    (let size := 4 * 2 ^ (f.ctrl.toNat % 4)
     let engine := if f.ctrl.getLsbD 2 then 1 else 0
     let bar := if f.ctrl.getLsbD 4 then some f.imm8.toNat else none
     let word := if f.ctrl.getLsbD 5 then some (s.vAt u f.c.toNat (u.lowest g)).toNat else none
     i.entered = false → u.kind ≠ .undealt → copyBarrier (s.groupOf u) bar = none →
      acpMisaligned size (u.lowest g) word ((u.active g).map (fun k => (k, (s.vAt u f.d.toNat k).toNat, (s.wAt u f.a.toNat k).toNat))) = none →
      exec (.acp f) s = .next ((c.enterCopy v engine (u.lowest g) (.acp size ((u.active g).map (fun k =>
        ((s.vAt u f.d.toNat k).toNat, s.wAt u f.a.toNat k, if f.ctrl.getLsbD 3 then min (s.vAt u f.b.toNat k).toNat size else size)))
        (word.map (fun w => (w, f.ctrl.toNat / 256))) bar)).handed i v engine))
    ∧ (let bar := if f.ctrl.getLsbD 1 then some f.imm8.toNat else none
       let engine := if f.ctrl.getLsbD 0 then 1 else 0
       let cards (bxf : Bool) := (u.active g).foldl (fun t k => t.enterCopy v engine k (.card bxf (s.wAt u f.a.toNat k) bar)) c
       i.entered = false → copyBarrier (s.groupOf u) bar = none →
        (u.kind ≠ .undealt → exec (.bcp f) s = .next ((cards false).handed i v engine)) ∧ exec (.bxf f) s = .next ((cards true).handed i v engine))
    ∧ (let bar := if f.ctrl.getLsbD 1 then some f.imm8.toNat else none
       ∀ n : Nat, i.entered = false → copyBarrier (s.groupOf u) bar = some n → u.region = none → u.kind ≠ .undealt →
        exec (.bcp f) s = s.trapped i u causeBarstate (BitVec.ofNat 64 n) false ∧ exec (.bxf f) s = s.trapped i u causeBarstate (BitVec.ofNat 64 n) false)
    ∧ (exec (.aseal f) s = .next (((c.fresh).2.updUnit u.id (fun x => { x with closed := x.closed ++ [(c.fresh.1, x.openB)], openB := [] }.trimBatches (fun _ => true))).advance i))
    ∧ (u.closed.length ≤ f.imm8.toNat → exec (.await f) s = .next (s.advance i))
    ∧ (f.imm8.toNat < u.closed.length → s.Live u → s.Sole u → ∃ t : State, exec (.await f) s = .next t ∧ (∀ j ∈ t.issue, j.unit ≠ i.unit)
        ∧ ∃ x, t.unit? u.id = some x ∧ x.wait = .await f.imm8.toNat ∧ x.pcSlot = some i.slot ∧ x.pc = u.pc)
    ∧ (let r := c.addPend v (.entries (u.active g).length) [] false true false
       i.entered = false → exec (.coll f) s = .next (((u.active g).foldl (fun t k => let e := t.mkEntry v r.1 4 0 k 0 (.coll (s.wAt u f.a.toNat k)); e.2.enqueue e.1) r.2).handed i v 4))
    ∧ (i.entered = true → ∀ ins ∈ [Instr.acp f, .bcp f, .bxf f, .coll f], exec ins s = .next (c.advance i))
    ∧ (f.ctrl.extractLsb' 0 6 = 0 → exec (.qfen f) s = .next (s.advance i))
    ∧ (f.ctrl.extractLsb' 0 6 ≠ 0 → ∃ (t : State) (ids : List Nat), exec (.qfen f) s = .next (t.advance i)
        ∧ (∀ e ∈ s.entries, e.launch = u.launch → e.core = u.core ∨ (e.group.isSome = true ∧ e.group = u.group) ∨ u.holdsItem e.item = true → (f.ctrl.extractLsb' 0 6).getLsbD e.queue = true → e.id ∈ ids)
        ∧ (∃ o ∈ t.pend, o.wait = .fence ids ∧ o.targets = [u.id]) ∧ (∃ x, t.unit? u.id = some x ∧ x.qfens = u.qfens ++ [(f.ctrl.extractLsb' 0 6, ids)]))
    ∧ (∀ t : State, u.regionHit [f.d.toNat] [] = none →
        s.Owes u g false .ready f.d.toNat false (BitVec.ofNat 64 ((((u.closed.map (fun b => b.2.length)).foldl (· + ·) 0 + u.openB.length) * 0x10000
          + (u.openB.length % 256) * 0x100 + u.closed.length) % 2 ^ 32)) t →
        exec (.astat f) s = .next (t.advance i)))
  ∧ (∀ (s : State) (u : SUnit) (engine item : Nat) (job : EngJob), s.unit? u.id = some u →
    ∃ (e : EngEntry) (o : PendOp) (x : SUnit), (s.enterCopy u engine item job).engq = s.engq ++ [e] ∧ (s.enterCopy u engine item job).pend = s.pend ++ [o]
      ∧ (s.enterCopy u engine item job).unit? u.id = some x ∧ x.openB = u.openB ++ [o.id] ∧ e.core = u.core ∧ e.queue = engine ∧ e.item = item ∧ e.job = job
      ∧ e.op = o.id ∧ e.launch = u.launch ∧ o.targets = [u.id] ∧ o.wait = .entries 1 ∧ x.v = u.v ∧ (s.enterCopy u engine item job).mem = s.mem
      ∧ (s.enterCopy u engine item job).pad = s.pad)

/-- R107 to R118, R121, R122, R374, R215: the words of the SYN class of a unit in a group, with an active item. BARI makes a barrier; BARA arrives, gives the phase, and publishes at cluster scope first; on a
broken barrier it gives the code; BARW gives, with one value for the unit whatever its predicate, 0 once the phase has passed, the code of a broken barrier, and waits otherwise; BARX adds expected bytes; BARC arrives, leaves
a continuation and ends the items; one whose address differs from the phase's is counted, breaks the barrier with code 1, gives 1 and goes on; on a barrier that is broken it gives the code, on one that is not initialised, with an
address that is not U or a mask with gaps it traps BARSTATE, with a mask that does not fit MEMBERMISMATCH. That a BARC whose count breaks the barrier with code 3 still ends its items, that one inside an inline call ends them for good,
and that code 1 stands before code 3 are the model's choice (assumption log 22). WAITA gives a ready completion word; PIPW goes on when the pips named are clear; BARQ owes the barrier's fields.
With no active item BARI, BARA, BARX and BARC do nothing, and close no region.
R109, R110, R113, R118: how a barrier counts. An arrival with a mask inside the group counts its items and opens the phase; a second one must name the same mask; a phase completes when all have arrived and no bytes are expected:
then the phase number goes up, the counts clear and the barrier is idle; too many arrivals break it with code 3 (that ARRIVED then keeps its low 11 bits is the model's choice, assumption log 22).
R115: a barrier that is neither idle nor open is not broken again. R112: bytes of a copy past those that complete a phase count on the next. -/
def Obligations.BarrierWords : Prop :=
  (∀ (f : FmtX) (s : State) (i : Issue) (u : SUnit) (gr : Group) (b : Barrier), s.AtHead i u → u.anyActive (u.guard f.pred f.pneg) = true →
    s.groupOf u = some gr → gr.bars[f.imm8.toNat]? = some b →
    let g := u.guard f.pred f.pneg
    let n := f.imm8.toNat
    let c := s.closeRegion u
    let v := u.noRegion
    (let e := (s.vAt u f.a.toNat (u.lowest g)).toNat
     u.vIsU f.a.toNat = true → 1 ≤ e → e ≤ 1024 → b.state ≠ .opened →
      exec (.bari f) s = .next ((c.putBar gr n { b with state := .idle, expect := e, arrived := 0, bytes := 0, mask := none, cont := none, brk := 0 }).advance i))
    ∧ (∀ (b1 : Barrier) (t : State), b.arrive gr f.ctrl (u.active g) = .counted b1 → c.Writes v g f.d.toNat false (b.phase.setWidth 64) t →
        exec (.bara f) s = .next (((t.publish u.core 1).putBar ((t.group? gr.id).getD gr) n b1).advance i))
    ∧ (∀ (t : State), b.state = .broken → c.Writes v g f.d.toNat false (b.brk.setWidth 64) t → exec (.bara f) s = .next (t.advance i))
    ∧ (u.isStrand = true ∨ g.isTrue = true → u.region = none →
        (b.state = .uninit → exec (.bara f) s = s.trapped i u causeBarstate (BitVec.ofNat 64 n) false
          ∧ exec (.barw f) s = s.trapped i u causeBarstate (BitVec.ofNat 64 n) false ∧ exec (.barx f) s = s.trapped i u causeBarstate (BitVec.ofNat 64 n) false)
        ∧ (b.arrive gr f.ctrl (u.active g) = .mismatch →
            exec (.bara f) s = (s.breakBar gr.id n 1).trapped i u causeMembermismatch (BitVec.ofNat 64 n) false))
    ∧ (let phases := ((if u.vIsU f.a.toNat then [u.lowest g] else u.active g).map (fun k => s.vAt u f.a.toNat k)).eraseDups
       b.state ≠ .uninit → u.regionHit [f.d.toNat] [] = none →
        (∀ t : State, (∀ p ∈ phases, p ≠ b.phase) → s.Writes u u.whole f.d.toNat false 0 t → exec (.barw f) s = .next (t.advance i))
        ∧ (∀ t : State, (∃ p ∈ phases, p = b.phase) → b.state = .broken → s.Writes u u.whole f.d.toNat false (b.brk.setWidth 64) t → exec (.barw f) s = .next (t.advance i))
        ∧ ((∃ p ∈ phases, p = b.phase) → b.state ≠ .broken → s.Live u → s.Sole u → ∃ t : State, exec (.barw f) s = .next t ∧ (∀ j ∈ t.issue, j.unit ≠ i.unit)
            ∧ ∃ x, t.unit? u.id = some x ∧ x.wait = .barw n phases ∧ x.pcSlot = some i.slot))
    ∧ (b.state ≠ .uninit → exec (.barx f) s = .next ((c.countBytes gr.id n (if u.vIsU f.a.toNat then (s.vAt u f.a.toNat (u.lowest g)).toNat
          else (u.active g).foldl (fun t k => t + (s.vAt u f.a.toNat k).toNat) 0 : Nat)).advance i))
    ∧ (u.wIsU f.a.toNat = true → contiguousMask f.ctrl = true →
        let code := s.wAt u f.a.toNat (u.lowest g)
        (∀ b1 : Barrier, b.arrive gr f.ctrl (u.active g) = .counted b1 → b1.cont = none ∨ b1.cont = some code →
          let t := (c.publish u.core 1).putBar gr n { b1 with cont := some code }
          (u.activeCount g = u.items.length → exec (.barc f) s = .next ((t.exitUnit u.id).endClause i.unit))
          ∧ (u.activeCount g ≠ u.items.length → exec (.barc f) s = .next (((t.retireItems v (u.active g)).updUnit u.id (fun x => (x.fallTo i.nextClause).without g)).endClause i.unit)))
        ∧ (∀ (b1 : Barrier) (c0 : W64) (t : State), b.arrive gr f.ctrl (u.active g) = .counted b1 → b1.cont = some c0 → c0 ≠ code → c.Writes v g f.d.toNat false 1 t →
            exec (.barc f) s = .next (((t.publish u.core 1).updGroup gr.id (fun g => { g with bars := setAt g.bars n (b1.break_ 1) })).advance i))
        ∧ (∀ t : State, b.state = .broken → c.Writes v g f.d.toNat false (b.brk.setWidth 64) t → exec (.barc f) s = .next (t.advance i))
        ∧ (u.region = none → (b.state = .uninit → exec (.barc f) s = s.trapped i u causeBarstate (BitVec.ofNat 64 n) false)
          ∧ (b.arrive gr f.ctrl (u.active g) = .mismatch → exec (.barc f) s = (s.breakBar gr.id n 1).trapped i u causeMembermismatch (BitVec.ofNat 64 n) false)))
    ∧ (u.region = none → u.wIsU f.a.toNat = false ∨ contiguousMask f.ctrl = false → exec (.barc f) s = s.trapped i u causeBarstate (BitVec.ofNat 64 n) false)
    ∧ (∀ t : State, u.isStrand = true ∨ g.isTrue = true → u.regionHit [f.d.toNat, f.d.toNat + 1] [] = none →
        s.Owes u g false .ready f.d.toNat true (b.query f.ctrl.toNat) t → exec (.barq f) s = .next (t.advance i))
    ∧ (u.pips &&& f.ctrl.extractLsb' 0 12 = 0 → exec (.pipw f) s = .next (s.advance i))
    ∧ (u.pips &&& f.ctrl.extractLsb' 0 12 ≠ 0 → s.Live u → s.Sole u → ∃ (t : State) (x : SUnit), exec (.pipw f) s = .next t ∧ t.unit? u.id = some x ∧ x.wait = .pipw (f.ctrl.extractLsb' 0 12))
    ∧ (∀ ps : List (Nat × Nat × Nat × Nat), padItems gr u.core 8 8 ((u.active g).map (fun k => (k, (s.vAt u f.a.toNat k + f.ctrl.setWidth 32).toNat))) = .ok ps →
        s.padPoisonPlace 8 ps = none → u.regionHit [f.d.toNat, f.d.toNat + 1] [] = none → (∀ p ∈ ps, wordReady (s.padWord p.2.2.1 p.2.2.2) (s.wAt u f.b.toNat p.1) = true) →
        (∀ (p : Nat × Nat × Nat × Nat) (rest : List (Nat × Nat × Nat × Nat)) (t : State), ps = p :: rest → u.vIsU f.a.toNat = true → s.Writes u g f.d.toNat true (s.padWord p.2.2.1 p.2.2.2) t →
          exec (.waita f) s = .next (t.advance i))
        ∧ (∀ (s1 : State) (u1 : SUnit), u.vIsU f.a.toNat = false → u.isStrand = true → s.ensureRows u [f.d.toNat, f.d.toNat + 1] = .ok (s1, u1) →
          exec (.waita f) s = .next ((s1.putLanes u1 g.mask f.d.toNat true (fun k =>
            match ps.find? (fun p => p.1 == k) with | some p => s.padWord p.2.2.1 p.2.2.2 | none => 0)).advance i))))
  ∧ (∀ (f : FmtX) (s : State) (i : Issue) (u : SUnit), s.AtHead i u → u.anyActive (u.guard f.pred f.pneg) = false →
      ∀ ins ∈ [Instr.bari f, .bara f, .barx f, .barc f, .barw f, .waita f, .pipw f, .barq f], exec ins s = .next (s.advance i))
  ∧ (∀ (u : SUnit) (g : Guard), (u.isStrand = true → u.without g = { u with mask := u.mask &&& ~~~g.mask })
      ∧ (u.isStrand = false → g.lo = u.lo → u.without g = { u with lo := g.hi, cnt := u.lo + u.cnt - g.hi })
      ∧ (u.isStrand = false → g.lo ≠ u.lo → u.without g = { u with cnt := g.lo - u.lo }))
  ∧ (∀ (s : State) (g : Group) (n : Nat) (b : Barrier) (code : BitVec 2), s.group? g.id = some g → g.bars[n]? = some b → b.state ≠ .idle → b.state ≠ .opened →
      ∃ g', (s.breakBar g.id n code).group? g.id = some g' ∧ g'.bars = g.bars)
  ∧ (∀ (s : State) (g : Group) (n k : Nat) (b : Barrier), s.group? g.id = some g → g.bars[n]? = some b → b.state = .opened → b.arrived = b.expect →
      0 < b.bytes → b.bytes < k → k < 2 ^ 47 →
      ∃ g', (s.countPerformed g.id n k).group? g.id = some g' ∧ ∃ b', g'.bars[n]? = some b' ∧ b'.phase = b.phase + 1 ∧ b'.arrived = 0 ∧ b'.bytes = b.bytes - k
        ∧ b'.state = .opened)
  ∧ ((∀ (b : Barrier) (g : Group) (m : BitVec 16) (items : List Nat), b.state = .idle ∨ b.state = .opened →
      (∀ k ∈ items, m.getLsbD ((k - g.base) / 64) = true) →
      (b.mask = none → (∀ j, j < 16 → m.getLsbD j = true → j < g.size / 64) →
        b.arrive g m items = .counted { b with mask := some m, arrived := b.arrived + items.length, state := .opened })
      ∧ (b.mask = some m → b.arrive g m items = .counted { b with arrived := b.arrived + items.length })
      ∧ (∀ m', b.mask = some m' → m' ≠ m → b.arrive g m items = .mismatch))
  ∧ (∀ (s : State) (g : Group) (n : Nat) (b : Barrier), s.group? g.id = some g → n < g.bars.length → b.state = .opened →
      ∃ g', (s.putBar g n b).group? g.id = some g' ∧
        (b.arrived = b.expect → b.bytes = 0 → g'.bars[n]? = some { b with phase := b.phase + 1, arrived := 0, mask := none, cont := none, state := .idle })
        ∧ (b.expect < b.arrived → g'.bars[n]? = some { b with state := .broken, brk := 3, arrived := b.arrived % 2048 })
        ∧ (b.arrived < b.expect → b.bytes.natAbs < 2 ^ 47 → g'.bars[n]? = some b)
        ∧ (∀ k, k ≠ n → g'.bars[k]? = g.bars[k]?)))

/-- R375 to R377, R383 to R385, R215: an MMA-class word of a unit in a group is accepted when the sequencers and tiles it uses let it in, its offsets are multiples of 16 and its footprints lie in the group's pads: the group claims the tiles,
zeroed when new, and the operation stands last in the sequencer as a pending operation of the clause; else it waits on its port. They let a word in when each tile it uses is free or its group's
and each of their sequencers holds fewer than four operations (beside the clauses of other units in issue, for which they keep room: the model's choice, assumption log 26). An offset that is no multiple of 16 traps MISALIGN, a footprint outside the pads PADRANGE.
R375: a tile that a group claims reads +0 in every element when the group did not hold it, and is unchanged when it did; the other cores' tiles are as before. -/
def Obligations.MmaAccepted : Prop :=
  (∀ (ins : Instr) (f : FmtX) (kind : Nat) (offs : List (BitVec 7)) (s : State) (i : Issue) (u : SUnit) (g : Group), mmaKind ins = some (f, kind, offs) →
    s.AtHead i u → s.groupOf u = some g →
    let op := s.mmaOperation u i g f kind offs
    let c := s.closeRegion u
    let v := u.noRegion
    let at_ (r : BitVec 7) : Nat := (s.vAt u r.toNat (u.lowest (u.guard f.pred f.pneg))).toNat
    (u.anyActive (u.guard f.pred f.pneg) = false → exec ins s = .next (c.advance i))
    ∧ ((∀ j ∈ s.issue, j.unit = u.id) → u.anyActive (u.guard f.pred f.pneg) = true →
        (c.mmaReady v [ins] = true ↔ ∀ k ∈ op.cores g, ((s.tile k).group = none ∨ (s.tile k).group = some g.id)
          ∧ (s.mmaq.filter (fun m => m.core == k || (m.pair && m.core + 1 == k))).length < 4))
    ∧ (u.anyActive (u.guard f.pred f.pneg) = true → i.word = ins → c.mmaReady v [ins] = false →
        exec ins s = .next (c.updUnit u.id (fun x => { x with wait := .tile })))
    ∧ (u.anyActive (u.guard f.pred f.pneg) = true → i.word = ins → c.mmaReady v [ins] = true →
        ((∀ r ∈ offs, at_ r % 16 = 0) → (∀ x ∈ op.footprints g, (g.padPlace u.core x.1 x.2).isSome = true) →
          let r := ((op.cores g).foldl (fun s c => s.claimTile g.id ((op.cores g).length == 2) c) c).addPend v (.entries 1) [] false true false
          exec ins s = .next (({ r.2.fresh.2 with mmaq := r.2.fresh.2.mmaq ++ [{ op with id := r.2.fresh.1, op := r.1, pair := (op.cores g).length == 2 }] } : State).advance i))
        ∧ (u.region = none → (∃ r ∈ offs, at_ r % 16 ≠ 0) → ∃ x : Nat, x % 16 ≠ 0 ∧ exec ins s = s.trapped i u causeMisalign (BitVec.ofNat 64 x) false)
        ∧ (u.region = none → (∀ r ∈ offs, at_ r % 16 = 0) → (∃ x ∈ op.footprints g, g.padPlace u.core x.1 x.2 = none) →
            ∃ x : Nat, exec ins s = s.trapped i u causePadrange (BitVec.ofNat 64 x) false)))
  ∧ (∀ (s : State) (gid core : Nat) (paired : Bool),
    ((s.claimTile gid paired core).tile core).group = some gid
    ∧ (paired = true → ((s.claimTile gid paired core).tile core).paired = true)
    ∧ ((s.tile core).group ≠ some gid → ∀ r c, ((s.claimTile gid paired core).tile core).elem r c = 0)
    ∧ ((s.tile core).group = some gid → ∀ r c, ((s.claimTile gid paired core).tile core).elem r c = (s.tile core).elem r c)
    ∧ (∀ k, k ≠ core → (s.claimTile gid paired core).tile k = s.tile k))

/-- R376, R380 to R384: the sequencer performs its first instruction: one k-block of an MMA, a zeroing, a drain or a load of the tile. MZERO leaves +0 everywhere; MLOAD brings each element from its pad word; after the last k-block, and
after the others, the instruction is gone. R47: while the assist routine runs the array waits, and MMA_ASSIST_COMPLETE lets it go on.
R46, R47, R380, R48, R383: a k-block adds to each element of the tile, pass by pass, the exact dot product of its row of A and column of B, each sum rounded to f32; after its last pass a subnormal result
becomes a zero of the unrounded sum's sign unless %fmode keeps it; a row whose A block is not finite makes NaN; a drain to f32 writes each element's bits, with subnormals as zeros of their sign unless
%fmode keeps them, and one to bf16 rounds those. -/
def Obligations.MmaSequencer : Prop :=
  (∀ (core : Nat) (s : State) (m : MmaOp), s.mmaTurn core = some m →
    (∀ g : Group, s.group? m.group = some g → m.assist = false →
      (m.kind = 0 → exec (.mmaSequencerPerform core) s = .next (s.performKblock m g))
      ∧ (m.kind = 1 → ∃ t : State, exec (.mmaSequencerPerform core) s = .next t ∧ (∀ x ∈ t.mmaq, x.id ≠ m.id)
          ∧ (∀ k ∈ m.cores g, ∀ r c, (t.tile k).elem r c = 0) ∧ s.SamePads t ∧ t.units = s.units)
      ∧ (m.kind = 2 → exec (.mmaSequencerPerform core) s = .next (s.performDrain m g))
      ∧ (m.kind = 3 → s.poison.padWords = [] → ∃ t : State, exec (.mmaSequencerPerform core) s = .next t ∧ (∀ x ∈ t.mmaq, x.id ≠ m.id)
          ∧ (∀ r c, r < 128 → c < 128 → (t.tile core).elem r c
              = BitVec.ofNat 32 (natOf ((List.range 4).map (fun j => (s.mmaRead g core m.a (512 * m.cols g)).getD (4 * (r * m.cols g + c) + j) 0)))) ∧ s.SamePads t))
    ∧ (m.assist = true → exec (.mmaSequencerPerform core) s = .next s
        ∧ ∃ t : State, exec (.mmaAssistComplete core) s = .next t ∧ (m.next < m.kb → ∃ x ∈ t.mmaq, x.id = m.id ∧ x.assist = false) ∧ t.tiles = s.tiles))
  ∧ ((∀ (keep : Bool) (t : Tile) (rows : List (Option (List Fv))) (cols : Array (List (List Fv))) (first r n : Nat), Kv.wf 0 t.elems = true → rows.length = 128 → r < 128 → n < 128 →
      (kblockUpdate keep t rows cols first).1.elem r n
        = tileUpdate keep (t.elem r n) ((cols.getD (first + n) []).map (fun b => match rows.getD r none with | some a => dotExact a b | none => .nan)))
  ∧ (∀ (keep : Bool) (c : W32) (d : Fv), let sum := Fv.add .rne (fmtF32.decode c.toNat) d
      let r := fmtF32.encode .rne false sum
      tileUpdate keep c [d] = BitVec.ofNat 32 (if keep = false ∧ 0 < r % 2 ^ 31 ∧ r % 2 ^ 31 < 2 ^ 23 then fmtF32.signBit sum.sign else r))
  ∧ (∀ (c : W32) (ds : List Fv), tileUpdate true c ds = ds.foldl (fun c d => tileUpdate true c [d]) c)
  ∧ (∀ (c : W32) (d e : Fv), tileUpdate false c [d, e] = tileUpdate false (tileUpdate true c [d]) [e])
  ∧ (∀ (m : MmaOp) (row : List W32), m.dfmt = 0 →
      drainRow m row = (row.flatMap (fun x => bytesOf 4 (if x.extractLsb' 23 8 = 0 ∧ x.extractLsb' 0 23 ≠ 0 ∧ m.keep = false then x &&& 0x80000000 else x).toNat), []))
  ∧ (∀ (m : MmaOp) (row : List W32), m.dfmt = 1 →
      drainRow m row = (row.flatMap (fun x => bytesOf 2 (fmtBf16.encode (match m.round with | 0 => .rne | 1 => .rtz | 2 => .rup | _ => .rdn) m.sat
        (fmtF32.decode (if x.extractLsb' 23 8 = 0 ∧ x.extractLsb' 0 23 ≠ 0 ∧ m.keep = false then x &&& 0x80000000 else x).toNat))), [])))

/-- R386 to R388, R390 to R392, R131, R215: an HNK instruction of a strand whose pad operands pass their checks enters its requests, one for each active item or one for all, into the hank queue of its core in item order, and owes the items' wide D. A mutation's request carries its 96-byte
pad record. The word holds its port until the queue has taken the last of them. A misplaced operand traps MISALIGN or PADRANGE; with no active item nothing is entered. -/
def Obligations.HankIssued : Prop :=
  ∀ (ins : Instr) (h : HankForm) (s : State) (i : Issue) (u : SUnit) (gr : Group), hankForm ins = some h → s.AtHead i u → s.groupOf u = some gr → u.isStrand = true →
    let g := u.guard h.f.pred h.f.pneg
    let c := if h.closes then s.closeRegion u else s
    let v := if h.closes then u.noRegion else u
    let d := h.f.d.toNat
    (u.anyActive g = false ∨ i.entered = true → exec ins s = .next (c.advance i))
    ∧ (∀ (ps : List (Nat × Nat × Nat × Nat)) (s1 : State), u.anyActive g = true → i.entered = false → h.places s u gr = .ok ps →
        (h.code ≤ 3 → ∀ p ∈ ps, s.padPoisoned p.2.2.1 p.2.2.2 96 = false) → v.regionHit [d, d + 1] [] = none →
        c.reserveRows v [d, d + 1] = .ok s1 →
        let jobs := h.requests s u ps
        let r := s1.addPend v (.entries jobs.length) (wideZeros u g.mask d) true true false
        exec ins s = .next ((r.2.enterAll v r.1 2 d jobs).handed i v 2))
    ∧ (∀ e : W32 × Nat, u.anyActive g = true → i.entered = false → u.region = none → h.places s u gr = .error e → exec ins s = s.trapped i u e.1 (BitVec.ofNat 64 e.2) false)

/-- R179, R153, R386 to R391: a hank engine takes an entry up when it stands first in its core's queue and nothing before it must be performed first. A mutation, a cursor's opening, reading and closing, a lookup or a ranking then ends with the entry gone and the status and value in its item's D; a held access leaves everything
as it was.
R386, R389, R182: an engine's answer stands in the item's lane of the wide D, status below and value above, and the operation waits for one entry less; a cursor that a closed or foreign number names gives BADCURSOR to every item; an opening takes the lowest free cursor of the core, which R182 does not say (assumption log 6). -/
def Obligations.HankPerformed : Prop :=
  (∀ (s : State) (e : EngEntry), s.engq.find? (fun x => x.id == e.id && x.queue == 2) = some e → s.hankReady e = true → s.halted (clusterOf e.core) = false →
    (∀ (v : Nat) (s1 : State), e.hank.code ≤ 3 → (mutate e).on s = (.ok (some v), s1) →
      exec (.hankOperationPerform e.id) s = .next ((s1.takeEntry e).hankDone e 0 (if e.hank.code = 0 then v else 0)))
    ∧ (∀ s1 : State, e.hank.code ≤ 3 → (mutate e).on s = (.ok none, s1) → exec (.hankOperationPerform e.id) s = .next (s1.takeEntry e))
    ∧ (∀ (st : HStop) (n : Nat) (s1 : State), e.hank.code ≤ 3 → (mutate e).on s = (.error st, s1) → st.status? = some n →
      exec (.hankOperationPerform e.id) s = .next (((s1.dropMove e.id).takeEntry e).hankDone e n 0))
    ∧ (∀ (st : HStop) (s1 : State), e.hank.code ≤ 3 → (mutate e).on s = (.error st, s1) → st.status? = none → exec (.hankOperationPerform e.id) s = .next s)
    ∧ (∀ t : State, e.hank.code = 4 → s.hankOpen e = some t → exec (.hankOperationPerform e.id) s = .next t)
    ∧ (∀ t : State, e.hank.code = 5 → s.hankNext e = some t → exec (.hankOperationPerform e.id) s = .next t)
    ∧ (∀ t : State, e.hank.code = 6 → s.hankClose e = some t → exec (.hankOperationPerform e.id) s = .next t)
    ∧ (∀ (v : Nat) (pad : Option (List Byte)) (s1 : State), e.hank.code ∈ [7, 8, 9, 11] → (lookup e).on s = (.ok (v, pad), s1) →
      exec (.hankOperationPerform e.id) s = .next (((match pad with | some bs => s1.hankPad e e.hank.offset bs | none => s1).takeEntry e).hankDone e 0 v))
    ∧ (e.hank.code = 10 → exec (.hankOperationPerform e.id) s = .next
        ((({ s.takeEntry e with ranks := s.ranks ++ [{ entry := e, thaw := e.hank.pos, begun := [], frozen := false }] } : State).startRanks e.ctx e.hank.hank (s.ranks.length + 2)))))
  ∧ ((∀ (s : State) (e : EngEntry) (o : PendOp) (n status value : Nat) (m : BitVec 64) (xs ys : List W32) (lo : Nat), s.pend.find? (fun x => x.id == e.op) = some o → o.wait = .entries (n + 1) →
      o.writes = [.vg e.reg lo m xs, .vg (e.reg + 1) lo m ys] → xs.length = 64 → ys.length = 64 → e.lane < 64 → status < 2 ^ 32 → value < 2 ^ 32 →
      ∃ o', (s.hankDone e status value).pend.find? (fun x => x.id == e.op) = some o'
        ∧ o'.writes = [.vg e.reg lo m (xs.set e.lane (BitVec.ofNat 32 (hankWord status))), .vg (e.reg + 1) lo m (ys.set e.lane (BitVec.ofNat 32 value))]
        ∧ o'.wait = (if n = 0 then .ready else .entries n))
  ∧ (∀ (s : State) (e : EngEntry), s.cursorOf e e.hank.cursor = none →
      s.hankNext e = some ((s.takeEntry e).hankSame e 10 0) ∧ s.hankClose e = some ((s.takeEntry e).hankSame e 10 0))
  ∧ (∀ (s s1 : State) (e : EngEntry) (h : Hank) (g : Group) (n : Nat), (readHank e.hankWho e.ctx e.fmode e.hank.hank.toNat).on s = (.ok h, s1) →
      e.hank.hi.toNat ≤ 2 ^ 63 → h.keyOk e.hank.lo.toNat = true → e.group.bind s1.group? = some g →
      firstFree 16 (fun n => !s1.cursorHeld e.core n) = some n →
      ∃ (t : State) (c : Cursor), s.hankOpen e = some t ∧ c ∈ t.cursors ∧ c.num = n ∧ c.core = e.core ∧ c.group = g.id ∧ c.hank = e.hank.hank ∧ c.lo = e.hank.lo ∧ c.hi = e.hank.hi))

/-- R175, R176: the bytes that an engine writes for a block of elements in order read back as those elements, with the next block's address; a gap of any size below 2^64 comes back out of its varint, which takes 1 to 9 bytes.
R180, R177: the oldest move in flight between two leas that can be carried on is inserted at its new lea, its old bytes are given up, and its item is answered; where the insertion fails the element goes back first. R187: a freeze completes when no move of its hank is in flight, and a thaw when the beam queries that began before it have ended; the next ranking of that hank then starts. -/
def Obligations.HankStorage : Prop :=
  ((∀ (x : Nat) (rest : List Byte), x < 2 ^ 64 → varint (varintOf x ++ rest) = some (x, rest) ∧ 1 ≤ (varintOf x).length ∧ (varintOf x).length ≤ 9)
  ∧ (∀ (h : Hank) (next : Nat) (es : List Elem), es ≠ [] → inOrder es = true → h.kbits ≤ 21 → (∀ e ∈ es, h.keyOk e.key = true ∧ e.payload.length = h.payload) →
      (recordsFrom none es).length ≤ 4072 → next < 2 ^ 64 → h.parseBlock (blockBytes next es) = some es ∧ fieldOf (blockBytes next es) 0 8 = next)
  ∧ (∀ (e : PElem) (es : List PElem), inOrder (es.map (·.1)) = true → inOrder ((insertElem e es).map (·.1)) = true))
  ∧ ((∀ (s s1 : State) (m : Move) (ms rest : List Move), s.moves = ms ++ m :: rest → (∀ x ∈ ms, s.tryMove x = none) → m.phase = .insert → s.halted (clusterOf m.entry.core) = false →
      (moveIn m).on s = (.ok (), s1) → exec .hankMoveInsert s = .next ((s1.spareMove m).hankDone m.entry 0 0))
  ∧ (∀ (s s1 : State) (m : Move), (releaseSpare m).on s = (.ok (), s1) → s.spareMove m = s1.dropMove m.entry.id)
  ∧ (∀ (s s1 s2 : State) (m : Move) (ms rest : List Move) (st : HStop) (n : Nat), s.moves = ms ++ m :: rest → (∀ x ∈ ms, s.tryMove x = none) → m.phase = .insert →
      s.halted (clusterOf m.entry.core) = false → (moveIn m).on s = (.error st, s1) → st.status? = some n → (moveBack m).on s1 = (.ok (), s2) →
      exec .hankMoveInsert s = .next ((s2.dropMove m.entry.id).hankDone m.entry n 0))
  ∧ (∀ (s s1 : State) (j : RankJob) (n : Nat), s.ranks.find? (fun j => j.frozen && !j.thaw && s.rankHead j && !s.halted (clusterOf j.entry.core)
        && !s.movesOn j.entry.ctx j.entry.hank.hank) = some j →
      (do let h ← readHank j.entry.hankWho j.entry.ctx j.entry.fmode j.entry.hank.hank.toNat
          finishRank (s.rankWho h) j.entry.ctx j.entry.fmode j.entry.hank.hank.toNat : HM Nat).on s = (.ok n, s1) →
      exec .hankRankComplete s = .next ((s1.endRank j 0 n).startRanks j.entry.ctx j.entry.hank.hank s1.ranks.length))
  ∧ (∀ (s s1 : State) (j : RankJob) (n : Nat), s.ranks.find? (fun j => j.frozen && j.thaw && s.rankHead j && !s.halted (clusterOf j.entry.core)
        && !s.beams.any (fun b => b.state == .running && b.ctx == j.entry.ctx && b.hank == j.entry.hank.hank)) = some j →
      (do let h ← readHank j.entry.hankWho j.entry.ctx j.entry.fmode j.entry.hank.hank.toNat
          hCommit (s.rankWho h) h.ctx h.fm [.atom h.at_ (bytesOf 4 (h.flags &&& 6))]
          return h.nvox : HM Nat).on s = (.ok n, s1) →
      exec .hankThawComplete s = .next ((s1.endRank j 0 n).startRanks j.entry.ctx j.entry.hank.hank s1.ranks.length)))

/-- R394 to R397, R206, R215: the BEM class of a strand. BQRY enters one query for each active item with an aligned card, gives the others BADBEAM at once and holds its port until the queue has taken the last; BPOP reaches its unit and is served once the query is done and what reached
it before is served; BSTAT gives a query's state, and BSTAT.rel frees a query that is done: behind a BPOP that is still to be served, either takes its place. -/
def Obligations.BeamWords : Prop :=
  ∀ (f : FmtX) (s s1 : State) (i : Issue) (u : SUnit) (l : Launch) (gr : Group), s.AtHead i u → u.isStrand = true → s.launchOf u = some l → s.groupOf u = some gr →
    let g := u.guard f.pred f.pneg
    let c := s.closeRegion u
    let v := u.noRegion
    let d := f.d.toNat
    let handle (k : Nat) : W32 := s.vAt u f.a.toNat k
    let waits (k : Nat) : Bool := s.touching u.group (handle k).toNat ≠ [] ∧ (s.queryOf u.group (handle k)).any (fun b => b.state == .done) = true
    (u.anyActive g = false → exec (.bqry f) s = .next (c.advance i) ∧ exec (.bpop f) s = .next (c.advance i) ∧ exec (.bstat f) s = .next (c.advance i)
      ∧ exec (.bstatRelease f) s = .next (c.advance i))
    ∧ (i.entered = true → exec (.bqry f) s = .next (c.advance i))
    ∧ (u.anyActive g = true → c.reserveRows v [d, d + 1] = .ok s1 →
        (let good := (u.active g).filter (fun k => (s.wAt u f.a.toNat k).toNat % 64 == 0)
         let status := (List.range 64).map (fun j => if good.contains (u.lo + j) then (0 : W32) else 14)
         let r := s1.addPend v (if good = [] then .ready else .entries good.length) [.vg d u.lo g.mask status, .vg (d + 1) u.lo g.mask (List.replicate 64 0)] true true false
         i.entered = false → exec (.bqry f) s = .next ((r.2.enterAll v r.1 3 d (good.map (fun k => (k, .query (s.wAt u f.a.toNat k) l.tree)))).handed i v 3))
        ∧ (∀ ps : List (Nat × Nat × Nat × Nat), padItems gr u.core 16 16 ((u.active g).map (fun k => (k, (s.vAt u f.b.toNat k).toNat))) = .ok ps →
            let r := s1.addPend v (.entries 1) (wideZeros u g.mask d) true true false
            let e := r.2.mkEntry v r.1 8 0 (u.lowest g) d (.pop (s.vAt u f.a.toNat (u.lowest g)) (ps.map (fun p => (p.1 - u.lo, p.2.1))))
            let s3 := e.2.enqueue e.1
            exec (.bpop f) s = .next (((s3.popQuery e.1).getD s3).advance i))
        ∧ (let later := (u.active g).filter waits
           let x (j : Nat) : W64 := if g.mask.getLsbD j && !waits (u.lo + j) then BitVec.ofNat 64 (s.beamStat u.group (handle (u.lo + j)) false).1 else 0
           let r := s1.addPend v (if later = [] then .ready else .entries later.length) [.vg d u.lo g.mask ((List.range 64).map (fun j => (x j).extractLsb' 0 32)),
             .vg (d + 1) u.lo g.mask ((List.range 64).map (fun j => (x j).extractLsb' 32 32))] true true false
           exec (.bstat f) s = .next ((r.2.enterAll v r.1 8 d (later.map (fun k => (k, .stat (handle k) false)))).advance i))
        ∧ (∃ t : State, exec (.bstatRelease f) s = .next t)
        ∧ (∀ (b : BeamSlot) (k : Nat), u.active g = [k] → s.queryOf u.group (handle k) = some b → b.state = .done →
            (waits k = true → let r := s1.addPend v (.entries 1) (wideZeros u g.mask d) true true false
              exec (.bstatRelease f) s = .next ((r.2.enterAll v r.1 8 d [(k, .stat (handle k) true)]).advance i))
            ∧ (∀ s2 : State, waits k = false → (c.updBeam b.cluster b.slot BeamSlot.release).reserveRows v [d, d + 1] = .ok s2 →
              exec (.bstatRelease f) s = .next ((s2.addPend v .ready (wideZeros u g.mask d) true true false).2.advance i)
              ∧ ∀ b' ∈ ((s2.addPend v .ready (wideZeros u g.mask d) true true false).2.advance i).beams, b'.cluster = b.cluster → b'.slot = b.slot → b'.state = .free)))
    ∧ (∀ (e : EngEntry) (h : W32) (release : Bool), e.job = .stat h release → ((s.touching e.group h.toNat).head?.map (·.id)) = some e.id →
        s.popQuery e = some (((s.beamStat e.group h release).2.takeEntry e).entryDone e.op (some e.reg) e.lane (BitVec.ofNat 64 (s.beamStat e.group h release).1)))

/-- R206, R202, R81: a free slot of a beam unit takes the first query that waits in its cluster and whose launch does not abort, in the lowest free slot, which R206 does not say (assumption log 6), with a generation that its handle shows; the card and record are read and checked, and one that fails ends at once with its status. A query that has run writes its status record, gives its
item the status and the handle, and stays DONE until it is popped empty or released. -/
def Obligations.BeamQueries : Prop :=
  (∀ (s : State) (cluster k : Nat) (e : EngEntry) (addr : W64) (tree : W32), s.nextEntry (fun e => e.queue == 3 && clusterOf e.core == cluster && !s.halted cluster && !s.aborting e.launch) = some e → e.job = .query addr tree →
      firstFree 64 (fun k => !s.beams.any (fun b => b.cluster == cluster && b.slot == k && b.state != .free)) = some k →
      let b : BeamSlot := { emptyBeam cluster k with gen := ((s.beam? cluster k).getD (emptyBeam cluster k)).gen, state := .running, group := e.group.getD 0, ctx := e.ctx, entry := some e }
      let s0 : State := { s.takeEntry e with beams := s.beams.filter (fun b => !(b.cluster == cluster && b.slot == k)) ++ [b] }
      (∀ s1 : State, (beginQuery cluster k e.ctx e.fmode addr.toNat).on s0 = (.ok (), s1) → exec (.beamQueryStart cluster) s = .next s1)
      ∧ (∀ (st : HStop) (n : Nat) (s1 : State), (beginQuery cluster k e.ctx e.fmode addr.toNat).on s0 = (.error st, s1) → st.status? = some n →
          exec (.beamQueryStart cluster) s = .next (s1.updBeam cluster k (fun b => { b with status := hankWord n, fault := BitVec.ofNat 64 st.va, ended := true }))))
  ∧ (∀ (s s1 s2 : State) (cluster slot n : Nat) (b b1 : BeamSlot) (e : EngEntry), s.beam? cluster slot = some b → b.state = .running → s.halted cluster = false → s.runQuery b = some s1 → s1.beam? cluster slot = some b1 →
      s1.putStatus b1 = (some n, s2) → b1.entry = some e →
      exec (.beamQueryDone cluster slot) s = .next (((s2.updBeam cluster slot (fun b => if (s2.group? b.group).isNone then b.release else { b with state := .done, entry := none })).entryDone
        e.op (some e.reg) e.lane (hankD n b1.handle)).popWaiting b1.group b1.handle))
  ∧ (∀ b : BeamSlot, b.handle = b.gen.toNat * 65536 + b.cluster * 256 + b.slot)
  ∧ (∀ b : BeamSlot, b.release.state = .free ∧ b.release.gen = b.gen + 1)

/-- R73, R79, R90, R92 to R95, R114: placement and retirement. A root span that may be placed takes the first free slot in the round-robin order. The ready groups of a launch are placed all together or not at all; a placed group of a core
holds rows and a pad range that nobody else holds, and its pads read zero. A group whose items have exited and that owes nothing gives up what it holds and is counted. A continuation of BARC starts as a span that the group's
items make up again, with the phase in v0 and the barrier in v1.
R81, R82, R95, R206: a launch that aborts and has no span left completes FAULT with its cause and address once no copy, query or tile instruction of its groups and no event to be written is left; until then its queries that wait in the queues are dropped. Of a context that has gone it waits for its running queries alone.
That a launch waits for the event writes it holds before it completes is the model's choice (assumption log 23). -/
def Obligations.Placement : Prop :=
  ((∀ (s : State) (l : Launch) (x : Part) (bad : List Nat) (c k : Nat), s.launch? l.id = some l → s.partOf l.ctx = some x → l.rootPlaced = false → s.placing l = true →
    s.contWaits x.num = false → s.barred x none = some bad → s.rootCore x bad = some (c, k) → l.coreside = false →
    (c ∈ x.cores ∧ c ∉ bad ∧ k ∉ s.usedSlots)
    ∧ ∃ (t : State) (u : SUnit) (y : Launch), exec (.rootSpanPlace l.id) s = .next t ∧ t.units = s.units ++ [u] ∧ u.launch = l.id ∧ u.kind = .undealt ∧ u.core = c ∧ u.slot = some k
      ∧ u.lo = 0 ∧ u.cnt = l.count ∧ u.pc = l.code ∧ u.nest = 0 ∧ u.fmode = 0 ∧ t.launch? l.id = some y ∧ y.rootPlaced = true ∧ y.rootCore = some c
      ∧ t.mem = s.mem ∧ t.pad = s.pad ∧ t.groups = s.groups)
  ∧ (∀ (s : State) (l : Launch) (x : Part) (bad : List Nat), s.launch? l.id = some l → s.partOf l.ctx = some x → s.readyGroups l ≠ [] → s.placing l = true →
      s.barred x (some l.id) = some bad →
      (∀ t, s.placeGroups x.num bad (s.readyGroups l) = some t →
        exec (.groupPlace l.id) s = .next ((t.updLaunch l.id (fun y => { y with age := 0 })).ageHead ((s.headOf x.num).filter (fun h => h.id != l.id)) (s.readyGroups l).length))
      ∧ (s.placeGroups x.num bad (s.readyGroups l) = none → exec (.groupPlace l.id) s = .next s))
  ∧ (∀ (s t : State) (p : Nat) (x : Part) (bad : List Nat) (g : Group), s.part? p = some x → s.group? g.id = some g → g.pair = false → s.placeGroup p bad g = some t →
      ∃ g1, t.group? g.id = some g1 ∧ g1.state = .resident ∧ g1.core ∈ x.cores ∧ g1.core ∉ bad ∧ g1.bars = g.bars ∧ g1.rows.length = g.size / 64 * g.gregs
        ∧ (∀ r ∈ g1.rows, ∀ h ∈ s.groupsOn g1.core, r ∉ h.rows)
        ∧ (∀ h ∈ s.groupsOn g1.core, roundPad h.padBytes ≠ 0 → let b := if h.core = g1.core then h.padBase else h.padBase2
            b + roundPad h.padBytes ≤ g1.padBase ∨ g1.padBase + roundPad g.padBytes ≤ b)
        ∧ (∀ o, o < g.padBytes → t.padBytes g1.core (g1.padBase + o) 1 = [0]) ∧ t.mem = s.mem)
  ∧ (∀ (s : State) (l : Launch) (x : Ctx) (g : Group), s.launch? l.id = some l → s.ctx? l.ctx = some x → x.state = .running → l.state = .draining → g.gid ∉ l.evHeld →
      s.neverDealt l g.gid = false → s.groups.find? (fun h => h.launch == l.id && h.gid == g.gid) = some g → g.state = .resident → State.groupEmpty l g = true → g.conts = [] → (∀ b ∈ g.bars, b.cont = none) →
      s.groupBusy g = false → s.piecesOf g.id = [] →
      exec (.groupRetire l.id g.gid) s = .next ((((s.releaseGroup g).countRetired l g.gid).writeEvent l g.gid).checkComplete l.id)
      ∧ (s.releaseGroup g).group? g.id = none ∧ (∀ c, ((s.releaseGroup g).tile c).group ≠ some g.id)
      ∧ ∃ y, ((s.releaseGroup g).countRetired l g.gid).launch? l.id = some y ∧ y.retired = l.retired ++ [g.gid] ∧ y.retiredItems = l.retiredItems + l.itemsOf g.gid)
  ∧ (∀ (s : State) (pre post : List Group) (g : Group) (l : Launch) (c : Cont) (rest : List Cont) (k : Nat), s.groups = pre ++ g :: post → (∀ h ∈ pre, h.conts = []) → s.group? g.id = some g →
      g.state = .resident → g.conts = c :: rest → s.launch? g.launch = some l → s.placing l = true → s.freeSlot g.core = some k →
      ∃ (t : State) (u : SUnit) (g' : Group), exec .barcContinuationStart s = .next t ∧ t.units = s.units ++ [u] ∧ u.group = some g.id ∧ u.kind = .span ∧ u.lo = c.lo ∧ u.cnt = c.cnt
        ∧ u.pc = c.code ∧ u.slot = some k ∧ u.vreg 0 = .u c.phase ∧ u.vreg 1 = .u (BitVec.ofNat 32 c.bar) ∧ t.group? g.id = some g' ∧ g'.conts = rest
        ∧ (∀ j, j < c.cnt → g'.exited.testBit (c.lo + j - g.base) = false) ∧ t.mem = s.mem))
  ∧ (∀ s : State,
    let gone := s.launches.filter (fun y => y.state == .aborting)
    let cut := gone.foldl (fun s l => s.dropQueries l) s
    exec .launchAbortDone s = .next ((gone.filter (fun y => !cut.units.any (·.launch == y.id))).foldl (fun s l => s.abortDone l) cut)
    ∧ (∀ l ∈ gone, ∀ e ∈ cut.engq, e.queue = 3 → e.launch ≠ l.id))
  ∧ (∀ (s : State) (l : Launch),
    let gs := s.groups.filter (fun g => g.launch == l.id)
    let gone := match s.tree? l.ctx l.tree with | some t => t.closing | none => false
    let busy (g : Group) : Bool := if gone then s.querying g else s.groupBusy g
    ((∃ g ∈ gs, busy g = true) ∨ l.evHeld ≠ [] → s.abortDone l = s)
    ∧ ((∀ g ∈ gs, busy g = false) → l.evHeld = [] → (∀ y ∈ (s.abortDone l).launches, y.id ≠ l.id) ∧ (∀ g ∈ (s.abortDone l).groups, g.launch ≠ l.id)
        ∧ (∀ x, s.tree? l.ctx l.tree = some x → x.closing = false → 1 < x.counter → x.status = pkDone → ∃ y, (s.abortDone l).tree? l.ctx l.tree = some y ∧ y.counter + 1 = x.counter
            ∧ y.status = pkFault ∧ y.detail = (l.fault.getD (0, 0)).1 ∧ y.fault = (l.fault.getD (0, 0)).2)))

/-- R67, R69, R71, R72, R85: a device queue's consumer takes the record at POP when its SEQ and CRC are right, its tree has not failed, its launch passes the checks and a core holds what it declares: POP and DONE go up by one, and the launch
it describes joins its tree; of a tree that has failed the record is dropped. DEVQ_SLOT_REREAD reads the same way. With no such record at POP nothing is taken. Which core reads, and that it reads while RESERVE stands at or below POP too,
are the model's choice (assumption log 39). -/
def Obligations.RecordTaken : Prop :=
  ∀ (s : State) (d : DevQueue) (c : Ctx) (x : Part) (bad : List Nat) (reader : Nat) (pa : Nat) (s1 : State), s.dq? d.ctx d.idx = some d → s.ctx? d.ctx = some c → s.partOf d.ctx = some x →
    c.state = .running → s.contWaits x.num = false → s.barred x none = some bad →
    ((State.fromPointer x.cores x.pointer).filter (fun c => !bad.contains c)).find? (fun c => (s.freeSlot c).isSome) = some reader →
    s.dqAccess (.core reader) d.ctx d.desc.toNat 64 = (.ok pa, s1) →
    let s2 := s1.dqSettle pa
    let pop := s2.dqCounter pa 40
    (∀ (spa : Nat) (s3 : State), s2.dqAccess (.core reader) d.ctx (d.ring.toNat + 64 * (pop % 2 ^ d.logn)) 64 = (.ok spa, s3) →
        let bs := (s3.dqSettle spa).bytesAt (.pair d.home) spa 64
        fieldOf bs 56 4 ≠ pop % 2 ^ 32 ∨ fieldOf bs 60 4 ≠ crc32c (bs.take 60) → exec (.deviceQueuePop d.ctx d.idx) s = .next s3 ∧ exec (.devqSlotReread d.ctx d.idx) s = .next s3)
    ∧ (∀ (spa : Nat) (s3 : State) (core : Nat) (tr : Tree),
        s2.dqAccess (.core reader) d.ctx (d.ring.toNat + 64 * (pop % 2 ^ d.logn)) 64 = (.ok spa, s3) →
        let bs := (s3.dqSettle spa).bytesAt (.pair d.home) spa 64
        let a := LaunchArgs.ofRecord bs
        let s4 := (s3.dqSet (.core reader) pa 40 (pop + 1)).dqSet (.core reader) pa 48 (s3.dqCounter pa 48 + 1)
        let tree : W32 := BitVec.ofNat 32 (fieldOf bs 40 4)
        fieldOf bs 56 4 = pop % 2 ^ 32 → fieldOf bs 60 4 = crc32c (bs.take 60) →
        ((State.fromPointer x.cores x.pointer).filter (fun c => !bad.contains c)).find? (fun c => s3.recordFits a c) = some core → s4.tree? d.ctx tree = some tr →
        (tr.status ≠ pkDone → exec (.deviceQueuePop d.ctx d.idx) s = .next (s4.treeDec d.ctx tree) ∧ exec (.devqSlotReread d.ctx d.idx) s = .next (s4.treeDec d.ctx tree))
        ∧ (tr.status = pkDone → s4.checkLaunch d.ctx a = none → ∃ t y, exec (.deviceQueuePop d.ctx d.idx) s = .next t ∧ exec (.devqSlotReread d.ctx d.idx) s = .next t ∧ y ∈ t.launches
            ∧ y.ctx = d.ctx ∧ y.tree = tree ∧ y.code = a.code ∧ y.count = a.count ∧ y.size = a.size ∧ y.args = a.args
            ∧ y.src = .record d.idx (fieldOf bs 44 1) (BitVec.ofNat 64 (fieldOf bs 48 8)) ∧ (a.flags.getLsbD 0 = false → t.mem = s4.mem)))

/-- R77, R85 to R88, R131, R215, R344: SPAWN of a strand with active items, once queue 5 has room for them. Without a queue it traps BADSPAWN, as it does for a template that is no legal one; else the lowest items enter their records while the device queue has room and get 1; those that
remain get 0, or call inline when their template says so and the nesting allows: the child's code runs at %nest + 1, on top of its arguments and the address of the SPAWN word, and what comes back goes on after that word with the register that takes 2. The items that stay go on as a strand of their
own. A full split stack traps DIVERGE, a return stack without room STACKOVER. The record of an entry of queue 5 is written by the home's atomic engine. -/
def Obligations.Spawn : Prop :=
  (∀ (f : FmtB) (s : State) (i : Issue) (u : SUnit) (l : Launch), s.AtHead i u → u.anyActive (u.guard f.pred f.pneg) = true → u.isStrand = true → s.launchOf u = some l →
    s.queueLen u.core 5 + (u.active (u.guard f.pred f.pneg)).length ≤ 64 →
    let g := u.guard f.pred f.pneg
    let c := s.closeRegion u
    let v := u.noRegion
    let low := u.lowest g
    let reg := f.aux7.toNat
    let items := (u.active g).map (fun k => (k, (s.wAt u f.a.toNat k).toNat))
    let queue : Option Nat := if f.sub = 63 then (match l.src with | .record q _ _ => some q | _ => none) else some f.sub.toNat
    ((queue.bind (s.dq? l.ctx)) = none → exec (.spawn f) s = .next ((c.takeTrap ((c.unit? u.id).getD u) causeBadspawn i.wordAddr (BitVec.ofNat 64 low) i.nextClause false).endClause i.unit))
    ∧ (∀ (d : DevQueue) (ts : List (Nat × List Byte)) (s1 : State), (queue.bind (s.dq? l.ctx)) = some d → (c.publish u.core 3).readTemplates v items = (.inr ts, s1) →
        (∀ t, ts.find? (fun t => !s1.templateOk l (LaunchArgs.ofRecord t.2)) = some t →
          exec (.spawn f) s = .next ((s1.takeTrap ((s1.unit? u.id).getD u) causeBadspawn i.wordAddr (BitVec.ofNat 64 t.1) i.nextClause false).endClause i.unit))
        ∧ (∀ (pa : Nat) (s2 s3 s6 : State) (u1 : SUnit), (∀ t ∈ ts, s1.templateOk l (LaunchArgs.ofRecord t.2) = true) → s1.dqProducer (.core u.core) d = (.ok pa, s2) →
            s2.reserveRows v [reg] = .ok s3 →
            let s4 := s3.dqSettle pa
            let plan := spawnPlan (decide (u.nest < u.nestmax)) (s4.dqRoom d pa) ts
            let sides := inlineSides v plan.inlined
            let r := s4.addPend v (.entries plan.enter.length) [] false true false
            let s5 := if plan.enter = [] then s4 else plan.enter.foldl (fun s x => s.spawnRecord v r.1 x.1 d pa l.tree x.2) r.2
            let ones := laneMask (fun j => (plan.enter.map (·.1)).contains (u.lo + j))
            let s7 := s6.writeLanes u1 reg (ones ||| laneMask (fun j => plan.full.contains (u.lo + j))) ((List.range 64).map (fun j => if ones.getLsbD j then 1 else 0))
            (sides ≠ [] → 32 < u.rstack.length + 2 → exec (.spawn f) s = .next ((s2.takeTrap ((s2.unit? u.id).getD u) causeStackover i.wordAddr (BitVec.ofNat 64 u.nest) i.nextClause false).endClause i.unit))
            ∧ (s5.ensureRows v [reg] = .ok (s6, u1) →
              (sides = [] → exec (.spawn f) s = .next (s7.advance i))
              ∧ (∀ (a : LaunchArgs) (m : BitVec 64), sides = [(a, m)] → u.rstack.length + 2 ≤ 32 →
                  (u.mask &&& ~~~m = 0 → exec (.spawn f) s = .next ((s7.putUnit (u1.inlineCall i reg a)).endClause i.unit))
                  ∧ (u.mask &&& ~~~m ≠ 0 → u.splitFull = false →
                      exec (.spawn f) s = .next ((s7.split u1 { u1 with mask := u.mask &&& ~~~m } [({ u1 with mask := m } : SUnit).inlineCall i reg a]).advance i))
                  ∧ (u.mask &&& ~~~m ≠ 0 → u.splitFull = true →
                      exec (.spawn f) s = .next ((s2.takeTrap ((s2.unit? u.id).getD u) causeDiverge i.wordAddr 0 i.nextClause false).endClause i.unit)))))))
  ∧ (∀ (ok : Bool) (n : Nat) (ts : List (Nat × List Byte)), (spawnPlan ok n ts).enter = ts.take n
      ∧ (spawnPlan ok n ts).inlined = ((ts.drop n).filter (fun t => ok && (LaunchArgs.ofRecord t.2).flags.getLsbD 2)).map (fun t => (t.1, LaunchArgs.ofRecord t.2))
      ∧ (spawnPlan ok n ts).full = ((ts.drop n).filter (fun t => !(ok && (LaunchArgs.ofRecord t.2).flags.getLsbD 2))).map (·.1))
  ∧ (∀ (u : SUnit) (i : Issue) (reg : Nat) (a : LaunchArgs), let x := u.inlineCall i reg a
      x.pc = a.code ∧ x.nest = u.nest + 1 ∧ x.rstack = a.args :: (i.wordAddr ||| 1) :: u.rstack ∧ x.mask = u.mask ∧ x.v = u.v ∧ x.p = u.p
        ∧ ∃ back : InlineRet, x.inl = back :: u.inl ∧ back.reg = reg ∧ back.depth = u.rstack.length + 2 ∧ back.nest = u.nest
          ∧ (i.slot + 1 < i.hdr.count → back.hdr = i.hdrAddr ∧ back.slot = i.slot + 1) ∧ (i.hdr.count ≤ i.slot + 1 → back.hdr = i.nextClause ∧ back.slot = 0))
  ∧ (∀ (s s1 : State) (e : EngEntry) (q pa p spa cluster : Nat) (bs : List Byte) (d : DevQueue), s.halted cluster = false → (∀ r ∈ s.atomq, r.cluster ≠ cluster) →
      s.nextEntry (fun e => e.queue == 5 && State.spawnHome e == some cluster) = some e → e.job = .spawn q pa p bs → s.dq? e.ctx q = some d →
      s.dqAccess (.core e.core) d.ctx (d.ring.toNat + 64 * (p % 2 ^ d.logn)) 64 = (.ok spa, s1) →
      let t := s1.writeEngineAt (.core e.core) spa (bs.map (fun b => (b, false)))
      exec (.atomicEngineServe cluster) s = .next ({ t with engq := t.engq.filter (fun x => x.id != e.id) }.entryDone e.op none 0 0))

/-- R104, R254, R255, R258, R346: the fetch of a clause for a unit that may issue and whose wait is over. A clause that passes its checks and finds room stands last at the ports, its slots from the one where the unit stopped; a header that
is none traps BADTARGET after a transfer and ILLCLAUSE else; a trap that came late is taken. A yield ends. Where a routine's return goes on after ILLCLAUSE is the model's choice (assumption log 24), and so is the boundary at which
a late trap is taken (assumption log 12). -/
def Obligations.ClauseFetched : Prop :=
  (∀ (s : State) (u : SUnit), s.unit? u.id = some u → s.mayIssue u = true → s.waitOver u = true →
    (∀ t : LateTrap, u.asyncTrap = some t → u.pcSlot = none → exec (.clauseFetch u.id) s = .next (s.boundaryTrap u false t))
    ∧ (∀ (h : Header) (ws : List W64) (s1 : State), u.asyncTrap = none → u.pcSlot = none → s.readClause u = (.ok h ws, s1) →
        let is := ws.zipIdx.map (fun w => (h.decodeSlot w.2 w.1).getD (.nop { d := 0, a := 0, pred := 7, pneg := false, sreg := 0, imm := 0 }))
        s1.mmaReady u is = true → pipsReady u h = true → batchesReady u is = true → s1.queuesReady u is = true →
        ∃ (t : State) (x : SUnit), exec (.clauseFetch u.id) s = .next t ∧ t.issue = s1.issue ++ [{ unit := u.id, hdrAddr := u.pc, hdr := h, words := ws, slot := 0, entered := false }]
          ∧ (s1.unit? u.id = some u → t.unit? u.id = some x ∧ x.wait = .none ∧ x.origin = none ∧ x.v = u.v ∧ x.p = u.p
              ∧ ∀ k, k < 12 → x.pipCount k = u.pipCount k + (if h.seta = k then 1 else 0) + (if h.setb = k then 1 else 0))
          ∧ t.mem = s1.mem ∧ t.pad = s1.pad)
    ∧ (∀ (w : W64) (s1 : State), u.asyncTrap = none → u.pc.toNat % 8 = 0 →
        s.fetchWord u (match u.origin with | some o => o.word | none => u.pc) (match u.origin with | some o => o.next | none => u.pc) true u.pc.toNat = (.inr w, s1) → decodeHeader w = none →
        (∀ o, u.origin = some o → exec (.clauseFetch u.id) s
            = .next (s1.boundaryTrap u true { cause := causeBadtarget, tpc := o.word, tval := u.pc, next := o.next, global := true }))
        ∧ (u.origin = none → exec (.clauseFetch u.id) s
            = .next (s1.boundaryTrap u false { cause := causeIllclause, tpc := u.pc, tval := u.pc, next := u.pc + 8 * ((w >>> 56 &&& 0xF) + 2), global := true })))
    ∧ (∀ o, u.asyncTrap = none → u.pc.toNat % 8 ≠ 0 → u.origin = some o → exec (.clauseFetch u.id) s
        = .next (s.boundaryTrap u true { cause := causeBadtarget, tpc := o.word, tval := u.pc, next := o.next, global := true })))
  ∧ (∀ (s : State) (u : SUnit), s.unit? u.id = some u → u.wait = .yield →
      ∃ t, exec (.yieldExpire u.id) s = .next t ∧ t.unit? u.id = some { u with wait := .none } ∧ t.mem = s.mem ∧ t.pad = s.pad ∧ t.issue = s.issue)

/-- R50 to R52, R57: a host queue. A TAIL within the ring's bounds is taken, another sets BADTAIL. Fetch reads the slot of FETCH at the ring: with the position's generation and a right CRC the packet stands last on the board and FETCH goes up by one,
otherwise the queue is STALLED, and a later reading of the slot does the same. The scan of an entry that alone has not started: a token that is CLEAR makes it wait, and so does, for a COPY packet, an engine that keeps a stream in place beside its 16 full slots (R166); a POISONED token completes it POISONED unless it tolerates poison; else it
is chosen to start, and its tokens are consumed when it says so.
R58, R65, R66, R214, R231: the completion of a packet writes its record of 32 bytes at the completion ring's slot, sets the tokens it names, SET or POISONED, raises its vector, and frees its position; record and vector leave the module over the same host link (R231). -/
def Obligations.HostQueues : Prop :=
  (∀ (s : State) (x : HostQueue), s.hq? x.ctx x.idx = some x →
    (∀ value : W32, ((value - x.retire).toNat ≤ 2 ^ x.logn ∧ (value - x.fetch).toNat < 2 ^ 31 →
          ∃ (t : State) (y : HostQueue), exec (.tailWrite x.ctx x.idx value) s = .next t ∧ t.hq? x.ctx x.idx = some y ∧ y.tail = value ∧ y.badtail = false ∧ y.fetch = x.fetch ∧ y.retire = x.retire
            ∧ y.board = x.board ∧ y.tokens = x.tokens ∧ (value = x.tail → y.state = x.state) ∧ (value ≠ x.tail → x.state = .empty → value ≠ x.fetch → x.isFull = false → y.state = .fetching))
      ∧ (¬((value - x.retire).toNat ≤ 2 ^ x.logn ∧ (value - x.fetch).toNat < 2 ^ 31) →
          ∃ t, exec (.tailWrite x.ctx x.idx value) s = .next t ∧ t.hq? x.ctx x.idx = some { x with badtail := true } ∧ t.mem = s.mem))
    ∧ (∀ (i : Instr) (pa : Nat) (s1 : State), (x.state = .fetching ∧ x.fetch ≠ x.tail ∧ x.isFull = false ∧ i = .packetFetch x.ctx x.idx) ∨ (x.state = .stalled ∧ i = .slotRereadTimer x.ctx x.idx false) →
        ((if i = .packetFetch x.ctx x.idx then s else s.updHq x.ctx x.idx (fun z => { z with longstall := z.longstall || false })).fwTranslate x.home x.ctx .read false (x.ring.toNat + 64 * (x.fetch.toNat % 2 ^ x.logn)) 64
          = (.ok pa, s1)) →
        let bs := s1.bytesAt (.pair x.home) pa 64
        let good := fieldOf bs 1 1 / 16 = (x.fetch.toNat / 2 ^ x.logn) % 16 ∧ fieldOf bs 60 4 = crc32c (bs.take 60)
        ∃ (t : State) (y : HostQueue), exec i s = .next t ∧ t.hq? x.ctx x.idx = some y ∧ y.tail = x.tail ∧ y.retire = x.retire ∧ y.tokens = x.tokens
          ∧ (good → y.board = x.board ++ [State.newEntry x.fetch.toNat bs] ∧ y.fetch = x.fetch + 1 ∧ y.state ≠ .stalled) ∧ (¬good → y.board = x.board ∧ y.fetch = x.fetch ∧ y.state = .stalled))
    ∧ (∀ e : Entry, x.state ≠ .halted → x.state ≠ .dead → x.board.filter (fun b => b.phase == .waiting) = [e] → x.board.find? (fun b => b.pos == e.pos) = some e → e.bad = none → e.type ≠ 7 →
        (∀ b ∈ x.board, b.barrier = true → b.phase = .done ∨ b.pos = e.pos ∨ (BitVec.ofNat 32 e.pos - x.retire).toNat ≤ (BitVec.ofNat 32 b.pos - x.retire).toNat) →
        let toks := s.waitTokens x e
        let stuck := e.type = 2 ∧ s.engineStuck (s.copyCluster x.ctx e.pos) 0 = true
        (Tok.clear ∈ toks ∨ stuck → exec (.boardScan x.ctx x.idx) s = .next s)
        ∧ (Tok.clear ∉ toks → ¬stuck → ∃ (t : State) (y : HostQueue) (e' : Entry), exec (.boardScan x.ctx x.idx) s = .next t ∧ t.hq? x.ctx x.idx = some y ∧ t.entry? x.ctx x.idx e.pos = some e'
            ∧ (Tok.poisoned ∈ toks → e.tolerates = false → e'.phase = .reporting ∧ e'.report.status = pkPoisoned)
            ∧ (Tok.poisoned ∉ toks ∨ e.tolerates = true → e'.phase = .chosen ∧ (e'.poisonedWait = true ↔ Tok.poisoned ∈ toks))
            ∧ (∀ k, k < 64 → x.tokens.length = 64 → y.tokens.getD k .clear = if e.consumes = true ∧ e.waits.getLsbD k = true then .clear else x.tokens.getD k .clear))))
  ∧ (∀ (s : State) (x : HostQueue) (e : Entry) (pa : Nat) (s1 : State), s.hq? x.ctx x.idx = some x → x.board.find? (fun b => b.pos == e.pos) = some e → e.phase = .reporting →
    s.fwWrite x.home x.ctx (x.cbase.toNat + 32 * (e.pos % 2 ^ x.logn)) (bytesOf 4 e.report.status ++ bytesOf 4 e.report.detail.toNat ++ bytesOf 8 e.report.progress.toNat ++ bytesOf 8 e.report.fault.toNat
      ++ bytesOf 8 e.report.extra.toNat) = (.ok pa, s1) →
    ∃ (t : State) (y : HostQueue), exec (.packetComplete x.ctx x.idx e.pos) s = .next t ∧ t.hq? x.ctx x.idx = some y ∧ t.mem = s1.mem
      ∧ (x.state ≠ .dead → x.tokens.length = 64 → ∀ k, k < 64 → y.tokens.getD k .clear
          = if e.sets.getLsbD k = true then (if e.report.status = pkDone ∧ x.tokens.getD k .clear ≠ .poisoned then .set else .poisoned) else x.tokens.getD k .clear)
      ∧ (e.pos = x.retire.toNat → y.retire ≠ x.retire) ∧ (s1.linkUp = true → t.outs = s1.outs ++ (if s1.overLink pa = true then [.record pa s1.linkInUse] else []) ++ (if e.irq = true then [.msix e.vec s1.linkInUse] else []))
      ∧ (e.irq = false → s1.linkUp = false → t.outs = s1.outs))

/-- R61 to R63, R209, R369: the start actions of the packets that act at once, of the first entry chosen to start. NOP completes DONE. SIGNAL takes its decrement off the signal's 64 bits at its home and completes DONE; a misaligned one
is BADPACKET, a fault completes FAULT, an ABSENT page holds it. BARRIER completes at once when all its signals are 0, is SIGNEG on a negative one, and else watches them. MARKER clears the tokens it names and writes its value. COPY enters one
stream of its bytes on the copy engine of its context's cluster. -/
def Obligations.QueuePackets : Prop :=
  (∀ (s : State) (q : HostQueue) (e : Entry), s.chosen? = some (q, e) →
    let done (t : State) := t.reportEntry q.ctx q.idx e.pos pkDone 0 0 0 0
    (e.type = 0 → exec .nopPacket s = .next (done s))
    ∧ (e.type = 4 → (e.field 24 8 % 8 ≠ 0 → exec .signalPacket s = .next (s.reportEntry q.ctx q.idx e.pos pkBadpacket 24 0 0 0))
        ∧ (e.field 24 8 % 8 = 0 →
            (∀ pa s1, s.fwTranslate q.home q.ctx .both true (e.field 24 8) 8 = (.ok pa, s1) → exec .signalPacket s = .next (done (s1.decrement pa (BitVec.ofNat 64 (e.field 32 8)))))
            ∧ (∀ c s1, s.fwTranslate q.home q.ctx .both true (e.field 24 8) 8 = (.fail c, s1) → exec .signalPacket s = .next (s1.reportEntry q.ctx q.idx e.pos pkFault c 0 (BitVec.ofNat 64 (e.field 24 8)) 0))
            ∧ (∀ s1, s.fwTranslate q.home q.ctx .both true (e.field 24 8) 8 = (.hold, s1) → exec .signalPacket s = .next (s1.holdEntry q.ctx q.idx e.pos))))
    ∧ (e.type = 3 → (e.field 56 1 = 0 ∨ 4 < e.field 56 1 → exec .barrierPacket s = .next (s.reportEntry q.ctx q.idx e.pos pkBadpacket 56 (s.progressOf q e) 0 0))
        ∧ (1 ≤ e.field 56 1 → e.field 56 1 ≤ 4 → (∀ i, i < e.field 56 1 → e.field (24 + 8 * i) 8 % 8 = 0) → exec .barrierPacket s = .next (s.evalBarrier q e)))
    ∧ (e.type = 6 → e.step ≠ 0 → ∀ pa s1, s.fwWrite q.home q.ctx (e.field 24 8) ((e.bytes.drop 32).take 8) = (.ok pa, s1) → exec .markerPacket s = .next (done s1))
    ∧ (e.type = 6 → e.step = 0 → s.hq? q.ctx q.idx = some q → q.ctx = 0 → inTiers12 s.hostSide.ranges (e.field 24 8) 8 = true → e.field 24 8 % 8 = 0 → s.linkLost (e.field 24 8) = false →
        ∃ (t : State) (y : HostQueue), exec .markerPacket s = .next t ∧ t.hq? q.ctx q.idx = some y ∧ (q.tokens.length = 64 → ∀ k, k < 64 →
            y.tokens.getD k .clear = if (BitVec.ofNat 64 (e.field 40 8)).getLsbD k = true then .clear else q.tokens.getD k .clear))
    ∧ (e.type = 2 → (q.ctx = 0 → exec .copyPacket s = .next (s.reportEntry q.ctx q.idx e.pos pkDenied 0 0 0 0))
        ∧ (q.ctx ≠ 0 → e.field 48 8 % 8 = 0 → ∃ (t : State) (c : Copy), exec .copyPacket s = .next t ∧ t.copies = s.copies ++ [c] ∧ c.owner = .packet q.ctx q.idx e.pos ∧ c.ctx = q.ctx ∧ c.engine = 0
            ∧ c.cluster = s.copyCluster q.ctx e.pos ∧ c.card.src = BitVec.ofNat 64 (e.field 24 8) ∧ c.card.dst = BitVec.ofNat 64 (e.field 32 8) ∧ c.card.rbytes = e.field 40 8 ∧ c.card.rows = 1
            ∧ c.done = 0 ∧ t.mem = s.mem)))
  ∧ (∀ (s : State) (x : HostQueue) (e : Entry), s.hq? x.ctx x.idx = some x → s.entry? x.ctx x.idx e.pos = some e → e.phase = .started → e.type = 3 →
      exec (.signalWatchNotify x.ctx x.idx e.pos) s = .next (s.evalBarrier x e) ∧ exec (.signalWatchReread x.ctx x.idx e.pos) s = .next (s.evalBarrier x e))
  ∧ (∀ (s : State) (q : HostQueue) (e : Entry) (xs : List W64) (s1 : State), s.readSignals q.home q.ctx (State.signalsOf e) = (.vals xs, s1) →
      (xs ≠ [] → (∀ v ∈ xs, v = 0) → s.evalBarrier q e = s1.reportEntry q.ctx q.idx e.pos pkDone 0 (BitVec.ofNat 64 xs.length) 0 0)
      ∧ (∀ (pre post : List W64) (v : W64), xs = pre ++ v :: post → v.msb = true → (∀ w ∈ pre, w.msb = false) →
          s.evalBarrier q e = s1.reportEntry q.ctx q.idx e.pos pkSigneg (BitVec.ofNat 32 pre.length) (BitVec.ofNat 64 (xs.filter (· == 0)).length) 0 v)
      ∧ ((∃ v ∈ xs, v ≠ 0) → (∀ v ∈ xs, v.msb = false) → s.evalBarrier q e = s1.updEntry q.ctx q.idx e.pos (fun e => { e with phase := .started, watches := State.signalsOf e })))
  ∧ (∀ (s : State) (pa : Nat) (dec : W64), s.mem.wf = true → s.atomq = [] → s.lands pa = true → s.place (pa + 7) = s.place pa + 7 → BitVec.ofNat 64 ((s.decrement pa dec).homeNat pa 8) = BitVec.ofNat 64 (s.homeNat pa 8) - dec)

/-- R70 to R73, R84, R209: a LAUNCH packet of a context other than 0. When its checks fail, it completes with the status and detail of the first that does; else a launch with its fields begins, numbered by its context, and founds a tree that
counts one launch. -/
def Obligations.LaunchStarts : Prop :=
  ∀ (s : State) (q : HostQueue) (e : Entry), s.chosen? = some (q, e) → e.type = 1 →
    (q.ctx = 0 → exec .launchPacket s = .next (s.reportEntry q.ctx q.idx e.pos pkDenied 0 0 0 0))
    ∧ (∀ status detail, q.ctx ≠ 0 → s.checkLaunch q.ctx (LaunchArgs.ofPacket e.bytes) = some (status, detail) → exec .launchPacket s = .next (s.reportEntry q.ctx q.idx e.pos status detail 0 0 0))
    ∧ (q.ctx ≠ 0 → s.checkLaunch q.ctx (LaunchArgs.ofPacket e.bytes) = none → ∃ (t : State) (l : Launch) (tr : Tree), exec .launchPacket s = .next t ∧ t.launches = s.launches ++ [l] ∧ t.trees = s.trees ++ [tr]
        ∧ l.ctx = q.ctx ∧ l.tree = tr.id ∧ l.code = BitVec.ofNat 64 (e.field 24 8) ∧ l.count = e.field 32 4 ∧ l.size = e.field 36 2 ∧ l.pad = e.field 38 3 ∧ l.gregs = e.field 41 1 ∧ l.bars = e.field 42 1
        ∧ l.args = BitVec.ofNat 64 (e.field 44 8) ∧ l.events = BitVec.ofNat 64 (e.field 52 8) ∧ l.rootPlaced = false ∧ l.retired = [] ∧ (∀ x, s.ctx? q.ctx = some x → l.num = x.launchCtr)
        ∧ tr.ctx = q.ctx ∧ tr.q = q.idx ∧ tr.pos = e.pos ∧ tr.founder = l.id ∧ tr.counter = 1 ∧ tr.status = pkDone ∧ t.mem = s.mem)
    ∧ (∀ a : LaunchArgs, (a.code = 0 ∨ a.code.toNat % 8 ≠ 0 → s.badLaunch (s.partOf q.ctx) a = some 24)
        ∧ (a.code ≠ 0 → a.code.toNat % 8 = 0 → a.size < 64 ∨ 1024 < a.size ∨ a.size % 64 ≠ 0 → s.badLaunch (s.partOf q.ctx) a = some 36)
        ∧ (a.code ≠ 0 → a.code.toNat % 8 = 0 → 64 ≤ a.size → a.size ≤ 1024 → a.size % 64 = 0 → 0x18_0000 < a.pad → s.badLaunch (s.partOf q.ctx) a = some 38))

/-- R132 to R134, R209: CREEL_BEGIN and CREEL_SEAL of a context other than 0. A range outside the Creel, or of part chunks, is BADPACKET; a chunk in the wrong state, or of another context, is DENIED; else the chunks become LOADING for the context. A seal that starts remembers the engine work on
its way, and waits for it; once none of it is left that may write into the range, the range is written home and its chunks are SEALED. -/
def Obligations.CreelPackets : Prop :=
  (∀ (s : State) (q : HostQueue) (e : Entry), s.chosen? = some (q, e) → s.sealDue = none → e.type = 5 → q.ctx ≠ 0 →
    let op := e.field 24 4
    (1 < op → exec .creelBegin s = .next (s.reportEntry q.ctx q.idx e.pos pkBadpacket 24 0 0 0))
    ∧ (∀ off, op ≤ 1 → creelRange (e.field 32 8) (e.field 40 8) = .error off →
        (if op = 0 then exec .creelBegin s else exec .creelSeal s) = .next (s.reportEntry q.ctx q.idx e.pos pkBadpacket (BitVec.ofNat 32 off) 0 0 0))
    ∧ (∀ cs, creelRange (e.field 32 8) (e.field 40 8) = .ok cs →
        (op = 0 → (∃ c ∈ cs, ¬((s.chunk c).1 = creelFree ∨ ((s.chunk c).1 = creelSealed ∧ ((s.chunk c).2 = none ∨ (s.chunk c).2 = some q.ctx)))) →
          exec .creelBegin s = .next (s.reportEntry q.ctx q.idx e.pos pkDenied 0 0 0 0))
        ∧ (op = 0 → Kv.wf (creelFree, none) s.creel = true →
            (∀ c ∈ cs, (s.chunk c).1 = creelFree ∨ ((s.chunk c).1 = creelSealed ∧ ((s.chunk c).2 = none ∨ (s.chunk c).2 = some q.ctx))) →
            ∃ t, exec .creelBegin s = .next t ∧ (∀ c ∈ cs, t.chunk c = (creelLoading, some q.ctx)) ∧ (∀ c, c ∉ cs → t.chunk c = s.chunk c) ∧ t.mem = s.mem)
        ∧ (op = 1 → (∃ c ∈ cs, s.chunk c ≠ (creelLoading, some q.ctx)) → exec .creelSeal s = .next (s.reportEntry q.ctx q.idx e.pos pkDenied 0 0 0 0))
        ∧ (op = 1 → (∀ c ∈ cs, s.chunk c = (creelLoading, some q.ctx)) →
            exec .creelSeal s = .next (s.updEntry q.ctx q.idx e.pos (fun e => { e with phase := .started, watches := s.onTheWay })))))
  ∧ (∀ (s : State) (q : HostQueue) (e : Entry) (cs : List Nat), s.sealDue = some (q, e) → q.ctx ≠ 0 → creelRange (e.field 32 8) (e.field 40 8) = .ok cs → Kv.wf (creelFree, none) s.creel = true →
      (∀ c ∈ cs, s.chunk c = (creelLoading, some q.ctx)) →
      s.sealWaits e = false ∧ ∃ t, exec .creelSeal s = .next t ∧ (∀ c ∈ cs, t.chunk c = (creelSealed, some q.ctx)) ∧ (∀ c, c ∉ cs → t.chunk c = s.chunk c)
        ∧ t.mem = (s.flushRange (e.field 32 8) (e.field 40 8)).mem)
  ∧ (∀ (s : State) (e : Entry), (s.sealWaits e = true ↔
      (∃ x ∈ s.entries, x.id ∈ e.watches ∧ ∀ c ∈ s.copies, ∀ y, c.entry = some y → y.id ≠ x.id)
      ∨ (∃ c ∈ s.copies, (c.id ∈ e.watches ∨ ∃ y, c.entry = some y ∧ y.id ∈ e.watches) ∧ s.copyInto c (e.field 32 8) (e.field 40 8) = true)))

/-- R55, R209 to R212, R211, R223: the CONTEXT packets, of the packet that is settled next. On another queue than the management queue it is DENIED; a field that is out of range is BADPACKET, a packet that may not be performed DENIED. CREATE makes an
ALLOCATED context; PAGING gives it a root and a request ring and forgets its translations; QUEUE makes a queue by its descriptor; UNQUEUE makes a host queue DEAD, and removes a device queue, whose records that nothing has taken count as CANCELLED in their trees; INVAL removes the translations in its range; SUSPEND and RESUME
start to move a context; TERMINATE ends it with its launches and queues, but for a launch with a beam query that still runs, whose tree completes with it (R206); RESIZE begins to change a partition, or changes it at once where no context of it is RUNNING.
That an UNQUEUE of no queue is DONE, and one whose queue's counters cannot be read FAULT, is the model's choice, and so is a RESIZE at once (assumption log 33). -/
def Obligations.ContextPackets : Prop :=
  ∀ (s : State) (q : HostQueue) (e : Entry), s.nextContext = some (q, e) → (e.op ∈ [3, 5, 6, 8] → s.performed e.op = []) →
    let instr : Nat → Instr := fun op => match op with
      | 0 => .contextCreate | 1 => .contextPaging | 2 => .contextQueue | 3 => .contextUnqueue | 4 => .contextInval | 5 => .contextSuspend | 6 => .contextResume | 7 => .contextTerminate | _ => .contextResize
    let report (st : Nat) (d : W32) := s.reportEntry q.ctx q.idx e.pos st d 0 0 0
    let mgmt := q.ctx = 0 ∧ q.idx = 0
    (e.op ≤ 8 → ¬mgmt → exec (instr e.op) s = .next (report pkDenied 0))
    ∧ (∀ off, e.op ≤ 8 → mgmt → s.badContext e = some off → exec (instr e.op) s = .next (report pkBadpacket (BitVec.ofNat 32 off)))
    ∧ (e.op ≤ 8 → mgmt → s.badContext e = none → s.contextDenied e = true → exec (instr e.op) s = .next (report pkDenied 0))
    ∧ (mgmt → s.badContext e = none → s.contextDenied e = false →
        (e.op = 0 → ∃ t x, exec .contextCreate s = .next t ∧ t.ctx? e.target = some x ∧ x.state = .allocated ∧ x.part = some e.cpart ∧ x.priority = e.cidx ∧ x.saveBase = e.addr0 ∧ x.saveBytes = e.addr1
            ∧ x.trap = BitVec.ofNat 64 e.addr2 ∧ x.watchLimit = (if e.val = 0 then 2048 else e.val) ∧ x.paging = none ∧ x.launchCtr = 0 ∧ x.cause = 0
            ∧ (∀ n, n ≠ e.target → t.ctx? n = s.ctx? n) ∧ t.mem = s.mem)
        ∧ (e.op = 1 → ∃ t x, exec .contextPaging s = .next t ∧ t.ctx? e.target = some x ∧ x.paging = some { root := e.addr0, ring := e.addr1, logSlots := e.val % 32, reqVec := e.val / 256 % 256, evVec := e.val / 65536 % 256 }
            ∧ x.seq = 0 ∧ x.consumed = 0 ∧ (∀ y ∈ t.tlb, y.tagCtx ≠ some e.target) ∧ t.mem = s.mem)
        ∧ (e.op = 2 → ∀ (pa : Nat) (s1 : State) (p : Part), s.fwTranslate q.home e.target .read false e.addr0 64 = (.ok pa, s1) → s1.partOf e.target = some p →
            let bs := s1.bytesAt (.pair q.home) pa 64
            descriptorOk (some p) bs = true →
            (fieldOf bs 18 1 = 0 → (∀ x ∈ s1.hqs, x.ctx = e.target → x.idx = e.cidx → x.state = .dead ∧ x.board = []) →
              ∃ t x, exec .contextQueue s = .next t ∧ t.hq? e.target e.cidx = some x ∧ x.ring = BitVec.ofNat 64 (fieldOf bs 0 8) ∧ x.cbase = BitVec.ofNat 64 (fieldOf bs 8 8) ∧ x.logn = fieldOf bs 16 1
                ∧ x.home = fieldOf bs 17 1 ∧ x.tail = 0 ∧ x.fetch = 0 ∧ x.retire = 0 ∧ x.board = [] ∧ x.tokens = List.replicate 64 .clear
                ∧ (∀ y, s1.ctx? e.target = some y → x.state = if y.state = .running then .empty else .halted))
            ∧ (fieldOf bs 18 1 ≠ 0 → (∀ x ∈ s1.dqs, x.ctx = e.target → x.idx ≠ e.cidx) →
              ∃ t x, exec .contextQueue s = .next t ∧ t.dqs = s1.dqs ++ [x] ∧ x.ctx = e.target ∧ x.idx = e.cidx ∧ x.desc = BitVec.ofNat 64 e.addr0 ∧ x.ring = BitVec.ofNat 64 (fieldOf bs 0 8) ∧ x.logn = fieldOf bs 16 1))
        ∧ (e.op = 3 → e.val % 2 = 0 → ∀ x, s.hq? e.target e.cidx = some x → ∃ t y, exec .contextUnqueue s = .next t ∧ t.hq? e.target e.cidx = some y ∧ y.state = .dead ∧ y.board.length = x.board.length
            ∧ (∀ b ∈ y.board, b.phase ≠ .waiting) ∧ (x.board = [] → y.tokens = List.replicate 64 .poisoned))
        ∧ (e.op = 3 → e.val % 2 = 1 → (s.dq? e.target e.cidx = none → exec .contextUnqueue s = .next (report pkDone 0))
            ∧ (∀ (d : DevQueue) (pa : Nat) (s1 : State), s.dq? e.target e.cidx = some d → s.dqProducer (.pair d.home) d = (.ok pa, s1) →
                let s2 := s1.dqSettle pa
                let s3 := (s2.cancelSpawns d).cancelRecords d (s2.dqCounter pa 40) (2 ^ d.logn)
                exec .contextUnqueue s = .next ({ s3 with dqs := s3.dqs.filter (fun x => !(x.ctx == d.ctx && x.idx == d.idx)) }.reportEntry q.ctx q.idx e.pos pkDone 0 0 0 0))
            ∧ (∀ (d : DevQueue) (c : W32) (va : Nat) (s1 : State), s.dq? e.target e.cidx = some d → s.dqProducer (.pair d.home) d = (.bad c va, s1) →
                exec .contextUnqueue s = .next (s1.reportEntry q.ctx q.idx e.pos pkFault c 0 (BitVec.ofNat 64 va) 0)))
        ∧ (e.op = 4 → ∃ t, exec .contextInval s = .next t ∧ (∀ y ∈ t.tlb, y ∈ s.tlb) ∧ (∀ y ∈ t.tlb, y.tagCtx = some e.target → e.addr1 ≠ 0 ∧ (y.va + y.bytes ≤ e.addr0 ∨ e.addr0 + e.addr1 ≤ y.va))
            ∧ (∀ y ∈ s.tlb, y.tagCtx ≠ some e.target → y.tagCtx ≠ none → y ∈ t.tlb) ∧ t.mem = s.mem)
        ∧ (e.op = 5 → ∀ x, s.ctx? e.target = some x → ∃ t y, exec .contextSuspend s = .next t ∧ t.ctx? e.target = some y ∧ y.state = (if x.state = .running then .suspending else x.state)
            ∧ (x.state = .running → ∀ h ∈ t.hqs, h.ctx = e.target → h.state = .halted ∨ h.state = .dead))
        ∧ (e.op = 6 → ∀ x, s.ctx? e.target = some x → ∃ t y, exec .contextResume s = .next t ∧ t.ctx? e.target = some y ∧ y.state = (if x.state = .allocated ∨ x.state = .suspended then .runnable else x.state))
        ∧ (e.op = 7 → ∀ x, s.ctx? e.target = some x → ∃ t y, exec .contextTerminate s = .next t ∧ t.ctx? e.target = some y ∧ y.state = .terminated
            ∧ (∀ l ∈ t.launches, l.ctx = e.target → l.state = .aborting ∧ ∃ g ∈ s.groups, g.launch = l.id ∧ s.querying g = true)
            ∧ (∀ h ∈ t.hqs, h.ctx = e.target → h.state = .dead) ∧ (∀ d ∈ t.dqs, d.ctx ≠ e.target)
            ∧ (∀ r ∈ t.trees, r.ctx = e.target → r.closing = true ∧ r.status ≠ pkDone ∧ ∃ l ∈ t.launches, l.ctx = e.target ∧ l.tree = r.id))
        ∧ (e.op = 8 → (∃ n x, s.ctx? n = some x ∧ x.part = some e.cpart ∧ x.state = .running) → ∃ t p, exec .contextResize s = .next t ∧ t.part? e.cpart = some p
            ∧ p.resize = some (BitVec.ofNat 16 e.val) ∧ (∀ n x, t.ctx? n = some x → x.part = some e.cpart → x.state ≠ .running) ∧ t.mem = s.mem)
        ∧ (e.op = 8 → (∀ x ∈ s.ctxs, x.part = some e.cpart → x.state ≠ .running) → ∃ t, exec .contextResize s = .next t ∧ t.mem = s.mem
            ∧ (BitVec.ofNat 16 e.val = 0 → t.part? e.cpart = none)
            ∧ (BitVec.ofNat 16 e.val ≠ 0 → ∃ p, t.part? e.cpart = some p ∧ p.pairs = BitVec.ofNat 16 e.val ∧ p.resize = none)))
    ∧ (∀ (d : DevQueue) (pop n spa : Nat) (t s1 : State), t.dqAccess (.pair d.home) d.ctx (d.ring.toNat + 64 * (pop % 2 ^ d.logn)) 64 = (.ok spa, s1) →
        let s2 := s1.dqSettle spa
        let bs := s2.bytesAt (.pair d.home) spa 64
        fieldOf bs 56 4 = pop % 2 ^ 32 → fieldOf bs 60 4 = crc32c (bs.take 60) → t.cancelRecords d pop (n + 1) = (s2.cancelRecord d bs).cancelRecords d (pop + 1) n)
    ∧ (∀ (t : State) (d : DevQueue), (∀ x ∈ (t.cancelSpawns d).engq, ∀ q pa r bs, x.job = .spawn q pa r bs → x.ctx = d.ctx → q ≠ d.idx)
        ∧ (∀ (x : EngEntry) (pa r : Nat) (bs : List Byte), t.engq = [x] → x.job = .spawn d.idx pa r bs → x.ctx = d.ctx →
            t.cancelSpawns d = (({ t with engq := [] } : State).entryDone x.op none x.lane 0).cancelRecord d bs))
    ∧ (∀ (t : State) (d : DevQueue) (bs : List Byte) (x : Tree),
        let tree : W32 := BitVec.ofNat 32 (fieldOf bs 40 4)
        t.tree? d.ctx tree = some x → x.closing = false → 1 < x.counter → x.status = pkDone → ∃ y, (t.cancelRecord d bs).tree? d.ctx tree = some y ∧ y.counter + 1 = x.counter ∧ y.status = pkCancelled)

/-- R161, R211, R212, R222, R223: what completes a CONTEXT operation that was performed: an INVAL when no atomic request of a context that shares the pages is outstanding, a SUSPEND at SUSPENDED, a RESUME at RUNNING, an UNQUEUE when no entry of its queue remains. The map of
a partition changes once no context of it is SUSPENDING. A context that can be saved becomes SUSPENDED, its save area written, or faults SAVECAP; a RUNNABLE one with nothing left to restore is RUNNING, and what of it waits for pages walks again.
Which contexts an INVAL waits for, as sharers of its pages, is the model's choice (assumption log 35), and so is the home of the management queue as the one that writes the save area (assumption log 16). -/
def Obligations.ContextMoves : Prop :=
  (∀ (s : State) (e : Entry),
    (s.performed 4 = [e] → (∀ r ∈ s.atomq, r.ctx ∉ s.sharers e.target) → exec .invalidationComplete s = .next ((s.sharers e.target).foldl (fun t c => t.rewalk c) (s.reportEntry 0 0 e.pos pkDone 0 0 0 0)))
    ∧ (∀ c n, n ∈ s.sharers c ↔ ∃ x ∈ s.ctxs, x.num = n ∧ (x.num = c ∨ ∃ p, (s.ctx? c).bind (·.part) = some p ∧ x.part = some p))
    ∧ (s.performed 5 = [e] → ∀ x, s.ctx? e.target = some x → x.state = .suspended → exec .contextSuspend s = .next (s.reportEntry 0 0 e.pos pkDone 0 0 0 0))
    ∧ (s.performed 6 = [e] → ∀ x, s.ctx? e.target = some x → x.state = .running → exec .contextResume s = .next (s.reportEntry 0 0 e.pos pkDone 0 0 0 0))
    ∧ (s.performed 3 = [e] → ∀ x, s.hq? e.target e.cidx = some x → (∀ b ∈ x.board, b.phase = .done) → exec .contextUnqueue s = .next (s.reportEntry 0 0 e.pos pkDone 0 0 0 0)))
  ∧ (∀ (s : State) (p : Part) (mask : BitVec 16), s.parts = [p] → p.resize = some mask → mask ≠ 0 → (∀ x ∈ s.ctxs, x.part = some p.num → x.state ≠ .suspending) →
      ∃ t p', exec .resizeMapChange s = .next t ∧ t.parts = [p'] ∧ p'.num = p.num ∧ p'.pairs = mask ∧ p'.resize = none
        ∧ (∀ n x, s.ctx? n = some x → x.part = some p.num → x.returning = true → x.state = .suspended → ∃ y, t.ctx? n = some y ∧ y.state = .runnable) ∧ t.mem = s.mem)
  ∧ (∀ (s s1 : State) (x : Ctx), s.saveTurn = some (x, s1) →
      let s2 := (s1.unitsOf x.num).foldl (fun (s : State) u => s.publish u.core 3) s1
      let image := s2.saveImage x.num
      let home := match s2.hq? 0 0 with | some q => q.home | none => 0
      (image.length ≤ x.saveBytes → ∃ t, exec .contextSaveComplete s = .next t ∧ t = (s2.writeHome (.pair home) x.saveBase image).takeOffAll x.num ∧ (∀ y, s.ctx? x.num = some y → ∃ z, t.ctx? x.num = some z ∧ z.state = .suspended))
      ∧ (x.saveBytes < image.length → exec .contextSaveComplete s = .next (s2.contextFault x.num causeSavecap 0 (BitVec.ofNat 64 image.length))))
  ∧ (∀ (s : State) (x : Ctx), s.ctx? x.num = some x → s.ctxs.filter (fun y => y.state == .runnable) = [x] →
      (s.restoreStep x ≠ s → exec .contextRestore s = .next (s.restoreStep x))
      ∧ ((∀ u ∈ s.savedSpans x.num, u.slot ≠ none) → (∀ g ∈ s.savedGroups x.num, g.2.state ≠ .saved) →
          ∃ t y, exec .contextRestore s = .next t ∧ t.ctx? x.num = some y ∧ y.state = .running ∧ y.returning = false ∧ y.broke = false ∧ t.groups = s.groups
            ∧ ((∀ u ∈ s.unitsOf x.num, ∀ va n tpc next, u.wait ≠ .page va n tpc next) → (∀ k ∈ s.copies, k.ctx = x.num → k.parked = none) → t.mem = s.mem ∧ t.units = s.units)))

/-- R160, R164 to R166, R210, R227, R228: the doorbells and timers of a context. RESOLVE walks again for every unit that waits for a page: it goes on unless the page would still make it wait, with a fault where there is none. CONSUMED within its bounds
is taken and another ignored. A held access goes on once what held it is over. A watchdog that runs out faults the context WATCHDOG.
That the fault which a re-walk finds is taken as a late trap at the unit's next boundary is the model's choice (assumption log 12), and so is that the timer wakes only holds that are over (assumption log 35). -/
def Obligations.ContextTimers : Prop :=
  (∀ (s : State) (c : Nat) (u : SUnit) (va need : Nat) (tpc next : W64), s.unit? u.id = some u → u ∈ s.unitsOf c → u.wait = .page va need tpc next →
    ∃ t y, exec (.resolveWrite c) s = .next t ∧ t.unit? u.id = some y ∧ (s.vaWaits (.core u.core) c va need = true → y = u) ∧ (s.vaWaits (.core u.core) c va need = false → y.wait = .none ∧ y.pc = u.pc ∧ y.v = u.v)
      ∧ (s.leafFor (.core u.core) c va = none → need ≠ State.needBits .exec → y.asyncTrap = some { cause := causePagefault, tpc := tpc, tval := BitVec.ofNat 64 va, next := next, global := true })
      ∧ (∀ l k, s.leafFor (.core u.core) c va = some l → State.needBits .exec ≠ need → settleLeaf (State.needOf need) va l = .fault k →
          y.asyncTrap = some { cause := k, tpc := tpc, tval := BitVec.ofNat 64 va, next := next, global := true }))
  ∧ (∀ (s : State) (x : Ctx) (value : W64), s.ctx? x.num = some x →
      (value < x.consumed ∨ x.seq < value → exec (.consumedWrite x.num value) s = .next s)
      ∧ (x.consumed ≤ value → value ≤ x.seq → ∃ t y, exec (.consumedWrite x.num value) s = .next t ∧ t.ctx? x.num = some y ∧ y.consumed = value ∧ y.state = x.state
        ∧ (s.pageWaits x.num = [] → (∀ c ∈ s.cursors, c.closed = false) → (∀ m ∈ s.moves, m.entry.ctx ≠ x.num) → y.seq = x.seq ∧ t.mem = s.mem)))
  ∧ (∀ (s : State) (c : Nat) (u : SUnit) (va need : Nat), s.unit? u.id = some u → u ∈ s.unitsOf c → u.wait = .held va need →
      ∃ t, exec (.migRewalkTimer c) s = .next t ∧ t.unit? u.id = some (if s.holdOver (.core u.core) c va need = true then { u with wait := .none } else u))
  ∧ (∀ (s : State) (u : SUnit) (x : Ctx), s.unit? u.id = some u → s.ctx? (s.ctxOf u) = some x → x.state = .running ∨ x.state = .suspending → x.requests = [] → s.unitReady u = false →
      ∃ t y, exec (.watchdog u.id) s = .next t ∧ t.ctx? x.num = some y ∧ y.state = .faulted ∧ y.cause = causeWatchdog ∧ y.tval = 0 ∧ (∀ l ∈ t.launches, l.ctx = x.num → l.state = .aborting ∧ ∃ g ∈ s.groups, g.launch = l.id ∧ s.querying g = true)
        ∧ (∀ r ∈ t.trees, r.ctx = x.num → r.closing = true ∧ r.status = pkFault ∧ r.detail = causeWatchdog)
        ∧ (∀ h ∈ t.hqs, h.ctx = x.num → h.state = .halted ∨ h.state = .dead))

/-- R18, R209, R245 to R248, R252: power-on, self-test, firmware, the management queue. Power-on leaves the reset state but for memory beyond the module. A self-test that passes with enough rows leads to WAITFW with the rows and repairs it
found; one that fails, or a core short of rows, leads to HOLD with TEST, DIE and UNIT. LOAD starts VERIFY over the image, whose last 114 bytes are the Ed448ph signature of the bytes before them; a bad length or signature leads back to WAITFW with its FWSTATUS; success runs the image with context 0. A fault of the
power input leads to HOLD with TEST 0. What power-on keeps, what HOLD clears, and TEST 4 with the core as UNIT for a core short of rows are the model's choices (assumption log 15); that a byte nothing has written
reads as 0 is too (assumption log 1). -/
def Obligations.BootStages : Prop :=
  (∀ s : State, s.mem.wf = true → ∃ t, exec .powerOnReset s = .next t ∧ t.dies = State.reset.dies ∧ t.mailbox = State.reset.mailbox ∧ t.hqs = [] ∧ t.units = [] ∧ t.pad = State.reset.pad
      ∧ (∀ k, Kv.get memDefault t.mem k = if 2 ^ 48 ≤ k then Kv.get memDefault s.mem k else memDefault))
  ∧ (∀ (s : State) (d : Nat) (r : SelfTest), d < 4 → s.dies.length = 4 → (s.die d).stage = .selftest →
      (r.pass = true → (∀ i, i < 64 → 1792 ≤ r.rows.getD i 2048) → ∃ t, exec (.selftestDone d r) s = .next t ∧ (t.die d).stage = .waitfw ∧ (∀ k, k ≠ d → t.die k = s.die k)
          ∧ t.mailbox.repairs = s.mailbox.repairs + BitVec.ofNat 32 r.repairs.length ∧ (t.die d).repairs = r.repairs ∧ (∀ i, i < 64 → t.coreRows.getD (64 * d + i) 0 = min 2048 (r.rows.getD i 2048)) ∧ t.mem = s.mem)
      ∧ (r.pass = false → ∃ t, exec (.selftestDone d r) s = .next t ∧ t.stageCode = 2 ∧ t.mailbox.test = r.test ∧ t.mailbox.unit = r.unit ∧ t.mailbox.die = BitVec.ofNat 2 d ∧ t.units = [] ∧ t.hqs = [])
      ∧ (∀ i, r.pass = true → i < 64 → r.rows.getD i 2048 < 1792 → (∀ j, j < i → 1792 ≤ r.rows.getD j 2048) →
          ∃ t, exec (.selftestDone d r) s = .next t ∧ t.stageCode = 2 ∧ t.mailbox.test = 4 ∧ t.mailbox.unit = BitVec.ofNat 16 i ∧ t.mailbox.die = BitVec.ofNat 2 d))
  ∧ (∀ s : State, (s.stageCode ≠ 3 → exec .loadFw s = .next s)
      ∧ (s.stageCode = 3 → 115 ≤ s.mailbox.fwlen.toNat → s.mailbox.fwlen.toNat ≤ 0x0400_0000 → ∃ t, exec .loadFw s = .next t ∧ t.stageCode = 4
          ∧ t.fwImage = s.bytesAt (.pair 0) s.mailbox.fwaddr.toNat s.mailbox.fwlen.toNat ∧ t.mem = s.mem)
      ∧ (s.stageCode = 4 → s.mailbox.fwlen.toNat < 115 ∨ 0x0400_0000 < s.mailbox.fwlen.toNat → ∃ t, exec .verifyDone s = .next t ∧ t.stageCode = 3 ∧ t.mailbox.fwstatus = 3)
      ∧ (s.stageCode = 4 → 115 ≤ s.mailbox.fwlen.toNat → s.mailbox.fwlen.toNat ≤ 0x0400_0000 →
          ∃ t, exec .verifyDone s = .next t ∧ (imageSigned s.fwImage = false → t.stageCode = 3 ∧ t.mailbox.fwstatus = 2)
            ∧ (imageSigned s.fwImage = true → t.stageCode = 5 ∧ (∃ x, t.ctxs = [x] ∧ x.num = 0 ∧ x.state = .running) ∧ (s.mailbox.mgmtq = 0 → t.mailbox.fwstatus = 4 ∧ t.hqs = s.hqs)))
      ∧ (∀ v : W64, ((s.hq? 0 0).isSome = true → exec (.mgmtqWrite v) s = .next s)
          ∧ (s.hq? 0 0 = none → s.stageCode ≠ 5 → ∃ t, exec (.mgmtqWrite v) s = .next t ∧ t.mailbox.mgmtq = v &&& 0x000F_FFFF_FFFF_FFC0 ∧ t.hqs = s.hqs)
          ∧ (s.hq? 0 0 = none → s.stageCode = 5 → ∃ t, exec (.mgmtqWrite v) s = .next t ∧ t.mailbox.mgmtq = v &&& 0x000F_FFFF_FFFF_FFC0 ∧ (t.mailbox.fwstatus = 1 ↔ (t.hq? 0 0).isSome = true)))
      ∧ (∀ message signature : List Byte, signature.length = 114 → imageSigned (message ++ signature) = ed448phOk ((List.range 57).map Config.verifyingKey) message signature)
      ∧ (s.dies ≠ [] → ∃ t, exec .powerInputFault s = .next t ∧ t.stageCode = 2 ∧ t.mailbox.test = 0 ∧ t.units = [] ∧ t.hqs = [] ∧ t.mem = s.mem))

/-- R125, R135, R137, R250, R251: what happens to a die. A third lock-step mismatch within 2e9 cycles faults it; above 95 degrees its cores issue from one port until below 90, above 105 it faults; the Creel's hot mode is asked for above 85 and given up
below 80; the end of a refresh window changes nothing. An L1 line is evicted without a change to what its core reads; an uncorrectable error poisons its unit. The cores and engines of a faulted die do nothing more. -/
def Obligations.DieEvents : Prop :=
  (∀ (s : State) (d : Nat), d < s.dies.length → (s.die d).stage ≠ .reset → (s.die d).faulted = false →
    let now := (s.die d).cycle.toNat
    let recent := (s.die d).mismatches.filter (fun m => decide (m ≤ now) && decide (now ≤ m + 2_000_000_000))
    ∃ t, exec (.lockstepMismatch d) s = .next t ∧ (t.die d).mismatches = (s.die d).mismatches ++ [now] ∧ ((t.die d).faulted = true ↔ 2 ≤ recent.length) ∧ (recent.length < 2 → t.units = s.units ∧ t.mem = s.mem))
  ∧ (∀ (s : State) (d celsius : Nat), d < s.dies.length →
      ∃ t, exec (.thermalEvent d celsius) s = .next t ∧ (t.die d).celsius = celsius
        ∧ (95 < celsius → (t.die d).onePort = true) ∧ (celsius < 90 → (t.die d).onePort = false) ∧ (90 ≤ celsius → celsius ≤ 95 → (t.die d).onePort = (s.die d).onePort)
        ∧ (105 < celsius → (t.die d).faulted = true) ∧ (celsius ≤ 105 → (t.die d).faulted = (s.die d).faulted ∧ t.units = s.units ∧ t.mem = s.mem))
  ∧ (∀ (s : State) (d celsius : Nat), d < s.dies.length →
      (∃ t, exec (.creelHotModeChange d celsius) s = .next t ∧ (t.die d).creelCelsius = celsius ∧ (t.die d).hot = (s.die d).hot ∧ (85 < celsius → (t.die d).hotNext = some true) ∧ (celsius < 80 → (t.die d).hotNext = some false)
        ∧ (80 ≤ celsius → celsius ≤ 85 → (t.die d).hotNext = (s.die d).hotNext) ∧ t.mem = s.mem)
      ∧ exec (.creelRefreshWindowEnd d) s = .next s)
  ∧ (∀ (s : State) (core line : Nat), s.Inv → (line + 1) * 128 ≤ paSpace → (∀ i, i < 128 → s.Plain (line * 128 + i)) →
      ∃ t, exec (.l1Eviction core line) s = .next t ∧ (∀ pa, pa < paSpace → t.byteAt (.core core) pa = s.byteAt (.core core) pa)
        ∧ (∀ pa b, pa / 128 = line → Kv.get none s.l1 (core * paSpace + pa) = some b → t.homeByte pa = b) ∧ (∀ pa, pa / 128 ≠ line → t.homeByte pa = s.homeByte pa) ∧ t.pad = s.pad)
  ∧ (∀ (s : State) (pa core off r : Nat),
      (∃ t, exec (.uncorrectableError (.line pa)) s = .next t ∧ pa / 128 ∈ t.poison.lines ∧ (pa / 128 ∉ s.poison.lines → t.outs = s.outs ++ [.errorReport (128 * (pa / 128))]) ∧ t.mem = s.mem)
      ∧ (∃ t, exec (.uncorrectableError (.padWord core off)) s = .next t ∧ State.padKey core off / 8 ∈ t.poison.padWords ∧ t.pad = s.pad)
      ∧ (∃ t, exec (.uncorrectableError (.row core r)) s = .next t ∧ core * 2048 + r ∈ t.poison.rows ∧ t.rows = s.rows))
  ∧ (∀ (s : State) (cluster engine : Nat) (u : SUnit), s.halted cluster = true →
      exec (.copyPerform cluster engine) s = .next s ∧ exec (.atomicEngineServe cluster) s = .next s ∧ exec (.beamQueryStart cluster) s = .next s ∧ (∀ slot, exec (.beamQueryDone cluster slot) s = .next s)
      ∧ (∀ e : EngEntry, clusterOf e.core = cluster → s.engq.find? (fun x => x.id == e.id && x.queue == 2) = some e → exec (.hankOperationPerform e.id) s = .next s)
      ∧ (clusterOf u.core = cluster → s.mayIssue u = false))

/-- R11, R230 to R236, R50, R164, R209, R247: the host side. A link that comes UP lets held messages go in order, over link 0 when it is UP, else over link 1; when none is UP, outstanding reads of host memory are answered poisoned, each counted. A read's data answers it; so does its timeout, without
data. BAR2 reads what the lock-step pair reads there, all ones where it is poisoned; its writes reach the home slice. A register write is its doorbell, or takes the register's value, and another width or a misaligned one is dropped.
An atomic of a host page, which asked for its old value, is performed when that comes (R356, assumption log 21). That BAR2 is closed before WAITFW is assumption log 15, the other choices of the host side are log 36. -/
def Obligations.HostSide : Prop :=
  (∀ (s : State) (l gen width cxl : Nat), l < 2 → s.hostSide.links.length = 2 → gen ∈ [5, 6, 7] → width ∈ [4, 8, 16] → cxl ∈ [0, 2, 3] → (∀ d ∈ s.dies, d.stage ≠ .reset) →
    ∃ t, exec (.hostLinkUp l gen width cxl) s = .next t ∧ t.hostSide.links[l]? = some { lstate := 2, gen := gen, width := width, cxl := cxl } ∧ t.linkUp = true ∧ t.outs = s.outs ++ s.msixHeld.map (fun v => .msix v t.linkInUse)
      ∧ t.linkInUse = (if l = 0 ∨ (s.hostSide.links[0]?).map (·.lstate) = some 2 then 0 else 1)
      ∧ t.msixHeld = [] ∧ t.mem = s.mem)
  ∧ (∀ (s : State) (l : Nat), l < 2 → s.hostSide.links.length = 2 → ∃ t x, exec (.hostLinkDown l) s = .next t ∧ t.hostSide.links[l]? = some x ∧ x.lstate = 0
      ∧ (t.linkUp = false → (∀ h ∈ t.hostReads, h.answer ≠ none) ∧ t.mailbox.linkdrop = s.mailbox.linkdrop + BitVec.ofNat 32 (s.hostReads.filter (fun h => h.answer.isNone)).length)
      ∧ (t.linkUp = true → t.hostReads = s.hostReads) ∧ t.mem = s.mem)
  ∧ (∀ (s : State) (h : HostRead) (data : List Byte), s.hostReads = [h] → h.answer = none → s.atomq.find? (fun r => r.ask == some h.op) = none →
      (∃ t, exec (.hostReadCompletion h.op data true) s = .next t ∧ t.hostReads = [{ h with answer := some (decide (data.length = h.bytes), data) }] ∧ t.mem = s.mem)
      ∧ (∃ t, exec (.hostReadCompletion h.op data false) s = .next t ∧ t.hostReads = [{ h with answer := some (false, data) }])
      ∧ (∃ t, exec (.hostCompletionTimeout h.op) s = .next t ∧ t.hostReads = [{ h with answer := some (false, []) }]))
  ∧ (∀ (s : State) (h : HostRead) (data : List Byte) (r : AtomReq), s.hostReads = [h] → h.answer = none → s.atomq.find? (fun r => r.ask == some h.op) = some r →
      exec (.hostReadCompletion h.op data true) s = .next (State.serveReq { s with hostReads := [{ h with answer := some (decide (data.length = h.bytes), data) }] } r))
  ∧ (∀ (s : State) (off n : Nat), let pa := s.hostSide.wbase.toNat + off
      (3 ≤ s.stageCode → 0 < n → off + n ≤ 2 ^ 36 → (∀ i, i < n → s.kind (pa + i) ≠ .hole) → s.atomq = [] →
        (s.unreadable pa n = false → ∃ t, exec (.bar2Read off n) s = .next t ∧ t.outs = s.outs ++ [.bar2 (s.bytesAt (.pair 0) pa n) false] ∧ t.mem = s.mem)
        ∧ (s.unreadable pa n = true → ∃ t, exec (.bar2Read off n) s = .next t ∧ t.outs = s.outs ++ [.bar2 (List.replicate n 0xFF) true] ∧ t.mem = s.mem
          ∧ (s.linkLost pa = true → t.mailbox.linkdrop = s.mailbox.linkdrop + 1)))
      ∧ (s.stageCode < 3 → exec (.bar2Read off n) s = .next (s.out .unsupported)))
  ∧ (∀ (s : State) (off : Nat) (bytes : List Byte), let pa := s.hostSide.wbase.toNat + off
      3 ≤ s.stageCode → bytes ≠ [] → off + bytes.length ≤ 2 ^ 36 → (∀ i, i < bytes.length → ∃ d, s.kind (pa + i) = .first d ∨ s.kind (pa + i) = .second) → s.atomq = [] → s.Inv →
      ∃ t, exec (.bar2Write off bytes) s = .next t ∧ (∀ i, i < bytes.length → t.homeByte (pa + i) = bytes.getD i 0) ∧ (s.l1 = [] → s.l2 = [] → ∀ a, a < pa ∨ pa + bytes.length ≤ a → t.homeByte a = s.homeByte a) ∧ t.pad = s.pad)
  ∧ (∀ (s : State) (c q : Nat) (v : W64), c < 256 → q < 32 → s.stageCode ≠ 2 →
      exec (.registerWrite (0x10_0000 + 4096 * c + 128 * q) 8 v) s = exec (.tailWrite c q (v.extractLsb' 0 32)) s
      ∧ exec (.registerWrite (0x20_0000 + 4096 * c) 8 v) s = exec (.resolveWrite c) s
      ∧ exec (.registerWrite (0x20_0010 + 4096 * c) 8 v) s = exec (.consumedWrite c v) s
      ∧ exec (.registerWrite 0x38 8 v) s = exec (.mgmtqWrite v) s
      ∧ (v.getLsbD 0 = true → exec (.registerWrite 0x28 8 v) s = exec .loadFw s)
      ∧ (∃ t, exec (.registerWrite 0x60_0000 8 v) s = .next t ∧ t.hostSide.wbase = v &&& 0x000F_FFF0_0000_0000 ∧ t.mem = s.mem)
      ∧ (∀ off size, size ≠ 4 ∧ size ≠ 8 ∨ off % size ≠ 0 ∨ 2 ^ 24 ≤ off → exec (.registerWrite off size v) s = .next s))

/-- R246, R249: attestation, on one of three transports with its own session. Each request is answered when its turn has come, from WAITFW onward and the first two in HOLD, and refused else: version 1.3, the seven requests, Ed448 and SHA3-512, the SHA3-512 digest of the certificate chain, the
chain; a challenge's answer is its nonce, a measurement's the index and the SHA3-512 digest of the boot ROM, the SHAKE256 digest of the running image or the SHA3-512 digest of the repair map, each with its Ed448 signature by the identity key over what the answer says. A request over a host link that is not UP does not arrive. The stage
query answers the stage and the failing unit at any time. How requests are numbered, how answers are laid out, that the signature is
pure Ed448 with an empty context over the answer's bytes, and how the repair map is laid out is the model's own (assumption log 11). -/
def Obligations.Attestation : Prop :=
  (∀ (s : State) (carrier : Nat) (nonce : List Byte) (index : Nat), carrier < 3 → s.spdm.length = 3 → s.spdmReaches carrier = true →
    let x := s.spdmOn carrier
    let refused (i : Instr) (code : Nat) : Prop := ∃ t, exec i s = .next t ∧ t.outs = s.outs ++ [.refusedRequest code] ∧ t.spdm = s.spdm
    let answers (i : Instr) (code : Nat) (bytes : List Byte) : Prop := ∃ t, exec i s = .next t ∧ t.outs = s.outs ++ [.answer code bytes] ∧ t.spdm = s.spdm ∧ t.mem = s.mem
    let signed (i : Instr) (code : Nat) (bytes : List Byte) : Prop := answers i code (bytes ++ ed448Sign identitySecret bytes)
    let ready := 3 ≤ s.stageCode ∧ x.negotiated = true
    (2 ≤ s.stageCode → exec (.spdmGetVersion carrier) s
        = .next { s with spdm := setAt s.spdm carrier { versionAsked := true, capsAsked := false, negotiated := false }, outs := s.outs ++ [.answer 1 [0x13]] })
    ∧ (s.stageCode < 2 → refused (.spdmGetVersion carrier) 1)
    ∧ (2 ≤ s.stageCode → x.versionAsked = true → exec (.spdmGetCapabilities carrier) s
        = .next { s with spdm := setAt s.spdm carrier { x with capsAsked := true }, outs := s.outs ++ [.answer 2 [1, 2, 3, 4, 5, 6, 7]] })
    ∧ (s.stageCode < 2 ∨ x.versionAsked = false → refused (.spdmGetCapabilities carrier) 2)
    ∧ (3 ≤ s.stageCode → x.capsAsked = true → exec (.spdmNegotiate carrier) s
        = .next { s with spdm := setAt s.spdm carrier { x with negotiated := true }, outs := s.outs ++ [.answer 3 [0, 4, 0, 0, 0x20, 0, 0, 0]] })
    ∧ (s.stageCode < 3 ∨ x.capsAsked = false → refused (.spdmNegotiate carrier) 3)
    ∧ (ready → answers (.spdmGetDigests carrier) 4 (sha3_512 Config.certificate) ∧ answers (.spdmGetCertificate carrier) 5 Config.certificate ∧ signed (.spdmChallenge carrier nonce) 6 nonce
        ∧ (index = 1 → signed (.spdmGetMeasurements carrier index) 7 (1 :: sha3_512 Config.bootRom))
        ∧ (index = 2 → signed (.spdmGetMeasurements carrier index) 7 (2 :: if s.stageCode = 5 then shake256 s.fwImage 64 else []))
        ∧ (index = 3 → signed (.spdmGetMeasurements carrier index) 7 (3 :: sha3_512 (Config.repairMap (s.dies.map (·.repairs)) s.coreRows))))
    ∧ (¬ready → refused (.spdmGetDigests carrier) 4 ∧ refused (.spdmGetCertificate carrier) 5 ∧ refused (.spdmChallenge carrier nonce) 6 ∧ refused (.spdmGetMeasurements carrier index) 7)
    ∧ (index = 0 ∨ 3 < index → refused (.spdmGetMeasurements carrier index) 7))
  ∧ (∀ (s : State) (carrier : Nat), (carrier = 0 → s.spdmReaches carrier = true)
    ∧ (∀ x, (carrier = 1 ∨ carrier = 2) → s.hostSide.links[carrier - 1]? = some x → (s.spdmReaches carrier = true ↔ x.lstate = 2))
    ∧ (s.spdmReaches carrier = false → exec (.spdmGetVersion carrier) s = .next s)
    ∧ exec .mctpStageQuery s = .next (s.out (.stage s.stageCode (s.mailbox.test.toNat * 2 ^ 24 + s.mailbox.die.toNat * 2 ^ 16 + s.mailbox.unit.toNat))))

/-- R237 to R240: the ports. ENABLE of a port that is DOWN starts training; its end stops the port. ISOLATE takes an UP port out of service and gives an enabled one back to training; RETRAIN trains an UP port. Eight lanes make a trained port UP, four to seven
DEGRADED, fewer, or a timeout, fail the attempt, and the third failure isolates it. A DATA flit in sequence is taken; a damaged flit is answered by NAK. A NAK sends again what ACK does not cover, in order, up to a flit of a paused channel. PAUSE and RESUME stop and start a channel. A port that is ISOLATED and
enabled trains again when its window is written with ISOLATE 0. The order in which held flits are sent again, with channels paused, the choices on LEN, VC and a flit seen twice, and the map of the ports are the model's (assumption log 13). -/
def Obligations.PortEvents : Prop :=
  ∀ (s : State) (p : Nat), s.portRuns p = true → p < s.ports.length →
    let x := s.port p
    let paused (vcs : List Nat) (f : SentFlit) : Bool := vcs.contains (fieldOf f.bytes 0 8 / 2 ^ 58 % 4)
    (x.state = .down → x.enable = false → x.isolate = false → ∃ t, exec (.portEnable p true) s = .next t ∧ (t.port p).state = .training ∧ (t.port p).enable = true ∧ (t.port p).attempts = 1
        ∧ (t.port p).replays = 0 ∧ (t.port p).lanes = 0 ∧ t.mem = s.mem)
    ∧ (∃ t, exec (.portEnable p false) s = .next t ∧ (t.port p).state = .down ∧ (t.port p).enable = false)
    ∧ (x.isUp = true → ∃ t, exec (.portIsolate p true) s = .next t ∧ (t.port p).state = .isolated ∧ (t.port p).isolate = true ∧ (t.port p).lanes = 0 ∧ (t.port p).unacked = [])
    ∧ (x.state = .isolated → x.enable = true → ∃ t, exec (.portIsolate p false) s = .next t ∧ (t.port p).state = .training ∧ (t.port p).isolate = false)
    ∧ (x.isUp = true → ∃ t, exec (.retrain p) s = .next t ∧ (t.port p).state = .training ∧ (t.port p).unacked = x.unacked ∧ (t.port p).attempts = 1)
    ∧ (x.isUp = false → exec (.retrain p) s = .next s)
    ∧ (∀ (lanes : Nat) (peerId : BitVec 56) (peerPort : BitVec 4), x.state = .training →
        (4 ≤ lanes → ∃ t, exec (.portTrainDone p lanes peerId peerPort) s = .next t ∧ (t.port p).state = (if 8 ≤ lanes then .up else .degraded) ∧ (t.port p).lanes = (if 8 ≤ lanes then 8 else 4)
            ∧ (t.port p).peerId = peerId ∧ (t.port p).peerPort = peerPort ∧ (s.linkUp = true → t.outs = s.outs ++ [.msix x.vec.toNat s.linkInUse] ++ (x.unacked.takeWhile (fun f => !paused x.pausedTx f)).map (fun f => .flit p f.bytes)))
        ∧ (∀ i, (lanes < 4 ∧ i = .portTrainDone p lanes peerId peerPort) ∨ i = .portTrainTimeout p → ∃ t, exec i s = .next t
            ∧ (x.attempts < 3 → (t.port p).state = .training ∧ (t.port p).attempts = x.attempts + 1) ∧ (3 ≤ x.attempts → (t.port p).state = .isolated)))
    ∧ (∀ flit : List Byte, x.isUp = true →
        let h : W64 := BitVec.ofNat 64 (fieldOf flit 0 8)
        (flit.length ≠ 256 ∨ fieldOf flit 248 8 ≠ crc64 (flit.take 248) → ∃ t, exec (.flitReceive p flit) s = .next t ∧ t.outs = s.outs ++ [.flit p (flitBytes flitNak 0 x.lastOut x.lastIn 0 [])] ∧ t.port p = x)
        ∧ (flit.length = 256 → fieldOf flit 248 8 = crc64 (flit.take 248) → h.extractLsb' 60 4 = 1 → h.extractLsb' 58 2 ≠ 3 → h.extractLsb' 26 8 ≤ 240 → h.extractLsb' 46 12 = x.lastIn + 1 →
            ∃ t, exec (.flitReceive p flit) s = .next t ∧ (t.port p).lastIn = x.lastIn + 1
              ∧ (t.port p).rx = x.rx ++ [((h.extractLsb' 58 2).toNat, h.extractLsb' 0 26, (flit.drop 8).take (h.extractLsb' 26 8).toNat)] ∧ t.mem = s.mem))
    ∧ (∀ ack : BitVec 12, x.isUp = true →
        let now := (s.die (dieOfPort p)).cycle.toNat
        let times := (x.replayCycles ++ [now]).filter (fun t => decide (now ≤ t + 2 ^ 20))
        let left := match x.unacked.findIdx? (fun f => f.seq == ack) with | some i => x.unacked.drop (i + 1) | none => x.unacked
        ∃ t, exec (.nakReceive p ack) s = .next t ∧ (t.port p).replays = x.replays + 1 ∧ (t.port p).unacked = left
          ∧ (times.length < 16 → t.outs = s.outs ++ (left.takeWhile (fun f => !paused x.pausedTx f)).map (fun f => .flit p f.bytes) ∧ (t.port p).state = x.state) ∧ (16 ≤ times.length → (t.port p).state = .training))
    ∧ (∀ vc : Nat, x.isUp = true → (∃ t, exec (.pauseReceive p vc) s = .next t ∧ vc ∈ (t.port p).pausedTx ∧ (∀ k, k ≠ vc → (k ∈ (t.port p).pausedTx ↔ k ∈ x.pausedTx)) ∧ t.mem = s.mem)
        ∧ (∃ t, exec (.resumeReceive p vc) s = .next t ∧ vc ∉ (t.port p).pausedTx ∧ (∀ k, k ≠ vc → (k ∈ (t.port p).pausedTx ↔ k ∈ x.pausedTx))
          ∧ t.outs = s.outs ++ (x.resend.takeWhile (fun f => !paused (x.pausedTx.filter (· != vc)) f)).map (fun f => .flit p f.bytes)))
    ∧ (∀ v : W64, x.state = .isolated → x.enable = true → s.stageCode ≠ 2 → v.getLsbD 0 = true → v.getLsbD 1 = false → v.getLsbD 2 = false →
        ∃ t, exec (.registerWrite (0x50_0000 + 64 * p) 8 v) s = .next t ∧ (t.port p).state = .training ∧ (t.port p).enable = true ∧ (t.port p).isolate = false)

/-- R131, R166, R241 to R244, R359, R367 to R369: the copy engines and the collective engines. An engine carries on its copy, or starts it, or takes up the next entry of its queues. A BXF without transforms between pads brings the
bytes over and ends OK. A copy that has ended writes its completion word, or completes its packet. A collective job whose port is not UP, or of a faulted die, ends LINK; one that has ended is reported and gone; an entry whose ports are free is taken up. A job opens with a control flit on
channel 1 that says hello to the next member; that its payload has RING in its first two bytes is the model's layout (assumption log 13). -/
def Obligations.EngineWork : Prop :=
  (∀ (s : State) (cluster engine : Nat), s.halted cluster = false →
    (∀ c, s.activeCopy cluster engine = some c → exec (.copyPerform cluster engine) s = .next (if c.started = true then s.runCopy c else s.startCopy c))
    ∧ (∀ e, s.activeCopy cluster engine = none → s.engineFree cluster engine = true → s.copyEntry cluster engine = some e →
        exec (.copyPerform cluster engine) s = .next (State.startCopy { s with nextId := s.nextId + 1, engq := s.engq.filter (fun x => x.id != e.id), copies := s.copies ++ [State.newCopy s.nextId cluster engine e.ctx (.entry e) State.emptyCard false] }
          (State.newCopy s.nextId cluster engine e.ctx (.entry e) State.emptyCard false))))
  ∧ (∀ (s : State) (cluster engine : Nat) (c : Copy) (p : Piece) (a c1 o1 c2 o2 : Nat), s.halted cluster = false → s.activeCopy cluster engine = some c → c.started = true → c.bxf = true → c.card.load = 0 → c.card.store = 0 → c.card.rbytes ≤ c.card.dpitch → c.done = 0 → c.pieces = [p] → p.at_ = 0 → p.src = a → p.srcLen = p.len → p.dst % 65536 + p.len ≤ 65536 → s.padNotes = [] →
      c.padSrc = true → c.padDst = true → s.copyPad c a p.len = some (c1, o1) → s.copyPad c p.dst p.len = some (c2, o2) → Memory.wf s.pad = true → s.poison.padWords = [] →
      ∃ t d, exec (.copyPerform cluster engine) s = .next t ∧ t.padBytes c2 o2 p.len = s.padBytes c1 o1 p.len ∧ d ∈ t.copies ∧ d.id = c.id ∧ d.done = p.len ∧ d.ended = some { status := stOk, detail := 0, fault := 0 } ∧ t.mem = s.mem)
  ∧ (∀ (s : State) (c : Copy) (en : CopyEnd), s.copies.find? (fun x => x.id == c.id) = some c → c.ended = some en → c.parked = none → c.held = none →
      (∀ e op items w bar, c.owner = .entry e → e.job = .acp op items w bar → en.status = stOk → exec (.copyEnd c.id) s = .next (((s.writeCopyWord c (fun ok => ok)).dropCopy c.id).entryDone e.op none 0 0))
      ∧ (∀ ctx q pos x e, c.owner = .packet ctx q pos → s.hq? ctx q = some x → s.entry? ctx q pos = some e → e.field 48 8 = 0 → en.status = stOk →
          exec (.copyEnd c.id) s = .next ((s.dropCopy c.id).reportEntry ctx q pos pkDone 0 (BitVec.ofNat 64 c.done) 0 0))
      ∧ (∀ ctx q pos x e, c.owner = .packet ctx q pos → s.hq? ctx q = some x → s.entry? ctx q pos = some e → en.status = stCancelled →
          exec (.copyEnd c.id) s = .next ((s.dropCopy c.id).reportEntry ctx q pos pkCancelled 0 (BitVec.ofNat 64 c.done) 0 0)))
  ∧ (∀ (s : State) (j : CollJob),
      (s.jobs = [j] → j.ended = none → (s.die (dieOfCore j.entry.core)).faulted = false → s.jobPort (j.num 24 1) = false ∨ s.jobPort (j.num 25 1) = false → ∃ t, exec .collJobEnd s = .next t ∧ t.jobs = [{ j with ended := some (17, 0) }] ∧ t.mem = s.mem)
      ∧ (s.jobs = [j] → j.ended = none → (s.die (dieOfCore j.entry.core)).faulted = false → s.jobPort (j.num 24 1) = true → s.jobPort (j.num 25 1) = true → j.hello = false → 1 ∉ (s.port (j.num 24 1)).pausedTx →
          ∃ t b, exec .collJobEnd s = .next t ∧ t.jobs = [{ j with hello := true }] ∧ ((s.port (j.num 24 1)).resend = [] → t.outs = s.outs ++ [.flit (j.num 24 1) b]) ∧ fieldOf b 8 2 = j.num 28 2 ∧ t.mem = s.mem)
      ∧ (∀ status va s1, s.jobs = [j] → (s.die (dieOfCore j.entry.core)).faulted = false → j.ended = some (status, va) → s.reportJob j status va = (true, s1) → s1.jobs = s.jobs → ∃ t, exec .collJobEnd s = .next t ∧ t.jobs = [] ∧ t.mem = s1.mem)
      ∧ (∀ e a, s.jobs = [] → s.collEntry = some e → e.job = .coll a → exec .collJobEnd s = .next (s.startJob e a.toNat)))


end
end

