-- ==== Sys2Proof/Laws/Encoding.lean ====
section
/-! SUPPORT. The fields of each word format come back out of the word they were put into (R259-R266), with the opcode byte and
the bits that must be zero. -/

namespace Sys2Proof

theorem Ty.ofCode_code (t : Ty) : Ty.ofCode t.code = t := by cases t <;> rfl

theorem append_toNat {n m : Nat} (x : BitVec n) (y : BitVec m) : (x ++ y).toNat = x.toNat * 2 ^ m + y.toNat := by
  rw [BitVec.toNat_append, ← Nat.shiftLeft_add_eq_or_of_lt y.isLt, Nat.shiftLeft_eq]

theorem field_toNat {n : Nat} (w : BitVec 64) (s : Nat) : (w.extractLsb' s n).toNat = w.toNat / 2 ^ s % 2 ^ n := by
  simp [BitVec.extractLsb'_toNat, Nat.shiftRight_eq_div_pow]

theorem bit_toNat (w : BitVec 64) (s : Nat) : w.getLsbD s = decide (w.toNat / 2 ^ s % 2 = 1) := by
  simp [BitVec.getLsbD, Nat.testBit_eq_decide_div_mod_eq]

theorem bit_eq {w : BitVec 64} {s : Nat} {b : Bool} (h : w.toNat / 2 ^ s % 2 = b.toNat) : w.getLsbD s = b := by
  rw [bit_toNat, h]; cases b <;> rfl

theorem zero_toNat (n : Nat) : (0 : BitVec n).toNat = 0 := by simp

theorem ofBool_toNat (b : Bool) : (BitVec.ofBool b).toNat = b.toNat := by cases b <;> rfl

theorem bool_le (b : Bool) : b.toNat ≤ 1 := by cases b <;> decide

theorem FmtV.toWord_toNat (op : BitVec 8) {d} {a} {b} {c} {pred} {pneg} {ty} {mode} {lsel} {nega} {negb} {sat} {aux} :
    (FmtV.toWord ⟨d, a, b, c, pred, pneg, ty, mode, lsel, nega, negb, sat, aux⟩ op).toNat = (((((((((((((op.toNat * 128 + d.toNat) * 128 + a.toNat) * 128 + b.toNat) * 128 + c.toNat) * 8 + pred.toNat) * 2 + pneg.toNat) * 32 + ty.code.toNat) * 8 + mode.toNat) * 8 + lsel.toNat) * 2 + nega.toNat) * 2 + negb.toNat) * 2 + sat.toNat) * 1024 + aux.toNat) := by
  simp only [FmtV.toWord, append_toNat, ofBool_toNat] <;> omega

theorem FmtV.ofWord_toWord (f : FmtV) (op : BitVec 8) : FmtV.ofWord (f.toWord op) = f := by
  rcases f with ⟨d, a, b, c, pred, pneg, ty, mode, lsel, nega, negb, sat, aux⟩
  have e := FmtV.toWord_toNat op (d := d) (a := a) (b := b) (c := c) (pred := pred) (pneg := pneg) (ty := ty) (mode := mode) (lsel := lsel) (nega := nega) (negb := negb) (sat := sat) (aux := aux)
  have h_op := op.isLt
  have h_d := d.isLt; have h_a := a.isLt; have h_b := b.isLt; have h_c := c.isLt; have h_pred := pred.isLt; have h_pneg := bool_le pneg; have h_ty := ty.code.isLt; have h_mode := mode.isLt; have h_lsel := lsel.isLt; have h_nega := bool_le nega; have h_negb := bool_le negb; have h_sat := bool_le sat; have h_aux := aux.isLt
  simp only [FmtV.ofWord, FmtV.mk.injEq]
  refine ⟨?_, ?_, ?_, ?_, ?_, ?_, ?_, ?_, ?_, ?_, ?_, ?_, ?_⟩ <;> first
    | (apply BitVec.eq_of_toNat_eq; rw [field_toNat, e]; omega)
    | (refine Eq.trans (congrArg Ty.ofCode ?_) (Ty.ofCode_code ty); apply BitVec.eq_of_toNat_eq; rw [field_toNat, e]; omega)
    | (apply bit_eq; rw [e]; omega)

theorem FmtV.opByte_toWord (f : FmtV) (op : BitVec 8) : opByte (f.toWord op) = op := by
  rcases f with ⟨d, a, b, c, pred, pneg, ty, mode, lsel, nega, negb, sat, aux⟩
  have e := FmtV.toWord_toNat op (d := d) (a := a) (b := b) (c := c) (pred := pred) (pneg := pneg) (ty := ty) (mode := mode) (lsel := lsel) (nega := nega) (negb := negb) (sat := sat) (aux := aux)
  have h_op := op.isLt
  have h_d := d.isLt; have h_a := a.isLt; have h_b := b.isLt; have h_c := c.isLt; have h_pred := pred.isLt; have h_pneg := bool_le pneg; have h_ty := ty.code.isLt; have h_mode := mode.isLt; have h_lsel := lsel.isLt; have h_nega := bool_le nega; have h_negb := bool_le negb; have h_sat := bool_le sat; have h_aux := aux.isLt
  apply BitVec.eq_of_toNat_eq; rw [opByte, field_toNat, e]; omega

theorem FmtI.toWord_toNat (op : BitVec 8) {d} {a} {pred} {pneg} {ty} {imm} :
    (FmtI.toWord ⟨d, a, pred, pneg, ty, imm⟩ op).toNat = (((((((op.toNat * 128 + d.toNat) * 128 + a.toNat) * 8 + pred.toNat) * 2 + pneg.toNat) * 32 + ty.code.toNat) * 2) * 4294967296 + imm.toNat) := by
  simp only [FmtI.toWord, append_toNat, ofBool_toNat, zero_toNat]; omega

theorem FmtI.ofWord_toWord (f : FmtI) (op : BitVec 8) : FmtI.ofWord (f.toWord op) = f := by
  rcases f with ⟨d, a, pred, pneg, ty, imm⟩
  have e := FmtI.toWord_toNat op (d := d) (a := a) (pred := pred) (pneg := pneg) (ty := ty) (imm := imm)
  have h_op := op.isLt
  have h_d := d.isLt; have h_a := a.isLt; have h_pred := pred.isLt; have h_pneg := bool_le pneg; have h_ty := ty.code.isLt; have h_imm := imm.isLt
  simp only [FmtI.ofWord, FmtI.mk.injEq]
  refine ⟨?_, ?_, ?_, ?_, ?_, ?_⟩ <;> first
    | (apply BitVec.eq_of_toNat_eq; rw [field_toNat, e]; omega)
    | (refine Eq.trans (congrArg Ty.ofCode ?_) (Ty.ofCode_code ty); apply BitVec.eq_of_toNat_eq; rw [field_toNat, e]; omega)
    | (apply bit_eq; rw [e]; omega)

theorem FmtI.opByte_toWord (f : FmtI) (op : BitVec 8) : opByte (f.toWord op) = op := by
  rcases f with ⟨d, a, pred, pneg, ty, imm⟩
  have e := FmtI.toWord_toNat op (d := d) (a := a) (pred := pred) (pneg := pneg) (ty := ty) (imm := imm)
  have h_op := op.isLt
  have h_d := d.isLt; have h_a := a.isLt; have h_pred := pred.isLt; have h_pneg := bool_le pneg; have h_ty := ty.code.isLt; have h_imm := imm.isLt
  apply BitVec.eq_of_toNat_eq; rw [opByte, field_toNat, e]; omega

theorem FmtM.toWord_toNat (op : BitVec 8) {d} {base} {index} {scale} {pred} {pneg} {ty} {scope} {order} {cache} {offset} :
    (FmtM.toWord ⟨d, base, index, scale, pred, pneg, ty, scope, order, cache, offset⟩ op).toNat = (((((((((((op.toNat * 128 + d.toNat) * 128 + base.toNat) * 128 + index.toNat) * 8 + scale.toNat) * 8 + pred.toNat) * 2 + pneg.toNat) * 32 + ty.code.toNat) * 8 + scope.toNat) * 4 + order.toNat) * 4 + cache.toNat) * 65536 + offset.toNat) := by
  simp only [FmtM.toWord, append_toNat, ofBool_toNat] <;> omega

theorem FmtM.ofWord_toWord (f : FmtM) (op : BitVec 8) : FmtM.ofWord (f.toWord op) = f := by
  rcases f with ⟨d, base, index, scale, pred, pneg, ty, scope, order, cache, offset⟩
  have e := FmtM.toWord_toNat op (d := d) (base := base) (index := index) (scale := scale) (pred := pred) (pneg := pneg) (ty := ty) (scope := scope) (order := order) (cache := cache) (offset := offset)
  have h_op := op.isLt
  have h_d := d.isLt; have h_base := base.isLt; have h_index := index.isLt; have h_scale := scale.isLt; have h_pred := pred.isLt; have h_pneg := bool_le pneg; have h_ty := ty.code.isLt; have h_scope := scope.isLt; have h_order := order.isLt; have h_cache := cache.isLt; have h_offset := offset.isLt
  simp only [FmtM.ofWord, FmtM.mk.injEq]
  refine ⟨?_, ?_, ?_, ?_, ?_, ?_, ?_, ?_, ?_, ?_, ?_⟩ <;> first
    | (apply BitVec.eq_of_toNat_eq; rw [field_toNat, e]; omega)
    | (refine Eq.trans (congrArg Ty.ofCode ?_) (Ty.ofCode_code ty); apply BitVec.eq_of_toNat_eq; rw [field_toNat, e]; omega)
    | (apply bit_eq; rw [e]; omega)

theorem FmtM.opByte_toWord (f : FmtM) (op : BitVec 8) : opByte (f.toWord op) = op := by
  rcases f with ⟨d, base, index, scale, pred, pneg, ty, scope, order, cache, offset⟩
  have e := FmtM.toWord_toNat op (d := d) (base := base) (index := index) (scale := scale) (pred := pred) (pneg := pneg) (ty := ty) (scope := scope) (order := order) (cache := cache) (offset := offset)
  have h_op := op.isLt
  have h_d := d.isLt; have h_base := base.isLt; have h_index := index.isLt; have h_scale := scale.isLt; have h_pred := pred.isLt; have h_pneg := bool_le pneg; have h_ty := ty.code.isLt; have h_scope := scope.isLt; have h_order := order.isLt; have h_cache := cache.isLt; have h_offset := offset.isLt
  apply BitVec.eq_of_toNat_eq; rw [opByte, field_toNat, e]; omega

theorem FmtB.toWord_toNat (op : BitVec 8) {aux7} {a} {pred} {pneg} {sub} {target} :
    (FmtB.toWord ⟨aux7, a, pred, pneg, sub, target⟩ op).toNat = ((((((op.toNat * 128 + aux7.toNat) * 128 + a.toNat) * 8 + pred.toNat) * 2 + pneg.toNat) * 64 + sub.toNat) * 4294967296 + target.toNat) := by
  simp only [FmtB.toWord, append_toNat, ofBool_toNat] <;> omega

theorem FmtB.ofWord_toWord (f : FmtB) (op : BitVec 8) : FmtB.ofWord (f.toWord op) = f := by
  rcases f with ⟨aux7, a, pred, pneg, sub, target⟩
  have e := FmtB.toWord_toNat op (aux7 := aux7) (a := a) (pred := pred) (pneg := pneg) (sub := sub) (target := target)
  have h_op := op.isLt
  have h_aux7 := aux7.isLt; have h_a := a.isLt; have h_pred := pred.isLt; have h_pneg := bool_le pneg; have h_sub := sub.isLt; have h_target := target.isLt
  simp only [FmtB.ofWord, FmtB.mk.injEq]
  refine ⟨?_, ?_, ?_, ?_, ?_, ?_⟩ <;> first
    | (apply BitVec.eq_of_toNat_eq; rw [field_toNat, e]; omega)
    | (apply bit_eq; rw [e]; omega)

theorem FmtB.opByte_toWord (f : FmtB) (op : BitVec 8) : opByte (f.toWord op) = op := by
  rcases f with ⟨aux7, a, pred, pneg, sub, target⟩
  have e := FmtB.toWord_toNat op (aux7 := aux7) (a := a) (pred := pred) (pneg := pneg) (sub := sub) (target := target)
  have h_op := op.isLt
  have h_aux7 := aux7.isLt; have h_a := a.isLt; have h_pred := pred.isLt; have h_pneg := bool_le pneg; have h_sub := sub.isLt; have h_target := target.isLt
  apply BitVec.eq_of_toNat_eq; rw [opByte, field_toNat, e]; omega

theorem FmtX.toWord_toNat (op : BitVec 8) {d} {a} {b} {c} {pred} {pneg} {imm8} {ctrl} :
    (FmtX.toWord ⟨d, a, b, c, pred, pneg, imm8, ctrl⟩ op).toNat = ((((((((op.toNat * 128 + d.toNat) * 128 + a.toNat) * 128 + b.toNat) * 128 + c.toNat) * 8 + pred.toNat) * 2 + pneg.toNat) * 256 + imm8.toNat) * 65536 + ctrl.toNat) := by
  simp only [FmtX.toWord, append_toNat, ofBool_toNat] <;> omega

theorem FmtX.ofWord_toWord (f : FmtX) (op : BitVec 8) : FmtX.ofWord (f.toWord op) = f := by
  rcases f with ⟨d, a, b, c, pred, pneg, imm8, ctrl⟩
  have e := FmtX.toWord_toNat op (d := d) (a := a) (b := b) (c := c) (pred := pred) (pneg := pneg) (imm8 := imm8) (ctrl := ctrl)
  have h_op := op.isLt
  have h_d := d.isLt; have h_a := a.isLt; have h_b := b.isLt; have h_c := c.isLt; have h_pred := pred.isLt; have h_pneg := bool_le pneg; have h_imm8 := imm8.isLt; have h_ctrl := ctrl.isLt
  simp only [FmtX.ofWord, FmtX.mk.injEq]
  refine ⟨?_, ?_, ?_, ?_, ?_, ?_, ?_, ?_⟩ <;> first
    | (apply BitVec.eq_of_toNat_eq; rw [field_toNat, e]; omega)
    | (apply bit_eq; rw [e]; omega)

theorem FmtX.opByte_toWord (f : FmtX) (op : BitVec 8) : opByte (f.toWord op) = op := by
  rcases f with ⟨d, a, b, c, pred, pneg, imm8, ctrl⟩
  have e := FmtX.toWord_toNat op (d := d) (a := a) (b := b) (c := c) (pred := pred) (pneg := pneg) (imm8 := imm8) (ctrl := ctrl)
  have h_op := op.isLt
  have h_d := d.isLt; have h_a := a.isLt; have h_b := b.isLt; have h_c := c.isLt; have h_pred := pred.isLt; have h_pneg := bool_le pneg; have h_imm8 := imm8.isLt; have h_ctrl := ctrl.isLt
  apply BitVec.eq_of_toNat_eq; rw [opByte, field_toNat, e]; omega

theorem FmtS.toWord_toNat (op : BitVec 8) {d} {a} {pred} {pneg} {sreg} {imm} :
    (FmtS.toWord ⟨d, a, pred, pneg, sreg, imm⟩ op).toNat = (((((((op.toNat * 128 + d.toNat) * 128 + a.toNat) * 8 + pred.toNat) * 2 + pneg.toNat) * 64) * 65536 + sreg.toNat) * 65536 + imm.toNat) := by
  simp only [FmtS.toWord, append_toNat, ofBool_toNat, zero_toNat]; omega

theorem FmtS.ofWord_toWord (f : FmtS) (op : BitVec 8) : FmtS.ofWord (f.toWord op) = f := by
  rcases f with ⟨d, a, pred, pneg, sreg, imm⟩
  have e := FmtS.toWord_toNat op (d := d) (a := a) (pred := pred) (pneg := pneg) (sreg := sreg) (imm := imm)
  have h_op := op.isLt
  have h_d := d.isLt; have h_a := a.isLt; have h_pred := pred.isLt; have h_pneg := bool_le pneg; have h_sreg := sreg.isLt; have h_imm := imm.isLt
  simp only [FmtS.ofWord, FmtS.mk.injEq]
  refine ⟨?_, ?_, ?_, ?_, ?_, ?_⟩ <;> first
    | (apply BitVec.eq_of_toNat_eq; rw [field_toNat, e]; omega)
    | (apply bit_eq; rw [e]; omega)

theorem FmtS.opByte_toWord (f : FmtS) (op : BitVec 8) : opByte (f.toWord op) = op := by
  rcases f with ⟨d, a, pred, pneg, sreg, imm⟩
  have e := FmtS.toWord_toNat op (d := d) (a := a) (pred := pred) (pneg := pneg) (sreg := sreg) (imm := imm)
  have h_op := op.isLt
  have h_d := d.isLt; have h_a := a.isLt; have h_pred := pred.isLt; have h_pneg := bool_le pneg; have h_sreg := sreg.isLt; have h_imm := imm.isLt
  apply BitVec.eq_of_toNat_eq; rw [opByte, field_toNat, e]; omega

/-- Bit 32 of a format I word is zero. -/
theorem FmtI.zero_toWord (f : FmtI) (op : BitVec 8) : (f.toWord op).getLsbD 32 = false := by
  rcases f with ⟨d, a, pred, pneg, ty, imm⟩
  have e := FmtI.toWord_toNat op (d := d) (a := a) (pred := pred) (pneg := pneg) (ty := ty) (imm := imm)
  have h_imm := imm.isLt
  apply bit_eq; rw [e]; simp; omega

/-- Bits 37:32 of a format S word are zero. -/
theorem FmtS.zero_toWord (f : FmtS) (op : BitVec 8) : (f.toWord op).extractLsb' 32 6 = 0 := by
  rcases f with ⟨d, a, pred, pneg, sreg, imm⟩
  have e := FmtS.toWord_toNat op (d := d) (a := a) (pred := pred) (pneg := pneg) (sreg := sreg) (imm := imm)
  have h_sreg := sreg.isLt; have h_imm := imm.isLt
  apply BitVec.eq_of_toNat_eq; rw [field_toNat, e]; simp; omega

/-- Bit 0 of a format X word is bit 0 of CTRL. -/
theorem FmtX.low_toWord (f : FmtX) (op : BitVec 8) : (f.toWord op).getLsbD 0 = f.ctrl.getLsbD 0 := by
  have h := congrArg FmtX.ctrl (FmtX.ofWord_toWord f op)
  rw [← h]; simp [FmtX.ofWord]

end Sys2Proof
end

