-- ==== Sys2Proof/Laws/State.lean ====
section
/-! SUPPORT. What each named update of the state leaves in each field: one lemma for each field and update, and what the lookups give
after an update. -/

namespace Sys2Proof.Machine

set_option Elab.async false

variable (s : State)

section UpdUnit
variable (id : Nat) (f : SUnit → SUnit)

@[simp] theorem State.updUnit_mem : (s.updUnit id f).mem = s.mem := rfl
@[simp] theorem State.updUnit_l1 : (s.updUnit id f).l1 = s.l1 := rfl
@[simp] theorem State.updUnit_l2 : (s.updUnit id f).l2 = s.l2 := rfl
@[simp] theorem State.updUnit_unseen : (s.updUnit id f).unseen = s.unseen := rfl
@[simp] theorem State.updUnit_pad : (s.updUnit id f).pad = s.pad := rfl
@[simp] theorem State.updUnit_padNotes : (s.updUnit id f).padNotes = s.padNotes := rfl
@[simp] theorem State.updUnit_rows : (s.updUnit id f).rows = s.rows := rfl
@[simp] theorem State.updUnit_poison : (s.updUnit id f).poison = s.poison := rfl
@[simp] theorem State.updUnit_dies : (s.updUnit id f).dies = s.dies := rfl
@[simp] theorem State.updUnit_mailbox : (s.updUnit id f).mailbox = s.mailbox := rfl
@[simp] theorem State.updUnit_fwImage : (s.updUnit id f).fwImage = s.fwImage := rfl
@[simp] theorem State.updUnit_coreRows : (s.updUnit id f).coreRows = s.coreRows := rfl
@[simp] theorem State.updUnit_hostSide : (s.updUnit id f).hostSide = s.hostSide := rfl
@[simp] theorem State.updUnit_msixHeld : (s.updUnit id f).msixHeld = s.msixHeld := rfl
@[simp] theorem State.updUnit_hostReads : (s.updUnit id f).hostReads = s.hostReads := rfl
@[simp] theorem State.updUnit_ports : (s.updUnit id f).ports = s.ports := rfl
@[simp] theorem State.updUnit_spdm : (s.updUnit id f).spdm = s.spdm := rfl
@[simp] theorem State.updUnit_parts : (s.updUnit id f).parts = s.parts := rfl
@[simp] theorem State.updUnit_ctxs : (s.updUnit id f).ctxs = s.ctxs := rfl
@[simp] theorem State.updUnit_tlb : (s.updUnit id f).tlb = s.tlb := rfl
@[simp] theorem State.updUnit_hqs : (s.updUnit id f).hqs = s.hqs := rfl
@[simp] theorem State.updUnit_dqs : (s.updUnit id f).dqs = s.dqs := rfl
@[simp] theorem State.updUnit_launches : (s.updUnit id f).launches = s.launches := rfl
@[simp] theorem State.updUnit_trees : (s.updUnit id f).trees = s.trees := rfl
@[simp] theorem State.updUnit_groups : (s.updUnit id f).groups = s.groups := rfl
@[simp] theorem State.updUnit_units : (s.updUnit id f).units = updWhere (·.id == id) f s.units := rfl
@[simp] theorem State.updUnit_issue : (s.updUnit id f).issue = s.issue := rfl
@[simp] theorem State.updUnit_pend : (s.updUnit id f).pend = s.pend := rfl
@[simp] theorem State.updUnit_engq : (s.updUnit id f).engq = s.engq := rfl
@[simp] theorem State.updUnit_copies : (s.updUnit id f).copies = s.copies := rfl
@[simp] theorem State.updUnit_atomq : (s.updUnit id f).atomq = s.atomq := rfl
@[simp] theorem State.updUnit_hot : (s.updUnit id f).hot = s.hot := rfl
@[simp] theorem State.updUnit_creel : (s.updUnit id f).creel = s.creel := rfl
@[simp] theorem State.updUnit_cursors : (s.updUnit id f).cursors = s.cursors := rfl
@[simp] theorem State.updUnit_moves : (s.updUnit id f).moves = s.moves := rfl
@[simp] theorem State.updUnit_ranks : (s.updUnit id f).ranks = s.ranks := rfl
@[simp] theorem State.updUnit_beams : (s.updUnit id f).beams = s.beams := rfl
@[simp] theorem State.updUnit_tiles : (s.updUnit id f).tiles = s.tiles := rfl
@[simp] theorem State.updUnit_mmaq : (s.updUnit id f).mmaq = s.mmaq := rfl
@[simp] theorem State.updUnit_jobs : (s.updUnit id f).jobs = s.jobs := rfl
@[simp] theorem State.updUnit_ringSeq : (s.updUnit id f).ringSeq = s.ringSeq := rfl
@[simp] theorem State.updUnit_agenda : (s.updUnit id f).agenda = s.agenda := rfl
@[simp] theorem State.updUnit_outs : (s.updUnit id f).outs = s.outs := rfl
@[simp] theorem State.updUnit_nextId : (s.updUnit id f).nextId = s.nextId := rfl
@[simp] theorem State.updUnit_freeCtr : (s.updUnit id f).freeCtr = s.freeCtr := rfl

end UpdUnit

section PutUnit
variable (u : SUnit)

@[simp] theorem State.putUnit_mem : (s.putUnit u).mem = s.mem := rfl
@[simp] theorem State.putUnit_l1 : (s.putUnit u).l1 = s.l1 := rfl
@[simp] theorem State.putUnit_l2 : (s.putUnit u).l2 = s.l2 := rfl
@[simp] theorem State.putUnit_unseen : (s.putUnit u).unseen = s.unseen := rfl
@[simp] theorem State.putUnit_pad : (s.putUnit u).pad = s.pad := rfl
@[simp] theorem State.putUnit_padNotes : (s.putUnit u).padNotes = s.padNotes := rfl
@[simp] theorem State.putUnit_rows : (s.putUnit u).rows = s.rows := rfl
@[simp] theorem State.putUnit_poison : (s.putUnit u).poison = s.poison := rfl
@[simp] theorem State.putUnit_dies : (s.putUnit u).dies = s.dies := rfl
@[simp] theorem State.putUnit_mailbox : (s.putUnit u).mailbox = s.mailbox := rfl
@[simp] theorem State.putUnit_fwImage : (s.putUnit u).fwImage = s.fwImage := rfl
@[simp] theorem State.putUnit_coreRows : (s.putUnit u).coreRows = s.coreRows := rfl
@[simp] theorem State.putUnit_hostSide : (s.putUnit u).hostSide = s.hostSide := rfl
@[simp] theorem State.putUnit_msixHeld : (s.putUnit u).msixHeld = s.msixHeld := rfl
@[simp] theorem State.putUnit_hostReads : (s.putUnit u).hostReads = s.hostReads := rfl
@[simp] theorem State.putUnit_ports : (s.putUnit u).ports = s.ports := rfl
@[simp] theorem State.putUnit_spdm : (s.putUnit u).spdm = s.spdm := rfl
@[simp] theorem State.putUnit_parts : (s.putUnit u).parts = s.parts := rfl
@[simp] theorem State.putUnit_ctxs : (s.putUnit u).ctxs = s.ctxs := rfl
@[simp] theorem State.putUnit_tlb : (s.putUnit u).tlb = s.tlb := rfl
@[simp] theorem State.putUnit_hqs : (s.putUnit u).hqs = s.hqs := rfl
@[simp] theorem State.putUnit_dqs : (s.putUnit u).dqs = s.dqs := rfl
@[simp] theorem State.putUnit_launches : (s.putUnit u).launches = s.launches := rfl
@[simp] theorem State.putUnit_trees : (s.putUnit u).trees = s.trees := rfl
@[simp] theorem State.putUnit_groups : (s.putUnit u).groups = s.groups := rfl
@[simp] theorem State.putUnit_units : (s.putUnit u).units = updWhere (·.id == u.id) (fun _ => u) s.units := rfl
@[simp] theorem State.putUnit_issue : (s.putUnit u).issue = s.issue := rfl
@[simp] theorem State.putUnit_pend : (s.putUnit u).pend = s.pend := rfl
@[simp] theorem State.putUnit_engq : (s.putUnit u).engq = s.engq := rfl
@[simp] theorem State.putUnit_copies : (s.putUnit u).copies = s.copies := rfl
@[simp] theorem State.putUnit_atomq : (s.putUnit u).atomq = s.atomq := rfl
@[simp] theorem State.putUnit_hot : (s.putUnit u).hot = s.hot := rfl
@[simp] theorem State.putUnit_creel : (s.putUnit u).creel = s.creel := rfl
@[simp] theorem State.putUnit_cursors : (s.putUnit u).cursors = s.cursors := rfl
@[simp] theorem State.putUnit_moves : (s.putUnit u).moves = s.moves := rfl
@[simp] theorem State.putUnit_ranks : (s.putUnit u).ranks = s.ranks := rfl
@[simp] theorem State.putUnit_beams : (s.putUnit u).beams = s.beams := rfl
@[simp] theorem State.putUnit_tiles : (s.putUnit u).tiles = s.tiles := rfl
@[simp] theorem State.putUnit_mmaq : (s.putUnit u).mmaq = s.mmaq := rfl
@[simp] theorem State.putUnit_jobs : (s.putUnit u).jobs = s.jobs := rfl
@[simp] theorem State.putUnit_ringSeq : (s.putUnit u).ringSeq = s.ringSeq := rfl
@[simp] theorem State.putUnit_agenda : (s.putUnit u).agenda = s.agenda := rfl
@[simp] theorem State.putUnit_outs : (s.putUnit u).outs = s.outs := rfl
@[simp] theorem State.putUnit_nextId : (s.putUnit u).nextId = s.nextId := rfl
@[simp] theorem State.putUnit_freeCtr : (s.putUnit u).freeCtr = s.freeCtr := rfl

end PutUnit

section UpdLaunch
variable (id : Nat) (f : Launch → Launch)

@[simp] theorem State.updLaunch_mem : (s.updLaunch id f).mem = s.mem := rfl
@[simp] theorem State.updLaunch_l1 : (s.updLaunch id f).l1 = s.l1 := rfl
@[simp] theorem State.updLaunch_l2 : (s.updLaunch id f).l2 = s.l2 := rfl
@[simp] theorem State.updLaunch_unseen : (s.updLaunch id f).unseen = s.unseen := rfl
@[simp] theorem State.updLaunch_pad : (s.updLaunch id f).pad = s.pad := rfl
@[simp] theorem State.updLaunch_padNotes : (s.updLaunch id f).padNotes = s.padNotes := rfl
@[simp] theorem State.updLaunch_rows : (s.updLaunch id f).rows = s.rows := rfl
@[simp] theorem State.updLaunch_poison : (s.updLaunch id f).poison = s.poison := rfl
@[simp] theorem State.updLaunch_dies : (s.updLaunch id f).dies = s.dies := rfl
@[simp] theorem State.updLaunch_mailbox : (s.updLaunch id f).mailbox = s.mailbox := rfl
@[simp] theorem State.updLaunch_fwImage : (s.updLaunch id f).fwImage = s.fwImage := rfl
@[simp] theorem State.updLaunch_coreRows : (s.updLaunch id f).coreRows = s.coreRows := rfl
@[simp] theorem State.updLaunch_hostSide : (s.updLaunch id f).hostSide = s.hostSide := rfl
@[simp] theorem State.updLaunch_msixHeld : (s.updLaunch id f).msixHeld = s.msixHeld := rfl
@[simp] theorem State.updLaunch_hostReads : (s.updLaunch id f).hostReads = s.hostReads := rfl
@[simp] theorem State.updLaunch_ports : (s.updLaunch id f).ports = s.ports := rfl
@[simp] theorem State.updLaunch_spdm : (s.updLaunch id f).spdm = s.spdm := rfl
@[simp] theorem State.updLaunch_parts : (s.updLaunch id f).parts = s.parts := rfl
@[simp] theorem State.updLaunch_ctxs : (s.updLaunch id f).ctxs = s.ctxs := rfl
@[simp] theorem State.updLaunch_tlb : (s.updLaunch id f).tlb = s.tlb := rfl
@[simp] theorem State.updLaunch_hqs : (s.updLaunch id f).hqs = s.hqs := rfl
@[simp] theorem State.updLaunch_dqs : (s.updLaunch id f).dqs = s.dqs := rfl
@[simp] theorem State.updLaunch_launches : (s.updLaunch id f).launches = updWhere (·.id == id) f s.launches := rfl
@[simp] theorem State.updLaunch_trees : (s.updLaunch id f).trees = s.trees := rfl
@[simp] theorem State.updLaunch_groups : (s.updLaunch id f).groups = s.groups := rfl
@[simp] theorem State.updLaunch_units : (s.updLaunch id f).units = s.units := rfl
@[simp] theorem State.updLaunch_issue : (s.updLaunch id f).issue = s.issue := rfl
@[simp] theorem State.updLaunch_pend : (s.updLaunch id f).pend = s.pend := rfl
@[simp] theorem State.updLaunch_engq : (s.updLaunch id f).engq = s.engq := rfl
@[simp] theorem State.updLaunch_copies : (s.updLaunch id f).copies = s.copies := rfl
@[simp] theorem State.updLaunch_atomq : (s.updLaunch id f).atomq = s.atomq := rfl
@[simp] theorem State.updLaunch_hot : (s.updLaunch id f).hot = s.hot := rfl
@[simp] theorem State.updLaunch_creel : (s.updLaunch id f).creel = s.creel := rfl
@[simp] theorem State.updLaunch_cursors : (s.updLaunch id f).cursors = s.cursors := rfl
@[simp] theorem State.updLaunch_moves : (s.updLaunch id f).moves = s.moves := rfl
@[simp] theorem State.updLaunch_ranks : (s.updLaunch id f).ranks = s.ranks := rfl
@[simp] theorem State.updLaunch_beams : (s.updLaunch id f).beams = s.beams := rfl
@[simp] theorem State.updLaunch_tiles : (s.updLaunch id f).tiles = s.tiles := rfl
@[simp] theorem State.updLaunch_mmaq : (s.updLaunch id f).mmaq = s.mmaq := rfl
@[simp] theorem State.updLaunch_jobs : (s.updLaunch id f).jobs = s.jobs := rfl
@[simp] theorem State.updLaunch_ringSeq : (s.updLaunch id f).ringSeq = s.ringSeq := rfl
@[simp] theorem State.updLaunch_agenda : (s.updLaunch id f).agenda = s.agenda := rfl
@[simp] theorem State.updLaunch_outs : (s.updLaunch id f).outs = s.outs := rfl
@[simp] theorem State.updLaunch_nextId : (s.updLaunch id f).nextId = s.nextId := rfl
@[simp] theorem State.updLaunch_freeCtr : (s.updLaunch id f).freeCtr = s.freeCtr := rfl

end UpdLaunch

section UpdGroup
variable (id : Nat) (f : Group → Group)

@[simp] theorem State.updGroup_mem : (s.updGroup id f).mem = s.mem := rfl
@[simp] theorem State.updGroup_l1 : (s.updGroup id f).l1 = s.l1 := rfl
@[simp] theorem State.updGroup_l2 : (s.updGroup id f).l2 = s.l2 := rfl
@[simp] theorem State.updGroup_unseen : (s.updGroup id f).unseen = s.unseen := rfl
@[simp] theorem State.updGroup_pad : (s.updGroup id f).pad = s.pad := rfl
@[simp] theorem State.updGroup_padNotes : (s.updGroup id f).padNotes = s.padNotes := rfl
@[simp] theorem State.updGroup_rows : (s.updGroup id f).rows = s.rows := rfl
@[simp] theorem State.updGroup_poison : (s.updGroup id f).poison = s.poison := rfl
@[simp] theorem State.updGroup_dies : (s.updGroup id f).dies = s.dies := rfl
@[simp] theorem State.updGroup_mailbox : (s.updGroup id f).mailbox = s.mailbox := rfl
@[simp] theorem State.updGroup_fwImage : (s.updGroup id f).fwImage = s.fwImage := rfl
@[simp] theorem State.updGroup_coreRows : (s.updGroup id f).coreRows = s.coreRows := rfl
@[simp] theorem State.updGroup_hostSide : (s.updGroup id f).hostSide = s.hostSide := rfl
@[simp] theorem State.updGroup_msixHeld : (s.updGroup id f).msixHeld = s.msixHeld := rfl
@[simp] theorem State.updGroup_hostReads : (s.updGroup id f).hostReads = s.hostReads := rfl
@[simp] theorem State.updGroup_ports : (s.updGroup id f).ports = s.ports := rfl
@[simp] theorem State.updGroup_spdm : (s.updGroup id f).spdm = s.spdm := rfl
@[simp] theorem State.updGroup_parts : (s.updGroup id f).parts = s.parts := rfl
@[simp] theorem State.updGroup_ctxs : (s.updGroup id f).ctxs = s.ctxs := rfl
@[simp] theorem State.updGroup_tlb : (s.updGroup id f).tlb = s.tlb := rfl
@[simp] theorem State.updGroup_hqs : (s.updGroup id f).hqs = s.hqs := rfl
@[simp] theorem State.updGroup_dqs : (s.updGroup id f).dqs = s.dqs := rfl
@[simp] theorem State.updGroup_launches : (s.updGroup id f).launches = s.launches := rfl
@[simp] theorem State.updGroup_trees : (s.updGroup id f).trees = s.trees := rfl
@[simp] theorem State.updGroup_groups : (s.updGroup id f).groups = updWhere (·.id == id) f s.groups := rfl
@[simp] theorem State.updGroup_units : (s.updGroup id f).units = s.units := rfl
@[simp] theorem State.updGroup_issue : (s.updGroup id f).issue = s.issue := rfl
@[simp] theorem State.updGroup_pend : (s.updGroup id f).pend = s.pend := rfl
@[simp] theorem State.updGroup_engq : (s.updGroup id f).engq = s.engq := rfl
@[simp] theorem State.updGroup_copies : (s.updGroup id f).copies = s.copies := rfl
@[simp] theorem State.updGroup_atomq : (s.updGroup id f).atomq = s.atomq := rfl
@[simp] theorem State.updGroup_hot : (s.updGroup id f).hot = s.hot := rfl
@[simp] theorem State.updGroup_creel : (s.updGroup id f).creel = s.creel := rfl
@[simp] theorem State.updGroup_cursors : (s.updGroup id f).cursors = s.cursors := rfl
@[simp] theorem State.updGroup_moves : (s.updGroup id f).moves = s.moves := rfl
@[simp] theorem State.updGroup_ranks : (s.updGroup id f).ranks = s.ranks := rfl
@[simp] theorem State.updGroup_beams : (s.updGroup id f).beams = s.beams := rfl
@[simp] theorem State.updGroup_tiles : (s.updGroup id f).tiles = s.tiles := rfl
@[simp] theorem State.updGroup_mmaq : (s.updGroup id f).mmaq = s.mmaq := rfl
@[simp] theorem State.updGroup_jobs : (s.updGroup id f).jobs = s.jobs := rfl
@[simp] theorem State.updGroup_ringSeq : (s.updGroup id f).ringSeq = s.ringSeq := rfl
@[simp] theorem State.updGroup_agenda : (s.updGroup id f).agenda = s.agenda := rfl
@[simp] theorem State.updGroup_outs : (s.updGroup id f).outs = s.outs := rfl
@[simp] theorem State.updGroup_nextId : (s.updGroup id f).nextId = s.nextId := rfl
@[simp] theorem State.updGroup_freeCtr : (s.updGroup id f).freeCtr = s.freeCtr := rfl

end UpdGroup

section UpdCtx
variable (n : Nat) (f : Ctx → Ctx)

@[simp] theorem State.updCtx_mem : (s.updCtx n f).mem = s.mem := rfl
@[simp] theorem State.updCtx_l1 : (s.updCtx n f).l1 = s.l1 := rfl
@[simp] theorem State.updCtx_l2 : (s.updCtx n f).l2 = s.l2 := rfl
@[simp] theorem State.updCtx_unseen : (s.updCtx n f).unseen = s.unseen := rfl
@[simp] theorem State.updCtx_pad : (s.updCtx n f).pad = s.pad := rfl
@[simp] theorem State.updCtx_padNotes : (s.updCtx n f).padNotes = s.padNotes := rfl
@[simp] theorem State.updCtx_rows : (s.updCtx n f).rows = s.rows := rfl
@[simp] theorem State.updCtx_poison : (s.updCtx n f).poison = s.poison := rfl
@[simp] theorem State.updCtx_dies : (s.updCtx n f).dies = s.dies := rfl
@[simp] theorem State.updCtx_mailbox : (s.updCtx n f).mailbox = s.mailbox := rfl
@[simp] theorem State.updCtx_fwImage : (s.updCtx n f).fwImage = s.fwImage := rfl
@[simp] theorem State.updCtx_coreRows : (s.updCtx n f).coreRows = s.coreRows := rfl
@[simp] theorem State.updCtx_hostSide : (s.updCtx n f).hostSide = s.hostSide := rfl
@[simp] theorem State.updCtx_msixHeld : (s.updCtx n f).msixHeld = s.msixHeld := rfl
@[simp] theorem State.updCtx_hostReads : (s.updCtx n f).hostReads = s.hostReads := rfl
@[simp] theorem State.updCtx_ports : (s.updCtx n f).ports = s.ports := rfl
@[simp] theorem State.updCtx_spdm : (s.updCtx n f).spdm = s.spdm := rfl
@[simp] theorem State.updCtx_parts : (s.updCtx n f).parts = s.parts := rfl
@[simp] theorem State.updCtx_ctxs : (s.updCtx n f).ctxs = updWhere (·.num == n) f s.ctxs := rfl
@[simp] theorem State.updCtx_tlb : (s.updCtx n f).tlb = s.tlb := rfl
@[simp] theorem State.updCtx_hqs : (s.updCtx n f).hqs = s.hqs := rfl
@[simp] theorem State.updCtx_dqs : (s.updCtx n f).dqs = s.dqs := rfl
@[simp] theorem State.updCtx_launches : (s.updCtx n f).launches = s.launches := rfl
@[simp] theorem State.updCtx_trees : (s.updCtx n f).trees = s.trees := rfl
@[simp] theorem State.updCtx_groups : (s.updCtx n f).groups = s.groups := rfl
@[simp] theorem State.updCtx_units : (s.updCtx n f).units = s.units := rfl
@[simp] theorem State.updCtx_issue : (s.updCtx n f).issue = s.issue := rfl
@[simp] theorem State.updCtx_pend : (s.updCtx n f).pend = s.pend := rfl
@[simp] theorem State.updCtx_engq : (s.updCtx n f).engq = s.engq := rfl
@[simp] theorem State.updCtx_copies : (s.updCtx n f).copies = s.copies := rfl
@[simp] theorem State.updCtx_atomq : (s.updCtx n f).atomq = s.atomq := rfl
@[simp] theorem State.updCtx_hot : (s.updCtx n f).hot = s.hot := rfl
@[simp] theorem State.updCtx_creel : (s.updCtx n f).creel = s.creel := rfl
@[simp] theorem State.updCtx_cursors : (s.updCtx n f).cursors = s.cursors := rfl
@[simp] theorem State.updCtx_moves : (s.updCtx n f).moves = s.moves := rfl
@[simp] theorem State.updCtx_ranks : (s.updCtx n f).ranks = s.ranks := rfl
@[simp] theorem State.updCtx_beams : (s.updCtx n f).beams = s.beams := rfl
@[simp] theorem State.updCtx_tiles : (s.updCtx n f).tiles = s.tiles := rfl
@[simp] theorem State.updCtx_mmaq : (s.updCtx n f).mmaq = s.mmaq := rfl
@[simp] theorem State.updCtx_jobs : (s.updCtx n f).jobs = s.jobs := rfl
@[simp] theorem State.updCtx_ringSeq : (s.updCtx n f).ringSeq = s.ringSeq := rfl
@[simp] theorem State.updCtx_agenda : (s.updCtx n f).agenda = s.agenda := rfl
@[simp] theorem State.updCtx_outs : (s.updCtx n f).outs = s.outs := rfl
@[simp] theorem State.updCtx_nextId : (s.updCtx n f).nextId = s.nextId := rfl
@[simp] theorem State.updCtx_freeCtr : (s.updCtx n f).freeCtr = s.freeCtr := rfl

end UpdCtx

section UpdPart
variable (n : Nat) (f : Part → Part)

@[simp] theorem State.updPart_mem : (s.updPart n f).mem = s.mem := rfl
@[simp] theorem State.updPart_l1 : (s.updPart n f).l1 = s.l1 := rfl
@[simp] theorem State.updPart_l2 : (s.updPart n f).l2 = s.l2 := rfl
@[simp] theorem State.updPart_unseen : (s.updPart n f).unseen = s.unseen := rfl
@[simp] theorem State.updPart_pad : (s.updPart n f).pad = s.pad := rfl
@[simp] theorem State.updPart_padNotes : (s.updPart n f).padNotes = s.padNotes := rfl
@[simp] theorem State.updPart_rows : (s.updPart n f).rows = s.rows := rfl
@[simp] theorem State.updPart_poison : (s.updPart n f).poison = s.poison := rfl
@[simp] theorem State.updPart_dies : (s.updPart n f).dies = s.dies := rfl
@[simp] theorem State.updPart_mailbox : (s.updPart n f).mailbox = s.mailbox := rfl
@[simp] theorem State.updPart_fwImage : (s.updPart n f).fwImage = s.fwImage := rfl
@[simp] theorem State.updPart_coreRows : (s.updPart n f).coreRows = s.coreRows := rfl
@[simp] theorem State.updPart_hostSide : (s.updPart n f).hostSide = s.hostSide := rfl
@[simp] theorem State.updPart_msixHeld : (s.updPart n f).msixHeld = s.msixHeld := rfl
@[simp] theorem State.updPart_hostReads : (s.updPart n f).hostReads = s.hostReads := rfl
@[simp] theorem State.updPart_ports : (s.updPart n f).ports = s.ports := rfl
@[simp] theorem State.updPart_spdm : (s.updPart n f).spdm = s.spdm := rfl
@[simp] theorem State.updPart_parts : (s.updPart n f).parts = updWhere (·.num == n) f s.parts := rfl
@[simp] theorem State.updPart_ctxs : (s.updPart n f).ctxs = s.ctxs := rfl
@[simp] theorem State.updPart_tlb : (s.updPart n f).tlb = s.tlb := rfl
@[simp] theorem State.updPart_hqs : (s.updPart n f).hqs = s.hqs := rfl
@[simp] theorem State.updPart_dqs : (s.updPart n f).dqs = s.dqs := rfl
@[simp] theorem State.updPart_launches : (s.updPart n f).launches = s.launches := rfl
@[simp] theorem State.updPart_trees : (s.updPart n f).trees = s.trees := rfl
@[simp] theorem State.updPart_groups : (s.updPart n f).groups = s.groups := rfl
@[simp] theorem State.updPart_units : (s.updPart n f).units = s.units := rfl
@[simp] theorem State.updPart_issue : (s.updPart n f).issue = s.issue := rfl
@[simp] theorem State.updPart_pend : (s.updPart n f).pend = s.pend := rfl
@[simp] theorem State.updPart_engq : (s.updPart n f).engq = s.engq := rfl
@[simp] theorem State.updPart_copies : (s.updPart n f).copies = s.copies := rfl
@[simp] theorem State.updPart_atomq : (s.updPart n f).atomq = s.atomq := rfl
@[simp] theorem State.updPart_hot : (s.updPart n f).hot = s.hot := rfl
@[simp] theorem State.updPart_creel : (s.updPart n f).creel = s.creel := rfl
@[simp] theorem State.updPart_cursors : (s.updPart n f).cursors = s.cursors := rfl
@[simp] theorem State.updPart_moves : (s.updPart n f).moves = s.moves := rfl
@[simp] theorem State.updPart_ranks : (s.updPart n f).ranks = s.ranks := rfl
@[simp] theorem State.updPart_beams : (s.updPart n f).beams = s.beams := rfl
@[simp] theorem State.updPart_tiles : (s.updPart n f).tiles = s.tiles := rfl
@[simp] theorem State.updPart_mmaq : (s.updPart n f).mmaq = s.mmaq := rfl
@[simp] theorem State.updPart_jobs : (s.updPart n f).jobs = s.jobs := rfl
@[simp] theorem State.updPart_ringSeq : (s.updPart n f).ringSeq = s.ringSeq := rfl
@[simp] theorem State.updPart_agenda : (s.updPart n f).agenda = s.agenda := rfl
@[simp] theorem State.updPart_outs : (s.updPart n f).outs = s.outs := rfl
@[simp] theorem State.updPart_nextId : (s.updPart n f).nextId = s.nextId := rfl
@[simp] theorem State.updPart_freeCtr : (s.updPart n f).freeCtr = s.freeCtr := rfl

end UpdPart

section UpdHq
variable (c q : Nat) (f : HostQueue → HostQueue)

@[simp] theorem State.updHq_mem : (s.updHq c q f).mem = s.mem := rfl
@[simp] theorem State.updHq_l1 : (s.updHq c q f).l1 = s.l1 := rfl
@[simp] theorem State.updHq_l2 : (s.updHq c q f).l2 = s.l2 := rfl
@[simp] theorem State.updHq_unseen : (s.updHq c q f).unseen = s.unseen := rfl
@[simp] theorem State.updHq_pad : (s.updHq c q f).pad = s.pad := rfl
@[simp] theorem State.updHq_padNotes : (s.updHq c q f).padNotes = s.padNotes := rfl
@[simp] theorem State.updHq_rows : (s.updHq c q f).rows = s.rows := rfl
@[simp] theorem State.updHq_poison : (s.updHq c q f).poison = s.poison := rfl
@[simp] theorem State.updHq_dies : (s.updHq c q f).dies = s.dies := rfl
@[simp] theorem State.updHq_mailbox : (s.updHq c q f).mailbox = s.mailbox := rfl
@[simp] theorem State.updHq_fwImage : (s.updHq c q f).fwImage = s.fwImage := rfl
@[simp] theorem State.updHq_coreRows : (s.updHq c q f).coreRows = s.coreRows := rfl
@[simp] theorem State.updHq_hostSide : (s.updHq c q f).hostSide = s.hostSide := rfl
@[simp] theorem State.updHq_msixHeld : (s.updHq c q f).msixHeld = s.msixHeld := rfl
@[simp] theorem State.updHq_hostReads : (s.updHq c q f).hostReads = s.hostReads := rfl
@[simp] theorem State.updHq_ports : (s.updHq c q f).ports = s.ports := rfl
@[simp] theorem State.updHq_spdm : (s.updHq c q f).spdm = s.spdm := rfl
@[simp] theorem State.updHq_parts : (s.updHq c q f).parts = s.parts := rfl
@[simp] theorem State.updHq_ctxs : (s.updHq c q f).ctxs = s.ctxs := rfl
@[simp] theorem State.updHq_tlb : (s.updHq c q f).tlb = s.tlb := rfl
@[simp] theorem State.updHq_hqs : (s.updHq c q f).hqs = updWhere (fun x => x.ctx == c && x.idx == q) f s.hqs := rfl
@[simp] theorem State.updHq_dqs : (s.updHq c q f).dqs = s.dqs := rfl
@[simp] theorem State.updHq_launches : (s.updHq c q f).launches = s.launches := rfl
@[simp] theorem State.updHq_trees : (s.updHq c q f).trees = s.trees := rfl
@[simp] theorem State.updHq_groups : (s.updHq c q f).groups = s.groups := rfl
@[simp] theorem State.updHq_units : (s.updHq c q f).units = s.units := rfl
@[simp] theorem State.updHq_issue : (s.updHq c q f).issue = s.issue := rfl
@[simp] theorem State.updHq_pend : (s.updHq c q f).pend = s.pend := rfl
@[simp] theorem State.updHq_engq : (s.updHq c q f).engq = s.engq := rfl
@[simp] theorem State.updHq_copies : (s.updHq c q f).copies = s.copies := rfl
@[simp] theorem State.updHq_atomq : (s.updHq c q f).atomq = s.atomq := rfl
@[simp] theorem State.updHq_hot : (s.updHq c q f).hot = s.hot := rfl
@[simp] theorem State.updHq_creel : (s.updHq c q f).creel = s.creel := rfl
@[simp] theorem State.updHq_cursors : (s.updHq c q f).cursors = s.cursors := rfl
@[simp] theorem State.updHq_moves : (s.updHq c q f).moves = s.moves := rfl
@[simp] theorem State.updHq_ranks : (s.updHq c q f).ranks = s.ranks := rfl
@[simp] theorem State.updHq_beams : (s.updHq c q f).beams = s.beams := rfl
@[simp] theorem State.updHq_tiles : (s.updHq c q f).tiles = s.tiles := rfl
@[simp] theorem State.updHq_mmaq : (s.updHq c q f).mmaq = s.mmaq := rfl
@[simp] theorem State.updHq_jobs : (s.updHq c q f).jobs = s.jobs := rfl
@[simp] theorem State.updHq_ringSeq : (s.updHq c q f).ringSeq = s.ringSeq := rfl
@[simp] theorem State.updHq_agenda : (s.updHq c q f).agenda = s.agenda := rfl
@[simp] theorem State.updHq_outs : (s.updHq c q f).outs = s.outs := rfl
@[simp] theorem State.updHq_nextId : (s.updHq c q f).nextId = s.nextId := rfl
@[simp] theorem State.updHq_freeCtr : (s.updHq c q f).freeCtr = s.freeCtr := rfl

end UpdHq

section UpdTree
variable (c : Nat) (t : W32) (f : Tree → Tree)

@[simp] theorem State.updTree_mem : (s.updTree c t f).mem = s.mem := rfl
@[simp] theorem State.updTree_l1 : (s.updTree c t f).l1 = s.l1 := rfl
@[simp] theorem State.updTree_l2 : (s.updTree c t f).l2 = s.l2 := rfl
@[simp] theorem State.updTree_unseen : (s.updTree c t f).unseen = s.unseen := rfl
@[simp] theorem State.updTree_pad : (s.updTree c t f).pad = s.pad := rfl
@[simp] theorem State.updTree_padNotes : (s.updTree c t f).padNotes = s.padNotes := rfl
@[simp] theorem State.updTree_rows : (s.updTree c t f).rows = s.rows := rfl
@[simp] theorem State.updTree_poison : (s.updTree c t f).poison = s.poison := rfl
@[simp] theorem State.updTree_dies : (s.updTree c t f).dies = s.dies := rfl
@[simp] theorem State.updTree_mailbox : (s.updTree c t f).mailbox = s.mailbox := rfl
@[simp] theorem State.updTree_fwImage : (s.updTree c t f).fwImage = s.fwImage := rfl
@[simp] theorem State.updTree_coreRows : (s.updTree c t f).coreRows = s.coreRows := rfl
@[simp] theorem State.updTree_hostSide : (s.updTree c t f).hostSide = s.hostSide := rfl
@[simp] theorem State.updTree_msixHeld : (s.updTree c t f).msixHeld = s.msixHeld := rfl
@[simp] theorem State.updTree_hostReads : (s.updTree c t f).hostReads = s.hostReads := rfl
@[simp] theorem State.updTree_ports : (s.updTree c t f).ports = s.ports := rfl
@[simp] theorem State.updTree_spdm : (s.updTree c t f).spdm = s.spdm := rfl
@[simp] theorem State.updTree_parts : (s.updTree c t f).parts = s.parts := rfl
@[simp] theorem State.updTree_ctxs : (s.updTree c t f).ctxs = s.ctxs := rfl
@[simp] theorem State.updTree_tlb : (s.updTree c t f).tlb = s.tlb := rfl
@[simp] theorem State.updTree_hqs : (s.updTree c t f).hqs = s.hqs := rfl
@[simp] theorem State.updTree_dqs : (s.updTree c t f).dqs = s.dqs := rfl
@[simp] theorem State.updTree_launches : (s.updTree c t f).launches = s.launches := rfl
@[simp] theorem State.updTree_trees : (s.updTree c t f).trees = updWhere (fun x => x.ctx == c && x.id == t) f s.trees := rfl
@[simp] theorem State.updTree_groups : (s.updTree c t f).groups = s.groups := rfl
@[simp] theorem State.updTree_units : (s.updTree c t f).units = s.units := rfl
@[simp] theorem State.updTree_issue : (s.updTree c t f).issue = s.issue := rfl
@[simp] theorem State.updTree_pend : (s.updTree c t f).pend = s.pend := rfl
@[simp] theorem State.updTree_engq : (s.updTree c t f).engq = s.engq := rfl
@[simp] theorem State.updTree_copies : (s.updTree c t f).copies = s.copies := rfl
@[simp] theorem State.updTree_atomq : (s.updTree c t f).atomq = s.atomq := rfl
@[simp] theorem State.updTree_hot : (s.updTree c t f).hot = s.hot := rfl
@[simp] theorem State.updTree_creel : (s.updTree c t f).creel = s.creel := rfl
@[simp] theorem State.updTree_cursors : (s.updTree c t f).cursors = s.cursors := rfl
@[simp] theorem State.updTree_moves : (s.updTree c t f).moves = s.moves := rfl
@[simp] theorem State.updTree_ranks : (s.updTree c t f).ranks = s.ranks := rfl
@[simp] theorem State.updTree_beams : (s.updTree c t f).beams = s.beams := rfl
@[simp] theorem State.updTree_tiles : (s.updTree c t f).tiles = s.tiles := rfl
@[simp] theorem State.updTree_mmaq : (s.updTree c t f).mmaq = s.mmaq := rfl
@[simp] theorem State.updTree_jobs : (s.updTree c t f).jobs = s.jobs := rfl
@[simp] theorem State.updTree_ringSeq : (s.updTree c t f).ringSeq = s.ringSeq := rfl
@[simp] theorem State.updTree_agenda : (s.updTree c t f).agenda = s.agenda := rfl
@[simp] theorem State.updTree_outs : (s.updTree c t f).outs = s.outs := rfl
@[simp] theorem State.updTree_nextId : (s.updTree c t f).nextId = s.nextId := rfl
@[simp] theorem State.updTree_freeCtr : (s.updTree c t f).freeCtr = s.freeCtr := rfl

end UpdTree

section UpdPend
variable (id : Nat) (f : PendOp → PendOp)

@[simp] theorem State.updPend_mem : (s.updPend id f).mem = s.mem := rfl
@[simp] theorem State.updPend_l1 : (s.updPend id f).l1 = s.l1 := rfl
@[simp] theorem State.updPend_l2 : (s.updPend id f).l2 = s.l2 := rfl
@[simp] theorem State.updPend_unseen : (s.updPend id f).unseen = s.unseen := rfl
@[simp] theorem State.updPend_pad : (s.updPend id f).pad = s.pad := rfl
@[simp] theorem State.updPend_padNotes : (s.updPend id f).padNotes = s.padNotes := rfl
@[simp] theorem State.updPend_rows : (s.updPend id f).rows = s.rows := rfl
@[simp] theorem State.updPend_poison : (s.updPend id f).poison = s.poison := rfl
@[simp] theorem State.updPend_dies : (s.updPend id f).dies = s.dies := rfl
@[simp] theorem State.updPend_mailbox : (s.updPend id f).mailbox = s.mailbox := rfl
@[simp] theorem State.updPend_fwImage : (s.updPend id f).fwImage = s.fwImage := rfl
@[simp] theorem State.updPend_coreRows : (s.updPend id f).coreRows = s.coreRows := rfl
@[simp] theorem State.updPend_hostSide : (s.updPend id f).hostSide = s.hostSide := rfl
@[simp] theorem State.updPend_msixHeld : (s.updPend id f).msixHeld = s.msixHeld := rfl
@[simp] theorem State.updPend_hostReads : (s.updPend id f).hostReads = s.hostReads := rfl
@[simp] theorem State.updPend_ports : (s.updPend id f).ports = s.ports := rfl
@[simp] theorem State.updPend_spdm : (s.updPend id f).spdm = s.spdm := rfl
@[simp] theorem State.updPend_parts : (s.updPend id f).parts = s.parts := rfl
@[simp] theorem State.updPend_ctxs : (s.updPend id f).ctxs = s.ctxs := rfl
@[simp] theorem State.updPend_tlb : (s.updPend id f).tlb = s.tlb := rfl
@[simp] theorem State.updPend_hqs : (s.updPend id f).hqs = s.hqs := rfl
@[simp] theorem State.updPend_dqs : (s.updPend id f).dqs = s.dqs := rfl
@[simp] theorem State.updPend_launches : (s.updPend id f).launches = s.launches := rfl
@[simp] theorem State.updPend_trees : (s.updPend id f).trees = s.trees := rfl
@[simp] theorem State.updPend_groups : (s.updPend id f).groups = s.groups := rfl
@[simp] theorem State.updPend_units : (s.updPend id f).units = s.units := rfl
@[simp] theorem State.updPend_issue : (s.updPend id f).issue = s.issue := rfl
@[simp] theorem State.updPend_pend : (s.updPend id f).pend = updWhere (·.id == id) f s.pend := rfl
@[simp] theorem State.updPend_engq : (s.updPend id f).engq = s.engq := rfl
@[simp] theorem State.updPend_copies : (s.updPend id f).copies = s.copies := rfl
@[simp] theorem State.updPend_atomq : (s.updPend id f).atomq = s.atomq := rfl
@[simp] theorem State.updPend_hot : (s.updPend id f).hot = s.hot := rfl
@[simp] theorem State.updPend_creel : (s.updPend id f).creel = s.creel := rfl
@[simp] theorem State.updPend_cursors : (s.updPend id f).cursors = s.cursors := rfl
@[simp] theorem State.updPend_moves : (s.updPend id f).moves = s.moves := rfl
@[simp] theorem State.updPend_ranks : (s.updPend id f).ranks = s.ranks := rfl
@[simp] theorem State.updPend_beams : (s.updPend id f).beams = s.beams := rfl
@[simp] theorem State.updPend_tiles : (s.updPend id f).tiles = s.tiles := rfl
@[simp] theorem State.updPend_mmaq : (s.updPend id f).mmaq = s.mmaq := rfl
@[simp] theorem State.updPend_jobs : (s.updPend id f).jobs = s.jobs := rfl
@[simp] theorem State.updPend_ringSeq : (s.updPend id f).ringSeq = s.ringSeq := rfl
@[simp] theorem State.updPend_agenda : (s.updPend id f).agenda = s.agenda := rfl
@[simp] theorem State.updPend_outs : (s.updPend id f).outs = s.outs := rfl
@[simp] theorem State.updPend_nextId : (s.updPend id f).nextId = s.nextId := rfl
@[simp] theorem State.updPend_freeCtr : (s.updPend id f).freeCtr = s.freeCtr := rfl

end UpdPend

section UpdDie
variable (d : Nat) (f : Die → Die)

@[simp] theorem State.updDie_mem : (s.updDie d f).mem = s.mem := rfl
@[simp] theorem State.updDie_l1 : (s.updDie d f).l1 = s.l1 := rfl
@[simp] theorem State.updDie_l2 : (s.updDie d f).l2 = s.l2 := rfl
@[simp] theorem State.updDie_unseen : (s.updDie d f).unseen = s.unseen := rfl
@[simp] theorem State.updDie_pad : (s.updDie d f).pad = s.pad := rfl
@[simp] theorem State.updDie_padNotes : (s.updDie d f).padNotes = s.padNotes := rfl
@[simp] theorem State.updDie_rows : (s.updDie d f).rows = s.rows := rfl
@[simp] theorem State.updDie_poison : (s.updDie d f).poison = s.poison := rfl
@[simp] theorem State.updDie_dies : (s.updDie d f).dies = setAt s.dies d (f (s.die d)) := rfl
@[simp] theorem State.updDie_mailbox : (s.updDie d f).mailbox = s.mailbox := rfl
@[simp] theorem State.updDie_fwImage : (s.updDie d f).fwImage = s.fwImage := rfl
@[simp] theorem State.updDie_coreRows : (s.updDie d f).coreRows = s.coreRows := rfl
@[simp] theorem State.updDie_hostSide : (s.updDie d f).hostSide = s.hostSide := rfl
@[simp] theorem State.updDie_msixHeld : (s.updDie d f).msixHeld = s.msixHeld := rfl
@[simp] theorem State.updDie_hostReads : (s.updDie d f).hostReads = s.hostReads := rfl
@[simp] theorem State.updDie_ports : (s.updDie d f).ports = s.ports := rfl
@[simp] theorem State.updDie_spdm : (s.updDie d f).spdm = s.spdm := rfl
@[simp] theorem State.updDie_parts : (s.updDie d f).parts = s.parts := rfl
@[simp] theorem State.updDie_ctxs : (s.updDie d f).ctxs = s.ctxs := rfl
@[simp] theorem State.updDie_tlb : (s.updDie d f).tlb = s.tlb := rfl
@[simp] theorem State.updDie_hqs : (s.updDie d f).hqs = s.hqs := rfl
@[simp] theorem State.updDie_dqs : (s.updDie d f).dqs = s.dqs := rfl
@[simp] theorem State.updDie_launches : (s.updDie d f).launches = s.launches := rfl
@[simp] theorem State.updDie_trees : (s.updDie d f).trees = s.trees := rfl
@[simp] theorem State.updDie_groups : (s.updDie d f).groups = s.groups := rfl
@[simp] theorem State.updDie_units : (s.updDie d f).units = s.units := rfl
@[simp] theorem State.updDie_issue : (s.updDie d f).issue = s.issue := rfl
@[simp] theorem State.updDie_pend : (s.updDie d f).pend = s.pend := rfl
@[simp] theorem State.updDie_engq : (s.updDie d f).engq = s.engq := rfl
@[simp] theorem State.updDie_copies : (s.updDie d f).copies = s.copies := rfl
@[simp] theorem State.updDie_atomq : (s.updDie d f).atomq = s.atomq := rfl
@[simp] theorem State.updDie_hot : (s.updDie d f).hot = s.hot := rfl
@[simp] theorem State.updDie_creel : (s.updDie d f).creel = s.creel := rfl
@[simp] theorem State.updDie_cursors : (s.updDie d f).cursors = s.cursors := rfl
@[simp] theorem State.updDie_moves : (s.updDie d f).moves = s.moves := rfl
@[simp] theorem State.updDie_ranks : (s.updDie d f).ranks = s.ranks := rfl
@[simp] theorem State.updDie_beams : (s.updDie d f).beams = s.beams := rfl
@[simp] theorem State.updDie_tiles : (s.updDie d f).tiles = s.tiles := rfl
@[simp] theorem State.updDie_mmaq : (s.updDie d f).mmaq = s.mmaq := rfl
@[simp] theorem State.updDie_jobs : (s.updDie d f).jobs = s.jobs := rfl
@[simp] theorem State.updDie_ringSeq : (s.updDie d f).ringSeq = s.ringSeq := rfl
@[simp] theorem State.updDie_agenda : (s.updDie d f).agenda = s.agenda := rfl
@[simp] theorem State.updDie_outs : (s.updDie d f).outs = s.outs := rfl
@[simp] theorem State.updDie_nextId : (s.updDie d f).nextId = s.nextId := rfl
@[simp] theorem State.updDie_freeCtr : (s.updDie d f).freeCtr = s.freeCtr := rfl

end UpdDie

section Out
variable (o : Out)

@[simp] theorem State.out_mem : (s.out o).mem = s.mem := rfl
@[simp] theorem State.out_l1 : (s.out o).l1 = s.l1 := rfl
@[simp] theorem State.out_l2 : (s.out o).l2 = s.l2 := rfl
@[simp] theorem State.out_unseen : (s.out o).unseen = s.unseen := rfl
@[simp] theorem State.out_pad : (s.out o).pad = s.pad := rfl
@[simp] theorem State.out_padNotes : (s.out o).padNotes = s.padNotes := rfl
@[simp] theorem State.out_rows : (s.out o).rows = s.rows := rfl
@[simp] theorem State.out_poison : (s.out o).poison = s.poison := rfl
@[simp] theorem State.out_dies : (s.out o).dies = s.dies := rfl
@[simp] theorem State.out_mailbox : (s.out o).mailbox = s.mailbox := rfl
@[simp] theorem State.out_fwImage : (s.out o).fwImage = s.fwImage := rfl
@[simp] theorem State.out_coreRows : (s.out o).coreRows = s.coreRows := rfl
@[simp] theorem State.out_hostSide : (s.out o).hostSide = s.hostSide := rfl
@[simp] theorem State.out_msixHeld : (s.out o).msixHeld = s.msixHeld := rfl
@[simp] theorem State.out_hostReads : (s.out o).hostReads = s.hostReads := rfl
@[simp] theorem State.out_ports : (s.out o).ports = s.ports := rfl
@[simp] theorem State.out_spdm : (s.out o).spdm = s.spdm := rfl
@[simp] theorem State.out_parts : (s.out o).parts = s.parts := rfl
@[simp] theorem State.out_ctxs : (s.out o).ctxs = s.ctxs := rfl
@[simp] theorem State.out_tlb : (s.out o).tlb = s.tlb := rfl
@[simp] theorem State.out_hqs : (s.out o).hqs = s.hqs := rfl
@[simp] theorem State.out_dqs : (s.out o).dqs = s.dqs := rfl
@[simp] theorem State.out_launches : (s.out o).launches = s.launches := rfl
@[simp] theorem State.out_trees : (s.out o).trees = s.trees := rfl
@[simp] theorem State.out_groups : (s.out o).groups = s.groups := rfl
@[simp] theorem State.out_units : (s.out o).units = s.units := rfl
@[simp] theorem State.out_issue : (s.out o).issue = s.issue := rfl
@[simp] theorem State.out_pend : (s.out o).pend = s.pend := rfl
@[simp] theorem State.out_engq : (s.out o).engq = s.engq := rfl
@[simp] theorem State.out_copies : (s.out o).copies = s.copies := rfl
@[simp] theorem State.out_atomq : (s.out o).atomq = s.atomq := rfl
@[simp] theorem State.out_hot : (s.out o).hot = s.hot := rfl
@[simp] theorem State.out_creel : (s.out o).creel = s.creel := rfl
@[simp] theorem State.out_cursors : (s.out o).cursors = s.cursors := rfl
@[simp] theorem State.out_moves : (s.out o).moves = s.moves := rfl
@[simp] theorem State.out_ranks : (s.out o).ranks = s.ranks := rfl
@[simp] theorem State.out_beams : (s.out o).beams = s.beams := rfl
@[simp] theorem State.out_tiles : (s.out o).tiles = s.tiles := rfl
@[simp] theorem State.out_mmaq : (s.out o).mmaq = s.mmaq := rfl
@[simp] theorem State.out_jobs : (s.out o).jobs = s.jobs := rfl
@[simp] theorem State.out_ringSeq : (s.out o).ringSeq = s.ringSeq := rfl
@[simp] theorem State.out_agenda : (s.out o).agenda = s.agenda := rfl
@[simp] theorem State.out_outs : (s.out o).outs = s.outs ++ [o] := rfl
@[simp] theorem State.out_nextId : (s.out o).nextId = s.nextId := rfl
@[simp] theorem State.out_freeCtr : (s.out o).freeCtr = s.freeCtr := rfl

end Out

section Fresh

@[simp] theorem State.fresh_mem : (s.fresh.2).mem = s.mem := rfl
@[simp] theorem State.fresh_l1 : (s.fresh.2).l1 = s.l1 := rfl
@[simp] theorem State.fresh_l2 : (s.fresh.2).l2 = s.l2 := rfl
@[simp] theorem State.fresh_unseen : (s.fresh.2).unseen = s.unseen := rfl
@[simp] theorem State.fresh_pad : (s.fresh.2).pad = s.pad := rfl
@[simp] theorem State.fresh_padNotes : (s.fresh.2).padNotes = s.padNotes := rfl
@[simp] theorem State.fresh_rows : (s.fresh.2).rows = s.rows := rfl
@[simp] theorem State.fresh_poison : (s.fresh.2).poison = s.poison := rfl
@[simp] theorem State.fresh_dies : (s.fresh.2).dies = s.dies := rfl
@[simp] theorem State.fresh_mailbox : (s.fresh.2).mailbox = s.mailbox := rfl
@[simp] theorem State.fresh_fwImage : (s.fresh.2).fwImage = s.fwImage := rfl
@[simp] theorem State.fresh_coreRows : (s.fresh.2).coreRows = s.coreRows := rfl
@[simp] theorem State.fresh_hostSide : (s.fresh.2).hostSide = s.hostSide := rfl
@[simp] theorem State.fresh_msixHeld : (s.fresh.2).msixHeld = s.msixHeld := rfl
@[simp] theorem State.fresh_hostReads : (s.fresh.2).hostReads = s.hostReads := rfl
@[simp] theorem State.fresh_ports : (s.fresh.2).ports = s.ports := rfl
@[simp] theorem State.fresh_spdm : (s.fresh.2).spdm = s.spdm := rfl
@[simp] theorem State.fresh_parts : (s.fresh.2).parts = s.parts := rfl
@[simp] theorem State.fresh_ctxs : (s.fresh.2).ctxs = s.ctxs := rfl
@[simp] theorem State.fresh_tlb : (s.fresh.2).tlb = s.tlb := rfl
@[simp] theorem State.fresh_hqs : (s.fresh.2).hqs = s.hqs := rfl
@[simp] theorem State.fresh_dqs : (s.fresh.2).dqs = s.dqs := rfl
@[simp] theorem State.fresh_launches : (s.fresh.2).launches = s.launches := rfl
@[simp] theorem State.fresh_trees : (s.fresh.2).trees = s.trees := rfl
@[simp] theorem State.fresh_groups : (s.fresh.2).groups = s.groups := rfl
@[simp] theorem State.fresh_units : (s.fresh.2).units = s.units := rfl
@[simp] theorem State.fresh_issue : (s.fresh.2).issue = s.issue := rfl
@[simp] theorem State.fresh_pend : (s.fresh.2).pend = s.pend := rfl
@[simp] theorem State.fresh_engq : (s.fresh.2).engq = s.engq := rfl
@[simp] theorem State.fresh_copies : (s.fresh.2).copies = s.copies := rfl
@[simp] theorem State.fresh_atomq : (s.fresh.2).atomq = s.atomq := rfl
@[simp] theorem State.fresh_hot : (s.fresh.2).hot = s.hot := rfl
@[simp] theorem State.fresh_creel : (s.fresh.2).creel = s.creel := rfl
@[simp] theorem State.fresh_cursors : (s.fresh.2).cursors = s.cursors := rfl
@[simp] theorem State.fresh_moves : (s.fresh.2).moves = s.moves := rfl
@[simp] theorem State.fresh_ranks : (s.fresh.2).ranks = s.ranks := rfl
@[simp] theorem State.fresh_beams : (s.fresh.2).beams = s.beams := rfl
@[simp] theorem State.fresh_tiles : (s.fresh.2).tiles = s.tiles := rfl
@[simp] theorem State.fresh_mmaq : (s.fresh.2).mmaq = s.mmaq := rfl
@[simp] theorem State.fresh_jobs : (s.fresh.2).jobs = s.jobs := rfl
@[simp] theorem State.fresh_ringSeq : (s.fresh.2).ringSeq = s.ringSeq := rfl
@[simp] theorem State.fresh_agenda : (s.fresh.2).agenda = s.agenda := rfl
@[simp] theorem State.fresh_outs : (s.fresh.2).outs = s.outs := rfl
@[simp] theorem State.fresh_nextId : (s.fresh.2).nextId = s.nextId + 1 := rfl
@[simp] theorem State.fresh_freeCtr : (s.fresh.2).freeCtr = s.freeCtr := rfl

end Fresh

section Draw

@[simp] theorem State.draw_mem : (s.draw.2).mem = s.mem := rfl
@[simp] theorem State.draw_l1 : (s.draw.2).l1 = s.l1 := rfl
@[simp] theorem State.draw_l2 : (s.draw.2).l2 = s.l2 := rfl
@[simp] theorem State.draw_unseen : (s.draw.2).unseen = s.unseen := rfl
@[simp] theorem State.draw_pad : (s.draw.2).pad = s.pad := rfl
@[simp] theorem State.draw_padNotes : (s.draw.2).padNotes = s.padNotes := rfl
@[simp] theorem State.draw_rows : (s.draw.2).rows = s.rows := rfl
@[simp] theorem State.draw_poison : (s.draw.2).poison = s.poison := rfl
@[simp] theorem State.draw_dies : (s.draw.2).dies = s.dies := rfl
@[simp] theorem State.draw_mailbox : (s.draw.2).mailbox = s.mailbox := rfl
@[simp] theorem State.draw_fwImage : (s.draw.2).fwImage = s.fwImage := rfl
@[simp] theorem State.draw_coreRows : (s.draw.2).coreRows = s.coreRows := rfl
@[simp] theorem State.draw_hostSide : (s.draw.2).hostSide = s.hostSide := rfl
@[simp] theorem State.draw_msixHeld : (s.draw.2).msixHeld = s.msixHeld := rfl
@[simp] theorem State.draw_hostReads : (s.draw.2).hostReads = s.hostReads := rfl
@[simp] theorem State.draw_ports : (s.draw.2).ports = s.ports := rfl
@[simp] theorem State.draw_spdm : (s.draw.2).spdm = s.spdm := rfl
@[simp] theorem State.draw_parts : (s.draw.2).parts = s.parts := rfl
@[simp] theorem State.draw_ctxs : (s.draw.2).ctxs = s.ctxs := rfl
@[simp] theorem State.draw_tlb : (s.draw.2).tlb = s.tlb := rfl
@[simp] theorem State.draw_hqs : (s.draw.2).hqs = s.hqs := rfl
@[simp] theorem State.draw_dqs : (s.draw.2).dqs = s.dqs := rfl
@[simp] theorem State.draw_launches : (s.draw.2).launches = s.launches := rfl
@[simp] theorem State.draw_trees : (s.draw.2).trees = s.trees := rfl
@[simp] theorem State.draw_groups : (s.draw.2).groups = s.groups := rfl
@[simp] theorem State.draw_units : (s.draw.2).units = s.units := rfl
@[simp] theorem State.draw_issue : (s.draw.2).issue = s.issue := rfl
@[simp] theorem State.draw_pend : (s.draw.2).pend = s.pend := rfl
@[simp] theorem State.draw_engq : (s.draw.2).engq = s.engq := rfl
@[simp] theorem State.draw_copies : (s.draw.2).copies = s.copies := rfl
@[simp] theorem State.draw_atomq : (s.draw.2).atomq = s.atomq := rfl
@[simp] theorem State.draw_hot : (s.draw.2).hot = s.hot := rfl
@[simp] theorem State.draw_creel : (s.draw.2).creel = s.creel := rfl
@[simp] theorem State.draw_cursors : (s.draw.2).cursors = s.cursors := rfl
@[simp] theorem State.draw_moves : (s.draw.2).moves = s.moves := rfl
@[simp] theorem State.draw_ranks : (s.draw.2).ranks = s.ranks := rfl
@[simp] theorem State.draw_beams : (s.draw.2).beams = s.beams := rfl
@[simp] theorem State.draw_tiles : (s.draw.2).tiles = s.tiles := rfl
@[simp] theorem State.draw_mmaq : (s.draw.2).mmaq = s.mmaq := rfl
@[simp] theorem State.draw_jobs : (s.draw.2).jobs = s.jobs := rfl
@[simp] theorem State.draw_ringSeq : (s.draw.2).ringSeq = s.ringSeq := rfl
@[simp] theorem State.draw_agenda : (s.draw.2).agenda = s.agenda := rfl
@[simp] theorem State.draw_outs : (s.draw.2).outs = s.outs := rfl
@[simp] theorem State.draw_nextId : (s.draw.2).nextId = s.nextId := rfl
@[simp] theorem State.draw_freeCtr : (s.draw.2).freeCtr = s.freeCtr + 1 := rfl

end Draw

section SetHome
variable (pa : Nat) (b : Byte)

@[simp] theorem State.setHome_mem : (s.setHome pa b).mem = Kv.set memDefault s.mem (s.place pa) b := rfl
@[simp] theorem State.setHome_l1 : (s.setHome pa b).l1 = s.l1 := rfl
@[simp] theorem State.setHome_l2 : (s.setHome pa b).l2 = s.l2 := rfl
@[simp] theorem State.setHome_unseen : (s.setHome pa b).unseen = s.unseen := rfl
@[simp] theorem State.setHome_pad : (s.setHome pa b).pad = s.pad := rfl
@[simp] theorem State.setHome_padNotes : (s.setHome pa b).padNotes = s.padNotes := rfl
@[simp] theorem State.setHome_rows : (s.setHome pa b).rows = s.rows := rfl
@[simp] theorem State.setHome_poison : (s.setHome pa b).poison = s.poison := rfl
@[simp] theorem State.setHome_dies : (s.setHome pa b).dies = s.dies := rfl
@[simp] theorem State.setHome_mailbox : (s.setHome pa b).mailbox = s.mailbox := rfl
@[simp] theorem State.setHome_fwImage : (s.setHome pa b).fwImage = s.fwImage := rfl
@[simp] theorem State.setHome_coreRows : (s.setHome pa b).coreRows = s.coreRows := rfl
@[simp] theorem State.setHome_hostSide : (s.setHome pa b).hostSide = s.hostSide := rfl
@[simp] theorem State.setHome_msixHeld : (s.setHome pa b).msixHeld = s.msixHeld := rfl
@[simp] theorem State.setHome_hostReads : (s.setHome pa b).hostReads = s.hostReads := rfl
@[simp] theorem State.setHome_ports : (s.setHome pa b).ports = s.ports := rfl
@[simp] theorem State.setHome_spdm : (s.setHome pa b).spdm = s.spdm := rfl
@[simp] theorem State.setHome_parts : (s.setHome pa b).parts = s.parts := rfl
@[simp] theorem State.setHome_ctxs : (s.setHome pa b).ctxs = s.ctxs := rfl
@[simp] theorem State.setHome_tlb : (s.setHome pa b).tlb = s.tlb := rfl
@[simp] theorem State.setHome_hqs : (s.setHome pa b).hqs = s.hqs := rfl
@[simp] theorem State.setHome_dqs : (s.setHome pa b).dqs = s.dqs := rfl
@[simp] theorem State.setHome_launches : (s.setHome pa b).launches = s.launches := rfl
@[simp] theorem State.setHome_trees : (s.setHome pa b).trees = s.trees := rfl
@[simp] theorem State.setHome_groups : (s.setHome pa b).groups = s.groups := rfl
@[simp] theorem State.setHome_units : (s.setHome pa b).units = s.units := rfl
@[simp] theorem State.setHome_issue : (s.setHome pa b).issue = s.issue := rfl
@[simp] theorem State.setHome_pend : (s.setHome pa b).pend = s.pend := rfl
@[simp] theorem State.setHome_engq : (s.setHome pa b).engq = s.engq := rfl
@[simp] theorem State.setHome_copies : (s.setHome pa b).copies = s.copies := rfl
@[simp] theorem State.setHome_atomq : (s.setHome pa b).atomq = s.atomq := rfl
@[simp] theorem State.setHome_hot : (s.setHome pa b).hot = s.hot := rfl
@[simp] theorem State.setHome_creel : (s.setHome pa b).creel = s.creel := rfl
@[simp] theorem State.setHome_cursors : (s.setHome pa b).cursors = s.cursors := rfl
@[simp] theorem State.setHome_moves : (s.setHome pa b).moves = s.moves := rfl
@[simp] theorem State.setHome_ranks : (s.setHome pa b).ranks = s.ranks := rfl
@[simp] theorem State.setHome_beams : (s.setHome pa b).beams = s.beams := rfl
@[simp] theorem State.setHome_tiles : (s.setHome pa b).tiles = s.tiles := rfl
@[simp] theorem State.setHome_mmaq : (s.setHome pa b).mmaq = s.mmaq := rfl
@[simp] theorem State.setHome_jobs : (s.setHome pa b).jobs = s.jobs := rfl
@[simp] theorem State.setHome_ringSeq : (s.setHome pa b).ringSeq = s.ringSeq := rfl
@[simp] theorem State.setHome_agenda : (s.setHome pa b).agenda = s.agenda := rfl
@[simp] theorem State.setHome_outs : (s.setHome pa b).outs = s.outs := rfl
@[simp] theorem State.setHome_nextId : (s.setHome pa b).nextId = s.nextId := rfl
@[simp] theorem State.setHome_freeCtr : (s.setHome pa b).freeCtr = s.freeCtr := rfl

end SetHome

section StoreHome
variable (pa : Nat) (bs : List Byte)

@[simp] theorem State.storeHome_mem : (s.storeHome pa bs).mem = s.storeRun pa bs := rfl
@[simp] theorem State.storeHome_l1 : (s.storeHome pa bs).l1 = s.l1 := rfl
@[simp] theorem State.storeHome_l2 : (s.storeHome pa bs).l2 = s.l2 := rfl
@[simp] theorem State.storeHome_unseen : (s.storeHome pa bs).unseen = s.unseen := rfl
@[simp] theorem State.storeHome_pad : (s.storeHome pa bs).pad = s.pad := rfl
@[simp] theorem State.storeHome_padNotes : (s.storeHome pa bs).padNotes = s.padNotes := rfl
@[simp] theorem State.storeHome_rows : (s.storeHome pa bs).rows = s.rows := rfl
@[simp] theorem State.storeHome_poison : (s.storeHome pa bs).poison = s.poison := rfl
@[simp] theorem State.storeHome_dies : (s.storeHome pa bs).dies = s.dies := rfl
@[simp] theorem State.storeHome_mailbox : (s.storeHome pa bs).mailbox = s.mailbox := rfl
@[simp] theorem State.storeHome_fwImage : (s.storeHome pa bs).fwImage = s.fwImage := rfl
@[simp] theorem State.storeHome_coreRows : (s.storeHome pa bs).coreRows = s.coreRows := rfl
@[simp] theorem State.storeHome_hostSide : (s.storeHome pa bs).hostSide = s.hostSide := rfl
@[simp] theorem State.storeHome_msixHeld : (s.storeHome pa bs).msixHeld = s.msixHeld := rfl
@[simp] theorem State.storeHome_hostReads : (s.storeHome pa bs).hostReads = s.hostReads := rfl
@[simp] theorem State.storeHome_ports : (s.storeHome pa bs).ports = s.ports := rfl
@[simp] theorem State.storeHome_spdm : (s.storeHome pa bs).spdm = s.spdm := rfl
@[simp] theorem State.storeHome_parts : (s.storeHome pa bs).parts = s.parts := rfl
@[simp] theorem State.storeHome_ctxs : (s.storeHome pa bs).ctxs = s.ctxs := rfl
@[simp] theorem State.storeHome_tlb : (s.storeHome pa bs).tlb = s.tlb := rfl
@[simp] theorem State.storeHome_hqs : (s.storeHome pa bs).hqs = s.hqs := rfl
@[simp] theorem State.storeHome_dqs : (s.storeHome pa bs).dqs = s.dqs := rfl
@[simp] theorem State.storeHome_launches : (s.storeHome pa bs).launches = s.launches := rfl
@[simp] theorem State.storeHome_trees : (s.storeHome pa bs).trees = s.trees := rfl
@[simp] theorem State.storeHome_groups : (s.storeHome pa bs).groups = s.groups := rfl
@[simp] theorem State.storeHome_units : (s.storeHome pa bs).units = s.units := rfl
@[simp] theorem State.storeHome_issue : (s.storeHome pa bs).issue = s.issue := rfl
@[simp] theorem State.storeHome_pend : (s.storeHome pa bs).pend = s.pend := rfl
@[simp] theorem State.storeHome_engq : (s.storeHome pa bs).engq = s.engq := rfl
@[simp] theorem State.storeHome_copies : (s.storeHome pa bs).copies = s.copies := rfl
@[simp] theorem State.storeHome_atomq : (s.storeHome pa bs).atomq = s.atomq := rfl
@[simp] theorem State.storeHome_hot : (s.storeHome pa bs).hot = s.hot := rfl
@[simp] theorem State.storeHome_creel : (s.storeHome pa bs).creel = s.creel := rfl
@[simp] theorem State.storeHome_cursors : (s.storeHome pa bs).cursors = s.cursors := rfl
@[simp] theorem State.storeHome_moves : (s.storeHome pa bs).moves = s.moves := rfl
@[simp] theorem State.storeHome_ranks : (s.storeHome pa bs).ranks = s.ranks := rfl
@[simp] theorem State.storeHome_beams : (s.storeHome pa bs).beams = s.beams := rfl
@[simp] theorem State.storeHome_tiles : (s.storeHome pa bs).tiles = s.tiles := rfl
@[simp] theorem State.storeHome_mmaq : (s.storeHome pa bs).mmaq = s.mmaq := rfl
@[simp] theorem State.storeHome_jobs : (s.storeHome pa bs).jobs = s.jobs := rfl
@[simp] theorem State.storeHome_ringSeq : (s.storeHome pa bs).ringSeq = s.ringSeq := rfl
@[simp] theorem State.storeHome_agenda : (s.storeHome pa bs).agenda = s.agenda := rfl
@[simp] theorem State.storeHome_outs : (s.storeHome pa bs).outs = s.outs := rfl
@[simp] theorem State.storeHome_nextId : (s.storeHome pa bs).nextId = s.nextId := rfl
@[simp] theorem State.storeHome_freeCtr : (s.storeHome pa bs).freeCtr = s.freeCtr := rfl

end StoreHome

section SetRow
variable (k : Nat) (ws : List W32)

@[simp] theorem State.setRow_mem : (s.setRow k ws).mem = s.mem := rfl
@[simp] theorem State.setRow_l1 : (s.setRow k ws).l1 = s.l1 := rfl
@[simp] theorem State.setRow_l2 : (s.setRow k ws).l2 = s.l2 := rfl
@[simp] theorem State.setRow_unseen : (s.setRow k ws).unseen = s.unseen := rfl
@[simp] theorem State.setRow_pad : (s.setRow k ws).pad = s.pad := rfl
@[simp] theorem State.setRow_padNotes : (s.setRow k ws).padNotes = s.padNotes := rfl
@[simp] theorem State.setRow_rows : (s.setRow k ws).rows = Kv.set (List.replicate 64 0) s.rows k ws := rfl
@[simp] theorem State.setRow_dies : (s.setRow k ws).dies = s.dies := rfl
@[simp] theorem State.setRow_mailbox : (s.setRow k ws).mailbox = s.mailbox := rfl
@[simp] theorem State.setRow_fwImage : (s.setRow k ws).fwImage = s.fwImage := rfl
@[simp] theorem State.setRow_coreRows : (s.setRow k ws).coreRows = s.coreRows := rfl
@[simp] theorem State.setRow_hostSide : (s.setRow k ws).hostSide = s.hostSide := rfl
@[simp] theorem State.setRow_msixHeld : (s.setRow k ws).msixHeld = s.msixHeld := rfl
@[simp] theorem State.setRow_hostReads : (s.setRow k ws).hostReads = s.hostReads := rfl
@[simp] theorem State.setRow_ports : (s.setRow k ws).ports = s.ports := rfl
@[simp] theorem State.setRow_spdm : (s.setRow k ws).spdm = s.spdm := rfl
@[simp] theorem State.setRow_parts : (s.setRow k ws).parts = s.parts := rfl
@[simp] theorem State.setRow_ctxs : (s.setRow k ws).ctxs = s.ctxs := rfl
@[simp] theorem State.setRow_tlb : (s.setRow k ws).tlb = s.tlb := rfl
@[simp] theorem State.setRow_hqs : (s.setRow k ws).hqs = s.hqs := rfl
@[simp] theorem State.setRow_dqs : (s.setRow k ws).dqs = s.dqs := rfl
@[simp] theorem State.setRow_launches : (s.setRow k ws).launches = s.launches := rfl
@[simp] theorem State.setRow_trees : (s.setRow k ws).trees = s.trees := rfl
@[simp] theorem State.setRow_groups : (s.setRow k ws).groups = s.groups := rfl
@[simp] theorem State.setRow_units : (s.setRow k ws).units = s.units := rfl
@[simp] theorem State.setRow_issue : (s.setRow k ws).issue = s.issue := rfl
@[simp] theorem State.setRow_pend : (s.setRow k ws).pend = s.pend := rfl
@[simp] theorem State.setRow_engq : (s.setRow k ws).engq = s.engq := rfl
@[simp] theorem State.setRow_copies : (s.setRow k ws).copies = s.copies := rfl
@[simp] theorem State.setRow_atomq : (s.setRow k ws).atomq = s.atomq := rfl
@[simp] theorem State.setRow_hot : (s.setRow k ws).hot = s.hot := rfl
@[simp] theorem State.setRow_creel : (s.setRow k ws).creel = s.creel := rfl
@[simp] theorem State.setRow_cursors : (s.setRow k ws).cursors = s.cursors := rfl
@[simp] theorem State.setRow_moves : (s.setRow k ws).moves = s.moves := rfl
@[simp] theorem State.setRow_ranks : (s.setRow k ws).ranks = s.ranks := rfl
@[simp] theorem State.setRow_beams : (s.setRow k ws).beams = s.beams := rfl
@[simp] theorem State.setRow_tiles : (s.setRow k ws).tiles = s.tiles := rfl
@[simp] theorem State.setRow_mmaq : (s.setRow k ws).mmaq = s.mmaq := rfl
@[simp] theorem State.setRow_jobs : (s.setRow k ws).jobs = s.jobs := rfl
@[simp] theorem State.setRow_ringSeq : (s.setRow k ws).ringSeq = s.ringSeq := rfl
@[simp] theorem State.setRow_agenda : (s.setRow k ws).agenda = s.agenda := rfl
@[simp] theorem State.setRow_outs : (s.setRow k ws).outs = s.outs := rfl
@[simp] theorem State.setRow_nextId : (s.setRow k ws).nextId = s.nextId := rfl
@[simp] theorem State.setRow_freeCtr : (s.setRow k ws).freeCtr = s.freeCtr := rfl

end SetRow

@[simp] theorem State.fresh_fst : s.fresh.1 = s.nextId := rfl
@[simp] theorem State.draw_fst : s.draw.1 = s.freeCtr := rfl

/-- Looking up in an updated table the entries that the update kept apart: the first one, updated. -/
theorem find?_updWhere {α : Type} (p : α → Bool) (f : α → α) (hf : ∀ x, p x = true → p (f x) = true) (l : List α) :
    (updWhere p f l).find? p = (l.find? p).map f := by
  induction l with
  | nil => rfl
  | cons x xs ih =>
    simp only [updWhere, List.map_cons] at ih ⊢
    by_cases hx : p x = true
    · simp [hx, hf x hx]
    · simp only [Bool.not_eq_true] at hx
      simp [hx, ih]

/-- Looking up entries that an update does not touch and does not make. -/
theorem find?_updWhere_other {α : Type} (p q : α → Bool) (f : α → α) (hq : ∀ x, p x = true → q x = false)
    (hf : ∀ x, p x = true → q (f x) = false) (l : List α) : (updWhere p f l).find? q = l.find? q := by
  induction l with
  | nil => rfl
  | cons x xs ih =>
    simp only [updWhere, List.map_cons] at ih ⊢
    by_cases hx : p x = true
    · simp [hx, hq x hx, hf x hx, ih]
    · simp only [Bool.not_eq_true] at hx
      simp only [hx, Bool.false_eq_true, if_false, List.find?_cons, ih]

theorem State.unit?_updUnit (id : Nat) (f : SUnit → SUnit) (hf : ∀ u, (f u).id = u.id) :
    (s.updUnit id f).unit? id = (s.unit? id).map f :=
  find?_updWhere _ f (fun x hx => by simpa [hf] using hx) s.units

theorem State.unit?_updUnit_other {id k : Nat} (hk : k ≠ id) (f : SUnit → SUnit) (hf : ∀ u, (f u).id = u.id) :
    (s.updUnit id f).unit? k = s.unit? k :=
  find?_updWhere_other _ _ f (fun x hx => by simp at hx ⊢; omega) (fun x hx => by simp [hf] at hx ⊢; omega) s.units

/-- A unit put back is found again. -/
theorem State.unit?_putUnit {u v : SUnit} (h : s.unit? u.id = some v) : (s.putUnit u).unit? u.id = some u := by
  have := find?_updWhere (fun x : SUnit => x.id == u.id) (fun _ => u) (fun _ _ => by simp) s.units
  simp only [State.unit?] at h ⊢
  rw [State.putUnit_units, this, h]
  rfl

theorem State.unit?_putUnit_other {u : SUnit} {k : Nat} (hk : k ≠ u.id) : (s.putUnit u).unit? k = s.unit? k :=
  find?_updWhere_other _ _ (fun _ => u) (fun x hx => by simp at hx ⊢; omega) (fun x hx => by simp; omega) s.units

@[simp] theorem length_updWhere {α : Type} (p : α → Bool) (f : α → α) (l : List α) : (updWhere p f l).length = l.length := by
  simp [updWhere]

end Sys2Proof.Machine
end

