-- ==== Sys2Proof/Laws/Exec.lean ====
section
/-! SUPPORT. What every instruction word shares: the word of a unit at the head of the ports runs its body, and what the end of a
word and of a clause leaves. -/

namespace Sys2Proof.Machine

theorem State.AtHead.id_eq {s : State} {i : Issue} {u : SUnit} (h : s.AtHead i u) : u.id = i.unit := by
  have := List.find?_some h.unit
  simpa using this

theorem State.AtHead.unit_self {s : State} {i : Issue} {u : SUnit} (h : s.AtHead i u) : s.unit? u.id = some u := by
  rw [h.id_eq]; exact h.unit

/-- The word of a unit at the head of the ports runs, and ends as its body says. -/
theorem State.AtHead.runWord {s : State} {i : Issue} {u : SUnit} (h : s.AtHead i u) (body : State → Issue → SUnit → Res) :
    s.runWord body = .next (State.finish i u (body s i u)) := by
  obtain ⟨rest, hr⟩ := h.head
  unfold State.runWord
  rw [hr]
  simp [h.unit]

/-- A word that closes an open region first. -/
theorem State.AtHead.runClosing {s : State} {i : Issue} {u : SUnit} (h : s.AtHead i u) (body : State → Issue → SUnit → Res) :
    s.runClosing body = .next (State.finish i u (body (s.closeRegion u) i u.noRegion)) := by
  unfold State.runClosing; rw [h.runWord]; rfl

theorem State.finish_done (t : State) (i : Issue) (u : SUnit) : State.finish i u (.done t) = t.advance i := rfl
theorem State.finish_jump (t : State) (i : Issue) (u : SUnit) : State.finish i u (.jump t) = t.endClause i.unit := rfl

/-- A word that traps before it has changed anything. -/
theorem State.AtHead.finish_trap {s : State} {i : Issue} {u : SUnit} (h : s.AtHead i u) (c : W32) (tval : W64) (g : Bool) :
    Host.Outcome.next (State.finish i u (.trap s c tval g)) = s.trapped i u c tval g := by
  unfold State.trapped
  simp only [State.finish, h.unit_self, Option.getD_some]

/-- A word whose span is dealt or materialised first; the launch of a span that is dealt does not abort. -/
theorem State.AtHead.finish_needG {s : State} {i : Issue} {u : SUnit} (h : s.AtHead i u)
    (ha : (s.aborting u.launch && u.kind == .undealt) = false) :
    State.finish i u (.needG s) = s.needG u := by
  simp only [State.finish, ha, h.unit_self, Option.getD_some, Bool.false_eq_true, if_false]

end Sys2Proof.Machine
end

