-- ==== Sys2Proof/Laws/Kv.lean ====
section
/-! SUPPORT. The laws of sparse storage: what a read gives after a write, and that every operation keeps the canonical form. -/

namespace Sys2Proof.Machine

variable {α : Type}

@[simp] theorem Kv.get_nil (dflt : α) (i : Nat) : Kv.get dflt [] i = dflt := rfl

theorem Kv.get_insert (dflt : α) (m : Kv α) (i j : Nat) (x : α) :
    Kv.get dflt (Kv.insert i x m) j = if j = i then x else Kv.get dflt m j := by
  induction m with
  | nil => simp [Kv.insert, Kv.get]
  | cons e rest ih =>
    obtain ⟨k, v⟩ := e
    simp only [Kv.insert]
    split_ifs <;> simp only [Kv.get, ih] <;> split_ifs <;> first | rfl | omega

section Canonical
variable [DecidableEq α] {dflt : α}

/-- A form that starts at lo starts at every lower bound too. -/
theorem Kv.wfFrom_mono {m : Kv α} {lo hi : Nat} (hle : lo ≤ hi) (h : Kv.wfFrom dflt hi m = true) :
    Kv.wfFrom dflt lo m = true := by
  cases m with
  | nil => rfl
  | cons e rest => simp only [Kv.wfFrom, Bool.and_eq_true, decide_eq_true_eq] at h ⊢; exact ⟨⟨by omega, h.1.2⟩, h.2⟩

/-- Below its first key a canonical table lists nothing. -/
theorem Kv.get_below {m : Kv α} {lo i : Nat} (h : Kv.wfFrom dflt lo m = true) (hi : i < lo) : Kv.get dflt m i = dflt := by
  cases m with
  | nil => rfl
  | cons e rest =>
    simp only [Kv.wfFrom, Bool.and_eq_true, decide_eq_true_eq] at h
    simp only [Kv.get]
    rw [if_neg (by omega), if_pos (by omega)]

theorem Kv.get_erase {m : Kv α} {lo : Nat} (h : Kv.wfFrom dflt lo m = true) (i j : Nat) :
    Kv.get dflt (Kv.erase i m) j = if j = i then dflt else Kv.get dflt m j := by
  induction m generalizing lo with
  | nil => simp [Kv.erase, Kv.get]
  | cons e rest ih =>
    obtain ⟨k, v⟩ := e
    simp only [Kv.wfFrom, Bool.and_eq_true, decide_eq_true_eq] at h
    have ih' := ih h.2
    have hb (n : Nat) (hn : n < k + 1) : Kv.get dflt rest n = dflt := Kv.get_below h.2 hn
    rcases Nat.lt_trichotomy i k with h1 | h1 | h1
    · rw [Kv.erase, if_pos h1]
      by_cases hji : j = i
      · rw [if_pos hji, Kv.get, if_neg (by omega), if_pos (by omega)]
      · rw [if_neg hji]
    · subst h1
      rw [Kv.erase, if_neg (by omega), if_pos rfl]
      by_cases hji : j = i
      · rw [if_pos hji]; exact hb j (by omega)
      · rw [if_neg hji, Kv.get, if_neg hji]
        split_ifs with h4
        · exact hb j (by omega)
        · rfl
    · rw [Kv.erase, if_neg (by omega), if_neg (by omega)]
      simp only [Kv.get, ih']
      split_ifs <;> first | rfl | omega

/-- After a write, the key written reads as the value and every other key as before. -/
theorem Kv.get_set {m : Kv α} (h : Kv.wf dflt m = true) (i j : Nat) (x : α) :
    Kv.get dflt (Kv.set dflt m i x) j = if j = i then x else Kv.get dflt m j := by
  unfold Kv.set
  split_ifs with hx hj hj
  · rw [Kv.get_erase h, if_pos hj, hx]
  · rw [Kv.get_erase h, if_neg hj]
  · rw [Kv.get_insert, if_pos hj]
  · rw [Kv.get_insert, if_neg hj]

theorem Kv.wfFrom_insert {m : Kv α} {lo i : Nat} {x : α} (h : Kv.wfFrom dflt lo m = true) (hlo : lo ≤ i)
    (hx : x ≠ dflt) : Kv.wfFrom dflt lo (Kv.insert i x m) = true := by
  induction m generalizing lo with
  | nil => simp [Kv.insert, Kv.wfFrom, hlo, hx]
  | cons e rest ih =>
    obtain ⟨k, v⟩ := e
    simp only [Kv.wfFrom, Bool.and_eq_true, decide_eq_true_eq] at h
    simp only [Kv.insert]
    split_ifs with h1 h2
    · simp only [Kv.wfFrom, Bool.and_eq_true, decide_eq_true_eq]; exact ⟨⟨hlo, hx⟩, ⟨⟨by omega, h.1.2⟩, h.2⟩⟩
    · subst h2; simp only [Kv.wfFrom, Bool.and_eq_true, decide_eq_true_eq]; exact ⟨⟨hlo, hx⟩, h.2⟩
    · simp only [Kv.wfFrom, Bool.and_eq_true, decide_eq_true_eq]; exact ⟨h.1, ih h.2 (by omega)⟩

theorem Kv.wfFrom_erase {m : Kv α} {lo i : Nat} (h : Kv.wfFrom dflt lo m = true) :
    Kv.wfFrom dflt lo (Kv.erase i m) = true := by
  induction m generalizing lo with
  | nil => rfl
  | cons e rest ih =>
    obtain ⟨k, v⟩ := e
    have h' := h
    simp only [Kv.wfFrom, Bool.and_eq_true, decide_eq_true_eq] at h
    simp only [Kv.erase]
    split_ifs with h1 h2
    · exact h'
    · exact Kv.wfFrom_mono (by omega) h.2
    · simp only [Kv.wfFrom, Bool.and_eq_true, decide_eq_true_eq]; exact ⟨h.1, ih h.2⟩

theorem Kv.wf_nil : Kv.wf dflt ([] : Kv α) = true := rfl

theorem Kv.wf_set {m : Kv α} (h : Kv.wf dflt m = true) (i : Nat) (x : α) : Kv.wf dflt (Kv.set dflt m i x) = true := by
  unfold Kv.set
  split_ifs with hx
  · exact Kv.wfFrom_erase h
  · exact Kv.wfFrom_insert h (by omega) hx

theorem Kv.wf_setRun {m : Kv α} (h : Kv.wf dflt m = true) (i : Nat) (xs : List α) :
    Kv.wf dflt (Kv.setRun dflt m i xs) = true := by
  induction xs generalizing m i with
  | nil => exact h
  | cons x xs ih => exact ih (Kv.wf_set h i x) (i + 1)

/-- After a run is written, its keys read as its values and every other key as before. -/
theorem Kv.get_setRun {m : Kv α} (h : Kv.wf dflt m = true) (i j : Nat) (xs : List α) :
    Kv.get dflt (Kv.setRun dflt m i xs) j = if i ≤ j ∧ j < i + xs.length then xs.getD (j - i) dflt else Kv.get dflt m j := by
  induction xs generalizing m i with
  | nil => simp only [Kv.setRun, List.length_nil]; rw [if_neg (by omega)]
  | cons x xs ih =>
    simp only [Kv.setRun, List.length_cons]
    rw [ih (Kv.wf_set h i x) (i + 1), Kv.get_set h]
    by_cases hji : j = i
    · subst hji; simp
    · by_cases hin : i + 1 ≤ j ∧ j < i + 1 + xs.length
      · rw [if_pos hin, if_pos (by omega)]
        have : j - i = (j - (i + 1)) + 1 := by omega
        rw [this, List.getD_cons_succ]
      · rw [if_neg hin, if_neg hji, if_neg (by omega)]

theorem Kv.wfFrom_keep {m : Kv α} {lo : Nat} (p : Nat → Bool) (h : Kv.wfFrom dflt lo m = true) :
    Kv.wfFrom dflt lo (Kv.keep p m) = true := by
  induction m generalizing lo with
  | nil => rfl
  | cons e rest ih =>
    obtain ⟨k, v⟩ := e
    simp only [Kv.wfFrom, Bool.and_eq_true, decide_eq_true_eq] at h
    simp only [Kv.keep, List.filter]
    split
    · simp only [Kv.wfFrom, Bool.and_eq_true, decide_eq_true_eq]; exact ⟨h.1, ih h.2⟩
    · exact Kv.wfFrom_mono (by omega) (ih h.2)

theorem Kv.wf_keep {m : Kv α} (p : Nat → Bool) (h : Kv.wf dflt m = true) : Kv.wf dflt (Kv.keep p m) = true :=
  Kv.wfFrom_keep p h

end Canonical

end Sys2Proof.Machine
end

