-- ==== Sys2Proof/Laws/Memory.lean ====
section
/-! SUPPORT. The laws of memory: every operation over memory and pads keeps the canonical form, a byte written reads as written
and every other byte as before. -/

namespace Sys2Proof.Machine

theorem Memory.wf_nil : Memory.wf [] = true := rfl

theorem Memory.wf_set {m : Memory} (h : m.wf = true) (i : Nat) (b : Byte) : Memory.wf (Kv.set memDefault m i b) = true :=
  Kv.wf_set h i b

theorem Memory.wf_setRun {m : Memory} (h : m.wf = true) (i : Nat) (bs : List Byte) :
    Memory.wf (Kv.setRun memDefault m i bs) = true :=
  Kv.wf_setRun h i bs

theorem Memory.wf_keep {m : Memory} (p : Nat → Bool) (h : m.wf = true) : Memory.wf (Kv.keep p m) = true :=
  Kv.wf_keep p h

/-- Putting entries into memory one after the other keeps its form. -/
theorem Memory.wf_foldl {β : Type} (f : Memory → β → Memory) (hf : ∀ m e, Memory.wf m = true → Memory.wf (f m e) = true)
    (es : List β) {m : Memory} (h : m.wf = true) : Memory.wf (es.foldl f m) = true := by
  induction es generalizing m with
  | nil => exact h
  | cons e es ih => exact ih (hf m e h)

theorem State.reset_mem_wf : State.reset.mem.wf = true := rfl

theorem State.pushHome_wf (s : State) {mem : Memory} (es : List (Nat × Option Byte)) (h : mem.wf = true) :
    Memory.wf (s.pushHome mem es) = true := by
  refine Memory.wf_foldl _ (fun m e hm => ?_) es h
  split
  · split
    · exact Memory.wf_set hm _ _
    · exact hm
  · exact hm

variable {s : State} (h : s.mem.wf = true)
include h

theorem State.setHome_wf (pa : Nat) (b : Byte) : (s.setHome pa b).mem.wf = true := Memory.wf_set h _ b

theorem State.storeRun_wf (pa : Nat) (bs : List Byte) : Memory.wf (s.storeRun pa bs) = true := by
  unfold State.storeRun
  split
  · exact Memory.wf_setRun h _ bs
  · exact Memory.wf_foldl _ (fun m e hm => Memory.wf_set hm _ _) _ h

theorem State.storeHome_wf (pa : Nat) (bs : List Byte) : (s.storeHome pa bs).mem.wf = true := State.storeRun_wf h pa bs

theorem State.outsideMem_wf : s.outsideMem.wf = true := Memory.wf_keep _ h

omit h in
@[simp] theorem State.countDrop_mem : s.countDrop.mem = s.mem := rfl

omit h in
@[simp] theorem State.clearLines_mem (l : List Nat) : (s.clearLines l).mem = s.mem := by
  unfold State.clearLines; split <;> rfl

omit h in
/-- What a write at the home slice leaves of memory: the bytes written, or memory as it was where the write does not reach it. -/
theorem State.writeHome_mem (w : Who) (pa : Nat) (bs : List Byte) :
    (s.writeHome w pa bs).mem = if s.lands pa then s.storeRun pa bs else s.mem := by
  unfold State.writeHome State.lands
  split
  · next hl => simp [hl]
  · next hl =>
    split
    · next hr => simp [hr]
    · next hr => cases hw : w.cluster? <;> simp [hl, hr]

theorem State.writeHome_wf (w : Who) (pa : Nat) (bs : List Byte) : (s.writeHome w pa bs).mem.wf = true := by
  rw [State.writeHome_mem]
  split
  · exact State.storeRun_wf h pa bs
  · exact h

omit h in
/-- A plain store does not reach the home image. -/
@[simp] theorem State.writeL1_mem (core pa : Nat) (bs : List Byte) : (s.writeL1 core pa bs).mem = s.mem := rfl

theorem State.sendHome_wf (inL1 inL2 : Nat → Bool) : (s.sendHome inL1 inL2).mem.wf = true :=
  State.pushHome_wf _ _ (State.pushHome_wf _ _ h)

theorem State.publish_wf (core scope : Nat) : (s.publish core scope).mem.wf = true := by
  unfold State.publish
  split
  · exact h
  · dsimp only
    split
    · exact h
    · exact State.sendHome_wf h _ _

theorem State.evictLine_wf (core line : Nat) : (s.evictLine core line).mem.wf = true := State.sendHome_wf h _ _

theorem State.flushRange_wf (pa n : Nat) : (s.flushRange pa n).mem.wf = true := State.sendHome_wf h _ _

theorem State.loseRange_wf (pa n : Nat) : (s.loseRange pa n).mem.wf = true :=
  Memory.wf_keep (fun k => !(decide (pa ≤ k) && decide (k < pa + n))) h

omit h in
theorem State.writePad_mem (core off : Nat) (bs : List Byte) : (s.writePad core off bs).mem = s.mem := by
  unfold State.writePad; dsimp only; split <;> rfl

omit h in
/-- A write of pad bytes, read back or read elsewhere. -/
theorem State.writePad_pad (core off : Nat) (bs : List Byte) :
    (s.writePad core off bs).pad = Kv.setRun (0 : Byte) s.pad (State.padKey core off) bs := by
  unfold State.writePad; dsimp only; split <;> rfl

omit h in
theorem State.writePad_wf (hp : Memory.wf s.pad = true) (core off : Nat) (bs : List Byte) :
    Memory.wf (s.writePad core off bs).pad = true := by
  rw [State.writePad_pad]; exact Memory.wf_setRun hp _ _

omit h in
@[simp] theorem State.clearLines_fields (l : List Nat) :
    (s.clearLines l).l1 = s.l1 ∧ (s.clearLines l).l2 = s.l2 ∧ (s.clearLines l).creel = s.creel
      ∧ (s.clearLines l).hostSide = s.hostSide := by
  unfold State.clearLines; split <;> exact ⟨rfl, rfl, rfl, rfl⟩

omit h in
@[simp] theorem State.clearLines_hostSide (l : List Nat) : (s.clearLines l).hostSide = s.hostSide := (State.clearLines_fields l).2.2.2

omit h in
@[simp] theorem State.writeHome_hostSide (w : Who) (pa : Nat) (bs : List Byte) : (s.writeHome w pa bs).hostSide = s.hostSide := by
  unfold State.writeHome
  split
  · rfl
  · split
    · rfl
    · cases hw : w.cluster? <;> simp

omit h in
theorem State.place_congr {t : State} (ht : t.hostSide = s.hostSide) (a : Nat) : t.place a = s.place a := by
  unfold State.place State.kind; rw [ht]

/-- A byte of the home image after a write there that lies in one run of places: the byte written inside the run, as before outside it. -/
theorem State.homeByte_writeHome (w : Who) (pa a : Nat) (bs : List Byte) (hl : s.lands pa = true)
    (hp : s.place (pa + (bs.length - 1)) = s.place pa + (bs.length - 1)) :
    (s.writeHome w pa bs).homeByte a =
      if s.place pa ≤ s.place a ∧ s.place a < s.place pa + bs.length then bs.getD (s.place a - s.place pa) 0 else s.homeByte a := by
  unfold State.homeByte
  rw [State.writeHome_mem, State.place_congr (State.writeHome_hostSide w pa bs)]
  simp only [hl, if_true]
  unfold State.storeRun
  rw [if_pos hp, Kv.get_setRun h]
  rfl

omit h in
/-- Dirty bytes after a plain store. -/
@[simp] theorem State.writeL1_l1 (core pa : Nat) (bs : List Byte) :
    (s.writeL1 core pa bs).l1 = Kv.setRun none s.l1 (core * paSpace + pa) (bs.map some) := rfl

omit h in
/-- A plain store of a core, as that core reads memory afterwards: the bytes stored, every other byte as before (R125). -/
theorem State.byteAt_writeL1 (h1 : Kv.wf none s.l1 = true) (core pa a : Nat) (bs : List Byte)
    (hc : ∀ d, s.kind a ≠ .creel d) :
    (s.writeL1 core pa bs).byteAt (.core core) a =
      if pa ≤ a ∧ a < pa + bs.length then bs.getD (a - pa) 0 else s.byteAt (.core core) a := by
  have hk : (s.writeL1 core pa bs).kind a = s.kind a := rfl
  have hh : (s.writeL1 core pa bs).homeByte a = s.homeByte a := rfl
  have hl2 : (s.writeL1 core pa bs).l2 = s.l2 := rfl
  unfold State.byteAt State.overHome
  rw [hk]
  rcases hka : s.kind a with _ | d | _ | _ | _ | _
  case creel => exact absurd hka (hc d)
  all_goals
    simp only [hl2, hh, State.writeL1_l1, Bool.false_eq_true, if_false]
    rw [Kv.get_setRun h1]
    by_cases hin : pa ≤ a ∧ a < pa + bs.length
    · rw [if_pos (by rw [List.length_map]; omega), if_pos hin]
      have : core * paSpace + a - (core * paSpace + pa) = a - pa := by omega
      rw [this]
      have hlt : a - pa < bs.length := by omega
      simp [List.getD, hlt]
    · rw [if_neg (by rw [List.length_map]; omega), if_neg hin]

end Sys2Proof.Machine
end

