-- ==== Sys2Proof/Laws/Ops.lean ====
section
/-! SUPPORT. What each shared operation of the instruction words can do, said once: the run of a word, the end of a word and of a clause,
taking a trap, writing a result with its shape, owing one; and that they keep storage in its canonical form. -/

namespace Sys2Proof.Machine

/-- What the run of a word leads to. -/
theorem State.runWord_cases {s t : State} {body : State → Issue → SUnit → Res} (h : s.runWord body = .next t) :
    (∃ i rest, s.issue = i :: rest ∧ s.unit? i.unit = none ∧ t = { s with issue := rest })
    ∨ ∃ i u, s.AtHead i u ∧ t = State.finish i u (body s i u) := by
  unfold State.runWord at h
  split at h
  · cases h
  · next i rest hi =>
    split at h
    · next hu => cases h; exact .inl ⟨i, rest, hi, hu, rfl⟩
    · next u hu => cases h; exact .inr ⟨i, u, ⟨⟨rest, hi⟩, hu⟩, rfl⟩

/-- A word never ends in a refusal, and in a fault only with no clause in issue. -/
theorem State.runWord_outcome (s : State) (body : State → Issue → SUnit → Res) :
    (s.issue = [] ∧ s.runWord body = .fault .noIssue) ∨ ∃ t, s.runWord body = .next t := by
  unfold State.runWord
  split
  · next h => exact .inl ⟨h, rfl⟩
  · split <;> exact .inr ⟨_, rfl⟩

/-- The next slot, or the end of the clause. -/
theorem State.advance_cases (s : State) (i : Issue) :
    (i.slot + 1 < i.hdr.count ∧ s.advance i = { s with issue := updWhere (·.unit == i.unit) (fun j => { j with slot := i.slot + 1, entered := false }) s.issue })
    ∨ (i.hdr.count ≤ i.slot + 1
      ∧ s.advance i = (s.updUnit i.unit (fun u => { u with pc := i.nextClause, pcSlot := none, origin := none })).endClause i.unit) := by
  unfold State.advance
  split
  · next h => exact .inl ⟨h, rfl⟩
  · next h => exact .inr ⟨by omega, rfl⟩

/-- Taking a trap: the span keeps the trap and is dealt or materialised, the strand calls the routine, or its launch begins to abort. -/
theorem State.takeTrap_cases (s : State) (u : SUnit) (cause : W32) (tpc tval next : W64) (global : Bool) :
    (u.isStrand = false ∧ s.trapRoutine u ≠ 0 ∧ s.aborting u.launch = false ∧ ∃ v, v.id = u.id ∧ v.region = none
      ∧ v.asyncTrap = some { cause := cause, tpc := tpc, tval := tval, next := next, global := global }
      ∧ s.takeTrap u cause tpc tval next global = ({ s with issue := s.issue.filter (·.unit != u.id) }.putUnit v).needG v)
    ∨ (u.isStrand = true ∧ s.trapRoutine u ≠ 0 ∧ u.tcause = 0 ∧ u.nest < u.nestmax ∧ u.rstack.length < 32 ∧ s.aborting u.launch = false
      ∧ ∃ v, s.takeTrap u cause tpc tval next global = s.putUnit v ∧ v.id = u.id ∧ v.pc = s.trapRoutine u ∧ v.rstack = next :: u.rstack
          ∧ v.nest = u.nest + 1 ∧ v.tcause = cause ∧ v.tpc = tpc ∧ v.tval = tval ∧ v.region = none)
    ∨ s.takeTrap u cause tpc tval next global
      = (s.putUnit { u with tcause := cause, tpc := tpc, tval := tval }).faultUnit { u with tcause := cause, tpc := tpc, tval := tval } cause
          (faultAddress cause global tval) := by
  unfold State.takeTrap
  dsimp only
  split
  · next hc =>
    simp only [Bool.and_eq_true, decide_eq_true_eq, bne_iff_ne, beq_iff_eq] at hc
    obtain ⟨⟨⟨⟨h1, h2⟩, h3⟩, h4⟩, h5⟩ := hc
    replace h5 : s.aborting u.launch = false := by simpa using h5
    cases hs : u.isStrand
    · let late : LateTrap := { cause := cause, tpc := tpc, tval := tval, next := next, global := global }
      exact .inl ⟨rfl, h1, h5, { u.closeClause with asyncTrap := some late, region := none, origin := none, wait := .none }, rfl, rfl, rfl, rfl⟩
    · exact .inr (.inl ⟨rfl, h1, h2, h3, h4, h5, _, rfl, rfl, rfl, rfl, rfl, rfl, rfl, rfl, rfl⟩)
  · exact .inr (.inr rfl)

/-- Writing v registers: nothing under a false predicate, a trap, shapes kept in the unit's table, a span to be dealt or
materialised, or lanes of mapped rows. -/
theorem State.writeV_cases (s : State) (u : SUnit) (g : Guard) (ws : List (Nat × Rv)) (k : State → Res) :
    s.writeV u g ws k = k s
    ∨ (∃ t, u.regionHit (ws.map (·.1)) [] = some t ∧ s.writeV u g ws k = .trap s causeRegionwrite t)
    ∨ (g.isTrue = true ∧ ∃ v, v.id = u.id ∧ v.p = u.p ∧ v.k = u.k ∧ v.x = u.x ∧ s.writeV u g ws k = k (s.putUnit v))
    ∨ (u.isStrand = false ∧ s.writeV u g ws k = .needG s)
    ∨ (u.isStrand = true ∧ ∃ r, s.ensureRows u (ws.map (·.1)) = .error r ∧ s.writeV u g ws k = .trap s causeGregs (BitVec.ofNat 64 r.toNat))
    ∨ (u.isStrand = true ∧ ∃ (s1 : State) (u1 : SUnit) (f : Nat × Rv → List W32), s.ensureRows u (ws.map (·.1)) = .ok (s1, u1)
      ∧ s.writeV u g ws k = k (ws.foldl (fun s w => s.writeLanes u1 w.1 g.mask (f w)) s1)) := by
  have hfold : ∀ (l : List (Nat × Rv)) (v : SUnit), ∃ w : SUnit, w.id = v.id ∧ w.p = v.p ∧ w.k = v.k ∧ w.x = v.x
      ∧ l.foldl (fun (u : SUnit) (w : Nat × Rv) => match w.2 with
          | .u x => u.setV w.1 (.u x)
          | .a b st => u.setV w.1 (VReg.affine b st)
          | .g _ => u) v = w := by
    intro l
    induction l with
    | nil => intro v; exact ⟨v, rfl, rfl, rfl, rfl, rfl⟩
    | cons a l ih =>
      intro v
      rw [List.foldl_cons]
      rcases a with ⟨r, x | ⟨b, st⟩ | _⟩
      · obtain ⟨w, h1, h2, h3, h4, h5⟩ := ih (v.setV r (.u x)); exact ⟨w, h1, h2, h3, h4, h5⟩
      · obtain ⟨w, h1, h2, h3, h4, h5⟩ := ih (v.setV r (VReg.affine b st)); exact ⟨w, h1, h2, h3, h4, h5⟩
      · exact ih v
  unfold State.writeV
  split
  · exact .inl rfl
  · split
    · next t ht => exact .inr (.inl ⟨t, ht, rfl⟩)
    · dsimp only
      split
      · next hp =>
        simp only [Bool.and_eq_true] at hp
        obtain ⟨w, h1, h2, h3, h4, h5⟩ := hfold ws u
        refine .inr (.inr (.inl ⟨hp.1, w, h1, h2, h3, h4, ?_⟩))
        rw [← h5] <;> rfl
      · split
        · next hs => exact .inr (.inr (.inr (.inl ⟨by simpa using hs, rfl⟩)))
        · next hs =>
          have hst : u.isStrand = true := by simpa using hs
          cases he : s.ensureRows u (ws.map (·.1)) with
          | error r => exact .inr (.inr (.inr (.inr (.inl ⟨hst, r, rfl, rfl⟩))))
          | ok p =>
            obtain ⟨s1, u1⟩ := p
            exact .inr (.inr (.inr (.inr (.inr ⟨hst, s1, u1, _, rfl, rfl⟩))))

/-- Writing a predicate: nothing, a trap, the new predicate, or a span to be dealt or materialised. -/
theorem State.writeP_cases (s : State) (u : SUnit) (g : Guard) (r : Nat) (x : PReg) (k : State → Res) :
    s.writeP u g r x k = k s
    ∨ (∃ t, u.regionHit [] [r] = some t ∧ s.writeP u g r x k = .trap s causeRegionwrite t)
    ∨ (∃ q, s.writeP u g r x k = k (s.putUnit (u.setP r q)))
    ∨ (u.isStrand = false ∧ s.writeP u g r x k = .needG s) := by
  unfold State.writeP
  split
  · exact .inl rfl
  · split
    · next t ht => exact .inr (.inl ⟨t, ht, rfl⟩)
    · by_cases h7 : r = 7
      · rw [if_pos h7]; exact .inl rfl
      · rw [if_neg h7]
        split
        · split
          · exact .inr (.inr (.inl ⟨_, rfl⟩))
          · split
            · next hs => exact .inr (.inr (.inr ⟨by simpa using hs, rfl⟩))
            · exact .inr (.inr (.inl ⟨_, rfl⟩))
        · split
          · exact .inr (.inr (.inl ⟨_, rfl⟩))
          · split
            · next hs => exact .inr (.inr (.inr ⟨by simpa using hs, rfl⟩))
            · exact .inr (.inr (.inl ⟨_, rfl⟩))

/-- Owing v registers: a trap, an operation that owes them with rows mapped, or a span to be dealt or materialised. -/
theorem State.deferV_cases (s : State) (u : SUnit) (g : Guard) (setB : Bool) (wait : PendWait) (ws : List (Nat × Rv)) (k : Nat → State → Res) :
    (∃ t, u.regionHit (ws.map (·.1)) [] = some t ∧ s.deferV u g setB wait ws k = .trap s causeRegionwrite t)
    ∨ (∃ s1 wr, (s1 = s ∨ s.reserveRows u (ws.map (·.1)) = .ok s1)
        ∧ s.deferV u g setB wait ws k = k (s1.addPend u wait wr true setB false).1 (s1.addPend u wait wr true setB false).2)
    ∨ (u.isStrand = false ∧ s.deferV u g setB wait ws k = .needG s)
    ∨ (∃ r, s.reserveRows u (ws.map (·.1)) = .error r ∧ s.deferV u g setB wait ws k = .trap s causeGregs (BitVec.ofNat 64 r.toNat)) := by
  unfold State.deferV
  split
  · next t ht => exact .inl ⟨t, ht, rfl⟩
  · dsimp only
    split
    · exact .inr (.inl ⟨s, _, .inl rfl, rfl⟩)
    · split
      · next hs => exact .inr (.inr (.inl ⟨by simpa using hs, rfl⟩))
      · cases hr : s.reserveRows u (ws.map (·.1)) with
        | error r => exact .inr (.inr (.inr ⟨r, rfl, rfl⟩))
        | ok s1 => exact .inr (.inl ⟨s1, _, .inr rfl, rfl⟩)

end Sys2Proof.Machine
end

