-- ==== Sys2Proof/Laws/PerInstr.lean ====
section
/-! SUPPORT. Decoding undoes encoding, instruction by instruction: the family RoundTrip. -/

namespace Sys2Proof.Laws.RoundTrip
open Sys2Proof
set_option Elab.async false

/-- A well-formed instruction word decodes, in the map of its class, to the instruction it encodes. -/
def Statement (i : Instr) : Prop := i.wf = true → ∀ c, i.cls = some c → decodeWord c (encode i) = some i

theorem step_case {i : Instr} (h : i.cls = none) : Statement i := by
  intro _ c hc; rw [h] at hc; cases hc

theorem check {i : Instr} (h : i.wf = true) : checkWord i = some i := by simp [checkWord, h]

theorem checkI_eq {f : FmtI} {op : BitVec 8} {i : Instr} (h : i.wf = true) : checkI (f.toWord op) i = some i := by
  simp only [checkI, FmtI.zero_toWord, Bool.false_eq_true, if_false, check h]

theorem checkS_eq {f : FmtS} {op : BitVec 8} {i : Instr} (h : i.wf = true) : checkS (f.toWord op) i = some i := by
  simp only [checkS, FmtS.zero_toWord, beq_self_eq_true, if_true, check h]

theorem powerOnReset : Statement .powerOnReset := step_case rfl
theorem selftestDone (a0 : Nat) (a1 : SelfTest) : Statement (.selftestDone a0 a1) := step_case rfl
theorem loadFw : Statement .loadFw := step_case rfl
theorem verifyDone : Statement .verifyDone := step_case rfl
theorem mgmtqWrite (a0 : BitVec 64) : Statement (.mgmtqWrite a0) := step_case rfl
theorem powerInputFault : Statement .powerInputFault := step_case rfl
theorem thermalEvent (a0 : Nat) (a1 : Nat) : Statement (.thermalEvent a0 a1) := step_case rfl
theorem creelHotModeChange (a0 : Nat) (a1 : Nat) : Statement (.creelHotModeChange a0 a1) := step_case rfl
theorem creelRefreshWindowEnd (a0 : Nat) : Statement (.creelRefreshWindowEnd a0) := step_case rfl
theorem lockstepMismatch (a0 : Nat) : Statement (.lockstepMismatch a0) := step_case rfl
theorem hostLinkUp (a0 : Nat) (a1 : Nat) (a2 : Nat) (a3 : Nat) : Statement (.hostLinkUp a0 a1 a2 a3) := step_case rfl
theorem hostLinkDown (a0 : Nat) : Statement (.hostLinkDown a0) := step_case rfl
theorem hostReadCompletion (a0 : Nat) (a1 : List Byte) (a2 : Bool) : Statement (.hostReadCompletion a0 a1 a2) := step_case rfl
theorem hostCompletionTimeout (a0 : Nat) : Statement (.hostCompletionTimeout a0) := step_case rfl
theorem bar2Read (a0 : Nat) (a1 : Nat) : Statement (.bar2Read a0 a1) := step_case rfl
theorem bar2Write (a0 : Nat) (a1 : List Byte) : Statement (.bar2Write a0 a1) := step_case rfl
theorem registerWrite (a0 : Nat) (a1 : Nat) (a2 : BitVec 64) : Statement (.registerWrite a0 a1 a2) := step_case rfl
theorem tailWrite (a0 : Nat) (a1 : Nat) (a2 : BitVec 32) : Statement (.tailWrite a0 a1 a2) := step_case rfl
theorem resolveWrite (a0 : Nat) : Statement (.resolveWrite a0) := step_case rfl
theorem consumedWrite (a0 : Nat) (a1 : BitVec 64) : Statement (.consumedWrite a0 a1) := step_case rfl
theorem portEnable (a0 : Nat) (a1 : Bool) : Statement (.portEnable a0 a1) := step_case rfl
theorem portIsolate (a0 : Nat) (a1 : Bool) : Statement (.portIsolate a0 a1) := step_case rfl
theorem retrain (a0 : Nat) : Statement (.retrain a0) := step_case rfl
theorem portTrainDone (a0 : Nat) (a1 : Nat) (a2 : BitVec 56) (a3 : BitVec 4) : Statement (.portTrainDone a0 a1 a2 a3) := step_case rfl
theorem portTrainTimeout (a0 : Nat) : Statement (.portTrainTimeout a0) := step_case rfl
theorem flitReceive (a0 : Nat) (a1 : List Byte) : Statement (.flitReceive a0 a1) := step_case rfl
theorem nakReceive (a0 : Nat) (a1 : BitVec 12) : Statement (.nakReceive a0 a1) := step_case rfl
theorem pauseReceive (a0 : Nat) (a1 : Nat) : Statement (.pauseReceive a0 a1) := step_case rfl
theorem resumeReceive (a0 : Nat) (a1 : Nat) : Statement (.resumeReceive a0 a1) := step_case rfl
theorem spdmGetVersion (a0 : Nat) : Statement (.spdmGetVersion a0) := step_case rfl
theorem spdmGetCapabilities (a0 : Nat) : Statement (.spdmGetCapabilities a0) := step_case rfl
theorem spdmNegotiate (a0 : Nat) : Statement (.spdmNegotiate a0) := step_case rfl
theorem spdmGetDigests (a0 : Nat) : Statement (.spdmGetDigests a0) := step_case rfl
theorem spdmGetCertificate (a0 : Nat) : Statement (.spdmGetCertificate a0) := step_case rfl
theorem spdmChallenge (a0 : Nat) (a1 : List Byte) : Statement (.spdmChallenge a0 a1) := step_case rfl
theorem spdmGetMeasurements (a0 : Nat) (a1 : Nat) : Statement (.spdmGetMeasurements a0 a1) := step_case rfl
theorem mctpStageQuery : Statement .mctpStageQuery := step_case rfl
theorem packetFetch (a0 : Nat) (a1 : Nat) : Statement (.packetFetch a0 a1) := step_case rfl
theorem slotRereadTimer (a0 : Nat) (a1 : Nat) (a2 : Bool) : Statement (.slotRereadTimer a0 a1 a2) := step_case rfl
theorem boardScan (a0 : Nat) (a1 : Nat) : Statement (.boardScan a0 a1) := step_case rfl
theorem nopPacket : Statement .nopPacket := step_case rfl
theorem launchPacket : Statement .launchPacket := step_case rfl
theorem copyPacket : Statement .copyPacket := step_case rfl
theorem barrierPacket : Statement .barrierPacket := step_case rfl
theorem signalPacket : Statement .signalPacket := step_case rfl
theorem creelBegin : Statement .creelBegin := step_case rfl
theorem creelSeal : Statement .creelSeal := step_case rfl
theorem markerPacket : Statement .markerPacket := step_case rfl
theorem contextCreate : Statement .contextCreate := step_case rfl
theorem contextPaging : Statement .contextPaging := step_case rfl
theorem contextQueue : Statement .contextQueue := step_case rfl
theorem contextUnqueue : Statement .contextUnqueue := step_case rfl
theorem contextInval : Statement .contextInval := step_case rfl
theorem contextSuspend : Statement .contextSuspend := step_case rfl
theorem contextResume : Statement .contextResume := step_case rfl
theorem contextTerminate : Statement .contextTerminate := step_case rfl
theorem contextResize : Statement .contextResize := step_case rfl
theorem resizeMapChange : Statement .resizeMapChange := step_case rfl
theorem signalWatchNotify (a0 : Nat) (a1 : Nat) (a2 : Nat) : Statement (.signalWatchNotify a0 a1 a2) := step_case rfl
theorem signalWatchReread (a0 : Nat) (a1 : Nat) (a2 : Nat) : Statement (.signalWatchReread a0 a1 a2) := step_case rfl
theorem packetComplete (a0 : Nat) (a1 : Nat) (a2 : Nat) : Statement (.packetComplete a0 a1 a2) := step_case rfl
theorem rootSpanPlace (a0 : Nat) : Statement (.rootSpanPlace a0) := step_case rfl
theorem groupPlace (a0 : Nat) : Statement (.groupPlace a0) := step_case rfl
theorem deviceQueuePop (a0 : Nat) (a1 : Nat) : Statement (.deviceQueuePop a0 a1) := step_case rfl
theorem devqSlotReread (a0 : Nat) (a1 : Nat) : Statement (.devqSlotReread a0 a1) := step_case rfl
theorem clauseFetch (a0 : Nat) : Statement (.clauseFetch a0) := step_case rfl
theorem longLatencyResult (a0 : Nat) : Statement (.longLatencyResult a0) := step_case rfl
theorem groupRetire (a0 : Nat) (a1 : Nat) : Statement (.groupRetire a0 a1) := step_case rfl
theorem launchAbortDone : Statement .launchAbortDone := step_case rfl
theorem barcContinuationStart : Statement .barcContinuationStart := step_case rfl
theorem yieldExpire (a0 : Nat) : Statement (.yieldExpire a0) := step_case rfl
theorem watchdog (a0 : Nat) : Statement (.watchdog a0) := step_case rfl
theorem contextSaveComplete : Statement .contextSaveComplete := step_case rfl
theorem contextRestore : Statement .contextRestore := step_case rfl
theorem migRewalkTimer (a0 : Nat) : Statement (.migRewalkTimer a0) := step_case rfl
theorem invalidationComplete : Statement .invalidationComplete := step_case rfl
theorem l1Eviction (a0 : Nat) (a1 : Nat) : Statement (.l1Eviction a0 a1) := step_case rfl
theorem uncorrectableError (a0 : PoisonUnit) : Statement (.uncorrectableError a0) := step_case rfl
theorem atomicEngineServe (a0 : Nat) : Statement (.atomicEngineServe a0) := step_case rfl
theorem copyPerform (a0 : Nat) (a1 : Nat) : Statement (.copyPerform a0 a1) := step_case rfl
theorem copyEnd (a0 : Nat) : Statement (.copyEnd a0) := step_case rfl
theorem hankOperationPerform (a0 : Nat) : Statement (.hankOperationPerform a0) := step_case rfl
theorem hankMoveInsert : Statement .hankMoveInsert := step_case rfl
theorem hankRankComplete : Statement .hankRankComplete := step_case rfl
theorem hankThawComplete : Statement .hankThawComplete := step_case rfl
theorem beamQueryStart (a0 : Nat) : Statement (.beamQueryStart a0) := step_case rfl
theorem beamQueryDone (a0 : Nat) (a1 : Nat) : Statement (.beamQueryDone a0 a1) := step_case rfl
theorem collJobEnd : Statement .collJobEnd := step_case rfl
theorem mmaSequencerPerform (a0 : Nat) : Statement (.mmaSequencerPerform a0) := step_case rfl
theorem mmaAssistComplete (a0 : Nat) : Statement (.mmaAssistComplete a0) := step_case rfl
theorem nop (f : FmtS) : Statement (.nop f) := by
  intro h c hc; cases hc
  show decodeCtl (f.toWord _) = _
  unfold decodeCtl
  rw [FmtS.opByte_toWord, FmtS.ofWord_toWord]
  exact checkS_eq h
theorem bra (f : FmtB) : Statement (.bra f) := by
  intro h c hc; cases hc
  show decodeCtl (f.toWord _) = _
  unfold decodeCtl
  rw [FmtB.opByte_toWord, FmtB.ofWord_toWord]
  exact check h
theorem brp (f : FmtB) : Statement (.brp f) := by
  intro h c hc; cases hc
  show decodeCtl (f.toWord _) = _
  unfold decodeCtl
  rw [FmtB.opByte_toWord, FmtB.ofWord_toWord]
  exact check h
theorem join (f : FmtB) : Statement (.join f) := by
  intro h c hc; cases hc
  show decodeCtl (f.toWord _) = _
  unfold decodeCtl
  rw [FmtB.opByte_toWord, FmtB.ofWord_toWord]
  exact check h
theorem call (f : FmtB) : Statement (.call f) := by
  intro h c hc; cases hc
  show decodeCtl (f.toWord _) = _
  unfold decodeCtl
  rw [FmtB.opByte_toWord, FmtB.ofWord_toWord]
  exact check h
theorem calli (f : FmtB) : Statement (.calli f) := by
  intro h c hc; cases hc
  show decodeCtl (f.toWord _) = _
  unfold decodeCtl
  rw [FmtB.opByte_toWord, FmtB.ofWord_toWord]
  exact check h
theorem ret (f : FmtB) : Statement (.ret f) := by
  intro h c hc; cases hc
  show decodeCtl (f.toWord _) = _
  unfold decodeCtl
  rw [FmtB.opByte_toWord, FmtB.ofWord_toWord]
  exact check h
theorem jmpi (f : FmtB) : Statement (.jmpi f) := by
  intro h c hc; cases hc
  show decodeCtl (f.toWord _) = _
  unfold decodeCtl
  rw [FmtB.opByte_toWord, FmtB.ofWord_toWord]
  exact check h
theorem exit (f : FmtB) : Statement (.exit f) := by
  intro h c hc; cases hc
  show decodeCtl (f.toWord _) = _
  unfold decodeCtl
  rw [FmtB.opByte_toWord, FmtB.ofWord_toWord]
  exact check h
theorem region (f : FmtB) : Statement (.region f) := by
  intro h c hc; cases hc
  show decodeCtl (f.toWord _) = _
  unfold decodeCtl
  rw [FmtB.opByte_toWord, FmtB.ofWord_toWord]
  exact check h
theorem yield (f : FmtS) : Statement (.yield f) := by
  intro h c hc; cases hc
  show decodeCtl (f.toWord _) = _
  unfold decodeCtl
  rw [FmtS.opByte_toWord, FmtS.ofWord_toWord]
  exact checkS_eq h
theorem trap (f : FmtS) : Statement (.trap f) := by
  intro h c hc; cases hc
  show decodeCtl (f.toWord _) = _
  unfold decodeCtl
  rw [FmtS.opByte_toWord, FmtS.ofWord_toWord]
  exact checkS_eq h
theorem brk (f : FmtS) : Statement (.brk f) := by
  intro h c hc; cases hc
  show decodeCtl (f.toWord _) = _
  unfold decodeCtl
  rw [FmtS.opByte_toWord, FmtS.ofWord_toWord]
  exact checkS_eq h
theorem spawn (f : FmtB) : Statement (.spawn f) := by
  intro h c hc; cases hc
  show decodeCtl (f.toWord _) = _
  unfold decodeCtl
  rw [FmtB.opByte_toWord, FmtB.ofWord_toWord]
  exact check h
theorem deal (f : FmtB) : Statement (.deal f) := by
  intro h c hc; cases hc
  show decodeCtl (f.toWord _) = _
  unfold decodeCtl
  rw [FmtB.opByte_toWord, FmtB.ofWord_toWord]
  exact check h
theorem rdsr (f : FmtS) : Statement (.rdsr f) := by
  intro h c hc; cases hc
  show decodeCtl (f.toWord _) = _
  unfold decodeCtl
  rw [FmtS.opByte_toWord, FmtS.ofWord_toWord]
  exact checkS_eq h
theorem wrsr (f : FmtS) : Statement (.wrsr f) := by
  intro h c hc; cases hc
  show decodeCtl (f.toWord _) = _
  unfold decodeCtl
  rw [FmtS.opByte_toWord, FmtS.ofWord_toWord]
  exact checkS_eq h
theorem fmode (f : FmtS) : Statement (.fmode f) := by
  intro h c hc; cases hc
  show decodeCtl (f.toWord _) = _
  unfold decodeCtl
  rw [FmtS.opByte_toWord, FmtS.ofWord_toWord]
  exact checkS_eq h
theorem iadd (f : FmtV) : Statement (.iadd f) := by
  intro h c hc; cases hc
  show decodeInt (f.toWord _) = _
  unfold decodeInt
  rw [FmtV.opByte_toWord, FmtV.ofWord_toWord]
  exact check h
theorem iaddImm (f : FmtI) : Statement (.iaddImm f) := by
  intro h c hc; cases hc
  show decodeInt (f.toWord _) = _
  unfold decodeInt
  rw [FmtI.opByte_toWord, FmtI.ofWord_toWord]
  exact checkI_eq h
theorem isub (f : FmtV) : Statement (.isub f) := by
  intro h c hc; cases hc
  show decodeInt (f.toWord _) = _
  unfold decodeInt
  rw [FmtV.opByte_toWord, FmtV.ofWord_toWord]
  exact check h
theorem isubImm (f : FmtI) : Statement (.isubImm f) := by
  intro h c hc; cases hc
  show decodeInt (f.toWord _) = _
  unfold decodeInt
  rw [FmtI.opByte_toWord, FmtI.ofWord_toWord]
  exact checkI_eq h
theorem imul (f : FmtV) : Statement (.imul f) := by
  intro h c hc; cases hc
  show decodeInt (f.toWord _) = _
  unfold decodeInt
  rw [FmtV.opByte_toWord, FmtV.ofWord_toWord]
  exact check h
theorem imulImm (f : FmtI) : Statement (.imulImm f) := by
  intro h c hc; cases hc
  show decodeInt (f.toWord _) = _
  unfold decodeInt
  rw [FmtI.opByte_toWord, FmtI.ofWord_toWord]
  exact checkI_eq h
theorem imulh (f : FmtV) : Statement (.imulh f) := by
  intro h c hc; cases hc
  show decodeInt (f.toWord _) = _
  unfold decodeInt
  rw [FmtV.opByte_toWord, FmtV.ofWord_toWord]
  exact check h
theorem imad (f : FmtV) : Statement (.imad f) := by
  intro h c hc; cases hc
  show decodeInt (f.toWord _) = _
  unfold decodeInt
  rw [FmtV.opByte_toWord, FmtV.ofWord_toWord]
  exact check h
theorem imin (f : FmtV) : Statement (.imin f) := by
  intro h c hc; cases hc
  show decodeInt (f.toWord _) = _
  unfold decodeInt
  rw [FmtV.opByte_toWord, FmtV.ofWord_toWord]
  exact check h
theorem iminImm (f : FmtI) : Statement (.iminImm f) := by
  intro h c hc; cases hc
  show decodeInt (f.toWord _) = _
  unfold decodeInt
  rw [FmtI.opByte_toWord, FmtI.ofWord_toWord]
  exact checkI_eq h
theorem imax (f : FmtV) : Statement (.imax f) := by
  intro h c hc; cases hc
  show decodeInt (f.toWord _) = _
  unfold decodeInt
  rw [FmtV.opByte_toWord, FmtV.ofWord_toWord]
  exact check h
theorem imaxImm (f : FmtI) : Statement (.imaxImm f) := by
  intro h c hc; cases hc
  show decodeInt (f.toWord _) = _
  unfold decodeInt
  rw [FmtI.opByte_toWord, FmtI.ofWord_toWord]
  exact checkI_eq h
theorem iabs (f : FmtV) : Statement (.iabs f) := by
  intro h c hc; cases hc
  show decodeInt (f.toWord _) = _
  unfold decodeInt
  rw [FmtV.opByte_toWord, FmtV.ofWord_toWord]
  exact check h
theorem ineg (f : FmtV) : Statement (.ineg f) := by
  intro h c hc; cases hc
  show decodeInt (f.toWord _) = _
  unfold decodeInt
  rw [FmtV.opByte_toWord, FmtV.ofWord_toWord]
  exact check h
theorem land (f : FmtV) : Statement (.land f) := by
  intro h c hc; cases hc
  show decodeInt (f.toWord _) = _
  unfold decodeInt
  rw [FmtV.opByte_toWord, FmtV.ofWord_toWord]
  exact check h
theorem landImm (f : FmtI) : Statement (.landImm f) := by
  intro h c hc; cases hc
  show decodeInt (f.toWord _) = _
  unfold decodeInt
  rw [FmtI.opByte_toWord, FmtI.ofWord_toWord]
  exact checkI_eq h
theorem lor (f : FmtV) : Statement (.lor f) := by
  intro h c hc; cases hc
  show decodeInt (f.toWord _) = _
  unfold decodeInt
  rw [FmtV.opByte_toWord, FmtV.ofWord_toWord]
  exact check h
theorem lorImm (f : FmtI) : Statement (.lorImm f) := by
  intro h c hc; cases hc
  show decodeInt (f.toWord _) = _
  unfold decodeInt
  rw [FmtI.opByte_toWord, FmtI.ofWord_toWord]
  exact checkI_eq h
theorem lxor (f : FmtV) : Statement (.lxor f) := by
  intro h c hc; cases hc
  show decodeInt (f.toWord _) = _
  unfold decodeInt
  rw [FmtV.opByte_toWord, FmtV.ofWord_toWord]
  exact check h
theorem lxorImm (f : FmtI) : Statement (.lxorImm f) := by
  intro h c hc; cases hc
  show decodeInt (f.toWord _) = _
  unfold decodeInt
  rw [FmtI.opByte_toWord, FmtI.ofWord_toWord]
  exact checkI_eq h
theorem lnot (f : FmtV) : Statement (.lnot f) := by
  intro h c hc; cases hc
  show decodeInt (f.toWord _) = _
  unfold decodeInt
  rw [FmtV.opByte_toWord, FmtV.ofWord_toWord]
  exact check h
theorem landn (f : FmtV) : Statement (.landn f) := by
  intro h c hc; cases hc
  show decodeInt (f.toWord _) = _
  unfold decodeInt
  rw [FmtV.opByte_toWord, FmtV.ofWord_toWord]
  exact check h
theorem landnImm (f : FmtI) : Statement (.landnImm f) := by
  intro h c hc; cases hc
  show decodeInt (f.toWord _) = _
  unfold decodeInt
  rw [FmtI.opByte_toWord, FmtI.ofWord_toWord]
  exact checkI_eq h
theorem shl (f : FmtV) : Statement (.shl f) := by
  intro h c hc; cases hc
  show decodeInt (f.toWord _) = _
  unfold decodeInt
  rw [FmtV.opByte_toWord, FmtV.ofWord_toWord]
  exact check h
theorem shlImm (f : FmtI) : Statement (.shlImm f) := by
  intro h c hc; cases hc
  show decodeInt (f.toWord _) = _
  unfold decodeInt
  rw [FmtI.opByte_toWord, FmtI.ofWord_toWord]
  exact checkI_eq h
theorem shr (f : FmtV) : Statement (.shr f) := by
  intro h c hc; cases hc
  show decodeInt (f.toWord _) = _
  unfold decodeInt
  rw [FmtV.opByte_toWord, FmtV.ofWord_toWord]
  exact check h
theorem shrImm (f : FmtI) : Statement (.shrImm f) := by
  intro h c hc; cases hc
  show decodeInt (f.toWord _) = _
  unfold decodeInt
  rw [FmtI.opByte_toWord, FmtI.ofWord_toWord]
  exact checkI_eq h
theorem sar (f : FmtV) : Statement (.sar f) := by
  intro h c hc; cases hc
  show decodeInt (f.toWord _) = _
  unfold decodeInt
  rw [FmtV.opByte_toWord, FmtV.ofWord_toWord]
  exact check h
theorem sarImm (f : FmtI) : Statement (.sarImm f) := by
  intro h c hc; cases hc
  show decodeInt (f.toWord _) = _
  unfold decodeInt
  rw [FmtI.opByte_toWord, FmtI.ofWord_toWord]
  exact checkI_eq h
theorem rol (f : FmtV) : Statement (.rol f) := by
  intro h c hc; cases hc
  show decodeInt (f.toWord _) = _
  unfold decodeInt
  rw [FmtV.opByte_toWord, FmtV.ofWord_toWord]
  exact check h
theorem rolImm (f : FmtI) : Statement (.rolImm f) := by
  intro h c hc; cases hc
  show decodeInt (f.toWord _) = _
  unfold decodeInt
  rw [FmtI.opByte_toWord, FmtI.ofWord_toWord]
  exact checkI_eq h
theorem ror (f : FmtV) : Statement (.ror f) := by
  intro h c hc; cases hc
  show decodeInt (f.toWord _) = _
  unfold decodeInt
  rw [FmtV.opByte_toWord, FmtV.ofWord_toWord]
  exact check h
theorem rorImm (f : FmtI) : Statement (.rorImm f) := by
  intro h c hc; cases hc
  show decodeInt (f.toWord _) = _
  unfold decodeInt
  rw [FmtI.opByte_toWord, FmtI.ofWord_toWord]
  exact checkI_eq h
theorem popc (f : FmtV) : Statement (.popc f) := by
  intro h c hc; cases hc
  show decodeInt (f.toWord _) = _
  unfold decodeInt
  rw [FmtV.opByte_toWord, FmtV.ofWord_toWord]
  exact check h
theorem clz (f : FmtV) : Statement (.clz f) := by
  intro h c hc; cases hc
  show decodeInt (f.toWord _) = _
  unfold decodeInt
  rw [FmtV.opByte_toWord, FmtV.ofWord_toWord]
  exact check h
theorem ctz (f : FmtV) : Statement (.ctz f) := by
  intro h c hc; cases hc
  show decodeInt (f.toWord _) = _
  unfold decodeInt
  rw [FmtV.opByte_toWord, FmtV.ofWord_toWord]
  exact check h
theorem brev (f : FmtV) : Statement (.brev f) := by
  intro h c hc; cases hc
  show decodeInt (f.toWord _) = _
  unfold decodeInt
  rw [FmtV.opByte_toWord, FmtV.ofWord_toWord]
  exact check h
theorem bfx (f : FmtV) : Statement (.bfx f) := by
  intro h c hc; cases hc
  show decodeInt (f.toWord _) = _
  unfold decodeInt
  rw [FmtV.opByte_toWord, FmtV.ofWord_toWord]
  exact check h
theorem bfi (f : FmtV) : Statement (.bfi f) := by
  intro h c hc; cases hc
  show decodeInt (f.toWord _) = _
  unfold decodeInt
  rw [FmtV.opByte_toWord, FmtV.ofWord_toWord]
  exact check h
theorem icmp (f : FmtV) : Statement (.icmp f) := by
  intro h c hc; cases hc
  show decodeInt (f.toWord _) = _
  unfold decodeInt
  rw [FmtV.opByte_toWord, FmtV.ofWord_toWord]
  exact check h
theorem icmpImm (f : FmtI) : Statement (.icmpImm f) := by
  intro h c hc; cases hc
  show decodeInt (f.toWord _) = _
  unfold decodeInt
  rw [FmtI.opByte_toWord, FmtI.ofWord_toWord]
  exact checkI_eq h
theorem sel (f : FmtV) : Statement (.sel f) := by
  intro h c hc; cases hc
  show decodeInt (f.toWord _) = _
  unfold decodeInt
  rw [FmtV.opByte_toWord, FmtV.ofWord_toWord]
  exact check h
theorem mov (f : FmtV) : Statement (.mov f) := by
  intro h c hc; cases hc
  show decodeInt (f.toWord _) = _
  unfold decodeInt
  rw [FmtV.opByte_toWord, FmtV.ofWord_toWord]
  exact check h
theorem movi (f : FmtI) : Statement (.movi f) := by
  intro h c hc; cases hc
  show decodeInt (f.toWord _) = _
  unfold decodeInt
  rw [FmtI.opByte_toWord, FmtI.ofWord_toWord]
  exact checkI_eq h
theorem lea (f : FmtV) : Statement (.lea f) := by
  intro h c hc; cases hc
  show decodeInt (f.toWord _) = _
  unfold decodeInt
  rw [FmtV.opByte_toWord, FmtV.ofWord_toWord]
  exact check h
theorem leaImm (f : FmtI) : Statement (.leaImm f) := by
  intro h c hc; cases hc
  show decodeInt (f.toWord _) = _
  unfold decodeInt
  rw [FmtI.opByte_toWord, FmtI.ofWord_toWord]
  exact checkI_eq h
theorem iaddw (f : FmtV) : Statement (.iaddw f) := by
  intro h c hc; cases hc
  show decodeInt (f.toWord _) = _
  unfold decodeInt
  rw [FmtV.opByte_toWord, FmtV.ofWord_toWord]
  exact check h
theorem iaddwImm (f : FmtI) : Statement (.iaddwImm f) := by
  intro h c hc; cases hc
  show decodeInt (f.toWord _) = _
  unfold decodeInt
  rw [FmtI.opByte_toWord, FmtI.ofWord_toWord]
  exact checkI_eq h
theorem isubw (f : FmtV) : Statement (.isubw f) := by
  intro h c hc; cases hc
  show decodeInt (f.toWord _) = _
  unfold decodeInt
  rw [FmtV.opByte_toWord, FmtV.ofWord_toWord]
  exact check h
theorem icmpw (f : FmtV) : Statement (.icmpw f) := by
  intro h c hc; cases hc
  show decodeInt (f.toWord _) = _
  unfold decodeInt
  rw [FmtV.opByte_toWord, FmtV.ofWord_toWord]
  exact check h
theorem mort (f : FmtV) : Statement (.mort f) := by
  intro h c hc; cases hc
  show decodeInt (f.toWord _) = _
  unfold decodeInt
  rw [FmtV.opByte_toWord, FmtV.ofWord_toWord]
  exact check h
theorem unmort (f : FmtV) : Statement (.unmort f) := by
  intro h c hc; cases hc
  show decodeInt (f.toWord _) = _
  unfold decodeInt
  rw [FmtV.opByte_toWord, FmtV.ofWord_toWord]
  exact check h
theorem prmt (f : FmtV) : Statement (.prmt f) := by
  intro h c hc; cases hc
  show decodeInt (f.toWord _) = _
  unfold decodeInt
  rw [FmtV.opByte_toWord, FmtV.ofWord_toWord]
  exact check h
theorem fadd (f : FmtV) : Statement (.fadd f) := by
  intro h c hc; cases hc
  show decodeFlt (f.toWord _) = _
  unfold decodeFlt
  rw [FmtV.opByte_toWord, FmtV.ofWord_toWord]
  exact check h
theorem faddImm (f : FmtI) : Statement (.faddImm f) := by
  intro h c hc; cases hc
  show decodeFlt (f.toWord _) = _
  unfold decodeFlt
  rw [FmtI.opByte_toWord, FmtI.ofWord_toWord]
  exact checkI_eq h
theorem fsub (f : FmtV) : Statement (.fsub f) := by
  intro h c hc; cases hc
  show decodeFlt (f.toWord _) = _
  unfold decodeFlt
  rw [FmtV.opByte_toWord, FmtV.ofWord_toWord]
  exact check h
theorem fmul (f : FmtV) : Statement (.fmul f) := by
  intro h c hc; cases hc
  show decodeFlt (f.toWord _) = _
  unfold decodeFlt
  rw [FmtV.opByte_toWord, FmtV.ofWord_toWord]
  exact check h
theorem fmulImm (f : FmtI) : Statement (.fmulImm f) := by
  intro h c hc; cases hc
  show decodeFlt (f.toWord _) = _
  unfold decodeFlt
  rw [FmtI.opByte_toWord, FmtI.ofWord_toWord]
  exact checkI_eq h
theorem ffma (f : FmtV) : Statement (.ffma f) := by
  intro h c hc; cases hc
  show decodeFlt (f.toWord _) = _
  unfold decodeFlt
  rw [FmtV.opByte_toWord, FmtV.ofWord_toWord]
  exact check h
theorem ffmaImm (f : FmtI) : Statement (.ffmaImm f) := by
  intro h c hc; cases hc
  show decodeFlt (f.toWord _) = _
  unfold decodeFlt
  rw [FmtI.opByte_toWord, FmtI.ofWord_toWord]
  exact checkI_eq h
theorem fmin (f : FmtV) : Statement (.fmin f) := by
  intro h c hc; cases hc
  show decodeFlt (f.toWord _) = _
  unfold decodeFlt
  rw [FmtV.opByte_toWord, FmtV.ofWord_toWord]
  exact check h
theorem fmax (f : FmtV) : Statement (.fmax f) := by
  intro h c hc; cases hc
  show decodeFlt (f.toWord _) = _
  unfold decodeFlt
  rw [FmtV.opByte_toWord, FmtV.ofWord_toWord]
  exact check h
theorem fcmp (f : FmtV) : Statement (.fcmp f) := by
  intro h c hc; cases hc
  show decodeFlt (f.toWord _) = _
  unfold decodeFlt
  rw [FmtV.opByte_toWord, FmtV.ofWord_toWord]
  exact check h
theorem fcmpImm (f : FmtI) : Statement (.fcmpImm f) := by
  intro h c hc; cases hc
  show decodeFlt (f.toWord _) = _
  unfold decodeFlt
  rw [FmtI.opByte_toWord, FmtI.ofWord_toWord]
  exact checkI_eq h
theorem fclass (f : FmtV) : Statement (.fclass f) := by
  intro h c hc; cases hc
  show decodeFlt (f.toWord _) = _
  unfold decodeFlt
  rw [FmtV.opByte_toWord, FmtV.ofWord_toWord]
  exact check h
theorem frnd (f : FmtV) : Statement (.frnd f) := by
  intro h c hc; cases hc
  show decodeFlt (f.toWord _) = _
  unfold decodeFlt
  rw [FmtV.opByte_toWord, FmtV.ofWord_toWord]
  exact check h
theorem fdot2 (f : FmtV) : Statement (.fdot2 f) := by
  intro h c hc; cases hc
  show decodeFlt (f.toWord _) = _
  unfold decodeFlt
  rw [FmtV.opByte_toWord, FmtV.ofWord_toWord]
  exact check h
theorem fscale (f : FmtV) : Statement (.fscale f) := by
  intro h c hc; cases hc
  show decodeFlt (f.toWord _) = _
  unfold decodeFlt
  rw [FmtV.opByte_toWord, FmtV.ofWord_toWord]
  exact check h
theorem rcp (f : FmtV) : Statement (.rcp f) := by
  intro h c hc; cases hc
  show decodeSfu (f.toWord _) = _
  unfold decodeSfu
  rw [FmtV.opByte_toWord, FmtV.ofWord_toWord]
  exact check h
theorem rsq (f : FmtV) : Statement (.rsq f) := by
  intro h c hc; cases hc
  show decodeSfu (f.toWord _) = _
  unfold decodeSfu
  rw [FmtV.opByte_toWord, FmtV.ofWord_toWord]
  exact check h
theorem sqrt (f : FmtV) : Statement (.sqrt f) := by
  intro h c hc; cases hc
  show decodeSfu (f.toWord _) = _
  unfold decodeSfu
  rw [FmtV.opByte_toWord, FmtV.ofWord_toWord]
  exact check h
theorem exp2 (f : FmtV) : Statement (.exp2 f) := by
  intro h c hc; cases hc
  show decodeSfu (f.toWord _) = _
  unfold decodeSfu
  rw [FmtV.opByte_toWord, FmtV.ofWord_toWord]
  exact check h
theorem log2 (f : FmtV) : Statement (.log2 f) := by
  intro h c hc; cases hc
  show decodeSfu (f.toWord _) = _
  unfold decodeSfu
  rw [FmtV.opByte_toWord, FmtV.ofWord_toWord]
  exact check h
theorem sin (f : FmtV) : Statement (.sin f) := by
  intro h c hc; cases hc
  show decodeSfu (f.toWord _) = _
  unfold decodeSfu
  rw [FmtV.opByte_toWord, FmtV.ofWord_toWord]
  exact check h
theorem cos (f : FmtV) : Statement (.cos f) := by
  intro h c hc; cases hc
  show decodeSfu (f.toWord _) = _
  unfold decodeSfu
  rw [FmtV.opByte_toWord, FmtV.ofWord_toWord]
  exact check h
theorem tanh (f : FmtV) : Statement (.tanh f) := by
  intro h c hc; cases hc
  show decodeSfu (f.toWord _) = _
  unfold decodeSfu
  rw [FmtV.opByte_toWord, FmtV.ofWord_toWord]
  exact check h
theorem fdiv (f : FmtV) : Statement (.fdiv f) := by
  intro h c hc; cases hc
  show decodeSfu (f.toWord _) = _
  unfold decodeSfu
  rw [FmtV.opByte_toWord, FmtV.ofWord_toWord]
  exact check h
theorem idiv (f : FmtV) : Statement (.idiv f) := by
  intro h c hc; cases hc
  show decodeSfu (f.toWord _) = _
  unfold decodeSfu
  rw [FmtV.opByte_toWord, FmtV.ofWord_toWord]
  exact check h
theorem irem (f : FmtV) : Statement (.irem f) := by
  intro h c hc; cases hc
  show decodeSfu (f.toWord _) = _
  unfold decodeSfu
  rw [FmtV.opByte_toWord, FmtV.ofWord_toWord]
  exact check h
theorem cvt (f : FmtV) : Statement (.cvt f) := by
  intro h c hc; cases hc
  show decodeCvt (f.toWord _) = _
  unfold decodeCvt
  rw [FmtV.opByte_toWord, FmtV.ofWord_toWord]
  exact check h
theorem pack (f : FmtV) : Statement (.pack f) := by
  intro h c hc; cases hc
  show decodeCvt (f.toWord _) = _
  unfold decodeCvt
  rw [FmtV.opByte_toWord, FmtV.ofWord_toWord]
  exact check h
theorem unpk (f : FmtV) : Statement (.unpk f) := by
  intro h c hc; cases hc
  show decodeCvt (f.toWord _) = _
  unfold decodeCvt
  rw [FmtV.opByte_toWord, FmtV.ofWord_toWord]
  exact check h
theorem qmx (f : FmtV) : Statement (.qmx f) := by
  intro h c hc; cases hc
  show decodeCvt (f.toWord _) = _
  unfold decodeCvt
  rw [FmtV.opByte_toWord, FmtV.ofWord_toWord]
  exact check h
theorem dqmx (f : FmtV) : Statement (.dqmx f) := by
  intro h c hc; cases hc
  show decodeCvt (f.toWord _) = _
  unfold decodeCvt
  rw [FmtV.opByte_toWord, FmtV.ofWord_toWord]
  exact check h
theorem qply (f : FmtV) : Statement (.qply f) := by
  intro h c hc; cases hc
  show decodeCvt (f.toWord _) = _
  unfold decodeCvt
  rw [FmtV.opByte_toWord, FmtV.ofWord_toWord]
  exact check h
theorem dqply (f : FmtV) : Statement (.dqply f) := by
  intro h c hc; cases hc
  show decodeCvt (f.toWord _) = _
  unfold decodeCvt
  rw [FmtV.opByte_toWord, FmtV.ofWord_toWord]
  exact check h
theorem kmov (f : FmtV) : Statement (.kmov f) := by
  intro h c hc; cases hc
  show decodeCvt (f.toWord _) = _
  unfold decodeCvt
  rw [FmtV.opByte_toWord, FmtV.ofWord_toWord]
  exact check h
theorem perm (f : FmtV) : Statement (.perm f) := by
  intro h c hc; cases hc
  show decodeLane (f.toWord _) = _
  unfold decodeLane
  rw [FmtV.opByte_toWord, FmtV.ofWord_toWord]
  exact check h
theorem shfl (f : FmtV) : Statement (.shfl f) := by
  intro h c hc; cases hc
  show decodeLane (f.toWord _) = _
  unfold decodeLane
  rw [FmtV.opByte_toWord, FmtV.ofWord_toWord]
  exact check h
theorem bcast (f : FmtV) : Statement (.bcast f) := by
  intro h c hc; cases hc
  show decodeLane (f.toWord _) = _
  unfold decodeLane
  rw [FmtV.opByte_toWord, FmtV.ofWord_toWord]
  exact check h
theorem votea (f : FmtV) : Statement (.votea f) := by
  intro h c hc; cases hc
  show decodeLane (f.toWord _) = _
  unfold decodeLane
  rw [FmtV.opByte_toWord, FmtV.ofWord_toWord]
  exact check h
theorem votey (f : FmtV) : Statement (.votey f) := by
  intro h c hc; cases hc
  show decodeLane (f.toWord _) = _
  unfold decodeLane
  rw [FmtV.opByte_toWord, FmtV.ofWord_toWord]
  exact check h
theorem ballot (f : FmtV) : Statement (.ballot f) := by
  intro h c hc; cases hc
  show decodeLane (f.toWord _) = _
  unfold decodeLane
  rw [FmtV.opByte_toWord, FmtV.ofWord_toWord]
  exact check h
theorem scan (f : FmtV) : Statement (.scan f) := by
  intro h c hc; cases hc
  show decodeLane (f.toWord _) = _
  unfold decodeLane
  rw [FmtV.opByte_toWord, FmtV.ofWord_toWord]
  exact check h
theorem redi (f : FmtV) : Statement (.redi f) := by
  intro h c hc; cases hc
  show decodeLane (f.toWord _) = _
  unfold decodeLane
  rw [FmtV.opByte_toWord, FmtV.ofWord_toWord]
  exact check h
theorem xadd (f : FmtV) : Statement (.xadd f) := by
  intro h c hc; cases hc
  show decodeLane (f.toWord _) = _
  unfold decodeLane
  rw [FmtV.opByte_toWord, FmtV.ofWord_toWord]
  exact check h
theorem xrnd (f : FmtV) : Statement (.xrnd f) := by
  intro h c hc; cases hc
  show decodeLane (f.toWord _) = _
  unfold decodeLane
  rw [FmtV.opByte_toWord, FmtV.ofWord_toWord]
  exact check h
theorem xclr (f : FmtV) : Statement (.xclr f) := by
  intro h c hc; cases hc
  show decodeLane (f.toWord _) = _
  unfold decodeLane
  rw [FmtV.opByte_toWord, FmtV.ofWord_toWord]
  exact check h
theorem xld (f : FmtV) : Statement (.xld f) := by
  intro h c hc; cases hc
  show decodeLane (f.toWord _) = _
  unfold decodeLane
  rw [FmtV.opByte_toWord, FmtV.ofWord_toWord]
  exact check h
theorem xst (f : FmtV) : Statement (.xst f) := by
  intro h c hc; cases hc
  show decodeLane (f.toWord _) = _
  unfold decodeLane
  rw [FmtV.opByte_toWord, FmtV.ofWord_toWord]
  exact check h
theorem shape (f : FmtV) : Statement (.shape f) := by
  intro h c hc; cases hc
  show decodeLane (f.toWord _) = _
  unfold decodeLane
  rw [FmtV.opByte_toWord, FmtV.ofWord_toWord]
  exact check h
theorem ld (f : FmtM) : Statement (.ld f) := by
  intro h c hc; cases hc
  show decodeMem (f.toWord _) = _
  unfold decodeMem
  rw [FmtM.opByte_toWord, FmtM.ofWord_toWord]
  exact check h
theorem st (f : FmtM) : Statement (.st f) := by
  intro h c hc; cases hc
  show decodeMem (f.toWord _) = _
  unfold decodeMem
  rw [FmtM.opByte_toWord, FmtM.ofWord_toWord]
  exact check h
theorem lds (f : FmtM) : Statement (.lds f) := by
  intro h c hc; cases hc
  show decodeMem (f.toWord _) = _
  unfold decodeMem
  rw [FmtM.opByte_toWord, FmtM.ofWord_toWord]
  exact check h
theorem sts (f : FmtM) : Statement (.sts f) := by
  intro h c hc; cases hc
  show decodeMem (f.toWord _) = _
  unfold decodeMem
  rw [FmtM.opByte_toWord, FmtM.ofWord_toWord]
  exact check h
theorem phase (f : FmtM) : Statement (.phase f) := by
  intro h c hc; cases hc
  show decodeMem (f.toWord _) = _
  unfold decodeMem
  rw [FmtM.opByte_toWord, FmtM.ofWord_toWord]
  exact check h
theorem xfence (f : FmtM) : Statement (.xfence f) := by
  intro h c hc; cases hc
  show decodeMem (f.toWord _) = _
  unfold decodeMem
  rw [FmtM.opByte_toWord, FmtM.ofWord_toWord]
  exact check h
theorem pref (f : FmtM) : Statement (.pref f) := by
  intro h c hc; cases hc
  show decodeMem (f.toWord _) = _
  unfold decodeMem
  rw [FmtM.opByte_toWord, FmtM.ofWord_toWord]
  exact check h
theorem atomAdd (f : FmtM) : Statement (.atomAdd f) := by
  intro h c hc; cases hc
  show decodeMem (f.toWord _) = _
  unfold decodeMem
  rw [FmtM.opByte_toWord, FmtM.ofWord_toWord]
  exact check h
theorem atomSub (f : FmtM) : Statement (.atomSub f) := by
  intro h c hc; cases hc
  show decodeMem (f.toWord _) = _
  unfold decodeMem
  rw [FmtM.opByte_toWord, FmtM.ofWord_toWord]
  exact check h
theorem atomMin (f : FmtM) : Statement (.atomMin f) := by
  intro h c hc; cases hc
  show decodeMem (f.toWord _) = _
  unfold decodeMem
  rw [FmtM.opByte_toWord, FmtM.ofWord_toWord]
  exact check h
theorem atomMax (f : FmtM) : Statement (.atomMax f) := by
  intro h c hc; cases hc
  show decodeMem (f.toWord _) = _
  unfold decodeMem
  rw [FmtM.opByte_toWord, FmtM.ofWord_toWord]
  exact check h
theorem atomAnd (f : FmtM) : Statement (.atomAnd f) := by
  intro h c hc; cases hc
  show decodeMem (f.toWord _) = _
  unfold decodeMem
  rw [FmtM.opByte_toWord, FmtM.ofWord_toWord]
  exact check h
theorem atomOr (f : FmtM) : Statement (.atomOr f) := by
  intro h c hc; cases hc
  show decodeMem (f.toWord _) = _
  unfold decodeMem
  rw [FmtM.opByte_toWord, FmtM.ofWord_toWord]
  exact check h
theorem atomXor (f : FmtM) : Statement (.atomXor f) := by
  intro h c hc; cases hc
  show decodeMem (f.toWord _) = _
  unfold decodeMem
  rw [FmtM.opByte_toWord, FmtM.ofWord_toWord]
  exact check h
theorem atomXchg (f : FmtM) : Statement (.atomXchg f) := by
  intro h c hc; cases hc
  show decodeMem (f.toWord _) = _
  unfold decodeMem
  rw [FmtM.opByte_toWord, FmtM.ofWord_toWord]
  exact check h
theorem atomCas (f : FmtM) : Statement (.atomCas f) := by
  intro h c hc; cases hc
  show decodeMem (f.toWord _) = _
  unfold decodeMem
  rw [FmtM.opByte_toWord, FmtM.ofWord_toWord]
  exact check h
theorem atomInc (f : FmtM) : Statement (.atomInc f) := by
  intro h c hc; cases hc
  show decodeMem (f.toWord _) = _
  unfold decodeMem
  rw [FmtM.opByte_toWord, FmtM.ofWord_toWord]
  exact check h
theorem atomFadd (f : FmtM) : Statement (.atomFadd f) := by
  intro h c hc; cases hc
  show decodeMem (f.toWord _) = _
  unfold decodeMem
  rw [FmtM.opByte_toWord, FmtM.ofWord_toWord]
  exact check h
theorem atomFadd2 (f : FmtM) : Statement (.atomFadd2 f) := by
  intro h c hc; cases hc
  show decodeMem (f.toWord _) = _
  unfold decodeMem
  rw [FmtM.opByte_toWord, FmtM.ofWord_toWord]
  exact check h
theorem atomXam (f : FmtM) : Statement (.atomXam f) := by
  intro h c hc; cases hc
  show decodeMem (f.toWord _) = _
  unfold decodeMem
  rw [FmtM.opByte_toWord, FmtM.ofWord_toWord]
  exact check h
theorem atomLd (f : FmtM) : Statement (.atomLd f) := by
  intro h c hc; cases hc
  show decodeMem (f.toWord _) = _
  unfold decodeMem
  rw [FmtM.opByte_toWord, FmtM.ofWord_toWord]
  exact check h
theorem atomsAdd (f : FmtM) : Statement (.atomsAdd f) := by
  intro h c hc; cases hc
  show decodeMem (f.toWord _) = _
  unfold decodeMem
  rw [FmtM.opByte_toWord, FmtM.ofWord_toWord]
  exact check h
theorem atomsSub (f : FmtM) : Statement (.atomsSub f) := by
  intro h c hc; cases hc
  show decodeMem (f.toWord _) = _
  unfold decodeMem
  rw [FmtM.opByte_toWord, FmtM.ofWord_toWord]
  exact check h
theorem atomsMin (f : FmtM) : Statement (.atomsMin f) := by
  intro h c hc; cases hc
  show decodeMem (f.toWord _) = _
  unfold decodeMem
  rw [FmtM.opByte_toWord, FmtM.ofWord_toWord]
  exact check h
theorem atomsMax (f : FmtM) : Statement (.atomsMax f) := by
  intro h c hc; cases hc
  show decodeMem (f.toWord _) = _
  unfold decodeMem
  rw [FmtM.opByte_toWord, FmtM.ofWord_toWord]
  exact check h
theorem atomsAnd (f : FmtM) : Statement (.atomsAnd f) := by
  intro h c hc; cases hc
  show decodeMem (f.toWord _) = _
  unfold decodeMem
  rw [FmtM.opByte_toWord, FmtM.ofWord_toWord]
  exact check h
theorem atomsOr (f : FmtM) : Statement (.atomsOr f) := by
  intro h c hc; cases hc
  show decodeMem (f.toWord _) = _
  unfold decodeMem
  rw [FmtM.opByte_toWord, FmtM.ofWord_toWord]
  exact check h
theorem atomsXor (f : FmtM) : Statement (.atomsXor f) := by
  intro h c hc; cases hc
  show decodeMem (f.toWord _) = _
  unfold decodeMem
  rw [FmtM.opByte_toWord, FmtM.ofWord_toWord]
  exact check h
theorem atomsXchg (f : FmtM) : Statement (.atomsXchg f) := by
  intro h c hc; cases hc
  show decodeMem (f.toWord _) = _
  unfold decodeMem
  rw [FmtM.opByte_toWord, FmtM.ofWord_toWord]
  exact check h
theorem atomsCas (f : FmtM) : Statement (.atomsCas f) := by
  intro h c hc; cases hc
  show decodeMem (f.toWord _) = _
  unfold decodeMem
  rw [FmtM.opByte_toWord, FmtM.ofWord_toWord]
  exact check h
theorem atomsInc (f : FmtM) : Statement (.atomsInc f) := by
  intro h c hc; cases hc
  show decodeMem (f.toWord _) = _
  unfold decodeMem
  rw [FmtM.opByte_toWord, FmtM.ofWord_toWord]
  exact check h
theorem atomsFadd (f : FmtM) : Statement (.atomsFadd f) := by
  intro h c hc; cases hc
  show decodeMem (f.toWord _) = _
  unfold decodeMem
  rw [FmtM.opByte_toWord, FmtM.ofWord_toWord]
  exact check h
theorem atomsFadd2 (f : FmtM) : Statement (.atomsFadd2 f) := by
  intro h c hc; cases hc
  show decodeMem (f.toWord _) = _
  unfold decodeMem
  rw [FmtM.opByte_toWord, FmtM.ofWord_toWord]
  exact check h
theorem atomsXam (f : FmtM) : Statement (.atomsXam f) := by
  intro h c hc; cases hc
  show decodeMem (f.toWord _) = _
  unfold decodeMem
  rw [FmtM.opByte_toWord, FmtM.ofWord_toWord]
  exact check h
theorem atomsLd (f : FmtM) : Statement (.atomsLd f) := by
  intro h c hc; cases hc
  show decodeMem (f.toWord _) = _
  unfold decodeMem
  rw [FmtM.opByte_toWord, FmtM.ofWord_toWord]
  exact check h
theorem acp (f : FmtX) : Statement (.acp f) := by
  intro h c hc; cases hc
  show decodeAsy (f.toWord _) = _
  unfold decodeAsy
  rw [FmtX.opByte_toWord, FmtX.ofWord_toWord]
  exact check h
theorem aseal (f : FmtX) : Statement (.aseal f) := by
  intro h c hc; cases hc
  show decodeAsy (f.toWord _) = _
  unfold decodeAsy
  rw [FmtX.opByte_toWord, FmtX.ofWord_toWord]
  exact check h
theorem await (f : FmtX) : Statement (.await f) := by
  intro h c hc; cases hc
  show decodeAsy (f.toWord _) = _
  unfold decodeAsy
  rw [FmtX.opByte_toWord, FmtX.ofWord_toWord]
  exact check h
theorem bcp (f : FmtX) : Statement (.bcp f) := by
  intro h c hc; cases hc
  show decodeAsy (f.toWord _) = _
  unfold decodeAsy
  rw [FmtX.opByte_toWord, FmtX.ofWord_toWord]
  exact check h
theorem bxf (f : FmtX) : Statement (.bxf f) := by
  intro h c hc; cases hc
  show decodeAsy (f.toWord _) = _
  unfold decodeAsy
  rw [FmtX.opByte_toWord, FmtX.ofWord_toWord]
  exact check h
theorem qfen (f : FmtX) : Statement (.qfen f) := by
  intro h c hc; cases hc
  show decodeAsy (f.toWord _) = _
  unfold decodeAsy
  rw [FmtX.opByte_toWord, FmtX.ofWord_toWord]
  exact check h
theorem coll (f : FmtX) : Statement (.coll f) := by
  intro h c hc; cases hc
  show decodeAsy (f.toWord _) = _
  unfold decodeAsy
  rw [FmtX.opByte_toWord, FmtX.ofWord_toWord]
  exact check h
theorem astat (f : FmtX) : Statement (.astat f) := by
  intro h c hc; cases hc
  show decodeAsy (f.toWord _) = _
  unfold decodeAsy
  rw [FmtX.opByte_toWord, FmtX.ofWord_toWord]
  exact check h
theorem bari (f : FmtX) : Statement (.bari f) := by
  intro h c hc; cases hc
  show decodeSyn (f.toWord _) = _
  unfold decodeSyn
  rw [FmtX.opByte_toWord, FmtX.ofWord_toWord]
  exact check h
theorem bara (f : FmtX) : Statement (.bara f) := by
  intro h c hc; cases hc
  show decodeSyn (f.toWord _) = _
  unfold decodeSyn
  rw [FmtX.opByte_toWord, FmtX.ofWord_toWord]
  exact check h
theorem barw (f : FmtX) : Statement (.barw f) := by
  intro h c hc; cases hc
  show decodeSyn (f.toWord _) = _
  unfold decodeSyn
  rw [FmtX.opByte_toWord, FmtX.ofWord_toWord]
  exact check h
theorem barx (f : FmtX) : Statement (.barx f) := by
  intro h c hc; cases hc
  show decodeSyn (f.toWord _) = _
  unfold decodeSyn
  rw [FmtX.opByte_toWord, FmtX.ofWord_toWord]
  exact check h
theorem barc (f : FmtX) : Statement (.barc f) := by
  intro h c hc; cases hc
  show decodeSyn (f.toWord _) = _
  unfold decodeSyn
  rw [FmtX.opByte_toWord, FmtX.ofWord_toWord]
  exact check h
theorem waita (f : FmtX) : Statement (.waita f) := by
  intro h c hc; cases hc
  show decodeSyn (f.toWord _) = _
  unfold decodeSyn
  rw [FmtX.opByte_toWord, FmtX.ofWord_toWord]
  exact check h
theorem pipw (f : FmtX) : Statement (.pipw f) := by
  intro h c hc; cases hc
  show decodeSyn (f.toWord _) = _
  unfold decodeSyn
  rw [FmtX.opByte_toWord, FmtX.ofWord_toWord]
  exact check h
theorem barq (f : FmtX) : Statement (.barq f) := by
  intro h c hc; cases hc
  show decodeSyn (f.toWord _) = _
  unfold decodeSyn
  rw [FmtX.opByte_toWord, FmtX.ofWord_toWord]
  exact check h
theorem mma (f : FmtX) : Statement (.mma f) := by
  intro h c hc; cases hc
  show decodeMma (f.toWord _) = _
  unfold decodeMma
  rw [FmtX.opByte_toWord, FmtX.ofWord_toWord]
  exact check h
theorem mzero (f : FmtX) : Statement (.mzero f) := by
  intro h c hc; cases hc
  show decodeMma (f.toWord _) = _
  unfold decodeMma
  rw [FmtX.opByte_toWord, FmtX.ofWord_toWord]
  exact check h
theorem mdrain (f : FmtX) : Statement (.mdrain f) := by
  intro h c hc; cases hc
  show decodeMma (f.toWord _) = _
  unfold decodeMma
  rw [FmtX.opByte_toWord, FmtX.ofWord_toWord]
  exact check h
theorem mload (f : FmtX) : Statement (.mload f) := by
  intro h c hc; cases hc
  show decodeMma (f.toWord _) = _
  unfold decodeMma
  rw [FmtX.opByte_toWord, FmtX.ofWord_toWord]
  exact check h
theorem hkins (f : FmtX) : Statement (.hkins f) := by
  intro h c hc; cases hc
  show decodeHnk (f.toWord _) = _
  unfold decodeHnk
  rw [FmtX.opByte_toWord, FmtX.ofWord_toWord]
  exact check h
theorem hkdel (f : FmtX) : Statement (.hkdel f) := by
  intro h c hc; cases hc
  show decodeHnk (f.toWord _) = _
  unfold decodeHnk
  rw [FmtX.opByte_toWord, FmtX.ofWord_toWord]
  exact check h
theorem hkmove (f : FmtX) : Statement (.hkmove f) := by
  intro h c hc; cases hc
  show decodeHnk (f.toWord _) = _
  unfold decodeHnk
  rw [FmtX.opByte_toWord, FmtX.ofWord_toWord]
  exact check h
theorem hkupd (f : FmtX) : Statement (.hkupd f) := by
  intro h c hc; cases hc
  show decodeHnk (f.toWord _) = _
  unfold decodeHnk
  rw [FmtX.opByte_toWord, FmtX.ofWord_toWord]
  exact check h
theorem hkopen (f : FmtX) : Statement (.hkopen f) := by
  intro h c hc; cases hc
  show decodeHnk (f.toWord _) = _
  unfold decodeHnk
  rw [FmtX.opByte_toWord, FmtX.ofWord_toWord]
  exact check h
theorem hknext (f : FmtX) : Statement (.hknext f) := by
  intro h c hc; cases hc
  show decodeHnk (f.toWord _) = _
  unfold decodeHnk
  rw [FmtX.opByte_toWord, FmtX.ofWord_toWord]
  exact check h
theorem hkclose (f : FmtX) : Statement (.hkclose f) := by
  intro h c hc; cases hc
  show decodeHnk (f.toWord _) = _
  unfold decodeHnk
  rw [FmtX.opByte_toWord, FmtX.ofWord_toWord]
  exact check h
theorem hkcount (f : FmtX) : Statement (.hkcount f) := by
  intro h c hc; cases hc
  show decodeHnk (f.toWord _) = _
  unfold decodeHnk
  rw [FmtX.opByte_toWord, FmtX.ofWord_toWord]
  exact check h
theorem hkfind (f : FmtX) : Statement (.hkfind f) := by
  intro h c hc; cases hc
  show decodeHnk (f.toWord _) = _
  unfold decodeHnk
  rw [FmtX.opByte_toWord, FmtX.ofWord_toWord]
  exact check h
theorem hknbr (f : FmtX) : Statement (.hknbr f) := by
  intro h c hc; cases hc
  show decodeHnk (f.toWord _) = _
  unfold decodeHnk
  rw [FmtX.opByte_toWord, FmtX.ofWord_toWord]
  exact check h
theorem hkrank (f : FmtX) : Statement (.hkrank f) := by
  intro h c hc; cases hc
  have e : f.ctrl.getLsbD 0 = false := by
    simp only [Instr.wf, Bool.and_eq_true, beq_iff_eq] at h; rw [h.2]; rfl
  show decodeHnk (f.toWord _) = _
  unfold decodeHnk
  rw [FmtX.opByte_toWord, FmtX.ofWord_toWord, FmtX.low_toWord, e]
  exact check h
theorem hkrankThaw (f : FmtX) : Statement (.hkrankThaw f) := by
  intro h c hc; cases hc
  have e : f.ctrl.getLsbD 0 = true := by
    simp only [Instr.wf, Bool.and_eq_true, beq_iff_eq] at h; rw [h.2]; rfl
  show decodeHnk (f.toWord _) = _
  unfold decodeHnk
  rw [FmtX.opByte_toWord, FmtX.ofWord_toWord, FmtX.low_toWord, e]
  exact check h
theorem hkstat (f : FmtX) : Statement (.hkstat f) := by
  intro h c hc; cases hc
  show decodeHnk (f.toWord _) = _
  unfold decodeHnk
  rw [FmtX.opByte_toWord, FmtX.ofWord_toWord]
  exact check h
theorem bqry (f : FmtX) : Statement (.bqry f) := by
  intro h c hc; cases hc
  show decodeBem (f.toWord _) = _
  unfold decodeBem
  rw [FmtX.opByte_toWord, FmtX.ofWord_toWord]
  exact check h
theorem bpop (f : FmtX) : Statement (.bpop f) := by
  intro h c hc; cases hc
  show decodeBem (f.toWord _) = _
  unfold decodeBem
  rw [FmtX.opByte_toWord, FmtX.ofWord_toWord]
  exact check h
theorem bstat (f : FmtX) : Statement (.bstat f) := by
  intro h c hc; cases hc
  have e : f.ctrl.getLsbD 0 = false := by
    simp only [Instr.wf, Bool.and_eq_true, beq_iff_eq] at h; rw [h.2]; rfl
  show decodeBem (f.toWord _) = _
  unfold decodeBem
  rw [FmtX.opByte_toWord, FmtX.ofWord_toWord, FmtX.low_toWord, e]
  exact check h
theorem bstatRelease (f : FmtX) : Statement (.bstatRelease f) := by
  intro h c hc; cases hc
  have e : f.ctrl.getLsbD 0 = true := by
    simp only [Instr.wf, Bool.and_eq_true, beq_iff_eq] at h; rw [h.2]; rfl
  show decodeBem (f.toWord _) = _
  unfold decodeBem
  rw [FmtX.opByte_toWord, FmtX.ofWord_toWord, FmtX.low_toWord, e]
  exact check h

end Sys2Proof.Laws.RoundTrip
end

