-- ==== Sys2Proof/Laws/Storage.lean ====
section
/-! SUPPORT. Every shared operation keeps storage in its canonical form: those over memory, pads, caches and rows by what they write, those
over units, groups and launches because they touch no storage. -/

namespace Sys2Proof.Machine

/-- Two states hold the same storage. -/
structure State.SameStorage (s t : State) : Prop where
  mem : t.mem = s.mem
  pad : t.pad = s.pad
  l1 : t.l1 = s.l1
  l2 : t.l2 = s.l2
  rows : t.rows = s.rows

theorem State.SameStorage.refl (s : State) : s.SameStorage s := ⟨rfl, rfl, rfl, rfl, rfl⟩

theorem State.SameStorage.trans {s t w : State} (h : s.SameStorage t) (k : t.SameStorage w) : s.SameStorage w :=
  ⟨k.mem.trans h.mem, k.pad.trans h.pad, k.l1.trans h.l1, k.l2.trans h.l2, k.rows.trans h.rows⟩

/-- The canonical form depends on storage alone. -/
theorem State.Inv.of_same {s t : State} (h : s.Inv) (k : s.SameStorage t) : t.Inv :=
  ⟨k.mem ▸ h.mem, k.pad ▸ h.pad, k.l1 ▸ h.l1, k.l2 ▸ h.l2, k.rows ▸ h.rows⟩

/-- A fold of steps that touch no storage. -/
theorem State.SameStorage.foldl {α : Type} (f : State → α → State) (hf : ∀ (s : State) (a : α), s.SameStorage (f s a)) (l : List α) (s : State) :
    s.SameStorage (l.foldl f s) := by
  induction l generalizing s with
  | nil => exact .refl s
  | cons a l ih => exact (hf s a).trans (ih _)

/-- A fold of steps that keep the canonical form. -/
theorem State.Inv.foldl {α : Type} (f : State → α → State) (hf : ∀ (s : State) (a : α), s.Inv → (f s a).Inv) (l : List α) {s : State} (h : s.Inv) :
    (l.foldl f s).Inv := by
  induction l generalizing s with
  | nil => exact h
  | cons a l ih => exact ih (hf s a h)

/-- What no storage changes: the updates of the tables. -/
theorem State.same_updUnit (s : State) (id : Nat) (f : SUnit → SUnit) : s.SameStorage (s.updUnit id f) := ⟨rfl, rfl, rfl, rfl, rfl⟩
theorem State.same_putUnit (s : State) (u : SUnit) : s.SameStorage (s.putUnit u) := ⟨rfl, rfl, rfl, rfl, rfl⟩
theorem State.same_updLaunch (s : State) (id : Nat) (f : Launch → Launch) : s.SameStorage (s.updLaunch id f) := ⟨rfl, rfl, rfl, rfl, rfl⟩
theorem State.same_updGroup (s : State) (id : Nat) (f : Group → Group) : s.SameStorage (s.updGroup id f) := ⟨rfl, rfl, rfl, rfl, rfl⟩
theorem State.same_updPend (s : State) (id : Nat) (f : PendOp → PendOp) : s.SameStorage (s.updPend id f) := ⟨rfl, rfl, rfl, rfl, rfl⟩
theorem State.same_fresh (s : State) : s.SameStorage s.fresh.2 := ⟨rfl, rfl, rfl, rfl, rfl⟩
theorem State.same_draw (s : State) : s.SameStorage s.draw.2 := ⟨rfl, rfl, rfl, rfl, rfl⟩
theorem State.same_settleDuties (s : State) : s.SameStorage s.settleDuties := ⟨rfl, rfl, rfl, rfl, rfl⟩
theorem State.same_removeUnit (s : State) (id : Nat) : s.SameStorage (s.removeUnit id) := ⟨rfl, rfl, rfl, rfl, rfl⟩
theorem State.same_retarget (s : State) (old : Nat) (new : List Nat) : s.SameStorage (s.retarget old new) := ⟨rfl, rfl, rfl, rfl, rfl⟩
theorem State.same_dropPend (s : State) (id : Nat) : s.SameStorage (s.dropPend id) := ⟨rfl, rfl, rfl, rfl, rfl⟩
theorem State.same_addPend (s : State) (u : SUnit) (w : PendWait) (ws : List RegWrite) (a b c : Bool) :
    s.SameStorage (s.addPend u w ws a b c).2 := ⟨rfl, rfl, rfl, rfl, rfl⟩
theorem State.same_addPiece (s : State) (u : SUnit) (f : SUnit → SUnit) : s.SameStorage (s.addPiece u f) := ⟨rfl, rfl, rfl, rfl, rfl⟩
theorem State.same_entryDone (s : State) (op : Nat) (reg : Option Nat) (lane : Nat) (x : W64) : s.SameStorage (s.entryDone op reg lane x) :=
  ⟨rfl, rfl, rfl, rfl, rfl⟩

theorem State.same_closeRegion (s : State) (u : SUnit) : s.SameStorage (s.closeRegion u) := by
  unfold State.closeRegion; split
  · exact s.same_updUnit _ _
  · exact .refl s

/-- The units of an aborting launch that go touch no storage. -/
theorem State.same_stopUnits (s : State) (l : Nat) : s.SameStorage (s.stopUnits l) := by
  unfold State.stopUnits
  split
  · exact State.SameStorage.foldl (fun (s : State) (x : SUnit) => s.removeUnit x.id) (fun s x => s.same_removeUnit x.id) _ _
  · exact .refl s

theorem State.same_stopAborting (s : State) : s.SameStorage s.stopAborting :=
  State.SameStorage.foldl (fun (s : State) (l : Launch) => s.stopUnits l.id) (fun s l => s.same_stopUnits l.id) _ _

/-- The end of a clause touches no storage. -/
theorem State.same_endClause (s : State) (uid : Nat) : s.SameStorage (s.endClause uid) := by
  unfold State.endClause
  dsimp only
  exact State.SameStorage.trans (t := { s with issue := s.issue.filter (·.unit != uid) }) ⟨rfl, rfl, rfl, rfl, rfl⟩
    (((State.same_updUnit _ _ _).trans (State.same_settleDuties _)).trans (State.same_stopAborting _))

/-- The next slot, or the end of the clause, touches no storage. -/
theorem State.same_advance (s : State) (i : Issue) : s.SameStorage (s.advance i) := by
  unfold State.advance
  split
  · exact ⟨rfl, rfl, rfl, rfl, rfl⟩
  · exact (s.same_updUnit _ _).trans (State.same_endClause _ _)

/-- A span's fault touches no storage. -/
theorem State.same_faultUnit (s : State) (u : SUnit) (cause : W32) (addr : W64) : s.SameStorage (s.faultUnit u cause addr) := by
  unfold State.faultUnit
  exact ((s.same_updLaunch _ _).trans (State.same_removeUnit _ _)).trans (State.same_stopUnits _ _)

/-- Reserving rows maps them and touches none. -/
theorem State.same_reserveRows (u : SUnit) : ∀ (rs : List Nat) (s t : State), s.reserveRows u rs = .ok t → s.SameStorage t
  | [], s, t, h => by unfold State.reserveRows at h; cases h; exact .refl s
  | r :: rs, s, t, h => by
    unfold State.reserveRows at h
    dsimp only at h
    split at h
    · cases h
    · split at h
      · exact State.same_reserveRows u rs s t h
      · split at h
        · cases h
        · split at h
          · cases h
          · exact (s.same_updGroup _ _).trans (State.same_reserveRows u rs _ t h)

/-- The operations over storage. -/
theorem State.Inv.setRow {s : State} (h : s.Inv) (k : Nat) (ws : List W32) : (s.setRow k ws).Inv :=
  ⟨h.mem, h.pad, h.l1, h.l2, Kv.wf_set h.rows k ws⟩

theorem State.Inv.writeLanes {s : State} (h : s.Inv) (u : SUnit) (r : Nat) (mask : BitVec 64) (vals : List W32) :
    (s.writeLanes u r mask vals).Inv := by
  unfold State.writeLanes
  split
  · exact h
  · split
    · exact h
    · dsimp only
      split
      · exact (h.setRow _ _).of_same ⟨rfl, rfl, rfl, rfl, rfl⟩
      · exact h.setRow _ _

/-- Mapping rows for a strand's registers keeps the form. -/
theorem State.Inv.ensureRows : ∀ (rs : List Nat) {s t : State} {u v : SUnit}, s.Inv → s.ensureRows u rs = .ok (t, v) → t.Inv
  | [], s, t, u, v, h, he => by unfold State.ensureRows at he; cases he; exact h
  | r :: rs, s, t, u, v, h, he => by
    unfold State.ensureRows at he
    dsimp only at he
    split at he
    · cases he
    · split at he
      · exact State.Inv.ensureRows rs h he
      · split at he
        · exact State.Inv.ensureRows rs ((h.setRow _ _).of_same (State.same_putUnit _ _)) he
        · split at he
          · cases he
          · split at he
            · cases he
            · exact State.Inv.ensureRows rs (((h.of_same (s.same_updGroup _ _)).setRow _ _).of_same (State.same_putUnit _ _)) he

theorem State.Inv.countDrop {s : State} (h : s.Inv) : s.countDrop.Inv := h.of_same ⟨rfl, rfl, rfl, rfl, rfl⟩

theorem State.same_clearLines (s : State) (l : List Nat) : s.SameStorage (s.clearLines l) := by
  unfold State.clearLines; split <;> exact ⟨rfl, rfl, rfl, rfl, rfl⟩

theorem State.Inv.writeHome {s : State} (h : s.Inv) (w : Who) (pa : Nat) (bs : List Byte) : (s.writeHome w pa bs).Inv := by
  unfold State.writeHome
  split
  · exact h.countDrop
  · split
    · exact h
    · refine State.Inv.of_same ?_ (State.same_clearLines _ _)
      cases w.cluster? with
      | none => exact ⟨State.storeRun_wf h.mem _ _, h.pad, h.l1, h.l2, h.rows⟩
      | some c =>
        refine ⟨State.storeRun_wf h.mem _ _, h.pad, h.l1, ?_, h.rows⟩
        dsimp only
        exact Kv.wf_keep _ h.l2

theorem State.Inv.writeL1 {s : State} (h : s.Inv) (core pa : Nat) (bs : List Byte) : (s.writeL1 core pa bs).Inv :=
  ⟨h.mem, h.pad, Kv.wf_setRun h.l1 _ _, h.l2, h.rows⟩

/-- Sparse storage after a list of writes. -/
theorem Kv.wf_foldl_set {α β : Type} [DecidableEq α] (dflt : α) (key : β → Nat) (val : β → α) (es : List β) {m : Kv α}
    (h : Kv.wf dflt m = true) : Kv.wf dflt (es.foldl (fun m e => Kv.set dflt m (key e) (val e)) m) = true := by
  induction es generalizing m with
  | nil => exact h
  | cons e es ih => exact ih (Kv.wf_set h _ _)

/-- Dirty bytes sent home keep the form. -/
theorem State.Inv.sendHome {s : State} (h : s.Inv) (inL1 inL2 : Nat → Bool) : (s.sendHome inL1 inL2).Inv := by
  refine ⟨State.sendHome_wf h.mem _ _, h.pad, ?_, ?_, h.rows⟩
  · exact Kv.wf_keep (fun k => !inL1 k) h.l1
  · exact Kv.wf_keep (fun k => !inL2 k) h.l2

theorem State.Inv.publish {s : State} (h : s.Inv) (core scope : Nat) : (s.publish core scope).Inv := by
  unfold State.publish
  split
  · exact ⟨h.mem, h.pad, h.l1, h.l2, h.rows⟩
  · dsimp only
    split
    · refine ⟨h.mem, h.pad, ?_, ?_, h.rows⟩
      · dsimp only; exact Kv.wf_keep _ h.l1
      · dsimp only; exact Kv.wf_foldl_set none _ _ _ h.l2
    · exact h.sendHome _ _

theorem State.Inv.evictLine {s : State} (h : s.Inv) (core line : Nat) : (s.evictLine core line).Inv := by
  unfold State.evictLine
  exact h.sendHome _ _

theorem State.Inv.flushRange {s : State} (h : s.Inv) (pa n : Nat) : (s.flushRange pa n).Inv :=
  (h.sendHome (State.ofRange pa n) (State.ofRange pa n)).of_same ⟨rfl, rfl, rfl, rfl, rfl⟩

theorem State.Inv.loseRange {s : State} (h : s.Inv) (pa n : Nat) : (s.loseRange pa n).Inv := by
  unfold State.loseRange
  refine ⟨?_, h.pad, ?_, ?_, h.rows⟩
  · dsimp only; exact Memory.wf_keep _ h.mem
  · dsimp only; exact Kv.wf_keep _ h.l1
  · dsimp only; exact Kv.wf_keep _ h.l2

theorem State.Inv.writePad {s : State} (h : s.Inv) (core off : Nat) (bs : List Byte) : (s.writePad core off bs).Inv := by
  have hp := State.writePad_wf (s := s) h.pad core off bs
  unfold State.writePad at hp ⊢
  dsimp only at hp ⊢
  split
  · next hc => rw [if_pos hc] at hp; exact ⟨h.mem, hp, h.l1, h.l2, h.rows⟩
  · next hc => rw [if_neg hc] at hp; exact ⟨h.mem, hp, h.l1, h.l2, h.rows⟩

/-- Dealing publishes and creates groups and pieces. -/
theorem State.same_cutInto (s : State) (g : Group) (a b : Nat) (u : SUnit) : s.SameStorage (s.cutInto g a b u) := by
  unfold State.cutInto
  dsimp only
  split
  · exact .refl s
  · split
    · refine State.SameStorage.trans ?_ (State.same_removeUnit _ _)
      exact State.SameStorage.trans (s.same_addPiece u _) (State.same_updGroup _ _ _)
    · split
      · refine State.SameStorage.trans ?_ (State.same_updUnit _ _ _)
        exact State.SameStorage.trans (s.same_addPiece u _) (State.same_updGroup _ _ _)
      · refine State.SameStorage.trans ?_ (State.same_updUnit _ _ _)
        exact State.SameStorage.trans (s.same_addPiece u _) (State.same_updGroup _ _ _)

theorem State.same_dealGroup (s : State) (l : Launch) (gid : Nat) : s.SameStorage (s.dealGroup l gid) := by
  unfold State.dealGroup
  dsimp only
  exact State.SameStorage.trans (t := { s.fresh.2 with groups := s.fresh.2.groups ++ [newGroup l s.fresh.1 gid] }) ⟨rfl, rfl, rfl, rfl, rfl⟩
    (State.SameStorage.foldl (fun (s : State) (u : SUnit) => s.cutInto (newGroup l _ gid) (gid * l.size) ((gid + 1) * l.size) u)
      (fun s u => s.same_cutInto _ _ _ u) _ _)

theorem State.same_checkDrained (s : State) (l : Nat) : s.SameStorage (s.checkDrained l) := by
  unfold State.checkDrained; split
  · exact s.same_updLaunch _ _
  · exact .refl s

theorem State.Inv.deal {s : State} (h : s.Inv) (u : SUnit) : (s.deal u).Inv := by
  unfold State.deal
  dsimp only
  split
  · exact h.publish _ _
  · exact (h.publish _ _).of_same
      ((State.SameStorage.foldl (fun (s : State) (k : Nat) => s.dealGroup _ (_ + k)) (fun s k => s.same_dealGroup _ _) _ _).trans
        (State.same_checkDrained _ _))

theorem State.same_strandsFor (u : SUnit) (g : Group) (at_ : Option Nat) :
    ∀ (ws : List Nat) (own : Option Nat) (s t : State) (ids : List Nat), s.strandsFor u g at_ own ws = some (t, ids) → s.SameStorage t
  | [], own, s, t, ids, h => by unfold State.strandsFor at h; cases h; exact .refl s
  | w :: ws, own, s, t, ids, h => by
    unfold State.strandsFor at h
    dsimp only at h
    split at h
    · cases h
    · split at h
      · cases h
      · next s3 ids' he =>
        cases h
        have := State.same_strandsFor u g at_ ws _ _ _ _ he
        exact ⟨this.mem, this.pad, this.l1, this.l2, this.rows⟩

theorem State.Inv.materialise {s t : State} (h : s.Inv) (u : SUnit) (hm : s.materialise u = some t) : t.Inv := by
  unfold State.materialise at hm
  split at hm
  · cases hm
  · next g _ =>
    simp only at hm
    split at hm
    · cases hm
    · next s1 ids he =>
      cases hm
      have h0 : (if (u.windows g).any (fun w => g.coreOf w != u.core) then s.publish u.core 1 else s).Inv := by
        split
        · exact h.publish _ _
        · exact h
      exact h0.of_same (((State.same_strandsFor u _ _ _ _ _ _ _ he).trans (State.same_retarget _ _ _)).trans (State.same_removeUnit _ _))

theorem State.Inv.needG {s : State} (h : s.Inv) (u : SUnit) : (s.needG u).Inv := by
  unfold State.needG
  split
  · exact h.deal u
  · split
    · next s1 hm => exact h.materialise u hm
    · exact h.of_same ⟨rfl, rfl, rfl, rfl, rfl⟩

/-- Taking a trap keeps the form. -/
theorem State.Inv.takeTrap {s : State} (h : s.Inv) (u : SUnit) (cause : W32) (tpc tval next : W64) (global : Bool) :
    (s.takeTrap u cause tpc tval next global).Inv := by
  unfold State.takeTrap
  dsimp only
  split
  · split
    · refine State.Inv.needG (State.Inv.of_same ?_ (State.same_putUnit _ _)) _
      exact h.of_same ⟨rfl, rfl, rfl, rfl, rfl⟩
    · exact h.of_same (State.same_putUnit _ _)
  · exact (h.of_same (State.same_putUnit _ _)).of_same (State.same_faultUnit _ _ _ _)

/-- The state that a result carries. -/
def Res.state : Res → State
  | .done s => s
  | .jump s => s
  | .trap s _ _ _ => s
  | .needG s => s
  | .again s => s
  | .stay s => s

/-- The end of a word keeps the form that its effect left. -/
theorem State.Inv.finish (i : Issue) (u : SUnit) (r : Res) (h : r.state.Inv) : (State.finish i u r).Inv := by
  cases r with
  | done t => exact h.of_same (t.same_advance i)
  | jump t => exact h.of_same (t.same_endClause _)
  | trap t c x g => exact (h.takeTrap _ _ _ _ _ _).of_same (State.same_endClause _ _)
  | needG t =>
    unfold State.finish
    dsimp only
    split
    · exact h.of_same (t.same_removeUnit _)
    · exact h.needG _
  | again t =>
    exact State.Inv.of_same (s := { t.updUnit i.unit (fun u => { u with pcSlot := some i.slot }) with issue := t.issue.filter (·.unit != i.unit) })
      (h.of_same ⟨rfl, rfl, rfl, rfl, rfl⟩) (State.same_stopAborting _)
  | stay t => exact h

/-- A word whose body keeps the form keeps it. -/
theorem State.Inv.runWord {s t : State} (h : s.Inv) (body : State → Issue → SUnit → Res) (hb : ∀ i u, (body s i u).state.Inv)
    (ht : s.runWord body = .next t) : t.Inv := by
  unfold State.runWord at ht
  split at ht
  · cases ht
  · split at ht
    · cases ht; exact h.of_same ⟨rfl, rfl, rfl, rfl, rfl⟩
    · cases ht; exact State.Inv.finish _ _ _ (hb _ _)

/-- Register writes keep a unit's tables in canonical form. -/
theorem SUnit.Inv.setV {u : SUnit} (h : u.Inv) (r : Nat) (x : VReg) : (u.setV r x).Inv := ⟨Kv.wf_set h.v r x, h.p, h.k, h.x⟩
theorem SUnit.Inv.setK {u : SUnit} (h : u.Inv) (r : Nat) (x : W64) : (u.setK r x).Inv := ⟨h.v, h.p, Kv.wf_set h.k r x, h.x⟩
theorem SUnit.Inv.setX {u : SUnit} (h : u.Inv) (r : Nat) (x : XAcc) : (u.setX r x).Inv := ⟨h.v, h.p, h.k, Kv.wf_set h.x r x⟩
theorem SUnit.Inv.setP {u : SUnit} (h : u.Inv) (r : Nat) (x : PReg) : (u.setP r x).Inv := by
  unfold SUnit.setP
  split
  · exact h
  · exact ⟨h.v, Kv.wf_set h.p r x, h.k, h.x⟩

/-- An update of one unit that keeps its tables keeps every unit's. -/
theorem State.RegsInv.updUnit {s : State} (h : s.RegsInv) (id : Nat) (f : SUnit → SUnit) (hf : ∀ u, u.Inv → (f u).Inv) : (s.updUnit id f).RegsInv := by
  intro u hu
  simp only [State.updUnit, updWhere, List.mem_map] at hu
  obtain ⟨v, hv, rfl⟩ := hu
  split
  · exact hf v (h v hv)
  · exact h v hv

theorem State.RegsInv.putUnit {s : State} (h : s.RegsInv) {u : SUnit} (hu : u.Inv) : (s.putUnit u).RegsInv :=
  h.updUnit u.id (fun _ => u) (fun _ _ => hu)

theorem State.RegsInv.removeUnit {s : State} (h : s.RegsInv) (id : Nat) : (s.removeUnit id).RegsInv := by
  intro u hu
  exact h u (List.mem_of_mem_filter hu)

end Sys2Proof.Machine
end

