-- ==== Sys2Proof/Tests/Slice0.lean ====
section
/-! SUPPORT. The model's own tests: an ill-formed term for each check of WellFormed; words written out from the spec's encoding tables; for
every statement states and operands that meet its hypotheses, clause by clause; single steps with results worked out by hand from the spec. -/

namespace Sys2Proof.Tests
open Sys2Proof Sys2Proof.Machine
set_option Elab.async false
set_option maxRecDepth 8000

/-- Words of the formats with the fields a test changes. -/
def v (d a b c : BitVec 7) (ty : Ty) (aux : BitVec 10 := 0) (pred : BitVec 3 := 7) (pneg : Bool := false) : FmtV :=
  { d := d, a := a, b := b, c := c, pred := pred, pneg := pneg, ty := ty, mode := 0, lsel := 0, nega := false, negb := false, sat := false, aux := aux }
def im (d a : BitVec 7) (ty : Ty) (imm : BitVec 32) (pred : BitVec 3 := 7) (pneg : Bool := false) : FmtI :=
  { d := d, a := a, pred := pred, pneg := pneg, ty := ty, imm := imm }
def m (d base index : BitVec 7) (ty : Ty) (scale : BitVec 3 := 7) (offset : BitVec 16 := 0) (order : BitVec 2 := 0) (scope : BitVec 3 := 0) (pred : BitVec 3 := 7) : FmtM :=
  { d := d, base := base, index := index, scale := scale, pred := pred, pneg := false, ty := ty, scope := scope, order := order, cache := 0, offset := offset }
def b (a : BitVec 7) (target : BitVec 32 := 0) (sub : BitVec 6 := 0) (aux7 : BitVec 7 := 0) (pred : BitVec 3 := 7) (pneg : Bool := false) : FmtB :=
  { aux7 := aux7, a := a, pred := pred, pneg := pneg, sub := sub, target := target }
def sy (d a : BitVec 7) (sreg imm : BitVec 16) (pred : BitVec 3 := 7) : FmtS := { d := d, a := a, pred := pred, pneg := false, sreg := sreg, imm := imm }
def x (d a b c : BitVec 7) (imm8 : BitVec 8) (ctrl : BitVec 16) (pred : BitVec 3 := 7) : FmtX :=
  { d := d, a := a, b := b, c := c, pred := pred, pneg := false, imm8 := imm8, ctrl := ctrl }

/-! Ill-formed terms: each is refused by one check. -/

theorem test_ill_formed_values :
    [Instr.iadd (v 2 2 1 0 .s32 0 7 true), .iadd (v 2 2 1 0 .f32), .imul { v 2 2 1 0 .s32 with mode := 1 }, .fadd { v 2 2 1 0 .f32 with mode := 5 },
     .iadd { v 2 2 1 0 .s32 with lsel := 7 }, .lnot { v 2 2 0 0 .b32 with lsel := 1 }, .land { v 2 2 1 0 .b32 with nega := true },
     .imin { v 2 2 1 0 .s32 with sat := true }, .iadd (v 3 2 4 0 .s64), .iadd (v 2 2 1 1 .s32), .iadd (v 2 2 1 0 .s32 1), .sel (v 2 2 1 8 .b32),
     .icmp (v 0x30 2 1 0 .s32), .fcmp (v 0x48 2 1 0 .f32), .lea (v 2 2 1 0 .n32 5), .mort (v 2 4 5 6 .n64 22), .unmort (v 2 4 0 0 .n64 3),
     .cvt (v 2 4 0 0 .f32 (Ty.f32.code.setWidth 10)), .pack (v 2 125 0 0 .e4m3), .unpk (v 2 4 0 0 .f16x2 2), .qmx (v 2 4 16 0 .e4m3), .xadd (v 4 2 0 0 .f32),
     .kmov (v 16 2 0 0 .b64), .perm (v 2 4 5 1 .b32), .shfl (v 2 4 5 0 .b32 3), .bcast (v 2 4 0 0 .b32 65), .votea (v 8 1 0 0 .pred), .scan (v 2 4 0 0 .s32 3),
     .redi (v 2 4 0 0 .s32 6), .xrnd (v 2 4 0 0 .f32), .shape (v 2 4 1 0 .b32), .movi (im 2 1 .b32 0), .faddImm (im 2 1 .f16 0), .ffmaImm (im 2 1 .f32 0 7 true)].all (fun i => !i.wf) = true := by
  decide

theorem test_ill_formed_memory :
    [Instr.ld (m 2 3 127 .b32), .ld (m 2 2 5 .b32), .ld (m 3 2 127 .b64), .ld (m 2 2 127 .b32 7 0 2), .ld (m 2 2 127 .b32 7 0 0 5), .st (m 2 2 127 .b32 7 0 1),
     .phase (m 0 0 127 .s8), .phase (m 0 0 5 .s8 0 0 1), .xfence (m 0 0 127 .s8 7 64), .pref (m 1 2 127 .s8), .atomAdd (m 2 3 4 .s32), .atomAdd (m 2 2 4 .s32 3),
     .atomAdd { m 2 2 4 .s32 with cache := 1 }, .atomAnd (m 2 2 4 .s32), .atomCas (m 2 2 5 .b32), .atomCas (m 2 2 6 .b64), .atomXam (m 0 2 4 .xa), .atomLd (m 2 2 1 .b32)].all (fun i => !i.wf) = true := by
  decide

theorem test_ill_formed_rest :
    [Instr.nop (sy 1 0 0 0), .bra (b 1), .brp (b 8), .brp (b 1 0 4), .join (b 0 0 0 0 0), .calli (b 3), .ret (b 0 4), .exit (b 0 1), .spawn (b 3), .spawn (b 2 0 32), .deal (b 0 0 0 1),
     .yield (sy 0 0 0 1 3), .trap (sy 1 0 0 0), .brk (sy 0 0 0 1), .rdsr (sy 0 0 0x18 0), .rdsr (sy 1 0 0x13 0), .wrsr (sy 0 1 0x13 0), .fmode (sy 0 0 0 0x100),
     .acp (x 0 2 1 0 0 0), .acp (x 0 3 0 0 0 0), .acp (x 0 2 0 0 1 0), .acp (x 0 2 0 0 128 16), .aseal (x 0 0 0 0 0 1), .await (x 0 0 0 0 8 0), .bcp (x 0 2 0 0 0 4), .qfen (x 0 0 0 0 0 64),
     .bari (x 0 1 0 0 128 0), .waita (x 2 1 2 0 1 0), .pipw (x 0 0 0 0 0 0x1000), .barq (x 2 0 0 0 0 3), .mma (x 0 1 2 0 0 0), .mma (x 0 1 2 0 4 0x70), .mzero (x 0 0 0 0 0 1),
     .mdrain (x 0 1 2 0 0 11), .hkins (x 1 2 3 0 0 0), .hknext (x 2 1 3 0 0 2), .hkrankThaw (x 2 2 0 0 0 0), .bqry (x 2 2 1 0 0 0)].all (fun i => !i.wf) = true := by
  decide

/-! Words written out from R253 to R267 and R281 to R291. -/

/-! Words written out bit by bit from R253 to R267 and the opcode tables R281 to R291. -/

theorem test_words_values :
    decodeWord .int 0x9912_0F84_0000_0000 = some (.icmpImm (im 9 3 .s32 0)) ∧ decodeWord .int 0x2018_0410_3E38_0004 = some (.mort (v 12 1 2 3 .n64 4))
    ∧ decodeWord .cvt 0x0006_1000_0E40_0002 = some (.cvt (v 3 4 0 0 .f16 2)) ∧ decodeWord .lane 0x0108_0C08_26B8_0201 = some (.shfl (v 4 3 1 2 .b32 0x201 3)) := by decide

theorem test_words_actions :
    decodeWord .syn 0x0108_0000_0E03_000F = some (.bara (x 4 0 0 0 3 15)) ∧ decodeWord .asy 0x000C_2048_CE03_013B = some (.acp (x 6 8 9 12 3 0x13B))
    ∧ decodeWord .hnk 0x0510_0C30_0E00_0001 = some (.hknext (x 8 3 6 0 0 1)) ∧ decodeWord .ctl 0x0D0E_5383_0000_0000 = some (.spawn (b 20 0 3 7))
    ∧ decodeWord .ctl 0x0306_0380_0000_0000 = some (.join (b 0 0 0 3)) ∧ decodeWord .ctl 0x1100_0380_0000_0044 = some (.fmode (sy 0 0 0 0x44))
    ∧ decodeWord .mem 0x2114_1847_E1B8_0000 = some (.atomSub (m 10 6 8 .s64 7 0 2 3)) ∧ decodeWord .sfu 0xFF00_0000_0000_0000 = none := by decide

theorem test_words_of_the_statement :
    decodeWord .int 0x0004_0848_0E10_0000 = some (.iadd (v 2 2 9 0 .s32))
    ∧ decodeWord .flt 0x030A_0410_3552_2800 = some (.ffma { v 5 1 2 3 .f32 0 2 true with mode := 2, lsel := 1, negb := true })
    ∧ decodeWord .flt 0x800C_1794_3FC0_0000 = some (.faddImm (im 6 5 .f32 0x3FC0_0000)) ∧ decodeWord .mem 0x0012_203A_E334_0010 = some (.ld (m 9 8 7 .n32 2 16 1 3))
    ∧ decodeWord .ctl 0x0100_0080_FFFF_FFFE = some (.bra (b 0 0xFFFF_FFFE 0 0 1)) ∧ decodeWord .ctl 0x0F18_0380_0013_0000 = some (.rdsr (sy 12 0 0x13 0))
    ∧ decodeWord .mma 0x0000_1838_0E04_0012 = some (.mma (x 0 6 7 0 4 0x12)) ∧ decodeWord .bem 0x0074_C000_0E00_0000 = some (.bqry (x 58 48 0 0 0 0)) := by decide

theorem test_header : decodeHeader 0x1000_0ff5_0000_0000 = some { cls := .int, count := 1, wait := 0, seta := 15, setb := 15, tail := false } := by decide

/-- Two opcodes that stand side by side, and a reserved one (R283). -/
theorem test_roundtrip_neighbours :
    decodeWord .int (encode (.isub (v 2 2 1 0 .s32))) = some (.isub (v 2 2 1 0 .s32)) ∧ encode (.isub (v 2 2 1 0 .s32)) = 0x0104_0808_0E10_0000
    ∧ decodeWord .int 0x7F04_0848_0E10_0000 = none := by decide

/-- The words that the spec's own programs show (chapters 15, 17, 18, 21, 23, 25, 26). -/
theorem test_words_of_the_programs :
    decodeWord .int 0x1922_0020_0E30_0000 = some (.icmp (v 17 0 4 0 .n32)) ∧ decodeWord .ctl 0x0100_00C0_0000_002D = some (.bra (b 0 0x2D 0 0 1 true))
    ∧ decodeWord .asy 0x001A_4060_0400_000B = some (.acp (x 13 16 12 0 0 11 2)) ∧ decodeWord .asy 0x0100_0000_0E00_0000 = some (.aseal (x 0 0 0 0 0 0))
    ∧ decodeWord .asy 0x0200_0000_0E02_0000 = some (.await (x 0 0 0 0 2 0)) ∧ decodeWord .mem 0x2114_1847_E1B8_0000 = some (.atomSub (m 10 6 8 .s64 7 0 2 3))
    ∧ decodeWord .mem 0x002E_4000_6200_0000 = some (.ld (m 23 16 0 .n8 0 0 0 0 3)) ∧ decodeWord .mem 0x012E_18B0_6200_0000 = some (.st (m 23 6 22 .n8 0 0 0 0 3))
    ∧ decodeWord .asy 0x0400_2000_0A00_0000 = some (.bxf (x 0 8 0 0 0 0 5)) ∧ decodeWord .syn 0x0538_04F0_0E00_0040 = some (.waita (x 28 1 30 0 0 0x40))
    ∧ decodeWord .bem 0x0074_C000_0E00_0000 = some (.bqry (x 58 48 0 0 0 0)) ∧ decodeWord .flt 0x0344_AD3A_2650_0000 = some (.ffma (v 34 43 39 34 .f32 0 3))
    ∧ decodeWord .ctl 0x0F0A_0380_000C_0000 = some (.rdsr (sy 5 0 12 0)) ∧ decodeWord .cvt 0x0510_0800_0EA8_0000 = some (.qply (v 8 2 0 0 .ply6)) := by decide

theorem test_headers_of_the_programs :
    decodeHeader 0x1100_1FFD_0000_0000 = some { cls := .int, count := 2, wait := 1, seta := 15, setb := 15, tail := true }
    ∧ decodeHeader 0x7500_0FF5_0000_0000 = some { cls := .asy, count := 6, wait := 0, seta := 15, setb := 15, tail := false }
    ∧ decodeHeader 0x6000_1F15_0000_0000 = some { cls := .mem, count := 1, wait := 1, seta := 15, setb := 1, tail := false }
    ∧ decodeHeader 0x2204_0FF5_0000_0000 = some { cls := .flt, count := 3, wait := 64, seta := 15, setb := 15, tail := false } := by decide


/-! One launch with one group on core 0, one unit at the head of the ports: the states of the witnesses and the step tests. Built by hand; nothing in them comes from a run. -/

def hdr : Header := { cls := .int, count := 2, wait := 0, seta := 15, setb := 15, tail := false }
def iss : Issue := { unit := 3, hdrAddr := 0x1000, hdr := hdr, words := [0x0004_0848_0E10_0000, 0], slot := 0, entered := false }
def launch (size count : Nat) : Launch :=
  { id := 1, ctx := 1, num := 0, tree := 0, src := .packet 0 0, code := 0x1000, count := count, size := size, pad := 4096, gregs := 8, bars := 4
    flags := 0, args := 0x5000, events := 0, state := .draining, rootCore := some 0, rootPlaced := true, dealtAll := true, exited := []
    retired := [], retiredItems := 0, evHeld := [], age := 0, fault := none, evFault := none }
def group (size count : Nat) : Group :=
  { newGroup (launch size count) 2 0 with state := .resident, pieces := 1, rows := List.range (size / 64 * 8), slots := List.range (size / 64)
                                          rowMap := [(6, some 1), (7, some 2), (8, some 3), (9, some 4)] }
/-- A strand of 64 items with 48 active: v0 = 0, v2 = 7, v3 = 1.0, v4 = 100 + 3 * item, v6 and v7 one value for each item. -/
def strand : SUnit :=
  { State.rootUnit (launch 64 64) 3 0 (some 0) with
    kind := .strand, group := some 2, cnt := 64, mask := 0xFFFF_0000_FFFF_FFFF, pc := 0x1000, origin := none, v := [(2, .u 7), (3, .u 0x3F80_0000), (4, .a 100 3), (5, .u 0xFFFF_FFFF), (6, .g), (7, .g), (8, .g), (9, .g), (20, .u 0x1_0080)]
    p := [(1, .g 0xFF00_FF00_FF00_FF00), (2, .u true), (4, .g 0)], k := [(0, 0x0102_0304), (1, 5)] }
def span (size count : Nat) : SUnit :=
  { State.rootUnit (launch size count) 3 0 (some 0) with
    kind := .span, group := some 2, cnt := count, mask := 0, pc := 0x1000, origin := none, v := [(2, .u 7), (3, .u 0x3F80_0000), (4, .a 100 3), (5, .u 0xFFFF_FFFF), (6, .a 5 1)]
    p := [(1, .lt 40), (2, .u true), (4, .ge 70)] }
def undealt : SUnit := { span 64 128 with kind := .undealt, group := none, cnt := 128 }
def rowsOf : Kv (List W32) :=
  [(1, (List.range 64).map (fun j => BitVec.ofNat 32 (j * 77 + 5))), (2, (List.range 64).map (fun j => BitVec.ofNat 32 (0x3F80_0000 + j * 4096))),
   (3, (List.range 64).map (fun j => BitVec.ofNat 32 (j * 3 + 1)))]
def st (u : SUnit) (size count : Nat := 64) : State :=
  { State.reset with
    dies := State.reset.dies.map (fun d => { d with stage := .running }), parts := [{ num := 0, pairs := 1, pointer := 0, resize := none }]
    ctxs := [{ ctxZero with num := 1, part := some 0, state := .running }], launches := [launch size count], groups := [group size count], units := [u], rows := rowsOf
    issue := [iss], nextId := 10 }

theorem head_of (u : SUnit) (size count : Nat) (h : u.id = 3) : (st u size count).AtHead iss u :=
  ⟨⟨[], rfl⟩, by simp [State.unit?, st, iss, h]⟩

/-- A step gives a state with the property. -/
def nx (o : Host.Outcome State Fault Refusal) (p : State → Bool) : Bool :=
  match o with
  | .next t => p t
  | .fault _ => false
  | .refused _ => false
def isOk {α ε : Type} (e : Except ε α) : Bool :=
  match e with
  | .ok _ => true
  | .error _ => false
/-- The unit after a step. -/
def un (t : State) : SUnit := (t.unit? 3).getD strand

/-! Register instructions. -/

theorem witness_uniform : ∃ o, regOp (.iadd (v 9 2 5 0 .s32)) = some o ∧ (st strand).AtHead iss strand ∧ strand.predOf o.pred o.pneg = .u true ∧ strand.anyActive (o.guard strand) = true
    ∧ o.late = false ∧ o.uniform (st strand) strand = true ∧ strand.regionHit o.dests [] = none :=
  ⟨_, rfl, head_of _ _ _ rfl, by decide⟩

theorem witness_affine : ∃ o, regOp (.iadd (v 9 4 5 0 .s32)) = some o ∧ (st strand).AtHead iss strand ∧ strand.predOf o.pred o.pneg = .u true ∧ strand.anyActive (o.guard strand) = true
    ∧ o.late = false ∧ o.uniform (st strand) strand = false ∧ o.affine (st strand) strand = true ∧ o.wide = false ∧ strand.regionHit o.dests [] = none :=
  ⟨_, rfl, head_of _ _ _ rfl, by decide⟩

def reg (ins : Instr) (p : RegOp → Bool) : Bool :=
  match (regOp ins).orElse (fun _ => laneOp ins) with
  | some o => p o
  | none => false
theorem live_of (u : SUnit) (size count : Nat) (h : u.launch = 1) : (st u size count).Live u := by
  intro l hl; simp [State.launchOf, State.launch?, st, h, launch] at hl; subst hl; simp
theorem sole_of (u : SUnit) (size count : Nat) : (st u size count).Sole u := by
  intro x hx _; simpa [st] using hx
theorem inv_of (u : SUnit) (size count : Nat) : (st u size count).Inv := ⟨rfl, rfl, rfl, rfl, (by decide : Kv.wf (List.replicate 64 0) rowsOf = true)⟩
theorem regs_of : (st strand).RegsInv ∧ (st (span 64 64)).RegsInv := by
  constructor <;> (intro u hu; simp [st] at hu; subst hu; exact ⟨by decide, by decide, by decide, by decide⟩)

theorem witness_lanes : (st strand).AtHead iss strand ∧ (st strand).Inv ∧ (st strand).RegsInv ∧ (st strand).unit? 3 = some strand
    ∧ reg (.iadd (v 2 6 5 0 .s32)) (fun o => strand.isStrand && !o.late && (o.guard strand).mask != 0) = true
    ∧ reg (.iadd (v 2 6 5 0 .s32)) (fun o => (strand.regionHit o.dests []).isNone && !o.uniform (st strand) strand && !o.affine (st strand) strand
        && isOk ((st strand).ensureRows strand o.dests)) = true
    ∧ reg (.perm (v 2 6 5 0 .b32 0 1)) (fun o => !o.late && (o.guard strand).mask != 0 && (strand.regionHit o.dests []).isNone && strand.predOf o.pred o.pneg != .u true
        && isOk ((st strand).ensureRows strand o.dests)) = true
    ∧ (group 64 64).rowOf (strand.window (group 64 64)) 6 = some 1 ∧ isOk ((st strand).ensureRows strand [4]) = true :=
  ⟨head_of _ _ _ rfl, inv_of _ _ _, regs_of.1, by decide⟩

def owing : State :=
  { st strand with pend := [{ id := 5, targets := [3], clause := 0, wait := .ready, writes := [.vu 2 (.u 9)], setA := true, setB := false, batch := false }] }
theorem witness_late : (st strand).AtHead iss strand
    ∧ reg (.rcp (v 9 3 0 0 .f32)) (fun o => o.late && strand.anyActive (o.guard strand) && (strand.regionHit o.dests []).isNone && strand.predOf o.pred o.pneg == .u true
        && o.uniform (st strand) strand) = true
    ∧ reg (.idiv (v 9 6 5 0 .s32)) (fun o => o.late && strand.anyActive (o.guard strand) && (strand.regionHit o.dests []).isNone && !o.uniform (st strand) strand
        && isOk ((st strand).reserveRows strand o.dests)) = true
    ∧ (owing.pend.find? (fun x => x.id == 5)).any (fun o => o.wait == .ready && o.targets == [3] && owing.within o 3 && (owing.landTargets o).2 == [3]
        && !({ owing with issue := [] } : State).within o 3 && (({ owing with issue := [] } : State).landTargets o).2 == [])  = true
    ∧ (owing.unit? 3).any (fun u => u.isStrand && u.parkedAt.isNone) = true ∧ owing.groups.all (fun g => g.state != .saved) = true :=
  ⟨head_of _ _ _ rfl, by decide⟩

/-- Operands of the special functions: 2, -1, a small one, and a value with no exact result, in f32 and f16 (R314 to R316). -/
theorem witness_special : (fmtF32.decode 0x4000_0000).isFin = true ∧ (fmtF32.decode 0x4000_0000).val = 2 ∧ (2 : Rat) = 2 ^ (1 : Int) ∧ (fmtF32.decode 0xBF80_0000).val < 0
    ∧ magnitude (fmtF32.decode 0x3900_0000).val < 2 ^ (-12 : Int)
    ∧ [SfuOp.rcp, .exp2, .log2, .sin, .tanh].all (fun op => [(fmtF32, 0x4020_0000), (fmtF16, 0x4100)].all (fun x => match x.1.decode x.2 with
        | .fin n m e => op.special (x.1.decode x.2) == none && op.exact (x.1.decode x.2) (op.value n m e) == none
        | _ => false)) = true
    ∧ SfuOp.log2.absBound (fmtF32.decode 0x3FC0_0000) ≠ none ∧ SfuOp.rcp.absBound (fmtF32.decode 0x4020_0000) = none := by decide +kernel

theorem witness_skipped : (st strand).AtHead iss strand ∧ (st (span 64 64)).AtHead iss (span 64 64)
    ∧ reg (.iadd (v 9 6 5 0 .s32 0 2 true)) (fun o => strand.predOf o.pred o.pneg == .u false) = true
    ∧ (cmpOp (.icmp (v 9 6 5 0 .s32 0 2 true))).any (fun o => strand.predOf o.pred o.pneg == .u false) = true
    ∧ reg (.fadd (v 9 6 3 0 .f32)) (fun o => !(span 64 64).isStrand && (span 64 64).anyActive (o.guard (span 64 64)) && ((span 64 64).regionHit o.dests []).isNone
        && (span 64 64).predOf o.pred o.pneg != .u false && !o.uniform (st (span 64 64)) (span 64 64) && !o.affine (st (span 64 64)) (span 64 64)) = true
    ∧ (laneOp (.perm (v 2 6 5 0 .b32))).isSome = true :=
  ⟨head_of _ _ _ rfl, head_of _ _ _ rfl, by decide⟩

def inRegion : SUnit := { strand with region := some { n := 4, entry := 0x1000, since := 0 } }
def full : State := { st strand with groups := [{ group 64 64 with gregs := 4 }] }
theorem witness_traps : (st inRegion).AtHead iss inRegion ∧ full.AtHead iss strand
    ∧ reg (.iadd (v 3 2 5 0 .s32)) (fun o => (o.guard inRegion).mask != 0 && (inRegion.regionHit o.dests []).isSome) = true
    ∧ reg (.iadd (v 2 6 5 0 .s32)) (fun o => (o.guard strand).mask != 0 && (strand.regionHit o.dests []).isNone && !o.late && !o.uniform full strand && !o.affine full strand
        && !isOk (full.ensureRows strand o.dests)) = true :=
  ⟨head_of _ _ _ rfl, ⟨⟨[], rfl⟩, by decide⟩, by decide⟩

theorem witness_frame : (st strand).AtHead iss strand ∧ (st strand).Inv ∧ (st strand).RegsInv ∧ (st (span 64 64)).AtHead iss (span 64 64) ∧ (st (span 64 64)).Inv
    ∧ (st (span 64 64)).RegsInv ∧ nx (exec (.iadd (v 2 6 5 0 .s32)) (st strand)) (fun _ => true) = true
    ∧ reg (.iadd (v 9 2 5 0 .s32)) (fun o => (span 64 64).predOf o.pred o.pneg == .u true && o.uniform (st (span 64 64)) (span 64 64)
        && (st (span 64 64)).trapRoutine (span 64 64) == 0) = true
    ∧ nx (exec (.iadd (v 9 2 5 0 .s32)) (st (span 64 64))) (fun _ => true) = true :=
  ⟨head_of _ _ _ rfl, inv_of _ _ _, regs_of.1, head_of _ _ _ rfl, inv_of _ _ _, regs_of.2, by decide⟩

/-! Steps, invariants and clauses. -/

def noWord : State := { st strand with issue := [{ iss with words := [0x7F04_0848_0E10_0000, 0] }] }
theorem witness_step : noWord.AtHead { iss with words := [0x7F04_0848_0E10_0000, 0] } strand ∧ (st strand).agenda = [] ∧ (st strand).issue = [iss]
    ∧ (st strand).poison.rows = [] ∧ iss.hdr.decodeSlot iss.slot (iss.words.getD iss.slot 0) = some (.iadd (v 2 2 9 0 .s32))
    ∧ iss.hdr.decodeSlot iss.slot 0x7F04_0848_0E10_0000 = none ∧ ({ st strand with agenda := [.resizeMapChange] } : State).agenda = [.resizeMapChange]
    ∧ State.reset.agenda = [] ∧ State.reset.issue = [] :=
  ⟨⟨⟨[], rfl⟩, by decide⟩, by decide⟩

theorem witness_invariants : (st strand).Inv ∧ (st strand).RegsInv ∧ nx (step (st strand)) (fun t => (un t).vreg 9 == .g) = true :=
  ⟨inv_of _ _ _, regs_of.1, by decide⟩

theorem witness_clause : (st strand).AtHead iss strand ∧ iss.slot + 1 < iss.hdr.count ∧ (st strand).Live strand
    ∧ ({ st strand with issue := [{ iss with slot := 1 }] } : State).AtHead { iss with slot := 1 } strand :=
  ⟨head_of _ _ _ rfl, by decide, live_of _ _ _ rfl, ⟨⟨[], rfl⟩, by decide⟩⟩

/-! Operations on values: operands that meet the premises, with results worked out by hand at the corners. -/

def env (ty : Ty) (sat : Bool := false) (aux : Nat := 0) : OpEnv := { ty := ty, sat := sat, rm := .rne, aux := aux }
/-- R297, R298, R318. -/
theorem witness_integer : opAdd (env .s32) 0xFFFF_FFFF 1 0 = 0 ∧ opIdiv (env .s32) 0x8000_0000 0xFFFF_FFFF 0 = 0x8000_0000 ∧ opIrem (env .s32) 0x8000_0000 0xFFFF_FFFF 0 = 0
    ∧ opIdiv (env .n64) 7 0 0 = 0xFFFF_FFFF_FFFF_FFFF ∧ opIdiv (env .s32) 0xFFFF_FFF9 2 0 = 0xFFFF_FFFD ∧ opMulh (env .s32) 0xFFFF_FFFF 0xFFFF_FFFF 0 = 0
    ∧ opAbs (env .s32) 0x8000_0000 0 0 = 0x8000_0000 ∧ opAbs (env .s32 true) 0x8000_0000 0 0 = 0x7FFF_FFFF ∧ opAdd (env .s32 true) 0x7FFF_FFFF 1 0 = 0x7FFF_FFFF
    ∧ opSub (env .n32 true) 3 5 0 = 0 ∧ opMul (env .n32 true) 0x1_0000 0x1_0000 0 = 0xFFFF_FFFF ∧ opAddw (env .s32) 5 0xFFFF_FFFF 0 = 4
    ∧ opAddw (env .n32) 5 0xFFFF_FFFF 0 = 0x1_0000_0004 ∧ opAdd (env .s8x4) 0xFF 0x01 0 = 0 := by decide
/-- R299, R301, R306, R307. -/
theorem witness_bits : opShl (env .b32) 1 32 0 = 0 ∧ opSar (env .s32) 0x8000_0000 40 0 = 0xFFFF_FFFF ∧ opRol (env .b32) 0x8000_0001 33 0 = 3
    ∧ opBfx (env .s32) 0xF0 0x0404 0 = 0xFFFF_FFFF ∧ opBfi (env .b32) 0 0xFF 0x0404 = 0xF0 ∧ opBfx (env .n32) 0xF0 0x0420 0 = 0 ∧ opMort (env .n64) 1 1 0 = 3
    ∧ opUnmort (env .n64 false 1) 3 0 0 = 1 ∧ opPrmt (env .b32) 0x8000_0000 0x55 0x000B = 0xFF ∧ opLea (env .n32 false 2) 100 3 0 = 112 := by decide
/-- R300. -/
theorem witness_counts : opClz (env .b64) 0 0 0 = 64 ∧ opCtz (env .b32) 8 0 0 = 3 ∧ opPopc (env .b32) 0xF1 0 0 = 5 ∧ opBrev (env .b32) 1 0 0 = 0x8000_0000
    ∧ (regOp (.popc (v 2 4 0 0 .b64))).any (fun o => !o.wide) = true ∧ (regOp (.brev (v 2 4 0 0 .b64))).any (fun o => o.wide) = true := by decide

theorem witness_compare : (st strand).AtHead iss strand ∧ (st (span 128 128) 128 128).AtHead iss (span 128 128)
    ∧ (cmpOp (.icmp (v 1 6 5 0 .s32))).any (fun o => o.p == 1 && strand.predOf o.pred o.pneg != .u false && (strand.regionHit [] [o.p]).isNone && strand.isStrand) = true
    ∧ (cmpOp (.icmp (v 7 6 5 0 .s32))).any (fun o => o.p == 7 && (strand.regionHit [] [o.p]).isNone) = true
    ∧ (cmpOp (.icmp (v 1 2 5 0 .s32))).any (fun o => (span 128 128).predOf o.pred o.pneg == .u true && o.uniform (st (span 128 128) 128 128) (span 128 128)) = true
    ∧ (cmpOp (.icmpImm (im 0x11 6 .s32 50))).any (fun o => !o.general (st (span 128 128) 128 128) (span 128 128)
        && (span 128 128).items.all (fun k => (PReg.lt 45).holds k k == o.holds (st (span 128 128) 128 128) (span 128 128) k)) = true
    ∧ floatOrder fmtF32 0x7FC0_0000 0 = none ∧ condHolds 7 none = true ∧ intOrder true 32 0xFFFF_FFFF 1 = some .lt ∧ intOrder false 32 0xFFFF_FFFF 1 = some .gt :=
  ⟨head_of _ _ _ rfl, head_of _ _ _ rfl, by decide⟩

theorem witness_votes : (st strand).AtHead iss strand ∧ strand.isStrand = true ∧ strand.mask ≠ 0 ∧ strand.regionHit [] [1] = none ∧ strand.regionHit [9, 10] [] = none :=
  ⟨head_of _ _ _ rfl, by decide⟩

/-- A sibling that holds the items 32 to 47. -/
def sibling : SUnit := { strand with id := 5, slot := some 1, mask := 0x0000_FFFF_0000_0000, sstack := [77], pc := 0x2000 }
def two (u : SUnit) : State := { st u with units := [u, sibling] }
theorem two_head (u : SUnit) (h : u.id = 3) : (two u).AtHead iss u := ⟨⟨[], rfl⟩, by simp [State.unit?, two, st, iss, h]⟩
theorem witness_cross : (two strand).AtHead iss strand ∧ strand.holdsItem 0 = true ∧ strand.holdsItem 32 = false ∧ sibling.holdsItem 32 = true
    ∧ ({ st strand with units := [strand] } : State).units.all (fun u => !u.holdsItem 40) = true ∧ (v 2 6 5 3 .b32 0x200 1).aux.getLsbD 9 = true
    ∧ (strand.guard 1 false).mask ≠ 0 ∧ strand.regionHit [2] [3] = none ∧ strand.region = none ∧ isOk ((st strand).ensureRows strand [2]) = true
    ∧ ((two strand).crossRead strand (fun _ k => BitVec.ofNat 64 k) 32) = (32, true) ∧ ((two strand).crossRead strand (fun _ k => BitVec.ofNat 64 k) 64) = (0, false) :=
  ⟨two_head _ rfl, by decide⟩

/-- v10 holds 0x40, a pad offset of whole 16 bytes; v2 holds 7. -/
def padStrand : SUnit := { strand with v := strand.v ++ [(30, .u 0x40)], x := [(1, { v := 5, flags := 0 })] }
theorem witness_accumulators : (st padStrand).AtHead iss padStrand ∧ (padStrand.guard 4 false).mask = 0 ∧ (padStrand.guard 7 false).mask ≠ 0
    ∧ ((st padStrand).vAt padStrand 30 0).toNat % 16 = 0 ∧ (group 64 64).padPlace 0 0x40 48 = some (0, 0x40) ∧ (st padStrand).padPoisoned 0 0x40 48 = false
    ∧ ((st padStrand).vAt padStrand 2 0).toNat % 16 = 7 ∧ (XAcc.zero.addFloat (.fin false 3 (-149))).v = 3
    ∧ (({ v := BitVec.allOnes 320 >>> 1, flags := 0 } : XAcc).addFloat (.fin false 1 (-149))).flags = 8 :=
  ⟨head_of _ _ _ rfl, by decide⟩

theorem witness_quantise : (st strand).AtHead iss strand ∧ (strand.guard 4 false).mask = 0 ∧ (strand.guard 7 false).mask ≠ 0
    ∧ isOk ((st strand).ensureRows strand.noRegion [9]) = true ∧ strand.predOf 1 false ≠ .u true ∧ strand.predOf 7 false = .u true ∧ strand.vIsU 3 = true
    ∧ sameOn (strand.guard 7 false) (fun j => ((quantiseMx .e4m3 false ((st strand).blockValues strand (strand.guard 7 false) (blockSource 0) 3 (32 * (j / 32)) 32)).2.getD (j % 32) 0 : Nat)) = true
    ∧ (v 2 1 0 0 .b64 1).aux.getLsbD 0 = true ∧ strand.regionHit [2, 3] [] = none :=
  ⟨head_of _ _ _ rfl, by decide⟩

/-- A block of sixteen values 1.5: its largest magnitude and that value's binary logarithm; and one with a NaN, one with an infinity. -/
def halves : List Fv := List.replicate 16 (.fin false 3 (-1))
theorem witness_quantisers : LargestOf (halves.map (fun x => match x with | .inf n => Fv.fin n (2 ^ 24 - 1) 104 | y => y)) (3 / 2) ∧ Log2Of (3 / 2) 0 ∧ halves.length = 16
    ∧ Fv.nan ∉ halves ∧ (∀ n, Fv.inf n ∉ halves) ∧ Fv.nan ∈ [Fv.nan] ∧ Fv.inf true ∈ [Fv.inf true]
    ∧ (quantiseMx .e4m3 false halves).1 = 119 ∧ (quantisePly .ply9 false halves).1 = 127 := by
  unfold LargestOf Log2Of; decide +kernel

/-! Control. -/

def called : SUnit := { strand with rstack := [0x3000], nest := 1 }
def inTrap (tc : W32) : SUnit := { called with trapFrames := [(1, true)], tcause := tc, tval := 0x77 }
theorem witness_transfers : (st strand).AtHead iss strand ∧ (st (span 64 64)).AtHead iss (span 64 64) ∧ (st called).AtHead iss called
    ∧ (st (inTrap 0)).AtHead iss (inTrap 0) ∧ (st (inTrap 9)).AtHead iss (inTrap 9) ∧ strand.takes (strand.predOf 7 false) = some true
    ∧ strand.takes (strand.predOf 4 false) = some false ∧ (∀ k ∈ strand.items, (st strand).wAt strand 2 k = 0x3F80_0000_0000_0007) ∧ strand.items ≠ []
    ∧ strand.nest < strand.nestmax ∧ strand.rstack = [] ∧ strand.inl = [] ∧ (span 64 64).takes ((span 64 64).predOf 7 false) = some true ∧ (span 64 64).wIsU 2 = true
    ∧ (∀ k ∈ (span 64 64).items, (st (span 64 64)).wAt (span 64 64) 2 k = 0x3F80_0000_0000_0007) ∧ called.rstack = [0x3000] ∧ called.inl.head? = none
    ∧ called.trapFrames.head? = none ∧ (inTrap 0).trapFrames = [(1, true)] ∧ (inTrap 9).tcause ≠ 0 :=
  ⟨head_of _ _ _ rfl, head_of _ _ _ rfl, head_of _ _ _ rfl, head_of _ _ _ rfl, head_of _ _ _ rfl, by decide⟩

def deep : SUnit := { strand with sstack := List.replicate 32 1 }
theorem witness_split : (st strand).AtHead iss strand ∧ (st strand).Live strand ∧ (st strand).Sole strand ∧ (st deep).AtHead iss deep
    ∧ (st strand).groupOf strand = some (group 64 64) ∧ strand.takes (strand.predOf 1 false) = none ∧ strand.sstack.length < 32 ∧ (∀ y ∈ (st strand).units, y.id < (st strand).nextId)
    ∧ deep.takes (deep.predOf 1 false) = none ∧ 32 ≤ deep.sstack.length :=
  ⟨head_of _ _ _ rfl, live_of _ _ _ rfl, sole_of _ _ _, head_of _ _ _ rfl, by decide⟩

/-- A span in a group and one not dealt, with a free slot, and where the cut cannot be made: no slot, or 64 undealt spans. -/
def crowded : State := { st undealt 64 128 with units := List.replicate 64 undealt }
def noSlot : State := { st (span 128 128) 128 128 with groups := [{ group 128 128 with slots := List.range 64 }] }
theorem witness_span_split : (st (span 128 128) 128 128).AtHead iss (span 128 128) ∧ (st (span 128 128) 128 128).Live (span 128 128) ∧ (st (span 128 128) 128 128).Sole (span 128 128)
    ∧ (st undealt 64 128).AtHead iss undealt ∧ (st undealt 64 128).Live undealt ∧ (st undealt 64 128).Sole undealt
    ∧ (st (span 128 128) 128 128).freeSlot 0 = some 2 ∧ (span 128 128).kind = .span ∧ undealt.kind = .undealt ∧ ((st undealt 64 128).freeSlot 0).isSome = true
    ∧ (span 128 128).predOf 1 false = .lt 40 ∧ (span 128 128).predOf 4 false = .ge 70 ∧ undealt.predOf 1 false = .lt 40
    ∧ (∀ y ∈ (st (span 128 128) 128 128).units, y.id < (st (span 128 128) 128 128).nextId) ∧ ((st undealt 64 128).undealt 1).length < 64
    ∧ 64 ≤ (crowded.undealt 1).length ∧ noSlot.freeSlot 0 = none :=
  ⟨head_of _ _ _ rfl, live_of _ _ _ rfl, sole_of _ _ _, head_of _ _ _ rfl, live_of _ _ _ rfl, sole_of _ _ _, by decide⟩

def nested : SUnit := { strand with nest := 16, nestmax := 16 }
theorem witness_calls : (st nested).AtHead iss nested ∧ (st (span 64 64)).AtHead iss (span 64 64) ∧ (st strand).AtHead iss strand ∧ (st strand).Live strand ∧ (st strand).Sole strand
    ∧ (st deep).AtHead iss deep
    ∧ nested.anyActive (nested.guardOf (nested.predOf 7 false)) = true ∧ nested.nestmax ≤ nested.nest ∧ nested.region = none
    ∧ (span 64 64).anyActive ((span 64 64).guardOf ((span 64 64).predOf 7 false)) = true ∧ (span 64 64).region = none
    ∧ strand.anyActive (strand.guardOf (strand.predOf 4 false)) = false ∧ strand.takes (strand.predOf 1 false) = none ∧ strand.wait = .none ∧ strand.inl = []
    ∧ strand.sstack.length < 32 ∧ (∀ y ∈ (st strand).units, y.id < (st strand).nextId) ∧ 32 ≤ deep.sstack.length ∧ deep.inl = [] ∧ deep.region = none :=
  ⟨head_of _ _ _ rfl, head_of _ _ _ rfl, head_of _ _ _ rfl, live_of _ _ _ rfl, sole_of _ _ _, head_of _ _ _ rfl, by decide⟩

def waiting : SUnit := { strand with sstack := [77] }
/-- Two siblings parked at one JOIN, with a register that differs. -/
def parked (u : SUnit) : SUnit := { u with sstack := [77], wait := .join 0x1008 8 }
def parkedPair : State := { st (parked strand) with units := [parked strand, parked { sibling with v := [(2, .u 9)] }] }
theorem witness_join : (st (span 64 64)).AtHead iss (span 64 64) ∧ (st strand).AtHead iss strand ∧ (st waiting).AtHead iss waiting ∧ (st strand).Inv
    ∧ strand.sstack = [] ∧ waiting.sstack ≠ [] ∧ ((two waiting).siblings 77).any (fun y => y.parkedAt == none) = true
    ∧ (parkedPair.siblings 77).length = 2 ∧ (∀ y ∈ parkedPair.siblings 77, y.kind = .strand ∧ y.parkedAt = some (0x1008, 8) ∧ parkedPair.owesWhole y = false)
    ∧ ({ parkedPair with pend := [{ id := 5, targets := [3], clause := 0, wait := .ready, writes := [.vu 2 (.u 1)], setA := true, setB := true, batch := false }] } : State).owesWhole (parked strand) = true
    ∧ (parked strand).parkedAt ≠ ({ parked sibling with wait := .join 0x2008 8 } : SUnit).parkedAt
    ∧ (group 64 64).rowOf 0 6 = some 1 :=
  ⟨head_of _ _ _ rfl, head_of _ _ _ rfl, head_of _ _ _ rfl, inv_of _ _ _, by decide⟩
theorem witness_fusion : (parked strand).Inv ∧ parked strand ∈ parkedPair.siblings 77 ∧ (∀ y ∈ parkedPair.siblings 77, y.isStrand = true ∧ y.lo = (parked strand).lo)
    ∧ (parkedPair.siblings 77).Pairwise (fun y z => y.mask &&& z.mask = 0) ∧ (∀ r ∈ [2, 6], r < 8) ∧ lowestSlot (parkedPair.siblings 77) = some (parked strand)
    ∧ lowestUnit (parkedPair.siblings 77) = some (parked strand)
    ∧ (let s : State := { parkedPair with groups := [{ group 64 64 with rowMap := [], gregs := 1 }] }
       s.groupOf (parked strand) = some { group 64 64 with rowMap := [], gregs := 1 })
    ∧ ((List.range 8).filter (fun r => (parkedPair.siblings 77).any (fun x => x.vreg r != (parked strand).vreg r) || (parked strand).vIsG r)) = 2 :: [3, 4, 5, 6, 7] :=
  ⟨⟨by decide, by decide, by decide, by decide⟩, by decide⟩
theorem witness_recovery : affineFit [(0, 5), (3, 11)] = some (.a 5 2) ∧ affineFit [(0, 5), (3, 5)] = some (.u 5) ∧ affineFit [(0, 5), (1, 7), (2, 8)] = none
    ∧ (predShape 0 [0, 1, 5] (fun k => decide (k < 5))).holds 5 5 = false := by decide

def suspending : State := { st strand with ctxs := [{ ctxZero with num := 1, part := some 0, state := .suspending }] }
theorem witness_system : (st strand).AtHead iss strand ∧ suspending.AtHead iss strand ∧ strand.anyActive (strand.guard 7 false) = true
    ∧ strand.anyActive (strand.guard 4 false) = false ∧ strand.region = none ∧ ((st strand).ctx? ((st strand).ctxOf strand)).any (fun c => c.state == .running) = true
    ∧ (suspending.ctx? (suspending.ctxOf strand)).any (fun c => c.state == .suspending && !c.broke) = true
    ∧ (({ suspending with ctxs := [{ ctxZero with num := 1, part := some 0, state := .suspended }] } : State).ctx? 1).any (fun c => c.state != .running && c.state != .suspending) = true ∧ (st strand).launchOf strand = some (launch 64 64)
    ∧ strand.predOf 7 false = .u true ∧ sregWide 0x0A = false ∧ sregWide 0x13 = true ∧ strand.regionHit [2, 3] [] = none ∧ strand.inl = []
    ∧ (strand.guard 1 false).mask ≠ 0 ∧ strand.predOf 1 false ≠ .u true ∧ isOk ((st strand).ensureRows strand [2, 3]) = true ∧ ((st strand).vAt strand 2 0).toNat ≤ 32
    ∧ 32 < ((st strand).vAt strand 5 0).toNat :=
  ⟨head_of _ _ _ rfl, ⟨⟨[], rfl⟩, by decide⟩, by decide⟩

def inlined : SUnit := { strand with inl := [{ hdr := 0x1000, slot := 0, reg := 2, clause := 0, depth := 1, nest := 0 }] }
def routine : State := { st strand with ctxs := [{ ctxZero with num := 1, part := some 0, state := .running, trap := 0x9000 }] }
theorem witness_trap : routine.AtHead iss strand ∧ routine.Live strand ∧ (st strand).AtHead iss strand ∧ (st strand).Live strand ∧ (st inlined).AtHead iss inlined
    ∧ routine.trapRoutine strand = 0x9000 ∧ strand.tcause = 0 ∧ strand.nest < strand.nestmax ∧ strand.rstack.length < 32 ∧ (st strand).trapRoutine strand = 0
    ∧ (st strand).launchOf strand = some (launch 64 64) ∧ inlined.inl ≠ [] :=
  ⟨⟨⟨[], rfl⟩, by decide⟩, live_of strand 64 64 rfl, head_of _ _ _ rfl, live_of _ _ _ rfl, head_of _ _ _ rfl, by decide⟩

/-- The worked results of R308. -/
theorem test_float_arithmetic : opFadd (env .f32) 0 0x8000_0000 0 = 0 ∧ opFadd { env .f32 with rm := .rdn } 0 0x8000_0000 0 = 0x8000_0000
    ∧ opFsub (env .f32) 0x7F80_0000 0x7F80_0000 0 = 0x7FC0_0000 ∧ opFfma (env .f32) 0 0x7F80_0000 0x7FC0_0000 = 0x7FC0_0000
    ∧ opFadd (env .f16) 0x7BFF 0x4C00 0 = 0x7C00 ∧ opFadd (env .f16 true) 0x7BFF 0x4C00 0 = 0x7BFF
    ∧ opFmul (env .f32) 0x0D80_0000 0x2180_0000 0 = 0 ∧ opFmul { env .f32 with rm := .rup } 0x0D80_0000 0x2180_0000 0 = 1
    ∧ opFfma (env .f32) 0x3F80_0001 0x3F7F_FFFE 0xBF80_0000 = 0xA880_0000 := by decide

/-- The worked results of R313, R319 and R31. -/
theorem test_conversions : opFscale (env .f32) 0x3FC0_0000 0xFFFF_FF6A 0 = 1
    ∧ convert .rne false .f32 .s32 0x4020_0000 = 2 ∧ convert .rtz false .f32 .s32 0xC02C_CCCD = 0xFFFF_FFFE ∧ convert .rne false .f32 .s32 0x4F32_D05E = 0x7FFF_FFFF
    ∧ convert .rne false .f32 .n32 0x7FC0_0000 = 0 ∧ convert .rne false .n32 .f32 0xFFFF_FFFF = 0x4F80_0000 ∧ convert .rtz false .n32 .f32 0xFFFF_FFFF = 0x4F7F_FFFF
    ∧ convert .rne false .s32 .s16 70000 = 0x1170 ∧ convert .rne true .s32 .s16 70000 = 0x7FFF ∧ convert .rne false .s32 .s16 0xFFFE_EE90 = 0xFFFF_EE90
    ∧ convert .rne false .f32 .e4m3 0x43EB_0000 = 0x7F ∧ convert .rne false .f32 .e4m3 0x43E6_0000 = 0x7E ∧ convert .rne false .f32 .e4m3 0x4396_0000 = 0x79
    ∧ convert .rne false .e5m2 .e4m3 0xFC = 0xFF ∧ convert .rne true .e5m2 .e4m3 0xFC = 0xFE ∧ convert .rne true .e5m2 .e4m3 0x7F = 0x7F := by decide

/-- Operands as the statement on floating point asks for them: finite ones with a divisor that is not zero and with one that is, a NaN, a sum that is zero. -/
theorem witness_floats : (fmtF32.decode 0x3F80_0000).isFin = true ∧ (fmtF32.decode 0x4040_0000).isFin = true ∧ (fmtF32.decode 0x4040_0000).val ≠ 0
    ∧ (fmtF32.decode 0x8000_0000).isFin = true ∧ (fmtF32.decode 0x8000_0000).val = 0 ∧ fmtF32.decode 0x7FC0_0000 = .nan
    ∧ (fmtF32.decode 0x3F80_0000).val + (fmtF32.decode 0xBF80_0000).val = 0 ∧ (tyFfmt .e4m3).decode (0x38 % 2 ^ (tyFfmt .e4m3).width) = .fin false 8 (-3) := by decide +kernel

/-! Memory. One page of the first tier at 0x10000, mapped at core 0; v20, v21 name 0x10080. -/

def page (va frame : Nat) (bits : Nat := 0x80F) : TlbEntry :=
  { place := .core 0, tagCtx := some 1, tagPart := none, va := va, bytes := 65536, leaf := true, entry := BitVec.ofNat 64 (frame + bits) }
def mapped (u : SUnit) : State :=
  { st u with tlb := [page 0x1_0000 0x500_0000], mem := [(0x500_0080, 1), (0x500_0081, 2), (0x500_0084, 0x80)], pad := [(0, 3), (100, 4)] }
theorem mapped_head (u : SUnit) (h : u.id = 3) : (mapped u).AtHead iss u := ⟨⟨[], rfl⟩, by simp [State.unit?, mapped, st, iss, h]⟩
theorem mapped_inv (u : SUnit) : (mapped u).Inv := ⟨(by decide : (mapped strand).mem.wf = true), (by decide : Memory.wf (mapped strand).pad = true), rfl, rfl,
  (by decide : Kv.wf (List.replicate 64 0) rowsOf = true)⟩
/-- The places of an access, when its checks pass. -/
def gplaces (s : State) (u : SUnit) (f : FmtM) (need : Need) (idx : Bool) (n align : Nat) (items : List Nat) (p : List (Nat × Nat × Nat × Leaf) → State → Bool) : Bool :=
  match s.globalPlaces u f need idx n align false items with
  | (.inr ps, s1) => p ps s1
  | (.inl _, _) => false
def pplaces (s : State) (u : SUnit) (g : Group) (f : FmtM) (idx : Bool) (n align : Nat) (items : List Nat) (p : List (Nat × Nat × Nat × Nat) → Bool) : Bool :=
  match s.padPlaces u g f idx n align items with
  | .ok ps => p ps
  | .error _ => false
def all7 : Guard := strand.guard 7 false

theorem witness_loads : (mapped strand).AtHead iss strand ∧ strand.anyActive all7 = true ∧ strand.regionHit [9] [] = none ∧ strand.predOf 7 false = .u true
    ∧ strand.accessOne (m 9 20 127 .s32) false false = true ∧ (mapped strand).hostReads = []
    ∧ gplaces (mapped strand) strand (m 9 20 127 .s32) .read true 4 4 (strand.accessItems all7 true) (fun ps s1 => (s1.poisonPlace 4 ps).isNone && ps.all (fun p => !s1.inHost p)) = true
    ∧ strand.accessOne (m 9 20 6 .n8 0) false false = false ∧ strand.isStrand = true
    ∧ gplaces (mapped strand) strand (m 9 20 6 .n8 0) .read true 1 1 (strand.accessItems all7 false) (fun ps s1 => (s1.poisonPlace 1 ps).isNone && ps.all (fun p => !s1.inHost p)
        && isOk ((s1.lookBack strand (strand.readers all7 false) 1 ps).2.reserveRows strand [9])) = true
    ∧ (mapped strand).groupOf strand = some (group 64 64) ∧ strand.accessOne (m 9 127 127 .b32) true false = true
    ∧ pplaces (mapped strand) strand (group 64 64) (m 9 127 127 .b32) true 4 4 (strand.accessItems all7 true) (fun ps => ((mapped strand).padPoisonPlace 4 ps).isNone) = true
    ∧ pplaces (mapped strand) strand (group 64 64) (m 9 4 127 .n8) true 1 1 (strand.accessItems all7 false) (fun ps => ((mapped strand).padPoisonPlace 1 ps).isNone) = true :=
  ⟨mapped_head _ rfl, by decide⟩

/-- A byte at 0x10080 that item 5 has stored over a 1, and nothing has published; item 5 sees it, another item need not (R145, R146). -/
def lagging : State :=
  { mapped strand with l1 := [(0x500_0080, some 7)], unseen := [(0x500_0080, some { old := some 1, launch := 1, item := 5 })] }
theorem witness_old_bytes : lagging.unseenByte 0 0x500_0080 = some { old := some 1, launch := 1, item := 5 } ∧ lagging.unseenByte 0 0x500_0081 = none ∧ strand.launch = 1
    ∧ strand.readers all7 false 6 5 = false ∧ strand.readers all7 false 5 5 = true ∧ 0x500_0080 + 4 ≤ 2 ^ 52
    ∧ gplaces lagging strand (m 9 20 127 .n8) .read true 1 1 [5] (fun ps s1 => ps.length == 1 && (s1.lookBack strand (strand.readers all7 false) 1 ps).1 == false) = true
    ∧ gplaces lagging strand (m 9 20 127 .n8) .read true 1 1 [6] (fun ps s1 => ps.all (fun p => pteWeave p.2.2.2.pte == 0
        && s1.loadBytes strand true (strand.readers all7 false 6) p.2.2.2 p.2.1 1 == [1] && s1.loadBytes strand false (strand.readers all7 false 6) p.2.2.2 p.2.1 1 == [7])) = true := by decide +kernel

theorem plain_page : (mapped strand).Plain 0x500_0080 :=
  ⟨by decide, by intro i; rw [show (mapped strand).kind 0x500_0080 = .first 0 by decide]; simp⟩
theorem witness_stores : (mapped strand).AtHead iss strand ∧ (mapped strand).Inv ∧ (mapped strand).Plain 0x500_0080 ∧ (mapped strand).atomq = [] ∧ strand.anyActive all7 = true
    ∧ gplaces (mapped strand) strand (m 2 20 127 .s32) .write true 4 4 (strand.accessItems all7 (strand.accessOne (m 2 20 127 .s32) false true)) (fun ps s1 =>
        ps.length == 1 && ps.all (fun p => pteWeave p.2.2.2.pte == 0 && p.2.2.1 == 0x500_0080 && s1.kind p.2.2.1 == .first 0)) = true
    ∧ (mapped strand).groupOf strand = some (group 64 64)
    ∧ pplaces (mapped strand) strand (group 64 64) (m 2 4 127 .n8) true 1 1 (strand.accessItems all7 (strand.accessOne (m 2 4 127 .n8) true true)) (fun ps => ps.length == 48) = true
    ∧ pplaces (mapped strand) strand (group 64 64) (m 2 127 127 .b32) true 4 4 (strand.accessItems all7 (strand.accessOne (m 2 127 127 .b32) true true)) (fun ps => ps.length == 1) = true :=
  ⟨mapped_head _ rfl, mapped_inv _, plain_page, by decide⟩

theorem witness_access_faults : (mapped strand).AtHead iss strand ∧ (st strand).AtHead iss strand ∧ strand.isStrand = true ∧ strand.anyActive all7 = true
    ∧ strand.region = none ∧ (mapped strand).gaddr strand (m 9 20 127 .s32 7 2) true 0 % 4 = 2 ∧ (mapped strand).poff strand (m 9 2 127 .s32) true 0 % 4 = 3
    ∧ (mapped strand).gaddr strand (m 9 20 2 .s32 7 2) false 0 % atomAlign .add .s32 = 2 ∧ (mapped strand).poff strand (m 9 2 3 .s32) false 0 % atomAlign .add .s32 = 3
    ∧ (st strand).gaddr strand (m 9 20 127 .s32) true 0 % 4 = 0
    ∧ ((st strand).ctx? ((st strand).ctxOf strand)).any (fun c => ((st strand).walkFor (.core 0) c 0x1_0080).isNone) = true ∧ (st strand).tlb = []
    ∧ (st strand).poff strand (m 9 3 127 .s32) true 0 % 4 = 0 ∧ (group 64 64).padPlace 0 0x3F80_0000 4 = none :=
  ⟨mapped_head _ rfl, head_of _ _ _ rfl, by decide⟩

theorem witness_fences : (mapped strand).AtHead iss strand ∧ (mapped strand).Inv ∧ (st (span 64 64)).AtHead iss (span 64 64) ∧ (mapped strand).Plain 0x500_0080
    ∧ strand.anyActive (strand.guard 4 false) = false ∧ strand.anyActive all7 = true ∧ (mapped strand).kind 0x500_0080 = .first 0
    ∧ Kv.get none (mapped strand).l1 (1 * paSpace + 0x500_0080) = none ∧ clusterOf 1 = clusterOf 0 ∧ (span 64 64).addrIsU (m 0 2 127 .s8) false true = true :=
  ⟨mapped_head _ rfl, mapped_inv _, head_of _ _ _ rfl, plain_page, by decide⟩

theorem witness_atoms_issued : (mapped strand).AtHead iss strand ∧ strand.isStrand = true ∧ strand.region = none ∧ strand.anyActive (strand.guard 4 false) = false
    ∧ strand.anyActive all7 = true
    ∧ gplaces (mapped strand) strand (m 9 20 2 .s32) .both false 4 4 (strand.atomItems all7 .add) (fun ps s1 => ps.length == 48 && (s1.poisonPlace 4 ps).isNone
        && isOk (s1.reserveRows strand [9])) = true
    ∧ (match (mapped strand).globalPlaces strand (m 0 20 1 .xa) .both false 48 16 true (strand.atomItems all7 .xam) with
       | (.inr ps, s1) => ps.length == 1 && (s1.poisonPlace 48 ps).isNone
       | (.inl _, _) => false) = true :=
  ⟨mapped_head _ rfl, by decide⟩

def request : AtomReq :=
  { op := 5, word := 0x1008, after := 0x1018, va := 0x1_0080, source := 0, slot := 0, item := 0, lane := 0, cluster := 0, pa := 0x500_0080, ask := none, ctx := 1, sub := 0, ty := .s32, data := 7, data2 := 0, acc := XAcc.zero, reg := some 9, lo := 0 }
def asked : State := { mapped strand with atomq := [request], pend := [{ id := 5, targets := [3], clause := 0, wait := .entries 2, writes := [], setA := true, setB := true, batch := false }] }
theorem asked_inv : asked.Inv := ⟨by decide, by decide, rfl, rfl, (by decide : Kv.wf (List.replicate 64 0) rowsOf = true)⟩
theorem witness_atomic_engine : asked.Inv ∧ (mapped strand).AtHead iss strand ∧ asked.nextReq 0 = some request
    ∧ asked.halted 0 = false ∧ asked.reqAnswer request = none ∧ asked.poisonedAt request.pa (atomBytes 0 .s32) = false ∧ asked.overLink request.pa = false ∧ asked.lands request.pa = true
    ∧ (∀ k, k < atomBytes 0 .s32 → asked.place (request.pa + k) = asked.place request.pa + k)
    ∧ (let s : State := { asked with poison := { asked.poison with lines := [0xA_0001] } }
       s.nextReq 0 = some request ∧ s.reqAnswer request = none ∧ s.poisonedAt request.pa (atomBytes 0 .s32) = true ∧ s.reqUnit request = some strand ∧ s.unit? 3 = some strand ∧ s.halted 0 = false) ∧ asked.pend.any (fun o => o.id == 5 && o.wait == .entries 2) = true ∧ (mapped strand).groupOf strand = some (group 64 64)
    ∧ pplaces (mapped strand) strand (group 64 64) (m 9 127 2 .s32) false 4 4 (strand.atomItems all7 .add) (fun ps => ((mapped strand).padPoisonPlace 4 ps).isNone
        && isOk ((mapped strand).reserveRows strand [9])) = true
    ∧ pplaces (mapped strand) strand (group 64 64) (m 0 127 1 .xa) false 48 16 (strand.atomItems all7 .xam) (fun ps => ((mapped strand).padPoisonPlace 48 ps).isNone) = true
    ∧ atomNew 8 .s32 5 5 9 = some 9 ∧ atomNew 8 .s32 5 6 9 = none ∧ atomNew 9 .n32 5 5 0 = some 0 ∧ atomNew 0 .s32 0xFFFF_FFFF 1 0 = some 0
    ∧ atomNew 2 .s32 5 0xFFFF_FFFF 0 = some 0xFFFF_FFFF :=
  ⟨asked_inv, mapped_head _ rfl, by decide⟩

/-! Memory beyond the host links: the same page in the first third-tier range, with link 0 UP. -/
def far : State :=
  { mapped strand with tlb := [page 0x1_0000 0x1_0000_0000_0000]
                       hostSide := { State.reset.hostSide with ranges := [{ hbase := 0, enable := true, len := 1 }], links := [{ lstate := 2, gen := 5, width := 16, cxl := 0 }] } }
def farRequest (ask : Option Nat) : AtomReq := { request with pa := 0x1_0000_0000_0080, ask := ask }
def farAsked (ask : Option Nat) (answer : Option (Bool × List Byte)) : State :=
  { far with atomq := [farRequest ask], pend := asked.pend, hostReads := [{ op := 9, unit := 0, pa := 0x1_0000_0000_0080, bytes := 4, answer := answer }] }
theorem witness_far_loads : far.AtHead iss strand
    ∧ gplaces far strand (m 9 20 127 .s32) .read true 4 4 (strand.accessItems all7 true) (fun ps s1 => (s1.poisonPlace 4 ps).isNone && s1.hostLines (ps.map (·.2.2.1)) == [] && (s1.askHost strand 4 ps).isSome) = true
    ∧ [true, false].all (fun ok => gplaces { far with hostReads := [{ op := 9, unit := 3, pa := 0x1_0000_0000_0080, bytes := 4, answer := some (ok, [1, 2, 3, 4]) }] } strand (m 9 20 127 .s32) .read true 4 4
        (strand.accessItems all7 true) (fun ps s1 => (s1.askHost strand 4 ps).isNone && (ps.find? (s1.hostTurnsAway strand 4)).isNone == ok)) = true
    ∧ gplaces (farAsked (some 9) none) strand (m 9 20 127 .s32) .read true 4 4 (strand.accessItems all7 true) (fun ps s1 =>
        (s1.poisonPlace 4 ps).isNone && (s1.serveLines (ps.map (·.2.2.1))).hostLines (ps.map (·.2.2.1)) != []) = true
    ∧ (let s := farAsked none none; (s.serveLines (s.coreAtoms 0)).hostLines ((s.serveLines (s.coreAtoms 0)).coreAtoms 0) ≠ []) :=
  ⟨⟨⟨[], rfl⟩, by decide⟩, by decide⟩
theorem witness_far_atoms : (farAsked none none).nextReq 0 = some (farRequest none) ∧ (farAsked none none).halted 0 = false ∧ (farAsked none none).poisonedAt (farRequest none).pa 4 = false
    ∧ (farAsked none none).overLink (farRequest none).pa = true
    ∧ [(true, [1, 2, 3, 4]), (false, [])].all (fun a => let s := farAsked (some 9) (some a)
        s.nextReq 0 == some (farRequest (some 9)) && s.reqAnswer (farRequest (some 9)) == some a && s.lands (farRequest none).pa && (s.reqUnit (farRequest (some 9))).isSome
          && (List.range 4).all (fun k => s.place ((farRequest none).pa + k) == s.place (farRequest none).pa + k)) = true :=
  by decide

/-! Batches, barriers, the matrix array. -/

def batched : SUnit := { strand with closed := [(40, [1, 2]), (41, [3])], openB := [5], v := strand.v ++ [(30, .u 0x40), (32, .u 0x40)] }
def entry0 (id queue : Nat) (job : EngJob) : EngEntry :=
  { id := id, core := 0, queue := queue, engine := 0, op := 5, unit := 3, item := 0, lane := 0, lo := 0, ctx := 1, launch := 1, group := some 2, reg := 8, fmode := 0, job := job, after := [] }
def queued : State := { st batched with engq := [entry0 60 0 (.coll 0x100)] }
theorem witness_async : queued.AtHead iss batched ∧ (st batched).Live batched ∧ (st batched).Sole batched ∧ batched.anyActive (batched.guard 7 false) = true ∧ batched.kind ≠ .undealt ∧ batched.region = none
    ∧ copyBarrier (queued.groupOf batched) none = none ∧ copyBarrier (queued.groupOf batched) (some 9) = some 9 ∧ acpMisaligned 4 0 none [(0, 0x40, 0x1_0080)] = none
    ∧ batched.closed.length ≤ (x 0 0 0 0 2 0).imm8.toNat ∧ (x 0 0 0 0 1 0).imm8.toNat < batched.closed.length ∧ (x 0 0 0 0 0 1).ctrl.extractLsb' 0 6 ≠ 0
    ∧ (x 0 0 0 0 0 0).ctrl.extractLsb' 0 6 = 0 ∧ batched.regionHit [2] [] = none ∧ (batched.guard 7 false).isTrue = true ∧ (batched.guard 1 false).isTrue = false
    ∧ batched.isStrand = true ∧ iss.entered = false ∧ ({ queued with issue := [{ iss with entered := true }] } : State).issue = [{ iss with entered := true }] ∧ isOk (queued.reserveRows batched [2]) = true ∧ queued.unit? 3 = some batched :=
  ⟨⟨⟨[], rfl⟩, by decide⟩, live_of _ _ _ rfl, sole_of _ _ _, by decide⟩

def bar (s : BarState) (expect arrived : Nat) (phase : W32) (mask : Option (BitVec 16)) : Barrier :=
  { state := s, expect := expect, arrived := arrived, bytes := 0, phase := phase, mask := mask, cont := none, brk := if s = .broken then 2 else 0 }
def barGroup : Group := { group 64 64 with bars := [bar .idle 64 0 7 none, bar .broken 64 0 7 none, bar .uninit 0 0 0 none, bar .opened 128 48 8 (some 3)] }
/-- The pad word at 0x40 is 7; v32, v33 hold 7 and 0; v30 holds 0x40. -/
def barUnit : SUnit := { strand with v := strand.v ++ [(30, .u 0x40), (32, .u 7)], duties := [{ clause := 0, pip := 1, isA := true, issued := true }] }
def barred : State := { st barUnit with groups := [barGroup], pad := [(0x40, 7)] }
theorem witness_barriers : barred.AtHead iss barUnit ∧ (st barUnit).Live barUnit ∧ (st barUnit).Sole barUnit ∧ barUnit.anyActive (barUnit.guard 4 false) = false ∧ barUnit.anyActive (barUnit.guard 7 false) = true ∧ barred.groupOf barUnit = some barGroup
    ∧ barGroup.bars[0]? = some (bar .idle 64 0 7 none) ∧ barGroup.bars[2]? = some (bar .uninit 0 0 0 none) ∧ barUnit.vIsU 2 = true ∧ (barred.vAt barUnit 2 0).toNat = 7
    ∧ (match (bar .idle 64 0 7 none).arrive barGroup 1 (barUnit.active (barUnit.guard 7 false)) with | .counted b => b.arrived == 48 && b.cont.isNone | _ => false) = true
    ∧ (barUnit.guard 7 false).isTrue = true ∧ (bar .broken 64 0 7 none).state = .broken
    ∧ (bar .opened 128 48 8 (some 3)).arrive barGroup 1 (barUnit.active (barUnit.guard 7 false)) = .mismatch ∧ barUnit.region = none ∧ barUnit.isStrand = true
    ∧ barUnit.regionHit [9, 10] [] = none ∧ barred.vAt barUnit 2 0 ≠ 8 ∧ barred.vAt barUnit 2 0 = 7 ∧ barUnit.wIsU 20 = true ∧ contiguousMask 1 = true
    ∧ barUnit.activeCount (barUnit.guard 7 false) = barUnit.items.length ∧ barUnit.activeCount (barUnit.guard 1 false) ≠ barUnit.items.length ∧ barUnit.pips &&& 1 = 0
    ∧ barUnit.pips &&& 2 ≠ 0
    ∧ (match ({ bar .opened 64 0 7 (some 1) with cont := some 0x2000 } : Barrier).arrive barGroup 1 (barUnit.active (barUnit.guard 7 false)) with
       | .counted b => b.cont == some 0x2000 && barred.wAt barUnit 20 0 != 0x2000
       | _ => false) = true ∧ contiguousMask 5 = false :=
  ⟨⟨⟨[], rfl⟩, by decide⟩, live_of _ _ _ rfl, sole_of _ _ _, by decide⟩
theorem witness_waita : (match padItems barGroup 0 8 8 ((barUnit.active (barUnit.guard 7 false)).map (fun k => (k, (barred.vAt barUnit 30 k).toNat))) with
      | .ok ps => ps != [] && (barred.padPoisonPlace 8 ps).isNone && ps.all (fun p => wordReady (barred.padWord p.2.2.1 p.2.2.2) (barred.wAt barUnit 32 p.1))
      | .error _ => false) = true
    ∧ (match padItems barGroup 0 8 8 ((barUnit.active (barUnit.guard 1 false)).map (fun k => (k, (barred.vAt barUnit 30 k).toNat))) with
      | .ok ps => ps.all (fun p => wordReady (barred.padWord p.2.2.1 p.2.2.2) (barred.wAt barUnit 32 p.1)) && isOk (barred.ensureRows barUnit [2, 3])
      | .error _ => false) = true :=
  by decide
theorem witness_arrivals : (∀ k ∈ [0, 63], (1 : BitVec 16).getLsbD ((k - barGroup.base) / 64) = true)
    ∧ (∀ j, j < 16 → (1 : BitVec 16).getLsbD j = true → j < barGroup.size / 64) ∧ (bar .idle 64 0 7 none).mask = none ∧ barred.group? barGroup.id = some barGroup
    ∧ 3 < barGroup.bars.length ∧ (bar .opened 128 48 8 (some 3)).state = .opened ∧ (bar .opened 64 64 8 (some 1)).arrived = (bar .opened 64 64 8 (some 1)).expect
    ∧ (bar .opened 64 65 8 (some 1)).expect < (bar .opened 64 65 8 (some 1)).arrived
    ∧ barGroup.bars[1]? = some (bar .broken 64 0 7 none) ∧ (bar .broken 64 0 7 none).state ≠ .idle ∧ (bar .broken 64 0 7 none).state ≠ .opened
    ∧ (let g : Group := { barGroup with bars := [{ bar .opened 64 64 8 (some 1) with bytes := 4 }] }
       ({ barred with groups := [g] } : State).group? g.id = some g ∧ g.bars[0]? = some { bar .opened 64 64 8 (some 1) with bytes := 4 } ∧ (4 : Int) < (6 : Nat)) :=
  by decide

/-- The head of the ports waits on a barrier; the clause of another unit can go on, or none can. -/
def held : SUnit := { strand with wait := .barw 0 [7] }
def waits (others : List Issue) : State := { two held with groups := [barGroup], issue := iss :: others }
theorem witness_step_waits : (waits [{ iss with unit := 5 }]).AtHead iss held ∧ (waits []).AtHead iss held ∧ held.wait ≠ .none
    ∧ (waits []).agenda = [] ∧ (waits []).poison.rows = [] ∧ (waits [{ iss with unit := 5 }]).issue = [iss] ++ { iss with unit := 5 } :: []
    ∧ (waits [{ iss with unit := 5 }]).unit? 3 = some held ∧ (waits [{ iss with unit := 5 }]).waitOver held = false ∧ (3 : Nat) ≠ 5
    ∧ (waits [{ iss with unit := 5 }]).unit? 5 = some sibling ∧ (waits [{ iss with unit := 5 }]).waitOver sibling = true ∧ (waits []).waitOver held = false :=
  ⟨⟨⟨_, rfl⟩, by decide⟩, ⟨⟨_, rfl⟩, by decide⟩, by decide⟩

/-- A clause of the MMA class. -/
def issM : Issue := { iss with hdr := { hdr with cls := .mma }, words := [encode (.mzero (x 0 0 0 0 0 0)), 0] }
def mmaState (u : SUnit) (holder : Option Nat) : State := { st u with issue := [issM], tiles := [{ core := 0, group := holder, paired := false, elems := [(5, 0x4000_0000)] }] }
/-- v30 holds 0x40 and the pad has 4096 bytes, so that 4 bytes a row of a drain of 8 bits do not fit; MZERO names no offset. -/
def offsets : SUnit := { strand with v := strand.v ++ [(30, .u 0x40), (31, .u 0x80), (32, .u 0x3F0_0000)] }
theorem witness_mma : (st offsets).AtHead iss offsets ∧ (mmaState offsets (some 77)).AtHead issM offsets ∧ (mmaState offsets none).AtHead issM offsets ∧ (st offsets).groupOf offsets = some (group 64 64) ∧ offsets.anyActive (offsets.guard 4 false) = false
    ∧ offsets.anyActive (offsets.guard 7 false) = true
    ∧ issM.word = .mzero (x 0 0 0 0 0 0) ∧ (∀ j ∈ (mmaState offsets none).issue, j.unit = offsets.id)
    ∧ ((mmaState offsets none).closeRegion offsets).mmaReady offsets.noRegion [.mzero (x 0 0 0 0 0 0)] = true
    ∧ ((mmaState offsets (some 77)).closeRegion offsets).mmaReady offsets.noRegion [.mzero (x 0 0 0 0 0 0)] = false
    ∧ ((st offsets).mmaOperation offsets iss (group 64 64) (x 0 0 0 0 0 0) 1 []).footprints (group 64 64) = [] ∧ offsets.region = none
    ∧ ((st offsets).vAt offsets 2 0).toNat % 16 = 7 ∧ ((st offsets).vAt offsets 32 0).toNat % 16 = 0
    ∧ (((st offsets).mmaOperation offsets iss (group 64 64) (x 0 32 31 0 4 0) 0 [32, 31]).footprints (group 64 64)).any (fun y => ((group 64 64).padPlace 0 y.1 y.2).isNone) = true
    ∧ ((mmaState offsets (some 77)).tile 0).group ≠ some 2 :=
  ⟨head_of _ _ _ rfl, ⟨⟨_, rfl⟩, by decide⟩, ⟨⟨_, rfl⟩, by decide⟩, by decide⟩

def tileOp (kind next : Nat) (assist : Bool) : MmaOp :=
  { id := 8, op := 5, core := 0, unit := 3, group := 2, word := 0x1008, kind := kind, pair := false, a := 0x40, b := 0x80, kb := 4, planes := 1, bfmt := 0, dfmt := 0, round := 0
    sat := false, clear := false, keep := false, next := next, assist := assist, after := 0x1018 }
def sequenced (kind : Nat) (assist : Bool) : State := { st strand with mmaq := [tileOp kind 0 assist], tiles := [{ core := 0, group := some 2, paired := false, elems := [] }] }
theorem witness_sequencer : (sequenced 0 false).mmaTurn 0 = some (tileOp 0 0 false) ∧ (sequenced 1 false).mmaTurn 0 = some (tileOp 1 0 false)
    ∧ (sequenced 2 false).mmaTurn 0 = some (tileOp 2 0 false) ∧ (sequenced 3 false).mmaTurn 0 = some (tileOp 3 0 false)
    ∧ (sequenced 0 true).mmaTurn 0 = some (tileOp 0 0 true) ∧ (sequenced 0 false).group? 2 = some (group 64 64) ∧ (sequenced 3 false).poison.padWords = []
    ∧ (tileOp 0 0 true).next < (tileOp 0 0 true).kb ∧ Kv.wf (0 : W32) ((sequenced 0 false).tile 0).elems = true
    ∧ (List.replicate 128 (none : Option (List Fv))).length = 128 ∧ (tileOp 2 0 false).dfmt = 0 :=
  by decide

/-! Hanks and beams. A hank of eight leas at 0x10100 with its directory at 0x10200: lea 0 has one block, at 0x11000, with the element of key 0 and stamp 1 (R171, R175). -/

def enginePage (bits : Nat) : TlbEntry := { page 0x1_0000 0x500_0000 bits with place := .cluster 0 }
def header : List (Nat × Byte) :=
  [(0x500_0104, 1), (0x500_0107, 3), (0x500_0126, 0xF0), (0x500_0127, 0x3F), (0x500_0128, 0xFF), (0x500_0131, 2), (0x500_0132, 1), (0x500_0159, 0x20), (0x500_015A, 1), (0x500_0160, 1)]
def leaZero : List (Nat × Byte) := [(0x500_0201, 0x10), (0x500_0202, 1), (0x500_0218, 1)]
def block : List (Nat × Byte) := [(0x500_1010, 1), (0x500_1012, 5), (0x500_1019, 1)]
def hreq (code : Nat) (key : W64) (stamp : W32) (newkey : W64 := 0) : HankReq :=
  { code := code, hank := 0x1_0100, key := key, stamp := stamp, newkey := newkey, recOk := true, payload := [], lo := 0, hi := 8, cursor := 0, pos := false, offsets := [(0, 0x40)], maskArg := 0, offset := 0x40 }
def he (code : Nat) (key : W64) (stamp : W32) (newkey : W64 := 0) : EngEntry := entry0 60 2 (.hank (hreq code key stamp newkey))
def owed : PendOp :=
  { id := 5, targets := [3], clause := 0, wait := .entries 1, writes := [.vg 8 0 1 (List.replicate 64 0), .vg 9 0 1 (List.replicate 64 0)], setA := true, setB := true, batch := false }
def hanked (e : EngEntry) (bits : Nat := 0x80F) : State := { st strand with tlb := [enginePage bits], mem := header ++ leaZero ++ block, engq := [e], pend := [owed] }
/-- What an operation ends with. -/
def ends {α : Type} (m : HM α) (s : State) (p : α → Bool) : Bool :=
  match m.on s with
  | (.ok a, _) => p a
  | (.error _, _) => false
def stops {α : Type} (m : HM α) (s : State) (p : Option Nat → Bool) : Bool :=
  match m.on s with
  | (.ok _, _) => false
  | (.error st, _) => p st.status?

/-- HKDEL of the element, HKINS of another, HKMOVE to another lea, HKDEL of an absent key, and an HKDEL on a MIGRATING page. -/
theorem witness_mutations : (hanked (he 1 0 1)).engq.find? (fun y => y.id == 60 && y.queue == 2) = some (he 1 0 1) ∧ (hanked (he 1 0 1)).hankReady (he 1 0 1) = true ∧ (hanked (he 1 0 1)).halted 0 = false
    ∧ ends (mutate (he 1 0 1)) (hanked (he 1 0 1)) (· == some 0) = true ∧ ends (mutate (he 0 0 2)) (hanked (he 0 0 2)) (· == some 2) = true
    ∧ ends (mutate (he 2 0 1 1)) (hanked (he 2 0 1 1)) (· == none) = true ∧ stops (mutate (he 1 5 1)) (hanked (he 1 5 1)) (·.isSome) = true
    ∧ stops (mutate (he 1 0 1)) (hanked (he 1 0 1) 0xA0F) (·.isNone) = true :=
  by decide +kernel

def moving (room : Bool) : State :=
  { ((mutate (he 2 0 1 1)).on { hanked (he 2 0 1 1) with mem := (if room then header else header.dropLast) ++ leaZero ++ block }).2 with engq := [] }
theorem witness_moves : (moving true).moves.length = 1 ∧ ((moving true).moves.all (fun m => m.phase == .insert && !(moving true).halted (clusterOf m.entry.core) && ends (moveIn m) (moving true) (fun _ => true) && ends (releaseSpare m) ((moveIn m).on (moving true)).2 (fun _ => true))) = true
    ∧ (moving false).moves.length = 1
    ∧ ((moving false).moves.all (fun m => stops (moveIn m) (moving false) (·.isSome) && ends (moveBack m) ((moveIn m).on (moving false)).2 (fun _ => true))) = true :=
  by decide +kernel

/-- The other operations on the same hank: opening, reading and closing without a cursor, counting, a held opening is none of them. -/
theorem witness_hank_operations : ((hanked (he 4 0 0)).hankOpen (he 4 0 0)).isSome = true ∧ ((hanked (he 5 0 0)).hankNext (he 5 0 0)).isSome = true
    ∧ ((hanked (he 6 0 0)).hankClose (he 6 0 0)).isSome = true ∧ ends (lookup (he 7 0 0)) (hanked (he 7 0 0)) (fun r => r.1 == 1) = true
    ∧ (hanked (he 7 0 0)).hankReady (he 7 0 0) = true ∧ (hanked (he 10 0 0)).hankReady (he 10 0 0) = true ∧ (hanked (he 5 0 0)).cursorOf (he 5 0 0) 0 = none
    ∧ (match (readHank (he 4 0 0).hankWho 1 0 0x1_0100).on (hanked (he 4 0 0)) with | (.ok h, s1) => h.keyOk 0 && (s1.group? 2).isSome | (.error _, _) => false) = true
    ∧ (firstFree 16 (fun n => !(hanked (he 4 0 0)).cursorHeld 0 n)) = some 0
    ∧ (hanked (he 4 0 0)).pend.find? (fun y => y.id == 5) = some owed ∧ owed.wait = .entries (0 + 1) :=
  by decide +kernel

/-- An empty hank of one lea, frozen: its ranking writes no record, and its thaw clears FROZEN. -/
def emptyHank (flags : Byte) : List (Nat × Byte) :=
  [(0x500_0100, flags), (0x500_0104, 1), (0x500_0126, 0xF0), (0x500_0127, 0x3F), (0x500_0128, 0xFF), (0x500_0131, 2), (0x500_0132, 1), (0x500_0149, 0x30), (0x500_014A, 1), (0x500_0150, 0x60), (0x500_0151, 1)]
def ranking (thaw : Bool) : State := { hanked (he 10 0 0) with mem := emptyHank 1, engq := [], ranks := [{ entry := he 10 0 0, thaw := thaw, begun := [], frozen := true }] }
theorem witness_rankings : ((ranking false).ranks.find? (fun j => j.frozen && !j.thaw && (ranking false).rankHead j && !(ranking false).halted (clusterOf j.entry.core) && !(ranking false).movesOn j.entry.ctx j.entry.hank.hank)).isSome = true
    ∧ ends (do let h ← readHank (he 10 0 0).hankWho 1 0 0x1_0100; finishRank ((ranking false).rankWho h) 1 0 0x1_0100) (ranking false) (· == 0) = true
    ∧ ((ranking true).ranks.find? (fun j => j.frozen && j.thaw && (ranking true).rankHead j && !(ranking true).halted (clusterOf j.entry.core) && !(ranking true).beams.any (fun b => b.state == .running && b.ctx == j.entry.ctx && b.hank == j.entry.hank.hank))).isSome = true
    ∧ ends (do let h ← readHank (he 10 0 0).hankWho 1 0 0x1_0100
               hCommit ((ranking true).rankWho h) h.ctx h.fm [.atom h.at_ (bytesOf 4 (h.flags &&& 6))]
               return h.nvox) (ranking true) (· == 0) = true :=
  by decide +kernel

def tiny : Hank := Hank.ofBytes 1 0 0x1_0100 ((List.replicate 4 0) ++ [1, 0, 0, 3] ++ List.replicate 248 0)
theorem witness_blocks : inOrder [{ key := 0, stamp := 1, payload := [] }, { key := 5, stamp := 1, payload := [] }] = true ∧ tiny.kbits ≤ 21
    ∧ (∀ e ∈ [({ key := 0, stamp := 1, payload := [] } : Elem), { key := 5, stamp := 1, payload := [] }], tiny.keyOk e.key = true ∧ e.payload.length = tiny.payload)
    ∧ (recordsFrom none [{ key := 0, stamp := 1, payload := [] }, { key := 5, stamp := 1, payload := [] }]) = [0, 1, 0, 0, 0, 5, 1, 0, 0, 0] ∧ varintOf 300 = [0x81, 0x2C] :=
  by decide

theorem witness_hank_issued : (st padStrand).AtHead iss padStrand ∧ (st padStrand).groupOf padStrand = some (group 64 64) ∧ padStrand.isStrand = true
    ∧ padStrand.anyActive (padStrand.guard 7 false) = true ∧ padStrand.anyActive (padStrand.guard 4 false) = false ∧ padStrand.regionHit [8, 9] [] = none
    ∧ isOk ((st padStrand).reserveRows padStrand [8, 9]) = true ∧ padStrand.region = none ∧ iss.entered = false ∧ { iss with entered := true }.entered = true
    ∧ (hankForm (.hkins (x 8 20 30 0 0 0))).any (fun h => match h.places (st padStrand) padStrand (group 64 64) with
        | .ok ps => ps.all (fun p => !(st padStrand).padPoisoned p.2.2.1 p.2.2.2 96)
        | .error _ => false) = true
    ∧ (hankForm (.hkins (x 8 20 2 0 0 0))).any (fun h => !isOk (h.places (st padStrand) padStrand (group 64 64))) = true
    ∧ (hankForm (.hkopen (x 8 20 2 4 0 0))).any (fun h => isOk (h.places (st padStrand) padStrand (group 64 64))) = true :=
  ⟨head_of _ _ _ rfl, by decide⟩

def query (state : BeamState) : BeamSlot := { emptyBeam 0 2 with state := state, group := 2, gen := 0, ctx := 1 }
/-- One item active, whose v2 names the query of slot 2. -/
def oneItem : SUnit := { strand with mask := 1, v := [(2, .u 2), (20, .u 0x1_0080), (30, .u 0x40)] }
/-- The same with its query done, and with what has reached its unit before: a BPOP, a BSTAT. -/
def polled (q : List EngEntry) : State := { st oneItem with beams := [query .done], engq := q }
def popping : EngEntry := { entry0 61 8 (.pop 2 []) with group := some 2 }
def statAsked : EngEntry := { entry0 60 8 (.stat 2 true) with group := some 2 }
theorem witness_beam_words : (st oneItem).AtHead iss oneItem ∧ oneItem.isStrand = true ∧ (st oneItem).launchOf oneItem = some (launch 64 64)
    ∧ (st oneItem).groupOf oneItem = some (group 64 64) ∧ oneItem.anyActive (oneItem.guard 4 false) = false ∧ oneItem.anyActive (oneItem.guard 7 false) = true
    ∧ isOk (((st oneItem).closeRegion oneItem).reserveRows oneItem.noRegion [8, 9]) = true
    ∧ isOk (padItems (group 64 64) 0 16 16 ((oneItem.active (oneItem.guard 7 false)).map (fun k => (k, ((st oneItem).vAt oneItem 30 k).toNat)))) = true
    ∧ oneItem.active (oneItem.guard 7 false) = [0]
    ∧ (polled []).queryOf oneItem.group ((st oneItem).vAt oneItem 2 0) = some (query .done) ∧ (polled []).touching oneItem.group ((st oneItem).vAt oneItem 2 0).toNat = []
    ∧ (polled [popping]).queryOf oneItem.group ((st oneItem).vAt oneItem 2 0) = some (query .done)
    ∧ ((polled [popping]).touching oneItem.group ((st oneItem).vAt oneItem 2 0).toNat).map (·.id) = [61]
    ∧ isOk ((((polled []).closeRegion oneItem).updBeam 0 2 BeamSlot.release).reserveRows oneItem.noRegion [8, 9]) = true
    ∧ ((polled [statAsked, popping]).touching statAsked.group 2).head?.map (·.id) = some statAsked.id ∧ iss.entered = false :=
  ⟨head_of _ _ _ rfl, by decide⟩

/-- A card at 0x10400 and a ray at 0x10480 along x, on a ranked empty hank (R192, R201, R202). -/
def cardBytes : List (Nat × Byte) := [(0x500_0401, 1), (0x500_0402, 1), (0x500_0408, 0x80), (0x500_0409, 4), (0x500_040A, 1), (0x500_0411, 0x50), (0x500_0412, 1), (0x500_0418, 4), (0x500_0439, 0x60), (0x500_043A, 1)]
def ray : List (Nat × Byte) := [(0x500_048E, 0x80), (0x500_048F, 0x3F), (0x500_049E, 0x80), (0x500_049F, 0x3F), (0x500_04B2, 0x80), (0x500_04B3, 0x3F), (0x500_04B4, 2)]
def asking : EngEntry := entry0 60 3 (.query 0x1_0400 0)
def beamState (good : Bool) : State := { hanked asking with mem := emptyHank 9 ++ (if good then cardBytes ++ ray else cardBytes), engq := [asking] }
def begun (good : Bool) : State := { (beamState good).takeEntry asking with beams := [{ emptyBeam 0 0 with state := .running, group := 2, ctx := 1, entry := some asking }] }
theorem witness_beam_start : (beamState true).nextEntry (fun e => e.queue == 3 && clusterOf e.core == 0 && !(beamState true).halted 0 && !(beamState true).aborting e.launch) = some asking ∧ asking.job = .query 0x1_0400 0
    ∧ (firstFree 64 (fun k => !(beamState true).beams.any (fun b => b.cluster == 0 && b.slot == k && b.state != .free))) = some 0
    ∧ ends (beginQuery 0 0 1 0 0x1_0400) (begun true) (fun _ => true) = true ∧ stops (beginQuery 0 0 1 0 0x1_0400) (begun false) (· == some 14) = true :=
  by decide +kernel

def running : State := ((beginQuery 0 0 1 0 0x1_0400).on (begun true)).2
theorem witness_beam_done : running.halted 0 = false ∧ (running.beam? 0 0).any (fun b => b.state == .running && (match running.runQuery b with
      | some s1 => (match s1.beam? 0 0 with | some b1 => (s1.putStatus b1).1 == some 0 && b1.entry == some asking | none => false)
      | none => false)) = true := by decide +kernel

/-! Launches, groups, device queues, fetch. -/

def unplaced : Launch := { launch 64 64 with rootPlaced := false, rootCore := none, state := .running, dealtAll := false, pad := 0 }
def part0 : Part := { num := 0, pairs := 1, pointer := 0, resize := none }
def starting : State := { st strand with launches := [unplaced], groups := [], units := [], issue := [] }
theorem witness_root : starting.launch? 1 = some unplaced ∧ starting.partOf 1 = some part0 ∧ unplaced.rootPlaced = false ∧ starting.placing unplaced = true
    ∧ starting.contWaits 0 = false ∧ starting.barred part0 none = some [] ∧ starting.rootCore part0 [] = some (1, 64) ∧ unplaced.coreside = false :=
  by decide +kernel

def dealt (gregs : Nat) : Group := { newGroup { launch 64 64 with gregs := gregs } 2 0 with state := .dealt, pieces := 1 }
def placing (gregs : Nat) : State := { st strand with launches := [{ launch 64 64 with state := .running }], groups := [dealt gregs], units := [{ strand with kind := .span }], issue := [] }
theorem witness_groups : ((placing 8).launch? 1).any (fun l => (placing 8).placing l && !((placing 8).readyGroups l).isEmpty && ((placing 8).barred part0 (some 1)) == some []
        && ((placing 8).placeGroups 0 [] ((placing 8).readyGroups l)).isSome) = true
    ∧ ((placing 5000).launch? 1).any (fun l => (placing 5000).placing l && !((placing 5000).readyGroups l).isEmpty && ((placing 5000).barred part0 (some 1)) == some []
        && ((placing 5000).placeGroups 0 [] ((placing 5000).readyGroups l)).isNone) = true
    ∧ (placing 8).part? 0 = some part0 ∧ (placing 8).group? 2 = some (dealt 8) ∧ (dealt 8).pair = false ∧ ((placing 8).placeGroup 0 [] (dealt 8)).isSome = true :=
  by decide +kernel

def gone : Group := { group 64 64 with exited := 2 ^ 64 - 1 }
def retiring : State := { st strand with groups := [gone], units := [], issue := [] }
theorem witness_retire : retiring.launch? 1 = some (launch 64 64) ∧ (retiring.ctx? 1).any (fun c => c.state == .running) = true ∧ (launch 64 64).state = .draining
    ∧ gone.gid ∉ (launch 64 64).evHeld ∧ retiring.neverDealt (launch 64 64) 0 = false ∧ retiring.groups.find? (fun h => h.launch == 1 && h.gid == 0) = some gone
    ∧ gone.state = .resident ∧ State.groupEmpty (launch 64 64) gone = true ∧ gone.conts = [] ∧ (∀ b ∈ gone.bars, b.cont = none) ∧ retiring.groupBusy gone = false ∧ retiring.piecesOf 2 = [] :=
  by decide +kernel

def cont : Cont := { code := 0x2000, lo := 0, cnt := 64, phase := 7, bar := 1 }
def continued : Group := { gone with conts := [cont] }
def continuing : State := { retiring with groups := [continued] }
theorem witness_continuation : continuing.groups = [] ++ continued :: [] ∧ continuing.group? 2 = some continued ∧ continued.state = .resident ∧ continued.conts = [cont]
    ∧ continuing.launch? 1 = some (launch 64 64) ∧ continuing.placing (launch 64 64) = true ∧ (continuing.freeSlot continued.core).isSome = true :=
  by decide +kernel

def tree0 (status : Nat) : Tree := { ctx := 1, id := 0, q := 0, pos := 0, founder := 1, counter := 2, status := status, detail := 0, fault := 0, progress := 0, extra := 0, closing := false }
def aborting (busy : Bool) : State :=
  { retiring with launches := [{ launch 64 64 with state := .aborting, fault := some (9, 0x77) }], trees := [tree0 pkDone], engq := if busy then [entry0 60 0 (.coll 0)] else [] }
theorem witness_abort : (aborting true).launches.any (fun y => y.state == .aborting && !(aborting true).units.any (·.launch == y.id)) = true
    ∧ (launch 64 64).evHeld = [] ∧ { launch 64 64 with evHeld := [0] }.evHeld ≠ []
    ∧ (aborting true).groupBusy gone = true ∧ (aborting false).groupBusy gone = false ∧ (aborting false).tree? 1 0 = some (tree0 pkDone) ∧ 1 < (tree0 pkDone).counter
    ∧ (tree0 pkDone).status = pkDone ∧ (tree0 pkDone).closing = false
    ∧ (let s : State := { aborting false with trees := [{ tree0 pkFault with closing := true }], beams := [query .running] }; s.querying gone = true ∧ { s with beams := [] }.querying gone = false) :=
  by decide +kernel

/-- A device queue of two slots: descriptor at 0x10800, ring at 0x10C00; one record at POP, of one item at 0x2000. -/
def devq : DevQueue := { ctx := 1, idx := 0, desc := 0x1_0800, ring := 0x1_0C00, logn := 1, home := 0 }
def template : List Byte := bytesOf 8 0x2000 ++ bytesOf 4 0 ++ bytesOf 4 1 ++ bytesOf 8 0 ++ bytesOf 2 64 ++ bytesOf 3 0 ++ [8, 0, 0] ++ bytesOf 8 0
def corePage (n : Nat) : TlbEntry := { page 0x1_0000 0x500_0000 with place := .core n }
def devState (reserve status : Nat) (code : List Byte := template) : State :=
  { st strand with
    dqs := [devq], trees := [tree0 status], tlb := [corePage 0, corePage 1], mem := Kv.setRun memDefault (Kv.setRun memDefault (Kv.setRun memDefault [] 0x500_0080 code) 0x500_0820 (bytesOf 8 reserve))
      0x500_0C00 (sealRecord' code) }
where sealRecord' (code : List Byte) : List Byte := State.sealRecord code 0 0 0 0
theorem witness_record : (devState 1 pkDone).dq? 1 0 = some devq ∧ ((devState 1 pkDone).ctx? 1).any (fun c => c.state == .running) = true
    ∧ (devState 1 pkDone).partOf 1 = some part0 ∧ (devState 1 pkDone).contWaits 0 = false ∧ (devState 1 pkDone).barred part0 none = some []
    ∧ (State.fromPointer part0.cores part0.pointer).find? (fun c => ((devState 1 pkDone).freeSlot c).isSome) = some 1
    ∧ ((devState 1 pkDone).dqAccess (.core 1) 1 0x1_0800 64).1 = .ok 0x500_0800 ∧ ((devState 0 pkDone).dqSettle 0x500_0800).dqCounter 0x500_0800 32 = 0
    ∧ ((devState 1 pkDone).dqSettle 0x500_0800).dqCounter 0x500_0800 32 = 1 ∧ ((devState 1 pkDone).dqAccess (.core 1) 1 0x1_0C00 64).1 = .ok 0x500_0C00
    ∧ (let bs := (devState 1 pkDone).bytesAt (.pair 0) 0x500_0C00 64
       fieldOf bs 56 4 = 0 ∧ fieldOf bs 60 4 = crc32c (bs.take 60) ∧ (devState 1 pkDone).recordFits (LaunchArgs.ofRecord bs) 1 = true ∧ (devState 1 pkDone).checkLaunch 1 (LaunchArgs.ofRecord bs) = none)
    ∧ (devState 1 pkDone).tree? 1 0 = some (tree0 pkDone) ∧ (tree0 pkFault).status ≠ pkDone :=
  by decide +kernel

/-- One item active of two, v20 naming the template at 0x10080; at %nest 1 of 1, and with a full return or split stack. -/
def spawner : SUnit := { strand with mask := 1 }
def pairUp : SUnit := { strand with mask := 3, p := [(1, .g 1)] }
def inlineTemplate : List Byte := template.take 31 ++ [4] ++ template.drop 32
/-- What SPAWN of item 0 meets: its templates, the queue, the plan and the room for its register. -/
def spawning (s : State) (u : SUnit) (q : State → SpawnPlan → List (LaunchArgs × BitVec 64) → Bool) : Bool :=
  match (s.publish u.core 3).readTemplates u [(0, 0x1_0080)] with
  | (.inr ts, s1) => ts.all (fun t => s1.templateOk (launch 64 64) (LaunchArgs.ofRecord t.2)) && (match s1.dqProducer (.core 0) devq with
    | (.ok pa, s2) => match s2.reserveRows u [2] with
      | .ok s3 =>
        let s4 := s3.dqSettle pa
        let plan := spawnPlan (decide (u.nest < u.nestmax)) (s4.dqRoom devq pa) ts
        let r := s4.addPend u (.entries plan.enter.length) [] false true false
        let s5 := if plan.enter = [] then s4 else plan.enter.foldl (fun s x => s.spawnRecord u r.1 x.1 devq pa (launch 64 64).tree x.2) r.2
        q s5 plan (inlineSides u plan.inlined)
      | .error _ => false
    | _ => false)
  | _ => false
theorem witness_spawn : (st spawner).AtHead iss spawner ∧ ({ devState 1 pkDone with units := [spawner] } : State).AtHead iss spawner
    ∧ spawner.anyActive (spawner.guard 7 false) = true ∧ spawner.isStrand = true ∧ (st spawner).launchOf spawner = some (launch 64 64) ∧ (st spawner).dq? 1 0 = none
    ∧ (st spawner).queueLen 0 5 + (spawner.active (spawner.guard 7 false)).length ≤ 64 ∧ (devState 1 pkDone).dq? 1 0 = some devq
    ∧ spawning (devState 1 pkDone) spawner (fun s5 plan sides => plan.enter.length == 1 && sides.isEmpty && isOk (s5.ensureRows spawner [2])) = true
    ∧ spawning (devState 2 pkDone) spawner (fun s5 plan sides => plan.full == [0] && sides.isEmpty && isOk (s5.ensureRows spawner [2])) = true
    ∧ (match ((devState 1 pkDone (List.replicate 40 0)).publish 0 3).readTemplates spawner [(0, 0x1_0080)] with
       | (.inr ts, s1) => ts.any (fun t => !s1.templateOk (launch 64 64) (LaunchArgs.ofRecord t.2))
       | _ => false) = true :=
  ⟨head_of _ _ _ rfl, ⟨⟨[], rfl⟩, by decide +kernel⟩, by decide +kernel⟩
theorem witness_spawn_inline :
    [spawner, pairUp].all (fun u => spawning (devState 2 pkDone inlineTemplate) u (fun s5 plan sides => plan.enter == [] && (match sides with
      | [(_, m)] => isOk (s5.ensureRows u [2]) && decide (u.rstack.length + 2 ≤ 32) && !u.splitFull && (u.mask &&& ~~~m == 0) == (u.mask == 1)
      | _ => false))) = true
    ∧ (let u := { spawner with rstack := List.replicate 32 0 }
       spawning (devState 2 pkDone inlineTemplate) u (fun _ _ sides => !sides.isEmpty && decide (32 < u.rstack.length + 2))) = true
    ∧ ({ pairUp with sstack := List.replicate 32 0 } : SUnit).splitFull = true :=
  by decide +kernel
def recordEntry : EngEntry := { entry0 60 5 (.spawn 0 0x500_0800 1 template) with core := 0 }
theorem witness_spawn_served : (devState 1 pkDone).halted 0 = false ∧ (devState 1 pkDone).atomq = []
    ∧ ({ devState 1 pkDone with engq := [recordEntry] } : State).nextEntry (fun e => e.queue == 5 && State.spawnHome e == some (homeCluster 0x500_0800)) = some recordEntry
    ∧ ({ devState 1 pkDone with engq := [recordEntry] } : State).halted (homeCluster 0x500_0800) = false
    ∧ (({ devState 1 pkDone with engq := [recordEntry] } : State).dqAccess (.core 0) 1 (0x1_0C00 + 64 * (1 % 2 ^ 1)) 64).1 = .ok 0x500_0C40 :=
  by decide +kernel

/-- A clause of one word at 0x10080: the header 0x1000_0FF5_0000_0000 (R254) and IADD; at 0x10090 no header. -/
def code : List (Nat × Byte) := (bytesOf 8 0x1000_0FF5_0000_0000 ++ bytesOf 8 0x0004_0848_0E10_0000).zipIdx.map (fun x => (0x500_0080 + x.2, x.1)) |>.filter (fun x => x.2 != 0)
def from_ (u : SUnit) : State := { st u with tlb := [page 0x1_0000 0x500_0000 0x81F], mem := code, issue := [], groups := [{ group 64 64 with slots := [0] }] }
def at_ (pc : W64) (origin : Option Origin := none) (late : Option LateTrap := none) : SUnit := { strand with pc := pc, origin := origin, asyncTrap := late }
def came : Origin := { word := 0x3008, next := 0x3010, rstack := [], nest := 0, inl := [], clause := 0 }
theorem witness_fetch : (from_ (at_ 0x1_0080)).unit? 3 = some (at_ 0x1_0080) ∧ (from_ (at_ 0x1_0080)).mayIssue (at_ 0x1_0080) = true
    ∧ (from_ (at_ 0x1_0080)).waitOver (at_ 0x1_0080) = true ∧ (match (from_ (at_ 0x1_0080)).readClause (at_ 0x1_0080) with
       | (.ok h ws, s1) => let is := ws.zipIdx.map (fun w => (h.decodeSlot w.2 w.1).getD (.nop { d := 0, a := 0, pred := 7, pneg := false, sreg := 0, imm := 0 }))
                           s1.mmaReady (at_ 0x1_0080) is && pipsReady (at_ 0x1_0080) h && batchesReady (at_ 0x1_0080) is && s1.queuesReady (at_ 0x1_0080) is
       | _ => false) = true
    ∧ (match (from_ (at_ 0x1_0090)).fetchWord (at_ 0x1_0090) 0x1_0090 0x1_0090 true 0x1_0090 with | (.inr w, _) => (decodeHeader w).isNone | _ => false) = true
    ∧ (match (from_ (at_ 0x1_0090 (some came))).fetchWord (at_ 0x1_0090 (some came)) 0x3008 0x3010 true 0x1_0090 with | (.inr w, _) => (decodeHeader w).isNone | _ => false) = true
    ∧ (0x1_0090 : W64).toNat % 8 = 0 ∧ (at_ 0x1_0080).pcSlot = none ∧ (at_ 0x1_0084 (some came)).pc.toNat % 8 ≠ 0 ∧ (from_ (at_ 0x1_0084 (some came))).mayIssue (at_ 0x1_0084 (some came)) = true
    ∧ (from_ (at_ 0x1_0080 none (some { cause := 9, tpc := 0, tval := 0, next := 0, global := true }))).mayIssue (at_ 0x1_0080 none (some { cause := 9, tpc := 0, tval := 0, next := 0, global := true })) = true
    ∧ (from_ { at_ 0x1_0080 with wait := .yield }).unit? 3 = some { at_ 0x1_0080 with wait := .yield } :=
  by decide +kernel

/-! Host queues and packets. The queue of context 0 stands at 0x5000000 with its completion ring at 0x5001000; packets are built from their header word and fields (R53 to R63). -/

def packet (h : Nat) (fs : List (Nat × Nat × Nat)) : List Byte :=
  let b := ((0, 8, h) :: fs).foldl (fun b f => b.take f.1 ++ bytesOf f.2.1 f.2.2 ++ b.drop (f.1 + f.2.1)) (List.replicate 64 0)
  b.take 60 ++ bytesOf 4 (crc32c (b.take 60))
def ent (phase : EntryPhase) (bs : List Byte) (step : Nat := 0) : Entry := { State.newEntry 0 bs with phase := phase, step := step }
def hq (ctx : Nat) (board : List Entry) (state : HqState := .empty) : HostQueue :=
  { ctx := ctx, idx := 0, desc := 0, ring := 0x500_0000, cbase := 0x500_1000, logn := 4, home := 0, tail := 1, fetch := 0, retire := 0, state := state, longstall := false, badtail := false, back := .empty
    tokens := List.replicate 64 .clear, board := board }
def noop : List Byte := packet 0x300 []
def hqState (q : HostQueue) (slot : List Byte := noop) : State :=
  { st strand with hqs := [q], ctxs := [{ ctxZero with state := .running }, { ctxZero with num := 1, part := some 0, state := .running }], mem := Kv.setRun memDefault [] 0x500_0000 slot, units := [], groups := [], issue := []
                   launches := [], hostSide := { State.reset.hostSide with links := [{ lstate := 2, gen := 5, width := 16, cxl := 0 }] } }
theorem witness_tail : (hqState (hq 0 [])).hq? 0 0 = some (hq 0 [])
    ∧ (((1 : W32) - (hq 0 []).retire).toNat ≤ 2 ^ (hq 0 []).logn ∧ ((1 : W32) - (hq 0 []).fetch).toNat < 2 ^ 31)
    ∧ ¬(((17 : W32) - (hq 0 []).retire).toNat ≤ 2 ^ (hq 0 []).logn ∧ ((17 : W32) - (hq 0 []).fetch).toNat < 2 ^ 31) :=
  by decide +kernel
theorem witness_fetch_slot : (hq 0 [] .fetching).state = .fetching ∧ (hq 0 [] .fetching).fetch ≠ (hq 0 [] .fetching).tail ∧ (hq 0 [] .fetching).isFull = false
    ∧ ((hqState (hq 0 [] .fetching)).fwTranslate 0 0 .read false 0x500_0000 64).1 = .ok 0x500_0000
    ∧ ((hqState (hq 0 [] .stalled)).fwTranslate 0 0 .read false 0x500_0000 64).1 = .ok 0x500_0000 ∧ fieldOf noop 1 1 / 16 = 0 ∧ fieldOf noop 60 4 = crc32c (noop.take 60)
    ∧ fieldOf (List.replicate 64 (1 : Byte)) 60 4 ≠ crc32c ((List.replicate 64 (1 : Byte)).take 60) :=
  by decide +kernel

/-- A NOP that waits for token 0, consuming it. -/
def waiter : Entry := ent .waiting (packet 0x4_0300 [(8, 8, 1)])
def tokened (t : Tok) : HostQueue := { hq 0 [waiter] .fetching with tokens := t :: List.replicate 63 .clear }
theorem witness_scan : (hqState (tokened .clear)).hq? 0 0 = some (tokened .clear) ∧ (tokened .clear).state ≠ .halted ∧ (tokened .clear).state ≠ .dead
    ∧ (tokened .clear).board.filter (fun b => b.phase == .waiting) = [waiter] ∧ (tokened .clear).board.find? (fun b => b.pos == 0) = some waiter ∧ waiter.bad = none
    ∧ waiter.type ≠ 7 ∧ waiter.barrier = false ∧ waiter.consumes = true ∧ waiter.tolerates = false
    ∧ Tok.clear ∈ (hqState (tokened .clear)).waitTokens (tokened .clear) waiter ∧ Tok.clear ∉ (hqState (tokened .set)).waitTokens (tokened .set) waiter
    ∧ Tok.poisoned ∉ (hqState (tokened .set)).waitTokens (tokened .set) waiter ∧ Tok.clear ∉ (hqState (tokened .poisoned)).waitTokens (tokened .poisoned) waiter
    ∧ Tok.poisoned ∈ (hqState (tokened .poisoned)).waitTokens (tokened .poisoned) waiter ∧ (tokened .set).tokens.length = 64
    ∧ ({ hqState (tokened .set) with copies := (List.range 17).map (fun k => { State.newCopy k 0 0 0 (.packet 0 0 k) State.emptyCard false with parked := some 0 }) } : State).engineStuck 0 0 = true
    ∧ (ent .waiting (packet 0x302 [])).type = 2 :=
  by decide +kernel

/-- A packet with SET token 0 and an interrupt that has completed DONE. -/
def reporter : Entry := { ent .reporting (packet 0x8_0300 [(16, 8, 1)]) with report := { status := pkDone, detail := 0, progress := 0, fault := 0, extra := 0 } }
theorem witness_report : (hqState (hq 0 [reporter])).hq? 0 0 = some (hq 0 [reporter]) ∧ (hq 0 [reporter]).board.find? (fun b => b.pos == 0) = some reporter
    ∧ reporter.phase = .reporting
    ∧ (match (hqState (hq 0 [reporter])).fwWrite 0 0 0x500_1000 (bytesOf 4 pkDone ++ bytesOf 28 0) with | (.ok pa, s1) => pa == 0x500_1000 && s1.linkUp | _ => false) = true
    ∧ reporter.sets.getLsbD 0 = true ∧ reporter.irq = true ∧ (hq 0 [reporter]).state ≠ .dead ∧ reporter.pos = (hq 0 [reporter]).retire.toNat :=
  by decide +kernel

def chosen (ctx : Nat) (bs : List Byte) (step : Nat := 0) (bits : Nat := 0x80F) : State := { hqState (hq ctx [ent .chosen bs step]) with tlb := [{ page 0x1_0000 0x500_0000 bits with place := .die 0 }] }
def is (ctx type : Nat) (bs : List Byte) (p : State → HostQueue → Entry → Bool) (step : Nat := 0) (bits : Nat := 0x80F) : Bool :=
  let s := chosen ctx bs step bits
  match s.chosen? with
  | some (q, e) => q.ctx == ctx && e.type == type && p s q e
  | none => false
def signal (va : Nat) : List Byte := packet 0x304 [(24, 8, va), (32, 8, 1)]
theorem witness_packets : is 1 0 noop (fun _ _ _ => true) = true ∧ is 1 4 (signal 0x1_0003) (fun _ _ e => e.field 24 8 % 8 != 0) = true
    ∧ is 1 4 (signal 0x1_0008) (fun s q e => e.field 24 8 % 8 == 0 && (match (s.fwTranslate q.home 1 .both true (e.field 24 8) 8).1 with | .ok _ => true | _ => false)) = true
    ∧ is 1 4 (signal 0x9_0008) (fun s q e => (match (s.fwTranslate q.home 1 .both true (e.field 24 8) 8).1 with | .fail _ => true | _ => false)) = true
    ∧ is 1 4 (signal 0x1_0008) (fun s q e => (match (s.fwTranslate q.home 1 .both true (e.field 24 8) 8).1 with | .hold => true | _ => false)) 0 0x80D = true
    ∧ is 1 3 (packet 0x303 []) (fun _ _ e => e.field 56 1 == 0) = true
    ∧ is 1 3 (packet 0x303 [(24, 8, 0x1_0100), (56, 1, 1)]) (fun _ _ e => e.field 56 1 == 1 && e.field 24 8 % 8 == 0) = true
    ∧ is 0 6 (packet 0x306 [(24, 8, 0x500_0100), (32, 8, 7)]) (fun s q e => e.step == 1 && (match (s.fwWrite q.home 0 (e.field 24 8) ((e.bytes.drop 32).take 8)).1 with | .ok _ => true | _ => false)) 1 = true
    ∧ is 0 6 (packet 0x306 [(24, 8, 0x500_0100), (32, 8, 7), (40, 8, 1)]) (fun s q e => e.step == 0 && inTiers12 s.hostSide.ranges (e.field 24 8) 8 && !s.linkLost (e.field 24 8) && s.hq? 0 0 == some q && q.tokens.length == 64) = true
    ∧ is 0 2 (packet 0x302 []) (fun _ _ _ => true) = true
    ∧ is 1 2 (packet 0x302 [(24, 8, 0x1_0000), (32, 8, 0x1_0100), (40, 8, 8)]) (fun _ _ e => e.field 48 8 % 8 == 0) = true :=
  by decide +kernel

def watched : Entry := { ent .started (packet 0x303 [(24, 8, 0x500_0100), (56, 1, 1)]) with watches := [0x500_0100] }
def signals (x : Nat) : Option (List W64) :=
  match ({ hqState (hq 0 [watched]) with mem := Kv.setRun memDefault [] 0x500_0100 (bytesOf 8 x) } : State).readSignals 0 0 [0x500_0100] with
  | (.vals xs, _) => some xs
  | _ => none
theorem witness_barrier_packet : (hqState (hq 0 [watched])).entry? 0 0 0 = some watched ∧ watched.phase = .started ∧ watched.type = 3 ∧ signals 0 = some [0]
    ∧ signals (2 ^ 63) = some [0x8000_0000_0000_0000] ∧ signals 5 = some [5] ∧ (hqState (hq 0 [])).mem.wf = true ∧ (hqState (hq 0 [])).lands 0x500_0100 = true
    ∧ (hqState (hq 0 [])).place (0x500_0100 + 7) = (hqState (hq 0 [])).place 0x500_0100 + 7 ∧ (hqState (hq 0 [])).atomq = [] :=
  by decide +kernel

def launchPacket (size : Nat) : List Byte := packet 0x301 [(24, 8, 0x2000), (32, 4, 64), (36, 2, size), (41, 1, 8)]
theorem witness_launch : is 0 1 (launchPacket 64) (fun _ _ _ => true) = true
    ∧ is 1 1 (launchPacket 65) (fun s _ e => (s.checkLaunch 1 (LaunchArgs.ofPacket e.bytes)) == some (pkBadpacket, 36)) = true
    ∧ is 1 1 (launchPacket 64) (fun s _ e => (s.checkLaunch 1 (LaunchArgs.ofPacket e.bytes)).isNone) = true
    ∧ is 1 1 (packet 0x301 [(24, 8, 0x2000), (32, 4, 64), (36, 2, 64), (38, 3, 0x18_0001)]) (fun s _ e => s.badLaunch (s.partOf 1) (LaunchArgs.ofPacket e.bytes) == some 38) = true
    ∧ is 1 1 (packet 0x301 [(24, 8, 0x2004), (36, 2, 64)]) (fun s _ e => s.badLaunch (s.partOf 1) (LaunchArgs.ofPacket e.bytes) == some 24) = true :=
  by decide +kernel

def creel (op base len : Nat) : List Byte := packet 0x305 [(24, 4, op), (32, 8, base), (40, 8, len)]
def ranged (base len : Nat) : Nat ⊕ List Nat := match creelRange base len with
  | .error n => .inl n
  | .ok cs => .inr cs
/-- A seal that has started, with the entries it waits for. -/
def sealing (ids : List Nat) : Entry := { ent .started (creel 1 0x100_0000_0000 0x200_0000) with watches := ids }
theorem witness_creel : is 1 5 (creel 2 0 0) (fun s _ e => s.sealDue.isNone && decide (1 < e.field 24 4)) = true ∧ ranged 5 0 = .inl 32
    ∧ ranged 0x100_0000_0000 0x200_0000 = .inr [0] ∧ ranged 0x100_0000_0000 0 = .inl 40
    ∧ is 1 5 (creel 0 0x100_0000_0000 0x200_0000) (fun s _ e => e.field 24 4 == 0 && (s.chunk 0).1 == creelFree && Kv.wf (creelFree, none) s.creel) = true
    ∧ is 1 5 (creel 1 0x100_0000_0000 0x200_0000) (fun s _ e => e.field 24 4 == 1 && s.chunk 0 != (creelLoading, some 1)) = true
    ∧ (let s : State := { chosen 1 (creel 0 0x100_0000_0000 0x200_0000) with creel := [(0, creelLoading, some 2)] }
       ¬((s.chunk 0).1 = creelFree ∨ ((s.chunk 0).1 = creelSealed ∧ ((s.chunk 0).2 = none ∨ (s.chunk 0).2 = some 1)))) :=
  by decide +kernel
theorem witness_seal : (let s : State := { chosen 1 (creel 1 0x100_0000_0000 0x200_0000) with creel := [(0, creelLoading, some 1)] }
       s.chunk 0 = (creelLoading, some 1) ∧ s.chosen?.isSome = true ∧ s.sealDue = none)
    ∧ (let s : State := { hqState (hq 1 [sealing []]) with creel := [(0, creelLoading, some 1)] }
       s.sealDue = some (hq 1 [sealing []], sealing []) ∧ s.chunk 0 = (creelLoading, some 1) ∧ Kv.wf (creelFree, none) s.creel = true)
    ∧ (let s : State := { hqState (hq 1 [sealing [60]]) with creel := [(0, creelLoading, some 1)], engq := [entry0 60 0 (.coll 0)] }
       s.sealWaits (sealing [60]) = true ∧ s.sealDue = none) :=
  by decide +kernel

/-! Contexts. A CONTEXT packet of the management queue that is settled next (R211). -/

def ctxPacket (op target : Nat) (fs : List (Nat × Nat × Nat) := []) : List Byte := packet 0x307 ([(24, 1, op), (28, 2, target)] ++ fs)
def ctxState (bs : List Byte) (state : CtxState) (step : Nat := 0) (idx : Nat := 0) (mem : Memory := []) (paging : Option Paging := none) : State :=
  { hqState ({ hq 0 [ent .started bs step] with idx := idx }) with
    ctxs := [{ ctxZero with state := .running }, { ctxZero with num := 1, part := some 0, state := state, saveBytes := 4096, saveBase := 0x600_0000, paging := paging }]
    tlb := [{ page 0x1_0000 0x500_0000 with place := .die 0 }], mem := mem, launches := [] }
def settled (s : State) (op : Nat) (good : Bool) : Bool :=
  match s.nextContext with
  | some (q, e) => e.op == op && (!([3, 5, 6, 8].contains op) || (s.performed op).isEmpty) && q.ctx == 0 && q.idx == 0 && (if good then (s.badContext e).isNone && !s.contextDenied e else true)
  | none => false
def hostDesc (type : Nat) : List Byte := bytesOf 8 0x1_1000 ++ bytesOf 8 (if type = 0 then 0x1_2000 else 0) ++ [4, 0, BitVec.ofNat 8 type] ++ List.replicate 45 0
theorem witness_contexts : ((ctxState (ctxPacket 4 1) .running 0 1).nextContext).any (fun x => x.1.idx == 1 && x.2.op == 4) = true
    ∧ ((ctxState (ctxPacket 0 2 [(25, 1, 8)]) .running).nextContext).any (fun x => (ctxState (ctxPacket 0 2 [(25, 1, 8)]) .running).badContext x.2 == some 25) = true
    ∧ ((ctxState (ctxPacket 5 9) .running).nextContext).any (fun x => ((ctxState (ctxPacket 5 9) .running).badContext x.2).isNone && (ctxState (ctxPacket 5 9) .running).contextDenied x.2) = true
    ∧ settled (ctxState (ctxPacket 0 2 [(32, 8, 0x600_0000), (40, 8, 4096)]) .running) 0 true = true
    ∧ settled (ctxState (ctxPacket 1 1 [(32, 8, 0x600_0000), (40, 8, 0x601_0000), (56, 4, 4)]) .allocated) 1 true = true
    ∧ settled (ctxState (ctxPacket 2 1 [(32, 8, 0x1_0100)]) .running 0 0 (Kv.setRun memDefault [] 0x500_0100 (hostDesc 0))) 2 true = true
    ∧ settled (ctxState (ctxPacket 3 1) .running) 3 true = true ∧ settled (ctxState (ctxPacket 4 1 [(32, 8, 0x1_0000), (40, 8, 0x1_0000)]) .running) 4 true = true
    ∧ settled (ctxState (ctxPacket 5 1) .running) 5 true = true
    ∧ settled (ctxState (ctxPacket 6 1) .suspended 0 0 [] (some { root := 0, ring := 0, logSlots := 4, reqVec := 0, evVec := 0 })) 6 true = true
    ∧ settled (ctxState (ctxPacket 7 1) .faulted) 7 true = true ∧ settled (ctxState (ctxPacket 8 0 [(56, 4, 3)]) .running) 8 true = true
    ∧ settled (ctxState (ctxPacket 8 0 [(56, 4, 3)]) .suspended) 8 true = true ∧ settled (ctxState (ctxPacket 8 0) .terminated) 8 true = true
    ∧ ((ctxState (ctxPacket 8 0) .terminated).ctxs.all (fun x => x.part != some 0 || x.state != .running)) = true :=
  by decide +kernel
theorem witness_queue_descriptor : [0, 1].all (fun type =>
    let s := ctxState (ctxPacket 2 1 [(32, 8, 0x1_0100)]) .running 0 0 (Kv.setRun memDefault [] 0x500_0100 (hostDesc type))
    match s.fwTranslate 0 1 .read false 0x1_0100 64 with
    | (.ok pa, s1) => s1.partOf 1 == some part0 && descriptorOk (some part0) (s1.bytesAt (.pair 0) pa 64) && fieldOf (s1.bytesAt (.pair 0) pa 64) 18 1 == type
        && s1.hqs.all (fun y => y.ctx != 1) && s1.dqs.isEmpty
    | _ => false) = true := by decide +kernel
theorem witness_unqueue : ({ ctxState (ctxPacket 3 1) .running with hqs := [hq 0 [ent .started (ctxPacket 3 1)], hq 1 []] } : State).hq? 1 0 = some (hq 1 [])
    ∧ (ent .started (ctxPacket 3 1)).val % 2 = 0 :=
  by decide +kernel

/-- UNQUEUE of a device queue: with a record that nothing has taken; with none; on an unmapped descriptor. -/
def unqueueing (d : List DevQueue) : State :=
  { ctxState (ctxPacket 3 1 [(56, 4, 1)]) .running with
    dqs := d, trees := [tree0 pkDone]
    mem := Kv.setRun memDefault (Kv.setRun memDefault [] 0x500_0820 (bytesOf 8 1)) 0x500_0C00 (State.sealRecord template 0 0 0 0) }
theorem witness_unqueue_device : settled (unqueueing [devq]) 3 true = true ∧ (ent .started (ctxPacket 3 1 [(56, 4, 1)])).val % 2 = 1 ∧ (unqueueing []).dq? 1 0 = none
    ∧ (unqueueing [devq]).dq? 1 0 = some devq ∧ ((unqueueing [devq]).dqProducer (.pair 0) devq).1 = .ok 0x500_0800
    ∧ (unqueueing [{ devq with desc := 0x9_0800 }]).dq? 1 0 = some { devq with desc := 0x9_0800 }
    ∧ (match ((unqueueing [{ devq with desc := 0x9_0800 }]).dqProducer (.pair 0) { devq with desc := 0x9_0800 }).1 with | .bad c va => c == causePagefault && va == 0x9_0800 | _ => false) = true
    ∧ ((unqueueing [devq]).dqAccess (.pair 0) 1 0x1_0C00 64).1 = .ok 0x500_0C00
    ∧ (let bs := (unqueueing [devq]).bytesAt (.pair 0) 0x500_0C00 64
       fieldOf bs 56 4 = 0 ∧ fieldOf bs 60 4 = crc32c (bs.take 60) ∧ fieldOf bs 40 4 = 0)
    ∧ (unqueueing [devq]).tree? 1 0 = some (tree0 pkDone) :=
  by decide +kernel

def settling (op : Nat) (state : CtxState) : State := ctxState (ctxPacket op 1) state 1
theorem witness_context_completions : ((settling 4 .running).performed 4).length = 1 ∧ (settling 4 .running).atomq = [] ∧ 1 ∈ (settling 4 .running).sharers 1 ∧ ((settling 5 .suspended).performed 5).length = 1
    ∧ ((settling 5 .suspended).ctx? 1).any (fun y => y.state == .suspended) = true ∧ ((settling 6 .running).performed 6).length = 1
    ∧ ((settling 6 .running).ctx? 1).any (fun y => y.state == .running) = true
    ∧ (({ settling 3 .running with hqs := [hq 0 [ent .started (ctxPacket 3 1) 1], hq 1 []] } : State).performed 3).length = 1 :=
  by decide +kernel

def resizing : State := { ctxState noop .suspended with parts := [{ part0 with resize := some 3 }] }
def moving2 (state : CtxState) (bytes : Nat) : State :=
  { ctxState noop state with ctxs := [{ ctxZero with num := 1, part := some 0, state := state, saveBytes := bytes, saveBase := 0x600_0000 }] }
theorem witness_context_moves : resizing.parts = [{ part0 with resize := some 3 }] ∧ (∀ y ∈ resizing.ctxs, y.part = some 0 → y.state ≠ .suspending)
    ∧ ((moving2 .suspending 4096).saveTurn).any (fun r => decide ((r.2.saveImage 1).length ≤ 4096)) = true
    ∧ ((moving2 .suspending 128).saveTurn).any (fun r => decide (128 < (r.2.saveImage 1).length)) = true
    ∧ (moving2 .runnable 4096).ctxs.filter (fun y => y.state == .runnable) = (moving2 .runnable 4096).ctxs ∧ (moving2 .runnable 4096).savedSpans 1 = []
    ∧ (moving2 .runnable 4096).savedGroups 1 = []
    ∧ ((moving2 .runnable 4096).ctx? 1).any (fun y => (moving2 .runnable 4096).restoreStep y != moving2 .runnable 4096) = true :=
  by decide +kernel

def paged (bits : Nat) (w : Wait) : State := { st { strand with wait := w } with tlb := [page 0x1_0000 0x500_0000 bits], issue := [] }
def w0 : Wait := .page 0x1_0080 1 0x1008 0x1010
def held0 : Wait := .held 0x1_0080 1
theorem witness_context_timers : ((paged 0x80F w0).unitsOf 1).any (fun u => u.wait == w0 && !(paged 0x80F w0).vaWaits (.core u.core) 1 0x1_0080 1) = true
    ∧ ((paged 0x80D w0).unitsOf 1).any (fun u => u.wait == w0 && (paged 0x80D w0).vaWaits (.core u.core) 1 0x1_0080 1) = true
    ∧ ({ paged 0x80F w0 with tlb := [] } : State).leafFor (.core 0) 1 0x1_0080 = none ∧ (1 : Nat) ≠ State.needBits .exec
    ∧ (match (paged 0x80B w0).leafFor (.core 0) 1 0x1_0080 with | some l => !(paged 0x80B w0).vaWaits (.core 0) 1 0x1_0080 1 && settleLeaf (State.needOf 1) 0x1_0080 l == .fault causeProtfault | none => false) = true
    ∧ ((paged 0x80F w0).ctx? 1).any (fun y => y.consumed ≤ 0 && (0 : W64) ≤ y.seq && y.seq < 1) = true ∧ (paged 0x80F .none).pageWaits 1 = [] ∧ (paged 0x80F .none).cursors = [] ∧ (paged 0x80F .none).moves = []
    ∧ ((paged 0x80F held0).unitsOf 1).any (fun u => u.wait == held0 && (paged 0x80F held0).holdOver (.core 0) 1 0x1_0080 1) = true
    ∧ ((paged 0xA0F held0).unitsOf 1).any (fun u => !(paged 0xA0F held0).holdOver (.core u.core) 1 0x1_0080 1) = true
    ∧ (let s : State := { paged 0x80F (.barw 0 [7]) with groups := [barGroup] }; (s.ctx? 1).any (fun y => y.state == .running && y.requests == []) = true ∧ s.units.all (fun u => !s.unitReady u) = true) :=
  by decide +kernel

/-! Boot, dies, the host side, attestation, ports, engines. -/

def staged (x : Stage) : State := { State.reset with dies := List.replicate 4 { Die.reset with stage := x } }
def withLen (x : Stage) (n : W32) (q : List HostQueue := []) : State := { staged x with mailbox := { State.reset.mailbox with fwlen := n }, hqs := q }
theorem witness_boot : (∀ i, i < 64 → 1792 ≤ ([] : List Nat).getD i 2048) ∧ State.reset.mem.wf = true ∧ (staged .selftest).dies.length = 4
    ∧ ((staged .selftest).die 2).stage = .selftest ∧ ([2048, 1791] : List Nat).getD 1 2048 < 1792 ∧ (∀ j, j < 1 → 1792 ≤ ([2048, 1791] : List Nat).getD j 2048)
    ∧ (staged .hold).stageCode = 2 ∧ (withLen .waitfw 115).stageCode = 3 ∧ 115 ≤ (withLen .waitfw 115).mailbox.fwlen.toNat ∧ (withLen .verify 114).stageCode = 4
    ∧ (withLen .verify 114).mailbox.fwlen.toNat < 115 ∧ (withLen .verify 0x0400_0000).mailbox.fwlen.toNat ≤ 0x0400_0000 ∧ (withLen .verify 115).mailbox.mgmtq = 0
    ∧ ((withLen .running 0 [hq 0 []]).hq? 0 0).isSome = true ∧ (staged .waitfw).hq? 0 0 = none ∧ (staged .waitfw).stageCode ≠ 5 ∧ (staged .running).hq? 0 0 = none
    ∧ (staged .running).stageCode = 5 ∧ (staged .running).dies ≠ [] ∧ (List.replicate 114 (0 : Byte)).length = 114 :=
 
  ⟨by simp, by decide⟩

def mismatched (n : Nat) : State := { staged .running with dies := List.replicate 4 { Die.reset with stage := .running, mismatches := List.replicate n 0 } }
theorem witness_dies : (State.reset.Inv ∧ (0xA_0001 + 1) * 128 ≤ paSpace) ∧ 1 < (mismatched 2).dies.length ∧ ((mismatched 2).die 1).stage ≠ .reset
    ∧ ((mismatched 2).die 1).faulted = false ∧ 2 ≤ ((((mismatched 2).die 1).mismatches).filter (fun m => decide (m ≤ 0) && decide (0 ≤ m + 2_000_000_000))).length
    ∧ ((((mismatched 1).die 1).mismatches).filter (fun m => decide (m ≤ 0) && decide (0 ≤ m + 2_000_000_000))).length < 2
    ∧ Kv.get none ({ State.reset with l1 := [(0x500_0080, some 7)] } : State).l1 (0 * paSpace + 0x500_0080) = some 7 ∧ 0x500_0080 / 128 = 0xA_0001
    ∧ 0x500_0080 / 128 ∉ State.reset.poison.lines :=
  ⟨⟨⟨rfl, rfl, rfl, rfl, rfl⟩, by decide⟩, by decide⟩
theorem plain_line : ∀ i, i < 128 → State.reset.Plain (0xA_0001 * 128 + i) := by
  intro i h
  have := (by decide +kernel : ∀ i, i < 128 → State.reset.lands (0xA_0001 * 128 + i) = true ∧ State.reset.kind (0xA_0001 * 128 + i) = .first 0) i h
  exact ⟨this.1, fun k => by rw [this.2]; exact (by simp)⟩
def faulted : State := { hanked (he 1 0 1) with dies := List.replicate 4 { Die.reset with stage := .running, faulted := true } }
theorem witness_faulted_die : faulted.halted 0 = true ∧ clusterOf (he 1 0 1).core = 0 ∧ faulted.engq.find? (fun x => x.id == 60 && x.queue == 2) = some (he 1 0 1) ∧ clusterOf strand.core = 0 := by
  decide

def reading : HostRead := { op := 5, unit := 3, pa := 0x8_0000_0000_0000, bytes := 4, answer := none }
def hosted : State := { staged .running with hostReads := [reading] }
theorem witness_host : hosted.Inv ∧ 1 < 2 ∧ hosted.hostSide.links.length = 2 ∧ 6 ∈ [5, 6, 7] ∧ 16 ∈ [4, 8, 16] ∧ 2 ∈ [0, 2, 3] ∧ (∀ d ∈ hosted.dies, d.stage ≠ .reset)
    ∧ hosted.linkUp = false ∧ hosted.hostReads = [reading] ∧ reading.answer = none ∧ 3 ≤ hosted.stageCode ∧ 0x500_0000 + 8 ≤ 2 ^ 36
    ∧ (∀ i, i < 8 → hosted.kind (hosted.hostSide.wbase.toNat + 0x500_0000 + i) = .first 0) ∧ hosted.atomq = [] ∧ hosted.unreadable 0x500_0000 8 = false
    ∧ ({ hosted with poison := { hosted.poison with lines := [0xA_0000] } } : State).unreadable 0x500_0000 8 = true ∧ (staged .hold).stageCode < 3 ∧ hosted.l1 = []
    ∧ hosted.l2 = [] ∧ hosted.stageCode ≠ 2 ∧ (1 : W64).getLsbD 0 = true ∧ (3 : Nat) ≠ 4 ∧ (3 : Nat) ≠ 8 :=
  ⟨⟨rfl, rfl, rfl, rfl, rfl⟩, by decide +kernel⟩
theorem witness_host_atom : (farAsked (some 9) none).hostReads = [{ op := 9, unit := 0, pa := 0x1_0000_0000_0080, bytes := 4, answer := none }]
    ∧ (farAsked (some 9) none).atomq.find? (fun r => r.ask == some 9) = some (farRequest (some 9)) := by decide
theorem witness_window_lost : (let s : State := { hosted with hostReads := [], hostSide := { hosted.hostSide with wbase := 0x1_0000_0000_0000, ranges := [{ hbase := 0, enable := true, len := 1 }] } }
    s.linkLost (s.hostSide.wbase.toNat + 8) = true ∧ s.unreadable (s.hostSide.wbase.toNat + 8) 8 = true ∧ (∀ i, i < 8 → s.kind (s.hostSide.wbase.toNat + 8 + i) ≠ .hole)) := by decide +kernel
theorem witness_host_up : ({ hosted with hostSide := { hosted.hostSide with links := List.replicate 2 { lstate := 2, gen := 5, width := 16, cxl := 0 } } } : State).linkUp = true := by decide

def session (v c n : Bool) (x : Stage) : State := { staged x with spdm := List.replicate 3 { versionAsked := v, capsAsked := c, negotiated := n } }
theorem witness_attestation : (session false false false .hold).spdm.length = 3 ∧ (∀ carrier, carrier < 3 → (session false false false .hold).spdmReaches carrier = (carrier == 0))
    ∧ ({ session false false false .hold with hostSide := { State.reset.hostSide with links := List.replicate 2 { lstate := 2, gen := 5, width := 16, cxl := 0 } } } : State).spdmReaches 2 = true
    ∧ 2 ≤ (session false false false .hold).stageCode ∧ (session false false false .selftest).stageCode < 2
    ∧ ((session true false false .hold).spdmOn 0).versionAsked = true ∧ 3 ≤ (session true true false .waitfw).stageCode
    ∧ ((session true true false .waitfw).spdmOn 0).capsAsked = true ∧ ((session true true true .running).spdmOn 0).negotiated = true ∧ (session true true true .running).stageCode = 5
    ∧ ((session true false false .running).spdmOn 0).capsAsked = false :=
  by decide

def ported (x : PortState) (enable : Bool) (attempts : Nat := 1) (replays : List Nat := []) : State :=
  { staged .running with ports := List.replicate 16 { Port.reset with state := x, enable := enable, lanes := 8, attempts := attempts, replayCycles := replays, unacked := [{ seq := 1, bytes := [] }] } }
/-- A DATA flit of sequence 1 on channel 0 (R237). -/
def dataFlit : List Byte := flitBytes 1 0 1 0 5 [1, 2, 3]
theorem witness_ports : (ported .down false).portRuns 3 = true ∧ 3 < (ported .down false).ports.length ∧ ((ported .down false).port 3).state = .down
    ∧ ((ported .down false).port 3).isolate = false ∧ ((ported .up true).port 3).isUp = true ∧ ((ported .isolated true).port 3).enable = true ∧ ((ported .isolated true).port 3).state = .isolated ∧ (ported .isolated true).stageCode ≠ 2
    ∧ ((1 : W64).getLsbD 0 = true ∧ (1 : W64).getLsbD 1 = false ∧ (1 : W64).getLsbD 2 = false)
    ∧ ((ported .down true).port 3).isUp = false ∧ ((ported .training true).port 3).state = .training ∧ ((ported .training true 3).port 3).attempts = 3
    ∧ ([] : List Byte).length ≠ 256 ∧ dataFlit.length = 256 ∧ fieldOf dataFlit 248 8 = crc64 (dataFlit.take 248)
    ∧ (let h : W64 := BitVec.ofNat 64 (fieldOf dataFlit 0 8); h.extractLsb' 60 4 = 1 ∧ h.extractLsb' 58 2 ≠ 3 ∧ h.extractLsb' 26 8 ≤ 240 ∧ h.extractLsb' 46 12 = ((ported .up true).port 3).lastIn + 1)
    ∧ ((((ported .up true).port 3).replayCycles ++ [0]).filter (fun t => decide (0 ≤ t + 2 ^ 20))).length < 16
    ∧ 16 ≤ ((((ported .up true 1 (List.replicate 15 0)).port 3).replayCycles ++ [0]).filter (fun t => decide (0 ≤ t + 2 ^ 20))).length :=
  by decide +kernel

/-- A BXF of 16 bytes from pad offset 0 to pad offset 0x100, without transforms. -/
def padCopy : Copy :=
  { State.newCopy 70 0 0 1 (.entry (entry0 60 0 (.card true 0x1_0400 none))) { State.emptyCard with src := 0, dst := 0x100, rbytes := 16, dpitch := 16, space := 3 } true with started := true }
def copying (c : List Copy) (q : List EngEntry) : State := { st strand with copies := c, engq := q, hqs := [hq 1 [ent .started (packet 0x302 [])]], pad := [(0, 3), (5, 4)] }
theorem witness_copies : (copying [padCopy] []).halted 0 = false ∧ (copying [padCopy] []).activeCopy 0 0 = some padCopy ∧ padCopy.bxf = true ∧ padCopy.card.load = 0 ∧ padCopy.card.store = 0
    ∧ padCopy.card.rbytes ≤ padCopy.card.dpitch ∧ padCopy.done = 0 ∧ padCopy.pieces.length = 1
    ∧ padCopy.pieces.all (fun p => p.at_ == 0 && p.src == 0 && p.len == 16 && p.srcLen == p.len && decide (p.dst % 65536 + p.len ≤ 65536) && (copying [padCopy] []).copyPad padCopy 0 p.len == some (0, 0) && (copying [padCopy] []).copyPad padCopy p.dst p.len == some (0, 0x100)) = true
    ∧ padCopy.padSrc = true ∧ padCopy.padDst = true ∧ Memory.wf (copying [padCopy] []).pad = true ∧ (copying [padCopy] []).poison.padWords = [] ∧ (copying [padCopy] []).padNotes = []
    ∧ (copying [] [entry0 60 0 (.card true 0x1_0400 none)]).activeCopy 0 0 = none ∧ (copying [] [entry0 60 0 (.card true 0x1_0400 none)]).engineFree 0 0 = true
    ∧ (copying [] [entry0 60 0 (.card true 0x1_0400 none)]).copyEntry 0 0 = some (entry0 60 0 (.card true 0x1_0400 none)) :=
  by decide
def endedCopy (owner : CopyOwner) (status : Nat) : Copy := { padCopy with owner := owner, ended := some { status := status, detail := 0, fault := 0 } }
def acpEntry : EngEntry := entry0 60 0 (.acp 4 [(0, 0x1_0080, 4)] none none)
theorem witness_copy_ends : (copying [endedCopy (.entry acpEntry) stOk] []).copies.find? (fun y => y.id == 70) = some (endedCopy (.entry acpEntry) stOk)
    ∧ acpEntry.job = .acp 4 [(0, 0x1_0080, 4)] none none ∧ (copying [] []).hq? 1 0 = some (hq 1 [ent .started (packet 0x302 [])])
    ∧ ((copying [] []).entry? 1 0 0).any (fun e => e.field 48 8 == 0) = true ∧ (endedCopy (.packet 1 0 0) stCancelled).parked = none
    ∧ (endedCopy (.packet 1 0 0) stOk).held = none :=
  by decide +kernel

def collCard : List Byte := List.replicate 24 0 ++ [0, 1, 0, 0, 7, 0] ++ List.replicate 34 0
def job (hello : Bool) (ended : Option (Nat × W64)) (card : List Byte := collCard) : CollJob :=
  { id := 8, entry := entry0 60 4 (.coll 0x1_0400), card := card, seq := 0, phase := 0, step := 0, hello := hello, heard := false, carry := [], sent := 0, got := [], steps := 0, bytes := 0, ended := ended }
theorem witness_jobs : (ported .down true).jobPort ((job false none).num 24 1) = false ∧ (ported .up true).jobPort ((job false none).num 24 1) = true
    ∧ (ported .up true).jobPort ((job false none).num 25 1) = true ∧ ((ported .up true).die (dieOfCore (job false none).entry.core)).faulted = false ∧ ((ported .up true).port 0).resend = []
    ∧ (job false none).ended = none ∧ (job false none).hello = false
    ∧ 1 ∉ ((ported .up true).port 0).pausedTx ∧ (({ st strand with jobs := [job true (some (17, 0)) []] } : State).reportJob (job true (some (17, 0)) []) 17 0).1 = true
    ∧ ({ st strand with engq := [entry0 60 4 (.coll 0x1_0400)] } : State).collEntry = some (entry0 60 4 (.coll 0x1_0400)) ∧ (st strand).jobs = [] :=
  by decide +kernel

end Sys2Proof.Tests
end

section
/-! SUPPORT. Every step keeps storage in canonical form (O6), one function of the model at a time: State.Inv.f says that f keeps the form
(exec_f for a word's or an event's execF, f_keeps for a step of the hank engines and beam units). This part: what it means for an answer that
holds a state, and the rules by which such answers are built from one another. -/

namespace Sys2Proof.Machine
set_option Elab.async false

/-- The canonical form is kept by a change of fields that are not storage. -/
theorem State.Inv.keep {s t : State} (h : s.Inv) (mem : t.mem = s.mem := by rfl) (pad : t.pad = s.pad := by rfl) (l1 : t.l1 = s.l1 := by rfl)
    (l2 : t.l2 = s.l2 := by rfl) (rows : t.rows = s.rows := by rfl) : t.Inv := h.of_same ⟨mem, pad, l1, l2, rows⟩

/-- The state of an optional answer, if there is one, is in canonical form. -/
def State.OptInv : Option State → Prop
  | some t => t.Inv
  | none => True

/-- The state beside an optional value, if there is one, is in canonical form. -/
def State.SomeInv {α : Type} : Option (α × State) → Prop
  | some x => x.2.Inv
  | none => True

/-- The next state of an outcome, if there is one, is in canonical form. -/
def State.OutInv : Host.Outcome State Fault Refusal → Prop
  | .next t => t.Inv
  | .fault _ => True
  | .refused _ => True

/-- Folds that carry a state beside another value. -/
theorem State.Inv.foldl_snd {α β : Type} (f : α × State → β → α × State) (hf : ∀ a x, a.2.Inv → (f a x).2.Inv) (l : List β) {a : α × State}
    (h : a.2.Inv) : (l.foldl f a).2.Inv := by
  induction l generalizing a with
  | nil => exact h
  | cons x l ih => exact ih (hf a x h)

theorem State.Inv.foldl_fst {α β : Type} (f : State × α → β → State × α) (hf : ∀ a x, a.1.Inv → (f a x).1.Inv) (l : List β) {a : State × α}
    (h : a.1.Inv) : (l.foldl f a).1.Inv := by
  induction l generalizing a with
  | nil => exact h
  | cons x l ih => exact ih (hf a x h)

theorem State.OptInv.get {o : Option State} {t : State} (h : State.OptInv o) (e : o = some t) : t.Inv := by subst e; exact h

theorem State.OptInv.getD {o : Option State} {s : State} (h : State.OptInv o) (hs : s.Inv) : (o.getD s).Inv := by
  cases o with
  | none => exact hs
  | some t => exact h

theorem State.SomeInv.get {α : Type} {o : Option (α × State)} {a : α} {t : State} (h : State.SomeInv o) (e : o = some (a, t)) : t.Inv := by
  subst e; exact h

/-! An answer built from another: what is made of each state of the first is in canonical form. -/

section Answers
variable {α β : Type}

theorem State.OptInv.map {o : Option State} (h : State.OptInv o) {f : State → State} (hf : ∀ t, t.Inv → (f t).Inv) : State.OptInv (o.map f) := by
  cases o with
  | none => trivial
  | some t => exact hf t h

theorem State.OptInv.bind {o : Option State} (h : State.OptInv o) {f : State → Option State} (hf : ∀ t, t.Inv → State.OptInv (f t)) :
    State.OptInv (o.bind f) := by
  cases o with
  | none => trivial
  | some t => exact hf t h

theorem State.OptInv.map_pair {o : Option State} (h : State.OptInv o) {f : State → β × State} (hf : ∀ t, t.Inv → (f t).2.Inv) :
    State.SomeInv (o.map f) := by
  cases o with
  | none => trivial
  | some t => exact hf t h

theorem State.SomeInv.map {o : Option (α × State)} (h : State.SomeInv o) {f : α × State → State} (hf : ∀ a t, t.Inv → (f (a, t)).Inv) :
    State.OptInv (o.map f) := by
  cases o with
  | none => trivial
  | some x => exact hf x.1 x.2 h

theorem State.OptInv.of_map (o : Option α) {f : α → State} (hf : ∀ a, (f a).Inv) : State.OptInv (o.map f) := by
  cases o with
  | none => trivial
  | some a => exact hf a

theorem State.SomeInv.of_map (o : Option α) {f : α → β × State} (hf : ∀ a, (f a).2.Inv) : State.SomeInv (o.map f) := by
  cases o with
  | none => trivial
  | some a => exact hf a

theorem State.OptInv.findSome (l : List α) {f : α → Option State} (hf : ∀ a, State.OptInv (f a)) : State.OptInv (l.findSome? f) := by
  induction l with
  | nil => trivial
  | cons a l ih =>
    have ha := hf a
    rw [List.findSome?_cons]
    split
    · next e => rw [e] at ha; exact ha
    · exact ih

theorem State.SomeInv.findSome (l : List α) {f : α → Option (β × State)} (hf : ∀ a, State.SomeInv (f a)) :
    State.SomeInv (l.findSome? f) := by
  induction l with
  | nil => trivial
  | cons a l ih =>
    have ha := hf a
    rw [List.findSome?_cons]
    split
    · next e => rw [e] at ha; exact ha
    · exact ih

end Answers

theorem State.Inv.of_pair {α : Type} {p : α × State} {a : α} {t : State} (h : p.2.Inv) (e : p = (a, t)) : t.Inv := by subst e; exact h

theorem State.Inv.of_fst {α : Type} {p : State × α} {t : State} {a : α} (h : p.1.Inv) (e : p = (t, a)) : t.Inv := by subst e; exact h

theorem State.Inv.ite_snd {α : Type} {c : Prop} [Decidable c] {a b : α × State} (ha : a.2.Inv) (hb : b.2.Inv) : (if c then a else b).2.Inv := by
  split
  · exact ha
  · exact hb

theorem State.Inv.of_triple {α β : Type} {p : α × β × State} {a : α} {b : β} {t : State} (h : p.2.2.Inv) (e : p = (a, b, t)) : t.Inv := by
  subst e; exact h

theorem State.OutInv.of_next {o : Host.Outcome State Fault Refusal} {t : State} (h : State.OutInv o) (e : o = .next t) : t.Inv := by
  subst e; exact h

/-! The operations that touch no storage. -/

theorem State.Inv.updUnit {s : State} (hs : s.Inv) (id : Nat) (f : SUnit → SUnit) : (s.updUnit id f).Inv :=
  hs.of_same (s.same_updUnit id f)
theorem State.Inv.putUnit {s : State} (hs : s.Inv) (u : SUnit) : (s.putUnit u).Inv :=
  hs.of_same (s.same_putUnit u)
theorem State.Inv.updLaunch {s : State} (hs : s.Inv) (id : Nat) (f : Launch → Launch) : (s.updLaunch id f).Inv :=
  hs.of_same (s.same_updLaunch id f)
theorem State.Inv.updGroup {s : State} (hs : s.Inv) (id : Nat) (f : Group → Group) : (s.updGroup id f).Inv :=
  hs.of_same (s.same_updGroup id f)
theorem State.Inv.updPend {s : State} (hs : s.Inv) (id : Nat) (f : PendOp → PendOp) : (s.updPend id f).Inv :=
  hs.of_same (s.same_updPend id f)
theorem State.Inv.fresh {s : State} (hs : s.Inv) : s.fresh.2.Inv :=
  hs.of_same s.same_fresh
theorem State.Inv.draw {s : State} (hs : s.Inv) : s.draw.2.Inv :=
  hs.of_same s.same_draw
theorem State.Inv.settleDuties {s : State} (hs : s.Inv) : s.settleDuties.Inv :=
  hs.of_same s.same_settleDuties
theorem State.Inv.removeUnit {s : State} (hs : s.Inv) (id : Nat) : (s.removeUnit id).Inv :=
  hs.of_same (s.same_removeUnit id)
theorem State.Inv.retarget {s : State} (hs : s.Inv) (old : Nat) (new : List Nat) : (s.retarget old new).Inv :=
  hs.of_same (s.same_retarget old new)
theorem State.Inv.dropPend {s : State} (hs : s.Inv) (id : Nat) : (s.dropPend id).Inv :=
  hs.of_same (s.same_dropPend id)
theorem State.Inv.addPend {s : State} (hs : s.Inv) (u : SUnit) (wait : PendWait) (writes : List RegWrite) (setA setB batch : Bool) : (s.addPend u wait writes setA setB batch).2.Inv :=
  hs.of_same (s.same_addPend u wait writes setA setB batch)
theorem State.Inv.addPiece {s : State} (hs : s.Inv) (u : SUnit) (f : SUnit → SUnit) : (s.addPiece u f).Inv :=
  hs.of_same (s.same_addPiece u f)
theorem State.Inv.entryDone {s : State} (hs : s.Inv) (op : Nat) (reg : Option Nat) (lane : Nat) (val : W64) : (s.entryDone op reg lane val).Inv :=
  hs.of_same (s.same_entryDone op reg lane val)
theorem State.Inv.closeRegion {s : State} (hs : s.Inv) (u : SUnit) : (s.closeRegion u).Inv :=
  hs.of_same (s.same_closeRegion u)
theorem State.Inv.stopUnits {s : State} (hs : s.Inv) (lid : Nat) : (s.stopUnits lid).Inv :=
  hs.of_same (s.same_stopUnits lid)
theorem State.Inv.stopAborting {s : State} (hs : s.Inv) : s.stopAborting.Inv :=
  hs.of_same s.same_stopAborting
theorem State.Inv.endClause {s : State} (hs : s.Inv) (uid : Nat) : (s.endClause uid).Inv :=
  hs.of_same (s.same_endClause uid)
theorem State.Inv.advance {s : State} (hs : s.Inv) (i : Issue) : (s.advance i).Inv :=
  hs.of_same (s.same_advance i)
theorem State.Inv.faultUnit {s : State} (hs : s.Inv) (u : SUnit) (cause : W32) (addr : W64) : (s.faultUnit u cause addr).Inv :=
  hs.of_same (s.same_faultUnit u cause addr)
theorem State.Inv.cutInto {s : State} (hs : s.Inv) (g : Group) (a b : Nat) (u : SUnit) : (s.cutInto g a b u).Inv :=
  hs.of_same (s.same_cutInto g a b u)
theorem State.Inv.dealGroup {s : State} (hs : s.Inv) (l : Launch) (gid : Nat) : (s.dealGroup l gid).Inv :=
  hs.of_same (s.same_dealGroup l gid)
theorem State.Inv.checkDrained {s : State} (hs : s.Inv) (lid : Nat) : (s.checkDrained lid).Inv :=
  hs.of_same (s.same_checkDrained lid)

theorem State.Inv.materialiseOpt {s : State} (hs : s.Inv) (u : SUnit) : State.OptInv (s.materialise u) := by
  cases e : s.materialise u with
  | none => trivial
  | some t => exact hs.materialise u e

/-! The steps of the hank engines and beam units. -/

/-- Steps that leave a state in canonical form, whatever they end with. -/
def HM.Keeps {α : Type} (m : HM α) : Prop := ∀ s : State, s.Inv → (m.on s).2.Inv

section Steps
variable {α β : Type}

theorem HM.Keeps.after {m : HM α} {s : State} (h : m.Keeps) (hs : s.Inv) : (m.on s).2.Inv := h s hs

theorem HM.Keeps.of_pure (a : α) : (pure a : HM α).Keeps := fun _ h => h

theorem HM.Keeps.of_throw (e : HStop) : (throw e : HM α).Keeps := fun _ h => h

theorem HM.Keeps.throw_bind (e : HStop) (f : α → HM β) : ((throw e : HM α) >>= f).Keeps := fun _ h => h

theorem HM.Keeps.of_mk {f : StateM State (Except HStop α)} (hf : ∀ s : State, s.Inv → (f s).2.Inv) : HM.Keeps (ExceptT.mk f) := hf

theorem HM.Keeps.of_modify {f : State → State} (hf : ∀ s, s.Inv → (f s).Inv) : (modify f : HM PUnit).Keeps := hf

theorem HM.Keeps.of_set {t : State} (ht : t.Inv) : (set t : HM PUnit).Keeps := fun _ _ => ht

/-- After its first part, the rest of the steps goes on from the state that it left, or they stop there. -/
theorem HM.on_bind (m : HM α) (f : α → HM β) (s : State) : (m >>= f).on s = match m.on s with
    | (.ok a, t) => (f a).on t
    | (.error e, t) => (.error e, t) := by
  unfold HM.on
  rcases h : m.run.run s with ⟨a | a, t⟩ <;> simp [h] <;> rfl

theorem HM.Keeps.bind {m : HM α} {f : α → HM β} (hm : m.Keeps) (hf : ∀ a, (f a).Keeps) : (m >>= f).Keeps := by
  intro s h
  rw [HM.on_bind]
  have hm := hm s h
  split
  · next a t e => exact hf a t (hm.of_pair e)
  · next e => exact hm.of_pair e

theorem HM.Keeps.of_get {f : State → HM β} (hf : ∀ s, s.Inv → (f s).Keeps) : ((get : HM State) >>= f).Keeps := fun s h => hf s h s h

theorem HM.Keeps.foldlM {f : β → α → HM β} (hf : ∀ b a, (f b a).Keeps) (l : List α) (b : β) : (l.foldlM f b).Keeps := by
  induction l generalizing b with
  | nil => exact .of_pure b
  | cons a l ih => rw [List.foldlM_cons]; exact (hf b a).bind ih

theorem HM.Keeps.throw_or {c : Prop} [Decidable c] {e : HStop} {k : Unit → HM α} (hk : (k ()).Keeps) :
    (if c then (throw e : HM Unit) >>= k else k ()).Keeps := by
  split
  · exact .throw_bind e k
  · exact hk

end Steps

/-- A word whose body keeps the form keeps it. -/
theorem State.Inv.word {s : State} (h : s.Inv) (body : State → Issue → SUnit → Res) (hb : ∀ t i u, t.Inv → (body t i u).state.Inv) :
    State.OutInv (s.runWord body) := by
  cases e : s.runWord body with
  | next t => exact h.runWord body (fun i u => hb s i u h) e
  | fault _ => trivial
  | refused _ => trivial

/-- A word that closes an open region first. -/
theorem State.Inv.closingWord {s : State} (h : s.Inv) (body : State → Issue → SUnit → Res) (hb : ∀ t i u, t.Inv → (body t i u).state.Inv) :
    State.OutInv (s.runClosing body) :=
  h.word _ (fun t i u ht => hb _ i u.noRegion (ht.of_same (t.same_closeRegion u)))

end Sys2Proof.Machine
end

section
/-! SUPPORT. Translation and the results of units keep the canonical form of storage. -/

namespace Sys2Proof.Machine
set_option Elab.async false

theorem State.Inv.updDie {s : State} (hs : s.Inv) (d : Nat) (f : Die → Die) :
    (s.updDie d f).Inv := hs.keep

theorem State.Inv.out {s : State} (hs : s.Inv) (o : Out) :
    (s.out o).Inv := hs.keep

theorem State.Inv.raise {s : State} (hs : s.Inv) (vec : Nat) :
    (s.raise vec).Inv := by
  unfold State.raise
  split
  · exact hs.out _
  · exact hs.keep

theorem State.Inv.updCtx {s : State} (hs : s.Inv) (n : Nat) (f : Ctx → Ctx) :
    (s.updCtx n f).Inv := hs.keep

theorem State.Inv.updPart {s : State} (hs : s.Inv) (n : Nat) (f : Part → Part) :
    (s.updPart n f).Inv := hs.keep

theorem State.Inv.updHq {s : State} (hs : s.Inv) (c q : Nat) (f : HostQueue → HostQueue) :
    (s.updHq c q f).Inv := hs.keep

theorem State.Inv.updTree {s : State} (hs : s.Inv) (c : Nat) (t : W32) (f : Tree → Tree) :
    (s.updTree c t f).Inv := hs.keep

theorem State.Inv.storeHome {s : State} (hs : s.Inv) (pa : Nat) (bs : List Byte) :
    (s.storeHome pa bs).Inv := by
  exact ⟨State.storeRun_wf hs.mem _ _, hs.pad, hs.l1, hs.l2, hs.rows⟩

theorem State.Inv.countDrops {s : State} (hs : s.Inv) (n : Nat) :
    (s.countDrops n).Inv := hs.keep

theorem State.Inv.countLost {s : State} (hs : s.Inv) (pa : Nat) :
    (s.countLost pa).Inv := by
  unfold State.countLost
  split
  · exact hs.countDrop
  · exact hs

theorem State.Inv.seeStores {s : State} (hs : s.Inv) (core : Nat) :
    (s.seeStores core).Inv := hs.keep

theorem State.Inv.clearRow {s : State} (hs : s.Inv) (k : Nat) :
    (s.clearRow k).Inv := hs.keep

theorem State.Inv.cacheLeaf {s : State} (hs : s.Inv) (w : Who) (c : Ctx) (l : Leaf) :
    (s.cacheLeaf w c l).Inv := by
  unfold State.cacheLeaf
  split
  · exact hs
  exact hs.keep

theorem State.Inv.cacheTable {s : State} (hs : s.Inv) (w : Who) (c : Ctx) (va : Nat) :
    (s.cacheTable w c va).Inv := by
  unfold State.cacheTable
  split
  · dsimp only
    split
    · exact hs.keep
    · exact hs
  · exact hs

theorem State.Inv.leafOf {s : State} (hs : s.Inv) (w : Who) (ctx va : Nat) :
    (s.leafOf w ctx va).2.Inv := by
  unfold State.leafOf
  split
  · exact hs
  split
  · exact hs
  split
  · exact hs
  show State.Inv _
  split
  · exact (hs.cacheLeaf _ _ _).cacheTable _ _ _
  · exact hs.cacheLeaf _ _ _

theorem State.Inv.translate {s : State} (hs : s.Inv) (w : Who) (ctx : Nat) (need : Need) (va : Nat) :
    (s.translate w ctx need va).2.Inv := by
  unfold State.translate
  split
  · next e => exact (hs.leafOf _ _ _).of_pair e
  · next e => exact (hs.leafOf _ _ _).of_pair e

theorem State.Inv.pageRequest {s : State} (hs : s.Inv) (w : Who) (ctx : Nat) (need : Need) (va : Nat) :
    State.OptInv (s.pageRequest w ctx need va) := by
  unfold State.pageRequest
  split
  · exact hs
  dsimp only
  split
  · exact hs
  split
  · exact hs
  split
  · trivial
  · exact ((hs.writeHome _ _ _).updCtx _ _).raise _

theorem State.Inv.fwTranslate {s : State} (hs : s.Inv) (die ctx : Nat) (need : Need) (dec : Bool) (va n : Nat) :
    (s.fwTranslate die ctx need dec va n).2.Inv := by
  unfold State.fwTranslate
  split
  · exact hs
  split
  · next e => exact (hs.leafOf _ _ _).of_pair e
  rename_i t e
  have ht : t.Inv := (hs.leafOf _ _ _).of_pair e
  dsimp only
  split
  · exact ht
  split
  · exact ht
  split
  · exact ht
  split
  · exact (ht.pageRequest _ _ _ _).getD ht
  split
  · exact ht
  split
  · exact ht.countLost _
  · exact ht

theorem State.Inv.dropTlb {s : State} (hs : s.Inv) (p : TlbEntry → Bool) :
    (s.dropTlb p).Inv := hs.keep

theorem State.Inv.addSides {s : State} (hs : s.Inv) (l : List SUnit) :
    (s.addSides l).Inv := by
  induction l generalizing s with
  | nil => exact hs
  | cons w ws ih =>
    rw [State.addSides]
    exact ih hs.fresh.keep

theorem State.Inv.split {s : State} (hs : s.Inv) (u keep : SUnit) (sides : List SUnit) :
    (s.split u keep sides).Inv := ((hs.fresh.putUnit _).addSides _).retarget _ _

theorem State.Inv.writeV {s : State} (hs : s.Inv) (u : SUnit) (g : Guard) (ws : List (Nat × Rv)) (k : State → Res) (hk : ∀ t, t.Inv → (k t).state.Inv) :
    (s.writeV u g ws k).state.Inv := by
  unfold State.writeV
  split
  · exact hk _ hs
  split
  · exact hs
  dsimp only
  split
  · exact hk _ (hs.putUnit _)
  split
  · exact hs
  split
  · exact hs
  rename_i t _ e1
  have ht : t.Inv := State.Inv.ensureRows _ hs e1
  exact hk _ (State.Inv.foldl _ (fun _ _ ht => ht.writeLanes _ _ _ _) _ ht)

theorem State.Inv.writeP {s : State} (hs : s.Inv) (u : SUnit) (g : Guard) (r : Nat) (x : PReg) (k : State → Res) (hk : ∀ t, t.Inv → (k t).state.Inv) :
    (s.writeP u g r x k).state.Inv := by
  unfold State.writeP
  split
  · exact hk _ hs
  split
  · exact hs
  split
  · exact hk _ hs
  split
  · split
    · exact hk _ (hs.putUnit _)
    split
    · exact hs
    exact hk _ (hs.putUnit _)
  split
  · exact hk _ (hs.putUnit _)
  split
  · exact hs
  exact hk _ (hs.putUnit _)

theorem State.Inv.deferV {s : State} (hs : s.Inv) (u : SUnit) (g : Guard) (setB : Bool) (wait : PendWait) (ws : List (Nat × Rv)) (k : Nat → State → Res) (hk : ∀ a t, t.Inv → (k a t).state.Inv) :
    (s.deferV u g setB wait ws k).state.Inv := by
  unfold State.deferV
  split
  · exact hs
  dsimp only
  split
  · exact hk _ _ (hs.addPend _ _ _ _ _ _)
  split
  · exact hs
  split
  · exact hs
  · next e1 => exact hk _ _ ((hs.of_same (State.same_reserveRows _ _ _ _ e1)).addPend _ _ _ _ _ _)

theorem State.Inv.landWrite {s : State} (hs : s.Inv) (uid : Nat) (w : RegWrite) :
    (s.landWrite uid w).Inv := by
  unfold State.landWrite
  split
  · exact hs
  split
  · exact hs.putUnit _
  · exact hs.putUnit _
  · exact hs.putUnit _
  split
  · exact hs
  split
  · exact hs
  · next e1 => exact (State.Inv.ensureRows _ hs e1).writeLanes _ _ _ _

theorem State.Inv.landing {s : State} (hs : s.Inv) (o : PendOp) (t : Nat) :
    State.SomeInv (s.landing o t) := by
  unfold State.landing
  dsimp only
  split
  · exact hs
  split
  · exact hs
  · exact (hs.materialiseOpt _).map_pair (fun _ ht1 => ht1)

theorem State.Inv.landAll {s : State} (hs : s.Inv) (o : PendOp) (t : Nat) :
    (s.landAll o t).Inv := by
  unfold State.landAll
  split
  · exact hs
  · next e => exact State.Inv.foldl _ (fun _ _ ht => State.Inv.foldl _ (fun _ _ ht => ht.landWrite _ _) _ ht) _ ((hs.landing _ _).get e)

theorem State.Inv.result {s : State} (hs : s.Inv) (u : SUnit) (g : Guard) (wide : Bool) (d : Nat) (allU affine : Bool) (x : Nat → W64) (k : State → Res) (hk : ∀ t, t.Inv → (k t).state.Inv) :
    (s.result u g wide d allU affine x k).state.Inv := by
  unfold State.result
  split
  · exact hk _ hs
  split
  · exact hs.writeV _ _ _ _ hk
  split
  · exact hs.writeV _ _ _ _ hk
  split
  · exact hs
  · exact hs.writeV _ _ _ _ hk

theorem State.Inv.lateResult {s : State} (hs : s.Inv) (u : SUnit) (g : Guard) (wide : Bool) (d : Nat) (allU : Bool) (x : Nat → W64) :
    (s.lateResult u g wide d allU x).state.Inv := by
  unfold State.lateResult
  split
  · exact hs
  split
  · exact hs.deferV _ _ _ _ _ _ (fun _ _ ht => ht)
  split
  · exact hs
  · exact hs.deferV _ _ _ _ _ _ (fun _ _ ht => ht)

theorem State.Inv.runV {s : State} (hs : s.Inv) (f : FmtV) (od oa ob oc : Opd) (aff : Aff) (late : Bool) (op : OpEnv → Nat → Nat → Nat → Nat) :
    State.OutInv (s.runV f od oa ob oc aff late op) := by
  unfold State.runV
  refine hs.word _ (fun _ _ _ ht => ?_)
  dsimp only
  split
  · exact ht.lateResult _ _ _ _ _ _
  · exact ht.result _ _ _ _ _ _ _ _ (fun _ ht1 => ht1)

end Sys2Proof.Machine
end

section
/-! SUPPORT. Units: words of compare, weave, transfers, regions and system, and the accesses of units keep the form. -/

namespace Sys2Proof.Machine
set_option Elab.async false

theorem State.Inv.runI {s : State} (hs : s.Inv) (f : FmtI) (od oa : Opd) (aff : Aff) (useD : Bool) (imm : W64) (op : OpEnv → Nat → Nat → Nat → Nat) :
    State.OutInv (s.runI f od oa aff useD imm op) := by
  unfold State.runI
  refine hs.word _ fun _ _ _ ht => ?_
  exact ht.result _ _ _ _ _ _ _ _ (fun _ ht1 => ht1)

theorem State.Inv.cmpResult {s : State} (hs : s.Inv) (u : SUnit) (g : Guard) (d : BitVec 7) (a b : Source) (ordered : W64 → W64 → Option Ordering) :
    (s.cmpResult u g d a b ordered).state.Inv := by
  unfold State.cmpResult
  dsimp only
  split
  · exact hs
  split
  · exact hs.writeP _ _ _ _ _ (fun _ ht => ht)
  split
  · split
    · exact hs
    · exact hs.writeP _ _ _ _ _ (fun _ ht => ht)
  split
  · split
    · exact hs
    · exact hs.writeP _ _ _ _ _ (fun _ ht => ht)
  · exact hs.writeP _ _ _ _ _ (fun _ ht => ht)

theorem State.Inv.weaveWrite {s : State} (hs : s.Inv) (who : Who) (rm : Rm) (sat : Bool) (l : Leaf) (ws : List (Nat × W32)) :
    (s.weaveWrite who rm sat l ws).Inv := by
  unfold State.weaveWrite
  extract_lets w frame s0 placed blocks s1
  have h0 : s0.Inv := by
    unfold s0
    split
    · exact hs
    · exact hs.flushRange _ _
  have h1 : s1.Inv := by
    refine h0.foldl _ (fun t b ht => ?_) blocks
    dsimp only
    split
    · exact ht
    · split
      · exact ht.writeHome _ _ _
      · exact (ht.writeHome _ _ _).writeHome _ _ _
  split
  · exact h1
  · exact h1.of_same (State.same_clearLines _ _)

theorem State.Inv.checkGlobal {s : State} (hs : s.Inv) (w : Who) (ctx : Nat) (need : Need) (n align : Nat) (line : Bool) (va : Nat) :
    (s.checkGlobal w ctx need n align line va).2.Inv := by
  unfold State.checkGlobal
  dsimp only
  split
  · split
    · exact hs
    split
    · exact hs
    split
    · next e1 => split <;> exact (hs.translate _ _ _ _).of_pair e1
    · next e1 => exact (hs.translate _ _ _ _).of_pair e1
    · next e1 => exact (hs.translate _ _ _ _).of_pair e1
    · next e1 => exact (hs.translate _ _ _ _).of_pair e1
  split
  · exact hs
  split
  · exact hs
  split
  · next e1 => split <;> exact (hs.translate _ _ _ _).of_pair e1
  · next e1 => exact (hs.translate _ _ _ _).of_pair e1
  · next e1 => exact (hs.translate _ _ _ _).of_pair e1
  · next e1 => exact (hs.translate _ _ _ _).of_pair e1

theorem State.Inv.checkItems {s : State} (hs : s.Inv) (w : Who) (ctx : Nat) (need : Need) (n align : Nat) (line : Bool) (l : List (Nat × Nat)) :
    (s.checkItems w ctx need n align line l).2.Inv := by
  induction l generalizing s w ctx need n align line with
  | nil => exact hs
  | cons x xs ih =>
    rw [State.checkItems]
    split
    · next t e =>
        have ht : t.Inv := (hs.checkGlobal _ _ _ _ _ _ _).of_pair e
        split
        · next e1 => exact (ih ht _ _ _ _ _ _).of_pair e1
        · next e1 => exact (ih ht _ _ _ _ _ _).of_pair e1
    · next e => exact (hs.checkGlobal _ _ _ _ _ _ _).of_pair e

theorem State.Inv.discardRegion {s : State} (hs : s.Inv) (u : SUnit) (r : Region) :
    (s.discardRegion u r).Inv := hs.keep

theorem State.Inv.absentRes {s : State} (hs : s.Inv) (i : Issue) (u : SUnit) (need : Need) (va : Nat) :
    (s.absentRes i u need va).state.Inv := by
  unfold State.absentRes
  split
  · exact hs.updUnit _ _
  rename_i t e
  have ht : t.Inv := (hs.pageRequest _ _ _ _).get e
  split
  · exact (ht.discardRegion _ _).updUnit _ _
  · exact ht

theorem State.Inv.chkRes {s : State} (hs : s.Inv) (i : Issue) (u : SUnit) (need : Need) (l : Chk) :
    (s.chkRes i u need l).state.Inv := by
  unfold State.chkRes
  split
  · exact hs
  · exact hs.absentRes _ _ _ _
  · exact hs.updUnit _ _
  · exact hs

theorem State.Inv.askHost {s : State} (hs : s.Inv) (u : SUnit) (n : Nat) (ps : List (Nat × Nat × Nat × Leaf)) :
    State.OptInv (s.askHost u n ps) := by
  unfold State.askHost
  dsimp only
  split
  · trivial
  · exact (State.Inv.foldl _ (fun _ _ ht => ht.fresh.keep) _ hs).updUnit _ _

theorem State.Inv.forgetHost {s : State} (hs : s.Inv) (u : SUnit) :
    (s.forgetHost u).Inv := hs.keep

theorem State.Inv.releaseWindow {s : State} (hs : s.Inv) (gid : Option Nat) (w : Nat) :
    (s.releaseWindow gid w).Inv := by
  unfold State.releaseWindow
  split
  · exact hs
  split
  · exact hs
  · exact hs.updGroup _ _

theorem State.Inv.recoverUnit {s : State} (hs : s.Inv) (uid n : Nat) :
    (s.recoverUnit uid n).Inv := by
  unfold State.recoverUnit
  split
  · exact hs
  dsimp only
  split
  · exact (hs.putUnit _).releaseWindow _ _
  · exact hs.putUnit _

theorem State.Inv.writeMixed {s : State} (hs : s.Inv) (g : Group) (w core : Nat) (sibs : List SUnit) (l : List Nat) :
    (s.writeMixed g w core sibs l).Inv := by
  induction l generalizing s g w core sibs with
  | nil => exact hs
  | cons x xs ih =>
    rw [State.writeMixed]
    split
    · exact ih hs _ _ _ _
    · exact ih ((hs.setRow _ _).updGroup _ _) _ _ _ _

theorem State.Inv.fuse {s : State} (hs : s.Inv) (sibs : List SUnit) (at_ : W64) (n : Nat) :
    (s.fuse sibs at_ n).Inv := by
  unfold State.fuse
  split
  · next keep _ _ _ =>
      split
      · exact hs
      dsimp only
      split
      · exact hs.takeTrap _ _ _ _ _ _
      refine (((State.Inv.foldl _ (fun _ _ ht => (ht.retarget _ _).removeUnit _) _ ?_).keep.putUnit _).recoverUnit _ _).settleDuties
      split
      · exact (hs.updGroup _ _).writeMixed _ _ _ _ _
      · exact ((hs.updGroup _ _).writeMixed _ _ _ _ _).draw
  · exact hs

theorem State.Inv.settleSplit {s : State} (hs : s.Inv) (split : Nat) :
    (s.settleSplit split).Inv := by
  unfold State.settleSplit
  split
  · exact hs
  split
  · exact hs
  split
  · exact hs.fuse _ _ _
  · exact hs

theorem State.Inv.lendSlot {s : State} (hs : s.Inv) (x : SUnit) :
    (s.lendSlot x).Inv := by
  unfold State.lendSlot
  split
  · exact hs
  dsimp only
  split
  · exact hs
  · exact (hs.updUnit _ _).updUnit _ _

theorem State.Inv.afterSide {s : State} (hs : s.Inv) (x : SUnit) :
    (s.afterSide x).Inv := (State.Inv.foldl _ (fun _ _ ht => ht.settleSplit _) _ hs).lendSlot _

theorem State.Inv.rejoin {s : State} (hs : s.Inv) (u : SUnit) :
    (s.rejoin u).Inv := by
  unfold State.rejoin
  split
  · exact hs
  dsimp only
  split
  · exact hs
  · exact ((hs.retarget _ _).removeUnit _).updUnit _ _

theorem State.Inv.exec_join {s : State} (hs : s.Inv) (f : FmtB) :
    State.OutInv (execJoin f s) := by
  unfold execJoin
  refine hs.closingWord _ fun _ _ _ ht => ?_
  dsimp only
  split
  · exact (ht.updUnit _ _).rejoin _
  split
  · exact (ht.updUnit _ _).recoverUnit _ _
  · exact (ht.updUnit _ _).afterSide _

theorem State.Inv.cutSpan {s : State} (hs : s.Inv) (u : SUnit) (t k : Nat) :
    (s.cutSpan u t k).1.Inv := (hs.addPiece _ _).updUnit _ _

theorem State.Inv.strandSplit {s : State} (hs : s.Inv) (u : SUnit) (stay : BitVec 64) (sides : List (BitVec 64)) :
    (s.strandSplit u stay sides).1.Inv := by
  unfold State.strandSplit
  dsimp only
  split
  · exact hs.split _ _ _
  split
  · exact hs
  · exact hs.split _ _ _

theorem State.Inv.condTransfer {s : State} (hs : s.Inv) (i : Issue) (u : SUnit) (cond : PReg) (take : State → Nat → State) (htake : ∀ t b, t.Inv → (take t b).Inv) :
    (s.condTransfer i u cond take).state.Inv := by
  unfold State.condTransfer
  dsimp only
  split
  · split
    · exact hs
    split
    · exact htake _ _ hs
    split
    · exact hs
    · exact (State.Inv.foldl _ (fun _ _ ht => htake _ _ ht) _ (hs.strandSplit _ _ _)).updUnit _ _
  split
  · exact htake _ _ hs
  · exact hs
  · exact hs
  · split
    · exact hs
    · exact (htake _ _ (hs.cutSpan _ _ _)).updUnit _ _
  split
  · exact hs
  · exact (htake _ _ (hs.cutSpan _ _ _)).updUnit _ _

theorem State.Inv.exec_bra {s : State} (hs : s.Inv) (f : FmtB) :
    State.OutInv (execBra f s) := hs.word _ (fun _ _ _ ht => ht.condTransfer _ _ _ _ (fun _ _ ht1 => ht1.updUnit _ _))

theorem State.Inv.exec_brp {s : State} (hs : s.Inv) (f : FmtB) :
    State.OutInv (execBrp f s) := by
  unfold execBrp
  refine hs.word _ fun _ _ _ ht => ?_
  dsimp only
  split
  · exact ht.updUnit _ _
  · exact ht

theorem State.Inv.exec_call {s : State} (hs : s.Inv) (f : FmtB) :
    State.OutInv (execCall f s) := by
  unfold execCall
  refine hs.closingWord _ fun _ _ _ ht => ?_
  dsimp only
  split
  · exact ht
  split
  · exact ht
  split
  · exact ht
  · exact ht.condTransfer _ _ _ _ (fun _ _ ht1 => ht1.updUnit _ _)

theorem State.Inv.indirect {s : State} (hs : s.Inv) (i : Issue) (u : SUnit) (cond : PReg) (r : Nat) (go : SUnit → W64 → SUnit) :
    (s.indirect i u cond r go).state.Inv := by
  unfold State.indirect
  dsimp only
  split
  · exact hs
  · split
    · exact hs.updUnit _ _
    split
    · exact hs
    · exact (State.Inv.foldl _ (fun _ _ ht => ht.updUnit _ _) _ (hs.strandSplit _ _ _)).updUnit _ _
  split
  · exact hs
  show State.Inv _
  split
  · exact State.Inv.foldl _ (fun _ _ ht => ht.updUnit _ _) _ (hs.strandSplit _ _ _)
  · exact (State.Inv.foldl _ (fun _ _ ht => ht.updUnit _ _) _ (hs.strandSplit _ _ _)).updUnit _ _

theorem State.Inv.exec_calli {s : State} (hs : s.Inv) (f : FmtB) :
    State.OutInv (execCalli f s) := by
  unfold execCalli
  refine hs.closingWord _ fun _ _ _ ht => ?_
  dsimp only
  split
  · exact ht
  split
  · exact ht
  split
  · exact ht
  · exact ht.indirect _ _ _ _ _

theorem State.Inv.exec_jmpi {s : State} (hs : s.Inv) (f : FmtB) :
    State.OutInv (execJmpi f s) := by
  unfold execJmpi
  refine hs.word _ fun _ _ _ ht => ?_
  dsimp only
  split
  · exact ht.indirect _ _ _ _ _
  split
  · exact ht
  split
  · exact ht
  · exact ht.condTransfer _ _ _ _ (fun _ _ ht1 => ht1.updUnit _ _)

theorem State.Inv.retireItems {s : State} (hs : s.Inv) (u : SUnit) (items : List Nat) :
    (s.retireItems u items).Inv := by
  unfold State.retireItems
  dsimp only
  split
  · exact (hs.publish _ _).updGroup _ _
  · exact (hs.publish _ _).updLaunch _ _

theorem State.Inv.exitUnit {s : State} (hs : s.Inv) (id : Nat) :
    (s.exitUnit id).Inv := by
  unfold State.exitUnit
  split
  · exact hs
  dsimp only
  split
  · exact ((hs.retireItems _ _).removeUnit _).checkDrained _
  refine State.Inv.afterSide ?_ _
  split
  · exact ((hs.retireItems _ _).removeUnit _).releaseWindow _ _
  · exact (hs.retireItems _ _).removeUnit _

theorem State.Inv.inlineReturn {s : State} (hs : s.Inv) (id : Nat) :
    (s.inlineReturn id).Inv := by
  unfold State.inlineReturn
  split
  · exact hs
  split
  · exact hs
  dsimp only
  split
  · next e2 => exact (State.Inv.ensureRows _ (hs.putUnit _) e2).writeLanes _ _ _ _
  · exact hs.putUnit _

theorem State.Inv.exec_exit {s : State} (hs : s.Inv) (f : FmtB) :
    State.OutInv (execExit f s) := by
  unfold execExit
  refine hs.closingWord _ fun _ _ _ ht => ?_
  dsimp only
  split
  · exact ht.condTransfer _ _ _ _ (fun _ _ ht1 => ht1.exitUnit _)
  · exact ht.condTransfer _ _ _ _ (fun _ _ ht1 => (ht1.updUnit _ _).inlineReturn _)

theorem State.Inv.exec_ret {s : State} (hs : s.Inv) (f : FmtB) :
    State.OutInv (execRet f s) := by
  unfold execRet
  refine hs.closingWord _ fun _ _ _ ht => ?_
  split
  · exact ht.exitUnit _
  dsimp only
  split
  · exact (ht.updUnit _ _).inlineReturn _
  split
  · split
    · split
      · exact ht.updUnit _ _
      · exact ht.faultUnit _ _ _
    · exact ht.updUnit _ _
  · exact ht.updUnit _ _

theorem State.Inv.exec_region {s : State} (hs : s.Inv) (f : FmtB) :
    State.OutInv (execRegion f s) := hs.closingWord _ (fun _ _ _ ht => ht.updUnit _ _)

theorem State.Inv.exec_nop {s : State} (hs : s.Inv) (f : FmtS) :
    State.OutInv (execNop f s) := hs.word _ (fun _ _ _ ht => ht)

theorem State.Inv.exec_yield {s : State} (hs : s.Inv) (f : FmtS) :
    State.OutInv (execYield f s) := hs.word _ (fun _ _ _ ht => ht.updUnit _ _)

theorem State.Inv.exec_trap {s : State} (hs : s.Inv) (f : FmtS) :
    State.OutInv (execTrap f s) := by
  unfold execTrap
  refine hs.closingWord _ fun _ _ _ ht => ?_
  split <;> exact ht

theorem State.Inv.haltQueues {s : State} (hs : s.Inv) (c : Nat) :
    (s.haltQueues c).Inv := hs.keep

theorem State.Inv.suspendCtx {s : State} (hs : s.Inv) (c : Nat) :
    (s.suspendCtx c).Inv := by
  unfold State.suspendCtx
  split
  · split
    · exact (hs.updCtx _ _).haltQueues _
    · exact hs
  · exact hs

theorem State.Inv.raiseEvent {s : State} (hs : s.Inv) (c : Nat) :
    (s.raiseEvent c).Inv := by
  unfold State.raiseEvent
  split
  · exact hs.raise _
  · exact hs

theorem State.Inv.exec_brk {s : State} (hs : s.Inv) (f : FmtS) :
    State.OutInv (execBrk f s) := by
  unfold execBrk
  refine hs.closingWord _ fun t i u ht => ?_
  split
  · exact ht
  refine State.Inv.updUnit ?_ u.id _
  split
  · split
    · exact ht
    · refine State.Inv.raiseEvent ?_ _
      split
      · exact (ht.updCtx _ _).suspendCtx _
      · exact ht.updCtx _ _
  · exact ht

theorem State.Inv.exec_deal {s : State} (hs : s.Inv) (f : FmtB) :
    State.OutInv (execDeal f s) := by
  unfold execDeal
  refine hs.word _ fun _ _ _ ht => ?_
  split <;> exact ht

theorem State.Inv.exec_rdsr {s : State} (hs : s.Inv) (f : FmtS) :
    State.OutInv (execRdsr f s) := by
  unfold execRdsr
  refine hs.word _ fun _ _ _ ht => ?_
  dsimp only
  split
  · exact ht
  split
  · exact ht
  split
  · exact ht
  split
  · exact ht.writeV _ _ _ _ (fun _ ht1 => ht1)
  · split <;> exact ht.writeV _ _ _ _ (fun _ ht1 => ht1)

theorem State.Inv.exec_wrsr {s : State} (hs : s.Inv) (f : FmtS) :
    State.OutInv (execWrsr f s) := by
  unfold execWrsr
  refine hs.closingWord _ fun _ _ _ ht => ?_
  dsimp only
  split
  · exact ht
  split
  · exact ht.updUnit _ _
  · split
    · exact ht
    · exact ht.updUnit _ _
  · exact ht.updUnit _ _

theorem State.Inv.exec_fmode {s : State} (hs : s.Inv) (f : FmtS) :
    State.OutInv (execFmode f s) := by
  unfold execFmode
  refine hs.closingWord _ fun _ _ _ ht => ?_
  split
  · exact ht
  · exact ht.updUnit _ _

end Sys2Proof.Machine
end

section
/-! SUPPORT. Memory words, fences, atomics and synchronisation keep the form. -/

namespace Sys2Proof.Machine
set_option Elab.async false

theorem State.Inv.touchHot {s : State} (hs : s.Inv) (cluster line : Nat) :
    (s.touchHot cluster line).Inv := hs.keep

theorem State.Inv.dropReq {s : State} (hs : s.Inv) (r : AtomReq) :
    (s.dropReq r).Inv := hs.keep

theorem State.Inv.poisonReq {s : State} (hs : s.Inv) (r : AtomReq) :
    (s.poisonReq r).Inv := by
  unfold State.poisonReq
  extract_lets t s1 s2
  have h1 : s1.Inv := by
    unfold s1
    split
    · exact hs.updUnit _ _
    · exact hs
  exact ((h1.updPend _ _).entryDone _ _ _ _).dropReq _

theorem State.Inv.performReq {s : State} (hs : s.Inv) (r : AtomReq) (old : List Byte) :
    (s.performReq r old).Inv := by
  unfold State.performReq
  dsimp only
  refine (State.Inv.entryDone ?_ _ _ _ _).dropReq _
  split
  · exact hs.touchHot _ _
  · exact (hs.touchHot _ _).writeHome _ _ _

theorem State.Inv.askReq {s : State} (hs : s.Inv) (r : AtomReq) (n : Nat) :
    (s.askReq r n).Inv := by
  unfold State.askReq
  split
  · exact hs
  · exact hs.keep

theorem State.Inv.serveReq {s : State} (hs : s.Inv) (r : AtomReq) :
    (s.serveReq r).Inv := by
  unfold State.serveReq
  dsimp only
  split
  · exact hs
  split
  · exact hs.performReq _ _
  · exact hs.poisonReq _
  split
  · exact (hs.poisonReq _).countLost _
  split
  · exact hs.askReq _ _
  · exact hs.performReq _ _

theorem State.Inv.serveReqs {s : State} (hs : s.Inv) (l : List AtomReq) :
    (s.serveReqs l).Inv := by
  induction l generalizing s with
  | nil => exact hs
  | cons x xs ih =>
    rw [State.serveReqs]
    split
    · exact ih (hs.serveReq _)
    · exact hs.serveReq _

theorem State.Inv.serveLine {s : State} (hs : s.Inv) (line : Nat) :
    (s.serveLine line).Inv := hs.serveReqs _

theorem State.Inv.serveLines {s : State} (hs : s.Inv) (pas : List Nat) :
    (s.serveLines pas).Inv := by
  unfold State.serveLines
  split
  · exact hs
  · exact State.Inv.foldl _ (fun _ _ ht => ht.serveLine _) _ hs

theorem State.Inv.waitLines {s : State} (hs : s.Inv) (u : SUnit) (lines : List Nat) :
    (s.waitLines u lines).Inv := hs.updUnit _ _

theorem State.Inv.evictLines {s : State} (hs : s.Inv) (core : Nat) (pas : List Nat) :
    (s.evictLines core pas).Inv := State.Inv.foldl _ (fun _ _ ht => ht.evictLine _ _) _ hs

theorem State.Inv.lookBack {s : State} (hs : s.Inv) (u : SUnit) (mine : Nat → Nat → Bool) (n : Nat) (ps : List (Nat × Nat × Nat × Leaf)) :
    (s.lookBack u mine n ps).2.Inv := by
  unfold State.lookBack
  split
  · exact hs
  split
  · exact hs.seeStores _
  split
  rename_i t e
  have ht : t.Inv := hs.draw.of_pair e
  split
  · exact ht.seeStores _
  dsimp only
  split
  · exact ht.seeStores _
  · exact ht

theorem State.Inv.exec_ld {s : State} (hs : s.Inv) (f : FmtM) :
    State.OutInv (execLd f s) := by
  unfold execLd
  refine hs.word _ fun _ _ _ ht => ?_
  dsimp only
  split
  · exact ht
  split
  · exact ht
  split
  · exact ht
  split
  · next e1 => exact ((ht.checkItems _ _ _ _ _ _ _).of_pair e1).chkRes _ _ _ _
  rename_i t1 e1
  have ht1 : t1.Inv := (ht.checkItems _ _ _ _ _ _ _).of_pair e1
  split
  · exact ht1.countLost _
  split
  · exact (ht1.serveLines _).waitLines _ _
  split
  · next e3 =>
      refine (State.Inv.askHost ?_ _ _ _).get e3
      split
      · exact (ht1.serveLines _).evictLines _ _
      · exact ht1.serveLines _
  split
  · refine State.Inv.forgetHost ?_ _
    split
    · exact (ht1.serveLines _).evictLines _ _
    · exact ht1.serveLines _
  refine (State.Inv.lookBack ?_ _ _ _ _).deferV _ _ _ _ _ _ (fun _ _ ht2 => ht2.forgetHost _)
  split
  · exact (ht1.serveLines _).evictLines _ _
  · exact ht1.serveLines _

theorem State.Inv.storePlaces {s : State} (hs : s.Inv) (u : SUnit) (t : Ty) (d : Nat) (ps : List (Nat × Nat × Nat × Leaf)) :
    (s.storePlaces u t d ps).Inv := State.Inv.foldl _ (fun _ _ ht => ht.weaveWrite _ _ _ _ _) _ ((State.Inv.foldl _ (fun _ _ ht => ht.writeL1 _ _ _) _ hs).of_same (State.same_clearLines _ _))

theorem State.Inv.noteStores {s : State} (hs : s.Inv) (u : SUnit) (sole : Bool) (n : Nat) (ps : List (Nat × Nat × Nat × Leaf)) :
    (s.noteStores u sole n ps).Inv := by
  unfold State.noteStores
  dsimp only
  split
  · split
    · exact hs.seeStores _
    · exact hs
  · split <;> exact hs.keep

theorem State.Inv.exec_st {s : State} (hs : s.Inv) (f : FmtM) :
    State.OutInv (execSt f s) := by
  unfold execSt
  refine hs.word _ fun _ _ _ ht => ?_
  dsimp only
  split
  · exact ht
  split
  · next e => exact ((ht.checkItems _ _ _ _ _ _ _).of_pair e).chkRes _ _ _ _
  rename_i t1 e
  have ht1 : t1.Inv := (ht.checkItems _ _ _ _ _ _ _).of_pair e
  split
  · exact (ht1.serveLines _).waitLines _ _
  dsimp only [Res.state]
  split
  · exact (((ht1.serveLines _).noteStores _ _ _ _).storePlaces _ _ _ _).publish _ _
  · exact ((ht1.serveLines _).noteStores _ _ _ _).storePlaces _ _ _ _

theorem State.Inv.exec_lds {s : State} (hs : s.Inv) (f : FmtM) :
    State.OutInv (execLds f s) := by
  unfold execLds
  refine hs.word _ fun _ _ _ ht => ?_
  dsimp only
  split
  · exact ht
  split
  · exact ht
  split
  · exact ht
  split
  · exact ht
  split
  · exact ht
  split
  · exact ht
  · exact ht.deferV _ _ _ _ _ _ (fun _ _ ht1 => ht1)

theorem State.Inv.clearPadWords {s : State} (hs : s.Inv) (written : List Nat) :
    (s.clearPadWords written).Inv := by
  unfold State.clearPadWords
  split
  · exact hs
  · exact hs.keep

theorem State.Inv.dropNotes {s : State} (hs : s.Inv) (keys : List Nat) :
    (s.dropNotes keys).Inv := hs.keep

theorem State.Inv.notePads {s : State} (hs : s.Inv) (g : Group) (n : Nat) (ps : List (Nat × Nat × Nat × Nat)) :
    (s.notePads g n ps).Inv := by
  unfold State.notePads
  refine State.Inv.foldl _ (fun _ _ ht => ?_) _ hs
  exact ht.keep

theorem State.Inv.exec_sts {s : State} (hs : s.Inv) (f : FmtM) :
    State.OutInv (execSts f s) := by
  unfold execSts
  refine hs.word _ fun _ _ _ ht => ?_
  dsimp only
  split
  · exact ht
  split
  · exact ht
  split
  · exact ht
  dsimp only [Res.state]
  split
  · exact (((State.Inv.foldl _ (fun _ _ ht => ht.writePad _ _ _) _ ht).clearPadWords _).notePads _ _ _).publish _ _
  · exact ((State.Inv.foldl _ (fun _ _ ht => ht.writePad _ _ _) _ ht).clearPadWords _).notePads _ _ _

theorem State.Inv.afterAtoms {s : State} (hs : s.Inv) (u : SUnit) (k : State → Res) (hk : ∀ t, t.Inv → (k t).state.Inv) :
    (s.afterAtoms u k).state.Inv := by
  unfold State.afterAtoms
  dsimp only
  split
  · exact hk _ (hs.serveLines _)
  · exact (hs.serveLines _).waitLines _ _

theorem State.Inv.exec_phase {s : State} (hs : s.Inv) (f : FmtM) :
    State.OutInv (execPhase f s) := by
  unfold execPhase
  refine hs.word _ fun _ _ _ ht => ?_
  split
  · exact ht
  split
  · exact ht.publish _ _
  refine ht.afterAtoms _ _ fun _ ht1 => ?_
  dsimp only [Res.state]
  split
  · exact ht1
  · exact ht1.publish _ _

theorem State.Inv.orderPads {s : State} (hs : s.Inv) (g : Option Nat) (m : BitVec 2) :
    (s.orderPads g m).Inv := hs.keep

theorem State.Inv.exec_xfence {s : State} (hs : s.Inv) (f : FmtM) :
    State.OutInv (execXfence f s) := by
  unfold execXfence
  refine hs.word _ fun _ _ _ ht => ?_
  split
  · exact ht
  · exact ht.afterAtoms _ _ (fun _ ht1 => (ht1.orderPads _ _).publish _ _)

theorem State.Inv.exec_pref {s : State} (hs : s.Inv) (f : FmtM) :
    State.OutInv (execPref f s) := by
  unfold execPref
  refine hs.word _ fun _ _ _ ht => ?_
  split <;> exact ht

theorem State.Inv.acquireNow {s : State} (hs : s.Inv) (u : SUnit) (pas : List Nat) :
    (s.acquireNow u pas).Inv := by
  unfold State.acquireNow
  dsimp only
  split
  · exact hs.serveLines _
  · exact (hs.serveLines _).waitLines _ _

theorem State.Inv.runAtom {s : State} (hs : s.Inv) (op : AtomOp) (f : FmtM) :
    State.OutInv (s.runAtom op f) := by
  unfold State.runAtom
  refine hs.closingWord _ fun _ _ _ ht => ?_
  dsimp only
  split
  · exact ht
  split
  · exact ht
  split
  · next e => exact ((ht.checkItems _ _ _ _ _ _ _).of_pair e).chkRes _ _ _ _
  rename_i t1 e
  have ht1 : t1.Inv := (ht.checkItems _ _ _ _ _ _ _).of_pair e
  split
  · exact ht1.countLost _
  split
  · dsimp only [Res.state]
    split
    · refine (State.Inv.evictLines ?_ _ _).keep.acquireNow _ _
      split
      · exact ht1.publish _ _
      · exact ht1
    refine (State.Inv.evictLines ?_ _ _).keep
    split
    · exact ht1.publish _ _
    · exact ht1
  refine (State.Inv.evictLines ?_ _ _).deferV _ _ _ _ _ _ ?_
  · split
    · exact ht1.publish _ _
    · exact ht1
  · intro _ _ ht2
    dsimp only [Res.state]
    split
    · exact ht2.keep.acquireNow _ _
    · exact ht2.keep

theorem State.Inv.padAtoms {s : State} (hs : s.Inv) (u : SUnit) (op : AtomOp) (f : FmtM) (n : Nat) (l : List (Nat × Nat × Nat × Nat)) :
    (s.padAtoms u op f n l).1.Inv := by
  induction l generalizing s u op f n with
  | nil => exact hs
  | cons x xs ih =>
    rw [State.padAtoms]
    dsimp only
    refine ih ?_ _ _ _ _
    split
    · exact hs.dropNotes _
    · exact (hs.dropNotes _).writePad _ _ _

theorem State.Inv.runAtoms {s : State} (hs : s.Inv) (op : AtomOp) (f : FmtM) :
    State.OutInv (s.runAtoms op f) := by
  unfold State.runAtoms
  refine hs.closingWord _ fun _ _ _ ht => ?_
  dsimp only
  split
  · exact ht
  split
  · exact ht
  split
  · exact ht
  split
  · exact ht
  split
  · exact ht
  split
  · refine (State.Inv.padAtoms ?_ _ _ _ _ _).addPend _ _ _ _ _ _
    split
    · exact ht.publish _ _
    · exact ht
  refine State.Inv.deferV ?_ _ _ _ _ _ _ (fun _ _ ht1 => ht1.padAtoms _ _ _ _ _)
  split
  · exact ht.publish _ _
  · exact ht

theorem State.Inv.putBar {s : State} (hs : s.Inv) (g : Group) (n : Nat) (b : Barrier) :
    (s.putBar g n b).Inv := by
  unfold State.putBar
  dsimp only
  split
  · exact hs.updGroup _ _
  · split <;> exact hs.updGroup _ _

theorem State.Inv.countBytes {s : State} (hs : s.Inv) (gid n : Nat) (d : Int) :
    (s.countBytes gid n d).Inv := by
  unfold State.countBytes
  split
  · exact hs
  split
  · exact hs
  · exact hs.putBar _ _ _

theorem State.Inv.countPerformed {s : State} (hs : s.Inv) (gid n k : Nat) :
    (s.countPerformed gid n k).Inv := by
  unfold State.countPerformed
  split
  · exact hs
  dsimp only
  split
  · exact (hs.countBytes _ _ _).countBytes _ _ _
  · exact hs.countBytes _ _ _

theorem State.Inv.breakBar {s : State} (hs : s.Inv) (gid n : Nat) (code : BitVec 2) :
    (s.breakBar gid n code).Inv := hs.updGroup _ _

theorem State.Inv.runSyn {s : State} (hs : s.Inv) (f : FmtX) (body : State → Issue → SUnit → Res) (hbody : ∀ t b c, t.Inv → (body t b c).state.Inv) :
    State.OutInv (s.runSyn f body) := by
  unfold State.runSyn
  refine hs.word _ fun _ _ _ ht => ?_
  split
  · exact hbody _ _ _ (ht.closeRegion _)
  · exact ht

theorem State.Inv.onBarrier {s : State} (hs : s.Inv) (u : SUnit) (f : FmtX) (needU : Bool) (body : Group → Guard → Nat → Barrier → Res) (hbody : ∀ a b c d, (body a b c d).state.Inv) :
    (s.onBarrier u f needU body).state.Inv := by
  unfold State.onBarrier
  dsimp only
  split
  · exact hs
  split
  · exact hs
  split
  · exact hs
  split
  · exact hs
  · exact hbody _ _ _ _

theorem State.Inv.exec_bari {s : State} (hs : s.Inv) (f : FmtX) :
    State.OutInv (execBari f s) := by
  unfold execBari
  refine hs.runSyn _ _ (fun _ _ _ ht => ?_)
  refine ht.onBarrier _ _ _ _ (fun _ _ _ _ => ?_)
  dsimp only
  split
  · dsimp only [Res.state]
    exact ht
  · dsimp only [Res.state]
    exact ht.putBar _ _ _

theorem State.Inv.exec_bara {s : State} (hs : s.Inv) (f : FmtX) :
    State.OutInv (execBara f s) := by
  unfold execBara
  refine hs.runSyn _ _ fun _ _ _ ht => ?_
  refine ht.onBarrier _ _ _ _ fun _ _ _ _ => ?_
  split
  · exact ht
  · exact ht.breakBar _ _ _
  · exact ht.writeV _ _ _ _ (fun _ ht1 => ht1)
  · exact ht.writeV _ _ _ _ (fun _ ht1 => (ht1.publish _ _).putBar _ _ _)

theorem State.Inv.exec_barw {s : State} (hs : s.Inv) (f : FmtX) :
    State.OutInv (execBarw f s) := by
  unfold execBarw
  refine hs.word _ fun _ _ _ ht => ?_
  refine ht.onBarrier _ _ _ _ fun _ _ _ _ => ?_
  dsimp only
  split
  · exact ht
  split
  · split
    · exact ht.writeV _ _ _ _ (fun _ ht1 => ht1)
    split
    · exact ht.writeV _ _ _ _ (fun _ ht1 => ht1)
    split
    · exact ht
    · exact ht.updUnit _ _
  split
  · exact ht.writeV _ _ _ _ (fun _ ht1 => ht1)
  split
  · exact ht.writeV _ _ _ _ (fun _ ht1 => ht1)
  split
  · exact ht
  · exact ht.updUnit _ _

theorem State.Inv.exec_barx {s : State} (hs : s.Inv) (f : FmtX) :
    State.OutInv (execBarx f s) := by
  unfold execBarx
  refine hs.runSyn _ _ fun _ _ _ ht => ?_
  refine ht.onBarrier _ _ _ _ fun _ _ _ _ => ?_
  split
  · exact ht
  · exact ht.countBytes _ _ _

theorem State.Inv.leave {s : State} (hs : s.Inv) (i : Issue) (u : SUnit) (g : Guard) :
    (s.leave i u g).state.Inv := by
  unfold State.leave
  split
  · exact hs.exitUnit _
  · exact (hs.retireItems _ _).updUnit _ _

theorem State.Inv.exec_barc {s : State} (hs : s.Inv) (f : FmtX) :
    State.OutInv (execBarc f s) := by
  unfold execBarc
  refine hs.runSyn _ _ fun _ _ _ ht => ?_
  refine ht.onBarrier _ _ _ _ fun _ _ _ _ => ?_
  dsimp only
  split
  · exact ht
  split
  · exact ht
  · exact ht.breakBar _ _ _
  · exact ht.writeV _ _ _ _ (fun _ ht1 => ht1)
  split
  · exact ((ht.publish _ _).putBar _ _ _).leave _ _ _
  split
  · exact ((ht.publish _ _).putBar _ _ _).leave _ _ _
  split
  · exact (ht.publish _ _).updGroup _ _
  · exact ht.writeV _ _ _ _ (fun _ ht1 => (ht1.publish _ _).updGroup _ _)

theorem State.Inv.exec_waita {s : State} (hs : s.Inv) (f : FmtX) :
    State.OutInv (execWaita f s) := by
  unfold execWaita
  refine hs.word _ fun _ _ _ ht => ?_
  dsimp only
  split
  · exact ht
  split
  · exact ht
  split
  · exact ht
  split
  · exact ht
  split
  · exact ht
  split
  · exact ht
  split
  · exact ht.writeV _ _ _ _ (fun _ ht1 => ht1)
  · exact ht.updUnit _ _

theorem State.Inv.exec_pipw {s : State} (hs : s.Inv) (f : FmtX) :
    State.OutInv (execPipw f s) := by
  unfold execPipw
  refine hs.word _ fun _ _ _ ht => ?_
  dsimp only
  split
  · exact ht
  split
  · exact ht
  split
  · exact ht
  · exact ht.updUnit _ _

theorem State.Inv.exec_barq {s : State} (hs : s.Inv) (f : FmtX) :
    State.OutInv (execBarq f s) := by
  unfold execBarq
  refine hs.word _ fun _ _ _ ht => ?_
  refine ht.onBarrier _ _ _ _ fun _ _ _ _ => ?_
  exact ht.deferV _ _ _ _ _ _ (fun _ _ ht1 => ht1)

theorem State.Inv.mkEntry {s : State} (hs : s.Inv) (u : SUnit) (op queue engine item reg : Nat) (job : EngJob) :
    (s.mkEntry u op queue engine item reg job).2.Inv := hs.fresh

theorem State.Inv.enqueue {s : State} (hs : s.Inv) (e : EngEntry) :
    (s.enqueue e).Inv := hs.keep

theorem State.Inv.holdPort {s : State} (hs : s.Inv) (i : Issue) (u : SUnit) (queue : Nat) :
    (s.holdPort i u queue).state.Inv := by
  unfold State.holdPort
  split
  · exact hs
  · exact hs.keep

theorem State.Inv.enterCopy {s : State} (hs : s.Inv) (u : SUnit) (engine item : Nat) (job : EngJob) :
    (s.enterCopy u engine item job).Inv := by
  unfold State.enterCopy
  dsimp only
  exact (((hs.addPend _ _ _ _ _ _).mkEntry _ _ _ _ _ _ _).enqueue _).updUnit _ _

theorem State.Inv.exec_acp {s : State} (hs : s.Inv) (f : FmtX) :
    State.OutInv (execAcp f s) := by
  unfold execAcp
  refine hs.closingWord _ fun _ _ _ ht => ?_
  dsimp only
  split
  · exact ht
  split
  · exact ht
  split
  · exact ht
  split
  · exact ht
  · exact (ht.enterCopy _ _ _ _).holdPort _ _ _

theorem State.Inv.exec_aseal {s : State} (hs : s.Inv) (f : FmtX) :
    State.OutInv (execAseal f s) := by
  unfold execAseal
  refine hs.closingWord _ fun _ _ _ ht => ?_
  split
  · exact ht
  · exact ht.fresh.updUnit _ _

theorem State.Inv.exec_await {s : State} (hs : s.Inv) (f : FmtX) :
    State.OutInv (execAwait f s) := by
  unfold execAwait
  refine hs.word _ fun _ _ _ ht => ?_
  dsimp only
  split
  · exact ht
  · exact ht.updUnit _ _

theorem State.Inv.runCards {s : State} (hs : s.Inv) (f : FmtX) (bxf : Bool) :
    State.OutInv (s.runCards f bxf) := by
  unfold State.runCards
  refine hs.closingWord _ fun _ _ _ ht => ?_
  dsimp only
  split
  · exact ht
  split
  · exact ht
  split
  · exact ht
  · exact (State.Inv.foldl _ (fun _ _ ht => ht.enterCopy _ _ _ _) _ ht).holdPort _ _ _

theorem State.Inv.exec_qfen {s : State} (hs : s.Inv) (f : FmtX) :
    State.OutInv (execQfen f s) := by
  unfold execQfen
  refine hs.word _ fun _ _ _ ht => ?_
  dsimp only
  split
  · exact ht
  · exact (ht.addPend _ _ _ _ _ _).updUnit _ _

theorem State.Inv.exec_coll {s : State} (hs : s.Inv) (f : FmtX) :
    State.OutInv (execColl f s) := by
  unfold execColl
  refine hs.closingWord _ fun _ _ _ ht => ?_
  dsimp only
  split
  · exact ht
  · exact (State.Inv.foldl _ (fun _ _ ht => (ht.mkEntry _ _ _ _ _ _ _).enqueue _) _ (ht.addPend _ _ _ _ _ _)).holdPort _ _ _

theorem State.Inv.exec_astat {s : State} (hs : s.Inv) (f : FmtX) :
    State.OutInv (execAstat f s) := by
  unfold execAstat
  refine hs.word _ fun _ _ _ ht => ?_
  dsimp only
  split
  · exact ht
  · exact ht.deferV _ _ _ _ _ _ (fun _ _ ht1 => ht1)

theorem State.Inv.poisonLines {s : State} (hs : s.Inv) (ls : List Nat) :
    (s.poisonLines ls).Inv := by
  unfold State.poisonLines
  dsimp only
  split
  · exact hs
  · exact hs.keep

theorem State.Inv.poisonPad {s : State} (hs : s.Inv) (ws : List Nat) :
    (s.poisonPad ws).Inv := by
  unfold State.poisonPad
  split
  · exact hs
  · exact hs.keep

theorem State.Inv.engineAbsent {s : State} (hs : s.Inv) (who : Who) (ctx : Nat) (need : Need) (va : Nat) :
    (s.engineAbsent who ctx need va).2.Inv := by
  unfold State.engineAbsent
  split
  · next e => exact (hs.pageRequest _ _ _ _).get e
  · exact hs

theorem State.Inv.enginePage {s : State} (hs : s.Inv) (who : Who) (ctx : Nat) (need : Need) (va n : Nat) :
    (s.enginePage who ctx need va n).2.Inv := by
  unfold State.enginePage
  split
  · next e => exact (hs.leafOf _ _ _).of_pair e
  rename_i t e
  have ht : t.Inv := (hs.leafOf _ _ _).of_pair e
  split
  · exact ht
  split
  · exact ht
  · exact ht.engineAbsent _ _ _ _
  · exact ht
  · split <;> exact ht

theorem State.Inv.readPage {s : State} (hs : s.Inv) (who : Who) (ctx : Nat) (fm : BitVec 4) (va n : Nat) :
    (s.readPage who ctx fm va n).2.Inv := by
  unfold State.readPage
  split
  · next e => split <;> exact (hs.enginePage _ _ _ _ _).of_pair e
  · next e => exact (hs.enginePage _ _ _ _ _).of_pair e
  rename_i t e
  have ht : t.Inv := (hs.enginePage _ _ _ _ _).of_pair e
  dsimp only
  split
  · split
    · exact ht.countLost _
    · split <;> exact ht
  split
  · exact (ht.serveLines _).countLost _
  · split <;> exact ht.serveLines _

theorem State.Inv.readRun {s : State} (hs : s.Inv) (who : Who) (ctx : Nat) (fm : BitVec 4) (n : Nat) (k : Nat) (m : Nat) :
    (s.readRun who ctx fm n k m).2.Inv := by
  induction n generalizing s who ctx fm k m with
  | zero => exact hs
  | succ n ih =>
    rw [State.readRun]
    split
    · exact hs
    dsimp only
    split
    · next t e =>
        have ht : t.Inv := (hs.readPage _ _ _ _ _).of_pair e
        split
        · next e1 => exact (ih ht _ _ _ _ _).of_pair e1
        · next e1 => exact (ih ht _ _ _ _ _).of_pair e1
    · next e => exact (hs.readPage _ _ _ _ _).of_pair e

theorem State.Inv.readEngine {s : State} (hs : s.Inv) (who : Who) (ctx : Nat) (fm : BitVec 4) (va n : Nat) :
    (s.readEngine who ctx fm va n).2.Inv := hs.readRun _ _ _ _ _ _

theorem State.Inv.writeEngineAt {s : State} (hs : s.Inv) (who : Who) (pa : Nat) (bs : List PByte) :
    (s.writeEngineAt who pa bs).Inv := by
  unfold State.writeEngineAt
  dsimp only
  refine (State.Inv.writeHome ?_ _ _ _).poisonLines _
  split
  · split
    · exact hs
    · exact hs.flushRange _ _
  split
  · exact hs.serveLines _
  · exact (hs.serveLines _).flushRange _ _

theorem State.Inv.writePage {s : State} (hs : s.Inv) (who : Who) (ctx : Nat) (fm : BitVec 4) (va : Nat) (bs : List PByte) :
    (s.writePage who ctx fm va bs).2.Inv := by
  unfold State.writePage
  split
  · next e => exact (hs.enginePage _ _ _ _ _).of_pair e
  rename_i t e
  have ht : t.Inv := (hs.enginePage _ _ _ _ _).of_pair e
  split
  · exact ht.writeEngineAt _ _ _
  dsimp only
  refine (State.Inv.weaveWrite ?_ _ _ _ _ _).poisonLines _
  split
  · exact ht
  · exact ht.serveLines _

theorem State.Inv.writeRun {s : State} (hs : s.Inv) (who : Who) (ctx : Nat) (fm : BitVec 4) (n : Nat) (k : Nat) (l : List PByte) :
    (s.writeRun who ctx fm n k l).2.2.Inv := by
  induction n generalizing s who ctx fm k l with
  | zero => exact hs
  | succ n ih =>
    rw [State.writeRun]
    split
    · exact hs
    dsimp only
    split
    · next e => exact ih ((hs.writePage _ _ _ _ _).of_pair e) _ _ _ _ _
    · next e => exact (hs.writePage _ _ _ _ _).of_pair e

theorem State.Inv.writeEngine {s : State} (hs : s.Inv) (who : Who) (ctx : Nat) (fm : BitVec 4) (va : Nat) (bs : List PByte) :
    (s.writeEngine who ctx fm va bs).2.2.Inv := hs.writeRun _ _ _ _ _ _

theorem State.Inv.writePadP {s : State} (hs : s.Inv) (core off : Nat) (bs : List PByte) :
    (s.writePadP core off bs).Inv := (hs.writePad _ _ _).poisonPad _

end Sys2Proof.Machine
end

section
/-! SUPPORT. Copy engines and host queues keep the form. -/

namespace Sys2Proof.Machine
set_option Elab.async false

theorem State.Inv.putCopy {s : State} (hs : s.Inv) (c : Copy) :
    (s.putCopy c).Inv := hs.keep

theorem State.Inv.copyRead {s : State} (hs : s.Inv) (c : Copy) (a n : Nat) :
    (s.copyRead c a n).2.Inv := by
  unfold State.copyRead
  split
  · exact hs
  split
  · split <;> exact hs
  · exact hs.readEngine _ _ _ _ _

theorem State.Inv.settlePad {s : State} (hs : s.Inv) (e : EngEntry) (k : Nat) (bs : List PByte) :
    (s.settlePad e k bs).2.Inv := by
  unfold State.settlePad
  dsimp only
  refine State.Inv.foldl_snd _ (fun _ _ h => ?_) _ hs
  split
  · exact h
  split
  · exact h.draw
  · exact h.keep

theorem State.Inv.copyPadWrite {s : State} (hs : s.Inv) (c : Copy) (core off : Nat) (bs : List PByte) :
    (s.copyPadWrite c core off bs).Inv := by
  unfold State.copyPadWrite
  split
  · exact (hs.settlePad _ _ _).writePadP _ _ _
  · exact hs.writePadP _ _ _

theorem State.Inv.coverUnits {s : State} (hs : s.Inv) (c : Copy) (a : Nat) (bs : List PByte) :
    (s.coverUnits c a bs).2.Inv := by
  unfold State.coverUnits
  split
  · exact hs
  dsimp only
  split
  · exact hs.clearPadWords _
  · exact hs.of_same (State.same_clearLines _ _)

theorem State.Inv.copyWrite {s : State} (hs : s.Inv) (c : Copy) (a : Nat) (bs : List PByte) :
    (s.copyWrite c a bs).2.2.Inv := by
  unfold State.copyWrite
  split
  rename_i t e
  have ht : t.Inv := by
    refine State.Inv.of_triple ?_ e
    split
    · split
      · exact hs.copyPadWrite _ _ _ _
      · exact hs
    · exact hs.writeEngine _ _ _ _ _
  split
  rename_i t1 e1
  have ht1 : t1.Inv := (ht.coverUnits _ _ _).of_pair e1
  dsimp only
  split
  · split
    · exact ht1
    · exact ht1.countPerformed _ _ _
  · exact ht1

theorem State.Inv.pieceBytes {s : State} (hs : s.Inv) (c : Copy) (p : Piece) (k n : Nat) :
    (s.pieceBytes c p k n).2.Inv := by
  unfold State.pieceBytes
  dsimp only
  split
  · next e => exact (hs.copyRead _ _ _).of_pair e
  · next e => exact (hs.copyRead _ _ _).of_pair e

theorem State.Inv.doPiece {s : State} (hs : s.Inv) (c : Copy) (p : Piece) (n : Nat) :
    (s.doPiece c p n).2.2.Inv := by
  induction n generalizing s c p with
  | zero => exact hs
  | succ n ih =>
    rw [State.doPiece]
    split
    · exact hs
    split
    · dsimp only
      split
      · next e1 => exact (hs.copyRead _ _ _).of_pair e1
      · next e1 => exact ((hs.copyRead _ _ _).of_pair e1).copyWrite _ _ _
    dsimp only
    split
    · next t e =>
        have ht : t.Inv := (hs.pieceBytes _ _ _ _).of_pair e
        split
        · next e1 => exact ih ((ht.copyWrite _ _ _).of_triple e1) _ _
        · exact ht.copyWrite _ _ _
    rename_i t e
    have ht : t.Inv := (hs.pieceBytes _ _ _ _).of_pair e
    split
    · exact ht
    split
    · next e1 => exact (ht.pieceBytes _ _ _ _).of_pair e1
    rename_i t1 e1
    have ht1 : t1.Inv := (ht.pieceBytes _ _ _ _).of_pair e1
    split
    · next e2 => exact (ht1.copyWrite _ _ _).of_triple e2
    · exact ht1.copyWrite _ _ _

theorem State.Inv.doPieces {s : State} (hs : s.Inv) (c : Copy) (l : List Piece) :
    (s.doPieces c l).2.2.Inv := by
  induction l generalizing s c with
  | nil => exact hs
  | cons x xs ih =>
    rw [State.doPieces]
    split
    · next e => exact ih ((hs.doPiece _ _ _).of_triple e) _
    · exact hs.doPiece _ _ _

theorem State.Inv.expandWrite {s : State} (hs : s.Inv) (c : Copy) (n : Nat) :
    (s.expandWrite c n).2.2.Inv := by
  unfold State.expandWrite
  split
  · exact hs
  · exact hs.copyWrite _ _ _

theorem State.Inv.expandRest {s : State} (hs : s.Inv) (c : Copy) (st : Stop) :
    (s.expandRest c st).2.2.Inv := hs.expandWrite _ _

theorem State.Inv.expandLoop {s : State} (hs : s.Inv) (len crc : Nat) (n : Nat) (c : Copy) :
    (s.expandLoop len crc n c).2.2.Inv := by
  induction n generalizing s len crc c with
  | zero => exact hs
  | succ n ih =>
    rw [State.expandLoop]
    split
    · exact hs
    split
    · exact hs
    split
    · next e => exact (hs.copyRead _ _ _).of_pair e
    rename_i t e
    have ht : t.Inv := (hs.copyRead _ _ _).of_pair e
    dsimp only
    split
    · split
      · exact ht
      split
      · next e1 => exact (ht.copyRead _ _ _).of_pair e1
      rename_i t1 e1
      have ht1 : t1.Inv := (ht.copyRead _ _ _).of_pair e1
      split
      · next e2 => exact (ht1.expandWrite _ _).of_triple e2
      · next e2 => exact ih ((ht1.expandWrite _ _).of_triple e2) _ _ _
    split
    · exact ht
    split
    · next e1 => exact (ht.copyRead _ _ _).of_pair e1
    rename_i t1 e1
    have ht1 : t1.Inv := (ht.copyRead _ _ _).of_pair e1
    split
    · exact ht1
    split
    · next e2 => exact (ht1.expandWrite _ _).of_triple e2
    · next e2 => exact ih ((ht1.expandWrite _ _).of_triple e2) _ _ _

theorem State.Inv.endCopy {s : State} (hs : s.Inv) (c : Copy) (status detail : Nat) (fault : Nat) :
    (s.endCopy c status detail fault).Inv := hs.putCopy _

theorem State.Inv.stopCopy {s : State} (hs : s.Inv) (c : Copy) (l : Stop) :
    (s.stopCopy c l).Inv := by
  unfold State.stopCopy
  split
  · exact hs.putCopy _
  · exact hs.putCopy _
  · split <;> exact hs.endCopy _ _ _ _

theorem State.Inv.runCopy {s : State} (hs : s.Inv) (c : Copy) : (s.runCopy c).Inv := by
  unfold State.runCopy
  extract_lets k
  split
  · split
    next h c1 s1 e =>
      have h1 : s1.Inv := by
        refine State.Inv.of_triple ?_ e
        split
        · exact hs
        · split
          · next e1 => exact (hs.copyRead _ _ _).of_pair e1
          · next e1 => exact (hs.copyRead _ _ _).of_pair e1
      split
      · exact h1.stopCopy _ _
      · exact h1.endCopy _ _ _ _
      · split
        · exact h1.endCopy _ _ _ _
        · split
          · next e2 =>
            have h2 := (h1.expandLoop _ _ _ _).of_triple e2
            split
            · next e3 => exact ((h2.expandRest _ _).of_triple e3).stopCopy _ _
            · next e3 => exact ((h2.expandRest _ _).of_triple e3).stopCopy _ _
          · next c2 s2 e2 =>
            have h2 := (h1.expandLoop _ _ _ _).of_triple e2
            have hrest : ∀ {status}, (if status = stBadstream then s2.expandRest c2 (.fail 0 0)
                else s2.expandWrite c2 c2.history.length).2.2.Inv := by
              intro status
              split
              · exact h2.expandRest _ _
              · exact h2.expandWrite _ _
            split
            · next e3 => exact (hrest.of_triple e3).stopCopy _ _
            · next e3 => exact (hrest.of_triple e3).endCopy _ _ _ _
  · split
    · split
      next h c1 s1 e =>
        have h1 : s1.Inv := by
          refine State.Inv.of_triple ?_ e
          split
          · exact hs
          · split
            · next e1 => exact (hs.copyRead _ _ _).of_pair e1
            · next e1 => exact (hs.copyRead _ _ _).of_pair e1
        split
        · exact h1.stopCopy _ _
        · extract_lets out
          split
          · next e2 => exact ((h1.copyWrite _ _ _).of_triple e2).stopCopy _ _
          · next e2 => exact ((h1.copyWrite _ _ _).of_triple e2).endCopy _ _ _ _
    · split
      · exact hs.endCopy _ _ _ _
      · split
        · next e => exact ((hs.doPieces _ _).of_triple e).stopCopy _ _
        · next e => exact ((hs.doPieces _ _).of_triple e).endCopy _ _ _ _

theorem State.Inv.startCopy {s : State} (hs : s.Inv) (c : Copy) :
    (s.startCopy c).Inv := by
  unfold State.startCopy
  extract_lets go
  have hgo : ∀ t c, t.Inv → (go t c).Inv := by
    intro t c ht
    unfold go
    dsimp only
    split
    · exact ht.runCopy _
    · exact ht.endCopy _ _ _ _
  split
  · split
    · next e => exact ((hs.readEngine _ _ _ _ _).of_pair e).stopCopy _ _
    · next t e =>
        have ht : t.Inv := (hs.readEngine _ _ _ _ _).of_pair e
        dsimp only
        split
        · exact ht.endCopy _ _ _ _
        split
        · exact ht.endCopy _ _ _ _
        split
        · exact ht.endCopy _ _ _ _
        · exact hgo _ _ ht
  · exact hgo _ _ hs

theorem State.Inv.exec_copyPerform {s : State} (hs : s.Inv) (cluster engine : Nat) :
    State.OutInv (execCopyPerform cluster engine s) := by
  unfold execCopyPerform
  split
  · exact hs
  split
  · show State.Inv _
    split
    · exact hs.runCopy _
    · exact hs.startCopy _
  split
  · exact hs
  split
  · exact hs
  · exact hs.keep.startCopy _

theorem State.Inv.updEntry {s : State} (hs : s.Inv) (c q pos : Nat) (f : Entry → Entry) :
    (s.updEntry c q pos f).Inv := hs.updHq _ _ _

theorem State.Inv.reportEntry {s : State} (hs : s.Inv) (c q pos : Nat) (status : Nat) (detail : W32) (progress fault extra : W64) :
    (s.reportEntry c q pos status detail progress fault extra).Inv := hs.updEntry _ _ _ _

theorem State.Inv.holdEntry {s : State} (hs : s.Inv) (c q pos : Nat) :
    (s.holdEntry c q pos).Inv := hs.updEntry _ _ _ _

theorem State.Inv.signalAt {s : State} (hs : s.Inv) (die ctx : Nat) (dec : Bool) (va : Nat) :
    (s.signalAt die ctx dec va).2.Inv := hs.fwTranslate _ _ _ _ _ _

theorem State.Inv.decrement {s : State} (hs : s.Inv) (pa : Nat) (dec : W64) :
    (s.decrement pa dec).Inv := ((hs.serveLine _).writeHome _ _ _).touchHot _ _

theorem State.Inv.fwWrite {s : State} (hs : s.Inv) (die ctx va : Nat) (bs : List Byte) :
    (s.fwWrite die ctx va bs).2.Inv := by
  unfold State.fwWrite
  dsimp only
  split
  · next t e =>
      have ht : t.Inv := (hs.fwTranslate _ _ _ _ _ _).of_pair e
      split
      · dsimp only
        exact ht.writeHome _ _ _
      split
      · next e1 =>
          dsimp only
          exact (((ht.fwTranslate _ _ _ _ _ _).of_pair e1).writeHome _ _ _).writeHome _ _ _
      · exact ht.fwTranslate _ _ _ _ _ _
  · exact hs.fwTranslate _ _ _ _ _ _

theorem State.Inv.readSlot {s : State} (hs : s.Inv) (q : HostQueue) :
    (s.readSlot q).2.Inv := by
  unfold State.readSlot
  split
  · next e =>
      dsimp only
      split <;> exact (hs.fwTranslate _ _ _ _ _ _).of_pair e
  · next e => exact (hs.fwTranslate _ _ _ _ _ _).of_pair e

theorem State.Inv.fetchSlot {s : State} (hs : s.Inv) (q : HostQueue) :
    (s.fetchSlot q).Inv := by
  unfold State.fetchSlot
  split
  · next e => exact ((hs.readSlot _).of_pair e).updHq _ _ _
  · next e => exact ((hs.readSlot _).of_pair e).updHq _ _ _

theorem State.Inv.exec_packetFetch {s : State} (hs : s.Inv) (ctx q : Nat) :
    State.OutInv (execPacketFetch ctx q s) := by
  unfold execPacketFetch
  split
  · exact hs
  split
  · exact hs
  split
  · exact hs.updHq _ _ _
  · exact hs.fetchSlot _

theorem State.Inv.exec_slotRereadTimer {s : State} (hs : s.Inv) (ctx q : Nat) (long : Bool) :
    State.OutInv (execSlotRereadTimer ctx q long s) := by
  unfold execSlotRereadTimer
  split
  · exact hs
  split
  · exact hs
  · exact (hs.updHq _ _ _).fetchSlot _

theorem State.Inv.exec_tailWrite {s : State} (hs : s.Inv) (ctx q : Nat) (value : BitVec 32) :
    State.OutInv (execTailWrite ctx q value s) := by
  unfold execTailWrite
  split
  · exact hs
  · split <;> exact hs.updHq _ _ _

theorem State.Inv.consume {s : State} (hs : s.Inv) (c q : Nat) (e : Entry) :
    (s.consume c q e).Inv := by
  unfold State.consume
  split
  · exact hs.updHq _ _ _
  · exact hs

theorem State.Inv.scanEntry {s : State} (hs : s.Inv) (c q pos : Nat) :
    (s.scanEntry c q pos).Inv := by
  unfold State.scanEntry
  split
  · exact hs
  split
  · exact hs
  dsimp only
  split
  · exact hs
  split
  · exact hs.reportEntry _ _ _ _ _ _ _ _
  split
  · exact hs
  split
  · exact (hs.consume _ _ _).reportEntry _ _ _ _ _ _ _ _
  split
  · exact (hs.consume _ _ _).fresh.updEntry _ _ _ _
  · exact (hs.consume _ _ _).updEntry _ _ _ _

theorem State.Inv.exec_boardScan {s : State} (hs : s.Inv) (ctx q : Nat) :
    State.OutInv (execBoardScan ctx q s) := by
  unfold execBoardScan
  split
  · exact hs
  split
  · exact hs
  · exact State.Inv.foldl _ (fun _ _ ht => ht.scanEntry _ _ _) _ hs

theorem State.Inv.exec_packetComplete {s : State} (hs : s.Inv) (ctx q pos : Nat) :
    State.OutInv (execPacketComplete ctx q pos s) := by
  unfold execPacketComplete
  split
  · exact hs
  split
  · exact hs
  split
  · exact hs
  dsimp only
  split
  · next t e3 =>
      have ht : t.Inv := (hs.fwWrite _ _ _ _).of_pair e3
      show State.Inv _
      split
      · refine (State.Inv.updHq ?_ _ _ _).raise _
        split
        · exact ht.out _
        · exact ht
      refine State.Inv.updHq ?_ _ _ _
      split
      · exact ht.out _
      · exact ht
  · next t e3 =>
      have ht : t.Inv := (hs.fwWrite _ _ _ _).of_pair e3
      show State.Inv _
      split
      · exact (ht.updHq _ _ _).raise _
      · exact ht.updHq _ _ _
  · next e3 => exact (hs.fwWrite _ _ _ _).of_pair e3

theorem State.Inv.startPacket {s : State} (hs : s.Inv) (type : Nat) (act : State → HostQueue → Entry → State) (hact : ∀ t b c, t.Inv → (act t b c).Inv) :
    State.OutInv (s.startPacket type act) := by
  unfold State.startPacket
  split
  · exact hs
  split
  · exact hact _ _ _ hs
  · exact hs

theorem State.Inv.exec_nopPacket {s : State} (hs : s.Inv) :
    State.OutInv (execNopPacket s) := hs.startPacket _ _ (fun _ _ _ ht => ht.reportEntry _ _ _ _ _ _ _ _)

theorem State.Inv.failEntry {s : State} (hs : s.Inv) (q : HostQueue) (e : Entry) (cause : W32) (va progress : Nat) :
    (s.failEntry q e cause va progress).Inv := hs.reportEntry _ _ _ _ _ _ _ _

theorem State.Inv.exec_signalPacket {s : State} (hs : s.Inv) :
    State.OutInv (execSignalPacket s) := by
  unfold execSignalPacket
  refine hs.startPacket _ _ fun _ _ _ ht => ?_
  dsimp only
  split
  · exact ht.reportEntry _ _ _ _ _ _ _ _
  split
  · next e => exact (((ht.signalAt _ _ _ _).of_pair e).decrement _ _).reportEntry _ _ _ _ _ _ _ _
  · next e => exact ((ht.signalAt _ _ _ _).of_pair e).failEntry _ _ _ _ _
  · next e => exact ((ht.signalAt _ _ _ _).of_pair e).holdEntry _ _ _

theorem State.Inv.exec_markerPacket {s : State} (hs : s.Inv) :
    State.OutInv (execMarkerPacket s) := by
  unfold execMarkerPacket
  refine hs.startPacket _ _ fun t _ _ ht => ?_
  extract_lets t1
  have h1 : t1.Inv := by
    unfold t1
    split
    · exact (ht.updHq _ _ _).updEntry _ _ _ _
    · exact ht
  split
  · next e => exact ((h1.fwWrite _ _ _ _).of_pair e).reportEntry _ _ _ _ _ _ _ _
  · next e => exact ((h1.fwWrite _ _ _ _).of_pair e).failEntry _ _ _ _ _
  · next e => exact ((h1.fwWrite _ _ _ _).of_pair e).holdEntry _ _ _

theorem State.Inv.readSignals {s : State} (hs : s.Inv) (die ctx : Nat) (l : List Nat) :
    (s.readSignals die ctx l).2.Inv := by
  induction l generalizing s die ctx with
  | nil => exact hs
  | cons x xs ih =>
    rw [State.readSignals]
    split
    · next t e =>
        have ht : t.Inv := (hs.signalAt _ _ _ _).of_pair e
        dsimp only
        split
        · next e1 => exact (ih (ht.serveLine _) _ _).of_pair e1
        · exact ih (ht.serveLine _) _ _
    · next e => exact (hs.signalAt _ _ _ _).of_pair e
    · next e => exact (hs.signalAt _ _ _ _).of_pair e

theorem State.Inv.evalBarrier {s : State} (hs : s.Inv) (q : HostQueue) (e : Entry) :
    (s.evalBarrier q e).Inv := by
  unfold State.evalBarrier
  split
  · next t e1 =>
      have ht : t.Inv := (hs.readSignals _ _ _).of_pair e1
      dsimp only
      split
      · exact ht.reportEntry _ _ _ _ _ _ _ _
      split
      · exact ht.reportEntry _ _ _ _ _ _ _ _
      · exact ht.updEntry _ _ _ _
  · next e1 => exact ((hs.readSignals _ _ _).of_pair e1).failEntry _ _ _ _ _
  · next e1 => exact ((hs.readSignals _ _ _).of_pair e1).holdEntry _ _ _

theorem State.Inv.exec_barrierPacket {s : State} (hs : s.Inv) :
    State.OutInv (execBarrierPacket s) := by
  unfold execBarrierPacket
  refine hs.startPacket _ _ fun _ _ _ ht => ?_
  dsimp only
  split
  · exact ht.reportEntry _ _ _ _ _ _ _ _
  split
  · exact ht.reportEntry _ _ _ _ _ _ _ _
  · exact ht.evalBarrier _ _

theorem State.Inv.watchEval {s : State} (hs : s.Inv) (ctx q pos : Nat) :
    (s.watchEval ctx q pos).Inv := by
  unfold State.watchEval
  split
  · split
    · exact hs.evalBarrier _ _
    · exact hs
  · exact hs

theorem State.Inv.creelPacket {s : State} (hs : s.Inv) (q : HostQueue) (e : Entry) (sealing : Bool) (go : State → List Nat → State) (hgo : ∀ t b, t.Inv → (go t b).Inv) :
    (s.creelPacket q e sealing go).Inv := by
  unfold State.creelPacket
  split
  · exact hs.reportEntry _ _ _ _ _ _ _ _
  split
  · exact hs.reportEntry _ _ _ _ _ _ _ _
  dsimp only
  split
  · split
    · exact hs.reportEntry _ _ _ _ _ _ _ _
    · exact hgo _ _ hs
  split
  · exact hs.reportEntry _ _ _ _ _ _ _ _
  · exact hgo _ _ hs

theorem State.Inv.exec_creelBegin {s : State} (hs : s.Inv) :
    State.OutInv (execCreelBegin s) := by
  unfold execCreelBegin
  refine hs.startPacket _ _ fun _ _ _ ht => ?_
  dsimp only
  split
  · exact ht
  split
  · exact ht.reportEntry _ _ _ _ _ _ _ _
  · exact ht.creelPacket _ _ _ _ (fun _ _ ht1 => ht1.keep.reportEntry _ _ _ _ _ _ _ _)

theorem State.Inv.sealNow {s : State} (hs : s.Inv) (q : HostQueue) (e : Entry) :
    (s.sealNow q e).Inv := by
  unfold State.sealNow
  refine hs.creelPacket _ _ _ _ fun _ _ ht => ?_
  exact (ht.flushRange _ _).keep.reportEntry _ _ _ _ _ _ _ _

theorem State.Inv.exec_creelSeal {s : State} (hs : s.Inv) :
    State.OutInv (execCreelSeal s) := by
  unfold execCreelSeal
  split
  · exact hs.sealNow _ _
  refine hs.startPacket _ _ fun _ _ _ ht => ?_
  split
  · exact ht
  · exact ht.creelPacket _ _ _ _ (fun _ _ ht1 => ht1.updEntry _ _ _ _)

theorem State.Inv.exec_copyPacket {s : State} (hs : s.Inv) :
    State.OutInv (execCopyPacket s) := by
  unfold execCopyPacket
  refine hs.startPacket _ _ fun _ _ _ ht => ?_
  split
  · exact ht.reportEntry _ _ _ _ _ _ _ _
  split
  · exact ht.reportEntry _ _ _ _ _ _ _ _
  · exact ht.keep.updEntry _ _ _ _

theorem State.Inv.dropCopy {s : State} (hs : s.Inv) (id : Nat) :
    (s.dropCopy id).Inv := hs.keep

theorem State.Inv.endPacketCopy {s : State} (hs : s.Inv) (c : Copy) (en : CopyEnd) (ctx q pos : Nat) :
    (s.endPacketCopy c en ctx q pos).Inv := by
  unfold State.endPacketCopy
  split
  · dsimp only
    split
    · exact (hs.dropCopy _).reportEntry _ _ _ _ _ _ _ _
    split
    · exact (hs.dropCopy _).reportEntry _ _ _ _ _ _ _ _
    split
    · exact (hs.dropCopy _).reportEntry _ _ _ _ _ _ _ _
    split
    · next e3 => exact ((((hs.signalAt _ _ _ _).of_pair e3).decrement _ _).dropCopy _).reportEntry _ _ _ _ _ _ _ _
    · next e3 => exact (((hs.signalAt _ _ _ _).of_pair e3).dropCopy _).failEntry _ _ _ _ _
    · next e3 => exact ((hs.signalAt _ _ _ _).of_pair e3).putCopy _
  · exact hs.dropCopy _

theorem State.Inv.writeCopyWord {s : State} (hs : s.Inv) (c : Copy) (value : Nat → Nat) :
    (s.writeCopyWord c value).Inv := by
  unfold State.writeCopyWord
  split
  · exact hs
  split
  · exact hs.copyPadWrite _ _ _ _
  · exact hs

theorem State.Inv.endEntryCopy {s : State} (hs : s.Inv) (c : Copy) (en : CopyEnd) (e : EngEntry) :
    (s.endEntryCopy c en e).Inv := by
  unfold State.endEntryCopy
  extract_lets status record last isCard cancelled
  have hlast : ∀ t value, t.Inv → (last t value).Inv := by
    intro t value ht
    unfold last
    extract_lets s1 s2
    have h1 : s1.Inv := ht.writeCopyWord _ _
    refine State.Inv.entryDone (State.Inv.dropCopy ?_ _) _ _ _ _
    unfold s2
    split
    · split
      · exact h1.breakBar _ _ _
      · exact h1
    · exact h1
  split
  · split
    · next e1 => exact hlast _ _ ((hs.writeEngine _ _ _ _ _).of_triple e1)
    · next e1 =>
      have h1 := (hs.writeEngine _ _ _ _ _).of_triple e1
      split
      · exact hlast _ _ h1
      · exact h1.putCopy _
    · next e1 =>
      have h1 := (hs.writeEngine _ _ _ _ _).of_triple e1
      split
      · exact hlast _ _ h1
      · split <;> exact h1.putCopy _
    · next e1 => exact hlast _ _ ((hs.writeEngine _ _ _ _ _).of_triple e1)
  · exact hlast _ _ hs

theorem State.Inv.exec_copyEnd {s : State} (hs : s.Inv) (id : Nat) :
    State.OutInv (execCopyEnd id s) := by
  unfold execCopyEnd
  split
  · exact hs
  split
  · exact hs
  split
  · exact hs
  split
  · exact hs.endPacketCopy _ _ _ _ _
  · exact hs.endEntryCopy _ _ _

theorem State.Inv.updPort {s : State} (hs : s.Inv) (p : Nat) (f : Port → Port) :
    (s.updPort p f).Inv := hs.keep

end Sys2Proof.Machine
end

section
/-! SUPPORT. Ports and collective jobs keep the form. -/

namespace Sys2Proof.Machine
set_option Elab.async false

theorem State.Inv.portTo {s : State} (hs : s.Inv) (p : Nat) (st : PortState) (f : Port → Port) :
    (s.portTo p st f).Inv := by
  unfold State.portTo
  dsimp only
  split
  · exact (hs.updPort _ _).raise _
  · exact hs.updPort _ _

theorem State.Inv.sendControl {s : State} (hs : s.Inv) (p type vc : Nat) :
    (s.sendControl p type vc).Inv := hs.out _

theorem State.Inv.sendData {s : State} (hs : s.Inv) (p vc : Nat) (tag : BitVec 26) (payload : List Byte) :
    (s.sendData p vc tag payload).Inv := by
  unfold State.sendData
  dsimp only
  split
  · exact (hs.updPort _ _).out _
  · exact hs.updPort _ _

theorem State.Inv.ackFlits {s : State} (hs : s.Inv) (p : Nat) (ack : BitVec 12) :
    (s.ackFlits p ack).Inv := hs.updPort _ _

theorem State.Inv.resendFlits {s : State} (hs : s.Inv) (p : Nat) :
    (s.resendFlits p).Inv := State.Inv.foldl _ (fun _ _ ht => ht.out _) _ (hs.updPort _ _)

theorem State.Inv.replayFlits {s : State} (hs : s.Inv) (p : Nat) :
    (s.replayFlits p).Inv := (hs.updPort _ _).resendFlits _

theorem State.Inv.linkJobs {s : State} (hs : s.Inv) (p : Nat) :
    (s.linkJobs p).Inv := hs.keep

theorem State.Inv.beginTraining {s : State} (hs : s.Inv) (p : Nat) :
    (s.beginTraining p).Inv := hs.portTo _ _ _

theorem State.Inv.stopPort {s : State} (hs : s.Inv) (p : Nat) (st : PortState) :
    (s.stopPort p st).Inv := (hs.portTo _ _ _).linkJobs _

theorem State.Inv.exec_portEnable {s : State} (hs : s.Inv) (p : Nat) (on : Bool) :
    State.OutInv (execPortEnable p on s) := by
  unfold execPortEnable
  split
  · exact hs
  dsimp only
  split
  · show State.Inv _
    split
    · exact hs.updPort _ _
    · exact (hs.stopPort _ _).updPort _ _
  split
  · exact hs.updPort _ _
  show State.Inv _
  split
  · exact (((hs.updPort _ _).updPort _ _).beginTraining _).stopPort _ _
  · exact ((hs.updPort _ _).updPort _ _).beginTraining _

theorem State.Inv.exec_portIsolate {s : State} (hs : s.Inv) (p : Nat) (on : Bool) :
    State.OutInv (execPortIsolate p on s) := by
  unfold execPortIsolate
  split
  · exact hs
  dsimp only
  split
  · show State.Inv _
    split
    · exact (hs.updPort _ _).stopPort _ _
    · exact hs.updPort _ _
  show State.Inv _
  split
  · exact (hs.updPort _ _).beginTraining _
  · exact hs.updPort _ _

theorem State.Inv.exec_retrain {s : State} (hs : s.Inv) (p : Nat) :
    State.OutInv (execRetrain p s) := by
  unfold execRetrain
  show State.Inv _
  split
  · exact (hs.beginTraining _).linkJobs _
  · exact hs

theorem State.Inv.failTraining {s : State} (hs : s.Inv) (p : Nat) :
    (s.failTraining p).Inv := by
  unfold State.failTraining
  split
  · exact hs.stopPort _ _
  · exact hs.updPort _ _

theorem State.Inv.exec_portTrainDone {s : State} (hs : s.Inv) (p lanes : Nat) (peerId : BitVec 56) (peerPort : BitVec 4) :
    State.OutInv (execPortTrainDone p lanes peerId peerPort s) := by
  unfold execPortTrainDone
  split
  · exact hs
  split
  · exact hs.failTraining _
  · exact (hs.portTo _ _ _).replayFlits _

theorem State.Inv.exec_portTrainTimeout {s : State} (hs : s.Inv) (p : Nat) :
    State.OutInv (execPortTrainTimeout p s) := by
  unfold execPortTrainTimeout
  show State.Inv _
  split
  · exact hs.failTraining _
  · exact hs

theorem State.Inv.nak {s : State} (hs : s.Inv) (p : Nat) (ack : BitVec 12) :
    (s.nak p ack).Inv := by
  unfold State.nak
  split
  · exact hs
  dsimp only
  split
  · exact (((hs.ackFlits _ _).updPort _ _).beginTraining _).linkJobs _
  · exact ((hs.ackFlits _ _).updPort _ _).replayFlits _

theorem State.Inv.pauseTx {s : State} (hs : s.Inv) (p vc : Nat) (on : Bool) :
    (s.pauseTx p vc on).Inv := by
  unfold State.pauseTx
  split
  · exact hs
  split
  · exact hs.updPort _ _
  · exact (hs.updPort _ _).resendFlits _

theorem State.Inv.flitIn {s : State} (hs : s.Inv) (p : Nat) (b : List Byte) :
    (s.flitIn p b).Inv := by
  unfold State.flitIn
  dsimp only
  split
  · exact hs
  split
  · exact hs.sendControl _ _ _
  split
  · exact hs.pauseTx _ _ _
  split
  · exact hs.pauseTx _ _ _
  split
  · exact hs.nak _ _
  split
  · exact hs.ackFlits _ _
  split
  · split
    · exact (((hs.ackFlits _ _).updPort _ _).updPort _ _).sendControl _ _ _
    · exact (hs.ackFlits _ _).updPort _ _
  split
  · exact hs.ackFlits _ _
  · exact (hs.ackFlits _ _).sendControl _ _ _

theorem State.Inv.takeFlit {s : State} (hs : s.Inv) (p vc : Nat) :
    State.SomeInv (s.takeFlit p vc) := by
  unfold State.takeFlit
  dsimp only
  split
  · trivial
  split
  · trivial
  show State.Inv _
  split
  · exact ((hs.updPort _ _).updPort _ _).sendControl _ _ _
  · exact hs.updPort _ _

theorem State.Inv.putJob {s : State} (hs : s.Inv) (j : CollJob) :
    (s.putJob j).Inv := hs.keep

theorem State.Inv.stopJob {s : State} (hs : s.Inv) (j : CollJob) (status va : Nat) :
    (s.stopJob j status va).Inv := hs.putJob _

theorem State.Inv.jobStop {s : State} (hs : s.Inv) (j : CollJob) (l : Stop) :
    (s.jobStop j l).Inv := by
  unfold State.jobStop
  split
  · exact hs.stopJob _ _ _
  · exact hs
  · exact hs.stopJob _ _ _

theorem State.Inv.collSource {s : State} (hs : s.Inv) (j : CollJob) (first n : Nat) :
    (s.collSource j first n).2.Inv := by
  unfold State.collSource
  dsimp only
  split
  · next e => exact ((hs.readEngine _ _ _ _ _).of_pair e).jobStop _ _
  rename_i t e
  have ht : t.Inv := (hs.readEngine _ _ _ _ _).of_pair e
  split
  · exact ht.stopJob _ _ _
  · exact ht

theorem State.Inv.collDest {s : State} (hs : s.Inv) (j : CollJob) (first : Nat) (xs : List Nat) :
    (s.collDest j first xs).2.Inv := by
  unfold State.collDest
  dsimp only
  split
  · next e => exact (hs.writeEngine _ _ _ _ _).of_triple e
  · exact hs
  · next e => exact ((hs.writeEngine _ _ _ _ _).of_triple e).jobStop _ _

theorem State.Inv.beginGather {s : State} (hs : s.Inv) (j : CollJob) (own : List Nat) :
    (s.beginGather j own).Inv := by
  unfold State.beginGather
  dsimp only
  split
  · next e => exact (hs.collDest _ _ _).of_pair e
  · next e => exact ((hs.collDest _ _ _).of_pair e).putJob _

theorem State.Inv.endCollStep {s : State} (hs : s.Inv) (j : CollJob) :
    (s.endCollStep j).Inv := by
  unfold State.endCollStep
  dsimp only
  split
  · split
    · next e1 => exact (hs.collSource _ _ _).of_pair e1
    rename_i t e1
    have ht : t.Inv := (hs.collSource _ _ _).of_pair e1
    split
    · exact ht.putJob _
    split
    · split
      · next e3 => exact (ht.collDest _ _ _).of_pair e3
      · next e3 => exact ((ht.collDest _ _ _).of_pair e3).stopJob _ _ _
    · exact ht.beginGather _ _
  split
  · next e => exact (hs.collDest _ _ _).of_pair e
  rename_i t e
  have ht : t.Inv := (hs.collDest _ _ _).of_pair e
  split
  · exact ht.putJob _
  · exact ht.stopJob _ _ _

theorem State.Inv.beginJob {s : State} (hs : s.Inv) (j : CollJob) :
    (s.beginJob j).Inv := by
  unfold State.beginJob
  split
  · split
    · next e1 => exact (hs.collSource _ _ _).of_pair e1
    · next e1 => exact ((hs.collSource _ _ _).of_pair e1).beginGather _ _
  split
  · next e => exact (hs.collSource _ _ _).of_pair e
  · next e => exact ((hs.collSource _ _ _).of_pair e).putJob _

theorem State.Inv.runJob {s : State} (hs : s.Inv) (j : CollJob) :
    (s.runJob j).Inv := by
  unfold State.runJob
  dsimp only
  split
  · exact hs.stopJob _ _ _
  split
  · split
    · exact hs
    · exact (hs.sendData _ _ _ _).putJob _
  split
  · exact hs.beginJob _
  split
  · exact (hs.sendData _ _ _ _).putJob _
  split
  · exact (hs.updPort _ _).stopJob _ _ _
  split
  · split
    · exact hs
    rename_i t e1
    have ht : t.Inv := (hs.takeFlit _ _).get e1
    split
    · split
      · exact ht.stopJob _ _ _
      · exact ht
    split
    · exact ht.putJob _
    split
    · exact hs
    · exact (ht.sendData _ _ _ _).stopJob _ _ _
  split
  · split
    · exact hs
    rename_i t e
    have ht : t.Inv := (hs.takeFlit _ _).get e
    split
    · exact ht.putJob _
    · exact ht
  split
  · exact hs
  · exact hs.endCollStep _

theorem State.Inv.reportJob {s : State} (hs : s.Inv) (j : CollJob) (status : Nat) (va : W64) :
    (s.reportJob j status va).2.Inv := by
  unfold State.reportJob
  dsimp only
  split
  · exact hs
  split
  · exact hs
  split
  · exact hs
  dsimp only
  split
  · refine State.Inv.writeEngine ?_ _ _ _ _ _
    split
    · exact hs.writeEngine _ _ _ _ _
    · exact hs
  dsimp only
  split
  · exact hs.writeEngine _ _ _ _ _
  · exact hs

theorem State.Inv.finishJob {s : State} (hs : s.Inv) (j : CollJob) (status : Nat) (va : W64) :
    (s.finishJob j status va).Inv := by
  unfold State.finishJob
  split
  · next e => exact (hs.reportJob _ _ _).of_pair e
  · next e => exact ((hs.reportJob _ _ _).of_pair e).keep.entryDone _ _ _ _

theorem State.Inv.startJob {s : State} (hs : s.Inv) (e : EngEntry) (addr : Nat) :
    (s.startJob e addr).Inv := by
  unfold State.startJob
  split
  rename_i id s0 e0
  extract_lets s1 j add
  have h1 : s1.Inv := (hs.fresh.of_pair e0).keep
  split
  · exact hs
  · next e1 => exact ((h1.readEngine _ _ _ _ _).of_pair e1).keep
  · next e1 => exact ((h1.readEngine _ _ _ _ _).of_pair e1).keep
  · next s2 e1 =>
      have h2 : s2.Inv := (h1.readEngine _ _ _ _ _).of_pair e1
      extract_lets c
      split
      · exact h2.keep
      · split <;> exact h2.keep

theorem State.Inv.anyJob {s : State} (hs : s.Inv) (l : List CollJob) :
    State.OptInv (s.anyJob l) := by
  induction l generalizing s with
  | nil => trivial
  | cons x xs ih =>
    rw [State.anyJob]
    split
    · split
      · exact ih hs
      · exact hs
    split
    · split
      · exact ih hs
      · exact hs.finishJob _ _ _
    split
    · exact ih hs
    · exact hs.runJob _

theorem State.Inv.exec_collJobEnd {s : State} (hs : s.Inv) :
    State.OutInv (execCollJobEnd s) := by
  unfold execCollJobEnd
  split
  · next e => exact (hs.anyJob _).get e
  split
  · exact hs
  split
  · exact hs.startJob _ _
  · exact hs

end Sys2Proof.Machine
end

section
/-! SUPPORT. The steps of the hank engines keep the form. -/

namespace Sys2Proof.Machine
set_option Elab.async false

theorem hRead_keeps (who : Who) (ctx : Nat) (fm : BitVec 4) (va n : Nat) :
    (hRead who ctx fm va n).Keeps := by
  unfold hRead
  refine HM.Keeps.of_mk fun _ ht => ?_
  split
  · next e => exact (ht.readEngine _ _ _ _ _).of_pair e
  · next e => split <;> exact (ht.readEngine _ _ _ _ _).of_pair e

theorem hNat_keeps (who : Who) (ctx : Nat) (fm : BitVec 4) (va n : Nat) :
    (hNat who ctx fm va n).Keeps := (hRead_keeps _ _ _ _ _).bind (fun _ => HM.Keeps.of_pure _)

theorem State.Inv.engineAtom {s : State} (hs : s.Inv) (who : Who) (ctx va : Nat) (bs : List Byte) :
    (s.engineAtom who ctx va bs).2.Inv := by
  unfold State.engineAtom
  split
  · next e => exact (hs.enginePage _ _ _ _ _).of_pair e
  rename_i t e
  have ht : t.Inv := (hs.enginePage _ _ _ _ _).of_pair e
  split
  · exact ht
  · exact (ht.writeEngineAt _ _ _).touchHot _ _

theorem State.Inv.hankWrite {s : State} (hs : s.Inv) (who : Who) (ctx : Nat) (fm : BitVec 4) (l : HWrite) :
    (s.hankWrite who ctx fm l).2.Inv := by
  unfold State.hankWrite
  split
  · exact hs.writeEngine _ _ _ _ _
  · exact hs.engineAtom _ _ _ _

theorem hCommit_keeps (who : Who) (ctx : Nat) (fm : BitVec 4) (ws : List HWrite) :
    (hCommit who ctx fm ws).Keeps := by
  unfold hCommit
  refine HM.Keeps.of_mk fun _ ht => ?_
  dsimp only
  split
  · refine State.Inv.foldl_snd _ (fun _ _ h => ?_) _ ht
    split
    · exact h
    · exact h.hankWrite _ _ _ _
  · exact ht.engineAbsent _ _ _ _
  · exact ht

theorem readHank_keeps (who : Who) (ctx : Nat) (fm : BitVec 4) (at_ : Nat) :
    (readHank who ctx fm at_).Keeps := by
  unfold readHank
  dsimp only
  split
  · exact HM.Keeps.throw_bind _ _
  refine (hRead_keeps _ _ _ _ _).bind fun _ => ?_
  split
  · exact HM.Keeps.of_pure _
  · exact HM.Keeps.of_throw _

theorem readLea_keeps (who : Who) (h : Hank) (n : Nat) :
    (readLea who h n).Keeps := by
  unfold readLea
  dsimp only
  refine (hRead_keeps _ _ _ _ _).bind fun _ => ?_
  refine HM.Keeps.of_get fun _ _ => ?_
  split
  · exact HM.Keeps.of_pure _
  · exact HM.Keeps.of_throw _

theorem readChainFrom_keeps (who : Who) (h : Hank) (n : Nat) (l : List Nat) (k : Nat) :
    (readChainFrom who h n l k).Keeps := by
  induction n generalizing who h l k with
  | zero =>
    rw [readChainFrom]
    exact HM.Keeps.of_throw _
  | succ n ih =>
    rw [readChainFrom]
    split
    · exact HM.Keeps.of_pure _
    dsimp only
    split
    · exact HM.Keeps.throw_bind _ _
    refine (hRead_keeps _ _ _ _ _).bind fun _ => ?_
    split
    · exact HM.Keeps.of_throw _
    · exact (ih _ _ _ _).bind (fun _ => HM.Keeps.of_pure _)

theorem readChain_keeps (l : Lea) (h : Hank) :
    (readChain l h).Keeps := by
  unfold readChain
  refine (readChainFrom_keeps _ _ _ _ _).bind fun _ => ?_
  split
  · exact HM.Keeps.of_pure _
  · exact HM.Keeps.of_throw _

theorem readPinned_keeps (who : Who) (h : Hank) (l : List Nat) :
    (readPinned who h l).Keeps := by
  induction l generalizing who h with
  | nil =>
    rw [readPinned]
    exact HM.Keeps.of_pure _
  | cons x xs ih =>
    rw [readPinned]
    refine (hRead_keeps _ _ _ _ _).bind fun _ => ?_
    split
    · exact HM.Keeps.of_throw _
    · exact (ih _ _).bind (fun _ => HM.Keeps.of_pure _)

theorem readFree_keeps (l : Lea) (h : Hank) (chain : List Nat) (n : Nat) (rest : List Nat) (k : Nat) :
    (readFree l h chain n rest k).Keeps := by
  induction n generalizing l h chain rest k with
  | zero =>
    rw [readFree]
    exact HM.Keeps.of_throw _
  | succ n ih =>
    rw [readFree]
    split
    · exact HM.Keeps.of_pure _
    dsimp only
    split
    · exact HM.Keeps.throw_bind _ _
    · exact (hNat_keeps _ _ _ _ _).bind (fun _ => (ih _ _ _ _ _).bind (fun _ => HM.Keeps.of_pure _))

theorem takeBlocks_keeps (l : Lea) (h : Hank) (chain : List Nat) (n : Nat) :
    (takeBlocks l h chain n).Keeps := by
  unfold takeBlocks
  split
  · exact HM.Keeps.of_pure _
  refine (readFree_keeps _ _ _ _ _ _).bind fun _ => ?_
  dsimp only
  split
  · exact HM.Keeps.throw_bind _ _
  · exact HM.Keeps.of_pure _

theorem commitLea_keeps (h : Hank) (l : Lea) (chain : List (Nat × List Elem)) (plan : List PBlock) (pinned : List Nat) :
    (commitLea h l chain plan pinned).Keeps := (takeBlocks_keeps _ _ _ _).bind (fun _ => (hCommit_keeps _ _ _ _).bind (fun _ => HM.Keeps.of_modify (fun _ ht => ht.keep)))

theorem bumpSeq_keeps (h : Hank) (l : Lea) :
    (bumpSeq h l).Keeps := hCommit_keeps _ _ _ _

theorem atLea_keeps {α : Type} (h : Hank) (l : Lea) (m : HM α) (hm : m.Keeps) :
    (atLea h l m).Keeps := by
  unfold atLea
  refine HM.Keeps.of_mk fun _ ht => ?_
  split
  · next e => exact (hm.after ht).of_pair e
  · next t1 _ e =>
      have ht1 : t1.Inv := (hm.after ht).of_pair e
      split
      · next e1 => exact ((bumpSeq_keeps _ _).after ht1).of_pair e1
      · exact ht1
      · next e1 => exact ((bumpSeq_keeps _ _).after ht1).of_pair e1
  · exact hm.after ht

theorem releasePin_keeps (h : Hank) (c : Cursor) (p : Pin) :
    (releasePin h c p).Keeps := by
  unfold releasePin
  refine (readLea_keeps _ _ _).bind fun _ => ?_
  refine (readChain_keeps _ _).bind fun _ => ?_
  refine HM.Keeps.of_get fun _ _ => ?_
  dsimp only
  split
  · exact HM.Keeps.of_pure _
  · exact hCommit_keeps _ _ _ _

theorem State.Inv.updCursor {s : State} (hs : s.Inv) (c : Cursor) (f : Cursor → Cursor) :
    (s.updCursor c f).Inv := hs.keep

theorem State.Inv.dropCursor {s : State} (hs : s.Inv) (c : Cursor) :
    (s.dropCursor c).Inv := hs.keep

theorem State.Inv.releasePins {s : State} (hs : s.Inv) (h : Hank) (c : Cursor) (st : Nat) (ps : List Pin) :
    (s.releasePins h c st ps).2.Inv := by
  induction ps generalizing s st with
  | nil => exact hs
  | cons p ps ih =>
    unfold State.releasePins
    split
    · next e => exact ih (((releasePin_keeps _ _ _).after hs).of_pair e).keep _
    · next e => exact ih (((releasePin_keeps _ _ _).after hs).of_pair e).keep _
    · next e => exact ((releasePin_keeps _ _ _).after hs).of_pair e

theorem State.Inv.closeCursor {s : State} (hs : s.Inv) (c : Cursor) (fm : BitVec 4) :
    (s.closeCursor c fm).2.Inv := by
  unfold State.closeCursor
  split
  · next t e =>
      have ht : t.Inv := ((readHank_keeps _ _ _ _).after hs).of_pair e
      split
      · next e1 => exact ((ht.releasePins _ _ _ _).of_pair e1).dropCursor _
      · next e1 => exact (ht.releasePins _ _ _ _).of_pair e1
  · next t e =>
      have ht : t.Inv := ((readHank_keeps _ _ _ _).after hs).of_pair e
      split
      · exact ht
      · exact ht.dropCursor _
  · next e => exact ((readHank_keeps _ _ _ _).after hs).of_pair e

theorem State.Inv.closeGroupCursors {s : State} (hs : s.Inv) (gid : Nat) :
    (s.closeGroupCursors gid).Inv := by
  unfold State.closeGroupCursors
  refine State.Inv.foldl _ (fun _ _ ht => ?_) _ hs
  split
  · next e => exact ((ht.closeCursor _ _).of_pair e).dropCursor _
  · next e => exact ((ht.closeCursor _ _).of_pair e).updCursor _ _

end Sys2Proof.Machine
end

section
/-! SUPPORT. Launches, groups and device queues keep the form. -/

namespace Sys2Proof.Machine
set_option Elab.async false

theorem State.Inv.treeFail {s : State} (hs : s.Inv) (ctx : Nat) (t : W32) (status : Nat) (detail : W32) (fault : W64) :
    (s.treeFail ctx t status detail fault).Inv := hs.updTree _ _ _

theorem State.Inv.treeDec {s : State} (hs : s.Inv) (ctx : Nat) (t : W32) :
    (s.treeDec ctx t).Inv := by
  unfold State.treeDec
  split
  · exact hs
  split
  · split
    · exact hs.keep.reportEntry _ _ _ _ _ _ _ _
    · exact hs.updTree _ _ _
  split
  · exact hs.keep.reportEntry _ _ _ _ _ _ _ _
  · exact hs.updTree _ _ _

theorem State.Inv.finishLaunch {s : State} (hs : s.Inv) (l : Launch) (status : Nat) (detail : W32) (fault : W64) :
    (s.finishLaunch l status detail fault).Inv := by
  unfold State.finishLaunch
  dsimp only
  refine State.Inv.treeDec ?_ _ _
  split <;> exact hs.keep

theorem State.Inv.placeRoot {s : State} (hs : s.Inv) (lid core : Nat) (slot : Nat) :
    (s.placeRoot lid core slot).Inv := by
  unfold State.placeRoot
  split
  · exact hs
  · split
    rename_i id s1 e
    extract_lets s2
    have h2 : s2.Inv := (hs.fresh.of_pair e).keep
    split
    · split
      · exact h2.deal _
      · exact h2
    · exact h2

theorem State.Inv.addLaunch {s : State} (hs : s.Inv) (ctx : Nat) (a : LaunchArgs) (tree : W32) (src : LaunchSrc) :
    (s.addLaunch ctx a tree src).2.Inv := hs.keep.updCtx _ _

theorem State.Inv.exec_launchPacket {s : State} (hs : s.Inv) :
    State.OutInv (execLaunchPacket s) := by
  unfold execLaunchPacket
  refine hs.startPacket _ _ fun t _ _ ht => ?_
  split
  · exact ht.reportEntry _ _ _ _ _ _ _ _
  · extract_lets a id
    split
    · exact ht.reportEntry _ _ _ _ _ _ _ _
    · split
      next e => exact ((ht.addLaunch _ _ _ _).of_pair e).keep.updEntry _ _ _ _

theorem State.Inv.clearPlaced {s : State} (hs : s.Inv) (g : Group) :
    (s.clearPlaced g).Inv := by
  unfold State.clearPlaced
  refine ⟨hs.mem, ?_, hs.l1, hs.l2, ?_⟩
  · dsimp only; exact Memory.wf_keep _ hs.pad
  · dsimp only; exact Kv.wf_keep _ hs.rows

theorem State.Inv.seatPieces {s : State} (hs : s.Inv) (g : Group) (l : List SUnit) :
    (s.seatPieces g l).Inv := by
  induction l generalizing s g with
  | nil => exact hs
  | cons x xs ih =>
    rw [State.seatPieces]
    exact ih (hs.updUnit _ _) _

theorem State.Inv.placeGroup {s : State} (hs : s.Inv) (p : Nat) (barred : List Nat) (g : Group) :
    State.OptInv (s.placeGroup p barred g) := by
  unfold State.placeGroup
  split
  · trivial
  dsimp only
  split
  · trivial
  · exact (((hs.updGroup _ _).updPart _ _).clearPlaced _).seatPieces _ _

theorem State.Inv.placeGroups {s : State} (hs : s.Inv) (p : Nat) (barred : List Nat) (l : List Group) :
    State.OptInv (s.placeGroups p barred l) := by
  induction l generalizing s p barred with
  | nil => exact hs
  | cons x xs ih =>
    rw [State.placeGroups]
    split
    · trivial
    · next e => exact ih ((hs.placeGroup _ _ _).get e) _ _

theorem State.Inv.ageHead {s : State} (hs : s.Inv) (head : Option Launch) (n : Nat) :
    (s.ageHead head n).Inv := by
  unfold State.ageHead
  split
  · exact hs
  · exact hs.updLaunch _ _

theorem State.Inv.exec_rootSpanPlace {s : State} (hs : s.Inv) (launch : Nat) :
    State.OutInv (execRootSpanPlace launch s) := by
  unfold execRootSpanPlace
  split
  · exact hs
  split
  · exact hs
  split
  · exact hs
  split
  · exact hs
  split
  · exact hs
  · exact ((hs.updPart _ _).placeRoot _ _ _).ageHead _ _

theorem State.Inv.exec_groupPlace {s : State} (hs : s.Inv) (launch : Nat) :
    State.OutInv (execGroupPlace launch s) := by
  unfold execGroupPlace
  split
  · exact hs
  split
  · exact hs
  dsimp only
  split
  · exact hs
  split
  · exact hs
  split
  · exact hs
  · next e3 => exact (((hs.placeGroups _ _ _).get e3).updLaunch _ _).ageHead _ _

theorem State.Inv.dropEntries {s : State} (hs : s.Inv) (p : EngEntry → Bool) :
    (s.dropEntries p).Inv := by
  unfold State.dropEntries
  exact State.Inv.foldl _ (fun _ _ ht => ht.entryDone _ _ _ _) _ hs.keep

theorem State.Inv.dropQueries {s : State} (hs : s.Inv) (l : Launch) :
    (s.dropQueries l).Inv := hs.dropEntries _

theorem State.Inv.releaseGroup {s : State} (hs : s.Inv) (g : Group) :
    (s.releaseGroup g).Inv := by
  unfold State.releaseGroup
  exact ((hs.closeGroupCursors g.id).dropEntries (fun e => e.queue == 8 && e.group == some g.id)).keep

theorem State.Inv.writeEvent {s : State} (hs : s.Inv) (l : Launch) (gid : Nat) :
    (s.writeEvent l gid).Inv := by
  unfold State.writeEvent
  split
  · exact hs
  dsimp only
  split
  · next e => exact (((hs.fwTranslate _ _ _ _ _ _).of_pair e).writeHome _ _ _).updLaunch _ _
  · next e => exact ((hs.fwTranslate _ _ _ _ _ _).of_pair e).updLaunch _ _
  · next e => exact ((hs.fwTranslate _ _ _ _ _ _).of_pair e).updLaunch _ _

theorem State.Inv.checkComplete {s : State} (hs : s.Inv) (lid : Nat) :
    (s.checkComplete lid).Inv := by
  unfold State.checkComplete
  split
  · exact hs
  split
  · split <;> exact hs.finishLaunch _ _ _ _
  · exact hs

theorem State.Inv.countRetired {s : State} (hs : s.Inv) (l : Launch) (gid : Nat) :
    (s.countRetired l gid).Inv := (hs.updLaunch _ _).updTree _ _ _

theorem State.Inv.exec_groupRetire {s : State} (hs : s.Inv) (launch gid : Nat) :
    State.OutInv (execGroupRetire launch gid s) := by
  unfold execGroupRetire
  split
  · exact hs
  extract_lets running
  split
  · exact hs
  split
  · exact (hs.writeEvent _ _).checkComplete _
  split
  · exact hs
  split
  · split
    · exact hs
    · exact ((hs.countRetired _ _).writeEvent _ _).checkComplete _
  split
  · exact hs
  split
  · exact (((hs.releaseGroup _).countRetired _ _).writeEvent _ _).checkComplete _
  · exact hs

theorem State.Inv.abortDone {s : State} (hs : s.Inv) (l : Launch) :
    (s.abortDone l).Inv := by
  unfold State.abortDone
  extract_lets gs gone s1
  generalize (gs.any _ || _) = busy
  split
  · exact hs
  · split
    exact (hs.foldl _ (fun _ _ ht => ht.releaseGroup _) gs).finishLaunch _ _ _ _

theorem State.Inv.exec_launchAbortDone {s : State} (hs : s.Inv) :
    State.OutInv (execLaunchAbortDone s) := State.Inv.foldl _ (fun _ _ ht => ht.abortDone _) _ (State.Inv.foldl _ (fun _ _ ht => ht.dropQueries _) _ hs)

theorem State.Inv.exec_barcContinuationStart {s : State} (hs : s.Inv) :
    State.OutInv (execBarcContinuationStart s) := by
  unfold execBarcContinuationStart
  extract_lets ready
  split
  · exact hs
  split
  · exact hs.fresh.keep.updGroup _ _
  · exact hs

theorem State.Inv.dqAccess {s : State} (hs : s.Inv) (who : Who) (ctx va n : Nat) :
    (s.dqAccess who ctx va n).2.Inv := by
  unfold State.dqAccess
  split
  · next e => exact (hs.leafOf _ _ _).of_pair e
  · next l t e =>
    have ht : t.Inv := (hs.leafOf _ _ _).of_pair e
    exact .ite_snd ht (.ite_snd ht (.ite_snd ht (.ite_snd ht (.ite_snd (ht.countLost _) ht))))

theorem State.Inv.dqRing {s : State} (hs : s.Inv) (who : Who) (ctx : Nat) (l : List (Nat × Nat)) :
    (s.dqRing who ctx l).2.Inv := by
  induction l generalizing s who ctx with
  | nil => exact hs
  | cons x xs ih =>
    rw [State.dqRing]
    split
    · next e => exact ih ((hs.dqAccess _ _ _ _).of_pair e) _ _
    · next e => exact (hs.dqAccess _ _ _ _).of_pair e

theorem State.Inv.dqProducer {s : State} (hs : s.Inv) (who : Who) (d : DevQueue) :
    (s.dqProducer who d).2.Inv := by
  unfold State.dqProducer
  split
  · next t e =>
      have ht : t.Inv := (hs.dqAccess _ _ _ _).of_pair e
      split
      · next e1 => exact (ht.dqRing _ _ _).of_pair e1
      · next e1 => exact (ht.dqRing _ _ _).of_pair e1
  · exact hs.dqAccess _ _ _ _

theorem State.Inv.dqSettle {s : State} (hs : s.Inv) (pa : Nat) :
    (s.dqSettle pa).Inv := (hs.serveLine _).flushRange _ _

theorem State.Inv.dqSet {s : State} (hs : s.Inv) (who : Who) (pa off x : Nat) :
    (s.dqSet who pa off x).Inv := (hs.writeEngineAt _ _ _).touchHot _ _

theorem State.Inv.reserveRecord {s : State} (hs : s.Inv) (who : Who) (d : DevQueue) (pa : Nat) (tree : W32) :
    (s.reserveRecord who d pa tree).2.Inv := (hs.dqSet _ _ _ _).updTree _ _ _

theorem State.Inv.writeRecord {s : State} (hs : s.Inv) (who : Who) (d : DevQueue) (r : Nat) (bs : List Byte) :
    (s.writeRecord who d r bs).2.Inv := by
  unfold State.writeRecord
  split
  · next e => exact ((hs.dqAccess _ _ _ _).of_pair e).writeEngineAt _ _ _
  · next e => exact (hs.dqAccess _ _ _ _).of_pair e

theorem State.Inv.pushRecord {s : State} (hs : s.Inv) (who : Who) (d : DevQueue) (pa : Nat) (tree : W32) (kind : Nat) (beam : W64) (bs : List Byte) :
    (s.pushRecord who d pa tree kind beam bs).Inv := (hs.reserveRecord _ _ _ _).writeRecord _ _ _ _

theorem State.Inv.spawnRecord {s : State} (hs : s.Inv) (u : SUnit) (op item : Nat) (d : DevQueue) (pa : Nat) (tree : W32) (bs : List Byte) :
    (s.spawnRecord u op item d pa tree bs).Inv := by
  unfold State.spawnRecord
  dsimp only
  exact ((hs.reserveRecord _ _ _ _).mkEntry _ _ _ _ _ _ _).enqueue _

theorem State.Inv.serveSpawn {s : State} (hs : s.Inv) (e : EngEntry) :
    (s.serveSpawn e).Inv := by
  unfold State.serveSpawn
  dsimp only
  split
  · split
    · exact hs.keep.entryDone _ _ _ _
    split
    · next e3 => exact ((hs.writeRecord _ _ _ _).of_pair e3).keep.entryDone _ _ _ _
    · next e3 => exact (hs.writeRecord _ _ _ _).of_pair e3
  · exact hs

theorem State.Inv.popRecord {s : State} (hs : s.Inv) (d : DevQueue) :
    (s.popRecord d).Inv := by
  unfold State.popRecord
  split
  · split
    · exact hs
    split
    · exact hs
    dsimp only
    split
    · exact hs
    split
    · next t e4 =>
        have ht : t.Inv := (hs.dqAccess _ _ _ _).of_pair e4
        exact (ht.pageRequest _ _ _ _).getD ht
    · next t e4 =>
        have ht : t.Inv := (hs.dqAccess _ _ _ _).of_pair e4
        split
        · next t1 e5 =>
            have ht1 : t1.Inv := ((ht.dqSettle _).dqAccess _ _ _ _).of_pair e5
            exact (ht1.pageRequest _ _ _ _).getD ht1
        · next t1 e5 =>
            have ht1 : t1.Inv := ((ht.dqSettle _).dqAccess _ _ _ _).of_pair e5
            split
            · exact ht1
            split
            · exact ht1
            split
            · exact (ht1.dqSet _ _ _ _).dqSet _ _ _ _
            split
            · exact ((ht1.dqSet _ _ _ _).dqSet _ _ _ _).treeDec _ _
            split
            · refine State.Inv.treeDec ?_ _ _
              split
              · exact (ht1.dqSet _ _ _ _).dqSet _ _ _ _
              · exact ((ht1.dqSet _ _ _ _).dqSet _ _ _ _).treeFail _ _ _ _ _
            split
            · exact ((ht1.dqSet _ _ _ _).dqSet _ _ _ _).addLaunch _ _ _ _
            · exact (((((ht1.dqSet _ _ _ _).dqSet _ _ _ _).addLaunch _ _ _ _).updPart _ _).placeRoot _ _ _).ageHead _ _
        · next e5 => exact ((ht.dqSettle _).dqAccess _ _ _ _).of_pair e5
    · next e4 => exact (hs.dqAccess _ _ _ _).of_pair e4
  · exact hs

theorem State.Inv.exec_atomicEngineServe {s : State} (hs : s.Inv) (cluster : Nat) :
    State.OutInv (execAtomicEngineServe cluster s) := by
  unfold execAtomicEngineServe
  split
  · exact hs
  split
  · exact hs.serveReq _
  split
  · exact hs.serveSpawn _
  · exact hs

theorem State.Inv.exec_deviceQueuePop {s : State} (hs : s.Inv) (ctx q : Nat) :
    State.OutInv (execDeviceQueuePop ctx q s) := by
  unfold execDeviceQueuePop
  split
  · exact hs.popRecord _
  · exact hs

theorem State.Inv.exec_devqSlotReread {s : State} (hs : s.Inv) (ctx q : Nat) :
    State.OutInv (execDevqSlotReread ctx q s) := by
  unfold execDevqSlotReread
  split
  · exact hs.popRecord _
  · exact hs

/-- One part of a template: its bytes, or what the access meets. -/
def State.templatePart (s : State) (u : SUnit) (va n : Nat) : (Chk ⊕ List Byte) × State :=
  if n = 0 then (.inr [], s)
  else match s.checkGlobal (Who.core u.core) (s.ctxOf u) .read n 1 false va with
    | (.ok va pa l, s1) =>
      if s1.poisonedVa l va n || s1.hostRefuses pa then (.inl (.trap causePoison va), s1.countLost pa)
      else
        let s2 := s1.serveLines [pa, pa + n - 1]
        (.inr (s2.readVa (Who.core u.core) (u.fmode.getLsbD 2) l va n), s2)
    | (c, s1) => (.inl c, s1)

theorem State.Inv.templatePart {s : State} (hs : s.Inv) (u : SUnit) (va n : Nat) : (s.templatePart u va n).2.Inv := by
  unfold State.templatePart
  split
  · exact hs
  split
  · next e =>
      have ht := (hs.checkGlobal _ _ _ _ _ _ _).of_pair e
      split
      · exact ht.countLost _
      · exact ht.serveLines _
  · next e => exact (hs.checkGlobal _ _ _ _ _ _ _).of_pair e

theorem State.readTemplates_cons (s : State) (u : SUnit) (item va : Nat) (rest : List (Nat × Nat)) :
    s.readTemplates u ((item, va) :: rest) = match s.templatePart u va (min 40 (65536 - va % 65536)) with
      | (.inl c, s1) => (.inl c, s1)
      | (.inr b1, s1) =>
        match s1.templatePart u (va + min 40 (65536 - va % 65536)) (40 - min 40 (65536 - va % 65536)) with
        | (.inl c, s2) => (.inl c, s2)
        | (.inr b2, s2) => match s2.readTemplates u rest with
          | (.inl c, s3) => (.inl c, s3)
          | (.inr ts, s3) => (.inr ((item, b1 ++ b2) :: ts), s3) := rfl

theorem State.Inv.readTemplates {s : State} (hs : s.Inv) (u : SUnit) (reads : List (Nat × Nat)) :
    (s.readTemplates u reads).2.Inv := by
  induction reads generalizing s with
  | nil => exact hs
  | cons x rest ih =>
    rw [State.readTemplates_cons]
    split
    · next e => exact (hs.templatePart _ _ _).of_pair e
    · next e =>
        have h1 := (hs.templatePart _ _ _).of_pair e
        split
        · next e1 => exact (h1.templatePart _ _ _).of_pair e1
        · next e1 =>
            have h2 := (h1.templatePart _ _ _).of_pair e1
            split
            · next e2 => exact (ih h2).of_pair e2
            · next e2 => exact (ih h2).of_pair e2

theorem State.Inv.exec_spawn {s : State} (hs : s.Inv) (f : FmtB) :
    State.OutInv (execSpawn f s) := by
  unfold execSpawn
  refine hs.closingWord _ fun _ _ _ ht => ?_
  dsimp only
  split
  · exact ht
  split
  · exact ht
  split
  · exact ht.updUnit _ _
  split
  · exact ht
  split
  · exact ht
  split
  · next e2 => exact (((ht.publish _ _).readTemplates _ _).of_pair e2).chkRes _ _ _ _
  rename_i t1 e2
  have ht1 : t1.Inv := ((ht.publish _ _).readTemplates _ _).of_pair e2
  split
  · exact ht1
  split
  · next e4 => exact (ht1.dqProducer _ _).of_pair e4
  · next e4 => exact ((ht1.dqProducer _ _).of_pair e4).chkRes _ _ _ _
  · next e4 => exact ((ht1.dqProducer _ _).of_pair e4).chkRes _ _ _ _
  rename_i t2 e4
  have ht2 : t2.Inv := (ht1.dqProducer _ _).of_pair e4
  split
  · exact ht2
  rename_i t3 e5
  have ht3 : t3.Inv := ht2.of_same (State.same_reserveRows _ _ _ _ e5)
  split
  · exact ht2
  split
  · exact ht2
  split
  · exact ht2
  rename_i t4 _ e6
  have ht4 : t4.Inv := by
    refine State.Inv.ensureRows _ ?_ e6
    split
    · exact ht3.dqSettle _
    · exact State.Inv.foldl _ (fun _ _ ht => ht.spawnRecord _ _ _ _ _ _ _) _ ((ht3.dqSettle _).addPend _ _ _ _ _ _)
  split
  · exact ht4.writeLanes _ _ _ _
  split
  · exact (ht4.writeLanes _ _ _ _).split _ _ _
  split
  · exact (ht4.writeLanes _ _ _ _).putUnit _
  · exact (ht4.writeLanes _ _ _ _).split _ _ _

end Sys2Proof.Machine
end

section
/-! SUPPORT. Words and events of the hank engines keep the form. -/

namespace Sys2Proof.Machine
set_option Elab.async false

theorem State.Inv.runHank {s : State} (hs : s.Inv) (f : FmtX) (k : HankIssue) (fps : Option (Nat × Nat × (State → SUnit → Nat → Nat)))
    (mk : State → SUnit → Guard → Nat → HankReq) : State.OutInv (s.runHank f k fps mk) := by
  unfold State.runHank
  extract_lets zeros body
  have hbody : ∀ t i u, t.Inv → (body t i u).state.Inv := by
    intro t i u ht
    unfold body
    dsimp only
    split
    · exact ht
    split
    · exact ht
    split
    · exact ht
    split
    · exact ht
    split
    · exact ht
    split
    · exact ht
    · refine ht.deferV _ _ _ _ _ _ fun _ _ h => State.Inv.holdPort ?_ _ _ _
      exact h.foldl _ (fun _ _ ht => (ht.mkEntry _ _ _ _ _ _ _).enqueue _) _
  split
  · exact hs.closingWord _ hbody
  · exact hs.word _ hbody

theorem State.Inv.runMutation {s : State} (hs : s.Inv) (f : FmtX) (code : Nat) :
    State.OutInv (s.runMutation f code) := hs.runHank _ _ _ _

theorem State.Inv.exec_hkopen {s : State} (hs : s.Inv) (f : FmtX) :
    State.OutInv (execHkopen f s) := hs.runHank _ _ _ _

theorem State.Inv.exec_hknext {s : State} (hs : s.Inv) (f : FmtX) :
    State.OutInv (execHknext f s) := hs.runHank _ _ _ _

theorem State.Inv.exec_hkclose {s : State} (hs : s.Inv) (f : FmtX) :
    State.OutInv (execHkclose f s) := hs.runHank _ _ _ _

theorem State.Inv.exec_hkcount {s : State} (hs : s.Inv) (f : FmtX) :
    State.OutInv (execHkcount f s) := hs.runHank _ _ _ _

theorem State.Inv.exec_hkfind {s : State} (hs : s.Inv) (f : FmtX) :
    State.OutInv (execHkfind f s) := hs.runHank _ _ _ _

theorem State.Inv.exec_hknbr {s : State} (hs : s.Inv) (f : FmtX) :
    State.OutInv (execHknbr f s) := hs.runHank _ _ _ _

theorem State.Inv.exec_hkrank {s : State} (hs : s.Inv) (f : FmtX) :
    State.OutInv (execHkrank f s) := hs.runHank _ _ _ _

theorem State.Inv.exec_hkrankThaw {s : State} (hs : s.Inv) (f : FmtX) :
    State.OutInv (execHkrankThaw f s) := hs.runHank _ _ _ _

theorem State.Inv.exec_hkstat {s : State} (hs : s.Inv) (f : FmtX) :
    State.OutInv (execHkstat f s) := hs.runHank _ _ _ _

theorem State.Inv.hankDone {s : State} (hs : s.Inv) (e : EngEntry) (status value : Nat) :
    (s.hankDone e status value).Inv := hs.entryDone _ _ _ _

theorem State.Inv.hankDoneAll {s : State} (hs : s.Inv) (e : EngEntry) (vals : List (Nat × Nat × Nat)) :
    (s.hankDoneAll e vals).Inv := by
  unfold State.hankDoneAll
  dsimp only
  exact (hs.updPend _ _).entryDone _ _ _ _

theorem State.Inv.hankSame {s : State} (hs : s.Inv) (e : EngEntry) (status value : Nat) :
    (s.hankSame e status value).Inv := hs.hankDoneAll _ _

theorem State.Inv.hankPad {s : State} (hs : s.Inv) (e : EngEntry) (off : Nat) (bs : List Byte) :
    (s.hankPad e off bs).Inv := by
  unfold State.hankPad
  split
  · exact hs
  split
  · exact hs.writePad _ _ _
  · exact hs

theorem State.Inv.takeEntry {s : State} (hs : s.Inv) (e : EngEntry) :
    (s.takeEntry e).Inv := hs.keep

theorem takeStamp_keeps (who : Who) (h : Hank) (r : HankReq) :
    (takeStamp who h r).Keeps := by
  unfold takeStamp
  split
  · exact HM.Keeps.of_pure _
  dsimp only
  split
  · exact (hCommit_keeps _ _ _ _).bind (fun _ => HM.Keeps.throw_bind _ _)
  · exact (hCommit_keeps _ _ _ _).bind (fun _ => HM.Keeps.of_pure _)

theorem mutate_keeps (e : EngEntry) : (mutate e).Keeps := by
  unfold mutate
  refine (readHank_keeps _ _ _ _).bind fun h => ?_
  extract_lets key move n n2 payload change

  refine .throw_or ((readLea_keeps _ _ _).bind fun l => atLea_keeps _ _ _ ((readChain_keeps _ _).bind fun chain => ?_))
  extract_lets commit unfrozen
  have hcommit : (commit ()).Keeps := by
    refine .of_get fun s hs => ?_
    extract_lets plan pinned
    split
    · exact (takeStamp_keeps _ _ _).bind fun _ => (commitLea_keeps _ _ _ _ _).bind fun _ => .of_pure _
    split
    · exact .of_throw _
    split
    · exact (bumpSeq_keeps _ _).bind fun _ => .of_pure _
    split
    · exact (commitLea_keeps _ _ _ _ _).bind fun _ => .of_pure _
    split
    · exact (HM.Keeps.of_modify fun _ ht => ht.keep).bind fun _ => (commitLea_keeps _ _ _ _ _).bind fun _ => .of_pure _
    · exact (commitLea_keeps _ _ _ _ _).bind fun _ => .of_pure _
  have hunfrozen : (unfrozen ()).Keeps := .throw_or hcommit
  split
  · exact (readLea_keeps _ _ _).bind fun _ => (readChain_keeps _ _).bind fun _ => hunfrozen
  · exact hunfrozen

theorem State.Inv.dropMove {s : State} (hs : s.Inv) (id : Nat) :
    (s.dropMove id).Inv := hs.keep

theorem pinElems_keeps (who : Who) (h : Hank) (c : Cursor) (p : Pin) :
    (pinElems who h c p).Keeps := by
  unfold pinElems
  refine (readPinned_keeps _ _ _).bind fun _ => ?_
  dsimp only
  split
  · exact HM.Keeps.throw_bind _ _
  · exact HM.Keeps.of_pure _

theorem nextElem_keeps (h : Hank) (core num gid : Nat) (n : Nat) :
    (nextElem h core num gid n).Keeps := by
  induction n generalizing h core num gid with
  | zero =>
    rw [nextElem]
    exact HM.Keeps.of_pure _
  | succ n ih =>
    rw [nextElem]
    refine HM.Keeps.of_get fun _ _ => ?_
    split
    · exact HM.Keeps.of_throw _
    dsimp only
    split
    · exact HM.Keeps.of_pure _
    split
    · exact (readLea_keeps _ _ _).bind (fun _ => (atLea_keeps _ _ _ ((readChain_keeps _ _).bind (fun _ => (bumpSeq_keeps _ _).bind (fun _ => HM.Keeps.of_modify (fun _ ht1 => ht1.updCursor _ _))))).bind (fun _ => ih _ _ _ _))
    refine (pinElems_keeps _ _ _ _).bind fun _ => ?_
    split
    · exact (HM.Keeps.of_modify (fun _ ht1 => ht1.updCursor _ _)).bind (fun _ => HM.Keeps.of_pure _)
    · exact (HM.Keeps.of_modify (fun _ ht1 => ht1.updCursor _ _)).bind (fun _ => ih _ _ _ _)

theorem State.Inv.hankOpen {s : State} (hs : s.Inv) (e : EngEntry) :
    State.OptInv (s.hankOpen e) := by
  unfold State.hankOpen
  dsimp only
  split
  · next e1 => exact State.OptInv.of_map _ (fun _ => ((((readHank_keeps _ _ _ _).after hs).of_pair e1).takeEntry _).hankSame _ _ _)
  rename_i t e1
  have ht : t.Inv := ((readHank_keeps _ _ _ _).after hs).of_pair e1
  split
  · exact (ht.takeEntry _).hankSame _ _ _
  split
  · exact ht.keep.hankSame _ _ _
  · exact (ht.takeEntry _).hankSame _ _ _

theorem State.Inv.nextItems {s : State} (hs : s.Inv) (e : EngEntry) (h : Hank) (c : Cursor) (items : List (Nat × Nat)) :
    State.SomeInv (s.nextItems e h c items) := by
  induction items generalizing s with
  | nil => exact hs
  | cons x rest ih =>
    rw [State.nextItems]
    have hon := (nextElem_keeps h c.core c.num c.group (2 ^ (h.loglea + 2) + 2)).after hs
    split
    · trivial
    · next v t ev =>
      have ht : t.Inv := by
        refine State.SomeInv.get ?_ ev
        split
        · next e1 => exact (hon.of_pair e1).hankPad _ _ _
        · next e1 => exact hon.of_pair e1
        · next e1 => exact .of_map _ fun _ => hon.of_pair e1
      have hrest := ih ht
      split
      · trivial
      · next e2 => exact hrest.get e2

theorem State.Inv.hankNext {s : State} (hs : s.Inv) (e : EngEntry) :
    State.OptInv (s.hankNext e) := by
  unfold State.hankNext
  split
  · exact (hs.takeEntry _).hankSame _ _ _
  split
  · next e2 => exact State.OptInv.of_map _ (fun _ => ((((readHank_keeps _ _ _ _).after hs).of_pair e2).takeEntry _).hankSame _ _ _)
  · next e2 => exact ((((readHank_keeps _ _ _ _).after hs).of_pair e2).nextItems _ _ _ _).map (fun _ _ ht1 => (ht1.takeEntry _).hankDoneAll _ _)

theorem State.Inv.hankClose {s : State} (hs : s.Inv) (e : EngEntry) :
    State.OptInv (s.hankClose e) := by
  unfold State.hankClose
  split
  · exact (hs.takeEntry _).hankSame _ _ _
  split
  · next e2 => exact (((hs.closeCursor _ _).of_pair e2).takeEntry _).hankSame _ _ _
  · next e2 => exact (hs.closeCursor _ _).of_pair e2

theorem countLeas_keeps (e : EngEntry) (h : Hank) (lo hi : Nat) (n : Nat) (k : Nat) :
    (countLeas e h lo hi n k).Keeps := by
  induction n generalizing e h lo hi k with
  | zero =>
    rw [countLeas]
    exact HM.Keeps.of_pure _
  | succ n ih =>
    rw [countLeas]
    split
    · exact HM.Keeps.of_pure _
    refine (readLea_keeps _ _ _).bind fun _ => ?_
    refine (readChain_keeps _ _).bind fun _ => ?_
    exact (ih _ _ _ _ _).bind (fun _ => HM.Keeps.of_pure _)

theorem searchRank_keeps (who : Who) (h : Hank) (v : Nat) (n : Nat) (k : Nat) (m : Nat) :
    (searchRank who h v n k m).Keeps := by
  induction n generalizing who h v k m with
  | zero =>
    rw [searchRank]
    exact HM.Keeps.of_pure _
  | succ n ih =>
    rw [searchRank]
    split
    · exact HM.Keeps.of_pure _
    dsimp only
    refine (hNat_keeps _ _ _ _ _).bind fun _ => ?_
    split <;> exact ih _ _ _ _ _

theorem findRank_keeps (who : Who) (h : Hank) (v : Nat) :
    (findRank who h v).Keeps := by
  unfold findRank
  refine (searchRank_keeps _ _ _ _ _ _).bind fun _ => ?_
  split
  · exact HM.Keeps.of_pure _
  · exact (hNat_keeps _ _ _ _ _).bind (fun _ => HM.Keeps.of_pure _)

theorem neighbours_keeps (who : Who) (h : Hank) (v : Nat) (mask : W32) (l : List Nat) :
    (neighbours who h v mask l).Keeps := by
  induction l generalizing who h v mask with
  | nil =>
    rw [neighbours]
    exact HM.Keeps.of_pure _
  | cons x xs ih =>
    rw [neighbours]
    split
    · exact (HM.Keeps.of_pure _).bind (fun _ => (ih _ _ _ _).bind (fun _ => HM.Keeps.of_pure _))
    · exact (findRank_keeps _ _ _).bind (fun _ => (ih _ _ _ _).bind (fun _ => HM.Keeps.of_pure _))

theorem lookup_keeps (e : EngEntry) :
    (lookup e).Keeps := by
  unfold lookup
  dsimp only
  refine (readHank_keeps _ _ _ _).bind fun _ => ?_
  split
  · exact (countLeas_keeps _ _ _ _ _ _).bind (fun _ => HM.Keeps.of_pure _)
  · split
    · exact HM.Keeps.throw_bind _ _
    split
    · exact HM.Keeps.throw_bind _ _
    refine (findRank_keeps _ _ _).bind fun _ => ?_
    split
    · exact HM.Keeps.of_pure _
    · exact HM.Keeps.of_throw _
  · split
    · exact HM.Keeps.throw_bind _ _
    split
    · exact HM.Keeps.throw_bind _ _
    split
    · exact HM.Keeps.throw_bind _ _
    · exact (hNat_keeps _ _ _ _ _).bind (fun _ => (neighbours_keeps _ _ _ _ _).bind (fun _ => HM.Keeps.of_pure _))
  split
  · exact HM.Keeps.throw_bind _ _
  · exact (readLea_keeps _ _ _).bind (fun _ => HM.Keeps.of_pure _)

theorem State.Inv.updRank {s : State} (hs : s.Inv) (j : RankJob) (f : RankJob → RankJob) :
    (s.updRank j f).Inv := hs.keep

theorem freezeLeas_keeps (who : Who) (h : Hank) (j : RankJob) (l : List Nat) :
    (freezeLeas who h j l).Keeps := by
  induction l generalizing who h j with
  | nil =>
    rw [freezeLeas]
    exact HM.Keeps.of_pure _
  | cons x xs ih =>
    rw [freezeLeas]
    exact (readLea_keeps _ _ _).bind (fun _ => (bumpSeq_keeps _ _).bind (fun _ => (HM.Keeps.of_modify (fun _ ht => ht.updRank _ _)).bind (fun _ => ih _ _ _)))

theorem beginRank_keeps (who : Who) (h : Hank) (j : RankJob) :
    (beginRank who h j).Keeps := by
  unfold beginRank
  split
  · exact HM.Keeps.of_pure _
  split
  · exact HM.Keeps.of_pure _
  · exact (hCommit_keeps _ _ _ _).bind (fun _ => (freezeLeas_keeps _ _ _ _).bind (fun _ => HM.Keeps.of_pure _))

theorem readLeas_keeps (who : Who) (h : Hank) (l : List Nat) :
    (readLeas who h l).Keeps := by
  induction l generalizing who h with
  | nil =>
    rw [readLeas]
    exact HM.Keeps.of_pure _
  | cons x xs ih =>
    rw [readLeas]
    exact (readLea_keeps _ _ _).bind (fun _ => (readChain_keeps _ _).bind (fun _ => (ih _ _).bind (fun _ => HM.Keeps.of_pure _)))

theorem finishRank_keeps (who : Who) (ctx : Nat) (fm : BitVec 4) (at_ : Nat) :
    (finishRank who ctx fm at_).Keeps := by
  unfold finishRank
  refine (readHank_keeps _ _ _ _).bind fun _ => ?_
  refine (readLeas_keeps _ _ _).bind fun _ => ?_
  dsimp only
  split
  · exact HM.Keeps.throw_bind _ _
  · exact (hCommit_keeps _ _ _ _).bind (fun _ => HM.Keeps.of_pure _)

theorem State.Inv.endRank {s : State} (hs : s.Inv) (j : RankJob) (status value : Nat) :
    (s.endRank j status value).Inv := hs.keep.hankSame _ _ _

theorem State.Inv.startRanks {s : State} (hs : s.Inv) (ctx : Nat) (hank : W64) (n : Nat) :
    (s.startRanks ctx hank n).Inv := by
  induction n generalizing s ctx hank with
  | zero => exact hs
  | succ n ih =>
    rw [State.startRanks]
    split
    · exact hs
    split
    · exact hs
    split
    · next e1 => exact ((((readHank_keeps _ _ _ _).bind (fun _ => beginRank_keeps _ _ _)).after hs).of_pair e1).updRank _ _
    · next e1 => exact ih (((((readHank_keeps _ _ _ _).bind (fun _ => beginRank_keeps _ _ _)).after hs).of_pair e1).endRank _ _ _) _ _
    rename_i t e1
    have ht : t.Inv := (((readHank_keeps _ _ _ _).bind (fun _ => beginRank_keeps _ _ _)).after hs).of_pair e1
    split
    · exact ih (ht.endRank _ _ _) _ _
    · exact ht

theorem State.Inv.performHank {s : State} (hs : s.Inv) (e : EngEntry) :
    State.OptInv (s.performHank e) := by
  unfold State.performHank
  dsimp only
  split
  · split
    · next e1 => exact ((((mutate_keeps _).after hs).of_pair e1).takeEntry _).hankDone _ _ _
    · next e1 => exact (((mutate_keeps _).after hs).of_pair e1).takeEntry _
    · next e1 => exact State.OptInv.of_map _ (fun _ => (((((mutate_keeps _).after hs).of_pair e1).dropMove _).takeEntry _).hankDone _ _ _)
  split
  · exact hs.hankOpen _
  split
  · exact hs.hankNext _
  split
  · exact hs.hankClose _
  split
  · exact hs.keep.startRanks _ _ _
  split
  · next t e1 =>
      have ht : t.Inv := ((lookup_keeps _).after hs).of_pair e1
      refine (State.Inv.takeEntry ?_ _).hankDone _ _ _
      split
      · exact ht.hankPad _ _ _
      · exact ht
  · next e1 => exact State.OptInv.of_map _ (fun _ => ((((lookup_keeps _).after hs).of_pair e1).takeEntry _).hankDone _ _ _)

theorem State.Inv.exec_hankOperationPerform {s : State} (hs : s.Inv) (entry : Nat) :
    State.OutInv (execHankOperationPerform entry s) := by
  unfold execHankOperationPerform
  split
  · exact hs
  split
  · exact (hs.performHank _).getD hs
  · exact hs

theorem moveIn_keeps (m : Move) :
    (moveIn m).Keeps := by
  unfold moveIn
  dsimp only
  refine (readHank_keeps _ _ _ _).bind fun _ => ?_
  refine (readLea_keeps _ _ _).bind fun _ => ?_
  refine atLea_keeps _ _ _ ((readChain_keeps _ _).bind (fun _ => ?_))
  split
  · exact HM.Keeps.throw_bind _ _
  · exact HM.Keeps.of_get (fun _ _ => commitLea_keeps _ _ _ _ _)

theorem releaseSpare_keeps (m : Move) :
    (releaseSpare m).Keeps := by
  unfold releaseSpare
  dsimp only
  refine (readHank_keeps _ _ _ _).bind fun _ => ?_
  refine (readLea_keeps _ _ _).bind fun _ => ?_
  refine (readChain_keeps _ _).bind fun _ => ?_
  refine HM.Keeps.of_get fun _ _ => ?_
  split
  · exact HM.Keeps.of_pure _
  · exact hCommit_keeps _ _ _ _

theorem State.Inv.pinsLater {s : State} (hs : s.Inv) (h : Hank) (lea block : Nat) (e : Elem) :
    (s.pinsLater h lea block e).Inv := hs.keep

theorem moveBack_keeps (m : Move) :
    (moveBack m).Keeps := by
  unfold moveBack
  dsimp only
  refine (readHank_keeps _ _ _ _).bind fun _ => ?_
  refine (readLea_keeps _ _ _).bind fun _ => ?_
  refine (readChain_keeps _ _).bind fun _ => ?_
  refine HM.Keeps.of_get fun _ ht => ?_
  split
  · next e => exact HM.Keeps.of_set (((commitLea_keeps _ _ _ _ _).after ht).of_pair e)
  · split
    · refine (commitLea_keeps _ _ _ _ _).bind fun _ => ?_
      split
      · exact HM.Keeps.of_modify (fun _ ht2 => ht2.pinsLater _ _ _ _)
      · exact HM.Keeps.of_pure _
    · exact HM.Keeps.of_throw _
  · next e => exact (HM.Keeps.of_set (((commitLea_keeps _ _ _ _ _).after ht).of_pair e)).bind (fun _ => HM.Keeps.of_throw _)

theorem State.Inv.movePhase {s : State} (hs : s.Inv) (id : Nat) (p : MovePhase) :
    (s.movePhase id p).Inv := hs.keep

theorem State.Inv.spareMove {s : State} (hs : s.Inv) (m : Move) :
    (s.spareMove m).Inv := by
  unfold State.spareMove
  split
  · next e => exact (((releaseSpare_keeps _).after hs).of_pair e).dropMove _
  rename_i e
  split
  · exact hs.dropMove _
  · exact (((releaseSpare_keeps _).after hs).of_pair e).movePhase _ _

theorem State.Inv.restoreMove {s : State} (hs : s.Inv) (m : Move) (owed : Option Nat) :
    (s.restoreMove m owed).Inv := by
  unfold State.restoreMove
  dsimp only
  split
  · next t e =>
      have ht : t.Inv := ((moveBack_keeps _).after hs).of_pair e
      split
      · exact (ht.dropMove _).hankDone _ _ _
      · exact ht.dropMove _
  · split
    · exact (hs.movePhase _ _).hankDone _ _ _
    · exact hs.movePhase _ _
  · next e => exact (((moveBack_keeps _).after hs).of_pair e).movePhase _ _

theorem State.Inv.tryMove {s : State} (hs : s.Inv) (m : Move) :
    State.OptInv (s.tryMove m) := by
  unfold State.tryMove
  split
  · trivial
  split
  · next e => exact ((((moveIn_keeps _).after hs).of_pair e).spareMove _).hankDone _ _ _
  · next e => exact State.OptInv.of_map _ (fun _ => (((moveIn_keeps _).after hs).of_pair e).restoreMove _ _)

theorem State.Inv.retryMove {s : State} (hs : s.Inv) (m : Move) :
    (s.retryMove m).Inv := by
  unfold State.retryMove
  split
  · exact hs
  · exact hs.spareMove _
  · exact hs.restoreMove _ _

theorem State.Inv.retryReleases {s : State} (hs : s.Inv) (ctx : Nat) :
    (s.retryReleases ctx).Inv := by
  unfold State.retryReleases
  refine State.Inv.foldl _ (fun _ _ ht => ht.retryMove _) _ (hs.foldl _ (fun _ c ht => ?_) _)
  split
  · next e => exact ((ht.closeCursor c 0).of_pair e).dropCursor _
  · next e => exact (ht.closeCursor c 0).of_pair e

theorem State.Inv.exec_hankMoveInsert {s : State} (hs : s.Inv) :
    State.OutInv (execHankMoveInsert s) :=
  (State.OptInv.findSome s.moves hs.tryMove).getD hs

theorem State.Inv.exec_hankRankComplete {s : State} (hs : s.Inv) :
    State.OutInv (execHankRankComplete s) := by
  unfold execHankRankComplete
  split
  · split
    · exact hs.startRanks _ _ _
    · exact hs
  dsimp only
  split
  · next e1 => exact (((((readHank_keeps _ _ _ _).bind (fun _ => finishRank_keeps _ _ _ _)).after hs).of_pair e1).endRank _ _ _).startRanks _ _ _
  rename_i e1
  split
  · exact (((((readHank_keeps _ _ _ _).bind (fun _ => finishRank_keeps _ _ _ _)).after hs).of_pair e1).endRank _ _ _).startRanks _ _ _
  · exact hs

theorem State.Inv.exec_hankThawComplete {s : State} (hs : s.Inv) :
    State.OutInv (execHankThawComplete s) := by
  unfold execHankThawComplete
  split
  · exact hs
  dsimp only
  split
  · next e1 => exact (((((readHank_keeps _ _ _ _).bind (fun _ => (hCommit_keeps _ _ _ _).bind (fun _ => HM.Keeps.of_pure _))).after hs).of_pair e1).endRank _ _ _).startRanks _ _ _
  rename_i e1
  split
  · exact (((((readHank_keeps _ _ _ _).bind (fun _ => (hCommit_keeps _ _ _ _).bind (fun _ => HM.Keeps.of_pure _))).after hs).of_pair e1).endRank _ _ _).startRanks _ _ _
  · exact hs

end Sys2Proof.Machine
end

section
/-! SUPPORT. Clause fetch and the matrix sequencer keep the form. -/

namespace Sys2Proof.Machine
set_option Elab.async false

theorem State.Inv.fetchWord {s : State} (hs : s.Inv) (u : SUnit) (tpc next : W64) (header : Bool) (va : Nat) :
    (s.fetchWord u tpc next header va).2.Inv := by
  unfold State.fetchWord
  dsimp only
  split
  · next t e =>
      have ht : t.Inv := (hs.translate _ _ _ _).of_pair e
      split
      · exact ht
      · exact ht
      split
      · exact ht.countLost _
      · exact ht
  · next e => exact (hs.translate _ _ _ _).of_pair e
  · next e => exact (hs.translate _ _ _ _).of_pair e
  · next e => exact (hs.translate _ _ _ _).of_pair e

theorem State.Inv.fetchWords {s : State} (hs : s.Inv) (u : SUnit) (tpc next : W64) (h : Header) (n : Nat) (k : Nat) (l : List W64) :
    (s.fetchWords u tpc next h n k l).2.Inv := by
  induction n generalizing s u tpc next h k l with
  | zero => exact hs
  | succ n ih =>
    rw [State.fetchWords]
    split
    · next e => exact ih ((hs.fetchWord _ _ _ _ _).of_pair e) _ _ _ _ _ _
    · next e => exact (hs.fetchWord _ _ _ _ _).of_pair e

theorem State.Inv.readClause {s : State} (hs : s.Inv) (u : SUnit) :
    (s.readClause u).2.Inv := by
  unfold State.readClause
  dsimp only
  split
  · exact hs
  split
  · next e => exact (hs.fetchWord _ _ _ _ _).of_pair e
  rename_i t e
  have ht : t.Inv := (hs.fetchWord _ _ _ _ _).of_pair e
  split
  · exact ht
  split
  · next e2 => exact (ht.fetchWords _ _ _ _ _ _ _).of_pair e2
  · exact ht.fetchWords _ _ _ _ _ _ _

theorem State.Inv.boundaryTrap {s : State} (hs : s.Inv) (u : SUnit) (header : Bool) (t : LateTrap) :
    (s.boundaryTrap u header t).Inv := (hs.takeTrap _ _ _ _ _ _).settleDuties

theorem State.Inv.startClause {s : State} (hs : s.Inv) (u : SUnit) (h : Header) (ws : List W64) :
    (s.startClause u h ws).Inv := hs.keep

theorem State.Inv.fetchClause {s : State} (hs : s.Inv) (u : SUnit) :
    (s.fetchClause u).Inv := by
  unfold State.fetchClause
  split
  · exact hs.boundaryTrap _ _ _
  split
  · next e1 => exact ((hs.readClause _).of_pair e1).boundaryTrap _ _ _
  · next e1 => exact ((hs.readClause _).of_pair e1).updUnit _ _
  · next t e1 =>
      have ht : t.Inv := (hs.readClause _).of_pair e1
      split
      · exact ht.updUnit _ _
      rename_i e2
      exact ((ht.pageRequest _ _ _ _).get e2).updUnit _ _
  rename_i t e1
  have ht : t.Inv := (hs.readClause _).of_pair e1
  dsimp only
  split
  · exact ht.startClause _ _ _
  · exact ht

theorem State.Inv.exec_clauseFetch {s : State} (hs : s.Inv) (unit : Nat) :
    State.OutInv (execClauseFetch unit s) := by
  unfold execClauseFetch
  split
  · exact hs
  split
  · exact hs.fetchClause _
  · exact hs

theorem State.Inv.landTargets {s : State} (hs : s.Inv) (o : PendOp) :
    (s.landTargets o).1.Inv := by
  unfold State.landTargets
  refine State.Inv.foldl_fst _ (fun _ _ h => ?_) _ hs
  split
  · exact h
  · exact h.landAll _ _

theorem State.Inv.exec_longLatencyResult {s : State} (hs : s.Inv) (op : Nat) :
    State.OutInv (execLongLatencyResult op s) := by
  unfold execLongLatencyResult
  split
  · exact hs
  split
  rename_i t _ e1
  have ht : t.Inv := (hs.landTargets _).of_fst e1
  dsimp only
  split
  · exact hs
  refine State.Inv.foldl _ ?_ _ ?_
  · intro _ _ ht1
    split
    · split
      · exact ht1.afterSide _
      · exact ht1
    · exact ht1
  · split
    · refine State.Inv.dropPend ?_ _
      split
      · exact ht.keep
      · exact ht
    refine (State.Inv.updPend ?_ _ _).settleDuties
    split
    · exact ht.keep
    · exact ht

theorem State.Inv.trapHead {s : State} (hs : s.Inv) (cause : W32) (tval : W64) :
    State.OutInv (s.trapHead cause tval) := hs.word _ (fun _ _ _ ht => ht)

theorem State.Inv.setTile {s : State} (hs : s.Inv) (t : Tile) :
    (s.setTile t).Inv := by
  unfold State.setTile
  split <;> exact hs.keep

theorem State.Inv.claimTile {s : State} (hs : s.Inv) (gid : Nat) (paired : Bool) (core : Nat) :
    (s.claimTile gid paired core).Inv := by
  unfold State.claimTile
  dsimp only
  split
  · split
    · exact hs.setTile _
    · exact hs
  · exact hs.setTile _

theorem State.Inv.acceptMma {s : State} (hs : s.Inv) (f : FmtX) (kind : Nat) (offs : List (BitVec 7)) :
    State.OutInv (s.acceptMma f kind offs) := by
  unfold State.acceptMma
  refine hs.closingWord _ fun t _ _ ht => ?_
  extract_lets gd at_ c
  split
  · exact ht
  split
  · exact ht
  · extract_lets op cores s1
    split
    · exact ht.updUnit _ _
    split
    · exact ht
    split
    · exact ht
    · have h1 : s1.Inv := ht.foldl _ (fun _ _ h => h.claimTile _ _ _) _
      split
      next e =>
        have h2 := (h1.addPend _ _ _ _ _ _).of_pair e
        split
        next e1 => exact (h2.fresh.of_pair e1).keep

theorem State.Inv.exec_mma {s : State} (hs : s.Inv) (f : FmtX) :
    State.OutInv (execMma f s) := hs.acceptMma _ _ _

theorem State.Inv.exec_mzero {s : State} (hs : s.Inv) (f : FmtX) :
    State.OutInv (execMzero f s) := hs.acceptMma _ _ _

theorem State.Inv.exec_mload {s : State} (hs : s.Inv) (f : FmtX) :
    State.OutInv (execMload f s) := hs.acceptMma _ _ _

theorem State.Inv.exec_mdrain {s : State} (hs : s.Inv) (f : FmtX) :
    State.OutInv (execMdrain f s) := hs.acceptMma _ _ _

theorem State.Inv.mmaDone {s : State} (hs : s.Inv) (m : MmaOp) :
    (s.mmaDone m).Inv := hs.keep.entryDone _ _ _ _

theorem State.Inv.mmaPoison {s : State} (hs : s.Inv) (m : MmaOp) (off : Nat) :
    (s.mmaPoison m off).Inv := hs.keep.mmaDone _

theorem State.Inv.mmaWrite {s : State} (hs : s.Inv) (g : Group) (self off : Nat) (bs : List Byte) :
    (s.mmaWrite g self off bs).Inv := by
  unfold State.mmaWrite
  split
  · exact hs.writePad _ _ _
  · exact hs

theorem State.Inv.performKblock {s : State} (hs : s.Inv) (m : MmaOp) (g : Group) :
    (s.performKblock m g).Inv := by
  unfold State.performKblock
  dsimp only
  split
  · exact hs.mmaPoison _ _
  split
  · split
    · exact (State.Inv.foldl_fst _ (fun _ _ h => h.setTile _) _ hs).keep.mmaDone _
    · exact (State.Inv.foldl_fst _ (fun _ _ h => h.setTile _) _ hs).keep
  split
  · exact (State.Inv.foldl_fst _ (fun _ _ h => h.setTile _) _ hs).keep.mmaDone _
  · exact (State.Inv.foldl_fst _ (fun _ _ h => h.setTile _) _ hs).keep

theorem State.Inv.performDrain {s : State} (hs : s.Inv) (m : MmaOp) (g : Group) :
    (s.performDrain m g).Inv := by
  unfold State.performDrain
  extract_lets arrays
  split
  extract_lets s1
  have h1 : s1.Inv := hs.foldl _ (fun t r ht => by
    split
    extract_lets s2
    split
    · exact ht.mmaWrite _ _ _ _
    · exact (ht.mmaWrite _ _ _ _).mmaWrite _ _ _ _) _
  refine State.Inv.mmaDone ?_ _
  split
  · exact h1.foldl _ (fun _ _ ht => ht.setTile _) _
  · exact h1

theorem State.Inv.performLoad {s : State} (hs : s.Inv) (m : MmaOp) (g : Group) :
    (s.performLoad m g).Inv := by
  unfold State.performLoad
  dsimp only
  split
  · exact hs.mmaPoison _ _
  · exact (State.Inv.foldl _ (fun _ _ ht => ht.setTile _) _ hs).mmaDone _

theorem State.Inv.exec_mmaSequencerPerform {s : State} (hs : s.Inv) (core : Nat) :
    State.OutInv (execMmaSequencerPerform core s) := by
  unfold execMmaSequencerPerform
  split
  · exact hs
  split
  · exact hs
  split
  · exact hs.mmaDone _
  split
  · exact hs.performKblock _ _
  · exact (State.Inv.foldl _ (fun _ _ ht => ht.setTile _) _ hs).mmaDone _
  · exact hs.performDrain _ _
  · exact hs.performLoad _ _

theorem State.Inv.exec_mmaAssistComplete {s : State} (hs : s.Inv) (core : Nat) :
    State.OutInv (execMmaAssistComplete core s) := by
  unfold execMmaAssistComplete
  split
  · exact hs
  split
  · exact hs
  dsimp only
  show State.Inv _
  split
  · exact hs.keep.mmaDone _
  · exact hs.keep

end Sys2Proof.Machine
end

section
/-! SUPPORT. Beam queries keep the form. -/

namespace Sys2Proof.Machine
set_option Elab.async false

theorem readLevel_keeps (who : Who) (h : Hank) (table : List Byte) (l : Nat) :
    (readLevel who h table l).Keeps := by
  unfold readLevel
  dsimp only
  split
  · exact HM.Keeps.of_pure _
  · exact (hRead_keeps _ _ _ _ _).bind (fun _ => HM.Keeps.of_pure _)

theorem elemsIn_keeps (who : Who) (h : Hank) (lo hi : Nat) (n : Nat) (k : Nat) :
    (elemsIn who h lo hi n k).Keeps := by
  induction n generalizing who h lo hi k with
  | zero =>
    rw [elemsIn]
    exact HM.Keeps.of_pure _
  | succ n ih =>
    rw [elemsIn]
    split
    · exact HM.Keeps.of_pure _
    refine (readLea_keeps _ _ _).bind fun _ => ?_
    refine (readChain_keeps _ _).bind fun _ => ?_
    exact (ih _ _ _ _ _).bind (fun _ => HM.Keeps.of_pure _)

theorem underNode_keeps (who : Who) (h : Hank) (l node : Nat) :
    (underNode who h l node).Keeps := elemsIn_keeps _ _ _ _ _ _

theorem settleNode_keeps (who : Who) (h : Hank) (table : List Byte) (b : Beam) (l node radius : Nat) :
    (settleNode who h table b l node radius).Keeps := by
  induction l generalizing node radius with
  | zero =>
    rw [settleNode]
    split
    · exact .of_pure _
    · exact (underNode_keeps _ _ _ _).bind fun _ => .of_pure _
    split
    · exact .of_pure _
    · exact (underNode_keeps _ _ _ _).bind fun _ => .of_pure _
  | succ k ih =>
    rw [settleNode]
    split
    · exact .of_pure _
    · exact (underNode_keeps _ _ _ _).bind fun _ => .of_pure _
    split
    · exact .of_pure _
    · refine (readLevel_keeps _ _ _ _).bind fun kids => HM.Keeps.foldlM (fun acc r => ?_) _ _
      cases acc with
      | none => exact .of_pure _
      | some hs =>
        refine (ih r.1 r.2).bind fun more => ?_
        cases more <;> exact .of_pure _

theorem State.Inv.updBeam {s : State} (hs : s.Inv) (cluster slot : Nat) (f : BeamSlot → BeamSlot) :
    (s.updBeam cluster slot f).Inv := hs.keep

theorem Query.state_keeps (q : Query) :
    (Query.state q).Keeps := HM.Keeps.of_get (fun _ _ => HM.Keeps.of_pure _)

theorem writeHits_keeps (q : Query) (b : Beam) (l : List BeamHit) :
    (writeHits q b l).Keeps := by
  induction l generalizing q b with
  | nil =>
    rw [writeHits]
    exact HM.Keeps.of_pure _
  | cons x xs ih =>
    rw [writeHits]
    refine (Query.state_keeps _).bind fun _ => ?_
    dsimp only
    split
    · split
      · exact HM.Keeps.throw_bind _ _
      · exact (hCommit_keeps _ _ _ _).bind (fun _ => (HM.Keeps.of_modify (fun _ ht => ht.updBeam _ _ _)).bind (fun _ => ih _ _))
    split
    · exact HM.Keeps.throw_bind _ _
    · exact (hCommit_keeps _ _ _ _).bind (fun _ => (HM.Keeps.of_modify (fun _ ht => ht.updBeam _ _ _)).bind (fun _ => ih _ _))

theorem spawnSplit_keeps (q : Query) (b : Beam) (k : Nat) :
    (spawnSplit q b k).Keeps := by
  unfold spawnSplit
  dsimp only
  refine (hCommit_keeps _ _ _ _).bind fun _ => ?_
  refine HM.Keeps.of_get fun _ ht => ?_
  split
  · exact HM.Keeps.of_pure _
  split
  · next e1 =>
      split
      · next e2 => exact (HM.Keeps.of_set ((((ht.dqProducer _ _).of_pair e1).pageRequest _ _ _ _).get e2)).bind (fun _ => HM.Keeps.of_pure _)
      · exact HM.Keeps.of_throw _
  · exact HM.Keeps.of_throw _
  · next e1 => exact (HM.Keeps.of_set ((ht.dqProducer _ _).of_pair e1)).bind (fun _ => HM.Keeps.of_pure _)
  rename_i t1 e1
  have ht1 : t1.Inv := (ht.dqProducer _ _).of_pair e1
  split
  · exact (HM.Keeps.of_set (ht1.dqSettle _)).bind (fun _ => HM.Keeps.of_pure _)
  · exact (HM.Keeps.of_set (((ht1.dqSettle _).pushRecord _ _ _ _ _ _ _).updBeam _ _ _)).bind (fun _ => HM.Keeps.of_pure _)

theorem runBeam_keeps (q : Query) (fuel : Nat) (spawn : Bool) (b : Beam) : (runBeam q fuel spawn b).Keeps := by
  induction fuel using Nat.strongRecOn generalizing spawn b with
  | ind fuel ih =>
    have htail : HM.Keeps (match fuel with
        | 0 => return ()
        | n + 1 => (List.range 4).foldlM (fun (_ : Unit) i => runBeam q n false (Beam.ofBytes (b.child i))) ()) := by
      split
      · exact .of_pure _
      · exact HM.Keeps.foldlM (fun _ _ => ih _ (Nat.lt_succ_self _) _ _) _ _
    rw [runBeam.eq_def]
    refine (readLevel_keeps _ _ _ _).bind fun level => ?_
    extract_lets root collect act
    have hcollect : ∀ done, (collect done).Keeps := by
      intro done
      unfold collect
      split
      · exact .of_pure _
      · exact (HM.Keeps.of_modify fun _ h => h.updBeam _ _ _).bind fun _ => htail
    have hact : ∀ r, (act r).Keeps := by
      intro r
      unfold act
      split
      · exact (writeHits_keeps _ _ _).bind fun _ => .of_modify fun _ h => h.updBeam _ _ _
      · refine (Query.state_keeps q).bind fun x => ?_
        extract_lets k
        split
        · exact (spawnSplit_keeps _ _ _).bind hcollect
        · exact (HM.Keeps.of_pure _).bind hcollect
    clear_value root
    cases root with
    | none => exact (HM.Keeps.of_pure _).bind hact
    | some r => exact (settleNode_keeps _ _ _ _ _ _ _).bind hact

theorem queryHank_keeps (who : Who) (ctx : Nat) (fm : BitVec 4) (c : List Byte) :
    (queryHank who ctx fm c).Keeps := by
  unfold queryHank
  refine (readHank_keeps _ _ _ _).bind fun _ => ?_
  dsimp only
  split
  · exact HM.Keeps.throw_bind _ _
  refine (hRead_keeps _ _ _ _ _).bind fun _ => ?_
  split
  · exact HM.Keeps.of_pure _
  · exact HM.Keeps.of_throw _

theorem queryTemplate_keeps (who : Who) (ctx : Nat) (fm : BitVec 4) (c : List Byte) :
    (queryTemplate who ctx fm c).Keeps := by
  unfold queryTemplate
  split
  · exact HM.Keeps.of_pure _
  refine (hRead_keeps _ _ _ _ _).bind fun _ => ?_
  refine HM.Keeps.of_get fun _ _ => ?_
  dsimp only
  split
  · exact HM.Keeps.throw_bind _ _
  · exact HM.Keeps.of_pure _

theorem beginQuery_keeps (cluster slot ctx : Nat) (fm : BitVec 4) (addr : Nat) :
    (beginQuery cluster slot ctx fm addr).Keeps := by
  unfold beginQuery
  dsimp only
  refine (hRead_keeps _ _ _ _ _).bind fun _ => ?_
  refine (HM.Keeps.of_modify (fun _ ht => ht.updBeam _ _ _)).bind fun _ => ?_
  split
  · exact HM.Keeps.throw_bind _ _
  refine (hRead_keeps _ _ _ _ _).bind fun _ => ?_
  split
  · exact HM.Keeps.throw_bind _ _
  · exact (HM.Keeps.of_modify (fun _ ht => ht.updBeam _ _ _)).bind (fun _ => (queryTemplate_keeps _ _ _ _).bind (fun _ => (queryHank_keeps _ _ _ _).bind (fun _ => HM.Keeps.of_pure _)))

theorem performQuery_keeps (b : BeamSlot) (tree : W32) :
    (performQuery b tree).Keeps := (queryHank_keeps _ _ _ _).bind (fun _ => (queryTemplate_keeps _ _ _ _).bind (fun _ => runBeam_keeps _ _ _ _))

theorem State.Inv.popItems {s : State} (hs : s.Inv) (e : EngEntry) (b : BeamSlot) (popped : Nat) (items : List (Nat × Nat))
    {vs : List (Nat × Nat × Nat)} {n : Nat} {t : State} (ht : s.popItems e b popped items = some (vs, n, t)) : t.Inv := by
  induction items generalizing s popped vs n with
  | nil =>
    rw [State.popItems] at ht
    cases ht
    exact hs
  | cons x rest ih =>
    have hnext : ∀ (s1 : State) (p : Nat) (v : Nat × Nat), s1.Inv → (match s1.popItems e b p rest with
        | some (vs, n, s2) => some ((x.1, v) :: vs, n, s2)
        | none => none) = some (vs, n, t) → t.Inv := by
      intro s1 p v h1 h
      split at h
      · next e1 => cases h; exact ih h1 _ e1
      · cases h
    have hon := (hRead_keeps (.beam b.cluster) b.ctx e.fmode (b.result.toNat + 16 * popped) 16).after hs
    rw [State.popItems] at ht
    split at ht
    · exact hnext _ _ _ hs ht
    split at ht
    · next e1 => exact hnext _ _ _ ((hon.of_pair e1).hankPad _ _ _) ht
    · next e1 =>
      split at ht
      · exact hnext _ _ _ (hon.of_pair e1) ht
      · cases ht

theorem State.Inv.beamStat {s : State} (hs : s.Inv) (group : Option Nat) (handle : W32) (release : Bool) :
    (s.beamStat group handle release).2.Inv := by
  unfold State.beamStat
  split
  · exact hs
  split
  · split
    · exact hs.updBeam _ _ _
    · exact hs
  · split <;> exact hs

theorem State.Inv.popQuery {s : State} (hs : s.Inv) (e : EngEntry) : State.OptInv (s.popQuery e) := by
  unfold State.popQuery
  split
  · split
    · trivial
    · exact ((hs.beamStat _ _ _).takeEntry _).entryDone _ _ _ _
  · split
    · trivial
    split
    · exact (hs.takeEntry _).hankDoneAll _ _
    split
    · trivial
    split
    · trivial
    · next e1 => exact (((hs.popItems _ _ _ _ e1).updBeam _ _ _).takeEntry _).hankDoneAll _ _
  · trivial

theorem State.Inv.popWaiting {s : State} (hs : s.Inv) (group handle : Nat) :
    (s.popWaiting group handle).Inv := State.Inv.foldl _ (fun _ _ ht => (ht.popQuery _).getD ht) _ hs

theorem State.Inv.exec_beamQueryStart {s : State} (hs : s.Inv) (cluster : Nat) :
    State.OutInv (execBeamQueryStart cluster s) := by
  unfold execBeamQueryStart
  split
  · dsimp only
    split
    · next e3 => exact ((beginQuery_keeps _ _ _ _ _).after hs.keep).of_pair e3
    rename_i e3
    split
    · exact (((beginQuery_keeps _ _ _ _ _).after hs.keep).of_pair e3).updBeam _ _ _
    · exact hs
  · exact hs

theorem State.Inv.runQuery {s : State} (hs : s.Inv) (b : BeamSlot) :
    State.OptInv (s.runQuery b) := by
  unfold State.runQuery
  split
  · exact hs
  dsimp only
  split
  · next e => exact (((performQuery_keeps _ _).after hs).of_pair e).updBeam _ _ _
  · next e => exact State.OptInv.of_map _ (fun _ => (((performQuery_keeps _ _).after hs).of_pair e).updBeam _ _ _)

theorem State.Inv.putStatus {s : State} (hs : s.Inv) (b : BeamSlot) :
    (s.putStatus b).2.Inv := by
  unfold State.putStatus
  dsimp only
  split
  · exact hs
  split
  · next e => exact ((hCommit_keeps _ _ _ _).after hs).of_pair e
  · next e => exact ((hCommit_keeps _ _ _ _).after hs).of_pair e
  · next e => exact ((hCommit_keeps _ _ _ _).after hs).of_pair e

theorem State.Inv.exec_beamQueryDone {s : State} (hs : s.Inv) (cluster slot : Nat) :
    State.OutInv (execBeamQueryDone cluster slot s) := by
  unfold execBeamQueryDone
  split
  · exact hs
  split
  · exact hs
  split
  · exact hs
  · exact hs.popWaiting _ _
  split
  · exact hs
  rename_i t e2
  have ht : t.Inv := (hs.runQuery _).get e2
  split
  · exact hs
  split
  · next e4 => exact (ht.putStatus _).of_pair e4
  rename_i t1 e4
  have ht1 : t1.Inv := (ht.putStatus _).of_pair e4
  dsimp only
  refine State.Inv.popWaiting ?_ _ _
  split
  · exact (ht1.updBeam _ _ _).entryDone _ _ _ _
  · exact ht1.updBeam _ _ _

theorem State.Inv.exec_bqry {s : State} (hs : s.Inv) (f : FmtX) :
    State.OutInv (execBqry f s) := by
  unfold execBqry
  refine hs.closingWord _ fun _ _ _ ht => ?_
  dsimp only
  split
  · exact ht
  split
  · exact ht
  split
  · exact ht
  split
  · exact ht
  · exact ht.deferV _ _ _ _ _ _ (fun _ _ ht1 => (State.Inv.foldl _ (fun _ _ ht => (ht.mkEntry _ _ _ _ _ _ _).enqueue _) _ ht1).holdPort _ _ _)

theorem State.Inv.exec_bpop {s : State} (hs : s.Inv) (f : FmtX) :
    State.OutInv (execBpop f s) := by
  unfold execBpop
  refine hs.closingWord _ fun _ _ _ ht => ?_
  dsimp only
  split
  · exact ht
  split
  · exact ht
  split
  · exact ht
  split
  · exact ht
  · exact ht.deferV _ _ _ _ _ _ (fun _ _ ht1 => (((ht1.mkEntry _ _ _ _ _ _ _).enqueue _).popQuery _).getD ((ht1.mkEntry _ _ _ _ _ _ _).enqueue _))

theorem State.Inv.runBstat {s : State} (hs : s.Inv) (f : FmtX) (release : Bool) :
    State.OutInv (s.runBstat f release) := by
  unfold State.runBstat
  refine hs.closingWord _ fun t _ u ht => ?_
  extract_lets g handle waits later r part
  have hr : r.2.Inv := by
    refine State.Inv.foldl_snd _ (fun acc i h => ?_) _ ht
    exact State.Inv.beamStat h u.group (handle i) release
  split
  · exact ht
  split
  · exact ht
  split
  · exact ht
  · refine hr.deferV _ _ _ _ _ _ fun op t1 h1 => h1.foldl _ (fun t2 i h2 => ?_) _
    exact h2.fresh.enqueue _

end Sys2Proof.Machine
end

section
/-! SUPPORT. Contexts keep the form. -/

namespace Sys2Proof.Machine
set_option Elab.async false

theorem State.Inv.prunePend {s : State} (hs : s.Inv) :
    (s.prunePend).Inv := hs.keep

theorem State.Inv.discardCtx {s : State} (hs : s.Inv) (c : Nat) :
    (s.discardCtx c).Inv := by
  unfold State.discardCtx
  extract_lets us gs kept s1 s2 s3 s4
  have h1 : s1.Inv := hs.foldl _ (fun _ _ ht => ht.removeUnit _) _
  have h2 : s2.Inv := h1.keep
  have h3 : s3.Inv := h2.foldl _ (fun _ _ ht => ht.releaseGroup _) _
  have h4 : s4.Inv := h3.keep
  exact h4.prunePend

theorem State.Inv.cancelCopies {s : State} (hs : s.Inv) (c : Nat) (p : Copy → Bool) :
    (s.cancelCopies c p).Inv := by
  unfold State.cancelCopies
  dsimp only
  refine State.Inv.foldl _ (fun _ _ ht => ?_) _ hs
  split
  · exact ht.endEntryCopy _ _ _
  · exact ht.putCopy _

theorem State.Inv.endTrees {s : State} (hs : s.Inv) (c : Nat) (end_ : Tree → Nat × W32 × W64) :
    (s.endTrees c end_).Inv := by
  unfold State.endTrees
  dsimp only
  exact State.Inv.foldl _ (fun _ _ ht => ht.reportEntry _ _ _ _ _ _ _ _) _ hs.keep

theorem State.Inv.contextFault {s : State} (hs : s.Inv) (c : Nat) (cause : W32) (tval need : W64) :
    (s.contextFault c cause tval need).Inv := by
  unfold State.contextFault
  split
  · exact hs
  split
  · exact hs
  · exact (((State.Inv.foldl _ (fun _ _ ht => ht.reportEntry _ _ _ _ _ _ _ _) _ (((hs.cancelCopies _ _).discardCtx _).endTrees _ _)).haltQueues _).updCtx _ _).raiseEvent _

theorem State.Inv.cancelWaiting {s : State} (hs : s.Inv) (c q : Nat) (p : Entry → Bool) :
    (s.cancelWaiting c q p).Inv := by
  unfold State.cancelWaiting
  split
  · exact hs
  refine State.Inv.foldl _ (fun _ _ ht => ?_) _ hs
  dsimp only
  refine State.Inv.reportEntry ?_ _ _ _ _ _ _ _ _
  split
  · exact ht.consume _ _ _
  · exact ht

theorem State.Inv.leaveChunks {s : State} (hs : s.Inv) (c : Nat) :
    (s.leaveChunks c).Inv := by
  unfold State.leaveChunks
  dsimp only
  exact (State.Inv.foldl _ (fun _ _ ht => ht.loseRange _ _) _ hs).keep

theorem State.Inv.terminateCtx {s : State} (hs : s.Inv) (c : Nat) :
    (s.terminateCtx c).Inv := (((State.Inv.foldl _ (fun _ _ ht => ht.cancelWaiting _ _ _) _ (((hs.cancelCopies _ _).discardCtx _).endTrees _ _)).keep.leaveChunks _).dropTlb _).updCtx _ _

theorem State.Inv.wakeHolds {s : State} (hs : s.Inv) (c : Nat) (p : Who → Nat → Nat → Bool) :
    (s.wakeHolds c p).Inv := hs.keep

theorem State.Inv.rewalkWhere {s : State} (hs : s.Inv) (c : Nat) (p : Nat → Bool) :
    (s.rewalkWhere c p).Inv := by
  unfold State.rewalkWhere
  dsimp only
  refine State.Inv.foldl _ (fun _ _ ht => ?_) _ hs.keep
  split
  · exact (ht.pageRequest _ _ _ _).getD ht
  · exact ht

theorem State.Inv.rewalk {s : State} (hs : s.Inv) (c : Nat) :
    (s.rewalk c).Inv := (((hs.updCtx _ _).rewalkWhere _ _).wakeHolds _ _).retryReleases _

theorem State.Inv.rewalkUnasked {s : State} (hs : s.Inv) (c : Nat) :
    (s.rewalkUnasked c).Inv := ((hs.wakeHolds _ _).rewalkWhere _ _).retryReleases _

theorem State.Inv.exec_resolveWrite {s : State} (hs : s.Inv) (ctx : Nat) :
    State.OutInv (execResolveWrite ctx s) := hs.rewalk _

theorem State.Inv.exec_consumedWrite {s : State} (hs : s.Inv) (ctx : Nat) (value : BitVec 64) :
    State.OutInv (execConsumedWrite ctx value s) := by
  unfold execConsumedWrite
  split
  · exact hs
  split
  · exact hs
  · exact (hs.updCtx _ _).rewalkUnasked _

theorem State.Inv.exec_watchdog {s : State} (hs : s.Inv) (unit : Nat) :
    State.OutInv (execWatchdog unit s) := by
  unfold execWatchdog
  split
  · exact hs
  dsimp only
  split
  · split
    · exact hs.contextFault _ _ _ _
    · exact hs
  split
  · exact hs.contextFault _ _ _ _
  · exact hs

theorem State.Inv.checkQueue {s : State} (hs : s.Inv) (q : HostQueue) (e : Entry) :
    (s.checkQueue q e).2.Inv := by
  unfold State.checkQueue
  split
  · next e1 => exact (hs.fwTranslate _ _ _ _ _ _).of_pair e1
  · next e1 => exact (hs.fwTranslate _ _ _ _ _ _).of_pair e1
  rename_i e1
  exact (hs.fwTranslate _ _ _ _ _ _).of_pair e1

theorem State.Inv.settleContext {s : State} (hs : s.Inv) (op : Nat) (act : State → HostQueue → Entry → State) (hact : ∀ t b c, t.Inv → (act t b c).Inv) :
    State.OutInv (s.settleContext op act) := by
  unfold State.settleContext
  split
  · exact hs
  split
  · exact hs
  split
  · exact hs.reportEntry _ _ _ _ _ _ _ _
  split
  · exact hs.reportEntry _ _ _ _ _ _ _ _
  split
  · exact hs.reportEntry _ _ _ _ _ _ _ _
  · exact hact _ _ _ hs

theorem State.Inv.contextDone {s : State} (hs : s.Inv) (q : HostQueue) (e : Entry) :
    (s.contextDone q e).Inv := hs.reportEntry _ _ _ _ _ _ _ _

theorem State.Inv.contextStep {s : State} (hs : s.Inv) (q : HostQueue) (e : Entry) (n : Nat) :
    (s.contextStep q e n).Inv := hs.updEntry _ _ _ _

theorem State.Inv.completePerformed {s : State} (hs : s.Inv) (op : Nat) (settled : Entry → Option Nat) :
    State.OptInv (s.completePerformed op settled) :=
  .findSome _ fun _ => .of_map _ fun _ => hs.reportEntry _ _ _ _ _ _ _ _

theorem State.Inv.exec_contextCreate {s : State} (hs : s.Inv) :
    State.OutInv (execContextCreate s) := by
  unfold execContextCreate
  refine hs.settleContext _ _ fun _ _ _ ht => ?_
  exact ht.keep.contextDone _ _

theorem State.Inv.exec_contextPaging {s : State} (hs : s.Inv) :
    State.OutInv (execContextPaging s) := by
  unfold execContextPaging
  refine hs.settleContext _ _ fun _ _ _ ht => ?_
  exact ((ht.updCtx _ _).dropTlb _).contextDone _ _

theorem State.Inv.exec_contextQueue {s : State} (hs : s.Inv) :
    State.OutInv (execContextQueue s) := by
  unfold execContextQueue
  refine hs.settleContext _ _ fun _ _ _ ht => ?_
  split
  · next e => exact ((ht.checkQueue _ _).of_pair e).holdEntry _ _ _
  · next e => exact ((ht.checkQueue _ _).of_pair e).failEntry _ _ _ _ _
  · next e => exact ((ht.checkQueue _ _).of_pair e).reportEntry _ _ _ _ _ _ _ _
  rename_i t1 e
  have ht1 : t1.Inv := (ht.checkQueue _ _).of_pair e
  split
  · exact ht1.keep.contextDone _ _
  · exact ht1.keep.contextDone _ _

theorem State.Inv.cancelRecord {s : State} (hs : s.Inv) (d : DevQueue) (bs : List Byte) :
    (s.cancelRecord d bs).Inv := (hs.treeFail _ _ _ _ _).treeDec _ _

theorem State.Inv.cancelRecords {s : State} (hs : s.Inv) (d : DevQueue) (pop n : Nat) :
    (s.cancelRecords d pop n).Inv := by
  induction n generalizing s pop with
  | zero => exact hs
  | succ n ih =>
    rw [State.cancelRecords]
    refine ih ?_ _
    split
    · next e =>
      have h1 := (hs.dqAccess _ _ _ _).of_pair e
      extract_lets bs
      split
      · exact (h1.dqSettle _).cancelRecord _ _
      · exact h1
    · next e => exact (hs.dqAccess _ _ _ _).of_pair e

theorem State.Inv.cancelSpawns {s : State} (hs : s.Inv) (d : DevQueue) :
    (s.cancelSpawns d).Inv := by
  unfold State.cancelSpawns
  dsimp only
  refine State.Inv.foldl _ (fun _ _ ht => ?_) _ (hs.dropEntries _)
  split
  · exact ht.cancelRecord _ _
  · exact ht

theorem State.Inv.destroyDevq {s : State} (hs : s.Inv) (q : HostQueue) (e : Entry) (d : DevQueue) :
    (s.destroyDevq q e d).Inv := by
  unfold State.destroyDevq
  split
  · next e1 =>
      exact (((((hs.dqProducer _ _).of_pair e1).dqSettle _).cancelSpawns _).cancelRecords _ _ _).keep.contextDone _ _
  · next t e1 =>
      have ht : t.Inv := (hs.dqProducer _ _).of_pair e1
      exact ((ht.pageRequest _ _ _ _).getD ht).holdEntry _ _ _
  · next e1 => exact ((hs.dqProducer _ _).of_pair e1).holdEntry _ _ _
  · next e1 => exact ((hs.dqProducer _ _).of_pair e1).failEntry _ _ _ _ _

theorem State.Inv.exec_contextUnqueue {s : State} (hs : s.Inv) :
    State.OutInv (execContextUnqueue s) := by
  unfold execContextUnqueue
  split
  · next e => exact (hs.completePerformed _ _).get e
  refine hs.settleContext _ _ fun _ _ _ ht => ?_
  split
  · split
    · exact ht.contextDone _ _
    · exact ht.destroyDevq _ _ _
  split
  · exact ht.contextDone _ _
  · exact ((ht.cancelWaiting _ _ _).updHq _ _ _).contextStep _ _ _

theorem State.Inv.exec_contextInval {s : State} (hs : s.Inv) :
    State.OutInv (execContextInval s) := by
  unfold execContextInval
  refine hs.settleContext _ _ fun _ _ _ ht => ?_
  exact (ht.dropTlb _).contextStep _ _ _

theorem State.Inv.exec_invalidationComplete {s : State} (hs : s.Inv) :
    State.OutInv (execInvalidationComplete s) := by
  unfold execInvalidationComplete
  split
  · exact hs
  · exact State.Inv.foldl _ (fun _ _ ht => ht.rewalk _) _ (hs.reportEntry _ _ _ _ _ _ _ _)

theorem State.Inv.exec_contextSuspend {s : State} (hs : s.Inv) :
    State.OutInv (execContextSuspend s) := by
  unfold execContextSuspend
  split
  · next e => exact (hs.completePerformed _ _).get e
  refine hs.settleContext _ _ fun _ _ _ ht => ?_
  split
  · split
    · exact (ht.suspendCtx _).contextStep _ _ _
    · exact ht.contextDone _ _
  · exact ht

theorem State.Inv.exec_contextResume {s : State} (hs : s.Inv) :
    State.OutInv (execContextResume s) := by
  unfold execContextResume
  split
  · next e => exact (hs.completePerformed _ _).get e
  refine hs.settleContext _ _ fun _ _ _ ht => ?_
  split
  · split
    · exact (ht.updCtx _ _).contextStep _ _ _
    · exact ht.contextDone _ _
  · exact ht

theorem State.Inv.exec_contextTerminate {s : State} (hs : s.Inv) :
    State.OutInv (execContextTerminate s) := hs.settleContext _ _ (fun _ _ _ ht => (ht.terminateCtx _).contextDone _ _)

theorem State.Inv.changeMap {s : State} (hs : s.Inv) (p : Part) :
    (s.changeMap p).Inv := hs.keep

theorem State.Inv.exec_contextResize {s : State} (hs : s.Inv) :
    State.OutInv (execContextResize s) := by
  unfold execContextResize
  split
  · next e => exact (hs.completePerformed _ _).get e
  refine hs.settleContext _ _ fun _ _ _ ht => ?_
  dsimp only
  split
  · split
    · exact ((ht.updPart _ _).changeMap _).contextDone _ _
    · exact (State.Inv.foldl _ (fun _ _ ht => (ht.suspendCtx _).updCtx _ _) _ (ht.updPart _ _)).contextStep _ _ _
  split
  · exact (ht.keep.changeMap _).contextDone _ _
  · exact (State.Inv.foldl _ (fun _ _ ht => (ht.suspendCtx _).updCtx _ _) _ ht.keep).contextStep _ _ _

theorem State.Inv.exec_resizeMapChange {s : State} (hs : s.Inv) :
    State.OutInv (execResizeMapChange s) := by
  unfold execResizeMapChange
  dsimp only
  split
  · exact hs
  · exact hs.changeMap _

end Sys2Proof.Machine
end

section
/-! SUPPORT. Saving and restoring a context keeps the form. -/

namespace Sys2Proof.Machine
set_option Elab.async false

theorem State.Inv.discardRegions {s : State} (hs : s.Inv) (c : Nat) :
    (s.discardRegions c).Inv := by
  unfold State.discardRegions
  refine State.Inv.foldl _ (fun _ _ ht => ?_) _ hs
  split
  · split
    · exact ht
    · exact (ht.discardRegion _ _).updUnit _ _
  · exact ht

theorem State.Inv.takeOff {s : State} (hs : s.Inv) (g : Group) :
    (s.takeOff g).Inv := hs.keep

theorem State.Inv.takeOffAll {s : State} (hs : s.Inv) (c : Nat) :
    (s.takeOffAll c).Inv := (State.Inv.foldl _ (fun _ _ ht => ht.takeOff _) _ (State.Inv.foldl _ (fun _ _ ht => ht.publish _ _) _ hs)).keep.updCtx _ _

theorem State.Inv.saveTurn {s : State} (hs : s.Inv) : State.SomeInv s.saveTurn := by
  refine .findSome _ fun x => ?_
  extract_lets s1
  split
  · exact hs.discardRegions _
  · trivial

theorem State.Inv.exec_contextSaveComplete {s : State} (hs : s.Inv) :
    State.OutInv (execContextSaveComplete s) := by
  unfold execContextSaveComplete
  split
  · exact hs
  rename_i t e
  have ht : t.Inv := hs.saveTurn.get e
  dsimp only
  split
  · exact (State.Inv.foldl _ (fun _ _ ht => ht.publish _ _) _ ht).contextFault _ _ _ _
  · exact ((State.Inv.foldl _ (fun _ _ ht => ht.publish _ _) _ ht).writeHome _ _ _).takeOffAll _

theorem State.Inv.seatUnits {s : State} (hs : s.Inv) (g : Group) (l : List SUnit) :
    (s.seatUnits g l).Inv := by
  induction l generalizing s g with
  | nil => exact hs
  | cons x xs ih =>
    rw [State.seatUnits]
    split
    · exact ih hs _
    · exact ih (hs.updUnit _ _) _

theorem State.Inv.putBack {s : State} (hs : s.Inv) (g new : Group) :
    (s.putBack g new).Inv := by
  unfold State.putBack
  extract_lets us core n ofGroup moveCopy
  split
  extract_lets g1 s1 s2 s3 badWords badRows poison s4 s5
  have h1 : s1.Inv := (hs.updGroup _ _).clearPlaced _
  have h2 : s2.Inv := h1.foldl _ (fun _ _ ht => ht.setRow _ _) _
  have h3 : s3.Inv := h2.foldl _ (fun _ _ ht => ht.writePad _ _ _) _
  have h4 : s4.Inv := State.Inv.foldl _ (fun _ _ ht => ht.setTile _) _ h3.keep
  have h5 : s5.Inv := h4.keep
  exact h5.seatUnits _ _

theorem State.Inv.restoreGroups {s : State} (hs : s.Inv) (p : Nat) (l : List Group) :
    State.OptInv (s.restoreGroups p l) := by
  induction l generalizing s p with
  | nil => exact hs
  | cons x xs ih =>
    rw [State.restoreGroups]
    split
    · trivial
    dsimp only
    split
    · trivial
    · exact ih ((hs.putBack _ _).updPart _ _) _

theorem State.Inv.restored {s : State} (hs : s.Inv) (x : Ctx) :
    (s.restored x).Inv := by
  unfold State.restored
  dsimp only
  exact (hs.keep.updCtx _ _).rewalkWhere _ _

theorem State.Inv.seatSpans {s : State} (hs : s.Inv) (core : Nat) (l : List SUnit) :
    (s.seatSpans core l).Inv := by
  induction l generalizing s core with
  | nil => exact hs
  | cons x xs ih =>
    rw [State.seatSpans]
    exact ih (hs.updUnit _ _) _

theorem State.Inv.restoreStep {s : State} (hs : s.Inv) (x : Ctx) :
    (s.restoreStep x).Inv := by
  unfold State.restoreStep
  split
  · dsimp only
    split
    · exact ((hs.seatSpans _ _).updLaunch _ _).updPart _ _
    · exact hs
  · exact hs
  split
  · exact hs.restored _
  · exact hs
  dsimp only
  split
  · split
    · exact hs.contextFault _ _ _ _
    · exact (hs.restoreGroups _ _).getD hs
  split
  · exact hs.contextFault _ _ _ _
  · exact (hs.restoreGroups _ _).getD hs

theorem State.Inv.exec_contextRestore {s : State} (hs : s.Inv) :
    State.OutInv (execContextRestore s) := by
  unfold execContextRestore
  refine State.OptInv.getD (.findSome _ fun part => ?_) hs
  split
  · extract_lets t
    split
    · trivial
    · exact hs.restoreStep _
  · trivial

end Sys2Proof.Machine
end

section
/-! SUPPORT. Power-on, firmware and the host side keep the form. -/

namespace Sys2Proof.Machine
set_option Elab.async false

theorem State.Inv.allStages {s : State} (hs : s.Inv) (st : Stage) :
    (s.allStages st).Inv := hs.keep

theorem State.Inv.stopCompute {s : State} (hs : s.Inv) : s.stopCompute.Inv := ⟨hs.mem, hs.pad, rfl, rfl, hs.rows⟩

theorem State.Inv.enterHold {s : State} (hs : s.Inv) :
    (s.enterHold).Inv := hs.stopCompute.allStages _

theorem State.Inv.exec_powerOnReset {s : State} (hs : s.Inv) : State.OutInv (execPowerOnReset s) := by
  have hm : s.outsideMem.wf = true := Memory.wf_keep _ hs.mem
  exact State.Inv.mk hm rfl rfl rfl rfl

theorem State.Inv.boot {s : State} (hs : s.Inv) :
    (s.boot).Inv := by
  unfold State.boot
  dsimp only
  split
  · exact hs.keep
  · exact hs

theorem State.Inv.exec_selftestDone {s : State} (hs : s.Inv) (die : Nat) (r : SelfTest) :
    State.OutInv (execSelftestDone die r s) := by
  unfold execSelftestDone
  split
  · exact hs
  dsimp only
  split
  · exact hs.keep.keep.enterHold
  split
  · exact hs.keep.keep.enterHold
  · exact (hs.keep.updDie _ _).updDie _ _

theorem State.Inv.makeMgmt {s : State} (hs : s.Inv) :
    (s.makeMgmt).Inv := by
  unfold State.makeMgmt
  dsimp only
  split <;> exact hs.keep

theorem State.Inv.load {s : State} (hs : s.Inv) :
    (s.load).Inv := by
  unfold State.load
  split
  · exact hs
  · exact hs.keep.allStages _

theorem State.Inv.exec_verifyDone {s : State} (hs : s.Inv) :
    State.OutInv (execVerifyDone s) := by
  unfold execVerifyDone
  split
  · exact hs
  dsimp only
  split
  · exact hs.keep.allStages _
  split
  · exact hs.keep.allStages _
  · exact (hs.keep.allStages _).makeMgmt

theorem State.Inv.writeMgmtq {s : State} (hs : s.Inv) (value : W64) :
    (s.writeMgmtq value).Inv := by
  unfold State.writeMgmtq
  split
  · exact hs
  dsimp only
  split
  · exact hs.keep.makeMgmt
  · exact hs.keep

theorem State.Inv.dieFault {s : State} (hs : s.Inv) (d : Nat) :
    (s.dieFault d).Inv := by
  unfold State.dieFault
  split
  · exact hs
  · exact State.Inv.foldl _ (fun _ _ ht => ht.terminateCtx _) _ ((hs.updDie _ _).raise _)

theorem State.Inv.exec_lockstepMismatch {s : State} (hs : s.Inv) (die : Nat) :
    State.OutInv (execLockstepMismatch die s) := by
  unfold execLockstepMismatch
  dsimp only
  split
  · exact hs
  show State.Inv _
  split
  · exact (hs.updDie _ _).dieFault _
  · exact hs.updDie _ _

theorem State.Inv.exec_thermalEvent {s : State} (hs : s.Inv) (die celsius : Nat) :
    State.OutInv (execThermalEvent die celsius s) := by
  unfold execThermalEvent
  dsimp only
  show State.Inv _
  split
  · exact (hs.updDie _ _).dieFault _
  · exact hs.updDie _ _

theorem State.Inv.exec_creelRefreshWindowEnd {s : State} (hs : s.Inv) (die : Nat) :
    State.OutInv (execCreelRefreshWindowEnd die s) := hs

theorem State.Inv.exec_hostLinkUp {s : State} (hs : s.Inv) (l gen width cxl : Nat) :
    State.OutInv (execHostLinkUp l gen width cxl s) := by
  unfold execHostLinkUp
  dsimp only
  split
  · exact hs
  · exact State.Inv.foldl _ (fun _ _ ht => ht.raise _) _ hs.keep

theorem State.Inv.exec_hostLinkDown {s : State} (hs : s.Inv) (l : Nat) :
    State.OutInv (execHostLinkDown l s) := by
  unfold execHostLinkDown
  dsimp only
  split
  · exact hs.keep
  · exact State.Inv.foldl _ (fun _ _ ht => ht.countDrop) _ hs.keep

theorem State.Inv.answerHost {s : State} (hs : s.Inv) (op : Nat) (ok : Bool) (data : List Byte) :
    (s.answerHost op ok data).Inv := by
  unfold State.answerHost
  extract_lets s1
  have h1 : s1.Inv := hs.keep
  split
  · exact h1.serveReq _
  · exact h1

theorem State.Inv.exec_bar2Read {s : State} (hs : s.Inv) (off n : Nat) :
    State.OutInv (execBar2Read off n s) := by
  unfold execBar2Read
  dsimp only
  split
  · exact hs.out _
  split
  · refine State.Inv.out ?_ _
    split
    · exact (hs.serveLines _).countDrop
    · exact hs.serveLines _
  · exact (hs.serveLines _).out _

theorem State.Inv.exec_bar2Write {s : State} (hs : s.Inv) (off : Nat) (bytes : List Byte) :
    State.OutInv (execBar2Write off bytes s) := by
  unfold execBar2Write
  dsimp only
  split
  · exact hs
  · exact (hs.serveLines _).writeEngineAt _ _ _

theorem State.Inv.writePort {s : State} (hs : s.Inv) (p : Nat) (v : W64) :
    (s.writePort p v).Inv := by
  unfold State.writePort
  extract_lets then_ s1 s2 s3
  have hthen : ∀ o t, State.OutInv o → t.Inv → (then_ o t).Inv := by
    intro o t ho ht
    cases o with
    | next t1 => exact ho
    | fault _ => exact ht
    | refused _ => exact ht
  have h1 : s1.Inv := hs.updPort _ _
  have h2 : s2.Inv := hthen _ _ (h1.exec_portIsolate _ _) h1
  have h3 : s3.Inv := by
    unfold s3
    split
    · exact hthen _ _ (h2.exec_portEnable _ _) h2
    · exact h2
  split
  · exact hthen _ _ (h3.exec_retrain _) h3
  · exact h3

theorem State.Inv.writeRange {s : State} (hs : s.Inv) (i : Nat) (second : Bool) (v mask : W64) :
    (s.writeRange i second v mask).Inv := by
  unfold State.writeRange
  split
  · exact hs
  · exact hs.keep

theorem State.Inv.writeMailbox {s : State} (hs : s.Inv) (a : Nat) (v mask : W64) :
    (s.writeMailbox a v mask).Inv := by
  unfold State.writeMailbox
  dsimp only
  split
  · split
    · exact hs.keep
    · exact hs
  · split
    · exact hs.keep
    · exact hs
  · split
    · exact hs.load
    · exact hs
  · exact hs.writeMgmtq _
  · exact hs

theorem State.Inv.writeMsix {s : State} (hs : s.Inv) (off size : Nat) (v : W64) :
    (s.writeMsix off size v).Inv := hs.keep

theorem State.Inv.hostWrite {s : State} (hs : s.Inv) (off size : Nat) (v : W64) :
    (s.hostWrite off size v).Inv := by
  unfold State.hostWrite
  split
  · exact hs
  dsimp only
  split
  · exact hs.writeMailbox _ _ _
  split
  · exact hs
  split
  · split
    · split
      · split
        · next e2 => exact (hs.exec_tailWrite _ _ _).of_next e2
        · exact hs
      · exact hs
    split
    · split
      · next e1 => exact (hs.exec_tailWrite _ _ _).of_next e1
      · exact hs
    · exact hs
  split
  · split
    · split
      · next e1 => exact (hs.exec_resolveWrite _).of_next e1
      · exact hs
    · split
      · split
        · next e2 => exact (hs.exec_consumedWrite _ _).of_next e2
        · exact hs
      · exact hs
    · exact hs
  split
  · exact hs.writeMsix _ _ _
  split
  · split
    · split
      · exact hs.writePort _ _
      · exact hs
    split
    · exact hs.writePort _ _
    · exact hs
  split
  · exact hs.keep
  split
  · exact hs.writeRange _ _ _ _
  · exact hs

theorem State.Inv.spdmAnswer {s : State} (hs : s.Inv) (carrier code : Nat) (legal : Bool) (session : Spdm) (bytes : List Byte) :
    State.OutInv (s.spdmAnswer carrier code legal session bytes) := by
  unfold State.spdmAnswer
  split
  · exact hs
  split
  · exact hs.keep
  · exact hs.out _

theorem State.Inv.spdmSigned {s : State} (hs : s.Inv) (carrier code : Nat) (legal : Bool) (bytes : List Byte) :
    State.OutInv (s.spdmSigned carrier code legal bytes) := hs.spdmAnswer _ _ _ _ _

theorem State.Inv.exec_uncorrectableError {s : State} (hs : s.Inv) (unit : PoisonUnit) :
    State.OutInv (execUncorrectableError unit s) := by
  unfold execUncorrectableError
  split
  · exact hs.poisonLines _
  · exact hs.poisonPad _
  · exact hs.keep

end Sys2Proof.Machine
end

section
/-! SUPPORT. Lane and accumulator words keep the form. -/

namespace Sys2Proof.Machine
set_option Elab.async false

theorem State.Inv.runCmp {s : State} (hs : s.Inv) (f : FmtV) (o : Opd) (ordered : W64 → W64 → Option Ordering) :
    State.OutInv (s.runCmp f o ordered) := by
  unfold State.runCmp
  refine hs.word _ fun _ _ _ ht => ?_
  exact ht.cmpResult _ _ _ _ _ _

theorem State.Inv.exec_icmpImm {s : State} (hs : s.Inv) (f : FmtI) :
    State.OutInv (execIcmpImm f s) := hs.word _ (fun _ _ _ ht => ht.cmpResult _ _ _ _ _ _)

theorem State.Inv.exec_sel {s : State} (hs : s.Inv) (f : FmtV) :
    State.OutInv (execSel f s) := by
  unfold execSel
  refine hs.word _ fun _ _ _ ht => ?_
  dsimp only
  split <;> exact ht.result _ _ _ _ _ _ _ _ (fun _ ht1 => ht1)

theorem State.Inv.exec_fcmpImm {s : State} (hs : s.Inv) (f : FmtI) :
    State.OutInv (execFcmpImm f s) := hs.word _ (fun _ _ _ ht => ht.cmpResult _ _ _ _ _ _)

theorem State.Inv.exec_cvt {s : State} (hs : s.Inv) (f : FmtV) :
    State.OutInv (execCvt f s) := by
  unfold execCvt
  refine hs.word _ fun _ _ _ ht => ?_
  exact ht.result _ _ _ _ _ _ _ _ (fun _ ht1 => ht1)

theorem State.Inv.exec_pack {s : State} (hs : s.Inv) (f : FmtV) :
    State.OutInv (execPack f s) := by
  unfold execPack
  refine hs.word _ fun _ _ _ ht => ?_
  exact ht.result _ _ _ _ _ _ _ _ (fun _ ht1 => ht1)

theorem State.Inv.exec_unpk {s : State} (hs : s.Inv) (f : FmtV) :
    State.OutInv (execUnpk f s) := by
  unfold execUnpk
  refine hs.word _ fun _ _ _ ht => ?_
  exact ht.result _ _ _ _ _ _ _ _ (fun _ ht1 => ht1)

theorem State.Inv.blockResult {s : State} (hs : s.Inv) (u : SUnit) (g : Guard) (d : Nat) (isU : Bool) (x : Nat → W32) (k : State → Res) (hk : ∀ t, t.Inv → (k t).state.Inv) :
    (s.blockResult u g d isU x k).state.Inv := by
  unfold State.blockResult
  dsimp only
  split
  · exact hk _ hs
  · split <;> split <;> exact hs.writeV _ _ _ _ hk

theorem State.Inv.exec_qmx {s : State} (hs : s.Inv) (f : FmtV) :
    State.OutInv (execQmx f s) := by
  unfold execQmx
  refine hs.closingWord _ fun _ _ _ ht => ?_
  split
  · exact ht
  dsimp only
  split
  · exact ht
  · exact ht.blockResult _ _ _ _ _ _ (fun _ ht1 => ht1.updUnit _ _)

theorem State.Inv.exec_dqmx {s : State} (hs : s.Inv) (f : FmtV) :
    State.OutInv (execDqmx f s) := by
  unfold execDqmx
  refine hs.word _ fun _ _ _ ht => ?_
  split
  · exact ht
  · exact ht.blockResult _ _ _ _ _ _ (fun _ ht1 => ht1)

theorem State.Inv.exec_qply {s : State} (hs : s.Inv) (f : FmtV) :
    State.OutInv (execQply f s) := by
  unfold execQply
  refine hs.closingWord _ fun _ _ _ ht => ?_
  split
  · exact ht
  dsimp only
  split
  · exact ht
  · exact ht.blockResult _ _ _ _ _ _ (fun _ ht1 => ht1.updUnit _ _)

theorem State.Inv.exec_dqply {s : State} (hs : s.Inv) (f : FmtV) :
    State.OutInv (execDqply f s) := by
  unfold execDqply
  refine hs.word _ fun _ _ _ ht => ?_
  split
  · exact ht
  · exact ht.blockResult _ _ _ _ _ _ (fun _ ht1 => ht1)

theorem State.Inv.exec_kmov {s : State} (hs : s.Inv) (f : FmtV) :
    State.OutInv (execKmov f s) := by
  unfold execKmov
  dsimp only
  split
  · refine hs.word _ fun _ _ _ ht => ?_
    split
    · exact ht
    split
    · exact ht
    · exact ht.writeV _ _ _ _ (fun _ ht1 => ht1)
  refine hs.closingWord _ fun _ _ _ ht => ?_
  split
  · exact ht
  split
  · exact ht
  · exact ht.updUnit _ _

theorem State.Inv.runLane {s : State} (hs : s.Inv) (f : FmtV) (closes : Bool) (body : State → SUnit → Guard → Res) (hbody : ∀ t b c, t.Inv → (body t b c).state.Inv) :
    State.OutInv (s.runLane f closes body) := by
  unfold State.runLane
  dsimp only
  split
  · refine hs.closingWord _ fun _ _ _ ht => ?_
    split
    · exact ht
    · exact hbody _ _ _ ht
  refine hs.word _ fun _ _ _ ht => ?_
  split
  · exact ht
  · exact hbody _ _ _ ht

theorem State.Inv.permute {s : State} (hs : s.Inv) (f : FmtV) (u : SUnit) (g : Guard) (j : Nat → Int) (valid : Bool) :
    (s.permute f u g j valid).state.Inv := by
  unfold State.permute
  dsimp only
  split
  · exact hs
  split
  · exact hs
  refine hs.writeV _ _ _ _ fun _ ht => ?_
  split
  · exact ht.writeP _ _ _ _ _ (fun _ ht1 => ht1)
  · exact ht

theorem State.Inv.exec_perm {s : State} (hs : s.Inv) (f : FmtV) :
    State.OutInv (execPerm f s) := hs.runLane _ _ _ (fun _ _ _ ht => ht.permute _ _ _ _ _)

theorem State.Inv.exec_shfl {s : State} (hs : s.Inv) (f : FmtV) :
    State.OutInv (execShfl f s) := by
  unfold execShfl
  refine hs.runLane _ _ _ fun _ _ _ ht => ?_
  exact ht.permute _ _ _ _ _

theorem State.Inv.exec_bcast {s : State} (hs : s.Inv) (f : FmtV) :
    State.OutInv (execBcast f s) := by
  unfold execBcast
  refine hs.runLane _ _ _ fun _ _ _ ht => ?_
  exact ht.permute _ _ _ _ _

theorem State.Inv.exec_votea {s : State} (hs : s.Inv) (f : FmtV) :
    State.OutInv (execVotea f s) := hs.runLane _ _ _ (fun _ _ _ ht => ht.writeP _ _ _ _ _ (fun _ ht1 => ht1))

theorem State.Inv.exec_votey {s : State} (hs : s.Inv) (f : FmtV) :
    State.OutInv (execVotey f s) := hs.runLane _ _ _ (fun _ _ _ ht => ht.writeP _ _ _ _ _ (fun _ ht1 => ht1))

theorem State.Inv.exec_ballot {s : State} (hs : s.Inv) (f : FmtV) :
    State.OutInv (execBallot f s) := by
  unfold execBallot
  refine hs.runLane _ _ _ fun _ _ _ ht => ?_
  exact ht.writeV _ _ _ _ (fun _ ht1 => ht1)

theorem State.Inv.exec_scan {s : State} (hs : s.Inv) (f : FmtV) :
    State.OutInv (execScan f s) := by
  unfold execScan
  refine hs.runLane _ _ _ fun _ _ _ ht => ?_
  dsimp only
  split
  · exact ht
  · exact ht.writeV _ _ _ _ (fun _ ht1 => ht1)

theorem State.Inv.exec_redi {s : State} (hs : s.Inv) (f : FmtV) :
    State.OutInv (execRedi f s) := by
  unfold execRedi
  refine hs.runLane _ _ _ fun _ _ _ ht => ?_
  dsimp only
  split
  · exact ht
  · exact ht.writeV _ _ _ _ (fun _ ht1 => ht1)

theorem State.Inv.exec_xadd {s : State} (hs : s.Inv) (f : FmtV) :
    State.OutInv (execXadd f s) := by
  unfold execXadd
  refine hs.runLane _ _ _ fun _ _ _ ht => ?_
  exact ht.updUnit _ _

theorem State.Inv.exec_xrnd {s : State} (hs : s.Inv) (f : FmtV) :
    State.OutInv (execXrnd f s) := by
  unfold execXrnd
  refine hs.runLane _ _ _ fun _ _ _ ht => ?_
  dsimp only
  split
  · exact ht
  · exact ht.writeV _ _ _ _ (fun _ ht1 => ht1)

theorem State.Inv.exec_xclr {s : State} (hs : s.Inv) (f : FmtV) :
    State.OutInv (execXclr f s) := by
  unfold execXclr
  refine hs.runLane _ _ _ fun _ _ _ ht => ?_
  split
  · exact ht
  · exact ht.updUnit _ _

theorem State.Inv.imagePlace {s : State} (hs : s.Inv) (f : FmtV) (u : SUnit) (g : Guard) (k : Nat → Nat → Res) (hk : ∀ a b, (k a b).state.Inv) :
    (s.imagePlace f u g k).state.Inv := by
  unfold State.imagePlace
  dsimp only
  split
  · exact hs
  split
  · exact hs
  split
  · exact hs
  · exact hk _ _

theorem State.Inv.exec_xld {s : State} (hs : s.Inv) (f : FmtV) :
    State.OutInv (execXld f s) := by
  unfold execXld
  refine hs.runLane _ _ _ fun _ _ _ ht => ?_
  split
  · exact ht
  · exact ht.imagePlace _ _ _ _ (fun _ _ => ht.addPend _ _ _ _ _ _)

theorem State.Inv.exec_xst {s : State} (hs : s.Inv) (f : FmtV) :
    State.OutInv (execXst f s) := by
  unfold execXst
  refine hs.runLane _ _ _ fun _ _ _ ht => ?_
  split
  · exact ht
  dsimp only
  split
  · exact ht
  split
  · exact ht
  · exact ht.writePad _ _ _

theorem State.Inv.exec_shape {s : State} (hs : s.Inv) (f : FmtV) :
    State.OutInv (execShape f s) := by
  unfold execShape
  refine hs.runLane _ _ _ fun _ _ _ ht => ?_
  dsimp only
  split
  · exact ht
  · exact ht.writeV _ _ _ _ (fun _ ht1 => ht1)

end Sys2Proof.Machine
end

section
/-! SUPPORT. Every instruction and event keeps the form, and so does the step (O6). -/

namespace Sys2Proof.Machine
set_option Elab.async false

/-- No instruction or event leaves storage out of canonical form. -/
theorem State.Inv.exec {s : State} (hs : s.Inv) (i : Instr) : State.OutInv (exec i s) := by
  cases i with
  | powerOnReset => exact hs.exec_powerOnReset
  | selftestDone _ _ => exact hs.exec_selftestDone _ _
  | loadFw => exact hs.load
  | verifyDone => exact hs.exec_verifyDone
  | mgmtqWrite _ => exact hs.writeMgmtq _
  | powerInputFault => exact hs.keep.enterHold
  | thermalEvent _ _ => exact hs.exec_thermalEvent _ _
  | creelHotModeChange _ _ => exact hs.updDie _ _
  | creelRefreshWindowEnd die => exact hs.exec_creelRefreshWindowEnd die
  | lockstepMismatch _ => exact hs.exec_lockstepMismatch _
  | hostLinkUp _ _ _ _ => exact hs.exec_hostLinkUp _ _ _ _
  | hostLinkDown _ => exact hs.exec_hostLinkDown _
  | hostReadCompletion _ _ _ => exact hs.answerHost _ _ _
  | hostCompletionTimeout _ => exact hs.answerHost _ _ _
  | bar2Read _ _ => exact hs.exec_bar2Read _ _
  | bar2Write _ _ => exact hs.exec_bar2Write _ _
  | registerWrite _ _ _ => exact hs.hostWrite _ _ _
  | tailWrite _ _ _ => exact hs.exec_tailWrite _ _ _
  | resolveWrite _ => exact hs.exec_resolveWrite _
  | consumedWrite _ _ => exact hs.exec_consumedWrite _ _
  | portEnable _ _ => exact hs.exec_portEnable _ _
  | portIsolate _ _ => exact hs.exec_portIsolate _ _
  | retrain _ => exact hs.exec_retrain _
  | portTrainDone _ _ _ _ => exact hs.exec_portTrainDone _ _ _ _
  | portTrainTimeout _ => exact hs.exec_portTrainTimeout _
  | flitReceive _ _ => exact hs.flitIn _ _
  | nakReceive _ _ => exact hs.nak _ _
  | pauseReceive _ _ => exact hs.pauseTx _ _ _
  | resumeReceive _ _ => exact hs.pauseTx _ _ _
  | spdmGetVersion _ => exact hs.spdmAnswer _ _ _ _ _
  | spdmGetCapabilities _ => exact hs.spdmAnswer _ _ _ _ _
  | spdmNegotiate _ => exact hs.spdmAnswer _ _ _ _ _
  | spdmGetDigests _ => exact hs.spdmAnswer _ _ _ _ _
  | spdmGetCertificate _ => exact hs.spdmAnswer _ _ _ _ _
  | spdmChallenge _ _ => exact hs.spdmSigned _ _ _ _
  | spdmGetMeasurements _ _ => exact hs.spdmSigned _ _ _ _
  | mctpStageQuery => exact hs.out _
  | packetFetch _ _ => exact hs.exec_packetFetch _ _
  | slotRereadTimer _ _ _ => exact hs.exec_slotRereadTimer _ _ _
  | boardScan _ _ => exact hs.exec_boardScan _ _
  | nopPacket => exact hs.exec_nopPacket
  | launchPacket => exact hs.exec_launchPacket
  | copyPacket => exact hs.exec_copyPacket
  | barrierPacket => exact hs.exec_barrierPacket
  | signalPacket => exact hs.exec_signalPacket
  | creelBegin => exact hs.exec_creelBegin
  | creelSeal => exact hs.exec_creelSeal
  | markerPacket => exact hs.exec_markerPacket
  | contextCreate => exact hs.exec_contextCreate
  | contextPaging => exact hs.exec_contextPaging
  | contextQueue => exact hs.exec_contextQueue
  | contextUnqueue => exact hs.exec_contextUnqueue
  | contextInval => exact hs.exec_contextInval
  | contextSuspend => exact hs.exec_contextSuspend
  | contextResume => exact hs.exec_contextResume
  | contextTerminate => exact hs.exec_contextTerminate
  | contextResize => exact hs.exec_contextResize
  | resizeMapChange => exact hs.exec_resizeMapChange
  | signalWatchNotify _ _ _ => exact hs.watchEval _ _ _
  | signalWatchReread _ _ _ => exact hs.watchEval _ _ _
  | packetComplete _ _ _ => exact hs.exec_packetComplete _ _ _
  | rootSpanPlace _ => exact hs.exec_rootSpanPlace _
  | groupPlace _ => exact hs.exec_groupPlace _
  | deviceQueuePop _ _ => exact hs.exec_deviceQueuePop _ _
  | devqSlotReread _ _ => exact hs.exec_devqSlotReread _ _
  | clauseFetch _ => exact hs.exec_clauseFetch _
  | longLatencyResult _ => exact hs.exec_longLatencyResult _
  | groupRetire _ _ => exact hs.exec_groupRetire _ _
  | launchAbortDone => exact hs.exec_launchAbortDone
  | barcContinuationStart => exact hs.exec_barcContinuationStart
  | yieldExpire _ => exact hs.updUnit _ _
  | watchdog _ => exact hs.exec_watchdog _
  | contextSaveComplete => exact hs.exec_contextSaveComplete
  | contextRestore => exact hs.exec_contextRestore
  | migRewalkTimer _ => exact hs.rewalkUnasked _
  | invalidationComplete => exact hs.exec_invalidationComplete
  | l1Eviction _ _ => exact hs.evictLine _ _
  | uncorrectableError _ => exact hs.exec_uncorrectableError _
  | atomicEngineServe _ => exact hs.exec_atomicEngineServe _
  | copyPerform _ _ => exact hs.exec_copyPerform _ _
  | copyEnd _ => exact hs.exec_copyEnd _
  | hankOperationPerform _ => exact hs.exec_hankOperationPerform _
  | hankMoveInsert => exact hs.exec_hankMoveInsert
  | hankRankComplete => exact hs.exec_hankRankComplete
  | hankThawComplete => exact hs.exec_hankThawComplete
  | beamQueryStart _ => exact hs.exec_beamQueryStart _
  | beamQueryDone _ _ => exact hs.exec_beamQueryDone _ _
  | collJobEnd => exact hs.exec_collJobEnd
  | mmaSequencerPerform _ => exact hs.exec_mmaSequencerPerform _
  | mmaAssistComplete _ => exact hs.exec_mmaAssistComplete _
  | nop f => exact hs.exec_nop f
  | bra _ => exact hs.exec_bra _
  | brp _ => exact hs.exec_brp _
  | join _ => exact hs.exec_join _
  | call _ => exact hs.exec_call _
  | calli _ => exact hs.exec_calli _
  | ret f => exact hs.exec_ret f
  | jmpi _ => exact hs.exec_jmpi _
  | exit _ => exact hs.exec_exit _
  | region _ => exact hs.exec_region _
  | yield _ => exact hs.exec_yield _
  | trap _ => exact hs.exec_trap _
  | brk _ => exact hs.exec_brk _
  | spawn _ => exact hs.exec_spawn _
  | deal f => exact hs.exec_deal f
  | rdsr _ => exact hs.exec_rdsr _
  | wrsr _ => exact hs.exec_wrsr _
  | fmode _ => exact hs.exec_fmode _
  | iadd _ => exact hs.runV _ _ _ _ _ _ _ _
  | iaddImm _ => exact hs.runI _ _ _ _ _ _ _
  | isub _ => exact hs.runV _ _ _ _ _ _ _ _
  | isubImm _ => exact hs.runI _ _ _ _ _ _ _
  | imul _ => exact hs.runV _ _ _ _ _ _ _ _
  | imulImm _ => exact hs.runI _ _ _ _ _ _ _
  | imulh _ => exact hs.runV _ _ _ _ _ _ _ _
  | imad _ => exact hs.runV _ _ _ _ _ _ _ _
  | imin _ => exact hs.runV _ _ _ _ _ _ _ _
  | iminImm _ => exact hs.runI _ _ _ _ _ _ _
  | imax _ => exact hs.runV _ _ _ _ _ _ _ _
  | imaxImm _ => exact hs.runI _ _ _ _ _ _ _
  | iabs _ => exact hs.runV _ _ _ _ _ _ _ _
  | ineg _ => exact hs.runV _ _ _ _ _ _ _ _
  | land _ => exact hs.runV _ _ _ _ _ _ _ _
  | landImm _ => exact hs.runI _ _ _ _ _ _ _
  | lor _ => exact hs.runV _ _ _ _ _ _ _ _
  | lorImm _ => exact hs.runI _ _ _ _ _ _ _
  | lxor _ => exact hs.runV _ _ _ _ _ _ _ _
  | lxorImm _ => exact hs.runI _ _ _ _ _ _ _
  | lnot _ => exact hs.runV _ _ _ _ _ _ _ _
  | landn _ => exact hs.runV _ _ _ _ _ _ _ _
  | landnImm _ => exact hs.runI _ _ _ _ _ _ _
  | shl _ => exact hs.runV _ _ _ _ _ _ _ _
  | shlImm _ => exact hs.runI _ _ _ _ _ _ _
  | shr _ => exact hs.runV _ _ _ _ _ _ _ _
  | shrImm _ => exact hs.runI _ _ _ _ _ _ _
  | sar _ => exact hs.runV _ _ _ _ _ _ _ _
  | sarImm _ => exact hs.runI _ _ _ _ _ _ _
  | rol _ => exact hs.runV _ _ _ _ _ _ _ _
  | rolImm _ => exact hs.runI _ _ _ _ _ _ _
  | ror _ => exact hs.runV _ _ _ _ _ _ _ _
  | rorImm _ => exact hs.runI _ _ _ _ _ _ _
  | popc _ => exact hs.runV _ _ _ _ _ _ _ _
  | clz _ => exact hs.runV _ _ _ _ _ _ _ _
  | ctz _ => exact hs.runV _ _ _ _ _ _ _ _
  | brev _ => exact hs.runV _ _ _ _ _ _ _ _
  | bfx _ => exact hs.runV _ _ _ _ _ _ _ _
  | bfi _ => exact hs.runV _ _ _ _ _ _ _ _
  | icmp _ => exact hs.runCmp _ _ _
  | icmpImm _ => exact hs.exec_icmpImm _
  | sel _ => exact hs.exec_sel _
  | mov _ => exact hs.runV _ _ _ _ _ _ _ _
  | movi _ => exact hs.runI _ _ _ _ _ _ _
  | lea _ => exact hs.runV _ _ _ _ _ _ _ _
  | leaImm _ => exact hs.runI _ _ _ _ _ _ _
  | iaddw _ => exact hs.runV _ _ _ _ _ _ _ _
  | iaddwImm _ => exact hs.runI _ _ _ _ _ _ _
  | isubw _ => exact hs.runV _ _ _ _ _ _ _ _
  | icmpw _ => exact hs.runCmp _ _ _
  | mort _ => exact hs.runV _ _ _ _ _ _ _ _
  | unmort _ => exact hs.runV _ _ _ _ _ _ _ _
  | prmt _ => exact hs.runV _ _ _ _ _ _ _ _
  | fadd _ => exact hs.runV _ _ _ _ _ _ _ _
  | faddImm _ => exact hs.runI _ _ _ _ _ _ _
  | fsub _ => exact hs.runV _ _ _ _ _ _ _ _
  | fmul _ => exact hs.runV _ _ _ _ _ _ _ _
  | fmulImm _ => exact hs.runI _ _ _ _ _ _ _
  | ffma _ => exact hs.runV _ _ _ _ _ _ _ _
  | ffmaImm _ => exact hs.runI _ _ _ _ _ _ _
  | fmin _ => exact hs.runV _ _ _ _ _ _ _ _
  | fmax _ => exact hs.runV _ _ _ _ _ _ _ _
  | fcmp _ => exact hs.runCmp _ _ _
  | fcmpImm _ => exact hs.exec_fcmpImm _
  | fclass _ => exact hs.runV _ _ _ _ _ _ _ _
  | frnd _ => exact hs.runV _ _ _ _ _ _ _ _
  | fdot2 _ => exact hs.runV _ _ _ _ _ _ _ _
  | fscale _ => exact hs.runV _ _ _ _ _ _ _ _
  | rcp _ => exact hs.runV _ _ _ _ _ _ _ _
  | rsq _ => exact hs.runV _ _ _ _ _ _ _ _
  | sqrt _ => exact hs.runV _ _ _ _ _ _ _ _
  | exp2 _ => exact hs.runV _ _ _ _ _ _ _ _
  | log2 _ => exact hs.runV _ _ _ _ _ _ _ _
  | sin _ => exact hs.runV _ _ _ _ _ _ _ _
  | cos _ => exact hs.runV _ _ _ _ _ _ _ _
  | tanh _ => exact hs.runV _ _ _ _ _ _ _ _
  | fdiv _ => exact hs.runV _ _ _ _ _ _ _ _
  | idiv _ => exact hs.runV _ _ _ _ _ _ _ _
  | irem _ => exact hs.runV _ _ _ _ _ _ _ _
  | cvt _ => exact hs.exec_cvt _
  | pack _ => exact hs.exec_pack _
  | unpk _ => exact hs.exec_unpk _
  | qmx _ => exact hs.exec_qmx _
  | dqmx _ => exact hs.exec_dqmx _
  | qply _ => exact hs.exec_qply _
  | dqply _ => exact hs.exec_dqply _
  | kmov _ => exact hs.exec_kmov _
  | perm _ => exact hs.exec_perm _
  | shfl _ => exact hs.exec_shfl _
  | bcast _ => exact hs.exec_bcast _
  | votea _ => exact hs.exec_votea _
  | votey _ => exact hs.exec_votey _
  | ballot _ => exact hs.exec_ballot _
  | scan _ => exact hs.exec_scan _
  | redi _ => exact hs.exec_redi _
  | xadd _ => exact hs.exec_xadd _
  | xrnd _ => exact hs.exec_xrnd _
  | xclr _ => exact hs.exec_xclr _
  | xld _ => exact hs.exec_xld _
  | xst _ => exact hs.exec_xst _
  | shape _ => exact hs.exec_shape _
  | ld _ => exact hs.exec_ld _
  | st _ => exact hs.exec_st _
  | lds _ => exact hs.exec_lds _
  | sts _ => exact hs.exec_sts _
  | phase _ => exact hs.exec_phase _
  | xfence _ => exact hs.exec_xfence _
  | pref _ => exact hs.exec_pref _
  | atomAdd _ => exact hs.runAtom _ _
  | atomSub _ => exact hs.runAtom _ _
  | atomMin _ => exact hs.runAtom _ _
  | atomMax _ => exact hs.runAtom _ _
  | atomAnd _ => exact hs.runAtom _ _
  | atomOr _ => exact hs.runAtom _ _
  | atomXor _ => exact hs.runAtom _ _
  | atomXchg _ => exact hs.runAtom _ _
  | atomCas _ => exact hs.runAtom _ _
  | atomInc _ => exact hs.runAtom _ _
  | atomFadd _ => exact hs.runAtom _ _
  | atomFadd2 _ => exact hs.runAtom _ _
  | atomXam _ => exact hs.runAtom _ _
  | atomLd _ => exact hs.runAtom _ _
  | atomsAdd _ => exact hs.runAtoms _ _
  | atomsSub _ => exact hs.runAtoms _ _
  | atomsMin _ => exact hs.runAtoms _ _
  | atomsMax _ => exact hs.runAtoms _ _
  | atomsAnd _ => exact hs.runAtoms _ _
  | atomsOr _ => exact hs.runAtoms _ _
  | atomsXor _ => exact hs.runAtoms _ _
  | atomsXchg _ => exact hs.runAtoms _ _
  | atomsCas _ => exact hs.runAtoms _ _
  | atomsInc _ => exact hs.runAtoms _ _
  | atomsFadd _ => exact hs.runAtoms _ _
  | atomsFadd2 _ => exact hs.runAtoms _ _
  | atomsXam _ => exact hs.runAtoms _ _
  | atomsLd _ => exact hs.runAtoms _ _
  | acp _ => exact hs.exec_acp _
  | aseal _ => exact hs.exec_aseal _
  | await _ => exact hs.exec_await _
  | bcp _ => exact hs.runCards _ _
  | bxf _ => exact hs.runCards _ _
  | qfen _ => exact hs.exec_qfen _
  | coll _ => exact hs.exec_coll _
  | astat _ => exact hs.exec_astat _
  | bari _ => exact hs.exec_bari _
  | bara _ => exact hs.exec_bara _
  | barw _ => exact hs.exec_barw _
  | barx _ => exact hs.exec_barx _
  | barc _ => exact hs.exec_barc _
  | waita _ => exact hs.exec_waita _
  | pipw _ => exact hs.exec_pipw _
  | barq _ => exact hs.exec_barq _
  | mma _ => exact hs.exec_mma _
  | mzero _ => exact hs.exec_mzero _
  | mdrain _ => exact hs.exec_mdrain _
  | mload _ => exact hs.exec_mload _
  | hkins _ => exact hs.runMutation _ _
  | hkdel _ => exact hs.runMutation _ _
  | hkmove _ => exact hs.runMutation _ _
  | hkupd _ => exact hs.runMutation _ _
  | hkopen _ => exact hs.exec_hkopen _
  | hknext _ => exact hs.exec_hknext _
  | hkclose _ => exact hs.exec_hkclose _
  | hkcount _ => exact hs.exec_hkcount _
  | hkfind _ => exact hs.exec_hkfind _
  | hknbr _ => exact hs.exec_hknbr _
  | hkrank _ => exact hs.exec_hkrank _
  | hkrankThaw _ => exact hs.exec_hkrankThaw _
  | hkstat _ => exact hs.exec_hkstat _
  | bqry _ => exact hs.exec_bqry _
  | bpop _ => exact hs.exec_bpop _
  | bstat _ => exact hs.runBstat _ _
  | bstatRelease _ => exact hs.runBstat _ _

/-! What the module does next of itself. -/

theorem State.Inv.tick {s : State} (hs : s.Inv) : s.tick.Inv := hs.keep

theorem State.Inv.firstChange {s : State} (hs : s.Inv) (is : List Instr) : State.OptInv (s.firstChange is) := by
  induction is with
  | nil => trivial
  | cons i is ih =>
    rw [State.firstChange]
    split
    · next t e =>
      split
      · exact ih
      · exact (hs.exec i).of_next e
    · exact ih

theorem State.Inv.idle {s : State} (hs : s.Inv) : s.idle.Inv := by
  unfold State.idle
  split
  · exact hs.boot
  · exact (hs.firstChange _).getD hs

theorem State.Inv.turn {s : State} (hs : s.Inv) : s.turn.Inv := by
  unfold State.turn
  extract_lets goes
  split
  · exact hs
  · split
    · exact hs
    · split
      · exact hs
      · exact hs.keep.updUnit _ _

theorem State.Inv.runHead {s : State} (hs : s.Inv) : State.OutInv s.runHead := by
  unfold State.runHead
  split
  · exact hs.exec _
  · exact hs.trapHead _ _
  · exact hs.idle

theorem State.Inv.runNext {s : State} (hs : s.Inv) : State.OutInv s.runNext := by
  unfold State.runNext
  split
  · exact State.Inv.exec hs.keep _
  · exact hs.turn.runHead

/-- Settles O6: the counters leave storage alone, and whatever runs next keeps its canonical form. -/
theorem stepKeepsStorageForm : Obligations.StepKeepsStorageForm := by
  unfold Obligations.StepKeepsStorageForm
  intro s t hs e
  exact hs.tick.runNext.of_next e

end Sys2Proof.Machine
end

section
/-! SUPPORT. The reset state (O5). -/

namespace Sys2Proof.Machine

/-- Settles O5: the reset state is a closed term, so each part of it is read off. -/
theorem resetState : Obligations.ResetState := by
  unfold Obligations.ResetState
  refine ⟨⟨rfl, by decide, rfl, rfl, rfl, rfl, by decide, rfl, rfl, rfl, rfl, rfl, rfl, rfl, rfl⟩, ⟨rfl, rfl, rfl, rfl, rfl⟩, ?_⟩
  intro u hu
  cases hu

end Sys2Proof.Machine
end

section
/-! SUPPORT. Boot stages (O55): the stage a change of every die leads to, what HOLD clears, and what each event of the bring-up leaves. -/

namespace Sys2Proof.Machine

set_option Elab.async false

theorem Kv.keep_cons {α : Type} (p : Nat → Bool) (i : Nat) (x : α) (m : Kv α) :
    Kv.keep p ((i, x) :: m) = if p i then (i, x) :: Kv.keep p m else Kv.keep p m := List.filter_cons

/-- What a filter of a table leaves at a key. -/
theorem Kv.get_keep {α : Type} [DecidableEq α] {dflt : α} (p : Nat → Bool) {m : Kv α} {lo : Nat} (h : Kv.wfFrom dflt lo m = true) (k : Nat) :
    Kv.get dflt (Kv.keep p m) k = if p k then Kv.get dflt m k else dflt := by
  induction m generalizing lo with
  | nil => simp [Kv.keep]
  | cons e rest ih =>
    obtain ⟨i, x⟩ := e
    simp only [Kv.wfFrom, Bool.and_eq_true, decide_eq_true_eq] at h
    have ih := ih h.2
    have hget : ∀ m : Kv α, Kv.get dflt ((i, x) :: m) k = if k = i then x else if k < i then dflt else Kv.get dflt m k := fun _ => rfl
    have hbelow : k < i + 1 → Kv.get dflt rest k = dflt := Kv.get_below h.2
    rw [Kv.keep_cons, hget]
    by_cases hki : k = i
    · subst hki
      split
      · rw [hget, if_pos rfl, if_pos rfl]
      · next hp => rw [ih, if_neg hp]
    · rw [if_neg hki]
      split
      · rw [hget, if_neg hki, ih]
        split_ifs <;> rfl
      · rw [ih]
        split_ifs with hp hlt
        · exact hbelow (by omega)
        · rfl
        · rfl

theorem minOf_map_const {α : Type} (n : Nat) {l : List α} (h : l ≠ []) : minOf (l.map fun _ => n) = some n := by
  induction l with
  | nil => exact absurd rfl h
  | cons a l ih =>
    rw [List.map_cons, minOf]
    cases l with
    | nil => rfl
    | cons b l => rw [ih (List.cons_ne_nil b l)]; simp

/-- When every die has entered a stage, the module's stage is that one. -/
theorem State.stageCode_of_all {s : State} {st : Stage} (hne : s.dies ≠ []) (h : ∀ d ∈ s.dies, d.stage = st) : s.stageCode = st.code := by
  have hmap : s.dies.map (fun d => d.stage.code) = s.dies.map fun _ => st.code := List.map_congr_left fun d hd => by rw [h d hd]
  unfold State.stageCode
  split
  · next hold =>
    obtain ⟨d, hd, hs⟩ := List.any_eq_true.1 hold
    rw [h d hd] at hs
    rw [eq_of_beq hs]; rfl
  · rw [hmap, minOf_map_const _ hne]; rfl

theorem State.stageCode_allStages {s : State} (hne : s.dies ≠ []) (st : Stage) : (s.allStages st).stageCode = st.code := by
  refine State.stageCode_of_all ?_ fun d hd => ?_
  · simpa [State.allStages] using hne
  · obtain ⟨x, _, rfl⟩ := List.mem_map.1 hd
    rfl

/-- A module without dies is in no stage but the first. -/
theorem State.dies_ne_nil_of_stageCode {s : State} (h : s.stageCode ≠ 0) : s.dies ≠ [] := by
  rintro hnil
  exact h (by simp [State.stageCode, hnil, minOf])

theorem State.enterHold_dies (s : State) : s.enterHold.dies = s.dies.map fun d => { d with stage := .hold } := rfl

theorem State.stageCode_enterHold {s : State} (hne : s.dies ≠ []) : s.enterHold.stageCode = 2 :=
  State.stageCode_allStages (s := s.stopCompute) hne .hold

theorem State.die_updDie_same {s : State} {d : Nat} (h : d < s.dies.length) (f : Die → Die) : (s.updDie d f).die d = f (s.die d) := by
  simp [State.die, setAt, h]

theorem State.die_updDie_ne (s : State) {d k : Nat} (h : k ≠ d) (f : Die → Die) : (s.updDie d f).die k = s.die k := by
  simp [State.die, setAt, List.getElem?_set_ne (Ne.symm h)]

/-! Self-test (R245). -/

/-- The rows that the capacity table lists once a die has reported its own (R214). -/
def State.rowsAfter (s : State) (d : Nat) (r : SelfTest) : List Nat :=
  (List.range 256).map (fun c => if c / 64 = d then min 2048 (r.rows.getD (c % 64) 2048) else s.coreRows.getD c 2048)

theorem State.rowsAfter_own (s : State) {d i : Nat} (hd : d < 4) (hi : i < 64) (r : SelfTest) :
    (s.rowsAfter d r).getD (64 * d + i) 0 = min 2048 (r.rows.getD i 2048) := by
  have hlt : 64 * d + i < 256 := by omega
  have hdiv : (64 * d + i) / 64 = d := by omega
  have hmod : (64 * d + i) % 64 = i := by omega
  simp [State.rowsAfter, hlt, hdiv, hmod]

/-- The module once a die has reported its rows and repairs. -/
def State.reported (s : State) (d : Nat) (r : SelfTest) : State :=
  { s with coreRows := s.rowsAfter d r, mailbox := { s.mailbox with repairs := s.mailbox.repairs + BitVec.ofNat 32 r.repairs.length } }.updDie d
    (fun x => { x with repairs := r.repairs })

theorem State.die_reported {s : State} {d : Nat} (h : d < s.dies.length) (r : SelfTest) :
    (s.reported d r).die d = { s.die d with repairs := r.repairs } := by
  unfold State.reported
  rw [State.die_updDie_same (by exact h)]
  rfl

/-- HOLD after a self-test, with what failed in the mailbox. -/
def State.selftestHold (s : State) (d : Nat) (r : SelfTest) (test : BitVec 8) (unit : BitVec 16) : State :=
  { s.reported d r with mailbox := { (s.reported d r).mailbox with test := test, die := BitVec.ofNat 2 d, unit := unit } }.enterHold

theorem exec_selftestDone {s : State} {d : Nat} (h : (s.die d).stage = .selftest) (r : SelfTest) :
    exec (.selftestDone d r) s = if !r.pass then .next (s.selftestHold d r r.test r.unit)
      else match shortRows r.rows with
        | some i => .next (s.selftestHold d r 4 (BitVec.ofNat 16 i))
        | none => .next ((s.reported d r).updDie d (fun x => { x with stage := .waitfw })) := by
  show execSelftestDone d r s = _
  unfold execSelftestDone
  rw [if_neg (by simp [h])]
  rfl

theorem State.selftestHold_stageCode {s : State} (hlen : s.dies.length = 4) (d : Nat) (r : SelfTest) (test : BitVec 8) (unit : BitVec 16) :
    (s.selftestHold d r test unit).stageCode = 2 := by
  refine State.stageCode_enterHold ?_
  rw [← List.length_pos_iff]
  simp [State.reported, setAt, hlen]

theorem shortRows_eq_none {rows : List Nat} (h : ∀ i, i < 64 → 1792 ≤ rows.getD i 2048) : shortRows rows = none := by
  refine List.find?_eq_none.2 fun i hi => ?_
  have := h i (List.mem_range.1 hi)
  simpa using this

theorem shortRows_eq_some {rows : List Nat} {i : Nat} (hi : i < 64) (hshort : rows.getD i 2048 < 1792)
    (hleast : ∀ j, j < i → 1792 ≤ rows.getD j 2048) : shortRows rows = some i := by
  refine List.find?_range_eq_some.2 ⟨by simpa using hshort, List.mem_range.2 hi, fun j hj => ?_⟩
  have := hleast j hj
  simpa using this

/-- A passed self-test with enough rows on every core: WAITFW, with the rows and repairs it found. -/
theorem selftest_passes {s : State} {d : Nat} {r : SelfTest} (hd : d < 4) (hlen : s.dies.length = 4) (hst : (s.die d).stage = .selftest)
    (hpass : r.pass = true) (hrows : ∀ i, i < 64 → 1792 ≤ r.rows.getD i 2048) :
    ∃ t, exec (.selftestDone d r) s = .next t ∧ (t.die d).stage = .waitfw ∧ (∀ k, k ≠ d → t.die k = s.die k)
      ∧ t.mailbox.repairs = s.mailbox.repairs + BitVec.ofNat 32 r.repairs.length ∧ (t.die d).repairs = r.repairs
      ∧ (∀ i, i < 64 → t.coreRows.getD (64 * d + i) 0 = min 2048 (r.rows.getD i 2048)) ∧ t.mem = s.mem := by
  have hd0 : d < s.dies.length := by omega
  have hd1 : d < (s.reported d r).dies.length := by simp [State.reported, setAt, hlen, hd]
  have hdie : ((s.reported d r).updDie d (fun x => { x with stage := .waitfw })).die d = { s.die d with repairs := r.repairs, stage := .waitfw } := by
    rw [State.die_updDie_same hd1, State.die_reported hd0]
  refine ⟨(s.reported d r).updDie d (fun x => { x with stage := .waitfw }), ?_, ?_, fun k hk => ?_, rfl, ?_, fun i hi => ?_, rfl⟩
  · rw [exec_selftestDone hst, hpass, shortRows_eq_none hrows]; rfl
  · rw [hdie]
  · rw [State.die_updDie_ne _ hk, State.reported, State.die_updDie_ne _ hk]; rfl
  · rw [hdie]
  · exact s.rowsAfter_own hd hi r

/-- A failed self-test: HOLD with what it found. -/
theorem selftest_fails {s : State} {d : Nat} {r : SelfTest} (hlen : s.dies.length = 4) (hst : (s.die d).stage = .selftest) (hpass : r.pass = false) :
    ∃ t, exec (.selftestDone d r) s = .next t ∧ t.stageCode = 2 ∧ t.mailbox.test = r.test ∧ t.mailbox.unit = r.unit
      ∧ t.mailbox.die = BitVec.ofNat 2 d ∧ t.units = [] ∧ t.hqs = [] := by
  refine ⟨s.selftestHold d r r.test r.unit, ?_, State.selftestHold_stageCode hlen .., rfl, rfl, rfl, rfl, rfl⟩
  rw [exec_selftestDone hst, hpass]; rfl

/-- A core short of rows: HOLD with TEST 4 and the core. -/
theorem selftest_short {s : State} {d i : Nat} {r : SelfTest} (hlen : s.dies.length = 4) (hst : (s.die d).stage = .selftest) (hpass : r.pass = true)
    (hi : i < 64) (hshort : r.rows.getD i 2048 < 1792) (hleast : ∀ j, j < i → 1792 ≤ r.rows.getD j 2048) :
    ∃ t, exec (.selftestDone d r) s = .next t ∧ t.stageCode = 2 ∧ t.mailbox.test = 4 ∧ t.mailbox.unit = BitVec.ofNat 16 i
      ∧ t.mailbox.die = BitVec.ofNat 2 d := by
  refine ⟨s.selftestHold d r 4 (BitVec.ofNat 16 i), ?_, State.selftestHold_stageCode hlen .., rfl, rfl, rfl⟩
  rw [exec_selftestDone hst, hpass, shortRows_eq_some hi hshort hleast]; rfl

/-! Firmware (R247, R248, R209). -/

theorem exec_loadFw_waitfw {s : State} (h3 : s.stageCode = 3) (hlo : 115 ≤ s.mailbox.fwlen.toNat) (hhi : s.mailbox.fwlen.toNat ≤ 0x0400_0000) :
    exec .loadFw s = .next (({ s with fwImage := s.bytesAt (.pair 0) s.mailbox.fwaddr.toNat s.mailbox.fwlen.toNat } : State).allStages .verify) := by
  show Host.Outcome.next s.load = _
  unfold State.load
  rw [if_neg (by simp [h3])]
  exact congrArg (fun image : List Byte => Host.Outcome.next (State.allStages { s with fwImage := image } .verify)) (if_pos ⟨hlo, hhi⟩)

theorem load_starts_verify {s : State} (h3 : s.stageCode = 3) (hlo : 115 ≤ s.mailbox.fwlen.toNat) (hhi : s.mailbox.fwlen.toNat ≤ 0x0400_0000) :
    ∃ t, exec .loadFw s = .next t ∧ t.stageCode = 4 ∧ t.fwImage = s.bytesAt (.pair 0) s.mailbox.fwaddr.toNat s.mailbox.fwlen.toNat ∧ t.mem = s.mem :=
  ⟨_, exec_loadFw_waitfw h3 hlo hhi, State.stageCode_allStages (State.dies_ne_nil_of_stageCode (s := s) (by omega)) .verify, rfl, rfl⟩

/-- The way back to WAITFW, with why. -/
def State.verifyBack (s : State) (st : BitVec 3) : State := { s with mailbox := { s.mailbox with fwstatus := st } }.allStages .waitfw

/-- The module that runs its image, before the management queue. -/
def State.verified (s : State) : State := { s with ctxs := [ctxZero], mailbox := { s.mailbox with fwstatus := 1 } }.allStages .running

theorem exec_verifyDone {s : State} (h4 : s.stageCode = 4) :
    exec .verifyDone s = if s.mailbox.fwlen.toNat < 115 ∨ 0x0400_0000 < s.mailbox.fwlen.toNat then .next (s.verifyBack 3)
      else if !imageSigned s.fwImage then .next (s.verifyBack 2) else .next s.verified.makeMgmt := by
  show execVerifyDone s = _
  unfold execVerifyDone
  rw [if_neg (by simp [h4])]
  rfl

theorem State.verifyBack_stageCode {s : State} (h4 : s.stageCode = 4) (st : BitVec 3) : (s.verifyBack st).stageCode = 3 :=
  State.stageCode_allStages (State.dies_ne_nil_of_stageCode (s := s) (by omega)) .waitfw

theorem State.verified_stageCode {s : State} (h4 : s.stageCode = 4) : s.verified.stageCode = 5 :=
  State.stageCode_allStages (State.dies_ne_nil_of_stageCode (s := s) (by omega)) .running

/-- Making the management queue adds it or leaves the queues, with FWSTATUS accordingly. -/
theorem State.makeMgmt_cases (s : State) :
    (∃ q : HostQueue, q.ctx = 0 ∧ q.idx = 0 ∧ s.mailbox.mgmtq ≠ 0 ∧ s.makeMgmt = { s with hqs := s.hqs ++ [q], mailbox := { s.mailbox with fwstatus := 1 } })
    ∨ s.makeMgmt = { s with mailbox := { s.mailbox with fwstatus := 4 } } := by
  unfold State.makeMgmt
  extract_lets at_ rs bs n good
  split
  · next hgood =>
    refine .inl ⟨newHostQueue 0 0 (BitVec.ofNat 64 at_) bs true, rfl, rfl, ?_, rfl⟩
    rintro h0
    have hat : at_ = 0 := by simp [at_, h0]
    simp [good, hat] at hgood
  · exact .inr rfl

theorem State.makeMgmt_keeps (s : State) : s.makeMgmt.dies = s.dies ∧ s.makeMgmt.ctxs = s.ctxs ∧ s.makeMgmt.mailbox.mgmtq = s.mailbox.mgmtq := by
  rcases s.makeMgmt_cases with ⟨q, _, _, _, h⟩ | h <;> rw [h] <;> exact ⟨rfl, rfl, rfl⟩

theorem State.stageCode_congr {s t : State} (h : t.dies = s.dies) : t.stageCode = s.stageCode := by unfold State.stageCode; rw [h]

theorem verify_rejects_length {s : State} (h4 : s.stageCode = 4) (hlen : s.mailbox.fwlen.toNat < 115 ∨ 0x0400_0000 < s.mailbox.fwlen.toNat) :
    ∃ t, exec .verifyDone s = .next t ∧ t.stageCode = 3 ∧ t.mailbox.fwstatus = 3 := by
  refine ⟨s.verifyBack 3, ?_, State.verifyBack_stageCode h4 3, rfl⟩
  rw [exec_verifyDone h4, if_pos hlen]

theorem verify_checks_signature {s : State} (h4 : s.stageCode = 4) (hlo : 115 ≤ s.mailbox.fwlen.toNat) (hhi : s.mailbox.fwlen.toNat ≤ 0x0400_0000) :
    ∃ t, exec .verifyDone s = .next t ∧ (imageSigned s.fwImage = false → t.stageCode = 3 ∧ t.mailbox.fwstatus = 2)
      ∧ (imageSigned s.fwImage = true → t.stageCode = 5 ∧ (∃ x, t.ctxs = [x] ∧ x.num = 0 ∧ x.state = .running)
        ∧ (s.mailbox.mgmtq = 0 → t.mailbox.fwstatus = 4 ∧ t.hqs = s.hqs)) := by
  have hlen : ¬(s.mailbox.fwlen.toNat < 115 ∨ 0x0400_0000 < s.mailbox.fwlen.toNat) := by omega
  rw [exec_verifyDone h4, if_neg hlen]
  cases hsig : imageSigned s.fwImage with
  | false => exact ⟨s.verifyBack 2, rfl, fun _ => ⟨State.verifyBack_stageCode h4 2, rfl⟩, fun h => (by cases h)⟩
  | true =>
    obtain ⟨hdies, hctxs, _⟩ := s.verified.makeMgmt_keeps
    refine ⟨s.verified.makeMgmt, rfl, fun h => (by cases h), fun _ => ⟨?_, ⟨ctxZero, hctxs, rfl, rfl⟩, fun h0 => ?_⟩⟩
    · rw [State.stageCode_congr hdies, State.verified_stageCode h4]
    · rcases s.verified.makeMgmt_cases with ⟨q, _, _, hne, _⟩ | h
      · exact absurd h0 hne
      · rw [h]; exact ⟨rfl, rfl⟩

theorem mgmtqWrite_early {s : State} (v : W64) (hq : s.hq? 0 0 = none) (h5 : s.stageCode ≠ 5) :
    ∃ t, exec (.mgmtqWrite v) s = .next t ∧ t.mailbox.mgmtq = v &&& 0x000F_FFFF_FFFF_FFC0 ∧ t.hqs = s.hqs := by
  refine ⟨{ s with mailbox := { s.mailbox with mgmtq := v &&& 0x000F_FFFF_FFFF_FFC0 } }, ?_, rfl, rfl⟩
  show Host.Outcome.next (s.writeMgmtq v) = _
  unfold State.writeMgmtq
  rw [if_neg (by simp [hq])]
  exact congrArg _ (if_neg h5)

theorem mgmtqWrite_running {s : State} (v : W64) (hq : s.hq? 0 0 = none) (h5 : s.stageCode = 5) :
    ∃ t, exec (.mgmtqWrite v) s = .next t ∧ t.mailbox.mgmtq = v &&& 0x000F_FFFF_FFFF_FFC0 ∧ (t.mailbox.fwstatus = 1 ↔ (t.hq? 0 0).isSome = true) := by
  let s1 : State := { s with mailbox := { s.mailbox with mgmtq := v &&& 0x000F_FFFF_FFFF_FFC0 } }
  refine ⟨s1.makeMgmt, ?_, s1.makeMgmt_keeps.2.2, ?_⟩
  · show Host.Outcome.next (s.writeMgmtq v) = _
    unfold State.writeMgmtq
    rw [if_neg (by simp [hq])]
    exact congrArg _ (if_pos h5)
  · have hnone : s.hqs.find? (fun x => x.ctx == 0 && x.idx == 0) = none := hq
    rcases s1.makeMgmt_cases with ⟨q, hc, hi, _, h⟩ | h
    · rw [h]
      simp [State.hq?, s1, List.find?_append, hnone, hc, hi]
    · rw [h]
      simp [State.hq?, s1, hnone]

theorem imageSigned_append {signature : List Byte} (message : List Byte) (h : signature.length = 114) :
    imageSigned (message ++ signature) = ed448phOk ((List.range 57).map Config.verifyingKey) message signature := by
  have hlen : (message ++ signature).length - 114 = message.length := by rw [List.length_append]; omega
  unfold imageSigned
  rw [hlen, List.take_left' rfl, List.drop_left' rfl]
  rfl

theorem powerInputFault_holds {s : State} (h : s.dies ≠ []) :
    ∃ t, exec .powerInputFault s = .next t ∧ t.stageCode = 2 ∧ t.mailbox.test = 0 ∧ t.units = [] ∧ t.hqs = [] ∧ t.mem = s.mem :=
  ⟨_, rfl, State.stageCode_enterHold (s := { s with mailbox := { s.mailbox with test := 0, die := 0, unit := 0 } }) h, rfl, rfl, rfl, rfl⟩

theorem powerOnReset_leaves {s : State} (h : s.mem.wf = true) :
    ∃ t, exec .powerOnReset s = .next t ∧ t.dies = State.reset.dies ∧ t.mailbox = State.reset.mailbox ∧ t.hqs = [] ∧ t.units = [] ∧ t.pad = State.reset.pad
      ∧ (∀ k, Kv.get memDefault t.mem k = if 2 ^ 48 ≤ k then Kv.get memDefault s.mem k else memDefault) := by
  refine ⟨_, rfl, rfl, rfl, rfl, rfl, rfl, fun k => ?_⟩
  show Kv.get memDefault s.outsideMem k = _
  rw [State.outsideMem, Kv.get_keep _ h]
  simp

/-- Settles O55: each stage event by the lemma about it. -/
theorem bootStages : Obligations.BootStages := by
  unfold Obligations.BootStages
  refine ⟨fun s => powerOnReset_leaves, fun s d r hd hlen hst => ⟨?_, ?_, ?_⟩, fun s => ⟨?_, ?_, ?_, ?_, ?_, ?_, ?_⟩⟩
  · exact fun hpass hrows => selftest_passes hd hlen hst hpass hrows
  · exact fun hpass => selftest_fails hlen hst hpass
  · exact fun i hpass hi hshort hleast => selftest_short hlen hst hpass hi hshort hleast
  · intro h3
    show Host.Outcome.next s.load = _
    rw [State.load, if_pos h3]
  · exact load_starts_verify
  · exact verify_rejects_length
  · exact verify_checks_signature
  · refine fun v => ⟨fun hq => ?_, mgmtqWrite_early v, mgmtqWrite_running v⟩
    show Host.Outcome.next (s.writeMgmtq v) = _
    rw [State.writeMgmtq, if_pos hq]
  · exact fun message signature h => imageSigned_append message h
  · exact powerInputFault_holds

end Sys2Proof.Machine
end

section
/-! SUPPORT. The host side (O57): links, answers of host memory, the BAR2 window and the doorbells of BAR0. -/

namespace Sys2Proof.Machine

set_option Elab.async false

/-! Host links (R230, R231, R236). -/

/-- While a link is UP, messages raised go out in order over the link in use. -/
theorem State.foldl_raise_of_linkUp {s : State} (h : s.linkUp = true) (vs : List Nat) :
    vs.foldl State.raise s = { s with outs := s.outs ++ vs.map (fun v => .msix v s.linkInUse) } := by
  induction vs generalizing s with
  | nil => simp
  | cons v vs ih =>
    have hraise : s.raise v = s.out (.msix v s.linkInUse) := if_pos h
    rw [List.foldl_cons, hraise, ih (s := s.out _) h, List.map_cons, List.append_cons]
    rfl

/-- The module with link l in a state of its own. -/
def State.withLink (s : State) (l : Nat) (x : HostLink) : State := { s with hostSide := { s.hostSide with links := setAt s.hostSide.links l x } }

theorem State.withLink_link {s : State} {l : Nat} (hl : l < s.hostSide.links.length) (x : HostLink) : (s.withLink l x).hostSide.links[l]? = some x := by
  simp [State.withLink, setAt, hl]

theorem State.withLink_linkUp {s : State} {l : Nat} (hl : l < s.hostSide.links.length) {x : HostLink} (hx : x.lstate = 2) :
    (s.withLink l x).linkUp = true :=
  List.any_eq_true.2 ⟨x, List.mem_iff_getElem?.2 ⟨l, s.withLink_link hl x⟩, by simp [hx]⟩

/-- Of two links, link 0 carries the messages when it is UP. -/
theorem State.withLink_linkInUse {s : State} {l : Nat} (hl : l < 2) (hlen : s.hostSide.links.length = 2) {x : HostLink} (hx : x.lstate = 2) :
    (s.withLink l x).linkInUse = if l = 0 ∨ (s.hostSide.links[0]?).map (·.lstate) = some 2 then 0 else 1 := by
  obtain ⟨a, b, hab⟩ := List.length_eq_two.1 hlen
  unfold State.linkInUse State.withLink setAt
  rw [hab]
  rcases (by omega : l = 0 ∨ l = 1) with rfl | rfl
  · simp [List.findIdx?_cons, hx]
  · by_cases ha : a.lstate = 2 <;> simp [List.findIdx?_cons, hx, ha]

theorem hostLinkUp_releases {s : State} {l gen width cxl : Nat} (hl : l < 2) (hlen : s.hostSide.links.length = 2) (hgen : gen ∈ [5, 6, 7])
    (hwidth : width ∈ [4, 8, 16]) (hcxl : cxl ∈ [0, 2, 3]) (hdies : ∀ d ∈ s.dies, d.stage ≠ .reset) :
    ∃ t, exec (.hostLinkUp l gen width cxl) s = .next t ∧ t.hostSide.links[l]? = some { lstate := 2, gen := gen, width := width, cxl := cxl }
      ∧ t.linkUp = true ∧ t.outs = s.outs ++ s.msixHeld.map (fun v => .msix v t.linkInUse)
      ∧ t.linkInUse = (if l = 0 ∨ (s.hostSide.links[0]?).map (·.lstate) = some 2 then 0 else 1) ∧ t.msixHeld = [] ∧ t.mem = s.mem := by
  have hl' : l < s.hostSide.links.length := by omega
  let up : HostLink := { lstate := 2, gen := gen, width := width, cxl := cxl }
  let s1 : State := { s.withLink l up with msixHeld := [] }
  have hup : s1.linkUp = true := State.withLink_linkUp (s := s) (x := up) hl' rfl
  refine ⟨s.msixHeld.foldl State.raise s1, ?_, ?_⟩
  · have hreset : s.dies.any (fun d => d.stage == .reset) = false := List.any_eq_false.2 fun d hd => by simpa using hdies d hd
    show execHostLinkUp l gen width cxl s = _
    unfold execHostLinkUp
    dsimp only
    rw [if_neg]
    · rfl
    · simp only [List.mem_cons, List.not_mem_nil, or_false] at hgen hwidth hcxl
      simp [hl, hgen, hwidth, hcxl, hreset]
  · rw [State.foldl_raise_of_linkUp hup]
    exact ⟨s.withLink_link hl' up, hup, rfl, State.withLink_linkInUse (x := up) hl hlen rfl, rfl, rfl⟩

theorem State.countDrops_countDrops (s : State) (m n : Nat) : (s.countDrops m).countDrops n = s.countDrops (m + n) := by
  simp [State.countDrops, BitVec.ofNat_add, BitVec.add_assoc]

/-- Counting one event after the other counts them all. -/
theorem State.foldl_countDrop {α : Type} (s : State) (l : List α) : l.foldl (fun s _ => s.countDrop) s = s.countDrops l.length := by
  induction l generalizing s with
  | nil => simp [State.countDrops]
  | cons a l ih => rw [List.foldl_cons, ih, State.countDrop, State.countDrops_countDrops, List.length_cons, Nat.add_comm]

theorem hostLinkDown_poisons {s : State} {l : Nat} (hl : l < 2) (hlen : s.hostSide.links.length = 2) :
    ∃ t x, exec (.hostLinkDown l) s = .next t ∧ t.hostSide.links[l]? = some x ∧ x.lstate = 0
      ∧ (t.linkUp = false → (∀ h ∈ t.hostReads, h.answer ≠ none)
        ∧ t.mailbox.linkdrop = s.mailbox.linkdrop + BitVec.ofNat 32 (s.hostReads.filter (fun h => h.answer.isNone)).length)
      ∧ (t.linkUp = true → t.hostReads = s.hostReads) ∧ t.mem = s.mem := by
  have hl' : l < s.hostSide.links.length := by omega
  let down : HostLink := { lstate := 0, gen := 0, width := 0, cxl := 0 }
  let s1 : State := s.withLink l down
  let open_ := s.hostReads.filter (fun h => h.answer.isNone)
  let s2 : State := { s1 with hostReads := updWhere (fun h => h.answer.isNone) (fun h => { h with answer := some (false, []) }) s.hostReads }
  have hexec : exec (.hostLinkDown l) s = if s1.linkUp then .next s1 else .next (open_.foldl (fun s _ => s.countDrop) s2) := rfl
  by_cases hup : s1.linkUp = true
  · refine ⟨s1, down, by rw [hexec, if_pos hup], s.withLink_link hl' down, rfl, fun h => ?_, fun _ => rfl, rfl⟩
    rw [hup] at h; cases h
  · refine ⟨s2.countDrops open_.length, down, ?_, s.withLink_link hl' down, rfl, fun _ => ⟨fun h hmem => ?_, rfl⟩, fun h => absurd h hup, rfl⟩
    · rw [hexec, if_neg hup, State.foldl_countDrop]
    · obtain ⟨x, _, rfl⟩ := List.mem_map.1 hmem
      split
      · simp
      · next hx => simpa using hx

/-! Reads of host memory (R11, R356). -/

/-- The one outstanding read is answered. -/
theorem State.answerHost_one {s : State} {h : HostRead} (hreads : s.hostReads = [h]) (hopen : h.answer = none) (ok : Bool) (data : List Byte) :
    s.answerHost h.op ok data = match s.atomq.find? (fun r => r.ask == some h.op) with
      | some r => State.serveReq { s with hostReads := [{ h with answer := some (ok && decide (data.length = h.bytes), data) }] } r
      | none => { s with hostReads := [{ h with answer := some (ok && decide (data.length = h.bytes), data) }] } := by
  unfold State.answerHost
  simp [hreads, updWhere, hopen]
  <;> rfl

theorem State.answerHost_plain {s : State} {h : HostRead} (hreads : s.hostReads = [h]) (hopen : h.answer = none)
    (hask : s.atomq.find? (fun r => r.ask == some h.op) = none) (ok : Bool) (data : List Byte) :
    s.answerHost h.op ok data = { s with hostReads := [{ h with answer := some (ok && decide (data.length = h.bytes), data) }] } := by
  rw [State.answerHost_one hreads hopen, hask]

/-! The BAR2 window (R234). -/

theorem State.serveLines_none {s : State} (h : s.atomq = []) (pas : List Nat) : s.serveLines pas = s := by
  unfold State.serveLines; rw [h]; rfl

theorem State.bar2Open_eq_true {s : State} {off n : Nat} (h3 : 3 ≤ s.stageCode) (hn : 0 < n) (hoff : off + n ≤ 2 ^ 36) : s.bar2Open off n = true := by
  simp only [State.bar2Open, decide_eq_true h3, decide_eq_true hn, decide_eq_true hoff, Bool.and_self]

/-- A read of bytes none of which lies in a hole. -/
theorem exec_bar2Read {s : State} {off n : Nat} (h3 : 3 ≤ s.stageCode) (hn : 0 < n) (hoff : off + n ≤ 2 ^ 36)
    (hkind : ∀ i, i < n → s.kind (s.hostSide.wbase.toNat + off + i) ≠ .hole) (hq : s.atomq = []) :
    exec (.bar2Read off n) s = if s.unreadable (s.hostSide.wbase.toNat + off) n then
        .next ((if s.linkLost (s.hostSide.wbase.toNat + off) then s.countDrop else s).out (.bar2 (List.replicate n 0xFF) true))
      else .next (s.out (.bar2 (s.bytesAt (.pair 0) (s.hostSide.wbase.toNat + off) n) false)) := by
  have hhole : (List.range n).any (fun i => s.kind (s.hostSide.wbase.toNat + off + i) == .hole) = false :=
    List.any_eq_false.2 fun i hi => by simpa using hkind i (List.mem_range.1 hi)
  show execBar2Read off n s = _
  unfold execBar2Read
  dsimp only
  rw [State.serveLines_none hq, State.bar2Open_eq_true h3 hn hoff, hhole]
  rfl

theorem bar2Read_answers {s : State} {off n : Nat} (h3 : 3 ≤ s.stageCode) (hn : 0 < n) (hoff : off + n ≤ 2 ^ 36)
    (hkind : ∀ i, i < n → s.kind (s.hostSide.wbase.toNat + off + i) ≠ .hole) (hq : s.atomq = []) :
    (s.unreadable (s.hostSide.wbase.toNat + off) n = false → ∃ t, exec (.bar2Read off n) s = .next t
      ∧ t.outs = s.outs ++ [.bar2 (s.bytesAt (.pair 0) (s.hostSide.wbase.toNat + off) n) false] ∧ t.mem = s.mem)
    ∧ (s.unreadable (s.hostSide.wbase.toNat + off) n = true → ∃ t, exec (.bar2Read off n) s = .next t
      ∧ t.outs = s.outs ++ [.bar2 (List.replicate n 0xFF) true] ∧ t.mem = s.mem
      ∧ (s.linkLost (s.hostSide.wbase.toNat + off) = true → t.mailbox.linkdrop = s.mailbox.linkdrop + 1)) := by
  rw [exec_bar2Read h3 hn hoff hkind hq]
  constructor <;> intro hu <;> rw [hu]
  · exact ⟨_, rfl, rfl, rfl⟩
  · cases hl : s.linkLost (s.hostSide.wbase.toNat + off) with
    | true => exact ⟨_, rfl, rfl, rfl, fun _ => rfl⟩
    | false => exact ⟨_, rfl, rfl, rfl, fun h => by cases h⟩

theorem bar2Read_closed {s : State} (h : s.stageCode < 3) (off n : Nat) : exec (.bar2Read off n) s = .next (s.out .unsupported) := by
  have hopen : s.bar2Open off n = false := by simp [State.bar2Open, Nat.not_le.2 h]
  show execBar2Read off n s = _
  unfold execBar2Read
  dsimp only
  rw [hopen]
  rfl

/-- A place of the module's own memory: first or second tier (R10). -/
def State.Local (s : State) (pa : Nat) : Prop := ∃ d, s.kind pa = .first d ∨ s.kind pa = .second

theorem State.Local.lands {s : State} {pa : Nat} (h : s.Local pa) : s.lands pa = true := by
  obtain ⟨d, h | h⟩ := h <;> simp [State.lands, State.linkLost, State.overLink, State.hostRefuses, h]

theorem State.Local.place {s : State} {pa : Nat} (h : s.Local pa) : s.place pa = pa := by
  obtain ⟨d, h | h⟩ := h <;> simp [State.place, h]

theorem State.Local.lt_paSpace {s : State} {pa : Nat} (h : s.Local pa) : pa < paSpace := by
  by_contra hge
  have hge : 0x10_0000_0000_0000 ≤ pa := by simpa [paSpace] using hge
  have hole : s.kind pa = .hole := by
    unfold State.kind paKind
    simp (disch := omega) only [if_neg]
  obtain ⟨d, h | h⟩ := h <;> rw [hole] at h <;> cases h

/-- No address outside a run of the module's own memory names a place in it. -/
theorem State.place_outside {s : State} {pa n a : Nat} (hlocal : ∀ i, i < n → s.Local (pa + i)) (ha : a < pa ∨ pa + n ≤ a) :
    ¬(pa ≤ s.place a ∧ s.place a < pa + n) := by
  rintro ⟨hle, hlt⟩
  have hbound := (hlocal (s.place a - pa) (by omega)).lt_paSpace
  unfold State.place at hle hlt hbound
  split at hle <;> simp_all <;> omega

theorem State.writeHome_pad (s : State) (w : Who) (pa : Nat) (bs : List Byte) : (s.writeHome w pa bs).pad = s.pad := by
  have hclear : ∀ (t : State) l, (t.clearLines l).pad = t.pad := fun t l => (State.same_clearLines t l).pad
  unfold State.writeHome
  split
  · rfl
  · split
    · rfl
    · cases w.cluster? <;> simp [hclear]

theorem State.poisonLines_mem (s : State) (ls : List Nat) : (s.poisonLines ls).mem = s.mem := by
  unfold State.poisonLines; dsimp only; split <;> rfl

theorem State.poisonLines_keeps (s : State) (ls : List Nat) :
    (s.poisonLines ls).hostSide = s.hostSide ∧ (s.poisonLines ls).pad = s.pad := by
  unfold State.poisonLines; dsimp only; split <;> exact ⟨rfl, rfl⟩

theorem State.homeByte_congr {s t : State} (hmem : t.mem = s.mem) (hside : t.hostSide = s.hostSide) (a : Nat) : t.homeByte a = s.homeByte a := by
  unfold State.homeByte; rw [State.place_congr hside, hmem]

/-- The state that an engine's write finds once the copies of its lines are gone (R152). -/
def State.settledFor (s : State) (pa n : Nat) : State :=
  if s.l1.isEmpty && s.l2.isEmpty then s else s.flushRange (pa / 128 * 128) ((pa + n + 127) / 128 * 128 - pa / 128 * 128)

theorem State.settledFor_clean {s : State} (h1 : s.l1 = []) (h2 : s.l2 = []) (pa n : Nat) : s.settledFor pa n = s := by
  unfold State.settledFor; rw [h1, h2]; rfl

theorem State.settledFor_keeps (s : State) (pa n : Nat) : (s.settledFor pa n).hostSide = s.hostSide ∧ (s.settledFor pa n).pad = s.pad := by
  unfold State.settledFor; split <;> exact ⟨rfl, rfl⟩

theorem State.Inv.settledFor {s : State} (hs : s.Inv) (pa n : Nat) : (s.settledFor pa n).Inv := by
  unfold State.settledFor
  split
  · exact hs
  · exact hs.flushRange _ _

theorem State.Local.congr {s t : State} (h : t.hostSide = s.hostSide) {pa : Nat} (hl : s.Local pa) : t.Local pa := by
  unfold State.Local State.kind at hl ⊢; rw [h]; exact hl

/-- An engine's write of unpoisoned bytes to the module's own memory, in the home image. -/
theorem State.homeByte_writeEngineAt {s : State} (hs : s.Inv) (hq : s.atomq = []) (who : Who) {pa : Nat} {bs : List Byte} (hne : bs ≠ [])
    (hlocal : ∀ i, i < bs.length → s.Local (pa + i)) (a : Nat) :
    (s.writeEngineAt who pa (bs.map fun b => (b, false))).homeByte a =
      if pa ≤ s.place a ∧ s.place a < pa + bs.length then bs.getD (s.place a - pa) 0 else (s.settledFor pa bs.length).homeByte a := by
  have hpos : 0 < bs.length := List.length_pos_iff.2 hne
  obtain ⟨hside, _⟩ := s.settledFor_keeps pa bs.length
  have hl : ∀ i, i < bs.length → (s.settledFor pa bs.length).Local (pa + i) := fun i hi => (hlocal i hi).congr hside
  have hfirst : (s.settledFor pa bs.length).Local pa := hl 0 hpos
  have hwrite : (s.writeEngineAt who pa (bs.map fun b => (b, false))).homeByte a = ((s.settledFor pa bs.length).writeHome who pa bs).homeByte a := by
    have hmap : (bs.map fun b => (b, false)).map (·.1) = bs := by rw [List.map_map]; exact List.map_id bs
    unfold State.writeEngineAt
    rw [hmap, hq, List.length_map]
    exact State.homeByte_congr (State.poisonLines_mem _ _) (State.poisonLines_keeps _ _).1 a
  rw [hwrite, State.homeByte_writeHome (hs.settledFor _ _).mem who pa a bs hfirst.lands
    (by rw [(hl _ (by omega)).place, hfirst.place]), hfirst.place, State.place_congr hside]

theorem State.writeEngineAt_pad {s : State} (hq : s.atomq = []) (who : Who) (pa : Nat) (bs : List PByte) : (s.writeEngineAt who pa bs).pad = s.pad := by
  unfold State.writeEngineAt
  rw [hq]
  exact (State.poisonLines_keeps _ _).2.trans ((State.writeHome_pad _ _ _ _).trans (s.settledFor_keeps pa bs.length).2)

theorem exec_bar2Write {s : State} {off : Nat} {bytes : List Byte} (h3 : 3 ≤ s.stageCode) (hne : bytes ≠ []) (hoff : off + bytes.length ≤ 2 ^ 36)
    (hlocal : ∀ i, i < bytes.length → s.Local (s.hostSide.wbase.toNat + off + i)) (hq : s.atomq = []) :
    exec (.bar2Write off bytes) s = .next (s.writeEngineAt (.pair 0) (s.hostSide.wbase.toNat + off) (bytes.map fun b => (b, false))) := by
  show execBar2Write off bytes s = _
  unfold execBar2Write
  extract_lets pa dropped
  have hany : (List.range bytes.length).any (fun i => dropped (pa + i)) = false := by
    refine List.any_eq_false.2 fun i hi => ?_
    obtain ⟨d, h | h⟩ := hlocal i (List.mem_range.1 hi) <;> simp [dropped, pa, h]
  rw [State.serveLines_none hq, State.bar2Open_eq_true h3 (List.length_pos_iff.2 hne) hoff, hany]
  rfl

theorem bar2Write_reaches_home {s : State} {off : Nat} {bytes : List Byte} (h3 : 3 ≤ s.stageCode) (hne : bytes ≠ [])
    (hoff : off + bytes.length ≤ 2 ^ 36) (hlocal : ∀ i, i < bytes.length → s.Local (s.hostSide.wbase.toNat + off + i)) (hq : s.atomq = []) (hs : s.Inv) :
    ∃ t, exec (.bar2Write off bytes) s = .next t
      ∧ (∀ i, i < bytes.length → t.homeByte (s.hostSide.wbase.toNat + off + i) = bytes.getD i 0)
      ∧ (s.l1 = [] → s.l2 = [] → ∀ a, a < s.hostSide.wbase.toNat + off ∨ s.hostSide.wbase.toNat + off + bytes.length ≤ a → t.homeByte a = s.homeByte a)
      ∧ t.pad = s.pad := by
  refine ⟨_, exec_bar2Write h3 hne hoff hlocal hq, fun i hi => ?_, fun h1 h2 a ha => ?_, State.writeEngineAt_pad hq _ _ _⟩
  · rw [State.homeByte_writeEngineAt hs hq _ hne hlocal, (hlocal i hi).place, if_pos (by omega), Nat.add_sub_cancel_left]
  · rw [State.homeByte_writeEngineAt hs hq _ hne hlocal, if_neg (State.place_outside hlocal ha), State.settledFor_clean h1 h2]

/-! BAR0 (R232): a write of a whole register. -/

/-- What an event leaves, or the state before it where it has none. -/
def State.afterEvent (s : State) (o : Host.Outcome State Fault Refusal) : State := match o with
  | .next t => t
  | _ => s

theorem mergeReg_word (old v : W64) : mergeReg old v (BitVec.allOnes 64) = v := by
  simp only [mergeReg, BitVec.not_allOnes, BitVec.and_zero, BitVec.zero_or, BitVec.and_allOnes]

section Word
variable {s : State} {off : Nat} (h8 : off % 8 = 0) (hlt : off < 2 ^ 24) (v : W64)
include h8 hlt

theorem word_accepted : ¬((8 != 4 && 8 != 8 || off % 8 != 0 || decide (2 ^ 24 ≤ off)) = true) := by
  simp only [h8, decide_eq_false (Nat.not_le.2 hlt)]; decide

theorem State.hostWrite_mailbox (hm : off < 0x1000) : s.hostWrite off 8 v = s.writeMailbox off v (BitVec.allOnes 64) := by
  have ha : off / 8 * 8 = off := by omega
  unfold State.hostWrite
  rw [if_neg (word_accepted h8 hlt), h8]
  simp only [ha, if_pos hm, Nat.mul_zero, BitVec.shiftLeft_zero, BitVec.and_allOnes, if_true]

variable (hm : 0x1000 ≤ off) (h2 : s.stageCode ≠ 2)
include hm h2

theorem State.hostWrite_tail (hlo : 0x10_0000 ≤ off) (hhi : off < 0x20_0000) (hq : off % 4096 % 0x80 = 0) :
    s.hostWrite off 8 v = s.afterEvent (execTailWrite (off / 4096 % 256) (off % 4096 / 0x80) (v.extractLsb' 0 32) s) := by
  have ha : off / 8 * 8 = off := by omega
  unfold State.hostWrite
  rw [if_neg (word_accepted h8 hlt), h8]
  simp only [ha, if_neg (Nat.not_lt.2 hm), if_neg h2, if_pos (And.intro hlo hhi), hq, Nat.mul_zero, BitVec.shiftLeft_zero, BitVec.and_allOnes, if_true]
  rfl

theorem State.hostWrite_resolve (hlo : 0x20_0000 ≤ off) (hhi : off < 0x30_0000) (hw : off % 4096 = 0) :
    s.hostWrite off 8 v = s.rewalk (off / 4096 % 256) := by
  have ha : off / 8 * 8 = off := by omega
  have htail : ¬(0x10_0000 ≤ off ∧ off < 0x20_0000) := by omega
  unfold State.hostWrite
  rw [if_neg (word_accepted h8 hlt), h8]
  simp only [ha, if_neg (Nat.not_lt.2 hm), if_neg h2, if_neg htail, if_pos (And.intro hlo hhi), hw]
  rfl

theorem State.hostWrite_consumed (hlo : 0x20_0000 ≤ off) (hhi : off < 0x30_0000) (hw : off % 4096 = 0x10) :
    s.hostWrite off 8 v = s.afterEvent (execConsumedWrite (off / 4096 % 256) v s) := by
  have ha : off / 8 * 8 = off := by omega
  have htail : ¬(0x10_0000 ≤ off ∧ off < 0x20_0000) := by omega
  unfold State.hostWrite
  rw [if_neg (word_accepted h8 hlt), h8]
  simp only [ha, if_neg (Nat.not_lt.2 hm), if_neg h2, if_neg htail, if_pos (And.intro hlo hhi), hw, Nat.mul_zero, BitVec.shiftLeft_zero,
    BitVec.and_allOnes, if_true, mergeReg_word]
  rcases hx : s.ctx? (off / 4096 % 256) with _ | x
  · simp only [execConsumedWrite, hx]; rfl
  · rfl

theorem State.hostWrite_wbase (hw : off = 0x60_0000) :
    s.hostWrite off 8 v = { s with hostSide := { s.hostSide with wbase := v &&& 0x000F_FFF0_0000_0000 } } := by
  have ha : off / 8 * 8 = off := by omega
  have htail : ¬(0x10_0000 ≤ off ∧ off < 0x20_0000) := by omega
  have hresolve : ¬(0x20_0000 ≤ off ∧ off < 0x30_0000) := by omega
  have hmsix : ¬(0x40_0000 ≤ off ∧ off < 0x40_1000) := by omega
  have hport : ¬(0x50_0000 ≤ off ∧ off < 0x50_0400) := by omega
  unfold State.hostWrite
  rw [if_neg (word_accepted h8 hlt), h8]
  simp only [ha, if_neg (Nat.not_lt.2 hm), if_neg h2, if_neg htail, if_neg hresolve, if_neg hmsix, if_neg hport, if_pos hw, Nat.mul_zero,
    BitVec.shiftLeft_zero, BitVec.and_allOnes, if_true, mergeReg_word]

end Word

/-! The doorbells and registers among them (R50, R164, R209, R233, R247). -/

section Doorbells
variable {s : State} (c q : Nat) (v : W64)

theorem registerWrite_tail (hc : c < 256) (hq : q < 32) (h2 : s.stageCode ≠ 2) :
    exec (.registerWrite (0x10_0000 + 4096 * c + 128 * q) 8 v) s = exec (.tailWrite c q (v.extractLsb' 0 32)) s := by
  have hwrite : s.hostWrite (0x10_0000 + 4096 * c + 128 * q) 8 v = s.afterEvent (execTailWrite c q (v.extractLsb' 0 32) s) := by
    have hctx : (0x10_0000 + 4096 * c + 128 * q) / 4096 % 256 = c := by omega
    have hqueue : (0x10_0000 + 4096 * c + 128 * q) % 4096 / 0x80 = q := by omega
    have h := State.hostWrite_tail (s := s) (off := 0x10_0000 + 4096 * c + 128 * q) (by omega) (by omega) v (by omega) h2 (by omega) (by omega) (by omega)
    rwa [hctx, hqueue] at h
  show Host.Outcome.next (s.hostWrite _ 8 v) = execTailWrite c q (v.extractLsb' 0 32) s
  rw [hwrite]
  unfold execTailWrite
  split
  · rfl
  · split <;> rfl

theorem registerWrite_resolve (hc : c < 256) (h2 : s.stageCode ≠ 2) :
    exec (.registerWrite (0x20_0000 + 4096 * c) 8 v) s = exec (.resolveWrite c) s := by
  have hctx : (0x20_0000 + 4096 * c) / 4096 % 256 = c := by omega
  have h := State.hostWrite_resolve (s := s) (off := 0x20_0000 + 4096 * c) (by omega) (by omega) v (by omega) h2 (by omega) (by omega) (by omega)
  rw [hctx] at h
  exact congrArg Host.Outcome.next h

theorem registerWrite_consumed (hc : c < 256) (h2 : s.stageCode ≠ 2) :
    exec (.registerWrite (0x20_0010 + 4096 * c) 8 v) s = exec (.consumedWrite c v) s := by
  have hctx : (0x20_0010 + 4096 * c) / 4096 % 256 = c := by omega
  have h := State.hostWrite_consumed (s := s) (off := 0x20_0010 + 4096 * c) (by omega) (by omega) v (by omega) h2 (by omega) (by omega) (by omega)
  rw [hctx] at h
  show Host.Outcome.next (s.hostWrite _ 8 v) = execConsumedWrite c v s
  rw [h]
  unfold execConsumedWrite
  split
  · rfl
  · split <;> rfl

theorem registerWrite_mgmtq : exec (.registerWrite 0x38 8 v) s = exec (.mgmtqWrite v) s := by
  have h := State.hostWrite_mailbox (s := s) (off := 0x38) (by decide) (by decide) v (by decide)
  refine congrArg Host.Outcome.next (h.trans ?_)
  show s.writeMgmtq (mergeReg s.mailbox.mgmtq v (BitVec.allOnes 64)) = s.writeMgmtq v
  rw [mergeReg_word]

theorem registerWrite_load (hv : v.getLsbD 0 = true) : exec (.registerWrite 0x28 8 v) s = exec .loadFw s := by
  have h := State.hostWrite_mailbox (s := s) (off := 0x28) (by decide) (by decide) v (by decide)
  refine congrArg Host.Outcome.next (h.trans ?_)
  show (if (v &&& BitVec.allOnes 64).getLsbD 0 = true then s.load else s) = s.load
  rw [BitVec.and_allOnes, if_pos hv]

theorem registerWrite_wbase (h2 : s.stageCode ≠ 2) :
    ∃ t, exec (.registerWrite 0x60_0000 8 v) s = .next t ∧ t.hostSide.wbase = v &&& 0x000F_FFF0_0000_0000 ∧ t.mem = s.mem :=
  ⟨_, congrArg Host.Outcome.next (State.hostWrite_wbase (s := s) (by decide) (by decide) v (by decide) h2 rfl), rfl, rfl⟩

theorem registerWrite_dropped {off size : Nat} (h : size ≠ 4 ∧ size ≠ 8 ∨ off % size ≠ 0 ∨ 2 ^ 24 ≤ off) :
    exec (.registerWrite off size v) s = .next s := by
  refine congrArg Host.Outcome.next ?_
  unfold State.hostWrite
  rw [if_pos]
  simpa [or_assoc] using h

end Doorbells

/-- Settles O57: each event of the host side by the lemma about it. -/
theorem hostSide : Obligations.HostSide := by
  unfold Obligations.HostSide
  refine ⟨?_, ?_, ?_, ?_, ?_, ?_, ?_⟩
  · exact fun s l gen width cxl hl hlen hgen hwidth hcxl hdies => hostLinkUp_releases hl hlen hgen hwidth hcxl hdies
  · exact fun s l hl hlen => hostLinkDown_poisons hl hlen
  · refine fun s h data hreads hopen hask => ⟨⟨_, congrArg Host.Outcome.next (State.answerHost_plain hreads hopen hask true data), ?_, rfl⟩,
      ⟨_, congrArg Host.Outcome.next (State.answerHost_plain hreads hopen hask false data), rfl⟩,
      ⟨_, congrArg Host.Outcome.next (State.answerHost_plain hreads hopen hask false []), rfl⟩⟩
    rw [Bool.true_and]
  · intro s h data r hreads hopen hask
    show Host.Outcome.next (s.answerHost h.op true data) = _
    rw [State.answerHost_one hreads hopen, hask]
    rw [Bool.true_and]
  · exact fun s off n => ⟨fun h3 hn hoff hkind hq => bar2Read_answers h3 hn hoff hkind hq, fun h => bar2Read_closed h off n⟩
  · exact fun s off bytes h3 hne hoff hlocal hq hs => bar2Write_reaches_home h3 hne hoff hlocal hq hs
  · exact fun s c q v hc hq h2 => ⟨registerWrite_tail c q v hc hq h2, registerWrite_resolve c v hc h2, registerWrite_consumed c v hc h2,
      registerWrite_mgmtq v, registerWrite_load v, registerWrite_wbase v h2, fun _ _ h => registerWrite_dropped v h⟩

end Sys2Proof.Machine
end

section
/-! SUPPORT. Floating-point formats (R23): the magnitudes of a format with infinities in the order of their bits. -/

namespace Sys2Proof.Machine

/-- A format whose largest exponent holds the infinities and NaNs, as those of O15 are (R23). -/
structure Ffmt.Ieee (f : Ffmt) : Prop where
  top : f.top = .ieee
  ew : 2 ≤ f.ew
  fw : 1 ≤ f.fw

/-- The number of magnitude a and sign neg. -/
def signed (neg : Bool) (a : Rat) : Rat := if neg then -a else a

@[simp] theorem signed_true (a : Rat) : signed true a = -a := rfl
@[simp] theorem signed_false (a : Rat) : signed false a = a := rfl
@[simp] theorem signed_zero (neg : Bool) : signed neg 0 = 0 := by cases neg <;> simp

theorem magnitude_eq_abs (x : Rat) : magnitude x = |x| := by
  unfold magnitude
  split
  case isTrue h => rw [abs_of_neg h]
  case isFalse h => rw [abs_of_nonneg (not_lt.mp h)]

theorem magnitude_signed (neg : Bool) {a : Rat} (h : 0 ≤ a) : magnitude (signed neg a) = a := by
  cases neg <;> simp [magnitude_eq_abs, abs_of_nonneg h]

theorem magnitude_signed_sub (neg : Bool) (a b : Rat) : magnitude (signed neg a - signed neg b) = |a - b| := by
  rw [magnitude_eq_abs]
  cases neg
  · rfl
  · rw [signed_true, signed_true, ← abs_neg (a - b)]; congr 1; ring

theorem signed_eq_zero {neg : Bool} {a : Rat} : signed neg a = 0 ↔ a = 0 := by
  cases neg <;> simp

theorem Fv.val_fin (neg : Bool) (mag : Nat) (e : Int) : (Fv.fin neg mag e).val = signed neg (mag * 2 ^ e) := by
  have hpow : ((2 ^ e.toNat : Nat) : Rat) / ((2 ^ (-e).toNat : Nat) : Rat) = 2 ^ e := by
    obtain ⟨n, rfl | rfl⟩ := e.eq_nat_or_neg <;> simp
  show mkRat _ _ = _
  rw [Rat.mkRat_eq_div, ← hpow]
  cases neg <;> simp <;> ring

namespace Ffmt
variable {f : Ffmt}

/-- The exponent field of a magnitude's bits, 1 for a subnormal one: it gives the distance to the next magnitude. -/
def row (f : Ffmt) (k : Nat) : Nat := max 1 (k / 2 ^ f.fw)

/-- The magnitude that bits k stand for, by the rule of the finite ones also beyond the largest. -/
def level (f : Ffmt) (k : Nat) : Rat := ((k - (f.row k - 1) * 2 ^ f.fw : Nat) : Rat) * 2 ^ ((f.row k : Int) - f.bias - f.fw)

/-- In row E stand the multiples of its unit from 2^fw units on, in row 1 those below as well; one more is the first of the next row. -/
theorem level_place {E n : Nat} (hE : 1 ≤ E) (hn : n ≤ 2 ^ (f.fw + 1)) (hlow : 2 ^ f.fw ≤ n ∨ E = 1) :
    f.level (n + (E - 1) * 2 ^ f.fw) = n * 2 ^ ((E : Int) - f.bias - f.fw) := by
  obtain ⟨E, rfl⟩ := Nat.exists_eq_add_of_le' hE
  have hpos : 0 < 2 ^ f.fw := Nat.two_pow_pos _
  have hdiv : (n + E * 2 ^ f.fw) / 2 ^ f.fw = n / 2 ^ f.fw + E := Nat.add_mul_div_right _ _ hpos
  rw [Nat.add_sub_cancel]
  rcases hn.lt_or_eq with hlt | rfl
  · have hrow : f.row (n + E * 2 ^ f.fw) = E + 1 := by
      rw [row, hdiv]
      rcases Nat.lt_or_ge n (2 ^ f.fw) with h | h
      · rw [Nat.div_eq_of_lt h]; omega
      · rw [Nat.div_eq_of_lt_le (k := 1) (by omega) (by rw [pow_succ] at hlt; omega)]; omega
    rw [level, hrow, Nat.add_sub_cancel, Nat.add_sub_cancel]
  · have hrow : f.row (2 ^ (f.fw + 1) + E * 2 ^ f.fw) = E + 2 := by
      rw [row, hdiv, pow_succ, Nat.mul_div_cancel_left _ hpos]; omega
    have hunits : 2 ^ (f.fw + 1) + E * 2 ^ f.fw - (E + 2 - 1) * 2 ^ f.fw = 2 ^ f.fw := by
      rw [show E + 2 - 1 = E + 1 from rfl, add_mul, pow_succ]; omega
    have hexp : ((E + 2 : Nat) : Int) - f.bias - f.fw = (((E + 1 : Nat) : Int) - f.bias - f.fw) + 1 := by push_cast; ring
    rw [level, hrow, hunits, hexp, zpow_add_one₀ two_ne_zero]
    push_cast
    ring

/-- Every magnitude's bits as a number of units in its row. -/
theorem eq_place (f : Ffmt) (k : Nat) : ∃ n, k = n + (f.row k - 1) * 2 ^ f.fw ∧ n < 2 ^ (f.fw + 1) ∧ (2 ^ f.fw ≤ n ∨ f.row k = 1) := by
  have hpos : 0 < 2 ^ f.fw := Nat.two_pow_pos _
  have hk := Nat.div_add_mod' k (2 ^ f.fw)
  have hmod := Nat.mod_lt k hpos
  rcases Nat.eq_zero_or_pos (k / 2 ^ f.fw) with h | h
  · refine ⟨k, by simp [row, h], ?_, .inr (by simp [row, h])⟩
    rw [h] at hk; rw [pow_succ]; omega
  · have hrow : f.row k = k / 2 ^ f.fw := by rw [row]; omega
    obtain ⟨q, hq⟩ := Nat.exists_eq_succ_of_ne_zero h.ne'
    refine ⟨k % 2 ^ f.fw + 2 ^ f.fw, ?_, by rw [pow_succ]; omega, .inl (by omega)⟩
    rw [hq, Nat.succ_mul] at hk
    rw [hrow, hq, Nat.succ_sub_one]; omega

theorem row_pos (f : Ffmt) (k : Nat) : 1 ≤ f.row k := le_max_left _ _

/-- From one magnitude to the next it is one unit of the row. -/
theorem level_succ (f : Ffmt) (k : Nat) : f.level (k + 1) = f.level k + 2 ^ ((f.row k : Int) - f.bias - f.fw) := by
  obtain ⟨n, hk, hn, hlow⟩ := f.eq_place k
  have h0 := level_place (f.row_pos k) hn.le hlow
  have h1 := level_place (n := n + 1) (f.row_pos k) hn (hlow.imp_left fun h => by omega)
  rw [← hk] at h0
  rw [show n + 1 + (f.row k - 1) * 2 ^ f.fw = k + 1 by omega] at h1
  rw [h0, h1]; push_cast; ring

theorem level_strictMono (f : Ffmt) : StrictMono f.level :=
  strictMono_nat_of_lt_succ fun k => by rw [level_succ]; exact lt_add_of_pos_right _ (by positivity)

@[simp] theorem level_zero (f : Ffmt) : f.level 0 = 0 := by simp [level, row]

theorem level_nonneg (f : Ffmt) (k : Nat) : 0 ≤ f.level k := f.level_zero ▸ f.level_strictMono.monotone (Nat.zero_le k)

/-! The fields of a bit pattern. -/

theorem signBit_lt (f : Ffmt) (neg : Bool) {k : Nat} (hk : k < 2 ^ (f.ew + f.fw)) : f.signBit neg + k < 2 ^ f.width := by
  rw [width, show 1 + f.ew + f.fw = f.ew + f.fw + 1 by omega, pow_succ]
  cases neg <;> simp [signBit] <;> omega

theorem signBit_eq (f : Ffmt) (neg : Bool) : f.signBit neg = 2 ^ (f.ew + f.fw) * neg.toNat := by
  cases neg <;> simp [signBit]

theorem testBit_signBit (neg : Bool) {k : Nat} (hk : k < 2 ^ (f.ew + f.fw)) : (f.signBit neg + k).testBit (f.ew + f.fw) = neg := by
  rw [signBit_eq, Nat.testBit_two_pow_mul_add _ hk]
  cases neg <;> simp

/-- A bit pattern is its sign and the bits below. -/
theorem eq_signBit_add {r : Nat} (hr : r < 2 ^ f.width) : r = f.signBit (r.testBit (f.ew + f.fw)) + r % 2 ^ (f.ew + f.fw) := by
  have hdiv : r / 2 ^ (f.ew + f.fw) < 2 := by
    rw [Nat.div_lt_iff_lt_mul (Nat.two_pow_pos _), ← pow_succ', show f.ew + f.fw + 1 = f.width by rw [width]; omega]; exact hr
  have hbit : (r.testBit (f.ew + f.fw)).toNat = r / 2 ^ (f.ew + f.fw) := by
    rw [Nat.toNat_testBit, Nat.mod_eq_of_lt hdiv]
  rw [signBit_eq, hbit, Nat.div_add_mod]

/-- Decoding by fields, in a format with infinities. -/
theorem Ieee.decode_signBit_add (hf : f.Ieee) (neg : Bool) {k : Nat} (hk : k < 2 ^ (f.ew + f.fw)) :
    f.decode (f.signBit neg + k) =
      if k / 2 ^ f.fw = 2 ^ f.ew - 1 then (if k % 2 ^ f.fw = 0 then .inf neg else .nan)
      else if k / 2 ^ f.fw = 0 then .fin neg (k % 2 ^ f.fw) (1 - (f.bias : Int) - f.fw)
      else .fin neg (k % 2 ^ f.fw + 2 ^ f.fw) (((k / 2 ^ f.fw : Nat) : Int) - f.bias - f.fw) := by
  have hsplit : f.signBit neg = 2 ^ f.fw * (2 ^ f.ew * neg.toNat) := by rw [signBit_eq, pow_add]; ring
  have hq : k / 2 ^ f.fw < 2 ^ f.ew := Nat.div_lt_of_lt_mul (by rwa [← pow_add, Nat.add_comm])
  have hex : ((f.signBit neg + k) >>> f.fw) % 2 ^ f.ew = k / 2 ^ f.fw := by
    rw [Nat.shiftRight_eq_div_pow, hsplit, Nat.mul_add_div (Nat.two_pow_pos _), Nat.mul_add_mod, Nat.mod_eq_of_lt hq]
  have hfr : (f.signBit neg + k) % 2 ^ f.fw = k % 2 ^ f.fw := by rw [hsplit, Nat.mul_add_mod]
  simp only [decode, testBit_signBit neg hk, hex, hfr, hf.top, true_and, reduceCtorEq, false_and, if_false]

theorem Ieee.maxBits_succ (hf : f.Ieee) : f.maxBits + 1 = (2 ^ f.ew - 1) * 2 ^ f.fw := by
  have hew : 2 ^ 2 ≤ 2 ^ f.ew := Nat.pow_le_pow_right (by decide) hf.ew
  obtain ⟨m, hm⟩ := Nat.exists_eq_add_of_le' hew
  have hpos : 0 < 2 ^ f.fw := Nat.two_pow_pos _
  simp only [maxBits, hf.top, hm]
  rw [show m + 2 ^ 2 - 1 = m + 2 ^ 2 - 2 + 1 by omega, add_mul _ 1]; omega

theorem Ieee.maxBits_lt (hf : f.Ieee) : f.maxBits + 1 < 2 ^ (f.ew + f.fw) := by
  rw [hf.maxBits_succ, pow_add]
  exact Nat.mul_lt_mul_of_pos_right (Nat.sub_lt (Nat.two_pow_pos _) one_pos) (Nat.two_pow_pos _)

/-- The largest magnitude has odd bits, and the most units of its row. -/
theorem Ieee.maxBits_odd (hf : f.Ieee) : f.maxBits % 2 = 1 := by
  have h : (f.maxBits + 1) % 2 = 0 := by
    obtain ⟨m, hm⟩ := Nat.exists_eq_add_of_le' hf.fw
    rw [hf.maxBits_succ, hm, pow_succ, ← mul_assoc, Nat.mul_mod_left]
  omega

theorem Ieee.div_lt_top_iff (hf : f.Ieee) {k : Nat} : k / 2 ^ f.fw < 2 ^ f.ew - 1 ↔ k ≤ f.maxBits := by
  rw [Nat.div_lt_iff_lt_mul (Nat.two_pow_pos _), ← hf.maxBits_succ, Nat.lt_succ_iff]

/-- Bits up to those of the largest magnitude are finite values, in order. -/
theorem Ieee.decode_finite (hf : f.Ieee) (neg : Bool) {k : Nat} (hk : k ≤ f.maxBits) :
    ∃ m e, f.decode (f.signBit neg + k) = .fin neg m e ∧ m * 2 ^ e = f.level k := by
  have htop : k / 2 ^ f.fw ≠ 2 ^ f.ew - 1 := (hf.div_lt_top_iff.mpr hk).ne
  rw [hf.decode_signBit_add neg (by have := hf.maxBits_lt; omega), if_neg htop]
  have hk := Nat.div_add_mod' k (2 ^ f.fw)
  split
  case isTrue h =>
    refine ⟨_, _, rfl, ?_⟩
    rw [h] at hk
    rw [level, row, h]; simp; omega
  case isFalse h =>
    refine ⟨_, _, rfl, ?_⟩
    obtain ⟨q, hq⟩ := Nat.exists_eq_succ_of_ne_zero h
    have hrow : f.row k = q + 1 := by rw [row]; omega
    rw [hq, Nat.succ_mul] at hk
    rw [level, hrow, hq, Nat.add_sub_cancel, show k - q * 2 ^ f.fw = k % 2 ^ f.fw + 2 ^ f.fw by omega]

theorem Ieee.isFin_decode (hf : f.Ieee) (neg : Bool) {k : Nat} (hk : k ≤ f.maxBits) : (f.decode (f.signBit neg + k)).isFin = true := by
  obtain ⟨m, e, h, -⟩ := hf.decode_finite neg hk
  rw [h]; rfl

theorem Ieee.val_decode (hf : f.Ieee) (neg : Bool) {k : Nat} (hk : k ≤ f.maxBits) :
    (f.decode (f.signBit neg + k)).val = signed neg (f.level k) := by
  obtain ⟨m, e, h, hv⟩ := hf.decode_finite neg hk
  rw [h, Fv.val_fin, hv]

/-- The bits after the largest magnitude's are infinity. -/
theorem Ieee.decode_infinite (hf : f.Ieee) (neg : Bool) : f.decode (f.signBit neg + (f.maxBits + 1)) = .inf neg := by
  rw [hf.decode_signBit_add neg hf.maxBits_lt, hf.maxBits_succ, Nat.mul_div_cancel _ (Nat.two_pow_pos _), Nat.mul_mod_left, if_pos rfl, if_pos rfl]

/-- Bits beyond the largest magnitude's are no finite value. -/
theorem Ieee.le_maxBits (hf : f.Ieee) {neg : Bool} {k : Nat} (hk : k < 2 ^ (f.ew + f.fw)) (h : (f.decode (f.signBit neg + k)).isFin = true) :
    k ≤ f.maxBits := by
  by_contra hmax
  have hq : k / 2 ^ f.fw < 2 ^ f.ew := Nat.div_lt_of_lt_mul (by rwa [← pow_add, Nat.add_comm])
  have htop : k / 2 ^ f.fw = 2 ^ f.ew - 1 := by have := mt hf.div_lt_top_iff.mp hmax; omega
  rw [hf.decode_signBit_add neg hk, if_pos htop] at h
  split at h <;> cases h

/-- The numbers of a format are its magnitudes with either sign. -/
theorem Ieee.represents_iff (hf : f.Ieee) {y : Rat} : f.Represents y ↔ ∃ (neg : Bool) (k : Nat), k ≤ f.maxBits ∧ y = signed neg (f.level k) := by
  constructor
  · rintro ⟨b, hb, hfin, rfl⟩
    have hmod : b % 2 ^ (f.ew + f.fw) < 2 ^ (f.ew + f.fw) := Nat.mod_lt _ (Nat.two_pow_pos _)
    rw [eq_signBit_add hb] at hfin ⊢
    have hk := hf.le_maxBits hmod hfin
    exact ⟨_, _, hk, hf.val_decode _ hk⟩
  · rintro ⟨neg, k, hk, rfl⟩
    exact ⟨f.signBit neg + k, f.signBit_lt neg (by have := hf.maxBits_lt; omega), hf.isFin_decode neg hk, hf.val_decode neg hk⟩

theorem Ieee.largest_eq (hf : f.Ieee) : f.largest = f.level f.maxBits := by
  simpa [signBit, largest] using hf.val_decode false le_rfl

end Ffmt
end Sys2Proof.Machine
end

section
/-! SUPPORT. One rounding (R26, R28): which magnitude of a format a mode takes, as the number of magnitudes it passes; that this is what
Ffmt.Rounds asks for; and that roundFin takes it. -/

namespace Sys2Proof.Machine
namespace Ffmt
variable {f : Ffmt} {rm : Rm} {neg : Bool} {a : Rat} {k : Nat}

/-- The point halfway from a level to the next. -/
def midpoint (lev : Nat → Rat) (j : Nat) : Rat := (lev j + lev (j + 1)) / 2

/-- Whether the rounding of the magnitude a to one of the levels goes beyond level j (R26). -/
def Passes (lev : Nat → Rat) (rm : Rm) (neg : Bool) (a : Rat) (j : Nat) : Prop :=
  match rm with
  | .rne => midpoint lev j < a ∨ midpoint lev j = a ∧ j % 2 = 1
  | .rtz => lev (j + 1) ≤ a
  | .rup => if neg then lev (j + 1) ≤ a else lev j < a
  | .rdn => if neg then lev j < a else lev (j + 1) ≤ a

/-- The level k that the magnitude a is rounded to: all those below are passed. -/
def RoundsTo (lev : Nat → Rat) (rm : Rm) (neg : Bool) (a : Rat) (k : Nat) : Prop := ∀ j, j < k ↔ Passes lev rm neg a j

section Levels
variable {lev : Nat → Rat} (hlev : StrictMono lev)
include hlev

theorem lt_midpoint (j : Nat) : lev j < midpoint lev j := by
  have := hlev (Nat.lt_succ_self j)
  unfold midpoint; linarith

theorem midpoint_lt (j : Nat) : midpoint lev j < lev (j + 1) := by
  have := hlev (Nat.lt_succ_self j)
  unfold midpoint; linarith

/-- Every mode passes a level once the next is reached. -/
theorem passes_of_succ_le {j : Nat} (h : lev (j + 1) ≤ a) : Passes lev rm neg a j := by
  have hlt : lev j < a := (hlev (Nat.lt_succ_self j)).trans_le h
  cases rm with
  | rne => exact .inl ((midpoint_lt hlev j).trans_le h)
  | rtz => exact h
  | rup => cases neg <;> assumption
  | rdn => cases neg <;> assumption

/-- What a mode passes lies below. -/
theorem lt_of_passes {j : Nat} (h : Passes lev rm neg a j) : lev j < a := by
  have hmid := lt_midpoint hlev j
  have hle : lev (j + 1) ≤ a → lev j < a := (hlev (Nat.lt_succ_self j)).trans_le
  cases rm with
  | rne => exact hmid.trans_le (h.elim le_of_lt fun h => h.1.le)
  | rtz => exact hle h
  | rup => cases neg with
    | false => exact h
    | true => exact hle h
  | rdn => cases neg with
    | false => exact hle h
    | true => exact h

/-- Between two neighbours the mode decides. -/
theorem roundsTo_of_mem_Ico {lo : Nat} (hle : lev lo ≤ a) (hlt : a < lev (lo + 1)) (hup : Passes lev rm neg a lo → k = lo + 1)
    (hstay : ¬ Passes lev rm neg a lo → k = lo) : RoundsTo lev rm neg a k := by
  intro j
  rcases lt_trichotomy j lo with h | rfl | h
  · have hp : Passes lev rm neg a j := passes_of_succ_le hlev ((hlev.monotone h).trans hle)
    have : lo ≤ k := (em _).elim (fun hlo => hup hlo ▸ Nat.le_succ lo) fun hlo => (hstay hlo).ge
    exact iff_of_true (h.trans_le this) hp
  · exact (em _).elim (fun hlo => iff_of_true (hup hlo ▸ Nat.lt_succ_self j) hlo) fun hlo => iff_of_false (hstay hlo ▸ lt_irrefl j) hlo
  · have hp : ¬ Passes lev rm neg a j := fun hp => (hlt.trans_le (hlev.monotone h)).not_gt (lt_of_passes hlev hp)
    have : k ≤ lo + 1 := (em _).elim (fun hlo => (hup hlo).le) fun hlo => (hstay hlo).trans_le (Nat.le_succ lo)
    exact iff_of_false (by omega) hp

/-- A level is rounded to itself. -/
theorem roundsTo_level (rm : Rm) (neg : Bool) (k : Nat) : RoundsTo lev rm neg (lev k) k :=
  roundsTo_of_mem_Ico hlev le_rfl (hlev (Nat.lt_succ_self k)) (fun h => absurd (lt_of_passes hlev h) (lt_irrefl _)) fun _ => rfl

end Levels

/-- A mode that leads toward zero for this sign takes the largest magnitude not beyond a. -/
def TowardZero (rm : Rm) (neg : Bool) : Prop := rm = .rtz ∨ rm = .rup ∧ neg = true ∨ rm = .rdn ∧ neg = false

/-- A mode that leads away from zero for this sign takes the least magnitude not below a. -/
def Away (rm : Rm) (neg : Bool) : Prop := rm = .rup ∧ neg = false ∨ rm = .rdn ∧ neg = true

theorem RoundsTo.le_iff_of_towardZero (h : RoundsTo f.level rm neg a k) (hrm : TowardZero rm neg) (ha : 0 ≤ a) (j : Nat) :
    j ≤ k ↔ f.level j ≤ a := by
  cases j with
  | zero => simp [ha]
  | succ j =>
    rw [Nat.succ_le_iff, h j]
    rcases hrm with rfl | ⟨rfl, rfl⟩ | ⟨rfl, rfl⟩ <;> simp [Passes]

theorem RoundsTo.le_iff_of_away (h : RoundsTo f.level rm neg a k) (hrm : Away rm neg) (j : Nat) : k ≤ j ↔ a ≤ f.level j := by
  rw [← not_lt, h j, ← not_lt]
  rcases hrm with ⟨rfl, rfl⟩ | ⟨rfl, rfl⟩ <;> simp [Passes]

/-- To nearest, also when the bits are clamped to M: no magnitude up to M is nearer, and one as near leaves even bits. -/
theorem RoundsTo.nearest (h : RoundsTo f.level .rne neg a k) {M j : Nat} (hj : j ≤ M) :
    |a - f.level (min k M)| ≤ |a - f.level j| ∧ (|a - f.level (min k M)| = |a - f.level j| → j ≠ min k M → min k M % 2 = 0) := by
  rcases lt_trichotomy j (min k M) with hlt | rfl | hgt
  · obtain ⟨i, hi⟩ := Nat.exists_eq_succ_of_ne_zero (Nat.ne_zero_of_lt hlt)
    rw [hi] at hlt ⊢
    have hji : f.level j ≤ f.level i := f.level_strictMono.monotone (Nat.lt_succ_iff.mp hlt)
    have hii : f.level i < f.level (i + 1) := f.level_strictMono (Nat.lt_succ_self i)
    have hpass : midpoint f.level i < a ∨ midpoint f.level i = a ∧ i % 2 = 1 := (h i).mp (by omega)
    have hmid : (f.level i + f.level (i + 1)) / 2 ≤ a := hpass.elim le_of_lt fun h => h.1.le
    have haj : |a - f.level j| = a - f.level j := abs_of_nonneg (by linarith)
    refine ⟨by rw [haj, abs_le]; constructor <;> linarith, fun heq _ => ?_⟩
    have hle : a - f.level j ≤ f.level (i + 1) - a := by
      rw [haj] at heq
      rcases abs_choice (a - f.level (i + 1)) with habs | habs <;> rw [habs] at heq <;> linarith
    rcases hpass with hlt' | ⟨-, hodd⟩
    · unfold midpoint at hlt'; linarith
    · omega
  · exact ⟨le_rfl, fun _ hne => absurd rfl hne⟩
  · have hk : min k M = k := by omega
    rw [hk] at hgt ⊢
    have hkj : f.level (k + 1) ≤ f.level j := f.level_strictMono.monotone hgt
    have hkk : f.level k < f.level (k + 1) := f.level_strictMono (Nat.lt_succ_self k)
    have hpass : ¬ (midpoint f.level k < a ∨ midpoint f.level k = a ∧ k % 2 = 1) := fun hp => lt_irrefl k ((h k).mpr hp)
    have hmid : a ≤ (f.level k + f.level (k + 1)) / 2 := not_lt.mp fun hp => hpass (.inl hp)
    have haj : |a - f.level j| = f.level j - a := by rw [abs_sub_comm]; exact abs_of_nonneg (by linarith)
    refine ⟨by rw [haj, abs_le]; constructor <;> linarith, fun heq _ => ?_⟩
    have hge : midpoint f.level k = a := by
      rw [haj] at heq
      unfold midpoint
      rcases abs_choice (a - f.level k) with habs | habs <;> rw [habs] at heq <;> linarith
    exact Nat.mod_two_ne_one.mp fun hodd => hpass (.inr ⟨hge, hodd⟩)

/-! Overflow (R28). -/

/-- The bits of a rounded magnitude, with infinity or the largest value for what lies beyond. -/
def settled (f : Ffmt) (rm : Rm) (sat neg : Bool) (k : Nat) : Nat :=
  f.signBit neg + if sat = false ∧ rm.overflowsToInf neg = true ∧ f.maxBits < k then f.maxBits + 1 else min k f.maxBits

theorem Ieee.infBits_eq (hf : f.Ieee) (neg sat : Bool) : f.infBits neg sat = f.signBit neg + if sat then f.maxBits else f.maxBits + 1 := by
  cases sat <;> simp [infBits, hf.top, hf.maxBits_succ]

/-- From the midpoint beyond the largest value on (R28). -/
theorem Ieee.midpoint_maxBits (hf : f.Ieee) :
    midpoint f.level f.maxBits = f.largest + f.largest / ((2 ^ (f.fw + 2) - 2 : Nat) : Rat) := by
  have hew : 2 ^ 2 ≤ 2 ^ f.ew := Nat.pow_le_pow_right (by decide) hf.ew
  obtain ⟨E, hE⟩ := Nat.exists_eq_add_of_le' hew
  have hM : 2 ^ (f.fw + 1) + (E + 2 - 1) * 2 ^ f.fw = f.maxBits + 1 := by
    rw [hf.maxBits_succ, hE, show E + 2 ^ 2 - 1 = E + 2 - 1 + 2 by omega, add_mul, pow_succ]; omega
  have hpos := Nat.two_pow_pos f.fw
  have hM' : 2 ^ (f.fw + 1) - 1 + (E + 2 - 1) * 2 ^ f.fw = f.maxBits := by omega
  have h0 := level_place (f := f) (E := E + 2) (n := 2 ^ (f.fw + 1) - 1) (by omega) (Nat.sub_le _ 1) (.inl (by omega))
  have h1 := level_place (f := f) (E := E + 2) (n := 2 ^ (f.fw + 1)) (by omega) le_rfl (.inl (by omega))
  rw [hM'] at h0
  rw [hM] at h1
  have hp : (1 : Rat) ≤ 2 ^ f.fw := one_le_pow₀ one_le_two
  rw [midpoint, hf.largest_eq, h0, h1, Nat.cast_sub Nat.one_le_two_pow, Nat.cast_sub (by rw [pow_add]; omega)]
  generalize (2 : Rat) ^ (_ : Int) = u
  push_cast
  rw [pow_add, pow_add]
  have hhalf : ((2 ^ f.fw * 2 ^ 1 - 1) * u) / (2 ^ f.fw * 2 ^ 2 - 2) = u / 2 := by
    rw [div_eq_div_iff (by linarith) two_ne_zero]; ring
  rw [hhalf]; ring

theorem Ieee.overflows_iff (hf : f.Ieee) (h : RoundsTo f.level rm neg a k) (ha : 0 ≤ a) :
    f.Overflows rm (signed neg a) ↔ rm.overflowsToInf neg = true ∧ f.maxBits < k := by
  rw [h f.maxBits]
  have hL : 0 ≤ f.level f.maxBits := f.level_nonneg _
  cases rm with
  | rne => simp [Overflows, Rm.overflowsToInf, Passes, magnitude_signed neg ha, ← hf.midpoint_maxBits, hf.maxBits_odd, le_iff_lt_or_eq]
  | rtz => simp [Overflows, Rm.overflowsToInf]
  | rup => cases neg <;> simp [Overflows, Rm.overflowsToInf, Passes, hf.largest_eq]; linarith
  | rdn => cases neg <;> simp [Overflows, Rm.overflowsToInf, Passes, hf.largest_eq]; linarith

/-- A rounded magnitude is finite unless it becomes infinity: then the largest value stands for what lies beyond. -/
theorem Ieee.settled_cases (hf : f.Ieee) (rm : Rm) (sat neg : Bool) (k : Nat) :
    (sat = false ∧ rm.overflowsToInf neg = true ∧ f.maxBits < k) ∧ f.decode (f.settled rm sat neg k) = .inf neg
    ∨ ¬(sat = false ∧ rm.overflowsToInf neg = true ∧ f.maxBits < k) ∧ f.settled rm sat neg k = f.signBit neg + min k f.maxBits := by
  unfold settled
  split
  case isTrue h => exact .inl ⟨h, hf.decode_infinite neg⟩
  case isFalse h => exact .inr ⟨h, rfl⟩

theorem Ieee.signBit_add_even (hf : f.Ieee) (neg : Bool) (k : Nat) : (f.signBit neg + k) % 2 = k % 2 := by
  obtain ⟨m, hm⟩ := Nat.exists_eq_add_of_le' hf.fw
  cases neg
  · simp [signBit]
  · rw [signBit, if_pos rfl, hm, ← add_assoc, pow_succ, Nat.mul_add_mod']

theorem Ieee.represents_of_nonneg (hf : f.Ieee) {y : Rat} (h : f.Represents y) (hy : 0 ≤ y) : ∃ j ≤ f.maxBits, y = f.level j := by
  obtain ⟨neg, j, hj, rfl⟩ := hf.represents_iff.mp h
  cases neg with
  | false => exact ⟨j, hj, rfl⟩
  | true =>
    have hj0 : f.level j = 0 := le_antisymm (neg_nonneg.mp hy) (f.level_nonneg j)
    exact ⟨0, Nat.zero_le _, by simp [hj0]⟩

theorem Ieee.represents_neg (hf : f.Ieee) {y : Rat} (h : f.Represents y) : f.Represents (-y) := by
  obtain ⟨neg, j, hj, rfl⟩ := hf.represents_iff.mp h
  exact hf.represents_iff.mpr ⟨!neg, j, hj, by cases neg <;> simp⟩

/-- No number of the format is nearer than the one rounded to (R26), on either side of zero. -/
theorem Ieee.nearest (hf : f.Ieee) (h : RoundsTo f.level .rne neg a k) (ha : 0 ≤ a) {y : Rat} (hy : f.Represents y) :
    magnitude (signed neg a - signed neg (f.level (min k f.maxBits))) ≤ magnitude (signed neg a - y)
    ∧ (magnitude (signed neg a - signed neg (f.level (min k f.maxBits))) = magnitude (signed neg a - y) →
        y ≠ signed neg (f.level (min k f.maxBits)) → min k f.maxBits % 2 = 0) := by
  obtain ⟨neg', j, hj, rfl⟩ := hf.represents_iff.mp hy
  rcases eq_or_ne neg' neg with rfl | hne
  · rw [magnitude_signed_sub, magnitude_signed_sub]
    obtain ⟨hle, heven⟩ := h.nearest hj
    exact ⟨hle, fun heq hne => heven heq fun hjk => hne (by rw [hjk])⟩
  · have hsum : magnitude (signed neg a - signed neg' (f.level j)) = a + f.level j := by
      have hopp : signed neg' (f.level j) = signed neg (-f.level j) := by cases neg <;> cases neg' <;> simp_all
      rw [hopp, magnitude_signed_sub, sub_neg_eq_add, abs_of_nonneg (add_nonneg ha (f.level_nonneg j))]
    obtain ⟨hle, heven⟩ := h.nearest (Nat.zero_le f.maxBits)
    rw [level_zero, sub_zero, abs_of_nonneg ha] at hle heven
    have hj0 := f.level_nonneg j
    rw [hsum, magnitude_signed_sub]
    refine ⟨by linarith, fun heq hne => heven (by linarith) fun hk0 => hne ?_⟩
    have : f.level j = 0 := by linarith
    rw [← hk0, level_zero, this]
    cases neg <;> cases neg' <;> simp

/-- Toward zero: the largest magnitude not beyond a, also when clamped to the largest value. -/
theorem RoundsTo.level_le_iff (h : RoundsTo f.level rm neg a k) (hrm : TowardZero rm neg) (ha : 0 ≤ a) {j : Nat} (hj : j ≤ f.maxBits) :
    f.level j ≤ f.level (min k f.maxBits) ↔ f.level j ≤ a := by
  rw [f.level_strictMono.le_iff_le, le_min_iff, and_iff_left hj, h.le_iff_of_towardZero hrm ha]

theorem RoundsTo.level_le (h : RoundsTo f.level rm neg a k) (hrm : TowardZero rm neg) (ha : 0 ≤ a) : f.level (min k f.maxBits) ≤ a :=
  (h.level_le_iff hrm ha (min_le_right _ _)).mp le_rfl

/-- Away from zero: the least magnitude not below a, or the largest value. -/
theorem RoundsTo.le_level (h : RoundsTo f.level rm neg a k) (hrm : Away rm neg) : a ≤ f.level (min k f.maxBits) ∨ min k f.maxBits = f.maxBits :=
  (min_choice k f.maxBits).imp_left fun hk => (h.le_iff_of_away hrm _).mp hk.ge

theorem RoundsTo.level_le_of_le (h : RoundsTo f.level rm neg a k) (hrm : Away rm neg) {j : Nat} (hj : a ≤ f.level j) :
    f.level (min k f.maxBits) ≤ f.level j :=
  f.level_strictMono.monotone ((min_le_left _ _).trans ((h.le_iff_of_away hrm j).mpr hj))

/-- Toward plus infinity, for a number x and the number v it is rounded to. -/
def UpTo (f : Ffmt) (x v : Rat) : Prop := (x ≤ v ∨ v = f.largest) ∧ ∀ y, f.Represents y → x ≤ y → v ≤ y

theorem Ieee.upTo_of_away (hf : f.Ieee) (h : RoundsTo f.level rm neg a k) (hrm : Away rm neg) (ha : 0 ≤ a) : f.UpTo a (f.level (min k f.maxBits)) := by
  refine ⟨(h.le_level hrm).imp_right fun hk => by rw [hk, hf.largest_eq], fun y hy hay => ?_⟩
  obtain ⟨j, -, rfl⟩ := hf.represents_of_nonneg hy (ha.trans hay)
  exact h.level_le_of_le hrm hay

theorem Ieee.upTo_neg_of_towardZero (hf : f.Ieee) (h : RoundsTo f.level rm neg a k) (hrm : TowardZero rm neg) (ha : 0 ≤ a) :
    f.UpTo (-a) (-f.level (min k f.maxBits)) := by
  refine ⟨.inl (neg_le_neg (h.level_le hrm ha)), fun y hy hay => ?_⟩
  rcases le_total 0 y with h0 | h0
  · have := f.level_nonneg (min k f.maxBits); linarith
  · obtain ⟨j, hj, hyj⟩ := hf.represents_of_nonneg (hf.represents_neg hy) (neg_nonneg.mpr h0)
    have := (h.level_le_iff hrm ha hj).mpr (by linarith)
    linarith

/-- Toward minus infinity is toward plus infinity of the negated numbers. -/
theorem Ieee.downTo_of_upTo_neg (hf : f.Ieee) {x v : Rat} (h : f.UpTo (-x) (-v)) :
    (v ≤ x ∨ v = -f.largest) ∧ ∀ y, f.Represents y → y ≤ x → y ≤ v := by
  obtain ⟨hle, hleast⟩ := h
  exact ⟨hle.imp neg_le_neg_iff.mp neg_eq_iff_eq_neg.mp, fun y hy hyx => neg_le_neg_iff.mp (hleast _ (hf.represents_neg hy) (neg_le_neg hyx))⟩

theorem Ieee.settled_bits (hf : f.Ieee) (rm : Rm) (sat neg : Bool) (k : Nat) :
    f.settled rm sat neg k < 2 ^ f.width ∧ (f.settled rm sat neg k).testBit (f.ew + f.fw) = neg := by
  have hmax := hf.maxBits_lt
  have hlt : (if sat = false ∧ rm.overflowsToInf neg = true ∧ f.maxBits < k then f.maxBits + 1 else min k f.maxBits) < 2 ^ (f.ew + f.fw) := by
    split <;> omega
  exact ⟨f.signBit_lt neg hlt, testBit_signBit neg hlt⟩

/-- The bits that a magnitude is rounded to, settled by R28, are its number rounded once. -/
theorem Ieee.rounds_settled (hf : f.Ieee) (h : RoundsTo f.level rm neg a k) (ha : 0 ≤ a) (sat : Bool) :
    f.Rounds rm sat (signed neg a) neg (f.settled rm sat neg k) := by
  have hover := hf.overflows_iff h ha
  obtain ⟨hbits, hsign⟩ := hf.settled_bits rm sat neg k
  rcases hf.settled_cases rm sat neg k with ⟨hinf, hdec⟩ | ⟨hfinite, heq⟩
  · have hnot : (f.decode (f.settled rm sat neg k)).isFin ≠ true := by rw [hdec]; exact Bool.false_ne_true
    obtain ⟨hsat, hcase⟩ := hinf
    exact {
      bits := hbits
      sign := hsign
      infinite := iff_of_true hdec ⟨hsat, hover.mpr hcase⟩
      finite := .inl hdec
      nearest := fun _ hfin => absurd hfin hnot
      toZero := by rintro rfl; cases hcase.1
      up := fun _ hfin => absurd hfin hnot
      down := fun _ hfin => absurd hfin hnot }
  · have hfin := hf.isFin_decode neg (min_le_right k f.maxBits)
    have hval := hf.val_decode neg (min_le_right k f.maxBits)
    rw [heq] at hbits hsign ⊢
    exact {
      bits := hbits
      sign := hsign
      infinite := iff_of_false (fun hd => by rw [hd] at hfin; cases hfin) fun hs => hfinite ⟨hs.1, hover.mp hs.2⟩
      finite := .inr hfin
      nearest := by
        rintro rfl - y hy
        rw [hval, hf.signBit_add_even]
        exact hf.nearest h ha hy
      toZero := by
        rintro rfl
        rw [hval, magnitude_signed neg (f.level_nonneg _), magnitude_signed neg ha]
        refine ⟨h.level_le (.inl rfl) ha, fun y hy hya => ?_⟩
        obtain ⟨neg', j, hj, rfl⟩ := hf.represents_iff.mp hy
        rw [magnitude_signed neg' (f.level_nonneg j)] at hya ⊢
        exact (h.level_le_iff (.inl rfl) ha hj).mpr hya
      up := by
        rintro rfl -
        rw [hval]
        cases neg with
        | false => exact hf.upTo_of_away h (.inl ⟨rfl, rfl⟩) ha
        | true => exact hf.upTo_neg_of_towardZero h (.inr (.inl ⟨rfl, rfl⟩)) ha
      down := by
        rintro rfl -
        rw [hval]
        refine hf.downTo_of_upTo_neg ?_
        cases neg with
        | false => exact hf.upTo_neg_of_towardZero h (.inr (.inr ⟨rfl, rfl⟩)) ha
        | true => simpa using hf.upTo_of_away h (.inr ⟨rfl, rfl⟩) ha }

end Ffmt
end Sys2Proof.Machine
end

section
/-! SUPPORT. roundFin rounds once (R26, R28): a count of units with a rest, and its place among the magnitudes of the format. -/

namespace Sys2Proof.Machine

/-- The magnitude that roundUnits is given: mag units of 2^e, and more by less than one unit when sticky. -/
def StandsFor (mag : Nat) (e : Int) (sticky : Bool) (a : Rat) : Prop :=
  ∃ d : Rat, 0 ≤ d ∧ d < 1 ∧ (sticky = true ↔ 0 < d) ∧ a = (mag + d) * 2 ^ e

theorem standsFor_exact (mag : Nat) (e : Int) : StandsFor mag e false (mag * 2 ^ e) := ⟨0, by simp⟩

/-- The multiples of 2^q. -/
def unitLevel (q : Int) (j : Nat) : Rat := j * 2 ^ q

theorem unitLevel_strictMono (q : Int) : StrictMono (unitLevel q) := fun _ _ h =>
  mul_lt_mul_of_pos_right (Nat.cast_lt.mpr h) (by positivity)

section Rest
variable {d : Rat} (h0 : 0 ≤ d) (h1 : d < 1) (m r : Nat)
include h0 h1

theorem cast_lt_add_rest : (m : Rat) < r + d ↔ m < r ∨ r = m ∧ 0 < d := by
  rcases lt_trichotomy m r with h | rfl | h
  · have : (m : Rat) < r := Nat.cast_lt.mpr h
    exact iff_of_true (by linarith) (.inl h)
  · simp
  · have : (r : Rat) + 1 ≤ m := by exact_mod_cast h
    exact iff_of_false (by linarith) (by omega)

theorem cast_eq_add_rest : (m : Rat) = r + d ↔ r = m ∧ d = 0 := by
  constructor
  · intro h
    rcases lt_trichotomy m r with hlt | rfl | hlt
    · have : (m : Rat) < r := Nat.cast_lt.mpr hlt
      linarith
    · exact ⟨rfl, by linarith⟩
    · have : (r : Rat) + 1 ≤ m := by exact_mod_cast hlt
      linarith
  · rintro ⟨rfl, rfl⟩; simp

end Rest

/-- Whether roundUnits adds one to its quotient n, of remainder rem. -/
def roundsUp (rm : Rm) (neg sticky : Bool) (n rem half : Nat) : Bool :=
  match rm with
  | .rne => decide (half < rem) || (rem == half && (sticky || n % 2 == 1))
  | .rtz => false
  | .rup => !(rem == 0 && !sticky) && !neg
  | .rdn => !(rem == 0 && !sticky) && neg

theorem roundUnits_fine (rm : Rm) (neg : Bool) (mag : Nat) (e : Int) (sticky : Bool) (s : Nat) :
    roundUnits rm neg mag e sticky (e + (s + 1 : Nat)) =
      if roundsUp rm neg sticky (mag / 2 ^ (s + 1)) (mag % 2 ^ (s + 1)) (2 ^ s) then mag / 2 ^ (s + 1) + 1 else mag / 2 ^ (s + 1) := by
  have hs : (e + (s + 1 : Nat) - e).toNat = s + 1 := by omega
  have hrem : mag - mag / 2 ^ (s + 1) * 2 ^ (s + 1) = mag % 2 ^ (s + 1) := by
    have := Nat.div_add_mod' mag (2 ^ (s + 1)); omega
  unfold roundUnits
  rw [if_neg (by omega)]
  simp only [hs, Nat.shiftRight_eq_div_pow, Nat.shiftLeft_eq, hrem, one_mul, Nat.add_sub_cancel]
  cases rm <;> rfl

section Coarser
variable {mag : Nat} {e q : Int} {sticky : Bool} {a : Rat} {s : Nat}

theorem unitLevel_coarser (hq : q = e + (s + 1 : Nat)) (j : Nat) : unitLevel q j = j * 2 ^ (s + 1) * 2 ^ e := by
  rw [unitLevel, hq, zpow_add₀ two_ne_zero, zpow_natCast]; ring

theorem StandsFor.unitLevel_div_le (h : StandsFor mag e sticky a) (hq : q = e + (s + 1 : Nat)) : unitLevel q (mag / 2 ^ (s + 1)) ≤ a := by
  obtain ⟨d, h0, -, -, rfl⟩ := h
  have hle : ((mag / 2 ^ (s + 1) : Nat) : Rat) * 2 ^ (s + 1) ≤ mag := by exact_mod_cast Nat.div_mul_le_self mag (2 ^ (s + 1))
  rw [unitLevel_coarser hq]
  exact mul_le_mul_of_nonneg_right (by linarith) (by positivity)

theorem StandsFor.lt_unitLevel_div_succ (h : StandsFor mag e sticky a) (hq : q = e + (s + 1 : Nat)) :
    a < unitLevel q (mag / 2 ^ (s + 1) + 1) := by
  obtain ⟨d, -, h1, -, rfl⟩ := h
  have hlt : (mag : Rat) + 1 ≤ ((mag / 2 ^ (s + 1) + 1 : Nat) : Rat) * 2 ^ (s + 1) := by
    exact_mod_cast Nat.lt_div_mul_add (Nat.two_pow_pos (s + 1)) |>.trans_eq (Nat.succ_mul _ _).symm
  rw [unitLevel_coarser hq]
  exact mul_lt_mul_of_pos_right (by linarith) (by positivity)

/-- The bits dropped and the rest decide as the magnitude does among the multiples of the coarser unit. -/
theorem StandsFor.roundsUp_iff (h : StandsFor mag e sticky a) (hq : q = e + (s + 1 : Nat)) (rm : Rm) (neg : Bool) :
    roundsUp rm neg sticky (mag / 2 ^ (s + 1)) (mag % 2 ^ (s + 1)) (2 ^ s) = true ↔ Ffmt.Passes (unitLevel q) rm neg a (mag / 2 ^ (s + 1)) := by
  have hsucc := (h.lt_unitLevel_div_succ hq).not_ge
  obtain ⟨d, h0, h1, hsticky, rfl⟩ := h
  have hdiv := Nat.div_add_mod' mag (2 ^ (s + 1))
  generalize mag / 2 ^ (s + 1) = n, mag % 2 ^ (s + 1) = rem at hdiv hsucc ⊢
  have hu : (0 : Rat) < 2 ^ e := by positivity
  have ha : ((mag : Rat) + d) * 2 ^ e = (n * 2 ^ (s + 1) + (rem + d)) * 2 ^ e := by
    rw [← hdiv]; push_cast; ring
  have hmid : Ffmt.midpoint (unitLevel q) n = (n * 2 ^ (s + 1) + (2 ^ s : Nat)) * 2 ^ e := by
    rw [Ffmt.midpoint, unitLevel_coarser hq, unitLevel_coarser hq]; push_cast; ring
  have hbelow : unitLevel q n < (mag + d) * 2 ^ e ↔ ¬(rem = 0 ∧ sticky = false) := by
    rw [ha, unitLevel_coarser hq, mul_lt_mul_iff_left₀ hu, lt_add_iff_pos_right, ← Nat.cast_zero, cast_lt_add_rest h0 h1, ← hsticky]
    cases sticky <;> simp <;> omega
  have hhalf : Ffmt.midpoint (unitLevel q) n < (mag + d) * 2 ^ e ↔ 2 ^ s < rem ∨ rem = 2 ^ s ∧ sticky = true := by
    rw [ha, hmid, mul_lt_mul_iff_left₀ hu, add_lt_add_iff_left, cast_lt_add_rest h0 h1, hsticky]
  have htie : Ffmt.midpoint (unitLevel q) n = (mag + d) * 2 ^ e ↔ rem = 2 ^ s ∧ sticky = false := by
    rw [ha, hmid, mul_left_inj' hu.ne', add_right_inj, cast_eq_add_rest h0 h1, ← Bool.not_eq_true, hsticky, not_lt, h0.ge_iff_eq']
  cases rm with
  | rne =>
    simp only [roundsUp, Ffmt.Passes, hhalf, htie]
    cases sticky <;> simp
  | rtz => simp [roundsUp, Ffmt.Passes, hsucc]
  | rup => cases neg <;> simp [roundsUp, Ffmt.Passes, hsucc, hbelow, or_iff_not_imp_left]
  | rdn => cases neg <;> simp [roundsUp, Ffmt.Passes, hsucc, hbelow, or_iff_not_imp_left]

end Coarser

/-- roundUnits rounds to the multiples of 2^q: its answer lies at or next after the quotient, as the mode decides. -/
theorem roundUnits_quotient (rm : Rm) (neg : Bool) {mag : Nat} {e q : Int} {sticky : Bool} {a : Rat} (h : StandsFor mag e sticky a)
    (hq : sticky = true → e < q) :
    ∃ n, unitLevel q n ≤ a ∧ a < unitLevel q (n + 1) ∧ (Ffmt.Passes (unitLevel q) rm neg a n → roundUnits rm neg mag e sticky q = n + 1)
      ∧ (¬ Ffmt.Passes (unitLevel q) rm neg a n → roundUnits rm neg mag e sticky q = n) := by
  rcases le_or_gt q e with hle | hlt
  · obtain ⟨d, h0, -, hsticky, rfl⟩ := h
    have hd : d = 0 := le_antisymm (not_lt.mp fun hd => (hq (hsticky.mpr hd)).not_ge hle) h0
    obtain ⟨s, rfl⟩ := Int.le.dest hle
    have hunits : roundUnits rm neg mag (q + s) sticky q = mag * 2 ^ s := by
      rw [roundUnits, if_pos hle, show (q + s - q).toNat = s by omega, Nat.shiftLeft_eq]
    have hval : ((mag : Rat) + d) * 2 ^ (q + s) = unitLevel q (mag * 2 ^ s) := by
      rw [hd, unitLevel, zpow_add₀ two_ne_zero, zpow_natCast]; push_cast; ring
    rw [hval]
    exact ⟨mag * 2 ^ s, le_rfl, unitLevel_strictMono q (Nat.lt_succ_self _),
      fun hp => absurd (Ffmt.lt_of_passes (unitLevel_strictMono q) hp) (lt_irrefl _), fun _ => hunits⟩
  · obtain ⟨s, hs⟩ : ∃ s : Nat, q = e + (s + 1 : Nat) := ⟨(q - e - 1).toNat, by omega⟩
    have hup := h.roundsUp_iff hs rm neg
    have hunits := roundUnits_fine rm neg mag e sticky s
    rw [← hs] at hunits
    exact ⟨mag / 2 ^ (s + 1), h.unitLevel_div_le hs, h.lt_unitLevel_div_succ hs, fun hp => hunits.trans (if_pos (hup.mpr hp)),
      fun hp => hunits.trans (if_neg (mt hup.mp hp))⟩

/-- The magnitude lies in the binade that roundFin takes. -/
theorem StandsFor.mem_binade {mag : Nat} {e : Int} {sticky : Bool} {a : Rat} (h : StandsFor mag e sticky a) (hmag : mag ≠ 0) :
    2 ^ ilog2 mag e ≤ a ∧ a < 2 ^ (ilog2 mag e + 1) := by
  obtain ⟨d, h0, h1, -, rfl⟩ := h
  have hle : (2 : Rat) ^ mag.log2 ≤ mag := by exact_mod_cast Nat.log2_self_le hmag
  have hlt : (mag : Rat) + 1 ≤ 2 ^ (mag.log2 + 1) := by exact_mod_cast Nat.lt_log2_self
  rw [ilog2, add_right_comm, zpow_add₀ two_ne_zero, zpow_add₀ two_ne_zero _ e, zpow_natCast, ← Nat.cast_add_one, zpow_natCast]
  exact ⟨mul_le_mul_of_nonneg_right (by linarith) (by positivity), mul_lt_mul_of_pos_right (by linarith) (by positivity)⟩

namespace Ffmt
variable {f : Ffmt} {rm : Rm} {neg : Bool} {a : Rat}

/-- Counts of units in row E have the bits of the magnitudes there, and the mode decides alike (the places of a row start at even bits). -/
theorem Ieee.roundsTo_place (hf : f.Ieee) {E n k : Nat} {q : Int} (hq : q = (E : Int) - f.bias - f.fw) (hE : 1 ≤ E) (hn : n < 2 ^ (f.fw + 1))
    (hlow : 2 ^ f.fw ≤ n ∨ E = 1) (hle : unitLevel q n ≤ a) (hlt : a < unitLevel q (n + 1))
    (hup : Passes (unitLevel q) rm neg a n → k = n + 1) (hstay : ¬ Passes (unitLevel q) rm neg a n → k = n) :
    RoundsTo f.level rm neg a (k + (E - 1) * 2 ^ f.fw) := by
  have h0 : f.level (n + (E - 1) * 2 ^ f.fw) = unitLevel q n := hq ▸ level_place hE hn.le hlow
  have h1 : f.level (n + (E - 1) * 2 ^ f.fw + 1) = unitLevel q (n + 1) := by
    rw [add_right_comm, hq]; exact level_place hE hn (hlow.imp_left Nat.le_succ_of_le)
  have hparity : (n + (E - 1) * 2 ^ f.fw) % 2 = n % 2 := by
    obtain ⟨m, hm⟩ := Nat.exists_eq_add_of_le' hf.fw
    rw [hm, pow_succ, ← mul_assoc, Nat.add_mul_mod_self_right]
  have hpass : Passes f.level rm neg a (n + (E - 1) * 2 ^ f.fw) ↔ Passes (unitLevel q) rm neg a n := by
    simp only [Passes, midpoint, h0, h1, hparity]
  rw [← h0] at hle
  rw [← h1] at hlt
  refine roundsTo_of_mem_Ico f.level_strictMono hle hlt (fun h => ?_) fun h => ?_
  · rw [hup (hpass.mp h)]; omega
  · rw [hstay (mt hpass.mpr h)]

/-- The bits roundFin makes of n units of 2^q, where n may have carried into the next row. -/
def placeBits (f : Ffmt) (q : Int) (n : Nat) : Nat :=
  let carry := n == 2 ^ (f.fw + 1)
  let n' := if carry then 2 ^ f.fw else n
  let ex : Int := (if carry then q + 1 else q) + f.fw + f.bias
  if n' < 2 ^ f.fw then n' else ex.toNat * 2 ^ f.fw + (n' - 2 ^ f.fw)

theorem placeBits_eq {E n : Nat} {q : Int} (hq : q = (E : Int) - f.bias - f.fw) (hE : 1 ≤ E) (hlow : 2 ^ f.fw ≤ n ∨ E = 1) :
    f.placeBits q n = n + (E - 1) * 2 ^ f.fw := by
  have hpos := Nat.two_pow_pos f.fw
  obtain ⟨E, rfl⟩ := Nat.exists_eq_add_of_le' hE
  rw [placeBits, Nat.add_sub_cancel]
  by_cases hcarry : n = 2 ^ (f.fw + 1)
  · have hexp : (q + 1 + f.fw + f.bias).toNat = E + 2 := by omega
    simp only [hcarry, beq_self_eq_true, if_true, lt_irrefl, if_false, hexp, Nat.sub_self]
    rw [pow_succ]; ring
  · have hexp : (q + f.fw + f.bias).toNat = E + 1 := by omega
    simp only [beq_eq_false_iff_ne.mpr hcarry, Bool.false_eq_true, if_false, hexp]
    split
    case isTrue hsub =>
      obtain rfl : E = 0 := by omega
      omega
    case isFalse hnormal => rw [add_mul]; omega

theorem Ieee.settled_eq (hf : f.Ieee) (rm : Rm) (sat neg : Bool) (k : Nat) :
    f.settled rm sat neg k = if f.maxBits < k then (if sat || !rm.overflowsToInf neg then f.signBit neg + f.maxBits else f.infBits neg false)
      else f.signBit neg + k := by
  rw [settled, hf.infBits_eq]
  by_cases h : f.maxBits < k
  · rw [if_pos h, min_eq_right h.le]
    cases sat <;> cases rm.overflowsToInf neg <;> simp [h]
  · rw [if_neg h, if_neg fun hs => h hs.2.2, min_eq_left (not_lt.mp h)]

/-- roundFin of a magnitude other than 0: the count of units, its bits, and what R28 makes of those beyond the largest value. -/
theorem Ieee.roundFin_eq (hf : f.Ieee) (rm : Rm) (sat neg : Bool) {mag : Nat} (e : Int) (sticky : Bool) (hmag : mag ≠ 0) :
    f.roundFin rm sat neg mag e sticky =
      f.settled rm sat neg (f.placeBits (max (ilog2 mag e) (1 - (f.bias : Int)) - f.fw)
        (roundUnits rm neg mag e sticky (max (ilog2 mag e) (1 - (f.bias : Int)) - f.fw))) := by
  rw [hf.settled_eq, roundFin, if_neg hmag]
  simp [placeBits, hf.top]

/-- roundFin rounds once: an exact magnitude, or one with a rest and more bits than the format keeps. -/
theorem Ieee.rounds_roundFin (hf : f.Ieee) (rm : Rm) (sat neg : Bool) {mag : Nat} {e : Int} {sticky : Bool} (h : StandsFor mag e sticky a)
    (hmag : mag ≠ 0) (hbits : sticky = true → f.fw < mag.log2) :
    f.Rounds rm sat (signed neg a) neg (f.roundFin rm sat neg mag e sticky) := by
  obtain ⟨E, hE⟩ : ∃ E : Nat, max (ilog2 mag e) (1 - (f.bias : Int)) = E - f.bias :=
    ⟨(max (ilog2 mag e) (1 - (f.bias : Int)) + f.bias).toNat, by omega⟩
  have hE1 : 1 ≤ E := by omega
  obtain ⟨hge, hlt⟩ := h.mem_binade hmag
  obtain ⟨n, hn, hn', hup, hstay⟩ := roundUnits_quotient rm neg h (q := (E : Int) - f.bias - f.fw) fun hs => by
    have := hbits hs
    unfold ilog2 at hE; omega
  have ha : 0 ≤ a := (by positivity : (0 : Rat) ≤ 2 ^ ilog2 mag e).trans hge
  have hunit (j : Nat) : (2 : Rat) ^ ((E : Int) - f.bias - f.fw + j) = unitLevel ((E : Int) - f.bias - f.fw) (2 ^ j) := by
    rw [unitLevel, zpow_add₀ two_ne_zero, zpow_natCast, mul_comm]; push_cast; rfl
  have hnlt : n < 2 ^ (f.fw + 1) := by
    refine (unitLevel_strictMono _).lt_iff_lt.mp (hn.trans_lt (hlt.trans_le ?_))
    rw [← hunit]
    exact zpow_le_zpow_right₀ one_le_two (by omega)
  have hlow : 2 ^ f.fw ≤ n ∨ E = 1 := by
    refine or_iff_not_imp_right.mpr fun hE' => Nat.lt_succ_iff.mp ((unitLevel_strictMono _).lt_iff_lt.mp (lt_of_le_of_lt ?_ hn'))
    rw [← hunit]
    exact (zpow_le_zpow_right₀ one_le_two (by omega)).trans hge
  have hle : n ≤ roundUnits rm neg mag e sticky ((E : Int) - f.bias - f.fw) :=
    (em _).elim (fun hp => (hup hp).symm ▸ Nat.le_succ n) fun hp => (hstay hp).ge
  rw [hf.roundFin_eq rm sat neg e sticky hmag, hE, placeBits_eq rfl hE1 (hlow.imp_left hle.trans')]
  exact hf.rounds_settled (hf.roundsTo_place rfl hE1 hnlt hlow hn hn' hup hstay) ha sat

end Ffmt
end Sys2Proof.Machine
end

section
/-! SUPPORT. Finite floating-point results (R25, R28, R308, R317): a value, an exact sum or product and a quotient, and their one rounding. -/

namespace Sys2Proof.Machine

/-! Rounding a value. -/

namespace Ffmt
variable {f : Ffmt}

theorem Ieee.rounds_zero (hf : f.Ieee) (rm : Rm) (sat neg : Bool) : f.Rounds rm sat 0 neg (f.signBit neg) := by
  have h := hf.rounds_settled (roundsTo_level f.level_strictMono rm neg 0) (f.level_nonneg 0) sat
  rw [level_zero, signed_zero] at h
  simpa [settled] using h

/-- A finite value is rounded once. -/
theorem Ieee.rounds_encode (hf : f.Ieee) (rm : Rm) (sat neg : Bool) (mag : Nat) (e : Int) :
    f.Rounds rm sat (Fv.fin neg mag e).val neg (f.encode rm sat (.fin neg mag e)) := by
  rw [Fv.val_fin]
  rcases eq_or_ne mag 0 with rfl | hmag
  · have h := hf.rounds_zero rm sat neg
    simpa [encode, roundFin] using h
  · exact hf.rounds_roundFin rm sat neg (standsFor_exact mag e) hmag Bool.false_ne_true.elim

theorem Ieee.rounds_encode_of_isFin (hf : f.Ieee) (rm : Rm) (sat : Bool) {x : Fv} (hx : x.isFin = true) :
    f.Rounds rm sat x.val x.sign (f.encode rm sat x) := by
  cases x with
  | fin neg mag e => exact hf.rounds_encode rm sat neg mag e
  | nan => cases hx
  | inf n => cases hx

theorem Ieee.nanBits_lt (hf : f.Ieee) : f.nanBits < 2 ^ f.width := by
  have h := hf.maxBits_lt
  have hlt : 2 ^ (f.fw - 1) < 2 ^ f.fw := Nat.pow_lt_pow_right one_lt_two (Nat.sub_lt hf.fw one_pos)
  have hsum : f.nanBits < 2 ^ f.ew * 2 ^ f.fw := by
    have hrow : (2 ^ f.ew - 1) * 2 ^ f.fw + 2 ^ f.fw = 2 ^ f.ew * 2 ^ f.fw := by
      rw [← Nat.succ_mul, Nat.succ_eq_add_one, Nat.sub_add_cancel Nat.one_le_two_pow]
    simp only [nanBits, hf.top]
    omega
  rw [← pow_add] at hsum
  exact hsum.trans (Nat.pow_lt_pow_right one_lt_two (by rw [width]; omega))

theorem Ieee.infBits_lt (hf : f.Ieee) (neg sat : Bool) : f.infBits neg sat < 2 ^ f.width := by
  have := hf.maxBits_lt
  rw [hf.infBits_eq]
  exact f.signBit_lt neg (by split <;> omega)

/-- Every result fits the format. -/
theorem Ieee.encode_lt (hf : f.Ieee) (rm : Rm) (sat : Bool) (x : Fv) : f.encode rm sat x < 2 ^ f.width := by
  cases x with
  | fin neg mag e => exact (hf.rounds_encode rm sat neg mag e).bits
  | nan => exact hf.nanBits_lt
  | inf n => exact hf.infBits_lt n sat

/-- The sign of a decoded value that is no NaN is the sign bit. -/
theorem sign_decode {bits : Nat} (h : (f.decode bits).isFin = true) : (f.decode bits).sign = bits.testBit (f.ew + f.fw) := by
  unfold decode at h ⊢
  simp only at h ⊢
  split_ifs at h ⊢
  · cases h
  · cases h
  · cases h
  · rfl
  · rfl

end Ffmt

/-! Exact sums and products (R25, R28). -/

theorem scaledInt_cast (neg : Bool) (mag : Nat) {e e0 : Int} (h : e0 ≤ e) : (scaledInt neg mag e e0 : Rat) * 2 ^ e0 = (Fv.fin neg mag e).val := by
  obtain ⟨k, rfl⟩ := Int.le.dest h
  rw [Fv.val_fin, scaledInt, show (e0 + k - e0).toNat = k by omega, Nat.shiftLeft_eq, zpow_add₀ two_ne_zero, zpow_natCast]
  cases neg <;> simp <;> ring

theorem val_ofInt_scaled (t e : Int) : (Fv.fin (decide (t < 0)) t.natAbs e).val = t * 2 ^ e := by
  rw [Fv.val_fin]
  rcases lt_or_ge t 0 with h | h
  · rw [decide_eq_true h, signed_true, Nat.cast_natAbs, abs_of_neg h]; push_cast; ring
  · rw [decide_eq_false h.not_gt, signed_false, Nat.cast_natAbs, abs_of_nonneg h]

theorem val_fin_zero (neg : Bool) (e : Int) : (Fv.fin neg 0 e).val = 0 := by
  rw [Fv.val_fin]; simp

theorem val_fin_eq_zero {neg : Bool} {mag : Nat} {e : Int} : (Fv.fin neg mag e).val = 0 ↔ mag = 0 := by
  rw [Fv.val_fin, signed_eq_zero, mul_eq_zero, Nat.cast_eq_zero]
  exact or_iff_left (by positivity)

theorem Fv.isFin_iff {x : Fv} : x.isFin = true ↔ ∃ n m e, x = .fin n m e := by
  cases x <;> simp [Fv.isFin]

theorem Fv.sign_of_val_ne_zero {x : Fv} (h : x.val ≠ 0) : x.sign = decide (x.val < 0) := by
  cases x with
  | fin n m e =>
    have hpos : (0 : Rat) < m * 2 ^ e := lt_of_le_of_ne (by positivity) fun h0 => h (by rw [Fv.val_fin, ← h0, signed_zero])
    rw [Fv.val_fin]
    cases n
    · exact (decide_eq_false (by simpa using hpos.le)).symm
    · exact (decide_eq_true (by simpa using hpos)).symm
  | nan => exact absurd rfl h
  | inf n => exact absurd rfl h

/-- Numbers other than 0 whose sum is 0 have unlike signs. -/
theorem Fv.sign_ne_of_add_eq_zero {a b : Fv} (ha : a.val ≠ 0) (h : a.val + b.val = 0) : a.sign ≠ b.sign := by
  have hb : b.val = -a.val := by linarith
  rw [Fv.sign_of_val_ne_zero ha, Fv.sign_of_val_ne_zero (hb ▸ neg_ne_zero.mpr ha), hb, Ne, decide_eq_decide, neg_lt_zero]
  rcases lt_or_gt_of_ne ha with hlt | hgt
  · exact fun h => lt_asymm hlt (h.mp hlt)
  · exact fun h => lt_asymm hgt (h.mpr hgt)

/-- The sum of two numbers other than 0 is that of their counts of a common unit. -/
theorem Fv.add_of_ne_zero (rm : Rm) (na nb : Bool) {ma mb : Nat} (ea eb : Int) (hma : ma ≠ 0) (hmb : mb ≠ 0) :
    ∃ t e0 : Int, Fv.add rm (.fin na ma ea) (.fin nb mb eb) = (if t = 0 then .fin (rm == .rdn) 0 e0 else .fin (decide (t < 0)) t.natAbs e0)
      ∧ (t : Rat) * 2 ^ e0 = (Fv.fin na ma ea).val + (Fv.fin nb mb eb).val := by
  refine ⟨scaledInt na ma ea (min ea eb) + scaledInt nb mb eb (min ea eb), min ea eb, by simp [Fv.add, hma, hmb], ?_⟩
  rw [Int.cast_add, add_mul, scaledInt_cast na ma (min_le_left ea eb), scaledInt_cast nb mb (min_le_right ea eb)]

/-- The exact sum of finite values, and the sign of an exact zero. -/
theorem Fv.add_exact (rm : Rm) {a b : Fv} (ha : a.isFin = true) (hb : b.isFin = true) :
    (Fv.add rm a b).isFin = true ∧ (Fv.add rm a b).val = a.val + b.val
    ∧ (a.val + b.val = 0 → (Fv.add rm a b).sign = if a.sign = b.sign then a.sign else decide (rm = .rdn)) := by
  obtain ⟨na, ma, ea, rfl⟩ := Fv.isFin_iff.mp ha
  obtain ⟨nb, mb, eb, rfl⟩ := Fv.isFin_iff.mp hb
  by_cases hma : ma = 0
  · subst hma
    by_cases hmb : mb = 0
    · subst hmb
      simp [Fv.add, Fv.isFin, val_fin_zero, Fv.sign]
      rfl
    · have hsum : Fv.add rm (.fin na 0 ea) (.fin nb mb eb) = .fin nb mb eb := by simp [Fv.add, hmb]
      rw [hsum, val_fin_zero, zero_add]
      exact ⟨rfl, rfl, fun h => absurd (val_fin_eq_zero.mp h) hmb⟩
  · by_cases hmb : mb = 0
    · subst hmb
      have hsum : Fv.add rm (.fin na ma ea) (.fin nb 0 eb) = .fin na ma ea := by simp [Fv.add, hma]
      rw [hsum, val_fin_zero, add_zero]
      exact ⟨rfl, rfl, fun h => absurd (val_fin_eq_zero.mp h) hma⟩
    · obtain ⟨t, e0, hsum, hexact⟩ := Fv.add_of_ne_zero rm na nb ea eb hma hmb
      rw [hsum, ← hexact]
      rcases eq_or_ne t 0 with rfl | ht
      · rw [if_pos rfl, val_fin_zero]
        rw [Int.cast_zero, zero_mul] at hexact ⊢
        refine ⟨rfl, rfl, fun _ => ?_⟩
        rw [if_neg (Fv.sign_ne_of_add_eq_zero (mt val_fin_eq_zero.mp hma) hexact.symm)]
        exact beq_eq_decide _ _
      · rw [if_neg ht, val_ofInt_scaled]
        exact ⟨rfl, rfl, fun h => absurd h (mul_ne_zero (Int.cast_ne_zero.mpr ht) (by positivity))⟩

theorem Fv.mul_exact {a b : Fv} (ha : a.isFin = true) (hb : b.isFin = true) :
    (Fv.mul a b).isFin = true ∧ (Fv.mul a b).val = a.val * b.val ∧ (Fv.mul a b).sign = (a.sign != b.sign) := by
  obtain ⟨na, ma, ea, rfl⟩ := Fv.isFin_iff.mp ha
  obtain ⟨nb, mb, eb, rfl⟩ := Fv.isFin_iff.mp hb
  refine ⟨rfl, ?_, rfl⟩
  show (Fv.fin (na != nb) (ma * mb) (ea + eb)).val = _
  rw [Fv.val_fin, Fv.val_fin, Fv.val_fin, zpow_add₀ two_ne_zero]
  cases na <;> cases nb <;> simp <;> ring

/-! Quotients (R317). -/

/-- The quotient of positive magnitudes, with the remainder as its rest. -/
theorem standsFor_divReal (neg : Bool) (ma mb : Nat) (ea eb : Int) (hmb : mb ≠ 0) :
    StandsFor (divReal neg ma ea mb eb).mag (divReal neg ma ea mb eb).exp (divReal neg ma ea mb eb).sticky (ma * 2 ^ ea / (mb * 2 ^ eb)) := by
  have hpos : (0 : Rat) < mb := by exact_mod_cast Nat.pos_of_ne_zero hmb
  generalize hk : mb.log2 + 200 = k
  have hn : divReal neg ma ea mb eb = ⟨neg, ma * 2 ^ k / mb, ea - eb - k, ma * 2 ^ k % mb != 0⟩ := by
    simp only [divReal, hk, Nat.shiftLeft_eq]
  have hmod : ((ma * 2 ^ k % mb : Nat) : Rat) < mb := by exact_mod_cast Nat.mod_lt _ (Nat.pos_of_ne_zero hmb)
  have hdiv : (mb : Rat) * (ma * 2 ^ k / mb : Nat) + (ma * 2 ^ k % mb : Nat) = ma * 2 ^ k := by exact_mod_cast Nat.div_add_mod (ma * 2 ^ k) mb
  rw [hn]
  refine ⟨(ma * 2 ^ k % mb : Nat) / mb, by positivity, (div_lt_one hpos).mpr hmod, ?_, ?_⟩
  · rw [bne_iff_ne, div_pos_iff_of_pos_right hpos, Nat.cast_pos, Nat.pos_iff_ne_zero]
  · rw [zpow_sub₀ two_ne_zero, zpow_sub₀ two_ne_zero, zpow_natCast]
    have h2 : (2 : Rat) ^ eb ≠ 0 := by positivity
    field_simp
    linear_combination -hdiv

/-- It keeps 200 bits and more. -/
theorem log2_divReal (neg : Bool) {ma mb : Nat} (ea eb : Int) (hma : ma ≠ 0) (hmb : mb ≠ 0) : 199 ≤ (divReal neg ma ea mb eb).mag.log2 := by
  have hle : 2 ^ 199 * mb ≤ ma * 2 ^ (mb.log2 + 200) := by
    calc 2 ^ 199 * mb ≤ 2 ^ 199 * 2 ^ (mb.log2 + 1) := Nat.mul_le_mul_left _ Nat.lt_log2_self.le
      _ = 1 * 2 ^ (mb.log2 + 200) := by rw [one_mul, ← pow_add, add_comm]
      _ ≤ ma * 2 ^ (mb.log2 + 200) := Nat.mul_le_mul_right _ (Nat.pos_of_ne_zero hma)
  have hmag : 2 ^ 199 ≤ (divReal neg ma ea mb eb).mag := by
    rw [divReal, Nat.shiftLeft_eq]
    exact (Nat.le_div_iff_mul_le (Nat.pos_of_ne_zero hmb)).mpr hle
  exact (Nat.le_log2 (Nat.ne_zero_of_lt hmag)).mpr hmag

theorem Ffmt.Ieee.rounds_div {f : Ffmt} (hf : f.Ieee) (hfw : f.fw < 199) (rm : Rm) (sat : Bool) {a b : Nat}
    (ha : (f.decode a).isFin = true) (hb : (f.decode b).isFin = true) (hne : (f.decode b).val ≠ 0) :
    f.Rounds rm sat ((f.decode a).val / (f.decode b).val) ((f.decode a).sign != (f.decode b).sign) (f.div rm sat a b) := by
  obtain ⟨na, ma, ea, hda⟩ := Fv.isFin_iff.mp ha
  obtain ⟨nb, mb, eb, hdb⟩ := Fv.isFin_iff.mp hb
  rw [hdb] at hne
  rw [hda, hdb]
  have hmb : mb ≠ 0 := mt val_fin_eq_zero.mpr hne
  simp only [Ffmt.div, hda, hdb, if_neg hmb, Fv.sign]
  split
  case isTrue h0 =>
    rw [val_fin_eq_zero.mpr h0, zero_div]
    exact hf.rounds_zero rm sat _
  case isFalse hma =>
    have hlog := log2_divReal (na != nb) ea eb hma hmb
    have h := hf.rounds_roundFin rm sat (na != nb) (standsFor_divReal (na != nb) ma mb ea eb hmb) (fun h0 => by rw [h0] at hlog; simp at hlog)
      fun _ => hfw.trans_le hlog
    have hval : (Fv.fin na ma ea).val / (Fv.fin nb mb eb).val = signed (na != nb) (ma * 2 ^ ea / (mb * 2 ^ eb)) := by
      rw [Fv.val_fin, Fv.val_fin]
      cases na <;> cases nb <;> simp [neg_div, div_neg]
    rw [hval]
    exact h

end Sys2Proof.Machine
end

section
/-! SUPPORT. Floating-point operations (O15): NaN and infinite operands, elements, the operations of each type, conversions. -/

namespace Sys2Proof.Machine

/-! NaN and infinite operands (R28). -/

theorem Fv.add_nan (rm : Rm) (x : Fv) : Fv.add rm x .nan = .nan := by cases x <;> rfl

theorem Fv.mul_nan (x : Fv) : Fv.mul x .nan = .nan := by cases x <;> rfl

theorem Fv.add_inf_inf (rm : Rm) (n m : Bool) : Fv.add rm (.inf n) (.inf m) = if n = m then .inf n else .nan := by
  simp [Fv.add]

/-- An infinity and a finite value: the infinity, and in a product with 0 the invalid case. -/
theorem Fv.inf_finite (rm : Rm) {x : Fv} (n : Bool) (hx : x.isFin = true) :
    Fv.add rm (.inf n) x = .inf n ∧ Fv.add rm x (.inf n) = .inf n
    ∧ Fv.mul (.inf n) x = (if x.val = 0 then .nan else .inf (n != x.sign)) ∧ Fv.mul x (.inf n) = Fv.mul (.inf n) x := by
  obtain ⟨nx, mx, ex, rfl⟩ := Fv.isFin_iff.mp hx
  refine ⟨rfl, rfl, if_congr val_fin_eq_zero.symm rfl rfl, ?_⟩
  simp only [Fv.mul, bne_comm]

namespace Ffmt
variable {f : Ffmt}

/-- An infinite result: the bits after the largest magnitude's, or under saturation those. -/
theorem Ieee.encode_inf (hf : f.Ieee) (rm : Rm) (n : Bool) : f.encode rm false (.inf n) = (if n then 2 ^ (f.width - 1) else 0) + (2 ^ f.ew - 1) * 2 ^ f.fw := by
  rw [width, show 1 + f.ew + f.fw - 1 = f.ew + f.fw by omega]
  simp [encode, infBits, hf.top, signBit]

theorem Ieee.decode_encode_inf (hf : f.Ieee) (rm : Rm) (n : Bool) :
    f.decode (f.encode rm true (.inf n)) = if n then (f.decode f.maxBits).neg else f.decode f.maxBits := by
  have hlt : f.maxBits < 2 ^ (f.ew + f.fw) := (Nat.lt_succ_self _).trans hf.maxBits_lt
  have hplus := hf.decode_signBit_add false hlt
  rw [signBit, if_neg Bool.false_ne_true, zero_add] at hplus
  have henc : f.encode rm true (.inf n) = f.signBit n + f.maxBits := hf.infBits_eq n true
  rw [henc, hf.decode_signBit_add n hlt, hplus]
  cases n
  · rfl
  · split
    · split <;> rfl
    · split <;> rfl

theorem div_nan (rm : Rm) (sat : Bool) {a b : Nat} (h : f.decode a = .nan ∨ f.decode b = .nan) : f.div rm sat a b = f.nanBits := by
  rcases h with h | h
  · simp only [div, h]
  · cases ha : f.decode a <;> simp only [div, ha, h]

/-- A finite value over zero (R28). -/
theorem div_zero (rm : Rm) (sat : Bool) {a b : Nat} (ha : (f.decode a).isFin = true) (hb : (f.decode b).isFin = true) (h0 : (f.decode b).val = 0) :
    f.div rm sat a b = if (f.decode a).val = 0 then f.nanBits else f.encode rm sat (.inf ((f.decode a).sign != (f.decode b).sign)) := by
  obtain ⟨na, ma, ea, hda⟩ := Fv.isFin_iff.mp ha
  obtain ⟨nb, mb, eb, hdb⟩ := Fv.isFin_iff.mp hb
  rw [hdb] at h0
  simp only [div, hda, hdb, if_pos (val_fin_eq_zero.mp h0), val_fin_eq_zero]
  rfl

end Ffmt

/-! Elements (R22). -/

theorem streamElem_zero (w x : Nat) : streamElem w x 0 = x % 2 ^ w := rfl

section Elements
variable {e : OpEnv} {f : Ffmt} {op : Ffmt → Nat → Nat → Nat → Nat} (hty : tyFfmt e.ty = f)
include hty

theorem floatElems_scalar (hel : elemsOf e.ty = (f.width, 1)) {a b c : Nat} (ha : a < 2 ^ f.width) (hb : b < 2 ^ f.width) (hc : c < 2 ^ f.width)
    (hop : op f a b c < 2 ^ f.width) : floatElems e op a b c = op f a b c := by
  simp only [floatElems, mapElems, hel, hty, List.range_one, List.map_cons, List.map_nil, packBits, streamElem_zero, Nat.mod_eq_of_lt ha,
    Nat.mod_eq_of_lt hb, Nat.mod_eq_of_lt hc, Nat.mod_eq_of_lt hop, mul_zero, add_zero]

theorem streamElem_floatElems (hel : elemsOf e.ty = (16, 2)) (hop : ∀ x y z, op f x y z < 2 ^ 16) (a b c : Nat) {j : Nat} (hj : j < 2) :
    streamElem 16 (floatElems e op a b c) j = op f (streamElem 16 a j) (streamElem 16 b j) (streamElem 16 c j) := by
  have h0 := hop (streamElem 16 a 0) (streamElem 16 b 0) (streamElem 16 c 0)
  have h1 := hop (streamElem 16 a 1) (streamElem 16 b 1) (streamElem 16 c 1)
  simp only [floatElems, mapElems, hel, hty, show List.range 2 = [0, 1] from rfl, List.map_cons, List.map_nil, packBits]
  obtain rfl | rfl : j = 0 ∨ j = 1 := by omega
  · rw [streamElem_zero]; omega
  · rw [streamElem, Nat.shiftRight_eq_div_pow]; omega

end Elements

/-- A type of the FLT class that is one element, of a format with infinities. -/
structure ScalarFloat (t : Ty) (f : Ffmt) : Prop where
  ieee : f.Ieee
  ty : tyFfmt t = f
  elems : elemsOf t = (f.width, 1)
  fw : f.fw < 199

theorem ieee_of_mem {f : Ffmt} (h : f ∈ [fmtF64, fmtF32, fmtF16, fmtBf16, fmtE5m2]) : f.Ieee := by
  have hall : ∀ f ∈ [fmtF64, fmtF32, fmtF16, fmtBf16, fmtE5m2], f.top = .ieee ∧ 2 ≤ f.ew ∧ 1 ≤ f.fw := by decide
  obtain ⟨htop, hew, hfw⟩ := hall f h
  exact ⟨htop, hew, hfw⟩

/-- The scalar types of O15, with their canonical NaN (R24) and infinity (R23). -/
theorem scalarFloat_of_mem {t : Ty} {f : Ffmt} {nan inf : Nat} (h : (t, f, nan, inf) ∈ [(.f64, fmtF64, 0x7FF8_0000_0000_0000, 0x7FF0_0000_0000_0000),
      (.f32, fmtF32, 0x7FC0_0000, 0x7F80_0000), (.f16, fmtF16, 0x7E00, 0x7C00), (.bf16, fmtBf16, 0x7FC0, 0x7F80)]) :
    ScalarFloat t f ∧ f.nanBits = nan ∧ (2 ^ f.ew - 1) * 2 ^ f.fw = inf := by
  simp only [List.mem_cons, Prod.mk.injEq, List.not_mem_nil, or_false] at h
  rcases h with ⟨rfl, rfl, rfl, rfl⟩ | ⟨rfl, rfl, rfl, rfl⟩ | ⟨rfl, rfl, rfl, rfl⟩ | ⟨rfl, rfl, rfl, rfl⟩
  all_goals exact ⟨⟨ieee_of_mem (by decide), rfl, rfl, by decide⟩, by decide, by decide⟩

/-- Sums and products of one element are those of its values, rounded. -/
theorem scalar_sums {e : OpEnv} {f : Ffmt} (hs : ScalarFloat e.ty f) {a b c : Nat} (ha : a < 2 ^ f.width) (hb : b < 2 ^ f.width) (hc : c < 2 ^ f.width) :
    opFadd e a b c = f.encode e.rm e.sat (Fv.add e.rm (f.decode a) (f.decode b))
    ∧ opFsub e a b c = f.encode e.rm e.sat (Fv.add e.rm (f.decode a) (f.decode b).neg)
    ∧ opFmul e a b c = f.encode e.rm e.sat (Fv.mul (f.decode a) (f.decode b))
    ∧ opFfma e a b c = f.encode e.rm e.sat (Fv.add e.rm (Fv.mul (f.decode a) (f.decode b)) (f.decode c)) :=
  have helem {op : Ffmt → Nat → Nat → Nat → Nat} : op f a b c < 2 ^ f.width → floatElems e op a b c = op f a b c :=
    floatElems_scalar hs.ty hs.elems ha hb hc
  ⟨helem (hs.ieee.encode_lt _ _ _), helem (hs.ieee.encode_lt _ _ _), helem (hs.ieee.encode_lt _ _ _), helem (hs.ieee.encode_lt _ _ _)⟩

/-- Those of packed elements likewise, one by one. -/
theorem packed_sums {e : OpEnv} {f : Ffmt} (hf : f.Ieee) (hty : tyFfmt e.ty = f) (hel : elemsOf e.ty = (16, 2)) (hw : f.width = 16) (a b c : Nat)
    {j : Nat} (hj : j < 2) :
    streamElem 16 (opFadd e a b c) j = f.encode e.rm e.sat (Fv.add e.rm (f.decode (streamElem 16 a j)) (f.decode (streamElem 16 b j)))
    ∧ streamElem 16 (opFmul e a b c) j = f.encode e.rm e.sat (Fv.mul (f.decode (streamElem 16 a j)) (f.decode (streamElem 16 b j)))
    ∧ streamElem 16 (opFfma e a b c) j = f.encode e.rm e.sat
        (Fv.add e.rm (Fv.mul (f.decode (streamElem 16 a j)) (f.decode (streamElem 16 b j))) (f.decode (streamElem 16 c j))) :=
  have hlt (x : Fv) : f.encode e.rm e.sat x < 2 ^ 16 := hw ▸ hf.encode_lt e.rm e.sat x
  have helem {op : Ffmt → Nat → Nat → Nat → Nat} (hop : ∀ x y z, op f x y z < 2 ^ 16) :
      streamElem 16 (floatElems e op a b c) j = op f (streamElem 16 a j) (streamElem 16 b j) (streamElem 16 c j) :=
    streamElem_floatElems hty hel hop a b c hj
  ⟨helem fun _ _ _ => hlt _, helem fun _ _ _ => hlt _, helem fun _ _ _ => hlt _⟩

theorem opFdiv_scalar {e : OpEnv} {f : Ffmt} (hs : ScalarFloat e.ty f) {a b : Nat} (ha : a < 2 ^ f.width) (hb : b < 2 ^ f.width) (c : Nat) :
    opFdiv e a b c = f.div e.rm e.sat a b := by
  rw [opFdiv, hs.ty, hs.elems, Nat.mod_eq_of_lt ha, Nat.mod_eq_of_lt hb]

/-! Conversions (R30, R319). -/

theorem convert_floats {src dst : Ty} (hs : src ∈ [.f64, .f32, .f16, .bf16, .e5m2, .e4m3]) (hd : dst ∈ [.f64, .f32, .f16, .bf16, .e5m2])
    (rm : Rm) (sat : Bool) (x : Nat) :
    convert rm sat src dst x = (tyFfmt dst).encode rm sat ((tyFfmt src).decode (x % 2 ^ (tyFfmt src).width)) := by
  have hsrc : ∀ t ∈ [Ty.f64, .f32, .f16, .bf16, .e5m2, .e4m3], tyIsInt t = false ∧ tyBits t = (tyFfmt t).width := by decide
  have hdst : ∀ t ∈ [Ty.f64, .f32, .f16, .bf16, .e5m2], tyIsInt t = false ∧ t ≠ .s8 ∧ t ≠ .s16 := by decide
  obtain ⟨hint, hbits⟩ := hsrc src hs
  obtain ⟨hint', h8, h16⟩ := hdst dst hd
  simp only [convert, hint, hint', hbits, Bool.false_eq_true, if_false, extendNarrow]

theorem convert_rounds {src dst : Ty} (hs : src ∈ [.f64, .f32, .f16, .bf16, .e5m2, .e4m3]) (hd : dst ∈ [.f64, .f32, .f16, .bf16, .e5m2])
    (rm : Rm) (sat : Bool) (x : Nat) (hx : ((tyFfmt src).decode (x % 2 ^ (tyFfmt src).width)).isFin = true) :
    (tyFfmt dst).Rounds rm sat ((tyFfmt src).decode (x % 2 ^ (tyFfmt src).width)).val (x.testBit ((tyFfmt src).width - 1)) (convert rm sat src dst x) := by
  have hmem : ∀ t ∈ [Ty.f64, .f32, .f16, .bf16, .e5m2], tyFfmt t ∈ [fmtF64, fmtF32, fmtF16, fmtBf16, fmtE5m2] := by decide
  have h := (ieee_of_mem (hmem dst hd)).rounds_encode_of_isFin rm sat hx
  have hsign : x.testBit ((tyFfmt src).width - 1) = ((tyFfmt src).decode (x % 2 ^ (tyFfmt src).width)).sign := by
    rw [Ffmt.sign_decode hx, Nat.testBit_mod_two_pow, Ffmt.width, show 1 + (tyFfmt src).ew + (tyFfmt src).fw - 1 = (tyFfmt src).ew + (tyFfmt src).fw by omega,
      decide_eq_true (by omega), Bool.true_and]
  rw [convert_floats hs hd, hsign]
  exact h

/-- Settles O15: sums, products and quotients are exact, and roundFin rounds once to the magnitude the mode takes. -/
theorem floatArithmetic : Obligations.FloatArithmetic := by
  unfold Obligations.FloatArithmetic
  refine ⟨fun f hf rm sat neg mag e => (ieee_of_mem hf).rounds_encode rm sat neg mag e, fun rm a b ha hb => ?_, fun rm x n m => ?_,
    fun t f nan inf hmem e a b c hty ha hb hc => ?_, fun t f hmem e a b c j hty hj => ?_, fun src dst hs hd rm sat x hx => convert_rounds hs hd rm sat x hx⟩
  · obtain ⟨hfin, hval, hsign⟩ := Fv.add_exact rm ha hb
    obtain ⟨hfin', hval', hsign'⟩ := Fv.mul_exact ha hb
    exact ⟨hfin, hval, hfin', hval', hsign', hsign⟩
  · exact ⟨rfl, Fv.add_nan rm x, rfl, Fv.mul_nan x, Fv.add_inf_inf rm n m, rfl, Fv.inf_finite rm n⟩
  · subst hty
    obtain ⟨hs, rfl, rfl⟩ := scalarFloat_of_mem hmem
    obtain ⟨hadd, hsub, hmul, hfma⟩ := scalar_sums hs ha hb hc
    refine ⟨hadd, hsub, hmul, hfma, rfl, fun n => ⟨hs.ieee.encode_inf e.rm n, hs.ieee.decode_encode_inf e.rm n⟩, ?_⟩
    rw [opFdiv_scalar hs ha hb c]
    exact ⟨Ffmt.div_nan e.rm e.sat, fun hx hy => ⟨hs.ieee.rounds_div hs.fw e.rm e.sat hx hy, Ffmt.div_zero e.rm e.sat hx hy⟩⟩
  · simp only [List.mem_cons, Prod.mk.injEq, List.not_mem_nil, or_false] at hmem
    rcases hmem with ⟨rfl, rfl⟩ | ⟨rfl, rfl⟩
    · exact packed_sums (ieee_of_mem (by decide)) (by rw [hty]; rfl) (by rw [hty]; rfl) rfl a b c hj
    · exact packed_sums (ieee_of_mem (by decide)) (by rw [hty]; rfl) (by rw [hty]; rfl) rfl a b c hj

end Sys2Proof.Machine
end

section
/-! SUPPORT. Host queues (R49-R66): what the updates of a queue and of an entry leave, the tokens after a fold over a mask, and which parts of
the module translation and writes of the lock-step pair leave alone. -/

namespace Sys2Proof.Machine

set_option Elab.async false

/-! Queues and entries after an update. -/

section Updates
variable {s : State} {c q : Nat}

/-- A queue is found under its own numbers. -/
theorem State.hq?_numbers {x : HostQueue} (h : s.hq? c q = some x) : x.ctx = c ∧ x.idx = q := by
  simpa using List.find?_some h

theorem State.hq?_congr {s t : State} (h : t.hqs = s.hqs) (c q : Nat) : t.hq? c q = s.hq? c q := by unfold State.hq?; rw [h]

theorem State.hq?_updHq {x : HostQueue} (h : s.hq? c q = some x) {f : HostQueue → HostQueue} (hf : ∀ y, (f y).ctx = y.ctx ∧ (f y).idx = y.idx) :
    (s.updHq c q f).hq? c q = some (f x) := by
  have := find?_updWhere (fun y : HostQueue => y.ctx == c && y.idx == q) f (fun y hy => by rw [(hf y).1, (hf y).2]; exact hy) s.hqs
  unfold State.hq? at h ⊢
  rw [State.updHq_hqs, this, h]
  rfl

/-- A queue after a change of an entry of its board. -/
theorem State.hq?_updEntry {x : HostQueue} (h : s.hq? c q = some x) (pos : Nat) (f : Entry → Entry) :
    (s.updEntry c q pos f).hq? c q = some { x with board := updWhere (fun e => e.pos == pos) f x.board } :=
  State.hq?_updHq h fun _ => ⟨rfl, rfl⟩

/-- A change of entries of a queue leaves of every queue all but its board. -/
theorem State.hq?_updEntry_of {x : HostQueue} {c' q' : Nat} (h : s.hq? c' q' = some x) (pos : Nat) (f : Entry → Entry) :
    ∃ b, (s.updEntry c q pos f).hq? c' q' = some { x with board := b } ∧ b.length = x.board.length
      ∧ ∀ p : Entry → Prop, (∀ e, p e → p (f e)) → (∀ e ∈ x.board, p e) → ∀ e ∈ b, p e := by
  by_cases hn : c' = c ∧ q' = q
  · obtain ⟨rfl, rfl⟩ := hn
    refine ⟨_, State.hq?_updEntry h pos f, length_updWhere .., fun p hp hall e he => ?_⟩
    obtain ⟨e0, he0, rfl⟩ := List.mem_map.mp he
    split
    · exact hp _ (hall _ he0)
    · exact hall _ he0
  · refine ⟨x.board, ?_, rfl, fun p _ hall => hall⟩
    refine (find?_updWhere_other _ _ _ (fun y hy => ?_) (fun y hy => ?_) s.hqs).trans h
    all_goals
      simp only [Bool.and_eq_true, beq_iff_eq, Bool.and_eq_false_iff, beq_eq_false_iff_ne] at hy ⊢
      omega

theorem State.entry?_eq {x : HostQueue} (h : s.hq? c q = some x) (pos : Nat) : s.entry? c q pos = x.board.find? (·.pos == pos) := by
  unfold State.entry?; rw [h]; rfl

theorem State.entry?_updEntry {e : Entry} {pos : Nat} (h : s.entry? c q pos = some e) {f : Entry → Entry} (hf : ∀ x, (f x).pos = x.pos) :
    (s.updEntry c q pos f).entry? c q pos = some (f e) := by
  obtain ⟨x, hx, he⟩ := Option.bind_eq_some_iff.mp h
  rw [State.entry?_eq (State.hq?_updEntry hx pos f), find?_updWhere _ f (fun y hy => by rw [hf]; exact hy), he]
  rfl

/-- An entry that has not completed reports what it is given. -/
theorem State.entry?_reportEntry {e : Entry} {pos : Nat} (h : s.entry? c q pos = some e) (hr : e.phase ≠ .reporting) (hd : e.phase ≠ .done)
    (status : Nat) (detail : W32) (progress fault extra : W64) :
    ∃ e', (s.reportEntry c q pos status detail progress fault extra).entry? c q pos = some e' ∧ e'.phase = .reporting ∧ e'.report.status = status := by
  refine ⟨_, State.entry?_updEntry h fun x => ?_, ?_⟩
  · split <;> rfl
  · simp [hr, hd]

end Updates

/-! The fields that a change of a board leaves (R57, R66). -/

section Fields
variable (s : State) (c q pos : Nat) (f : Entry → Entry)

@[simp] theorem State.updEntry_mem : (s.updEntry c q pos f).mem = s.mem := rfl
@[simp] theorem State.updEntry_ctxs : (s.updEntry c q pos f).ctxs = s.ctxs := rfl
@[simp] theorem State.updEntry_copies : (s.updEntry c q pos f).copies = s.copies := rfl

end Fields

/-! Tokens (R57, R58). -/

theorem mem_maskTokens {m : W64} {k : Nat} : k ∈ maskTokens m ↔ k < 64 ∧ m.getLsbD k = true := by simp [maskTokens]

/-- Changing the tokens of a list of different places, each by its own value, one after the other. -/
theorem getD_foldl_setAt {g : Tok → Tok} (ks : List Nat) (hnd : ks.Nodup) (ts : List Tok) (hlt : ∀ k ∈ ks, k < ts.length) (k : Nat) :
    (ks.foldl (fun ts t => setAt ts t (g (ts.getD t .clear))) ts).getD k .clear = if k ∈ ks then g (ts.getD k .clear) else ts.getD k .clear := by
  induction ks generalizing ts with
  | nil => simp
  | cons i is ih =>
    obtain ⟨hi, hnd⟩ := List.nodup_cons.mp hnd
    have hget : ∀ j, (setAt ts i (g (ts.getD i .clear))).getD j .clear = if j = i then g (ts.getD i .clear) else ts.getD j .clear := by
      intro j
      have := hlt i (by simp)
      by_cases hj : j = i
      · subst hj; simp [setAt, List.getD, this]
      · simp [setAt, List.getD, hj, List.getElem?_set_ne (Ne.symm hj)]
    rw [List.foldl_cons, ih hnd _ (fun j hj => by simpa [setAt] using hlt j (by simp [hj])), hget]
    by_cases hk : k = i
    · subst hk; simp [hi]
    · simp [hk]

theorem maskTokens_nodup (m : W64) : (maskTokens m).Nodup := List.nodup_range.filter _

/-- The tokens of a mask changed, each by its own value. -/
theorem getD_foldl_maskTokens {g : Tok → Tok} {ts : List Tok} (hlen : ts.length = 64) (m : W64) {k : Nat} (hk : k < 64) :
    ((maskTokens m).foldl (fun ts t => setAt ts t (g (ts.getD t .clear))) ts).getD k .clear
      = if m.getLsbD k = true then g (ts.getD k .clear) else ts.getD k .clear := by
  rw [getD_foldl_setAt _ (maskTokens_nodup m) _ fun j hj => by rw [hlen]; exact (mem_maskTokens.mp hj).1]
  simp [mem_maskTokens, hk]

/-- A queue whose tokens of a mask are CLEAR, as CONSUME and MARKER leave it (R57, R63). -/
def HostQueue.clearTokens (x : HostQueue) (m : W64) : HostQueue := { x with tokens := (maskTokens m).foldl (fun ts t => setAt ts t .clear) x.tokens }

theorem HostQueue.getD_clearTokens {x : HostQueue} (hlen : x.tokens.length = 64) (m : W64) {k : Nat} (hk : k < 64) :
    (x.clearTokens m).tokens.getD k .clear = if m.getLsbD k = true then .clear else x.tokens.getD k .clear :=
  getD_foldl_maskTokens (g := fun _ => .clear) hlen m hk

end Sys2Proof.Machine
end

section
/-! SUPPORT. What work on memory and translations leaves alone: the roster of the module, which is its queues, contexts by number, dies, beam
queries, and groups by number and launch. -/

namespace Sys2Proof.Machine

set_option Elab.async false

/-- The roster of t is that of s: host queues, dies and beam queries stand as they did, contexts and groups under the same numbers. -/
structure State.SameRoster (s t : State) : Prop where
  hqs : t.hqs = s.hqs
  dies : t.dies = s.dies
  beams : t.beams = s.beams
  ctxs : t.ctxs.map (·.num) = s.ctxs.map (·.num)
  groups : t.groups.map (fun g => (g.id, g.launch)) = s.groups.map (fun g => (g.id, g.launch))

namespace State.SameRoster

/-- A change of other fields. -/
theorem of_fields {s t : State} (hqs : t.hqs = s.hqs := by rfl) (dies : t.dies = s.dies := by rfl) (beams : t.beams = s.beams := by rfl)
    (ctxs : t.ctxs = s.ctxs := by rfl) (groups : t.groups = s.groups := by rfl) : s.SameRoster t :=
  ⟨hqs, dies, beams, by rw [ctxs], by rw [groups]⟩

theorem refl (s : State) : s.SameRoster s := of_fields

theorem trans {s t r : State} (h : s.SameRoster t) (h' : t.SameRoster r) : s.SameRoster r :=
  ⟨h'.hqs.trans h.hqs, h'.dies.trans h.dies, h'.beams.trans h.beams, h'.ctxs.trans h.ctxs, h'.groups.trans h.groups⟩

/-- A change of other fields after steps that keep the roster. -/
theorem and {s t r : State} (h : s.SameRoster t) (hqs : r.hqs = t.hqs := by rfl) (dies : r.dies = t.dies := by rfl) (beams : r.beams = t.beams := by rfl)
    (ctxs : r.ctxs = t.ctxs := by rfl) (groups : r.groups = t.groups := by rfl) : s.SameRoster r :=
  h.trans (of_fields hqs dies beams ctxs groups)

theorem snd_of_eq {α : Type} {s t : State} {p : α × State} {a : α} (h : s.SameRoster p.2) (e : p = (a, t)) : s.SameRoster t := by subst e; exact h

theorem foldl {β : Type} {f : State → β → State} (hf : ∀ (s : State) b, s.SameRoster (f s b)) (l : List β) (s : State) : s.SameRoster (l.foldl f s) := by
  induction l generalizing s with
  | nil => exact refl s
  | cons b l ih => exact (hf s b).trans (ih _)

theorem foldl_snd {α β : Type} {f : α × State → β → α × State} (hf : ∀ (a : α × State) b, a.2.SameRoster (f a b).2) (l : List β) (a : α × State) :
    a.2.SameRoster (l.foldl f a).2 := by
  induction l generalizing a with
  | nil => exact refl a.2
  | cons b l ih => exact (hf a b).trans (ih _)

end State.SameRoster

namespace State

variable (s : State)

/-! Memory, links and translations. -/

theorem sameRoster_countLost (pa : Nat) : s.SameRoster (s.countLost pa) := by unfold countLost; split <;> exact .of_fields

theorem sameRoster_clearLines (l : List Nat) : s.SameRoster (s.clearLines l) := by unfold clearLines; split <;> exact .of_fields

theorem sameRoster_writeHome (w : Who) (pa : Nat) (bs : List Byte) : s.SameRoster (s.writeHome w pa bs) := by
  unfold writeHome
  split
  · exact .of_fields
  split
  · exact .of_fields
  refine SameRoster.trans ?_ (sameRoster_clearLines _ _)
  cases w.cluster? <;> exact .of_fields

theorem sameRoster_sendHome (inL1 inL2 : Nat → Bool) : s.SameRoster (s.sendHome inL1 inL2) := .of_fields

theorem sameRoster_flushRange (pa n : Nat) : s.SameRoster (s.flushRange pa n) := .of_fields

theorem sameRoster_touchHot (cluster line : Nat) : s.SameRoster (s.touchHot cluster line) := .of_fields

theorem sameRoster_raise (vec : Nat) : s.SameRoster (s.raise vec) := by unfold raise; split <;> exact .of_fields

theorem sameRoster_updCtx (n : Nat) (f : Ctx → Ctx) (hf : ∀ x, (f x).num = x.num) : s.SameRoster (s.updCtx n f) := by
  refine ⟨rfl, rfl, rfl, ?_, rfl⟩
  rw [updCtx_ctxs, updWhere, List.map_map]
  exact List.map_congr_left fun x _ => by simp only [Function.comp_apply]; split <;> simp [hf]

theorem sameRoster_cacheLeaf (w : Who) (c : Ctx) (l : Leaf) : s.SameRoster (s.cacheLeaf w c l) := by unfold cacheLeaf; split <;> exact .of_fields

theorem sameRoster_cacheTable (w : Who) (c : Ctx) (va : Nat) : s.SameRoster (s.cacheTable w c va) := by
  unfold cacheTable
  split
  · dsimp only; split <;> exact .of_fields
  · exact .refl _

theorem sameRoster_leafOf (w : Who) (ctx va : Nat) : s.SameRoster (s.leafOf w ctx va).2 := by
  unfold leafOf
  split
  · exact .refl _
  split
  · exact .refl _
  split
  · exact .refl _
  dsimp only
  split
  · exact (sameRoster_cacheLeaf _ _ _ _).trans (sameRoster_cacheTable _ _ _ _)
  · exact sameRoster_cacheLeaf _ _ _ _

theorem sameRoster_pageRequest (w : Who) (ctx : Nat) (need : Need) (va : Nat) {t : State} (h : s.pageRequest w ctx need va = some t) : s.SameRoster t := by
  unfold pageRequest at h
  split at h
  · cases h; exact .refl _
  dsimp only at h
  split at h
  · cases h; exact .refl _
  split at h
  · cases h; exact .refl _
  split at h
  · cases h
  · cases h
    refine SameRoster.trans ?_ (sameRoster_raise _ _)
    refine SameRoster.trans ?_ (sameRoster_updCtx _ _ _ fun _ => rfl)
    exact sameRoster_writeHome _ _ _ _

theorem sameRoster_pageRequest_getD (w : Who) (ctx : Nat) (need : Need) (va : Nat) : s.SameRoster ((s.pageRequest w ctx need va).getD s) := by
  cases h : s.pageRequest w ctx need va with
  | none => exact .refl _
  | some t => exact sameRoster_pageRequest _ _ _ _ _ h

theorem sameRoster_fwTranslate (die ctx : Nat) (need : Need) (dec : Bool) (va n : Nat) : s.SameRoster (s.fwTranslate die ctx need dec va n).2 := by
  unfold fwTranslate
  split
  · exact .refl _
  have hleaf := s.sameRoster_leafOf (.pair die) ctx va
  split
  · next e => exact hleaf.snd_of_eq e
  rename_i e
  replace hleaf := hleaf.snd_of_eq e
  dsimp only
  split
  · exact hleaf
  split
  · exact hleaf
  split
  · exact hleaf
  split
  · exact hleaf.trans (sameRoster_pageRequest_getD _ _ _ _ _)
  split
  · exact hleaf
  split
  · exact hleaf.trans (sameRoster_countLost _ _)
  · exact hleaf

theorem sameRoster_fwWrite (die ctx va : Nat) (bs : List Byte) : s.SameRoster (s.fwWrite die ctx va bs).2 := by
  unfold fwWrite
  dsimp only
  have h1 := s.sameRoster_fwTranslate die ctx .write false va (min bs.length (65536 - va % 65536))
  split
  · next pa s1 e =>
    replace h1 := h1.snd_of_eq e
    split
    · dsimp only
      exact h1.trans (sameRoster_writeHome _ _ _ _)
    have h2 := h1.trans (s1.sameRoster_fwTranslate die ctx .write false (va + min bs.length (65536 - va % 65536)) (bs.length - min bs.length (65536 - va % 65536)))
    split
    · next e2 =>
      dsimp only
      exact ((h2.snd_of_eq e2).trans (sameRoster_writeHome _ _ _ _)).trans (sameRoster_writeHome _ _ _ _)
    · exact h2
  · exact h1

end State

end Sys2Proof.Machine
end

section
/-! SUPPORT. The roster through the work of engines: atomics served (R129), engine writes (R152, R166), ends of copies (R367, R368), hank operations (R177). -/

namespace Sys2Proof.Machine

set_option Elab.async false

namespace State

variable (s : State)

/-! Atomics and engine accesses. -/

theorem sameRoster_poisonReq (r : AtomReq) : s.SameRoster (s.poisonReq r) := by
  unfold poisonReq; dsimp only; split <;> exact .of_fields

theorem sameRoster_performReq (r : AtomReq) (old : List Byte) : s.SameRoster (s.performReq r old) := by
  unfold performReq
  dsimp only
  split
  · exact .of_fields
  · exact (SameRoster.trans .of_fields (sameRoster_writeHome (s.touchHot r.cluster (r.pa / 128)) _ _ _)).and

theorem sameRoster_askReq (r : AtomReq) (n : Nat) : s.SameRoster (s.askReq r n) := by unfold askReq; split <;> exact .of_fields

theorem sameRoster_serveReq (r : AtomReq) : s.SameRoster (s.serveReq r) := by
  unfold serveReq
  dsimp only
  split
  · exact .refl _
  split
  · exact sameRoster_performReq _ _ _
  · exact sameRoster_poisonReq _ _
  split
  · exact (sameRoster_poisonReq _ _).trans (sameRoster_countLost _ _)
  split
  · exact sameRoster_askReq _ _ _
  · exact sameRoster_performReq _ _ _

theorem sameRoster_serveReqs (l : List AtomReq) : s.SameRoster (s.serveReqs l) := by
  induction l generalizing s with
  | nil => exact .refl s
  | cons r rs ih =>
    rw [serveReqs]
    split
    · exact (sameRoster_serveReq s r).trans (ih _)
    · exact sameRoster_serveReq s r

theorem sameRoster_serveLines (pas : List Nat) : s.SameRoster (s.serveLines pas) := by
  unfold serveLines
  split
  · exact .refl s
  · exact SameRoster.foldl (fun t l => sameRoster_serveReqs t _) _ _

theorem sameRoster_poisonLines (ls : List Nat) : s.SameRoster (s.poisonLines ls) := by
  unfold poisonLines; dsimp only; split <;> exact .of_fields

/-- Cached bytes of a range go home, where there are any. -/
theorem sameRoster_flushed (pa n : Nat) : s.SameRoster (if (s.l1.isEmpty && s.l2.isEmpty) = true then s else s.flushRange pa n) := by
  split
  · exact .refl s
  · exact sameRoster_flushRange _ _ _

/-- Atomics of lines are served, where there are any. -/
theorem sameRoster_served (pas : List Nat) : s.SameRoster (if s.atomq.isEmpty = true then s else s.serveLines pas) := by
  split
  · exact .refl s
  · exact sameRoster_serveLines _ _

theorem sameRoster_writeEngineAt (who : Who) (pa : Nat) (bs : List PByte) : s.SameRoster (s.writeEngineAt who pa bs) :=
  (((sameRoster_served s _).trans (sameRoster_flushed _ _ _)).trans (sameRoster_writeHome _ _ _ _)).trans (sameRoster_poisonLines _ _)

/-- Lines lose their poison, where there is any. -/
theorem sameRoster_cleared (l : List Nat) : s.SameRoster (if s.poison.lines.isEmpty = true then s else s.clearLines l) := by
  split
  · exact .refl s
  · exact sameRoster_clearLines _ _

theorem sameRoster_weaveWrite (who : Who) (rm : Rm) (sat : Bool) (l : Leaf) (ws : List (Nat × W32)) : s.SameRoster (s.weaveWrite who rm sat l ws) := by
  unfold weaveWrite
  dsimp only
  refine SameRoster.trans ?_ (sameRoster_cleared _ _)
  refine (sameRoster_flushed s _ _).trans (SameRoster.foldl (fun t b => ?_) _ _)
  split
  · exact .refl t
  split
  · exact sameRoster_writeHome _ _ _ _
  · exact (sameRoster_writeHome _ _ _ _).trans (sameRoster_writeHome _ _ _ _)

theorem sameRoster_engineAbsent (who : Who) (ctx : Nat) (need : Need) (va : Nat) : s.SameRoster (s.engineAbsent who ctx need va).2 := by
  unfold engineAbsent
  split
  · next h => exact sameRoster_pageRequest _ _ _ _ _ h
  · exact .refl s

theorem sameRoster_enginePage (who : Who) (ctx : Nat) (need : Need) (va n : Nat) : s.SameRoster (s.enginePage who ctx need va n).2 := by
  unfold enginePage
  have hleaf := s.sameRoster_leafOf who ctx va
  split
  · next e => exact hleaf.snd_of_eq e
  rename_i e
  replace hleaf := hleaf.snd_of_eq e
  split
  · exact hleaf
  split
  · exact hleaf
  · exact hleaf.trans (sameRoster_engineAbsent _ _ _ _ _)
  · exact hleaf
  · split <;> exact hleaf

theorem sameRoster_readPage (who : Who) (ctx : Nat) (fm : BitVec 4) (va n : Nat) : s.SameRoster (s.readPage who ctx fm va n).2 := by
  unfold readPage
  have hpage := s.sameRoster_enginePage who ctx .read va n
  split
  · next e => split <;> exact hpage.snd_of_eq e
  · next e => exact hpage.snd_of_eq e
  rename_i l s1 e
  have hserved := (hpage.snd_of_eq e).trans (sameRoster_served s1 ((l.runs va n).flatMap (fun r => linesOf r.1 r.2)))
  dsimp only
  generalize (if s1.atomq.isEmpty = true then s1 else s1.serveLines ((l.runs va n).flatMap (fun r => linesOf r.1 r.2))) = s2 at hserved ⊢
  split
  · exact hserved.trans (sameRoster_countLost _ _)
  · split <;> exact hserved

theorem sameRoster_readRun (who : Who) (ctx : Nat) (fm : BitVec 4) (fuel va n : Nat) : s.SameRoster (s.readRun who ctx fm fuel va n).2 := by
  induction fuel generalizing s va n with
  | zero => exact .refl s
  | succ fuel ih =>
    rw [readRun]
    split
    · exact .refl s
    dsimp only
    have hpage := s.sameRoster_readPage who ctx fm va (min n (65536 - va % 65536))
    split
    · next e =>
      replace hpage := (hpage.snd_of_eq e).trans (ih _ (va + min n (65536 - va % 65536)) (n - min n (65536 - va % 65536)))
      split <;> next e' => exact hpage.snd_of_eq e'
    · next e => exact hpage.snd_of_eq e

theorem sameRoster_readEngine (who : Who) (ctx : Nat) (fm : BitVec 4) (va n : Nat) : s.SameRoster (s.readEngine who ctx fm va n).2 :=
  sameRoster_readRun _ _ _ _ _ _ _

theorem sameRoster_writePage (who : Who) (ctx : Nat) (fm : BitVec 4) (va : Nat) (bs : List PByte) : s.SameRoster (s.writePage who ctx fm va bs).2 := by
  unfold writePage
  have hpage := s.sameRoster_enginePage who ctx .write va bs.length
  split
  · next e => exact hpage.snd_of_eq e
  · next e =>
    replace hpage := hpage.snd_of_eq e
    split
    · exact hpage.trans (sameRoster_writeEngineAt _ _ _ _)
    · exact ((hpage.trans (sameRoster_served _ _)).trans (sameRoster_weaveWrite _ _ _ _ _ _)).trans (sameRoster_poisonLines _ _)

theorem sameRoster_writeRun (who : Who) (ctx : Nat) (fm : BitVec 4) (fuel va : Nat) (bs : List PByte) :
    s.SameRoster (s.writeRun who ctx fm fuel va bs).2.2 := by
  induction fuel generalizing s va bs with
  | zero => exact .refl s
  | succ fuel ih =>
    rw [writeRun]
    split
    · exact .refl s
    dsimp only
    have hpage := s.sameRoster_writePage who ctx fm va (bs.take (min bs.length (65536 - va % 65536)))
    split
    · next e => exact (hpage.snd_of_eq e).trans (ih _ _ _)
    · next e => exact hpage.snd_of_eq e

theorem sameRoster_writeEngine (who : Who) (ctx : Nat) (fm : BitVec 4) (va : Nat) (bs : List PByte) :
    s.SameRoster (s.writeEngine who ctx fm va bs).2.2 := sameRoster_writeRun _ _ _ _ _ _ _

theorem sameRoster_engineAtom (who : Who) (ctx va : Nat) (bs : List Byte) : s.SameRoster (s.engineAtom who ctx va bs).2 := by
  unfold engineAtom
  have hpage := s.sameRoster_enginePage who ctx .both va bs.length
  split
  · next e => exact hpage.snd_of_eq e
  · next e =>
    replace hpage := hpage.snd_of_eq e
    split
    · exact hpage
    · exact (hpage.trans (sameRoster_writeEngineAt _ _ _ _)).trans (sameRoster_touchHot _ _ _)

theorem sameRoster_hankWrite (who : Who) (ctx : Nat) (fm : BitVec 4) (w : HWrite) : s.SameRoster (s.hankWrite who ctx fm w).2 := by
  cases w with
  | plain va bs => exact sameRoster_writeEngine _ _ _ _ _ _
  | atom va bs => exact sameRoster_engineAtom _ _ _ _ _

/-! The end of a copy (R367, R368). -/

theorem sameRoster_poisonPad (ws : List Nat) : s.SameRoster (s.poisonPad ws) := by unfold poisonPad; split <;> exact .of_fields

theorem sameRoster_writePadP (core off : Nat) (bs : List PByte) : s.SameRoster (s.writePadP core off bs) := by
  refine SameRoster.trans ?_ (sameRoster_poisonPad _ _)
  unfold writePad; dsimp only; split <;> exact .of_fields

theorem sameRoster_settlePad (e : EngEntry) (k : Nat) (bs : List PByte) : s.SameRoster (s.settlePad e k bs).2 := by
  refine SameRoster.foldl_snd (fun a p => ?_) s.padNotes (bs, s)
  dsimp only
  split
  · exact .refl _
  · split <;> exact .of_fields

theorem sameRoster_copyPadWrite (c : Copy) (core off : Nat) (bs : List PByte) : s.SameRoster (s.copyPadWrite c core off bs) := by
  unfold copyPadWrite
  split
  · exact (sameRoster_settlePad _ _ _ _).trans (sameRoster_writePadP _ _ _ _)
  · exact sameRoster_writePadP _ _ _ _

theorem sameRoster_writeCopyWord (c : Copy) (value : Nat → Nat) : s.SameRoster (s.writeCopyWord c value) := by
  unfold writeCopyWord
  split
  · exact .refl s
  · split
    · exact sameRoster_copyPadWrite _ _ _ _ _
    · exact .refl s

theorem sameRoster_updGroup (id : Nat) (f : Group → Group) (hf : ∀ g, (f g).id = g.id ∧ (f g).launch = g.launch) : s.SameRoster (s.updGroup id f) := by
  refine ⟨rfl, rfl, rfl, rfl, ?_⟩
  rw [updGroup_groups, updWhere, List.map_map]
  exact List.map_congr_left fun g _ => by simp only [Function.comp_apply]; split <;> simp [hf]

theorem sameRoster_breakBar (gid n : Nat) (code : BitVec 2) : s.SameRoster (s.breakBar gid n code) := by
  refine sameRoster_updGroup _ _ _ fun g => ?_
  split
  · split <;> exact ⟨rfl, rfl⟩
  · exact ⟨rfl, rfl⟩

theorem sameRoster_endEntryCopy (c : Copy) (en : CopyEnd) (e : EngEntry) : s.SameRoster (s.endEntryCopy c en e) := by
  unfold endEntryCopy
  extract_lets status record last isCard cancelled
  have hlast : ∀ (t : State) (value : Nat → Nat), t.SameRoster (last t value) := by
    intro t value
    have hword := t.sameRoster_writeCopyWord c value
    refine hword.trans (SameRoster.and (t := match c.bar with
        | some (g, b) => if en.status = stBadstream ∨ en.status = stBroken then (t.writeCopyWord c value).breakBar g b 2 else t.writeCopyWord c value
        | none => t.writeCopyWord c value) ?_)
    split
    · split
      · exact sameRoster_breakBar _ _ _ _
      · exact .refl _
    · exact .refl _
  split
  · have hrec := s.sameRoster_writeEngine c.who c.ctx c.fmode status (record.map (fun b => (b, false)))
    split
    · next h => rw [h] at hrec; exact hrec.trans (hlast _ _)
    · next h =>
      rw [h] at hrec
      split
      · exact hrec.trans (hlast _ _)
      · exact hrec.and
    · next h =>
      rw [h] at hrec
      split
      · exact hrec.trans (hlast _ _)
      · split <;> exact hrec.and
    · next h => rw [h] at hrec; exact hrec.trans (hlast _ _)
  · exact hlast _ _

theorem sameRoster_cancelCopies (c : Nat) (p : Copy → Bool) : s.SameRoster (s.cancelCopies c p) := by
  refine SameRoster.foldl (fun t k => ?_) _ s
  split
  · exact sameRoster_endEntryCopy _ _ _ _
  · exact .of_fields

end State

/-! Steps of a hank engine (R177, R182). -/

/-- Steps that keep the roster, whatever they end with. -/
def HM.KeepsRoster {α : Type} (m : HM α) : Prop := ∀ s : State, s.SameRoster (m.on s).2

namespace HM.KeepsRoster

variable {α β : Type}

theorem pure (a : α) : HM.KeepsRoster (Pure.pure a : HM α) := fun s => .refl s

theorem throw (e : HStop) : HM.KeepsRoster (MonadExcept.throw e : HM α) := fun s => .refl s

theorem throw_bind (e : HStop) (f : α → HM β) : HM.KeepsRoster ((MonadExcept.throw e : HM α) >>= f) := fun s => .refl s

theorem bind {m : HM α} {f : α → HM β} (hm : m.KeepsRoster) (hf : ∀ a, (f a).KeepsRoster) : (m >>= f).KeepsRoster := by
  intro s
  rw [HM.on_bind]
  have hm := hm s
  split
  · next a t e => exact (hm.snd_of_eq e).trans (hf a t)
  · next e => exact hm.snd_of_eq e

theorem get {f : State → HM β} (hf : ∀ s, (f s).KeepsRoster) : ((MonadState.get : HM State) >>= f).KeepsRoster := fun s => hf s s

end HM.KeepsRoster

theorem hRead_keepsRoster (who : Who) (ctx : Nat) (fm : BitVec 4) (va n : Nat) : (hRead who ctx fm va n).KeepsRoster := by
  intro s
  have hread := s.sameRoster_readEngine who ctx fm va n
  show s.SameRoster (hRead who ctx fm va n s).2
  unfold hRead
  dsimp only [ExceptT.mk]
  split
  · next e => exact hread.snd_of_eq e
  · next e => split <;> exact hread.snd_of_eq e

theorem hCommit_keepsRoster (who : Who) (ctx : Nat) (fm : BitVec 4) (ws : List HWrite) : (hCommit who ctx fm ws).KeepsRoster := by
  intro s
  have hall := State.SameRoster.foldl_snd (f := fun (acc : Option Stop × State) (w : HWrite) => if acc.1.isSome then acc else acc.2.hankWrite who ctx fm w)
    (fun a w => by split; exacts [.refl _, State.sameRoster_hankWrite _ _ _ _ _]) ws (none, s)
  show s.SameRoster (hCommit who ctx fm ws s).2
  unfold hCommit
  dsimp only [ExceptT.mk]
  split
  · exact hall
  · exact State.sameRoster_engineAbsent _ _ _ _ _
  · exact .refl s

theorem readHank_keepsRoster (who : Who) (ctx : Nat) (fm : BitVec 4) (at_ : Nat) : (readHank who ctx fm at_).KeepsRoster := by
  unfold readHank
  dsimp only
  split
  · exact .throw_bind _ _
  refine (hRead_keepsRoster _ _ _ _ _).bind fun _ => ?_
  split
  · exact .pure _
  · exact .throw _

theorem readLea_keepsRoster (who : Who) (h : Hank) (n : Nat) : (readLea who h n).KeepsRoster := by
  unfold readLea
  refine (hRead_keepsRoster _ _ _ _ _).bind fun _ => .get fun _ => ?_
  dsimp only
  split
  · exact .pure _
  · exact .throw _

theorem readChainFrom_keepsRoster (who : Who) (h : Hank) (fuel : Nat) (seen : List Nat) (a : Nat) : (readChainFrom who h fuel seen a).KeepsRoster := by
  induction fuel generalizing seen a with
  | zero => exact .throw _
  | succ fuel ih =>
    rw [readChainFrom]
    split
    · exact .pure _
    dsimp only
    split
    · exact .throw_bind _ _
    refine (hRead_keepsRoster _ _ _ _ _).bind fun _ => ?_
    split
    · exact .throw _
    · exact (ih _ _).bind fun _ => .pure _

theorem readChain_keepsRoster (l : Lea) (h : Hank) : (readChain l h).KeepsRoster := by
  refine (readChainFrom_keepsRoster _ _ _ _ _).bind fun _ => ?_
  split
  · exact .pure _
  · exact .throw _

theorem releasePin_keepsRoster (h : Hank) (c : Cursor) (p : Pin) : (releasePin h c p).KeepsRoster := by
  refine (readLea_keepsRoster _ _ _).bind fun _ => (readChain_keepsRoster _ _).bind fun _ => .get fun _ => ?_
  dsimp only
  split
  · exact .pure _
  · exact hCommit_keepsRoster _ _ _ _

namespace State

variable (s : State)

theorem sameRoster_releasePins (h : Hank) (c : Cursor) (st : Nat) (ps : List Pin) : s.SameRoster (s.releasePins h c st ps).2 := by
  induction ps generalizing s st with
  | nil => exact .refl s
  | cons p ps ih =>
    rw [releasePins]
    have hpin := releasePin_keepsRoster h { c with pins := p :: ps } p s
    split
    · next e => exact (hpin.snd_of_eq e).and.trans (ih _ _)
    · next e => exact (hpin.snd_of_eq e).and.trans (ih _ _)
    · next e => exact hpin.snd_of_eq e

theorem sameRoster_closeCursor (c : Cursor) (fm : BitVec 4) : s.SameRoster (s.closeCursor c fm).2 := by
  unfold closeCursor
  have hhead := readHank_keepsRoster (.hank (clusterOf c.core)) c.ctx fm c.hank.toNat s
  split
  · next h s1 e =>
    have hpins := (hhead.snd_of_eq e).trans (s1.sameRoster_releasePins h c 0 c.pins)
    split
    · next e' => exact (hpins.snd_of_eq e').and
    · next e' => exact hpins.snd_of_eq e'
  · next e =>
    split
    · exact hhead.snd_of_eq e
    · exact (hhead.snd_of_eq e).and
  · next e => exact hhead.snd_of_eq e

theorem sameRoster_closeGroupCursors (gid : Nat) : s.SameRoster (s.closeGroupCursors gid) := by
  refine SameRoster.foldl (fun t c => ?_) _ s
  have hclose := t.sameRoster_closeCursor c 0
  split <;> next e => exact (hclose.snd_of_eq e).and

end State

end Sys2Proof.Machine
end

section
/-! SUPPORT. The packets that act at once (O49): R61 to R63, R209, R369. -/

namespace Sys2Proof.Machine

set_option Elab.async false

/-- The start action of the first chosen entry runs, when the entry is of its type. -/
theorem State.startPacket_of_chosen {s : State} {q : HostQueue} {e : Entry} (h : s.chosen? = some (q, e)) {type : Nat} (ht : e.type = type)
    (act : State → HostQueue → Entry → State) : s.startPacket type act = .next (act s q e) := by
  unfold State.startPacket
  rw [h]
  exact if_pos ht

/-! A signal's decrement at its home (R61). -/

theorem length_bytesOf (n x : Nat) : (bytesOf n x).length = n := by
  induction n generalizing x with
  | zero => rfl
  | succ n ih => rw [bytesOf, List.length_cons, ih]

theorem natOf_bytesOf (n x : Nat) : natOf (bytesOf n x) = x % 256 ^ n := by
  induction n generalizing x with
  | zero => simp [bytesOf, natOf, Nat.mod_one]
  | succ n ih =>
    rw [bytesOf, natOf, ih, BitVec.toNat_ofNat, Nat.pow_succ' (m := 256), Nat.mod_mul]

/-- A run of values reads back after it is written. -/
theorem Kv.getRun_setRun {α : Type} [DecidableEq α] {dflt : α} {m : Kv α} (h : Kv.wf dflt m = true) (i : Nat) (xs : List α) :
    Kv.getRun dflt (Kv.setRun dflt m i xs) i xs.length = xs := by
  induction xs generalizing m i with
  | nil => rfl
  | cons x xs ih =>
    have hset := Kv.wf_set h i x
    have hhead : Kv.get dflt (Kv.setRun dflt m i (x :: xs)) i = x := by
      rw [Kv.setRun, Kv.get_setRun hset, if_neg (by omega), Kv.get_set h, if_pos rfl]
    rw [List.length_cons, Kv.getRun, hhead, Kv.setRun, ih hset]

/-- A word of the home image reads as it was written there, where it lands in one run of places. -/
theorem State.homeNat_writeHome {s : State} (hwf : s.mem.wf = true) (w : Who) {pa : Nat} {bs : List Byte} (hl : s.lands pa = true)
    (hp : s.place (pa + (bs.length - 1)) = s.place pa + (bs.length - 1)) : (s.writeHome w pa bs).homeNat pa bs.length = natOf bs := by
  unfold State.homeNat
  rw [State.writeHome_mem, if_pos hl, State.storeRun, if_pos hp, State.place_congr (State.writeHome_hostSide w pa bs), Kv.getRun_setRun hwf]

theorem State.homeNat_decrement {s : State} (hwf : s.mem.wf = true) (hq : s.atomq = []) {pa : Nat} (dec : W64) (hl : s.lands pa = true)
    (hp : s.place (pa + 7) = s.place pa + 7) : BitVec.ofNat 64 ((s.decrement pa dec).homeNat pa 8) = BitVec.ofNat 64 (s.homeNat pa 8) - dec := by
  have hserve : s.serveLine (pa / 128) = s := by unfold State.serveLine; rw [hq]; rfl
  have hlen := length_bytesOf 8 (BitVec.ofNat 64 (s.homeNat pa 8) - dec).toNat
  have hread := State.homeNat_writeHome (bs := bytesOf 8 (BitVec.ofNat 64 (s.homeNat pa 8) - dec).toNat) hwf (.pair 0) hl (by rw [hlen]; exact hp)
  rw [hlen] at hread
  have hdec : (s.decrement pa dec).homeNat pa 8 = (s.writeHome (.pair 0) pa (bytesOf 8 (BitVec.ofNat 64 (s.homeNat pa 8) - dec).toNat)).homeNat pa 8 := by
    unfold State.decrement
    rw [hserve]
    rfl
  rw [hdec, hread, natOf_bytesOf, show 256 ^ 8 = 2 ^ 64 by rfl, Nat.mod_eq_of_lt (BitVec.isLt _), BitVec.ofNat_toNat, BitVec.setWidth_eq]

/-! SIGNAL and BARRIER (R61, R62). -/

section Chosen
variable {s : State} {q : HostQueue} {e : Entry} (h : s.chosen? = some (q, e))
include h

/-- What SIGNAL_PACKET leads to, by what its access meets. -/
theorem signalPacket_aligned (ht : e.type = 4) (ha : e.field 24 8 % 8 = 0) :
    exec .signalPacket s = .next (match s.fwTranslate q.home q.ctx .both true (e.field 24 8) 8 with
      | (.ok pa, s1) => (s1.decrement pa (BitVec.ofNat 64 (e.field 32 8))).reportEntry q.ctx q.idx e.pos pkDone 0 0 0 0
      | (.fail c, s1) => s1.failEntry q e c (e.field 24 8) 0
      | (.hold, s1) => s1.holdEntry q.ctx q.idx e.pos) := by
  show execSignalPacket s = _
  unfold execSignalPacket
  rw [State.startPacket_of_chosen h ht]
  exact congrArg _ (if_neg (not_not_intro ha))

theorem signalPacket_misaligned (ht : e.type = 4) (ha : e.field 24 8 % 8 ≠ 0) :
    exec .signalPacket s = .next (s.reportEntry q.ctx q.idx e.pos pkBadpacket 24 0 0 0) := by
  show execSignalPacket s = _
  unfold execSignalPacket
  rw [State.startPacket_of_chosen h ht]
  exact congrArg _ (if_pos ha)

theorem barrierPacket_badCount (ht : e.type = 3) (hn : e.field 56 1 = 0 ∨ 4 < e.field 56 1) :
    exec .barrierPacket s = .next (s.reportEntry q.ctx q.idx e.pos pkBadpacket 56 (s.progressOf q e) 0 0) := by
  show execBarrierPacket s = _
  unfold execBarrierPacket
  rw [State.startPacket_of_chosen h ht]
  exact congrArg _ (if_pos hn)

omit h in
/-- No address that a BARRIER lists is misaligned. -/
theorem firstBad_signals (ha : ∀ i, i < e.field 56 1 → e.field (24 + 8 * i) 8 % 8 = 0) :
    firstBad ((State.signalsOf e).zipIdx.map (fun p => (p.1 % 8 == 0, 24 + 8 * p.2))) = none := by
  have hall : ∀ va ∈ State.signalsOf e, va % 8 = 0 := by
    intro va hva
    obtain ⟨i, hi, rfl⟩ := List.mem_map.mp hva
    exact ha i (by have := List.mem_range.mp hi; omega)
  simp only [firstBad, Option.map_eq_none_iff, List.find?_eq_none, List.mem_map, forall_exists_index, and_imp]
  rintro _ ⟨va, i⟩ hmem rfl
  simp [hall va (List.fst_mem_of_mem_zipIdx hmem)]

theorem barrierPacket_evaluates (ht : e.type = 3) (hlo : 1 ≤ e.field 56 1) (hhi : e.field 56 1 ≤ 4)
    (ha : ∀ i, i < e.field 56 1 → e.field (24 + 8 * i) 8 % 8 = 0) : exec .barrierPacket s = .next (s.evalBarrier q e) := by
  show execBarrierPacket s = _
  unfold execBarrierPacket
  rw [State.startPacket_of_chosen h ht]
  dsimp only
  rw [if_neg (by omega), firstBad_signals ha]

/-! MARKER (R63). -/

theorem markerPacket_again (ht : e.type = 6) (hs : e.step ≠ 0) {pa : Nat} {s1 : State}
    (hw : s.fwWrite q.home q.ctx (e.field 24 8) ((e.bytes.drop 32).take 8) = (.ok pa, s1)) :
    exec .markerPacket s = .next (s1.reportEntry q.ctx q.idx e.pos pkDone 0 0 0 0) := by
  show execMarkerPacket s = _
  unfold execMarkerPacket
  rw [State.startPacket_of_chosen h ht]
  dsimp only
  rw [if_neg hs, hw]

/-- The first start of a MARKER clears the tokens it names, whatever its write meets. -/
theorem markerPacket_clears (ht : e.type = 6) (hs : e.step = 0) (hq : s.hq? q.ctx q.idx = some q) :
    ∃ (t : State) (y : HostQueue), exec .markerPacket s = .next t ∧ t.hq? q.ctx q.idx = some y
      ∧ y.tokens = (q.clearTokens (BitVec.ofNat 64 (e.field 40 8))).tokens := by
  have hclear := State.hq?_updEntry (State.hq?_updHq hq (f := (·.clearTokens (BitVec.ofNat 64 (e.field 40 8)))) fun _ => ⟨rfl, rfl⟩)
    e.pos (fun e => { e with step := 1 })
  have hkeep := State.sameRoster_fwWrite ((s.updHq q.ctx q.idx (·.clearTokens (BitVec.ofNat 64 (e.field 40 8)))).updEntry q.ctx q.idx e.pos
    (fun e => { e with step := 1 })) q.home q.ctx (e.field 24 8) ((e.bytes.drop 32).take 8)
  show ∃ (t : State) (y : HostQueue), execMarkerPacket s = .next t ∧ _
  unfold execMarkerPacket
  rw [State.startPacket_of_chosen h ht]
  dsimp only
  rw [if_pos hs]
  split <;> next e' => exact ⟨_, _, rfl, State.hq?_updEntry ((State.hq?_congr (hkeep.snd_of_eq e').hqs _ _).trans hclear) _ _, rfl⟩

/-! COPY (R369). -/

theorem copyPacket_denied (ht : e.type = 2) (hc : q.ctx = 0) : exec .copyPacket s = .next (s.reportEntry q.ctx q.idx e.pos pkDenied 0 0 0 0) := by
  show execCopyPacket s = _
  unfold execCopyPacket
  rw [State.startPacket_of_chosen h ht]
  exact congrArg _ (if_pos hc)

/-- COPY_PACKET enters one stream of the packet's bytes on copy engine 0 of its cluster. -/
theorem copyPacket_enters (ht : e.type = 2) (hc : q.ctx ≠ 0) (ha : e.field 48 8 % 8 = 0) :
    exec .copyPacket s = .next ({ s.fresh.2 with copies := s.copies ++ [State.newCopy s.nextId (s.copyCluster q.ctx e.pos) 0 q.ctx (.packet q.ctx q.idx e.pos)
      { State.emptyCard with src := BitVec.ofNat 64 (e.field 24 8), dst := BitVec.ofNat 64 (e.field 32 8), rbytes := e.field 40 8, dpitch := e.field 40 8 } true]
      }.updEntry q.ctx q.idx e.pos (fun e => { e with phase := .started })) := by
  show execCopyPacket s = _
  unfold execCopyPacket
  rw [State.startPacket_of_chosen h ht]
  dsimp only
  rw [if_neg hc, if_neg (not_not_intro ha)]
  rfl

end Chosen

/-! The evaluation of a BARRIER (R62). -/

section Barrier
variable {s s1 : State} {q : HostQueue} {e : Entry} {xs : List W64} (h : s.readSignals q.home q.ctx (State.signalsOf e) = (.vals xs, s1))
include h

/-- An evaluation of a BARRIER whose signals are read, none of them negative. -/
theorem State.evalBarrier_nonneg (hpos : ∀ v ∈ xs, v.msb = false) :
    s.evalBarrier q e = if (xs.filter (· == 0)).length = xs.length then s1.reportEntry q.ctx q.idx e.pos pkDone 0 (BitVec.ofNat 64 (xs.filter (· == 0)).length) 0 0
      else s1.updEntry q.ctx q.idx e.pos (fun e => { e with phase := .started, watches := State.signalsOf e }) := by
  have hnone : xs.zipIdx.find? (fun p => p.1.msb) = none := by
    rw [List.find?_eq_none]
    rintro ⟨v, i⟩ hmem
    simp [hpos v (List.fst_mem_of_mem_zipIdx hmem)]
  unfold State.evalBarrier
  rw [h]
  dsimp only
  rw [hnone]

theorem State.evalBarrier_zero (hz : ∀ v ∈ xs, v = 0) : s.evalBarrier q e = s1.reportEntry q.ctx q.idx e.pos pkDone 0 (BitVec.ofNat 64 xs.length) 0 0 := by
  have hall : xs.filter (· == 0) = xs := List.filter_eq_self.mpr fun v hv => by simp [hz v hv]
  rw [State.evalBarrier_nonneg h fun v hv => by rw [hz v hv]; rfl, hall, if_pos rfl]

theorem State.evalBarrier_waits (hne : ∃ v ∈ xs, v ≠ 0) (hpos : ∀ v ∈ xs, v.msb = false) :
    s.evalBarrier q e = s1.updEntry q.ctx q.idx e.pos (fun e => { e with phase := .started, watches := State.signalsOf e }) := by
  obtain ⟨v, hv, hv0⟩ := hne
  have hlt : ¬(xs.filter (· == 0)).length = xs.length := fun heq => by
    have := List.length_filter_eq_length_iff.mp heq v hv
    exact hv0 (by simpa using this)
  rw [State.evalBarrier_nonneg h hpos, if_neg hlt]

theorem State.evalBarrier_negative {pre post : List W64} {v : W64} (hxs : xs = pre ++ v :: post) (hv : v.msb = true) (hpre : ∀ w ∈ pre, w.msb = false) :
    s.evalBarrier q e = s1.reportEntry q.ctx q.idx e.pos pkSigneg (BitVec.ofNat 32 pre.length) (BitVec.ofNat 64 (xs.filter (· == 0)).length) 0 v := by
  have hfind : xs.zipIdx.find? (fun p => p.1.msb) = some (v, pre.length) := by
    have hnone : pre.zipIdx.find? (fun p => p.1.msb) = none := by
      rw [List.find?_eq_none]
      rintro ⟨w, i⟩ hmem
      simp [hpre w (List.fst_mem_of_mem_zipIdx hmem)]
    rw [hxs, List.zipIdx_append, List.find?_append, hnone]
    simp [hv]
  unfold State.evalBarrier
  rw [h]
  dsimp only
  rw [hfind]

end Barrier

theorem State.watchEval_started {s : State} {x : HostQueue} {e : Entry} (hx : s.hq? x.ctx x.idx = some x) (he : s.entry? x.ctx x.idx e.pos = some e)
    (hp : e.phase = .started) (ht : e.type = 3) : s.watchEval x.ctx x.idx e.pos = s.evalBarrier x e := by
  unfold State.watchEval
  rw [hx, he]
  simp [hp, ht]

/-- Settles O49: each start action runs as the action of its packet says, and BARRIER's evaluation goes by the values that its signals read. -/
theorem queuePackets : Obligations.QueuePackets := by
  unfold Obligations.QueuePackets
  refine ⟨fun s q e h => ⟨?_, ?_, ?_, ?_, ?_, ?_⟩, fun s x e hx he hp ht => ?_, fun s q e xs s1 h => ?_, fun s pa dec hwf hq hl hp => State.homeNat_decrement hwf hq dec hl hp⟩
  · intro ht
    show execNopPacket s = _
    exact State.startPacket_of_chosen h ht _
  · refine fun ht => ⟨signalPacket_misaligned h ht, fun ha => ⟨fun pa s1 hf => ?_, fun c s1 hf => ?_, fun s1 hf => ?_⟩⟩
    · rw [signalPacket_aligned h ht ha, hf]
    · rw [signalPacket_aligned h ht ha, hf]
      rfl
    · rw [signalPacket_aligned h ht ha, hf]
  · exact fun ht => ⟨barrierPacket_badCount h ht, barrierPacket_evaluates h ht⟩
  · exact fun ht hs pa s1 hw => markerPacket_again h ht hs hw
  · intro ht hs hq _ _ _ _
    obtain ⟨t, y, hrun, hy, htok⟩ := markerPacket_clears h ht hs hq
    exact ⟨t, y, hrun, hy, fun hlen k hk => by rw [htok, HostQueue.getD_clearTokens hlen _ hk]⟩
  · exact fun ht => ⟨copyPacket_denied h ht, fun hc ha =>
      ⟨_, _, copyPacket_enters h ht hc ha, rfl, rfl, rfl, rfl, rfl, rfl, rfl, rfl, rfl, rfl, rfl⟩⟩
  · have hwatch := State.watchEval_started hx he hp ht
    exact ⟨(congrArg Host.Outcome.next hwatch :), (congrArg Host.Outcome.next hwatch :)⟩
  · exact ⟨fun _ hz => State.evalBarrier_zero h hz, fun pre post v hxs hv hpre => State.evalBarrier_negative h hxs hv hpre, State.evalBarrier_waits h⟩

end Sys2Proof.Machine
end

section
/-! SUPPORT. Host queues at work (O48): TAIL, the fetch of a slot, the scan of one entry, and a completion. -/

namespace Sys2Proof.Machine

set_option Elab.async false

/-! The state a queue settles in (R52). -/

theorem HostQueue.settle_eq (x : HostQueue) : ∃ st, x.settle = { x with state := st } := by
  unfold HostQueue.settle
  split
  · split
    · exact ⟨_, rfl⟩
    · split
      · exact ⟨_, rfl⟩
      · exact ⟨x.state, rfl⟩
  · split
    · exact ⟨_, rfl⟩
    · exact ⟨x.state, rfl⟩

theorem HostQueue.settle_fetching {x : HostQueue} (h : x.state = .empty) (hne : x.fetch ≠ x.tail) (hfull : x.isFull = false) : x.settle.state = .fetching := by
  unfold HostQueue.settle
  rw [h, if_neg (by decide), if_pos (by simp [hne]), hfull]
  rfl

theorem HostQueue.settle_ne_stalled {x : HostQueue} (h : x.state = .fetching) : x.settle.state ≠ .stalled := by
  unfold HostQueue.settle
  rw [if_pos h]
  split
  · nofun
  · split
    · nofun
    · rw [h]; nofun

/-! TAIL (R50, R52). -/

/-- A queue that takes a TAIL. -/
def HostQueue.takeTail (x : HostQueue) (value : W32) : HostQueue :=
  if value = x.tail then { x with tail := value, badtail := false } else HostQueue.settle { x with tail := value, badtail := false }

theorem HostQueue.takeTail_eq (x : HostQueue) (value : W32) : ∃ st, x.takeTail value = { x with tail := value, badtail := false, state := st }
    ∧ (value = x.tail → st = x.state) ∧ (value ≠ x.tail → x.state = .empty → value ≠ x.fetch → x.isFull = false → st = .fetching) := by
  unfold HostQueue.takeTail
  by_cases hv : value = x.tail
  · exact ⟨x.state, by rw [if_pos hv], fun _ => rfl, fun hne => absurd hv hne⟩
  · obtain ⟨st, hst⟩ := HostQueue.settle_eq { x with tail := value, badtail := false }
    refine ⟨st, by rw [if_neg hv, hst], fun heq => absurd heq hv, fun _ hempty hne hfull => ?_⟩
    rw [← HostQueue.settle_fetching (x := { x with tail := value, badtail := false }) hempty (Ne.symm hne) hfull, hst]

theorem HostQueue.takeTail_numbers (x : HostQueue) (value : W32) : (x.takeTail value).ctx = x.ctx ∧ (x.takeTail value).idx = x.idx := by
  obtain ⟨st, hst, -, -⟩ := x.takeTail_eq value
  rw [hst]
  exact ⟨rfl, rfl⟩

section Queue
variable {s : State} {x : HostQueue} (hx : s.hq? x.ctx x.idx = some x)
include hx

theorem tailWrite_taken {value : W32} (hv : (value - x.retire).toNat ≤ 2 ^ x.logn ∧ (value - x.fetch).toNat < 2 ^ 31) :
    exec (.tailWrite x.ctx x.idx value) s = .next (s.updHq x.ctx x.idx (·.takeTail value)) := by
  show execTailWrite x.ctx x.idx value s = _
  unfold execTailWrite
  rw [hx]
  exact if_pos hv

theorem tailWrite_ignored {value : W32} (hv : ¬((value - x.retire).toNat ≤ 2 ^ x.logn ∧ (value - x.fetch).toNat < 2 ^ 31)) :
    exec (.tailWrite x.ctx x.idx value) s = .next (s.updHq x.ctx x.idx (fun x => { x with badtail := true })) := by
  show execTailWrite x.ctx x.idx value s = _
  unfold execTailWrite
  rw [hx]
  exact if_neg hv

/-! Fetch (R51, R52). -/

theorem packetFetch_fetches (hst : x.state = .fetching) (hne : x.fetch ≠ x.tail) (hfull : x.isFull = false) :
    exec (.packetFetch x.ctx x.idx) s = .next (s.fetchSlot x) := by
  show execPacketFetch x.ctx x.idx s = _
  unfold execPacketFetch
  rw [hx]
  simp [hst, hne, hfull]

theorem slotReread_fetches (hst : x.state = .stalled) (long : Bool) :
    exec (.slotRereadTimer x.ctx x.idx long) s = .next ((s.updHq x.ctx x.idx (fun z => { z with longstall := z.longstall || long })).fetchSlot x) := by
  show execSlotRereadTimer x.ctx x.idx long s = _
  unfold execSlotRereadTimer
  rw [hx]
  simp [hst]

end Queue

/-- A queue that takes the slot of FETCH onto its board. -/
def HostQueue.accept (x : HostQueue) (bs : List Byte) : HostQueue :=
  HostQueue.settle { x with board := x.board ++ [State.newEntry x.fetch.toNat bs], fetch := x.fetch + 1, state := .fetching, longstall := false }

/-- Whether the bytes of the slot of FETCH have the position's generation and a right CRC (R51). -/
def HostQueue.Good (x : HostQueue) (bs : List Byte) : Prop :=
  fieldOf bs 1 1 / 16 = (x.fetch.toNat / 2 ^ x.logn) % 16 ∧ fieldOf bs 60 4 = crc32c (bs.take 60)

/-- A slot that is read is taken onto the board, or stalls the queue. -/
theorem State.fetchSlot_read {s s1 : State} {x : HostQueue} {pa : Nat}
    (h : s.fwTranslate x.home x.ctx .read false (x.ring.toNat + 64 * (x.fetch.toNat % 2 ^ x.logn)) 64 = (.ok pa, s1)) :
    (x.Good (s1.bytesAt (.pair x.home) pa 64) → s.fetchSlot x = s1.updHq x.ctx x.idx (·.accept (s1.bytesAt (.pair x.home) pa 64)))
    ∧ (¬x.Good (s1.bytesAt (.pair x.home) pa 64) → s.fetchSlot x = s1.updHq x.ctx x.idx (fun x => { x with state := .stalled })) := by
  have hread : s.readSlot x = if (decide (fieldOf (s1.bytesAt (.pair x.home) pa 64) 1 1 / 16 = x.genOf x.fetch)
      && fieldOf (s1.bytesAt (.pair x.home) pa 64) 60 4 == crc32c ((s1.bytesAt (.pair x.home) pa 64).take 60)) = true
      then (some (s1.bytesAt (.pair x.home) pa 64), s1) else (none, s1) := by
    unfold State.readSlot HostQueue.slotOf HostQueue.slots
    rw [h]
  have hgood : (decide (fieldOf (s1.bytesAt (.pair x.home) pa 64) 1 1 / 16 = x.genOf x.fetch)
      && fieldOf (s1.bytesAt (.pair x.home) pa 64) 60 4 == crc32c ((s1.bytesAt (.pair x.home) pa 64).take 60)) = true
      ↔ x.Good (s1.bytesAt (.pair x.home) pa 64) := by
    rw [Bool.and_eq_true, decide_eq_true_iff, beq_iff_eq]
    rfl
  unfold State.fetchSlot
  rw [hread]
  exact ⟨fun hg => by rw [if_pos (hgood.mpr hg)]; rfl, fun hg => by rw [if_neg (mt hgood.mp hg)]⟩

/-- The queue after its slot is read, whatever its LONGSTALL was. -/
theorem State.hq?_fetchSlot {s s1 : State} {x : HostQueue} {pa : Nat} {l : Bool} (hz : s.hq? x.ctx x.idx = some { x with longstall := l })
    (h : s.fwTranslate x.home x.ctx .read false (x.ring.toNat + 64 * (x.fetch.toNat % 2 ^ x.logn)) 64 = (.ok pa, s1)) :
    ∃ y, (s.fetchSlot x).hq? x.ctx x.idx = some y ∧ y.tail = x.tail ∧ y.retire = x.retire ∧ y.tokens = x.tokens
      ∧ (x.Good (s1.bytesAt (.pair x.home) pa 64) →
          y.board = x.board ++ [State.newEntry x.fetch.toNat (s1.bytesAt (.pair x.home) pa 64)] ∧ y.fetch = x.fetch + 1 ∧ y.state ≠ .stalled)
      ∧ (¬x.Good (s1.bytesAt (.pair x.home) pa 64) → y.board = x.board ∧ y.fetch = x.fetch ∧ y.state = .stalled) := by
  obtain ⟨hgood, hbad⟩ := State.fetchSlot_read h
  have hkeep := s.sameRoster_fwTranslate x.home x.ctx .read false (x.ring.toNat + 64 * (x.fetch.toNat % 2 ^ x.logn)) 64
  replace hz := (State.hq?_congr (hkeep.snd_of_eq h).hqs x.ctx x.idx).trans hz
  by_cases hg : x.Good (s1.bytesAt (.pair x.home) pa 64)
  · let z : HostQueue := { x with board := x.board ++ [State.newEntry x.fetch.toNat (s1.bytesAt (.pair x.home) pa 64)], fetch := x.fetch + 1, state := .fetching, longstall := false }
    obtain ⟨st, hst⟩ := HostQueue.settle_eq z
    have hstall := HostQueue.settle_ne_stalled (x := z) rfl
    have hsettle : ∀ y : HostQueue, (y.accept (s1.bytesAt (.pair x.home) pa 64)).ctx = y.ctx ∧ (y.accept (s1.bytesAt (.pair x.home) pa 64)).idx = y.idx := fun y => by
      obtain ⟨st, hst⟩ := HostQueue.settle_eq
        { y with board := y.board ++ [State.newEntry y.fetch.toNat (s1.bytesAt (.pair x.home) pa 64)], fetch := y.fetch + 1, state := .fetching, longstall := false }
      unfold HostQueue.accept
      rw [hst]
      exact ⟨rfl, rfl⟩
    rw [hgood hg]
    refine ⟨z.settle, State.hq?_updHq hz hsettle, ?_⟩
    rw [hst] at hstall ⊢
    exact ⟨rfl, rfl, rfl, fun _ => ⟨rfl, rfl, hstall⟩, fun hn => absurd hg hn⟩
  · rw [hbad hg]
    exact ⟨_, State.hq?_updHq hz fun _ => ⟨rfl, rfl⟩, rfl, rfl, rfl, fun hn => absurd hn hg, fun _ => ⟨rfl, rfl, rfl⟩⟩

/-! The scan of one entry (R55, R57, R166). -/

section Scan
variable {s : State} {x : HostQueue} {e : Entry} (hx : s.hq? x.ctx x.idx = some x)
include hx

theorem boardScan_one (hhalt : x.state ≠ .halted) (hdead : x.state ≠ .dead) (hw : x.board.filter (fun b => b.phase == .waiting) = [e]) :
    exec (.boardScan x.ctx x.idx) s = .next (s.scanEntry x.ctx x.idx e.pos) := by
  show execBoardScan x.ctx x.idx s = _
  unfold execBoardScan
  rw [hx]
  simp [hhalt, hdead, hw]

/-- What the scan gives an unstarted entry that no BARRIER holds back, and that is a legal packet of another type than CONTEXT. -/
theorem State.scanEntry_free (he : x.board.find? (fun b => b.pos == e.pos) = some e) (hwait : e.phase = .waiting) (hbad : e.bad = none) (ht : e.type ≠ 7)
    (hb : ∀ b ∈ x.board, b.barrier = true → b.phase = .done ∨ b.pos = e.pos ∨ (BitVec.ofNat 32 e.pos - x.retire).toNat ≤ (BitVec.ofNat 32 b.pos - x.retire).toNat) :
    s.scanEntry x.ctx x.idx e.pos =
      if Tok.clear ∈ s.waitTokens x e ∨ e.type = 2 ∧ s.engineStuck (s.copyCluster x.ctx e.pos) 0 = true then s
      else if Tok.poisoned ∈ s.waitTokens x e ∧ e.tolerates = false then
        (s.consume x.ctx x.idx e).reportEntry x.ctx x.idx e.pos pkPoisoned 0 (s.progressOf x e) 0 0
      else (s.consume x.ctx x.idx e).updEntry x.ctx x.idx e.pos (fun b =>
        { b with phase := .chosen, poisonedWait := (s.waitTokens x e).contains .poisoned, consumed := b.consumes }) := by
  have hheld : x.board.any (fun b => (b.pos : Int) != e.pos && b.barrier && b.bad.isNone && b.phase != .done
      && decide ((BitVec.ofNat 32 b.pos - x.retire).toNat < (BitVec.ofNat 32 e.pos - x.retire).toNat)) = false := by
    rw [List.any_eq_false]
    intro b hmem hall
    simp only [Bool.and_eq_true, bne_iff_ne, ne_eq, decide_eq_true_eq] at hall
    obtain ⟨⟨⟨⟨hpos, hbar⟩, _⟩, hdone⟩, hlt⟩ := hall
    rcases hb b hmem hbar with h | h | h
    · exact hdone h
    · exact hpos (by rw [h])
    · omega
  unfold State.scanEntry
  rw [hx]
  dsimp only
  rw [he]
  dsimp only
  rw [hheld, hwait, hbad]
  simp [ht]

/-- The queue once its tokens are consumed, if they are. -/
theorem State.hq?_consume (e : Entry) : (s.consume x.ctx x.idx e).hq? x.ctx x.idx = some (if e.consumes then x.clearTokens e.waits else x) := by
  unfold State.consume
  split
  · exact State.hq?_updHq hx fun _ => ⟨rfl, rfl⟩
  · exact hx

theorem State.entry?_consume (e : Entry) (pos : Nat) : (s.consume x.ctx x.idx e).entry? x.ctx x.idx pos = s.entry? x.ctx x.idx pos := by
  rw [State.entry?_eq (State.hq?_consume hx e), State.entry?_eq hx]
  split <;> rfl

end Scan

/-- The tokens of a queue once an entry is given its row: those it waited on are CLEAR when it consumes them. -/
theorem HostQueue.getD_consumed {x : HostQueue} (hlen : x.tokens.length = 64) (e : Entry) {k : Nat} (hk : k < 64) :
    (if e.consumes then x.clearTokens e.waits else x).tokens.getD k .clear
      = if e.consumes = true ∧ e.waits.getLsbD k = true then .clear else x.tokens.getD k .clear := by
  by_cases hc : e.consumes = true
  · rw [if_pos hc, HostQueue.getD_clearTokens hlen _ hk]
    simp [hc]
  · rw [if_neg hc, if_neg (fun h => hc h.1)]

/-- An entry whose tokens are there is chosen, or completes POISONED, and consumes them (R57). -/
theorem boardScan_settles {s : State} {x : HostQueue} {e : Entry} (hx : s.hq? x.ctx x.idx = some x) (hwait : e.phase = .waiting)
    (he : x.board.find? (fun b => b.pos == e.pos) = some e) {toks : List Tok}
    (hrun : exec (.boardScan x.ctx x.idx) s = .next (if Tok.poisoned ∈ toks ∧ e.tolerates = false then
        (s.consume x.ctx x.idx e).reportEntry x.ctx x.idx e.pos pkPoisoned 0 (s.progressOf x e) 0 0
      else (s.consume x.ctx x.idx e).updEntry x.ctx x.idx e.pos (fun b => { b with phase := .chosen, poisonedWait := toks.contains .poisoned, consumed := b.consumes }))) :
    ∃ (t : State) (y : HostQueue) (e' : Entry), exec (.boardScan x.ctx x.idx) s = .next t ∧ t.hq? x.ctx x.idx = some y ∧ t.entry? x.ctx x.idx e.pos = some e'
      ∧ (Tok.poisoned ∈ toks → e.tolerates = false → e'.phase = .reporting ∧ e'.report.status = pkPoisoned)
      ∧ (Tok.poisoned ∉ toks ∨ e.tolerates = true → e'.phase = .chosen ∧ (e'.poisonedWait = true ↔ Tok.poisoned ∈ toks))
      ∧ (∀ k, k < 64 → x.tokens.length = 64 → y.tokens.getD k .clear = if e.consumes = true ∧ e.waits.getLsbD k = true then .clear else x.tokens.getD k .clear) := by
  have hq1 := State.hq?_consume hx e
  have he1 : (s.consume x.ctx x.idx e).entry? x.ctx x.idx e.pos = some e := by rw [State.entry?_consume hx, State.entry?_eq hx, he]
  by_cases hpois : Tok.poisoned ∈ toks ∧ e.tolerates = false
  · rw [if_pos hpois] at hrun
    obtain ⟨e', he', hph, hrep⟩ := State.entry?_reportEntry he1 (by rw [hwait]; decide) (by rw [hwait]; decide) pkPoisoned 0 (s.progressOf x e) 0 0
    refine ⟨_, _, e', hrun, State.hq?_updEntry hq1 _ _, he', fun _ _ => ⟨hph, hrep⟩, fun hn => ?_, fun k hk hlen => HostQueue.getD_consumed hlen e hk⟩
    exact absurd hpois (not_and_or.mpr (hn.imp_right fun htol => by simp [htol]))
  · rw [if_neg hpois] at hrun
    exact ⟨_, _, _, hrun, State.hq?_updEntry hq1 _ _, State.entry?_updEntry he1 fun _ => rfl, fun h1 h2 => absurd ⟨h1, h2⟩ hpois,
      fun _ => ⟨rfl, by simp⟩, fun k hk hlen => HostQueue.getD_consumed hlen e hk⟩

/-! Completions (R58, R65, R66). -/

/-- A token after a completion that sets it (R58). -/
def Tok.completed (done : Bool) (t : Tok) : Tok := if done = true ∧ t ≠ .poisoned then .set else .poisoned

theorem setAt_getD_self (ts : List Tok) (k : Nat) : setAt ts k (ts.getD k .clear) = ts := by
  by_cases hk : k < ts.length
  · simp [setAt, List.getD, hk]
  · exact List.set_eq_of_length_le (by omega)

theorem HostQueue.complete_eq (x : HostQueue) (e : Entry) (done : Bool) :
    x.complete e done = { x with tokens := (maskTokens e.sets).foldl (fun ts t => setAt ts t (Tok.completed done (ts.getD t .clear))) x.tokens } := by
  unfold HostQueue.complete
  congr 2
  funext ts t
  have hself := setAt_getD_self ts t
  cases ht : ts.getD t .clear <;> rw [ht] at hself
  · cases done <;> rfl
  · cases done
    · rfl
    · exact hself.symm
  · cases done <;> exact hself.symm

/-- Positions that have completed leave the board's front: of the queue only the board and RETIRE change, and RETIRE by less than 2^32. -/
theorem HostQueue.advance_eq (x : HostQueue) (fuel : Nat) : ∃ b k, k ≤ fuel ∧ x.advance fuel = { x with board := b, retire := x.retire + BitVec.ofNat 32 k }
    ∧ ((∃ e, x.board.find? (fun e => e.pos == x.retire.toNat) = some e ∧ e.phase = .done) → 0 < fuel → 0 < k) := by
  induction fuel generalizing x with
  | zero => exact ⟨x.board, 0, Nat.le_refl 0, by simp [HostQueue.advance], fun _ h => absurd h (by omega)⟩
  | succ fuel ih =>
    rw [HostQueue.advance]
    split
    · next e he =>
      split
      · next hdone =>
        obtain ⟨b, k, hk, heq, -⟩ := ih { x with board := x.board.filter (·.pos != e.pos), retire := x.retire + 1 }
        refine ⟨b, k + 1, by omega, ?_, fun _ _ => by omega⟩
        rw [heq]
        congr 1
        rw [BitVec.add_assoc, BitVec.ofNat_add, BitVec.add_comm (BitVec.ofNat 32 k)]
        rfl
      · next hdone =>
        refine ⟨x.board, 0, by omega, by simp, fun ⟨e', he', hd⟩ => absurd ?_ hdone⟩
        rw [he] at he'
        cases he'
        exact hd
    · next he => exact ⟨x.board, 0, by omega, by simp, fun ⟨e', he', _⟩ => by rw [he] at he'; cases he'⟩

theorem HostQueue.bury_eq (x : HostQueue) : ∃ ts, x.bury = { x with tokens := ts } ∧ (x.state ≠ .dead → ts = x.tokens) := by
  unfold HostQueue.bury
  split
  · next h =>
    rw [Bool.and_eq_true, decide_eq_true_iff] at h
    exact ⟨_, rfl, fun hn => absurd h.1 hn⟩
  · exact ⟨x.tokens, rfl, fun _ => rfl⟩

/-- A queue whose entries at a position are done. -/
def HostQueue.finishAt (x : HostQueue) (pos : Nat) : HostQueue :=
  { x with board := updWhere (fun (b : Entry) => b.pos == pos) (fun b => { b with phase := .done }) x.board }

/-- A queue after the completion of its entry at a position (R58, R66, R52). -/
def HostQueue.completed (x : HostQueue) (e : Entry) (pos : Nat) (done : Bool) : HostQueue :=
  let w := (((x.complete e done).finishAt pos).advance 40).bury
  if w.state = .full && !w.isFull then HostQueue.settle { w with state := .fetching } else w

/-- The front of the board is done once its entry completes. -/
theorem HostQueue.find?_finishAt {x : HostQueue} {pos : Nat} (h : (x.board.find? (fun b => b.pos == pos)).isSome = true) :
    ∃ e, (x.finishAt pos).board.find? (fun b => b.pos == pos) = some e ∧ e.phase = .done := by
  obtain ⟨e0, he0⟩ := Option.isSome_iff_exists.mp h
  refine ⟨_, (find?_updWhere (fun b : Entry => b.pos == pos) (fun b => { b with phase := .done }) (fun _ hb => hb) x.board).trans (congrArg _ he0), rfl⟩

/-- What the end of a completion changes of a queue: its board, RETIRE, tokens and state. -/
theorem HostQueue.completed_eq (x : HostQueue) (e : Entry) (pos : Nat) (done : Bool) : ∃ b k ts st,
    x.completed e pos done = { x with board := b, retire := x.retire + BitVec.ofNat 32 k, tokens := ts, state := st } ∧ k ≤ 40
    ∧ (x.state ≠ .dead → ts = (x.complete e done).tokens)
    ∧ (pos = x.retire.toNat → (x.board.find? (fun b => b.pos == pos)).isSome = true → 0 < k) := by
  have hx1 : (x.complete e done).finishAt pos = { x with tokens := (x.complete e done).tokens, board := (x.finishAt pos).board } := rfl
  unfold HostQueue.completed
  rw [hx1]
  obtain ⟨b, k, hk, hadv, hlead⟩ := HostQueue.advance_eq { x with tokens := (x.complete e done).tokens, board := (x.finishAt pos).board } 40
  obtain ⟨ts, hbury, htok⟩ := HostQueue.bury_eq
    { x with tokens := (x.complete e done).tokens, board := b, retire := x.retire + BitVec.ofNat 32 k }
  have hdone : pos = x.retire.toNat → (x.board.find? (fun b => b.pos == pos)).isSome = true → 0 < k := fun hpos hsome =>
    hlead (hpos ▸ HostQueue.find?_finishAt hsome) (by omega)
  rw [hadv, hbury]
  dsimp only
  split
  · obtain ⟨st, hst⟩ := HostQueue.settle_eq { x with tokens := ts, board := b, retire := x.retire + BitVec.ofNat 32 k, state := .fetching }
    exact ⟨b, k, ts, st, hst, hk, htok, hdone⟩
  · exact ⟨b, k, ts, x.state, rfl, hk, htok, hdone⟩

theorem HostQueue.completed_numbers (x : HostQueue) (e : Entry) (pos : Nat) (done : Bool) :
    (x.completed e pos done).ctx = x.ctx ∧ (x.completed e pos done).idx = x.idx := by
  obtain ⟨b, k, ts, st, hy, -⟩ := x.completed_eq e pos done
  rw [hy]
  exact ⟨rfl, rfl⟩

/-- The tokens of a live queue after a completion (R58). -/
theorem HostQueue.getD_completed {x : HostQueue} (hlive : x.state ≠ .dead) (hlen : x.tokens.length = 64) (e : Entry) (pos : Nat) (done : Bool) {k : Nat} (hk : k < 64) :
    (x.completed e pos done).tokens.getD k .clear = if e.sets.getLsbD k = true then Tok.completed done (x.tokens.getD k .clear) else x.tokens.getD k .clear := by
  obtain ⟨b, n, ts, st, hy, -, htok, -⟩ := x.completed_eq e pos done
  rw [hy, show ({ x with board := b, retire := x.retire + BitVec.ofNat 32 n, tokens := ts, state := st } : HostQueue).tokens = ts from rfl, htok hlive,
    HostQueue.complete_eq]
  exact getD_foldl_maskTokens (g := Tok.completed done) hlen e.sets hk

/-- RETIRE leaves the position whose entry completes (R66). -/
theorem HostQueue.retire_completed {x : HostQueue} {e : Entry} {pos : Nat} (hpos : pos = x.retire.toNat)
    (hthere : (x.board.find? (fun b => b.pos == pos)).isSome = true) (done : Bool) : (x.completed e pos done).retire ≠ x.retire := by
  obtain ⟨b, k, ts, st, hy, hk, -, hret⟩ := x.completed_eq e pos done
  have hk0 := hret hpos hthere
  rw [hy]
  intro heq
  have hzero : BitVec.ofNat 32 k = 0 := by simpa using heq
  have hnat := congrArg BitVec.toNat hzero
  rw [BitVec.toNat_ofNat, Nat.mod_eq_of_lt (by omega)] at hnat
  simp at hnat
  omega

theorem State.raise_mem (s : State) (vec : Nat) : (s.raise vec).mem = s.mem := by unfold State.raise; split <;> rfl

/-- A vector raised while a link is UP goes out. -/
theorem State.raise_outs {s : State} (h : s.linkUp = true) (vec : Nat) : (s.raise vec).outs = s.outs ++ [.msix vec s.linkInUse] := by
  unfold State.raise
  rw [if_pos h]
  rfl

/-- The vector of an entry that asks for one. -/
def State.raiseFor (s : State) (e : Entry) : State := if e.irq then s.raise e.vec else s

theorem State.raiseFor_mem (s : State) (e : Entry) : (s.raiseFor e).mem = s.mem := by
  unfold State.raiseFor
  split
  · exact s.raise_mem e.vec
  · rfl

theorem State.raiseFor_hqs (s : State) (e : Entry) : (s.raiseFor e).hqs = s.hqs := by
  unfold State.raiseFor
  split
  · exact (s.sameRoster_raise e.vec).hqs
  · rfl

theorem State.raiseFor_outs {s : State} (h : s.linkUp = true) (e : Entry) : (s.raiseFor e).outs = s.outs ++ if e.irq = true then [.msix e.vec s.linkInUse] else [] := by
  unfold State.raiseFor
  split
  · exact State.raise_outs h e.vec
  · simp

/-- The record of a completion that leaves the module over the host link in use (R231). -/
def State.sendRecord (s : State) (pa : Nat) : State := if s.linkUp && s.overLink pa then s.out (.record pa s.linkInUse) else s

theorem State.sendRecord_eq (s : State) (pa : Nat) : ∃ os, s.sendRecord pa = { s with outs := s.outs ++ os }
    ∧ (s.linkUp = true → os = if s.overLink pa = true then [.record pa s.linkInUse] else []) ∧ (s.linkUp = false → os = []) := by
  unfold State.sendRecord
  cases hl : s.linkUp
  · exact ⟨[], by simp, fun h => absurd h (by simp), fun _ => rfl⟩
  · cases ho : s.overLink pa
    · exact ⟨[], by simp, fun _ => by simp, fun h => absurd h (by simp)⟩
    · exact ⟨[.record pa s.linkInUse], rfl, fun _ => rfl, fun h => absurd h (by simp)⟩

/-- The completion of an entry whose record is written (R65, R66). -/
theorem packetComplete_written {s s1 : State} {x : HostQueue} {e : Entry} {pa : Nat} (hx : s.hq? x.ctx x.idx = some x)
    (he : x.board.find? (fun b => b.pos == e.pos) = some e) (hp : e.phase = .reporting)
    (hw : s.fwWrite x.home x.ctx (x.cbase.toNat + 32 * (e.pos % 2 ^ x.logn)) (bytesOf 4 e.report.status ++ bytesOf 4 e.report.detail.toNat
      ++ bytesOf 8 e.report.progress.toNat ++ bytesOf 8 e.report.fault.toNat ++ bytesOf 8 e.report.extra.toNat) = (.ok pa, s1)) :
    exec (.packetComplete x.ctx x.idx e.pos) s
      = .next (((s1.sendRecord pa).updHq x.ctx x.idx (·.completed e e.pos (true && e.report.status == pkDone))).raiseFor e) := by
  show execPacketComplete x.ctx x.idx e.pos s = _
  unfold execPacketComplete
  rw [hx]
  dsimp only
  rw [he]
  dsimp only
  rw [hp]
  unfold HostQueue.slots
  rw [hw]
  rfl

/-- What goes out with a completion whose record is written: the record, then the vector, over the link in use (R231). -/
theorem State.outs_completion {s1 : State} {pa : Nat} (e : Entry) (c q : Nat) (f : HostQueue → HostQueue) :
    (s1.linkUp = true → (((s1.sendRecord pa).updHq c q f).raiseFor e).outs
      = s1.outs ++ (if s1.overLink pa = true then [.record pa s1.linkInUse] else []) ++ (if e.irq = true then [.msix e.vec s1.linkInUse] else []))
    ∧ (e.irq = false → s1.linkUp = false → (((s1.sendRecord pa).updHq c q f).raiseFor e).outs = s1.outs) := by
  obtain ⟨os, hsend, hup, hdown⟩ := s1.sendRecord_eq pa
  rw [hsend]
  refine ⟨fun hl => ?_, fun hirq hl => ?_⟩
  · rw [← hup hl]
    exact State.raiseFor_outs (s := { s1 with outs := s1.outs ++ os }.updHq c q f) hl e
  · unfold State.raiseFor
    rw [if_neg (by simp [hirq]), hdown hl]
    simp

theorem packetComplete_reports {s s1 : State} {x : HostQueue} {e : Entry} {pa : Nat} (hx : s.hq? x.ctx x.idx = some x)
    (he : x.board.find? (fun b => b.pos == e.pos) = some e) (hp : e.phase = .reporting)
    (hw : s.fwWrite x.home x.ctx (x.cbase.toNat + 32 * (e.pos % 2 ^ x.logn)) (bytesOf 4 e.report.status ++ bytesOf 4 e.report.detail.toNat
      ++ bytesOf 8 e.report.progress.toNat ++ bytesOf 8 e.report.fault.toNat ++ bytesOf 8 e.report.extra.toNat) = (.ok pa, s1)) :
    ∃ (t : State) (y : HostQueue), exec (.packetComplete x.ctx x.idx e.pos) s = .next t ∧ t.hq? x.ctx x.idx = some y ∧ t.mem = s1.mem
      ∧ (x.state ≠ .dead → x.tokens.length = 64 → ∀ k, k < 64 → y.tokens.getD k .clear
          = if e.sets.getLsbD k = true then (if e.report.status = pkDone ∧ x.tokens.getD k .clear ≠ .poisoned then .set else .poisoned) else x.tokens.getD k .clear)
      ∧ (e.pos = x.retire.toNat → y.retire ≠ x.retire)
      ∧ (s1.linkUp = true → t.outs = s1.outs ++ (if s1.overLink pa = true then [.record pa s1.linkInUse] else []) ++ (if e.irq = true then [.msix e.vec s1.linkInUse] else []))
      ∧ (e.irq = false → s1.linkUp = false → t.outs = s1.outs) := by
  obtain ⟨os, hsend, -, -⟩ := s1.sendRecord_eq pa
  have hkeep := (s.sameRoster_fwWrite x.home x.ctx _ _).snd_of_eq hw
  have hq1 : (s1.sendRecord pa).hq? x.ctx x.idx = some x := by rw [hsend]; exact (State.hq?_congr hkeep.hqs _ _).trans hx
  have hq2 := State.hq?_updHq hq1 (f := (·.completed e e.pos (true && e.report.status == pkDone))) fun y => y.completed_numbers ..
  obtain ⟨hout, hquiet⟩ := State.outs_completion (s1 := s1) (pa := pa) e x.ctx x.idx (·.completed e e.pos (true && e.report.status == pkDone))
  refine ⟨_, _, packetComplete_written hx he hp hw, (State.hq?_congr (State.raiseFor_hqs ..) _ _).trans hq2, ?_, fun hlive hlen k hk => ?_,
    fun hpos => HostQueue.retire_completed hpos (by rw [he]; rfl) _, hout, hquiet⟩
  · rw [State.raiseFor_mem, hsend]
    rfl
  · rw [HostQueue.getD_completed hlive hlen e e.pos _ hk]
    simp [Tok.completed]

/-- Settles O48: each event of a queue updates it by one function of the queue, and its parts are read off. -/
theorem hostQueues : Obligations.HostQueues := by
  unfold Obligations.HostQueues
  refine ⟨fun s x hx => ⟨fun value => ⟨fun hv => ?_, fun hv => ?_⟩, fun i pa s1 hi htr => ?_, fun e hhalt hdead hw he hbad ht hb => ?_⟩,
    fun s x e pa s1 hx he hp hw => packetComplete_reports hx he hp hw⟩
  · obtain ⟨st, hst, hsame, hfetch⟩ := x.takeTail_eq value
    refine ⟨_, x.takeTail value, tailWrite_taken hx hv, State.hq?_updHq hx fun y => y.takeTail_numbers value, ?_⟩
    rw [hst]
    exact ⟨rfl, rfl, rfl, rfl, rfl, rfl, hsame, hfetch⟩
  · exact ⟨_, tailWrite_ignored hx hv, State.hq?_updHq hx fun _ => ⟨rfl, rfl⟩, rfl⟩
  · rcases hi with ⟨hst, hne, hfull, rfl⟩ | ⟨hst, rfl⟩
    · rw [if_pos rfl] at htr
      obtain ⟨y, hy⟩ := State.hq?_fetchSlot (l := x.longstall) hx htr
      exact ⟨_, y, packetFetch_fetches hx hst hne hfull, hy⟩
    · rw [if_neg (by simp)] at htr
      obtain ⟨y, hy⟩ := State.hq?_fetchSlot (l := x.longstall || false) (State.hq?_updHq hx (f := fun z => { z with longstall := z.longstall || false }) fun _ => ⟨rfl, rfl⟩) htr
      exact ⟨_, y, slotReread_fetches hx hst false, hy⟩
  · have hmem : e ∈ x.board.filter (fun b => b.phase == .waiting) := by rw [hw]; exact List.mem_singleton_self e
    have hwait : e.phase = .waiting := by simpa using (List.mem_filter.mp hmem).2
    have hrun := boardScan_one hx hhalt hdead hw
    rw [State.scanEntry_free hx he hwait hbad ht hb] at hrun
    refine ⟨fun hstop => by rw [hrun, if_pos hstop], fun hclear hstuck => boardScan_settles hx hwait he ?_⟩
    rwa [if_neg (not_or.mpr ⟨hclear, hstuck⟩)] at hrun

end Sys2Proof.Machine
end

section
/-! SUPPORT. A device queue's record (O45), in a state whose next number a launch already bears. -/

namespace Sys2Proof.Machine

set_option Elab.async false

/-- A device queue of two slots: its descriptor at 0x10800, its ring at 0x10C00. -/
def clashQueue : DevQueue := { ctx := 1, idx := 0, desc := 0x1_0800, ring := 0x1_0C00, logn := 1, home := 0 }

/-- A record of one item at 0x2000, of a launch that is not coreside. -/
def clashRecord : List Byte :=
  State.sealRecord (bytesOf 8 0x2000 ++ bytesOf 4 0 ++ bytesOf 4 1 ++ bytesOf 8 0 ++ bytesOf 2 64 ++ bytesOf 3 0 ++ [8, 0, 0] ++ bytesOf 8 0) 0 0 0 0

/-- A coreside launch of another context, under the number 10. -/
def clashLaunch : Launch :=
  { id := 10, ctx := 9, num := 0, tree := 0, src := .packet 0 0, code := 0x1000, count := 0, size := 64, pad := 0, gregs := 8, bars := 0
    flags := 1, args := 0, events := 0, state := .running, rootCore := none, rootPlaced := true, dealtAll := false, exited := []
    retired := [], retiredItems := 0, evHeld := [], age := 0, fault := none, evFault := none }

def clashPart : Part := { num := 0, pairs := 1, pointer := 0, resize := none }

def clashCtx : Ctx := { ctxZero with num := 1, part := some 0, state := .running }

def clashTree : Tree :=
  { ctx := 1, id := 0, q := 0, pos := 0, founder := 1, counter := 2, status := pkDone, detail := 0, fault := 0, progress := 0, extra := 0, closing := false }

/-- The record stands at POP, the next launch takes the number 10 too, and core 1 holds a dirty byte of its own. -/
def clashState : State :=
  { State.reset with
    parts := [clashPart], ctxs := [clashCtx], dqs := [clashQueue], trees := [clashTree], launches := [clashLaunch], nextId := 10
    tlb := [{ place := .core 1, tagCtx := some 1, tagPart := none, va := 0x1_0000, bytes := 65536, leaf := true, entry := 0x500_080F }]
    mem := Kv.setRun memDefault [] 0x500_0C00 clashRecord, l1 := [(paSpace + 0x500_2000, some 1)] }

/-- The descriptor's page is reached, and the counters are read. -/
def clashDesc : DqTr × State := clashState.dqAccess (.core 1) clashQueue.ctx clashQueue.desc.toNat 64

/-- The slot of POP, which is 0, is reached. -/
def clashRead : DqTr × State :=
  (clashDesc.2.dqSettle 0x500_0800).dqAccess (.core 1) clashQueue.ctx (clashQueue.ring.toNat + 64 * (0 % 2 ^ clashQueue.logn)) 64

/-- POP and DONE have gone up by one. -/
def clashTaken : State :=
  (clashRead.2.dqSet (.core 1) 0x500_0800 40 (0 + 1)).dqSet (.core 1) 0x500_0800 48 (clashRead.2.dqCounter 0x500_0800 48 + 1)

/-- What the consumer meets: a queue, a context and a partition that place records, a reader, and the descriptor's page. -/
theorem clash_reads : clashState.dq? 1 0 = some clashQueue ∧ clashState.ctx? 1 = some clashCtx ∧ clashState.partOf 1 = some clashPart
    ∧ clashState.contWaits 0 = false ∧ clashState.barred clashPart none = some []
    ∧ ((State.fromPointer clashPart.cores clashPart.pointer).filter (fun c => !([] : List Nat).contains c)).find? (fun c => (clashState.freeSlot c).isSome) = some 1
    ∧ clashDesc.1 = .ok 0x500_0800 ∧ (clashDesc.2.dqSettle 0x500_0800).dqCounter 0x500_0800 40 = 0 := by decide +kernel

/-- The bytes of the slot of POP. -/
def clashBytes : List Byte := (clashRead.2.dqSettle 0x500_0C00).bytesAt (.pair clashQueue.home) 0x500_0C00 64

/-- The record is that of position 0 and of clashTree, and is not coreside. -/
theorem clash_bytes : fieldOf clashBytes 56 4 = 0 % 2 ^ 32 ∧ fieldOf clashBytes 60 4 = crc32c (clashBytes.take 60) ∧ BitVec.ofNat 32 (fieldOf clashBytes 40 4) = 0
    ∧ (LaunchArgs.ofRecord clashBytes).flags.getLsbD 0 = false := by decide +kernel

/-- The record passes every check, and core 1 holds what it declares. -/
theorem clash_checks : clashRead.1 = .ok 0x500_0C00 ∧ clashTaken.checkLaunch 1 (LaunchArgs.ofRecord clashBytes) = none
    ∧ ((State.fromPointer clashPart.cores clashPart.pointer).filter (fun c => !([] : List Nat).contains c)).find?
        (fun c => clashRead.2.recordFits (LaunchArgs.ofRecord clashBytes) c) = some 1
    ∧ clashTaken.tree? 1 0 = some clashTree := by decide +kernel

/-- Placing the root span finds the launch of the same number, deals its span, and so sends the core's dirty byte home. -/
theorem clash_publishes : (match exec (.deviceQueuePop clashQueue.ctx clashQueue.idx) clashState with
    | .next t => t.mem != clashTaken.mem
    | _ => false) = true := by decide +kernel

/-- Refutes O45: in clashState the record's launch is not coreside, yet memory changes, since placeRoot looks the launch up by a number that another
launch already bears. No launch bears the next number in a state that the machine reaches, but the statement does not ask for that. -/
theorem not_recordTaken : ¬ Obligations.RecordTaken := by
  unfold Obligations.RecordTaken
  intro h
  obtain ⟨hdq, hctx, hpart, hconts, hbarred, hreader, hdesc, hpop⟩ := clash_reads
  obtain ⟨hseq, hcrc, htree, hflag⟩ := clash_bytes
  obtain ⟨hslot, hcheck, hfits, hfound⟩ := clash_checks
  have hdesc' : clashState.dqAccess (.core 1) clashQueue.ctx clashQueue.desc.toNat 64 = (.ok 0x500_0800, clashDesc.2) := Prod.ext hdesc rfl
  have htaken := (h clashState clashQueue clashCtx clashPart [] 1 0x500_0800 clashDesc.2 hdq hctx hpart rfl hconts hbarred hreader hdesc').2
  dsimp only at htaken
  rw [hpop] at htaken
  have hslot' : (clashDesc.2.dqSettle 0x500_0800).dqAccess (.core 1) clashQueue.ctx (clashQueue.ring.toNat + 64 * (0 % 2 ^ clashQueue.logn)) 64
      = (.ok 0x500_0C00, clashRead.2) := Prod.ext hslot rfl
  have htaken := htaken 0x500_0C00 clashRead.2 1 clashTree hslot' hseq hcrc hfits
  obtain ⟨t, _, hrun, -, -, -, -, -, -, -, -, -, hmem⟩ := (htaken (htree ▸ hfound)).2 rfl hcheck
  have hpublish := clash_publishes
  rw [hrun] at hpublish
  exact bne_iff_ne.mp hpublish (hmem hflag)

end Sys2Proof.Machine
end

section
/-! SUPPORT. The CONTEXT packets (O52): how the next one is settled, and what each operation does. -/

namespace Sys2Proof.Machine

set_option Elab.async false

/-! Settling the next CONTEXT packet (R209, R211). -/

section Settle
variable {s : State} {q : HostQueue} {e : Entry} (h : s.nextContext = some (q, e))
include h

theorem State.settleContext_elsewhere (hm : ¬(q.ctx = 0 ∧ q.idx = 0)) (act : State → HostQueue → Entry → State) :
    s.settleContext e.op act = .next (s.reportEntry q.ctx q.idx e.pos pkDenied 0 0 0 0) := by
  unfold State.settleContext
  rw [h]
  dsimp only
  rw [if_neg (by simp), if_pos (by simpa [← not_and_or] using hm)]

theorem State.settleContext_bad (hm : q.ctx = 0 ∧ q.idx = 0) {off : Nat} (hb : s.badContext e = some off) (act : State → HostQueue → Entry → State) :
    s.settleContext e.op act = .next (s.reportEntry q.ctx q.idx e.pos pkBadpacket (BitVec.ofNat 32 off) 0 0 0) := by
  unfold State.settleContext
  rw [h]
  dsimp only
  rw [if_neg (by simp), if_neg (by simp [hm]), hb]

theorem State.settleContext_denied (hm : q.ctx = 0 ∧ q.idx = 0) (hb : s.badContext e = none) (hd : s.contextDenied e = true) (act : State → HostQueue → Entry → State) :
    s.settleContext e.op act = .next (s.reportEntry q.ctx q.idx e.pos pkDenied 0 0 0 0) := by
  unfold State.settleContext
  rw [h]
  dsimp only
  rw [if_neg (by simp), if_neg (by simp [hm]), hb]
  exact if_pos hd

theorem State.settleContext_acts (hm : q.ctx = 0 ∧ q.idx = 0) (hb : s.badContext e = none) (hd : s.contextDenied e = false) {op : Nat} (hop : e.op = op)
    (act : State → HostQueue → Entry → State) : s.settleContext op act = .next (act s q e) := by
  subst hop
  unfold State.settleContext
  rw [h]
  dsimp only
  rw [if_neg (by simp), if_neg (by simp [hm]), hb]
  exact if_neg (by simp [hd])

end Settle

/-- With nothing performed that waits for its completion, nothing completes. -/
theorem State.completePerformed_none {s : State} {op : Nat} (h : s.performed op = []) (settled : Entry → Option Nat) : s.completePerformed op settled = none := by
  unfold State.completePerformed
  rw [h]
  rfl

/-- The instruction of each operation. -/
def contextInstr : Nat → Instr
  | 0 => .contextCreate
  | 1 => .contextPaging
  | 2 => .contextQueue
  | 3 => .contextUnqueue
  | 4 => .contextInval
  | 5 => .contextSuspend
  | 6 => .contextResume
  | 7 => .contextTerminate
  | _ => .contextResize

/-- The instruction of an operation settles the next packet of its number, once no operation of its kind waits for its completion. -/
theorem contextInstr_settles {s : State} {op : Nat} (hop : op ≤ 8) (hp : op ∈ [3, 5, 6, 8] → s.performed op = []) :
    ∃ act, exec (contextInstr op) s = s.settleContext op act := by
  have hcases : op = 0 ∨ op = 1 ∨ op = 2 ∨ op = 3 ∨ op = 4 ∨ op = 5 ∨ op = 6 ∨ op = 7 ∨ op = 8 := by omega
  rcases hcases with rfl | rfl | rfl | rfl | rfl | rfl | rfl | rfl | rfl
  · exact ⟨_, by show execContextCreate s = _; unfold execContextCreate; rfl⟩
  · exact ⟨_, by show execContextPaging s = _; unfold execContextPaging; rfl⟩
  · exact ⟨_, by show execContextQueue s = _; unfold execContextQueue; rfl⟩
  · exact ⟨_, by show execContextUnqueue s = _; unfold execContextUnqueue; rw [State.completePerformed_none (hp (by simp))]⟩
  · exact ⟨_, by show execContextInval s = _; unfold execContextInval; rfl⟩
  · exact ⟨_, by show execContextSuspend s = _; unfold execContextSuspend; rw [State.completePerformed_none (hp (by simp))]⟩
  · exact ⟨_, by show execContextResume s = _; unfold execContextResume; rw [State.completePerformed_none (hp (by simp))]⟩
  · exact ⟨_, by show execContextTerminate s = _; unfold execContextTerminate; rfl⟩
  · exact ⟨_, by show execContextResize s = _; unfold execContextResize; rw [State.completePerformed_none (hp (by simp))]⟩

/-- The target of a packet that may be performed, of any operation but CREATE and RESIZE. -/
theorem State.target_of_not_denied {s : State} {e : Entry} (hd : s.contextDenied e = false) (h8 : e.op ≠ 8) :
    e.target ≠ 0 ∧ (e.op ≠ 0 → ∃ x, s.ctx? e.target = some x) := by
  unfold State.contextDenied at hd
  rw [if_neg h8] at hd
  split at hd
  · cases hd
  · next h0 =>
    refine ⟨h0, fun hop => ?_⟩
    cases hx : s.ctx? e.target with
    | none => rw [hx] at hd; simp [hop] at hd
    | some x => exact ⟨x, rfl⟩

/-! Contexts, partitions and queues after an update. -/

theorem State.ctx?_updCtx_map (s : State) (c n : Nat) {f : Ctx → Ctx} (hf : ∀ y, (f y).num = y.num) :
    (s.updCtx c f).ctx? n = (s.ctx? n).map fun x => if n = c then f x else x := by
  unfold State.ctx?
  rw [State.updCtx_ctxs]
  by_cases hn : n = c
  · subst hn
    simpa using find?_updWhere (fun y : Ctx => y.num == n) f (fun y hy => by rw [hf y]; exact hy) s.ctxs
  · simpa [hn] using find?_updWhere_other (fun y : Ctx => y.num == c) (fun y => y.num == n) f
      (fun y hy => by simp at hy ⊢; omega) (fun y hy => by simp [hf] at hy ⊢; omega) s.ctxs

theorem State.ctx?_updCtx {s : State} {n : Nat} {x : Ctx} (hx : s.ctx? n = some x) {f : Ctx → Ctx} (hf : ∀ y, (f y).num = y.num) :
    (s.updCtx n f).ctx? n = some (f x) := by
  rw [State.ctx?_updCtx_map s n n hf, hx]
  simp

/-- The first of a table that satisfies p, after a new element is put in the place of all that do. -/
theorem find?_replace {α : Type} {p : α → Bool} {x : α} (hx : p x = true) (l : List α) : (l.filter (fun y => !p y) ++ [x]).find? p = some x := by
  rw [List.find?_append, List.find?_eq_none.mpr fun y hy => by simpa using (List.mem_filter.mp hy).2]
  simp [hx]

theorem find?_replace_other {α : Type} {p r : α → Bool} {x : α} (hx : r x = false) (hr : ∀ y, r y = true → p y = false) (l : List α) :
    (l.filter (fun y => !p y) ++ [x]).find? r = l.find? r := by
  rw [List.find?_append]
  have hone : [x].find? r = none := by simp [hx]
  rw [hone, Option.or_none]
  induction l with
  | nil => rfl
  | cons y ys ih =>
    by_cases hy : p y = true
    · have hry : r y = false := by
        cases hry : r y
        · rfl
        · rw [hr y hry] at hy; cases hy
      rw [List.filter_cons_of_neg (by simp [hy]), ih, List.find?_cons_of_neg (by simp [hry])]
    · rw [List.filter_cons_of_pos (by simpa using hy), List.find?_cons, List.find?_cons, ih]

/-- The module with a queue in the place of those of its number (R49, R52). -/
def State.putQueue (s : State) (c i : Nat) (x : HostQueue) : State :=
  { s with hqs := s.hqs.filter (fun (y : HostQueue) => !(y.ctx == c && y.idx == i)) ++ [x] }

theorem State.hq?_putQueue {s : State} {x : HostQueue} : (s.putQueue x.ctx x.idx x).hq? x.ctx x.idx = some x :=
  find?_replace (p := fun y : HostQueue => y.ctx == x.ctx && y.idx == x.idx) (by simp) s.hqs

/-- Whether a context is RUNNING. -/
def State.ctxRuns (s : State) (c : Nat) : Bool := match s.ctx? c with
  | some x => x.state == .running
  | none => false

/-- Steps over a list keep what each of them keeps. -/
theorem foldl_keeps {α β γ : Type} (g : α → γ) {f : α → β → α} (hf : ∀ a b, g (f a b) = g a) (l : List β) (a : α) : g (l.foldl f a) = g a := by
  induction l generalizing a with
  | nil => rfl
  | cons b l ih => exact (ih (f a b)).trans (hf a b)

/-! CREATE, PAGING and INVAL (R161, R210). -/

section Acts
variable {s : State} {q : HostQueue} {e : Entry} (h : s.nextContext = some (q, e)) (hm : q.ctx = 0 ∧ q.idx = 0) (hb : s.badContext e = none)
  (hd : s.contextDenied e = false)
include h hm hb hd

theorem contextCreate_creates (hop : e.op = 0) : ∃ t x, exec .contextCreate s = .next t ∧ t.ctx? e.target = some x ∧ x.state = .allocated ∧ x.part = some e.cpart
    ∧ x.priority = e.cidx ∧ x.saveBase = e.addr0 ∧ x.saveBytes = e.addr1 ∧ x.trap = BitVec.ofNat 64 e.addr2 ∧ x.watchLimit = (if e.val = 0 then 2048 else e.val)
    ∧ x.paging = none ∧ x.launchCtr = 0 ∧ x.cause = 0 ∧ (∀ n, n ≠ e.target → t.ctx? n = s.ctx? n) ∧ t.mem = s.mem := by
  rw [show exec .contextCreate s = execContextCreate s from rfl]
  unfold execContextCreate
  rw [State.settleContext_acts h hm hb hd hop]
  refine ⟨_, newCtx e.target e.cpart e.cidx e.addr0 e.addr1 (BitVec.ofNat 64 e.addr2) e.val, rfl, ?_, rfl, rfl, rfl, rfl, rfl, rfl, rfl, rfl, rfl, rfl, fun n hn => ?_, rfl⟩
  · exact find?_replace (p := fun y : Ctx => y.num == e.target) (by simp [newCtx]) s.ctxs
  · exact find?_replace_other (p := fun y : Ctx => y.num == e.target) (r := fun y : Ctx => y.num == n) (by simp [newCtx, Ne.symm hn])
      (fun y hy => by simp at hy ⊢; omega) s.ctxs

theorem contextPaging_sets (hop : e.op = 1) : ∃ t x, exec .contextPaging s = .next t ∧ t.ctx? e.target = some x
    ∧ x.paging = some { root := e.addr0, ring := e.addr1, logSlots := e.val % 32, reqVec := e.val / 256 % 256, evVec := e.val / 65536 % 256 }
    ∧ x.seq = 0 ∧ x.consumed = 0 ∧ (∀ y ∈ t.tlb, y.tagCtx ≠ some e.target) ∧ t.mem = s.mem := by
  obtain ⟨x, hx⟩ := (State.target_of_not_denied hd (by omega)).2 (by omega)
  rw [show exec .contextPaging s = execContextPaging s from rfl]
  unfold execContextPaging
  rw [State.settleContext_acts h hm hb hd hop]
  refine ⟨_, _, rfl, State.ctx?_updCtx hx fun _ => rfl, rfl, rfl, rfl, fun y hy => ?_, rfl⟩
  simpa using (List.mem_filter.mp hy).2

theorem contextInval_removes (hop : e.op = 4) : ∃ t, exec .contextInval s = .next t ∧ (∀ y ∈ t.tlb, y ∈ s.tlb)
    ∧ (∀ y ∈ t.tlb, y.tagCtx = some e.target → e.addr1 ≠ 0 ∧ (y.va + y.bytes ≤ e.addr0 ∨ e.addr0 + e.addr1 ≤ y.va))
    ∧ (∀ y ∈ s.tlb, y.tagCtx ≠ some e.target → y.tagCtx ≠ none → y ∈ t.tlb) ∧ t.mem = s.mem := by
  rw [show exec .contextInval s = execContextInval s from rfl]
  unfold execContextInval
  rw [State.settleContext_acts h hm hb hd hop]
  refine ⟨_, rfl, fun y hy => (List.mem_filter.mp hy).1, fun y hy htag => ?_, fun y hy htag hnone => List.mem_filter.mpr ⟨hy, ?_⟩, rfl⟩
  · have hcov := (List.mem_filter.mp hy).2
    simp [htag] at hcov
    omega
  · simp [htag, Option.isSome_iff_ne_none.mpr hnone]

/-! QUEUE (R49, R52). -/

omit h hm hb hd in
/-- A descriptor that passes its checks, of an index that is free. -/
theorem State.checkQueue_ok {pa : Nat} {s1 : State} {p : Part} (htr : s.fwTranslate q.home e.target .read false e.addr0 64 = (.ok pa, s1))
    (hp : s1.partOf e.target = some p) (hdesc : descriptorOk (some p) (s1.bytesAt (.pair q.home) pa 64) = true)
    (hfree : (if fieldOf (s1.bytesAt (.pair q.home) pa 64) 18 1 = 0 then
        s1.hqs.any (fun (x : HostQueue) => x.ctx == e.target && x.idx == e.cidx && !(x.state == .dead && x.board.isEmpty))
      else s1.dqs.any (fun (d : DevQueue) => d.ctx == e.target && d.idx == e.cidx)) = false) :
    s.checkQueue q e = (.ok (s1.bytesAt (.pair q.home) pa 64), s1) := by
  unfold State.checkQueue
  rw [htr]
  dsimp only
  rw [hp, hdesc, if_neg (by simp), if_neg (by rw [hfree]; simp)]

theorem contextQueue_host (hop : e.op = 2) {pa : Nat} {s1 : State} {p : Part} (htr : s.fwTranslate q.home e.target .read false e.addr0 64 = (.ok pa, s1))
    (hp : s1.partOf e.target = some p) {bs : List Byte} (hbs : bs = s1.bytesAt (.pair q.home) pa 64) (hdesc : descriptorOk (some p) bs = true) (hkind : fieldOf bs 18 1 = 0)
    (hfree : ∀ x ∈ s1.hqs, x.ctx = e.target → x.idx = e.cidx → x.state = .dead ∧ x.board = []) :
    ∃ t x, exec .contextQueue s = .next t ∧ t.hq? e.target e.cidx = some x ∧ x.ring = BitVec.ofNat 64 (fieldOf bs 0 8) ∧ x.cbase = BitVec.ofNat 64 (fieldOf bs 8 8)
      ∧ x.logn = fieldOf bs 16 1 ∧ x.home = fieldOf bs 17 1 ∧ x.tail = 0 ∧ x.fetch = 0 ∧ x.retire = 0 ∧ x.board = [] ∧ x.tokens = List.replicate 64 .clear
      ∧ (∀ y, s1.ctx? e.target = some y → x.state = if y.state = .running then .empty else .halted) := by
  subst hbs
  have hcheck := State.checkQueue_ok htr hp hdesc (by
    rw [if_pos hkind, List.any_eq_false]
    intro x hx hall
    simp only [Bool.and_eq_true, beq_iff_eq] at hall
    obtain ⟨hdead, hboard⟩ := hfree x hx hall.1.1 hall.1.2
    simp [hdead, hboard] at hall)
  rw [show exec .contextQueue s = execContextQueue s from rfl]
  unfold execContextQueue
  rw [State.settleContext_acts h hm hb hd hop]
  dsimp only
  rw [hcheck]
  dsimp only
  rw [if_pos hkind]
  obtain ⟨b, hb1, hlen, -⟩ := State.hq?_updEntry_of (c := q.ctx) (q := q.idx) (State.hq?_putQueue (s := s1)
    (x := newHostQueue e.target e.cidx (BitVec.ofNat 64 e.addr0) (s1.bytesAt (.pair q.home) pa 64) (s1.ctxRuns e.target))) e.pos _
  refine ⟨_, _, rfl, hb1, rfl, rfl, rfl, rfl, rfl, rfl, rfl, List.eq_nil_of_length_eq_zero hlen, rfl, fun y hy => ?_⟩
  by_cases hy2 : y.state = .running <;> simp [newHostQueue, State.ctxRuns, hy, hy2]

theorem contextQueue_device (hop : e.op = 2) {pa : Nat} {s1 : State} {p : Part} (htr : s.fwTranslate q.home e.target .read false e.addr0 64 = (.ok pa, s1))
    (hp : s1.partOf e.target = some p) {bs : List Byte} (hbs : bs = s1.bytesAt (.pair q.home) pa 64) (hdesc : descriptorOk (some p) bs = true) (hkind : fieldOf bs 18 1 ≠ 0)
    (hfree : ∀ x ∈ s1.dqs, x.ctx = e.target → x.idx ≠ e.cidx) :
    ∃ t x, exec .contextQueue s = .next t ∧ t.dqs = s1.dqs ++ [x] ∧ x.ctx = e.target ∧ x.idx = e.cidx ∧ x.desc = BitVec.ofNat 64 e.addr0
      ∧ x.ring = BitVec.ofNat 64 (fieldOf bs 0 8) ∧ x.logn = fieldOf bs 16 1 := by
  subst hbs
  have hcheck := State.checkQueue_ok htr hp hdesc (by
    rw [if_neg hkind, List.any_eq_false]
    intro x hx hall
    simp only [Bool.and_eq_true, beq_iff_eq] at hall
    exact hfree x hx hall.1 hall.2)
  rw [show exec .contextQueue s = execContextQueue s from rfl]
  unfold execContextQueue
  rw [State.settleContext_acts h hm hb hd hop]
  dsimp only
  rw [hcheck]
  dsimp only
  rw [if_neg hkind]
  exact ⟨_, _, rfl, rfl, rfl, rfl, rfl, rfl, rfl⟩

end Acts

end Sys2Proof.Machine
end

section
/-! SUPPORT. The CONTEXT packets (O52), UNQUEUE, SUSPEND, RESUME and RESIZE: how the entries of a queue are cancelled, and how the contexts of a
partition start to move. -/

namespace Sys2Proof.Machine

set_option Elab.async false

/-! Cancelled entries (R52). -/

/-- A queue of the module after a change of entries: its board aside it stood there before. -/
theorem State.mem_updEntry_hqs {s : State} {c q pos : Nat} {f : Entry → Entry} {x : HostQueue} (hx : x ∈ (s.updEntry c q pos f).hqs) :
    ∃ y ∈ s.hqs, ∃ b, x = { y with board := b } := by
  obtain ⟨y, hy, rfl⟩ := List.mem_map.mp hx
  refine ⟨y, hy, ?_⟩
  split
  · exact ⟨_, rfl⟩
  · exact ⟨y.board, rfl⟩

/-- One entry of a queue is CANCELLED (R52), as cancelWaiting does it. -/
def State.cancelEntry (s : State) (c q : Nat) (x : HostQueue) (e : Entry) : State :=
  let s1 := if e.phase = .waiting && e.bad.isNone then s.consume c q e else s
  s1.reportEntry c q e.pos pkCancelled 0 (s1.progressOf x e) 0 0

theorem State.cancelWaiting_eq {s : State} {c q : Nat} {x : HostQueue} (hx : s.hq? c q = some x) (p : Entry → Bool) :
    s.cancelWaiting c q p = (x.board.filter p).foldl (fun t e => t.cancelEntry c q x e) s := by
  unfold State.cancelWaiting
  rw [hx]
  rfl

theorem State.consume_tokens {s : State} {c q : Nat} {y : HostQueue} (hy : s.hq? c q = some y) (e : Entry) :
    ∃ ts, (s.consume c q e).hq? c q = some { y with tokens := ts } := by
  unfold State.consume
  split
  · exact ⟨_, State.hq?_updHq hy fun _ => ⟨rfl, rfl⟩⟩
  · exact ⟨y.tokens, hy⟩

/-- The entry of a position that completes is no longer waiting, and no other of its queue begins to wait. -/
theorem State.reportEntry_board {s : State} {c q : Nat} {y : HostQueue} (hy : s.hq? c q = some y) (pos status : Nat) (detail : W32) (progress fault extra : W64) :
    ∃ b, (s.reportEntry c q pos status detail progress fault extra).hq? c q = some { y with board := b } ∧ b.length = y.board.length
      ∧ ∀ a ∈ b, a.phase = .waiting → a ∈ y.board ∧ a.pos ≠ pos := by
  refine ⟨_, State.hq?_updEntry hy pos _, length_updWhere .., fun a ha hwait => ?_⟩
  obtain ⟨a0, ha0, rfl⟩ := List.mem_map.mp ha
  by_cases hpos : a0.pos = pos
  · exfalso
    cases hphase : a0.phase <;> simp [hpos, hphase] at hwait
  · simp only [beq_iff_eq, hpos, if_false]
    exact ⟨ha0, hpos⟩

theorem State.cancelEntry_board {s : State} {c q : Nat} {y : HostQueue} (hy : s.hq? c q = some y) (x : HostQueue) (e : Entry) :
    ∃ ts b, (s.cancelEntry c q x e).hq? c q = some { y with tokens := ts, board := b } ∧ b.length = y.board.length
      ∧ ∀ a ∈ b, a.phase = .waiting → a ∈ y.board ∧ a.pos ≠ e.pos := by
  obtain ⟨ts, hts⟩ : ∃ ts, (if (e.phase = .waiting && e.bad.isNone) = true then s.consume c q e else s).hq? c q = some { y with tokens := ts } := by
    split
    · exact State.consume_tokens hy e
    · exact ⟨y.tokens, hy⟩
  exact ⟨ts, State.reportEntry_board hts e.pos _ _ _ _ _⟩

/-- Entries cancelled one after the other: none of their positions has an entry that waits. -/
theorem State.foldl_cancelEntry_board {c q : Nat} (x : HostQueue) (l : List Entry) {s : State} {y : HostQueue} (hy : s.hq? c q = some y) :
    ∃ ts b, (l.foldl (fun t e => t.cancelEntry c q x e) s).hq? c q = some { y with tokens := ts, board := b } ∧ b.length = y.board.length
      ∧ ∀ a ∈ b, a.phase = .waiting → a ∈ y.board ∧ ∀ e ∈ l, a.pos ≠ e.pos := by
  induction l generalizing s y with
  | nil => exact ⟨y.tokens, y.board, hy, rfl, fun a ha _ => ⟨ha, by simp⟩⟩
  | cons e l ih =>
    obtain ⟨ts, b, hb, hlen, hwait⟩ := State.cancelEntry_board hy x e
    obtain ⟨ts', b', hb', hlen', hwait'⟩ := ih hb
    refine ⟨ts', b', hb', hlen'.trans hlen, fun a ha hw => ?_⟩
    obtain ⟨hab, hne⟩ := hwait' a ha hw
    obtain ⟨hay, hpos⟩ := hwait a hab hw
    exact ⟨hay, List.forall_mem_cons.mpr ⟨hpos, hne⟩⟩

/-- Once all the entries that wait are cancelled, none waits. -/
theorem State.cancelWaiting_board {s : State} {c q : Nat} {x : HostQueue} (hx : s.hq? c q = some x) :
    ∃ ts b, (s.cancelWaiting c q fun b => b.phase == .waiting).hq? c q = some { x with tokens := ts, board := b } ∧ b.length = x.board.length
      ∧ ∀ a ∈ b, a.phase ≠ .waiting := by
  rw [State.cancelWaiting_eq hx]
  obtain ⟨ts, b, hb, hlen, hwait⟩ := State.foldl_cancelEntry_board x (x.board.filter fun b => b.phase == .waiting) hx
  refine ⟨ts, b, hb, hlen, fun a ha hw => ?_⟩
  obtain ⟨hax, hne⟩ := hwait a ha hw
  exact hne a (List.mem_filter.mpr ⟨hax, by simp [hw]⟩) rfl

/-! Contexts that start to move (R212, R223). -/

theorem State.suspendCtx_running {s : State} {c : Nat} {x : Ctx} (hx : s.ctx? c = some x) (hr : x.state = .running) :
    s.suspendCtx c = (s.updCtx c fun x => { x with state := .suspending }).haltQueues c := by
  unfold State.suspendCtx
  rw [hx]
  exact if_pos hr

theorem State.haltQueues_halted (s : State) (c : Nat) : ∀ x ∈ (s.haltQueues c).hqs, x.ctx = c → x.state = .halted ∨ x.state = .dead := by
  intro x hx hc
  obtain ⟨y, -, rfl⟩ := List.mem_map.mp hx
  by_cases hlive : (y.ctx == c && y.state != .halted && y.state != .dead) = true
  · rw [if_pos hlive]
    exact .inl rfl
  · rw [if_neg hlive] at hc ⊢
    simp only [hc, beq_self_eq_true, Bool.true_and, Bool.and_eq_true, bne_iff_ne, ne_eq, not_and, not_not] at hlive
    exact or_iff_not_imp_left.mpr hlive

/-- A RUNNING context that is suspended is no longer RUNNING. -/
theorem State.ctx?_suspendCtx (s : State) (c n : Nat) :
    (s.suspendCtx c).ctx? n = (s.ctx? n).map fun x => if n = c ∧ x.state = .running then { x with state := .suspending } else x := by
  unfold State.suspendCtx
  split
  · next x hx =>
    split
    · next hr =>
      show (s.updCtx c fun x => { x with state := .suspending }).ctx? n = _
      rw [State.ctx?_updCtx_map s c n (by simp)]
      by_cases hn : n = c
      · subst hn; simp [hx, hr]
      · simp [hn]
    · next hr =>
      by_cases hn : n = c
      · subst hn; simp [hx, hr]
      · simp [hn]
  · next hx =>
    by_cases hn : n = c
    · subst hn; simp [hx]
    · simp [hn]

/-- One context of a partition that RESIZE suspends and marks for return (R223). -/
def State.suspendMarked (s : State) (c : Nat) : State := (s.suspendCtx c).updCtx c (fun x => { x with returning := true })

theorem State.suspendMarked_mem (s : State) (c : Nat) : (s.suspendMarked c).mem = s.mem := by
  unfold State.suspendMarked State.suspendCtx
  split
  · split <;> rfl
  · rfl

theorem State.suspendMarked_parts (s : State) (c : Nat) : (s.suspendMarked c).parts = s.parts := by
  unfold State.suspendMarked State.suspendCtx
  split
  · split <;> rfl
  · rfl

theorem State.ctx?_suspendMarked {s : State} {c n : Nat} {y : Ctx} (hy : (s.suspendMarked c).ctx? n = some y) :
    ∃ x, s.ctx? n = some x ∧ y.part = x.part ∧ (y.state = .running → x.state = .running ∧ n ≠ c) := by
  unfold State.suspendMarked at hy
  rw [State.ctx?_updCtx_map _ _ _ (by simp), State.ctx?_suspendCtx, Option.map_map] at hy
  obtain ⟨x, hx, rfl⟩ := Option.map_eq_some_iff.mp hy
  refine ⟨x, hx, ?_⟩
  by_cases hn : n = c
  · by_cases hr : x.state = .running <;> simp [hn, hr]
  · simp [hn]

/-- Contexts suspended one after the other. -/
theorem State.ctx?_foldl_suspendMarked (l : List Nat) {s : State} {n : Nat} {y : Ctx} (hy : (l.foldl State.suspendMarked s).ctx? n = some y) :
    ∃ x, s.ctx? n = some x ∧ y.part = x.part ∧ (y.state = .running → x.state = .running ∧ n ∉ l) := by
  induction l generalizing s with
  | nil => exact ⟨y, hy, rfl, fun hr => ⟨hr, by simp⟩⟩
  | cons c l ih =>
    obtain ⟨z, hz, hpart, hrun⟩ := ih hy
    obtain ⟨x, hx, hpart', hrun'⟩ := State.ctx?_suspendMarked hz
    refine ⟨x, hx, hpart.trans hpart', fun hr => ?_⟩
    obtain ⟨hzr, hl⟩ := hrun hr
    obtain ⟨hxr, hc⟩ := hrun' hzr
    exact ⟨hxr, by simp [hc, hl]⟩

/-! The partition of a RESIZE (R223). -/

/-- A partition with the map asked for beside its own: the partition of the module, or a new one with no pairs. -/
def State.resizing (s : State) (part : Nat) (mask : BitVec 16) : Part :=
  { (s.part? part).getD { num := part, pairs := 0, pointer := 0, resize := none } with resize := some mask }

/-- The module with that partition in its table. -/
def State.withResize (s : State) (part : Nat) (mask : BitVec 16) : State :=
  if (s.part? part).isSome then s.updPart part (fun _ => s.resizing part mask) else { s with parts := s.parts ++ [s.resizing part mask] }

theorem State.resizing_num (s : State) (part : Nat) (mask : BitVec 16) : (s.resizing part mask).num = part := by
  unfold State.resizing
  cases hp : s.part? part with
  | none => rfl
  | some p => simpa using List.find?_some hp

theorem State.part?_withResize (s : State) (part : Nat) (mask : BitVec 16) : (s.withResize part mask).part? part = some (s.resizing part mask) := by
  have hnum := s.resizing_num part mask
  unfold State.withResize
  cases hp : s.part? part with
  | none =>
    rw [if_neg (by simp)]
    unfold State.part? at hp ⊢
    rw [List.find?_append, hp]
    simp [hnum]
  | some p =>
    rw [if_pos (by simp)]
    unfold State.part? at hp ⊢
    rw [State.updPart_parts, find?_updWhere _ _ fun _ _ => by simp [hnum], hp]
    rfl

/-- The map of a partition has changed to the one asked for, which gives up the partition that has no pairs. -/
theorem State.part?_changeMap_zero {s : State} {p : Part} (hmask : p.resize = some 0) : (s.changeMap p).part? p.num = none := by
  refine List.find?_eq_none.mpr fun x hx => ?_
  unfold State.changeMap at hx
  rw [hmask] at hx
  simpa using (List.mem_filter.mp hx).2

theorem State.part?_changeMap {s : State} {p x : Part} {mask : BitVec 16} (hx : s.part? p.num = some x) (hp : p.resize = some mask) (hmask : mask ≠ 0) :
    ∃ y, (s.changeMap p).part? p.num = some y ∧ y.pairs = mask ∧ y.resize = none := by
  unfold State.part? State.changeMap at *
  rw [hp]
  dsimp only [Option.getD_some]
  rw [if_neg hmask, find?_updWhere _ _ fun _ _ => by simp, hx]
  exact ⟨_, rfl, rfl, rfl⟩

theorem State.withResize_ctxs (s : State) (part : Nat) (mask : BitVec 16) : (s.withResize part mask).ctxs = s.ctxs := by
  unfold State.withResize; split <;> rfl

theorem State.withResize_mem (s : State) (part : Nat) (mask : BitVec 16) : (s.withResize part mask).mem = s.mem := by
  unfold State.withResize; split <;> rfl

/-- The numbers of the RUNNING contexts of a partition. -/
def State.runningOf (s : State) (part : Nat) : List Nat := (s.ctxs.filter (fun (x : Ctx) => x.part == some part && x.state == .running)).map (·.num)

theorem State.mem_runningOf {s : State} {part n : Nat} {x : Ctx} (hx : s.ctx? n = some x) (hpart : x.part = some part) (hr : x.state = .running) :
    n ∈ s.runningOf part := by
  have hn : x.num = n := by simpa using List.find?_some hx
  exact List.mem_map.mpr ⟨x, List.mem_filter.mpr ⟨List.mem_of_find?_eq_some hx, by simp [hpart, hr]⟩, hn⟩

/-! The packets themselves. -/

section Acts
variable {s : State} {q : HostQueue} {e : Entry} (h : s.nextContext = some (q, e)) (hm : q.ctx = 0 ∧ q.idx = 0) (hb : s.badContext e = none)
  (hd : s.contextDenied e = false)
include h hm hb hd

theorem execContextUnqueue_acts (hp : s.performed 3 = []) (hop : e.op = 3) : exec .contextUnqueue s = .next (
    if e.val % 2 = 1 then
      match s.dq? e.target e.cidx with
      | none => s.contextDone q e
      | some d => s.destroyDevq q e d
    else match s.hq? e.target e.cidx with
      | none => s.contextDone q e
      | some _ => ((s.cancelWaiting e.target e.cidx fun b => b.phase == .waiting).updHq e.target e.cidx
          fun x => HostQueue.bury { x with state := .dead }).contextStep q e 1) := by
  rw [show exec .contextUnqueue s = execContextUnqueue s from rfl]
  unfold execContextUnqueue
  rw [State.completePerformed_none hp]
  exact State.settleContext_acts h hm hb hd hop _

theorem contextUnqueue_host (hp : s.performed 3 = []) (hop : e.op = 3) (hval : e.val % 2 = 0) {x : HostQueue} (hx : s.hq? e.target e.cidx = some x) :
    ∃ t y, exec .contextUnqueue s = .next t ∧ t.hq? e.target e.cidx = some y ∧ y.state = .dead ∧ y.board.length = x.board.length
      ∧ (∀ b ∈ y.board, b.phase ≠ .waiting) ∧ (x.board = [] → y.tokens = List.replicate 64 .poisoned) := by
  obtain ⟨ts, b, hcancel, hlen, hwait⟩ := State.cancelWaiting_board hx
  obtain ⟨tb, hbury, -⟩ := HostQueue.bury_eq { x with tokens := ts, board := b, state := .dead }
  have hdead := State.hq?_updHq hcancel (f := fun x => HostQueue.bury { x with state := .dead }) fun y => by
    obtain ⟨ty, hy, -⟩ := HostQueue.bury_eq { y with state := .dead }
    rw [hy]
    exact ⟨rfl, rfl⟩
  obtain ⟨b', hb', hlen', hkeep⟩ := State.hq?_updEntry_of hdead (c := q.ctx) (q := q.idx) e.pos (fun e => { e with step := 1 })
  rw [execContextUnqueue_acts h hm hb hd hp hop, if_neg (by omega), hx]
  refine ⟨_, _, rfl, hb', ?_, ?_, ?_, fun hnil => ?_⟩
  · simp only [hbury]
  · rw [hlen', hbury]
    exact hlen
  · refine hkeep (fun e => e.phase ≠ .waiting) (fun _ ha => ha) ?_
    rw [hbury]
    exact hwait
  · obtain rfl : b = [] := List.eq_nil_of_length_eq_zero (by rw [hlen, hnil]; rfl)
    rfl

theorem contextUnqueue_none (hp : s.performed 3 = []) (hop : e.op = 3) (hval : e.val % 2 = 1) (hq : s.dq? e.target e.cidx = none) :
    exec .contextUnqueue s = .next (s.reportEntry q.ctx q.idx e.pos pkDone 0 0 0 0) := by
  rw [execContextUnqueue_acts h hm hb hd hp hop, if_pos hval, hq]
  rfl

theorem contextUnqueue_device (hp : s.performed 3 = []) (hop : e.op = 3) (hval : e.val % 2 = 1) {d : DevQueue} {pa : Nat} {s1 : State}
    (hq : s.dq? e.target e.cidx = some d) (hpa : s.dqProducer (.pair d.home) d = (.ok pa, s1)) :
    let s2 := s1.dqSettle pa
    let s3 := (s2.cancelSpawns d).cancelRecords d (s2.dqCounter pa 40) (2 ^ d.logn)
    exec .contextUnqueue s = .next ({ s3 with dqs := s3.dqs.filter (fun x => !(x.ctx == d.ctx && x.idx == d.idx)) }.reportEntry q.ctx q.idx e.pos pkDone 0 0 0 0) := by
  rw [execContextUnqueue_acts h hm hb hd hp hop, if_pos hval, hq]
  dsimp only
  unfold State.destroyDevq
  rw [hpa]
  rfl

theorem contextUnqueue_faults (hp : s.performed 3 = []) (hop : e.op = 3) (hval : e.val % 2 = 1) {d : DevQueue} {c : W32} {va : Nat} {s1 : State}
    (hq : s.dq? e.target e.cidx = some d) (hpa : s.dqProducer (.pair d.home) d = (.bad c va, s1)) :
    exec .contextUnqueue s = .next (s1.reportEntry q.ctx q.idx e.pos pkFault c 0 (BitVec.ofNat 64 va) 0) := by
  rw [execContextUnqueue_acts h hm hb hd hp hop, if_pos hval, hq]
  dsimp only
  unfold State.destroyDevq
  rw [hpa]
  rfl

theorem contextSuspend_starts (hp : s.performed 5 = []) (hop : e.op = 5) {x : Ctx} (hx : s.ctx? e.target = some x) :
    ∃ t y, exec .contextSuspend s = .next t ∧ t.ctx? e.target = some y ∧ y.state = (if x.state = .running then .suspending else x.state)
      ∧ (x.state = .running → ∀ h ∈ t.hqs, h.ctx = e.target → h.state = .halted ∨ h.state = .dead) := by
  rw [show exec .contextSuspend s = execContextSuspend s from rfl]
  unfold execContextSuspend
  rw [State.completePerformed_none hp]
  dsimp only
  rw [State.settleContext_acts h hm hb hd hop, hx]
  dsimp only
  by_cases hr : x.state = .running
  · rw [if_pos hr]
    refine ⟨_, _, rfl, (State.ctx?_suspendCtx s e.target e.target).trans (by rw [hx]; rfl), ?_, fun _ y hy hc => ?_⟩
    · simp [hr]
    · obtain ⟨z, hz, b, rfl⟩ := State.mem_updEntry_hqs hy
      rw [State.suspendCtx_running hx hr] at hz
      exact State.haltQueues_halted _ _ z hz hc
  · rw [if_neg hr]
    exact ⟨_, x, rfl, hx, (if_neg hr).symm, fun hr' => absurd hr' hr⟩

theorem contextResume_starts (hp : s.performed 6 = []) (hop : e.op = 6) {x : Ctx} (hx : s.ctx? e.target = some x) :
    ∃ t y, exec .contextResume s = .next t ∧ t.ctx? e.target = some y ∧ y.state = (if x.state = .allocated ∨ x.state = .suspended then .runnable else x.state) := by
  rw [show exec .contextResume s = execContextResume s from rfl]
  unfold execContextResume
  rw [State.completePerformed_none hp]
  dsimp only
  rw [State.settleContext_acts h hm hb hd hop, hx]
  dsimp only
  by_cases hr : x.state = .allocated ∨ x.state = .suspended
  · rw [if_pos (by simpa using hr), if_pos hr]
    exact ⟨_, _, rfl, State.ctx?_updCtx hx fun _ => rfl, rfl⟩
  · rw [if_neg (by simpa using hr), if_neg hr]
    exact ⟨_, x, rfl, hx, rfl⟩

theorem execContextResize_acts (hp : s.performed 8 = []) (hop : e.op = 8) : exec .contextResize s = .next (
    let p := s.resizing e.cpart (BitVec.ofNat 16 e.val)
    let s1 := s.withResize e.cpart (BitVec.ofNat 16 e.val)
    if (s1.runningOf e.cpart).isEmpty then (s1.changeMap p).contextDone q e
    else ((s1.runningOf e.cpart).foldl State.suspendMarked s1).contextStep q e 1) := by
  rw [show exec .contextResize s = execContextResize s from rfl]
  unfold execContextResize
  rw [State.completePerformed_none hp]
  exact State.settleContext_acts h hm hb hd hop _

theorem contextResize_suspends (hp : s.performed 8 = []) (hop : e.op = 8) (hrun : ∃ n x, s.ctx? n = some x ∧ x.part = some e.cpart ∧ x.state = .running) :
    ∃ t p, exec .contextResize s = .next t ∧ t.part? e.cpart = some p ∧ p.resize = some (BitVec.ofNat 16 e.val)
      ∧ (∀ n x, t.ctx? n = some x → x.part = some e.cpart → x.state ≠ .running) ∧ t.mem = s.mem := by
  obtain ⟨n0, x0, hx0, hpart0, hr0⟩ := hrun
  have hctx : ∀ n, (s.withResize e.cpart (BitVec.ofNat 16 e.val)).ctx? n = s.ctx? n := fun n => by
    unfold State.ctx?
    rw [State.withResize_ctxs]
  have hne := State.mem_runningOf ((hctx n0).trans hx0) hpart0 hr0
  rw [execContextResize_acts h hm hb hd hp hop]
  dsimp only
  rw [if_neg (by simp [List.ne_nil_of_mem hne])]
  refine ⟨_, s.resizing e.cpart (BitVec.ofNat 16 e.val), rfl, ?_, rfl, fun n y hy hpart hr => ?_, ?_⟩
  · refine Eq.trans ?_ (s.part?_withResize e.cpart (BitVec.ofNat 16 e.val))
    exact congrArg (List.find? _) (foldl_keeps State.parts State.suspendMarked_parts _ _)
  · obtain ⟨x, hx, hpart', hrun'⟩ := State.ctx?_foldl_suspendMarked _ hy
    obtain ⟨hxr, hnot⟩ := hrun' hr
    exact hnot (State.mem_runningOf hx (hpart'.symm.trans hpart) hxr)
  · exact (foldl_keeps State.mem State.suspendMarked_mem _ _).trans (s.withResize_mem e.cpart _)

theorem contextResize_changes (hp : s.performed 8 = []) (hop : e.op = 8) (hrun : ∀ x ∈ s.ctxs, x.part = some e.cpart → x.state ≠ .running) :
    ∃ t, exec .contextResize s = .next t ∧ t.mem = s.mem ∧ (BitVec.ofNat 16 e.val = 0 → t.part? e.cpart = none)
      ∧ (BitVec.ofNat 16 e.val ≠ 0 → ∃ p, t.part? e.cpart = some p ∧ p.pairs = BitVec.ofNat 16 e.val ∧ p.resize = none) := by
  have hnone : (s.withResize e.cpart (BitVec.ofNat 16 e.val)).runningOf e.cpart = [] := by
    unfold State.runningOf
    rw [State.withResize_ctxs, List.map_eq_nil_iff, List.filter_eq_nil_iff]
    intro x hx hboth
    simp only [Bool.and_eq_true, beq_iff_eq] at hboth
    exact hrun x hx hboth.1 hboth.2
  have hnum := s.resizing_num e.cpart (BitVec.ofNat 16 e.val)
  rw [execContextResize_acts h hm hb hd hp hop]
  dsimp only
  rw [hnone, if_pos (by simp)]
  refine ⟨_, rfl, s.withResize_mem e.cpart _, fun hmask => ?_, fun hmask => ?_⟩
  · have hgone := State.part?_changeMap_zero (s := s.withResize e.cpart (BitVec.ofNat 16 e.val)) (p := s.resizing e.cpart (BitVec.ofNat 16 e.val)) (congrArg some hmask)
    rwa [hnum] at hgone
  · have hthere := s.part?_withResize e.cpart (BitVec.ofNat 16 e.val)
    have hchanged := State.part?_changeMap (p := s.resizing e.cpart (BitVec.ofNat 16 e.val)) (by rw [hnum]; exact hthere) rfl hmask
    rwa [hnum] at hchanged

end Acts

end Sys2Proof.Machine
end

section
/-! SUPPORT. The CONTEXT packets (O52), TERMINATE: what it leaves of a context's launches, trees and queues. -/

namespace Sys2Proof.Machine

set_option Elab.async false

/-! Steps that change host queues and nothing else. -/

def State.SameButQueues (s t : State) : Prop := ∃ h, t = { s with hqs := h }

namespace State.SameButQueues

theorem refl (s : State) : s.SameButQueues s := ⟨s.hqs, rfl⟩

theorem trans {s t r : State} (h : s.SameButQueues t) (h' : t.SameButQueues r) : s.SameButQueues r := by
  obtain ⟨_, rfl⟩ := h
  obtain ⟨k, rfl⟩ := h'
  exact ⟨k, rfl⟩

theorem foldl {β : Type} {f : State → β → State} (hf : ∀ (s : State) b, s.SameButQueues (f s b)) (l : List β) (s : State) : s.SameButQueues (l.foldl f s) := by
  induction l generalizing s with
  | nil => exact refl s
  | cons b l ih => exact (hf s b).trans (ih _)

theorem reportEntry (s : State) (c q pos status : Nat) (detail : W32) (progress fault extra : W64) :
    s.SameButQueues (s.reportEntry c q pos status detail progress fault extra) := ⟨_, rfl⟩

theorem consume (s : State) (c q : Nat) (e : Entry) : s.SameButQueues (s.consume c q e) := by
  unfold State.consume
  split
  · exact ⟨_, rfl⟩
  · exact refl s

theorem cancelEntry (s : State) (c q : Nat) (x : HostQueue) (e : Entry) : s.SameButQueues (s.cancelEntry c q x e) := by
  refine trans (t := if (e.phase = .waiting && e.bad.isNone) = true then s.consume c q e else s) ?_ (reportEntry ..)
  split
  · exact consume ..
  · exact refl s

theorem cancelWaiting (s : State) (c q : Nat) (p : Entry → Bool) : s.SameButQueues (s.cancelWaiting c q p) := by
  cases hx : s.hq? c q with
  | none =>
    unfold State.cancelWaiting
    rw [hx]
    exact refl s
  | some x =>
    rw [State.cancelWaiting_eq hx]
    exact foldl (fun t e => cancelEntry t c q x e) _ s

end State.SameButQueues

/-! Trees that complete with their context (R81, R206, R228). -/

/-- Whether a tree of a context keeps a launch. -/
def State.treeOpen (s : State) (c : Nat) (t : Tree) : Bool := s.launches.any (fun (l : Launch) => l.ctx == c && l.tree == t.id)

/-- A tree that ends with what it is given. -/
def Tree.close (t : Tree) (e : Nat × W32 × W64) : Tree := { t with status := e.1, detail := e.2.1, fault := e.2.2, closing := true }

/-- The module once the trees of a context have ended: those that keep a launch stand closed, the others have gone. -/
def State.treesEnded (s : State) (c : Nat) (end_ : Tree → Nat × W32 × W64) : State :=
  { s with trees := updWhere (fun (t : Tree) => t.ctx == c) (fun t => t.close (end_ t)) (s.trees.filter (fun (t : Tree) => t.ctx != c || s.treeOpen c t)) }

theorem State.endTrees_keeps (s : State) (c : Nat) (end_ : Tree → Nat × W32 × W64) : (s.treesEnded c end_).SameButQueues (s.endTrees c end_) :=
  State.SameButQueues.foldl (fun _ _ => State.SameButQueues.reportEntry ..) _ _

theorem State.mem_treesEnded {s : State} {c : Nat} {end_ : Tree → Nat × W32 × W64} {r : Tree} (hr : r ∈ (s.treesEnded c end_).trees) (hc : r.ctx = c) :
    ∃ t : Tree, r = t.close (end_ t) ∧ ∃ l ∈ s.launches, l.ctx = c ∧ l.tree = t.id := by
  obtain ⟨t, ht, rfl⟩ := List.mem_map.mp hr
  have hopen := (List.mem_filter.mp ht).2
  by_cases htc : t.ctx = c
  · refine ⟨t, if_pos (by simpa using htc), ?_⟩
    simpa [htc, State.treeOpen] using hopen
  · rw [if_neg (by simpa using htc)] at hc
    exact absurd hc htc

/-! Work discarded with its context (R212). -/

theorem State.dropEntries_ctxs (s : State) (p : EngEntry → Bool) : (s.dropEntries p).ctxs = s.ctxs :=
  foldl_keeps (f := fun t (e : EngEntry) => t.entryDone e.op none e.lane 0) State.ctxs (fun _ _ => rfl) _ _

/-- The numbers of the contexts, which discarding work leaves. -/
def State.ctxNums (s : State) : List Nat := s.ctxs.map (·.num)

theorem State.releaseGroup_ctxNums (s : State) (g : Group) : (s.releaseGroup g).ctxNums = s.ctxNums := by
  refine Eq.trans ?_ (s.sameRoster_closeGroupCursors g.id).ctxs
  exact congrArg (List.map Ctx.num) (State.dropEntries_ctxs ..)

theorem State.ctx?_of_ctxNums {s t : State} (h : t.ctxNums = s.ctxNums) {n : Nat} {x : Ctx} (hx : s.ctx? n = some x) : ∃ y, t.ctx? n = some y := by
  have hn : n ∈ t.ctxNums := by
    rw [h]
    exact List.mem_map.mpr ⟨x, List.mem_of_find?_eq_some hx, by simpa using List.find?_some hx⟩
  obtain ⟨y, hy, hyn⟩ := List.mem_map.mp hn
  exact Option.isSome_iff_exists.mp (List.find?_isSome.mpr ⟨y, hy, by simpa using hyn⟩)

theorem State.discardCtx_ctxNums (s : State) (c : Nat) : (s.discardCtx c).ctxNums = s.ctxNums :=
  (foldl_keeps State.ctxNums State.releaseGroup_ctxNums _ _).trans (foldl_keeps (f := State.removeUnit) State.ctxNums (fun _ _ => rfl) _ s)

/-- A launch that discarding leaves of its context is aborting, and a group of it has a query that runs (R206). -/
theorem State.mem_discardCtx_launches {s : State} {c : Nat} {l : Launch} (hl : l ∈ (s.discardCtx c).launches) (hc : l.ctx = c) :
    l.state = .aborting ∧ ∃ g ∈ s.groups, g.launch = l.id ∧ s.querying g = true := by
  obtain ⟨l0, hl0, rfl⟩ := List.mem_map.mp hl
  have hkept := (List.mem_filter.mp hl0).2
  by_cases hlc : l0.ctx = c
  · rw [if_pos (by simpa using hlc)]
    refine ⟨rfl, ?_⟩
    obtain ⟨g, ⟨hg, hq⟩, hgl⟩ : ∃ g, (g ∈ s.groupsOfCtx c ∧ s.querying g = true) ∧ g.launch = l0.id := by simpa [hlc] using hkept
    exact ⟨g, (List.mem_filter.mp hg).1, hgl, hq⟩
  · rw [if_neg (by simpa using hlc)] at hc
    exact absurd hc hlc

/-- A query runs as before where groups, beam slots and dies stand as they did. -/
theorem State.SameRoster.querying {s t : State} (h : s.SameRoster t) {g : Group} (hg : g ∈ t.groups) (hq : t.querying g = true) :
    ∃ g' ∈ s.groups, g'.launch = g.launch ∧ s.querying g' = true := by
  have hmem : (g.id, g.launch) ∈ s.groups.map (fun g => (g.id, g.launch)) := h.groups ▸ List.mem_map.mpr ⟨g, hg, rfl⟩
  obtain ⟨g', hg', heq⟩ := List.mem_map.mp hmem
  obtain ⟨hid, hlaunch⟩ := Prod.mk.inj heq
  refine ⟨g', hg', hlaunch, ?_⟩
  have hhalted : ∀ k, t.halted k = s.halted k := fun k => by unfold State.halted State.die; rw [h.dies]
  unfold State.querying at hq ⊢
  simpa only [hid, h.beams, hhalted] using hq

/-! The Creel of a terminated context (R132). -/

/-- What stands of contexts, queues, launches and trees. -/
def State.tables (s : State) : List Ctx × List HostQueue × List DevQueue × List Launch × List Tree := (s.ctxs, s.hqs, s.dqs, s.launches, s.trees)

theorem State.tables_inj {s t : State} (h : s.tables = t.tables) : s.ctxs = t.ctxs ∧ s.hqs = t.hqs ∧ s.dqs = t.dqs ∧ s.launches = t.launches ∧ s.trees = t.trees := by
  simpa only [State.tables, Prod.mk.injEq] using h

theorem State.leaveChunks_tables (s : State) (c : Nat) : (s.leaveChunks c).tables = s.tables :=
  foldl_keeps (f := fun t (e : Nat × Nat × Option Nat) => t.loseRange (State.chunkRange e.1).1 (State.chunkRange e.1).2) State.tables (fun _ _ => rfl) _ s

/-! TERMINATE as a whole (R212). -/

/-- How a tree ends that its context takes with it. -/
def Tree.cancelled (t : Tree) : Nat × W32 × W64 := if t.status = pkDone then (pkCancelled, 0, 0) else (t.status, t.detail, t.fault)

/-- The module once the work and the trees of a terminated context have ended. -/
def State.workEnded (s : State) (c : Nat) : State := ((s.cancelCopies c fun _ => true).discardCtx c).treesEnded c Tree.cancelled

/-- The queues of a terminated context: its host queues DEAD, its device queues gone. -/
def State.queuesEnded (s : State) (c : Nat) : State :=
  { s with hqs := updWhere (fun (q : HostQueue) => q.ctx == c) (fun q => HostQueue.bury { q with state := .dead }) s.hqs
           dqs := s.dqs.filter (fun (d : DevQueue) => d.ctx != c)
           cursors := s.cursors.filter (fun (k : Cursor) => k.ctx != c) }

theorem State.terminateCtx_eq (s : State) (c : Nat) : ∃ t, (s.workEnded c).SameButQueues t
    ∧ s.terminateCtx c = (((t.queuesEnded c).leaveChunks c).dropTlb (fun t => t.tagCtx == some c)).updCtx c
        (fun x => { x with state := .terminated, requests := [], returning := false }) :=
  ⟨_, (State.endTrees_keeps ..).trans (State.SameButQueues.foldl (fun _ _ => State.SameButQueues.cancelWaiting ..) _ _), rfl⟩

/-- What TERMINATE leaves of the tables is what stood when the context's queues had ended, its context TERMINATED. -/
theorem State.terminateCtx_tables (s : State) (c : Nat) : ∃ h, (s.terminateCtx c).hqs = updWhere (fun (q : HostQueue) => q.ctx == c) (fun q => HostQueue.bury { q with state := .dead }) h
    ∧ (s.terminateCtx c).dqs = (s.workEnded c).dqs.filter (fun (d : DevQueue) => d.ctx != c) ∧ (s.terminateCtx c).launches = (s.workEnded c).launches
    ∧ (s.terminateCtx c).trees = (s.workEnded c).trees
    ∧ (s.terminateCtx c).ctxs = updWhere (fun x => x.num == c) (fun x => { x with state := .terminated, requests := [], returning := false }) (s.workEnded c).ctxs := by
  obtain ⟨_, ⟨h, rfl⟩, heq⟩ := s.terminateCtx_eq c
  have htables := State.leaveChunks_tables (State.queuesEnded { s.workEnded c with hqs := h } c) c
  rw [heq]
  generalize State.leaveChunks (State.queuesEnded { s.workEnded c with hqs := h } c) c = r at htables
  generalize s.workEnded c = w at htables ⊢
  obtain ⟨hctxs, hhqs, hdqs, hlaunches, htrees⟩ := State.tables_inj htables
  exact ⟨h, hhqs, hdqs, hlaunches, htrees, congrArg _ hctxs⟩

theorem State.ctx?_terminateCtx {s : State} {c : Nat} {x : Ctx} (hx : s.ctx? c = some x) : ∃ y, (s.terminateCtx c).ctx? c = some y ∧ y.state = .terminated := by
  obtain ⟨y, hy⟩ := State.ctx?_of_ctxNums (t := s.workEnded c) ((State.discardCtx_ctxNums ..).trans (s.sameRoster_cancelCopies c _).ctxs) hx
  obtain ⟨-, -, -, -, -, hctxs⟩ := s.terminateCtx_tables c
  refine ⟨_, Eq.trans ?_ (State.ctx?_updCtx hy (f := fun x => { x with state := .terminated, requests := [], returning := false }) fun _ => rfl), rfl⟩
  exact congrArg (List.find? _) hctxs

/-- A launch that TERMINATE leaves of its context is aborting, and a group of it had a query that ran (R206). -/
theorem State.mem_terminateCtx_launches {s : State} {c : Nat} {l : Launch} (hl : l ∈ (s.terminateCtx c).launches) (hc : l.ctx = c) :
    l.state = .aborting ∧ ∃ g ∈ s.groups, g.launch = l.id ∧ s.querying g = true := by
  obtain ⟨-, -, -, hlaunches, -, -⟩ := s.terminateCtx_tables c
  obtain ⟨haborting, g, hg, hgl, hq⟩ := State.mem_discardCtx_launches (s := s.cancelCopies c fun _ => true) (hlaunches ▸ hl) hc
  obtain ⟨g', hg', hgl', hq'⟩ := (s.sameRoster_cancelCopies c _).querying hg hq
  exact ⟨haborting, g', hg', hgl'.trans hgl, hq'⟩

theorem HostQueue.bury_state (x : HostQueue) : x.bury.state = x.state := by unfold HostQueue.bury; split <;> rfl

theorem State.terminateCtx_queues (s : State) (c : Nat) : (∀ x ∈ (s.terminateCtx c).hqs, x.ctx = c → x.state = .dead) ∧ ∀ d ∈ (s.terminateCtx c).dqs, d.ctx ≠ c := by
  obtain ⟨h, hhqs, hdqs, -, -, -⟩ := s.terminateCtx_tables c
  refine ⟨fun x hx hc => ?_, fun d hd => ?_⟩
  · rw [hhqs] at hx
    obtain ⟨y, -, rfl⟩ := List.mem_map.mp hx
    by_cases hy : y.ctx = c
    · rw [if_pos (by simpa using hy)]
      exact HostQueue.bury_state _
    · rw [if_neg (by simpa using hy)] at hc
      exact absurd hc hy
  · rw [hdqs] at hd
    simpa using (List.mem_filter.mp hd).2

theorem Tree.cancelled_status (t : Tree) : t.cancelled.1 ≠ pkDone := by
  unfold Tree.cancelled
  split
  · decide
  · assumption

/-- A tree that TERMINATE leaves of its context is closed, failed, and keeps a launch (R81, R206). -/
theorem State.mem_terminateCtx_trees {s : State} {c : Nat} {r : Tree} (hr : r ∈ (s.terminateCtx c).trees) (hc : r.ctx = c) :
    r.closing = true ∧ r.status ≠ pkDone ∧ ∃ l ∈ (s.terminateCtx c).launches, l.ctx = c ∧ l.tree = r.id := by
  obtain ⟨-, -, -, hlaunches, htrees, -⟩ := s.terminateCtx_tables c
  rw [htrees] at hr
  obtain ⟨t, rfl, l, hl, hlc, hlt⟩ := State.mem_treesEnded hr hc
  rw [hlaunches]
  exact ⟨rfl, t.cancelled_status, l, hl, hlc, hlt⟩

section Acts
variable {s : State} {q : HostQueue} {e : Entry} (h : s.nextContext = some (q, e)) (hm : q.ctx = 0 ∧ q.idx = 0) (hb : s.badContext e = none)
  (hd : s.contextDenied e = false)
include h hm hb hd

theorem contextTerminate_ends (hop : e.op = 7) {x : Ctx} (hx : s.ctx? e.target = some x) :
    ∃ t y, exec .contextTerminate s = .next t ∧ t.ctx? e.target = some y ∧ y.state = .terminated
      ∧ (∀ l ∈ t.launches, l.ctx = e.target → l.state = .aborting ∧ ∃ g ∈ s.groups, g.launch = l.id ∧ s.querying g = true)
      ∧ (∀ h ∈ t.hqs, h.ctx = e.target → h.state = .dead) ∧ (∀ d ∈ t.dqs, d.ctx ≠ e.target)
      ∧ (∀ r ∈ t.trees, r.ctx = e.target → r.closing = true ∧ r.status ≠ pkDone ∧ ∃ l ∈ t.launches, l.ctx = e.target ∧ l.tree = r.id) := by
  rw [show exec .contextTerminate s = execContextTerminate s from rfl]
  unfold execContextTerminate
  rw [State.settleContext_acts h hm hb hd hop]
  obtain ⟨y, hy, hterm⟩ := State.ctx?_terminateCtx hx
  obtain ⟨hhqs, hdqs⟩ := s.terminateCtx_queues e.target
  have hlaunches := fun l => State.mem_terminateCtx_launches (s := s) (c := e.target) (l := l)
  have htrees := fun r => State.mem_terminateCtx_trees (s := s) (c := e.target) (r := r)
  generalize s.terminateCtx e.target = t at *
  refine ⟨_, y, rfl, hy, hterm, hlaunches, fun k hk hc => ?_, hdqs, htrees⟩
  obtain ⟨z, hz, b, rfl⟩ := State.mem_updEntry_hqs hk
  exact hhqs z hz hc

end Acts

end Sys2Proof.Machine
end

section
/-! SUPPORT. The records of a device queue that is removed (R210), and the CONTEXT packets as a whole (O52). -/

namespace Sys2Proof.Machine

set_option Elab.async false

/-! Records that nothing takes any more count as CANCELLED (R210). -/

theorem State.tree?_updTree {s : State} {c : Nat} {t : W32} {x : Tree} (hx : s.tree? c t = some x) {f : Tree → Tree} (hf : ∀ y, (f y).ctx = y.ctx ∧ (f y).id = y.id) :
    (s.updTree c t f).tree? c t = some (f x) := by
  have := find?_updWhere (fun y : Tree => y.ctx == c && y.id == t) f (fun y hy => by rw [(hf y).1, (hf y).2]; exact hy) s.trees
  unfold State.tree? at hx ⊢
  rw [State.updTree_trees, this, hx]
  rfl

/-- A tree of more than one launch that has not failed takes the cancelled record as one launch less. -/
theorem State.tree?_cancelRecord {s : State} {d : DevQueue} {bs : List Byte} {x : Tree} (hx : s.tree? d.ctx (BitVec.ofNat 32 (fieldOf bs 40 4)) = some x)
    (hclosing : x.closing = false) (hcounter : 1 < x.counter) (hstatus : x.status = pkDone) :
    ∃ y, (s.cancelRecord d bs).tree? d.ctx (BitVec.ofNat 32 (fieldOf bs 40 4)) = some y ∧ y.counter + 1 = x.counter ∧ y.status = pkCancelled := by
  have hfail := State.tree?_updTree hx (f := fun x => if x.status = pkDone then { x with status := pkCancelled, detail := 0, fault := 0 } else x)
    fun y => by split <;> exact ⟨rfl, rfl⟩
  rw [if_pos hstatus] at hfail
  have hdec := State.tree?_updTree hfail (f := fun x => { x with counter := x.counter - 1 }) fun _ => ⟨rfl, rfl⟩
  refine ⟨_, Eq.trans (congrArg (State.tree? · d.ctx _) ?_) hdec, by simp; omega, rfl⟩
  show State.treeDec _ d.ctx _ = _
  unfold State.treeDec
  unfold State.treeFail
  rw [hfail]
  dsimp only
  rw [if_neg (by simp [hclosing]; omega)]

/-- The record at a position, once it is found whole. -/
theorem State.cancelRecords_found {t s1 : State} {d : DevQueue} {pop n spa : Nat}
    (hat : t.dqAccess (.pair d.home) d.ctx (d.ring.toNat + 64 * (pop % 2 ^ d.logn)) 64 = (.ok spa, s1))
    (hseq : fieldOf ((s1.dqSettle spa).bytesAt (.pair d.home) spa 64) 56 4 = pop % 2 ^ 32)
    (hcrc : fieldOf ((s1.dqSettle spa).bytesAt (.pair d.home) spa 64) 60 4 = crc32c (((s1.dqSettle spa).bytesAt (.pair d.home) spa 64).take 60)) :
    t.cancelRecords d pop (n + 1) = ((s1.dqSettle spa).cancelRecord d ((s1.dqSettle spa).bytesAt (.pair d.home) spa 64)).cancelRecords d (pop + 1) n := by
  rw [State.cancelRecords, hat]
  dsimp only
  rw [if_pos (by simp [hseq, hcrc])]

/-! Records that wait to be written (R85, R210). -/

theorem State.treeDec_engq (s : State) (c : Nat) (t : W32) : (s.treeDec c t).engq = s.engq := by
  unfold State.treeDec
  split
  · rfl
  · exact (apply_ite State.engq ..).trans (ite_self s.engq)

theorem State.cancelRecord_engq (s : State) (d : DevQueue) (bs : List Byte) : (s.cancelRecord d bs).engq = s.engq := State.treeDec_engq ..

theorem State.dropEntries_engq (s : State) (p : EngEntry → Bool) : (s.dropEntries p).engq = s.engq.filter fun e => !p e :=
  foldl_keeps (f := fun t (e : EngEntry) => t.entryDone e.op none e.lane 0) State.engq (fun _ _ => rfl) _ _

/-- Whether an entry of queue 5 writes a record of a device queue. -/
def DevQueue.awaits (d : DevQueue) (e : EngEntry) : Bool := match e.job with
  | .spawn q _ _ _ => e.ctx == d.ctx && q == d.idx
  | _ => false

/-- The record of such an entry, cancelled. -/
def State.cancelSpawn (s : State) (d : DevQueue) (e : EngEntry) : State := match e.job with
  | .spawn _ _ _ bs => s.cancelRecord d bs
  | _ => s

theorem State.cancelSpawns_eq (s : State) (d : DevQueue) :
    s.cancelSpawns d = (s.engq.filter d.awaits).foldl (fun t e => t.cancelSpawn d e) (s.dropEntries d.awaits) := rfl

theorem State.cancelSpawn_engq (s : State) (d : DevQueue) (e : EngEntry) : (s.cancelSpawn d e).engq = s.engq := by
  unfold State.cancelSpawn
  split
  · exact State.cancelRecord_engq ..
  · rfl

theorem State.cancelSpawns_engq (s : State) (d : DevQueue) : (s.cancelSpawns d).engq = s.engq.filter fun e => !d.awaits e := by
  rw [State.cancelSpawns_eq]
  exact (foldl_keeps State.engq (fun t e => State.cancelSpawn_engq t d e) _ _).trans (State.dropEntries_engq ..)

/-- None of a removed queue's records waits to be written. -/
theorem State.cancelSpawns_none {s : State} {d : DevQueue} {x : EngEntry} (hx : x ∈ (s.cancelSpawns d).engq) {q pa r : Nat} {bs : List Byte}
    (hjob : x.job = .spawn q pa r bs) (hc : x.ctx = d.ctx) : q ≠ d.idx := by
  rw [State.cancelSpawns_engq] at hx
  have hnot := (List.mem_filter.mp hx).2
  simpa [DevQueue.awaits, hjob, hc] using hnot

theorem State.cancelSpawns_one {s : State} {d : DevQueue} {x : EngEntry} {pa r : Nat} {bs : List Byte} (hq : s.engq = [x])
    (hjob : x.job = .spawn d.idx pa r bs) (hc : x.ctx = d.ctx) :
    s.cancelSpawns d = (({ s with engq := [] } : State).entryDone x.op none x.lane 0).cancelRecord d bs := by
  have hone : d.awaits x = true := by simp [DevQueue.awaits, hjob, hc]
  rw [State.cancelSpawns_eq]
  unfold State.dropEntries
  rw [hq, List.filter_cons_of_pos hone, List.filter_cons_of_neg (by simp [hone])]
  simp only [List.filter_nil, List.foldl_cons, List.foldl_nil]
  unfold State.cancelSpawn
  rw [hjob]

/-! The CONTEXT packets as a whole. -/

/-- Settles O52: the packet that is settled next is settled by its own instruction, and each operation does what its lemma says. -/
theorem contextPackets : Obligations.ContextPackets := by
  unfold Obligations.ContextPackets
  intro s q e hnext hperformed
  dsimp only
  refine ⟨fun hop hm => ?_, fun off hop hm hb => ?_, fun hop hm hb hd => ?_, fun hm hb hd => ⟨contextCreate_creates hnext hm hb hd, contextPaging_sets hnext hm hb hd,
    fun hop pa s1 p htr hp hdesc => ⟨contextQueue_host hnext hm hb hd hop htr hp rfl hdesc, contextQueue_device hnext hm hb hd hop htr hp rfl hdesc⟩,
    fun hop hval x hx => contextUnqueue_host hnext hm hb hd (hop ▸ hperformed (by simp [hop])) hop hval hx,
    fun hop hval => ?_, contextInval_removes hnext hm hb hd,
    fun hop x hx => contextSuspend_starts hnext hm hb hd (hop ▸ hperformed (by simp [hop])) hop hx,
    fun hop x hx => contextResume_starts hnext hm hb hd (hop ▸ hperformed (by simp [hop])) hop hx,
    fun hop x hx => contextTerminate_ends hnext hm hb hd hop hx,
    fun hop hrun => contextResize_suspends hnext hm hb hd (hop ▸ hperformed (by simp [hop])) hop hrun,
    fun hop hrun => contextResize_changes hnext hm hb hd (hop ▸ hperformed (by simp [hop])) hop hrun⟩,
    fun d pop n spa t s1 hat hseq hcrc => State.cancelRecords_found hat hseq hcrc,
    fun t d => ⟨fun x hx q pa r bs hjob hc => State.cancelSpawns_none hx hjob hc, fun x pa r bs hq hjob hc => State.cancelSpawns_one hq hjob hc⟩,
    fun t d bs x hx hclosing hcounter hstatus => State.tree?_cancelRecord hx hclosing hcounter hstatus⟩
  · obtain ⟨act, hact⟩ := contextInstr_settles hop hperformed
    exact hact.trans (State.settleContext_elsewhere hnext hm act)
  · obtain ⟨act, hact⟩ := contextInstr_settles hop hperformed
    exact hact.trans (State.settleContext_bad hnext hm hb act)
  · obtain ⟨act, hact⟩ := contextInstr_settles hop hperformed
    exact hact.trans (State.settleContext_denied hnext hm hb hd act)
  · have hp := hop ▸ hperformed (by simp [hop])
    exact ⟨contextUnqueue_none hnext hm hb hd hp hop hval, fun d pa s1 hq hpa => contextUnqueue_device hnext hm hb hd hp hop hval hq hpa,
      fun d c va s1 hq hpa => contextUnqueue_faults hnext hm hb hd hp hop hval hq hpa⟩

end Sys2Proof.Machine
end
section
/-! SUPPORT. Every step keeps the register tables of the units in canonical form (O7): State.RegsInv.f says that the function f of the model keeps
them. This part: what it means for an answer that holds a state, the units of a state one by one, and the functions that leave every unit alone. -/

namespace Sys2Proof.Machine
set_option Elab.async false

/-! Answers that hold a state. -/

/-- The state of an optional answer, if there is one, has a property. -/
def State.OptHolds (P : State → Prop) : Option State → Prop
  | some t => P t
  | none => True

/-- The state beside an optional value, if there is one, has a property. -/
def State.SomeHolds {α : Type} (P : State → Prop) : Option (α × State) → Prop
  | some x => P x.2
  | none => True

/-- The next state of an outcome, if there is one, has a property. -/
def State.OutHolds (P : State → Prop) : Host.Outcome State Fault Refusal → Prop
  | .next t => P t
  | .fault _ => True
  | .refused _ => True

section Answers
variable {α β : Type} {P : State → Prop}

theorem State.OptHolds.get {o : Option State} {t : State} (h : State.OptHolds P o) (e : o = some t) : P t := by subst e; exact h

theorem State.OptHolds.getD {o : Option State} {s : State} (h : State.OptHolds P o) (hs : P s) : P (o.getD s) := by
  cases o with
  | none => exact hs
  | some t => exact h

theorem State.OptHolds.map_pair {o : Option State} (h : State.OptHolds P o) {f : State → β × State} (hf : ∀ t, P t → P (f t).2) :
    State.SomeHolds P (o.map f) := by
  cases o with
  | none => trivial
  | some t => exact hf t h

theorem State.OptHolds.of_map (o : Option α) {f : α → State} (hf : ∀ a, P (f a)) : State.OptHolds P (o.map f) := by
  cases o with
  | none => trivial
  | some a => exact hf a

theorem State.OptHolds.findSome (l : List α) {f : α → Option State} (hf : ∀ a, State.OptHolds P (f a)) : State.OptHolds P (l.findSome? f) := by
  cases e : l.findSome? f with
  | none => trivial
  | some t =>
    obtain ⟨a, -, ha⟩ := List.exists_of_findSome?_eq_some e
    exact (hf a).get ha

theorem State.SomeHolds.get {o : Option (α × State)} {a : α} {t : State} (h : State.SomeHolds P o) (e : o = some (a, t)) : P t := by
  subst e; exact h

theorem State.SomeHolds.map {o : Option (α × State)} (h : State.SomeHolds P o) {f : α × State → State} (hf : ∀ a t, P t → P (f (a, t))) :
    State.OptHolds P (o.map f) := by
  cases o with
  | none => trivial
  | some x => exact hf x.1 x.2 h

theorem State.SomeHolds.of_map (o : Option α) {f : α → β × State} (hf : ∀ a, P (f a).2) : State.SomeHolds P (o.map f) := by
  cases o with
  | none => trivial
  | some a => exact hf a

theorem State.SomeHolds.findSome (l : List α) {f : α → Option (β × State)} (hf : ∀ a, State.SomeHolds P (f a)) :
    State.SomeHolds P (l.findSome? f) := by
  cases e : l.findSome? f with
  | none => trivial
  | some x =>
    obtain ⟨a, -, ha⟩ := List.exists_of_findSome?_eq_some e
    exact (hf a).get ha

theorem State.OutHolds.of_next {o : Host.Outcome State Fault Refusal} {t : State} (h : State.OutHolds P o) (e : o = .next t) : P t := by
  subst e; exact h

end Answers

/-! A property of the state beside a value, and folds. -/

namespace State.RegsInv
variable {s t : State} {α β : Type}

theorem of_pair {p : α × State} {a : α} (h : p.2.RegsInv) (e : p = (a, t)) : t.RegsInv := by subst e; exact h

theorem of_fst {p : State × α} {a : α} (h : p.1.RegsInv) (e : p = (t, a)) : t.RegsInv := by subst e; exact h

theorem of_triple {p : α × β × State} {a : α} {b : β} (h : p.2.2.RegsInv) (e : p = (a, b, t)) : t.RegsInv := by subst e; exact h

theorem ite_snd {c : Prop} [Decidable c] {a b : α × State} (ha : a.2.RegsInv) (hb : b.2.RegsInv) : (if c then a else b).2.RegsInv := by
  split
  · exact ha
  · exact hb

theorem foldl_mem (f : State → α → State) (l : List α) (hf : ∀ s, ∀ a ∈ l, s.RegsInv → (f s a).RegsInv) (h : s.RegsInv) : (l.foldl f s).RegsInv := by
  induction l generalizing s with
  | nil => exact h
  | cons a l ih => exact ih (fun t b hb => hf t b (List.mem_cons_of_mem a hb)) (hf s a List.mem_cons_self h)

theorem foldl (f : State → α → State) (hf : ∀ s a, s.RegsInv → (f s a).RegsInv) (l : List α) (h : s.RegsInv) : (l.foldl f s).RegsInv :=
  foldl_mem f l (fun s a _ => hf s a) h

theorem foldl_snd (f : α × State → β → α × State) (hf : ∀ a x, a.2.RegsInv → (f a x).2.RegsInv) (l : List β) {a : α × State} (h : a.2.RegsInv) :
    (l.foldl f a).2.RegsInv := by
  induction l generalizing a with
  | nil => exact h
  | cons x l ih => exact ih (hf a x h)

theorem foldl_fst (f : State × α → β → State × α) (hf : ∀ a x, a.1.RegsInv → (f a x).1.RegsInv) (l : List β) {a : State × α} (h : a.1.RegsInv) :
    (l.foldl f a).1.RegsInv := by
  induction l generalizing a with
  | nil => exact h
  | cons x l ih => exact ih (hf a x h)

end State.RegsInv

/-! The units of a state. -/

/-- A unit's tables are kept by a change of its other fields. -/
theorem SUnit.Inv.keep {u w : SUnit} (h : u.Inv) (v : w.v = u.v := by rfl) (p : w.p = u.p := by rfl) (k : w.k = u.k := by rfl)
    (x : w.x = u.x := by rfl) : w.Inv := ⟨v ▸ h.v, p ▸ h.p, k ▸ h.k, x ▸ h.x⟩

theorem SUnit.Inv.ite {c : Prop} [Decidable c] {u w : SUnit} (hu : u.Inv) (hw : w.Inv) : (if c then u else w).Inv := by
  split
  · exact hu
  · exact hw

/-- The units are the same, so their tables are. -/
theorem State.RegsInv.keep {s t : State} (h : s.RegsInv) (e : t.units = s.units := by rfl) : t.RegsInv := fun u hu => h u (e ▸ hu)

/-- A unit that is found is one of the state's. -/
theorem State.RegsInv.unit {s : State} (h : s.RegsInv) {id : Nat} {u : SUnit} (e : s.unit? id = some u) : u.Inv := h u (List.mem_of_find?_eq_some e)

theorem State.RegsInv.unit_getD {s : State} (h : s.RegsInv) (id : Nat) {u : SUnit} (hu : u.Inv) : ((s.unit? id).getD u).Inv := by
  cases e : s.unit? id with
  | none => exact hu
  | some w => exact h.unit e

/-- An update of a unit that leaves its tables alone. -/
theorem State.RegsInv.markUnit {s : State} (h : s.RegsInv) (id : Nat) (f : SUnit → SUnit)
    (hf : ∀ u, (f u).v = u.v ∧ (f u).p = u.p ∧ (f u).k = u.k ∧ (f u).x = u.x := by exact fun _ => ⟨rfl, rfl, rfl, rfl⟩) : (s.updUnit id f).RegsInv :=
  h.updUnit id f fun u hu => hu.keep (hf u).1 (hf u).2.1 (hf u).2.2.1 (hf u).2.2.2

/-- The same of all units at once. -/
theorem State.RegsInv.mapUnits {s t : State} (h : s.RegsInv) (f : SUnit → SUnit) (hf : ∀ u, u.Inv → (f u).Inv) (e : t.units = s.units.map f) : t.RegsInv := by
  intro u hu
  rw [e, List.mem_map] at hu
  obtain ⟨w, hw, rfl⟩ := hu
  exact hf w (h w hw)

/-- A new unit. -/
theorem State.RegsInv.addUnit {s t : State} (h : s.RegsInv) {u : SUnit} (e : t.units = s.units ++ [u]) (hu : u.Inv) : t.RegsInv := by
  intro w hw
  rw [e, List.mem_append, List.mem_singleton] at hw
  rcases hw with hw | rfl
  · exact h w hw
  · exact hu

end Sys2Proof.Machine
end
section
/-! SUPPORT. Register tables in canonical form: the functions over storage, which leave every unit alone; those over units; taking a trap, and the
end of a word. -/

namespace Sys2Proof.Machine
set_option Elab.async false

/-! Sorted lists hold what was sorted. -/

theorem mem_insertBy {α : Type} {key : α → Nat} {x y : α} (l : List α) : y ∈ insertBy key x l ↔ y = x ∨ y ∈ l := by
  induction l with
  | nil => simp [insertBy]
  | cons z l ih =>
    unfold insertBy
    split
    · simp
    · simp only [List.mem_cons, ih]
      exact or_left_comm

theorem mem_sortBy {α : Type} {key : α → Nat} {y : α} (l : List α) : y ∈ sortBy key l ↔ y ∈ l := by
  have h : ∀ (l acc : List α), y ∈ l.foldl (fun acc x => insertBy key x acc) acc ↔ y ∈ l ∨ y ∈ acc := by
    intro l
    induction l with
    | nil => simp
    | cons x l ih =>
      intro acc
      rw [List.foldl_cons, ih, mem_insertBy, List.mem_cons]
      exact or_left_comm.trans or_assoc.symm
  simpa [sortBy] using h l []

/-! Storage. -/

/-- A strand of a span begins without k and x registers (R96). -/
theorem SUnit.Inv.strandOf {u : SUnit} (hu : u.Inv) (g : Group) (id w : Nat) (slot at_ : Option Nat) : (strandOf u g id w slot at_).Inv :=
  ⟨hu.v, hu.p, rfl, rfl⟩

namespace State.RegsInv
variable {s : State}

theorem setRow (hs : s.RegsInv) (k : Nat) (ws : List W32) : (s.setRow k ws).RegsInv := hs.keep

theorem countDrop (hs : s.RegsInv) : s.countDrop.RegsInv := hs.keep

theorem writeL1 (hs : s.RegsInv) (core pa : Nat) (bs : List Byte) : (s.writeL1 core pa bs).RegsInv := hs.keep

theorem seeStores (hs : s.RegsInv) (core : Nat) : (s.seeStores core).RegsInv := hs.keep

theorem evictLine (hs : s.RegsInv) (core line : Nat) : (s.evictLine core line).RegsInv := hs.keep

theorem flushRange (hs : s.RegsInv) (pa n : Nat) : (s.flushRange pa n).RegsInv := hs.keep

theorem loseRange (hs : s.RegsInv) (pa n : Nat) : (s.loseRange pa n).RegsInv := hs.keep

theorem publish (hs : s.RegsInv) (core scope : Nat) : (s.publish core scope).RegsInv := by
  unfold State.publish
  dsimp only
  split
  · exact hs.keep
  · split <;> exact hs.keep

theorem clearLines (hs : s.RegsInv) (l : List Nat) : (s.clearLines l).RegsInv := by
  unfold State.clearLines
  split <;> exact hs.keep

theorem writeHome (hs : s.RegsInv) (w : Who) (pa : Nat) (bs : List Byte) : (s.writeHome w pa bs).RegsInv := by
  unfold State.writeHome
  split
  · exact hs.countDrop
  split
  · exact hs
  refine clearLines ?_ _
  split <;> exact hs.keep

theorem writePad (hs : s.RegsInv) (core off : Nat) (bs : List Byte) : (s.writePad core off bs).RegsInv := by
  unfold State.writePad
  dsimp only
  split <;> exact hs.keep

theorem countLost (hs : s.RegsInv) (pa : Nat) : (s.countLost pa).RegsInv := by
  unfold State.countLost
  split <;> exact hs.keep

theorem writeLanes (hs : s.RegsInv) (u : SUnit) (r : Nat) (mask : BitVec 64) (vals : List W32) : (s.writeLanes u r mask vals).RegsInv := by
  unfold State.writeLanes
  split
  · exact hs
  split
  · exact hs
  dsimp only
  split <;> exact hs.keep

/-! Other tables. -/

theorem updLaunch (hs : s.RegsInv) (id : Nat) (f : Launch → Launch) : (s.updLaunch id f).RegsInv := hs.keep

theorem updGroup (hs : s.RegsInv) (id : Nat) (f : Group → Group) : (s.updGroup id f).RegsInv := hs.keep

theorem updPend (hs : s.RegsInv) (id : Nat) (f : PendOp → PendOp) : (s.updPend id f).RegsInv := hs.keep

theorem updDie (hs : s.RegsInv) (d : Nat) (f : Die → Die) : (s.updDie d f).RegsInv := hs.keep

theorem updCtx (hs : s.RegsInv) (n : Nat) (f : Ctx → Ctx) : (s.updCtx n f).RegsInv := hs.keep

theorem updPart (hs : s.RegsInv) (n : Nat) (f : Part → Part) : (s.updPart n f).RegsInv := hs.keep

theorem updHq (hs : s.RegsInv) (c q : Nat) (f : HostQueue → HostQueue) : (s.updHq c q f).RegsInv := hs.keep

theorem updTree (hs : s.RegsInv) (c : Nat) (t : W32) (f : Tree → Tree) : (s.updTree c t f).RegsInv := hs.keep

theorem out (hs : s.RegsInv) (o : Out) : (s.out o).RegsInv := hs.keep

theorem raise (hs : s.RegsInv) (vec : Nat) : (s.raise vec).RegsInv := by
  unfold State.raise
  split <;> exact hs.keep

theorem fresh (hs : s.RegsInv) : s.fresh.2.RegsInv := hs.keep

theorem draw (hs : s.RegsInv) : s.draw.2.RegsInv := hs.keep

theorem retarget (hs : s.RegsInv) (old : Nat) (new : List Nat) : (s.retarget old new).RegsInv := hs.keep

theorem addPend (hs : s.RegsInv) (u : SUnit) (wait : PendWait) (writes : List RegWrite) (setA setB batch : Bool) :
    (s.addPend u wait writes setA setB batch).2.RegsInv := hs.keep

theorem entryDone (hs : s.RegsInv) (op : Nat) (reg : Option Nat) (lane : Nat) (val : W64) : (s.entryDone op reg lane val).RegsInv := hs.keep

theorem checkDrained (hs : s.RegsInv) (lid : Nat) : (s.checkDrained lid).RegsInv := by
  unfold State.checkDrained
  split <;> exact hs.keep

/-! Units. -/

theorem settleDuties (hs : s.RegsInv) : s.settleDuties.RegsInv := by
  refine hs.mapUnits _ (fun u hu => ?_) rfl
  split <;> exact hu.keep

theorem dropPend (hs : s.RegsInv) (id : Nat) : (s.dropPend id).RegsInv :=
  settleDuties (hs.mapUnits (fun u => u.trimBatches fun x => x != id) (fun _ hu => hu.keep) rfl)

theorem closeRegion (hs : s.RegsInv) (u : SUnit) : (s.closeRegion u).RegsInv := by
  unfold State.closeRegion
  split
  · exact hs.markUnit _ _
  · exact hs

theorem addPiece (hs : s.RegsInv) {u : SUnit} (hu : u.Inv) {f : SUnit → SUnit} (hf : ∀ w, w.Inv → (f w).Inv) : (s.addPiece u f).RegsInv :=
  hs.addUnit rfl (hf _ hu.keep)

theorem stopUnits (hs : s.RegsInv) (lid : Nat) : (s.stopUnits lid).RegsInv := by
  unfold State.stopUnits
  split
  · exact foldl _ (fun _ _ ht => ht.removeUnit _) _ hs
  · exact hs

theorem stopAborting (hs : s.RegsInv) : s.stopAborting.RegsInv := foldl _ (fun _ _ ht => ht.stopUnits _) _ hs

theorem endClause (hs : s.RegsInv) (uid : Nat) : (s.endClause uid).RegsInv := by
  unfold State.endClause
  refine (settleDuties (updUnit (keep hs) _ _ fun u hu => ?_)).stopAborting
  split
  · exact hu
  · exact hu.keep

theorem advance (hs : s.RegsInv) (i : Issue) : (s.advance i).RegsInv := by
  unfold State.advance
  split
  · exact hs.keep
  · exact (hs.markUnit _ _).endClause _

theorem faultUnit (hs : s.RegsInv) (u : SUnit) (cause : W32) (addr : W64) : (s.faultUnit u cause addr).RegsInv :=
  ((hs.updLaunch _ _).removeUnit _).stopUnits _

/-! Dealing and materialising (R77, R96). -/

theorem cutInto (hs : s.RegsInv) (g : Group) (a b : Nat) {u : SUnit} (hu : u.Inv) : (s.cutInto g a b u).RegsInv := by
  have hpiece : ∀ f : SUnit → SUnit, (∀ w, w.Inv → (f w).Inv) → ((s.addPiece u f).updGroup g.id fun g => { g with pieces := g.pieces + 1 }).RegsInv :=
    fun f hf => (hs.addPiece hu hf).updGroup _ _
  unfold State.cutInto
  dsimp only
  split
  · exact hs
  split
  · exact (hpiece _ fun _ hw => hw.keep).removeUnit _
  split
  · exact (hpiece _ fun _ hw => hw.keep).markUnit _ _
  · exact (hpiece _ fun _ hw => hw.keep).markUnit _ _

theorem dealGroup (hs : s.RegsInv) (l : Launch) (gid : Nat) : (s.dealGroup l gid).RegsInv := by
  unfold State.dealGroup
  refine foldl_mem _ _ (fun t u hu ht => ht.cutInto _ _ _ (hs u ?_)) hs.keep
  exact List.mem_of_mem_filter ((mem_sortBy _).mp hu)

theorem deal (hs : s.RegsInv) (u : SUnit) : (s.deal u).RegsInv := by
  unfold State.deal
  dsimp only
  split
  · exact hs.publish _ _
  · exact (foldl _ (fun _ _ ht => ht.dealGroup _ _) _ (hs.publish _ _)).checkDrained _

theorem strandsFor (u : SUnit) (hu : u.Inv) (g : Group) (at_ : Option Nat) : ∀ (ws : List Nat) (own : Option Nat) (s : State), s.RegsInv →
    ∀ {t ids}, s.strandsFor u g at_ own ws = some (t, ids) → t.RegsInv
  | [], own, s, hs, t, ids, e => by cases e; exact hs
  | w :: ws, own, s, hs, t, ids, e => by
    unfold State.strandsFor at e
    dsimp only at e
    split at e
    · cases e
    split at e
    · cases e
    · next k _ _ _ _ e1 =>
      cases e
      exact strandsFor u hu g at_ ws _ _ (hs.fresh.addUnit rfl (hu.strandOf g s.fresh.1 w (some k) at_)) e1

theorem materialise (hs : s.RegsInv) {u : SUnit} (hu : u.Inv) : State.OptHolds State.RegsInv (s.materialise u) := by
  unfold State.materialise
  split
  · trivial
  dsimp only
  split
  · trivial
  · next e =>
    refine ((strandsFor u hu _ _ _ _ _ ?_ e).retarget _ _).removeUnit _
    split
    · exact hs.publish _ _
    · exact hs

theorem needG (hs : s.RegsInv) {u : SUnit} (hu : u.Inv) : (s.needG u).RegsInv := by
  unfold State.needG
  split
  · exact hs.deal u
  split
  · next e => exact (hs.materialise hu).get e
  · exact (hs.markUnit u.id fun w => { w with wait := .slots, pcSlot := s.standsAt u }).keep

/-! Splits (R98). -/

theorem addSides (hs : s.RegsInv) (l : List SUnit) (hl : ∀ v ∈ l, v.Inv) : (s.addSides l).RegsInv := by
  induction l generalizing s with
  | nil => exact hs
  | cons v vs ih =>
    rw [State.addSides]
    exact ih (hs.fresh.addUnit rfl (hl v List.mem_cons_self).keep) fun w hw => hl w (List.mem_cons_of_mem _ hw)

theorem split (hs : s.RegsInv) (u : SUnit) {keep : SUnit} {sides : List SUnit} (hkeep : keep.Inv) (hsides : ∀ v ∈ sides, v.Inv) :
    (s.split u keep sides).RegsInv := by
  refine ((hs.fresh.putUnit hkeep.keep).addSides _ fun v hv => ?_).retarget _ _
  obtain ⟨w, hw, rfl⟩ := List.mem_map.mp hv
  obtain ⟨hv, hp, hk, -⟩ := hsides w hw
  exact ⟨hv, hp, hk, rfl⟩

/-! Rows for registers that turn G (R91). -/

theorem ensureRows : ∀ (rs : List Nat) {s t : State} {u v : SUnit}, s.RegsInv → u.Inv → s.ensureRows u rs = .ok (t, v) → t.RegsInv ∧ v.Inv
  | [], s, t, u, v, hs, hu, e => by cases e; exact ⟨hs, hu⟩
  | r :: rs, s, t, u, v, hs, hu, e => by
    unfold State.ensureRows at e
    dsimp only at e
    split at e
    · cases e
    split at e
    · exact ensureRows rs hs hu e
    split at e
    · exact ensureRows rs ((hs.setRow _ _).putUnit (hu.setV r .g)) (hu.setV r .g) e
    split at e
    · cases e
    split at e
    · cases e
    · exact ensureRows rs (((hs.updGroup _ _).setRow _ _).putUnit (hu.setV r .g)) (hu.setV r .g) e

theorem reserveRows (u : SUnit) : ∀ (rs : List Nat) {s t : State}, s.RegsInv → s.reserveRows u rs = .ok t → t.RegsInv
  | [], s, t, hs, e => by cases e; exact hs
  | r :: rs, s, t, hs, e => by
    unfold State.reserveRows at e
    dsimp only at e
    split at e
    · cases e
    split at e
    · exact reserveRows u rs hs e
    split at e
    · cases e
    split at e
    · cases e
    · exact reserveRows u rs (hs.updGroup _ _) e

/-! Traps and the end of a word. -/

theorem takeTrap (hs : s.RegsInv) {u : SUnit} (hu : u.Inv) (cause : W32) (tpc tval next : W64) (global : Bool) :
    (s.takeTrap u cause tpc tval next global).RegsInv := by
  unfold State.takeTrap
  dsimp only
  split
  · split
    · exact needG (putUnit hs.keep hu.keep) hu.keep
    · exact hs.putUnit hu.keep
  · exact (hs.putUnit hu.keep).faultUnit _ _ _

theorem finish (i : Issue) {u : SUnit} (hu : u.Inv) (r : Res) (hr : r.state.RegsInv) : (State.finish i u r).RegsInv := by
  cases r with
  | done t => exact hr.advance i
  | jump t => exact hr.endClause _
  | trap t c x g => exact (hr.takeTrap (hr.unit_getD u.id hu) _ _ _ _ _).endClause _
  | needG t =>
    unfold State.finish
    dsimp only
    split
    · exact hr.removeUnit _
    · exact hr.needG (hr.unit_getD u.id hu)
  | again t => exact stopAborting (keep (hr.markUnit i.unit fun u => { u with pcSlot := some i.slot }))
  | stay t => exact hr

/-- A word whose body keeps the tables keeps them; the body has the unit whose word it is. -/
theorem word (hs : s.RegsInv) (body : State → Issue → SUnit → Res) (hb : ∀ t i u, t.RegsInv → u.Inv → (body t i u).state.RegsInv) :
    State.OutHolds State.RegsInv (s.runWord body) := by
  cases e : s.runWord body with
  | next t =>
    rcases State.runWord_cases e with ⟨i, rest, -, -, rfl⟩ | ⟨i, u, ⟨-, hu⟩, rfl⟩
    · exact hs.keep
    · exact finish i (hs.unit hu) _ (hb s i u hs (hs.unit hu))
  | fault _ => trivial
  | refused _ => trivial

/-- A word that closes an open region first. -/
theorem closingWord (hs : s.RegsInv) (body : State → Issue → SUnit → Res) (hb : ∀ t i u, t.RegsInv → u.Inv → (body t i u).state.RegsInv) :
    State.OutHolds State.RegsInv (s.runClosing body) :=
  hs.word _ fun _ i u ht hu => hb _ i u.noRegion (ht.closeRegion u) hu.keep

end State.RegsInv
end Sys2Proof.Machine
end
section
/-! SUPPORT. Register tables in canonical form: how the steps of the hank engines and beam units are put together. -/

namespace Sys2Proof.Machine
set_option Elab.async false

/-- Steps that keep the register tables in canonical form, whatever they end with. -/
def HM.KeepsRegs {α : Type} (m : HM α) : Prop := ∀ s : State, s.RegsInv → (m.on s).2.RegsInv

namespace HM.KeepsRegs
variable {α β : Type}

theorem after {m : HM α} {s : State} (h : m.KeepsRegs) (hs : s.RegsInv) : (m.on s).2.RegsInv := h s hs

theorem of_pure (a : α) : (pure a : HM α).KeepsRegs := fun _ h => h

theorem of_throw (e : HStop) : (throw e : HM α).KeepsRegs := fun _ h => h

theorem throw_bind (e : HStop) (f : α → HM β) : ((throw e : HM α) >>= f).KeepsRegs := fun _ h => h

theorem of_mk {f : StateM State (Except HStop α)} (hf : ∀ s : State, s.RegsInv → (f s).2.RegsInv) : HM.KeepsRegs (ExceptT.mk f) := hf

theorem of_modify {f : State → State} (hf : ∀ s, s.RegsInv → (f s).RegsInv) : (modify f : HM PUnit).KeepsRegs := hf

theorem of_set {t : State} (ht : t.RegsInv) : (set t : HM PUnit).KeepsRegs := fun _ _ => ht

theorem bind {m : HM α} {f : α → HM β} (hm : m.KeepsRegs) (hf : ∀ a, (f a).KeepsRegs) : (m >>= f).KeepsRegs := by
  intro s h
  rw [HM.on_bind]
  have hm := hm s h
  split
  · next a t e => exact hf a t (hm.of_pair e)
  · next e => exact hm.of_pair e

theorem of_get {f : State → HM β} (hf : ∀ s, s.RegsInv → (f s).KeepsRegs) : ((get : HM State) >>= f).KeepsRegs := fun s h => hf s h s h

theorem foldlM {f : β → α → HM β} (hf : ∀ b a, (f b a).KeepsRegs) (l : List α) (b : β) : (l.foldlM f b).KeepsRegs := by
  induction l generalizing b with
  | nil => exact of_pure b
  | cons a l ih => rw [List.foldlM_cons]; exact (hf b a).bind ih

theorem throw_or {c : Prop} [Decidable c] {e : HStop} {k : Unit → HM α} (hk : (k ()).KeepsRegs) :
    (if c then (throw e : HM Unit) >>= k else k ()).KeepsRegs := by
  split
  · exact throw_bind e k
  · exact hk

end HM.KeepsRegs
end Sys2Proof.Machine
end
section
/-! SUPPORT. Translation and the results of units leave register tables canonical. -/

namespace Sys2Proof.Machine
set_option Elab.async false

namespace State.RegsInv
variable {s : State}

theorem cacheLeaf (hs : s.RegsInv) (w : Who) (c : Ctx) (l : Leaf) : (s.cacheLeaf w c l).RegsInv := by
  unfold State.cacheLeaf
  split
  · exact hs
  exact hs.keep

theorem cacheTable (hs : s.RegsInv) (w : Who) (c : Ctx) (va : Nat) : (s.cacheTable w c va).RegsInv := by
  unfold State.cacheTable
  split
  · dsimp only
    split
    · exact hs.keep
    · exact hs
  · exact hs

theorem leafOf (hs : s.RegsInv) (w : Who) (ctx va : Nat) : (s.leafOf w ctx va).2.RegsInv := by
  unfold State.leafOf
  split
  · exact hs
  split
  · exact hs
  split
  · exact hs
  show RegsInv _
  split
  · exact (hs.cacheLeaf _ _ _).cacheTable _ _ _
  · exact hs.cacheLeaf _ _ _

theorem translate (hs : s.RegsInv) (w : Who) (ctx : Nat) (need : Need) (va : Nat) : (s.translate w ctx need va).2.RegsInv := by
  unfold State.translate
  split
  · next e => exact (hs.leafOf _ _ _).of_pair e
  · next e => exact (hs.leafOf _ _ _).of_pair e

theorem pageRequest (hs : s.RegsInv) (w : Who) (ctx : Nat) (need : Need) (va : Nat) : OptHolds RegsInv (s.pageRequest w ctx need va) := by
  unfold State.pageRequest
  split
  · exact hs
  dsimp only
  split
  · exact hs
  split
  · exact hs
  split
  · trivial
  · exact ((hs.writeHome _ _ _).updCtx _ _).raise _

theorem fwTranslate (hs : s.RegsInv) (die ctx : Nat) (need : Need) (dec : Bool) (va n : Nat) : (s.fwTranslate die ctx need dec va n).2.RegsInv := by
  unfold State.fwTranslate
  split
  · exact hs
  split
  · next e => exact (hs.leafOf _ _ _).of_pair e
  rename_i t e
  have ht : t.RegsInv := (hs.leafOf _ _ _).of_pair e
  dsimp only
  split
  · exact ht
  split
  · exact ht
  split
  · exact ht
  split
  · exact (ht.pageRequest _ _ _ _).getD ht
  split
  · exact ht
  split
  · exact ht.countLost _
  · exact ht

theorem dropTlb (hs : s.RegsInv) (p : TlbEntry → Bool) : (s.dropTlb p).RegsInv := hs.keep

theorem writeV (hs : s.RegsInv) {u : SUnit} (hu : u.Inv) (g : Guard) (ws : List (Nat × Rv)) (k : State → Res) (hk : ∀ t, t.RegsInv → (k t).state.RegsInv) :
    (s.writeV u g ws k).state.RegsInv := by
  have hset : ∀ (ws : List (Nat × Rv)) {u : SUnit}, u.Inv → (ws.foldl (fun (u : SUnit) (w : Nat × Rv) => match w.2 with
      | .u x => u.setV w.1 (.u x)
      | .a b st => u.setV w.1 (VReg.affine b st)
      | .g _ => u) u).Inv := by
    intro ws
    induction ws with
    | nil => exact fun hu => hu
    | cons w ws ih =>
      intro u hu
      rw [List.foldl_cons]
      refine ih ?_
      split
      · exact hu.setV _ _
      · exact hu.setV _ _
      · exact hu
  unfold State.writeV
  split
  · exact hk _ hs
  split
  · exact hs
  dsimp only
  split
  · exact hk _ (hs.putUnit (hset ws hu))
  split
  · exact hs
  split
  · exact hs
  · next e => exact hk _ (foldl _ (fun _ _ ht => ht.writeLanes _ _ _ _) _ (ensureRows _ hs hu e).1)

theorem writeP (hs : s.RegsInv) {u : SUnit} (hu : u.Inv) (g : Guard) (r : Nat) (x : PReg) (k : State → Res) (hk : ∀ t, t.RegsInv → (k t).state.RegsInv) :
    (s.writeP u g r x k).state.RegsInv := by
  rcases s.writeP_cases u g r x k with e | ⟨t, -, e⟩ | ⟨q, e⟩ | ⟨-, e⟩ <;> rw [e]
  · exact hk _ hs
  · exact hs
  · exact hk _ (hs.putUnit (hu.setP r q))
  · exact hs

theorem deferV (hs : s.RegsInv) (u : SUnit) (g : Guard) (setB : Bool) (wait : PendWait) (ws : List (Nat × Rv)) (k : Nat → State → Res)
    (hk : ∀ a t, t.RegsInv → (k a t).state.RegsInv) : (s.deferV u g setB wait ws k).state.RegsInv := by
  rcases s.deferV_cases u g setB wait ws k with ⟨t, -, e⟩ | ⟨s1, wr, hs1, e⟩ | ⟨-, e⟩ | ⟨r, -, e⟩ <;> rw [e]
  · exact hs
  · have h1 : s1.RegsInv := by
      rcases hs1 with rfl | e1
      · exact hs
      · exact reserveRows u _ hs e1
    exact hk _ _ (h1.addPend _ _ _ _ _ _)
  · exact hs
  · exact hs

/-! Results that land. -/

theorem landWrite (hs : s.RegsInv) (uid : Nat) (w : RegWrite) : (s.landWrite uid w).RegsInv := by
  unfold State.landWrite
  split
  · exact hs
  next u hu =>
  have hu := hs.unit hu
  split
  · exact hs.putUnit (hu.setV _ _)
  · exact hs.putUnit (hu.setP _ _)
  · exact hs.putUnit (hu.setX _ _)
  split
  · exact hs
  split
  · exact hs
  · next e => exact (ensureRows _ hs hu e).1.writeLanes _ _ _ _

theorem landing (hs : s.RegsInv) (o : PendOp) (t : Nat) : SomeHolds RegsInv (s.landing o t) := by
  unfold State.landing
  dsimp only
  split
  · exact hs
  next u hu =>
  split
  · exact hs
  · exact (hs.materialise (hs.unit hu)).map_pair fun _ ht => ht

theorem landAll (hs : s.RegsInv) (o : PendOp) (t : Nat) : (s.landAll o t).RegsInv := by
  unfold State.landAll
  split
  · exact hs
  · next e => exact foldl _ (fun _ _ ht => foldl _ (fun _ _ ht => ht.landWrite _ _) _ ht) _ ((hs.landing _ _).get e)

theorem result (hs : s.RegsInv) {u : SUnit} (hu : u.Inv) (g : Guard) (wide : Bool) (d : Nat) (allU affine : Bool) (x : Nat → W64)
    (k : State → Res) (hk : ∀ t, t.RegsInv → (k t).state.RegsInv) :
    (s.result u g wide d allU affine x k).state.RegsInv := by
  unfold State.result
  split
  · exact hk _ hs
  split
  · exact hs.writeV hu _ _ _ hk
  split
  · exact hs.writeV hu _ _ _ hk
  split
  · exact hs
  · exact hs.writeV hu _ _ _ hk

theorem lateResult (hs : s.RegsInv) (u : SUnit) (g : Guard) (wide : Bool) (d : Nat) (allU : Bool) (x : Nat → W64) :
    (s.lateResult u g wide d allU x).state.RegsInv := by
  unfold State.lateResult
  split
  · exact hs
  split
  · exact hs.deferV _ _ _ _ _ _ (fun _ _ ht => ht)
  split
  · exact hs
  · exact hs.deferV _ _ _ _ _ _ (fun _ _ ht => ht)

theorem runV (hs : s.RegsInv) (f : FmtV) (od oa ob oc : Opd) (aff : Aff) (late : Bool) (op : OpEnv → Nat → Nat → Nat → Nat) :
    OutHolds RegsInv (s.runV f od oa ob oc aff late op) := by
  unfold State.runV
  refine hs.word _ (fun _ _ _ ht hu => ?_)
  dsimp only
  split
  · exact ht.lateResult _ _ _ _ _ _
  · exact ht.result hu _ _ _ _ _ _ _ (fun _ ht1 => ht1)

end State.RegsInv
end Sys2Proof.Machine
end
section
/-! SUPPORT. Compares, weaves, transfers, regions and system words leave register tables canonical, and so do the accesses of units. -/

namespace Sys2Proof.Machine
set_option Elab.async false

/-- Updates of a unit one after another. -/
theorem SUnit.Inv.foldl {α : Type} (f : SUnit → α → SUnit) (hf : ∀ u a, u.Inv → (f u a).Inv) (l : List α) {u : SUnit} (hu : u.Inv) : (l.foldl f u).Inv := by
  induction l generalizing u with
  | nil => exact hu
  | cons a l ih => exact ih (hf u a hu)

/-- Shape recovery writes registers one at a time (R102). -/
theorem SUnit.Inv.recover {u : SUnit} (hu : u.Inv) (s : State) (n : Nat) : (s.recover u n).Inv := by
  refine SUnit.Inv.foldl _ (fun w r hw => hw.setP r _) _ (SUnit.Inv.foldl _ (fun w r hw => ?_) _ hu)
  split
  · split
    · exact hw.setV _ _
    · exact hw
  · exact hw

/-- The tables of a fused strand are built by writes, but for the k registers of one of its siblings (R101). -/
theorem SUnit.Inv.fuseUnits {base keep : SUnit} (hk : keep.Inv) (hb : base.Inv) (sibs : List SUnit) (n : Nat) (mixed : List Nat) :
    (fuseUnits base keep sibs n mixed).Inv := by
  refine ⟨Kv.wf_foldl_set _ _ _ _ ?_, Kv.wf_foldl_set _ _ _ _ rfl, hb.k, Kv.wf_foldl_set _ _ _ _ rfl⟩
  exact Kv.wf_keep _ hk.v

theorem mem_of_lowestUnit {us : List SUnit} {u : SUnit} (h : lowestUnit us = some u) : u ∈ us := by
  induction us generalizing u with
  | nil => cases h
  | cons v us ih =>
    unfold lowestUnit at h
    split at h
    · cases h; exact List.mem_cons_self
    · next w e =>
      split at h <;> cases h
      · exact List.mem_cons_self
      · exact List.mem_cons_of_mem _ (ih e)

theorem mem_of_lowestSlot {us : List SUnit} {u : SUnit} (h : lowestSlot us = some u) : u ∈ us := by
  induction us generalizing u with
  | nil => cases h
  | cons v us ih =>
    unfold lowestSlot at h
    split at h
    · cases h; exact List.mem_cons_self
    · next w e =>
      split at h <;> cases h
      · exact List.mem_cons_self
      · exact List.mem_cons_of_mem _ (ih e)

namespace State.RegsInv
variable {s : State}

theorem runI (hs : s.RegsInv) (f : FmtI) (od oa : Opd) (aff : Aff) (useD : Bool) (imm : W64) (op : OpEnv → Nat → Nat → Nat → Nat) :
    OutHolds RegsInv (s.runI f od oa aff useD imm op) := by
  unfold State.runI
  exact hs.word _ fun _ _ _ ht hu => ht.result hu _ _ _ _ _ _ _ fun _ ht1 => ht1

theorem cmpResult (hs : s.RegsInv) {u : SUnit} (hu : u.Inv) (g : Guard) (d : BitVec 7) (a b : Source) (ordered : W64 → W64 → Option Ordering) :
    (s.cmpResult u g d a b ordered).state.RegsInv := by
  unfold State.cmpResult
  dsimp only
  split
  · exact hs
  split
  · exact hs.writeP hu _ _ _ _ (fun _ ht => ht)
  split
  · split
    · exact hs
    · exact hs.writeP hu _ _ _ _ (fun _ ht => ht)
  split
  · split
    · exact hs
    · exact hs.writeP hu _ _ _ _ (fun _ ht => ht)
  · exact hs.writeP hu _ _ _ _ (fun _ ht => ht)

theorem weaveWrite (hs : s.RegsInv) (who : Who) (rm : Rm) (sat : Bool) (l : Leaf) (ws : List (Nat × W32)) : (s.weaveWrite who rm sat l ws).RegsInv := by
  unfold State.weaveWrite
  extract_lets w frame s0 placed blocks s1
  have h0 : s0.RegsInv := by
    unfold s0
    split
    · exact hs
    · exact hs.flushRange _ _
  have h1 : s1.RegsInv := by
    refine h0.foldl _ (fun t b ht => ?_) blocks
    dsimp only
    split
    · exact ht
    · split
      · exact ht.writeHome _ _ _
      · exact (ht.writeHome _ _ _).writeHome _ _ _
  split
  · exact h1
  · exact h1.clearLines _

theorem checkGlobal (hs : s.RegsInv) (w : Who) (ctx : Nat) (need : Need) (n align : Nat) (line : Bool) (va : Nat) :
    (s.checkGlobal w ctx need n align line va).2.RegsInv := by
  unfold State.checkGlobal
  dsimp only
  split
  · split
    · exact hs
    split
    · exact hs
    split
    · next e1 => split <;> exact (hs.translate _ _ _ _).of_pair e1
    · next e1 => exact (hs.translate _ _ _ _).of_pair e1
    · next e1 => exact (hs.translate _ _ _ _).of_pair e1
    · next e1 => exact (hs.translate _ _ _ _).of_pair e1
  split
  · exact hs
  split
  · exact hs
  split
  · next e1 => split <;> exact (hs.translate _ _ _ _).of_pair e1
  · next e1 => exact (hs.translate _ _ _ _).of_pair e1
  · next e1 => exact (hs.translate _ _ _ _).of_pair e1
  · next e1 => exact (hs.translate _ _ _ _).of_pair e1

theorem checkItems (hs : s.RegsInv) (w : Who) (ctx : Nat) (need : Need) (n align : Nat) (line : Bool) (l : List (Nat × Nat)) :
    (s.checkItems w ctx need n align line l).2.RegsInv := by
  induction l generalizing s w ctx need n align line with
  | nil => exact hs
  | cons x xs ih =>
    rw [State.checkItems]
    split
    · next t e =>
        have ht : t.RegsInv := (hs.checkGlobal _ _ _ _ _ _ _).of_pair e
        split
        · next e1 => exact (ih ht _ _ _ _ _ _).of_pair e1
        · next e1 => exact (ih ht _ _ _ _ _ _).of_pair e1
    · next e => exact (hs.checkGlobal _ _ _ _ _ _ _).of_pair e

theorem discardRegion (hs : s.RegsInv) (u : SUnit) (r : Region) : (s.discardRegion u r).RegsInv :=
  keep (hs.updUnit u.id (fun w => w.discard r) fun _ hw => ⟨Kv.wf_keep (fun k => decide (k < r.n)) hw.v, hw.p, hw.k, hw.x⟩)

theorem absentRes (hs : s.RegsInv) (i : Issue) (u : SUnit) (need : Need) (va : Nat) : (s.absentRes i u need va).state.RegsInv := by
  unfold State.absentRes
  split
  · exact hs.markUnit _ _
  rename_i t e
  have ht : t.RegsInv := (hs.pageRequest _ _ _ _).get e
  split
  · exact (ht.discardRegion _ _).markUnit _ _
  · exact ht

theorem chkRes (hs : s.RegsInv) (i : Issue) (u : SUnit) (need : Need) (l : Chk) : (s.chkRes i u need l).state.RegsInv := by
  unfold State.chkRes
  split
  · exact hs
  · exact hs.absentRes _ _ _ _
  · exact hs.markUnit _ _
  · exact hs

theorem askHost (hs : s.RegsInv) (u : SUnit) (n : Nat) (ps : List (Nat × Nat × Nat × Leaf)) : OptHolds RegsInv (s.askHost u n ps) := by
  unfold State.askHost
  dsimp only
  split
  · trivial
  · exact (foldl _ (fun _ _ ht => ht.fresh.keep) _ hs).markUnit _ _

theorem forgetHost (hs : s.RegsInv) (u : SUnit) : (s.forgetHost u).RegsInv := hs.keep

theorem releaseWindow (hs : s.RegsInv) (gid : Option Nat) (w : Nat) : (s.releaseWindow gid w).RegsInv := by
  unfold State.releaseWindow
  split
  · exact hs
  split
  · exact hs
  · exact hs.updGroup _ _

theorem recoverUnit (hs : s.RegsInv) (uid n : Nat) : (s.recoverUnit uid n).RegsInv := by
  unfold State.recoverUnit
  split
  · exact hs
  next u hu =>
  have hr := (hs.unit hu).recover s n
  dsimp only
  split
  · exact (hs.putUnit hr.keep).releaseWindow _ _
  · exact hs.putUnit hr

theorem writeMixed (hs : s.RegsInv) (g : Group) (w core : Nat) (sibs : List SUnit) (l : List Nat) : (s.writeMixed g w core sibs l).RegsInv := by
  induction l generalizing s g w core sibs with
  | nil => exact hs
  | cons x xs ih =>
    rw [State.writeMixed]
    split
    · exact ih hs _ _ _ _
    · exact ih ((hs.setRow _ _).updGroup _ _) _ _ _ _

theorem fuse (hs : s.RegsInv) {sibs : List SUnit} (hsibs : ∀ u ∈ sibs, u.Inv) (at_ : W64) (n : Nat) : (s.fuse sibs at_ n).RegsInv := by
  unfold State.fuse
  split
  · next keep base hkeep hbase =>
    have hk : keep.Inv := hsibs _ (mem_of_lowestSlot hkeep)
    have hb : base.Inv := hsibs _ (mem_of_lowestUnit hbase)
    split
    · exact hs
    dsimp only
    split
    · exact hs.takeTrap hk.keep _ _ _ _ _
    refine ((putUnit (State.RegsInv.keep (foldl _ (fun _ _ ht => (ht.retarget _ _).removeUnit _) _ ?_)) (hk.fuseUnits hb sibs n _).keep).recoverUnit _ _).settleDuties
    split
    · exact (hs.updGroup _ _).writeMixed _ _ _ _ _
    · exact ((hs.updGroup _ _).writeMixed _ _ _ _ _).draw
  · exact hs

theorem settleSplit (hs : s.RegsInv) (split : Nat) : (s.settleSplit split).RegsInv := by
  unfold State.settleSplit
  split
  · exact hs
  next x xs e =>
  split
  · exact hs
  split
  · exact hs.fuse (fun u hu => hs u (List.mem_of_mem_filter (e ▸ hu : u ∈ s.siblings _))) _ _
  · exact hs

theorem lendSlot (hs : s.RegsInv) (x : SUnit) : (s.lendSlot x).RegsInv := by
  unfold State.lendSlot
  split
  · exact hs
  dsimp only
  split
  · exact hs
  · exact (hs.markUnit _ _).markUnit _ _

theorem afterSide (hs : s.RegsInv) (x : SUnit) : (s.afterSide x).RegsInv := (foldl _ (fun _ _ ht => ht.settleSplit _) _ hs).lendSlot _

theorem rejoin (hs : s.RegsInv) (u : SUnit) : (s.rejoin u).RegsInv := by
  unfold State.rejoin
  split
  · exact hs
  dsimp only
  split
  · exact hs
  · exact ((hs.retarget _ _).removeUnit _).markUnit _ _

theorem exec_join (hs : s.RegsInv) (f : FmtB) : OutHolds RegsInv (execJoin f s) := by
  unfold execJoin
  refine hs.closingWord _ fun _ _ _ ht hu => ?_
  dsimp only
  split
  · exact (ht.markUnit _ _).rejoin _
  split
  · exact (ht.markUnit _ _).recoverUnit _ _
  · exact (ht.markUnit _ _).afterSide _

theorem cutSpan (hs : s.RegsInv) {u : SUnit} (hu : u.Inv) (t k : Nat) : (s.cutSpan u t k).1.RegsInv := (hs.addPiece hu fun _ hw => hw.keep).markUnit _ _

theorem strandSplit (hs : s.RegsInv) {u : SUnit} (hu : u.Inv) (stay : BitVec 64) (sides : List (BitVec 64)) : (s.strandSplit u stay sides).1.RegsInv := by
  have hsides : ∀ ms : List (BitVec 64), ∀ v ∈ ms.map fun m => { u.closeClause with mask := m }, v.Inv := by
    intro ms v hv
    obtain ⟨m, -, rfl⟩ := List.mem_map.mp hv
    exact hu.keep
  unfold State.strandSplit
  dsimp only
  split
  · exact hs.split _ hu.keep (hsides _)
  split
  · exact hs
  · exact hs.split _ hu.keep (hsides _)

theorem condTransfer (hs : s.RegsInv) (i : Issue) {u : SUnit} (hu : u.Inv) (cond : PReg) (take : State → Nat → State) (htake : ∀ t b, t.RegsInv → (take t b).RegsInv) :
    (s.condTransfer i u cond take).state.RegsInv := by
  unfold State.condTransfer
  dsimp only
  split
  · split
    · exact hs
    split
    · exact htake _ _ hs
    split
    · exact hs
    · exact (foldl _ (fun _ _ ht => htake _ _ ht) _ (hs.strandSplit hu _ _)).markUnit _ _
  split
  · exact htake _ _ hs
  · exact hs
  · exact hs
  · split
    · exact hs
    · exact (htake _ _ (hs.cutSpan hu _ _)).markUnit _ _
  split
  · exact hs
  · exact (htake _ _ (hs.cutSpan hu _ _)).markUnit _ _

theorem exec_bra (hs : s.RegsInv) (f : FmtB) : OutHolds RegsInv (execBra f s) :=
  hs.word _ (fun _ _ _ ht hu => ht.condTransfer _ hu _ _ (fun _ _ ht1 => ht1.markUnit _ _))

theorem exec_brp (hs : s.RegsInv) (f : FmtB) : OutHolds RegsInv (execBrp f s) := by
  unfold execBrp
  refine hs.word _ fun _ _ _ ht hu => ?_
  dsimp only
  split
  · exact ht.markUnit _ _
  · exact ht

theorem exec_call (hs : s.RegsInv) (f : FmtB) : OutHolds RegsInv (execCall f s) := by
  unfold execCall
  refine hs.closingWord _ fun _ _ _ ht hu => ?_
  dsimp only
  split
  · exact ht
  split
  · exact ht
  split
  · exact ht
  · exact ht.condTransfer _ hu _ _ (fun _ _ ht1 => ht1.markUnit _ _)

theorem indirect (hs : s.RegsInv) (i : Issue) {u : SUnit} (hu : u.Inv) (cond : PReg) (r : Nat) {go : SUnit → W64 → SUnit} (hgo : ∀ x a, x.Inv → (go x a).Inv) :
    (s.indirect i u cond r go).state.RegsInv := by
  unfold State.indirect
  dsimp only
  split
  · exact hs
  · split
    · exact hs.updUnit _ _ fun _ hx => hgo _ _ hx
    split
    · exact hs
    · exact (foldl _ (fun _ _ ht => ht.updUnit _ _ fun _ hx => hgo _ _ hx) _ (hs.strandSplit hu _ _)).markUnit _ _
  split
  · exact hs
  show RegsInv _
  split
  · exact foldl _ (fun _ _ ht => ht.updUnit _ _ fun _ hx => hgo _ _ hx) _ (hs.strandSplit hu _ _)
  · exact (foldl _ (fun _ _ ht => ht.updUnit _ _ fun _ hx => hgo _ _ hx) _ (hs.strandSplit hu _ _)).markUnit _ _

theorem exec_calli (hs : s.RegsInv) (f : FmtB) : OutHolds RegsInv (execCalli f s) := by
  unfold execCalli
  refine hs.closingWord _ fun _ _ _ ht hu => ?_
  dsimp only
  split
  · exact ht
  split
  · exact ht
  split
  · exact ht
  · exact ht.indirect _ hu _ _ fun _ _ hx => hx.keep

theorem exec_jmpi (hs : s.RegsInv) (f : FmtB) : OutHolds RegsInv (execJmpi f s) := by
  unfold execJmpi
  refine hs.word _ fun _ _ _ ht hu => ?_
  dsimp only
  split
  · exact ht.indirect _ hu _ _ fun _ _ hx => hx.keep
  split
  · exact ht
  split
  · exact ht
  · exact ht.condTransfer _ hu _ _ (fun _ _ ht1 => ht1.markUnit _ _)

theorem retireItems (hs : s.RegsInv) (u : SUnit) (items : List Nat) : (s.retireItems u items).RegsInv := by
  unfold State.retireItems
  dsimp only
  split
  · exact (hs.publish _ _).updGroup _ _
  · exact (hs.publish _ _).updLaunch _ _

theorem exitUnit (hs : s.RegsInv) (id : Nat) : (s.exitUnit id).RegsInv := by
  unfold State.exitUnit
  split
  · exact hs
  dsimp only
  split
  · exact ((hs.retireItems _ _).removeUnit _).checkDrained _
  refine afterSide ?_ _
  split
  · exact ((hs.retireItems _ _).removeUnit _).releaseWindow _ _
  · exact (hs.retireItems _ _).removeUnit _

theorem inlineReturn (hs : s.RegsInv) (id : Nat) : (s.inlineReturn id).RegsInv := by
  unfold State.inlineReturn
  split
  · exact hs
  next u hu =>
  split
  · exact hs
  extract_lets depth u1 u2
  have h2 : u2.Inv := by
    unfold u2
    split <;> exact (hs.unit hu).keep
  split
  · next e => exact (ensureRows _ (hs.putUnit h2) h2 e).1.writeLanes _ _ _ _
  · exact hs.putUnit h2.keep

theorem exec_exit (hs : s.RegsInv) (f : FmtB) : OutHolds RegsInv (execExit f s) := by
  unfold execExit
  refine hs.closingWord _ fun _ _ _ ht hu => ?_
  dsimp only
  split
  · exact ht.condTransfer _ hu _ _ (fun _ _ ht1 => ht1.exitUnit _)
  · exact ht.condTransfer _ hu _ _ (fun _ _ ht1 => (ht1.markUnit _ _).inlineReturn _)

theorem exec_ret (hs : s.RegsInv) (f : FmtB) : OutHolds RegsInv (execRet f s) := by
  unfold execRet
  refine hs.closingWord _ fun _ _ _ ht hu => ?_
  split
  · exact ht.exitUnit _
  dsimp only
  split
  · exact (ht.markUnit _ _).inlineReturn _
  split
  · split
    · split
      · exact ht.markUnit _ _
      · exact ht.faultUnit _ _ _
    · exact ht.markUnit _ _
  · exact ht.markUnit _ _

theorem exec_region (hs : s.RegsInv) (f : FmtB) : OutHolds RegsInv (execRegion f s) := hs.closingWord _ (fun _ _ _ ht hu => ht.markUnit _ _)

theorem exec_nop (hs : s.RegsInv) (f : FmtS) : OutHolds RegsInv (execNop f s) := hs.word _ (fun _ _ _ ht _ => ht)

theorem exec_yield (hs : s.RegsInv) (f : FmtS) : OutHolds RegsInv (execYield f s) := hs.word _ (fun _ _ _ ht hu => ht.markUnit _ _)

theorem exec_trap (hs : s.RegsInv) (f : FmtS) : OutHolds RegsInv (execTrap f s) := by
  unfold execTrap
  refine hs.closingWord _ fun _ _ _ ht hu => ?_
  split <;> exact ht

theorem haltQueues (hs : s.RegsInv) (c : Nat) : (s.haltQueues c).RegsInv := hs.keep

theorem suspendCtx (hs : s.RegsInv) (c : Nat) : (s.suspendCtx c).RegsInv := by
  unfold State.suspendCtx
  split
  · split
    · exact (hs.updCtx _ _).haltQueues _
    · exact hs
  · exact hs

theorem raiseEvent (hs : s.RegsInv) (c : Nat) : (s.raiseEvent c).RegsInv := by
  unfold State.raiseEvent
  split
  · exact hs.raise _
  · exact hs

theorem exec_brk (hs : s.RegsInv) (f : FmtS) : OutHolds RegsInv (execBrk f s) := by
  unfold execBrk
  refine hs.closingWord _ fun t i u ht _ => ?_
  split
  · exact ht
  refine markUnit ?_ u.id _
  split
  · split
    · exact ht
    · refine raiseEvent ?_ _
      split
      · exact (ht.updCtx _ _).suspendCtx _
      · exact ht.updCtx _ _
  · exact ht

theorem exec_deal (hs : s.RegsInv) (f : FmtB) : OutHolds RegsInv (execDeal f s) := by
  unfold execDeal
  refine hs.word _ fun _ _ _ ht hu => ?_
  split <;> exact ht

theorem exec_rdsr (hs : s.RegsInv) (f : FmtS) : OutHolds RegsInv (execRdsr f s) := by
  unfold execRdsr
  refine hs.word _ fun _ _ _ ht hu => ?_
  dsimp only
  split
  · exact ht
  split
  · exact ht
  split
  · exact ht
  split
  · exact ht.writeV hu _ _ _ (fun _ ht1 => ht1)
  · split <;> exact ht.writeV hu _ _ _ (fun _ ht1 => ht1)

theorem exec_wrsr (hs : s.RegsInv) (f : FmtS) : OutHolds RegsInv (execWrsr f s) := by
  unfold execWrsr
  refine hs.closingWord _ fun _ _ _ ht hu => ?_
  dsimp only
  split
  · exact ht
  split
  · exact ht.markUnit _ _
  · split
    · exact ht
    · exact ht.markUnit _ _
  · exact ht.markUnit _ _

theorem exec_fmode (hs : s.RegsInv) (f : FmtS) : OutHolds RegsInv (execFmode f s) := by
  unfold execFmode
  refine hs.closingWord _ fun _ _ _ ht hu => ?_
  split
  · exact ht
  · exact ht.markUnit _ _

end State.RegsInv
end Sys2Proof.Machine
end
section
/-! SUPPORT. Memory words, fences, atomics and synchronisation leave register tables canonical. -/

namespace Sys2Proof.Machine
set_option Elab.async false

namespace State.RegsInv
variable {s : State}

theorem touchHot (hs : s.RegsInv) (cluster line : Nat) : (s.touchHot cluster line).RegsInv := hs.keep

theorem dropReq (hs : s.RegsInv) (r : AtomReq) : (s.dropReq r).RegsInv := hs.keep

theorem poisonReq (hs : s.RegsInv) (r : AtomReq) : (s.poisonReq r).RegsInv := by
  unfold State.poisonReq
  extract_lets t s1 s2
  have h1 : s1.RegsInv := by
    unfold s1
    split
    · exact hs.markUnit _ _
    · exact hs
  exact ((h1.updPend _ _).entryDone _ _ _ _).dropReq _

theorem performReq (hs : s.RegsInv) (r : AtomReq) (old : List Byte) : (s.performReq r old).RegsInv := by
  unfold State.performReq
  dsimp only
  refine (entryDone ?_ _ _ _ _).dropReq _
  split
  · exact hs.touchHot _ _
  · exact (hs.touchHot _ _).writeHome _ _ _

theorem askReq (hs : s.RegsInv) (r : AtomReq) (n : Nat) : (s.askReq r n).RegsInv := by
  unfold State.askReq
  split
  · exact hs
  · exact hs.keep

theorem serveReq (hs : s.RegsInv) (r : AtomReq) : (s.serveReq r).RegsInv := by
  unfold State.serveReq
  dsimp only
  split
  · exact hs
  split
  · exact hs.performReq _ _
  · exact hs.poisonReq _
  split
  · exact (hs.poisonReq _).countLost _
  split
  · exact hs.askReq _ _
  · exact hs.performReq _ _

theorem serveReqs (hs : s.RegsInv) (l : List AtomReq) : (s.serveReqs l).RegsInv := by
  induction l generalizing s with
  | nil => exact hs
  | cons x xs ih =>
    rw [State.serveReqs]
    split
    · exact ih (hs.serveReq _)
    · exact hs.serveReq _

theorem serveLine (hs : s.RegsInv) (line : Nat) : (s.serveLine line).RegsInv := hs.serveReqs _

theorem serveLines (hs : s.RegsInv) (pas : List Nat) : (s.serveLines pas).RegsInv := by
  unfold State.serveLines
  split
  · exact hs
  · exact foldl _ (fun _ _ ht => ht.serveLine _) _ hs

theorem waitLines (hs : s.RegsInv) (u : SUnit) (lines : List Nat) : (s.waitLines u lines).RegsInv := hs.markUnit _ _

theorem evictLines (hs : s.RegsInv) (core : Nat) (pas : List Nat) : (s.evictLines core pas).RegsInv := foldl _ (fun _ _ ht => ht.evictLine _ _) _ hs

theorem lookBack (hs : s.RegsInv) (u : SUnit) (mine : Nat → Nat → Bool) (n : Nat) (ps : List (Nat × Nat × Nat × Leaf)) :
    (s.lookBack u mine n ps).2.RegsInv := by
  unfold State.lookBack
  split
  · exact hs
  split
  · exact hs.seeStores _
  split
  rename_i t e
  have ht : t.RegsInv := hs.draw.of_pair e
  split
  · exact ht.seeStores _
  dsimp only
  split
  · exact ht.seeStores _
  · exact ht

theorem exec_ld (hs : s.RegsInv) (f : FmtM) : OutHolds RegsInv (execLd f s) := by
  unfold execLd
  refine hs.word _ fun _ _ _ ht hu => ?_
  dsimp only
  split
  · exact ht
  split
  · exact ht
  split
  · exact ht
  split
  · next e1 => exact ((ht.checkItems _ _ _ _ _ _ _).of_pair e1).chkRes _ _ _ _
  rename_i t1 e1
  have ht1 : t1.RegsInv := (ht.checkItems _ _ _ _ _ _ _).of_pair e1
  split
  · exact ht1.countLost _
  split
  · exact (ht1.serveLines _).waitLines _ _
  split
  · next e3 =>
      refine (askHost ?_ _ _ _).get e3
      split
      · exact (ht1.serveLines _).evictLines _ _
      · exact ht1.serveLines _
  split
  · refine forgetHost ?_ _
    split
    · exact (ht1.serveLines _).evictLines _ _
    · exact ht1.serveLines _
  refine (lookBack ?_ _ _ _ _).deferV _ _ _ _ _ _ (fun _ _ ht2 => ht2.forgetHost _)
  split
  · exact (ht1.serveLines _).evictLines _ _
  · exact ht1.serveLines _

theorem storePlaces (hs : s.RegsInv) (u : SUnit) (t : Ty) (d : Nat) (ps : List (Nat × Nat × Nat × Leaf)) : (s.storePlaces u t d ps).RegsInv :=
  foldl _ (fun _ _ ht => ht.weaveWrite _ _ _ _ _) _ ((foldl _ (fun _ _ ht => ht.writeL1 _ _ _) _ hs).clearLines _)

theorem noteStores (hs : s.RegsInv) (u : SUnit) (sole : Bool) (n : Nat) (ps : List (Nat × Nat × Nat × Leaf)) : (s.noteStores u sole n ps).RegsInv := by
  unfold State.noteStores
  dsimp only
  split
  · split
    · exact hs.seeStores _
    · exact hs
  · split <;> exact hs.keep

theorem exec_st (hs : s.RegsInv) (f : FmtM) : OutHolds RegsInv (execSt f s) := by
  unfold execSt
  refine hs.word _ fun _ _ _ ht hu => ?_
  dsimp only
  split
  · exact ht
  split
  · next e => exact ((ht.checkItems _ _ _ _ _ _ _).of_pair e).chkRes _ _ _ _
  rename_i t1 e
  have ht1 : t1.RegsInv := (ht.checkItems _ _ _ _ _ _ _).of_pair e
  split
  · exact (ht1.serveLines _).waitLines _ _
  dsimp only [Res.state]
  split
  · exact (((ht1.serveLines _).noteStores _ _ _ _).storePlaces _ _ _ _).publish _ _
  · exact ((ht1.serveLines _).noteStores _ _ _ _).storePlaces _ _ _ _

theorem exec_lds (hs : s.RegsInv) (f : FmtM) : OutHolds RegsInv (execLds f s) := by
  unfold execLds
  refine hs.word _ fun _ _ _ ht hu => ?_
  dsimp only
  split
  · exact ht
  split
  · exact ht
  split
  · exact ht
  split
  · exact ht
  split
  · exact ht
  split
  · exact ht
  · exact ht.deferV _ _ _ _ _ _ (fun _ _ ht1 => ht1)

theorem clearPadWords (hs : s.RegsInv) (written : List Nat) : (s.clearPadWords written).RegsInv := by
  unfold State.clearPadWords
  split
  · exact hs
  · exact hs.keep

theorem dropNotes (hs : s.RegsInv) (keys : List Nat) : (s.dropNotes keys).RegsInv := hs.keep

theorem notePads (hs : s.RegsInv) (g : Group) (n : Nat) (ps : List (Nat × Nat × Nat × Nat)) : (s.notePads g n ps).RegsInv := by
  unfold State.notePads
  refine foldl _ (fun _ _ ht => ?_) _ hs
  exact ht.keep

theorem exec_sts (hs : s.RegsInv) (f : FmtM) : OutHolds RegsInv (execSts f s) := by
  unfold execSts
  refine hs.word _ fun _ _ _ ht hu => ?_
  dsimp only
  split
  · exact ht
  split
  · exact ht
  split
  · exact ht
  dsimp only [Res.state]
  split
  · exact (((foldl _ (fun _ _ ht => ht.writePad _ _ _) _ ht).clearPadWords _).notePads _ _ _).publish _ _
  · exact ((foldl _ (fun _ _ ht => ht.writePad _ _ _) _ ht).clearPadWords _).notePads _ _ _

theorem afterAtoms (hs : s.RegsInv) (u : SUnit) (k : State → Res) (hk : ∀ t, t.RegsInv → (k t).state.RegsInv) : (s.afterAtoms u k).state.RegsInv := by
  unfold State.afterAtoms
  dsimp only
  split
  · exact hk _ (hs.serveLines _)
  · exact (hs.serveLines _).waitLines _ _

theorem exec_phase (hs : s.RegsInv) (f : FmtM) : OutHolds RegsInv (execPhase f s) := by
  unfold execPhase
  refine hs.word _ fun _ _ _ ht hu => ?_
  split
  · exact ht
  split
  · exact ht.publish _ _
  refine ht.afterAtoms _ _ fun _ ht1 => ?_
  dsimp only [Res.state]
  split
  · exact ht1
  · exact ht1.publish _ _

theorem orderPads (hs : s.RegsInv) (g : Option Nat) (m : BitVec 2) : (s.orderPads g m).RegsInv := hs.keep

theorem exec_xfence (hs : s.RegsInv) (f : FmtM) : OutHolds RegsInv (execXfence f s) := by
  unfold execXfence
  refine hs.word _ fun _ _ _ ht hu => ?_
  split
  · exact ht
  · exact ht.afterAtoms _ _ (fun _ ht1 => (ht1.orderPads _ _).publish _ _)

theorem exec_pref (hs : s.RegsInv) (f : FmtM) : OutHolds RegsInv (execPref f s) := by
  unfold execPref
  refine hs.word _ fun _ _ _ ht hu => ?_
  split <;> exact ht

theorem acquireNow (hs : s.RegsInv) (u : SUnit) (pas : List Nat) : (s.acquireNow u pas).RegsInv := by
  unfold State.acquireNow
  dsimp only
  split
  · exact hs.serveLines _
  · exact (hs.serveLines _).waitLines _ _

theorem runAtom (hs : s.RegsInv) (op : AtomOp) (f : FmtM) : OutHolds RegsInv (s.runAtom op f) := by
  unfold State.runAtom
  refine hs.closingWord _ fun _ _ _ ht hu => ?_
  dsimp only
  split
  · exact ht
  split
  · exact ht
  split
  · next e => exact ((ht.checkItems _ _ _ _ _ _ _).of_pair e).chkRes _ _ _ _
  rename_i t1 e
  have ht1 : t1.RegsInv := (ht.checkItems _ _ _ _ _ _ _).of_pair e
  split
  · exact ht1.countLost _
  split
  · dsimp only [Res.state]
    split
    · refine (evictLines ?_ _ _).keep.acquireNow _ _
      split
      · exact ht1.publish _ _
      · exact ht1
    refine (evictLines ?_ _ _).keep
    split
    · exact ht1.publish _ _
    · exact ht1
  refine (evictLines ?_ _ _).deferV _ _ _ _ _ _ ?_
  · split
    · exact ht1.publish _ _
    · exact ht1
  · intro _ _ ht2
    dsimp only [Res.state]
    split
    · exact ht2.keep.acquireNow _ _
    · exact ht2.keep

theorem padAtoms (hs : s.RegsInv) (u : SUnit) (op : AtomOp) (f : FmtM) (n : Nat) (l : List (Nat × Nat × Nat × Nat)) : (s.padAtoms u op f n l).1.RegsInv := by
  induction l generalizing s u op f n with
  | nil => exact hs
  | cons x xs ih =>
    rw [State.padAtoms]
    dsimp only
    refine ih ?_ _ _ _ _
    split
    · exact hs.dropNotes _
    · exact (hs.dropNotes _).writePad _ _ _

theorem runAtoms (hs : s.RegsInv) (op : AtomOp) (f : FmtM) : OutHolds RegsInv (s.runAtoms op f) := by
  unfold State.runAtoms
  refine hs.closingWord _ fun _ _ _ ht hu => ?_
  dsimp only
  split
  · exact ht
  split
  · exact ht
  split
  · exact ht
  split
  · exact ht
  split
  · exact ht
  split
  · refine (padAtoms ?_ _ _ _ _ _).addPend _ _ _ _ _ _
    split
    · exact ht.publish _ _
    · exact ht
  refine deferV ?_ _ _ _ _ _ _ (fun _ _ ht1 => ht1.padAtoms _ _ _ _ _)
  split
  · exact ht.publish _ _
  · exact ht

theorem putBar (hs : s.RegsInv) (g : Group) (n : Nat) (b : Barrier) : (s.putBar g n b).RegsInv := by
  unfold State.putBar
  dsimp only
  split
  · exact hs.updGroup _ _
  · split <;> exact hs.updGroup _ _

theorem countBytes (hs : s.RegsInv) (gid n : Nat) (d : Int) : (s.countBytes gid n d).RegsInv := by
  unfold State.countBytes
  split
  · exact hs
  split
  · exact hs
  · exact hs.putBar _ _ _

theorem countPerformed (hs : s.RegsInv) (gid n k : Nat) : (s.countPerformed gid n k).RegsInv := by
  unfold State.countPerformed
  split
  · exact hs
  dsimp only
  split
  · exact (hs.countBytes _ _ _).countBytes _ _ _
  · exact hs.countBytes _ _ _

theorem breakBar (hs : s.RegsInv) (gid n : Nat) (code : BitVec 2) : (s.breakBar gid n code).RegsInv := hs.updGroup _ _

theorem runSyn (hs : s.RegsInv) (f : FmtX) (body : State → Issue → SUnit → Res) (hbody : ∀ t i u, t.RegsInv → u.Inv → (body t i u).state.RegsInv) :
    OutHolds RegsInv (s.runSyn f body) := by
  unfold State.runSyn
  refine hs.word _ fun _ _ _ ht hu => ?_
  split
  · exact hbody _ _ _ (ht.closeRegion _) hu.keep
  · exact ht

theorem onBarrier (hs : s.RegsInv) (u : SUnit) (f : FmtX) (needU : Bool) (body : Group → Guard → Nat → Barrier → Res)
    (hbody : ∀ a b c d, (body a b c d).state.RegsInv) :
    (s.onBarrier u f needU body).state.RegsInv := by
  unfold State.onBarrier
  dsimp only
  split
  · exact hs
  split
  · exact hs
  split
  · exact hs
  split
  · exact hs
  · exact hbody _ _ _ _

theorem exec_bari (hs : s.RegsInv) (f : FmtX) : OutHolds RegsInv (execBari f s) := by
  unfold execBari
  refine hs.runSyn _ _ (fun _ _ _ ht hu => ?_)
  refine ht.onBarrier _ _ _ _ (fun _ _ _ _ => ?_)
  dsimp only
  split
  · dsimp only [Res.state]
    exact ht
  · dsimp only [Res.state]
    exact ht.putBar _ _ _

theorem exec_bara (hs : s.RegsInv) (f : FmtX) : OutHolds RegsInv (execBara f s) := by
  unfold execBara
  refine hs.runSyn _ _ fun _ _ _ ht hu => ?_
  refine ht.onBarrier _ _ _ _ fun _ _ _ _ => ?_
  split
  · exact ht
  · exact ht.breakBar _ _ _
  · exact ht.writeV hu _ _ _ (fun _ ht1 => ht1)
  · exact ht.writeV hu _ _ _ (fun _ ht1 => (ht1.publish _ _).putBar _ _ _)

theorem exec_barw (hs : s.RegsInv) (f : FmtX) : OutHolds RegsInv (execBarw f s) := by
  unfold execBarw
  refine hs.word _ fun _ _ _ ht hu => ?_
  refine ht.onBarrier _ _ _ _ fun _ _ _ _ => ?_
  dsimp only
  split
  · exact ht
  split
  · split
    · exact ht.writeV hu _ _ _ (fun _ ht1 => ht1)
    split
    · exact ht.writeV hu _ _ _ (fun _ ht1 => ht1)
    split
    · exact ht
    · exact ht.markUnit _ _
  split
  · exact ht.writeV hu _ _ _ (fun _ ht1 => ht1)
  split
  · exact ht.writeV hu _ _ _ (fun _ ht1 => ht1)
  split
  · exact ht
  · exact ht.markUnit _ _

theorem exec_barx (hs : s.RegsInv) (f : FmtX) : OutHolds RegsInv (execBarx f s) := by
  unfold execBarx
  refine hs.runSyn _ _ fun _ _ _ ht hu => ?_
  refine ht.onBarrier _ _ _ _ fun _ _ _ _ => ?_
  split
  · exact ht
  · exact ht.countBytes _ _ _

theorem leave (hs : s.RegsInv) (i : Issue) (u : SUnit) (g : Guard) : (s.leave i u g).state.RegsInv := by
  unfold State.leave
  split
  · exact hs.exitUnit _
  refine (hs.retireItems _ _).updUnit _ _ fun x hx => ?_
  unfold SUnit.without
  split
  · exact hx.keep
  · split <;> exact hx.keep

theorem exec_barc (hs : s.RegsInv) (f : FmtX) : OutHolds RegsInv (execBarc f s) := by
  unfold execBarc
  refine hs.runSyn _ _ fun _ _ _ ht hu => ?_
  refine ht.onBarrier _ _ _ _ fun _ _ _ _ => ?_
  dsimp only
  split
  · exact ht
  split
  · exact ht
  · exact ht.breakBar _ _ _
  · exact ht.writeV hu _ _ _ (fun _ ht1 => ht1)
  split
  · exact ((ht.publish _ _).putBar _ _ _).leave _ _ _
  split
  · exact ((ht.publish _ _).putBar _ _ _).leave _ _ _
  split
  · exact (ht.publish _ _).updGroup _ _
  · exact ht.writeV hu _ _ _ (fun _ ht1 => (ht1.publish _ _).updGroup _ _)

theorem exec_waita (hs : s.RegsInv) (f : FmtX) : OutHolds RegsInv (execWaita f s) := by
  unfold execWaita
  refine hs.word _ fun _ _ _ ht hu => ?_
  dsimp only
  split
  · exact ht
  split
  · exact ht
  split
  · exact ht
  split
  · exact ht
  split
  · exact ht
  split
  · exact ht
  split
  · exact ht.writeV hu _ _ _ (fun _ ht1 => ht1)
  · exact ht.markUnit _ _

theorem exec_pipw (hs : s.RegsInv) (f : FmtX) : OutHolds RegsInv (execPipw f s) := by
  unfold execPipw
  refine hs.word _ fun _ _ _ ht hu => ?_
  dsimp only
  split
  · exact ht
  split
  · exact ht
  split
  · exact ht
  · exact ht.markUnit _ _

theorem exec_barq (hs : s.RegsInv) (f : FmtX) : OutHolds RegsInv (execBarq f s) := by
  unfold execBarq
  refine hs.word _ fun _ _ _ ht hu => ?_
  refine ht.onBarrier _ _ _ _ fun _ _ _ _ => ?_
  exact ht.deferV _ _ _ _ _ _ (fun _ _ ht1 => ht1)

theorem mkEntry (hs : s.RegsInv) (u : SUnit) (op queue engine item reg : Nat) (job : EngJob) : (s.mkEntry u op queue engine item reg job).2.RegsInv := hs.fresh

theorem enqueue (hs : s.RegsInv) (e : EngEntry) : (s.enqueue e).RegsInv := hs.keep

theorem holdPort (hs : s.RegsInv) (i : Issue) (u : SUnit) (queue : Nat) : (s.holdPort i u queue).state.RegsInv := by
  unfold State.holdPort
  split
  · exact hs
  · exact keep (hs.markUnit u.id fun u => { u with wait := .room queue 64 })

theorem enterCopy (hs : s.RegsInv) (u : SUnit) (engine item : Nat) (job : EngJob) : (s.enterCopy u engine item job).RegsInv := by
  unfold State.enterCopy
  dsimp only
  exact (((hs.addPend _ _ _ _ _ _).mkEntry _ _ _ _ _ _ _).enqueue _).markUnit _ _

theorem exec_acp (hs : s.RegsInv) (f : FmtX) : OutHolds RegsInv (execAcp f s) := by
  unfold execAcp
  refine hs.closingWord _ fun _ _ _ ht hu => ?_
  dsimp only
  split
  · exact ht
  split
  · exact ht
  split
  · exact ht
  split
  · exact ht
  · exact (ht.enterCopy _ _ _ _).holdPort _ _ _

theorem exec_aseal (hs : s.RegsInv) (f : FmtX) : OutHolds RegsInv (execAseal f s) := by
  unfold execAseal
  refine hs.closingWord _ fun _ _ _ ht hu => ?_
  split
  · exact ht
  · exact ht.fresh.markUnit _ _

theorem exec_await (hs : s.RegsInv) (f : FmtX) : OutHolds RegsInv (execAwait f s) := by
  unfold execAwait
  refine hs.word _ fun _ _ _ ht hu => ?_
  dsimp only
  split
  · exact ht
  · exact ht.markUnit _ _

theorem runCards (hs : s.RegsInv) (f : FmtX) (bxf : Bool) : OutHolds RegsInv (s.runCards f bxf) := by
  unfold State.runCards
  refine hs.closingWord _ fun _ _ _ ht hu => ?_
  dsimp only
  split
  · exact ht
  split
  · exact ht
  split
  · exact ht
  · exact (foldl _ (fun _ _ ht => ht.enterCopy _ _ _ _) _ ht).holdPort _ _ _

theorem exec_qfen (hs : s.RegsInv) (f : FmtX) : OutHolds RegsInv (execQfen f s) := by
  unfold execQfen
  refine hs.word _ fun _ _ _ ht hu => ?_
  dsimp only
  split
  · exact ht
  · exact (ht.addPend _ _ _ _ _ _).markUnit _ _

theorem exec_coll (hs : s.RegsInv) (f : FmtX) : OutHolds RegsInv (execColl f s) := by
  unfold execColl
  refine hs.closingWord _ fun _ _ _ ht hu => ?_
  dsimp only
  split
  · exact ht
  · exact (foldl _ (fun _ _ ht => (ht.mkEntry _ _ _ _ _ _ _).enqueue _) _ (ht.addPend _ _ _ _ _ _)).holdPort _ _ _

theorem exec_astat (hs : s.RegsInv) (f : FmtX) : OutHolds RegsInv (execAstat f s) := by
  unfold execAstat
  refine hs.word _ fun _ _ _ ht hu => ?_
  dsimp only
  split
  · exact ht
  · exact ht.deferV _ _ _ _ _ _ (fun _ _ ht1 => ht1)

theorem poisonLines (hs : s.RegsInv) (ls : List Nat) : (s.poisonLines ls).RegsInv := by
  unfold State.poisonLines
  dsimp only
  split
  · exact hs
  · exact hs.keep

theorem poisonPad (hs : s.RegsInv) (ws : List Nat) : (s.poisonPad ws).RegsInv := by
  unfold State.poisonPad
  split
  · exact hs
  · exact hs.keep

theorem engineAbsent (hs : s.RegsInv) (who : Who) (ctx : Nat) (need : Need) (va : Nat) : (s.engineAbsent who ctx need va).2.RegsInv := by
  unfold State.engineAbsent
  split
  · next e => exact (hs.pageRequest _ _ _ _).get e
  · exact hs

theorem enginePage (hs : s.RegsInv) (who : Who) (ctx : Nat) (need : Need) (va n : Nat) : (s.enginePage who ctx need va n).2.RegsInv := by
  unfold State.enginePage
  split
  · next e => exact (hs.leafOf _ _ _).of_pair e
  rename_i t e
  have ht : t.RegsInv := (hs.leafOf _ _ _).of_pair e
  split
  · exact ht
  split
  · exact ht
  · exact ht.engineAbsent _ _ _ _
  · exact ht
  · split <;> exact ht

theorem readPage (hs : s.RegsInv) (who : Who) (ctx : Nat) (fm : BitVec 4) (va n : Nat) : (s.readPage who ctx fm va n).2.RegsInv := by
  unfold State.readPage
  split
  · next e => split <;> exact (hs.enginePage _ _ _ _ _).of_pair e
  · next e => exact (hs.enginePage _ _ _ _ _).of_pair e
  rename_i t e
  have ht : t.RegsInv := (hs.enginePage _ _ _ _ _).of_pair e
  dsimp only
  split
  · split
    · exact ht.countLost _
    · split <;> exact ht
  split
  · exact (ht.serveLines _).countLost _
  · split <;> exact ht.serveLines _

theorem readRun (hs : s.RegsInv) (who : Who) (ctx : Nat) (fm : BitVec 4) (n : Nat) (k : Nat) (m : Nat) : (s.readRun who ctx fm n k m).2.RegsInv := by
  induction n generalizing s who ctx fm k m with
  | zero => exact hs
  | succ n ih =>
    rw [State.readRun]
    split
    · exact hs
    dsimp only
    split
    · next t e =>
        have ht : t.RegsInv := (hs.readPage _ _ _ _ _).of_pair e
        split
        · next e1 => exact (ih ht _ _ _ _ _).of_pair e1
        · next e1 => exact (ih ht _ _ _ _ _).of_pair e1
    · next e => exact (hs.readPage _ _ _ _ _).of_pair e

theorem readEngine (hs : s.RegsInv) (who : Who) (ctx : Nat) (fm : BitVec 4) (va n : Nat) : (s.readEngine who ctx fm va n).2.RegsInv := hs.readRun _ _ _ _ _ _

theorem writeEngineAt (hs : s.RegsInv) (who : Who) (pa : Nat) (bs : List PByte) : (s.writeEngineAt who pa bs).RegsInv := by
  unfold State.writeEngineAt
  dsimp only
  refine (writeHome ?_ _ _ _).poisonLines _
  split
  · split
    · exact hs
    · exact hs.flushRange _ _
  split
  · exact hs.serveLines _
  · exact (hs.serveLines _).flushRange _ _

theorem writePage (hs : s.RegsInv) (who : Who) (ctx : Nat) (fm : BitVec 4) (va : Nat) (bs : List PByte) : (s.writePage who ctx fm va bs).2.RegsInv := by
  unfold State.writePage
  split
  · next e => exact (hs.enginePage _ _ _ _ _).of_pair e
  rename_i t e
  have ht : t.RegsInv := (hs.enginePage _ _ _ _ _).of_pair e
  split
  · exact ht.writeEngineAt _ _ _
  dsimp only
  refine (weaveWrite ?_ _ _ _ _ _).poisonLines _
  split
  · exact ht
  · exact ht.serveLines _

theorem writeRun (hs : s.RegsInv) (who : Who) (ctx : Nat) (fm : BitVec 4) (n : Nat) (k : Nat) (l : List PByte) : (s.writeRun who ctx fm n k l).2.2.RegsInv := by
  induction n generalizing s who ctx fm k l with
  | zero => exact hs
  | succ n ih =>
    rw [State.writeRun]
    split
    · exact hs
    dsimp only
    split
    · next e => exact ih ((hs.writePage _ _ _ _ _).of_pair e) _ _ _ _ _
    · next e => exact (hs.writePage _ _ _ _ _).of_pair e

theorem writeEngine (hs : s.RegsInv) (who : Who) (ctx : Nat) (fm : BitVec 4) (va : Nat) (bs : List PByte) : (s.writeEngine who ctx fm va bs).2.2.RegsInv :=
  hs.writeRun _ _ _ _ _ _

theorem writePadP (hs : s.RegsInv) (core off : Nat) (bs : List PByte) : (s.writePadP core off bs).RegsInv := (hs.writePad _ _ _).poisonPad _

end State.RegsInv
end Sys2Proof.Machine
end
section
/-! SUPPORT. Copy engines and host queues leave register tables canonical. -/

namespace Sys2Proof.Machine
set_option Elab.async false

namespace State.RegsInv
variable {s : State}

theorem putCopy (hs : s.RegsInv) (c : Copy) : (s.putCopy c).RegsInv := hs.keep

theorem copyRead (hs : s.RegsInv) (c : Copy) (a n : Nat) : (s.copyRead c a n).2.RegsInv := by
  unfold State.copyRead
  split
  · exact hs
  split
  · split <;> exact hs
  · exact hs.readEngine _ _ _ _ _

theorem settlePad (hs : s.RegsInv) (e : EngEntry) (k : Nat) (bs : List PByte) : (s.settlePad e k bs).2.RegsInv := by
  unfold State.settlePad
  dsimp only
  refine foldl_snd _ (fun _ _ h => ?_) _ hs
  split
  · exact h
  split
  · exact h.draw
  · exact h.keep

theorem copyPadWrite (hs : s.RegsInv) (c : Copy) (core off : Nat) (bs : List PByte) : (s.copyPadWrite c core off bs).RegsInv := by
  unfold State.copyPadWrite
  split
  · exact (hs.settlePad _ _ _).writePadP _ _ _
  · exact hs.writePadP _ _ _

theorem coverUnits (hs : s.RegsInv) (c : Copy) (a : Nat) (bs : List PByte) : (s.coverUnits c a bs).2.RegsInv := by
  unfold State.coverUnits
  split
  · exact hs
  dsimp only
  split
  · exact hs.clearPadWords _
  · exact hs.clearLines _

theorem copyWrite (hs : s.RegsInv) (c : Copy) (a : Nat) (bs : List PByte) : (s.copyWrite c a bs).2.2.RegsInv := by
  unfold State.copyWrite
  split
  rename_i t e
  have ht : t.RegsInv := by
    refine of_triple ?_ e
    split
    · split
      · exact hs.copyPadWrite _ _ _ _
      · exact hs
    · exact hs.writeEngine _ _ _ _ _
  split
  rename_i t1 e1
  have ht1 : t1.RegsInv := (ht.coverUnits _ _ _).of_pair e1
  dsimp only
  split
  · split
    · exact ht1
    · exact ht1.countPerformed _ _ _
  · exact ht1

theorem pieceBytes (hs : s.RegsInv) (c : Copy) (p : Piece) (k n : Nat) : (s.pieceBytes c p k n).2.RegsInv := by
  unfold State.pieceBytes
  dsimp only
  split
  · next e => exact (hs.copyRead _ _ _).of_pair e
  · next e => exact (hs.copyRead _ _ _).of_pair e

theorem doPiece (hs : s.RegsInv) (c : Copy) (p : Piece) (n : Nat) : (s.doPiece c p n).2.2.RegsInv := by
  induction n generalizing s c p with
  | zero => exact hs
  | succ n ih =>
    rw [State.doPiece]
    split
    · exact hs
    split
    · dsimp only
      split
      · next e1 => exact (hs.copyRead _ _ _).of_pair e1
      · next e1 => exact ((hs.copyRead _ _ _).of_pair e1).copyWrite _ _ _
    dsimp only
    split
    · next t e =>
        have ht : t.RegsInv := (hs.pieceBytes _ _ _ _).of_pair e
        split
        · next e1 => exact ih ((ht.copyWrite _ _ _).of_triple e1) _ _
        · exact ht.copyWrite _ _ _
    rename_i t e
    have ht : t.RegsInv := (hs.pieceBytes _ _ _ _).of_pair e
    split
    · exact ht
    split
    · next e1 => exact (ht.pieceBytes _ _ _ _).of_pair e1
    rename_i t1 e1
    have ht1 : t1.RegsInv := (ht.pieceBytes _ _ _ _).of_pair e1
    split
    · next e2 => exact (ht1.copyWrite _ _ _).of_triple e2
    · exact ht1.copyWrite _ _ _

theorem doPieces (hs : s.RegsInv) (c : Copy) (l : List Piece) : (s.doPieces c l).2.2.RegsInv := by
  induction l generalizing s c with
  | nil => exact hs
  | cons x xs ih =>
    rw [State.doPieces]
    split
    · next e => exact ih ((hs.doPiece _ _ _).of_triple e) _
    · exact hs.doPiece _ _ _

theorem expandWrite (hs : s.RegsInv) (c : Copy) (n : Nat) : (s.expandWrite c n).2.2.RegsInv := by
  unfold State.expandWrite
  split
  · exact hs
  · exact hs.copyWrite _ _ _

theorem expandRest (hs : s.RegsInv) (c : Copy) (st : Stop) : (s.expandRest c st).2.2.RegsInv := hs.expandWrite _ _

theorem expandLoop (hs : s.RegsInv) (len crc : Nat) (n : Nat) (c : Copy) : (s.expandLoop len crc n c).2.2.RegsInv := by
  induction n generalizing s len crc c with
  | zero => exact hs
  | succ n ih =>
    rw [State.expandLoop]
    split
    · exact hs
    split
    · exact hs
    split
    · next e => exact (hs.copyRead _ _ _).of_pair e
    rename_i t e
    have ht : t.RegsInv := (hs.copyRead _ _ _).of_pair e
    dsimp only
    split
    · split
      · exact ht
      split
      · next e1 => exact (ht.copyRead _ _ _).of_pair e1
      rename_i t1 e1
      have ht1 : t1.RegsInv := (ht.copyRead _ _ _).of_pair e1
      split
      · next e2 => exact (ht1.expandWrite _ _).of_triple e2
      · next e2 => exact ih ((ht1.expandWrite _ _).of_triple e2) _ _ _
    split
    · exact ht
    split
    · next e1 => exact (ht.copyRead _ _ _).of_pair e1
    rename_i t1 e1
    have ht1 : t1.RegsInv := (ht.copyRead _ _ _).of_pair e1
    split
    · exact ht1
    split
    · next e2 => exact (ht1.expandWrite _ _).of_triple e2
    · next e2 => exact ih ((ht1.expandWrite _ _).of_triple e2) _ _ _

theorem endCopy (hs : s.RegsInv) (c : Copy) (status detail : Nat) (fault : Nat) : (s.endCopy c status detail fault).RegsInv := hs.putCopy _

theorem stopCopy (hs : s.RegsInv) (c : Copy) (l : Stop) : (s.stopCopy c l).RegsInv := by
  unfold State.stopCopy
  split
  · exact hs.putCopy _
  · exact hs.putCopy _
  · split <;> exact hs.endCopy _ _ _ _

theorem runCopy (hs : s.RegsInv) (c : Copy) : (s.runCopy c).RegsInv := by
  unfold State.runCopy
  extract_lets k
  split
  · split
    next h c1 s1 e =>
      have h1 : s1.RegsInv := by
        refine of_triple ?_ e
        split
        · exact hs
        · split
          · next e1 => exact (hs.copyRead _ _ _).of_pair e1
          · next e1 => exact (hs.copyRead _ _ _).of_pair e1
      split
      · exact h1.stopCopy _ _
      · exact h1.endCopy _ _ _ _
      · split
        · exact h1.endCopy _ _ _ _
        · split
          · next e2 =>
            have h2 := (h1.expandLoop _ _ _ _).of_triple e2
            split
            · next e3 => exact ((h2.expandRest _ _).of_triple e3).stopCopy _ _
            · next e3 => exact ((h2.expandRest _ _).of_triple e3).stopCopy _ _
          · next c2 s2 e2 =>
            have h2 := (h1.expandLoop _ _ _ _).of_triple e2
            have hrest : ∀ {status}, (if status = stBadstream then s2.expandRest c2 (.fail 0 0)
                else s2.expandWrite c2 c2.history.length).2.2.RegsInv := by
              intro status
              split
              · exact h2.expandRest _ _
              · exact h2.expandWrite _ _
            split
            · next e3 => exact (hrest.of_triple e3).stopCopy _ _
            · next e3 => exact (hrest.of_triple e3).endCopy _ _ _ _
  · split
    · split
      next h c1 s1 e =>
        have h1 : s1.RegsInv := by
          refine of_triple ?_ e
          split
          · exact hs
          · split
            · next e1 => exact (hs.copyRead _ _ _).of_pair e1
            · next e1 => exact (hs.copyRead _ _ _).of_pair e1
        split
        · exact h1.stopCopy _ _
        · extract_lets out
          split
          · next e2 => exact ((h1.copyWrite _ _ _).of_triple e2).stopCopy _ _
          · next e2 => exact ((h1.copyWrite _ _ _).of_triple e2).endCopy _ _ _ _
    · split
      · exact hs.endCopy _ _ _ _
      · split
        · next e => exact ((hs.doPieces _ _).of_triple e).stopCopy _ _
        · next e => exact ((hs.doPieces _ _).of_triple e).endCopy _ _ _ _

theorem startCopy (hs : s.RegsInv) (c : Copy) : (s.startCopy c).RegsInv := by
  unfold State.startCopy
  extract_lets go
  have hgo : ∀ t c, t.RegsInv → (go t c).RegsInv := by
    intro t c ht
    unfold go
    dsimp only
    split
    · exact ht.runCopy _
    · exact ht.endCopy _ _ _ _
  split
  · split
    · next e => exact ((hs.readEngine _ _ _ _ _).of_pair e).stopCopy _ _
    · next t e =>
        have ht : t.RegsInv := (hs.readEngine _ _ _ _ _).of_pair e
        dsimp only
        split
        · exact ht.endCopy _ _ _ _
        split
        · exact ht.endCopy _ _ _ _
        split
        · exact ht.endCopy _ _ _ _
        · exact hgo _ _ ht
  · exact hgo _ _ hs

theorem exec_copyPerform (hs : s.RegsInv) (cluster engine : Nat) : OutHolds RegsInv (execCopyPerform cluster engine s) := by
  unfold execCopyPerform
  split
  · exact hs
  split
  · show RegsInv _
    split
    · exact hs.runCopy _
    · exact hs.startCopy _
  split
  · exact hs
  split
  · exact hs
  · exact hs.keep.startCopy _

theorem updEntry (hs : s.RegsInv) (c q pos : Nat) (f : Entry → Entry) : (s.updEntry c q pos f).RegsInv := hs.updHq _ _ _

theorem reportEntry (hs : s.RegsInv) (c q pos : Nat) (status : Nat) (detail : W32) (progress fault extra : W64) :
    (s.reportEntry c q pos status detail progress fault extra).RegsInv :=
  hs.updEntry _ _ _ _

theorem holdEntry (hs : s.RegsInv) (c q pos : Nat) : (s.holdEntry c q pos).RegsInv := hs.updEntry _ _ _ _

theorem signalAt (hs : s.RegsInv) (die ctx : Nat) (dec : Bool) (va : Nat) : (s.signalAt die ctx dec va).2.RegsInv := hs.fwTranslate _ _ _ _ _ _

theorem decrement (hs : s.RegsInv) (pa : Nat) (dec : W64) : (s.decrement pa dec).RegsInv := ((hs.serveLine _).writeHome _ _ _).touchHot _ _

theorem fwWrite (hs : s.RegsInv) (die ctx va : Nat) (bs : List Byte) : (s.fwWrite die ctx va bs).2.RegsInv := by
  unfold State.fwWrite
  dsimp only
  split
  · next t e =>
      have ht : t.RegsInv := (hs.fwTranslate _ _ _ _ _ _).of_pair e
      split
      · dsimp only
        exact ht.writeHome _ _ _
      split
      · next e1 =>
          dsimp only
          exact (((ht.fwTranslate _ _ _ _ _ _).of_pair e1).writeHome _ _ _).writeHome _ _ _
      · exact ht.fwTranslate _ _ _ _ _ _
  · exact hs.fwTranslate _ _ _ _ _ _

theorem readSlot (hs : s.RegsInv) (q : HostQueue) : (s.readSlot q).2.RegsInv := by
  unfold State.readSlot
  split
  · next e =>
      dsimp only
      split <;> exact (hs.fwTranslate _ _ _ _ _ _).of_pair e
  · next e => exact (hs.fwTranslate _ _ _ _ _ _).of_pair e

theorem fetchSlot (hs : s.RegsInv) (q : HostQueue) : (s.fetchSlot q).RegsInv := by
  unfold State.fetchSlot
  split
  · next e => exact ((hs.readSlot _).of_pair e).updHq _ _ _
  · next e => exact ((hs.readSlot _).of_pair e).updHq _ _ _

theorem exec_packetFetch (hs : s.RegsInv) (ctx q : Nat) : OutHolds RegsInv (execPacketFetch ctx q s) := by
  unfold execPacketFetch
  split
  · exact hs
  split
  · exact hs
  split
  · exact hs.updHq _ _ _
  · exact hs.fetchSlot _

theorem exec_slotRereadTimer (hs : s.RegsInv) (ctx q : Nat) (long : Bool) : OutHolds RegsInv (execSlotRereadTimer ctx q long s) := by
  unfold execSlotRereadTimer
  split
  · exact hs
  split
  · exact hs
  · exact (hs.updHq _ _ _).fetchSlot _

theorem exec_tailWrite (hs : s.RegsInv) (ctx q : Nat) (value : BitVec 32) : OutHolds RegsInv (execTailWrite ctx q value s) := by
  unfold execTailWrite
  split
  · exact hs
  · split <;> exact hs.updHq _ _ _

theorem consume (hs : s.RegsInv) (c q : Nat) (e : Entry) : (s.consume c q e).RegsInv := by
  unfold State.consume
  split
  · exact hs.updHq _ _ _
  · exact hs

theorem scanEntry (hs : s.RegsInv) (c q pos : Nat) : (s.scanEntry c q pos).RegsInv := by
  unfold State.scanEntry
  split
  · exact hs
  split
  · exact hs
  dsimp only
  split
  · exact hs
  split
  · exact hs.reportEntry _ _ _ _ _ _ _ _
  split
  · exact hs
  split
  · exact (hs.consume _ _ _).reportEntry _ _ _ _ _ _ _ _
  split
  · exact (hs.consume _ _ _).fresh.updEntry _ _ _ _
  · exact (hs.consume _ _ _).updEntry _ _ _ _

theorem exec_boardScan (hs : s.RegsInv) (ctx q : Nat) : OutHolds RegsInv (execBoardScan ctx q s) := by
  unfold execBoardScan
  split
  · exact hs
  split
  · exact hs
  · exact foldl _ (fun _ _ ht => ht.scanEntry _ _ _) _ hs

theorem exec_packetComplete (hs : s.RegsInv) (ctx q pos : Nat) : OutHolds RegsInv (execPacketComplete ctx q pos s) := by
  unfold execPacketComplete
  split
  · exact hs
  split
  · exact hs
  split
  · exact hs
  dsimp only
  split
  · next t e3 =>
      have ht : t.RegsInv := (hs.fwWrite _ _ _ _).of_pair e3
      show RegsInv _
      split
      · refine (updHq ?_ _ _ _).raise _
        split
        · exact ht.out _
        · exact ht
      refine updHq ?_ _ _ _
      split
      · exact ht.out _
      · exact ht
  · next t e3 =>
      have ht : t.RegsInv := (hs.fwWrite _ _ _ _).of_pair e3
      show RegsInv _
      split
      · exact (ht.updHq _ _ _).raise _
      · exact ht.updHq _ _ _
  · next e3 => exact (hs.fwWrite _ _ _ _).of_pair e3

theorem startPacket (hs : s.RegsInv) (type : Nat) (act : State → HostQueue → Entry → State) (hact : ∀ t b c, t.RegsInv → (act t b c).RegsInv) :
    OutHolds RegsInv (s.startPacket type act) := by
  unfold State.startPacket
  split
  · exact hs
  split
  · exact hact _ _ _ hs
  · exact hs

theorem exec_nopPacket (hs : s.RegsInv) : OutHolds RegsInv (execNopPacket s) := hs.startPacket _ _ (fun _ _ _ ht => ht.reportEntry _ _ _ _ _ _ _ _)

theorem failEntry (hs : s.RegsInv) (q : HostQueue) (e : Entry) (cause : W32) (va progress : Nat) : (s.failEntry q e cause va progress).RegsInv :=
  hs.reportEntry _ _ _ _ _ _ _ _

theorem exec_signalPacket (hs : s.RegsInv) : OutHolds RegsInv (execSignalPacket s) := by
  unfold execSignalPacket
  refine hs.startPacket _ _ fun _ _ _ ht => ?_
  dsimp only
  split
  · exact ht.reportEntry _ _ _ _ _ _ _ _
  split
  · next e => exact (((ht.signalAt _ _ _ _).of_pair e).decrement _ _).reportEntry _ _ _ _ _ _ _ _
  · next e => exact ((ht.signalAt _ _ _ _).of_pair e).failEntry _ _ _ _ _
  · next e => exact ((ht.signalAt _ _ _ _).of_pair e).holdEntry _ _ _

theorem exec_markerPacket (hs : s.RegsInv) : OutHolds RegsInv (execMarkerPacket s) := by
  unfold execMarkerPacket
  refine hs.startPacket _ _ fun t _ _ ht => ?_
  extract_lets t1
  have h1 : t1.RegsInv := by
    unfold t1
    split
    · exact (ht.updHq _ _ _).updEntry _ _ _ _
    · exact ht
  split
  · next e => exact ((h1.fwWrite _ _ _ _).of_pair e).reportEntry _ _ _ _ _ _ _ _
  · next e => exact ((h1.fwWrite _ _ _ _).of_pair e).failEntry _ _ _ _ _
  · next e => exact ((h1.fwWrite _ _ _ _).of_pair e).holdEntry _ _ _

theorem readSignals (hs : s.RegsInv) (die ctx : Nat) (l : List Nat) : (s.readSignals die ctx l).2.RegsInv := by
  induction l generalizing s die ctx with
  | nil => exact hs
  | cons x xs ih =>
    rw [State.readSignals]
    split
    · next t e =>
        have ht : t.RegsInv := (hs.signalAt _ _ _ _).of_pair e
        dsimp only
        split
        · next e1 => exact (ih (ht.serveLine _) _ _).of_pair e1
        · exact ih (ht.serveLine _) _ _
    · next e => exact (hs.signalAt _ _ _ _).of_pair e
    · next e => exact (hs.signalAt _ _ _ _).of_pair e

theorem evalBarrier (hs : s.RegsInv) (q : HostQueue) (e : Entry) : (s.evalBarrier q e).RegsInv := by
  unfold State.evalBarrier
  split
  · next t e1 =>
      have ht : t.RegsInv := (hs.readSignals _ _ _).of_pair e1
      dsimp only
      split
      · exact ht.reportEntry _ _ _ _ _ _ _ _
      split
      · exact ht.reportEntry _ _ _ _ _ _ _ _
      · exact ht.updEntry _ _ _ _
  · next e1 => exact ((hs.readSignals _ _ _).of_pair e1).failEntry _ _ _ _ _
  · next e1 => exact ((hs.readSignals _ _ _).of_pair e1).holdEntry _ _ _

theorem exec_barrierPacket (hs : s.RegsInv) : OutHolds RegsInv (execBarrierPacket s) := by
  unfold execBarrierPacket
  refine hs.startPacket _ _ fun _ _ _ ht => ?_
  dsimp only
  split
  · exact ht.reportEntry _ _ _ _ _ _ _ _
  split
  · exact ht.reportEntry _ _ _ _ _ _ _ _
  · exact ht.evalBarrier _ _

theorem watchEval (hs : s.RegsInv) (ctx q pos : Nat) : (s.watchEval ctx q pos).RegsInv := by
  unfold State.watchEval
  split
  · split
    · exact hs.evalBarrier _ _
    · exact hs
  · exact hs

theorem creelPacket (hs : s.RegsInv) (q : HostQueue) (e : Entry) (sealing : Bool) (go : State → List Nat → State) (hgo : ∀ t b, t.RegsInv → (go t b).RegsInv) :
    (s.creelPacket q e sealing go).RegsInv := by
  unfold State.creelPacket
  split
  · exact hs.reportEntry _ _ _ _ _ _ _ _
  split
  · exact hs.reportEntry _ _ _ _ _ _ _ _
  dsimp only
  split
  · split
    · exact hs.reportEntry _ _ _ _ _ _ _ _
    · exact hgo _ _ hs
  split
  · exact hs.reportEntry _ _ _ _ _ _ _ _
  · exact hgo _ _ hs

theorem exec_creelBegin (hs : s.RegsInv) : OutHolds RegsInv (execCreelBegin s) := by
  unfold execCreelBegin
  refine hs.startPacket _ _ fun _ _ _ ht => ?_
  dsimp only
  split
  · exact ht
  split
  · exact ht.reportEntry _ _ _ _ _ _ _ _
  · exact ht.creelPacket _ _ _ _ (fun _ _ ht1 => ht1.keep.reportEntry _ _ _ _ _ _ _ _)

theorem sealNow (hs : s.RegsInv) (q : HostQueue) (e : Entry) : (s.sealNow q e).RegsInv := by
  unfold State.sealNow
  refine hs.creelPacket _ _ _ _ fun _ _ ht => ?_
  exact (ht.flushRange (e.field 32 8) (e.field 40 8)).keep.reportEntry _ _ _ _ _ _ _ _

theorem exec_creelSeal (hs : s.RegsInv) : OutHolds RegsInv (execCreelSeal s) := by
  unfold execCreelSeal
  split
  · exact hs.sealNow _ _
  refine hs.startPacket _ _ fun _ _ _ ht => ?_
  split
  · exact ht
  · exact ht.creelPacket _ _ _ _ (fun _ _ ht1 => ht1.updEntry _ _ _ _)

theorem exec_copyPacket (hs : s.RegsInv) : OutHolds RegsInv (execCopyPacket s) := by
  unfold execCopyPacket
  refine hs.startPacket _ _ fun _ _ _ ht => ?_
  split
  · exact ht.reportEntry _ _ _ _ _ _ _ _
  split
  · exact ht.reportEntry _ _ _ _ _ _ _ _
  · exact ht.keep.updEntry _ _ _ _

theorem dropCopy (hs : s.RegsInv) (id : Nat) : (s.dropCopy id).RegsInv := hs.keep

theorem endPacketCopy (hs : s.RegsInv) (c : Copy) (en : CopyEnd) (ctx q pos : Nat) : (s.endPacketCopy c en ctx q pos).RegsInv := by
  unfold State.endPacketCopy
  split
  · dsimp only
    split
    · exact (hs.dropCopy _).reportEntry _ _ _ _ _ _ _ _
    split
    · exact (hs.dropCopy _).reportEntry _ _ _ _ _ _ _ _
    split
    · exact (hs.dropCopy _).reportEntry _ _ _ _ _ _ _ _
    split
    · next e3 => exact ((((hs.signalAt _ _ _ _).of_pair e3).decrement _ _).dropCopy _).reportEntry _ _ _ _ _ _ _ _
    · next e3 => exact (((hs.signalAt _ _ _ _).of_pair e3).dropCopy _).failEntry _ _ _ _ _
    · next e3 => exact ((hs.signalAt _ _ _ _).of_pair e3).putCopy _
  · exact hs.dropCopy _

theorem writeCopyWord (hs : s.RegsInv) (c : Copy) (value : Nat → Nat) : (s.writeCopyWord c value).RegsInv := by
  unfold State.writeCopyWord
  split
  · exact hs
  split
  · exact hs.copyPadWrite _ _ _ _
  · exact hs

theorem endEntryCopy (hs : s.RegsInv) (c : Copy) (en : CopyEnd) (e : EngEntry) : (s.endEntryCopy c en e).RegsInv := by
  unfold State.endEntryCopy
  extract_lets status record last isCard cancelled
  have hlast : ∀ t value, t.RegsInv → (last t value).RegsInv := by
    intro t value ht
    unfold last
    extract_lets s1 s2
    have h1 : s1.RegsInv := ht.writeCopyWord _ _
    refine entryDone (dropCopy ?_ _) _ _ _ _
    unfold s2
    split
    · split
      · exact h1.breakBar _ _ _
      · exact h1
    · exact h1
  split
  · split
    · next e1 => exact hlast _ _ ((hs.writeEngine _ _ _ _ _).of_triple e1)
    · next e1 =>
      have h1 := (hs.writeEngine _ _ _ _ _).of_triple e1
      split
      · exact hlast _ _ h1
      · exact h1.putCopy _
    · next e1 =>
      have h1 := (hs.writeEngine _ _ _ _ _).of_triple e1
      split
      · exact hlast _ _ h1
      · split <;> exact h1.putCopy _
    · next e1 => exact hlast _ _ ((hs.writeEngine _ _ _ _ _).of_triple e1)
  · exact hlast _ _ hs

theorem exec_copyEnd (hs : s.RegsInv) (id : Nat) : OutHolds RegsInv (execCopyEnd id s) := by
  unfold execCopyEnd
  split
  · exact hs
  split
  · exact hs
  split
  · exact hs
  split
  · exact hs.endPacketCopy _ _ _ _ _
  · exact hs.endEntryCopy _ _ _

theorem updPort (hs : s.RegsInv) (p : Nat) (f : Port → Port) : (s.updPort p f).RegsInv := hs.keep

end State.RegsInv
end Sys2Proof.Machine
end
section
/-! SUPPORT. Ports and collective jobs leave register tables canonical. -/

namespace Sys2Proof.Machine
set_option Elab.async false

namespace State.RegsInv
variable {s : State}

theorem portTo (hs : s.RegsInv) (p : Nat) (st : PortState) (f : Port → Port) : (s.portTo p st f).RegsInv := by
  unfold State.portTo
  dsimp only
  split
  · exact (hs.updPort _ _).raise _
  · exact hs.updPort _ _

theorem sendControl (hs : s.RegsInv) (p type vc : Nat) : (s.sendControl p type vc).RegsInv := hs.out _

theorem sendData (hs : s.RegsInv) (p vc : Nat) (tag : BitVec 26) (payload : List Byte) : (s.sendData p vc tag payload).RegsInv := by
  unfold State.sendData
  dsimp only
  split
  · exact (hs.updPort _ _).out _
  · exact hs.updPort _ _

theorem ackFlits (hs : s.RegsInv) (p : Nat) (ack : BitVec 12) : (s.ackFlits p ack).RegsInv := hs.updPort _ _

theorem resendFlits (hs : s.RegsInv) (p : Nat) : (s.resendFlits p).RegsInv := foldl _ (fun _ _ ht => ht.out _) _ (hs.updPort _ _)

theorem replayFlits (hs : s.RegsInv) (p : Nat) : (s.replayFlits p).RegsInv := (hs.updPort _ _).resendFlits _

theorem linkJobs (hs : s.RegsInv) (p : Nat) : (s.linkJobs p).RegsInv := hs.keep

theorem beginTraining (hs : s.RegsInv) (p : Nat) : (s.beginTraining p).RegsInv := hs.portTo _ _ _

theorem stopPort (hs : s.RegsInv) (p : Nat) (st : PortState) : (s.stopPort p st).RegsInv := (hs.portTo _ _ _).linkJobs _

theorem exec_portEnable (hs : s.RegsInv) (p : Nat) (on : Bool) : OutHolds RegsInv (execPortEnable p on s) := by
  unfold execPortEnable
  split
  · exact hs
  dsimp only
  split
  · show RegsInv _
    split
    · exact hs.updPort _ _
    · exact (hs.stopPort _ _).updPort _ _
  split
  · exact hs.updPort _ _
  show RegsInv _
  split
  · exact (((hs.updPort _ _).updPort _ _).beginTraining _).stopPort _ _
  · exact ((hs.updPort _ _).updPort _ _).beginTraining _

theorem exec_portIsolate (hs : s.RegsInv) (p : Nat) (on : Bool) : OutHolds RegsInv (execPortIsolate p on s) := by
  unfold execPortIsolate
  split
  · exact hs
  dsimp only
  split
  · show RegsInv _
    split
    · exact (hs.updPort _ _).stopPort _ _
    · exact hs.updPort _ _
  show RegsInv _
  split
  · exact (hs.updPort _ _).beginTraining _
  · exact hs.updPort _ _

theorem exec_retrain (hs : s.RegsInv) (p : Nat) : OutHolds RegsInv (execRetrain p s) := by
  unfold execRetrain
  show RegsInv _
  split
  · exact (hs.beginTraining _).linkJobs _
  · exact hs

theorem failTraining (hs : s.RegsInv) (p : Nat) : (s.failTraining p).RegsInv := by
  unfold State.failTraining
  split
  · exact hs.stopPort _ _
  · exact hs.updPort _ _

theorem exec_portTrainDone (hs : s.RegsInv) (p lanes : Nat) (peerId : BitVec 56) (peerPort : BitVec 4) :
    OutHolds RegsInv (execPortTrainDone p lanes peerId peerPort s) := by
  unfold execPortTrainDone
  split
  · exact hs
  split
  · exact hs.failTraining _
  · exact (hs.portTo _ _ _).replayFlits _

theorem exec_portTrainTimeout (hs : s.RegsInv) (p : Nat) : OutHolds RegsInv (execPortTrainTimeout p s) := by
  unfold execPortTrainTimeout
  show RegsInv _
  split
  · exact hs.failTraining _
  · exact hs

theorem nak (hs : s.RegsInv) (p : Nat) (ack : BitVec 12) : (s.nak p ack).RegsInv := by
  unfold State.nak
  split
  · exact hs
  dsimp only
  split
  · exact (((hs.ackFlits _ _).updPort _ _).beginTraining _).linkJobs _
  · exact ((hs.ackFlits _ _).updPort _ _).replayFlits _

theorem pauseTx (hs : s.RegsInv) (p vc : Nat) (on : Bool) : (s.pauseTx p vc on).RegsInv := by
  unfold State.pauseTx
  split
  · exact hs
  split
  · exact hs.updPort _ _
  · exact (hs.updPort _ _).resendFlits _

theorem flitIn (hs : s.RegsInv) (p : Nat) (b : List Byte) : (s.flitIn p b).RegsInv := by
  unfold State.flitIn
  dsimp only
  split
  · exact hs
  split
  · exact hs.sendControl _ _ _
  split
  · exact hs.pauseTx _ _ _
  split
  · exact hs.pauseTx _ _ _
  split
  · exact hs.nak _ _
  split
  · exact hs.ackFlits _ _
  split
  · split
    · exact (((hs.ackFlits _ _).updPort _ _).updPort _ _).sendControl _ _ _
    · exact (hs.ackFlits _ _).updPort _ _
  split
  · exact hs.ackFlits _ _
  · exact (hs.ackFlits _ _).sendControl _ _ _

theorem takeFlit (hs : s.RegsInv) (p vc : Nat) : SomeHolds RegsInv (s.takeFlit p vc) := by
  unfold State.takeFlit
  dsimp only
  split
  · trivial
  split
  · trivial
  show RegsInv _
  split
  · exact ((hs.updPort _ _).updPort _ _).sendControl _ _ _
  · exact hs.updPort _ _

theorem putJob (hs : s.RegsInv) (j : CollJob) : (s.putJob j).RegsInv := hs.keep

theorem stopJob (hs : s.RegsInv) (j : CollJob) (status va : Nat) : (s.stopJob j status va).RegsInv := hs.putJob _

theorem jobStop (hs : s.RegsInv) (j : CollJob) (l : Stop) : (s.jobStop j l).RegsInv := by
  unfold State.jobStop
  split
  · exact hs.stopJob _ _ _
  · exact hs
  · exact hs.stopJob _ _ _

theorem collSource (hs : s.RegsInv) (j : CollJob) (first n : Nat) : (s.collSource j first n).2.RegsInv := by
  unfold State.collSource
  dsimp only
  split
  · next e => exact ((hs.readEngine _ _ _ _ _).of_pair e).jobStop _ _
  rename_i t e
  have ht : t.RegsInv := (hs.readEngine _ _ _ _ _).of_pair e
  split
  · exact ht.stopJob _ _ _
  · exact ht

theorem collDest (hs : s.RegsInv) (j : CollJob) (first : Nat) (xs : List Nat) : (s.collDest j first xs).2.RegsInv := by
  unfold State.collDest
  dsimp only
  split
  · next e => exact (hs.writeEngine _ _ _ _ _).of_triple e
  · exact hs
  · next e => exact ((hs.writeEngine _ _ _ _ _).of_triple e).jobStop _ _

theorem beginGather (hs : s.RegsInv) (j : CollJob) (own : List Nat) : (s.beginGather j own).RegsInv := by
  unfold State.beginGather
  dsimp only
  split
  · next e => exact (hs.collDest _ _ _).of_pair e
  · next e => exact ((hs.collDest _ _ _).of_pair e).putJob _

theorem endCollStep (hs : s.RegsInv) (j : CollJob) : (s.endCollStep j).RegsInv := by
  unfold State.endCollStep
  dsimp only
  split
  · split
    · next e1 => exact (hs.collSource _ _ _).of_pair e1
    rename_i t e1
    have ht : t.RegsInv := (hs.collSource _ _ _).of_pair e1
    split
    · exact ht.putJob _
    split
    · split
      · next e3 => exact (ht.collDest _ _ _).of_pair e3
      · next e3 => exact ((ht.collDest _ _ _).of_pair e3).stopJob _ _ _
    · exact ht.beginGather _ _
  split
  · next e => exact (hs.collDest _ _ _).of_pair e
  rename_i t e
  have ht : t.RegsInv := (hs.collDest _ _ _).of_pair e
  split
  · exact ht.putJob _
  · exact ht.stopJob _ _ _

theorem beginJob (hs : s.RegsInv) (j : CollJob) : (s.beginJob j).RegsInv := by
  unfold State.beginJob
  split
  · split
    · next e1 => exact (hs.collSource _ _ _).of_pair e1
    · next e1 => exact ((hs.collSource _ _ _).of_pair e1).beginGather _ _
  split
  · next e => exact (hs.collSource _ _ _).of_pair e
  · next e => exact ((hs.collSource _ _ _).of_pair e).putJob _

theorem runJob (hs : s.RegsInv) (j : CollJob) : (s.runJob j).RegsInv := by
  unfold State.runJob
  dsimp only
  split
  · exact hs.stopJob _ _ _
  split
  · split
    · exact hs
    · exact (hs.sendData _ _ _ _).putJob _
  split
  · exact hs.beginJob _
  split
  · exact (hs.sendData _ _ _ _).putJob _
  split
  · exact (hs.updPort _ _).stopJob _ _ _
  split
  · split
    · exact hs
    rename_i t e1
    have ht : t.RegsInv := (hs.takeFlit _ _).get e1
    split
    · split
      · exact ht.stopJob _ _ _
      · exact ht
    split
    · exact ht.putJob _
    split
    · exact hs
    · exact (ht.sendData _ _ _ _).stopJob _ _ _
  split
  · split
    · exact hs
    rename_i t e
    have ht : t.RegsInv := (hs.takeFlit _ _).get e
    split
    · exact ht.putJob _
    · exact ht
  split
  · exact hs
  · exact hs.endCollStep _

theorem reportJob (hs : s.RegsInv) (j : CollJob) (status : Nat) (va : W64) : (s.reportJob j status va).2.RegsInv := by
  unfold State.reportJob
  dsimp only
  split
  · exact hs
  split
  · exact hs
  split
  · exact hs
  dsimp only
  split
  · refine writeEngine ?_ _ _ _ _ _
    split
    · exact hs.writeEngine _ _ _ _ _
    · exact hs
  dsimp only
  split
  · exact hs.writeEngine _ _ _ _ _
  · exact hs

theorem finishJob (hs : s.RegsInv) (j : CollJob) (status : Nat) (va : W64) : (s.finishJob j status va).RegsInv := by
  unfold State.finishJob
  split
  · next e => exact (hs.reportJob _ _ _).of_pair e
  · next e => exact ((hs.reportJob _ _ _).of_pair e).keep.entryDone _ _ _ _

theorem startJob (hs : s.RegsInv) (e : EngEntry) (addr : Nat) : (s.startJob e addr).RegsInv := by
  unfold State.startJob
  split
  rename_i id s0 e0
  extract_lets s1 j add
  have h1 : s1.RegsInv := (hs.fresh.of_pair e0).keep
  split
  · exact hs
  · next e1 => exact ((h1.readEngine _ _ _ _ _).of_pair e1).keep
  · next e1 => exact ((h1.readEngine _ _ _ _ _).of_pair e1).keep
  · next s2 e1 =>
      have h2 : s2.RegsInv := (h1.readEngine _ _ _ _ _).of_pair e1
      extract_lets c
      split
      · exact h2.keep
      · split <;> exact h2.keep

theorem anyJob (hs : s.RegsInv) (l : List CollJob) : OptHolds RegsInv (s.anyJob l) := by
  induction l generalizing s with
  | nil => trivial
  | cons x xs ih =>
    rw [State.anyJob]
    split
    · split
      · exact ih hs
      · exact hs
    split
    · split
      · exact ih hs
      · exact hs.finishJob _ _ _
    split
    · exact ih hs
    · exact hs.runJob _

theorem exec_collJobEnd (hs : s.RegsInv) : OutHolds RegsInv (execCollJobEnd s) := by
  unfold execCollJobEnd
  split
  · next e => exact (hs.anyJob _).get e
  split
  · exact hs
  split
  · exact hs.startJob _ _
  · exact hs

end State.RegsInv
end Sys2Proof.Machine
end
section
/-! SUPPORT. The steps of the hank engines leave register tables canonical. -/

namespace Sys2Proof.Machine
set_option Elab.async false

namespace State.RegsInv
variable {s : State}

theorem hRead_keepsRegs (who : Who) (ctx : Nat) (fm : BitVec 4) (va n : Nat) : (hRead who ctx fm va n).KeepsRegs := by
  unfold hRead
  refine HM.KeepsRegs.of_mk fun _ ht => ?_
  split
  · next e => exact (ht.readEngine _ _ _ _ _).of_pair e
  · next e => split <;> exact (ht.readEngine _ _ _ _ _).of_pair e

theorem hNat_keepsRegs (who : Who) (ctx : Nat) (fm : BitVec 4) (va n : Nat) : (hNat who ctx fm va n).KeepsRegs :=
  (hRead_keepsRegs _ _ _ _ _).bind (fun _ => HM.KeepsRegs.of_pure _)

theorem engineAtom (hs : s.RegsInv) (who : Who) (ctx va : Nat) (bs : List Byte) : (s.engineAtom who ctx va bs).2.RegsInv := by
  unfold State.engineAtom
  split
  · next e => exact (hs.enginePage _ _ _ _ _).of_pair e
  rename_i t e
  have ht : t.RegsInv := (hs.enginePage _ _ _ _ _).of_pair e
  split
  · exact ht
  · exact (ht.writeEngineAt _ _ _).touchHot _ _

theorem hankWrite (hs : s.RegsInv) (who : Who) (ctx : Nat) (fm : BitVec 4) (l : HWrite) : (s.hankWrite who ctx fm l).2.RegsInv := by
  unfold State.hankWrite
  split
  · exact hs.writeEngine _ _ _ _ _
  · exact hs.engineAtom _ _ _ _

theorem hCommit_keepsRegs (who : Who) (ctx : Nat) (fm : BitVec 4) (ws : List HWrite) : (hCommit who ctx fm ws).KeepsRegs := by
  unfold hCommit
  refine HM.KeepsRegs.of_mk fun _ ht => ?_
  dsimp only
  split
  · refine foldl_snd _ (fun _ _ h => ?_) _ ht
    split
    · exact h
    · exact h.hankWrite _ _ _ _
  · exact ht.engineAbsent _ _ _ _
  · exact ht

theorem readHank_keepsRegs (who : Who) (ctx : Nat) (fm : BitVec 4) (at_ : Nat) : (readHank who ctx fm at_).KeepsRegs := by
  unfold readHank
  dsimp only
  split
  · exact HM.KeepsRegs.throw_bind _ _
  refine (hRead_keepsRegs _ _ _ _ _).bind fun _ => ?_
  split
  · exact HM.KeepsRegs.of_pure _
  · exact HM.KeepsRegs.of_throw _

theorem readLea_keepsRegs (who : Who) (h : Hank) (n : Nat) : (readLea who h n).KeepsRegs := by
  unfold readLea
  dsimp only
  refine (hRead_keepsRegs _ _ _ _ _).bind fun _ => ?_
  refine HM.KeepsRegs.of_get fun _ _ => ?_
  split
  · exact HM.KeepsRegs.of_pure _
  · exact HM.KeepsRegs.of_throw _

theorem readChainFrom_keepsRegs (who : Who) (h : Hank) (n : Nat) (l : List Nat) (k : Nat) : (readChainFrom who h n l k).KeepsRegs := by
  induction n generalizing who h l k with
  | zero =>
    rw [readChainFrom]
    exact HM.KeepsRegs.of_throw _
  | succ n ih =>
    rw [readChainFrom]
    split
    · exact HM.KeepsRegs.of_pure _
    dsimp only
    split
    · exact HM.KeepsRegs.throw_bind _ _
    refine (hRead_keepsRegs _ _ _ _ _).bind fun _ => ?_
    split
    · exact HM.KeepsRegs.of_throw _
    · exact (ih _ _ _ _).bind (fun _ => HM.KeepsRegs.of_pure _)

theorem readChain_keepsRegs (l : Lea) (h : Hank) : (readChain l h).KeepsRegs := by
  unfold readChain
  refine (readChainFrom_keepsRegs _ _ _ _ _).bind fun _ => ?_
  split
  · exact HM.KeepsRegs.of_pure _
  · exact HM.KeepsRegs.of_throw _

theorem readPinned_keepsRegs (who : Who) (h : Hank) (l : List Nat) : (readPinned who h l).KeepsRegs := by
  induction l generalizing who h with
  | nil =>
    rw [readPinned]
    exact HM.KeepsRegs.of_pure _
  | cons x xs ih =>
    rw [readPinned]
    refine (hRead_keepsRegs _ _ _ _ _).bind fun _ => ?_
    split
    · exact HM.KeepsRegs.of_throw _
    · exact (ih _ _).bind (fun _ => HM.KeepsRegs.of_pure _)

theorem readFree_keepsRegs (l : Lea) (h : Hank) (chain : List Nat) (n : Nat) (rest : List Nat) (k : Nat) : (readFree l h chain n rest k).KeepsRegs := by
  induction n generalizing l h chain rest k with
  | zero =>
    rw [readFree]
    exact HM.KeepsRegs.of_throw _
  | succ n ih =>
    rw [readFree]
    split
    · exact HM.KeepsRegs.of_pure _
    dsimp only
    split
    · exact HM.KeepsRegs.throw_bind _ _
    · exact (hNat_keepsRegs _ _ _ _ _).bind (fun _ => (ih _ _ _ _ _).bind (fun _ => HM.KeepsRegs.of_pure _))

theorem takeBlocks_keepsRegs (l : Lea) (h : Hank) (chain : List Nat) (n : Nat) : (takeBlocks l h chain n).KeepsRegs := by
  unfold takeBlocks
  split
  · exact HM.KeepsRegs.of_pure _
  refine (readFree_keepsRegs _ _ _ _ _ _).bind fun _ => ?_
  dsimp only
  split
  · exact HM.KeepsRegs.throw_bind _ _
  · exact HM.KeepsRegs.of_pure _

theorem commitLea_keepsRegs (h : Hank) (l : Lea) (chain : List (Nat × List Elem)) (plan : List PBlock) (pinned : List Nat) :
    (commitLea h l chain plan pinned).KeepsRegs :=
  (takeBlocks_keepsRegs _ _ _ _).bind (fun _ => (hCommit_keepsRegs _ _ _ _).bind (fun _ => HM.KeepsRegs.of_modify (fun _ ht => ht.keep)))

theorem bumpSeq_keepsRegs (h : Hank) (l : Lea) : (bumpSeq h l).KeepsRegs := hCommit_keepsRegs _ _ _ _

theorem atLea_keepsRegs {α : Type} (h : Hank) (l : Lea) (m : HM α) (hm : m.KeepsRegs) : (atLea h l m).KeepsRegs := by
  unfold atLea
  refine HM.KeepsRegs.of_mk fun _ ht => ?_
  split
  · next e => exact (hm.after ht).of_pair e
  · next t1 _ e =>
      have ht1 : t1.RegsInv := (hm.after ht).of_pair e
      split
      · next e1 => exact ((bumpSeq_keepsRegs _ _).after ht1).of_pair e1
      · exact ht1
      · next e1 => exact ((bumpSeq_keepsRegs _ _).after ht1).of_pair e1
  · exact hm.after ht

theorem releasePin_keepsRegs (h : Hank) (c : Cursor) (p : Pin) : (releasePin h c p).KeepsRegs := by
  unfold releasePin
  refine (readLea_keepsRegs _ _ _).bind fun _ => ?_
  refine (readChain_keepsRegs _ _).bind fun _ => ?_
  refine HM.KeepsRegs.of_get fun _ _ => ?_
  dsimp only
  split
  · exact HM.KeepsRegs.of_pure _
  · exact hCommit_keepsRegs _ _ _ _

theorem updCursor (hs : s.RegsInv) (c : Cursor) (f : Cursor → Cursor) : (s.updCursor c f).RegsInv := hs.keep

theorem dropCursor (hs : s.RegsInv) (c : Cursor) : (s.dropCursor c).RegsInv := hs.keep

theorem releasePins (hs : s.RegsInv) (h : Hank) (c : Cursor) (st : Nat) (ps : List Pin) : (s.releasePins h c st ps).2.RegsInv := by
  induction ps generalizing s st with
  | nil => exact hs
  | cons p ps ih =>
    unfold State.releasePins
    split
    · next e => exact ih (((releasePin_keepsRegs _ _ _).after hs).of_pair e).keep _
    · next e => exact ih (((releasePin_keepsRegs _ _ _).after hs).of_pair e).keep _
    · next e => exact ((releasePin_keepsRegs _ _ _).after hs).of_pair e

theorem closeCursor (hs : s.RegsInv) (c : Cursor) (fm : BitVec 4) : (s.closeCursor c fm).2.RegsInv := by
  unfold State.closeCursor
  split
  · next t e =>
      have ht : t.RegsInv := ((readHank_keepsRegs _ _ _ _).after hs).of_pair e
      split
      · next e1 => exact ((ht.releasePins _ _ _ _).of_pair e1).dropCursor _
      · next e1 => exact (ht.releasePins _ _ _ _).of_pair e1
  · next t e =>
      have ht : t.RegsInv := ((readHank_keepsRegs _ _ _ _).after hs).of_pair e
      split
      · exact ht
      · exact ht.dropCursor _
  · next e => exact ((readHank_keepsRegs _ _ _ _).after hs).of_pair e

theorem closeGroupCursors (hs : s.RegsInv) (gid : Nat) : (s.closeGroupCursors gid).RegsInv := by
  unfold State.closeGroupCursors
  refine foldl _ (fun _ _ ht => ?_) _ hs
  split
  · next e => exact ((ht.closeCursor _ _).of_pair e).dropCursor _
  · next e => exact ((ht.closeCursor _ _).of_pair e).updCursor _ _

end State.RegsInv
end Sys2Proof.Machine
end
section
/-! SUPPORT. Launches, groups and device queues leave register tables canonical. -/

namespace Sys2Proof.Machine
set_option Elab.async false

/-- The root span of a launch (R73, R203). -/
theorem SUnit.Inv.rootUnit (l : Launch) (id core : Nat) (slot : Option Nat) : (State.rootUnit l id core slot).Inv :=
  ⟨Kv.wf_set (Kv.wf_set rfl _ _) _ _, rfl, rfl, rfl⟩

/-- The span of a continuation (R114). -/
theorem SUnit.Inv.contUnit (l : Launch) (g : Group) (c : Cont) (id slot : Nat) : (contUnit l g c id slot).Inv :=
  ⟨Kv.wf_set (Kv.wf_set rfl _ _) _ _, rfl, rfl, rfl⟩

namespace State.RegsInv
variable {s : State}

theorem treeFail (hs : s.RegsInv) (ctx : Nat) (t : W32) (status : Nat) (detail : W32) (fault : W64) : (s.treeFail ctx t status detail fault).RegsInv :=
  hs.updTree _ _ _

theorem treeDec (hs : s.RegsInv) (ctx : Nat) (t : W32) : (s.treeDec ctx t).RegsInv := by
  unfold State.treeDec
  split
  · exact hs
  split
  · split
    · exact hs.keep.reportEntry _ _ _ _ _ _ _ _
    · exact hs.updTree _ _ _
  split
  · exact hs.keep.reportEntry _ _ _ _ _ _ _ _
  · exact hs.updTree _ _ _

theorem finishLaunch (hs : s.RegsInv) (l : Launch) (status : Nat) (detail : W32) (fault : W64) : (s.finishLaunch l status detail fault).RegsInv := by
  unfold State.finishLaunch
  dsimp only
  refine treeDec ?_ _ _
  split <;> exact hs.keep

theorem placeRoot (hs : s.RegsInv) (lid core : Nat) (slot : Nat) : (s.placeRoot lid core slot).RegsInv := by
  unfold State.placeRoot
  split
  · exact hs
  next l _ =>
  have h2 : State.RegsInv { s.fresh.2 with units := s.units ++ [rootUnit l s.fresh.1 core (some slot)] } := hs.addUnit rfl (SUnit.Inv.rootUnit _ _ _ _)
  dsimp only
  split
  · split
    · exact (h2.updLaunch _ _).deal _
    · exact h2.updLaunch _ _
  · exact h2.updLaunch _ _

theorem addLaunch (hs : s.RegsInv) (ctx : Nat) (a : LaunchArgs) (tree : W32) (src : LaunchSrc) : (s.addLaunch ctx a tree src).2.RegsInv := hs.keep.updCtx _ _

theorem exec_launchPacket (hs : s.RegsInv) : OutHolds RegsInv (execLaunchPacket s) := by
  unfold execLaunchPacket
  refine hs.startPacket _ _ fun t _ _ ht => ?_
  split
  · exact ht.reportEntry _ _ _ _ _ _ _ _
  · extract_lets a id
    split
    · exact ht.reportEntry _ _ _ _ _ _ _ _
    · split
      next e => exact ((ht.addLaunch _ _ _ _).of_pair e).keep.updEntry _ _ _ _

theorem clearPlaced (hs : s.RegsInv) (g : Group) : (s.clearPlaced g).RegsInv := hs.keep

theorem seatPieces (hs : s.RegsInv) (g : Group) (l : List SUnit) : (s.seatPieces g l).RegsInv := by
  induction l generalizing s g with
  | nil => exact hs
  | cons x xs ih =>
    rw [State.seatPieces]
    exact ih (hs.markUnit _ _) _

theorem placeGroup (hs : s.RegsInv) (p : Nat) (barred : List Nat) (g : Group) : OptHolds RegsInv (s.placeGroup p barred g) := by
  unfold State.placeGroup
  split
  · trivial
  dsimp only
  split
  · trivial
  · exact (((hs.updGroup _ _).updPart _ _).clearPlaced _).seatPieces _ _

theorem placeGroups (hs : s.RegsInv) (p : Nat) (barred : List Nat) (l : List Group) : OptHolds RegsInv (s.placeGroups p barred l) := by
  induction l generalizing s p barred with
  | nil => exact hs
  | cons x xs ih =>
    rw [State.placeGroups]
    split
    · trivial
    · next e => exact ih ((hs.placeGroup _ _ _).get e) _ _

theorem ageHead (hs : s.RegsInv) (head : Option Launch) (n : Nat) : (s.ageHead head n).RegsInv := by
  unfold State.ageHead
  split
  · exact hs
  · exact hs.updLaunch _ _

theorem exec_rootSpanPlace (hs : s.RegsInv) (launch : Nat) : OutHolds RegsInv (execRootSpanPlace launch s) := by
  unfold execRootSpanPlace
  split
  · exact hs
  split
  · exact hs
  split
  · exact hs
  split
  · exact hs
  split
  · exact hs
  · exact ((hs.updPart _ _).placeRoot _ _ _).ageHead _ _

theorem exec_groupPlace (hs : s.RegsInv) (launch : Nat) : OutHolds RegsInv (execGroupPlace launch s) := by
  unfold execGroupPlace
  split
  · exact hs
  split
  · exact hs
  dsimp only
  split
  · exact hs
  split
  · exact hs
  split
  · exact hs
  · next e3 => exact (((hs.placeGroups _ _ _).get e3).updLaunch _ _).ageHead _ _

theorem dropEntries (hs : s.RegsInv) (p : EngEntry → Bool) : (s.dropEntries p).RegsInv := by
  unfold State.dropEntries
  exact foldl _ (fun _ _ ht => ht.entryDone _ _ _ _) _ hs.keep

theorem dropQueries (hs : s.RegsInv) (l : Launch) : (s.dropQueries l).RegsInv := hs.dropEntries _

theorem releaseGroup (hs : s.RegsInv) (g : Group) : (s.releaseGroup g).RegsInv := by
  unfold State.releaseGroup
  exact ((hs.closeGroupCursors g.id).dropEntries (fun e => e.queue == 8 && e.group == some g.id)).keep

theorem writeEvent (hs : s.RegsInv) (l : Launch) (gid : Nat) : (s.writeEvent l gid).RegsInv := by
  unfold State.writeEvent
  split
  · exact hs
  dsimp only
  split
  · next e => exact (((hs.fwTranslate _ _ _ _ _ _).of_pair e).writeHome _ _ _).updLaunch _ _
  · next e => exact ((hs.fwTranslate _ _ _ _ _ _).of_pair e).updLaunch _ _
  · next e => exact ((hs.fwTranslate _ _ _ _ _ _).of_pair e).updLaunch _ _

theorem checkComplete (hs : s.RegsInv) (lid : Nat) : (s.checkComplete lid).RegsInv := by
  unfold State.checkComplete
  split
  · exact hs
  split
  · split <;> exact hs.finishLaunch _ _ _ _
  · exact hs

theorem countRetired (hs : s.RegsInv) (l : Launch) (gid : Nat) : (s.countRetired l gid).RegsInv := (hs.updLaunch _ _).updTree _ _ _

theorem exec_groupRetire (hs : s.RegsInv) (launch gid : Nat) : OutHolds RegsInv (execGroupRetire launch gid s) := by
  unfold execGroupRetire
  split
  · exact hs
  extract_lets running
  split
  · exact hs
  split
  · exact (hs.writeEvent _ _).checkComplete _
  split
  · exact hs
  split
  · split
    · exact hs
    · exact ((hs.countRetired _ _).writeEvent _ _).checkComplete _
  split
  · exact hs
  split
  · exact (((hs.releaseGroup _).countRetired _ _).writeEvent _ _).checkComplete _
  · exact hs

theorem abortDone (hs : s.RegsInv) (l : Launch) : (s.abortDone l).RegsInv := by
  unfold State.abortDone
  extract_lets gs gone s1
  generalize (gs.any _ || _) = busy
  split
  · exact hs
  · split
    exact (hs.foldl _ (fun _ _ ht => ht.releaseGroup _) gs).finishLaunch _ _ _ _

theorem exec_launchAbortDone (hs : s.RegsInv) : OutHolds RegsInv (execLaunchAbortDone s) :=
  foldl _ (fun _ _ ht => ht.abortDone _) _ (foldl _ (fun _ _ ht => ht.dropQueries _) _ hs)

theorem exec_barcContinuationStart (hs : s.RegsInv) : OutHolds RegsInv (execBarcContinuationStart s) := by
  unfold execBarcContinuationStart
  extract_lets ready
  split
  · exact hs
  split
  · exact updGroup (hs.addUnit rfl (SUnit.Inv.contUnit _ _ _ _ _)) _ _
  · exact hs

theorem dqAccess (hs : s.RegsInv) (who : Who) (ctx va n : Nat) : (s.dqAccess who ctx va n).2.RegsInv := by
  unfold State.dqAccess
  split
  · next e => exact (hs.leafOf _ _ _).of_pair e
  · next l t e =>
    have ht : t.RegsInv := (hs.leafOf _ _ _).of_pair e
    exact .ite_snd ht (.ite_snd ht (.ite_snd ht (.ite_snd ht (.ite_snd (ht.countLost _) ht))))

theorem dqRing (hs : s.RegsInv) (who : Who) (ctx : Nat) (l : List (Nat × Nat)) : (s.dqRing who ctx l).2.RegsInv := by
  induction l generalizing s who ctx with
  | nil => exact hs
  | cons x xs ih =>
    rw [State.dqRing]
    split
    · next e => exact ih ((hs.dqAccess _ _ _ _).of_pair e) _ _
    · next e => exact (hs.dqAccess _ _ _ _).of_pair e

theorem dqProducer (hs : s.RegsInv) (who : Who) (d : DevQueue) : (s.dqProducer who d).2.RegsInv := by
  unfold State.dqProducer
  split
  · next t e =>
      have ht : t.RegsInv := (hs.dqAccess _ _ _ _).of_pair e
      split
      · next e1 => exact (ht.dqRing _ _ _).of_pair e1
      · next e1 => exact (ht.dqRing _ _ _).of_pair e1
  · exact hs.dqAccess _ _ _ _

theorem dqSettle (hs : s.RegsInv) (pa : Nat) : (s.dqSettle pa).RegsInv := (hs.serveLine _).flushRange _ _

theorem dqSet (hs : s.RegsInv) (who : Who) (pa off x : Nat) : (s.dqSet who pa off x).RegsInv := (hs.writeEngineAt _ _ _).touchHot _ _

theorem reserveRecord (hs : s.RegsInv) (who : Who) (d : DevQueue) (pa : Nat) (tree : W32) : (s.reserveRecord who d pa tree).2.RegsInv :=
  (hs.dqSet _ _ _ _).updTree _ _ _

theorem writeRecord (hs : s.RegsInv) (who : Who) (d : DevQueue) (r : Nat) (bs : List Byte) : (s.writeRecord who d r bs).2.RegsInv := by
  unfold State.writeRecord
  split
  · next e => exact ((hs.dqAccess _ _ _ _).of_pair e).writeEngineAt _ _ _
  · next e => exact (hs.dqAccess _ _ _ _).of_pair e

theorem pushRecord (hs : s.RegsInv) (who : Who) (d : DevQueue) (pa : Nat) (tree : W32) (kind : Nat) (beam : W64) (bs : List Byte) :
    (s.pushRecord who d pa tree kind beam bs).RegsInv :=
  (hs.reserveRecord _ _ _ _).writeRecord _ _ _ _

theorem spawnRecord (hs : s.RegsInv) (u : SUnit) (op item : Nat) (d : DevQueue) (pa : Nat) (tree : W32) (bs : List Byte) :
    (s.spawnRecord u op item d pa tree bs).RegsInv := by
  unfold State.spawnRecord
  dsimp only
  exact ((hs.reserveRecord _ _ _ _).mkEntry _ _ _ _ _ _ _).enqueue _

theorem serveSpawn (hs : s.RegsInv) (e : EngEntry) : (s.serveSpawn e).RegsInv := by
  unfold State.serveSpawn
  dsimp only
  split
  · split
    · exact hs.keep.entryDone _ _ _ _
    split
    · next e3 => exact ((hs.writeRecord _ _ _ _).of_pair e3).keep.entryDone _ _ _ _
    · next e3 => exact (hs.writeRecord _ _ _ _).of_pair e3
  · exact hs

theorem popRecord (hs : s.RegsInv) (d : DevQueue) : (s.popRecord d).RegsInv := by
  unfold State.popRecord
  split
  · split
    · exact hs
    split
    · exact hs
    dsimp only
    split
    · exact hs
    split
    · next t e4 =>
        have ht : t.RegsInv := (hs.dqAccess _ _ _ _).of_pair e4
        exact (ht.pageRequest _ _ _ _).getD ht
    · next t e4 =>
        have ht : t.RegsInv := (hs.dqAccess _ _ _ _).of_pair e4
        split
        · next t1 e5 =>
            have ht1 : t1.RegsInv := ((ht.dqSettle _).dqAccess _ _ _ _).of_pair e5
            exact (ht1.pageRequest _ _ _ _).getD ht1
        · next t1 e5 =>
            have ht1 : t1.RegsInv := ((ht.dqSettle _).dqAccess _ _ _ _).of_pair e5
            split
            · exact ht1
            split
            · exact ht1
            split
            · exact (ht1.dqSet _ _ _ _).dqSet _ _ _ _
            split
            · exact ((ht1.dqSet _ _ _ _).dqSet _ _ _ _).treeDec _ _
            split
            · refine treeDec ?_ _ _
              split
              · exact (ht1.dqSet _ _ _ _).dqSet _ _ _ _
              · exact ((ht1.dqSet _ _ _ _).dqSet _ _ _ _).treeFail _ _ _ _ _
            split
            · exact ((ht1.dqSet _ _ _ _).dqSet _ _ _ _).addLaunch _ _ _ _
            · exact (((((ht1.dqSet _ _ _ _).dqSet _ _ _ _).addLaunch _ _ _ _).updPart _ _).placeRoot _ _ _).ageHead _ _
        · next e5 => exact ((ht.dqSettle _).dqAccess _ _ _ _).of_pair e5
    · next e4 => exact (hs.dqAccess _ _ _ _).of_pair e4
  · exact hs

theorem exec_atomicEngineServe (hs : s.RegsInv) (cluster : Nat) : OutHolds RegsInv (execAtomicEngineServe cluster s) := by
  unfold execAtomicEngineServe
  split
  · exact hs
  split
  · exact hs.serveReq _
  split
  · exact hs.serveSpawn _
  · exact hs

theorem exec_deviceQueuePop (hs : s.RegsInv) (ctx q : Nat) : OutHolds RegsInv (execDeviceQueuePop ctx q s) := by
  unfold execDeviceQueuePop
  split
  · exact hs.popRecord _
  · exact hs

theorem exec_devqSlotReread (hs : s.RegsInv) (ctx q : Nat) : OutHolds RegsInv (execDevqSlotReread ctx q s) := by
  unfold execDevqSlotReread
  split
  · exact hs.popRecord _
  · exact hs



theorem templatePart (hs : s.RegsInv) (u : SUnit) (va n : Nat) : (s.templatePart u va n).2.RegsInv := by
  unfold State.templatePart
  split
  · exact hs
  split
  · next e =>
      have ht := (hs.checkGlobal _ _ _ _ _ _ _).of_pair e
      split
      · exact ht.countLost _
      · exact ht.serveLines _
  · next e => exact (hs.checkGlobal _ _ _ _ _ _ _).of_pair e



theorem readTemplates (hs : s.RegsInv) (u : SUnit) (reads : List (Nat × Nat)) : (s.readTemplates u reads).2.RegsInv := by
  induction reads generalizing s with
  | nil => exact hs
  | cons x rest ih =>
    rw [State.readTemplates_cons]
    split
    · next e => exact (hs.templatePart _ _ _).of_pair e
    · next e =>
        have h1 := (hs.templatePart _ _ _).of_pair e
        split
        · next e1 => exact (h1.templatePart _ _ _).of_pair e1
        · next e1 =>
            have h2 := (h1.templatePart _ _ _).of_pair e1
            split
            · next e2 => exact (ih h2).of_pair e2
            · next e2 => exact (ih h2).of_pair e2

theorem exec_spawn (hs : s.RegsInv) (f : FmtB) : OutHolds RegsInv (execSpawn f s) := by
  unfold execSpawn
  refine hs.closingWord _ fun _ _ _ ht hu => ?_
  dsimp only
  split
  · exact ht
  split
  · exact ht
  split
  · exact ht.markUnit _ _
  split
  · exact ht
  split
  · exact ht
  split
  · next e2 => exact (((ht.publish _ _).readTemplates _ _).of_pair e2).chkRes _ _ _ _
  rename_i t1 e2
  have ht1 : t1.RegsInv := ((ht.publish _ _).readTemplates _ _).of_pair e2
  split
  · exact ht1
  split
  · next e4 => exact (ht1.dqProducer _ _).of_pair e4
  · next e4 => exact ((ht1.dqProducer _ _).of_pair e4).chkRes _ _ _ _
  · next e4 => exact ((ht1.dqProducer _ _).of_pair e4).chkRes _ _ _ _
  rename_i t2 e4
  have ht2 : t2.RegsInv := (ht1.dqProducer _ _).of_pair e4
  split
  · exact ht2
  rename_i t3 e5
  have ht3 : t3.RegsInv := reserveRows _ _ ht2 e5
  split
  · exact ht2
  split
  · exact ht2
  split
  · exact ht2
  next t4 u4 e6 =>
  obtain ⟨ht4, hu4⟩ := ensureRows _ (by
    split
    · exact ht3.dqSettle _
    · exact foldl _ (fun _ _ ht => ht.spawnRecord _ _ _ _ _ _ _) _ ((ht3.dqSettle _).addPend _ _ _ _ _ _)) hu e6
  have ht5 := ht4.writeLanes u4
  split
  · exact ht5 _ _ _
  split
  · refine (ht5 _ _ _).split _ hu4.keep fun v hv => ?_
    obtain ⟨x, -, rfl⟩ := List.mem_map.mp hv
    exact hu4.keep
  split
  · exact (ht5 _ _ _).putUnit hu4.keep
  · refine (ht5 _ _ _).split _ hu4.keep fun v hv => ?_
    obtain ⟨x, -, rfl⟩ := List.mem_map.mp hv
    exact hu4.keep

end State.RegsInv
end Sys2Proof.Machine
end
section
/-! SUPPORT. Words and events of the hank engines leave register tables canonical. -/

namespace Sys2Proof.Machine
set_option Elab.async false

namespace State.RegsInv
variable {s : State}

theorem runHank (hs : s.RegsInv) (f : FmtX) (k : HankIssue) (fps : Option (Nat × Nat × (State → SUnit → Nat → Nat)))
    (mk : State → SUnit → Guard → Nat → HankReq) : OutHolds RegsInv (s.runHank f k fps mk) := by
  unfold State.runHank
  extract_lets zeros body
  have hbody : ∀ t i u, t.RegsInv → u.Inv → (body t i u).state.RegsInv := by
    intro t i u ht _
    unfold body
    dsimp only
    split
    · exact ht
    split
    · exact ht
    split
    · exact ht
    split
    · exact ht
    split
    · exact ht
    split
    · exact ht
    · refine ht.deferV _ _ _ _ _ _ fun _ _ h => holdPort ?_ _ _ _
      exact h.foldl _ (fun _ _ ht => (ht.mkEntry _ _ _ _ _ _ _).enqueue _) _
  split
  · exact hs.closingWord _ hbody
  · exact hs.word _ hbody

theorem runMutation (hs : s.RegsInv) (f : FmtX) (code : Nat) : OutHolds RegsInv (s.runMutation f code) := hs.runHank _ _ _ _

theorem exec_hkopen (hs : s.RegsInv) (f : FmtX) : OutHolds RegsInv (execHkopen f s) := hs.runHank _ _ _ _

theorem exec_hknext (hs : s.RegsInv) (f : FmtX) : OutHolds RegsInv (execHknext f s) := hs.runHank _ _ _ _

theorem exec_hkclose (hs : s.RegsInv) (f : FmtX) : OutHolds RegsInv (execHkclose f s) := hs.runHank _ _ _ _

theorem exec_hkcount (hs : s.RegsInv) (f : FmtX) : OutHolds RegsInv (execHkcount f s) := hs.runHank _ _ _ _

theorem exec_hkfind (hs : s.RegsInv) (f : FmtX) : OutHolds RegsInv (execHkfind f s) := hs.runHank _ _ _ _

theorem exec_hknbr (hs : s.RegsInv) (f : FmtX) : OutHolds RegsInv (execHknbr f s) := hs.runHank _ _ _ _

theorem exec_hkrank (hs : s.RegsInv) (f : FmtX) : OutHolds RegsInv (execHkrank f s) := hs.runHank _ _ _ _

theorem exec_hkrankThaw (hs : s.RegsInv) (f : FmtX) : OutHolds RegsInv (execHkrankThaw f s) := hs.runHank _ _ _ _

theorem exec_hkstat (hs : s.RegsInv) (f : FmtX) : OutHolds RegsInv (execHkstat f s) := hs.runHank _ _ _ _

theorem hankDone (hs : s.RegsInv) (e : EngEntry) (status value : Nat) : (s.hankDone e status value).RegsInv := hs.entryDone _ _ _ _

theorem hankDoneAll (hs : s.RegsInv) (e : EngEntry) (vals : List (Nat × Nat × Nat)) : (s.hankDoneAll e vals).RegsInv := by
  unfold State.hankDoneAll
  dsimp only
  exact (hs.updPend _ _).entryDone _ _ _ _

theorem hankSame (hs : s.RegsInv) (e : EngEntry) (status value : Nat) : (s.hankSame e status value).RegsInv := hs.hankDoneAll _ _

theorem hankPad (hs : s.RegsInv) (e : EngEntry) (off : Nat) (bs : List Byte) : (s.hankPad e off bs).RegsInv := by
  unfold State.hankPad
  split
  · exact hs
  split
  · exact hs.writePad _ _ _
  · exact hs

theorem takeEntry (hs : s.RegsInv) (e : EngEntry) : (s.takeEntry e).RegsInv := hs.keep

theorem takeStamp_keepsRegs (who : Who) (h : Hank) (r : HankReq) : (takeStamp who h r).KeepsRegs := by
  unfold takeStamp
  split
  · exact HM.KeepsRegs.of_pure _
  dsimp only
  split
  · exact (hCommit_keepsRegs _ _ _ _).bind (fun _ => HM.KeepsRegs.throw_bind _ _)
  · exact (hCommit_keepsRegs _ _ _ _).bind (fun _ => HM.KeepsRegs.of_pure _)

theorem mutate_keepsRegs (e : EngEntry) : (mutate e).KeepsRegs := by
  unfold mutate
  refine (readHank_keepsRegs _ _ _ _).bind fun h => ?_
  extract_lets key move n n2 payload change

  refine .throw_or ((readLea_keepsRegs _ _ _).bind fun l => atLea_keepsRegs _ _ _ ((readChain_keepsRegs _ _).bind fun chain => ?_))
  extract_lets commit unfrozen
  have hcommit : (commit ()).KeepsRegs := by
    refine .of_get fun s hs => ?_
    extract_lets plan pinned
    split
    · exact (takeStamp_keepsRegs _ _ _).bind fun _ => (commitLea_keepsRegs _ _ _ _ _).bind fun _ => .of_pure _
    split
    · exact .of_throw _
    split
    · exact (bumpSeq_keepsRegs _ _).bind fun _ => .of_pure _
    split
    · exact (commitLea_keepsRegs _ _ _ _ _).bind fun _ => .of_pure _
    split
    · exact (HM.KeepsRegs.of_modify fun _ ht => ht.keep).bind fun _ => (commitLea_keepsRegs _ _ _ _ _).bind fun _ => .of_pure _
    · exact (commitLea_keepsRegs _ _ _ _ _).bind fun _ => .of_pure _
  have hunfrozen : (unfrozen ()).KeepsRegs := .throw_or hcommit
  split
  · exact (readLea_keepsRegs _ _ _).bind fun _ => (readChain_keepsRegs _ _).bind fun _ => hunfrozen
  · exact hunfrozen

theorem dropMove (hs : s.RegsInv) (id : Nat) : (s.dropMove id).RegsInv := hs.keep

theorem pinElems_keepsRegs (who : Who) (h : Hank) (c : Cursor) (p : Pin) : (pinElems who h c p).KeepsRegs := by
  unfold pinElems
  refine (readPinned_keepsRegs _ _ _).bind fun _ => ?_
  dsimp only
  split
  · exact HM.KeepsRegs.throw_bind _ _
  · exact HM.KeepsRegs.of_pure _

theorem nextElem_keepsRegs (h : Hank) (core num gid : Nat) (n : Nat) : (nextElem h core num gid n).KeepsRegs := by
  induction n generalizing h core num gid with
  | zero =>
    rw [nextElem]
    exact HM.KeepsRegs.of_pure _
  | succ n ih =>
    rw [nextElem]
    refine HM.KeepsRegs.of_get fun _ _ => ?_
    split
    · exact HM.KeepsRegs.of_throw _
    dsimp only
    split
    · exact HM.KeepsRegs.of_pure _
    split
    · refine (readLea_keepsRegs _ _ _).bind (fun _ => (atLea_keepsRegs _ _ _ ?_).bind (fun _ => ih _ _ _ _))
      exact (readChain_keepsRegs _ _).bind (fun _ => (bumpSeq_keepsRegs _ _).bind (fun _ => HM.KeepsRegs.of_modify (fun _ ht1 => ht1.updCursor _ _)))
    refine (pinElems_keepsRegs _ _ _ _).bind fun _ => ?_
    split
    · exact (HM.KeepsRegs.of_modify (fun _ ht1 => ht1.updCursor _ _)).bind (fun _ => HM.KeepsRegs.of_pure _)
    · exact (HM.KeepsRegs.of_modify (fun _ ht1 => ht1.updCursor _ _)).bind (fun _ => ih _ _ _ _)

theorem hankOpen (hs : s.RegsInv) (e : EngEntry) : OptHolds RegsInv (s.hankOpen e) := by
  unfold State.hankOpen
  dsimp only
  split
  · next e1 => exact OptHolds.of_map _ (fun _ => ((((readHank_keepsRegs _ _ _ _).after hs).of_pair e1).takeEntry _).hankSame _ _ _)
  rename_i t e1
  have ht : t.RegsInv := ((readHank_keepsRegs _ _ _ _).after hs).of_pair e1
  split
  · exact (ht.takeEntry _).hankSame _ _ _
  split
  · exact ht.keep.hankSame _ _ _
  · exact (ht.takeEntry _).hankSame _ _ _

theorem nextItems (hs : s.RegsInv) (e : EngEntry) (h : Hank) (c : Cursor) (items : List (Nat × Nat)) : SomeHolds RegsInv (s.nextItems e h c items) := by
  induction items generalizing s with
  | nil => exact hs
  | cons x rest ih =>
    rw [State.nextItems]
    have hon := (nextElem_keepsRegs h c.core c.num c.group (2 ^ (h.loglea + 2) + 2)).after hs
    split
    · trivial
    · next v t ev =>
      have ht : t.RegsInv := by
        refine SomeHolds.get ?_ ev
        split
        · next e1 => exact (hon.of_pair e1).hankPad _ _ _
        · next e1 => exact hon.of_pair e1
        · next e1 => exact .of_map _ fun _ => hon.of_pair e1
      have hrest := ih ht
      split
      · trivial
      · next e2 => exact hrest.get e2

theorem hankNext (hs : s.RegsInv) (e : EngEntry) : OptHolds RegsInv (s.hankNext e) := by
  unfold State.hankNext
  split
  · exact (hs.takeEntry _).hankSame _ _ _
  split
  · next e2 => exact OptHolds.of_map _ (fun _ => ((((readHank_keepsRegs _ _ _ _).after hs).of_pair e2).takeEntry _).hankSame _ _ _)
  · next e2 => exact ((((readHank_keepsRegs _ _ _ _).after hs).of_pair e2).nextItems _ _ _ _).map (fun _ _ ht1 => (ht1.takeEntry _).hankDoneAll _ _)

theorem hankClose (hs : s.RegsInv) (e : EngEntry) : OptHolds RegsInv (s.hankClose e) := by
  unfold State.hankClose
  split
  · exact (hs.takeEntry _).hankSame _ _ _
  split
  · next e2 => exact (((hs.closeCursor _ _).of_pair e2).takeEntry _).hankSame _ _ _
  · next e2 => exact (hs.closeCursor _ _).of_pair e2

theorem countLeas_keepsRegs (e : EngEntry) (h : Hank) (lo hi : Nat) (n : Nat) (k : Nat) : (countLeas e h lo hi n k).KeepsRegs := by
  induction n generalizing e h lo hi k with
  | zero =>
    rw [countLeas]
    exact HM.KeepsRegs.of_pure _
  | succ n ih =>
    rw [countLeas]
    split
    · exact HM.KeepsRegs.of_pure _
    refine (readLea_keepsRegs _ _ _).bind fun _ => ?_
    refine (readChain_keepsRegs _ _).bind fun _ => ?_
    exact (ih _ _ _ _ _).bind (fun _ => HM.KeepsRegs.of_pure _)

theorem searchRank_keepsRegs (who : Who) (h : Hank) (v : Nat) (n : Nat) (k : Nat) (m : Nat) : (searchRank who h v n k m).KeepsRegs := by
  induction n generalizing who h v k m with
  | zero =>
    rw [searchRank]
    exact HM.KeepsRegs.of_pure _
  | succ n ih =>
    rw [searchRank]
    split
    · exact HM.KeepsRegs.of_pure _
    dsimp only
    refine (hNat_keepsRegs _ _ _ _ _).bind fun _ => ?_
    split <;> exact ih _ _ _ _ _

theorem findRank_keepsRegs (who : Who) (h : Hank) (v : Nat) : (findRank who h v).KeepsRegs := by
  unfold findRank
  refine (searchRank_keepsRegs _ _ _ _ _ _).bind fun _ => ?_
  split
  · exact HM.KeepsRegs.of_pure _
  · exact (hNat_keepsRegs _ _ _ _ _).bind (fun _ => HM.KeepsRegs.of_pure _)

theorem neighbours_keepsRegs (who : Who) (h : Hank) (v : Nat) (mask : W32) (l : List Nat) : (neighbours who h v mask l).KeepsRegs := by
  induction l generalizing who h v mask with
  | nil =>
    rw [neighbours]
    exact HM.KeepsRegs.of_pure _
  | cons x xs ih =>
    rw [neighbours]
    split
    · exact (HM.KeepsRegs.of_pure _).bind (fun _ => (ih _ _ _ _).bind (fun _ => HM.KeepsRegs.of_pure _))
    · exact (findRank_keepsRegs _ _ _).bind (fun _ => (ih _ _ _ _).bind (fun _ => HM.KeepsRegs.of_pure _))

theorem lookup_keepsRegs (e : EngEntry) : (lookup e).KeepsRegs := by
  unfold lookup
  dsimp only
  refine (readHank_keepsRegs _ _ _ _).bind fun _ => ?_
  split
  · exact (countLeas_keepsRegs _ _ _ _ _ _).bind (fun _ => HM.KeepsRegs.of_pure _)
  · split
    · exact HM.KeepsRegs.throw_bind _ _
    split
    · exact HM.KeepsRegs.throw_bind _ _
    refine (findRank_keepsRegs _ _ _).bind fun _ => ?_
    split
    · exact HM.KeepsRegs.of_pure _
    · exact HM.KeepsRegs.of_throw _
  · split
    · exact HM.KeepsRegs.throw_bind _ _
    split
    · exact HM.KeepsRegs.throw_bind _ _
    split
    · exact HM.KeepsRegs.throw_bind _ _
    · exact (hNat_keepsRegs _ _ _ _ _).bind (fun _ => (neighbours_keepsRegs _ _ _ _ _).bind (fun _ => HM.KeepsRegs.of_pure _))
  split
  · exact HM.KeepsRegs.throw_bind _ _
  · exact (readLea_keepsRegs _ _ _).bind (fun _ => HM.KeepsRegs.of_pure _)

theorem updRank (hs : s.RegsInv) (j : RankJob) (f : RankJob → RankJob) : (s.updRank j f).RegsInv := hs.keep

theorem freezeLeas_keepsRegs (who : Who) (h : Hank) (j : RankJob) (l : List Nat) : (freezeLeas who h j l).KeepsRegs := by
  induction l generalizing who h j with
  | nil =>
    rw [freezeLeas]
    exact HM.KeepsRegs.of_pure _
  | cons x xs ih =>
    rw [freezeLeas]
    exact (readLea_keepsRegs _ _ _).bind (fun _ => (bumpSeq_keepsRegs _ _).bind (fun _ => (HM.KeepsRegs.of_modify (fun _ ht => ht.updRank _ _)).bind (fun _ => ih _ _ _)))

theorem beginRank_keepsRegs (who : Who) (h : Hank) (j : RankJob) : (beginRank who h j).KeepsRegs := by
  unfold beginRank
  split
  · exact HM.KeepsRegs.of_pure _
  split
  · exact HM.KeepsRegs.of_pure _
  · exact (hCommit_keepsRegs _ _ _ _).bind (fun _ => (freezeLeas_keepsRegs _ _ _ _).bind (fun _ => HM.KeepsRegs.of_pure _))

theorem readLeas_keepsRegs (who : Who) (h : Hank) (l : List Nat) : (readLeas who h l).KeepsRegs := by
  induction l generalizing who h with
  | nil =>
    rw [readLeas]
    exact HM.KeepsRegs.of_pure _
  | cons x xs ih =>
    rw [readLeas]
    exact (readLea_keepsRegs _ _ _).bind (fun _ => (readChain_keepsRegs _ _).bind (fun _ => (ih _ _).bind (fun _ => HM.KeepsRegs.of_pure _)))

theorem finishRank_keepsRegs (who : Who) (ctx : Nat) (fm : BitVec 4) (at_ : Nat) : (finishRank who ctx fm at_).KeepsRegs := by
  unfold finishRank
  refine (readHank_keepsRegs _ _ _ _).bind fun _ => ?_
  refine (readLeas_keepsRegs _ _ _).bind fun _ => ?_
  dsimp only
  split
  · exact HM.KeepsRegs.throw_bind _ _
  · exact (hCommit_keepsRegs _ _ _ _).bind (fun _ => HM.KeepsRegs.of_pure _)

theorem endRank (hs : s.RegsInv) (j : RankJob) (status value : Nat) : (s.endRank j status value).RegsInv := hs.keep.hankSame _ _ _

theorem startRanks (hs : s.RegsInv) (ctx : Nat) (hank : W64) (n : Nat) : (s.startRanks ctx hank n).RegsInv := by
  induction n generalizing s ctx hank with
  | zero => exact hs
  | succ n ih =>
    rw [State.startRanks]
    split
    · exact hs
    split
    · exact hs
    split
    · next e1 => exact ((((readHank_keepsRegs _ _ _ _).bind (fun _ => beginRank_keepsRegs _ _ _)).after hs).of_pair e1).updRank _ _
    · next e1 => exact ih (((((readHank_keepsRegs _ _ _ _).bind (fun _ => beginRank_keepsRegs _ _ _)).after hs).of_pair e1).endRank _ _ _) _ _
    rename_i t e1
    have ht : t.RegsInv := (((readHank_keepsRegs _ _ _ _).bind (fun _ => beginRank_keepsRegs _ _ _)).after hs).of_pair e1
    split
    · exact ih (ht.endRank _ _ _) _ _
    · exact ht

theorem performHank (hs : s.RegsInv) (e : EngEntry) : OptHolds RegsInv (s.performHank e) := by
  unfold State.performHank
  dsimp only
  split
  · split
    · next e1 => exact ((((mutate_keepsRegs _).after hs).of_pair e1).takeEntry _).hankDone _ _ _
    · next e1 => exact (((mutate_keepsRegs _).after hs).of_pair e1).takeEntry _
    · next e1 => exact OptHolds.of_map _ (fun _ => (((((mutate_keepsRegs _).after hs).of_pair e1).dropMove _).takeEntry _).hankDone _ _ _)
  split
  · exact hs.hankOpen _
  split
  · exact hs.hankNext _
  split
  · exact hs.hankClose _
  split
  · exact hs.keep.startRanks _ _ _
  split
  · next t e1 =>
      have ht : t.RegsInv := ((lookup_keepsRegs _).after hs).of_pair e1
      refine (takeEntry ?_ _).hankDone _ _ _
      split
      · exact ht.hankPad _ _ _
      · exact ht
  · next e1 => exact OptHolds.of_map _ (fun _ => ((((lookup_keepsRegs _).after hs).of_pair e1).takeEntry _).hankDone _ _ _)

theorem exec_hankOperationPerform (hs : s.RegsInv) (entry : Nat) : OutHolds RegsInv (execHankOperationPerform entry s) := by
  unfold execHankOperationPerform
  split
  · exact hs
  split
  · exact (hs.performHank _).getD hs
  · exact hs

theorem moveIn_keepsRegs (m : Move) : (moveIn m).KeepsRegs := by
  unfold moveIn
  dsimp only
  refine (readHank_keepsRegs _ _ _ _).bind fun _ => ?_
  refine (readLea_keepsRegs _ _ _).bind fun _ => ?_
  refine atLea_keepsRegs _ _ _ ((readChain_keepsRegs _ _).bind (fun _ => ?_))
  split
  · exact HM.KeepsRegs.throw_bind _ _
  · exact HM.KeepsRegs.of_get (fun _ _ => commitLea_keepsRegs _ _ _ _ _)

theorem releaseSpare_keepsRegs (m : Move) : (releaseSpare m).KeepsRegs := by
  unfold releaseSpare
  dsimp only
  refine (readHank_keepsRegs _ _ _ _).bind fun _ => ?_
  refine (readLea_keepsRegs _ _ _).bind fun _ => ?_
  refine (readChain_keepsRegs _ _).bind fun _ => ?_
  refine HM.KeepsRegs.of_get fun _ _ => ?_
  split
  · exact HM.KeepsRegs.of_pure _
  · exact hCommit_keepsRegs _ _ _ _

theorem pinsLater (hs : s.RegsInv) (h : Hank) (lea block : Nat) (e : Elem) : (s.pinsLater h lea block e).RegsInv := hs.keep

theorem moveBack_keepsRegs (m : Move) : (moveBack m).KeepsRegs := by
  unfold moveBack
  dsimp only
  refine (readHank_keepsRegs _ _ _ _).bind fun _ => ?_
  refine (readLea_keepsRegs _ _ _).bind fun _ => ?_
  refine (readChain_keepsRegs _ _).bind fun _ => ?_
  refine HM.KeepsRegs.of_get fun _ ht => ?_
  split
  · next e => exact HM.KeepsRegs.of_set (((commitLea_keepsRegs _ _ _ _ _).after ht).of_pair e)
  · split
    · refine (commitLea_keepsRegs _ _ _ _ _).bind fun _ => ?_
      split
      · exact HM.KeepsRegs.of_modify (fun _ ht2 => ht2.pinsLater _ _ _ _)
      · exact HM.KeepsRegs.of_pure _
    · exact HM.KeepsRegs.of_throw _
  · next e => exact (HM.KeepsRegs.of_set (((commitLea_keepsRegs _ _ _ _ _).after ht).of_pair e)).bind (fun _ => HM.KeepsRegs.of_throw _)

theorem movePhase (hs : s.RegsInv) (id : Nat) (p : MovePhase) : (s.movePhase id p).RegsInv := hs.keep

theorem spareMove (hs : s.RegsInv) (m : Move) : (s.spareMove m).RegsInv := by
  unfold State.spareMove
  split
  · next e => exact (((releaseSpare_keepsRegs _).after hs).of_pair e).dropMove _
  rename_i e
  split
  · exact hs.dropMove _
  · exact (((releaseSpare_keepsRegs _).after hs).of_pair e).movePhase _ _

theorem restoreMove (hs : s.RegsInv) (m : Move) (owed : Option Nat) : (s.restoreMove m owed).RegsInv := by
  unfold State.restoreMove
  dsimp only
  split
  · next t e =>
      have ht : t.RegsInv := ((moveBack_keepsRegs _).after hs).of_pair e
      split
      · exact (ht.dropMove _).hankDone _ _ _
      · exact ht.dropMove _
  · split
    · exact (hs.movePhase _ _).hankDone _ _ _
    · exact hs.movePhase _ _
  · next e => exact (((moveBack_keepsRegs _).after hs).of_pair e).movePhase _ _

theorem tryMove (hs : s.RegsInv) (m : Move) : OptHolds RegsInv (s.tryMove m) := by
  unfold State.tryMove
  split
  · trivial
  split
  · next e => exact ((((moveIn_keepsRegs _).after hs).of_pair e).spareMove _).hankDone _ _ _
  · next e => exact OptHolds.of_map _ (fun _ => (((moveIn_keepsRegs _).after hs).of_pair e).restoreMove _ _)

theorem retryMove (hs : s.RegsInv) (m : Move) : (s.retryMove m).RegsInv := by
  unfold State.retryMove
  split
  · exact hs
  · exact hs.spareMove _
  · exact hs.restoreMove _ _

theorem retryReleases (hs : s.RegsInv) (ctx : Nat) : (s.retryReleases ctx).RegsInv := by
  unfold State.retryReleases
  refine foldl _ (fun _ _ ht => ht.retryMove _) _ (hs.foldl _ (fun _ c ht => ?_) _)
  split
  · next e => exact ((ht.closeCursor c 0).of_pair e).dropCursor _
  · next e => exact (ht.closeCursor c 0).of_pair e

theorem exec_hankMoveInsert (hs : s.RegsInv) : OutHolds RegsInv (execHankMoveInsert s) :=
  (OptHolds.findSome s.moves hs.tryMove).getD hs

theorem exec_hankRankComplete (hs : s.RegsInv) : OutHolds RegsInv (execHankRankComplete s) := by
  unfold execHankRankComplete
  split
  · split
    · exact hs.startRanks _ _ _
    · exact hs
  dsimp only
  split
  · next e1 => exact (((((readHank_keepsRegs _ _ _ _).bind (fun _ => finishRank_keepsRegs _ _ _ _)).after hs).of_pair e1).endRank _ _ _).startRanks _ _ _
  rename_i e1
  split
  · exact (((((readHank_keepsRegs _ _ _ _).bind (fun _ => finishRank_keepsRegs _ _ _ _)).after hs).of_pair e1).endRank _ _ _).startRanks _ _ _
  · exact hs

/-- A hank's header is read and written again, and a value of it is answered. -/
theorem thaw_keepsRegs (who : Who) (ctx : Nat) (fm : BitVec 4) (at_ : Nat) (writer : Hank → Who) (ws : Hank → List HWrite) (val : Hank → Nat) :
    HM.KeepsRegs (do
      let h ← readHank who ctx fm at_
      hCommit (writer h) h.ctx h.fm (ws h)
      return val h) :=
  (readHank_keepsRegs _ _ _ _).bind (fun _ => (hCommit_keepsRegs _ _ _ _).bind (fun _ => HM.KeepsRegs.of_pure _))

theorem exec_hankThawComplete (hs : s.RegsInv) : OutHolds RegsInv (execHankThawComplete s) := by
  unfold execHankThawComplete
  split
  · exact hs
  dsimp only
  split
  · next e1 => exact ((((thaw_keepsRegs _ _ _ _ _ _ _).after hs).of_pair e1).endRank _ _ _).startRanks _ _ _
  rename_i e1
  split
  · exact ((((thaw_keepsRegs _ _ _ _ _ _ _).after hs).of_pair e1).endRank _ _ _).startRanks _ _ _
  · exact hs

end State.RegsInv
end Sys2Proof.Machine
end
section
/-! SUPPORT. Clause fetch and the matrix sequencer leave register tables canonical. -/

namespace Sys2Proof.Machine
set_option Elab.async false

namespace State.RegsInv
variable {s : State}

theorem fetchWord (hs : s.RegsInv) (u : SUnit) (tpc next : W64) (header : Bool) (va : Nat) : (s.fetchWord u tpc next header va).2.RegsInv := by
  unfold State.fetchWord
  dsimp only
  split
  · next t e =>
      have ht : t.RegsInv := (hs.translate _ _ _ _).of_pair e
      split
      · exact ht
      · exact ht
      split
      · exact ht.countLost _
      · exact ht
  · next e => exact (hs.translate _ _ _ _).of_pair e
  · next e => exact (hs.translate _ _ _ _).of_pair e
  · next e => exact (hs.translate _ _ _ _).of_pair e

theorem fetchWords (hs : s.RegsInv) (u : SUnit) (tpc next : W64) (h : Header) (n : Nat) (k : Nat) (l : List W64) :
    (s.fetchWords u tpc next h n k l).2.RegsInv := by
  induction n generalizing s u tpc next h k l with
  | zero => exact hs
  | succ n ih =>
    rw [State.fetchWords]
    split
    · next e => exact ih ((hs.fetchWord _ _ _ _ _).of_pair e) _ _ _ _ _ _
    · next e => exact (hs.fetchWord _ _ _ _ _).of_pair e

theorem readClause (hs : s.RegsInv) (u : SUnit) : (s.readClause u).2.RegsInv := by
  unfold State.readClause
  dsimp only
  split
  · exact hs
  split
  · next e => exact (hs.fetchWord _ _ _ _ _).of_pair e
  rename_i t e
  have ht : t.RegsInv := (hs.fetchWord _ _ _ _ _).of_pair e
  split
  · exact ht
  split
  · next e2 => exact (ht.fetchWords _ _ _ _ _ _ _).of_pair e2
  · exact ht.fetchWords _ _ _ _ _ _ _

theorem boundaryTrap (hs : s.RegsInv) {u : SUnit} (hu : u.Inv) (header : Bool) (t : LateTrap) : (s.boundaryTrap u header t).RegsInv := by
  have h1 : (if header then u.undoTransfer else u).Inv := by
    unfold SUnit.undoTransfer
    split
    · split
      · exact hu.keep
      · exact hu
    · exact hu
  exact (hs.takeTrap h1.keep _ _ _ _ _).settleDuties

theorem startClause (hs : s.RegsInv) {u : SUnit} (hu : u.Inv) (h : Header) (ws : List W64) : (s.startClause u h ws).RegsInv := by
  unfold State.startClause
  dsimp only
  refine keep (hs.fresh.putUnit (u := { (match u.pcSlot with
    | some _ => u
    | none => _) with wait := .none, pcSlot := none, origin := none, turn := s.fresh.1 }) ?_)
  split <;> exact hu.keep

theorem fetchClause (hs : s.RegsInv) {u : SUnit} (hu : u.Inv) : (s.fetchClause u).RegsInv := by
  unfold State.fetchClause
  split
  · exact hs.boundaryTrap hu _ _
  split
  · next e1 => exact ((hs.readClause _).of_pair e1).boundaryTrap hu _ _
  · next e1 => exact ((hs.readClause _).of_pair e1).markUnit _ _
  · next t e1 =>
      have ht : t.RegsInv := (hs.readClause _).of_pair e1
      split
      · exact ht.markUnit _ _
      rename_i e2
      exact ((ht.pageRequest _ _ _ _).get e2).markUnit _ _
  rename_i t e1
  have ht : t.RegsInv := (hs.readClause _).of_pair e1
  dsimp only
  split
  · exact ht.startClause hu _ _
  · exact ht

theorem exec_clauseFetch (hs : s.RegsInv) (unit : Nat) : OutHolds RegsInv (execClauseFetch unit s) := by
  unfold execClauseFetch
  split
  · exact hs
  next u hu =>
  split
  · exact hs.fetchClause (hs.unit hu)
  · exact hs

theorem landTargets (hs : s.RegsInv) (o : PendOp) : (s.landTargets o).1.RegsInv := by
  unfold State.landTargets
  refine foldl_fst _ (fun _ _ h => ?_) _ hs
  split
  · exact h
  · exact h.landAll _ _

theorem exec_longLatencyResult (hs : s.RegsInv) (op : Nat) : OutHolds RegsInv (execLongLatencyResult op s) := by
  unfold execLongLatencyResult
  split
  · exact hs
  split
  rename_i t _ e1
  have ht : t.RegsInv := (hs.landTargets _).of_fst e1
  dsimp only
  split
  · exact hs
  refine foldl _ ?_ _ ?_
  · intro _ _ ht1
    split
    · split
      · exact ht1.afterSide _
      · exact ht1
    · exact ht1
  · split
    · refine dropPend ?_ _
      split
      · exact ht.mapUnits _ (fun _ hu => hu.keep) rfl
      · exact ht
    refine (updPend ?_ _ _).settleDuties
    split
    · exact ht.mapUnits _ (fun _ hu => hu.keep) rfl
    · exact ht

theorem trapHead (hs : s.RegsInv) (cause : W32) (tval : W64) : OutHolds RegsInv (s.trapHead cause tval) := hs.word _ (fun _ _ _ ht _ => ht)

theorem setTile (hs : s.RegsInv) (t : Tile) : (s.setTile t).RegsInv := by
  unfold State.setTile
  split <;> exact hs.keep

theorem claimTile (hs : s.RegsInv) (gid : Nat) (paired : Bool) (core : Nat) : (s.claimTile gid paired core).RegsInv := by
  unfold State.claimTile
  dsimp only
  split
  · split
    · exact hs.setTile _
    · exact hs
  · exact hs.setTile _

theorem acceptMma (hs : s.RegsInv) (f : FmtX) (kind : Nat) (offs : List (BitVec 7)) : OutHolds RegsInv (s.acceptMma f kind offs) := by
  unfold State.acceptMma
  refine hs.closingWord _ fun t _ _ ht hu => ?_
  extract_lets gd at_ c
  split
  · exact ht
  split
  · exact ht
  · extract_lets op cores s1
    split
    · exact ht.markUnit _ _
    split
    · exact ht
    split
    · exact ht
    · have h1 : s1.RegsInv := ht.foldl _ (fun _ _ h => h.claimTile _ _ _) _
      split
      next e =>
        have h2 := (h1.addPend _ _ _ _ _ _).of_pair e
        split
        next e1 => exact (h2.fresh.of_pair e1).keep

theorem exec_mma (hs : s.RegsInv) (f : FmtX) : OutHolds RegsInv (execMma f s) := hs.acceptMma _ _ _

theorem exec_mzero (hs : s.RegsInv) (f : FmtX) : OutHolds RegsInv (execMzero f s) := hs.acceptMma _ _ _

theorem exec_mload (hs : s.RegsInv) (f : FmtX) : OutHolds RegsInv (execMload f s) := hs.acceptMma _ _ _

theorem exec_mdrain (hs : s.RegsInv) (f : FmtX) : OutHolds RegsInv (execMdrain f s) := hs.acceptMma _ _ _

theorem mmaDone (hs : s.RegsInv) (m : MmaOp) : (s.mmaDone m).RegsInv := hs.keep.entryDone _ _ _ _

theorem mmaPoison (hs : s.RegsInv) (m : MmaOp) (off : Nat) : (s.mmaPoison m off).RegsInv := 
  mmaDone (hs.mapUnits _ (fun _ hu => .ite hu.keep hu) rfl) _

theorem mmaWrite (hs : s.RegsInv) (g : Group) (self off : Nat) (bs : List Byte) : (s.mmaWrite g self off bs).RegsInv := by
  unfold State.mmaWrite
  split
  · exact hs.writePad _ _ _
  · exact hs

theorem performKblock (hs : s.RegsInv) (m : MmaOp) (g : Group) : (s.performKblock m g).RegsInv := by
  unfold State.performKblock
  dsimp only
  split
  · exact hs.mmaPoison _ _
  split
  · split
    · exact (foldl_fst _ (fun _ _ h => h.setTile _) _ hs).keep.mmaDone _
    · exact (foldl_fst _ (fun _ _ h => h.setTile _) _ hs).keep
  split
  · exact (foldl_fst _ (fun _ _ h => h.setTile _) _ hs).keep.mmaDone _
  · exact (foldl_fst _ (fun _ _ h => h.setTile _) _ hs).keep

theorem performDrain (hs : s.RegsInv) (m : MmaOp) (g : Group) : (s.performDrain m g).RegsInv := by
  unfold State.performDrain
  extract_lets arrays
  split
  extract_lets s1
  have h1 : s1.RegsInv := hs.foldl _ (fun t r ht => by
    split
    extract_lets s2
    split
    · exact ht.mmaWrite _ _ _ _
    · exact (ht.mmaWrite _ _ _ _).mmaWrite _ _ _ _) _
  refine mmaDone ?_ _
  split
  · exact h1.foldl _ (fun _ _ ht => ht.setTile _) _
  · exact h1

theorem performLoad (hs : s.RegsInv) (m : MmaOp) (g : Group) : (s.performLoad m g).RegsInv := by
  unfold State.performLoad
  dsimp only
  split
  · exact hs.mmaPoison _ _
  · exact (foldl _ (fun _ _ ht => ht.setTile _) _ hs).mmaDone _

theorem exec_mmaSequencerPerform (hs : s.RegsInv) (core : Nat) : OutHolds RegsInv (execMmaSequencerPerform core s) := by
  unfold execMmaSequencerPerform
  split
  · exact hs
  split
  · exact hs
  split
  · exact hs.mmaDone _
  split
  · exact hs.performKblock _ _
  · exact (foldl _ (fun _ _ ht => ht.setTile _) _ hs).mmaDone _
  · exact hs.performDrain _ _
  · exact hs.performLoad _ _

theorem exec_mmaAssistComplete (hs : s.RegsInv) (core : Nat) : OutHolds RegsInv (execMmaAssistComplete core s) := by
  unfold execMmaAssistComplete
  split
  · exact hs
  split
  · exact hs
  dsimp only
  show RegsInv _
  split
  · exact hs.keep.mmaDone _
  · exact hs.keep

end State.RegsInv
end Sys2Proof.Machine
end
section
/-! SUPPORT. Beam queries leave register tables canonical. -/

namespace Sys2Proof.Machine
set_option Elab.async false

namespace State.RegsInv
variable {s : State}

theorem readLevel_keepsRegs (who : Who) (h : Hank) (table : List Byte) (l : Nat) : (readLevel who h table l).KeepsRegs := by
  unfold readLevel
  dsimp only
  split
  · exact HM.KeepsRegs.of_pure _
  · exact (hRead_keepsRegs _ _ _ _ _).bind (fun _ => HM.KeepsRegs.of_pure _)

theorem elemsIn_keepsRegs (who : Who) (h : Hank) (lo hi : Nat) (n : Nat) (k : Nat) : (elemsIn who h lo hi n k).KeepsRegs := by
  induction n generalizing who h lo hi k with
  | zero =>
    rw [elemsIn]
    exact HM.KeepsRegs.of_pure _
  | succ n ih =>
    rw [elemsIn]
    split
    · exact HM.KeepsRegs.of_pure _
    refine (readLea_keepsRegs _ _ _).bind fun _ => ?_
    refine (readChain_keepsRegs _ _).bind fun _ => ?_
    exact (ih _ _ _ _ _).bind (fun _ => HM.KeepsRegs.of_pure _)

theorem underNode_keepsRegs (who : Who) (h : Hank) (l node : Nat) : (underNode who h l node).KeepsRegs := elemsIn_keepsRegs _ _ _ _ _ _

theorem settleNode_keepsRegs (who : Who) (h : Hank) (table : List Byte) (b : Beam) (l node radius : Nat) :
    (settleNode who h table b l node radius).KeepsRegs := by
  induction l generalizing node radius with
  | zero =>
    rw [settleNode]
    split
    · exact .of_pure _
    · exact (underNode_keepsRegs _ _ _ _).bind fun _ => .of_pure _
    split
    · exact .of_pure _
    · exact (underNode_keepsRegs _ _ _ _).bind fun _ => .of_pure _
  | succ k ih =>
    rw [settleNode]
    split
    · exact .of_pure _
    · exact (underNode_keepsRegs _ _ _ _).bind fun _ => .of_pure _
    split
    · exact .of_pure _
    · refine (readLevel_keepsRegs _ _ _ _).bind fun kids => HM.KeepsRegs.foldlM (fun acc r => ?_) _ _
      cases acc with
      | none => exact .of_pure _
      | some hs =>
        refine (ih r.1 r.2).bind fun more => ?_
        cases more <;> exact .of_pure _

theorem updBeam (hs : s.RegsInv) (cluster slot : Nat) (f : BeamSlot → BeamSlot) : (s.updBeam cluster slot f).RegsInv := hs.keep

theorem Query.state_keepsRegs (q : Query) : (Query.state q).KeepsRegs := HM.KeepsRegs.of_get (fun _ _ => HM.KeepsRegs.of_pure _)

theorem writeHits_keepsRegs (q : Query) (b : Beam) (l : List BeamHit) : (writeHits q b l).KeepsRegs := by
  induction l generalizing q b with
  | nil =>
    rw [writeHits]
    exact HM.KeepsRegs.of_pure _
  | cons x xs ih =>
    rw [writeHits]
    refine (Query.state_keepsRegs _).bind fun _ => ?_
    dsimp only
    split
    · split
      · exact HM.KeepsRegs.throw_bind _ _
      · exact (hCommit_keepsRegs _ _ _ _).bind (fun _ => (HM.KeepsRegs.of_modify (fun _ ht => ht.updBeam _ _ _)).bind (fun _ => ih _ _))
    split
    · exact HM.KeepsRegs.throw_bind _ _
    · exact (hCommit_keepsRegs _ _ _ _).bind (fun _ => (HM.KeepsRegs.of_modify (fun _ ht => ht.updBeam _ _ _)).bind (fun _ => ih _ _))

theorem spawnSplit_keepsRegs (q : Query) (b : Beam) (k : Nat) : (spawnSplit q b k).KeepsRegs := by
  unfold spawnSplit
  dsimp only
  refine (hCommit_keepsRegs _ _ _ _).bind fun _ => ?_
  refine HM.KeepsRegs.of_get fun _ ht => ?_
  split
  · exact HM.KeepsRegs.of_pure _
  split
  · next e1 =>
      split
      · next e2 => exact (HM.KeepsRegs.of_set ((((ht.dqProducer _ _).of_pair e1).pageRequest _ _ _ _).get e2)).bind (fun _ => HM.KeepsRegs.of_pure _)
      · exact HM.KeepsRegs.of_throw _
  · exact HM.KeepsRegs.of_throw _
  · next e1 => exact (HM.KeepsRegs.of_set ((ht.dqProducer _ _).of_pair e1)).bind (fun _ => HM.KeepsRegs.of_pure _)
  rename_i t1 e1
  have ht1 : t1.RegsInv := (ht.dqProducer _ _).of_pair e1
  split
  · exact (HM.KeepsRegs.of_set (ht1.dqSettle _)).bind (fun _ => HM.KeepsRegs.of_pure _)
  · exact (HM.KeepsRegs.of_set (((ht1.dqSettle _).pushRecord _ _ _ _ _ _ _).updBeam _ _ _)).bind (fun _ => HM.KeepsRegs.of_pure _)

theorem runBeam_keepsRegs (q : Query) (fuel : Nat) (spawn : Bool) (b : Beam) : (runBeam q fuel spawn b).KeepsRegs := by
  induction fuel using Nat.strongRecOn generalizing spawn b with
  | ind fuel ih =>
    have htail : HM.KeepsRegs (match fuel with
        | 0 => return ()
        | n + 1 => (List.range 4).foldlM (fun (_ : Unit) i => runBeam q n false (Beam.ofBytes (b.child i))) ()) := by
      split
      · exact .of_pure _
      · exact HM.KeepsRegs.foldlM (fun _ _ => ih _ (Nat.lt_succ_self _) _ _) _ _
    rw [runBeam.eq_def]
    refine (readLevel_keepsRegs _ _ _ _).bind fun level => ?_
    extract_lets root collect act
    have hcollect : ∀ done, (collect done).KeepsRegs := by
      intro done
      unfold collect
      split
      · exact .of_pure _
      · exact (HM.KeepsRegs.of_modify fun _ h => h.updBeam _ _ _).bind fun _ => htail
    have hact : ∀ r, (act r).KeepsRegs := by
      intro r
      unfold act
      split
      · exact (writeHits_keepsRegs _ _ _).bind fun _ => .of_modify fun _ h => h.updBeam _ _ _
      · refine (Query.state_keepsRegs q).bind fun x => ?_
        extract_lets k
        split
        · exact (spawnSplit_keepsRegs _ _ _).bind hcollect
        · exact (HM.KeepsRegs.of_pure _).bind hcollect
    clear_value root
    cases root with
    | none => exact (HM.KeepsRegs.of_pure _).bind hact
    | some r => exact (settleNode_keepsRegs _ _ _ _ _ _ _).bind hact

theorem queryHank_keepsRegs (who : Who) (ctx : Nat) (fm : BitVec 4) (c : List Byte) : (queryHank who ctx fm c).KeepsRegs := by
  unfold queryHank
  refine (readHank_keepsRegs _ _ _ _).bind fun _ => ?_
  dsimp only
  split
  · exact HM.KeepsRegs.throw_bind _ _
  refine (hRead_keepsRegs _ _ _ _ _).bind fun _ => ?_
  split
  · exact HM.KeepsRegs.of_pure _
  · exact HM.KeepsRegs.of_throw _

theorem queryTemplate_keepsRegs (who : Who) (ctx : Nat) (fm : BitVec 4) (c : List Byte) : (queryTemplate who ctx fm c).KeepsRegs := by
  unfold queryTemplate
  split
  · exact HM.KeepsRegs.of_pure _
  refine (hRead_keepsRegs _ _ _ _ _).bind fun _ => ?_
  refine HM.KeepsRegs.of_get fun _ _ => ?_
  dsimp only
  split
  · exact HM.KeepsRegs.throw_bind _ _
  · exact HM.KeepsRegs.of_pure _

theorem beginQuery_keepsRegs (cluster slot ctx : Nat) (fm : BitVec 4) (addr : Nat) : (beginQuery cluster slot ctx fm addr).KeepsRegs := by
  unfold beginQuery
  dsimp only
  refine (hRead_keepsRegs _ _ _ _ _).bind fun _ => ?_
  refine (HM.KeepsRegs.of_modify (fun _ ht => ht.updBeam _ _ _)).bind fun _ => ?_
  split
  · exact HM.KeepsRegs.throw_bind _ _
  refine (hRead_keepsRegs _ _ _ _ _).bind fun _ => ?_
  split
  · exact HM.KeepsRegs.throw_bind _ _
  · exact (HM.KeepsRegs.of_modify (fun _ ht => ht.updBeam _ _ _)).bind (fun _ => (queryTemplate_keepsRegs _ _ _ _).bind (fun _ =>
      (queryHank_keepsRegs _ _ _ _).bind (fun _ => HM.KeepsRegs.of_pure _)))

theorem performQuery_keepsRegs (b : BeamSlot) (tree : W32) : (performQuery b tree).KeepsRegs :=
  (queryHank_keepsRegs _ _ _ _).bind (fun _ => (queryTemplate_keepsRegs _ _ _ _).bind (fun _ => runBeam_keepsRegs _ _ _ _))

theorem popItems (hs : s.RegsInv) (e : EngEntry) (b : BeamSlot) (popped : Nat) (items : List (Nat × Nat))
    {vs : List (Nat × Nat × Nat)} {n : Nat} {t : State} (ht : s.popItems e b popped items = some (vs, n, t)) : t.RegsInv := by
  induction items generalizing s popped vs n with
  | nil =>
    rw [State.popItems] at ht
    cases ht
    exact hs
  | cons x rest ih =>
    have hnext : ∀ (s1 : State) (p : Nat) (v : Nat × Nat), s1.RegsInv → (match s1.popItems e b p rest with
        | some (vs, n, s2) => some ((x.1, v) :: vs, n, s2)
        | none => none) = some (vs, n, t) → t.RegsInv := by
      intro s1 p v h1 h
      split at h
      · next e1 => cases h; exact ih h1 _ e1
      · cases h
    have hon := (hRead_keepsRegs (.beam b.cluster) b.ctx e.fmode (b.result.toNat + 16 * popped) 16).after hs
    rw [State.popItems] at ht
    split at ht
    · exact hnext _ _ _ hs ht
    split at ht
    · next e1 => exact hnext _ _ _ ((hon.of_pair e1).hankPad _ _ _) ht
    · next e1 =>
      split at ht
      · exact hnext _ _ _ (hon.of_pair e1) ht
      · cases ht

theorem beamStat (hs : s.RegsInv) (group : Option Nat) (handle : W32) (release : Bool) : (s.beamStat group handle release).2.RegsInv := by
  unfold State.beamStat
  split
  · exact hs
  split
  · split
    · exact hs.updBeam _ _ _
    · exact hs
  · split <;> exact hs

theorem popQuery (hs : s.RegsInv) (e : EngEntry) : OptHolds RegsInv (s.popQuery e) := by
  unfold State.popQuery
  split
  · split
    · trivial
    · exact ((hs.beamStat _ _ _).takeEntry _).entryDone _ _ _ _
  · split
    · trivial
    split
    · exact (hs.takeEntry _).hankDoneAll _ _
    split
    · trivial
    split
    · trivial
    · next e1 => exact (((hs.popItems _ _ _ _ e1).updBeam _ _ _).takeEntry _).hankDoneAll _ _
  · trivial

theorem popWaiting (hs : s.RegsInv) (group handle : Nat) : (s.popWaiting group handle).RegsInv := foldl _ (fun _ _ ht => (ht.popQuery _).getD ht) _ hs

theorem exec_beamQueryStart (hs : s.RegsInv) (cluster : Nat) : OutHolds RegsInv (execBeamQueryStart cluster s) := by
  unfold execBeamQueryStart
  split
  · dsimp only
    split
    · next e3 => exact ((beginQuery_keepsRegs _ _ _ _ _).after hs.keep).of_pair e3
    rename_i e3
    split
    · exact (((beginQuery_keepsRegs _ _ _ _ _).after hs.keep).of_pair e3).updBeam _ _ _
    · exact hs
  · exact hs

theorem runQuery (hs : s.RegsInv) (b : BeamSlot) : OptHolds RegsInv (s.runQuery b) := by
  unfold State.runQuery
  split
  · exact hs
  dsimp only
  split
  · next e => exact (((performQuery_keepsRegs _ _).after hs).of_pair e).updBeam _ _ _
  · next e => exact OptHolds.of_map _ (fun _ => (((performQuery_keepsRegs _ _).after hs).of_pair e).updBeam _ _ _)

theorem putStatus (hs : s.RegsInv) (b : BeamSlot) : (s.putStatus b).2.RegsInv := by
  unfold State.putStatus
  dsimp only
  split
  · exact hs
  split
  · next e => exact ((hCommit_keepsRegs _ _ _ _).after hs).of_pair e
  · next e => exact ((hCommit_keepsRegs _ _ _ _).after hs).of_pair e
  · next e => exact ((hCommit_keepsRegs _ _ _ _).after hs).of_pair e

theorem exec_beamQueryDone (hs : s.RegsInv) (cluster slot : Nat) : OutHolds RegsInv (execBeamQueryDone cluster slot s) := by
  unfold execBeamQueryDone
  split
  · exact hs
  split
  · exact hs
  split
  · exact hs
  · exact hs.popWaiting _ _
  split
  · exact hs
  rename_i t e2
  have ht : t.RegsInv := (hs.runQuery _).get e2
  split
  · exact hs
  split
  · next e4 => exact (ht.putStatus _).of_pair e4
  rename_i t1 e4
  have ht1 : t1.RegsInv := (ht.putStatus _).of_pair e4
  dsimp only
  refine popWaiting ?_ _ _
  split
  · exact (ht1.updBeam _ _ _).entryDone _ _ _ _
  · exact ht1.updBeam _ _ _

theorem exec_bqry (hs : s.RegsInv) (f : FmtX) : OutHolds RegsInv (execBqry f s) := by
  unfold execBqry
  refine hs.closingWord _ fun _ _ _ ht hu => ?_
  dsimp only
  split
  · exact ht
  split
  · exact ht
  split
  · exact ht
  split
  · exact ht
  · exact ht.deferV _ _ _ _ _ _ (fun _ _ ht1 => (foldl _ (fun _ _ ht => (ht.mkEntry _ _ _ _ _ _ _).enqueue _) _ ht1).holdPort _ _ _)

theorem exec_bpop (hs : s.RegsInv) (f : FmtX) : OutHolds RegsInv (execBpop f s) := by
  unfold execBpop
  refine hs.closingWord _ fun _ _ _ ht hu => ?_
  dsimp only
  split
  · exact ht
  split
  · exact ht
  split
  · exact ht
  split
  · exact ht
  · exact ht.deferV _ _ _ _ _ _ (fun _ _ ht1 => (((ht1.mkEntry _ _ _ _ _ _ _).enqueue _).popQuery _).getD ((ht1.mkEntry _ _ _ _ _ _ _).enqueue _))

theorem runBstat (hs : s.RegsInv) (f : FmtX) (release : Bool) : OutHolds RegsInv (s.runBstat f release) := by
  unfold State.runBstat
  refine hs.closingWord _ fun t _ u ht hu => ?_
  extract_lets g handle waits later r part
  have hr : r.2.RegsInv := by
    refine foldl_snd _ (fun acc i h => ?_) _ ht
    exact beamStat h u.group (handle i) release
  split
  · exact ht
  split
  · exact ht
  split
  · exact ht
  · refine hr.deferV _ _ _ _ _ _ fun op t1 h1 => h1.foldl _ (fun t2 i h2 => ?_) _
    exact h2.fresh.enqueue _

end State.RegsInv
end Sys2Proof.Machine
end
section
/-! SUPPORT. Contexts leave register tables canonical. -/

namespace Sys2Proof.Machine
set_option Elab.async false

/-- A re-walk changes what a unit waits for, and may leave it a trap (R165). -/
theorem SUnit.Inv.rewalkUnit {u : SUnit} (hu : u.Inv) (s : State) (c : Nat) : (s.rewalkUnit c u).Inv := by
  unfold State.rewalkUnit
  split
  · exact .ite hu (.ite hu.keep hu.keep)
  · exact hu

namespace State.RegsInv
variable {s : State}

theorem prunePend (hs : s.RegsInv) : (s.prunePend).RegsInv := hs.keep

theorem discardCtx (hs : s.RegsInv) (c : Nat) : (s.discardCtx c).RegsInv := by
  unfold State.discardCtx
  extract_lets us gs kept s1 s2 s3 s4
  have h1 : s1.RegsInv := hs.foldl _ (fun _ _ ht => ht.removeUnit _) _
  have h2 : s2.RegsInv := h1.keep
  have h3 : s3.RegsInv := h2.foldl _ (fun _ _ ht => ht.releaseGroup _) _
  have h4 : s4.RegsInv := h3.keep
  exact h4.prunePend

theorem cancelCopies (hs : s.RegsInv) (c : Nat) (p : Copy → Bool) : (s.cancelCopies c p).RegsInv := by
  unfold State.cancelCopies
  dsimp only
  refine foldl _ (fun _ _ ht => ?_) _ hs
  split
  · exact ht.endEntryCopy _ _ _
  · exact ht.putCopy _

theorem endTrees (hs : s.RegsInv) (c : Nat) (end_ : Tree → Nat × W32 × W64) : (s.endTrees c end_).RegsInv := by
  unfold State.endTrees
  dsimp only
  exact foldl _ (fun _ _ ht => ht.reportEntry _ _ _ _ _ _ _ _) _ hs.keep

theorem contextFault (hs : s.RegsInv) (c : Nat) (cause : W32) (tval need : W64) : (s.contextFault c cause tval need).RegsInv := by
  unfold State.contextFault
  split
  · exact hs
  split
  · exact hs
  · exact (((foldl _ (fun _ _ ht => ht.reportEntry _ _ _ _ _ _ _ _) _ (((hs.cancelCopies _ _).discardCtx _).endTrees _ _)).haltQueues _).updCtx _ _).raiseEvent _

theorem cancelWaiting (hs : s.RegsInv) (c q : Nat) (p : Entry → Bool) : (s.cancelWaiting c q p).RegsInv := by
  unfold State.cancelWaiting
  split
  · exact hs
  refine foldl _ (fun _ _ ht => ?_) _ hs
  dsimp only
  refine reportEntry ?_ _ _ _ _ _ _ _ _
  split
  · exact ht.consume _ _ _
  · exact ht

theorem leaveChunks (hs : s.RegsInv) (c : Nat) : (s.leaveChunks c).RegsInv := by
  unfold State.leaveChunks
  dsimp only
  exact (foldl _ (fun _ _ ht => ht.loseRange _ _) _ hs).keep

theorem terminateCtx (hs : s.RegsInv) (c : Nat) : (s.terminateCtx c).RegsInv :=
  (((foldl _ (fun _ _ ht => ht.cancelWaiting _ _ _) _ (((hs.cancelCopies _ _).discardCtx _).endTrees _ _)).keep.leaveChunks _).dropTlb _).updCtx _ _

theorem wakeHolds (hs : s.RegsInv) (c : Nat) (p : Who → Nat → Nat → Bool) : (s.wakeHolds c p).RegsInv := by
  unfold State.wakeHolds
  refine hs.mapUnits _ (fun u hu => .ite ?_ hu) rfl
  split
  · exact .ite hu.keep hu
  · exact hu

theorem rewalkWhere (hs : s.RegsInv) (c : Nat) (p : Nat → Bool) : (s.rewalkWhere c p).RegsInv := by
  unfold State.rewalkWhere
  dsimp only
  refine foldl _ (fun _ _ ht => ?_) _ (hs.mapUnits _ (fun u hu => .ite ?_ hu) rfl)
  · split
    · exact (ht.pageRequest _ _ _ _).getD ht
    · exact ht
  · split
    · exact .ite (hu.rewalkUnit s c) hu
    · exact hu

theorem rewalk (hs : s.RegsInv) (c : Nat) : (s.rewalk c).RegsInv := (((hs.updCtx _ _).rewalkWhere _ _).wakeHolds _ _).retryReleases _

theorem rewalkUnasked (hs : s.RegsInv) (c : Nat) : (s.rewalkUnasked c).RegsInv := ((hs.wakeHolds _ _).rewalkWhere _ _).retryReleases _

theorem exec_resolveWrite (hs : s.RegsInv) (ctx : Nat) : OutHolds RegsInv (execResolveWrite ctx s) := hs.rewalk _

theorem exec_consumedWrite (hs : s.RegsInv) (ctx : Nat) (value : BitVec 64) : OutHolds RegsInv (execConsumedWrite ctx value s) := by
  unfold execConsumedWrite
  split
  · exact hs
  split
  · exact hs
  · exact (hs.updCtx _ _).rewalkUnasked _

theorem exec_watchdog (hs : s.RegsInv) (unit : Nat) : OutHolds RegsInv (execWatchdog unit s) := by
  unfold execWatchdog
  split
  · exact hs
  dsimp only
  split
  · split
    · exact hs.contextFault _ _ _ _
    · exact hs
  split
  · exact hs.contextFault _ _ _ _
  · exact hs

theorem checkQueue (hs : s.RegsInv) (q : HostQueue) (e : Entry) : (s.checkQueue q e).2.RegsInv := by
  unfold State.checkQueue
  split
  · next e1 => exact (hs.fwTranslate _ _ _ _ _ _).of_pair e1
  · next e1 => exact (hs.fwTranslate _ _ _ _ _ _).of_pair e1
  rename_i e1
  exact (hs.fwTranslate _ _ _ _ _ _).of_pair e1

theorem settleContext (hs : s.RegsInv) (op : Nat) (act : State → HostQueue → Entry → State) (hact : ∀ t b c, t.RegsInv → (act t b c).RegsInv) :
    OutHolds RegsInv (s.settleContext op act) := by
  unfold State.settleContext
  split
  · exact hs
  split
  · exact hs
  split
  · exact hs.reportEntry _ _ _ _ _ _ _ _
  split
  · exact hs.reportEntry _ _ _ _ _ _ _ _
  split
  · exact hs.reportEntry _ _ _ _ _ _ _ _
  · exact hact _ _ _ hs

theorem contextDone (hs : s.RegsInv) (q : HostQueue) (e : Entry) : (s.contextDone q e).RegsInv := hs.reportEntry _ _ _ _ _ _ _ _

theorem contextStep (hs : s.RegsInv) (q : HostQueue) (e : Entry) (n : Nat) : (s.contextStep q e n).RegsInv := hs.updEntry _ _ _ _

theorem completePerformed (hs : s.RegsInv) (op : Nat) (settled : Entry → Option Nat) : OptHolds RegsInv (s.completePerformed op settled) :=
  .findSome _ fun _ => .of_map _ fun _ => hs.reportEntry _ _ _ _ _ _ _ _

theorem exec_contextCreate (hs : s.RegsInv) : OutHolds RegsInv (execContextCreate s) := by
  unfold execContextCreate
  refine hs.settleContext _ _ fun _ _ _ ht => ?_
  exact ht.keep.contextDone _ _

theorem exec_contextPaging (hs : s.RegsInv) : OutHolds RegsInv (execContextPaging s) := by
  unfold execContextPaging
  refine hs.settleContext _ _ fun _ _ _ ht => ?_
  exact ((ht.updCtx _ _).dropTlb _).contextDone _ _

theorem exec_contextQueue (hs : s.RegsInv) : OutHolds RegsInv (execContextQueue s) := by
  unfold execContextQueue
  refine hs.settleContext _ _ fun _ _ _ ht => ?_
  split
  · next e => exact ((ht.checkQueue _ _).of_pair e).holdEntry _ _ _
  · next e => exact ((ht.checkQueue _ _).of_pair e).failEntry _ _ _ _ _
  · next e => exact ((ht.checkQueue _ _).of_pair e).reportEntry _ _ _ _ _ _ _ _
  rename_i t1 e
  have ht1 : t1.RegsInv := (ht.checkQueue _ _).of_pair e
  split
  · exact ht1.keep.contextDone _ _
  · exact ht1.keep.contextDone _ _

theorem cancelRecord (hs : s.RegsInv) (d : DevQueue) (bs : List Byte) : (s.cancelRecord d bs).RegsInv := (hs.treeFail _ _ _ _ _).treeDec _ _

theorem cancelRecords (hs : s.RegsInv) (d : DevQueue) (pop n : Nat) : (s.cancelRecords d pop n).RegsInv := by
  induction n generalizing s pop with
  | zero => exact hs
  | succ n ih =>
    rw [State.cancelRecords]
    refine ih ?_ _
    split
    · next e =>
      have h1 := (hs.dqAccess _ _ _ _).of_pair e
      extract_lets bs
      split
      · exact (h1.dqSettle _).cancelRecord _ _
      · exact h1
    · next e => exact (hs.dqAccess _ _ _ _).of_pair e

theorem cancelSpawns (hs : s.RegsInv) (d : DevQueue) : (s.cancelSpawns d).RegsInv := by
  unfold State.cancelSpawns
  dsimp only
  refine foldl _ (fun _ _ ht => ?_) _ (hs.dropEntries _)
  split
  · exact ht.cancelRecord _ _
  · exact ht

theorem destroyDevq (hs : s.RegsInv) (q : HostQueue) (e : Entry) (d : DevQueue) : (s.destroyDevq q e d).RegsInv := by
  unfold State.destroyDevq
  split
  · next e1 =>
      exact (((((hs.dqProducer _ _).of_pair e1).dqSettle _).cancelSpawns _).cancelRecords _ _ _).keep.contextDone _ _
  · next t e1 =>
      have ht : t.RegsInv := (hs.dqProducer _ _).of_pair e1
      exact ((ht.pageRequest _ _ _ _).getD ht).holdEntry _ _ _
  · next e1 => exact ((hs.dqProducer _ _).of_pair e1).holdEntry _ _ _
  · next e1 => exact ((hs.dqProducer _ _).of_pair e1).failEntry _ _ _ _ _

theorem exec_contextUnqueue (hs : s.RegsInv) : OutHolds RegsInv (execContextUnqueue s) := by
  unfold execContextUnqueue
  split
  · next e => exact (hs.completePerformed _ _).get e
  refine hs.settleContext _ _ fun _ _ _ ht => ?_
  split
  · split
    · exact ht.contextDone _ _
    · exact ht.destroyDevq _ _ _
  split
  · exact ht.contextDone _ _
  · exact ((ht.cancelWaiting _ _ _).updHq _ _ _).contextStep _ _ _

theorem exec_contextInval (hs : s.RegsInv) : OutHolds RegsInv (execContextInval s) := by
  unfold execContextInval
  refine hs.settleContext _ _ fun _ _ _ ht => ?_
  exact (ht.dropTlb _).contextStep _ _ _

theorem exec_invalidationComplete (hs : s.RegsInv) : OutHolds RegsInv (execInvalidationComplete s) := by
  unfold execInvalidationComplete
  split
  · exact hs
  · exact foldl _ (fun _ _ ht => ht.rewalk _) _ (hs.reportEntry _ _ _ _ _ _ _ _)

theorem exec_contextSuspend (hs : s.RegsInv) : OutHolds RegsInv (execContextSuspend s) := by
  unfold execContextSuspend
  split
  · next e => exact (hs.completePerformed _ _).get e
  refine hs.settleContext _ _ fun _ _ _ ht => ?_
  split
  · split
    · exact (ht.suspendCtx _).contextStep _ _ _
    · exact ht.contextDone _ _
  · exact ht

theorem exec_contextResume (hs : s.RegsInv) : OutHolds RegsInv (execContextResume s) := by
  unfold execContextResume
  split
  · next e => exact (hs.completePerformed _ _).get e
  refine hs.settleContext _ _ fun _ _ _ ht => ?_
  split
  · split
    · exact (ht.updCtx _ _).contextStep _ _ _
    · exact ht.contextDone _ _
  · exact ht

theorem exec_contextTerminate (hs : s.RegsInv) : OutHolds RegsInv (execContextTerminate s) :=
  hs.settleContext _ _ (fun _ _ _ ht => (ht.terminateCtx _).contextDone _ _)

theorem changeMap (hs : s.RegsInv) (p : Part) : (s.changeMap p).RegsInv := hs.keep

theorem exec_contextResize (hs : s.RegsInv) : OutHolds RegsInv (execContextResize s) := by
  unfold execContextResize
  split
  · next e => exact (hs.completePerformed _ _).get e
  refine hs.settleContext _ _ fun _ _ _ ht => ?_
  dsimp only
  split
  · split
    · exact ((ht.updPart _ _).changeMap _).contextDone _ _
    · exact (foldl _ (fun _ _ ht => (ht.suspendCtx _).updCtx _ _) _ (ht.updPart _ _)).contextStep _ _ _
  split
  · exact (ht.keep.changeMap _).contextDone _ _
  · exact (foldl _ (fun _ _ ht => (ht.suspendCtx _).updCtx _ _) _ ht.keep).contextStep _ _ _

theorem exec_resizeMapChange (hs : s.RegsInv) : OutHolds RegsInv (execResizeMapChange s) := by
  unfold execResizeMapChange
  dsimp only
  split
  · exact hs
  · exact hs.changeMap _

end State.RegsInv
end Sys2Proof.Machine
end
section
/-! SUPPORT. Saving and restoring a context leaves register tables canonical. -/

namespace Sys2Proof.Machine
set_option Elab.async false

namespace State.RegsInv
variable {s : State}

theorem discardRegions (hs : s.RegsInv) (c : Nat) : (s.discardRegions c).RegsInv := by
  unfold State.discardRegions
  refine foldl _ (fun _ _ ht => ?_) _ hs
  split
  · split
    · exact ht
    · exact (ht.discardRegion _ _).markUnit _ _
  · exact ht

theorem takeOff (hs : s.RegsInv) (g : Group) : (s.takeOff g).RegsInv := hs.keep

theorem takeOffAll (hs : s.RegsInv) (c : Nat) : (s.takeOffAll c).RegsInv :=
  updCtx ((foldl _ (fun _ _ ht => ht.takeOff _) _ (foldl _ (fun _ _ ht => ht.publish _ _) _ hs)).mapUnits _ (fun _ hu => .ite hu.keep hu) rfl) _ _

theorem saveTurn (hs : s.RegsInv) : SomeHolds RegsInv s.saveTurn := by
  refine .findSome _ fun x => ?_
  extract_lets s1
  split
  · exact hs.discardRegions _
  · trivial

theorem exec_contextSaveComplete (hs : s.RegsInv) : OutHolds RegsInv (execContextSaveComplete s) := by
  unfold execContextSaveComplete
  split
  · exact hs
  rename_i t e
  have ht : t.RegsInv := hs.saveTurn.get e
  dsimp only
  split
  · exact (foldl _ (fun _ _ ht => ht.publish _ _) _ ht).contextFault _ _ _ _
  · exact ((foldl _ (fun _ _ ht => ht.publish _ _) _ ht).writeHome _ _ _).takeOffAll _

theorem seatUnits (hs : s.RegsInv) (g : Group) (l : List SUnit) : (s.seatUnits g l).RegsInv := by
  induction l generalizing s g with
  | nil => exact hs
  | cons x xs ih =>
    rw [State.seatUnits]
    split
    · exact ih hs _
    · exact ih (hs.markUnit _ _) _

theorem putBack (hs : s.RegsInv) (g new : Group) : (s.putBack g new).RegsInv := by
  unfold State.putBack
  extract_lets us core n ofGroup moveCopy
  split
  extract_lets g1 s1 s2 s3 badWords badRows poison s4 s5
  have h1 : s1.RegsInv := (hs.updGroup _ _).clearPlaced _
  have h2 : s2.RegsInv := h1.foldl _ (fun _ _ ht => ht.setRow _ _) _
  have h3 : s3.RegsInv := h2.foldl _ (fun _ _ ht => ht.writePad _ _ _) _
  have h4 : s4.RegsInv := foldl _ (fun _ _ ht => ht.setTile _) _ h3.keep
  have h5 : s5.RegsInv := h4.mapUnits _ (fun _ hu => .ite hu.keep hu) rfl
  exact h5.seatUnits _ _

theorem restoreGroups (hs : s.RegsInv) (p : Nat) (l : List Group) : OptHolds RegsInv (s.restoreGroups p l) := by
  induction l generalizing s p with
  | nil => exact hs
  | cons x xs ih =>
    rw [State.restoreGroups]
    split
    · trivial
    dsimp only
    split
    · trivial
    · exact ih ((hs.putBack _ _).updPart _ _) _

theorem restored (hs : s.RegsInv) (x : Ctx) : (s.restored x).RegsInv := by
  unfold State.restored
  dsimp only
  exact (hs.keep.updCtx _ _).rewalkWhere _ _

theorem seatSpans (hs : s.RegsInv) (core : Nat) (l : List SUnit) : (s.seatSpans core l).RegsInv := by
  induction l generalizing s core with
  | nil => exact hs
  | cons x xs ih =>
    rw [State.seatSpans]
    exact ih (hs.markUnit _ _) _

theorem restoreStep (hs : s.RegsInv) (x : Ctx) : (s.restoreStep x).RegsInv := by
  unfold State.restoreStep
  split
  · dsimp only
    split
    · exact ((hs.seatSpans _ _).updLaunch _ _).updPart _ _
    · exact hs
  · exact hs
  split
  · exact hs.restored _
  · exact hs
  dsimp only
  split
  · split
    · exact hs.contextFault _ _ _ _
    · exact (hs.restoreGroups _ _).getD hs
  split
  · exact hs.contextFault _ _ _ _
  · exact (hs.restoreGroups _ _).getD hs

theorem exec_contextRestore (hs : s.RegsInv) : OutHolds RegsInv (execContextRestore s) := by
  unfold execContextRestore
  refine OptHolds.getD (.findSome _ fun part => ?_) hs
  split
  · extract_lets t
    split
    · trivial
    · exact hs.restoreStep _
  · trivial

end State.RegsInv
end Sys2Proof.Machine
end
section
/-! SUPPORT. Power-on, firmware and the host side leave register tables canonical. -/

namespace Sys2Proof.Machine
set_option Elab.async false

namespace State.RegsInv
variable {s : State}

theorem allStages (hs : s.RegsInv) (st : Stage) : (s.allStages st).RegsInv := hs.keep

/-- A state without units. -/
theorem of_nil {t : State} (e : t.units = []) : t.RegsInv := fun _ hu => absurd (e ▸ hu) List.not_mem_nil

theorem enterHold : s.enterHold.RegsInv := of_nil rfl

theorem exec_powerOnReset : OutHolds RegsInv (execPowerOnReset s) := of_nil rfl

theorem boot (hs : s.RegsInv) : (s.boot).RegsInv := by
  unfold State.boot
  dsimp only
  split
  · exact hs.keep
  · exact hs

theorem exec_selftestDone (hs : s.RegsInv) (die : Nat) (r : SelfTest) : OutHolds RegsInv (execSelftestDone die r s) := by
  unfold execSelftestDone
  split
  · exact hs
  dsimp only
  split
  · exact enterHold
  split
  · exact enterHold
  · exact (hs.keep.updDie _ _).updDie _ _

theorem makeMgmt (hs : s.RegsInv) : (s.makeMgmt).RegsInv := by
  unfold State.makeMgmt
  dsimp only
  split <;> exact hs.keep

theorem load (hs : s.RegsInv) : (s.load).RegsInv := by
  unfold State.load
  split
  · exact hs
  · exact hs.keep.allStages _

theorem exec_verifyDone (hs : s.RegsInv) : OutHolds RegsInv (execVerifyDone s) := by
  unfold execVerifyDone
  split
  · exact hs
  dsimp only
  split
  · exact hs.keep.allStages _
  split
  · exact hs.keep.allStages _
  · exact (hs.keep.allStages _).makeMgmt

theorem writeMgmtq (hs : s.RegsInv) (value : W64) : (s.writeMgmtq value).RegsInv := by
  unfold State.writeMgmtq
  split
  · exact hs
  dsimp only
  split
  · exact hs.keep.makeMgmt
  · exact hs.keep

theorem dieFault (hs : s.RegsInv) (d : Nat) : (s.dieFault d).RegsInv := by
  unfold State.dieFault
  split
  · exact hs
  · exact foldl _ (fun _ _ ht => ht.terminateCtx _) _ ((hs.updDie _ _).raise _)

theorem exec_lockstepMismatch (hs : s.RegsInv) (die : Nat) : OutHolds RegsInv (execLockstepMismatch die s) := by
  unfold execLockstepMismatch
  dsimp only
  split
  · exact hs
  show RegsInv _
  split
  · exact (hs.updDie _ _).dieFault _
  · exact hs.updDie _ _

theorem exec_thermalEvent (hs : s.RegsInv) (die celsius : Nat) : OutHolds RegsInv (execThermalEvent die celsius s) := by
  unfold execThermalEvent
  dsimp only
  show RegsInv _
  split
  · exact (hs.updDie _ _).dieFault _
  · exact hs.updDie _ _

theorem exec_creelRefreshWindowEnd (hs : s.RegsInv) (die : Nat) : OutHolds RegsInv (execCreelRefreshWindowEnd die s) := hs

theorem exec_hostLinkUp (hs : s.RegsInv) (l gen width cxl : Nat) : OutHolds RegsInv (execHostLinkUp l gen width cxl s) := by
  unfold execHostLinkUp
  dsimp only
  split
  · exact hs
  · exact foldl _ (fun _ _ ht => ht.raise _) _ hs.keep

theorem exec_hostLinkDown (hs : s.RegsInv) (l : Nat) : OutHolds RegsInv (execHostLinkDown l s) := by
  unfold execHostLinkDown
  dsimp only
  split
  · exact hs.keep
  · exact foldl _ (fun _ _ ht => ht.countDrop) _ hs.keep

theorem answerHost (hs : s.RegsInv) (op : Nat) (ok : Bool) (data : List Byte) : (s.answerHost op ok data).RegsInv := by
  unfold State.answerHost
  extract_lets s1
  have h1 : s1.RegsInv := hs.keep
  split
  · exact h1.serveReq _
  · exact h1

theorem exec_bar2Read (hs : s.RegsInv) (off n : Nat) : OutHolds RegsInv (execBar2Read off n s) := by
  unfold execBar2Read
  dsimp only
  split
  · exact hs.out _
  split
  · refine out ?_ _
    split
    · exact (hs.serveLines _).countDrop
    · exact hs.serveLines _
  · exact (hs.serveLines _).out _

theorem exec_bar2Write (hs : s.RegsInv) (off : Nat) (bytes : List Byte) : OutHolds RegsInv (execBar2Write off bytes s) := by
  unfold execBar2Write
  dsimp only
  split
  · exact hs
  · exact (hs.serveLines _).writeEngineAt _ _ _

theorem writePort (hs : s.RegsInv) (p : Nat) (v : W64) : (s.writePort p v).RegsInv := by
  unfold State.writePort
  extract_lets then_ s1 s2 s3
  have hthen : ∀ o t, OutHolds RegsInv o → t.RegsInv → (then_ o t).RegsInv := by
    intro o t ho ht
    cases o with
    | next t1 => exact ho
    | fault _ => exact ht
    | refused _ => exact ht
  have h1 : s1.RegsInv := hs.updPort _ _
  have h2 : s2.RegsInv := hthen _ _ (h1.exec_portIsolate _ _) h1
  have h3 : s3.RegsInv := by
    unfold s3
    split
    · exact hthen _ _ (h2.exec_portEnable _ _) h2
    · exact h2
  split
  · exact hthen _ _ (h3.exec_retrain _) h3
  · exact h3

theorem writeRange (hs : s.RegsInv) (i : Nat) (second : Bool) (v mask : W64) : (s.writeRange i second v mask).RegsInv := by
  unfold State.writeRange
  split
  · exact hs
  · exact hs.keep

theorem writeMailbox (hs : s.RegsInv) (a : Nat) (v mask : W64) : (s.writeMailbox a v mask).RegsInv := by
  unfold State.writeMailbox
  dsimp only
  split
  · split
    · exact hs.keep
    · exact hs
  · split
    · exact hs.keep
    · exact hs
  · split
    · exact hs.load
    · exact hs
  · exact hs.writeMgmtq _
  · exact hs

theorem writeMsix (hs : s.RegsInv) (off size : Nat) (v : W64) : (s.writeMsix off size v).RegsInv := hs.keep

theorem hostWrite (hs : s.RegsInv) (off size : Nat) (v : W64) : (s.hostWrite off size v).RegsInv := by
  unfold State.hostWrite
  split
  · exact hs
  dsimp only
  split
  · exact hs.writeMailbox _ _ _
  split
  · exact hs
  split
  · split
    · split
      · split
        · next e2 => exact (hs.exec_tailWrite _ _ _).of_next e2
        · exact hs
      · exact hs
    split
    · split
      · next e1 => exact (hs.exec_tailWrite _ _ _).of_next e1
      · exact hs
    · exact hs
  split
  · split
    · split
      · next e1 => exact (hs.exec_resolveWrite _).of_next e1
      · exact hs
    · split
      · split
        · next e2 => exact (hs.exec_consumedWrite _ _).of_next e2
        · exact hs
      · exact hs
    · exact hs
  split
  · exact hs.writeMsix _ _ _
  split
  · split
    · split
      · exact hs.writePort _ _
      · exact hs
    split
    · exact hs.writePort _ _
    · exact hs
  split
  · exact hs.keep
  split
  · exact hs.writeRange _ _ _ _
  · exact hs

theorem spdmAnswer (hs : s.RegsInv) (carrier code : Nat) (legal : Bool) (session : Spdm) (bytes : List Byte) :
    OutHolds RegsInv (s.spdmAnswer carrier code legal session bytes) := by
  unfold State.spdmAnswer
  split
  · exact hs
  split
  · exact hs.keep
  · exact hs.out _

theorem spdmSigned (hs : s.RegsInv) (carrier code : Nat) (legal : Bool) (bytes : List Byte) : OutHolds RegsInv (s.spdmSigned carrier code legal bytes) :=
  hs.spdmAnswer _ _ _ _ _

theorem exec_uncorrectableError (hs : s.RegsInv) (unit : PoisonUnit) : OutHolds RegsInv (execUncorrectableError unit s) := by
  unfold execUncorrectableError
  split
  · exact hs.poisonLines _
  · exact hs.poisonPad _
  · exact hs.keep

end State.RegsInv
end Sys2Proof.Machine
end
section
/-! SUPPORT. Lane and accumulator words leave register tables canonical. -/

namespace Sys2Proof.Machine
set_option Elab.async false

namespace State.RegsInv
variable {s : State}

theorem runCmp (hs : s.RegsInv) (f : FmtV) (o : Opd) (ordered : W64 → W64 → Option Ordering) : OutHolds RegsInv (s.runCmp f o ordered) := by
  unfold State.runCmp
  refine hs.word _ fun _ _ _ ht hu => ?_
  exact ht.cmpResult hu _ _ _ _ _

theorem exec_icmpImm (hs : s.RegsInv) (f : FmtI) : OutHolds RegsInv (execIcmpImm f s) := hs.word _ (fun _ _ _ ht hu => ht.cmpResult hu _ _ _ _ _)

theorem exec_sel (hs : s.RegsInv) (f : FmtV) : OutHolds RegsInv (execSel f s) := by
  unfold execSel
  refine hs.word _ fun _ _ _ ht hu => ?_
  dsimp only
  split <;> exact ht.result hu _ _ _ _ _ _ _ (fun _ ht1 => ht1)

theorem exec_fcmpImm (hs : s.RegsInv) (f : FmtI) : OutHolds RegsInv (execFcmpImm f s) := hs.word _ (fun _ _ _ ht hu => ht.cmpResult hu _ _ _ _ _)

theorem exec_cvt (hs : s.RegsInv) (f : FmtV) : OutHolds RegsInv (execCvt f s) := by
  unfold execCvt
  refine hs.word _ fun _ _ _ ht hu => ?_
  exact ht.result hu _ _ _ _ _ _ _ (fun _ ht1 => ht1)

theorem exec_pack (hs : s.RegsInv) (f : FmtV) : OutHolds RegsInv (execPack f s) := by
  unfold execPack
  refine hs.word _ fun _ _ _ ht hu => ?_
  exact ht.result hu _ _ _ _ _ _ _ (fun _ ht1 => ht1)

theorem exec_unpk (hs : s.RegsInv) (f : FmtV) : OutHolds RegsInv (execUnpk f s) := by
  unfold execUnpk
  refine hs.word _ fun _ _ _ ht hu => ?_
  exact ht.result hu _ _ _ _ _ _ _ (fun _ ht1 => ht1)

theorem blockResult (hs : s.RegsInv) {u : SUnit} (hu : u.Inv) (g : Guard) (d : Nat) (isU : Bool) (x : Nat → W32)
    (k : State → Res) (hk : ∀ t, t.RegsInv → (k t).state.RegsInv) :
    (s.blockResult u g d isU x k).state.RegsInv := by
  unfold State.blockResult
  dsimp only
  split
  · exact hk _ hs
  · split <;> split <;> exact hs.writeV hu _ _ _ hk

theorem exec_qmx (hs : s.RegsInv) (f : FmtV) : OutHolds RegsInv (execQmx f s) := by
  unfold execQmx
  refine hs.closingWord _ fun _ _ _ ht hu => ?_
  split
  · exact ht
  dsimp only
  split
  · exact ht
  · exact ht.blockResult hu _ _ _ _ _ (fun _ ht1 => ht1.updUnit _ _ fun _ hu => hu.setK _ _)

theorem exec_dqmx (hs : s.RegsInv) (f : FmtV) : OutHolds RegsInv (execDqmx f s) := by
  unfold execDqmx
  refine hs.word _ fun _ _ _ ht hu => ?_
  split
  · exact ht
  · exact ht.blockResult hu _ _ _ _ _ (fun _ ht1 => ht1)

theorem exec_qply (hs : s.RegsInv) (f : FmtV) : OutHolds RegsInv (execQply f s) := by
  unfold execQply
  refine hs.closingWord _ fun _ _ _ ht hu => ?_
  split
  · exact ht
  dsimp only
  split
  · exact ht
  · exact ht.blockResult hu _ _ _ _ _ (fun _ ht1 => ht1.updUnit _ _ fun _ hu => hu.setK _ _)

theorem exec_dqply (hs : s.RegsInv) (f : FmtV) : OutHolds RegsInv (execDqply f s) := by
  unfold execDqply
  refine hs.word _ fun _ _ _ ht hu => ?_
  split
  · exact ht
  · exact ht.blockResult hu _ _ _ _ _ (fun _ ht1 => ht1)

theorem exec_kmov (hs : s.RegsInv) (f : FmtV) : OutHolds RegsInv (execKmov f s) := by
  unfold execKmov
  dsimp only
  split
  · refine hs.word _ fun _ _ _ ht hu => ?_
    split
    · exact ht
    split
    · exact ht
    · exact ht.writeV hu _ _ _ (fun _ ht1 => ht1)
  refine hs.closingWord _ fun _ _ _ ht hu => ?_
  split
  · exact ht
  split
  · exact ht
  · exact ht.updUnit _ _ fun _ hu => hu.setK _ _

theorem runLane (hs : s.RegsInv) (f : FmtV) (closes : Bool) (body : State → SUnit → Guard → Res)
    (hbody : ∀ t u g, t.RegsInv → u.Inv → (body t u g).state.RegsInv) :
    OutHolds RegsInv (s.runLane f closes body) := by
  unfold State.runLane
  dsimp only
  split
  · refine hs.closingWord _ fun _ _ _ ht hu => ?_
    split
    · exact ht
    · exact hbody _ _ _ ht hu
  refine hs.word _ fun _ _ _ ht hu => ?_
  split
  · exact ht
  · exact hbody _ _ _ ht hu

theorem permute (hs : s.RegsInv) (f : FmtV) {u : SUnit} (hu : u.Inv) (g : Guard) (j : Nat → Int) (valid : Bool) : (s.permute f u g j valid).state.RegsInv := by
  unfold State.permute
  dsimp only
  split
  · exact hs
  split
  · exact hs
  refine hs.writeV hu _ _ _ fun _ ht => ?_
  split
  · exact ht.writeP (ht.unit_getD _ hu) _ _ _ _ fun _ ht1 => ht1
  · exact ht

theorem exec_perm (hs : s.RegsInv) (f : FmtV) : OutHolds RegsInv (execPerm f s) := hs.runLane _ _ _ (fun _ _ _ ht hu => ht.permute _ hu _ _ _)

theorem exec_shfl (hs : s.RegsInv) (f : FmtV) : OutHolds RegsInv (execShfl f s) := by
  unfold execShfl
  refine hs.runLane _ _ _ fun _ _ _ ht hu => ?_
  exact ht.permute _ hu _ _ _

theorem exec_bcast (hs : s.RegsInv) (f : FmtV) : OutHolds RegsInv (execBcast f s) := by
  unfold execBcast
  refine hs.runLane _ _ _ fun _ _ _ ht hu => ?_
  exact ht.permute _ hu _ _ _

theorem exec_votea (hs : s.RegsInv) (f : FmtV) : OutHolds RegsInv (execVotea f s) :=
  hs.runLane _ _ _ (fun _ _ _ ht hu => ht.writeP hu _ _ _ _ (fun _ ht1 => ht1))

theorem exec_votey (hs : s.RegsInv) (f : FmtV) : OutHolds RegsInv (execVotey f s) :=
  hs.runLane _ _ _ (fun _ _ _ ht hu => ht.writeP hu _ _ _ _ (fun _ ht1 => ht1))

theorem exec_ballot (hs : s.RegsInv) (f : FmtV) : OutHolds RegsInv (execBallot f s) := by
  unfold execBallot
  refine hs.runLane _ _ _ fun _ _ _ ht hu => ?_
  exact ht.writeV hu _ _ _ (fun _ ht1 => ht1)

theorem exec_scan (hs : s.RegsInv) (f : FmtV) : OutHolds RegsInv (execScan f s) := by
  unfold execScan
  refine hs.runLane _ _ _ fun _ _ _ ht hu => ?_
  dsimp only
  split
  · exact ht
  · exact ht.writeV hu _ _ _ (fun _ ht1 => ht1)

theorem exec_redi (hs : s.RegsInv) (f : FmtV) : OutHolds RegsInv (execRedi f s) := by
  unfold execRedi
  refine hs.runLane _ _ _ fun _ _ _ ht hu => ?_
  dsimp only
  split
  · exact ht
  · exact ht.writeV hu _ _ _ (fun _ ht1 => ht1)

theorem exec_xadd (hs : s.RegsInv) (f : FmtV) : OutHolds RegsInv (execXadd f s) := by
  unfold execXadd
  refine hs.runLane _ _ _ fun _ _ _ ht hu => ?_
  exact ht.updUnit _ _ fun _ hu => hu.setX _ _

theorem exec_xrnd (hs : s.RegsInv) (f : FmtV) : OutHolds RegsInv (execXrnd f s) := by
  unfold execXrnd
  refine hs.runLane _ _ _ fun _ _ _ ht hu => ?_
  dsimp only
  split
  · exact ht
  · exact ht.writeV hu _ _ _ (fun _ ht1 => ht1)

theorem exec_xclr (hs : s.RegsInv) (f : FmtV) : OutHolds RegsInv (execXclr f s) := by
  unfold execXclr
  refine hs.runLane _ _ _ fun _ _ _ ht hu => ?_
  split
  · exact ht
  · exact ht.updUnit _ _ fun _ hu => hu.setX _ _

theorem imagePlace (hs : s.RegsInv) (f : FmtV) (u : SUnit) (g : Guard) (k : Nat → Nat → Res) (hk : ∀ a b, (k a b).state.RegsInv) :
    (s.imagePlace f u g k).state.RegsInv := by
  unfold State.imagePlace
  dsimp only
  split
  · exact hs
  split
  · exact hs
  split
  · exact hs
  · exact hk _ _

theorem exec_xld (hs : s.RegsInv) (f : FmtV) : OutHolds RegsInv (execXld f s) := by
  unfold execXld
  refine hs.runLane _ _ _ fun _ _ _ ht hu => ?_
  split
  · exact ht
  · exact ht.imagePlace _ _ _ _ (fun _ _ => ht.addPend _ _ _ _ _ _)

theorem exec_xst (hs : s.RegsInv) (f : FmtV) : OutHolds RegsInv (execXst f s) := by
  unfold execXst
  refine hs.runLane _ _ _ fun _ _ _ ht hu => ?_
  split
  · exact ht
  dsimp only
  split
  · exact ht
  split
  · exact ht
  · exact ht.writePad _ _ _

theorem exec_shape (hs : s.RegsInv) (f : FmtV) : OutHolds RegsInv (execShape f s) := by
  unfold execShape
  refine hs.runLane _ _ _ fun _ _ _ ht hu => ?_
  dsimp only
  split
  · exact ht
  · exact ht.writeV hu _ _ _ (fun _ ht1 => ht1)

end State.RegsInv
end Sys2Proof.Machine
end
section
/-! SUPPORT. Every instruction and event keeps register tables in canonical form, and so does the step (O7). -/

namespace Sys2Proof.Machine
set_option Elab.async false

namespace State.RegsInv
variable {s : State}

/-- No instruction or event leaves a unit's tables out of canonical form. -/
theorem exec (hs : s.RegsInv) (i : Instr) : OutHolds RegsInv (exec i s) := by
  cases i with
  | powerOnReset => exact exec_powerOnReset
  | selftestDone _ _ => exact hs.exec_selftestDone _ _
  | loadFw => exact hs.load
  | verifyDone => exact hs.exec_verifyDone
  | mgmtqWrite _ => exact hs.writeMgmtq _
  | powerInputFault => exact enterHold
  | thermalEvent _ _ => exact hs.exec_thermalEvent _ _
  | creelHotModeChange _ _ => exact hs.updDie _ _
  | creelRefreshWindowEnd die => exact hs.exec_creelRefreshWindowEnd die
  | lockstepMismatch _ => exact hs.exec_lockstepMismatch _
  | hostLinkUp _ _ _ _ => exact hs.exec_hostLinkUp _ _ _ _
  | hostLinkDown _ => exact hs.exec_hostLinkDown _
  | hostReadCompletion _ _ _ => exact hs.answerHost _ _ _
  | hostCompletionTimeout _ => exact hs.answerHost _ _ _
  | bar2Read _ _ => exact hs.exec_bar2Read _ _
  | bar2Write _ _ => exact hs.exec_bar2Write _ _
  | registerWrite _ _ _ => exact hs.hostWrite _ _ _
  | tailWrite _ _ _ => exact hs.exec_tailWrite _ _ _
  | resolveWrite _ => exact hs.exec_resolveWrite _
  | consumedWrite _ _ => exact hs.exec_consumedWrite _ _
  | portEnable _ _ => exact hs.exec_portEnable _ _
  | portIsolate _ _ => exact hs.exec_portIsolate _ _
  | retrain _ => exact hs.exec_retrain _
  | portTrainDone _ _ _ _ => exact hs.exec_portTrainDone _ _ _ _
  | portTrainTimeout _ => exact hs.exec_portTrainTimeout _
  | flitReceive _ _ => exact hs.flitIn _ _
  | nakReceive _ _ => exact hs.nak _ _
  | pauseReceive _ _ => exact hs.pauseTx _ _ _
  | resumeReceive _ _ => exact hs.pauseTx _ _ _
  | spdmGetVersion _ => exact hs.spdmAnswer _ _ _ _ _
  | spdmGetCapabilities _ => exact hs.spdmAnswer _ _ _ _ _
  | spdmNegotiate _ => exact hs.spdmAnswer _ _ _ _ _
  | spdmGetDigests _ => exact hs.spdmAnswer _ _ _ _ _
  | spdmGetCertificate _ => exact hs.spdmAnswer _ _ _ _ _
  | spdmChallenge _ _ => exact hs.spdmSigned _ _ _ _
  | spdmGetMeasurements _ _ => exact hs.spdmSigned _ _ _ _
  | mctpStageQuery => exact hs.out _
  | packetFetch _ _ => exact hs.exec_packetFetch _ _
  | slotRereadTimer _ _ _ => exact hs.exec_slotRereadTimer _ _ _
  | boardScan _ _ => exact hs.exec_boardScan _ _
  | nopPacket => exact hs.exec_nopPacket
  | launchPacket => exact hs.exec_launchPacket
  | copyPacket => exact hs.exec_copyPacket
  | barrierPacket => exact hs.exec_barrierPacket
  | signalPacket => exact hs.exec_signalPacket
  | creelBegin => exact hs.exec_creelBegin
  | creelSeal => exact hs.exec_creelSeal
  | markerPacket => exact hs.exec_markerPacket
  | contextCreate => exact hs.exec_contextCreate
  | contextPaging => exact hs.exec_contextPaging
  | contextQueue => exact hs.exec_contextQueue
  | contextUnqueue => exact hs.exec_contextUnqueue
  | contextInval => exact hs.exec_contextInval
  | contextSuspend => exact hs.exec_contextSuspend
  | contextResume => exact hs.exec_contextResume
  | contextTerminate => exact hs.exec_contextTerminate
  | contextResize => exact hs.exec_contextResize
  | resizeMapChange => exact hs.exec_resizeMapChange
  | signalWatchNotify _ _ _ => exact hs.watchEval _ _ _
  | signalWatchReread _ _ _ => exact hs.watchEval _ _ _
  | packetComplete _ _ _ => exact hs.exec_packetComplete _ _ _
  | rootSpanPlace _ => exact hs.exec_rootSpanPlace _
  | groupPlace _ => exact hs.exec_groupPlace _
  | deviceQueuePop _ _ => exact hs.exec_deviceQueuePop _ _
  | devqSlotReread _ _ => exact hs.exec_devqSlotReread _ _
  | clauseFetch _ => exact hs.exec_clauseFetch _
  | longLatencyResult _ => exact hs.exec_longLatencyResult _
  | groupRetire _ _ => exact hs.exec_groupRetire _ _
  | launchAbortDone => exact hs.exec_launchAbortDone
  | barcContinuationStart => exact hs.exec_barcContinuationStart
  | yieldExpire _ => exact hs.updUnit _ _ fun _ hu => .ite hu.keep hu
  | watchdog _ => exact hs.exec_watchdog _
  | contextSaveComplete => exact hs.exec_contextSaveComplete
  | contextRestore => exact hs.exec_contextRestore
  | migRewalkTimer _ => exact hs.rewalkUnasked _
  | invalidationComplete => exact hs.exec_invalidationComplete
  | l1Eviction _ _ => exact hs.evictLine _ _
  | uncorrectableError _ => exact hs.exec_uncorrectableError _
  | atomicEngineServe _ => exact hs.exec_atomicEngineServe _
  | copyPerform _ _ => exact hs.exec_copyPerform _ _
  | copyEnd _ => exact hs.exec_copyEnd _
  | hankOperationPerform _ => exact hs.exec_hankOperationPerform _
  | hankMoveInsert => exact hs.exec_hankMoveInsert
  | hankRankComplete => exact hs.exec_hankRankComplete
  | hankThawComplete => exact hs.exec_hankThawComplete
  | beamQueryStart _ => exact hs.exec_beamQueryStart _
  | beamQueryDone _ _ => exact hs.exec_beamQueryDone _ _
  | collJobEnd => exact hs.exec_collJobEnd
  | mmaSequencerPerform _ => exact hs.exec_mmaSequencerPerform _
  | mmaAssistComplete _ => exact hs.exec_mmaAssistComplete _
  | nop f => exact hs.exec_nop f
  | bra _ => exact hs.exec_bra _
  | brp _ => exact hs.exec_brp _
  | join _ => exact hs.exec_join _
  | call _ => exact hs.exec_call _
  | calli _ => exact hs.exec_calli _
  | ret f => exact hs.exec_ret f
  | jmpi _ => exact hs.exec_jmpi _
  | exit _ => exact hs.exec_exit _
  | region _ => exact hs.exec_region _
  | yield _ => exact hs.exec_yield _
  | trap _ => exact hs.exec_trap _
  | brk _ => exact hs.exec_brk _
  | spawn _ => exact hs.exec_spawn _
  | deal f => exact hs.exec_deal f
  | rdsr _ => exact hs.exec_rdsr _
  | wrsr _ => exact hs.exec_wrsr _
  | fmode _ => exact hs.exec_fmode _
  | iadd _ => exact hs.runV _ _ _ _ _ _ _ _
  | iaddImm _ => exact hs.runI _ _ _ _ _ _ _
  | isub _ => exact hs.runV _ _ _ _ _ _ _ _
  | isubImm _ => exact hs.runI _ _ _ _ _ _ _
  | imul _ => exact hs.runV _ _ _ _ _ _ _ _
  | imulImm _ => exact hs.runI _ _ _ _ _ _ _
  | imulh _ => exact hs.runV _ _ _ _ _ _ _ _
  | imad _ => exact hs.runV _ _ _ _ _ _ _ _
  | imin _ => exact hs.runV _ _ _ _ _ _ _ _
  | iminImm _ => exact hs.runI _ _ _ _ _ _ _
  | imax _ => exact hs.runV _ _ _ _ _ _ _ _
  | imaxImm _ => exact hs.runI _ _ _ _ _ _ _
  | iabs _ => exact hs.runV _ _ _ _ _ _ _ _
  | ineg _ => exact hs.runV _ _ _ _ _ _ _ _
  | land _ => exact hs.runV _ _ _ _ _ _ _ _
  | landImm _ => exact hs.runI _ _ _ _ _ _ _
  | lor _ => exact hs.runV _ _ _ _ _ _ _ _
  | lorImm _ => exact hs.runI _ _ _ _ _ _ _
  | lxor _ => exact hs.runV _ _ _ _ _ _ _ _
  | lxorImm _ => exact hs.runI _ _ _ _ _ _ _
  | lnot _ => exact hs.runV _ _ _ _ _ _ _ _
  | landn _ => exact hs.runV _ _ _ _ _ _ _ _
  | landnImm _ => exact hs.runI _ _ _ _ _ _ _
  | shl _ => exact hs.runV _ _ _ _ _ _ _ _
  | shlImm _ => exact hs.runI _ _ _ _ _ _ _
  | shr _ => exact hs.runV _ _ _ _ _ _ _ _
  | shrImm _ => exact hs.runI _ _ _ _ _ _ _
  | sar _ => exact hs.runV _ _ _ _ _ _ _ _
  | sarImm _ => exact hs.runI _ _ _ _ _ _ _
  | rol _ => exact hs.runV _ _ _ _ _ _ _ _
  | rolImm _ => exact hs.runI _ _ _ _ _ _ _
  | ror _ => exact hs.runV _ _ _ _ _ _ _ _
  | rorImm _ => exact hs.runI _ _ _ _ _ _ _
  | popc _ => exact hs.runV _ _ _ _ _ _ _ _
  | clz _ => exact hs.runV _ _ _ _ _ _ _ _
  | ctz _ => exact hs.runV _ _ _ _ _ _ _ _
  | brev _ => exact hs.runV _ _ _ _ _ _ _ _
  | bfx _ => exact hs.runV _ _ _ _ _ _ _ _
  | bfi _ => exact hs.runV _ _ _ _ _ _ _ _
  | icmp _ => exact hs.runCmp _ _ _
  | icmpImm _ => exact hs.exec_icmpImm _
  | sel _ => exact hs.exec_sel _
  | mov _ => exact hs.runV _ _ _ _ _ _ _ _
  | movi _ => exact hs.runI _ _ _ _ _ _ _
  | lea _ => exact hs.runV _ _ _ _ _ _ _ _
  | leaImm _ => exact hs.runI _ _ _ _ _ _ _
  | iaddw _ => exact hs.runV _ _ _ _ _ _ _ _
  | iaddwImm _ => exact hs.runI _ _ _ _ _ _ _
  | isubw _ => exact hs.runV _ _ _ _ _ _ _ _
  | icmpw _ => exact hs.runCmp _ _ _
  | mort _ => exact hs.runV _ _ _ _ _ _ _ _
  | unmort _ => exact hs.runV _ _ _ _ _ _ _ _
  | prmt _ => exact hs.runV _ _ _ _ _ _ _ _
  | fadd _ => exact hs.runV _ _ _ _ _ _ _ _
  | faddImm _ => exact hs.runI _ _ _ _ _ _ _
  | fsub _ => exact hs.runV _ _ _ _ _ _ _ _
  | fmul _ => exact hs.runV _ _ _ _ _ _ _ _
  | fmulImm _ => exact hs.runI _ _ _ _ _ _ _
  | ffma _ => exact hs.runV _ _ _ _ _ _ _ _
  | ffmaImm _ => exact hs.runI _ _ _ _ _ _ _
  | fmin _ => exact hs.runV _ _ _ _ _ _ _ _
  | fmax _ => exact hs.runV _ _ _ _ _ _ _ _
  | fcmp _ => exact hs.runCmp _ _ _
  | fcmpImm _ => exact hs.exec_fcmpImm _
  | fclass _ => exact hs.runV _ _ _ _ _ _ _ _
  | frnd _ => exact hs.runV _ _ _ _ _ _ _ _
  | fdot2 _ => exact hs.runV _ _ _ _ _ _ _ _
  | fscale _ => exact hs.runV _ _ _ _ _ _ _ _
  | rcp _ => exact hs.runV _ _ _ _ _ _ _ _
  | rsq _ => exact hs.runV _ _ _ _ _ _ _ _
  | sqrt _ => exact hs.runV _ _ _ _ _ _ _ _
  | exp2 _ => exact hs.runV _ _ _ _ _ _ _ _
  | log2 _ => exact hs.runV _ _ _ _ _ _ _ _
  | sin _ => exact hs.runV _ _ _ _ _ _ _ _
  | cos _ => exact hs.runV _ _ _ _ _ _ _ _
  | tanh _ => exact hs.runV _ _ _ _ _ _ _ _
  | fdiv _ => exact hs.runV _ _ _ _ _ _ _ _
  | idiv _ => exact hs.runV _ _ _ _ _ _ _ _
  | irem _ => exact hs.runV _ _ _ _ _ _ _ _
  | cvt _ => exact hs.exec_cvt _
  | pack _ => exact hs.exec_pack _
  | unpk _ => exact hs.exec_unpk _
  | qmx _ => exact hs.exec_qmx _
  | dqmx _ => exact hs.exec_dqmx _
  | qply _ => exact hs.exec_qply _
  | dqply _ => exact hs.exec_dqply _
  | kmov _ => exact hs.exec_kmov _
  | perm _ => exact hs.exec_perm _
  | shfl _ => exact hs.exec_shfl _
  | bcast _ => exact hs.exec_bcast _
  | votea _ => exact hs.exec_votea _
  | votey _ => exact hs.exec_votey _
  | ballot _ => exact hs.exec_ballot _
  | scan _ => exact hs.exec_scan _
  | redi _ => exact hs.exec_redi _
  | xadd _ => exact hs.exec_xadd _
  | xrnd _ => exact hs.exec_xrnd _
  | xclr _ => exact hs.exec_xclr _
  | xld _ => exact hs.exec_xld _
  | xst _ => exact hs.exec_xst _
  | shape _ => exact hs.exec_shape _
  | ld _ => exact hs.exec_ld _
  | st _ => exact hs.exec_st _
  | lds _ => exact hs.exec_lds _
  | sts _ => exact hs.exec_sts _
  | phase _ => exact hs.exec_phase _
  | xfence _ => exact hs.exec_xfence _
  | pref _ => exact hs.exec_pref _
  | atomAdd _ => exact hs.runAtom _ _
  | atomSub _ => exact hs.runAtom _ _
  | atomMin _ => exact hs.runAtom _ _
  | atomMax _ => exact hs.runAtom _ _
  | atomAnd _ => exact hs.runAtom _ _
  | atomOr _ => exact hs.runAtom _ _
  | atomXor _ => exact hs.runAtom _ _
  | atomXchg _ => exact hs.runAtom _ _
  | atomCas _ => exact hs.runAtom _ _
  | atomInc _ => exact hs.runAtom _ _
  | atomFadd _ => exact hs.runAtom _ _
  | atomFadd2 _ => exact hs.runAtom _ _
  | atomXam _ => exact hs.runAtom _ _
  | atomLd _ => exact hs.runAtom _ _
  | atomsAdd _ => exact hs.runAtoms _ _
  | atomsSub _ => exact hs.runAtoms _ _
  | atomsMin _ => exact hs.runAtoms _ _
  | atomsMax _ => exact hs.runAtoms _ _
  | atomsAnd _ => exact hs.runAtoms _ _
  | atomsOr _ => exact hs.runAtoms _ _
  | atomsXor _ => exact hs.runAtoms _ _
  | atomsXchg _ => exact hs.runAtoms _ _
  | atomsCas _ => exact hs.runAtoms _ _
  | atomsInc _ => exact hs.runAtoms _ _
  | atomsFadd _ => exact hs.runAtoms _ _
  | atomsFadd2 _ => exact hs.runAtoms _ _
  | atomsXam _ => exact hs.runAtoms _ _
  | atomsLd _ => exact hs.runAtoms _ _
  | acp _ => exact hs.exec_acp _
  | aseal _ => exact hs.exec_aseal _
  | await _ => exact hs.exec_await _
  | bcp _ => exact hs.runCards _ _
  | bxf _ => exact hs.runCards _ _
  | qfen _ => exact hs.exec_qfen _
  | coll _ => exact hs.exec_coll _
  | astat _ => exact hs.exec_astat _
  | bari _ => exact hs.exec_bari _
  | bara _ => exact hs.exec_bara _
  | barw _ => exact hs.exec_barw _
  | barx _ => exact hs.exec_barx _
  | barc _ => exact hs.exec_barc _
  | waita _ => exact hs.exec_waita _
  | pipw _ => exact hs.exec_pipw _
  | barq _ => exact hs.exec_barq _
  | mma _ => exact hs.exec_mma _
  | mzero _ => exact hs.exec_mzero _
  | mdrain _ => exact hs.exec_mdrain _
  | mload _ => exact hs.exec_mload _
  | hkins _ => exact hs.runMutation _ _
  | hkdel _ => exact hs.runMutation _ _
  | hkmove _ => exact hs.runMutation _ _
  | hkupd _ => exact hs.runMutation _ _
  | hkopen _ => exact hs.exec_hkopen _
  | hknext _ => exact hs.exec_hknext _
  | hkclose _ => exact hs.exec_hkclose _
  | hkcount _ => exact hs.exec_hkcount _
  | hkfind _ => exact hs.exec_hkfind _
  | hknbr _ => exact hs.exec_hknbr _
  | hkrank _ => exact hs.exec_hkrank _
  | hkrankThaw _ => exact hs.exec_hkrankThaw _
  | hkstat _ => exact hs.exec_hkstat _
  | bqry _ => exact hs.exec_bqry _
  | bpop _ => exact hs.exec_bpop _
  | bstat _ => exact hs.runBstat _ _
  | bstatRelease _ => exact hs.runBstat _ _

/-! What the module does next of itself. -/

theorem tick (hs : s.RegsInv) : s.tick.RegsInv := hs.keep

theorem firstChange (hs : s.RegsInv) (is : List Instr) : OptHolds RegsInv (s.firstChange is) := by
  induction is with
  | nil => trivial
  | cons i is ih =>
    rw [State.firstChange]
    split
    · next t e =>
      split
      · exact ih
      · exact (hs.exec i).of_next e
    · exact ih

theorem idle (hs : s.RegsInv) : s.idle.RegsInv := by
  unfold State.idle
  split
  · exact hs.boot
  · exact (hs.firstChange _).getD hs

theorem turn (hs : s.RegsInv) : s.turn.RegsInv := by
  unfold State.turn
  extract_lets goes
  split
  · exact hs
  · split
    · exact hs
    · split
      · exact hs
      · exact hs.keep.markUnit _ _

theorem runHead (hs : s.RegsInv) : OutHolds RegsInv s.runHead := by
  unfold State.runHead
  split
  · exact hs.exec _
  · exact hs.trapHead _ _
  · exact hs.idle

theorem runNext (hs : s.RegsInv) : OutHolds RegsInv s.runNext := by
  unfold State.runNext
  split
  · exact exec hs.keep _
  · exact hs.turn.runHead

end State.RegsInv

/-- Settles O7: the counters leave the units alone, and whatever runs next keeps their tables in canonical form. -/
theorem stepKeepsRegisterForm : Obligations.StepKeepsRegisterForm := by
  unfold Obligations.StepKeepsRegisterForm
  intro s t hs e
  exact hs.tick.runNext.of_next e

end Sys2Proof.Machine
end

section
/-! SUPPORT. The start of a launch (O50): R70 to R73, R84, R209. -/

namespace Sys2Proof.Machine

set_option Elab.async false

/-! The order of the checks of R70: the code address, the group size, the pad bytes. -/

section Checks
variable (s : State) (p : Option Part) {a : LaunchArgs}

theorem State.badLaunch_code (h : a.code = 0 ∨ a.code.toNat % 8 ≠ 0) : s.badLaunch p a = some 24 := by
  have hc : (a.code != 0 && a.code.toNat % 8 == 0) = false := by
    rcases h with h | h <;> simp [h]
  simp only [State.badLaunch, firstBad, hc, List.find?_cons, Bool.not_false, Option.map_some]

theorem State.badLaunch_size (h0 : a.code ≠ 0) (h8 : a.code.toNat % 8 = 0) (h : a.size < 64 ∨ 1024 < a.size ∨ a.size % 64 ≠ 0) :
    s.badLaunch p a = some 36 := by
  have hc : (a.code != 0 && a.code.toNat % 8 == 0) = true := by rw [bne_iff_ne.mpr h0, h8]; rfl
  have hs : (decide (64 ≤ a.size) && decide (a.size ≤ 1024) && a.size % 64 == 0) = false := by
    rcases h with h | h | h <;> simp [h]
  simp only [State.badLaunch, firstBad, hc, hs, List.find?_cons, Bool.not_true, Bool.not_false, Option.map_some]

theorem State.badLaunch_pad (h0 : a.code ≠ 0) (h8 : a.code.toNat % 8 = 0) (hlo : 64 ≤ a.size) (hhi : a.size ≤ 1024) (h64 : a.size % 64 = 0)
    (h : 0x18_0000 < a.pad) : s.badLaunch p a = some 38 := by
  have hc : (a.code != 0 && a.code.toNat % 8 == 0) = true := by rw [bne_iff_ne.mpr h0, h8]; rfl
  have hs : (decide (64 ≤ a.size) && decide (a.size ≤ 1024) && a.size % 64 == 0) = true := by simp [hlo, hhi, h64]
  have hp : decide (a.pad ≤ corePad) = false := decide_eq_false (Nat.not_le_of_lt h)
  simp only [State.badLaunch, firstBad, hc, hs, hp, List.find?_cons, Bool.not_true, Bool.not_false, Option.map_some]

end Checks

/-! A launch that begins takes its number from its context (R72). -/

/-- A launch of a context as it begins, with its fields and its number (R72). -/
def LaunchArgs.begun (a : LaunchArgs) (id ctx : Nat) (num tree : W32) (src : LaunchSrc) : Launch :=
  { id := id, ctx := ctx, num := num, tree := tree, src := src, code := a.code, count := a.count, size := a.size, pad := a.pad
    gregs := a.gregs, bars := a.bars, flags := a.flags, args := a.args, events := a.events, state := .running, rootCore := none
    rootPlaced := false, dealtAll := false, exited := [], retired := [], retiredItems := 0, evHeld := [], age := 0, fault := none
    evFault := none }

/-- The number that the next launch of a context gets. -/
def State.nextLaunchNum (s : State) (ctx : Nat) : W32 := match s.ctx? ctx with | some c => c.launchCtr | none => 0

section Add
variable (s : State) (ctx : Nat) (a : LaunchArgs) (tree : W32) (src : LaunchSrc)

theorem State.addLaunch_launches :
    (s.addLaunch ctx a tree src).2.launches = s.launches ++ [a.begun s.nextId ctx (s.nextLaunchNum ctx) tree src] := rfl

end Add

/-! What LAUNCH_PACKET leads to, by what its checks give (R70 to R72, R209). -/

section Packet
variable {s : State} {q : HostQueue} {e : Entry} (h : s.chosen? = some (q, e)) (ht : e.type = 1)
include h ht

theorem launchPacket_denied (hc : q.ctx = 0) : exec .launchPacket s = .next (s.reportEntry q.ctx q.idx e.pos pkDenied 0 0 0 0) := by
  show execLaunchPacket s = _
  unfold execLaunchPacket
  rw [State.startPacket_of_chosen h ht]
  exact congrArg _ (if_pos hc)

theorem launchPacket_fails (hc : q.ctx ≠ 0) {status : Nat} {detail : W32}
    (hk : s.checkLaunch q.ctx (LaunchArgs.ofPacket e.bytes) = some (status, detail)) :
    exec .launchPacket s = .next (s.reportEntry q.ctx q.idx e.pos status detail 0 0 0) := by
  show execLaunchPacket s = _
  unfold execLaunchPacket
  rw [State.startPacket_of_chosen h ht]
  dsimp only
  rw [if_neg hc, hk]

/-- A LAUNCH that passes its checks adds the launch and the tree that it founds (R72, R84). -/
theorem launchPacket_begins (hc : q.ctx ≠ 0) (hk : s.checkLaunch q.ctx (LaunchArgs.ofPacket e.bytes) = none) :
    ∃ t, exec .launchPacket s = .next t ∧ t.mem = s.mem
      ∧ t.launches = s.launches ++ [(LaunchArgs.ofPacket e.bytes).begun s.nextId q.ctx (s.nextLaunchNum q.ctx) (treeId q.ctx q.idx e.pos) (.packet q.idx e.pos)]
      ∧ t.trees = s.trees ++ [{ ctx := q.ctx, id := treeId q.ctx q.idx e.pos, q := q.idx, pos := e.pos, founder := s.nextId, counter := 1, status := pkDone
                                detail := 0, fault := 0, progress := 0, extra := 0, closing := false }] := by
  refine ⟨State.updEntry { (s.addLaunch q.ctx (LaunchArgs.ofPacket e.bytes) (treeId q.ctx q.idx e.pos) (.packet q.idx e.pos)).2 with trees := s.trees ++ [_] }
    q.ctx q.idx e.pos (fun e => { e with phase := .started }), ?_, rfl, s.addLaunch_launches .., rfl⟩
  show execLaunchPacket s = _
  unfold execLaunchPacket
  rw [State.startPacket_of_chosen h ht]
  dsimp only
  rw [if_neg hc, hk]
  rfl

end Packet

/-- Settles O50: the checks in their order, and what begins when they pass. -/
theorem launchStarts : Obligations.LaunchStarts := by
  unfold Obligations.LaunchStarts
  intro s q e h ht
  refine ⟨launchPacket_denied h ht, fun status detail hc hk => launchPacket_fails h ht hc hk, fun hc hk => ?_, fun a => ⟨?_, ?_, ?_⟩⟩
  · obtain ⟨t, hrun, hmem, hlaunches, htrees⟩ := launchPacket_begins h ht hc hk
    have hnum (x : Ctx) (hx : s.ctx? q.ctx = some x) : s.nextLaunchNum q.ctx = x.launchCtr := by
      unfold State.nextLaunchNum
      rw [hx]
    exact ⟨t, _, _, hrun, hlaunches, htrees, rfl, rfl, rfl, rfl, rfl, rfl, rfl, rfl, rfl, rfl, rfl, rfl, hnum, rfl, rfl, rfl, rfl, rfl, rfl, hmem⟩
  · exact s.badLaunch_code _
  · exact s.badLaunch_size _
  · exact s.badLaunch_pad _

end Sys2Proof.Machine
end

section
/-! SUPPORT. Launches, trees and tiles stand as they did through the work of engines on memory and hanks (R129, R152, R177), and through a group's
release (R95). -/

namespace Sys2Proof.Machine

set_option Elab.async false

/-- The roll of the module: its launches, their trees and the tiles. -/
def State.roll (s : State) : List Launch × List Tree × List Tile := (s.launches, s.trees, s.tiles)

namespace State

variable (s : State)

theorem roll_countLost (pa : Nat) : (s.countLost pa).roll = s.roll := by unfold countLost; split <;> rfl

theorem roll_clearLines (l : List Nat) : (s.clearLines l).roll = s.roll := by unfold clearLines; split <;> rfl

theorem roll_poisonLines (l : List Nat) : (s.poisonLines l).roll = s.roll := by unfold poisonLines; grind [roll]

theorem roll_writeHome (w : Who) (pa : Nat) (bs : List Byte) : (s.writeHome w pa bs).roll = s.roll := by
  unfold writeHome
  split
  · rfl
  split
  · rfl
  exact (roll_clearLines _ _).trans (by cases w.cluster? <;> rfl)

theorem roll_raise (vec : Nat) : (s.raise vec).roll = s.roll := by unfold raise; split <;> rfl

theorem roll_cacheLeaf (w : Who) (c : Ctx) (l : Leaf) : (s.cacheLeaf w c l).roll = s.roll := by unfold cacheLeaf; split <;> rfl

theorem roll_cacheTable (w : Who) (c : Ctx) (va : Nat) : (s.cacheTable w c va).roll = s.roll := by unfold cacheTable; grind [roll]

theorem roll_leafOf (w : Who) (ctx va : Nat) : (s.leafOf w ctx va).2.roll = s.roll := by
  unfold leafOf
  grind [roll_cacheLeaf, roll_cacheTable]

theorem roll_pageRequest {w : Who} {ctx : Nat} {need : Need} {va : Nat} {t : State} (h : s.pageRequest w ctx need va = some t) : t.roll = s.roll := by
  unfold pageRequest at h
  have hupd (t : State) (n : Nat) (f : Ctx → Ctx) : (t.updCtx n f).roll = t.roll := rfl
  grind [roll_raise, roll_writeHome]

/-! Atomics and engine accesses. -/

theorem roll_poisonReq (r : AtomReq) : (s.poisonReq r).roll = s.roll := by unfold poisonReq; dsimp only; split <;> rfl

theorem roll_performReq (r : AtomReq) (old : List Byte) : (s.performReq r old).roll = s.roll := by
  unfold performReq
  dsimp only
  split
  · rfl
  · exact (roll_writeHome (s.touchHot r.cluster (r.pa / 128)) _ _ _).trans rfl

theorem roll_askReq (r : AtomReq) (n : Nat) : (s.askReq r n).roll = s.roll := by unfold askReq; split <;> rfl

theorem roll_serveReq (r : AtomReq) : (s.serveReq r).roll = s.roll := by
  unfold serveReq
  grind [roll_performReq, roll_poisonReq, roll_askReq, roll_countLost]

theorem roll_serveReqs (l : List AtomReq) : (s.serveReqs l).roll = s.roll := by
  induction l generalizing s with
  | nil => rfl
  | cons r rs ih => rw [serveReqs]; grind [roll_serveReq]

theorem roll_serveLines (pas : List Nat) : (s.serveLines pas).roll = s.roll := by
  unfold serveLines
  split
  · rfl
  · exact foldl_keeps roll (fun t l => roll_serveReqs t _) _ _

theorem roll_writeEngineAt (who : Who) (pa : Nat) (bs : List PByte) : (s.writeEngineAt who pa bs).roll = s.roll := by
  unfold writeEngineAt
  have hflush (t : State) (pa n : Nat) : (t.flushRange pa n).roll = t.roll := rfl
  grind [roll_serveLines, roll_writeHome, roll_poisonLines]

theorem roll_weaveWrite (who : Who) (rm : Rm) (sat : Bool) (l : Leaf) (ws : List (Nat × W32)) : (s.weaveWrite who rm sat l ws).roll = s.roll := by
  have hflush (t : State) (pa n : Nat) : (t.flushRange pa n).roll = t.roll := rfl
  have hwrite (t : State) (f : State → Nat → State) (bs : List Nat) (hf : ∀ t b, (f t b).roll = t.roll) : (bs.foldl f t).roll = t.roll :=
    foldl_keeps roll hf bs t
  unfold weaveWrite
  dsimp only
  have hclear (t : State) (l : List Nat) : (if t.poison.lines.isEmpty = true then t else t.clearLines l).roll = t.roll := by grind [roll_clearLines]
  rw [hclear, hwrite _ _ _ (by grind [roll_writeHome])]
  grind

theorem roll_engineAbsent (who : Who) (ctx : Nat) (need : Need) (va : Nat) : (s.engineAbsent who ctx need va).2.roll = s.roll := by
  unfold engineAbsent
  grind [roll_pageRequest]

theorem roll_enginePage (who : Who) (ctx : Nat) (need : Need) (va n : Nat) : (s.enginePage who ctx need va n).2.roll = s.roll := by
  unfold enginePage
  grind [roll_leafOf, roll_engineAbsent]

theorem roll_readPage (who : Who) (ctx : Nat) (fm : BitVec 4) (va n : Nat) : (s.readPage who ctx fm va n).2.roll = s.roll := by
  unfold readPage
  grind [roll_enginePage, roll_serveLines, roll_countLost]

theorem roll_readRun (who : Who) (ctx : Nat) (fm : BitVec 4) (fuel va n : Nat) : (s.readRun who ctx fm fuel va n).2.roll = s.roll := by
  induction fuel generalizing s va n with
  | zero => rfl
  | succ fuel ih => rw [readRun]; grind [roll_readPage]

theorem roll_writePage (who : Who) (ctx : Nat) (fm : BitVec 4) (va : Nat) (bs : List PByte) : (s.writePage who ctx fm va bs).2.roll = s.roll := by
  unfold writePage
  grind [roll_enginePage, roll_serveLines, roll_writeEngineAt, roll_weaveWrite, roll_poisonLines]

theorem roll_writeRun (who : Who) (ctx : Nat) (fm : BitVec 4) (fuel va : Nat) (bs : List PByte) : (s.writeRun who ctx fm fuel va bs).2.2.roll = s.roll := by
  induction fuel generalizing s va bs with
  | zero => rfl
  | succ fuel ih => rw [writeRun]; grind [roll_writePage]

theorem roll_engineAtom (who : Who) (ctx va : Nat) (bs : List Byte) : (s.engineAtom who ctx va bs).2.roll = s.roll := by
  have htouch (t : State) (c l : Nat) : (t.touchHot c l).roll = t.roll := rfl
  unfold engineAtom
  grind [roll_enginePage, roll_writeEngineAt]

theorem roll_hankWrite (who : Who) (ctx : Nat) (fm : BitVec 4) (w : HWrite) : (s.hankWrite who ctx fm w).2.roll = s.roll := by
  cases w with
  | plain va bs => exact roll_writeRun _ _ _ _ _ _ _
  | atom va bs => exact roll_engineAtom _ _ _ _ _

end State

/-! Steps of a hank engine (R177, R182). -/

/-- Steps that leave launches, trees and tiles, whatever they end with. -/
def HM.KeepsRoll {α : Type} (m : HM α) : Prop := ∀ s : State, (m.on s).2.roll = s.roll

namespace HM.KeepsRoll

variable {α β : Type}

theorem pure (a : α) : HM.KeepsRoll (Pure.pure a : HM α) := fun _ => rfl

theorem throw (e : HStop) : HM.KeepsRoll (MonadExcept.throw e : HM α) := fun _ => rfl

theorem throw_bind (e : HStop) (f : α → HM β) : HM.KeepsRoll ((MonadExcept.throw e : HM α) >>= f) := fun _ => rfl

theorem bind {m : HM α} {f : α → HM β} (hm : m.KeepsRoll) (hf : ∀ a, (f a).KeepsRoll) : (m >>= f).KeepsRoll := by
  intro s
  have hm := hm s
  rw [HM.on_bind]
  split
  · next e => rw [e] at hm; exact (hf _ _).trans hm
  · next e => rw [e] at hm; exact hm

theorem get {f : State → HM β} (hf : ∀ s, (f s).KeepsRoll) : ((MonadState.get : HM State) >>= f).KeepsRoll := fun s => hf s s

end HM.KeepsRoll

theorem hRead_keepsRoll (who : Who) (ctx : Nat) (fm : BitVec 4) (va n : Nat) : (hRead who ctx fm va n).KeepsRoll := by
  intro s
  have hread := s.roll_readRun who ctx fm (n / 65536 + 2) va n
  show (hRead who ctx fm va n s).2.roll = s.roll
  unfold hRead State.readEngine
  dsimp only [ExceptT.mk]
  grind

theorem hCommit_keepsRoll (who : Who) (ctx : Nat) (fm : BitVec 4) (ws : List HWrite) : (hCommit who ctx fm ws).KeepsRoll := by
  intro s
  have hall := foldl_keeps (fun acc : Option Stop × State => acc.2.roll) (f := fun acc (w : HWrite) => if acc.1.isSome then acc else acc.2.hankWrite who ctx fm w)
    (fun a w => by grind [State.roll_hankWrite]) ws (none, s)
  show (hCommit who ctx fm ws s).2.roll = s.roll
  unfold hCommit
  dsimp only [ExceptT.mk]
  split
  · exact hall
  · exact State.roll_engineAbsent _ _ _ _ _
  · rfl

theorem readHank_keepsRoll (who : Who) (ctx : Nat) (fm : BitVec 4) (at_ : Nat) : (readHank who ctx fm at_).KeepsRoll := by
  unfold readHank
  dsimp only
  split
  · exact .throw_bind _ _
  refine (hRead_keepsRoll _ _ _ _ _).bind fun _ => ?_
  split
  · exact .pure _
  · exact .throw _

theorem readLea_keepsRoll (who : Who) (h : Hank) (n : Nat) : (readLea who h n).KeepsRoll := by
  unfold readLea
  refine (hRead_keepsRoll _ _ _ _ _).bind fun _ => .get fun _ => ?_
  dsimp only
  split
  · exact .pure _
  · exact .throw _

theorem readChainFrom_keepsRoll (who : Who) (h : Hank) (fuel : Nat) (seen : List Nat) (a : Nat) : (readChainFrom who h fuel seen a).KeepsRoll := by
  induction fuel generalizing seen a with
  | zero => exact .throw _
  | succ fuel ih =>
    rw [readChainFrom]
    split
    · exact .pure _
    dsimp only
    split
    · exact .throw_bind _ _
    refine (hRead_keepsRoll _ _ _ _ _).bind fun _ => ?_
    split
    · exact .throw _
    · exact (ih _ _).bind fun _ => .pure _

theorem readChain_keepsRoll (l : Lea) (h : Hank) : (readChain l h).KeepsRoll := by
  refine (readChainFrom_keepsRoll _ _ _ _ _).bind fun _ => ?_
  split
  · exact .pure _
  · exact .throw _

theorem releasePin_keepsRoll (h : Hank) (c : Cursor) (p : Pin) : (releasePin h c p).KeepsRoll := by
  refine (readLea_keepsRoll _ _ _).bind fun _ => (readChain_keepsRoll _ _).bind fun _ => .get fun _ => ?_
  dsimp only
  split
  · exact .pure _
  · exact hCommit_keepsRoll _ _ _ _

namespace State

variable (s : State)

theorem roll_updCursor (c : Cursor) (f : Cursor → Cursor) : (s.updCursor c f).roll = s.roll := rfl

theorem roll_dropCursor (c : Cursor) : (s.dropCursor c).roll = s.roll := rfl

theorem roll_releasePins (h : Hank) (c : Cursor) (st : Nat) (ps : List Pin) : (s.releasePins h c st ps).2.roll = s.roll := by
  induction ps generalizing s st with
  | nil => rfl
  | cons p ps ih =>
    rw [releasePins]
    have hpin := releasePin_keepsRoll h { c with pins := p :: ps } p s
    grind [roll_updCursor]

theorem roll_closeCursor (c : Cursor) (fm : BitVec 4) : (s.closeCursor c fm).2.roll = s.roll := by
  unfold closeCursor
  have hhead := readHank_keepsRoll (.hank (clusterOf c.core)) c.ctx fm c.hank.toNat s
  grind [roll_releasePins, roll_dropCursor]

theorem roll_closeGroupCursors (gid : Nat) : (s.closeGroupCursors gid).roll = s.roll :=
  foldl_keeps roll (fun t c => by grind [roll_closeCursor, roll_dropCursor, roll_updCursor]) _ s

theorem roll_dropEntries (p : EngEntry → Bool) : (s.dropEntries p).roll = s.roll :=
  foldl_keeps roll (f := fun s (e : EngEntry) => s.entryDone e.op none e.lane 0) (fun _ _ => rfl) _ { s with engq := s.engq.filter (fun e => !p e) }

end State

end Sys2Proof.Machine
end

section
/-! SUPPORT. The dispatcher (O44): R73, R90, R92 to R94. -/

namespace Sys2Proof.Machine

set_option Elab.async false

namespace State

variable {s : State}

/-! Launches by their number. -/

theorem launch?_updLaunch {id : Nat} {l : Launch} (hl : s.launch? id = some l) {k : Nat} {f : Launch → Launch} (hf : ∀ x, (f x).id = x.id) :
    (s.updLaunch k f).launch? id = some (if id = k then f l else l) := by
  unfold launch? at hl ⊢
  rw [updLaunch_launches]
  split
  · next h =>
    subst h
    rw [find?_updWhere _ f (fun x hx => by rw [hf]; exact hx), hl]
    rfl
  · next h => rw [find?_updWhere_other _ _ f (by grind) (by grind), hl]

/-- Placements past a head change no more of a launch than its age (R93). -/
theorem launch?_ageHead {id : Nat} {l : Launch} (hl : s.launch? id = some l) (head : Option Launch) (n : Nat) :
    ∃ age, (s.ageHead head n).launch? id = some { l with age := age } := by
  unfold ageHead
  cases head with
  | none => exact ⟨l.age, hl⟩
  | some h =>
    have hupd := launch?_updLaunch hl (k := h.id) (f := fun l => { l with age := l.age + n }) fun _ => rfl
    split at hupd
    · exact ⟨_, hupd⟩
    · exact ⟨l.age, hupd⟩

theorem ageHead_keeps (s : State) (head : Option Launch) (n : Nat) : ∃ ls, s.ageHead head n = { s with launches := ls } := by
  cases head <;> exact ⟨_, rfl⟩

/-! The round-robin order and free slots (R90, R92). -/

theorem mem_fromPointer {cores : List Nat} {p c : Nat} (h : c ∈ fromPointer cores p) : c ∈ cores := by
  simp only [fromPointer, List.mem_append, List.mem_filter] at h
  exact h.elim And.left And.left

theorem not_mem_usedSlots_of_freeSlot {core k : Nat} (h : s.freeSlot core = some k) : k ∉ s.usedSlots := by
  obtain ⟨j, hj, rfl⟩ := Option.map_eq_some_iff.mp h
  simpa using List.find?_some hj

/-- The core of a root span: of the partition, not barred, with a free slot. -/
theorem rootCore_spec {x : Part} {bad : List Nat} {c k : Nat} (h : s.rootCore x bad = some (c, k)) : c ∈ x.cores ∧ c ∉ bad ∧ s.freeSlot c = some k := by
  obtain ⟨c', hc', hplace⟩ := List.exists_of_findSome?_eq_some h
  split at hplace
  · cases hplace
  · next hbad =>
    obtain ⟨k', hk', heq⟩ := Option.map_eq_some_iff.mp hplace
    cases heq
    exact ⟨mem_fromPointer hc', by simpa using hbad, hk'⟩

/-- A launch that is dealt as it runs starts with its root span alone (R73). -/
theorem placeRoot_eq {l : Launch} (hl : s.launch? l.id = some l) (hcs : l.coreside = false) (c k : Nat) :
    s.placeRoot l.id c k = { s.fresh.2 with units := s.units ++ [rootUnit l s.nextId c (some k)] }.updLaunch l.id
      (fun l => { l with rootCore := some c, rootPlaced := true }) := by
  unfold placeRoot
  rw [hl]
  dsimp only
  rw [hcs]
  rfl

theorem placeRoot_spec {l : Launch} (hl : s.launch? l.id = some l) (hcs : l.coreside = false) (c k : Nat) :
    (s.placeRoot l.id c k).units = s.units ++ [rootUnit l s.nextId c (some k)]
      ∧ (s.placeRoot l.id c k).launch? l.id = some { l with rootCore := some c, rootPlaced := true }
      ∧ (s.placeRoot l.id c k).mem = s.mem ∧ (s.placeRoot l.id c k).pad = s.pad ∧ (s.placeRoot l.id c k).groups = s.groups := by
  have hupd := launch?_updLaunch (s := { s.fresh.2 with units := s.units ++ [rootUnit l s.nextId c (some k)] }) hl (k := l.id)
    (f := fun l => { l with rootCore := some c, rootPlaced := true }) fun _ => rfl
  rw [if_pos rfl] at hupd
  rw [placeRoot_eq hl hcs]
  exact ⟨rfl, hupd, rfl, rfl, rfl⟩

end State

section Root
variable {s : State} {l : Launch} {x : Part} {bad : List Nat} {c k : Nat}

/-- What ROOT_SPAN_PLACE does with a launch that may place (R73, R92, R93). -/
theorem rootSpanPlace_runs (hl : s.launch? l.id = some l) (hx : s.partOf l.ctx = some x) (hnot : l.rootPlaced = false) (hplacing : s.placing l = true)
    (hcont : s.contWaits x.num = false) (hbarred : s.barred x none = some bad) (hcore : s.rootCore x bad = some (c, k)) :
    exec (.rootSpanPlace l.id) s = .next (((s.updPart x.num (fun x => { x with pointer := c })).placeRoot l.id c k).ageHead (s.headOf x.num) 1) := by
  show execRootSpanPlace l.id s = _
  unfold execRootSpanPlace
  rw [hl]
  dsimp only
  rw [hx]
  dsimp only
  rw [if_neg (by simp [hnot, hplacing, hcont]), hbarred]
  dsimp only
  rw [hcore]

/-- The root span that ROOT_SPAN_PLACE starts, and the launch that has it. -/
theorem rootSpanPlace_starts (hl : s.launch? l.id = some l) (hx : s.partOf l.ctx = some x) (hnot : l.rootPlaced = false) (hplacing : s.placing l = true)
    (hcont : s.contWaits x.num = false) (hbarred : s.barred x none = some bad) (hcore : s.rootCore x bad = some (c, k)) (hcs : l.coreside = false) :
    ∃ t age, exec (.rootSpanPlace l.id) s = .next t ∧ t.units = s.units ++ [State.rootUnit l s.nextId c (some k)]
      ∧ t.launch? l.id = some { l with rootCore := some c, rootPlaced := true, age := age } ∧ t.mem = s.mem ∧ t.pad = s.pad ∧ t.groups = s.groups := by
  have hrun := rootSpanPlace_runs hl hx hnot hplacing hcont hbarred hcore
  obtain ⟨hunits, hlaunch, hmem, hpad, hgroups⟩ := State.placeRoot_spec (s := s.updPart x.num (fun x => { x with pointer := c })) hl hcs c k
  generalize (s.updPart x.num (fun x => { x with pointer := c })).placeRoot l.id c k = t at hrun hunits hlaunch hmem hpad hgroups
  obtain ⟨age, hage⟩ := State.launch?_ageHead hlaunch (s.headOf x.num) 1
  obtain ⟨ls, hls⟩ := t.ageHead_keeps (s.headOf x.num) 1
  refine ⟨_, age, hrun, ?_, hage, ?_⟩ <;> rw [hls]
  · exact hunits
  · exact ⟨hmem, hpad, hgroups⟩

end Root

/-! The ready groups of a launch are placed together (R94). -/

section Groups
variable {s : State} {l : Launch} {x : Part} {bad : List Nat}

theorem groupPlace_places (hl : s.launch? l.id = some l) (hx : s.partOf l.ctx = some x) (hready : s.readyGroups l ≠ []) (hplacing : s.placing l = true)
    (hbarred : s.barred x (some l.id) = some bad) {t : State} (ht : s.placeGroups x.num bad (s.readyGroups l) = some t) :
    exec (.groupPlace l.id) s = .next ((t.updLaunch l.id (fun y => { y with age := 0 })).ageHead ((s.headOf x.num).filter (fun h => h.id != l.id))
      (s.readyGroups l).length) := by
  show execGroupPlace l.id s = _
  unfold execGroupPlace
  rw [hl]
  dsimp only
  rw [hx]
  dsimp only
  rw [if_neg (by simp [hready, hplacing]), hbarred]
  dsimp only
  rw [ht]

theorem groupPlace_places_none (hl : s.launch? l.id = some l) (hx : s.partOf l.ctx = some x) (hready : s.readyGroups l ≠ []) (hplacing : s.placing l = true)
    (hbarred : s.barred x (some l.id) = some bad) (ht : s.placeGroups x.num bad (s.readyGroups l) = none) : exec (.groupPlace l.id) s = .next s := by
  show execGroupPlace l.id s = _
  unfold execGroupPlace
  rw [hl]
  dsimp only
  rw [hx]
  dsimp only
  rw [if_neg (by simp [hready, hplacing]), hbarred]
  dsimp only
  rw [ht]

end Groups

/-! What a core reserves for a group (R90): rows and a pad range that nobody on the core holds. -/

/-- A list sorted by a key. -/
def SortedBy {α : Type} (key : α → Nat) (l : List α) : Prop := l.Pairwise (fun x y => key x ≤ key y)

theorem sortedBy_insertBy {α : Type} {key : α → Nat} {x : α} {l : List α} (h : SortedBy key l) : SortedBy key (insertBy key x l) := by
  induction l with
  | nil => exact List.pairwise_singleton _ x
  | cons y l ih =>
    obtain ⟨hy, hl⟩ := List.pairwise_cons.mp h
    rw [insertBy]
    split
    · next hlt => exact List.pairwise_cons.mpr ⟨fun z hz => by have := List.mem_cons.mp hz; grind, h⟩
    · next hle => exact List.pairwise_cons.mpr ⟨fun z hz => by have := (mem_insertBy l).mp hz; grind, ih hl⟩

theorem sortedBy_sortBy {α : Type} (key : α → Nat) (l : List α) : SortedBy key (sortBy key l) :=
  List.foldlRecOn l (fun acc x => insertBy key x acc) List.Pairwise.nil fun _ h _ _ => sortedBy_insertBy h

namespace State

theorem le_padFit {n base r : Nat} {ranges : List (Nat × Nat)} (h : padFit n base ranges = some r) : base ≤ r := by
  induction ranges generalizing base with
  | nil => rw [padFit] at h; grind
  | cons p ranges ih =>
    obtain ⟨b, len⟩ := p
    rw [padFit] at h
    split at h
    · grind
    · have := ih h; omega

/-- A range found among ranges sorted by base overlaps none of them. -/
theorem padFit_disjoint {n base r : Nat} {ranges : List (Nat × Nat)} (hsorted : SortedBy (·.1) ranges) (h : padFit n base ranges = some r) :
    ∀ p ∈ ranges, p.1 + p.2 ≤ r ∨ r + n ≤ p.1 := by
  induction ranges generalizing base with
  | nil => simp
  | cons q ranges ih =>
    obtain ⟨b, len⟩ := q
    obtain ⟨hq, hsorted⟩ := List.pairwise_cons.mp hsorted
    rw [padFit] at h
    intro p hp
    split at h
    · next hfits =>
      cases h
      have hle : b ≤ p.1 := (List.mem_cons.mp hp).elim (fun h => h ▸ Nat.le_refl b) (hq p)
      exact .inr (hfits.trans hle)
    · have hr := le_padFit h
      rcases List.mem_cons.mp hp with rfl | hp
      · exact .inl (by dsimp only; omega)
      · exact ih hsorted h p hp

variable {s : State}

/-- What a reservation on a core holds (R90). -/
theorem reserveOn_spec {c w gregs pad bars k : Nat} {r : List Nat × Nat × List Nat} (h : s.reserveOn c w gregs pad bars k = some r) :
    r.1.length = w * gregs ∧ (∀ x ∈ r.1, ∀ g ∈ s.groupsOn c, x ∉ g.rows)
      ∧ (∀ g ∈ s.groupsOn c, roundPad g.padBytes ≠ 0 → let b := if g.core = c then g.padBase else g.padBase2
          b + roundPad g.padBytes ≤ r.2.1 ∨ r.2.1 + roundPad pad ≤ b) := by
  unfold reserveOn at h
  extract_lets here used rows ranges barsUsed busy slots at h
  cases hfit : padFit (roundPad pad) 0 ranges with
  | none => rw [hfit] at h; cases h
  | some base =>
    rw [hfit] at h
    dsimp only at h
    split at h
    · next hall =>
      cases h
      refine ⟨hall.1, fun x hx g hg hxg => ?_, fun g hg hne => ?_⟩
      · have hfree : x ∉ used := by
          dsimp only [rows] at hx
          split at hx
          · cases hx
          · simpa using (List.mem_filter.mp (List.mem_of_mem_take hx)).2
        exact hfree (List.mem_flatMap.mpr ⟨g, hg, hxg⟩)
      · have hmem : ((if g.core = c then g.padBase else g.padBase2), roundPad g.padBytes) ∈ ranges :=
          (mem_sortBy _).mpr (List.mem_filter.mpr ⟨List.mem_map.mpr ⟨g, hg, rfl⟩, by simpa using hne⟩)
        have hdis := padFit_disjoint (sortedBy_sortBy _ _) hfit _ hmem
        intro b
        change b + roundPad g.padBytes ≤ base ∨ base + roundPad pad ≤ b at hdis
        clear_value b
        dsimp only
        split <;> omega
    · cases h

/-- A group that is not of a pair is placed with what its core reserves. -/
theorem placeOn_spec {g g1 : Group} {pieces : List SUnit} {c : Nat} (hpair : g.pair = false) (h : s.placeOn g pieces c = some g1) :
    ∃ r k, s.reserveOn c (g.size / 64) g.gregs g.padBytes g.bars.length k = some r
      ∧ g1 = { g with state := .resident, core := c, rows := r.1, padBase := r.2.1, slots := r.2.2 } := by
  unfold placeOn at h
  dsimp only at h
  rw [hpair] at h
  obtain ⟨r, hr, rfl⟩ := Option.map_eq_some_iff.mp h
  exact ⟨r, _, hr, by rw [hpair]⟩

theorem seatPieces_keeps (s : State) (g : Group) (us : List SUnit) : ∃ r, s.seatPieces g us = { s with units := r } := by
  induction us generalizing s with
  | nil => exact ⟨s.units, rfl⟩
  | cons u us ih =>
    obtain ⟨r, hr⟩ := ih (s.updUnit u.id (fun x => { x with core := g.coreOf (u.window g), slot := s.slotFor g (g.coreOf (u.window g)) u.id }))
    exact ⟨r, hr⟩

/-- A placed group (R92): the core it takes, and the state with its pads and rows cleared. -/
theorem placeGroup_spec {p : Nat} {x : Part} {bad : List Nat} {g : Group} {t : State} (hx : s.part? p = some x) (hpair : g.pair = false)
    (h : s.placeGroup p bad g = some t) :
    ∃ c g1 us, c ∈ x.cores ∧ c ∉ bad ∧ s.placeOn g (s.piecesOf g.id) c = some g1
      ∧ t = { ((s.updGroup g.id (fun _ => g1)).updPart p (fun x => { x with pointer := c })).clearPlaced g1 with units := us } := by
  unfold placeGroup at h
  rw [hx, hpair] at h
  dsimp only at h
  split at h
  · cases h
  · next c g1 hfound =>
    cases h
    obtain ⟨c', hc', hplace⟩ := List.exists_of_findSome?_eq_some hfound
    split at hplace
    · cases hplace
    · next hbad =>
      obtain ⟨g', hg', heq⟩ := Option.map_eq_some_iff.mp hplace
      cases heq
      obtain ⟨us, hus⟩ := seatPieces_keeps (((s.updGroup g.id (fun _ => g1)).updPart p (fun x => { x with pointer := c })).clearPlaced g1) g1 (s.piecesOf g.id)
      exact ⟨c, g1, us, mem_fromPointer hc', by simpa using hbad, hg', hus⟩

end State

/-- A key that a filter drops reads as the default. -/
theorem Kv.get_keep_dropped {α : Type} (dflt : α) (p : Nat → Bool) (m : Kv α) {k : Nat} (hk : p k = false) : Kv.get dflt (Kv.keep p m) k = dflt := by
  induction m with
  | nil => rfl
  | cons e m ih =>
    obtain ⟨i, x⟩ := e
    rw [Kv.keep_cons]
    split
    · next hi =>
      rw [Kv.get]
      have hne : k ≠ i := fun h => by rw [h, hi] at hk; cases hk
      rw [if_neg hne]
      split
      · rfl
      · exact ih
    · exact ih

namespace State

variable {s : State}

theorem le_roundPad (n : Nat) : n ≤ roundPad n := by unfold roundPad; omega

/-- Whether a place of the pads is of a group's pad range, on its core or on the follower's of its pair. -/
def groupPad (g : Group) (k : Nat) : Bool :=
  decide (padKey g.core g.padBase ≤ k) && decide (k < padKey g.core g.padBase + roundPad g.padBytes)
    || (g.pair && (decide (padKey (g.core + 1) g.padBase2 ≤ k) && decide (k < padKey (g.core + 1) g.padBase2 + roundPad g.padBytes)))

theorem clearPlaced_pad (s : State) (g : Group) : (s.clearPlaced g).pad = Kv.keep (fun k => !groupPad g k) s.pad := rfl

theorem groupPad_core {g : Group} {o : Nat} (ho : o < g.padBytes) : groupPad g (padKey g.core (g.padBase + o)) = true := by
  have hlt := Nat.lt_of_lt_of_le ho (le_roundPad g.padBytes)
  have hkey : padKey g.core (g.padBase + o) = padKey g.core g.padBase + o := (Nat.add_assoc ..).symm
  rw [groupPad, hkey, decide_eq_true (Nat.le_add_right ..), decide_eq_true (Nat.add_lt_add_left hlt _)]
  rfl

/-- The pads of a placed group read zero (R90). -/
theorem padBytes_clearPlaced (s : State) (g : Group) {o : Nat} (ho : o < g.padBytes) : (s.clearPlaced g).padBytes g.core (g.padBase + o) 1 = [0] := by
  rw [padBytes, clearPlaced_pad, Kv.getRun, Kv.getRun, Kv.get_keep_dropped _ _ _ (by rw [groupPad_core ho]; rfl)]

theorem group?_updGroup {id : Nat} {g : Group} (hg : s.group? id = some g) {f : Group → Group} (hf : ∀ x, x.id = id → (f x).id = id) :
    (s.updGroup id f).group? id = some (f g) := by
  unfold group? at hg ⊢
  rw [updGroup_groups, find?_updWhere _ f (fun x hx => by simpa using hf x (by simpa using hx)), hg]
  rfl

/-- What a placed group of one core holds (R90, R92). -/
theorem placeGroup_holds {p : Nat} {x : Part} {bad : List Nat} {g : Group} {t : State} (hx : s.part? p = some x) (hg : s.group? g.id = some g)
    (hpair : g.pair = false) (h : s.placeGroup p bad g = some t) :
    ∃ g1, t.group? g.id = some g1 ∧ g1.state = .resident ∧ g1.core ∈ x.cores ∧ g1.core ∉ bad ∧ g1.bars = g.bars ∧ g1.rows.length = g.size / 64 * g.gregs
      ∧ (∀ r ∈ g1.rows, ∀ h ∈ s.groupsOn g1.core, r ∉ h.rows)
      ∧ (∀ h ∈ s.groupsOn g1.core, roundPad h.padBytes ≠ 0 → let b := if h.core = g1.core then h.padBase else h.padBase2
          b + roundPad h.padBytes ≤ g1.padBase ∨ g1.padBase + roundPad g.padBytes ≤ b)
      ∧ (∀ o, o < g.padBytes → t.padBytes g1.core (g1.padBase + o) 1 = [0]) ∧ t.mem = s.mem := by
  obtain ⟨c, g1, us, hc, hbad, hon, rfl⟩ := placeGroup_spec hx hpair h
  obtain ⟨r, k, hr, rfl⟩ := placeOn_spec hpair hon
  obtain ⟨hlen, hrows, hpads⟩ := reserveOn_spec hr
  refine ⟨_, group?_updGroup hg fun _ _ => rfl, rfl, hc, hbad, rfl, hlen, hrows, hpads, fun o ho => ?_, rfl⟩
  exact padBytes_clearPlaced _ { g with state := .resident, core := c, rows := r.1, padBase := r.2.1, slots := r.2.2 } ho

end State

end Sys2Proof.Machine
end

section
/-! SUPPORT. Retirement, continuations and the end of an aborting launch (O44): R79 to R82, R95, R114, R206. -/

namespace Sys2Proof.Machine

set_option Elab.async false

namespace State

variable {s : State}

/-! What a group's release leaves (R95). -/

theorem releaseGroup_launches (s : State) (g : Group) : (s.releaseGroup g).launches = s.launches :=
  (congrArg (·.1) (roll_dropEntries ..)).trans (congrArg (·.1) (s.roll_closeGroupCursors g.id))

theorem releaseGroup_trees (s : State) (g : Group) : (s.releaseGroup g).trees = s.trees :=
  (congrArg (·.2.1) (roll_dropEntries ..)).trans (congrArg (·.2.1) (s.roll_closeGroupCursors g.id))

theorem releaseGroup_tiles (s : State) (g : Group) :
    (s.releaseGroup g).tiles = updWhere (fun (t : Tile) => t.group == some g.id) (fun t => { t with group := none }) s.tiles :=
  congrArg (updWhere _ _) ((congrArg (·.2.2) (roll_dropEntries ..)).trans (congrArg (·.2.2) (s.roll_closeGroupCursors g.id)))

theorem dropEntries_groups (s : State) (p : EngEntry → Bool) : (s.dropEntries p).groups = s.groups :=
  foldl_keeps (f := fun t (e : EngEntry) => t.entryDone e.op none e.lane 0) State.groups (fun _ _ => rfl) _ _

/-- A group that stays is another than the released one, and was there before. -/
theorem mem_releaseGroup_groups {g h : Group} (hh : h ∈ (s.releaseGroup g).groups) :
    h.id ≠ g.id ∧ ∃ x ∈ s.groups, x.id = h.id ∧ x.launch = h.launch := by
  obtain ⟨hmem, hne⟩ := List.mem_filter.mp hh
  rw [dropEntries_groups] at hmem
  have hkey : (h.id, h.launch) ∈ s.groups.map (fun g => (g.id, g.launch)) :=
    (s.sameRoster_closeGroupCursors g.id).groups ▸ List.mem_map.mpr ⟨h, hmem, rfl⟩
  obtain ⟨x, hx, heq⟩ := List.mem_map.mp hkey
  obtain ⟨hid, hlaunch⟩ := Prod.mk.inj heq
  exact ⟨by simpa using hne, x, hx, hid, hlaunch⟩

theorem mem_releaseGroups_groups {gs : List Group} {h : Group} (hh : h ∈ (gs.foldl (fun s g => s.releaseGroup g) s).groups) :
    (∀ g ∈ gs, h.id ≠ g.id) ∧ ∃ x ∈ s.groups, x.id = h.id ∧ x.launch = h.launch := by
  induction gs generalizing s with
  | nil => exact ⟨by simp, h, hh, rfl, rfl⟩
  | cons g gs ih =>
    obtain ⟨hne, y, hy, hyid, hyl⟩ := ih hh
    obtain ⟨hg, x, hx, hxid, hxl⟩ := mem_releaseGroup_groups hy
    refine ⟨?_, x, hx, hxid.trans hyid, hxl.trans hyl⟩
    exact List.forall_mem_cons.mpr ⟨hyid ▸ hg, hne⟩

theorem group?_releaseGroup (s : State) (g : Group) : (s.releaseGroup g).group? g.id = none := by
  refine List.find?_eq_none.mpr fun h hh => ?_
  simpa using (mem_releaseGroup_groups hh).1

/-- No tile is a released group's (R375). -/
theorem tile_releaseGroup (s : State) (g : Group) (c : Nat) : ((s.releaseGroup g).tile c).group ≠ some g.id := by
  unfold tile
  cases hfind : (s.releaseGroup g).tiles.find? (fun t => t.core == c) with
  | none => simp
  | some t =>
    have hmem := List.mem_of_find?_eq_some hfind
    rw [releaseGroup_tiles] at hmem
    obtain ⟨t0, -, rfl⟩ := List.mem_map.mp hmem
    rw [Option.getD_some]
    split
    · simp
    · next h => simpa using h

/-! Retirement (R79, R95). -/

/-- A retired group is counted in its launch. -/
theorem launch?_countRetired {l : Launch} (hl : s.launch? l.id = some l) (gid : Nat) :
    ∃ y, (s.countRetired l gid).launch? l.id = some y ∧ y.retired = l.retired ++ [gid] ∧ y.retiredItems = l.retiredItems + l.itemsOf gid := by
  have hupd := launch?_updLaunch hl (k := l.id)
    (f := fun l => { l with retired := l.retired ++ [gid], retiredItems := l.retiredItems + l.itemsOf gid }) fun _ => rfl
  rw [if_pos rfl] at hupd
  exact ⟨_, hupd, rfl, rfl⟩

theorem launch?_congr {t : State} (h : t.launches = s.launches) (id : Nat) : t.launch? id = s.launch? id := congrArg (List.find? _) h

theorem tree?_congr {t : State} (h : t.trees = s.trees) (c : Nat) (id : W32) : t.tree? c id = s.tree? c id := congrArg (List.find? _) h

end State

section Retire
variable {s : State} {l : Launch} {x : Ctx} {g : Group}

/-- GROUP_RETIRE of a group whose items have exited and that owes nothing (R79, R80, R95). -/
theorem groupRetire_runs (hl : s.launch? l.id = some l) (hx : s.ctx? l.ctx = some x) (hrun : x.state = .running) (hdrain : l.state = .draining)
    (hheld : g.gid ∉ l.evHeld) (hdealt : s.neverDealt l g.gid = false) (hfind : s.groups.find? (fun h => h.launch == l.id && h.gid == g.gid) = some g)
    (hres : g.state = .resident) (hempty : State.groupEmpty l g = true) (hconts : g.conts = []) (hbars : ∀ b ∈ g.bars, b.cont = none)
    (hbusy : s.groupBusy g = false) (hpieces : s.piecesOf g.id = []) :
    exec (.groupRetire l.id g.gid) s = .next ((((s.releaseGroup g).countRetired l g.gid).writeEvent l g.gid).checkComplete l.id) := by
  have hall : g.bars.all (·.cont.isNone) = true := List.all_eq_true.mpr fun b hb => by rw [hbars b hb]; rfl
  show execGroupRetire l.id g.gid s = _
  unfold execGroupRetire
  rw [hl]
  dsimp only
  rw [hx]
  dsimp only
  rw [if_neg (by simp [hrun]), if_neg (by simpa using hheld), if_neg (by simp [hdrain]), if_neg (by simp [hdealt]), hfind]
  dsimp only
  rw [if_pos (by simp [hres, hempty, hconts, hall, hbusy, hpieces])]

end Retire

/-! A continuation of BARC (R114). -/

/-- Taking a power of two away from a number that has it clears that bit alone. -/
theorem testBit_sub_two_pow {m k : Nat} (h : m.testBit k = true) (j : Nat) : (m - 2 ^ k).testBit j = (m.testBit j && decide (j ≠ k)) := by
  have hodd : m / 2 ^ k % 2 = 1 := by simpa [Nat.testBit_eq_decide_div_mod_eq] using h
  have hr := Nat.mod_lt m (Nat.two_pow_pos k)
  have hm : m = 2 ^ k * (2 * (m / 2 ^ k / 2) + 1) + m % 2 ^ k := by
    rw [show 2 * (m / 2 ^ k / 2) + 1 = m / 2 ^ k by omega, Nat.div_add_mod]
  generalize m / 2 ^ k / 2 = a at hm
  generalize m % 2 ^ k = r at hm hr
  have hsub : m - 2 ^ k = 2 ^ k * (2 * a) + r := by rw [hm, Nat.mul_add]; omega
  rw [hsub, hm, Nat.testBit_two_pow_mul_add _ hr, Nat.testBit_two_pow_mul_add _ hr]
  by_cases hjk : j < k
  · simp [hjk, Nat.ne_of_lt hjk]
  · rw [if_neg hjk, if_neg hjk]
    rcases hd : j - k with _ | d
    · simp [Nat.testBit_zero, show j = k by omega]
    · rw [Nat.testBit_succ, Nat.testBit_succ]; simp [show j ≠ k by omega]; congr 1; omega

/-- A mask with the bits of a list taken away. -/
def clearBits (m : Nat) (ks : List Nat) : Nat := ks.foldl (fun m k => if m.testBit k then m - 2 ^ k else m) m

theorem testBit_clearBits (m : Nat) (ks : List Nat) (j : Nat) : (clearBits m ks).testBit j = (m.testBit j && decide (j ∉ ks)) := by
  induction ks generalizing m with
  | nil => simp [clearBits]
  | cons k ks ih =>
    have hstep : clearBits m (k :: ks) = clearBits (if m.testBit k then m - 2 ^ k else m) ks := rfl
    have hone : (if m.testBit k then m - 2 ^ k else m).testBit j = (m.testBit j && decide (j ≠ k)) := by
      split
      · next h => exact testBit_sub_two_pow h j
      · by_cases hjk : j = k <;> simp_all
    rw [hstep, ih, hone, Bool.and_assoc, ← Bool.decide_and]
    simp

/-- The launch and the slot of a group whose continuation may start (R114). -/
def State.contPlace (s : State) (g : Group) : Option (Launch × Nat) := match s.launch? g.launch with
  | some l => if s.placing l then (s.freeSlot g.core).map (fun k => (l, k)) else none
  | none => none

/-- A group once the items of its first continuation are back. -/
def Group.resume (g : Group) (c : Cont) (rest : List Cont) (h : Group) : Group :=
  { h with conts := rest, exited := clearBits g.exited ((List.range c.cnt).map (fun j => c.lo + j - g.base)) }

/-- The first two registers of a continuation: the phase and the barrier. -/
theorem vreg_contUnit (l : Launch) (g : Group) (c : Cont) (id slot : Nat) :
    (contUnit l g c id slot).vreg 0 = .u c.phase ∧ (contUnit l g c id slot).vreg 1 = .u (BitVec.ofNat 32 c.bar) := by
  have hwf : Kv.wf (VReg.u 0) (Kv.set (.u 0) [] 0 (.u c.phase)) = true := Kv.wf_set rfl 0 _
  unfold SUnit.vreg contUnit
  dsimp only
  rw [Kv.get_set hwf, Kv.get_set hwf, Kv.get_set rfl]
  exact ⟨rfl, rfl⟩

section Continue
variable {s : State} {pre post : List Group} {g : Group} {l : Launch} {c : Cont} {rest : List Cont} {k : Nat}

/-- BARC_CONTINUATION_START of the first group that may start one (R114). -/
theorem barcContinuationStart_runs (hgs : s.groups = pre ++ g :: post) (hpre : ∀ h ∈ pre, h.conts = []) (hres : g.state = .resident)
    (hconts : g.conts = c :: rest) (hl : s.launch? g.launch = some l) (hplacing : s.placing l = true) (hslot : s.freeSlot g.core = some k) :
    exec .barcContinuationStart s
      = .next ({ s.fresh.2 with units := s.units ++ [contUnit l g c s.nextId k] }.updGroup g.id (g.resume c rest)) := by
  have hplace : s.contPlace g = some (l, k) := by
    unfold State.contPlace
    rw [hl]
    dsimp only
    rw [if_pos hplacing, hslot]
    rfl
  have hfind : s.groups.find? (fun h => h.state == .resident && !h.conts.isEmpty && (s.contPlace h).isSome) = some g := by
    rw [List.find?_eq_some_iff_append]
    exact ⟨by simp [hres, hconts, hplace], pre, post, hgs, fun h hh => by simp [hpre h hh]⟩
  have hrun : exec .barcContinuationStart s = match s.groups.find? (fun h => h.state == .resident && !h.conts.isEmpty && (s.contPlace h).isSome) with
      | none => .next s
      | some g => match s.contPlace g, g.conts with
        | some (l, k), c :: rest =>
          .next ({ s.fresh.2 with units := s.units ++ [contUnit l g c s.nextId k] }.updGroup g.id (fun h => { h with
            conts := rest, exited := (List.range c.cnt).foldl (fun m j => if m.testBit (c.lo + j - g.base) then m - 2 ^ (c.lo + j - g.base) else m) g.exited }))
        | _, _ => .next s := rfl
  rw [hrun, hfind]
  dsimp only
  rw [hplace, hconts]
  unfold Group.resume clearBits
  dsimp only
  rw [List.foldl_map]

theorem exited_resume {j : Nat} (hj : j < c.cnt) (h : Group) : (g.resume c rest h).exited.testBit (c.lo + j - g.base) = false := by
  have hmem : c.lo + j - g.base ∈ (List.range c.cnt).map (fun j => c.lo + j - g.base) := List.mem_map.mpr ⟨j, List.mem_range.mpr hj, rfl⟩
  rw [Group.resume, testBit_clearBits, decide_eq_false (not_not_intro hmem), Bool.and_false]

end Continue

namespace State

variable {s : State}

/-! The end of an aborting launch (R81, R82, R206). -/

/-- The queries that wait in the queues for a launch whose end goes on are dropped. -/
theorem mem_dropQueries_engq {ls : List Launch} {e : EngEntry} (he : e ∈ (ls.foldl (fun s l => s.dropQueries l) s).engq) :
    e ∈ s.engq ∧ ∀ l ∈ ls, e.queue = 3 → e.launch ≠ l.id := by
  induction ls generalizing s with
  | nil => exact ⟨he, by simp⟩
  | cons l ls ih =>
    obtain ⟨hmem, hls⟩ := ih he
    change e ∈ (s.dropEntries fun e => e.queue == 3 && e.launch == l.id).engq at hmem
    rw [dropEntries_engq] at hmem
    obtain ⟨hs, hl⟩ := List.mem_filter.mp hmem
    exact ⟨hs, List.forall_mem_cons.mpr ⟨by simpa [imp_iff_not_or] using hl, hls⟩⟩

/-- What a launch's end waits for of a group: everything that is with an engine, or once its context has gone its running queries alone. -/
def endsBusy (s : State) (l : Launch) (g : Group) : Bool :=
  if (match s.tree? l.ctx l.tree with | some t => t.closing | none => false) then s.querying g else s.groupBusy g

theorem abortDone_eq (s : State) (l : Launch) : s.abortDone l =
    if (s.groups.filter (fun g => g.launch == l.id)).any (s.endsBusy l) || !l.evHeld.isEmpty then s
    else ((s.groups.filter (fun g => g.launch == l.id)).foldl (fun s g => s.releaseGroup g) s).finishLaunch l pkFault (l.fault.getD (0, 0)).1 (l.fault.getD (0, 0)).2 := rfl

theorem treeDec_launches (s : State) (c : Nat) (t : W32) : (s.treeDec c t).launches = s.launches := by
  unfold treeDec
  split
  · rfl
  · exact (apply_ite State.launches ..).trans (ite_self s.launches)

theorem treeDec_groups (s : State) (c : Nat) (t : W32) : (s.treeDec c t).groups = s.groups := by
  unfold treeDec
  split
  · rfl
  · exact (apply_ite State.groups ..).trans (ite_self s.groups)

theorem mem_finishLaunch_launches {l y : Launch} {status : Nat} {detail : W32} {fault : W64} (hy : y ∈ (s.finishLaunch l status detail fault).launches) :
    y.id ≠ l.id := by
  unfold finishLaunch at hy
  rw [treeDec_launches] at hy
  simpa using (List.mem_filter.mp hy).2

theorem finishLaunch_groups (s : State) (l : Launch) (status : Nat) (detail : W32) (fault : W64) :
    (s.finishLaunch l status detail fault).groups = s.groups := by
  unfold finishLaunch
  rw [treeDec_groups]
  exact (apply_ite State.groups ..).trans (ite_self s.groups)

/-- A launch less in a tree that more launches keep (R84). -/
theorem treeDec_eq {c : Nat} {t : W32} {x : Tree} (hx : s.tree? c t = some x) (hclosing : x.closing = false) (hcounter : 1 < x.counter) :
    s.treeDec c t = s.updTree c t (fun x => { x with counter := x.counter - 1 }) := by
  unfold treeDec
  rw [hx]
  dsimp only
  rw [if_neg (by simpa [hclosing] using hcounter)]

/-- A launch that completes with a failing status leaves it in a tree that had none, with one launch less (R83, R84). -/
theorem tree?_finishLaunch {l : Launch} {status : Nat} {x : Tree} (hs : status ≠ pkDone) (detail : W32) (fault : W64)
    (hx : s.tree? l.ctx l.tree = some x) (hclosing : x.closing = false) (hcounter : 1 < x.counter) (hok : x.status = pkDone) :
    (s.finishLaunch l status detail fault).tree? l.ctx l.tree = some { x with status := status, detail := detail, fault := fault, counter := x.counter - 1 } := by
  have hfail : (s.treeFail l.ctx l.tree status detail fault).tree? l.ctx l.tree = some { x with status := status, detail := detail, fault := fault } :=
    (tree?_updTree hx fun y => by split <;> exact ⟨rfl, rfl⟩).trans (congrArg some (if_pos hok))
  unfold finishLaunch
  rw [if_neg hs]
  generalize s.treeFail l.ctx l.tree status detail fault = t at hfail
  have hfail' : ({ t with launches := t.launches.filter (fun (x : Launch) => x.id != l.id) } : State).tree? l.ctx l.tree
      = some { x with status := status, detail := detail, fault := fault } := hfail
  dsimp only
  rw [treeDec_eq hfail' hclosing hcounter]
  exact tree?_updTree hfail' (f := fun x => { x with counter := x.counter - 1 }) fun _ => ⟨rfl, rfl⟩

/-- A launch whose end waits for something stays as it is. -/
theorem abortDone_waits {l : Launch} (h : (∃ g ∈ s.groups.filter (fun g => g.launch == l.id), s.endsBusy l g = true) ∨ l.evHeld ≠ []) : s.abortDone l = s := by
  rw [abortDone_eq, if_pos]
  rcases h with h | h
  · rw [List.any_eq_true.mpr h, Bool.true_or]
  · rw [List.isEmpty_eq_false_iff.mpr h, Bool.not_false, Bool.or_true]

theorem abortDone_ends {l : Launch} (hbusy : ∀ g ∈ s.groups.filter (fun g => g.launch == l.id), s.endsBusy l g = false) (hheld : l.evHeld = []) :
    s.abortDone l = ((s.groups.filter (fun g => g.launch == l.id)).foldl (fun s g => s.releaseGroup g) s).finishLaunch l pkFault
      (l.fault.getD (0, 0)).1 (l.fault.getD (0, 0)).2 := by
  rw [abortDone_eq, if_neg]
  rw [List.any_eq_false.mpr (fun g hg => by rw [hbusy g hg]; decide), hheld]
  decide

end State

/-- Settles O44, a lemma for each kind of placement, for retirement and for the end of an aborting launch. -/
theorem placement : Obligations.Placement := by
  unfold Obligations.Placement
  refine ⟨⟨?root, ?ready, ?placed, ?retired, ?continued⟩, ?aborts, ?ends⟩
  case root =>
    intro s l x bad c k hl hx hnot hplacing hcont hbarred hcore hcs
    obtain ⟨hc, hbad, hk⟩ := State.rootCore_spec hcore
    obtain ⟨t, age, hrun, hunits, hlaunch, hmem, hpad, hgroups⟩ := rootSpanPlace_starts hl hx hnot hplacing hcont hbarred hcore hcs
    exact ⟨⟨hc, hbad, State.not_mem_usedSlots_of_freeSlot hk⟩, t, _, _, hrun, hunits, rfl, rfl, rfl, rfl, rfl, rfl, rfl, rfl, rfl, hlaunch, rfl, rfl, hmem, hpad, hgroups⟩
  case ready =>
    intro s l x bad hl hx hready hplacing hbarred
    exact ⟨fun t ht => groupPlace_places hl hx hready hplacing hbarred ht, fun hnone => groupPlace_places_none hl hx hready hplacing hbarred hnone⟩
  case placed => exact fun s t p x bad g hx hg hpair h => State.placeGroup_holds hx hg hpair h
  case retired =>
    intro s l x g hl hx hrun hdrain hheld hdealt hfind hres hempty hconts hbars hbusy hpieces
    have hkept := (State.launch?_congr (s.releaseGroup_launches g) l.id).trans hl
    exact ⟨groupRetire_runs hl hx hrun hdrain hheld hdealt hfind hres hempty hconts hbars hbusy hpieces, s.group?_releaseGroup g, s.tile_releaseGroup g,
      State.launch?_countRetired hkept g.gid⟩
  case continued =>
    intro s pre post g l c rest k hgs hpre hg hres hconts hl hplacing hslot
    exact ⟨_, _, g.resume c rest g, barcContinuationStart_runs hgs hpre hres hconts hl hplacing hslot, rfl, rfl, rfl, rfl, rfl, rfl, rfl, (vreg_contUnit ..).1, (vreg_contUnit ..).2,
      State.group?_updGroup (s := { s.fresh.2 with units := _ }) hg fun _ h => h, rfl, fun j hj => exited_resume hj g, rfl⟩
  case aborts => exact fun s => ⟨rfl, fun l hl e he => (State.mem_dropQueries_engq he).2 l hl⟩
  case ends =>
    intro s l
    refine ⟨State.abortDone_waits, fun hbusy hheld => ?_⟩
    rw [State.abortDone_ends hbusy hheld]
    refine ⟨fun y hy => State.mem_finishLaunch_launches hy, fun g hg hgl => ?_, fun x hx hclosing hcounter hok => ?_⟩
    · rw [State.finishLaunch_groups] at hg
      obtain ⟨hnot, y, hy, hid, hlaunch⟩ := State.mem_releaseGroups_groups hg
      exact hnot y (List.mem_filter.mpr ⟨hy, by simpa using hlaunch.trans hgl⟩) hid.symm
    · have hkept := (State.tree?_congr (foldl_keeps State.trees State.releaseGroup_trees (s.groups.filter (fun g => g.launch == l.id)) s) l.ctx l.tree).trans hx
      exact ⟨_, State.tree?_finishLaunch (by decide) _ _ hkept hclosing hcounter hok, by dsimp only; omega, rfl, rfl, rfl⟩

end Sys2Proof.Machine
end

section
/-! SUPPORT. SPAWN (O46): R77, R85 to R88, R131, R215, R344. -/

namespace Sys2Proof.Machine

set_option Elab.async false

/-! The plan of SPAWN: the lowest items enter records while there is room (R87). -/

/-- Whether the item of a template calls inline when its record finds no room. -/
def callsInline (ok : Bool) (t : Nat × List Byte) : Bool := ok && (LaunchArgs.ofRecord t.2).flags.getLsbD 2

theorem spawnPlan_cons_room (ok : Bool) (n : Nat) (t : Nat × List Byte) (ts : List (Nat × List Byte)) :
    spawnPlan ok (n + 1) (t :: ts) = { spawnPlan ok n ts with enter := t :: (spawnPlan ok n ts).enter } := rfl

theorem spawnPlan_cons_inline {ok : Bool} {t : Nat × List Byte} (h : callsInline ok t = true) (ts : List (Nat × List Byte)) :
    spawnPlan ok 0 (t :: ts) = { spawnPlan ok 0 ts with inlined := (t.1, LaunchArgs.ofRecord t.2) :: (spawnPlan ok 0 ts).inlined } := by
  rw [spawnPlan, if_neg (Nat.lt_irrefl 0)]
  exact if_pos h

theorem spawnPlan_cons_full {ok : Bool} {t : Nat × List Byte} (h : callsInline ok t = false) (ts : List (Nat × List Byte)) :
    spawnPlan ok 0 (t :: ts) = { spawnPlan ok 0 ts with full := t.1 :: (spawnPlan ok 0 ts).full } := by
  rw [spawnPlan, if_neg (Nat.lt_irrefl 0)]
  exact if_neg (Bool.not_eq_true _ ▸ h)

/-- Without room every item calls inline or gets 0. -/
theorem spawnPlan_zero (ok : Bool) (ts : List (Nat × List Byte)) :
    spawnPlan ok 0 ts = { enter := [], inlined := (ts.filter (callsInline ok)).map (fun t => (t.1, LaunchArgs.ofRecord t.2))
                          full := (ts.filter (fun t => !callsInline ok t)).map (·.1) } := by
  induction ts with
  | nil => rfl
  | cons t ts ih =>
    cases h : callsInline ok t with
    | true => simp [spawnPlan_cons_inline h, ih, h]
    | false => simp [spawnPlan_cons_full h, ih, h]

theorem spawnPlan_eq (ok : Bool) (n : Nat) (ts : List (Nat × List Byte)) :
    spawnPlan ok n ts = { enter := ts.take n, inlined := ((ts.drop n).filter (callsInline ok)).map (fun t => (t.1, LaunchArgs.ofRecord t.2))
                          full := ((ts.drop n).filter (fun t => !callsInline ok t)).map (·.1) } := by
  induction ts generalizing n with
  | nil => simp [spawnPlan]
  | cons t ts ih =>
    cases n with
    | zero => exact spawnPlan_zero ok (t :: ts)
    | succ n => rw [spawnPlan_cons_room, ih]; rfl

/-! Where an inline call goes and what it returns to (R88, R344). -/

theorem SUnit.inlineCall_inl (u : SUnit) (i : Issue) (reg : Nat) (a : LaunchArgs) :
    ∃ back : InlineRet, (u.inlineCall i reg a).inl = back :: u.inl ∧ back.reg = reg ∧ back.depth = u.rstack.length + 2 ∧ back.nest = u.nest
      ∧ (i.slot + 1 < i.hdr.count → back.hdr = i.hdrAddr ∧ back.slot = i.slot + 1) ∧ (i.hdr.count ≤ i.slot + 1 → back.hdr = i.nextClause ∧ back.slot = 0) := by
  refine ⟨_, rfl, rfl, rfl, rfl, fun h => ?_, fun h => ?_⟩
  · have hlast : decide (i.hdr.count ≤ i.slot + 1) = false := decide_eq_false (Nat.not_le_of_lt h)
    exact ⟨by simp only [hlast]; rfl, by simp only [hlast]; rfl⟩
  · have hlast : decide (i.hdr.count ≤ i.slot + 1) = true := decide_eq_true h
    exact ⟨by simp only [hlast]; rfl, by simp only [hlast]; rfl⟩

namespace State

variable {s : State}

/-! What a word reads is the same once it has closed its region (R216). -/

theorem closeRegion_keeps (s : State) (u : SUnit) : ∃ us, s.closeRegion u = { s with units := us } := by
  unfold closeRegion
  split
  · exact ⟨_, rfl⟩
  · exact ⟨s.units, rfl⟩

theorem queueLen_closeRegion (s : State) (u : SUnit) (core q : Nat) : (s.closeRegion u).queueLen core q = s.queueLen core q := by
  obtain ⟨us, h⟩ := s.closeRegion_keeps u
  rw [h]
  rfl

theorem launchOf_closeRegion (s : State) (u : SUnit) : (s.closeRegion u).launchOf u.noRegion = s.launchOf u := by
  obtain ⟨us, h⟩ := s.closeRegion_keeps u
  rw [h]
  rfl

theorem dq?_closeRegion (s : State) (u : SUnit) : (s.closeRegion u).dq? = s.dq? := by
  obtain ⟨us, h⟩ := s.closeRegion_keeps u
  rw [h]
  rfl

theorem wAt_closeRegion (s : State) (u : SUnit) : (s.closeRegion u).wAt u.noRegion = s.wAt u := by
  obtain ⟨us, h⟩ := s.closeRegion_keeps u
  rw [h]
  rfl

end State

/-- The device queue that a SPAWN word names (R86). -/
def spawnQueue (f : FmtB) (l : Launch) : Option Nat :=
  if f.sub = 63 then (match l.src with | .record q _ _ => some q | _ => none) else some f.sub.toNat

/-- The items of a SPAWN with the addresses of their templates. -/
def State.spawnItems (s : State) (u : SUnit) (f : FmtB) : List (Nat × Nat) :=
  (u.active (u.guard f.pred f.pneg)).map (fun k => (k, (s.wAt u f.a.toNat k).toNat))

/-- The records of a plan are entered, with the operation that waits for them (R85, R131). -/
def State.spawnEntered (s : State) (u : SUnit) (l : Launch) (d : DevQueue) (pa : Nat) (plan : SpawnPlan) : State :=
  if plan.enter.isEmpty then s
  else
    let r := s.addPend u (.entries plan.enter.length) [] false true false
    plan.enter.foldl (fun s x => s.spawnRecord u r.1 x.1 d pa l.tree x.2) r.2

/-- The items of a plan that get 1. -/
def SpawnPlan.ones (plan : SpawnPlan) (u : SUnit) : BitVec 64 := laneMask (fun j => (plan.enter.map (·.1)).contains (u.lo + j))

/-- The items of a plan get 1 for an entered record and 0 without room. -/
def State.spawnResults (s : State) (u u1 : SUnit) (reg : Nat) (plan : SpawnPlan) : State :=
  s.writeLanes u1 reg (plan.ones u ||| laneMask (fun j => plan.full.contains (u.lo + j))) ((List.range 64).map (fun j => if (plan.ones u).getLsbD j then 1 else 0))

/-- How a SPAWN whose results stand goes on: after the word, or inline on its sides, the items that stay as a strand of their own (R88). -/
def State.spawnSides (s : State) (i : Issue) (u u1 : SUnit) (reg : Nat) (sides : List (LaunchArgs × BitVec 64)) : Res :=
  let stay := u.mask &&& ~~~(sides.foldl (fun m x => m ||| x.2) 0)
  let inlined (x : LaunchArgs × BitVec 64) : SUnit := ({ u1 with mask := x.2 } : SUnit).inlineCall i reg x.1
  match sides with
  | [] => .done s
  | (a, m) :: more =>
    if stay != 0 then .done (s.split u1 { u1 with mask := stay } (sides.map inlined))
    else if more.isEmpty then .jump (s.putUnit (u1.inlineCall i reg a))
    else .jump (s.split u1 (inlined (a, m)) (more.map inlined))

/-- SPAWN once its templates are found legal and its rows are reserved: s2 is the module before, which a trap of the word leaves. -/
def State.spawnOn (s2 s4 : State) (i : Issue) (u : SUnit) (reg : Nat) (l : Launch) (d : DevQueue)
    (pa : Nat) (plan : SpawnPlan) (sides : List (LaunchArgs × BitVec 64)) : Res :=
  let stay := u.mask &&& ~~~(sides.foldl (fun m x => m ||| x.2) 0)
  if !sides.isEmpty && decide (32 < u.rstack.length + 2) then .trap s2 causeStackover (BitVec.ofNat 64 u.nest)
  else if !sides.isEmpty && (stay != 0 || decide (1 < sides.length)) && u.splitFull then .trap s2 causeDiverge 0
  else match (s4.spawnEntered u l d pa plan).ensureRows u [reg] with
    | .error r => .trap s2 causeGregs (BitVec.ofNat 64 r.toNat)
    | .ok (s6, u1) => (s6.spawnResults u u1 reg plan).spawnSides i u u1 reg sides

/-- SPAWN once its templates are read: they are checked, then the queue's pages, and the rows of its results are reserved (R86, R410). -/
def State.spawnChecked (s1 : State) (i : Issue) (u : SUnit) (reg : Nat) (l : Launch) (d : DevQueue) (ts : List (Nat × List Byte)) : Res :=
  match ts.find? (fun t => !s1.templateOk l (LaunchArgs.ofRecord t.2)) with
  | some t => .trap s1 causeBadspawn (BitVec.ofNat 64 t.1)
  | none => match s1.dqProducer (.core u.core) d with
    | (.bad c va, s2) => .trap s2 c (BitVec.ofNat 64 va) true
    | (.absent need va, s2) => s2.chkRes i u need (.absent va)
    | (.mig va, s2) => s2.chkRes i u .both (.hold va)
    | (.ok pa, s2) => match s2.reserveRows u [reg] with
      | .error r => .trap s2 causeGregs (BitVec.ofNat 64 r.toNat)
      | .ok s3 =>
        let plan := spawnPlan (decide (u.nest < u.nestmax)) ((s3.dqSettle pa).dqRoom d pa) ts
        s2.spawnOn (s3.dqSettle pa) i u reg l d pa plan (inlineSides u plan.inlined)

/-! The ways a SPAWN goes on (R87, R88, R344). -/

section Ways
variable {s2 s4 : State} {i : Issue} {u : SUnit} {reg : Nat} {l : Launch} {d : DevQueue} {pa : Nat} {plan : SpawnPlan}

theorem State.spawnOn_stackover {sides : List (LaunchArgs × BitVec 64)} (hs : sides ≠ []) (hdeep : 32 < u.rstack.length + 2) :
    s2.spawnOn s4 i u reg l d pa plan sides = .trap s2 causeStackover (BitVec.ofNat 64 u.nest) := by
  unfold State.spawnOn
  exact if_pos (by simp [hs, hdeep])

section Rows
variable {s6 : State} {u1 : SUnit} (hrows : (s4.spawnEntered u l d pa plan).ensureRows u [reg] = .ok (s6, u1))
include hrows

/-- No item calls inline: the word ends. -/
theorem State.spawnOn_none : s2.spawnOn s4 i u reg l d pa plan [] = .done (s6.spawnResults u u1 reg plan) := by
  unfold State.spawnOn
  dsimp only
  rw [if_neg (by simp), if_neg (by simp), hrows]
  rfl

variable {a : LaunchArgs} {m : BitVec 64} (hdepth : u.rstack.length + 2 ≤ 32)
include hdepth

/-- Every item calls inline with the same code and arguments. -/
theorem State.spawnOn_all (hstay : u.mask &&& ~~~m = 0) :
    s2.spawnOn s4 i u reg l d pa plan [(a, m)] = .jump ((s6.spawnResults u u1 reg plan).putUnit (u1.inlineCall i reg a)) := by
  unfold State.spawnOn
  dsimp only
  rw [if_neg (by simpa using hdepth), if_neg (by simp [hstay]), hrows]
  dsimp only
  unfold State.spawnSides
  dsimp only
  rw [if_neg (by simp [hstay])]
  rfl

/-- Some items stay, and go on as a strand of their own. -/
theorem State.spawnOn_some (hstay : u.mask &&& ~~~m ≠ 0) (hfull : u.splitFull = false) :
    s2.spawnOn s4 i u reg l d pa plan [(a, m)] = .done ((s6.spawnResults u u1 reg plan).split u1 { u1 with mask := u.mask &&& ~~~m }
      [({ u1 with mask := m } : SUnit).inlineCall i reg a]) := by
  have hzero : (0 : BitVec 64) ||| m = m := BitVec.zero_or
  unfold State.spawnOn
  dsimp only
  rw [if_neg (by simpa using hdepth), if_neg (by simp [hfull]), hrows]
  dsimp only
  unfold State.spawnSides
  dsimp only [List.foldl_cons, List.foldl_nil]
  rw [hzero, if_pos (by simpa using hstay)]
  rfl

omit hrows in
theorem State.spawnOn_diverges (hstay : u.mask &&& ~~~m ≠ 0) (hfull : u.splitFull = true) :
    s2.spawnOn s4 i u reg l d pa plan [(a, m)] = .trap s2 causeDiverge 0 := by
  have hzero : (0 : BitVec 64) ||| m = m := BitVec.zero_or
  unfold State.spawnOn
  dsimp only [List.foldl_cons, List.foldl_nil]
  rw [if_neg (by simpa using hdepth), hzero, if_pos (by simpa [hfull] using hstay)]

end Rows

end Ways

/-! The word up to its plan (R86, R410). -/

section Word
variable {f : FmtB} {s : State} {i : Issue} {u : SUnit} {l : Launch} (h : s.AtHead i u) (hact : u.anyActive (u.guard f.pred f.pneg) = true)
  (hstrand : u.isStrand = true) (hl : s.launchOf u = some l) (hroom : s.queueLen u.core 5 + (u.active (u.guard f.pred f.pneg)).length ≤ 64)

/-- A queue with room for the items of a SPAWN does not make it wait. -/
theorem spawn_room (hroom : s.queueLen u.core 5 + (u.active (u.guard f.pred f.pneg)).length ≤ 64) :
    ((s.closeRegion u).queueLen u.noRegion.core 5 != 0
      && decide (64 < (s.closeRegion u).queueLen u.noRegion.core 5 + (u.noRegion.active (u.noRegion.guard f.pred f.pneg)).length)) = false := by
  have hlen : (s.closeRegion u).queueLen u.noRegion.core 5 = s.queueLen u.core 5 := s.queueLen_closeRegion u u.core 5
  have hitems : u.noRegion.active (u.noRegion.guard f.pred f.pneg) = u.active (u.guard f.pred f.pneg) := rfl
  rw [hlen, hitems, decide_eq_false (Nat.not_lt.mpr hroom), Bool.and_false]

include h hact hstrand hl hroom

theorem spawn_noQueue (hq : (spawnQueue f l).bind (s.dq? l.ctx) = none) :
    exec (.spawn f) s = .next (State.finish i u (.trap (s.closeRegion u) causeBadspawn (BitVec.ofNat 64 (u.lowest (u.guard f.pred f.pneg))))) := by
  have hact' : u.noRegion.anyActive (u.noRegion.guard f.pred f.pneg) = true := hact
  have hstrand' : u.noRegion.isStrand = true := hstrand
  rw [← s.dq?_closeRegion u] at hq
  show execSpawn f s = _
  unfold execSpawn
  rw [h.runClosing]
  dsimp only
  rw [hact', if_neg (by decide), hstrand', if_neg (by decide), if_neg (by simpa using spawn_room hroom), (s.launchOf_closeRegion u).trans hl]
  dsimp only
  split
  · rfl
  · next hq' => cases hq'.symm.trans hq

section Read
variable {d : DevQueue} {ts : List (Nat × List Byte)} {s1 : State} (hq : (spawnQueue f l).bind (s.dq? l.ctx) = some d)
  (hread : ((s.closeRegion u).publish u.core 3).readTemplates u.noRegion (s.spawnItems u f) = (.inr ts, s1))
include hq hread

theorem spawn_reads : exec (.spawn f) s = .next (State.finish i u (s1.spawnChecked i u.noRegion f.aux7.toNat l d ts)) := by
  have hact' : u.noRegion.anyActive (u.noRegion.guard f.pred f.pneg) = true := hact
  have hstrand' : u.noRegion.isStrand = true := hstrand
  have hread' : ((s.closeRegion u).publish u.noRegion.core 3).readTemplates u.noRegion
      ((u.noRegion.active (u.noRegion.guard f.pred f.pneg)).map (fun k => (k, ((s.closeRegion u).wAt u.noRegion f.a.toNat k).toNat))) = (.inr ts, s1) := by
    rw [State.wAt_closeRegion]
    exact hread
  rw [← s.dq?_closeRegion u] at hq
  show execSpawn f s = _
  unfold execSpawn
  rw [h.runClosing]
  dsimp only
  rw [hact', if_neg (by decide), hstrand', if_neg (by decide), if_neg (by simpa using spawn_room hroom), (s.launchOf_closeRegion u).trans hl]
  dsimp only
  split
  · next hq' => cases hq'.symm.trans hq
  · next hq' =>
    cases hq'.symm.trans hq
    rw [hread']
    rfl

theorem spawn_badTemplate {t : Nat × List Byte} (hbad : ts.find? (fun t => !s1.templateOk l (LaunchArgs.ofRecord t.2)) = some t) :
    exec (.spawn f) s = .next (State.finish i u (.trap s1 causeBadspawn (BitVec.ofNat 64 t.1))) := by
  rw [spawn_reads h hact hstrand hl hroom hq hread]
  unfold State.spawnChecked
  rw [hbad]

theorem spawn_goesOn {pa : Nat} {s2 s3 : State} (hok : ∀ t ∈ ts, s1.templateOk l (LaunchArgs.ofRecord t.2) = true)
    (hprod : s1.dqProducer (.core u.core) d = (.ok pa, s2)) (hrows : s2.reserveRows u.noRegion [f.aux7.toNat] = .ok s3) :
    let plan := spawnPlan (decide (u.nest < u.nestmax)) ((s3.dqSettle pa).dqRoom d pa) ts
    exec (.spawn f) s = .next (State.finish i u (s2.spawnOn (s3.dqSettle pa) i u.noRegion f.aux7.toNat l d pa plan (inlineSides u.noRegion plan.inlined))) := by
  have hnone : ts.find? (fun t => !s1.templateOk l (LaunchArgs.ofRecord t.2)) = none := List.find?_eq_none.mpr fun t ht => by simp [hok t ht]
  have hprod' : s1.dqProducer (.core u.noRegion.core) d = (.ok pa, s2) := hprod
  intro plan
  rw [spawn_reads h hact hstrand hl hroom hq hread]
  unfold State.spawnChecked
  rw [hnone]
  dsimp only
  rw [hprod']
  dsimp only
  rw [hrows]
  rfl

end Read

end Word

/-! The record of an entry of queue 5 (R68, R131). -/

section Serve
variable {s s1 : State} {e : EngEntry} {q pa p spa cluster : Nat} {bs : List Byte} {d : DevQueue}

theorem atomicEngineServe_spawn (hlive : s.halted cluster = false) (hnone : ∀ r ∈ s.atomq, r.cluster ≠ cluster)
    (hnext : s.nextEntry (fun e => e.queue == 5 && State.spawnHome e == some cluster) = some e) :
    exec (.atomicEngineServe cluster) s = .next (s.serveSpawn e) := by
  have hreq : s.nextReq cluster = none := List.find?_eq_none.mpr fun r hr => by simp [hnone r hr]
  show execAtomicEngineServe cluster s = _
  unfold execAtomicEngineServe
  rw [hlive, hreq, hnext]
  rfl

theorem State.serveSpawn_writes (hjob : e.job = .spawn q pa p bs) (hd : s.dq? e.ctx q = some d)
    (hslot : s.dqAccess (.core e.core) d.ctx (d.ring.toNat + 64 * (p % 2 ^ d.logn)) 64 = (.ok spa, s1)) :
    let t := s1.writeEngineAt (.core e.core) spa (bs.map (fun b => (b, false)))
    s.serveSpawn e = { t with engq := t.engq.filter (fun x => x.id != e.id) }.entryDone e.op none 0 0 := by
  have hwrite : s.writeRecord (.core e.core) d p bs = (true, s1.writeEngineAt (.core e.core) spa (bs.map (fun b => (b, false)))) := by
    unfold State.writeRecord
    rw [hslot]
  unfold State.serveSpawn
  dsimp only
  rw [hjob]
  dsimp only
  rw [hd]
  dsimp only
  rw [hwrite]

end Serve

/-- Settles O46: the word up to its plan, the ways it goes on, the plan, the inline call, and the record's write. -/
theorem spawn : Obligations.Spawn := by
  unfold Obligations.Spawn
  refine ⟨?word, ?plan, ?inline, ?record⟩
  case word =>
    intro f s i u l h hact hstrand hl hroom
    refine ⟨fun hq => spawn_noQueue h hact hstrand hl hroom hq, fun d ts s1 hq hread => ⟨fun t hbad => spawn_badTemplate h hact hstrand hl hroom hq hread hbad, ?_⟩⟩
    intro pa s2 s3 s6 u1 hok hprod hrows s4 plan sides r s5 ones s7
    have hrun := spawn_goesOn h hact hstrand hl hroom hq hread hok hprod hrows
    have hs5 : s4.spawnEntered u.noRegion l d pa plan = s5 := by
      unfold State.spawnEntered
      simp only [List.isEmpty_iff]
      rfl
    refine ⟨fun hs hdeep => ?_, fun hens => ?_⟩
    · rw [hrun, State.spawnOn_stackover (u := u.noRegion) hs hdeep]
      rfl
    rw [← hs5] at hens
    refine ⟨fun hs => ?_, fun a m hs hdepth => ⟨fun hstay => ?_, fun hstay hfull => ?_, fun hstay hfull => ?_⟩⟩
    all_goals
      change inlineSides u.noRegion plan.inlined = _ at hs
      rw [hrun, hs]
    · rw [State.spawnOn_none hens]
      rfl
    · rw [State.spawnOn_all hens hdepth hstay]
      rfl
    · rw [State.spawnOn_some hens hdepth hstay hfull]
      rfl
    · rw [State.spawnOn_diverges (u := u.noRegion) hdepth hstay hfull]
      rfl
  case plan =>
    intro ok n ts
    rw [spawnPlan_eq]
    exact ⟨rfl, rfl, rfl⟩
  case inline => exact fun u i reg a => ⟨rfl, rfl, rfl, rfl, rfl, rfl, u.inlineCall_inl i reg a⟩
  case record =>
    intro s s1 e q pa p spa cluster bs d hlive hnone hnext hjob hd hslot
    rw [atomicEngineServe_spawn hlive hnone hnext, State.serveSpawn_writes hjob hd hslot]

end Sys2Proof.Machine
end
section
/-! SUPPORT. Fetch of a clause (O47): what reading a clause answers when its header fails, what fetching one leads to by what reading it answers, and
what a clause that starts leaves. -/

namespace Sys2Proof.Machine
set_option Elab.async false

section Fetch
variable {s s1 : State} {u : SUnit}

/-- The fetch of a unit that is ready (R104). -/
theorem clauseFetch_ready (hu : s.unit? u.id = some u) (hmay : s.mayIssue u = true) (hover : s.waitOver u = true) :
    exec (.clauseFetch u.id) s = .next (s.fetchClause u) := by
  show execClauseFetch u.id s = _
  unfold execClauseFetch
  rw [hu]
  dsimp only
  rw [hmay, hover]
  rfl

/-- A trap that came late is taken at the boundary (assumption log 12). -/
theorem State.fetchClause_lateTrap {t : LateTrap} (ht : u.asyncTrap = some t) (hslot : u.pcSlot = none) : s.fetchClause u = s.boundaryTrap u false t := by
  unfold State.fetchClause
  rw [ht, hslot]
  rfl

/-- With no late trap, a clause that fails its checks traps at the boundary. -/
theorem State.fetchClause_trap {t : LateTrap} {header : Bool} (hnone : u.asyncTrap = none) (hread : s.readClause u = (.trap t header, s1)) :
    s.fetchClause u = s1.boundaryTrap u header t := by
  unfold State.fetchClause
  rw [hnone, ite_self, hread]

/-- The words of a clause as its slots decode them; a word that does not decode, as a NOP. -/
def Header.instrs (h : Header) (ws : List W64) : List Instr :=
  ws.zipIdx.map (fun w => (h.decodeSlot w.2 w.1).getD (.nop { d := 0, a := 0, pred := 7, pneg := false, sreg := 0, imm := 0 }))

/-- A clause that passes its checks and finds room starts (R104, R131, R375). -/
theorem State.fetchClause_starts {h : Header} {ws : List W64} (hnone : u.asyncTrap = none) (hslot : u.pcSlot = none)
    (hread : s.readClause u = (.ok h ws, s1)) (hmma : s1.mmaReady u (Header.instrs h ws) = true) (hpips : pipsReady u h = true)
    (hbatch : batchesReady u (Header.instrs h ws) = true) (hqueues : s1.queuesReady u (Header.instrs h ws) = true) :
    s.fetchClause u = s1.startClause u h ws := by
  unfold Header.instrs at hmma hbatch hqueues
  unfold State.fetchClause
  rw [hnone, ite_self, hread]
  dsimp only
  rw [hslot, Option.getD_none, List.drop_zero, hmma, hpips, hbatch, hqueues]
  rfl

/-- A transfer to an address that holds no header is not made (R258). -/
theorem State.readClause_badTarget {o : Origin} (ho : u.origin = some o) (hpc : u.pc.toNat % 8 ≠ 0) :
    s.readClause u = (.trap { cause := causeBadtarget, tpc := o.word, tval := u.pc, next := o.next, global := true } true, s) := by
  unfold State.readClause
  rw [ho]
  dsimp only
  rw [if_pos hpc]

/-- A header that fails its checks: BADTARGET after a transfer, ILLCLAUSE else (R254, R258). -/
theorem State.readClause_noHeader {w : W64} (hpc : u.pc.toNat % 8 = 0)
    (hword : s.fetchWord u (match u.origin with | some o => o.word | none => u.pc) (match u.origin with | some o => o.next | none => u.pc) true u.pc.toNat
      = (.inr w, s1)) (hhdr : decodeHeader w = none) :
    (∀ o, u.origin = some o → s.readClause u
        = (.trap { cause := causeBadtarget, tpc := o.word, tval := u.pc, next := o.next, global := true } true, s1))
    ∧ (u.origin = none → s.readClause u
        = (.trap { cause := causeIllclause, tpc := u.pc, tval := u.pc, next := skipClause u.pc w, global := true } false, s1)) := by
  refine ⟨fun o ho => ?_, fun ho => ?_⟩ <;>
  · unfold State.readClause
    rw [ho] at hword ⊢
    dsimp only at hword ⊢
    rw [if_neg (by omega), hword]
    dsimp only
    rw [hhdr]
    rfl

end Fetch

/-! A clause that starts (R104, R256). -/

/-- A unit whose clause starts at its first slot: its duties are counted. -/
def SUnit.started (u : SUnit) (h : Header) (id : Nat) : SUnit :=
  { u with
    clause := id
    duties := u.duties ++ (if h.seta < 12 then [{ clause := id, pip := h.seta, isA := true, issued := false }] else [])
      ++ (if h.setb < 12 then [{ clause := id, pip := h.setb, isA := false, issued := false }] else [])
    wait := .none, pcSlot := none, origin := none, turn := id }

section Start
variable {s : State} {u : SUnit} {h : Header} {ws : List W64} (hslot : u.pcSlot = none)
include hslot

theorem State.startClause_units : (s.startClause u h ws).units = (s.putUnit (u.started h s.nextId)).units := by
  unfold State.startClause
  rw [hslot]
  rfl

theorem State.startClause_issue :
    (s.startClause u h ws).issue = s.issue ++ [{ unit := u.id, hdrAddr := u.pc, hdr := h, words := ws, slot := 0, entered := false }] := by
  unfold State.startClause
  rw [hslot]
  rfl

/-- The unit after its clause has started. -/
theorem State.startClause_unit? (hu : s.unit? u.id = some u) : (s.startClause u h ws).unit? u.id = some (u.started h s.nextId) := by
  show (s.startClause u h ws).units.find? _ = _
  rw [State.startClause_units hslot]
  exact s.unit?_putUnit (u := u.started h s.nextId) hu

end Start

theorem State.startClause_storage (s : State) (u : SUnit) (h : Header) (ws : List W64) :
    (s.startClause u h ws).mem = s.mem ∧ (s.startClause u h ws).pad = s.pad := ⟨rfl, rfl⟩

/-- Each pip that the header sets counts one more duty (R122, R256). -/
theorem SUnit.pipCount_started (u : SUnit) (h : Header) (id k : Nat) (hk : k < 12) :
    (u.started h id).pipCount k = u.pipCount k + (if h.seta = k then 1 else 0) + (if h.setb = k then 1 else 0) := by
  have hone (n : Nat) (isA : Bool) :
      ((if n < 12 then [({ clause := id, pip := n, isA := isA, issued := false } : Duty)] else []).filter (fun d => d.pip == k)).length
        = if n = k then 1 else 0 := by
    by_cases hn : n < 12
    · rw [if_pos hn, List.filter_singleton]
      by_cases e : n = k
      · rw [if_pos e, beq_iff_eq.mpr e]
        rfl
      · rw [if_neg e, beq_eq_false_iff_ne.mpr e]
        rfl
    · rw [if_neg hn, if_neg (by omega)]
      rfl
  unfold SUnit.pipCount
  show ((u.duties ++ _ ++ _).filter _).length = _
  rw [List.filter_append, List.filter_append, List.length_append, List.length_append, hone, hone]

/-- Settles O47: the fetch by what reading the clause answers, and the end of a yield. -/
theorem clauseFetched : Obligations.ClauseFetched := by
  unfold Obligations.ClauseFetched
  refine ⟨fun s u hu hmay hover => ?_, fun s u hu hyield => ?_⟩
  · rw [clauseFetch_ready hu hmay hover]
    refine ⟨fun t ht hslot => congrArg _ (State.fetchClause_lateTrap ht hslot), ?_, ?_, ?_⟩
    · intro h ws s1 hnone hslot hread is hmma hpips hbatch hqueues
      refine ⟨s1.startClause u h ws, u.started h s1.nextId, congrArg _ (State.fetchClause_starts hnone hslot hread hmma hpips hbatch hqueues),
        State.startClause_issue hslot, fun hu1 => ⟨State.startClause_unit? hslot hu1, rfl, rfl, rfl, rfl, fun k hk => u.pipCount_started h _ k hk⟩,
        s1.startClause_storage u h ws⟩
    · intro w s1 hnone hpc hword hhdr
      obtain ⟨htarget, hclause⟩ := State.readClause_noHeader hpc hword hhdr
      exact ⟨fun o ho => congrArg _ (State.fetchClause_trap hnone (htarget o ho)), fun ho => congrArg _ (State.fetchClause_trap hnone (hclause ho))⟩
    · exact fun o hnone hpc ho => congrArg _ (State.fetchClause_trap hnone (State.readClause_badTarget ho hpc))
  · refine ⟨s.updUnit u.id fun v => if v.wait = .yield then { v with wait := .none } else v, rfl, ?_, rfl, rfl, rfl⟩
    rw [State.unit?_updUnit _ _ _ (fun v => by split <;> rfl), hu, Option.map_some, if_pos hyield]

end Sys2Proof.Machine
end
section
/-! SUPPORT. Units at the end of a clause: a unit whose launch goes on stays, with its duties and its mode alone changed. -/

namespace Sys2Proof.Machine
set_option Elab.async false

/-- Every unit that bears a number is of one launch. -/
def State.OfLaunch (s : State) (k l : Nat) : Prop := ∀ y ∈ s.units, y.id = k → y.launch = l

theorem State.aborting_congr {s t : State} (h : t.launches = s.launches) (l : Nat) : t.aborting l = s.aborting l := by
  unfold State.aborting State.launch?
  rw [h]

/-- The launch of a unit that goes on does not abort. -/
theorem State.Live.aborting {s : State} {u : SUnit} (h : s.Live u) : s.aborting u.launch = false := by
  unfold State.aborting
  cases hl : s.launch? u.launch with
  | none => rfl
  | some l =>
    obtain ⟨h1, h2⟩ := h l hl
    simp [h1, h2]

theorem State.unit?_removeUnit_other (s : State) {k j : Nat} (h : k ≠ j) : (s.removeUnit j).unit? k = s.unit? k := by
  unfold State.removeUnit State.unit?
  rw [List.find?_filter]
  refine congrArg (List.find? · s.units) (funext fun x => ?_)
  by_cases hx : x.id = k
  · simp [hx, h]
  · simp [hx]

namespace State.OfLaunch
variable {s : State} {k l : Nat}

theorem of_units {t : State} (h : s.OfLaunch k l) (e : ∀ y ∈ t.units, y ∈ s.units) : t.OfLaunch k l := fun y hy => h y (e y hy)

theorem removeUnit (h : s.OfLaunch k l) (j : Nat) : (s.removeUnit j).OfLaunch k l := h.of_units fun _ hy => List.mem_of_mem_filter hy

/-- An update of units that keeps their numbers and launches. -/
theorem updUnit (h : s.OfLaunch k l) (id : Nat) (f : SUnit → SUnit) (hid : ∀ u, (f u).id = u.id) (hl : ∀ u, (f u).launch = u.launch) :
    (s.updUnit id f).OfLaunch k l := by
  intro y hy hk
  obtain ⟨x, hx, rfl⟩ := List.mem_map.mp hy
  revert hk
  split
  · rw [hid, hl]
    exact h x hx
  · exact h x hx

end State.OfLaunch

/-- Units of an aborting launch that go, one after the other, none of them of number k. -/
theorem State.removeUnits_other {k l : Nat} (xs : List SUnit) (hne : ∀ x ∈ xs, x.id ≠ k) (s : State) (hs : s.OfLaunch k l) :
    let t := xs.foldl (fun s x => s.removeUnit x.id) s
    t.unit? k = s.unit? k ∧ t.launches = s.launches ∧ t.OfLaunch k l := by
  induction xs generalizing s with
  | nil => exact ⟨rfl, rfl, hs⟩
  | cons x xs ih =>
    obtain ⟨h1, h2, h3⟩ := ih (fun y hy => hne y (List.mem_cons_of_mem _ hy)) (s.removeUnit x.id) (hs.removeUnit _)
    exact ⟨h1.trans (s.unit?_removeUnit_other (hne x List.mem_cons_self).symm), h2, h3⟩

/-- The units of an aborting launch that stop leave a unit of another launch. -/
theorem State.stopUnits_other {s : State} {k l : Nat} (hs : s.OfLaunch k l) (hl : s.aborting l = false) (lid : Nat) :
    (s.stopUnits lid).unit? k = s.unit? k ∧ (s.stopUnits lid).launches = s.launches ∧ (s.stopUnits lid).OfLaunch k l := by
  unfold State.stopUnits
  split
  · next hab =>
    refine State.removeUnits_other _ (fun x hx hk => ?_) s hs
    obtain ⟨hmem, hx⟩ := List.mem_filter.mp hx
    have hlid : x.launch = lid := by simpa using (Bool.and_eq_true_iff.mp hx).1
    rw [← hlid, hs x hmem hk, hl] at hab
    cases hab
  · exact ⟨rfl, rfl, hs⟩

theorem State.stopAborting_other {s : State} {k l : Nat} (hs : s.OfLaunch k l) (hl : s.aborting l = false) : s.stopAborting.unit? k = s.unit? k := by
  have h (xs : List Launch) (t : State) (ht : t.OfLaunch k l) (hal : t.aborting l = false) :
      (xs.foldl (fun s x => s.stopUnits x.id) t).unit? k = t.unit? k := by
    induction xs generalizing t with
    | nil => rfl
    | cons x xs ih =>
      obtain ⟨h1, h2, h3⟩ := State.stopUnits_other ht hal x.id
      exact (ih (t.stopUnits x.id) h3 ((State.aborting_congr h2 l).trans hal)).trans h1
  exact h _ s hs hl

/-- The duties of a unit that are not met yet (R256). -/
def State.dutiesLeft (s : State) (u : SUnit) : List Duty := u.duties.filter (fun d => !(d.issued && !s.pend.any (fun o => o.holds u.id d)))

theorem State.settleDuties_units (s : State) : s.settleDuties.units = s.units.map (fun u => { u with duties := s.dutiesLeft u }) := by
  refine List.map_congr_left fun u _ => ?_
  unfold State.dutiesLeft
  split
  · next h =>
    rw [List.isEmpty_iff] at h
    rw [h, List.filter_nil, ← h]
  · rfl

theorem State.unit?_settleDuties (s : State) (k : Nat) : s.settleDuties.unit? k = (s.unit? k).map (fun u => { u with duties := s.dutiesLeft u }) := by
  unfold State.unit?
  rw [State.settleDuties_units, List.find?_map]
  rfl

/-- What the end of a clause makes of its unit: where nothing stopped it, its duties are issued and its mode goes on. -/
def SUnit.clauseClosed (u : SUnit) : SUnit :=
  if u.pcSlot.isSome then u
  else { u with duties := u.duties.map (fun d : Duty => if d.clause = u.clause then { d with issued := true } else d), fmode := u.fmodeNext }

theorem SUnit.clauseClosed_id (u : SUnit) : u.clauseClosed.id = u.id := by
  unfold SUnit.clauseClosed
  split <;> rfl

theorem SUnit.clauseClosed_launch (u : SUnit) : u.clauseClosed.launch = u.launch := by
  unfold SUnit.clauseClosed
  split <;> rfl

/-- The end of a clause before duties are settled. -/
def State.clauseClosed (s : State) (uid : Nat) : State :=
  { s with issue := s.issue.filter (·.unit != uid) }.updUnit uid SUnit.clauseClosed

theorem State.endClause_eq (s : State) (uid : Nat) : s.endClause uid = (s.clauseClosed uid).settleDuties.stopAborting := rfl

theorem State.unit?_clauseClosed {s : State} {k : Nat} {x : SUnit} (hx : s.unit? k = some x) (uid : Nat) :
    ∃ ds fm, (s.clauseClosed uid).unit? k = some { x with duties := ds, fmode := fm } := by
  by_cases hk : k = uid
  · subst hk
    have h : (s.clauseClosed k).unit? k = some x.clauseClosed :=
      (State.unit?_updUnit _ _ _ SUnit.clauseClosed_id).trans (congrArg (Option.map _) hx)
    rw [h]
    unfold SUnit.clauseClosed
    split
    · exact ⟨x.duties, x.fmode, rfl⟩
    · exact ⟨_, _, rfl⟩
  · exact ⟨x.duties, x.fmode, (State.unit?_updUnit_other _ hk _ SUnit.clauseClosed_id).trans hx⟩

theorem State.OfLaunch.clauseClosed {s : State} {k l : Nat} (h : s.OfLaunch k l) (uid : Nat) : (s.clauseClosed uid).OfLaunch k l :=
  State.OfLaunch.updUnit (s := { s with issue := s.issue.filter (·.unit != uid) }) h uid _ SUnit.clauseClosed_id SUnit.clauseClosed_launch

theorem State.OfLaunch.settleDuties {s : State} {k l : Nat} (h : s.OfLaunch k l) : s.settleDuties.OfLaunch k l := by
  intro y hy hk
  rw [State.settleDuties_units, List.mem_map] at hy
  obtain ⟨z, hz, rfl⟩ := hy
  exact h z hz hk

/-- The end of a clause leaves a unit whose launch goes on, but for its duties and its mode. -/
theorem State.unit?_endClause {s : State} {k l : Nat} {x : SUnit} (hx : s.unit? k = some x) (hs : s.OfLaunch k l) (hl : s.aborting l = false) (uid : Nat) :
    ∃ ds fm, (s.endClause uid).unit? k = some { x with duties := ds, fmode := fm } := by
  obtain ⟨ds, fm, hu⟩ := State.unit?_clauseClosed hx uid
  refine ⟨(s.clauseClosed uid).dutiesLeft { x with duties := ds, fmode := fm }, fm, ?_⟩
  rw [State.endClause_eq, State.stopAborting_other (hs.clauseClosed uid).settleDuties hl, State.unit?_settleDuties, hu]
  rfl

/-- Two units of one launch, each changed by its side of a transfer, after the clause has ended. -/
theorem State.unit?_endClause_pair {r : State} {a b l : Nat} {x y : SUnit} {f g : SUnit → SUnit} (hab : a ≠ b) (hx : r.unit? a = some x)
    (hy : r.unit? b = some y) (ha : r.OfLaunch a l) (hb : r.OfLaunch b l) (hl : r.aborting l = false) (hf : ∀ u, (f u).id = u.id)
    (hfl : ∀ u, (f u).launch = u.launch) (hg : ∀ u, (g u).id = u.id) (hgl : ∀ u, (g u).launch = u.launch) (uid : Nat) :
    (∃ ds fm, (((r.updUnit b g).updUnit a f).endClause uid).unit? a = some { f x with duties := ds, fmode := fm })
    ∧ ∃ ds fm, (((r.updUnit b g).updUnit a f).endClause uid).unit? b = some { g y with duties := ds, fmode := fm } := by
  refine ⟨State.unit?_endClause ?_ ((ha.updUnit _ _ hg hgl).updUnit _ _ hf hfl) hl uid,
    State.unit?_endClause ?_ ((hb.updUnit _ _ hg hgl).updUnit _ _ hf hfl) hl uid⟩
  · rw [State.unit?_updUnit _ _ _ hf, State.unit?_updUnit_other _ hab _ hg, hx, Option.map_some]
  · rw [State.unit?_updUnit_other _ hab.symm _ hf, State.unit?_updUnit _ _ _ hg, hy, Option.map_some]

end Sys2Proof.Machine
end
section
/-! SUPPORT. Splits of strands and cuts of spans by a branch (O24). -/

namespace Sys2Proof.Machine
set_option Elab.async false

/-! Which way a condition takes the items of a unit (R75, R338). -/

/-- The items that do not take a branch which divides a strand. -/
theorem and_not_ne_zero {m t : BitVec 64} (hsub : m &&& t = t) (hne : t ≠ m) : m &&& ~~~t ≠ 0 := by
  intro h
  refine hne (BitVec.eq_of_getLsbD_eq fun j hj => ?_)
  have h1 := congrArg (·.getLsbD j) hsub
  have h2 := congrArg (·.getLsbD j) h
  simp only [BitVec.getLsbD_and, BitVec.getLsbD_not, hj, decide_true, Bool.true_and] at h1 h2
  revert h1 h2
  cases m.getLsbD j <;> cases t.getLsbD j <;> simp

/-- A guard's lanes are lanes of the strand. -/
theorem SUnit.and_guardOf_mask (u : SUnit) (p : PReg) : u.mask &&& (u.guardOf p).mask = (u.guardOf p).mask := by
  unfold SUnit.guardOf
  dsimp only
  split
  · rw [← BitVec.and_assoc, BitVec.and_self]
  · exact BitVec.and_zero

/-- A condition that divides a strand: some lanes take it and some do not. -/
theorem SUnit.takes_none_strand {u : SUnit} {p : PReg} (hu : u.isStrand = true) (h : u.takes p = none) :
    (u.guardOf p).mask ≠ 0 ∧ (u.guardOf p).mask ≠ u.mask := by
  unfold SUnit.takes at h
  rw [if_pos hu] at h
  split at h
  · cases h
  split at h
  · cases h
  next h0 h1 => exact ⟨h0, h1⟩

/-! A split with one side that leaves (R98). -/

/-- The side that keeps the slot of a strand that splits. -/
def SUnit.staying (u : SUnit) (m : BitVec 64) (sp : Nat) : SUnit := { u.closeClause with mask := m, sstack := sp :: u.sstack }

/-- The side that leaves: a strand on a free slot, or deferred. -/
def SUnit.leaving (u : SUnit) (m : BitVec 64) (sp id : Nat) (slot : Option Nat) : SUnit :=
  { u.closeClause with mask := m, sstack := sp :: u.sstack, x := [], id := id, slot := slot, kind := if slot.isSome then .strand else .deferred, wait := .none }

section Split
variable {s : State} {u : SUnit} (hfresh : ∀ x ∈ s.units, x.id < s.nextId)
include hfresh

/-- The numbers of units that a split has added. -/
theorem newIds_append (keep v : SUnit) (hv : v.id = s.nextId + 1) :
    ((updWhere (·.id == keep.id) (fun _ => keep) s.units ++ [v]).map (·.id)).filter (fun i => !(s.units.map (·.id)).contains i) = [v.id] := by
  have hold : ((updWhere (·.id == keep.id) (fun _ => keep) s.units).map (·.id)).filter (fun i => !(s.units.map (·.id)).contains i) = [] := by
    rw [List.filter_eq_nil_iff]
    intro i hi
    obtain ⟨y, hy, rfl⟩ := List.mem_map.mp hi
    obtain ⟨x, hx, rfl⟩ := List.mem_map.mp hy
    have hid : (if (x.id == keep.id) = true then keep else x).id = x.id := by
      split
      · next h => exact (by simpa using h : x.id = keep.id).symm
      · rfl
    rw [hid]
    simpa using ⟨x, hx, rfl⟩
  have hnew : ¬ (s.nextId + 1) ∈ s.units.map (·.id) := by
    intro h
    obtain ⟨x, hx, e⟩ := List.mem_map.mp h
    have := hfresh x hx
    omega
  rw [List.map_append, List.filter_append, hold, List.map_singleton, hv, List.filter_singleton, List.contains_eq_mem, decide_eq_false hnew]
  rfl

/-- A split with a side that stays and one that leaves. -/
theorem State.strandSplit_one {stay m : BitVec 64} (hstay : stay ≠ 0) :
    ∃ slot, let v := u.leaving m s.nextId (s.nextId + 1) slot
      (s.strandSplit u stay [m]).2 = [v.id] ∧ (s.strandSplit u stay [m]).1.launches = s.launches
      ∧ (s.strandSplit u stay [m]).1.units = (s.putUnit (u.staying stay s.nextId)).units ++ [v] := by
  let keep := u.staying stay s.nextId
  let slot := ({ s with nextId := s.nextId + 1 + 1, units := updWhere (·.id == u.id) (fun _ => keep) s.units } : State).freeSlot u.core
  refine ⟨slot, ?_, ?_, ?_⟩ <;> unfold State.strandSplit <;> dsimp only <;> rw [if_pos hstay]
  · exact newIds_append hfresh keep (u.leaving m s.nextId (s.nextId + 1) slot) rfl
  · rfl
  · rfl

end Split

/-! A branch that divides a strand (R98, R100, R340). -/

/-- The word of a branch. -/
theorem State.AtHead.bra {s : State} {i : Issue} {u : SUnit} (h : s.AtHead i u) (f : FmtB) :
    exec (.bra f) s = .next (State.finish i u (s.condTransfer i u (u.predOf f.pred f.pneg) (fun s id => s.updUnit id (fun x => x.goTo i (i.target f))))) :=
  h.runWord (fun s i u => s.condTransfer i u (u.predOf f.pred f.pneg) (fun s id => s.updUnit id (fun x => x.goTo i (i.target f))))

section Strand
variable {s : State} {i : Issue} {u : SUnit} {p : PReg} (hu : u.isStrand = true) (hp : u.takes p = none)
include hu hp

/-- A full split stack (R100). -/
theorem State.condTransfer_splitFull (hfull : 32 ≤ u.sstack.length) (take : State → Nat → State) :
    s.condTransfer i u p take = .trap s causeDiverge 0 := by
  obtain ⟨h0, h1⟩ := SUnit.takes_none_strand hu hp
  unfold State.condTransfer SUnit.splitFull
  dsimp only
  rw [if_pos hu, if_neg h0, if_neg h1, if_pos (decide_eq_true hfull)]

/-- A condition that divides a strand splits it: the side that stays falls through. -/
theorem State.condTransfer_split (hroom : u.sstack.length < 32) (take : State → Nat → State) :
    s.condTransfer i u p take = .jump (((s.strandSplit u (u.mask &&& ~~~(u.guardOf p).mask) [(u.guardOf p).mask]).2.foldl take
      (s.strandSplit u (u.mask &&& ~~~(u.guardOf p).mask) [(u.guardOf p).mask]).1).updUnit u.id (fun x => x.fallTo i.nextClause)) := by
  obtain ⟨h0, h1⟩ := SUnit.takes_none_strand hu hp
  unfold State.condTransfer SUnit.splitFull
  dsimp only
  rw [if_pos hu, if_neg h0, if_neg h1, if_neg (by simpa using hroom)]

end Strand

/-- What a branch leaves that divides a strand (R98, R340). -/
theorem bra_splits {f : FmtB} {s : State} {i : Issue} {u : SUnit} (h : s.AtHead i u) (hu : u.isStrand = true) (hlive : s.Live u)
    (hp : u.takes (u.predOf f.pred f.pneg) = none) (hroom : u.sstack.length < 32) (hfresh : ∀ x ∈ s.units, x.id < s.nextId) :
    let m := (u.guardOf (u.predOf f.pred f.pneg)).mask
    ∃ (t : State) (slot : Option Nat) (ds ds' : List Duty) (fm fm' : BitVec 4), exec (.bra f) s = .next t
      ∧ t.unit? u.id = some { (u.staying (u.mask &&& ~~~m) s.nextId).fallTo i.nextClause with duties := ds, fmode := fm }
      ∧ t.unit? (s.nextId + 1) = some { (u.leaving m s.nextId (s.nextId + 1) slot).goTo i (i.target f) with duties := ds', fmode := fm' } := by
  intro m
  obtain ⟨slot, hids, hlaunches, hunits⟩ := State.strandSplit_one (u := u) (m := m) hfresh
    (and_not_ne_zero (u.and_guardOf_mask _) (SUnit.takes_none_strand hu hp).2)
  generalize hr : s.strandSplit u (u.mask &&& ~~~m) [m] = r at hids hlaunches hunits
  let keep := u.staying (u.mask &&& ~~~m) s.nextId
  let v := u.leaving m s.nextId (s.nextId + 1) slot
  have hne : u.id ≠ v.id := by
    have := hfresh u (List.mem_of_find?_eq_some h.unit)
    show u.id ≠ s.nextId + 1
    omega
  have hkeep : r.1.unit? u.id = some keep := by
    unfold State.unit?
    rw [hunits, List.find?_append]
    exact congrArg (Option.or · _) (State.unit?_putUnit s (u := keep) h.unit_self)
  have hv : r.1.unit? v.id = some v := by
    unfold State.unit?
    rw [hunits, List.find?_append, List.find?_eq_none.mpr, Option.none_or, List.find?_singleton, beq_self_eq_true, if_pos rfl]
    intro x hx
    obtain ⟨y, hy, rfl⟩ := List.mem_map.mp hx
    have hlt := hfresh y hy
    split
    · exact fun e => hne (eq_of_beq e)
    · simp only [beq_iff_eq]
      show ¬ y.id = s.nextId + 1
      omega
  have hof (k : Nat) (hk : k = u.id ∨ k = v.id) : r.1.OfLaunch k u.launch := by
    intro y hy e
    rw [hunits, List.mem_append, List.mem_singleton] at hy
    rcases hy with hy | rfl
    · obtain ⟨x, hx, rfl⟩ := List.mem_map.mp hy
      have hlt := hfresh x hx
      revert e
      split
      · exact fun _ => rfl
      · next hxu =>
        intro e
        rcases hk with rfl | rfl
        · exact absurd (beq_iff_eq.mpr e) hxu
        · exact absurd (show x.id = s.nextId + 1 from e) (by omega)
    · rfl
  obtain ⟨⟨ds, fm, h1⟩, ds', fm', h2⟩ := State.unit?_endClause_pair (f := fun x => x.fallTo i.nextClause) (g := fun x => x.goTo i (i.target f)) hne
    hkeep hv (hof _ (.inl rfl)) (hof _ (.inr rfl)) ((State.aborting_congr hlaunches _).trans hlive.aborting) (fun _ => rfl) (fun _ => rfl)
    (fun _ => rfl) (fun _ => rfl) i.unit
  refine ⟨_, slot, ds, ds', fm, fm', ?_, h1, h2⟩
  rw [h.bra, State.condTransfer_split hu hp hroom, hr, hids]
  rfl

/-! A branch that cuts a span (R75). -/

/-- The part of a span below a cut. -/
def SUnit.lowPiece (u : SUnit) (t : Nat) : SUnit := { u with cnt := t - u.lo }

/-- The part from the cut on, on a slot of its own. -/
def SUnit.highPiece (u : SUnit) (t k id : Nat) : SUnit := { u with id := id, pcSlot := none, slot := some k, lo := t, cnt := u.lo + u.cnt - t }

/-- The room that a cut needs: a free slot, and for a span not dealt fewer than 64 of its launch. -/
def State.cutSlot (s : State) (u : SUnit) : Option Nat :=
  if u.kind != .undealt || decide ((s.undealt u.launch).length < 64) then s.freeSlot u.core else none

theorem SUnit.not_isStrand_of_span {u : SUnit} (h : u.kind = .span ∨ u.kind = .undealt) : u.isStrand = false := by
  unfold SUnit.isStrand
  rcases h with h | h <;> rw [h] <;> rfl

section Cut
variable {s : State} {i : Issue} {u : SUnit} {t : Nat} (hu : u.isStrand = false) (hlo : u.lo < t) (hhi : t < u.lo + u.cnt) (below : Bool)
include hu hlo hhi

theorem State.condTransfer_noCut (hroom : s.cutSlot u = none) (take : State → Nat → State) :
    s.condTransfer i u (if below then .lt t else .ge t) take = .needG s := by
  unfold State.cutSlot at hroom
  unfold State.condTransfer SUnit.spanCond
  cases below <;> simp only [hu, Bool.false_eq_true, if_false, if_true, show ¬ t ≤ u.lo by omega, show ¬ u.lo + u.cnt ≤ t by omega, hroom]

/-- A cut: one piece takes the branch, the other falls through. -/
theorem State.condTransfer_cut {k : Nat} (hroom : s.cutSlot u = some k) (take : State → Nat → State) :
    s.condTransfer i u (if below then .lt t else .ge t) take
      = .jump ((take (s.cutSpan u t k).1 (if below then u.id else s.nextId)).updUnit (if below then s.nextId else u.id) (fun x => x.fallTo i.nextClause)) := by
  unfold State.cutSlot at hroom
  unfold State.condTransfer SUnit.spanCond
  cases below <;> simp only [hu, Bool.false_eq_true, if_false, if_true, show ¬ t ≤ u.lo by omega, show ¬ u.lo + u.cnt ≤ t by omega, hroom] <;> rfl

end Cut

/-- Both pieces of a span that is cut. -/
theorem State.unit?_cutSpan {s : State} {u : SUnit} (hu : s.unit? u.id = some u) (hfresh : ∀ x ∈ s.units, x.id < s.nextId) (t k : Nat) :
    (s.cutSpan u t k).1.unit? u.id = some (u.lowPiece t) ∧ (s.cutSpan u t k).1.unit? s.nextId = some (u.highPiece t k s.nextId) := by
  have hlt := hfresh u (List.mem_of_find?_eq_some hu)
  let s1 : State := { s with units := s.units ++ [u.highPiece t k s.nextId] }
  have h1 : s1.unit? u.id = some u := by
    show (s.units ++ _).find? _ = _
    rw [List.find?_append, show s.units.find? _ = some u from hu]
    rfl
  have h2 : s1.unit? s.nextId = some (u.highPiece t k s.nextId) := by
    show (s.units ++ _).find? _ = _
    rw [List.find?_append, List.find?_eq_none.mpr fun x hx => by simpa using (hfresh x hx).ne]
    simp [SUnit.highPiece]
  have hcut (j : Nat) : (s.cutSpan u t k).1.unit? j = (s1.updUnit u.id (fun x => { x with cnt := t - u.lo })).unit? j := rfl
  refine ⟨?_, ?_⟩
  · exact (hcut _).trans ((State.unit?_updUnit s1 u.id (fun x => { x with cnt := t - u.lo }) (fun _ => rfl)).trans (congrArg _ h1))
  · exact (hcut _).trans ((State.unit?_updUnit_other s1 hlt.ne' (fun x => { x with cnt := t - u.lo }) (fun _ => rfl)).trans h2)

/-- What a branch leaves that cuts a span (R75). -/
theorem bra_cuts {f : FmtB} {s : State} {i : Issue} {u : SUnit} {t k : Nat} {below : Bool} (h : s.AtHead i u) (hu : u.isStrand = false)
    (hlive : s.Live u) (hsole : s.Sole u) (hlo : u.lo < t) (hhi : t < u.lo + u.cnt) (hfresh : ∀ x ∈ s.units, x.id < s.nextId)
    (hp : u.predOf f.pred f.pneg = if below then .lt t else .ge t) (hroom : s.cutSlot u = some k) :
    let go (x : SUnit) := x.goTo i (i.target f)
    let fall (x : SUnit) := x.fallTo i.nextClause
    ∃ (r : State) (ds ds' : List Duty) (fm fm' : BitVec 4), exec (.bra f) s = .next r
      ∧ r.unit? u.id = some { (if below then go else fall) (u.lowPiece t) with duties := ds, fmode := fm }
      ∧ r.unit? s.nextId = some { (if below then fall else go) (u.highPiece t k s.nextId) with duties := ds', fmode := fm' } := by
  intro go fall
  obtain ⟨hlow, hhigh⟩ := State.unit?_cutSpan h.unit_self hfresh t k
  have hne : u.id ≠ s.nextId := (hfresh u (List.mem_of_find?_eq_some h.unit)).ne
  have hof (j : Nat) : j = u.id ∨ j = s.nextId → (s.cutSpan u t k).1.OfLaunch j u.launch := by
    intro hj
    refine State.OfLaunch.updUnit (s := { s with units := s.units ++ [u.highPiece t k s.nextId] }) (fun y hy e => ?_) _ _ (fun _ => rfl) (fun _ => rfl)
    rw [List.mem_append, List.mem_singleton] at hy
    rcases hy with hy | rfl
    · rcases hj with rfl | rfl
      · rw [hsole y hy e]
      · exact absurd e (hfresh y hy).ne
    · rfl
  have hab : (s.cutSpan u t k).1.aborting u.launch = false := hlive.aborting
  have hrun : exec (.bra f) s = _ := h.bra f
  rw [hp, State.condTransfer_cut hu hlo hhi below hroom] at hrun
  cases below
  · obtain ⟨⟨ds, fm, h1⟩, ds', fm', h2⟩ := State.unit?_endClause_pair (f := fall) (g := go) hne hlow hhigh (hof _ (.inl rfl)) (hof _ (.inr rfl)) hab
      (fun _ => rfl) (fun _ => rfl) (fun _ => rfl) (fun _ => rfl) i.unit
    exact ⟨_, ds, ds', fm, fm', hrun, h1, h2⟩
  · obtain ⟨⟨ds', fm', h2⟩, ds, fm, h1⟩ := State.unit?_endClause_pair (f := fall) (g := go) hne.symm hhigh hlow (hof _ (.inr rfl)) (hof _ (.inl rfl)) hab
      (fun _ => rfl) (fun _ => rfl) (fun _ => rfl) (fun _ => rfl) i.unit
    exact ⟨_, ds, ds', fm, fm', hrun, h1, h2⟩

/-- A word whose span is dealt or materialised first. -/
theorem State.AtHead.finish_dealOn {s : State} {i : Issue} {u : SUnit} (h : s.AtHead i u) : State.finish i u (.needG s) = s.dealOn u := by
  unfold State.dealOn
  simp only [State.finish, h.unit_self, Option.getD_some]

/-- No unit has the next number. -/
theorem State.unit?_fresh {s : State} (hfresh : ∀ x ∈ s.units, x.id < s.nextId) {k : Nat} (hk : s.nextId ≤ k) : s.unit? k = none :=
  List.find?_eq_none.mpr fun x hx => by simpa using ((hfresh x hx).trans_le hk).ne

/-- Settles O24: the split and the cut of a branch, and where it finds no room. -/
theorem strandSplit : Obligations.StrandSplit := by
  unfold Obligations.StrandSplit
  refine ⟨fun f s i u g h hu _ hlive _ hp => ⟨fun hroom hfresh => ?_, fun hfull => ?_⟩, fun f s i u t k h hkind hlive hsole hlo hhi hfresh below hp => ?_⟩
  · obtain ⟨r, slot, ds, ds', fm, fm', hrun, hstay, hleave⟩ := bra_splits h hu hlive hp hroom hfresh
    refine ⟨r, _, _, hrun, hstay, List.mem_of_find?_eq_some hleave, State.unit?_fresh hfresh (Nat.le_succ _), rfl, rfl, rfl, rfl, rfl, ?_, rfl, rfl, rfl, rfl,
      rfl, rfl, s.nextId, rfl, rfl⟩
    cases slot with
    | none => exact .inr ⟨rfl, rfl⟩
    | some k => exact .inl ⟨rfl, rfl⟩
  · rw [h.bra, State.condTransfer_splitFull hu hp hfull]
    exact h.finish_trap ..
  · have hspan := SUnit.not_isStrand_of_span hkind
    refine ⟨fun hno => ?_, fun hfree hfew => ?_⟩
    · have hroom : s.cutSlot u = none := by
        unfold State.cutSlot
        rcases hno with hno | ⟨hk, hno⟩
        · rw [hno, ite_self]
        · rw [if_neg (by simpa [hk] using hno)]
      rw [h.bra, hp, State.condTransfer_noCut hspan hlo hhi below hroom, h.finish_dealOn]
    · have hroom : s.cutSlot u = some k := by
        unfold State.cutSlot
        rw [if_pos, hfree]
        rcases hkind with hk | hk <;> simp [hk]
        exact hfew hk
      obtain ⟨r, ds, ds', fm, fm', hrun, hlow, hhigh⟩ := bra_cuts h hspan hlive hsole hlo hhi hfresh hp hroom
      refine ⟨r, _, _, hrun, hlow, List.mem_of_find?_eq_some hhigh, State.unit?_fresh hfresh (by cases below <;> exact Nat.le_refl _), ?_⟩
      have hcnt : u.lo + (t - u.lo) = t ∧ t + (u.lo + u.cnt - t) = u.lo + u.cnt := by omega
      cases below <;> exact ⟨rfl, rfl, rfl, rfl, hcnt.1, rfl, hcnt.2, rfl, rfl, rfl, rfl, rfl, rfl, rfl⟩

end Sys2Proof.Machine
end
section
/-! SUPPORT. Lanes and tables: the bits of a mask of lanes, the items of a strand, a table after a list of writes. -/

namespace Sys2Proof.Machine
set_option Elab.async false

/-- The sum of a set of powers of two has the bits of the set. -/
theorem testBit_foldl_pow (f : Nat → Bool) (n : Nat) :
    let m := (List.range n).foldl (fun acc j => if f j then acc + 2 ^ j else acc) 0
    m < 2 ^ n ∧ ∀ j, m.testBit j = (decide (j < n) && f j) := by
  induction n with
  | zero => exact ⟨Nat.one_pos, fun j => by simp⟩
  | succ n ih =>
    obtain ⟨hlt, hbit⟩ := ih
    dsimp only at hlt hbit ⊢
    rw [List.range_succ, List.foldl_append, List.foldl_cons, List.foldl_nil]
    generalize (List.range n).foldl _ 0 = m at hlt hbit ⊢
    by_cases hf : f n = true
    · rw [if_pos hf, Nat.add_comm]
      refine ⟨by rw [Nat.pow_succ]; omega, fun j => ?_⟩
      rcases Nat.lt_trichotomy j n with hj | rfl | hj
      · rw [Nat.testBit_two_pow_add_gt hj, hbit, decide_eq_true hj, decide_eq_true (by omega)]
      · rw [Nat.testBit_two_pow_add_eq, hbit, decide_eq_false (by omega), decide_eq_true (by omega), hf]
        rfl
      · rw [decide_eq_false (by omega), Bool.false_and]
        exact Nat.testBit_lt_two_pow ((by omega : 2 ^ n + m < 2 ^ (n + 1)).trans_le (Nat.pow_le_pow_right Nat.two_pos hj))
    · rw [if_neg hf]
      refine ⟨by rw [Nat.pow_succ]; omega, fun j => ?_⟩
      rw [hbit]
      by_cases hj : j = n
      · subst hj
        simp [hf]
      · rw [decide_eq_decide.mpr (show j < n ↔ j < n + 1 by omega)]

/-- The lanes of a mask of lanes. -/
theorem getLsbD_laneMask (f : Nat → Bool) {j : Nat} (hj : j < 64) : (laneMask f).getLsbD j = f j := by
  unfold laneMask
  rw [BitVec.getLsbD_ofNat, decide_eq_true hj, (testBit_foldl_pow f 64).2, decide_eq_true hj]
  rfl

theorem mem_lanesOf {m : BitVec 64} {j : Nat} : j ∈ lanesOf m ↔ j < 64 ∧ m.getLsbD j = true := by
  unfold lanesOf
  rw [List.mem_filter, List.mem_range]

/-- The items of a strand are its lanes. -/
theorem SUnit.mem_items_strand {u : SUnit} (h : u.isStrand = true) {k : Nat} :
    k ∈ u.items ↔ ∃ j, j < 64 ∧ u.mask.getLsbD j = true ∧ k = u.lo + j := by
  unfold SUnit.items
  rw [if_pos h, List.mem_map]
  simp only [mem_lanesOf, and_assoc, eq_comm]

theorem SUnit.holdsItem_strand {u : SUnit} (h : u.isStrand = true) (j : Nat) (hj : j < 64) : u.holdsItem (u.lo + j) = u.mask.getLsbD j := by
  unfold SUnit.holdsItem
  rw [if_pos h, decide_eq_true (Nat.le_add_right ..), decide_eq_true (Nat.add_lt_add_left hj _), Nat.add_sub_cancel_left]
  rfl

/-- A table after values are put at a list of keys. -/
theorem Kv.get_foldl_set {α : Type} [DecidableEq α] {dflt : α} (g : Nat → α) (rs : List Nat) {m : Kv α} (h : Kv.wf dflt m = true) (k : Nat) :
    Kv.get dflt (rs.foldl (fun m r => Kv.set dflt m r (g r)) m) k = if k ∈ rs then g k else Kv.get dflt m k := by
  induction rs generalizing m with
  | nil => simp
  | cons r rs ih =>
    rw [List.foldl_cons, ih (Kv.wf_set h _ _), Kv.get_set h]
    by_cases hk : k = r
    · subst hk
      simp
    · simp [hk]

end Sys2Proof.Machine
end
section
/-! SUPPORT. Shapes found again (O26, R102): values affine in their items, and the shape of a predicate. -/

namespace Sys2Proof.Machine
set_option Elab.async false

/-- The greatest power of two, of those up to 2^6, that divides a gap between two items. -/
def gapPower (gap : Nat) : Nat := (List.range 6).foldl (fun a k => if gap % 2 ^ (k + 1) = 0 then k + 1 else a) 0

/-- The strides that take a value over a gap of items to one greater by d: they agree below bit 32 - a. -/
def strides (d : W32) (gap a : Nat) : List W32 :=
  (List.range (2 ^ a)).map (fun k =>
    ((BitVec.ofNat 32 (d.toNat / 2 ^ a) * oddInverse (BitVec.ofNat 32 (gap / 2 ^ a))) &&& BitVec.ofNat 32 (2 ^ (32 - a) - 1))
      + BitVec.ofNat 32 (k * 2 ^ (32 - a)))

/-- How values of two items or more are fitted. -/
theorem affineFit_cons_cons (i j : Nat) (x y : W32) (rest : List (Nat × W32)) :
    affineFit ((i, x) :: (j, y) :: rest) =
      if ((i, x) :: (j, y) :: rest).all (fun e => e.2 == x) then some (.u x)
      else if (y - x).toNat % 2 ^ gapPower (j - i) ≠ 0 then none
      else ((strides (y - x) (j - i) (gapPower (j - i))).find?
          (fun st => ((i, x) :: (j, y) :: rest).all (fun e => e.2 == x + st * BitVec.ofNat 32 (e.1 - i)))).map
        (fun st => VReg.affine (x - st * BitVec.ofNat 32 i) st) := rfl

/-- The gaps within a window. -/
theorem gapPower_facts : ∀ gap, gap < 64 → 0 < gap →
    gapPower gap ≤ 5 ∧ gap % 2 ^ gapPower gap = 0
      ∧ BitVec.ofNat 32 (gap / 2 ^ gapPower gap) * oddInverse (BitVec.ofNat 32 (gap / 2 ^ gapPower gap)) = 1 := by decide

/-- The stride that values have is among those tried. -/
theorem mem_strides (st : W32) {gap : Nat} (hgap : gap < 64) (hpos : 0 < gap) :
    (st * BitVec.ofNat 32 gap).toNat % 2 ^ gapPower gap = 0 ∧ st ∈ strides (st * BitVec.ofNat 32 gap) gap (gapPower gap) := by
  obtain ⟨ha, hdvd, hinv⟩ := gapPower_facts gap hgap hpos
  generalize gapPower gap = a at ha hdvd hinv ⊢
  obtain ⟨o, rfl⟩ := Nat.dvd_of_mod_eq_zero hdvd
  rw [Nat.mul_div_cancel_left _ (Nat.two_pow_pos a)] at hinv
  have hsplit : 2 ^ 32 = 2 ^ a * 2 ^ (32 - a) := by rw [← Nat.pow_add]; congr 1; omega
  have hd : (st * BitVec.ofNat 32 (2 ^ a * o)).toNat = 2 ^ a * (st.toNat * o % 2 ^ (32 - a)) := by
    rw [BitVec.toNat_mul, BitVec.toNat_ofNat, Nat.mul_mod_mod, hsplit, ← Nat.mul_mod_mul_left]
    congr 1
    ring
  have hlow (n : Nat) : n % 2 ^ 32 % 2 ^ (32 - a) = n % 2 ^ (32 - a) := Nat.mod_mod_of_dvd _ (hsplit ▸ Nat.dvd_mul_left ..)
  refine ⟨hd ▸ Nat.mul_mod_right .., List.mem_map.mpr ⟨st.toNat / 2 ^ (32 - a), ?_, BitVec.eq_of_toNat_eq ?_⟩⟩
  · rw [List.mem_range]
    exact Nat.div_lt_of_lt_mul (by rw [Nat.mul_comm, ← hsplit]; exact st.isLt)
  · rw [hd, Nat.mul_div_cancel_left _ (Nat.two_pow_pos a), Nat.mul_div_cancel_left _ (Nat.two_pow_pos a)]
    generalize oddInverse (BitVec.ofNat 32 o) = v at hinv
    have hone : o * v.toNat % 2 ^ (32 - a) = 1 % 2 ^ (32 - a) := by
      have h := congrArg BitVec.toNat hinv
      rw [BitVec.toNat_mul, BitVec.toNat_ofNat, Nat.mod_mul_mod] at h
      rw [← hlow, h]
      rfl
    have hst : (BitVec.ofNat 32 (st.toNat * o % 2 ^ (32 - a)) * v &&& BitVec.ofNat 32 (2 ^ (32 - a) - 1)).toNat = st.toNat % 2 ^ (32 - a) := by
      have hM : 2 ^ (32 - a) - 1 < 2 ^ 32 := (Nat.sub_lt (Nat.two_pow_pos _) Nat.one_pos).trans_le (Nat.pow_le_pow_right Nat.two_pos (by omega))
      rw [BitVec.toNat_and, BitVec.toNat_ofNat (2 ^ (32 - a) - 1), Nat.mod_eq_of_lt hM, Nat.and_two_pow_sub_one_eq_mod, BitVec.toNat_mul, BitVec.toNat_ofNat, hlow,
        Nat.mul_mod, hlow, Nat.mod_mod, ← Nat.mul_mod, Nat.mul_assoc, Nat.mul_mod, hone, ← Nat.mul_mod, Nat.mul_one]
    rw [BitVec.toNat_add, hst, BitVec.toNat_ofNat, Nat.add_mod_mod, Nat.mul_comm, Nat.mod_add_div, Nat.mod_eq_of_lt st.isLt]

/-- The keys of an ascending list are at least the first. -/
theorem head_le_of_pairwise {i : Nat} {x : W32} {es : List (Nat × W32)} (h : (((i, x) :: es).map (·.1)).Pairwise (· < ·)) :
    ∀ e ∈ (i, x) :: es, i ≤ e.1 := by
  intro e he
  rcases List.mem_cons.mp he with rfl | he
  · exact Nat.le_refl _
  · exact ((List.pairwise_cons.mp h).1 e.1 (List.mem_map_of_mem he)).le

/-- A value counted from the first item and one counted from item 0. -/
theorem affine_shift (x st : W32) {i k : Nat} (h : i ≤ k) : x + st * BitVec.ofNat 32 (k - i) = x - st * BitVec.ofNat 32 i + st * BitVec.ofNat 32 k := by
  obtain ⟨n, rfl⟩ := Nat.exists_eq_add_of_le h
  rw [Nat.add_sub_cancel_left, BitVec.ofNat_add, BitVec.mul_add]
  ring

/-- A register in shape U or affine that reads as the values of items; affine is not U. -/
def VReg.Reads (r : VReg) (xs : List (Nat × W32)) : Prop :=
  match r with
  | .u v => ∀ e ∈ xs, e.2 = v
  | .a b st => st ≠ 0 ∧ ∀ e ∈ xs, e.2 = b + st * BitVec.ofNat 32 e.1
  | .g => False

/-- What is found reads as the values (R102). -/
theorem affineFit_reads {xs : List (Nat × W32)} {r : VReg} (hasc : (xs.map (·.1)).Pairwise (· < ·)) (hfit : affineFit xs = some r) : r.Reads xs := by
  match xs with
  | [] => cases hfit
  | [(i, x)] =>
    cases hfit
    exact fun e he => by simpa using congrArg Prod.snd (List.mem_singleton.mp he)
  | (i, x) :: (j, y) :: rest =>
    have hle := head_le_of_pairwise hasc
    rw [affineFit_cons_cons] at hfit
    split at hfit
    · next hall =>
      cases hfit
      exact fun e he => by simpa using List.all_eq_true.mp hall e he
    split at hfit
    · cases hfit
    obtain ⟨st, hst, rfl⟩ := Option.map_eq_some_iff.mp hfit
    have hall := List.find?_some hst
    have hread (e) (he : e ∈ (i, x) :: (j, y) :: rest) : e.2 = x - st * BitVec.ofNat 32 i + st * BitVec.ofNat 32 e.1 := by
      rw [← affine_shift x st (hle e he)]
      simpa using List.all_eq_true.mp hall e he
    unfold VReg.affine
    by_cases h0 : st = 0
    · rw [if_pos h0]
      intro e he
      rw [hread e he, h0]
      simp
    · rw [if_neg h0]
      exact ⟨h0, hread⟩

/-- Values affine in the items of a window are found so (R102). -/
theorem affineFit_isSome {xs : List (Nat × W32)} {b st : W32} (hne : xs ≠ []) (hasc : (xs.map (·.1)).Pairwise (· < ·))
    (hnear : ∀ e ∈ xs, ∀ e' ∈ xs, e'.1 < e.1 + 64) (hval : ∀ e ∈ xs, e.2 = b + st * BitVec.ofNat 32 e.1) : (affineFit xs).isSome = true := by
  match xs with
  | [] => exact absurd rfl hne
  | [(i, x)] => rfl
  | (i, x) :: (j, y) :: rest =>
    have hlt : i < j := (List.pairwise_cons.mp hasc).1 j List.mem_cons_self
    have hgap : j - i < 64 := by
      have := hnear (i, x) List.mem_cons_self (j, y) (List.mem_cons_of_mem _ List.mem_cons_self)
      dsimp only at this
      omega
    have hx : x = b + st * BitVec.ofNat 32 i := hval (i, x) List.mem_cons_self
    have hfrom (k : Nat) (hk : i ≤ k) : x + st * BitVec.ofNat 32 (k - i) = b + st * BitVec.ofNat 32 k := by
      rw [affine_shift x st hk, hx, BitVec.add_sub_cancel]
    have hd : y - x = st * BitVec.ofNat 32 (j - i) := by
      have hy : y = b + st * BitVec.ofNat 32 j := hval (j, y) (List.mem_cons_of_mem _ List.mem_cons_self)
      rw [hy, ← hfrom j hlt.le, BitVec.add_comm, BitVec.add_sub_cancel]
    obtain ⟨hdvd, hmem⟩ := mem_strides st hgap (Nat.sub_pos_of_lt hlt)
    have hle := head_le_of_pairwise hasc
    rw [affineFit_cons_cons, hd]
    split
    · rfl
    rw [if_neg (not_not.mpr hdvd), Option.isSome_map, List.find?_isSome]
    refine ⟨st, hmem, List.all_eq_true.mpr fun e he => ?_⟩
    rw [hfrom e.1 (hle e he), hval e he]
    exact beq_self_eq_true _

/-- The shape of a predicate reads as it does at every item (R97, R102). -/
theorem predShape_holds {lo : Nat} {items : List Nat} {f : Nat → Bool} {k : Nat} (hk : k ∈ items) (hlo : lo ≤ k) (hhi : k < lo + 64) :
    (predShape lo items f).holds k (k - lo) = f k := by
  have hmask : (PReg.g (laneMask (fun j => items.contains (lo + j) && f (lo + j)))).holds k (k - lo) = f k := by
    show (laneMask _).getLsbD (k - lo) = _
    rw [getLsbD_laneMask _ (by omega), Nat.add_sub_cancel' hlo, List.contains_iff_mem.mpr hk, Bool.true_and]
  unfold predShape
  split
  · next h => exact (List.all_eq_true.mp h k hk).symm
  split
  · next h => exact (by simpa using List.all_eq_true.mp h k hk : f k = false).symm
  split
  · split
    · next h => exact (by simpa using List.all_eq_true.mp h k hk : f k = decide _).symm
    split
    · next h => exact (by simpa using List.all_eq_true.mp h k hk : f k = decide _).symm
    · exact hmask
  · exact hmask

end Sys2Proof.Machine
end
section
/-! SUPPORT. JOIN and fusion (O26): where the word leads, when the siblings of a split fuse, and what fusion leaves. -/

namespace Sys2Proof.Machine
set_option Elab.async false

/-! The word (R343). -/

section Word
variable {s : State} {i : Issue} {u : SUnit} (h : s.AtHead i u) (f : FmtB)
include h

theorem State.AtHead.join :
    let c := s.closeRegion u
    exec (.join f) s = .next (State.finish i u (
      if !u.isStrand then .jump ((c.updUnit u.id (fun x => x.fallTo i.nextClause)).rejoin u.noRegion)
      else if u.sstack.isEmpty then .jump ((c.updUnit u.id (fun x => x.fallTo i.nextClause)).recoverUnit u.id f.aux7.toNat)
      else .jump ((c.updUnit u.id (fun x => { x.fallTo i.nextClause with wait := .join i.wordAddr f.aux7.toNat })).afterSide u.noRegion))) := by
  have hrun : execJoin f s = _ := h.runClosing _
  exact hrun

theorem join_span (hu : u.isStrand = false) :
    exec (.join f) s = .next ((((s.closeRegion u).updUnit u.id (fun x => x.fallTo i.nextClause)).rejoin u.noRegion).endClause i.unit) := by
  rw [h.join, hu]
  rfl

theorem join_alone (hu : u.isStrand = true) (hs : u.sstack = []) :
    exec (.join f) s = .next ((((s.closeRegion u).updUnit u.id (fun x => x.fallTo i.nextClause)).recoverUnit u.id f.aux7.toNat).endClause i.unit) := by
  rw [h.join, hu, hs]
  rfl

theorem join_parks (hu : u.isStrand = true) (hs : u.sstack ≠ []) :
    exec (.join f) s = .next ((((s.closeRegion u).updUnit u.id (fun x => { x.fallTo i.nextClause with wait := .join i.wordAddr f.aux7.toNat })).afterSide
      u.noRegion).endClause i.unit) := by
  rw [h.join, hu, if_neg (by decide), if_neg (by simpa using hs)]
  rfl

end Word

/-! When siblings fuse (R101, assumption log 20). -/

section Settle
variable {s : State} {sp n : Nat} {a : W64}

theorem State.settleSplit_waits (h : (∃ x ∈ s.siblings sp, x.parkedAt = none) ∨ (∃ x ∈ s.siblings sp, ∃ y ∈ s.siblings sp, x.parkedAt ≠ y.parkedAt)
      ∨ (1 < (s.siblings sp).length ∧ ∃ x ∈ s.siblings sp, s.owesWhole x = true)) : s.settleSplit sp = s := by
  unfold State.settleSplit
  cases hs : s.siblings sp with
  | nil => rfl
  | cons x xs =>
    rw [hs] at h
    dsimp only
    split
    · rfl
    next b m hx =>
    refine if_neg fun hall => ?_
    have hready (y) (hy : y ∈ x :: xs) : y.parkedAt = some (b, m) ∧ (xs.isEmpty || !s.owesWhole y) = true := by
      have := List.all_eq_true.mp hall y hy
      simp only [Bool.and_eq_true, beq_iff_eq] at this
      exact ⟨this.1.2, this.2⟩
    rcases h with ⟨y, hy, hnone⟩ | ⟨y, hy, z, hz, hne⟩ | ⟨hlen, y, hy, howes⟩
    · rw [(hready y hy).1] at hnone
      cases hnone
    · exact hne ((hready y hy).1.trans (hready z hz).1.symm)
    · have hxs : xs.isEmpty = false := by
        cases xs with
        | nil => simp at hlen
        | cons => rfl
      have := (hready y hy).2
      rw [hxs, howes] at this
      cases this

theorem State.settleSplit_fuses (hne : s.siblings sp ≠ [])
    (h : ∀ x ∈ s.siblings sp, x.kind = .strand ∧ x.parkedAt = some (a, n) ∧ ((s.siblings sp).length = 1 ∨ s.owesWhole x = false)) :
    s.settleSplit sp = s.fuse (s.siblings sp) a n := by
  unfold State.settleSplit
  cases hs : s.siblings sp with
  | nil => exact absurd hs hne
  | cons x xs =>
    rw [hs] at h
    dsimp only
    rw [(h x List.mem_cons_self).2.1]
    refine if_pos (List.all_eq_true.mpr fun y hy => ?_)
    obtain ⟨hkind, hpark, howes⟩ := h y hy
    rw [hkind, hpark]
    rcases howes with hlen | howes
    · rw [List.length_cons, Nat.add_eq_right, List.length_eq_zero_iff] at hlen
      simp [hlen]
    · simp [howes]

end Settle

/-! What fusion leaves (R101). -/

theorem getLsbD_foldl_or (sibs : List SUnit) (m : BitVec 64) (j : Nat) :
    (sibs.foldl (fun m x => m ||| x.mask) m).getLsbD j = (m.getLsbD j || sibs.any (fun x => x.mask.getLsbD j)) := by
  induction sibs generalizing m with
  | nil => simp
  | cons x xs ih => rw [List.foldl_cons, ih, BitVec.getLsbD_or, List.any_cons, Bool.or_assoc]

section Fused
variable {base keep : SUnit} {sibs : List SUnit} {n : Nat} {mixed : List Nat}

theorem getLsbD_fuseUnits_mask (j : Nat) : (fuseUnits base keep sibs n mixed).mask.getLsbD j = true ↔ ∃ x ∈ sibs, x.mask.getLsbD j = true := by
  show (sibs.foldl (fun m (x : SUnit) => m ||| x.mask) (0#64)).getLsbD j = true ↔ _
  rw [getLsbD_foldl_or, BitVec.getLsbD_zero, Bool.false_or, List.any_eq_true]

theorem vreg_fuseUnits (hkeep : keep.Inv) (r : Nat) :
    (fuseUnits base keep sibs n mixed).vreg r = if r ∈ mixed then .g else if r < n then keep.vreg r else .u 0 := by
  show Kv.get (VReg.u 0) (mixed.foldl (fun v r => Kv.set (.u 0) v r .g) (Kv.keep _ keep.v)) r = _
  rw [Kv.get_foldl_set (fun _ => VReg.g) mixed (Kv.wf_keep _ hkeep.v), Kv.get_keep _ hkeep.v]
  simp only [decide_eq_true_eq]
  rfl

theorem xreg_fuseUnits {r : Nat} (hr : r < 4) :
    (fuseUnits base keep sibs n mixed).xreg r = sibs.foldl (fun a y => a.merge (y.xreg r)) XAcc.zero := by
  show Kv.get XAcc.zero ((List.range 4).foldl (fun xs r => Kv.set XAcc.zero xs r (sibs.foldl (fun a (y : SUnit) => a.merge (y.xreg r)) XAcc.zero)) []) r = _
  rw [Kv.get_foldl_set (fun r => sibs.foldl (fun a y => a.merge (y.xreg r)) XAcc.zero) _ Kv.wf_nil, if_pos (List.mem_range.mpr hr)]

theorem SUnit.pipCount_pos {u : SUnit} {k : Nat} : 0 < u.pipCount k ↔ ∃ d ∈ u.duties, d.pip = k := by
  unfold SUnit.pipCount
  rw [List.length_pos_iff_exists_mem]
  simp only [List.mem_filter, beq_iff_eq]

theorem pipCount_fuseUnits (k : Nat) : 0 < (fuseUnits base keep sibs n mixed).pipCount k ↔ ∃ x ∈ sibs, 0 < x.pipCount k := by
  simp only [SUnit.pipCount_pos]
  show (∃ d ∈ (sibs.flatMap (·.duties)).eraseDups, d.pip = k) ↔ _
  simp only [List.mem_eraseDups, List.mem_flatMap]
  exact ⟨fun ⟨d, ⟨x, hx, hd⟩, e⟩ => ⟨x, hx, d, hd, e⟩, fun ⟨x, hx, d, hd, e⟩ => ⟨d, ⟨x, hx, hd⟩, e⟩⟩

/-- Of siblings, one alone holds an item. -/
theorem eq_of_common_lane (hdisj : sibs.Pairwise (fun x y => x.mask &&& y.mask = 0)) {x y : SUnit} (hx : x ∈ sibs) (hy : y ∈ sibs) {j : Nat}
    (hxj : x.mask.getLsbD j = true) (hyj : y.mask.getLsbD j = true) : x = y := by
  by_contra hne
  have : Std.Symm (fun x y : SUnit => x.mask &&& y.mask = 0) := ⟨fun x y h => (BitVec.and_comm _ _).trans h⟩
  have h := congrArg (·.getLsbD j) (hdisj.forall hx hy hne)
  simp [hxj, hyj] at h

/-- Every item keeps its predicates. -/
theorem preg_fuseUnits_holds (hsibs : ∀ x ∈ sibs, x.isStrand = true ∧ x.lo = keep.lo) (hdisj : sibs.Pairwise (fun x y => x.mask &&& y.mask = 0))
    {x : SUnit} (hx : x ∈ sibs) {k r : Nat} (hk : k ∈ x.items) (hr : r < 7) :
    ((fuseUnits base keep sibs n mixed).preg r).holds k (k - (fuseUnits base keep sibs n mixed).lo) = (x.preg r).holds k (k - x.lo) := by
  obtain ⟨hstrand, hlo⟩ := hsibs x hx
  obtain ⟨j, hj, hbit, rfl⟩ := (SUnit.mem_items_strand hstrand).mp hk
  let held (r j : Nat) : Bool := sibs.any (fun y => y.holdsItem (keep.lo + j) && (y.preg r).holds (keep.lo + j) (keep.lo + j - y.lo))
  have hp : (fuseUnits base keep sibs n mixed).preg r = .g (laneMask (held r)) := by
    unfold SUnit.preg
    rw [if_neg (by omega)]
    show Kv.get (PReg.u false) ((List.range 7).foldl (fun p r => Kv.set (.u false) p r (.g (laneMask (held r)))) []) r = _
    rw [Kv.get_foldl_set (fun r => PReg.g (laneMask (held r))) _ Kv.wf_nil, if_pos (List.mem_range.mpr hr)]
  rw [hp, show (fuseUnits base keep sibs n mixed).lo = keep.lo from rfl, ← hlo, Nat.add_sub_cancel_left]
  show (laneMask _).getLsbD j = _
  rw [getLsbD_laneMask _ hj, Bool.eq_iff_iff, List.any_eq_true]
  rw [← hlo]
  constructor
  · rintro ⟨y, hy, hheld⟩
    obtain ⟨hystrand, hylo⟩ := hsibs y hy
    rw [hlo.trans hylo.symm, SUnit.holdsItem_strand hystrand j hj, Nat.add_sub_cancel_left, Bool.and_eq_true_iff] at hheld
    rw [eq_of_common_lane hdisj hx hy hbit hheld.1, ← hheld.2]
  · intro hholds
    exact ⟨x, hx, by rw [SUnit.holdsItem_strand hstrand j hj, hbit, Nat.add_sub_cancel_left, hholds]; rfl⟩

end Fused

theorem State.row_setRow {s : State} (hs : s.Inv) (k : Nat) (ws : List W32) (k' : Nat) : (s.setRow k ws).row k' = if k' = k then ws else s.row k' :=
  Kv.get_set hs.rows k k' ws

theorem getD_map_range {α : Type} (f : Nat → α) (d : α) {n j : Nat} (hj : j < n) : ((List.range n).map f).getD j d = f j := by
  simp [List.getD, hj]

/-- The row of a register that becomes G holds every sibling's values (R101). -/
theorem State.row_writeMixed {s : State} (hs : s.Inv) {g : Group} {w r k : Nat} (hrow : g.rowOf w r = some k) (core : Nat) (sibs : List SUnit) :
    (s.writeMixed g w core sibs [r]).row k = (List.range 64).map (fun j => match sibs.find? (fun x => x.mask.getLsbD j) with
      | some x => s.vAt x r (x.lo + j)
      | none => (s.row k).getD j 0) := by
  unfold State.writeMixed
  dsimp only
  rw [hrow]
  exact (State.row_setRow hs k _ k).trans (if_pos rfl)

/-- Fusion with too few rows traps in the sibling of the lowest slot (R101). -/
theorem State.fuse_gregs {s : State} {sibs : List SUnit} {keep base : SUnit} {g : Group} {a : W64} {n r : Nat} {rs : List Nat}
    (hkeep : lowestSlot sibs = some keep) (hbase : lowestUnit sibs = some base) (hg : s.groupOf keep = some g) (hmap : g.rowMap = [])
    (hfew : g.gregs ≤ rs.length)
    (hmixed : (List.range n).filter (fun r => sibs.any (fun x => x.vreg r != keep.vreg r) || keep.vIsG r) = r :: rs) :
    s.fuse sibs a n = s.takeTrap { keep with wait := .none } causeGregs a (BitVec.ofNat 64 r) keep.pc false := by
  have hneed : (r :: rs).filter (fun x => !([] : List Nat).contains x) = r :: rs := List.filter_eq_self.mpr fun _ _ => rfl
  unfold State.fuse
  rw [hkeep, hbase]
  dsimp only
  rw [hg]
  dsimp only
  rw [if_pos]
  · rw [hmap, hmixed]
    dsimp only [List.filterMap_nil, List.filter_nil]
    rw [hneed]
    rfl
  · rw [hmap, hmixed]
    dsimp only [List.filterMap_nil, List.filter_nil]
    rw [hneed, List.length_nil, List.length_cons]
    omega

/-- Settles O26: the word, when siblings fuse, what fusion leaves, and the shapes that recovery finds. -/
theorem joinAndFusion : Obligations.JoinAndFusion := by
  unfold Obligations.JoinAndFusion
  refine ⟨fun f s i u h => ⟨join_span h f, join_alone h f, join_parks h f⟩, fun s sp n a => ⟨State.settleSplit_waits, State.settleSplit_fuses⟩, ?_, ?_, ?_,
    fun xs r hasc hfit => affineFit_reads hasc hfit, fun xs b st => affineFit_isSome, fun lo items f k _ => predShape_holds⟩
  · intro base keep sibs n mixed _ hkeep hsibs hdisj _
    exact ⟨fun j _ => getLsbD_fuseUnits_mask j, vreg_fuseUnits hkeep, fun x hx k hk r hr => preg_fuseUnits_holds hsibs hdisj hx hk hr,
      rfl, rfl, rfl, rfl, rfl, fun r hr => xreg_fuseUnits hr, pipCount_fuseUnits⟩
  · intro s g w core r k sibs hs hrow j hj
    rw [State.row_writeMixed hs hrow]
    exact getD_map_range _ _ hj
  · intro s sibs keep base g a n r rs hkeep hbase hg hmap hfew hmixed
    exact State.fuse_gregs hkeep hbase hg hmap hfew hmixed

end Sys2Proof.Machine
end
section
/-! SUPPORT. Register instructions by their rows (R294, R297-R307): the one body that they all run, and when their sources make a result U or
affine (R97). -/

namespace Sys2Proof.Machine
set_option Elab.async false

/-! The body of a register instruction. -/

/-- What a register instruction does, by its row. -/
def RegOp.body (o : RegOp) (s : State) (u : SUnit) : Res :=
  if o.late then s.lateResult u (o.guard u) o.wide o.d (o.uniform s u) (o.value s u)
  else s.result u (o.guard u) o.wide o.d (o.uniform s u) (o.affine s u) (o.value s u) .done

/-- The row of SEL under a predicate that is U (R305): the shape of the chosen source, G where a source is. -/
theorem selOp_of_u {f : FmtV} {u : SUnit} {c : Bool} (hp : u.preg f.c.toNat = .u c) (s : State) :
    let a := s.regSource u .t f.ty f.a.toNat
    let b := s.lselSource u .t f.ty f.b.toNat f.lsel.toNat
    let anyG := (!a.isU && a.shape.isG) || (!b.isU && b.shape.isG)
    (selOp f).uniform s u = ((if c then a else b).isU && !anyG) ∧ (selOp f).affine s u = (affineTy f.ty && !anyG)
      ∧ (selOp f).value s u = (if c then a else b).at_ := by
  intro a b anyG
  have hchosen : ∀ ua ga ub gb : Bool, (ua && (ub || !gb)) = (ua && !((!ua && ga) || (!ub && gb))) := by decide
  have haffine : ∀ t ua ga ub gb : Bool, (t && !(!ua && ga) && !(!ub && gb)) = (t && !((!ua && ga) || (!ub && gb))) := by decide
  unfold selOp
  simp only [hp]
  refine ⟨?_, haffine .., funext fun k => ?_⟩
  · cases c
    · exact (hchosen b.isU b.shape.isG a.isU a.shape.isG).trans (by rw [Bool.or_comm]; rfl)
    · exact hchosen ..
  · cases c <;> rfl

/-- SEL runs the body of its row. -/
theorem exec_sel (f : FmtV) (s : State) : exec (.sel f) s = s.runWord (fun s _ u => (selOp f).body s u) := by
  show execSel f s = _
  unfold execSel
  refine congrArg s.runWord (funext fun s => funext fun _ => funext fun u => ?_)
  cases hp : u.preg f.c.toNat with
  | u c =>
    obtain ⟨hu, ha, hv⟩ := selOp_of_u hp s
    unfold RegOp.body
    rw [hu, ha, hv]
    rfl
  | lt t =>
    unfold RegOp.body selOp
    simp only [hp]
    rfl
  | ge t =>
    unfold RegOp.body selOp
    simp only [hp]
    rfl
  | g m =>
    unfold RegOp.body selOp
    simp only [hp]
    rfl

/-- Every register instruction runs the body of its row. -/
theorem exec_regOp {ins : Instr} {o : RegOp} (h : regOp ins = some o) (s : State) : exec ins s = s.runWord (fun s _ u => o.body s u) := by
  unfold regOp at h
  split at h <;> cases h
  any_goals rfl
  exact exec_sel _ s

/-! Words that are affine in their items. -/

/-- A word for each item that a base and a stride give. -/
def AffineIn (f : Nat → W32) : Prop := ∃ b st : W32, ∀ k, f k = b + st * BitVec.ofNat 32 k

/-- One word for all items. -/
def ConstIn (f : Nat → W32) : Prop := ∃ c : W32, ∀ k, f k = c

namespace AffineIn
variable {f g : Nat → W32}

theorem of_const (h : ConstIn f) : AffineIn f := by
  obtain ⟨c, hc⟩ := h
  exact ⟨c, 0, fun k => by rw [hc k]; simp⟩

theorem add (hf : AffineIn f) (hg : AffineIn g) : AffineIn (fun k => f k + g k) := by
  obtain ⟨b, st, hf⟩ := hf
  obtain ⟨b', st', hg⟩ := hg
  exact ⟨b + b', st + st', fun k => by simp only [hf, hg]; ring⟩

theorem neg (hf : AffineIn f) : AffineIn (fun k => -f k) := by
  obtain ⟨b, st, hf⟩ := hf
  exact ⟨-b, -st, fun k => by simp only [hf]; ring⟩

theorem sub (hf : AffineIn f) (hg : AffineIn g) : AffineIn (fun k => f k - g k) := by
  obtain ⟨b, st, hf⟩ := hf
  obtain ⟨b', st', hg⟩ := hg
  exact ⟨b - b', st - st', fun k => by simp only [hf, hg]; ring⟩

theorem mul_const (hf : AffineIn f) (hg : ConstIn g) : AffineIn (fun k => f k * g k) := by
  obtain ⟨b, st, hf⟩ := hf
  obtain ⟨c, hg⟩ := hg
  exact ⟨b * c, st * c, fun k => by simp only [hf, hg]; ring⟩

theorem const_mul (hf : ConstIn f) (hg : AffineIn g) : AffineIn (fun k => f k * g k) := by
  simpa only [BitVec.mul_comm] using hg.mul_const hf

theorem not (hf : AffineIn f) : AffineIn (fun k => ~~~f k) := by
  have h (x : W32) : ~~~x = -x - 1 := by rw [BitVec.neg_eq_not_add]; exact (BitVec.add_sub_cancel _ 1).symm
  simpa only [h] using hf.neg.sub (of_const ⟨1, fun _ => rfl⟩)

end AffineIn

/-! Sources whose values follow their shapes (R97). -/

/-- The word of a source for an item. -/
def Source.word (x : Source) (k : Nat) : W32 := BitVec.ofNat 32 (x.at_ k).toNat

/-- A source whose words are affine where it is not G, and all one where it is neither G nor affine. -/
structure Source.Shaped (x : Source) : Prop where
  affine : x.shape.isG = false → AffineIn x.word
  const : x.shape.isG = false → x.shape.isA = false → ConstIn x.word

theorem Source.Shaped.of_isG {x : Source} (h : x.shape = .g) : x.Shaped :=
  ⟨fun h' => (by rw [h] at h'; cases h'), fun h' => (by rw [h] at h'; cases h')⟩

/-- A source that has one value for all items where it counts as U. -/
def Source.Uniform (x : Source) : Prop := x.isU = true → ∀ k k', x.at_ k = x.at_ k'

theorem constSource_shaped (x : W64) : (constSource x).Shaped := 
  have h : ConstIn (constSource x).word := ⟨BitVec.ofNat 32 x.toNat, fun _ => rfl⟩
  ⟨fun _ => .of_const h, fun _ _ => h⟩

theorem constSource_uniform (x : W64) : (constSource x).Uniform := fun _ _ _ => rfl

/-- The words of a v register by its shape. -/
theorem vAt_shaped (s : State) (u : SUnit) (r : Nat) :
    ((u.vreg r).isG = false → AffineIn (s.vAt u r)) ∧ ((u.vreg r).isG = false → (u.vreg r).isA = false → ConstIn (s.vAt u r)) := by
  unfold AffineIn ConstIn State.vAt
  cases u.vreg r with
  | u x => exact ⟨fun _ => ⟨x, 0, fun k => by simp⟩, fun _ _ => ⟨x, fun _ => rfl⟩⟩
  | a b st => exact ⟨fun _ => ⟨b, st, fun _ => rfl⟩, fun _ h => by cases h⟩
  | g => exact ⟨fun h => absurd h (by decide), fun h => absurd h (by decide)⟩

/-- A register that is U has one value. -/
theorem vAt_of_isU {u : SUnit} {r : Nat} (h : u.vIsU r = true) (s : State) (k k' : Nat) : s.vAt u r k = s.vAt u r k' := by
  unfold SUnit.vIsU at h
  unfold State.vAt
  split at h
  · next hx => rw [hx]
  · cases h

theorem SUnit.vIsU_of_wIsU {u : SUnit} {r : Nat} (h : u.wIsU r = true) : u.vIsU r = true ∧ u.vIsU (r + 1) = true := by
  unfold SUnit.wIsU at h
  unfold SUnit.vIsU
  split at h
  · next hx hy => rw [hx, hy]; exact ⟨rfl, rfl⟩
  · cases h

theorem opdAt_of_isU {u : SUnit} {wide : Bool} {r : Nat} (h : u.opdIsU wide r = true) (s : State) (k k' : Nat) : s.opdAt u wide r k = s.opdAt u wide r k' := by
  unfold State.opdAt State.wAt
  cases wide with
  | false =>
    have hl : u.vIsU r = true := h
    simp only [Bool.false_eq_true, if_false, vAt_of_isU hl s k k']
  | true =>
    have hw : u.wIsU r = true := h
    obtain ⟨hl, hh⟩ := SUnit.vIsU_of_wIsU hw
    simp only [if_true, vAt_of_isU hl s k k', vAt_of_isU hh s k k']

theorem word_setWidth (x : W32) : BitVec.ofNat 32 (x.setWidth 64).toNat = x := by
  apply BitVec.eq_of_toNat_eq
  rw [BitVec.toNat_ofNat, BitVec.toNat_setWidth, Nat.mod_mod_of_dvd _ (by decide)]
  exact Nat.mod_eq_of_lt x.isLt

theorem regSource_uniform (s : State) (u : SUnit) (o : Opd) (ty : Ty) (r : Nat) : (s.regSource u o ty r).Uniform := fun h k k' => opdAt_of_isU h s k k'

theorem lselSource_uniform (s : State) (u : SUnit) (o : Opd) (ty : Ty) (r lsel : Nat) : (s.lselSource u o ty r lsel).Uniform := by
  intro h k k'
  have hread (k) : (s.lselSource u o ty r lsel).at_ k = s.opdAt u (o.wide ty) r k := by
    show s.lselRead u (s.lselSource u o ty r lsel).isU _ lsel k = _
    rw [h, State.lselRead, Bool.or_true, if_pos rfl]
  rw [hread, hread]
  exact opdAt_of_isU h s k k'

theorem regSource_shaped (s : State) (u : SUnit) (o : Opd) (ty : Ty) (r : Nat) : (s.regSource u o ty r).Shaped := by
  unfold State.regSource
  dsimp only
  cases o.wide ty with
  | true => exact .of_isG rfl
  | false =>
    have hword : Source.word { at_ := fun i => s.opdAt u false r i, isU := u.opdIsU false r, shape := u.vreg r } = s.vAt u r :=
      funext fun k => word_setWidth (s.vAt u r k)
    obtain ⟨ha, hc⟩ := vAt_shaped s u r
    exact ⟨fun h => hword ▸ ha h, fun h h' => hword ▸ hc h h'⟩

theorem lselSource_shaped (s : State) (u : SUnit) (o : Opd) (ty : Ty) (r lsel : Nat) : (s.lselSource u o ty r lsel).Shaped := by
  by_cases hg : (o.wide ty || (lsel != 0 && !u.opdIsU (o.wide ty) r)) = true
  · exact .of_isG (if_pos hg)
  · have hsame : s.lselSource u o ty r lsel = s.regSource u o ty r := by
      simp only [Bool.or_eq_true, Bool.and_eq_true, not_or, Bool.not_eq_true, bne_iff_ne, ne_eq, not_and, Bool.not_eq_false'] at hg
      obtain ⟨hw, hl⟩ := hg
      have hread (k) : s.lselRead u (u.opdIsU false r) (fun x j => s.opdAt x false r j) lsel k = s.opdAt u false r k := by
        unfold State.lselRead
        by_cases h0 : lsel = 0
        · simp [h0]
        · have hU := hl h0
          rw [hw] at hU
          simp [hU]
      unfold State.lselSource State.regSource
      dsimp only
      rw [hw] at hl ⊢
      simp only [hread]
      by_cases h0 : lsel = 0
      · simp [h0]
      · simp [hl h0]
    exact hsame ▸ regSource_shaped s u o ty r

theorem Source.Uniform.negated {x : Source} (h : x.Uniform) (on : Bool) (ty : Ty) : (x.negated on ty).Uniform := by
  cases on with
  | false => exact h
  | true => exact fun hU k k' => congrArg (fun v : W64 => BitVec.ofNat 64 (negate ty v.toNat)) (h hU k k')

/-- The types whose registers can be affine hold one 32-bit word. -/
theorem elemsOf_affineTy {ty : Ty} (h : affineTy ty = true) : elemsOf ty = (32, 1) := by
  unfold affineTy at h
  simp only [Bool.or_eq_true, beq_iff_eq] at h
  obtain (rfl | rfl) | rfl := h <;> rfl

theorem mapElems_affineTy {ty : Ty} (h : affineTy ty = true) (op : Nat → Nat → Nat → Nat) (a b c : Nat) :
    mapElems ty op a b c = op (a % 2 ^ 32) (b % 2 ^ 32) (c % 2 ^ 32) % 2 ^ 32 := by
  unfold mapElems
  rw [elemsOf_affineTy h]
  simp [packBits, streamElem]

theorem ofNat_mod_word (n : Nat) : BitVec.ofNat 32 (n % 2 ^ 32) = BitVec.ofNat 32 n := by
  apply BitVec.eq_of_toNat_eq
  rw [BitVec.toNat_ofNat, BitVec.toNat_ofNat, Nat.mod_mod]

theorem ofInt_congr {x y : Int} (h : x % 2 ^ 32 = y % 2 ^ 32) : BitVec.ofInt 32 x = BitVec.ofInt 32 y := by
  apply BitVec.eq_of_toNat_eq
  rw [BitVec.toNat_ofInt, BitVec.toNat_ofInt]
  exact congrArg Int.toNat h

/-- A word read as an integer, of either sign, is the word. -/
theorem ofInt_intOf (sg : Bool) (n : Nat) : BitVec.ofInt 32 (intOf sg 32 n) = BitVec.ofNat 32 n := by
  rw [← BitVec.ofInt_natCast]
  refine ofInt_congr ?_
  unfold intOf
  dsimp only
  split <;> omega

theorem ofNat_settleInt (sg : Bool) (x : Int) : BitVec.ofNat 32 (settleInt false sg 32 x) = BitVec.ofInt 32 x := by
  have h : (settleInt false sg 32 x : Int) = x % 2 ^ 32 := Int.toNat_of_nonneg (Int.emod_nonneg _ (by decide))
  rw [← BitVec.ofInt_natCast, h]
  exact ofInt_congr (Int.emod_emod_of_dvd x (dvd_refl _))

/-- An exact integer operation, without saturation, on words. -/
theorem ofNat_intElems {e : OpEnv} (hty : affineTy e.ty = true) (hsat : e.sat = false) (op : Int → Int → Int → Int) (a b c : Nat) :
    BitVec.ofNat 32 (intElems e op a b c) = BitVec.ofInt 32 (op (intOf (tySigned e.ty) 32 (a % 2 ^ 32)) (intOf (tySigned e.ty) 32 (b % 2 ^ 32))
      (intOf (tySigned e.ty) 32 (c % 2 ^ 32))) := by
  unfold intElems
  rw [elemsOf_affineTy hty, mapElems_affineTy hty, ofNat_mod_word, hsat, ofNat_settleInt]

/-! The operations on the words of their operands, for a type that can be affine (R297, R299, R305, R306). -/

section Words
variable {e : OpEnv} (hty : affineTy e.ty = true)
include hty

theorem word_opAdd (hsat : e.sat = false) (a b c : Nat) : BitVec.ofNat 32 (opAdd e a b c) = BitVec.ofNat 32 a + BitVec.ofNat 32 b := by
  unfold opAdd
  rw [ofNat_intElems hty hsat, BitVec.ofInt_add, ofInt_intOf, ofInt_intOf, ofNat_mod_word, ofNat_mod_word]

theorem word_opNeg (hsat : e.sat = false) (a b c : Nat) : BitVec.ofNat 32 (opNeg e a b c) = -BitVec.ofNat 32 a := by
  unfold opNeg
  rw [ofNat_intElems hty hsat, BitVec.ofInt_neg, ofInt_intOf, ofNat_mod_word]

theorem word_opSub (hsat : e.sat = false) (a b c : Nat) : BitVec.ofNat 32 (opSub e a b c) = BitVec.ofNat 32 a - BitVec.ofNat 32 b := by
  unfold opSub
  rw [ofNat_intElems hty hsat, Int.sub_eq_add_neg, BitVec.ofInt_add, BitVec.ofInt_neg, ofInt_intOf, ofInt_intOf, ofNat_mod_word, ofNat_mod_word, BitVec.sub_eq_add_neg]

theorem word_opMul (hsat : e.sat = false) (a b c : Nat) : BitVec.ofNat 32 (opMul e a b c) = BitVec.ofNat 32 a * BitVec.ofNat 32 b := by
  unfold opMul
  rw [ofNat_intElems hty hsat, BitVec.ofInt_mul, ofInt_intOf, ofInt_intOf, ofNat_mod_word, ofNat_mod_word]

theorem word_opMad (hsat : e.sat = false) (a b c : Nat) :
    BitVec.ofNat 32 (opMad e a b c) = BitVec.ofNat 32 a * BitVec.ofNat 32 b + BitVec.ofNat 32 c := by
  unfold opMad
  rw [ofNat_intElems hty hsat, BitVec.ofInt_add, BitVec.ofInt_mul, ofInt_intOf, ofInt_intOf, ofInt_intOf, ofNat_mod_word, ofNat_mod_word, ofNat_mod_word]

theorem width_affineTy : e.w = 32 := congrArg Prod.fst (elemsOf_affineTy hty)

theorem word_low (x : Nat) : BitVec.ofNat 32 (e.low x) = BitVec.ofNat 32 x := by
  unfold OpEnv.low
  rw [width_affineTy hty, ofNat_mod_word]

theorem word_opMov (a b c : Nat) : BitVec.ofNat 32 (opMov e a b c) = BitVec.ofNat 32 b := word_low hty b

theorem word_opLeaImm (a b c : Nat) : BitVec.ofNat 32 (opLeaImm e a b c) = BitVec.ofNat 32 a + BitVec.ofNat 32 b :=
  (word_low hty _).trans (BitVec.ofNat_add a b)

theorem word_opLea (a b c : Nat) :
    BitVec.ofNat 32 (opLea e a b c) = BitVec.ofNat 32 a + BitVec.ofNat 32 b * BitVec.ofNat 32 (2 ^ (e.aux % 8)) := by
  unfold opLea
  rw [word_low hty, BitVec.ofNat_add, Nat.shiftLeft_eq, BitVec.ofNat_mul, ofNat_mod_word]

theorem word_opNot (a b c : Nat) : BitVec.ofNat 32 (opNot e a b c) = ~~~BitVec.ofNat 32 a := by
  unfold opNot OpEnv.low
  rw [width_affineTy hty]
  apply BitVec.eq_of_toNat_eq
  rw [BitVec.toNat_ofNat, BitVec.toNat_not, BitVec.toNat_ofNat]
  omega

/-- A shift by an amount that all items share is a product. -/
theorem word_opShl (a b c : Nat) :
    BitVec.ofNat 32 (opShl e a b c) = BitVec.ofNat 32 a * (if 32 ≤ b % 2 ^ 32 then 0 else BitVec.ofNat 32 (2 ^ (b % 2 ^ 32))) := by
  unfold opShl shiftAmount
  rw [width_affineTy hty]
  split
  · simp
  · rw [word_low hty, Nat.shiftLeft_eq, BitVec.ofNat_mul, word_low hty]

end Words

theorem isFloat_affineTy {ty : Ty} (h : affineTy ty = true) : isFloat ty = false := by
  unfold affineTy at h
  simp only [Bool.or_eq_true, beq_iff_eq] at h
  obtain (rfl | rfl) | rfl := h <;> rfl

/-- The low word of a number. -/
theorem ofNat_toNat_ofNat (n : Nat) : BitVec.ofNat 32 (BitVec.ofNat 64 n).toNat = BitVec.ofNat 32 n := by
  apply BitVec.eq_of_toNat_eq
  rw [BitVec.toNat_ofNat, BitVec.toNat_ofNat, BitVec.toNat_ofNat, Nat.mod_mod_of_dvd _ (by decide)]

theorem Source.Shaped.negated {x : Source} (h : x.Shaped) (on : Bool) {ty : Ty} (hty : affineTy ty = true) : (x.negated on ty).Shaped := by
  cases on with
  | false => exact h
  | true =>
    have hword : (x.negated true ty).word = fun k => -x.word k := by
      funext k
      show BitVec.ofNat 32 (BitVec.ofNat 64 (negate ty (x.at_ k).toNat)).toNat = _
      rw [ofNat_toNat_ofNat, negate, mapElems_affineTy hty, elemsOf_affineTy hty, isFloat_affineTy hty]
      apply BitVec.eq_of_toNat_eq
      simp only [Source.word, BitVec.toNat_ofNat, BitVec.toNat_neg, Bool.false_eq_true, if_false]
      omega
    exact ⟨fun hg => hword ▸ (h.affine hg).neg, fun hg ha => hword ▸ (h.const hg ha).imp' (fun c => -c) (fun c hc k => congrArg _ (hc k))⟩

/-! The rule of each operation for affine results (R97). -/

/-- An operation whose results on sources that its rule allows are affine. -/
def Aff.Keeps (aff : Aff) (op : OpEnv → Nat → Nat → Nat → Nat) : Prop :=
  ∀ (e : OpEnv) (a b c : Source), a.Shaped → b.Shaped → c.Shaped → aff.allows e.ty e.sat a b c = true →
    AffineIn (fun k => BitVec.ofNat 32 (op e (a.at_ k).toNat (b.at_ k).toNat (c.at_ k).toNat))

/-- What a rule that allows an affine result asks of the type and of the sources. -/
theorem Aff.allows_shapes {aff : Aff} {ty : Ty} {sat : Bool} {a b c : Source} (h : aff.allows ty sat a b c = true) :
    affineTy ty = true ∧ a.shape.isG = false ∧ b.shape.isG = false ∧ c.shape.isG = false := by
  unfold Aff.allows at h
  simp only [Bool.and_eq_true, Bool.not_eq_true'] at h
  obtain ⟨⟨⟨⟨ht, ha⟩, hb⟩, hc⟩, -⟩ := h
  exact ⟨ht, ha, hb, hc⟩

theorem Aff.allows_sat {aff : Aff} {ty : Ty} {sat : Bool} {a b c : Source} (haff : aff = .lin true ∨ aff = .mul ∨ aff = .mad)
    (h : aff.allows ty sat a b c = true) : sat = false := by
  unfold Aff.allows at h
  obtain rfl | rfl | rfl := haff <;> simp at h <;> simp [h]

/-- A product has a factor that is not affine. -/
theorem Aff.allows_factor {aff : Aff} {ty : Ty} {sat : Bool} {a b c : Source} (haff : aff = .mul ∨ aff = .mad)
    (h : aff.allows ty sat a b c = true) : a.shape.isA = false ∨ b.shape.isA = false := by
  unfold Aff.allows at h
  cases ha : a.shape.isA
  · exact .inl rfl
  · obtain rfl | rfl := haff <;> simp [ha] at h <;> exact .inr h.2.2

theorem Aff.allows_amount {ty : Ty} {sat : Bool} {a b c : Source} (h : Aff.shl.allows ty sat a b c = true) : b.shape.isA = false := by
  unfold Aff.allows at h
  simp only [Bool.and_eq_true, Bool.not_eq_true'] at h
  exact h.2

/-- The product of the words of two sources, one of them not affine. -/
theorem Source.Shaped.mul {a b : Source} (ha : a.Shaped) (hb : b.Shaped) (ga : a.shape.isG = false) (gb : b.shape.isG = false)
    (h : a.shape.isA = false ∨ b.shape.isA = false) : AffineIn (fun k => a.word k * b.word k) := by
  obtain h | h := h
  · exact .const_mul (ha.const ga h) (hb.affine gb)
  · exact (ha.affine ga).mul_const (hb.const gb h)

theorem keeps_never (op : OpEnv → Nat → Nat → Nat → Nat) : Aff.never.Keeps op := by
  intro e a b c _ _ _ h
  unfold Aff.allows at h
  rw [Bool.and_false] at h
  cases h

theorem keeps_add : (Aff.lin true).Keeps opAdd := by
  intro e a b c ha hb _ h
  obtain ⟨hty, ga, gb, -⟩ := Aff.allows_shapes h
  simp only [word_opAdd hty (Aff.allows_sat (.inl rfl) h)]
  exact (ha.affine ga).add (hb.affine gb)

theorem keeps_sub : (Aff.lin true).Keeps opSub := by
  intro e a b c ha hb _ h
  obtain ⟨hty, ga, gb, -⟩ := Aff.allows_shapes h
  simp only [word_opSub hty (Aff.allows_sat (.inl rfl) h)]
  exact (ha.affine ga).sub (hb.affine gb)

theorem keeps_neg : (Aff.lin true).Keeps opNeg := by
  intro e a b c ha _ _ h
  obtain ⟨hty, ga, -, -⟩ := Aff.allows_shapes h
  simp only [word_opNeg hty (Aff.allows_sat (.inl rfl) h)]
  exact (ha.affine ga).neg

theorem keeps_mul : Aff.mul.Keeps opMul := by
  intro e a b c ha hb _ h
  obtain ⟨hty, ga, gb, -⟩ := Aff.allows_shapes h
  simp only [word_opMul hty (Aff.allows_sat (.inr (.inl rfl)) h)]
  exact ha.mul hb ga gb (Aff.allows_factor (.inl rfl) h)

theorem keeps_mad : Aff.mad.Keeps opMad := by
  intro e a b c ha hb hc h
  obtain ⟨hty, ga, gb, gc⟩ := Aff.allows_shapes h
  simp only [word_opMad hty (Aff.allows_sat (.inr (.inr rfl)) h)]
  exact (ha.mul hb ga gb (Aff.allows_factor (.inr rfl) h)).add (hc.affine gc)

theorem keeps_not : (Aff.lin false).Keeps opNot := by
  intro e a b c ha _ _ h
  obtain ⟨hty, ga, -, -⟩ := Aff.allows_shapes h
  simp only [word_opNot hty]
  exact (ha.affine ga).not

theorem keeps_mov : (Aff.lin false).Keeps opMov := by
  intro e a b c _ hb _ h
  obtain ⟨hty, -, gb, -⟩ := Aff.allows_shapes h
  simp only [word_opMov hty]
  exact hb.affine gb

theorem keeps_lea : (Aff.lin false).Keeps opLea := by
  intro e a b c ha hb _ h
  obtain ⟨hty, ga, gb, -⟩ := Aff.allows_shapes h
  simp only [word_opLea hty]
  exact (ha.affine ga).add ((hb.affine gb).mul_const ⟨_, fun _ => rfl⟩)

theorem keeps_leaImm : (Aff.lin false).Keeps opLeaImm := by
  intro e a b c ha hb _ h
  obtain ⟨hty, ga, gb, -⟩ := Aff.allows_shapes h
  simp only [word_opLeaImm hty]
  exact (ha.affine ga).add (hb.affine gb)

theorem keeps_shl : Aff.shl.Keeps opShl := by
  intro e a b c ha hb _ h
  obtain ⟨hty, ga, gb, -⟩ := Aff.allows_shapes h
  obtain ⟨n, hn⟩ := hb.const gb (Aff.allows_amount h)
  have hamount (k : Nat) : (b.at_ k).toNat % 2 ^ 32 = n.toNat := by rw [← hn k, Source.word, BitVec.toNat_ofNat]
  simp only [word_opShl hty, hamount]
  exact (ha.affine ga).mul_const ⟨_, fun _ => rfl⟩

/-! What the rows say of their results (R97). -/

/-- A row whose values follow its shapes: one value where it is uniform, words that are affine where it is affine. -/
structure RegOp.Shaped (o : RegOp) : Prop where
  uniform : ∀ s u, o.uniform s u = true → ∀ k k', o.value s u k = o.value s u k'
  affine : ∀ s u, o.affine s u = true → AffineIn (fun k => (o.value s u k).extractLsb' 0 32)

/-- A row whose results are never affine. -/
theorem RegOp.Shaped.of_never {o : RegOp} (h : ∀ s u, o.uniform s u = true → ∀ k k', o.value s u k = o.value s u k') (hn : ∀ s u, o.affine s u = false) :
    o.Shaped :=
  ⟨h, fun s u ha => absurd ha (by rw [hn s u]; decide)⟩

theorem extractLsb'_ofNat (n : Nat) : (BitVec.ofNat 64 n).extractLsb' 0 32 = BitVec.ofNat 32 n := by
  rw [← ofNat_toNat_ofNat n]
  apply BitVec.eq_of_toNat_eq
  simp

theorem vSource_uniform {x : Source} (h : x.Uniform) (o : Opd) : (vSource o x).Uniform := by
  unfold vSource
  split
  · exact constSource_uniform 0
  · exact h

theorem vSource_shaped {x : Source} (h : x.Shaped) (o : Opd) : (vSource o x).Shaped := by
  unfold vSource
  split
  · exact constSource_shaped 0
  · exact h

theorem vOp_shaped {aff : Aff} {op : OpEnv → Nat → Nat → Nat → Nat} (h : aff.Keeps op) (f : FmtV) (od oa ob oc : Opd) (late : Bool) :
    (vOp f od oa ob oc aff late op).Shaped where
  uniform s u hu k k' := by
    obtain ⟨hab, hc⟩ := Bool.and_eq_true_iff.mp hu
    obtain ⟨ha, hb⟩ := Bool.and_eq_true_iff.mp hab
    unfold vOp
    dsimp only
    rw [vSource_uniform ((regSource_uniform s u oa f.ty f.a.toNat).negated f.nega f.ty) oa ha k k',
      vSource_uniform ((lselSource_uniform s u ob f.ty f.b.toNat f.lsel.toNat).negated f.negb f.ty) ob hb k k',
      vSource_uniform (regSource_uniform s u oc f.ty f.c.toNat) oc hc k k']
  affine s u ha := by
    have hty := (Aff.allows_shapes ha).1
    have := h { ty := f.ty, sat := u.satOn f.sat, rm := Rm.ofMode f.mode u.fmode, aux := f.aux.toNat } _ _ _
      (vSource_shaped ((regSource_shaped s u oa f.ty f.a.toNat).negated f.nega hty) oa)
      (vSource_shaped ((lselSource_shaped s u ob f.ty f.b.toNat f.lsel.toNat).negated f.negb hty) ob)
      (vSource_shaped (regSource_shaped s u oc f.ty f.c.toNat) oc) ha
    unfold vOp
    simpa only [extractLsb'_ofNat] using this

/-- The third source of a format-I instruction. -/
theorem iSource_third (s : State) (u : SUnit) (od : Opd) (ty : Ty) (r : Nat) (useD : Bool) :
    (if useD then s.regSource u od ty r else constSource 0).Uniform ∧ (if useD then s.regSource u od ty r else constSource 0).Shaped := by
  cases useD
  · exact ⟨constSource_uniform 0, constSource_shaped 0⟩
  · exact ⟨regSource_uniform s u od ty r, regSource_shaped s u od ty r⟩

theorem iOp_shaped {aff : Aff} {op : OpEnv → Nat → Nat → Nat → Nat} (h : aff.Keeps op) (f : FmtI) (od oa : Opd) (useD : Bool) (imm : W64) :
    (iOp f od oa aff useD imm op).Shaped where
  uniform s u hu k k' := by
    obtain ⟨ha, hc⟩ := Bool.and_eq_true_iff.mp hu
    unfold iOp
    dsimp only
    rw [vSource_uniform (regSource_uniform s u oa f.ty f.a.toNat) oa ha k k', (iSource_third s u od f.ty f.d.toNat useD).1 hc k k']
  affine s u ha := by
    have := h { ty := f.ty, sat := u.satOn false, rm := Rm.ofFmode u.fmode, aux := 0 } _ _ _
      (vSource_shaped (regSource_shaped s u oa f.ty f.a.toNat) oa) (constSource_shaped imm) (iSource_third s u od f.ty f.d.toNat useD).2 ha
    unfold iOp
    simp only [extractLsb'_ofNat]
    exact this

/-- A source that is U, or else not G, is affine. -/
theorem Source.Shaped.affine_of_isU {x : Source} (h : x.Shaped) (hu : x.Uniform) (hg : (!x.isU && x.shape.isG) = false) :
    AffineIn (fun k => (x.at_ k).extractLsb' 0 32) := by
  have hword : (fun k => (x.at_ k).extractLsb' 0 32) = x.word :=
    funext fun k => by rw [Source.word, ← extractLsb'_ofNat, BitVec.ofNat_toNat, BitVec.setWidth_eq]
  rw [hword]
  cases hU : x.isU with
  | true => exact .of_const ⟨x.word 0, fun k => congrArg (fun v : W64 => BitVec.ofNat 32 v.toNat) (hu hU k 0)⟩
  | false =>
    rw [hU] at hg
    exact h.affine hg

theorem selOp_shaped (f : FmtV) : (selOp f).Shaped where
  uniform s u hu k k' := by
    cases hp : u.preg f.c.toNat with
    | u c =>
      obtain ⟨h, -, hv⟩ := selOp_of_u hp s
      rw [h] at hu
      rw [hv]
      cases c
      · exact lselSource_uniform s u .t f.ty f.b.toNat f.lsel.toNat (Bool.and_eq_true_iff.mp hu).1 k k'
      · exact regSource_uniform s u .t f.ty f.a.toNat (Bool.and_eq_true_iff.mp hu).1 k k'
    | lt t => simp [selOp, hp] at hu
    | ge t => simp [selOp, hp] at hu
    | g m => simp [selOp, hp] at hu
  affine s u ha := by
    cases hp : u.preg f.c.toNat with
    | u c =>
      obtain ⟨-, h, hv⟩ := selOp_of_u hp s
      rw [h] at ha
      rw [hv]
      simp only [Bool.and_eq_true, Bool.not_eq_true', Bool.or_eq_false_iff] at ha
      obtain ⟨-, ga, gb⟩ := ha
      cases c
      · exact (lselSource_shaped s u .t f.ty f.b.toNat f.lsel.toNat).affine_of_isU (lselSource_uniform s u .t f.ty f.b.toNat f.lsel.toNat) gb
      · exact (regSource_shaped s u .t f.ty f.a.toNat).affine_of_isU (regSource_uniform s u .t f.ty f.a.toNat) ga
    | lt t => simp [selOp, hp] at ha
    | ge t => simp [selOp, hp] at ha
    | g m => simp [selOp, hp] at ha

/-- Every register instruction has a row whose values follow its shapes. -/
theorem regOp_shaped {ins : Instr} {o : RegOp} (h : regOp ins = some o) : o.Shaped := by
  unfold regOp at h
  split at h <;> cases h
  any_goals exact vOp_shaped (keeps_never _) ..
  any_goals exact iOp_shaped (keeps_never _) ..
  · exact vOp_shaped keeps_add ..
  · exact iOp_shaped keeps_add ..
  · exact vOp_shaped keeps_sub ..
  · exact iOp_shaped keeps_sub ..
  · exact vOp_shaped keeps_mul ..
  · exact iOp_shaped keeps_mul ..
  · exact vOp_shaped keeps_mad ..
  · exact vOp_shaped keeps_neg ..
  · exact vOp_shaped keeps_not ..
  · exact vOp_shaped keeps_shl ..
  · exact iOp_shaped keeps_shl ..
  · exact selOp_shaped _
  · exact vOp_shaped keeps_mov ..
  · exact iOp_shaped keeps_mov ..
  · exact vOp_shaped keeps_lea ..
  · exact iOp_shaped keeps_leaImm ..
  · refine .of_never (fun s u hu k k' => ?_) fun _ _ => rfl
    dsimp only at hu ⊢
    rw [regSource_uniform s u _ _ _ hu k k']
  · refine .of_never (fun s u hu k k' => ?_) fun _ _ => rfl
    dsimp only at hu ⊢
    exact congrArg (fun l => BitVec.ofNat 64 (packBits _ l))
      (List.map_congr_left fun r hr => by rw [vAt_of_isU (List.all_eq_true.mp hu r hr) s k k'])
  · refine .of_never (fun s u hu k k' => ?_) fun _ _ => rfl
    dsimp only at hu ⊢
    rw [vAt_of_isU hu s k k']

end Sys2Proof.Machine
end
section
/-! SUPPORT. How a result of a register or lane instruction is written (R97, R91): one value kept once, or lanes of mapped rows; the lane instructions
by their rows (R329-R336, R324, R326). -/

namespace Sys2Proof.Machine
set_option Elab.async false

/-! Values for a destination. -/

/-- One value for a destination put into a unit's registers. -/
def SUnit.putValue (u : SUnit) (w : Nat × Rv) : SUnit :=
  match w.2 with
  | .u x => u.setV w.1 (.u x)
  | .a b st => u.setV w.1 (VReg.affine b st)
  | .g _ => u

/-- The values of a result at the lanes of a window from lo. -/
def Rv.lanes (v : Rv) (lo : Nat) : List W32 :=
  match v with
  | .u x => List.replicate 64 x
  | .a b st => (List.range 64).map (fun j => b + st * BitVec.ofNat 32 (lo + j))
  | .g xs => xs

/-- Whether a result is kept once. -/
def Rv.once (v : Rv) : Bool :=
  match v with
  | .g _ => false
  | _ => true

/-- The destinations of an instruction with what is written to them. -/
def RegOp.parts (o : RegOp) (lo hi : Rv) : List (Nat × Rv) := if o.wide then [(o.d, lo), (o.d + 1, hi)] else [(o.d, lo)]

theorem RegOp.parts_fst (o : RegOp) (lo hi : Rv) : (o.parts lo hi).map (·.1) = o.dests := by
  unfold RegOp.parts RegOp.dests
  cases o.wide <;> rfl

/-- The ways a result can be written (R97, R91, R215). -/
theorem State.writeV_eq (s : State) (u : SUnit) (g : Guard) (ws : List (Nat × Rv)) (k : State → Res) :
    s.writeV u g ws k = if !u.anyActive g then k s
      else match u.regionHit (ws.map (·.1)) [] with
        | some t => .trap s causeRegionwrite t
        | none =>
          if g.isTrue && ws.all (fun w => w.2.once) then k (s.putUnit (ws.foldl SUnit.putValue u))
          else if !u.isStrand then .needG s
          else match s.ensureRows u (ws.map (·.1)) with
            | .error r => .trap s causeGregs (BitVec.ofNat 64 r.toNat)
            | .ok (s1, u1) => k (ws.foldl (fun t w => t.writeLanes u1 w.1 g.mask (w.2.lanes u.lo)) s1) := rfl

/-- A write under a predicate that is U true, of values that are kept once. -/
theorem State.writeV_once {s : State} {u : SUnit} {g : Guard} {ws : List (Nat × Rv)} (hact : u.anyActive g = true)
    (hhit : u.regionHit (ws.map (·.1)) [] = none) (ht : g.isTrue = true) (hws : ws.all (fun w => w.2.once) = true) (k : State → Res) :
    s.writeV u g ws k = k (s.putUnit (ws.foldl SUnit.putValue u)) := by
  rw [State.writeV_eq, hact, hhit, ht, hws]
  rfl

/-- A write of one value for each lane (R91). -/
theorem State.writeV_rows {s s1 : State} {u u1 : SUnit} {g : Guard} {ws : List (Nat × Rv)} (hact : u.anyActive g = true)
    (hhit : u.regionHit (ws.map (·.1)) [] = none) (hmany : g.isTrue = true → ws.all (fun w => w.2.once) = false) (hu : u.isStrand = true)
    (hrows : s.ensureRows u (ws.map (·.1)) = .ok (s1, u1)) (k : State → Res) :
    s.writeV u g ws k = k (ws.foldl (fun t w => t.writeLanes u1 w.1 g.mask (w.2.lanes u.lo)) s1) := by
  have hplain : (g.isTrue && ws.all (fun w => w.2.once)) = false := by
    cases ht : g.isTrue
    · rfl
    · exact hmany ht
  rw [State.writeV_eq, hact, hhit, hplain, hu, hrows]
  rfl

/-- Writes of lanes that agree at the lanes written. -/
theorem State.writeLanes_congr (s : State) (u : SUnit) (r : Nat) {mask : BitVec 64} {xs ys : List W32}
    (h : ∀ j, j < 64 → mask.getLsbD j = true → xs.getD j 0 = ys.getD j 0) : s.writeLanes u r mask xs = s.writeLanes u r mask ys := by
  have hrow (old : List W32) : (List.range 64).map (fun j => if mask.getLsbD j then xs.getD j 0 else old.getD j 0)
      = (List.range 64).map (fun j => if mask.getLsbD j then ys.getD j 0 else old.getD j 0) := by
    refine List.map_congr_left fun j hj => ?_
    split
    · next hm => exact h j (List.mem_range.mp hj) hm
    · rfl
  unfold State.writeLanes
  simp only [hrow]

/-- Mapping rows changes a strand in its registers alone. -/
theorem State.ensureRows_unit : ∀ (rs : List Nat) {s t : State} {u v : SUnit}, s.ensureRows u rs = .ok (t, v) → ∃ tbl, v = { u with v := tbl } := by
  intro rs
  induction rs with
  | nil =>
    intro s t u v h
    cases h
    exact ⟨u.v, rfl⟩
  | cons r rs ih =>
    intro s t u v h
    unfold State.ensureRows at h
    split at h
    · cases h
    split at h
    · exact ih h
    dsimp only at h
    split at h
    · obtain ⟨tbl, rfl⟩ := ih h
      exact ⟨tbl, rfl⟩
    split at h
    · cases h
    split at h
    · cases h
    · obtain ⟨tbl, rfl⟩ := ih h
      exact ⟨tbl, rfl⟩

/-- What is written gives the value of a row at each active lane. -/
def RegOp.Gives (o : RegOp) (s : State) (u : SUnit) (lo hi : Rv) : Prop :=
  ∀ j, j < 64 → (o.guard u).mask.getLsbD j = true →
    (lo.lanes u.lo).getD j 0 = (o.value s u (u.lo + j)).extractLsb' 0 32
    ∧ (o.wide = true → (hi.lanes u.lo).getD j 0 = (o.value s u (u.lo + j)).extractLsb' 32 32)

/-- Lanes that give the value of a row are put into the rows of the destinations. -/
theorem RegOp.Gives.writeV {o : RegOp} {s s1 : State} {u u1 : SUnit} {lo hi : Rv} (h : o.Gives s u lo hi) (hmask : (o.guard u).mask ≠ 0)
    (hhit : u.regionHit o.dests [] = none) (hmany : (o.guard u).isTrue = true → lo.once = false) (hu : u.isStrand = true)
    (hrows : s.ensureRows u o.dests = .ok (s1, u1)) (k : State → Res) :
    s.writeV u (o.guard u) (o.parts lo hi) k = k (s1.putLanes u1 (o.guard u).mask o.d o.wide (o.value s u)) := by
  have hact : u.anyActive (o.guard u) = true := by simpa [SUnit.anyActive, hu] using hmask
  have hlo : u1.lo = u.lo := by
    obtain ⟨tbl, rfl⟩ := State.ensureRows_unit _ hrows
    rfl
  rw [State.writeV_rows (s1 := s1) (u1 := u1) hact (by rw [o.parts_fst]; exact hhit)
    (fun ht => by unfold RegOp.parts; cases o.wide <;> simp [hmany ht]) hu (by rw [o.parts_fst]; exact hrows)]
  have hlow (t : State) : t.writeLanes u1 o.d (o.guard u).mask (lo.lanes u.lo)
      = t.writeLanes u1 o.d (o.guard u).mask ((List.range 64).map (fun j => (o.value s u (u1.lo + j)).extractLsb' 0 32)) :=
    t.writeLanes_congr u1 o.d fun j hj hm => by rw [getD_map_range _ _ hj, hlo]; exact (h j hj hm).1
  unfold State.putLanes RegOp.parts
  cases hw : o.wide with
  | false => exact congrArg k (hlow s1)
  | true =>
    refine congrArg k ((congrArg (fun t : State => t.writeLanes u1 (o.d + 1) (o.guard u).mask (hi.lanes u.lo)) (hlow s1)).trans ?_)
    exact State.writeLanes_congr _ u1 (o.d + 1) fun j hj hm => by rw [getD_map_range _ _ hj, hlo]; exact (h j hj hm).2 hw

/-! The three ways of a register instruction's result (R97). -/

section Body
variable {o : RegOp} {s : State} {u : SUnit} (hlate : o.late = false) (hact : u.anyActive (o.guard u) = true)
include hlate hact

theorem RegOp.body_uniform (hu : o.uniform s u = true) :
    o.body s u = s.writeV u (o.guard u) (o.parts (.u ((o.value s u u.lo).extractLsb' 0 32)) (.u ((o.value s u u.lo).extractLsb' 32 32))) .done := by
  unfold RegOp.body State.result
  rw [hlate, hact, hu]
  rfl

theorem RegOp.body_affine (hu : o.uniform s u = false) (ha : o.affine s u = true) (ht : (o.guard u).isTrue = true) (hw : o.wide = false) :
    o.body s u = s.writeV u (o.guard u)
      [(o.d, .a ((o.value s u 0).extractLsb' 0 32) ((o.value s u 1).extractLsb' 0 32 - (o.value s u 0).extractLsb' 0 32))] .done := by
  unfold RegOp.body State.result
  rw [hlate, hact, hu, ha, ht, hw]
  rfl

theorem RegOp.body_lanes (hu : o.uniform s u = false) (ha : ¬((o.guard u).isTrue = true ∧ o.affine s u = true ∧ o.wide = false)) (hs : u.isStrand = true) :
    o.body s u = s.writeV u (o.guard u) (o.parts
      (.g ((List.range 64).map (fun j => if (o.guard u).mask.getLsbD j then (o.value s u (u.lo + j)).extractLsb' 0 32 else 0)))
      (.g ((List.range 64).map (fun j => if (o.guard u).mask.getLsbD j then (o.value s u (u.lo + j)).extractLsb' 32 32 else 0)))) .done := by
  have hnot : (o.affine s u && (o.guard u).isTrue && !o.wide) = false := by
    rw [Bool.eq_false_iff]
    intro h
    simp only [Bool.and_eq_true, Bool.not_eq_true'] at h
    exact ha ⟨h.1.2, h.1.1, h.2⟩
  unfold RegOp.body State.result
  rw [hlate, hact, hu, hnot, hs]
  rfl

end Body

theorem RegOp.isTrue_iff {o : RegOp} {u : SUnit} : (o.guard u).isTrue = true ↔ u.predOf o.pred o.pneg = .u true := beq_iff_eq

/-- Settles O8: one value put once, or a base and a stride. -/
theorem uniformAndAffineResult : Obligations.UniformAndAffineResult := by
  unfold Obligations.UniformAndAffineResult
  refine ⟨fun ins o s i u hop h hp hact hlate hu hhit => ?_, fun ins o s i u hop h hp hact hlate hu ha hw hhit => ?_⟩
  · rw [exec_regOp hop, h.runWord, RegOp.body_uniform hlate hact hu,
      State.writeV_once hact (by rw [o.parts_fst]; exact hhit) (RegOp.isTrue_iff.mpr hp) (by unfold RegOp.parts; cases o.wide <;> rfl)]
    unfold RegOp.parts RegOp.putUniform
    cases o.wide <;> rfl
  · have hdests : o.dests = [o.d] := by rw [RegOp.dests, hw]; rfl
    rw [hdests] at hhit
    have ht := RegOp.isTrue_iff.mpr hp
    refine ⟨(o.value s u 0).extractLsb' 0 32, (o.value s u 1).extractLsb' 0 32 - (o.value s u 0).extractLsb' 0 32, ?_, fun k => ?_⟩
    · rw [exec_regOp hop, h.runWord, RegOp.body_affine hlate hact hu ha ht hw, State.writeV_once (ws := [(o.d, _)]) hact hhit ht rfl]
      rfl
    · obtain ⟨b, st, hb⟩ := (regOp_shaped hop).affine s u ha
      dsimp only at hb
      rw [hb 0, hb 1, hb k]
      simp

/-! The lane instructions. -/

/-- What a row gives at a strand with active lanes: it is written to the destinations, and where it is not kept once the lanes have the row's values. -/
def RegOp.Writes (o : RegOp) (s : State) (u : SUnit) (r : Res) : Prop :=
  ∃ lo hi, r = s.writeV u (o.guard u) (o.parts lo hi) .done
    ∧ (¬(u.predOf o.pred o.pneg = .u true ∧ (o.uniform s u = true ∨ o.affine s u = true ∧ o.wide = false)) →
        o.Gives s u lo hi ∧ ((o.guard u).isTrue = true → lo.once = false))

/-- Lanes with a row's values. -/
theorem RegOp.gives_lanes {o : RegOp} {s : State} {u : SUnit} {f g : Nat → W32}
    (h : ∀ j, j < 64 → (o.guard u).mask.getLsbD j = true → f j = (o.value s u (u.lo + j)).extractLsb' 0 32
      ∧ (o.wide = true → g j = (o.value s u (u.lo + j)).extractLsb' 32 32)) :
    o.Gives s u (.g ((List.range 64).map f)) (.g ((List.range 64).map g)) := by
  intro j hj hm
  obtain ⟨hf, hg⟩ := h j hj hm
  exact ⟨(getD_map_range f 0 hj).trans hf, fun hw => (getD_map_range g 0 hj).trans (hg hw)⟩

theorem getD_replicate {x d : W32} {n j : Nat} (hj : j < n) : (List.replicate n x).getD j d = x := by
  simp [List.getD, hj]

theorem RegOp.writes_body {o : RegOp} (ho : o.Shaped) {s : State} {u : SUnit} (hlate : o.late = false) (hs : u.isStrand = true) (hmask : (o.guard u).mask ≠ 0) :
    o.Writes s u (o.body s u) := by
  have hact : u.anyActive (o.guard u) = true := by simpa [SUnit.anyActive, hs] using hmask
  cases hu : o.uniform s u with
  | true =>
    refine ⟨_, _, RegOp.body_uniform hlate hact hu, fun hnot => ⟨fun j hj hm => ?_, fun ht => absurd ⟨RegOp.isTrue_iff.mp ht, .inl hu⟩ hnot⟩⟩
    rw [ho.uniform s u hu (u.lo + j) u.lo]
    exact ⟨getD_replicate hj, fun _ => getD_replicate hj⟩
  | false =>
    by_cases ha : (o.guard u).isTrue = true ∧ o.affine s u = true ∧ o.wide = false
    · obtain ⟨ht, ha, hw⟩ := ha
      refine ⟨_, .u 0, (RegOp.body_affine hlate hact hu ha ht hw).trans (by rw [RegOp.parts, hw]; rfl), fun hnot => ?_⟩
      exact absurd ⟨RegOp.isTrue_iff.mp ht, .inr ⟨ha, hw⟩⟩ hnot
    · refine ⟨_, _, RegOp.body_lanes hlate hact hu ha hs, fun _ => ⟨RegOp.gives_lanes fun j hj hm => ?_, fun _ => rfl⟩⟩
      simp only [hm, if_true, and_self, implies_true]

/-! The instructions of the LANE class (R329-R336) and the block dequantisers (R324, R326). -/

section Lane
variable {s : State} {i : Issue} {u : SUnit} (h : s.AtHead i u) (hs : u.isStrand = true)
include h hs

/-- A lane instruction in a strand. -/
theorem State.AtHead.runLane (f : FmtV) (body : State → SUnit → Guard → Res) :
    s.runLane f false body = .next (State.finish i u (body s u (u.guard f.pred f.pneg))) := by
  have hrun : s.runLane f false body = s.runWord (fun s _ u => if !u.isStrand then .needG s else body s u (u.guard f.pred f.pneg)) := rfl
  rw [hrun, h.runWord, hs]
  rfl

end Lane

/-- What a lane instruction does in a strand: nothing with no active lane, else a write that its row describes. -/
def RegOp.Runs (o : RegOp) (s : State) (u : SUnit) (r : Res) : Prop := ((o.guard u).mask = 0 → r = .done s) ∧ ((o.guard u).mask ≠ 0 → o.Writes s u r)

/-- An instruction that writes values for each lane. -/
theorem RegOp.runs_lanes {o : RegOp} {s : State} {u : SUnit} {f g : Nat → W32}
    (h : ∀ j, j < 64 → (o.guard u).mask.getLsbD j = true → f j = (o.value s u (u.lo + j)).extractLsb' 0 32
      ∧ (o.wide = true → g j = (o.value s u (u.lo + j)).extractLsb' 32 32)) :
    o.Runs s u (if (o.guard u).mask = 0 then .done s
      else s.writeV u (o.guard u) (o.parts (.g ((List.range 64).map f)) (.g ((List.range 64).map g))) .done) :=
  ⟨fun hm => if_pos hm, fun hm => ⟨_, _, if_neg hm, fun _ => ⟨RegOp.gives_lanes h, fun _ => rfl⟩⟩⟩

/-- An instruction that writes one word for each lane. -/
theorem RegOp.runs_narrow {o : RegOp} (hw : o.wide = false) {s : State} {u : SUnit} {f : Nat → W32}
    (h : ∀ j, j < 64 → (o.guard u).mask.getLsbD j = true → f j = (o.value s u (u.lo + j)).extractLsb' 0 32) :
    o.Runs s u (if (o.guard u).mask = 0 then .done s else s.writeV u (o.guard u) [(o.d, .g ((List.range 64).map f))] .done) := by
  have hparts (lo hi : Rv) : o.parts lo hi = [(o.d, lo)] := by
    unfold RegOp.parts
    rw [hw]
    rfl
  have := RegOp.runs_lanes (o := o) (s := s) (u := u) (f := f) (g := f) fun j hj hm => ⟨h j hj hm, fun hw' => by rw [hw] at hw'; cases hw'⟩
  rwa [hparts] at this

/-- What a permute that writes no predicate gives to a lane. -/
def State.permuted (s : State) (f : FmtV) (u : SUnit) (g : Guard) (j : Nat → Int) (l : Nat) : W64 :=
  (if g.mask.getLsbD l then s.crossRead u (fun x i => s.opdAt x f.ty.wide f.a.toNat i) (j l) else (0, false)).1

theorem State.permute_values {s : State} {u : SUnit} (hs : u.isStrand = true) (f : FmtV) (g : Guard) (j : Nat → Int) :
    s.permute f u g j false = if g.mask = 0 then .done s
      else s.writeV u g (if f.ty.wide then [(f.d.toNat, laneVals (s.permuted f u g j) false), (f.d.toNat + 1, laneVals (s.permuted f u g j) true)]
        else [(f.d.toNat, laneVals (s.permuted f u g j) false)]) .done := by
  generalize hws : (if f.ty.wide then [(f.d.toNat, laneVals (s.permuted f u g j) false), (f.d.toNat + 1, laneVals (s.permuted f u g j) true)]
    else [(f.d.toNat, laneVals (s.permuted f u g j) false)]) = ws
  have hperm : s.permute f u g j false = if g.mask = 0 then .done s
      else match u.regionHit (ws.map (·.1)) [] with
        | some t => .trap s causeRegionwrite t
        | none => s.writeV u g ws .done := by
    rw [← hws]
    rfl
  rw [hperm]
  split
  · rfl
  next hm =>
  have hact : u.anyActive g = true := by simpa [SUnit.anyActive, hs] using hm
  split
  · next t hhit =>
    rw [State.writeV_eq, hact, hhit]
    rfl
  · rfl

/-- A permute whose lanes read what its row reads. -/
theorem RegOp.runs_permute {s : State} {u : SUnit} (hs : u.isStrand = true) (f : FmtV) (j : Nat → Int) (value : State → SUnit → Nat → W64)
    (h : ∀ l, (u.guard f.pred f.pneg).mask.getLsbD l = true → (s.crossRead u (fun x i => s.opdAt x f.ty.wide f.a.toNat i) (j l)).1 = value s u (u.lo + l)) :
    RegOp.Runs { pred := f.pred, pneg := f.pneg, d := f.d.toNat, wide := f.ty.wide, late := false, uniform := fun _ _ => false, affine := fun _ _ => false,
                 value := value } s u (s.permute f u (u.guard f.pred f.pneg) j false) := by
  rw [State.permute_values hs]
  refine RegOp.runs_lanes fun l hl hm => ?_
  have hm : (u.guard f.pred f.pneg).mask.getLsbD l = true := hm
  have : s.permuted f u (u.guard f.pred f.pneg) j l = value s u (u.lo + l) := by rw [State.permuted, if_pos hm, h l hm]
  rw [this]
  exact ⟨rfl, fun _ => rfl⟩

/-- The steps of a scan at one of its lanes: what the lanes before it combine to, and that with its own value. -/
theorem scanLanes_find (e : OpEnv) (op : Nat) (val : Nat → Nat) {js : List Nat} (hasc : js.Pairwise (· < ·)) {j : Nat} (hj : j ∈ js) (acc : Nat) :
    (scanLanes e op val js acc).find? (fun t => t.1 == j)
      = some (j, (js.filter (fun i => decide (i < j))).foldl (fun a i => scanCombine e op a (val i)) acc,
          scanCombine e op ((js.filter (fun i => decide (i < j))).foldl (fun a i => scanCombine e op a (val i)) acc) (val j)) := by
  induction js generalizing acc with
  | nil => cases hj
  | cons i js ih =>
    obtain ⟨hi, hasc⟩ := List.pairwise_cons.mp hasc
    rw [scanLanes, List.find?_cons]
    obtain rfl | hj := List.mem_cons.mp hj
    · have hnone : (j :: js).filter (fun i => decide (i < j)) = [] := by
        rw [List.filter_eq_nil_iff]
        intro k hk
        obtain rfl | hk := List.mem_cons.mp hk
        · simp
        · have := hi k hk
          simp only [decide_eq_true_eq]
          omega
      rw [hnone]
      simp
    · have hlt := hi j hj
      rw [List.filter_cons_of_pos (by simpa using hlt), List.foldl_cons, ← ih hasc hj]
      rw [beq_false_of_ne hlt.ne]

/-- The lanes of a mask ascend. -/
theorem lanesOf_pairwise (m : BitVec 64) : (lanesOf m).Pairwise (· < ·) := List.Pairwise.filter _ List.pairwise_lt_range

/-- A block operation with no active lane. -/
theorem State.blockResult_none {s : State} {u : SUnit} {g : Guard} (hm : g.mask = 0) (d : Nat) (isU : Bool) (x : Nat → W32) :
    s.blockResult u g d isU x .done = .done s := if_pos hm

/-- The result of a block operation: one value where every active lane has the same, else one for each. -/
theorem State.blockResult_writes {s : State} {u : SUnit} {g : Guard} (hm : g.mask ≠ 0) (d : Nat) (isU : Bool) (x : Nat → W32) :
    s.blockResult u g d isU x .done = if isU && sameOn g x then s.writeV u g [(d, .u (((lanesOf g.mask).map x).headD 0))] .done
      else s.writeV u g [(d, .g ((List.range 64).map (fun j => if g.mask.getLsbD j then x j else 0)))] .done := if_neg hm

/-- Where all active lanes have one value, the first has it. -/
theorem headD_of_sameOn {g : Guard} {x : Nat → W32} (h : sameOn g x = true) {j : Nat} (hj : j ∈ lanesOf g.mask) : ((lanesOf g.mask).map x).headD 0 = x j := by
  unfold sameOn at h
  have hx : x j ∈ (lanesOf g.mask).map x := List.mem_map_of_mem hj
  revert h hx
  cases (lanesOf g.mask).map x with
  | nil => exact fun _ hx => by cases hx
  | cons v vs =>
    intro h hx
    obtain hx | hx := List.mem_cons.mp hx
    · exact hx.symm
    · exact (eq_of_beq (List.all_eq_true.mp h _ hx)).symm

/-- A block dequantiser. -/
theorem RegOp.runs_block {s : State} {u : SUnit} (pred : BitVec 3) (pneg : Bool) (d : Nat) (isU : State → SUnit → Bool) (value : State → SUnit → Nat → W64)
    (x : Nat → W32) (h : ∀ j, x j = (value s u (u.lo + j)).setWidth 32) :
    RegOp.Runs { pred := pred, pneg := pneg, d := d, wide := false, late := false, affine := fun _ _ => false, value := value,
                 uniform := fun s u => isU s u && sameOn (u.guard pred pneg) (fun j => (value s u (u.lo + j)).setWidth 32) } s u
      (s.blockResult u (u.guard pred pneg) d (isU s u) x .done) := by
  have hx : x = fun j => (value s u (u.lo + j)).setWidth 32 := funext h
  have hlow (v : W64) : v.setWidth 32 = v.extractLsb' 0 32 := BitVec.setWidth_eq_extractLsb' (by decide)
  refine ⟨fun hm => State.blockResult_none hm .., fun hm => ?_⟩
  have hm : (u.guard pred pneg).mask ≠ 0 := hm
  rw [State.blockResult_writes hm, hx]
  split
  · next hu =>
    refine ⟨_, .u 0, rfl, fun hnot => ⟨fun j hj hmj => ⟨?_, fun hw => by cases hw⟩, fun ht => absurd ⟨RegOp.isTrue_iff.mp ht, .inl hu⟩ hnot⟩⟩
    exact (getD_replicate hj).trans ((headD_of_sameOn (Bool.and_eq_true_iff.mp hu).2 (mem_lanesOf.mpr ⟨hj, hmj⟩)).trans (hlow _))
  · refine ⟨_, .g ((List.range 64).map fun _ => 0), rfl, fun _ => ⟨RegOp.gives_lanes fun j _ hmj => ⟨?_, fun hw => by cases hw⟩, fun _ => rfl⟩⟩
    exact (if_pos hmj).trans (hlow _)

/-- The value of a scan for a lane. -/
theorem scan_lane {f : FmtV} {s : State} {u : SUnit} (e : OpEnv) (op : Nat) {j : Nat} (hj : j ∈ lanesOf (u.guard f.pred f.pneg).mask) :
    (match (scanLanes e op (fun j => (s.vAt u f.a.toNat (u.lo + j)).toNat) (lanesOf (u.guard f.pred f.pneg).mask) (scanIdentity f.ty op)).find? (fun t => t.1 == j) with
      | some t => BitVec.ofNat 64 (if f.aux.getLsbD 2 then t.2.1 else t.2.2)
      | none => 0)
    = BitVec.ofNat 64 (
        let acc := ((lanesOf (u.guard f.pred f.pneg).mask).filter (fun i => decide (u.lo + i < u.lo + j))).foldl
          (fun acc i => scanCombine e op acc (s.vAt u f.a.toNat (u.lo + i)).toNat) (scanIdentity f.ty op)
        if f.aux.getLsbD 2 then acc else scanCombine e op acc (s.vAt u f.a.toNat (u.lo + j)).toNat) := by
  rw [scanLanes_find e op _ (lanesOf_pairwise _) hj]
  simp only [Nat.add_lt_add_iff_left]

/-- The row of a block dequantiser. -/
def blockOp (f : FmtV) (value : State → SUnit → Nat → W64) : RegOp :=
  { pred := f.pred, pneg := f.pneg, d := f.d.toNat, wide := false, late := false, affine := fun _ _ => false, value := value
    uniform := fun s u => u.vIsU f.a.toNat && sameOn (u.guard f.pred f.pneg) (fun j => (value s u (u.lo + j)).setWidth 32) }

/-- The value of DQMX for an item (R324). -/
def dqmxValue (f : FmtV) (s : State) (u : SUnit) (k : Nat) : W64 :=
  BitVec.ofNat 64 (fmtF32.encode .rne (u.satOn false)
    (mxValue f.ty (streamElem 8 (u.kreg f.b.toNat).toNat ((k - u.lo) / 32)) ((s.vAt u f.a.toNat k).toNat % 2 ^ tyBits f.ty)))

/-- The value of DQPLY for an item (R326). -/
def dqplyValue (f : FmtV) (s : State) (u : SUnit) (k : Nat) : W64 :=
  BitVec.ofNat 64 (fmtF32.encode .rne false
    (plyValue f.ty (streamElem 8 (u.kreg f.b.toNat).toNat ((k - u.lo) / 16))
      (if (u.kreg f.b.toNat).toNat.testBit (32 + 8 * ((k - u.lo) / 16) + ((k - u.lo) % 16) / 2) then 1 else 0)
      ((s.vAt u f.a.toNat k).toNat % 2 ^ (plyM f.ty + 1))))

theorem laneOp_dqmx (f : FmtV) : laneOp (.dqmx f) = some (blockOp f (dqmxValue f)) := rfl

theorem laneOp_dqply (f : FmtV) : laneOp (.dqply f) = some (blockOp f (dqplyValue f)) := rfl

section Block
variable {s : State} {i : Issue} {u : SUnit} (h : s.AtHead i u) (hs : u.isStrand = true) (f : FmtV)
include h hs

theorem dqmx_runs : ∃ r, exec (.dqmx f) s = .next (State.finish i u r) ∧ (blockOp f (dqmxValue f)).Runs s u r := by
  have hrun : execDqmx f s = _ := h.runWord _
  refine ⟨_, hrun, ?_⟩
  rw [hs]
  refine RegOp.runs_block f.pred f.pneg f.d.toNat (fun _ u => u.vIsU f.a.toNat) (dqmxValue f) _ fun j => ?_
  unfold dqmxValue
  rw [Nat.add_sub_cancel_left, BitVec.setWidth_ofNat_of_le (by decide)]

theorem dqply_runs : ∃ r, exec (.dqply f) s = .next (State.finish i u r) ∧ (blockOp f (dqplyValue f)).Runs s u r := by
  have hrun : execDqply f s = _ := h.runWord _
  refine ⟨_, hrun, ?_⟩
  rw [hs]
  refine RegOp.runs_block f.pred f.pneg f.d.toNat (fun _ u => u.vIsU f.a.toNat) (dqplyValue f) _ fun j => ?_
  unfold dqplyValue
  rw [Nat.add_sub_cancel_left, BitVec.setWidth_ofNat_of_le (by decide)]

end Block

/-- Every lane instruction in a strand does what its row says. -/
theorem laneOp_runs {ins : Instr} {o : RegOp} (hop : laneOp ins = some o) {s : State} {i : Issue} {u : SUnit} (h : s.AtHead i u) (hs : u.isStrand = true) :
    o.late = false ∧ ∃ r, exec ins s = .next (State.finish i u r) ∧ o.Runs s u r := by
  unfold laneOp at hop
  split at hop
  case h_1 f =>
    split at hop
    · cases hop
    next haux =>
    cases hop
    have hrun : execPerm f s = _ := h.runLane hs f _
    refine ⟨rfl, _, hrun, ?_⟩
    rw [Bool.eq_false_iff.mpr haux]
    exact RegOp.runs_permute hs f _ _ fun l _ => rfl
  case h_2 f =>
    split at hop
    · cases hop
    next haux =>
    cases hop
    have hrun : execShfl f s = _ := h.runLane hs f _
    refine ⟨rfl, _, hrun, ?_⟩
    dsimp only
    rw [Bool.eq_false_iff.mpr haux]
    refine RegOp.runs_permute hs f _ _ fun l _ => ?_
    rw [Nat.add_sub_cancel_left]
  case h_3 f =>
    cases hop
    have hrun : execBcast f s = _ := h.runLane hs f _
    refine ⟨rfl, _, hrun, RegOp.runs_permute hs f _ _ fun l _ => ?_⟩
    dsimp only
    split <;> rfl
  case h_4 f =>
    cases hop
    have hrun : execScan f s = _ := h.runLane hs f _
    refine ⟨rfl, _, hrun, RegOp.runs_narrow rfl fun j hj hm => congrArg (·.extractLsb' 0 32) (scan_lane _ _ (mem_lanesOf.mpr ⟨hj, hm⟩))⟩
  case h_5 f =>
    cases hop
    have hrun : execRedi f s = _ := h.runLane hs f _
    exact ⟨rfl, _, hrun, RegOp.runs_narrow rfl fun j _ _ => rfl⟩
  case h_6 f =>
    cases hop
    have hrun : execXrnd f s = _ := h.runLane hs f _
    exact ⟨rfl, _, hrun, RegOp.runs_lanes fun j _ _ => ⟨rfl, fun _ => rfl⟩⟩
  case h_7 f =>
    cases hop
    have hrun : execShape f s = _ := h.runLane hs f _
    exact ⟨rfl, _, hrun, RegOp.runs_narrow rfl fun j _ _ => rfl⟩
  case h_8 f =>
    obtain rfl : blockOp f (dqmxValue f) = o := Option.some.inj ((laneOp_dqmx f).symm.trans hop)
    exact ⟨rfl, dqmx_runs h hs f⟩
  case h_9 f =>
    obtain rfl : blockOp f (dqplyValue f) = o := Option.some.inj ((laneOp_dqply f).symm.trans hop)
    exact ⟨rfl, dqply_runs h hs f⟩
  case h_10 => cases hop

end Sys2Proof.Machine
end
section
/-! SUPPORT. Rows mapped for registers (R91): one register at a time, and what it leaves; what a strand reads from it (O9). -/

namespace Sys2Proof.Machine
set_option Elab.async false

/-- The group with a row mapped for a register of a window. -/
def Group.withRow (g : Group) (w r k : Nat) : Group := { g with rowMap := Kv.set none g.rowMap (w * 128 + r) (some k) }

/-- The words of a row that is mapped for a register: the strand's own values at its items. -/
def State.takenRow (s : State) (u : SUnit) (r k : Nat) : List W32 :=
  (List.range 64).map (fun j => if u.mask.getLsbD j then s.vAt u r (u.lo + j) else (s.row k).getD j 0)

/-- A register of a strand that turns G in a row mapped for it. -/
def State.turnG (s : State) (u : SUnit) (r k : Nat) : State := (s.setRow k (s.takenRow u r k)).putUnit (u.setV r .g)

theorem Group.rowOf_withRow (g : Group) (w r k w' r' : Nat) :
    (g.withRow w r k).rowOf w' r' = if w' * 128 + r' = w * 128 + r then some k else g.rowOf w' r' := by
  unfold Group.rowOf Group.withRow Kv.set
  rw [if_neg (by simp), Kv.get_insert]

/-- A state in which a row may have been mapped for a register that had none: the group of a unit before and after. -/
structure State.MapsRow (s s0 : State) (u : SUnit) (g g0 : Group) (r k : Nat) : Prop where
  before : s.groupOf u = some g
  after : s0.groupOf u = some g0
  mapped : g0.rowOf (u.window g0) r = some k
  cases : (s0 = s ∧ g0 = g) ∨ (g.rowOf (u.window g) r = none ∧ s0 = s.updGroup g.id (fun x => x.withRow (u.window g) r k) ∧ g0 = g.withRow (u.window g) r k)

theorem State.groupOf_updGroup {s : State} {u : SUnit} {g : Group} (hg : s.groupOf u = some g) (f : Group → Group) (hf : ∀ x, (f x).id = x.id) :
    (s.updGroup g.id f).groupOf u = some (f g) := by
  obtain ⟨gid, hu, hg⟩ := Option.bind_eq_some_iff.mp hg
  have hid : g.id = gid := by simpa using List.find?_some hg
  unfold State.groupOf
  rw [hu, Option.bind_some, hid]
  have := find?_updWhere (fun x : Group => x.id == gid) f (fun x hx => by simpa [hf] using hx) s.groups
  exact this.trans (congrArg (Option.map f) hg)

/-- Rows for the first register of a list and for the others. -/
theorem State.ensureRows_cons {s t : State} {u v : SUnit} {r : Nat} {rs : List Nat} (h : s.ensureRows u (r :: rs) = .ok (t, v)) :
    (u.vreg r = .g ∧ s.ensureRows u rs = .ok (t, v))
    ∨ ∃ s0 g g0 k, u.vreg r ≠ .g ∧ s.MapsRow s0 u g g0 r k ∧ (s0.turnG u r k).ensureRows (u.setV r .g) rs = .ok (t, v) := by
  unfold State.ensureRows at h
  split at h
  · cases h
  next g hg =>
  split at h
  · next hG => exact .inl ⟨hG, h⟩
  next hG =>
  dsimp only at h
  split at h
  · next k hk => exact .inr ⟨s, g, g, k, hG, ⟨hg, hg, hk, .inl ⟨rfl, rfl⟩⟩, h⟩
  next hno =>
  split at h
  · cases h
  split at h
  · cases h
  next k _ =>
  refine .inr ⟨_, g, g.withRow (u.window g) r k, k, hG, ⟨hg, ?_, ?_, .inr ⟨hno, rfl, rfl⟩⟩, h⟩
  · exact State.groupOf_updGroup hg (fun x => x.withRow (u.window g) r k) fun _ => rfl
  · exact (g.rowOf_withRow ..).trans (if_pos rfl)

theorem State.ensureRows_nil {s t : State} {u v : SUnit} (h : s.ensureRows u [] = .ok (t, v)) : t = s ∧ v = u := by
  cases h
  exact ⟨rfl, rfl⟩

/-- A register that is not G reads the same in every state. -/
theorem State.vAt_of_not_g {u : SUnit} {r : Nat} (h : u.vreg r ≠ .g) (s t : State) (k : Nat) : s.vAt u r k = t.vAt u r k := by
  unfold State.vAt
  cases hr : u.vreg r with
  | u x => rfl
  | a b st => rfl
  | g => exact absurd hr h

/-- A register that is G reads its row. -/
theorem State.vAt_g {s : State} {u : SUnit} {g : Group} {r k : Nat} (hr : u.vreg r = .g) (hg : s.groupOf u = some g) (hk : g.rowOf (u.window g) r = some k)
    (j : Nat) : s.vAt u r (u.lo + j) = (s.row k).getD j 0 := by
  unfold State.vAt
  rw [hr]
  dsimp only
  rw [hg]
  dsimp only
  rw [hk]
  dsimp only
  rw [Nat.add_sub_cancel_left]

theorem SUnit.vreg_setV {u : SUnit} (hu : u.Inv) (r : Nat) (x : VReg) (r' : Nat) : (u.setV r x).vreg r' = if r' = r then x else u.vreg r' :=
  Kv.get_set hu.v r r' x

/-- A register that turns G keeps what the items of the strand read. -/
theorem State.turnG_reads {s : State} (hs : s.Inv) {u : SUnit} (hu : u.Inv) {g : Group} {r k : Nat} (hg : s.groupOf u = some g)
    (hk : g.rowOf (u.window g) r = some k) {j : Nat} (hj : j < 64) (hm : u.mask.getLsbD j = true) :
    (s.turnG u r k).vAt (u.setV r .g) r (u.lo + j) = s.vAt u r (u.lo + j) := by
  have hgroup : (s.turnG u r k).groupOf (u.setV r .g) = some g := hg
  have hG : (u.setV r .g).vreg r = .g := (u.vreg_setV hu r .g r).trans (if_pos rfl)
  have hrow : (s.turnG u r k).row k = s.takenRow u r k := (State.row_setRow hs k (s.takenRow u r k) k).trans (if_pos rfl)
  have := State.vAt_g hG hgroup hk j
  rw [hrow] at this
  exact this.trans ((getD_map_range _ 0 hj).trans (if_pos hm))

/-- A row written at lanes of a mask. -/
theorem State.row_writeLanes {s : State} (hs : s.Inv) {u : SUnit} {g : Group} {r k : Nat} (hg : s.groupOf u = some g) (hk : g.rowOf (u.window g) r = some k)
    (mask : BitVec 64) (vals : List W32) (k' : Nat) :
    (s.writeLanes u r mask vals).row k'
      = if k' = k then (List.range 64).map (fun j => if mask.getLsbD j then vals.getD j 0 else (s.row k).getD j 0) else s.row k' := by
  unfold State.writeLanes
  rw [hg]
  dsimp only
  rw [hk]
  dsimp only
  split <;> exact State.row_setRow hs k _ k'

/-- Settles O9: lanes written in rows, and rows mapped that keep what the items read. -/
theorem laneResult : Obligations.LaneResult := by
  unfold Obligations.LaneResult
  refine ⟨fun ins o s s1 i u u1 hop h hs hlate hmask hhit hnot hrows => ?_, fun s u g r k mask vals hs hg hk => ⟨fun j hj => ?_, fun k' hk' => ?_⟩,
    fun s s1 u u1 r hs hregs hu hrows => ?_⟩
  · have hrun : ∃ res, exec ins s = .next (State.finish i u res) ∧ o.Writes s u res := by
      obtain hop | hop := hop
      · exact ⟨_, (exec_regOp hop s).trans (h.runWord _), RegOp.writes_body (regOp_shaped hop) hlate hs hmask⟩
      · obtain ⟨-, res, hrun, hres⟩ := laneOp_runs hop h hs
        exact ⟨res, hrun, hres.2 hmask⟩
    obtain ⟨res, hrun, lo, hi, rfl, hgives⟩ := hrun
    obtain ⟨hgives, hmany⟩ := hgives hnot
    rw [hrun, hgives.writeV hmask hhit hmany hs hrows]
    rfl
  · rw [State.row_writeLanes hs hg hk, if_pos rfl]
    exact getD_map_range _ 0 hj
  · rw [State.row_writeLanes hs hg hk, if_neg hk']
  · have hinv : u.Inv := hregs u (List.mem_of_find?_eq_some hu)
    obtain ⟨hG, h⟩ | ⟨s0, g, g0, k, hG, hmap, h⟩ := State.ensureRows_cons hrows
    · obtain ⟨rfl, rfl⟩ := State.ensureRows_nil h
      exact ⟨hG, fun _ _ => rfl, hu, fun _ _ _ => rfl⟩
    · obtain ⟨rfl, rfl⟩ := State.ensureRows_nil h
      have hsame : s0.units = s.units ∧ s0.Inv := by
        obtain ⟨rfl, -⟩ | ⟨-, rfl, -⟩ := hmap.cases
        · exact ⟨rfl, hs⟩
        · exact ⟨rfl, hs.of_same (s.same_updGroup ..)⟩
      refine ⟨(u.vreg_setV hinv ..).trans (if_pos rfl), fun r' hr' => (u.vreg_setV hinv ..).trans (if_neg hr'), ?_, fun j hj hm => ?_⟩
      · have hu0 : s0.unit? u.id = some u := by unfold State.unit?; rw [hsame.1]; exact hu
        exact State.unit?_putUnit (s0.setRow k (s0.takenRow u r k)) (u := u.setV r .g) hu0
      · exact (State.turnG_reads hsame.2 hinv hmap.after hmap.mapped hj hm).trans (State.vAt_of_not_g hG s0 s _)

end Sys2Proof.Machine
end
section
/-! SUPPORT. The frame of a register write (O13): what a write to the destinations of an instruction leaves, and what the end of its word or a trap
leaves. -/

namespace Sys2Proof.Machine
set_option Elab.async false

/-- What memory and pads read from, the same in two states. -/
structure State.SameHold (s t : State) : Prop where
  mem : t.mem = s.mem
  l1 : t.l1 = s.l1
  l2 : t.l2 = s.l2
  pad : t.pad = s.pad
  creel : t.creel = s.creel
  hostSide : t.hostSide = s.hostSide

namespace State.SameHold
variable {s t : State}

theorem sameBytes (h : s.SameHold t) : s.SameBytes t := by
  intro w a
  unfold State.byteAt State.overHome State.homeByte State.place State.kind State.chunk
  rw [h.mem, h.l1, h.l2, h.creel, h.hostSide]

theorem samePads (h : s.SameHold t) : s.SamePads t := by
  intro core off
  unfold State.padBytes
  rw [h.pad]

theorem trans {r : State} (h : s.SameHold t) (h' : t.SameHold r) : s.SameHold r :=
  ⟨h'.mem.trans h.mem, h'.l1.trans h.l1, h'.l2.trans h.l2, h'.pad.trans h.pad, h'.creel.trans h.creel, h'.hostSide.trans h.hostSide⟩

end State.SameHold

/-- The registers of a unit are those of another but for some v registers. -/
structure SUnit.SameBut (dests : List Nat) (x y : SUnit) : Prop where
  v : ∀ r, r ∉ dests → y.vreg r = x.vreg r
  p : y.p = x.p
  k : y.k = x.k
  x : y.x = x.x

namespace SUnit.SameBut
variable {dests : List Nat} {x y z : SUnit}

theorem of_table (hv : y.v = x.v) (hp : y.p = x.p) (hk : y.k = x.k) (hx : y.x = x.x) : x.SameBut dests y :=
  ⟨fun r _ => by unfold SUnit.vreg; rw [hv], hp, hk, hx⟩

theorem refl (x : SUnit) : x.SameBut dests x := .of_table rfl rfl rfl rfl

theorem trans (h : x.SameBut dests y) (h' : y.SameBut dests z) : x.SameBut dests z :=
  ⟨fun r hr => (h'.v r hr).trans (h.v r hr), h'.p.trans h.p, h'.k.trans h.k, h'.x.trans h.x⟩

theorem setV (hx : x.Inv) {r : Nat} (hr : r ∈ dests) (v : VReg) : x.SameBut dests (x.setV r v) :=
  ⟨fun r' hr' => (SUnit.vreg_setV hx r v r').trans (if_neg fun e => by subst e; exact hr' hr), rfl, rfl, rfl⟩

end SUnit.SameBut

/-- Units of which one alone may have other registers, and that outside the destinations. -/
structure State.SameUnits (u : SUnit) (dests : List Nat) (s t : State) : Prop where
  others : ∀ y ∈ t.units, ∃ x ∈ s.units, x.id = y.id ∧ (y.id ≠ u.id → y.SameRegs x)
  own : ∀ y, t.unit? u.id = some y → ∃ x, s.unit? u.id = some x ∧ x.SameBut dests y

theorem SUnit.SameRegs.refl (x : SUnit) : x.SameRegs x := ⟨rfl, rfl, rfl, rfl, rfl, rfl, rfl, rfl, rfl, rfl, rfl⟩

theorem SUnit.SameRegs.trans {x y z : SUnit} (h : x.SameRegs y) (h' : y.SameRegs z) : x.SameRegs z :=
  ⟨h.v.trans h'.v, h.p.trans h'.p, h.k.trans h'.k, h.x.trans h'.x, h.rstack.trans h'.rstack, h.sstack.trans h'.sstack, h.nest.trans h'.nest,
    h.fmode.trans h'.fmode, h.tcause.trans h'.tcause, h.tpc.trans h'.tpc, h.tval.trans h'.tval⟩

namespace State.SameUnits
variable {u : SUnit} {dests : List Nat} {s t r : State}

theorem of_units (h : t.units = s.units) : State.SameUnits u dests s t where
  others y hy := ⟨y, h ▸ hy, rfl, fun _ => .refl y⟩
  own y hy := ⟨y, by unfold State.unit? at hy ⊢; rwa [h] at hy, .refl y⟩

theorem trans (h : State.SameUnits u dests s t) (h' : State.SameUnits u dests t r) : State.SameUnits u dests s r where
  others z hz := by
    obtain ⟨y, hy, e, hyz⟩ := h'.others z hz
    obtain ⟨x, hx, e', hxy⟩ := h.others y hy
    exact ⟨x, hx, e'.trans e, fun hne => (hyz hne).trans (hxy (e ▸ hne))⟩
  own z hz := by
    obtain ⟨y, hy, hyz⟩ := h'.own z hz
    obtain ⟨x, hx, hxy⟩ := h.own y hy
    exact ⟨x, hx, hxy.trans hyz⟩

/-- An update of the unit itself. -/
theorem updUnit {id : Nat} (hid : u.id = id) (f : SUnit → SUnit) (hf : ∀ x, (f x).id = x.id) (hregs : ∀ x, s.unit? u.id = some x → x.SameBut dests (f x)) :
    State.SameUnits u dests s (s.updUnit id f) where
  others y hy := by
    obtain ⟨x, hx, rfl⟩ := List.mem_map.mp hy
    refine ⟨x, hx, ?_, ?_⟩
    · split
      · exact (hf x).symm
      · rfl
    · split
      · next h =>
        intro hne
        rw [hf x, hid] at hne
        exact absurd (by simpa using h) hne
      · exact fun _ => .refl x
  own y hy := by
    subst hid
    rw [State.unit?_updUnit _ _ _ hf] at hy
    obtain ⟨x, hx, rfl⟩ := Option.map_eq_some_iff.mp hy
    exact ⟨x, hx, hregs x hx⟩

/-- The unit put back with other registers. -/
theorem putUnit {v x : SUnit} (hv : v.id = u.id) (hx : s.unit? u.id = some x) (hregs : x.SameBut dests v) : State.SameUnits u dests s (s.putUnit v) where
  others y hy := by
    obtain ⟨z, hz, rfl⟩ := List.mem_map.mp hy
    split
    · next h =>
      have h : z.id = v.id := by simpa using h
      exact ⟨z, hz, h, fun hne => absurd hv hne⟩
    · exact ⟨z, hz, rfl, fun _ => .refl z⟩
  own y hy := by
    rw [← hv, State.unit?_putUnit s (u := v) (hv ▸ hx)] at hy
    cases hy
    exact ⟨x, hx, hregs⟩

theorem removeUnit (j : Nat) : State.SameUnits u dests s (s.removeUnit j) where
  others y hy := ⟨y, List.mem_of_mem_filter hy, rfl, fun _ => .refl y⟩
  own y hy := by
    by_cases hj : u.id = j
    · refine absurd (List.mem_of_find?_eq_some hy) fun hmem => ?_
      have hne := (List.mem_filter.mp hmem).2
      have hid : y.id = u.id := by simpa using List.find?_some hy
      simp [hid, hj] at hne
    · exact ⟨y, (State.unit?_removeUnit_other s hj).symm.trans hy, .refl y⟩

theorem settleDuties : State.SameUnits u dests s s.settleDuties where
  others y hy := by
    rw [State.settleDuties_units, List.mem_map] at hy
    obtain ⟨x, hx, rfl⟩ := hy
    exact ⟨x, hx, rfl, fun _ => ⟨rfl, rfl, rfl, rfl, rfl, rfl, rfl, rfl, rfl, rfl, rfl⟩⟩
  own y hy := by
    rw [State.unit?_settleDuties] at hy
    obtain ⟨x, hx, rfl⟩ := Option.map_eq_some_iff.mp hy
    exact ⟨x, hx, .of_table rfl rfl rfl rfl⟩

end State.SameUnits

/-- A write to registers of a unit: memory, pads, other units and other registers as before, and no row but those mapped to the registers changed. -/
structure State.RegFrame (u : SUnit) (dests : List Nat) (s t : State) : Prop where
  hold : s.SameHold t
  units : State.SameUnits u dests s t
  mapped : ∀ g, s.groupOf u = some g → ∃ g', t.groupOf u = some g' ∧ g'.base = g.base ∧ ∀ w r k, g.rowOf w r = some k → g'.rowOf w r = some k
  rows : ∀ k, (∀ g, t.groupOf u = some g → ∀ r ∈ dests, g.rowOf (u.window g) r ≠ some k) → t.row k = s.row k

namespace State.RegFrame
variable {u : SUnit} {dests : List Nat} {s t r : State}

/-- A step that changes neither rows nor groups. -/
theorem of_units (hold : s.SameHold t) (hunits : State.SameUnits u dests s t) (hg : t.groups = s.groups) (hr : t.rows = s.rows) : State.RegFrame u dests s t where
  hold := hold
  units := hunits
  mapped g h := ⟨g, by unfold State.groupOf State.group? at h ⊢; rwa [hg], rfl, fun _ _ _ h => h⟩
  rows k _ := by unfold State.row; rw [hr]

theorem refl (s : State) : State.RegFrame u dests s s := .of_units ⟨rfl, rfl, rfl, rfl, rfl, rfl⟩ (.of_units rfl) rfl rfl

theorem trans (h : State.RegFrame u dests s t) (h' : State.RegFrame u dests t r) : State.RegFrame u dests s r where
  hold := h.hold.trans h'.hold
  units := h.units.trans h'.units
  mapped g hg := by
    obtain ⟨g', hg', hb, hm⟩ := h.mapped g hg
    obtain ⟨g'', hg'', hb', hm'⟩ := h'.mapped g' hg'
    exact ⟨g'', hg'', hb'.trans hb, fun w r k hk => hm' w r k (hm w r k hk)⟩
  rows k hk := by
    refine (h'.rows k hk).trans (h.rows k fun g hg d hd e => ?_)
    obtain ⟨g', hg', hb, hm⟩ := h'.mapped g hg
    have hw : u.window g' = u.window g := by unfold SUnit.window; rw [hb]
    exact hk g' hg' d hd (hw ▸ hm _ d k e)

theorem foldl {α : Type} (f : State → α → State) (hf : ∀ s a, State.RegFrame u dests s (f s a)) (l : List α) (s : State) :
    State.RegFrame u dests s (l.foldl f s) := by
  induction l generalizing s with
  | nil => exact .refl s
  | cons a l ih => exact (hf s a).trans (ih _)

theorem updLaunch (s : State) (l : Nat) (f : Launch → Launch) : State.RegFrame u dests s (s.updLaunch l f) :=
  .of_units ⟨rfl, rfl, rfl, rfl, rfl, rfl⟩ (.of_units rfl) rfl rfl

theorem withIssue (s : State) (is : List Issue) : State.RegFrame u dests s { s with issue := is } :=
  .of_units ⟨rfl, rfl, rfl, rfl, rfl, rfl⟩ (.of_units rfl) rfl rfl

theorem removeUnit (s : State) (j : Nat) : State.RegFrame u dests s (s.removeUnit j) := .of_units ⟨rfl, rfl, rfl, rfl, rfl, rfl⟩ (.removeUnit j) rfl rfl

theorem stopUnits (s : State) (l : Nat) : State.RegFrame u dests s (s.stopUnits l) := by
  unfold State.stopUnits
  split
  · exact .foldl (fun s (x : SUnit) => s.removeUnit x.id) (fun s x => .removeUnit s x.id) _ s
  · exact .refl s

theorem stopAborting (s : State) : State.RegFrame u dests s s.stopAborting := by
  unfold State.stopAborting
  exact .foldl (fun s (l : Launch) => s.stopUnits l.id) (fun s l => .stopUnits s l.id) _ s

theorem settleDuties (s : State) : State.RegFrame u dests s s.settleDuties := .of_units ⟨rfl, rfl, rfl, rfl, rfl, rfl⟩ .settleDuties rfl rfl

/-- An update of the unit that keeps its registers. -/
theorem updUnit (s : State) {id : Nat} (hid : u.id = id) (f : SUnit → SUnit) (hf : ∀ x, (f x).id = x.id) (hregs : ∀ x : SUnit, x.SameBut dests (f x)) :
    State.RegFrame u dests s (s.updUnit id f) :=
  .of_units ⟨rfl, rfl, rfl, rfl, rfl, rfl⟩ (.updUnit hid f hf fun x _ => hregs x) rfl rfl

theorem putUnit {v x : SUnit} (hv : v.id = u.id) (hx : s.unit? u.id = some x) (hregs : x.SameBut dests v) : State.RegFrame u dests s (s.putUnit v) :=
  .of_units ⟨rfl, rfl, rfl, rfl, rfl, rfl⟩ (.putUnit hv hx hregs) rfl rfl

theorem endClause (s : State) {id : Nat} (hid : u.id = id) : State.RegFrame u dests s (s.endClause id) := by
  have hclosed : State.RegFrame u dests s (s.clauseClosed id) := by
    refine .trans (.withIssue s (s.issue.filter (·.unit != id))) (.updUnit _ hid SUnit.clauseClosed SUnit.clauseClosed_id fun x => ?_)
    unfold SUnit.clauseClosed
    split <;> exact .of_table rfl rfl rfl rfl
  exact (hclosed.trans (.settleDuties _)).trans (.stopAborting _)

theorem advance (s : State) {i : Issue} (hid : u.id = i.unit) : State.RegFrame u dests s (s.advance i) := by
  obtain ⟨-, h⟩ | ⟨-, h⟩ := s.advance_cases i
  · rw [h]
    exact .withIssue s _
  · rw [h]
    exact .trans (.updUnit s hid (fun u => { u with pc := i.nextClause, pcSlot := none, origin := none }) (fun _ => rfl) fun _ => .of_table rfl rfl rfl rfl)
      (.endClause _ hid)

theorem faultUnit (s : State) (x : SUnit) (cause : W32) (addr : W64) : State.RegFrame u dests s (s.faultUnit x cause addr) := by
  unfold State.faultUnit
  exact .trans (.updLaunch s x.launch _) (.trans (.removeUnit _ x.id) (.stopUnits _ x.launch))

/-- A trap of a strand, or of a span that has no routine, leaves the registers. -/
theorem takeTrap (hu : s.unit? u.id = some u) (hspan : u.isStrand = true ∨ s.trapRoutine u = 0) (cause : W32) (tpc tval next : W64) (global : Bool) :
    State.RegFrame u dests s (s.takeTrap u cause tpc tval next global) := by
  unfold State.takeTrap
  dsimp only
  split
  · next h =>
    simp only [Bool.and_eq_true, bne_iff_ne] at h
    obtain ⟨⟨⟨⟨hroutine, -⟩, -⟩, -⟩, -⟩ := h
    have hs : u.isStrand = true := hspan.resolve_right hroutine
    rw [hs]
    exact .putUnit rfl hu (.of_table rfl rfl rfl rfl)
  · exact .trans (t := s.putUnit { u with tcause := cause, tpc := tpc, tval := tval }) (.putUnit rfl hu (.of_table rfl rfl rfl rfl)) (.faultUnit ..)

/-- A row mapped to a destination that is written. -/
theorem setRow (hs : s.Inv) {g : Group} {d k : Nat} (hd : d ∈ dests) (hg : s.groupOf u = some g) (hk : g.rowOf (u.window g) d = some k) (ws : List W32) :
    State.RegFrame u dests s (s.setRow k ws) where
  hold := ⟨rfl, rfl, rfl, rfl, rfl, rfl⟩
  units := .of_units rfl
  mapped g' hg' := ⟨g', hg', rfl, fun _ _ _ h => h⟩
  rows k' hk' := (State.row_setRow hs k ws k').trans (if_neg fun e => by subst e; exact hk' g hg d hd hk)

/-- Lanes written to a destination. -/
theorem writeLanes (hs : s.Inv) {d : Nat} (hd : d ∈ dests) (mask : BitVec 64) (vals : List W32) : State.RegFrame u dests s (s.writeLanes u d mask vals) := by
  unfold State.writeLanes
  split
  · exact .refl s
  next g hg =>
  split
  · exact .refl s
  next k hk =>
  have h (ws) : State.RegFrame u dests s (s.setRow k ws) := .setRow hs hd hg hk ws
  dsimp only
  split
  · exact (h _).trans (.of_units ⟨rfl, rfl, rfl, rfl, rfl, rfl⟩ (.of_units rfl) rfl rfl)
  · exact h _

/-- A frame for a record of the unit with other registers. -/
theorem of_setV {r : Nat} {x : VReg} (h : State.RegFrame (u.setV r x) dests s t) : State.RegFrame u dests s t :=
  ⟨h.hold, ⟨h.units.others, h.units.own⟩, h.mapped, h.rows⟩

/-- A row mapped for a register that had none. -/
theorem withRow {g : Group} {r : Nat} (hg : s.groupOf u = some g) (hno : g.rowOf (u.window g) r = none) (k : Nat) :
    State.RegFrame u dests s (s.updGroup g.id (fun x => x.withRow (u.window g) r k)) where
  hold := ⟨rfl, rfl, rfl, rfl, rfl, rfl⟩
  units := .of_units rfl
  mapped g' hg' := by
    obtain rfl : g = g' := Option.some.inj (hg.symm.trans hg')
    refine ⟨_, State.groupOf_updGroup hg _ fun _ => rfl, rfl, fun w r' k' hk' => (g.rowOf_withRow ..).trans ?_⟩
    split
    · next e =>
      unfold Group.rowOf at hno hk'
      rw [e, hno] at hk'
      cases hk'
    · exact hk'
  rows _ _ := rfl

theorem mapsRow {g g0 : Group} {r k : Nat} (h : s.MapsRow t u g g0 r k) : State.RegFrame u dests s t := by
  obtain ⟨rfl, rfl⟩ | ⟨hno, rfl, rfl⟩ := h.cases
  · exact .refl _
  · exact .withRow h.before hno k

/-- Rows mapped for destinations. -/
theorem ensureRows : ∀ (rs : List Nat) {s t : State} {u v : SUnit}, s.Inv → u.Inv → s.unit? u.id = some u → (∀ r ∈ rs, r ∈ dests) →
    s.ensureRows u rs = .ok (t, v) → State.RegFrame u dests s t := by
  intro rs
  induction rs with
  | nil =>
    intro s t u v _ _ _ _ h
    obtain ⟨rfl, rfl⟩ := State.ensureRows_nil h
    exact .refl _
  | cons r rs ih =>
    intro s t u v hs hinv hu hd h
    obtain ⟨-, h⟩ | ⟨s0, g, g0, k, -, hmap, h⟩ := State.ensureRows_cons h
    · exact ih hs hinv hu (fun x hx => hd x (List.mem_cons_of_mem _ hx)) h
    · have hs0 : s0.Inv ∧ s0.unit? u.id = some u := by
        obtain ⟨rfl, -⟩ | ⟨-, rfl, -⟩ := hmap.cases
        · exact ⟨hs, hu⟩
        · exact ⟨hs.of_same (s.same_updGroup ..), hu⟩
      have hrow : State.RegFrame u dests s0 (s0.setRow k (s0.takenRow u r k)) := .setRow hs0.1 (hd r List.mem_cons_self) hmap.after hmap.mapped _
      have hput : State.RegFrame u dests (s0.setRow k (s0.takenRow u r k)) (s0.turnG u r k) :=
        .putUnit rfl hs0.2 (.setV hinv (hd r List.mem_cons_self) .g)
      have hu1 : (s0.turnG u r k).unit? (u.setV r .g).id = some (u.setV r .g) := State.unit?_putUnit _ (u := u.setV r .g) (v := u) hs0.2
      have hs1 : (s0.turnG u r k).Inv := (hs0.1.setRow k (s0.takenRow u r k)).of_same (State.same_putUnit _ _)
      exact (((State.RegFrame.mapsRow hmap).trans hrow).trans hput).trans
        (.of_setV (ih hs1 (hinv.setV r .g) hu1 (fun x hx => hd x (List.mem_cons_of_mem _ hx)) h))

end State.RegFrame

/-- What a result that is written or owed can do: it keeps the frame and goes on, or traps before it changes anything. -/
def State.Settles (u : SUnit) (dests : List Nat) (s : State) (r : Res) : Prop :=
  (∃ t, r = .done t ∧ State.RegFrame u dests s t) ∨ ∃ c x, r = .trap s c x

/-- A value put once. -/
theorem SUnit.sameBut_putValue {dests : List Nat} {x : SUnit} (hx : x.Inv) {w : Nat × Rv} (hw : w.1 ∈ dests) :
    x.SameBut dests (x.putValue w) ∧ (x.putValue w).Inv ∧ (x.putValue w).id = x.id := by
  unfold SUnit.putValue
  split
  · exact ⟨.setV hx hw _, hx.setV _ _, rfl⟩
  · exact ⟨.setV hx hw _, hx.setV _ _, rfl⟩
  · exact ⟨.refl x, hx, rfl⟩

theorem SUnit.sameBut_putValues {dests : List Nat} {ws : List (Nat × Rv)} : ∀ {x : SUnit}, x.Inv → (∀ w ∈ ws, w.1 ∈ dests) →
    x.SameBut dests (ws.foldl SUnit.putValue x) ∧ (ws.foldl SUnit.putValue x).id = x.id := by
  induction ws with
  | nil => exact fun _ _ => ⟨.refl _, rfl⟩
  | cons w ws ih =>
    intro x hx hd
    obtain ⟨h1, hx1, e1⟩ := x.sameBut_putValue hx (hd w List.mem_cons_self)
    obtain ⟨h2, e2⟩ := ih hx1 fun w hw => hd w (List.mem_cons_of_mem _ hw)
    exact ⟨h1.trans h2, e2.trans e1⟩

/-- A frame for another record of the unit. -/
theorem State.RegFrame.of_unit {u v : SUnit} {dests : List Nat} {s t : State} (h : State.RegFrame v dests s t) (hid : v.id = u.id) (hg : v.group = u.group)
    (hlo : v.lo = u.lo) : State.RegFrame u dests s t := by
  have hgroup (r : State) : r.groupOf v = r.groupOf u := by unfold State.groupOf; rw [hg]
  have hwin (g : Group) : v.window g = u.window g := by unfold SUnit.window; rw [hlo]
  obtain ⟨hold, ⟨others, own⟩, mapped, rows⟩ := h
  simp only [hgroup, hwin, hid] at others own mapped rows
  exact ⟨hold, ⟨others, own⟩, mapped, rows⟩

/-- Lanes written to destinations. -/
theorem State.RegFrame.writeRows {u : SUnit} {dests : List Nat} {mask : BitVec 64} (f : Nat × Rv → List W32) {ws : List (Nat × Rv)} :
    ∀ {s : State}, s.Inv → (∀ w ∈ ws, w.1 ∈ dests) → State.RegFrame u dests s (ws.foldl (fun t w => t.writeLanes u w.1 mask (f w)) s) := by
  induction ws with
  | nil => exact fun _ _ => .refl _
  | cons w ws ih =>
    intro s hs hd
    exact .trans (.writeLanes hs (hd w List.mem_cons_self) mask (f w)) (ih (hs.writeLanes u w.1 mask (f w)) fun w hw => hd w (List.mem_cons_of_mem _ hw))

/-- Rows reserved for registers. -/
theorem State.RegFrame.reserveRows {u : SUnit} {dests : List Nat} : ∀ (rs : List Nat) {s t : State}, s.reserveRows u rs = .ok t → State.RegFrame u dests s t := by
  intro rs
  induction rs with
  | nil =>
    intro s t h
    cases h
    exact .refl _
  | cons r rs ih =>
    intro s t h
    unfold State.reserveRows at h
    split at h
    · cases h
    next g hg =>
    dsimp only at h
    split at h
    · exact ih h
    next hno =>
    split at h
    · cases h
    split at h
    · cases h
    next k _ =>
    exact .trans (.withRow hg (by simpa using hno) k) (ih h)

section Settle
variable {s : State} {u : SUnit} {g : Guard} {ws : List (Nat × Rv)} (hway : u.isStrand = true ∨ (g.isTrue = true ∧ ws.all (fun w => w.2.once) = true))
include hway

/-- A write that its unit can hold. -/
theorem State.writeV_settles (hs : s.Inv) (hinv : u.Inv) (hu : s.unit? u.id = some u) : State.Settles u (ws.map (·.1)) s (s.writeV u g ws .done) := by
  have hmem : ∀ w ∈ ws, w.1 ∈ ws.map (·.1) := fun w hw => List.mem_map_of_mem hw
  rw [State.writeV_eq]
  split
  · exact .inl ⟨s, rfl, .refl s⟩
  split
  · exact .inr ⟨_, _, rfl⟩
  split
  · obtain ⟨hsame, hid⟩ := SUnit.sameBut_putValues (dests := ws.map (·.1)) hinv hmem
    exact .inl ⟨_, rfl, .putUnit hid hu hsame⟩
  next hmany =>
  split
  · next hspan =>
    rcases hway with hstrand | ⟨ht, honce⟩
    · rw [hstrand] at hspan
      cases hspan
    · exact absurd (Bool.and_eq_true_iff.mpr ⟨ht, honce⟩) hmany
  split
  · exact .inr ⟨_, _, rfl⟩
  · next s1 u1 hrows =>
    obtain ⟨tbl, rfl⟩ := State.ensureRows_unit _ hrows
    refine .inl ⟨_, rfl, .trans (.ensureRows _ hs hinv hu (fun _ h => h) hrows) ?_⟩
    exact (State.RegFrame.writeRows (fun w => w.2.lanes u.lo) (hs.ensureRows _ hrows) hmem).of_unit rfl rfl rfl

/-- A result that is owed, which its unit can hold. -/
theorem State.deferV_settles (dests : List Nat) : State.Settles u dests s (s.deferV u g false .ready ws (fun _ s => .done s)) := by
  have hpend (t : State) (wr : List RegWrite) : State.RegFrame u dests t (t.addPend u .ready wr true false false).2 :=
    .of_units ⟨rfl, rfl, rfl, rfl, rfl, rfl⟩ (.of_units rfl) rfl rfl
  unfold State.deferV
  split
  · exact .inr ⟨_, _, rfl⟩
  dsimp only
  split
  · exact .inl ⟨_, rfl, hpend _ _⟩
  next hmany =>
  split
  · next hspan =>
    rcases hway with hstrand | ⟨ht, honce⟩
    · rw [hstrand] at hspan
      cases hspan
    · exact absurd (Bool.and_eq_true_iff.mpr ⟨ht, honce⟩) hmany
  split
  · exact .inr ⟨_, _, rfl⟩
  · next s1 hrows =>
    exact .inl ⟨_, rfl, .trans (.reserveRows _ hrows) (hpend _ _)⟩

end Settle

/-- The end of a word whose result settles. -/
theorem State.Settles.finish {s : State} {i : Issue} {u : SUnit} {dests : List Nat} {r : Res} (h : s.AtHead i u)
    (hspan : u.isStrand = true ∨ s.trapRoutine u = 0) (hr : State.Settles u dests s r) : State.RegFrame u dests s (State.finish i u r) := by
  obtain ⟨t, rfl, hframe⟩ | ⟨c, x, rfl⟩ := hr
  · rw [State.finish_done]
    exact hframe.trans (.advance t h.id_eq)
  · simp only [State.finish, h.unit_self, Option.getD_some]
    exact .trans (.takeTrap h.unit_self hspan ..) (.endClause _ h.id_eq)

theorem RegOp.parts_once (o : RegOp) (lo hi : W32) : (o.parts (.u lo) (.u hi)).all (fun w => w.2.once) = true := by
  unfold RegOp.parts
  cases o.wide <;> rfl

/-- What a register instruction does in a strand, or with U sources under a predicate that is U true. -/
theorem RegOp.body_settles {o : RegOp} (ho : o.Shaped) {s : State} {u : SUnit} (hs : s.Inv) (hinv : u.Inv) (hu : s.unit? u.id = some u)
    (hway : u.isStrand = true ∨ ((o.guard u).isTrue = true ∧ o.uniform s u = true)) : State.Settles u o.dests s (o.body s u) := by
  cases hact : u.anyActive (o.guard u) with
  | false =>
    have hskip : o.body s u = .done s := by
      unfold RegOp.body State.lateResult State.result
      rw [hact]
      cases o.late <;> rfl
    exact .inl ⟨s, hskip, .refl s⟩
  | true =>
    have honce (lo hi : W32) :
        u.isStrand = true ∨ ((o.guard u).isTrue = true ∧ (o.parts (.u lo) (.u hi)).all (fun w => w.2.once) = true) :=
      hway.imp_right fun h => ⟨h.1, o.parts_once lo hi⟩
    cases hlate : o.late with
    | true =>
      unfold RegOp.body State.lateResult
      rw [hlate, hact, if_pos rfl, if_neg (by decide)]
      split
      · exact State.deferV_settles (honce _ _) o.dests
      · next hun =>
        have hstrand : u.isStrand = true := hway.resolve_right fun h => hun h.2
        rw [hstrand]
        exact State.deferV_settles (.inl hstrand) o.dests
    | false =>
      cases hun : o.uniform s u with
      | true =>
        rw [RegOp.body_uniform hlate hact hun, ← o.parts_fst]
        exact State.writeV_settles (honce _ _) hs hinv hu
      | false =>
        have hstrand : u.isStrand = true := hway.resolve_right fun h => by rw [hun] at h; cases h.2
        obtain ⟨lo, hi, hbody, -⟩ := RegOp.writes_body ho hlate hstrand (by simpa [SUnit.anyActive, hstrand] using hact)
        rw [hbody, ← o.parts_fst lo hi]
        exact State.writeV_settles (.inl hstrand) hs hinv hu

/-- Settles O13: what is written or owed keeps the frame, and so do the end of the word and a trap. -/
theorem registerFrame : Obligations.RegisterFrame := by
  unfold Obligations.RegisterFrame
  intro ins o s t i u hop h hs hregs hway hexec
  have hinv : u.Inv := hregs u (List.mem_of_find?_eq_some h.unit)
  have hspan : u.isStrand = true ∨ s.trapRoutine u = 0 := hway.imp_right fun hw => hw.2.2.2
  obtain ⟨r, hrun, hr⟩ : ∃ r, exec ins s = .next (State.finish i u r) ∧ State.Settles u o.dests s r := by
    by_cases hreg : regOp ins = some o
    · refine ⟨_, (exec_regOp hreg s).trans (h.runWord _), RegOp.body_settles (regOp_shaped hreg) hs hinv h.unit_self ?_⟩
      exact hway.imp_right fun ⟨_, hp, hun, _⟩ => ⟨RegOp.isTrue_iff.mpr hp, hun⟩
    · have hstrand : u.isStrand = true := hway.resolve_right fun hw => hreg hw.1
      obtain ⟨-, r, hrun, hnone, hsome⟩ := laneOp_runs (hop.resolve_left hreg) h hstrand
      refine ⟨r, hrun, ?_⟩
      by_cases hmask : (o.guard u).mask = 0
      · exact .inl ⟨s, hnone hmask, .refl s⟩
      · obtain ⟨lo, hi, rfl, -⟩ := hsome hmask
        rw [← o.parts_fst lo hi]
        exact State.writeV_settles (.inl hstrand) hs hinv h.unit_self
  obtain rfl : State.finish i u r = t := by
    rw [hrun] at hexec
    cases hexec
    rfl
  obtain ⟨hold, ⟨hothers, hown⟩, -, hrows⟩ := hr.finish h hspan
  refine ⟨hold.sameBytes, hold.samePads, ?_, ?_, hrows⟩
  · rw [← h.id_eq]
    exact hothers
  · intro u' hu'
    obtain ⟨x, hx, hsame⟩ := hown u' (h.id_eq ▸ hu')
    obtain rfl : u = x := Option.some.inj (h.unit_self.symm.trans hx)
    exact ⟨hsame.v, hsame.p, hsame.k, hsame.x⟩

end Sys2Proof.Machine
end
section
/-! SUPPORT. Results that come late (O10, R105, R256): what they owe at issue, and how they land. -/

namespace Sys2Proof.Machine
set_option Elab.async false

/-! What a special function or division owes. -/

/-- What a value for a destination makes an operation owe. -/
def Rv.owed (w : Nat × Rv) : RegWrite :=
  match w.2 with
  | .u x => .vu w.1 (.u x)
  | .a b st => .vu w.1 (VReg.affine b st)
  | .g _ => .vu w.1 (.u 0)

section Defer
variable {s : State} {u : SUnit} {g : Guard} {ws : List (Nat × Rv)} (hhit : u.regionHit (ws.map (·.1)) [] = none)
include hhit

/-- A late result that is kept once. -/
theorem State.deferV_once (ht : g.isTrue = true) (hws : ws.all (fun w => w.2.once) = true) :
    s.deferV u g false .ready ws (fun _ s => .done s) = .done (s.addPend u .ready (ws.map Rv.owed) true false false).2 := by
  have hplain : (g.isTrue && ws.all (fun w => w.2.once)) = true := Bool.and_eq_true_iff.mpr ⟨ht, hws⟩
  unfold State.deferV
  rw [hhit]
  exact if_pos hplain

/-- A late result with one value for each lane. -/
theorem State.deferV_rows {s1 : State} (hmany : ws.all (fun w => w.2.once) = false) (hs : u.isStrand = true) (hrows : s.reserveRows u (ws.map (·.1)) = .ok s1) :
    s.deferV u g false .ready ws (fun _ s => .done s)
      = .done (s1.addPend u .ready (ws.map (fun w => .vg w.1 u.lo g.mask (w.2.lanes u.lo))) true false false).2 := by
  have hplain : ¬(g.isTrue && ws.all (fun w => w.2.once)) = true := by
    rw [hmany, Bool.and_false]
    decide
  unfold State.deferV
  rw [hhit]
  refine (if_neg hplain).trans ?_
  rw [hs, hrows]
  rfl

end Defer

section Owed
variable {o : RegOp} {s : State} {u : SUnit} (hlate : o.late = true) (hact : u.anyActive (o.guard u) = true) (hhit : u.regionHit o.dests [] = none)
include hlate hact hhit

theorem RegOp.body_late_uniform (ht : (o.guard u).isTrue = true) (hun : o.uniform s u = true) :
    o.body s u = .done (s.addPend u .ready (o.dests.zipIdx.map (fun d => .vu d.1 (.u ((o.value s u u.lo).extractLsb' (32 * d.2) 32)))) true false false).2 := by
  have hbody : o.body s u = s.deferV u (o.guard u) false .ready
      (o.parts (.u ((o.value s u u.lo).extractLsb' 0 32)) (.u ((o.value s u u.lo).extractLsb' 32 32))) (fun _ s => .done s) := by
    unfold RegOp.body State.lateResult
    rw [hlate, hact, hun]
    rfl
  rw [hbody, State.deferV_once (by rw [o.parts_fst]; exact hhit) ht (o.parts_once ..)]
  unfold RegOp.parts RegOp.dests
  cases o.wide <;> rfl

theorem RegOp.body_late_lanes {s1 : State} (hs : u.isStrand = true) (hun : o.uniform s u = false) (hrows : s.reserveRows u o.dests = .ok s1) :
    o.body s u = .done (s1.addPend u .ready (o.dests.zipIdx.map (fun d => .vg d.1 u.lo (o.guard u).mask ((List.range 64).map (fun j =>
      if (o.guard u).mask.getLsbD j then (o.value s u (u.lo + j)).extractLsb' (32 * d.2) 32 else 0)))) true false false).2 := by
  have hbody : o.body s u = s.deferV u (o.guard u) false .ready (o.parts
      (.g ((List.range 64).map (fun j => if (o.guard u).mask.getLsbD j then (o.value s u (u.lo + j)).extractLsb' 0 32 else 0)))
      (.g ((List.range 64).map (fun j => if (o.guard u).mask.getLsbD j then (o.value s u (u.lo + j)).extractLsb' 32 32 else 0)))) (fun _ s => .done s) := by
    unfold RegOp.body State.lateResult
    rw [hlate, hact, hun, hs]
    rfl
  rw [hbody, State.deferV_rows (s1 := s1) (by rw [o.parts_fst]; exact hhit) (by unfold RegOp.parts; cases o.wide <;> rfl) hs (by rw [o.parts_fst]; exact hrows)]
  unfold RegOp.parts RegOp.dests
  cases o.wide <;> rfl

end Owed

/-! Units that do not wait at a JOIN while results land (R101). -/

/-- A unit found by its number waits at a JOIN only if it did before. -/
def State.SameParks (s t : State) : Prop := ∀ k y, t.unit? k = some y → y.parkedAt = none ∨ ∃ x, s.unit? k = some x ∧ y.parkedAt = x.parkedAt

namespace State.SameParks
variable {s t r : State}

theorem of_units (h : t.units = s.units) : s.SameParks t := fun k y hy => .inr ⟨y, by unfold State.unit? at hy ⊢; rwa [h] at hy, rfl⟩

theorem refl (s : State) : s.SameParks s := .of_units rfl

theorem trans (h : s.SameParks t) (h' : t.SameParks r) : s.SameParks r := by
  intro k z hz
  obtain hz | ⟨y, hy, e⟩ := h' k z hz
  · exact .inl hz
  · rw [e]
    exact h k y hy

theorem foldl {α : Type} (f : State → α → State) (hf : ∀ (s : State) (a : α), s.SameParks (f s a)) (l : List α) (s : State) : s.SameParks (l.foldl f s) := by
  induction l generalizing s with
  | nil => exact .refl s
  | cons a l ih => exact (hf s a).trans (ih _)

theorem putUnit {u v : SUnit} (hu : s.unit? u.id = some u) (hid : v.id = u.id) (hw : v.wait = u.wait) : s.SameParks (s.putUnit v) := by
  intro k y hy
  by_cases hk : k = v.id
  · subst hk
    rw [State.unit?_putUnit s (u := v) (hid ▸ hu)] at hy
    cases hy
    exact .inr ⟨u, hid ▸ hu, by unfold SUnit.parkedAt; rw [hw]⟩
  · exact .inr ⟨y, (State.unit?_putUnit_other s hk).symm.trans hy, rfl⟩

theorem unit?_removeUnit_same (s : State) (j : Nat) : (s.removeUnit j).unit? j = none := by
  unfold State.unit? State.removeUnit
  rw [List.find?_eq_none]
  intro x hx
  simpa using (List.mem_filter.mp hx).2

theorem removeUnit (s : State) (j : Nat) : s.SameParks (s.removeUnit j) := by
  intro k y hy
  by_cases hk : k = j
  · subst hk
    rw [unit?_removeUnit_same] at hy
    cases hy
  · exact .inr ⟨y, (State.unit?_removeUnit_other s hk).symm.trans hy, rfl⟩

/-- Every unit changed, none in its number or in what it waits for. -/
theorem mapUnits {f : SUnit → SUnit} (hid : ∀ x, (f x).id = x.id) (hw : ∀ x, (f x).wait = x.wait) (h : t.units = s.units.map f) : s.SameParks t := by
  intro k y hy
  unfold State.unit? at hy
  rw [h, List.find?_map] at hy
  obtain ⟨x, hx, rfl⟩ := Option.map_eq_some_iff.mp hy
  refine .inr ⟨x, ?_, by unfold SUnit.parkedAt; rw [hw]⟩
  rw [← hx]
  exact congrArg (List.find? · s.units) (funext fun x => by rw [Function.comp_apply, hid])

/-- A unit added that does not wait at a JOIN. -/
theorem addUnit {v : SUnit} (hv : v.parkedAt = none) (h : t.units = s.units ++ [v]) : s.SameParks t := by
  intro k y hy
  unfold State.unit? at hy
  rw [h, List.find?_append] at hy
  obtain hy | ⟨-, hy⟩ := Option.or_eq_some_iff.mp hy
  · exact .inr ⟨y, hy, rfl⟩
  · rw [List.mem_singleton.mp (List.mem_of_find?_eq_some hy)]
    exact .inl hv

theorem settleDuties (s : State) : s.SameParks s.settleDuties := .mapUnits (f := fun u => { u with duties := s.dutiesLeft u }) (fun _ => rfl) (fun _ => rfl) s.settleDuties_units

theorem dropPend (s : State) (id : Nat) : s.SameParks (s.dropPend id) := by
  unfold State.dropPend
  refine .trans (.mapUnits (f := fun u => u.trimBatches (fun x => x != id)) (fun _ => rfl) (fun _ => rfl) rfl) (.settleDuties _)

/-- Rows mapped for a unit. -/
theorem ensureRows : ∀ (rs : List Nat) {s t : State} {u v : SUnit}, s.unit? u.id = some u → s.ensureRows u rs = .ok (t, v) → s.SameParks t := by
  intro rs
  induction rs with
  | nil =>
    intro s t u v _ h
    obtain ⟨rfl, rfl⟩ := State.ensureRows_nil h
    exact .refl _
  | cons r rs ih =>
    intro s t u v hu h
    obtain ⟨-, h⟩ | ⟨s0, g, g0, k, -, hmap, h⟩ := State.ensureRows_cons h
    · exact ih hu h
    · have hunits : s0.units = s.units := by
        obtain ⟨rfl, -⟩ | ⟨-, rfl, -⟩ := hmap.cases <;> rfl
      have hu0 : (s0.setRow k (s0.takenRow u r k)).unit? u.id = some u := by
        unfold State.unit?
        show s0.units.find? _ = _
        rw [hunits]
        exact hu
      have hput : s0.SameParks (s0.turnG u r k) := (State.SameParks.of_units rfl).trans (.putUnit (v := u.setV r .g) hu0 rfl rfl)
      exact (State.SameParks.of_units hunits).trans (hput.trans (ih (State.unit?_putUnit _ (u := u.setV r .g) hu0) h))

theorem writeLanes (s : State) (u : SUnit) (r : Nat) (mask : BitVec 64) (vals : List W32) : s.SameParks (s.writeLanes u r mask vals) := by
  refine .of_units ?_
  unfold State.writeLanes
  split
  · rfl
  split
  · rfl
  dsimp only
  split <;> rfl

theorem landWrite (s : State) (uid : Nat) (w : RegWrite) : s.SameParks (s.landWrite uid w) := by
  unfold State.landWrite
  split
  · exact .refl s
  next u hu =>
  have hself : s.unit? u.id = some u := by
    have hid : u.id = uid := by simpa using List.find?_some hu
    rwa [hid]
  cases w with
  | vu r x => exact .putUnit (v := u.setV r x) hself rfl rfl
  | pu r x =>
    have hset : (u.setP r x).id = u.id ∧ (u.setP r x).wait = u.wait := by
      unfold SUnit.setP
      split <;> exact ⟨rfl, rfl⟩
    exact .putUnit hself hset.1 hset.2
  | xacc r x => exact .putUnit (v := u.setX r x) hself rfl rfl
  | vg r lo mask vals =>
    dsimp only
    split
    · exact .refl s
    split
    · exact .refl s
    · next hrows => exact .trans (.ensureRows _ hself hrows) (.writeLanes _ _ _ _ _)

theorem strandsFor (u : SUnit) (g : Group) (at_ : Option Nat) : ∀ (ws : List Nat) (own : Option Nat) {s t : State} {ids : List Nat},
    s.strandsFor u g at_ own ws = some (t, ids) → s.SameParks t := by
  intro ws
  induction ws with
  | nil =>
    intro own s t ids h
    cases h
    exact .refl _
  | cons w ws ih =>
    intro own s t ids h
    unfold State.strandsFor at h
    dsimp only at h
    split at h
    · cases h
    split at h
    · cases h
    next h1 =>
    cases h
    exact .trans (.addUnit rfl rfl) (ih _ h1)

theorem materialise {u : SUnit} (h : s.materialise u = some t) : s.SameParks t := by
  unfold State.materialise at h
  split at h
  · cases h
  dsimp only at h
  split at h
  · cases h
  next s1 ids h1 =>
  cases h
  have hpub (c : Bool) : s.SameParks (if c then s.publish u.core 1 else s) := by
    cases c
    · exact .refl s
    · exact .of_units rfl
  exact (hpub _).trans ((State.SameParks.strandsFor u _ _ _ _ h1).trans (.trans (.of_units rfl) (.removeUnit _ _)))

theorem landAll (s : State) (o : PendOp) (t : Nat) : s.SameParks (s.landAll o t) := by
  have hland (ids : List Nat) (s1 : State) : s1.SameParks (ids.foldl (fun s i => o.writes.foldl (fun s w => s.landWrite i w) s) s1) :=
    .foldl _ (fun s i => .foldl _ (fun s w => .landWrite s i w) _ s) _ s1
  unfold State.landAll
  split
  · exact .refl s
  next ids s1 hl =>
  refine .trans ?_ (hland ids s1)
  unfold State.landing at hl
  dsimp only at hl
  split at hl
  · cases hl
    exact .refl _
  split at hl
  · cases hl
    exact .refl _
  · obtain ⟨s2, h2, he⟩ := Option.map_eq_some_iff.mp hl
    cases he
    exact .materialise h2

theorem landTargets (s : State) (o : PendOp) : s.SameParks (s.landTargets o).1 := by
  have h (ts : List Nat) (acc : State × List Nat) : acc.1.SameParks (ts.foldl (fun (acc : State × List Nat) t =>
      if acc.1.withheld o t then (acc.1, acc.2 ++ [t]) else (acc.1.landAll o t, acc.2)) acc).1 := by
    induction ts generalizing acc with
    | nil => exact .refl _
    | cons t ts ih =>
      rw [List.foldl_cons]
      refine .trans ?_ (ih _)
      split
      · exact .refl _
      · exact .landAll _ _ _
  exact h o.targets (s, [])

end State.SameParks

/-! Landing (R256). -/

/-- Units that do not wait at a JOIN are settled by no result that lands. -/
theorem afterLanding_of_unparked {s : State} : ∀ (ts : List Nat), (∀ t ∈ ts, ∀ u, s.unit? t = some u → u.parkedAt = none) →
    ts.foldl (fun s t => match s.unit? t with
      | some u => if u.parkedAt.isSome then s.afterSide u else s
      | none => s) s = s := by
  intro ts
  induction ts with
  | nil => exact fun _ => rfl
  | cons t ts ih =>
    intro h
    have hstep : (match s.unit? t with
        | some u => if u.parkedAt.isSome then s.afterSide u else s
        | none => s) = s := by
      split
      · next u hu => rw [h t List.mem_cons_self u hu]; rfl
      · rfl
    rw [List.foldl_cons, hstep]
    exact ih fun t ht => h t (List.mem_cons_of_mem _ ht)

section Land
variable {s : State} {o : PendOp} (hfind : s.pend.find? (fun x => x.id == o.id) = some o) (hready : o.wait = .ready)
include hfind hready

/-- A result that lands in every unit. -/
theorem exec_result_lands (hfree : ∀ t ∈ o.targets, ∀ u, s.unit? t = some u → u.parkedAt = none) (hall : (s.landTargets o).2 = []) :
    exec (.longLatencyResult o.id) s = .next ((s.landTargets o).1.dropPend o.id) := by
  have hparks : s.SameParks ((s.landTargets o).1.dropPend o.id) := .trans (.landTargets s o) (.dropPend _ _)
  have hrest := afterLanding_of_unparked (s := (s.landTargets o).1.dropPend o.id) o.targets fun t ht u hu => by
    obtain h | ⟨x, hx, e⟩ := hparks t u hu
    · exact h
    · rw [e]
      exact hfree t ht x hx
  show execLongLatencyResult o.id s = _
  unfold execLongLatencyResult State.pendDone
  rw [hfind]
  dsimp only
  rw [hall, hready]
  have hnow : o.targets.filter (fun t => !([] : List Nat).contains t) = o.targets := List.filter_eq_self.mpr fun _ _ => rfl
  rw [hnow]
  exact (if_neg (by simp)).trans (congrArg Host.Outcome.next hrest)

/-- A result that can land in no unit yet. -/
theorem exec_result_waits (hnone : (s.landTargets o).2 = o.targets) (hne : o.targets ≠ []) : exec (.longLatencyResult o.id) s = .next s := by
  have hnow : o.targets.filter (fun t => !o.targets.contains t) = [] := by
    rw [List.filter_eq_nil_iff]
    intro t ht
    simpa using ht
  have hsome : o.targets.isEmpty = false := by simpa using hne
  show execLongLatencyResult o.id s = _
  unfold execLongLatencyResult State.pendDone
  rw [hfind]
  dsimp only
  rw [hnone, hready, hnow, hsome]
  rfl

end Land

section LandStrand
variable {s : State} {o : PendOp} {t : Nat} {u : SUnit} (hu : s.unit? t = some u) (hs : u.isStrand = true)
include hu hs

theorem landing_strand : s.landing o t = some ([t], s) := by
  unfold State.landing
  rw [hu]
  exact if_pos (Bool.or_eq_true_iff.mpr (.inl hs))

theorem landAll_strand : s.landAll o t = o.writes.foldl (fun s w => s.landWrite t w) s := by
  unfold State.landAll
  rw [landing_strand hu hs]
  rfl

variable (hsaved : ∀ g, s.groupOf u = some g → g.state ≠ .saved)
include hsaved

theorem withheld_strand : s.withheld o t = s.within o t := by
  have hg : (match (s.unit? t).bind s.groupOf with | some g => g.state == .saved | none => false) = false := by
    rw [hu]
    show (match s.groupOf u with | some g => g.state == .saved | none => false) = false
    split
    · next g hg => exact beq_false_of_ne (hsaved g hg)
    · rfl
  unfold State.withheld
  rw [landing_strand hu hs]
  exact (congrArg _ hg).trans ((Bool.or_false _).trans (Bool.or_false _))

theorem landTargets_strand (htargets : o.targets = [t]) : s.landTargets o = if s.within o t then (s, [t]) else (s.landAll o t, []) := by
  unfold State.landTargets
  rw [htargets, List.foldl_cons, List.foldl_nil, withheld_strand hu hs hsaved]
  rfl

end LandStrand

end Sys2Proof.Machine
end
section
/-! SUPPORT. The values of the special functions (O10, R314-R316): the table of special operands, the operands with an exact value, and the bounds. -/

namespace Sys2Proof.Machine
set_option Elab.async false

theorem ieee_of_mem_sfu {f : Ffmt} (h : f ∈ [fmtF16, fmtBf16, fmtF32, fmtF64]) : f.Ieee := by
  have hall : ∀ f ∈ [fmtF16, fmtBf16, fmtF32, fmtF64], f.top = .ieee ∧ 2 ≤ f.ew ∧ 1 ≤ f.fw := by decide
  obtain ⟨htop, hew, hfw⟩ := hall f h
  exact ⟨htop, hew, hfw⟩

theorem narrow_of_mem {f : Ffmt} (h : f = fmtF16 ∨ f = fmtBf16) : f.width ≤ 16 := by
  obtain rfl | rfl := h <;> decide

theorem wide_of_mem {f : Ffmt} (h : f = fmtF32 ∨ f = fmtF64) : ¬ f.width ≤ 16 := by
  obtain rfl | rfl := h <;> decide

namespace Ffmt
variable {f : Ffmt}

/-- A zero of either sign. -/
theorem Ieee.decode_signBit (hf : f.Ieee) (neg : Bool) : f.decode (f.signBit neg) = .fin neg 0 (1 - (f.bias : Int) - f.fw) := by
  have hew : 2 ^ 2 ≤ 2 ^ f.ew := Nat.pow_le_pow_right (by decide) hf.ew
  have h := hf.decode_signBit_add neg (k := 0) (Nat.two_pow_pos _)
  rw [Nat.add_zero, Nat.zero_div, Nat.zero_mod, if_neg (by omega), if_pos rfl] at h
  exact h

theorem Ieee.decode_zero (hf : f.Ieee) : f.decode 0 = .fin false 0 (1 - (f.bias : Int) - f.fw) := hf.decode_signBit false

/-- A finite value's bits: its sign and the place of its magnitude. -/
theorem Ieee.finite_bits (hf : f.Ieee) {bits : Nat} (hb : bits < 2 ^ f.width) {n : Bool} {m : Nat} {e : Int} (h : f.decode bits = .fin n m e) :
    ∃ k ≤ f.maxBits, bits = f.signBit n + k ∧ (Fv.fin n m e).val = signed n (f.level k) := by
  have hfin : (f.decode bits).isFin = true := by rw [h]; rfl
  have hn : bits.testBit (f.ew + f.fw) = n := by rw [← sign_decode hfin, h]; rfl
  have hmod : bits % 2 ^ (f.ew + f.fw) < 2 ^ (f.ew + f.fw) := Nat.mod_lt _ (Nat.two_pow_pos _)
  have hsplit := eq_signBit_add hb
  rw [hn] at hsplit
  have hk := hf.le_maxBits hmod (hsplit ▸ hfin)
  refine ⟨bits % 2 ^ (f.ew + f.fw), hk, hsplit, ?_⟩
  rw [← h, hsplit, hf.val_decode n hk, ← hsplit]

/-- A magnitude of the format that is rounded stays. -/
theorem Ieee.eq_of_rounds_level (hf : f.Ieee) {sat neg : Bool} {k r : Nat} (hk : k ≤ f.maxBits) (h : f.Rounds .rne sat (signed neg (f.level k)) neg r) :
    r = f.signBit neg + k := by
  have hin : f.decode r ≠ .inf neg := fun hinf =>
    ((hf.overflows_iff (roundsTo_level f.level_strictMono .rne neg k) (f.level_nonneg k)).mp (h.infinite.mp hinf).2).2.not_ge hk
  have hfin : (f.decode r).isFin = true := h.finite.resolve_left hin
  obtain ⟨n, m, e, hd⟩ := Fv.isFin_iff.mp hfin
  obtain ⟨k', hk', hr, hval⟩ := hf.finite_bits h.bits hd
  have hn : n = neg := by rw [← h.sign, ← sign_decode hfin, hd]; rfl
  subst hn
  have hnear := (h.nearest rfl hfin (signed n (f.level k)) (hf.represents_iff.mpr ⟨n, k, hk, rfl⟩)).1
  rw [hd, hval, magnitude_signed_sub, magnitude_signed_sub, sub_self, abs_zero] at hnear
  have hlevel : f.level k = f.level k' := sub_eq_zero.mp (abs_nonpos_iff.mp hnear)
  rw [hr, f.level_strictMono.injective hlevel]

/-- A finite value of the format is encoded by its own bits. -/
theorem Ieee.encode_decode (hf : f.Ieee) {bits : Nat} (hb : bits < 2 ^ f.width) {n : Bool} {m : Nat} {e : Int} (h : f.decode bits = .fin n m e) (sat : Bool) :
    f.encode .rne sat (.fin n m e) = bits := by
  obtain ⟨k, hk, hbits, hval⟩ := hf.finite_bits hb h
  have hr := hf.rounds_encode .rne sat n m e
  rw [hval] at hr
  rw [hf.eq_of_rounds_level hk hr, hbits]

end Ffmt

/-! The table of special operands (R316). -/

/-- How many units the bound of a function allows: one of the absolute bound, where it has one. -/
def SfuOp.units (op : SfuOp) (x : Fv) : Nat :=
  match op.absBound x with
  | some _ => 1
  | none => op.ulps

section Special
variable {f : Ffmt} {op : SfuOp} {sat : Bool} {bits : Nat}

theorem eval_special {x : Fv} (h : op.special (f.decode bits) = some x) : op.eval f sat bits = f.encode .rne sat x := by
  unfold SfuOp.eval
  dsimp only
  rw [h]

section Ordinary
variable {n : Bool} {m : Nat} {e : Int} (hd : f.decode bits = .fin n m e) (h : op.special (.fin n m e) = none)
include hd h

/-- A 16-bit result is rounded once (R315). -/
theorem eval_narrow (hw : f.width ≤ 16) : op.eval f sat bits = f.roundReal .rne sat (op.value n m e) := by
  unfold SfuOp.eval
  dsimp only
  rw [hd, h]
  exact if_pos hw

/-- A wider result at an operand where the function is exact. -/
theorem eval_wide_exact (hw : ¬ f.width ≤ 16) {y : Fv} (hy : op.exact (.fin n m e) (op.value n m e) = some y) :
    op.eval f sat bits = f.encode .rne sat y := by
  unfold SfuOp.eval
  dsimp only
  rw [hd, h]
  refine (if_neg hw).trans ?_
  rw [hy]

/-- A wider result elsewhere: rounded once, or a value within the bound. -/
theorem eval_wide_eq (hw : ¬ f.width ≤ 16) (hy : op.exact (.fin n m e) (op.value n m e) = none) :
    ∃ (c : Bool) (cand : Nat), op.eval f sat bits
      = if c && f.within (op.units (.fin n m e)) (op.absBound (.fin n m e)) (f.decode cand) (op.value n m e) then cand
        else f.roundReal .rne sat (op.value n m e) := by
  unfold SfuOp.eval
  dsimp only
  rw [hd, h]
  dsimp only
  rw [if_neg hw, hy]
  exact ⟨_, _, rfl⟩

theorem eval_wide_bounded (hw : ¬ f.width ≤ 16) (hy : op.exact (.fin n m e) (op.value n m e) = none) :
    op.eval f sat bits = f.roundReal .rne sat (op.value n m e)
    ∨ f.within (op.units (.fin n m e)) (op.absBound (.fin n m e)) (f.decode (op.eval f sat bits)) (op.value n m e) = true := by
  obtain ⟨c, cand, hr⟩ := eval_wide_eq (sat := sat) hd h hw hy
  rw [hr]
  split
  · next hc => exact .inr (Bool.and_eq_true_iff.mp hc).2
  · exact .inl rfl

/-- A result where the function is exact, of any width. -/
theorem eval_exact (hy : (op.value n m e).sticky = false)
    (hex : op.exact (.fin n m e) (op.value n m e) = some (.fin (op.value n m e).neg (op.value n m e).mag (op.value n m e).exp)) :
    op.eval f sat bits = f.encode .rne sat (.fin (op.value n m e).neg (op.value n m e).mag (op.value n m e).exp) := by
  by_cases hw : f.width ≤ 16
  · rw [eval_narrow hd h hw, Ffmt.roundReal, hy]
    rfl
  · exact eval_wide_exact hd h hw hex

end Ordinary

end Special

/-! Operands with an exact value (R315). -/

/-- A dyadic that is an integer, in fixed point. -/
theorem toFix_of_integer {m : Nat} {e : Int} {K : Nat} (h : (m : Rat) * 2 ^ e = K) (p : Nat) : toFix p m e = K * 2 ^ p := by
  have hcast : (m : Rat) * 2 ^ (e + p) = (K * 2 ^ p : Nat) := by
    rw [zpow_add₀ two_ne_zero, ← mul_assoc, h, zpow_natCast]
    push_cast
    ring
  unfold toFix
  split
  · next hge =>
    obtain ⟨q, hq⟩ := Int.eq_ofNat_of_zero_le hge
    rw [hq, zpow_natCast] at hcast
    rw [hq, Int.toNat_natCast, Nat.shiftLeft_eq]
    exact_mod_cast hcast
  · next hlt =>
    obtain ⟨q, hq⟩ := Int.eq_ofNat_of_zero_le (a := -(e + p)) (by omega)
    have hm : (m : Rat) = (K * 2 ^ p * 2 ^ q : Nat) := by
      rw [Nat.cast_mul, ← hcast, mul_assoc, show e + p = -(q : Int) by omega, zpow_neg, zpow_natCast]
      push_cast
      field_simp
    have hm : m = K * 2 ^ p * 2 ^ q := by exact_mod_cast hm
    rw [hq, Int.toNat_natCast, Nat.shiftRight_eq_div_pow, hm, Nat.mul_div_cancel _ (Nat.two_pow_pos q)]

/-- A dyadic that is an integer has no places left. -/
theorem mod_of_integer {m : Nat} {e : Int} {K : Nat} (h : (m : Rat) * 2 ^ e = K) (he : e < 0) : m % 2 ^ (-e).toNat = 0 := by
  obtain ⟨q, hq⟩ := Int.eq_ofNat_of_zero_le (a := -e) (by omega)
  have hm : (m : Rat) = (K * 2 ^ q : Nat) := by
    rw [Nat.cast_mul, ← h, mul_assoc, show e = -(q : Int) by omega, zpow_neg, zpow_natCast]
    push_cast
    field_simp
  have hm : m = K * 2 ^ q := by exact_mod_cast hm
  rw [hq, Int.toNat_natCast, hm, Nat.mul_mod_left]

/-- The binade of a magnitude. -/
theorem mem_binade {m : Nat} (hm : m ≠ 0) (e : Int) : (2 : Rat) ^ ilog2 m e ≤ m * 2 ^ e ∧ (m : Rat) * 2 ^ e < 2 ^ (ilog2 m e + 1) :=
  (standsFor_exact m e).mem_binade hm

theorem exp2Real_integer {n : Bool} {m : Nat} (hm : m ≠ 0) {e : Int} {K : Nat} (h : (m : Rat) * 2 ^ e = K) (hK : K < 4096) :
    exp2Real n m e = ⟨false, 1, if n then -(K : Int) else K, false⟩ := by
  have hlog : ¬ 12 < ilog2 m e := by
    intro hlt
    have h1 := (mem_binade hm e).1
    have h2 : (2 : Rat) ^ (12 : Int) ≤ 2 ^ ilog2 m e := zpow_le_zpow_right₀ one_le_two hlt.le
    have h3 : (K : Rat) < 4096 := by exact_mod_cast hK
    rw [h] at h1
    norm_num at h2
    linarith
  have hexact : (decide (0 ≤ e) || m % 2 ^ (-e).toNat == 0) = true := by
    by_cases he : 0 ≤ e
    · rw [decide_eq_true he]
      rfl
    · rw [mod_of_integer h (by omega)]
      exact Bool.or_true _
  unfold exp2Real
  rw [if_neg hm, if_neg hlog]
  dsimp only
  rw [if_pos hexact, toFix_of_integer h, Nat.shiftRight_eq_div_pow, Nat.mul_div_cancel _ (Nat.two_pow_pos _)]

theorem log2Real_power {m : Nat} (hm : m ≠ 0) {e k : Int} (h : (m : Rat) * 2 ^ e = 2 ^ k) : log2Real m e = ⟨decide (k < 0), k.natAbs, 0, false⟩ := by
  have hlog : ilog2 m e = k := by
    obtain ⟨h1, h2⟩ := mem_binade hm e
    rw [h] at h1 h2
    have := (zpow_le_zpow_iff_right₀ one_lt_two).mp h1
    have := (zpow_lt_zpow_iff_right₀ one_lt_two).mp h2
    omega
  have hone : (m : Rat) * 2 ^ (e - ilog2 m e) = (1 : Nat) := by
    rw [hlog, zpow_sub₀ two_ne_zero, ← mul_div_assoc, h, div_self (by positivity), Nat.cast_one]
  have hfix : toFix fixBits m (e - ilog2 m e) = 1 <<< fixBits := by rw [toFix_of_integer hone, Nat.shiftLeft_eq]
  unfold log2Real
  dsimp only
  rw [if_pos hfix, hlog]

/-! The bound of a function (R315). -/

/-- The unit of a bound, as a power of two. -/
def Ffmt.boundUnit (f : Ffmt) (absExp : Option Int) (y : Approx) : Int :=
  match absExp with
  | some a => a
  | none => max (if y.mag = 0 then 1 - (f.bias : Int) else ilog2 y.mag y.exp) (1 - (f.bias : Int)) - f.fw

/-- A value within a bound lies no further from the number than the bound. -/
theorem within_le {f : Ffmt} {N : Nat} {absExp : Option Int} {cand : Fv} {y : Approx} (h : f.within N absExp cand y = true) :
    cand.isFin = true ∧ magnitude (cand.val - (Fv.fin y.neg y.mag y.exp).val) ≤ N * 2 ^ f.boundUnit absExp y := by
  cases cand with
  | nan => cases h
  | inf n => cases h
  | fin cn cm ce =>
    refine ⟨rfl, ?_⟩
    rw [← scaledInt_cast cn cm (min_le_left ce y.exp), ← scaledInt_cast y.neg y.mag (min_le_right ce y.exp), ← sub_mul, ← Int.cast_sub, magnitude_eq_abs,
      abs_mul, abs_of_pos (a := (2 : Rat) ^ (min ce y.exp)) (by positivity), ← Int.cast_abs, Int.abs_eq_natAbs, Int.cast_natCast]
    have h : (if f.boundUnit absExp y < min ce y.exp then (scaledInt cn cm ce (min ce y.exp) - scaledInt y.neg y.mag y.exp (min ce y.exp)).natAbs == 0
        else decide ((scaledInt cn cm ce (min ce y.exp) - scaledInt y.neg y.mag y.exp (min ce y.exp)).natAbs
          ≤ N * 2 ^ (f.boundUnit absExp y - min ce y.exp).toNat)) = true := h
    generalize (scaledInt cn cm ce (min ce y.exp) - scaledInt y.neg y.mag y.exp (min ce y.exp)).natAbs = d at h ⊢
    generalize min ce y.exp = e0 at h ⊢
    split at h
    · rw [beq_iff_eq.mp h, Nat.cast_zero, zero_mul]
      positivity
    · next hu =>
      obtain ⟨q, hq⟩ := Int.eq_ofNat_of_zero_le (a := f.boundUnit absExp y - e0) (by omega)
      rw [hq, Int.toNat_natCast] at h
      have hd : (d : Rat) ≤ N * 2 ^ q := by exact_mod_cast of_decide_eq_true h
      rw [show f.boundUnit absExp y = q + e0 by omega, zpow_add₀ two_ne_zero, zpow_natCast, ← mul_assoc]
      exact mul_le_mul_of_nonneg_right hd (by positivity)

/-- The unit of a relative bound is that of the binade of the number. -/
theorem boundUnit_of_log2 {f : Ffmt} {y : Approx} {l : Int} (h : Log2Of (magnitude (Fv.fin y.neg y.mag y.exp).val) l) :
    f.boundUnit none y = max l (1 - (f.bias : Int)) - f.fw := by
  obtain ⟨hle, hlt⟩ := h
  rw [Fv.val_fin, magnitude_signed _ (by positivity)] at hle hlt
  have hmag : y.mag ≠ 0 := by
    intro h0
    rw [h0, Nat.cast_zero, zero_mul] at hle
    exact (by positivity : (0 : Rat) < 2 ^ l).not_ge hle
  have hl : ilog2 y.mag y.exp = l := by
    obtain ⟨hle', hlt'⟩ := mem_binade hmag y.exp
    have h1 := (zpow_lt_zpow_iff_right₀ (one_lt_two (α := Rat))).mp (hle'.trans_lt hlt)
    have h2 := (zpow_lt_zpow_iff_right₀ (one_lt_two (α := Rat))).mp (hle.trans_lt hlt')
    omega
  show max (if y.mag = 0 then _ else _) _ - _ = _
  rw [if_neg hmag, hl]

/-- The bound of a function in the terms of R315: the absolute one where it has one, else so many units of the number's binade. -/
theorem bound_of_units {f : Ffmt} {op : SfuOp} {x : Fv} {y : Approx} {d : Rat} (h : d ≤ op.units x * 2 ^ f.boundUnit (op.absBound x) y) :
    match op.absBound x with
    | some k => d ≤ 2 ^ k
    | none => ∀ l, Log2Of (magnitude (Fv.fin y.neg y.mag y.exp).val) l → d ≤ op.ulps * 2 ^ (max l (1 - (f.bias : Int)) - f.fw) := by
  unfold SfuOp.units at h
  cases habs : op.absBound x with
  | some k =>
    rw [habs] at h
    exact h.trans_eq (by rw [Nat.cast_one, one_mul]; rfl)
  | none =>
    intro l hl
    rw [habs] at h
    rw [← boundUnit_of_log2 hl]
    exact h

/-- The reciprocal that the model computes: 199 bits at least, and no more than the exact one, less by less than its last place. -/
theorem rcp_value {n : Bool} {m : Nat} (hm : m ≠ 0) (e : Int) :
    let y := SfuOp.rcp.value n m e
    y.neg = n ∧ 2 ^ 199 ≤ y.mag ∧ (Fv.fin false y.mag y.exp).val * (Fv.fin false m e).val ≤ 1
      ∧ 1 < (Fv.fin false (y.mag + 1) y.exp).val * (Fv.fin false m e).val := by
  intro y
  have hlog : 199 ≤ y.mag.log2 := log2_divReal n 0 e one_ne_zero hm
  have hmag : y.mag ≠ 0 := fun h0 => by rw [h0] at hlog; simp at hlog
  obtain ⟨d, h0, h1, -, hy⟩ := standsFor_divReal n 1 m 0 e hm
  have hy : ((1 : Nat) : Rat) * 2 ^ (0 : Int) / (m * 2 ^ e) = (y.mag + d) * 2 ^ y.exp := hy
  have hpos : (0 : Rat) < m * 2 ^ e := mul_pos (by exact_mod_cast Nat.pos_of_ne_zero hm) (by positivity)
  have hone : (1 : Rat) = (y.mag + d) * 2 ^ y.exp * (m * 2 ^ e) := by
    rw [← hy, Nat.cast_one, zpow_zero, mul_one, one_div, inv_mul_cancel₀ hpos.ne']
  have hexp : (0 : Rat) < 2 ^ y.exp := by positivity
  refine ⟨rfl, (Nat.le_log2 hmag).mp hlog, ?_, ?_⟩
  · rw [Fv.val_fin, Fv.val_fin, signed_false, signed_false]
    conv_rhs => rw [hone]
    exact mul_le_mul_of_nonneg_right (mul_le_mul_of_nonneg_right (by linarith) hexp.le) hpos.le
  · rw [Fv.val_fin, Fv.val_fin, signed_false, signed_false]
    conv_lhs => rw [hone]
    exact mul_lt_mul_of_pos_right (mul_lt_mul_of_pos_right (by push_cast; linarith) hexp) hpos

/-! The rows of R316's table. -/

/-- A function with what it gives at the infinities and at the zeros. -/
structure SpecialRow (row : SfuOp × Fv × Fv × Fv × Fv) : Prop where
  nan : row.1.special .nan = some .nan
  plusInf : row.1.special (.inf false) = some row.2.1
  minusInf : row.1.special (.inf true) = some row.2.2.1
  plusZero : ∀ e, row.1.special (.fin false 0 e) = some row.2.2.2.1
  minusZero : ∀ e, row.1.special (.fin true 0 e) = some row.2.2.2.2

theorem specialRow_of_mem {row : SfuOp × Fv × Fv × Fv × Fv}
    (h : row ∈ ([(.rcp, .fin false 0 0, (Fv.fin false 0 0).neg, .inf false, .inf true), (.rsq, .fin false 0 0, .nan, .inf false, .inf true),
      (.exp2, .inf false, .fin false 0 0, .fin false 1 0, .fin false 1 0), (.log2, .inf false, .nan, .inf true, .inf true),
      (.sin, .nan, .nan, .fin false 0 0, (Fv.fin false 0 0).neg), (.cos, .nan, .nan, .fin false 1 0, .fin false 1 0),
      (.tanh, .fin false 1 0, (Fv.fin false 1 0).neg, .fin false 0 0, (Fv.fin false 0 0).neg)] : List (SfuOp × Fv × Fv × Fv × Fv))) : SpecialRow row := by
  simp only [List.mem_cons, List.not_mem_nil, or_false] at h
  rcases h with rfl | rfl | rfl | rfl | rfl | rfl | rfl <;> exact ⟨rfl, rfl, rfl, fun _ => rfl, fun _ => rfl⟩

theorem SpecialRow.eval {row : SfuOp × Fv × Fv × Fv × Fv} (h : SpecialRow row) {f : Ffmt} (hf : f.Ieee) (sat : Bool) (bits : Nat) :
    let r := row.1.eval f sat bits
    (f.decode bits = .nan → r = f.nanBits) ∧ (f.decode bits = .inf false → r = f.encode .rne sat row.2.1) ∧ (f.decode bits = .inf true → r = f.encode .rne sat row.2.2.1)
    ∧ (bits = 0 → r = f.encode .rne sat row.2.2.2.1) ∧ (bits = f.signBit true → r = f.encode .rne sat row.2.2.2.2) := by
  refine ⟨fun hd => ?_, fun hd => ?_, fun hd => ?_, fun hb => ?_, fun hb => ?_⟩
  · exact eval_special (x := .nan) (by rw [hd]; exact h.nan)
  · exact eval_special (by rw [hd]; exact h.plusInf)
  · exact eval_special (by rw [hd]; exact h.minusInf)
  · exact eval_special (by rw [hb, hf.decode_zero]; exact h.plusZero _)
  · exact eval_special (by rw [hb, hf.decode_signBit true]; exact h.minusZero _)

/-- The square root at the special operands (R316). -/
theorem sqrt_special {f : Ffmt} (hf : f.Ieee) (rm : Rm) (sat : Bool) (bits : Nat) :
    (f.decode bits = .nan → f.sqrt rm sat bits = f.nanBits) ∧ (f.decode bits = .inf false → f.sqrt rm sat bits = f.encode rm sat (.inf false))
    ∧ (f.decode bits = .inf true → f.sqrt rm sat bits = f.nanBits) ∧ (bits = 0 ∨ bits = f.signBit true → f.sqrt rm sat bits = bits) := by
  unfold Ffmt.sqrt
  refine ⟨fun h => ?_, fun h => ?_, fun h => ?_, fun h => ?_⟩
  · rw [h]
  · rw [h]
    rfl
  · rw [h]
    rfl
  · obtain rfl | rfl := h
    · rw [hf.decode_zero]
      rfl
    · rw [hf.decode_signBit true]
      rfl

/-- A finite value below zero is negative and no zero. -/
theorem neg_of_val_neg {n : Bool} {m : Nat} {e : Int} (h : (Fv.fin n m e).val < 0) : n = true ∧ m ≠ 0 := by
  have hm : m ≠ 0 := fun h0 => by rw [h0, val_fin_zero] at h; exact lt_irrefl _ h
  rw [Fv.val_fin] at h
  cases n with
  | true => exact ⟨rfl, hm⟩
  | false => exact absurd h (not_lt.mpr (by rw [signed_false]; positivity))

/-! A function at an operand of a format (R315, R316). -/

theorem special_of_ne_zero {op : SfuOp} {n : Bool} {m : Nat} (hm : m ≠ 0) (e : Int) :
    op.special (.fin n m e) = if (op = .rsq ∨ op = .log2) ∧ n = true then some .nan else none := by
  show (if m = 0 then _ else _) = _
  rw [if_neg hm]
  cases op <;> cases n <;> rfl

theorem ne_zero_of_special {op : SfuOp} {n : Bool} {m : Nat} {e : Int} (h : op.special (.fin n m e) = none) : m ≠ 0 := by
  rintro rfl
  cases op <;> exact absurd h (Option.some_ne_none _)

section At
variable {f : Ffmt} {bits : Nat} {n : Bool} {m : Nat} {e : Int} (hd : f.decode bits = .fin n m e) (sat : Bool)
include hd

theorem eval_negative (hv : (Fv.fin n m e).val < 0) {op : SfuOp} (hop : op = .rsq ∨ op = .log2) : op.eval f sat bits = f.nanBits := by
  obtain ⟨hn, hm⟩ := neg_of_val_neg hv
  exact eval_special (x := .nan) (by rw [hd, special_of_ne_zero hm, if_pos ⟨hop, hn⟩])

theorem sqrt_negative (hv : (Fv.fin n m e).val < 0) (rm : Rm) : f.sqrt rm sat bits = f.nanBits := by
  obtain ⟨rfl, hm⟩ := neg_of_val_neg hv
  unfold Ffmt.sqrt
  rw [hd]
  exact if_neg hm

theorem exp2_eval_integer {k : Int} (hk : k.natAbs < 4096) (hv : (Fv.fin n m e).val = k) :
    SfuOp.exp2.eval f sat bits = f.encode .rne sat (.fin false 1 k) := by
  by_cases hm : m = 0
  · subst hm
    rw [val_fin_zero, eq_comm, Int.cast_eq_zero] at hv
    subst hv
    exact eval_special (by rw [hd]; rfl)
  · have hpos : (0 : Rat) < m * 2 ^ e := mul_pos (Nat.cast_pos.mpr (Nat.pos_of_ne_zero hm)) (by positivity)
    have hmag : (m : Rat) * 2 ^ e = k.natAbs := by
      rw [← magnitude_signed n hpos.le, ← Fv.val_fin, hv, magnitude_eq_abs, Nat.cast_natAbs, Int.cast_abs]
    have hexp : (if n then -(k.natAbs : Int) else k.natAbs) = k := by
      rw [Fv.val_fin] at hv
      cases n with
      | true =>
        have hlt : k < 0 := by rw [← Int.cast_lt_zero (R := Rat), ← hv]; exact neg_lt_zero.mpr hpos
        exact (by omega : -(k.natAbs : Int) = k)
      | false =>
        have hlt : 0 < k := by rw [← Int.cast_pos (R := Rat), ← hv]; exact hpos
        exact (by omega : (k.natAbs : Int) = k)
    have hy : SfuOp.exp2.value n m e = ⟨false, 1, k, false⟩ := (exp2Real_integer hm hmag hk).trans (by rw [hexp])
    rw [eval_exact hd (special_of_ne_zero hm e) (by rw [hy]) (by rw [hy]; rfl), hy]

theorem log2_eval_power {k : Int} (hv : (Fv.fin n m e).val = 2 ^ k) : SfuOp.log2.eval f sat bits = f.encode .rne sat (.ofInt k) := by
  have hpos : (0 : Rat) < (Fv.fin n m e).val := by rw [hv]; positivity
  have hm : m ≠ 0 := fun h0 => by rw [h0, val_fin_zero] at hpos; exact lt_irrefl _ hpos
  obtain rfl : n = false := by
    rw [Fv.val_fin] at hpos
    cases n with
    | false => rfl
    | true => exact absurd hpos (not_lt.mpr (neg_nonpos.mpr (by positivity)))
  have hy : SfuOp.log2.value false m e = ⟨decide (k < 0), k.natAbs, 0, false⟩ := log2Real_power hm (by rw [← hv, Fv.val_fin, signed_false])
  rw [eval_exact hd (special_of_ne_zero hm e) (by rw [hy]) (by rw [hy]; rfl), hy]
  rfl

theorem sin_eval_small (hf : f.Ieee) (hb : bits < 2 ^ f.width) (hw : ¬ f.width ≤ 16) (hv : magnitude (Fv.fin n m e).val < 2 ^ (-12 : Int)) :
    SfuOp.sin.eval f sat bits = bits := by
  by_cases hm : m = 0
  · subst hm
    rw [eval_special (x := .fin n 0 0) (by rw [hd]; rfl)]
    exact hf.encode_decode hb hd sat
  · rw [Fv.val_fin, magnitude_signed _ (by positivity)] at hv
    have hlog : ilog2 m e < -12 := (zpow_lt_zpow_iff_right₀ (one_lt_two (α := Rat))).mp ((mem_binade hm e).1.trans_lt hv)
    have hexact : SfuOp.sin.exact (.fin n m e) (SfuOp.sin.value n m e) = some (.fin n m e) := if_pos hlog
    rw [eval_wide_exact hd (special_of_ne_zero hm e) hw hexact]
    exact hf.encode_decode hb hd sat

end At

/-- Settles O10: R314's functions and the divisions owe their writes, a result lands outside its clause, and R315 and R316 give the values. -/
theorem lateResult : Obligations.LateResult := by
  unfold Obligations.LateResult
  refine ⟨fun ins o s i u hop h hlate hact hhit => ⟨fun hp hun => ?_, fun s1 hs hun hrows => ?_⟩, fun s o hfind hready hfree => ?_,
    fun s o t u hu hs hsaved => ?_, fun f hmem sat rm bits hb => ?_⟩
  · rw [exec_regOp hop, h.runWord, RegOp.body_late_uniform hlate hact hhit (RegOp.isTrue_iff.mpr hp) hun]
    rfl
  · rw [exec_regOp hop, h.runWord, RegOp.body_late_lanes hlate hact hhit hs hun hrows]
    rfl
  · exact ⟨exec_result_lands hfind hready hfree, exec_result_waits hfind hready⟩
  · refine ⟨landAll_strand hu hs, fun hout ht => ?_, fun hin ht => ?_⟩
    · rw [landTargets_strand hu hs hsaved ht, if_neg (ne_true_of_eq_false hout)]
    · rw [landTargets_strand hu hs hsaved ht, if_pos hin]
  · have hf := ieee_of_mem_sfu hmem
    obtain ⟨hnan, hplus, hminus, hzero⟩ := sqrt_special hf rm sat bits
    refine ⟨fun row hrow => (specialRow_of_mem hrow).eval hf sat bits, hnan, hplus, hminus, hzero, fun hfin hv => ?_, fun k hfin hk hv => ?_, fun k hfin hv => ?_,
      fun hw hfin hv => ?_, fun op n m e hd hop => ?_⟩
    · obtain ⟨n, m, e, hd⟩ := Fv.isFin_iff.mp hfin
      rw [hd] at hv
      exact ⟨eval_negative hd sat hv (.inl rfl), eval_negative hd sat hv (.inr rfl), sqrt_negative hd sat hv rm⟩
    · obtain ⟨n, m, e, hd⟩ := Fv.isFin_iff.mp hfin
      exact exp2_eval_integer hd sat hk (hd ▸ hv)
    · obtain ⟨n, m, e, hd⟩ := Fv.isFin_iff.mp hfin
      exact log2_eval_power hd sat (hd ▸ hv)
    · obtain ⟨n, m, e, hd⟩ := Fv.isFin_iff.mp hfin
      exact sin_eval_small hd sat hf hb (wide_of_mem hw) (hd ▸ hv)
    · rw [hd] at hop ⊢
      refine ⟨fun hw => eval_narrow hd hop (narrow_of_mem hw), fun hw hex => ?_, fun hrcp => ?_⟩
      · refine (eval_wide_bounded hd hop (wide_of_mem hw) hex).imp_right fun hin => ?_
        obtain ⟨hfin, hle⟩ := within_le hin
        exact ⟨hfin, bound_of_units hle⟩
      · subst hrcp
        exact rcp_value (ne_zero_of_special hop) e

end Sys2Proof.Machine
end
section
/-! SUPPORT. What the words of the SYN and ASY classes share (O35, O36): what a word reads once its region is closed, one value written or owed,
and a unit that leaves its port to wait. -/

namespace Sys2Proof.Machine
set_option Elab.async false

/-! What a word reads is the same once it has closed its region (R216). -/

theorem State.groupOf_closeRegion (s : State) (u : SUnit) : (s.closeRegion u).groupOf u.noRegion = s.groupOf u := by
  obtain ⟨us, h⟩ := s.closeRegion_keeps u
  rw [h]
  rfl

theorem State.vAt_closeRegion (s : State) (u : SUnit) : (s.closeRegion u).vAt u.noRegion = s.vAt u := by
  obtain ⟨us, h⟩ := s.closeRegion_keeps u
  rw [h]
  rfl

/-- Outside a region there is none to close. -/
theorem State.closeRegion_of_none {u : SUnit} (h : u.region = none) (s : State) : s.closeRegion u = s := by
  unfold State.closeRegion
  rw [h]
  rfl

theorem SUnit.noRegion_of_none {u : SUnit} (h : u.region = none) : u.noRegion = u := by
  unfold SUnit.noRegion
  rw [← h]

/-! The unit stands for the same items. -/

@[simp] theorem SUnit.noRegion_guard (u : SUnit) : u.noRegion.guard = u.guard := rfl
@[simp] theorem SUnit.noRegion_active (u : SUnit) : u.noRegion.active = u.active := rfl
@[simp] theorem SUnit.noRegion_lowest (u : SUnit) : u.noRegion.lowest = u.lowest := rfl

/-- No register is an input of a region that is closed (R215). -/
theorem SUnit.regionHit_noRegion (u : SUnit) (vs ps : List Nat) : u.noRegion.regionHit vs ps = none := rfl

/-- A word that traps with a change that leaves its unit as it stands. -/
theorem State.finish_trap_of_unit {t : State} {i : Issue} {u : SUnit} (h : t.unit? u.id = some u) (c : W32) (tval : W64) (g : Bool) :
    Host.Outcome.next (State.finish i u (.trap t c tval g)) = t.trapped i u c tval g := by
  unfold State.trapped
  simp only [State.finish, h, Option.getD_some]

/-- A word that ends with its effect made. -/
theorem State.next_finish_done {r : Res} {t : State} (h : r = .done t) (i : Issue) (u : SUnit) :
    Host.Outcome.next (State.finish i u r) = (.next (t.advance i) : Host.Outcome State Fault Refusal) := by
  rw [h]
  rfl

/-- An instruction with an active item acts on a unit that has items. -/
theorem SUnit.anyActive_whole {u : SUnit} {pred : BitVec 3} {pneg : Bool} (h : u.anyActive (u.guard pred pneg) = true) : u.anyActive u.whole = true := by
  unfold SUnit.anyActive at h ⊢
  cases hs : u.isStrand with
  | true =>
    rw [hs, if_pos rfl, bne_iff_ne] at h
    rw [if_pos rfl, bne_iff_ne]
    have hwhole : u.whole.mask = u.mask := by
      unfold SUnit.whole SUnit.guardOf
      dsimp only
      rw [if_pos hs]
      refine BitVec.eq_of_getLsbD_eq fun j hj => ?_
      rw [BitVec.getLsbD_and, getLsbD_laneMask _ hj]
      exact Bool.and_true _
    intro h0
    refine h ?_
    rw [SUnit.guard, ← u.and_guardOf_mask, ← hwhole, h0]
    exact BitVec.zero_and
  | false =>
    rw [hs, if_neg (by decide), decide_eq_true_eq] at h
    rw [if_neg (by decide), decide_eq_true_eq]
    show u.lo < u.lo + u.cnt
    revert h
    unfold SUnit.guard SUnit.guardOf
    generalize u.predOf pred pneg = p
    dsimp only
    rcases p with (_ | _) | t | t | m <;> dsimp only <;> omega

/-! One value written or owed for all active items (R97, R91, R105). -/

/-- One value for the registers of a destination. -/
def oneValue (d : Nat) (wide : Bool) (x : W64) : List (Nat × Rv) :=
  if wide then [(d, .u (x.extractLsb' 0 32)), (d + 1, .u (x.extractLsb' 32 32))] else [(d, .u (x.extractLsb' 0 32))]

theorem oneValue_fst (d : Nat) (wide : Bool) (x : W64) : (oneValue d wide x).map (·.1) = if wide then [d, d + 1] else [d] := by
  cases wide <;> rfl

theorem oneValue_once (d : Nat) (wide : Bool) (x : W64) : (oneValue d wide x).all (fun w => w.2.once) = true := by
  cases wide <;> rfl

/-- The low half of a value that is extended. -/
theorem oneValue_setWidth {n : Nat} (d : Nat) (x : BitVec n) : oneValue d false (x.setWidth 64) = [(d, .u (x.setWidth 32))] := by
  have hlow : (x.setWidth 64).extractLsb' 0 32 = x.setWidth 32 := by
    rw [← BitVec.setWidth_eq_extractLsb' (by decide), BitVec.setWidth_setWidth_of_le _ (by decide)]
  exact congrArg (fun y => [(d, Rv.u y)]) hlow

/-- The write that a statement describes is the one made. -/
theorem State.Writes.writeV {s t : State} {u : SUnit} {g : Guard} {d : Nat} {wide : Bool} {x : W64} (h : s.Writes u g d wide x t)
    (hact : u.anyActive g = true) (hhit : u.regionHit (if wide then [d, d + 1] else [d]) [] = none) (k : State → Res) :
    s.writeV u g (oneValue d wide x) k = k t := by
  rw [← oneValue_fst d wide x] at hhit
  rcases h with ⟨ht, rfl⟩ | ⟨ht, hs, -, s1, u1, hrows, rfl⟩
  · rw [State.writeV_once hact hhit ht (oneValue_once ..)]
    cases wide <;> rfl
  · rw [← oneValue_fst d wide x] at hrows
    rw [State.writeV_rows hact hhit (fun h => by rw [ht] at h; cases h) hs hrows]
    cases wide <;> rfl

/-- The same of a narrower value that is extended. -/
theorem State.Writes.writeV_narrow {s t : State} {u : SUnit} {g : Guard} {d n : Nat} {x : BitVec n} (h : s.Writes u g d false (x.setWidth 64) t)
    (hact : u.anyActive g = true) (hhit : u.regionHit [d] [] = none) (k : State → Res) : s.writeV u g [(d, .u (x.setWidth 32))] k = k t := by
  rw [← oneValue_setWidth]
  exact h.writeV hact hhit k

/-- A guard under which one value can be written. -/
theorem State.Writes.way {s t : State} {u : SUnit} {g : Guard} {d : Nat} {wide : Bool} {x : W64} (h : s.Writes u g d wide x t) :
    u.isStrand = true ∨ g.isTrue = true := by
  rcases h with ⟨ht, -⟩ | ⟨-, hs, -⟩
  · exact .inr ht
  · exact .inl hs

/-- The operation that a statement describes is the one entered. -/
theorem State.Owes.deferV {s t : State} {u : SUnit} {g : Guard} {d : Nat} {wide : Bool} {x : W64} (h : s.Owes u g false .ready d wide x t)
    (hhit : u.regionHit (if wide then [d, d + 1] else [d]) [] = none) :
    s.deferV u g false .ready (oneValue d wide x) (fun _ s => .done s) = .done t := by
  rw [← oneValue_fst d wide x] at hhit
  rcases h with ⟨ht, rfl⟩ | ⟨ht, hs, s1, hrows, rfl⟩
  · rw [State.deferV_once hhit ht (oneValue_once ..)]
    cases wide <;> rfl
  · rw [← oneValue_fst d wide x] at hrows
    unfold State.deferV
    rw [hhit]
    refine (if_neg (by rw [ht]; exact Bool.false_ne_true)).trans ?_
    rw [hs, hrows]
    cases wide <;> rfl

/-! A unit that leaves its port to wait (R104). -/

theorem State.mem_issue_foldl {α : Type} (f : State → α → State) (hf : ∀ (s : State) (a : α), ∀ j ∈ (f s a).issue, j ∈ s.issue) (l : List α) (s : State) :
    ∀ j ∈ (l.foldl f s).issue, j ∈ s.issue := by
  induction l generalizing s with
  | nil => exact fun _ hj => hj
  | cons a l ih => exact fun j hj => hf s a j (ih _ j hj)

/-- The units of aborting launches that stop bring no clause to a port. -/
theorem State.mem_issue_stopAborting {s : State} {j : Issue} (h : j ∈ s.stopAborting.issue) : j ∈ s.issue := by
  refine State.mem_issue_foldl _ (fun t l j hj => ?_) _ s j h
  unfold State.stopUnits at hj
  split at hj
  · exact State.mem_issue_foldl _ (fun t x j hj => List.mem_of_mem_filter hj) _ t j hj
  · exact hj

/-- A unit that waits for something. -/
def SUnit.waitFor (w : Wait) (u : SUnit) : SUnit := { u with wait := w }

/-- A unit that stands at a slot of its clause. -/
def SUnit.standAt (slot : Nat) (u : SUnit) : SUnit := { u with pcSlot := some slot }

/-- What a word leaves whose unit waits off its port: none of its clauses in issue, and the unit as it was but for what it waits for and where it stands. -/
theorem State.AtHead.finish_again {s : State} {i : Issue} {u : SUnit} (h : s.AtHead i u) (hlive : s.Live u) (hsole : s.Sole u) (w : Wait) :
    let t := State.finish i u (.again (s.updUnit u.id (fun x => { x with wait := w })))
    (∀ j ∈ t.issue, j.unit ≠ i.unit) ∧ t.unit? u.id = some ((u.waitFor w).standAt i.slot) := by
  let r := (s.updUnit u.id (SUnit.waitFor w)).updUnit i.unit (SUnit.standAt i.slot)
  have hof : s.OfLaunch u.id u.launch := fun y hy e => by rw [hsole y hy e]
  have hofr : r.OfLaunch u.id u.launch :=
    (hof.updUnit u.id (SUnit.waitFor w) (fun _ => rfl) (fun _ => rfl)).updUnit i.unit (SUnit.standAt i.slot) (fun _ => rfl) (fun _ => rfl)
  have hr : r.unit? u.id = some ((u.waitFor w).standAt i.slot) := by
    dsimp only [r]
    rw [h.id_eq, State.unit?_updUnit _ _ (SUnit.standAt i.slot) (fun _ => rfl), State.unit?_updUnit _ _ (SUnit.waitFor w) (fun _ => rfl), h.unit]
    rfl
  refine ⟨fun j hj => ?_, ?_⟩
  · simpa using List.of_mem_filter (State.mem_issue_stopAborting hj)
  · exact (State.stopAborting_other (s := { r with issue := s.issue.filter (·.unit != i.unit) }) (hofr.of_units fun _ hy => hy) hlive.aborting).trans hr

end Sys2Proof.Machine
end
section
/-! SUPPORT. How a barrier counts (O36): arrivals (R109), what stands in its group once it is stored (R110, R113), bytes (R112, R115). -/

namespace Sys2Proof.Machine
set_option Elab.async false

/-! Arrivals. -/

theorem mem_maskWindows {m : BitVec 16} {j : Nat} : j ∈ maskWindows m ↔ j < 16 ∧ m.getLsbD j = true := by
  unfold maskWindows
  rw [List.mem_filter, List.mem_range]

theorem Barrier.arrive_uninit {b : Barrier} (h : b.state = .uninit) (g : Group) (m : BitVec 16) (items : List Nat) : b.arrive g m items = .uninit := by
  unfold Barrier.arrive
  rw [h]

theorem Barrier.arrive_broken {b : Barrier} (h : b.state = .broken) (g : Group) (m : BitVec 16) (items : List Nat) : b.arrive g m items = .broken b.brk := by
  unfold Barrier.arrive
  rw [h]

section Arrive
variable {b : Barrier} {g : Group} {m : BitVec 16} {items : List Nat} (hstate : b.state = .idle ∨ b.state = .opened)
include hstate

/-- The first arrival of a phase, with a mask inside the group. -/
theorem Barrier.arrive_first (hin : ∀ k ∈ items, m.getLsbD ((k - g.base) / 64) = true) (hmask : b.mask = none)
    (hbelow : ∀ j, j < 16 → m.getLsbD j = true → j < g.size / 64) :
    b.arrive g m items = .counted { b with mask := some m, arrived := b.arrived + items.length, state := .opened } := by
  have hinside : items.all (fun i => m.getLsbD ((i - g.base) / 64)) = true := List.all_eq_true.mpr hin
  have hwindows : (maskWindows m).all (fun j => decide (j < g.size / 64)) = true :=
    List.all_eq_true.mpr fun j hj => decide_eq_true (hbelow j (mem_maskWindows.mp hj).1 (mem_maskWindows.mp hj).2)
  unfold Barrier.arrive
  rw [hinside, hwindows, hmask]
  rcases hstate with h | h <;> rw [h] <;> rfl

/-- A later arrival with the mask of the phase. -/
theorem Barrier.arrive_later (hin : ∀ k ∈ items, m.getLsbD ((k - g.base) / 64) = true) (hmask : b.mask = some m) :
    b.arrive g m items = .counted { b with arrived := b.arrived + items.length } := by
  have hinside : items.all (fun i => m.getLsbD ((i - g.base) / 64)) = true := List.all_eq_true.mpr hin
  unfold Barrier.arrive
  rw [hinside, hmask]
  rcases hstate with h | h <;> rw [h] <;> exact if_pos (by simp)

/-- An arrival with another mask than the phase's. -/
theorem Barrier.arrive_mismatch {m' : BitVec 16} (hmask : b.mask = some m') (hne : m' ≠ m) : b.arrive g m items = .mismatch := by
  unfold Barrier.arrive
  rw [hmask]
  rcases hstate with h | h <;> rw [h] <;> exact if_neg (by simp [hne])

end Arrive

/-! What is stored (R110). -/

/-- A barrier as it stands once its counts are looked at. -/
def Barrier.settled (b : Barrier) : Barrier := if b.overflows then b.break_ 3 else if b.completes then b.nextPhase else b

theorem Barrier.overflows_iff {b : Barrier} : b.overflows = true ↔ b.state = .opened ∧ (b.expect < b.arrived ∨ 2 ^ 47 ≤ b.bytes.natAbs) := by
  unfold Barrier.overflows
  simp

theorem Barrier.completes_iff {b : Barrier} : b.completes = true ↔ b.state = .opened ∧ b.arrived = b.expect ∧ b.bytes = 0 := by
  unfold Barrier.completes
  simp [and_assoc]

/-- A phase for which all have arrived and no bytes are expected is complete. -/
theorem Barrier.settled_complete {b : Barrier} (hstate : b.state = .opened) (harr : b.arrived = b.expect) (hbytes : b.bytes = 0) : b.settled = b.nextPhase := by
  have hover : ¬ b.overflows = true := by
    rw [Barrier.overflows_iff, harr, hbytes]
    simp
  unfold Barrier.settled
  rw [if_neg hover, if_pos (Barrier.completes_iff.mpr ⟨hstate, harr, hbytes⟩)]

/-- Too many arrivals break it. -/
theorem Barrier.settled_overflow {b : Barrier} (hstate : b.state = .opened) (harr : b.expect < b.arrived) : b.settled = b.break_ 3 :=
  if_pos (Barrier.overflows_iff.mpr ⟨hstate, .inl harr⟩)

/-- A phase that waits for arrivals or bytes goes on. -/
theorem Barrier.settled_waits {b : Barrier} (harr : b.arrived ≤ b.expect) (hbytes : b.bytes.natAbs < 2 ^ 47) (hwaits : b.arrived ≠ b.expect ∨ b.bytes ≠ 0) :
    b.settled = b := by
  have hover : ¬ b.overflows = true := by
    rw [Barrier.overflows_iff]
    omega
  have hcomplete : ¬ b.completes = true := by
    rw [Barrier.completes_iff]
    omega
  unfold Barrier.settled
  rw [if_neg hover, if_neg hcomplete]

theorem getElem?_setAt_self {α : Type} {l : List α} {n : Nat} (hn : n < l.length) (x : α) : (setAt l n x)[n]? = some x := List.getElem?_set_self hn

theorem getElem?_setAt_ne {α : Type} (l : List α) {n k : Nat} (hk : k ≠ n) (x : α) : (setAt l n x)[k]? = l[k]? := List.getElem?_set_ne hk.symm

namespace State

variable {s : State} {gid n : Nat} {g : Group}

theorem id_of_group? (hg : s.group? gid = some g) : g.id = gid := by simpa using List.find?_some hg

/-- A group whose barrier is stored. -/
theorem group?_putBar (hg : s.group? gid = some g) (n : Nat) (b : Barrier) :
    ∃ g', (s.putBar g n b).group? gid = some g' ∧ g'.bars = setAt g.bars n b.settled := by
  obtain rfl := id_of_group? hg
  unfold putBar Barrier.settled
  dsimp only
  split
  · exact ⟨_, group?_updGroup hg fun _ h => h, rfl⟩
  split
  · exact ⟨_, group?_updGroup hg fun _ h => h, rfl⟩
  · exact ⟨_, group?_updGroup hg fun _ h => h, rfl⟩

/-- Only a barrier that is idle or open breaks (R115). -/
theorem group?_breakBar_kept {b : Barrier} (hg : s.group? gid = some g) (hb : g.bars[n]? = some b) (hidle : b.state ≠ .idle) (hopen : b.state ≠ .opened)
    (code : BitVec 2) : (s.breakBar gid n code).group? gid = some g := by
  refine (group?_updGroup hg fun x hx => ?_).trans (congrArg some ?_)
  · split
    · split <;> exact hx
    · exact hx
  · rw [hb]
    exact if_neg (by simp [hidle, hopen])

/-- A change of a barrier leaves every unit. -/
theorem unit?_breakBar (s : State) (gid n : Nat) (code : BitVec 2) (k : Nat) : (s.breakBar gid n code).unit? k = s.unit? k := rfl

end State

/-- A barrier with bytes added: one that was idle opens (R115). -/
def Barrier.addBytes (b : Barrier) (d : Int) : Barrier :=
  let b1 := { b with bytes := b.bytes + d }
  if b1.state = .idle && b1.bytes != 0 then { b1 with state := .opened } else b1

theorem Barrier.addBytes_open {b : Barrier} (h : b.state = .opened) (d : Int) : b.addBytes d = { b with bytes := b.bytes + d } := by
  unfold Barrier.addBytes
  exact if_neg (by simp [h])

theorem Barrier.addBytes_idle {b : Barrier} (h : b.state = .idle) {d : Int} (hd : b.bytes + d ≠ 0) :
    b.addBytes d = { b with bytes := b.bytes + d, state := .opened } := by
  unfold Barrier.addBytes
  exact if_pos (by simpa [h] using hd)

namespace State

variable {s : State} {gid n : Nat} {g : Group} {b : Barrier} (hg : s.group? gid = some g) (hb : g.bars[n]? = some b)
include hg hb

theorem group?_countBytes (d : Int) : ∃ g', (s.countBytes gid n d).group? gid = some g' ∧ g'.bars = setAt g.bars n (b.addBytes d).settled := by
  have heq : s.countBytes gid n d = s.putBar g n (b.addBytes d) := by
    unfold countBytes
    rw [hg]
    dsimp only
    rw [hb]
    rfl
  rw [heq]
  exact group?_putBar hg n _

/-- Bytes past those that complete a phase count on the next (R112). -/
theorem group?_countPerformed_past {k : Nat} (hstate : b.state = .opened) (harr : b.arrived = b.expect) (hpos : 0 < b.bytes) (hpast : b.bytes < k)
    (hk : k < 2 ^ 47) :
    ∃ g', (s.countPerformed gid n k).group? gid = some g' ∧ g'.bars[n]? = some { b.nextPhase with bytes := b.bytes - k, state := .opened } := by
  obtain ⟨m, hm⟩ := Int.eq_ofNat_of_zero_le hpos.le
  have hlen : n < g.bars.length := (List.getElem?_eq_some_iff.mp hb).1
  have heq : s.countPerformed gid n k = (s.countBytes gid n (-(m : Int))).countBytes gid n (-((k - m : Nat) : Int)) := by
    have hmany : (b.state = .opened && b.arrived == b.expect && decide (0 < m) && decide (m < k)) = true := by
      simp only [hstate, harr, beq_self_eq_true, decide_true, Bool.true_and, Bool.and_eq_true, decide_eq_true_eq]
      omega
    unfold countPerformed
    rw [hg, Option.bind_some, hb]
    dsimp only
    rw [hm, Int.toNat_natCast, if_pos hmany]
  obtain ⟨g1, hg1, hbars1⟩ := group?_countBytes hg hb (-(m : Int))
  have hfirst : (b.addBytes (-(m : Int))).settled = { b with bytes := 0 }.nextPhase := by
    rw [Barrier.addBytes_open hstate, hm, Int.add_right_neg]
    exact Barrier.settled_complete hstate harr rfl
  rw [hfirst] at hbars1
  obtain ⟨g2, hg2, hbars2⟩ := group?_countBytes hg1 (by rw [hbars1]; exact getElem?_setAt_self hlen _) (-((k - m : Nat) : Int))
  refine ⟨g2, by rw [heq]; exact hg2, ?_⟩
  have hrest : (0 : Int) + -((k - m : Nat) : Int) = b.bytes - k := by omega
  rw [Barrier.addBytes_idle rfl (by show (0 : Int) + _ ≠ 0; omega), Barrier.settled_waits (Nat.zero_le _) (by show ((0 : Int) + _).natAbs < _; omega)
    (.inr (by show (0 : Int) + _ ≠ 0; omega))] at hbars2
  rw [hbars2, getElem?_setAt_self (by rw [hbars1]; simpa [setAt] using hlen)]
  show some { b.nextPhase with bytes := (0 : Int) + -((k - m : Nat) : Int), state := .opened } = _
  rw [hrest]

end State

end Sys2Proof.Machine
end
section
/-! SUPPORT. The words of the SYN class (O36): R107 to R118, R121, R122, R374, R215. -/

namespace Sys2Proof.Machine
set_option Elab.async false

/-! A word of the class, with no active item and with some (R117, R216). -/

section Idle
variable {f : FmtX} {s : State} {i : Issue} {u : SUnit} (hidle : u.anyActive (u.guard f.pred f.pneg) = false)
include hidle

theorem State.AtHead.runSyn_idle (h : s.AtHead i u) (body : State → Issue → SUnit → Res) : s.runSyn f body = .next (s.advance i) := by
  have hrun : s.runSyn f body = _ := h.runWord _
  rw [hrun, hidle]
  rfl

theorem State.onBarrier_idle (needU : Bool) (body : Group → Guard → Nat → Barrier → Res) : s.onBarrier u f needU body = .done s := by
  unfold State.onBarrier
  dsimp only
  rw [hidle]
  rfl

/-- The words of the class do nothing with no active item. -/
theorem syn_idle (h : s.AtHead i u) :
    ∀ ins ∈ [Instr.bari f, .bara f, .barx f, .barc f, .barw f, .waita f, .pipw f, .barq f], exec ins s = .next (s.advance i) := by
  have hbari : execBari f s = _ := h.runSyn_idle hidle _
  have hbara : execBara f s = _ := h.runSyn_idle hidle _
  have hbarx : execBarx f s = _ := h.runSyn_idle hidle _
  have hbarc : execBarc f s = _ := h.runSyn_idle hidle _
  have hbarw : execBarw f s = _ := h.runWord _
  have hbarq : execBarq f s = _ := h.runWord _
  have hwaita : execWaita f s = _ := h.runWord _
  have hpipw : execPipw f s = _ := h.runWord _
  rw [State.onBarrier_idle hidle] at hbarw hbarq
  dsimp only at hwaita hpipw
  rw [hidle] at hwaita hpipw
  simp only [List.forall_mem_cons]
  exact ⟨hbari, hbara, hbarx, hbarc, hbarw, hwaita, hpipw, hbarq, List.forall_mem_nil _⟩

end Idle

/-! What BARA, BARW and BARC do on their barrier. -/

/-- A BARA (R109, R110, R113). -/
def State.baraOn (s : State) (u : SUnit) (f : FmtX) (gr : Group) (b : Barrier) : Res :=
  match b.arrive gr f.ctrl (u.active (u.guard f.pred f.pneg)) with
  | .uninit => .trap s causeBarstate (BitVec.ofNat 64 f.imm8.toNat)
  | .mismatch => .trap (s.breakBar gr.id f.imm8.toNat 1) causeMembermismatch (BitVec.ofNat 64 f.imm8.toNat)
  | .broken code => s.writeV u (u.guard f.pred f.pneg) [(f.d.toNat, .u (code.setWidth 32))] .done
  | .counted b1 => s.writeV u (u.guard f.pred f.pneg) [(f.d.toNat, .u b.phase)]
      (fun s => .done ((s.publish u.core 1).putBar ((s.group? gr.id).getD gr) f.imm8.toNat b1))

/-- The phases for which a BARW waits. -/
def State.barwPhases (s : State) (u : SUnit) (f : FmtX) : List W32 :=
  ((if u.vIsU f.a.toNat then [u.lowest (u.guard f.pred f.pneg)] else u.active (u.guard f.pred f.pneg)).map (fun k => s.vAt u f.a.toNat k)).eraseDups

/-- A BARW (R110, R113, R117). -/
def State.barwOn (s : State) (u : SUnit) (f : FmtX) (b : Barrier) : Res :=
  if b.state = .uninit then .trap s causeBarstate (BitVec.ofNat 64 f.imm8.toNat)
  else if (s.barwPhases u f).all (fun p => p != b.phase) then s.writeV u u.whole [(f.d.toNat, .u 0)] .done
  else if b.state = .broken then s.writeV u u.whole [(f.d.toNat, .u (b.brk.setWidth 32))] .done
  else match u.regionHit [f.d.toNat] [] with
    | some t => .trap s causeRegionwrite t
    | none =>
      let phases := s.barwPhases u f
      .again (s.updUnit u.id (fun u => { u with wait := .barw f.imm8.toNat phases }))

/-- A BARC that is counted: b1 is the barrier with its count (R114). -/
def State.barcCounted (s : State) (i : Issue) (u : SUnit) (f : FmtX) (gr : Group) (b1 : Barrier) : Res :=
  let code := s.wAt u f.a.toNat (u.lowest (u.guard f.pred f.pneg))
  match b1.cont with
  | none => ((s.publish u.core 1).putBar gr f.imm8.toNat { b1 with cont := some code }).leave i u (u.guard f.pred f.pneg)
  | some c0 =>
    if c0 = code then ((s.publish u.core 1).putBar gr f.imm8.toNat b1).leave i u (u.guard f.pred f.pneg)
    else
      let count (s : State) : State := (s.publish u.core 1).updGroup gr.id (fun g => { g with bars := setAt g.bars f.imm8.toNat (b1.break_ 1) })
      if !(u.guard f.pred f.pneg).isTrue && !u.isStrand then .needG (count s)
      else s.writeV u (u.guard f.pred f.pneg) [(f.d.toNat, .u 1)] (fun s => .done (count s))

/-- A BARC (R114). -/
def State.barcOn (s : State) (i : Issue) (u : SUnit) (f : FmtX) (gr : Group) (b : Barrier) : Res :=
  if !u.wIsU f.a.toNat || !contiguousMask f.ctrl then .trap s causeBarstate (BitVec.ofNat 64 f.imm8.toNat)
  else match b.arrive gr f.ctrl (u.active (u.guard f.pred f.pneg)) with
    | .uninit => .trap s causeBarstate (BitVec.ofNat 64 f.imm8.toNat)
    | .mismatch => .trap (s.breakBar gr.id f.imm8.toNat 1) causeMembermismatch (BitVec.ofNat 64 f.imm8.toNat)
    | .broken c => s.writeV u (u.guard f.pred f.pneg) [(f.d.toNat, .u (c.setWidth 32))] .done
    | .counted b1 => s.barcCounted i u f gr b1

/-- A U address and a mask without gaps. -/
theorem barc_legal {u : SUnit} {f : FmtX} (hU : u.wIsU f.a.toNat = true) (hmask : contiguousMask f.ctrl = true) :
    ¬(!u.wIsU f.a.toNat || !contiguousMask f.ctrl) = true := by
  rw [hU, hmask]
  decide

/-! A word on a barrier of its unit's group. -/

section Words
variable {f : FmtX} {s : State} {i : Issue} {u : SUnit} {gr : Group} {b : Barrier} (h : s.AtHead i u)
  (hact : u.anyActive (u.guard f.pred f.pneg) = true) (hg : s.groupOf u = some gr) (hb : gr.bars[f.imm8.toNat]? = some b)

theorem State.onBarrier_acts (hact : u.anyActive (u.guard f.pred f.pneg) = true) (hg : s.groupOf u = some gr) (hb : gr.bars[f.imm8.toNat]? = some b)
    {needU : Bool} (hway : needU = true → u.isStrand = true ∨ (u.guard f.pred f.pneg).isTrue = true) (body : Group → Guard → Nat → Barrier → Res) :
    s.onBarrier u f needU body = body gr (u.guard f.pred f.pneg) f.imm8.toNat b := by
  have hgo : (needU && !(u.guard f.pred f.pneg).isTrue && !u.isStrand) = false := by
    cases hn : needU with
    | false => rfl
    | true => rcases hway hn with hw | hw <;> simp [hw]
  unfold State.onBarrier
  dsimp only
  rw [hact, hg]
  dsimp only
  rw [hgo, hb]
  rfl

include h hact hg hb

/-- A word that keeps an open region. -/
theorem State.AtHead.onBarrier {needU : Bool} (hway : needU = true → u.isStrand = true ∨ (u.guard f.pred f.pneg).isTrue = true)
    (body : State → Issue → SUnit → Group → Guard → Nat → Barrier → Res) :
    s.runWord (fun s i u => s.onBarrier u f needU (body s i u))
      = .next (State.finish i u (body s i u gr (u.guard f.pred f.pneg) f.imm8.toNat b)) := by
  rw [h.runWord, State.onBarrier_acts hact hg hb hway]

/-- A word that closes an open region first. -/
theorem State.AtHead.synOnBarrier {needU : Bool} (hway : needU = true → u.isStrand = true ∨ (u.guard f.pred f.pneg).isTrue = true)
    (body : State → Issue → SUnit → Group → Guard → Nat → Barrier → Res) :
    s.runSyn f (fun s i u => s.onBarrier u f needU (body s i u))
      = .next (State.finish i u (body (s.closeRegion u) i u.noRegion gr (u.guard f.pred f.pneg) f.imm8.toNat b)) := by
  have hacts := State.onBarrier_acts (u := u.noRegion) hact ((s.groupOf_closeRegion u).trans hg) hb hway (body (s.closeRegion u) i u.noRegion)
  have hrun : s.runSyn f (fun s i u => s.onBarrier u f needU (body s i u)) = _ := h.runWord _
  rw [hrun, hact, if_pos rfl]
  exact congrArg (fun r => Host.Outcome.next (State.finish i u r)) hacts

/-! BARI and BARX (R112, R115, R116). -/

theorem bari_makes (hU : u.vIsU f.a.toNat = true) (hmin : 1 ≤ (s.vAt u f.a.toNat (u.lowest (u.guard f.pred f.pneg))).toNat)
    (hmax : (s.vAt u f.a.toNat (u.lowest (u.guard f.pred f.pneg))).toNat ≤ 1024) (hstate : b.state ≠ .opened) :
    exec (.bari f) s = .next (((s.closeRegion u).putBar gr f.imm8.toNat { b with
      state := .idle, expect := (s.vAt u f.a.toNat (u.lowest (u.guard f.pred f.pneg))).toNat, arrived := 0, bytes := 0, mask := none, cont := none
      brk := 0 }).advance i) := by
  have hrun : execBari f s = _ := h.synOnBarrier (needU := false) hact hg hb nofun _
  have hlegal : ¬(!u.vIsU f.a.toNat || decide ((s.vAt u f.a.toNat (u.lowest (u.guard f.pred f.pneg))).toNat < 1)
      || decide (1024 < (s.vAt u f.a.toNat (u.lowest (u.guard f.pred f.pneg))).toNat) || decide (b.state = .opened)) = true := by
    simp only [hU, hstate, Bool.not_true, Bool.false_or, decide_false, Bool.or_false, Bool.or_eq_true, decide_eq_true_eq]
    omega
  refine Eq.trans hrun ?_
  rw [State.vAt_closeRegion]
  exact State.next_finish_done (if_neg hlegal) i u

theorem barx_counts (hstate : b.state ≠ .uninit) :
    exec (.barx f) s = .next (((s.closeRegion u).countBytes gr.id f.imm8.toNat
      (if u.vIsU f.a.toNat then (s.vAt u f.a.toNat (u.lowest (u.guard f.pred f.pneg))).toNat
        else (u.active (u.guard f.pred f.pneg)).foldl (fun t k => t + (s.vAt u f.a.toNat k).toNat) 0 : Nat)).advance i) := by
  have hrun : execBarx f s = _ := h.synOnBarrier (needU := false) hact hg hb nofun _
  refine Eq.trans hrun ?_
  rw [if_neg hstate, State.vAt_closeRegion]
  rfl

theorem barx_uninit (hregion : u.region = none) (hstate : b.state = .uninit) :
    exec (.barx f) s = s.trapped i u causeBarstate (BitVec.ofNat 64 f.imm8.toNat) false := by
  have hrun : execBarx f s = _ := h.synOnBarrier (needU := false) hact hg hb nofun _
  refine Eq.trans hrun ?_
  rw [if_pos hstate, State.closeRegion_of_none hregion]
  exact h.finish_trap ..

/-! BARA (R109, R110, R113). -/

theorem bara_runs (hway : u.isStrand = true ∨ (u.guard f.pred f.pneg).isTrue = true) :
    exec (.bara f) s = .next (State.finish i u ((s.closeRegion u).baraOn u.noRegion f gr b)) :=
  h.synOnBarrier (needU := true) hact hg hb (fun _ => hway) (fun s _ u gr _ _ b => s.baraOn u f gr b)

theorem bara_counted {b1 : Barrier} {t : State} (harr : b.arrive gr f.ctrl (u.active (u.guard f.pred f.pneg)) = .counted b1)
    (hw : (s.closeRegion u).Writes u.noRegion (u.guard f.pred f.pneg) f.d.toNat false (b.phase.setWidth 64) t) :
    exec (.bara f) s = .next (((t.publish u.core 1).putBar ((t.group? gr.id).getD gr) f.imm8.toNat b1).advance i) := by
  have hwrite := hw.writeV_narrow hact (u.regionHit_noRegion ..) (fun s => .done ((s.publish u.core 1).putBar ((s.group? gr.id).getD gr) f.imm8.toNat b1))
  rw [BitVec.setWidth_eq] at hwrite
  rw [bara_runs h hact hg hb hw.way, State.baraOn, SUnit.noRegion_guard, SUnit.noRegion_active, harr]
  exact State.next_finish_done hwrite i u

theorem bara_broken {t : State} (hstate : b.state = .broken)
    (hw : (s.closeRegion u).Writes u.noRegion (u.guard f.pred f.pneg) f.d.toNat false (b.brk.setWidth 64) t) : exec (.bara f) s = .next (t.advance i) := by
  have hwrite := hw.writeV_narrow hact (u.regionHit_noRegion ..) .done
  rw [bara_runs h hact hg hb hw.way, State.baraOn, Barrier.arrive_broken hstate]
  exact State.next_finish_done hwrite i u

theorem bara_uninit (hway : u.isStrand = true ∨ (u.guard f.pred f.pneg).isTrue = true) (hregion : u.region = none) (hstate : b.state = .uninit) :
    exec (.bara f) s = s.trapped i u causeBarstate (BitVec.ofNat 64 f.imm8.toNat) false := by
  rw [bara_runs h hact hg hb hway, State.baraOn, Barrier.arrive_uninit hstate, State.closeRegion_of_none hregion]
  exact h.finish_trap ..

theorem bara_mismatch (hway : u.isStrand = true ∨ (u.guard f.pred f.pneg).isTrue = true) (hregion : u.region = none)
    (harr : b.arrive gr f.ctrl (u.active (u.guard f.pred f.pneg)) = .mismatch) :
    exec (.bara f) s = (s.breakBar gr.id f.imm8.toNat 1).trapped i u causeMembermismatch (BitVec.ofNat 64 f.imm8.toNat) false := by
  rw [bara_runs h hact hg hb hway, State.baraOn, SUnit.noRegion_guard, SUnit.noRegion_active, harr, State.closeRegion_of_none hregion]
  exact State.finish_trap_of_unit ((s.unit?_breakBar ..).trans h.unit_self) ..

/-! BARW (R110, R113, R117). -/

theorem barw_runs : exec (.barw f) s = .next (State.finish i u (s.barwOn u f b)) :=
  h.onBarrier (needU := false) hact hg hb nofun (fun s _ u _ _ _ b => s.barwOn u f b)

theorem barw_uninit (hstate : b.state = .uninit) : exec (.barw f) s = s.trapped i u causeBarstate (BitVec.ofNat 64 f.imm8.toNat) false := by
  rw [barw_runs h hact hg hb, State.barwOn, if_pos hstate]
  exact h.finish_trap ..

section Ready
variable (hstate : b.state ≠ .uninit) (hhit : u.regionHit [f.d.toNat] [] = none)
include hstate hhit

theorem barw_passed {t : State} (hpast : ∀ p ∈ s.barwPhases u f, p ≠ b.phase) (hw : s.Writes u u.whole f.d.toNat false 0 t) :
    exec (.barw f) s = .next (t.advance i) := by
  have hall : (s.barwPhases u f).all (fun p => p != b.phase) = true := List.all_eq_true.mpr fun p hp => bne_iff_ne.mpr (hpast p hp)
  rw [barw_runs h hact hg hb, State.barwOn, if_neg hstate, if_pos hall]
  exact State.next_finish_done (hw.writeV (SUnit.anyActive_whole hact) hhit .done) i u

variable (hin : ∃ p ∈ s.barwPhases u f, p = b.phase)
include hin

theorem barw_broken {t : State} (hbroken : b.state = .broken) (hw : s.Writes u u.whole f.d.toNat false (b.brk.setWidth 64) t) :
    exec (.barw f) s = .next (t.advance i) := by
  rw [barw_runs h hact hg hb, State.barwOn, if_neg hstate, if_neg (by simpa using hin), if_pos hbroken]
  exact State.next_finish_done (hw.writeV_narrow (SUnit.anyActive_whole hact) hhit .done) i u

theorem barw_waits (hbroken : b.state ≠ .broken) (hlive : s.Live u) (hsole : s.Sole u) :
    ∃ t : State, exec (.barw f) s = .next t ∧ (∀ j ∈ t.issue, j.unit ≠ i.unit)
      ∧ t.unit? u.id = some ((u.waitFor (.barw f.imm8.toNat (s.barwPhases u f))).standAt i.slot) := by
  have hrun := barw_runs h hact hg hb
  rw [State.barwOn, if_neg hstate, if_neg (by simpa using hin), if_neg hbroken, hhit] at hrun
  exact ⟨_, hrun, h.finish_again hlive hsole _⟩

end Ready

/-! BARC (R114). -/

theorem barc_runs : exec (.barc f) s = .next (State.finish i u ((s.closeRegion u).barcOn i u.noRegion f gr b)) :=
  h.synOnBarrier (needU := false) hact hg hb nofun (fun s i u gr _ _ b => s.barcOn i u f gr b)

/-- One whose address is not U, or whose mask has gaps. -/
theorem barc_illegal (hregion : u.region = none) (hbad : u.wIsU f.a.toNat = false ∨ contiguousMask f.ctrl = false) :
    exec (.barc f) s = s.trapped i u causeBarstate (BitVec.ofNat 64 f.imm8.toNat) false := by
  have hillegal : (!u.wIsU f.a.toNat || !contiguousMask f.ctrl) = true := by
    rcases hbad with hbad | hbad <;> simp [hbad]
  rw [barc_runs h hact hg hb, SUnit.noRegion_of_none hregion, State.closeRegion_of_none hregion, State.barcOn, if_pos hillegal]
  exact h.finish_trap ..

section Legal
variable (hU : u.wIsU f.a.toNat = true) (hmask : contiguousMask f.ctrl = true)
include hU hmask

/-- One that is counted, the first with an address or with the phase's, leaves the continuation and its items go. -/
theorem barc_leaves {b1 : Barrier} (harr : b.arrive gr f.ctrl (u.active (u.guard f.pred f.pneg)) = .counted b1)
    (hcont : b1.cont = none ∨ b1.cont = some (s.wAt u f.a.toNat (u.lowest (u.guard f.pred f.pneg)))) :
    exec (.barc f) s = .next (State.finish i u ((((s.closeRegion u).publish u.core 1).putBar gr f.imm8.toNat
      { b1 with cont := some (s.wAt u f.a.toNat (u.lowest (u.guard f.pred f.pneg))) }).leave i u.noRegion (u.guard f.pred f.pneg))) := by
  rw [barc_runs h hact hg hb, State.barcOn, if_neg (barc_legal (u := u.noRegion) hU hmask), SUnit.noRegion_guard, SUnit.noRegion_active, harr]
  dsimp only
  rw [State.barcCounted, State.wAt_closeRegion, SUnit.noRegion_guard, SUnit.noRegion_lowest]
  rcases hcont with hc | hc
  · rw [hc]
    rfl
  · rw [hc]
    dsimp only
    rw [if_pos rfl, ← hc]
    rfl

/-- One whose address differs from the phase's. -/
theorem barc_otherAddress {b1 : Barrier} {c0 : W64} {t : State} (harr : b.arrive gr f.ctrl (u.active (u.guard f.pred f.pneg)) = .counted b1)
    (hcont : b1.cont = some c0) (hne : c0 ≠ s.wAt u f.a.toNat (u.lowest (u.guard f.pred f.pneg)))
    (hw : (s.closeRegion u).Writes u.noRegion (u.guard f.pred f.pneg) f.d.toNat false 1 t) :
    exec (.barc f) s = .next (((t.publish u.core 1).updGroup gr.id (fun g => { g with bars := setAt g.bars f.imm8.toNat (b1.break_ 1) })).advance i) := by
  have hgo : ¬(!(u.guard f.pred f.pneg).isTrue && !u.noRegion.isStrand) = true := by
    rcases hw.way with hs | ht
    · simp [hs]
    · simp [ht]
  rw [barc_runs h hact hg hb, State.barcOn, if_neg (barc_legal (u := u.noRegion) hU hmask), SUnit.noRegion_guard, SUnit.noRegion_active, harr]
  dsimp only
  rw [State.barcCounted, State.wAt_closeRegion, SUnit.noRegion_guard, SUnit.noRegion_lowest, hcont]
  dsimp only
  rw [if_neg hne, if_neg hgo]
  exact State.next_finish_done (hw.writeV hact (u.regionHit_noRegion ..) (fun s =>
    .done ((s.publish u.core 1).updGroup gr.id (fun g => { g with bars := setAt g.bars f.imm8.toNat (b1.break_ 1) })))) i u

theorem barc_broken {t : State} (hstate : b.state = .broken)
    (hw : (s.closeRegion u).Writes u.noRegion (u.guard f.pred f.pneg) f.d.toNat false (b.brk.setWidth 64) t) : exec (.barc f) s = .next (t.advance i) := by
  rw [barc_runs h hact hg hb, State.barcOn, if_neg (barc_legal (u := u.noRegion) hU hmask), Barrier.arrive_broken hstate]
  exact State.next_finish_done (hw.writeV_narrow hact (u.regionHit_noRegion ..) .done) i u

theorem barc_uninit (hregion : u.region = none) (hstate : b.state = .uninit) :
    exec (.barc f) s = s.trapped i u causeBarstate (BitVec.ofNat 64 f.imm8.toNat) false := by
  rw [barc_runs h hact hg hb, State.barcOn, if_neg (barc_legal (u := u.noRegion) hU hmask), Barrier.arrive_uninit hstate, State.closeRegion_of_none hregion]
  exact h.finish_trap ..

theorem barc_mismatch (hregion : u.region = none) (harr : b.arrive gr f.ctrl (u.active (u.guard f.pred f.pneg)) = .mismatch) :
    exec (.barc f) s = (s.breakBar gr.id f.imm8.toNat 1).trapped i u causeMembermismatch (BitVec.ofNat 64 f.imm8.toNat) false := by
  rw [barc_runs h hact hg hb, State.barcOn, if_neg (barc_legal (u := u.noRegion) hU hmask), SUnit.noRegion_guard, SUnit.noRegion_active, harr,
    State.closeRegion_of_none hregion]
  exact State.finish_trap_of_unit ((s.unit?_breakBar ..).trans h.unit_self) ..

end Legal

/-! BARQ (R118). -/

theorem barq_owes {t : State} (hway : u.isStrand = true ∨ (u.guard f.pred f.pneg).isTrue = true) (hhit : u.regionHit [f.d.toNat, f.d.toNat + 1] [] = none)
    (how : s.Owes u (u.guard f.pred f.pneg) false .ready f.d.toNat true (b.query f.ctrl.toNat) t) : exec (.barq f) s = .next (t.advance i) := by
  have hrun : execBarq f s = _ := h.onBarrier hact hg hb (fun _ => hway) _
  refine Eq.trans hrun ?_
  exact State.next_finish_done (how.deferV hhit) i u

end Words

/-! Where the items of a BARC go (R114). -/

theorem State.leave_all {t : State} {i : Issue} {u : SUnit} {g : Guard} (h : u.activeCount g = u.items.length) :
    t.leave i u g = .jump (t.exitUnit u.id) := if_pos h

theorem State.leave_some {t : State} {i : Issue} {u : SUnit} {g : Guard} (h : u.activeCount g ≠ u.items.length) :
    t.leave i u g = .jump ((t.retireItems u (u.active g)).updUnit u.id (fun x => (x.fallTo i.nextClause).without g)) := if_neg h

/-! WAITA (R121) and PIPW (R122). -/

/-- The word that a WAITA reads for an item. -/
def State.waitedWord (s : State) (ps : List (Nat × Nat × Nat × Nat)) (k : Nat) : W64 :=
  match ps.find? (fun p => p.1 == k) with
  | some p => s.padWord p.2.2.1 p.2.2.2
  | none => 0

/-- The lanes of values that are read from places. -/
theorem laneValues_waited (s : State) (u : SUnit) (ps : List (Nat × Nat × Nat × Nat)) (high : Bool) :
    laneValues u (ps.map (fun p => (p.1, s.padWord p.2.2.1 p.2.2.2))) high
      = (List.range 64).map (fun j => (s.waitedWord ps (u.lo + j)).extractLsb' (if high then 32 else 0) 32) := by
  refine List.map_congr_left fun j _ => ?_
  unfold State.waitedWord
  rw [List.find?_map]
  dsimp only [Function.comp_def]
  cases ps.find? (fun p => p.1 == u.lo + j) with
  | none => cases high <;> simp
  | some p => cases high <;> rfl

section Waits
variable {f : FmtX} {s : State} {i : Issue} {u : SUnit} {gr : Group} (h : s.AtHead i u) (hact : u.anyActive (u.guard f.pred f.pneg) = true)
  (hg : s.groupOf u = some gr)
include h hact hg

theorem pipw_runs : exec (.pipw f) s = .next (State.finish i u (if u.pips &&& f.ctrl.extractLsb' 0 12 = 0 then .done s
    else .again (s.updUnit u.id (fun x => { x with wait := .pipw (f.ctrl.extractLsb' 0 12) })))) := by
  have hrun : execPipw f s = _ := h.runWord _
  refine Eq.trans hrun ?_
  dsimp only
  rw [hact, hg]
  rfl

variable {ps : List (Nat × Nat × Nat × Nat)}
  (hps : padItems gr u.core 8 8 ((u.active (u.guard f.pred f.pneg)).map (fun k => (k, (s.vAt u f.a.toNat k + f.ctrl.setWidth 32).toNat))) = .ok ps)
  (hpoison : s.padPoisonPlace 8 ps = none) (hhit : u.regionHit [f.d.toNat, f.d.toNat + 1] [] = none)
  (hready : ∀ p ∈ ps, wordReady (s.padWord p.2.2.1 p.2.2.2) (s.wAt u f.b.toNat p.1) = true)
include hps hpoison hhit hready

/-- A WAITA whose words are all there. -/
theorem waita_runs (hway : u.isStrand = true ∨ u.vIsU f.a.toNat = true ∧ (u.guard f.pred f.pneg).isTrue = true) :
    exec (.waita f) s = .next (State.finish i u (s.writeV u (u.guard f.pred f.pneg)
      (loadParts u true (u.vIsU f.a.toNat) f.d.toNat (ps.map (fun p => (p.1, s.padWord p.2.2.1 p.2.2.2)))) .done)) := by
  have hgo : ((!u.vIsU f.a.toNat || !(u.guard f.pred f.pneg).isTrue) && !u.isStrand) = false := by
    rcases hway with hs | ⟨hU, ht⟩
    · simp [hs]
    · simp [hU, ht]
  have hall : ps.all (fun p => wordReady (s.padWord p.2.2.1 p.2.2.2) (s.wAt u f.b.toNat p.1)) = true := List.all_eq_true.mpr hready
  have hrun : execWaita f s = _ := h.runWord _
  refine Eq.trans hrun ?_
  dsimp only
  rw [hact, hg]
  dsimp only
  rw [hgo, hhit]
  dsimp only
  rw [hps]
  dsimp only
  rw [hpoison]
  dsimp only
  rw [hall]
  rfl

theorem waita_uniform {p : Nat × Nat × Nat × Nat} {rest : List (Nat × Nat × Nat × Nat)} {t : State} (hfirst : ps = p :: rest) (hU : u.vIsU f.a.toNat = true)
    (hw : s.Writes u (u.guard f.pred f.pneg) f.d.toNat true (s.padWord p.2.2.1 p.2.2.2) t) : exec (.waita f) s = .next (t.advance i) := by
  rw [waita_runs h hact hg hps hpoison hhit hready (hw.way.imp_right fun ht => ⟨hU, ht⟩), hU, hfirst]
  exact State.next_finish_done (hw.writeV hact hhit .done) i u

theorem waita_lanes {s1 : State} {u1 : SUnit} (hU : u.vIsU f.a.toNat = false) (hs : u.isStrand = true)
    (hrows : s.ensureRows u [f.d.toNat, f.d.toNat + 1] = .ok (s1, u1)) :
    exec (.waita f) s = .next ((s1.putLanes u1 (u.guard f.pred f.pneg).mask f.d.toNat true (s.waitedWord ps)).advance i) := by
  have hlo : u1.lo = u.lo := by
    obtain ⟨tbl, rfl⟩ := State.ensureRows_unit _ hrows
    rfl
  have hvals (high : Bool) := laneValues_waited s u ps high
  rw [← hlo] at hvals
  rw [waita_runs h hact hg hps hpoison hhit hready (.inl hs), hU]
  refine (State.next_finish_done (State.writeV_rows (ws := loadParts u true false f.d.toNat _) hact hhit (fun _ => rfl) hs hrows .done) i u).trans ?_
  show Host.Outcome.next ((((s1.writeLanes u1 f.d.toNat _ (laneValues u _ false)).writeLanes u1 (f.d.toNat + 1) _ (laneValues u _ true))).advance i) = _
  rw [hvals, hvals]
  rfl

end Waits

end Sys2Proof.Machine
end
section
/-! SUPPORT. The statement about barriers and the SYN class (O36). -/

namespace Sys2Proof.Machine
set_option Elab.async false

/-- Settles O36: each word by what it does on its barrier, and how a barrier counts. -/
theorem barrierWords : Obligations.BarrierWords := by
  unfold Obligations.BarrierWords
  refine ⟨?words, fun f s i u h hidle => syn_idle hidle h, ?without, ?notBroken, ?past, ?arrivals, ?stored⟩
  case words =>
    intro f s i u gr b h hact hg hb g n c v
    refine ⟨bari_makes h hact hg hb, fun b1 t => bara_counted h hact hg hb, fun t => bara_broken h hact hg hb,
      fun hway hregion => ⟨fun hstate => ?uninit, bara_mismatch h hact hg hb hway hregion⟩, ?barw, barx_counts h hact hg hb, ?barc,
      barc_illegal h hact hg hb, fun t => barq_owes h hact hg hb, fun hclear => ?clear, fun hpips hlive hsole => ?pips, ?waita⟩
    case uninit => exact ⟨bara_uninit h hact hg hb hway hregion hstate, barw_uninit h hact hg hb hstate, barx_uninit h hact hg hb hregion hstate⟩
    case clear =>
      rw [pipw_runs h hact hg, if_pos hclear]
      rfl
    case pips =>
      have hrun := pipw_runs h hact hg
      rw [if_neg hpips] at hrun
      exact ⟨_, _, hrun, (h.finish_again hlive hsole _).2, rfl⟩
    case barw =>
      intro phases hstate hhit
      refine ⟨fun t => barw_passed h hact hg hb hstate hhit, fun t hin => barw_broken h hact hg hb hstate hhit hin, fun hin hbroken hlive hsole => ?_⟩
      obtain ⟨t, hrun, hissue, hunit⟩ := barw_waits h hact hg hb hstate hhit hin hbroken hlive hsole
      exact ⟨t, hrun, hissue, _, hunit, rfl, rfl⟩
    case barc =>
      intro hU hmask code
      refine ⟨fun b1 harr hcont => ?_, fun b1 c0 t => barc_otherAddress h hact hg hb hU hmask, fun t => barc_broken h hact hg hb hU hmask,
        fun hregion => ⟨barc_uninit h hact hg hb hU hmask hregion, barc_mismatch h hact hg hb hU hmask hregion⟩⟩
      have hrun := barc_leaves h hact hg hb hU hmask harr hcont
      refine ⟨fun hall => ?_, fun hsome => ?_⟩
      · rw [State.leave_all (u := u.noRegion) hall] at hrun
        exact hrun
      · rw [State.leave_some (u := u.noRegion) hsome] at hrun
        exact hrun
    case waita =>
      intro ps hps hpoison hhit hready
      exact ⟨fun p rest t => waita_uniform h hact hg hps hpoison hhit hready, fun s1 u1 => waita_lanes h hact hg hps hpoison hhit hready⟩
  case without =>
    intro u g
    unfold SUnit.without
    refine ⟨fun hs => if_pos hs, fun hs hlo => ?_, fun hs hlo => ?_⟩
    · rw [hs, if_neg Bool.false_ne_true, if_pos hlo]
    · rw [hs, if_neg Bool.false_ne_true, if_neg hlo]
  case notBroken => exact fun s g n b code hg hb hidle hopen => ⟨g, State.group?_breakBar_kept hg hb hidle hopen code, rfl⟩
  case past =>
    intro s g n k b hg hb hstate harr hpos hpast hk
    obtain ⟨g', hg', hb'⟩ := State.group?_countPerformed_past hg hb hstate harr hpos hpast hk
    exact ⟨g', hg', _, hb', rfl, rfl, rfl, rfl⟩
  case arrivals =>
    exact fun b g m items hstate hin => ⟨Barrier.arrive_first hstate hin, Barrier.arrive_later hstate hin, fun m' => Barrier.arrive_mismatch hstate⟩
  case stored =>
    intro s g n b hg hn hstate
    obtain ⟨g', hg', hbars⟩ := State.group?_putBar hg n b
    have hthis : g'.bars[n]? = some b.settled := by rw [hbars, getElem?_setAt_self hn]
    refine ⟨g', hg', fun harr hbytes => ?_, fun harr => ?_, fun harr hbytes => ?_, fun k hk => ?_⟩
    · rw [hthis, Barrier.settled_complete hstate harr hbytes]
      rfl
    · rw [hthis, Barrier.settled_overflow hstate harr]
      rfl
    · rw [hthis, Barrier.settled_waits harr.le hbytes (.inl harr.ne)]
    · rw [hbars, getElem?_setAt_ne _ hk]

end Sys2Proof.Machine
end
section
/-! SUPPORT. The words of the ASY class (O35): R119, R131, R359 to R361, R370 to R372, R411, R215. -/

namespace Sys2Proof.Machine
set_option Elab.async false

/-! Entries handed to a queue (R131). -/

theorem State.finish_holdPort (t : State) (i : Issue) (u v : SUnit) (queue : Nat) : State.finish i u (t.holdPort i v queue) = t.handed i v queue := by
  unfold State.holdPort State.handed
  split
  · rfl
  · rfl

/-- A unit with an operation more in its open batch (R119). -/
def SUnit.batching (op : Nat) (u : SUnit) : SUnit := { u with openB := u.openB ++ [op] }

/-- What a copy of a unit leaves (R119, R131, R360). -/
theorem State.enterCopy_enters {s : State} {u : SUnit} (hu : s.unit? u.id = some u) (engine item : Nat) (job : EngJob) :
    let t := s.enterCopy u engine item job
    ∃ (e : EngEntry) (o : PendOp) (x : SUnit), t.engq = s.engq ++ [e] ∧ t.pend = s.pend ++ [o] ∧ t.unit? u.id = some x ∧ x.openB = u.openB ++ [o.id]
      ∧ e.core = u.core ∧ e.queue = engine ∧ e.item = item ∧ e.job = job ∧ e.op = o.id ∧ e.launch = u.launch ∧ o.targets = [u.id] ∧ o.wait = .entries 1
      ∧ x.v = u.v ∧ t.mem = s.mem ∧ t.pad = s.pad := by
  have hunit : (s.enterCopy u engine item job).unit? u.id = some (u.batching s.nextId) :=
    (State.unit?_updUnit _ u.id (SUnit.batching s.nextId) fun _ => rfl).trans (congrArg (Option.map _) hu)
  exact ⟨_, _, _, rfl, rfl, hunit, rfl, rfl, rfl, rfl, rfl, rfl, rfl, rfl, rfl, rfl, rfl, rfl⟩

/-- An active item, and work that is not handed over yet. -/
theorem asy_goes {f : FmtX} {i : Issue} {u : SUnit} (hact : u.anyActive (u.guard f.pred f.pneg) = true) (hentered : i.entered = false) :
    ¬(!u.anyActive (u.guard f.pred f.pneg) || i.entered) = true := by
  rw [hact, hentered]
  decide

/-- The entries that a QFEN of a unit orders (R370). -/
def State.fencedBy (s : State) (u : SUnit) (m : BitVec 6) : List Nat := (s.entries.filter (fun e => u.fences e && m.getLsbD e.queue)).map (·.id)

theorem State.mem_fencedBy {s : State} {u : SUnit} {e : EngEntry} {m : BitVec 6} (he : e ∈ s.entries) (hlaunch : e.launch = u.launch)
    (hof : e.core = u.core ∨ (e.group.isSome = true ∧ e.group = u.group) ∨ u.holdsItem e.item = true) (hm : m.getLsbD e.queue = true) :
    e.id ∈ s.fencedBy u m := by
  refine List.mem_map_of_mem (List.mem_filter.mpr ⟨he, ?_⟩)
  unfold SUnit.fences
  rcases hof with hc | ⟨hg, hg'⟩ | hi
  · simp [hlaunch, hc, hm]
  · simp [hlaunch, hg', hm, hg' ▸ hg]
  · simp [hlaunch, hi, hm]

/-- A unit with a fence more. -/
def SUnit.fenced (m : BitVec 6) (ids : List Nat) (u : SUnit) : SUnit := { u with qfens := u.qfens ++ [(m, ids)] }

/-- The counts that ASTAT gives (R372). -/
def SUnit.batchCounts (u : SUnit) : Nat :=
  ((u.closed.map (fun b => b.2.length)).foldl (· + ·) 0 + u.openB.length) * 0x10000 + (u.openB.length % 256) * 0x100 + u.closed.length

theorem oneValue_ofNat (d n : Nat) : oneValue d false (BitVec.ofNat 64 (n % 2 ^ 32)) = [(d, .u (BitVec.ofNat 32 n))] := by
  have h : BitVec.ofNat 64 (n % 2 ^ 32) = (BitVec.ofNat 32 n).setWidth 64 := by
    refine BitVec.eq_of_toNat_eq ?_
    rw [BitVec.toNat_ofNat, BitVec.toNat_setWidth, BitVec.toNat_ofNat]
  rw [h, oneValue_setWidth, BitVec.setWidth_eq]

/-- The cards of a BCP or BXF once there is work to hand over: the check of their barrier, and a copy for each active item (R361, R411). -/
def State.cardsOn (s : State) (i : Issue) (u : SUnit) (f : FmtX) (bxf : Bool) : Res :=
  let engine := if f.ctrl.getLsbD 0 then 1 else 0
  let bar := if f.ctrl.getLsbD 1 then some f.imm8.toNat else none
  match copyBarrier (s.groupOf u) bar with
  | some n => .trap s causeBarstate (BitVec.ofNat 64 n)
  | none => ((u.active (u.guard f.pred f.pneg)).foldl (fun t k => t.enterCopy u engine k (.card bxf (s.wAt u f.a.toNat k) bar)) s).holdPort i u engine

/-! The words, with an active item. -/

section Words
variable {f : FmtX} {s : State} {i : Issue} {u : SUnit} (h : s.AtHead i u) (hact : u.anyActive (u.guard f.pred f.pneg) = true)
include h hact

omit hact in
/-- A word that has handed its work over goes on (R131). -/
theorem asy_entered (hentered : i.entered = true) :
    ∀ ins ∈ [Instr.acp f, .bcp f, .bxf f, .coll f], exec ins s = .next ((s.closeRegion u).advance i) := by
  have hacp : execAcp f s = _ := h.runClosing _
  have hbcp : s.runCards f false = _ := h.runClosing _
  have hbxf : s.runCards f true = _ := h.runClosing _
  have hcoll : execColl f s = _ := h.runClosing _
  dsimp only at hacp hbcp hbxf hcoll
  rw [hentered, Bool.or_true, if_pos rfl] at hacp hbcp hbxf hcoll
  simp only [List.forall_mem_cons]
  exact ⟨hacp, hbcp, hbxf, hcoll, List.forall_mem_nil _⟩

section Fresh
variable (hentered : i.entered = false)
include hentered

/-- COLL (R371). -/
theorem coll_enters :
    let r := (s.closeRegion u).addPend u.noRegion (.entries (u.active (u.guard f.pred f.pneg)).length) [] false true false
    exec (.coll f) s = .next (((u.active (u.guard f.pred f.pneg)).foldl (fun t k =>
      let e := t.mkEntry u.noRegion r.1 4 0 k 0 (.coll (s.wAt u f.a.toNat k))
      e.2.enqueue e.1) r.2).handed i u.noRegion 4) := by
  have hrun : execColl f s = _ := h.runClosing _
  refine Eq.trans hrun ?_
  rw [if_neg (asy_goes (u := u.noRegion) hact hentered), State.wAt_closeRegion]
  exact congrArg Host.Outcome.next (State.finish_holdPort ..)

theorem runCards_runs {bxf : Bool} (hdealt : u.kind ≠ .undealt ∨ bxf = true) :
    s.runCards f bxf = .next (State.finish i u ((s.closeRegion u).cardsOn i u.noRegion f bxf)) := by
  have hrun : s.runCards f bxf = _ := h.runClosing _
  have hgo : ¬(decide (u.noRegion.kind = .undealt) && !bxf) = true := by
    rcases hdealt with hk | hb
    · rw [decide_eq_false (show u.noRegion.kind ≠ .undealt from hk)]
      exact Bool.false_ne_true
    · rw [hb, Bool.not_true, Bool.and_false]
      exact Bool.false_ne_true
  rw [hrun, if_neg (asy_goes (u := u.noRegion) hact hentered), if_neg hgo]
  rfl

theorem runCards_enters {bxf : Bool} (hdealt : u.kind ≠ .undealt ∨ bxf = true)
    (hbar : copyBarrier (s.groupOf u) (if f.ctrl.getLsbD 1 then some f.imm8.toNat else none) = none) :
    let bar := if f.ctrl.getLsbD 1 then some f.imm8.toNat else none
    let engine := if f.ctrl.getLsbD 0 then 1 else 0
    s.runCards f bxf = .next (((u.active (u.guard f.pred f.pneg)).foldl (fun t k => t.enterCopy u.noRegion engine k (.card bxf (s.wAt u f.a.toNat k) bar))
      (s.closeRegion u)).handed i u.noRegion engine) := by
  rw [runCards_runs h hact hentered hdealt, State.cardsOn, State.groupOf_closeRegion, State.wAt_closeRegion]
  dsimp only
  rw [hbar]
  exact congrArg Host.Outcome.next (State.finish_holdPort ..)

theorem runCards_traps {bxf : Bool} {n : Nat} (hdealt : u.kind ≠ .undealt ∨ bxf = true)
    (hbar : copyBarrier (s.groupOf u) (if f.ctrl.getLsbD 1 then some f.imm8.toNat else none) = some n) (hregion : u.region = none) :
    s.runCards f bxf = s.trapped i u causeBarstate (BitVec.ofNat 64 n) false := by
  rw [runCards_runs h hact hentered hdealt, State.cardsOn, State.groupOf_closeRegion, State.wAt_closeRegion, hbar,
    State.closeRegion_of_none hregion]
  exact h.finish_trap ..

/-- ACP (R360). -/
theorem acp_enters (hdealt : u.kind ≠ .undealt)
    (hbar : copyBarrier (s.groupOf u) (if f.ctrl.getLsbD 4 then some f.imm8.toNat else none) = none) :
    let g := u.guard f.pred f.pneg
    let size := 4 * 2 ^ (f.ctrl.extractLsb' 0 2).toNat
    let engine := if f.ctrl.getLsbD 2 then 1 else 0
    let bar := if f.ctrl.getLsbD 4 then some f.imm8.toNat else none
    let word := if f.ctrl.getLsbD 5 then some (s.vAt u f.c.toNat (u.lowest g)).toNat else none
    acpMisaligned size (u.lowest g) word ((u.active g).map (fun k => (k, (s.vAt u f.d.toNat k).toNat, (s.wAt u f.a.toNat k).toNat))) = none →
    exec (.acp f) s = .next (((s.closeRegion u).enterCopy u.noRegion engine (u.lowest g) (.acp size ((u.active g).map (fun k =>
      ((s.vAt u f.d.toNat k).toNat, s.wAt u f.a.toNat k, if f.ctrl.getLsbD 3 then min (s.vAt u f.b.toNat k).toNat size else size)))
      (word.map (fun w => (w, (f.ctrl.extractLsb' 8 8).toNat))) bar)).handed i u.noRegion engine) := by
  intro g size engine bar word haligned
  have hrun : execAcp f s = _ := h.runClosing _
  refine Eq.trans hrun ?_
  rw [if_neg (asy_goes (u := u.noRegion) hact hentered), if_neg (show u.noRegion.kind ≠ .undealt from hdealt), State.groupOf_closeRegion, hbar,
    State.wAt_closeRegion, State.vAt_closeRegion]
  dsimp only [g, size, word] at haligned ⊢
  rw [SUnit.noRegion_guard, SUnit.noRegion_lowest, SUnit.noRegion_active, haligned]
  exact congrArg Host.Outcome.next (State.finish_holdPort ..)

end Fresh

/-! Batches (R119, R359). -/

theorem aseal_seals : exec (.aseal f) s = .next ((((s.closeRegion u).fresh).2.updUnit u.id
    (fun x => { x with closed := x.closed ++ [((s.closeRegion u).fresh.1, x.openB)], openB := [] }.trimBatches (fun _ => true))).advance i) := by
  have hrun : execAseal f s = _ := h.runClosing _
  refine Eq.trans hrun ?_
  rw [show u.noRegion.anyActive (u.noRegion.guard f.pred f.pneg) = true from hact]
  rfl

theorem await_runs : exec (.await f) s = .next (State.finish i u (if u.closed.length ≤ f.imm8.toNat then .done s
    else .again (s.updUnit u.id (fun x => { x with wait := .await f.imm8.toNat })))) := by
  have hrun : execAwait f s = _ := h.runWord _
  refine Eq.trans hrun ?_
  dsimp only
  rw [hact, Bool.not_true, Bool.false_or]
  simp only [decide_eq_true_eq]

/-! QFEN and ASTAT (R370, R372). -/

theorem qfen_runs : exec (.qfen f) s = .next (State.finish i u (if f.ctrl.extractLsb' 0 6 = 0 then .done s
    else
      let ids := s.fencedBy u (f.ctrl.extractLsb' 0 6)
      .done ((s.addPend u (.fence ids) [] false true false).2.updUnit u.id (SUnit.fenced (f.ctrl.extractLsb' 0 6) ids)))) := by
  have hrun : execQfen f s = _ := h.runWord _
  refine Eq.trans hrun ?_
  dsimp only
  rw [hact, Bool.not_true, Bool.false_or]
  simp only [decide_eq_true_eq]
  rfl

theorem qfen_fences (hm : f.ctrl.extractLsb' 0 6 ≠ 0) :
    ∃ t : State, exec (.qfen f) s = .next (t.advance i) ∧ (∃ o ∈ t.pend, o.wait = .fence (s.fencedBy u (f.ctrl.extractLsb' 0 6)) ∧ o.targets = [u.id])
      ∧ t.unit? u.id = some (u.fenced (f.ctrl.extractLsb' 0 6) (s.fencedBy u (f.ctrl.extractLsb' 0 6))) := by
  have hrun := qfen_runs h hact
  rw [if_neg hm] at hrun
  refine ⟨_, hrun, ⟨_, List.mem_append_right _ List.mem_cons_self, rfl, rfl⟩, ?_⟩
  exact (State.unit?_updUnit _ u.id (SUnit.fenced _ _) fun _ => rfl).trans (congrArg (Option.map _) h.unit_self)

theorem astat_owes {t : State} (hhit : u.regionHit [f.d.toNat] [] = none)
    (how : s.Owes u (u.guard f.pred f.pneg) false .ready f.d.toNat false (BitVec.ofNat 64 (u.batchCounts % 2 ^ 32)) t) :
    exec (.astat f) s = .next (t.advance i) := by
  have howed := how.deferV hhit
  rw [oneValue_ofNat] at howed
  have hrun : execAstat f s = _ := h.runWord _
  refine Eq.trans hrun ?_
  dsimp only
  rw [hact]
  exact State.next_finish_done howed i u

end Words

/-- Settles O35: each word by what it enters or waits for, and what a copy leaves. -/
theorem asyncWords : Obligations.AsyncWords := by
  unfold Obligations.AsyncWords
  refine ⟨fun f s i u h hact => ?_, fun s u engine item job hu => State.enterCopy_enters hu engine item job⟩
  intro g c v
  refine ⟨?acp, ?cards, ?traps, aseal_seals h hact, fun hfew => ?few, fun hmany hlive hsole => ?many, coll_enters h hact, asy_entered h,
    fun hm => ?none, fun hm => ?fences, fun t => astat_owes h hact⟩
  case acp =>
    intro size engine bar word hentered hdealt hbar haligned
    have hsize : f.ctrl.toNat % 4 = (f.ctrl.extractLsb' 0 2).toNat := by
      rw [BitVec.extractLsb'_toNat]
      rfl
    have hmark : f.ctrl.toNat / 256 = (f.ctrl.extractLsb' 8 8).toNat := by
      have hlt := f.ctrl.isLt
      rw [BitVec.extractLsb'_toNat]
      omega
    dsimp only [size, word] at haligned ⊢
    rw [hsize] at haligned ⊢
    rw [hmark]
    exact acp_enters h hact hentered hdealt hbar haligned
  case cards =>
    intro bar engine cards hentered hbar
    exact ⟨fun hdealt => runCards_enters h hact hentered (.inl hdealt) hbar, runCards_enters h hact hentered (.inr rfl) hbar⟩
  case traps =>
    intro bar n hentered hbar hregion hdealt
    exact ⟨runCards_traps h hact hentered (.inl hdealt) hbar hregion, runCards_traps h hact hentered (.inl hdealt) hbar hregion⟩
  case few =>
    rw [await_runs h hact, if_pos hfew]
    rfl
  case many =>
    have hrun := await_runs h hact
    rw [if_neg (Nat.not_le.mpr hmany)] at hrun
    obtain ⟨hissue, hunit⟩ := h.finish_again hlive hsole (.await f.imm8.toNat)
    exact ⟨_, hrun, hissue, _, hunit, rfl, rfl, rfl⟩
  case none =>
    rw [qfen_runs h hact, if_pos hm]
    rfl
  case fences =>
    obtain ⟨t, hrun, hpend, hunit⟩ := qfen_fences h hact hm
    exact ⟨t, _, hrun, fun e he hlaunch hof hq => State.mem_fencedBy he hlaunch hof hq, hpend, _, hunit, rfl⟩

end Sys2Proof.Machine
end
